-- ==== Sys2Proof/Word.lean ====
section
/-! DEFINITION. The word types of the device (00_scope.md R13: registers are 64 bits wide; R6: memory is bytes;
R7: a device address is 52 bits wide). -/

namespace Sys2Proof

/-- A 64-bit register or memory word (R13). -/
abbrev Word := BitVec 64

/-- One byte of memory (R6). -/
abbrev Byte := BitVec 8

/-- A 52-bit device address (R7). -/
abbrev Addr := BitVec 52

end Sys2Proof
end

