-- ==== Sys2Proof/Syntax.lean ====
section
/-! DEFINITION. The commands that the device takes: the rows of spec/opcode_table.json with their operands. A register
write or read names the register's instance and the value; a tile instruction names the tile that runs it and the
fields of its encoding; an event names the unit it happens to. -/

namespace Sys2Proof

/-- Who sends a register access: steward firmware, the software of a tile, or host software through a function. -/
inductive Agent where
  | steward
  | tile (t : Fin 128)
  | host (f : Fin 32)
  deriving DecidableEq, Repr

/-- What the arithmetic checks of an array operation found (05_matrix_arrays.md R151 to R153, R159): the row of each
column mismatch, the number of row-check mismatches, and the row of each OPE residue mismatch, all in the order in which
they occur. In correct operation there is none; a mismatch is a fault of the hardware, so it comes from outside. -/
structure MatFault where
  cols   : List Nat
  sums   : Nat
  blocks : List Nat
  deriving DecidableEq, Repr


/-- The eCPRI header of a received message (06_fronthaul_and_slots.md R177, R178): revision, C bit, message type,
ecpriPcid or ecpriRtcid, sequence ID, E bit, subsequence ID, and whether ecpriPayload fits the frame. -/
structure EcpriHdr where
  rev   : BitVec 4
  c     : Bool
  mtype : BitVec 8
  id    : BitVec 16
  seq   : BitVec 8
  e     : Bool
  sub   : BitVec 7
  lenOk : Bool
  deriving DecidableEq, Repr

/-- A received U-plane section with its message's fields (R180, R183): the PRBs are exponents with 24 mantissas, I and
Q of each RE in turn. `hdr` is the udCompHdr that a dynamic section carries: udCompMeth and udIqWidth. -/
structure Section where
  eaxc     : BitVec 16
  version  : BitVec 3
  frame    : BitVec 8
  subframe : BitVec 4
  slot     : BitVec 6
  symbol   : BitVec 6
  rb       : Bool
  symInc   : Bool
  start    : BitVec 10
  num      : BitVec 8
  hdr      : Option (BitVec 4 × BitVec 4)
  prbs     : List (BitVec 4 × List Int)
  deriving DecidableEq, Repr

/-- A PTP frame that steward firmware sends: messageType, sequenceId, domainNumber and the bytes of the frame, from its
destination address on (R54, R200). -/
structure PtpFrame where
  msg    : BitVec 4
  seq    : BitVec 16
  domain : BitVec 8
  body   : List Byte
  deriving DecidableEq, Repr

/-- What a collective message carries (11_collectives.md R345, R354, R355, R363 to R366): data of a PUT, or of an AREDUCE
with its formats; a piece of an exchange slot; a report, the COMMIT decision, an ABORT with the first detecting member
and the cause; a returned credit; the acknowledgement of a whole slot. The spec gives these messages no bit layout. -/
inductive CollKind where
  | data (areduce : Bool) (df red : BitVec 2) (aw bw : Bool) (ctr : BitVec 6) (last : Bool) (bytes : List Byte)
  | slot (dir : Bool) (hamlet : Fin 8) (set : BitVec 2) (src : BitVec 12) (off : Nat) (last : Bool)
      (bytes : List Byte)
  | report (member : BitVec 12)
  | commit
  | abort (src : BitVec 12) (cause : BitVec 3)
  | credit (dir : Bool) (set : BitVec 2) (rank : BitVec 12)
  | slotAck (dir : Bool) (hamlet : Fin 8) (set : BitVec 2) (rank : BitVec 12)
  deriving DecidableEq, Repr

/-- A collective message: the sender's program slot and epoch (R346), and what it carries. -/
structure CollMsg where
  prog  : Fin 32
  epoch : BitVec 32
  kind  : CollKind
  deriving DecidableEq, Repr

/-- The header of a fabric packet (12_rack_fabric.md R376) without TYPE, which the packet's body gives. -/
structure PktHdr where
  cls    : BitVec 4
  hops   : BitVec 2
  hop    : BitVec 2
  p0     : BitVec 6
  p1     : BitVec 6
  p2     : BitVec 6
  dst    : BitVec 12
  src    : BitVec 12
  seq    : BitVec 32
  key    : BitVec 32
  sendNs : BitVec 40
  sinc   : BitVec 8
  dinc   : BitVec 8
  words  : BitVec 4
  op     : BitVec 4
  bytes  : BitVec 9
  addr   : BitVec 52
  deriving DecidableEq, Repr

/-- The TYPE and data words of a packet (R377): the bytes written or returned, an atomic's operand, compare value and
REQID, its old value, a collective message, a failed path's ports. -/
inductive PktBody where
  | write (data : List Byte)
  | read
  | readRsp (data : List Byte)
  | atomic (operand compare : Word) (req : BitVec 32)
  | atomicRsp (old : Word) (req : BitVec 32)
  | ack
  | nak
  | coll (m : CollMsg)
  | pathFail (p0 p1 p2 : BitVec 6)
  deriving DecidableEq, Repr

/-- A fabric packet; its data words that travel with wrong check bytes, numbered from 1, with the difference (R382). -/
structure Packet where
  hdr  : PktHdr
  body : PktBody
  errs : List (Nat × BitVec 32)
  deriving DecidableEq, Repr

/-- The errors of a link in the words of a packet: for a word, 0 the header, by how much its check bytes differ from
those of its data (08_memory_tiers.md R263). What the memory code makes of a difference is R264's; the packet beside it
is as the code leaves it. -/
structure LinkErr where
  diffs : List (Nat × BitVec 32)
  deriving DecidableEq, Repr

/-- What a poll of a rail reads over PMBus (15_power_reset_configuration.md R462): STATUS_WORD, and the voltage in mV,
the current in 0.1 A and the power in 0.1 W. -/
structure PmbRead where
  status : BitVec 16
  vout   : BitVec 16
  iout   : BitVec 16
  pout   : BitVec 16
  deriving DecidableEq, Repr

/-- The commands of the device: one constructor for each row of the table of operations and events. -/
inductive Instr where
  /-- REGISTER_WRITE (R16). -/
  | registerWrite (ag : Agent) (off : BitVec 40) (v : Word)
  /-- TB_SNAP (R45). -/
  | tbSnap (v : Word)
  /-- TB_RATE_WRITE (R47). -/
  | tbRateWrite (v : Word)
  /-- TB_ADJ_WRITE (R49). -/
  | tbAdjWrite (v : Word)
  /-- SLEW_END (R48). -/
  | slewEnd
  /-- TB_SLEW_MAX_WRITE (R50). -/
  | tbSlewMaxWrite (v : Word)
  /-- TB_STEP_GO (R51). -/
  | tbStepGo (v : Word)
  /-- STEP_APPLY (R51). -/
  | stepApply
  /-- FREERUN (R52). -/
  | freerun (guard : Bool)
  /-- ACQUIRE (R52). -/
  | acquire (guard : Bool)
  /-- HOLDOVER (R52). -/
  | holdover (guard : Bool)
  /-- HOLD_TIMEOUT (R52). -/
  | holdTimeout
  /-- FSRC_LOSS (R57). -/
  | fsrcLoss
  /-- FSRC_RELOCK (R57). -/
  | fsrcRelock
  /-- PPS_OUT_EDGE (R58). -/
  | ppsOutEdge
  /-- PPS_IN_EDGE (R58). -/
  | ppsInEdge
  /-- TB_PORT_TS_LO_READ (R61). -/
  | tbPortTsLoRead (port : Fin 16)
  /-- TB_PORT_TS_STAT_READ (R62). -/
  | tbPortTsStatRead (port : Fin 16)
  /-- ARM (R69). -/
  | arm (h : Fin 9) (n : Fin 64) (v : Word)
  /-- DISARM (R70). -/
  | disarm (h : Fin 9) (n : Fin 64) (v : Word)
  /-- BELL_FIRE (R66). -/
  | bellFire (h : Fin 9) (n : Fin 64)
  /-- WAKE (R457). -/
  | wake
  /-- LAUNCH (R411). -/
  | launch
  /-- GANG_START (R165). -/
  | gangStart
  /-- DMA_START (R421). -/
  | dmaStart
  /-- FH_TX_OPEN (R196). -/
  | fhTxOpen
  /-- FH_RX_OPEN (R196). -/
  | fhRxOpen
  /-- DOORBELL (R446). -/
  | doorbell
  /-- EVENT (R100). -/
  | event
  /-- COLL_PHASE (R343). -/
  | collPhase
  /-- CONFIG_ACTIVATE (R470). -/
  | configActivate
  /-- BELL_STAT_READ (R74). -/
  | bellStatRead (ag : Agent) (h : Fin 9)
  /-- ADD (R85). -/
  | add (t : Fin 128) (d : Fin 64) (a : Fin 64) (b : Fin 64)
  /-- SUB (R85). -/
  | sub (t : Fin 128) (d : Fin 64) (a : Fin 64) (b : Fin 64)
  /-- AND (R85). -/
  | and (t : Fin 128) (d : Fin 64) (a : Fin 64) (b : Fin 64)
  /-- OR (R85). -/
  | or (t : Fin 128) (d : Fin 64) (a : Fin 64) (b : Fin 64)
  /-- XOR (R85). -/
  | xor (t : Fin 128) (d : Fin 64) (a : Fin 64) (b : Fin 64)
  /-- SHL (R85). -/
  | shl (t : Fin 128) (d : Fin 64) (a : Fin 64) (b : Fin 64)
  /-- SHR (R85). -/
  | shr (t : Fin 128) (d : Fin 64) (a : Fin 64) (b : Fin 64)
  /-- SRA (R85). -/
  | sra (t : Fin 128) (d : Fin 64) (a : Fin 64) (b : Fin 64)
  /-- SLT (R85). -/
  | slt (t : Fin 128) (d : Fin 64) (a : Fin 64) (b : Fin 64)
  /-- SLTU (R85). -/
  | sltu (t : Fin 128) (d : Fin 64) (a : Fin 64) (b : Fin 64)
  /-- MIN (R85). -/
  | min (t : Fin 128) (d : Fin 64) (a : Fin 64) (b : Fin 64)
  /-- MAX (R85). -/
  | max (t : Fin 128) (d : Fin 64) (a : Fin 64) (b : Fin 64)
  /-- MINU (R85). -/
  | minu (t : Fin 128) (d : Fin 64) (a : Fin 64) (b : Fin 64)
  /-- MAXU (R85). -/
  | maxu (t : Fin 128) (d : Fin 64) (a : Fin 64) (b : Fin 64)
  /-- MUL (R85). -/
  | mul (t : Fin 128) (d : Fin 64) (a : Fin 64) (b : Fin 64)
  /-- MULH (R85). -/
  | mulh (t : Fin 128) (d : Fin 64) (a : Fin 64) (b : Fin 64)
  /-- MULHU (R85). -/
  | mulhu (t : Fin 128) (d : Fin 64) (a : Fin 64) (b : Fin 64)
  /-- DIV (R85). -/
  | div (t : Fin 128) (d : Fin 64) (a : Fin 64) (b : Fin 64)
  /-- DIVU (R85). -/
  | divu (t : Fin 128) (d : Fin 64) (a : Fin 64) (b : Fin 64)
  /-- REM (R85). -/
  | rem (t : Fin 128) (d : Fin 64) (a : Fin 64) (b : Fin 64)
  /-- REMU (R85). -/
  | remu (t : Fin 128) (d : Fin 64) (a : Fin 64) (b : Fin 64)
  /-- POPC (R85). -/
  | popc (t : Fin 128) (d : Fin 64) (a : Fin 64)
  /-- CLZ (R85). -/
  | clz (t : Fin 128) (d : Fin 64) (a : Fin 64)
  /-- CTZ (R85). -/
  | ctz (t : Fin 128) (d : Fin 64) (a : Fin 64)
  /-- ADDI (R85). -/
  | addi (t : Fin 128) (d : Fin 64) (a : Fin 64) (imm : BitVec 14)
  /-- ANDI (R85). -/
  | andi (t : Fin 128) (d : Fin 64) (a : Fin 64) (imm : BitVec 14)
  /-- ORI (R85). -/
  | ori (t : Fin 128) (d : Fin 64) (a : Fin 64) (imm : BitVec 14)
  /-- XORI (R85). -/
  | xori (t : Fin 128) (d : Fin 64) (a : Fin 64) (imm : BitVec 14)
  /-- SHLI (R85). -/
  | shli (t : Fin 128) (d : Fin 64) (a : Fin 64) (imm : BitVec 14)
  /-- SHRI (R85). -/
  | shri (t : Fin 128) (d : Fin 64) (a : Fin 64) (imm : BitVec 14)
  /-- SRAI (R85). -/
  | srai (t : Fin 128) (d : Fin 64) (a : Fin 64) (imm : BitVec 14)
  /-- SLTI (R85). -/
  | slti (t : Fin 128) (d : Fin 64) (a : Fin 64) (imm : BitVec 14)
  /-- SLTIU (R85). -/
  | sltiu (t : Fin 128) (d : Fin 64) (a : Fin 64) (imm : BitVec 14)
  /-- LUI (R85). -/
  | lui (t : Fin 128) (d : Fin 64) (imm : BitVec 20)
  /-- BEQ (R86). -/
  | beq (t : Fin 128) (a : Fin 64) (b : Fin 64) (off : BitVec 14)
  /-- BNE (R86). -/
  | bne (t : Fin 128) (a : Fin 64) (b : Fin 64) (off : BitVec 14)
  /-- BLT (R86). -/
  | blt (t : Fin 128) (a : Fin 64) (b : Fin 64) (off : BitVec 14)
  /-- BGE (R86). -/
  | bge (t : Fin 128) (a : Fin 64) (b : Fin 64) (off : BitVec 14)
  /-- BLTU (R86). -/
  | bltu (t : Fin 128) (a : Fin 64) (b : Fin 64) (off : BitVec 14)
  /-- BGEU (R86). -/
  | bgeu (t : Fin 128) (a : Fin 64) (b : Fin 64) (off : BitVec 14)
  /-- J (R86). -/
  | j (t : Fin 128) (off : BitVec 26)
  /-- JAL (R86). -/
  | jal (t : Fin 128) (off : BitVec 26)
  /-- JALR (R86). -/
  | jalr (t : Fin 128) (d : Fin 64) (a : Fin 64) (imm : BitVec 14)
  /-- LD8S (R87). -/
  | ld8s (t : Fin 128) (d : Fin 64) (a : Fin 64) (imm : BitVec 14)
  /-- LD8U (R87). -/
  | ld8u (t : Fin 128) (d : Fin 64) (a : Fin 64) (imm : BitVec 14)
  /-- LD16S (R87). -/
  | ld16s (t : Fin 128) (d : Fin 64) (a : Fin 64) (imm : BitVec 14)
  /-- LD16U (R87). -/
  | ld16u (t : Fin 128) (d : Fin 64) (a : Fin 64) (imm : BitVec 14)
  /-- LD32S (R87). -/
  | ld32s (t : Fin 128) (d : Fin 64) (a : Fin 64) (imm : BitVec 14)
  /-- LD32U (R87). -/
  | ld32u (t : Fin 128) (d : Fin 64) (a : Fin 64) (imm : BitVec 14)
  /-- LD64 (R87). -/
  | ld64 (t : Fin 128) (d : Fin 64) (a : Fin 64) (imm : BitVec 14)
  /-- ST8 (R87). -/
  | st8 (t : Fin 128) (d : Fin 64) (a : Fin 64) (imm : BitVec 14)
  /-- ST16 (R87). -/
  | st16 (t : Fin 128) (d : Fin 64) (a : Fin 64) (imm : BitVec 14)
  /-- ST32 (R87). -/
  | st32 (t : Fin 128) (d : Fin 64) (a : Fin 64) (imm : BitVec 14)
  /-- ST64 (R87). -/
  | st64 (t : Fin 128) (d : Fin 64) (a : Fin 64) (imm : BitVec 14)
  /-- AMOADD (R88). -/
  | amoadd (t : Fin 128) (d : Fin 64) (a : Fin 64) (b : Fin 64)
  /-- AMOAND (R88). -/
  | amoand (t : Fin 128) (d : Fin 64) (a : Fin 64) (b : Fin 64)
  /-- AMOOR (R88). -/
  | amoor (t : Fin 128) (d : Fin 64) (a : Fin 64) (b : Fin 64)
  /-- AMOXOR (R88). -/
  | amoxor (t : Fin 128) (d : Fin 64) (a : Fin 64) (b : Fin 64)
  /-- AMOMIN (R88). -/
  | amomin (t : Fin 128) (d : Fin 64) (a : Fin 64) (b : Fin 64)
  /-- AMOMAX (R88). -/
  | amomax (t : Fin 128) (d : Fin 64) (a : Fin 64) (b : Fin 64)
  /-- AMOSWAP (R88). -/
  | amoswap (t : Fin 128) (d : Fin 64) (a : Fin 64) (b : Fin 64)
  /-- AMOCAS (R88). -/
  | amocas (t : Fin 128) (d : Fin 64) (a : Fin 64) (b : Fin 64)
  /-- VADD (R90). -/
  | vadd (t : Fin 128) (d : Fin 32) (a : Fin 32) (b : Fin 32) (pg : Fin 8) (sz : Fin 4)
  /-- VSUB (R90). -/
  | vsub (t : Fin 128) (d : Fin 32) (a : Fin 32) (b : Fin 32) (pg : Fin 8) (sz : Fin 4)
  /-- VADDS (R90). -/
  | vadds (t : Fin 128) (d : Fin 32) (a : Fin 32) (b : Fin 32) (pg : Fin 8) (sz : Fin 4)
  /-- VSUBS (R90). -/
  | vsubs (t : Fin 128) (d : Fin 32) (a : Fin 32) (b : Fin 32) (pg : Fin 8) (sz : Fin 4)
  /-- VMUL (R90). -/
  | vmul (t : Fin 128) (d : Fin 32) (a : Fin 32) (b : Fin 32) (pg : Fin 8) (sz : Fin 4)
  /-- VMULH (R90). -/
  | vmulh (t : Fin 128) (d : Fin 32) (a : Fin 32) (b : Fin 32) (pg : Fin 8) (sz : Fin 4)
  /-- VMIN (R90). -/
  | vmin (t : Fin 128) (d : Fin 32) (a : Fin 32) (b : Fin 32) (pg : Fin 8) (sz : Fin 4)
  /-- VMAX (R90). -/
  | vmax (t : Fin 128) (d : Fin 32) (a : Fin 32) (b : Fin 32) (pg : Fin 8) (sz : Fin 4)
  /-- VAND (R90). -/
  | vand (t : Fin 128) (d : Fin 32) (a : Fin 32) (b : Fin 32) (pg : Fin 8) (sz : Fin 4)
  /-- VOR (R90). -/
  | vor (t : Fin 128) (d : Fin 32) (a : Fin 32) (b : Fin 32) (pg : Fin 8) (sz : Fin 4)
  /-- VXOR (R90). -/
  | vxor (t : Fin 128) (d : Fin 32) (a : Fin 32) (b : Fin 32) (pg : Fin 8) (sz : Fin 4)
  /-- VSHL (R90). -/
  | vshl (t : Fin 128) (d : Fin 32) (a : Fin 32) (b : Fin 32) (pg : Fin 8) (sz : Fin 4)
  /-- VSHR (R90). -/
  | vshr (t : Fin 128) (d : Fin 32) (a : Fin 32) (b : Fin 32) (pg : Fin 8) (sz : Fin 4)
  /-- VSRA (R90). -/
  | vsra (t : Fin 128) (d : Fin 32) (a : Fin 32) (b : Fin 32) (pg : Fin 8) (sz : Fin 4)
  /-- VSEL (R90). -/
  | vsel (t : Fin 128) (d : Fin 32) (a : Fin 32) (b : Fin 32) (pg : Fin 8) (sz : Fin 4)
  /-- VPERM (R90). -/
  | vperm (t : Fin 128) (d : Fin 32) (a : Fin 32) (b : Fin 32) (pg : Fin 8) (sz : Fin 4)
  /-- VREDADD (R90). -/
  | vredadd (t : Fin 128) (d : Fin 32) (a : Fin 32) (pg : Fin 8) (sz : Fin 4)
  /-- VREDMAX (R90). -/
  | vredmax (t : Fin 128) (d : Fin 32) (a : Fin 32) (pg : Fin 8) (sz : Fin 4)
  /-- VFADD (R91). -/
  | vfadd (t : Fin 128) (d : Fin 32) (a : Fin 32) (b : Fin 32) (pg : Fin 8) (sz : Fin 4)
  /-- VFSUB (R91). -/
  | vfsub (t : Fin 128) (d : Fin 32) (a : Fin 32) (b : Fin 32) (pg : Fin 8) (sz : Fin 4)
  /-- VFMUL (R91). -/
  | vfmul (t : Fin 128) (d : Fin 32) (a : Fin 32) (b : Fin 32) (pg : Fin 8) (sz : Fin 4)
  /-- VFMA (R91). -/
  | vfma (t : Fin 128) (d : Fin 32) (a : Fin 32) (b : Fin 32) (pg : Fin 8) (sz : Fin 4)
  /-- VFMIN (R91). -/
  | vfmin (t : Fin 128) (d : Fin 32) (a : Fin 32) (b : Fin 32) (pg : Fin 8) (sz : Fin 4)
  /-- VFMAX (R91). -/
  | vfmax (t : Fin 128) (d : Fin 32) (a : Fin 32) (b : Fin 32) (pg : Fin 8) (sz : Fin 4)
  /-- VCVTI (R91). -/
  | vcvti (t : Fin 128) (d : Fin 32) (a : Fin 32) (pg : Fin 8) (sz : Fin 4)
  /-- VCVTF (R91). -/
  | vcvtf (t : Fin 128) (d : Fin 32) (a : Fin 32) (pg : Fin 8) (sz : Fin 4)
  /-- VCVTW (R91). -/
  | vcvtw (t : Fin 128) (d : Fin 32) (a : Fin 32) (pg : Fin 8) (sz : Fin 4)
  /-- VCVTN (R91). -/
  | vcvtn (t : Fin 128) (d : Fin 32) (a : Fin 32) (pg : Fin 8) (sz : Fin 4)
  /-- VCMPEQ (R92). -/
  | vcmpeq (t : Fin 128) (d : Fin 8) (a : Fin 32) (b : Fin 32) (pg : Fin 8) (sz : Fin 4)
  /-- VCMPLT (R92). -/
  | vcmplt (t : Fin 128) (d : Fin 8) (a : Fin 32) (b : Fin 32) (pg : Fin 8) (sz : Fin 4)
  /-- VCMPLTU (R92). -/
  | vcmpltu (t : Fin 128) (d : Fin 8) (a : Fin 32) (b : Fin 32) (pg : Fin 8) (sz : Fin 4)
  /-- VFCMPLT (R92). -/
  | vfcmplt (t : Fin 128) (d : Fin 8) (a : Fin 32) (b : Fin 32) (pg : Fin 8) (sz : Fin 4)
  /-- PAND (R92). -/
  | pand (t : Fin 128) (d : Fin 8) (a : Fin 8) (b : Fin 8)
  /-- POR (R92). -/
  | por (t : Fin 128) (d : Fin 8) (a : Fin 8) (b : Fin 8)
  /-- PXOR (R92). -/
  | pxor (t : Fin 128) (d : Fin 8) (a : Fin 8) (b : Fin 8)
  /-- PNOT (R92). -/
  | pnot (t : Fin 128) (d : Fin 8) (a : Fin 8)
  /-- PALL (R92). -/
  | pall (t : Fin 128) (d : Fin 8)
  /-- PNONE (R92). -/
  | pnone (t : Fin 128) (d : Fin 8)
  /-- VBCAST (R92). -/
  | vbcast (t : Fin 128) (d : Fin 32) (a : Fin 64) (sz : Fin 4)
  /-- VEXT (R92). -/
  | vext (t : Fin 128) (d : Fin 64) (a : Fin 32) (b : Fin 64) (sz : Fin 4)
  /-- VINS (R92). -/
  | vins (t : Fin 128) (d : Fin 32) (a : Fin 64) (b : Fin 64) (sz : Fin 4)
  /-- VGATHER (R92). -/
  | vgather (t : Fin 128) (d : Fin 32) (a : Fin 64) (b : Fin 32) (sz : Fin 4)
  /-- VSCATTER (R92). -/
  | vscatter (t : Fin 128) (d : Fin 32) (a : Fin 64) (b : Fin 32) (sz : Fin 4)
  /-- PANY (R92). -/
  | pany (t : Fin 128) (d : Fin 64) (a : Fin 8)
  /-- PCNT (R92). -/
  | pcnt (t : Fin 128) (d : Fin 64) (a : Fin 8)
  /-- PFROMG (R92). -/
  | pfromg (t : Fin 128) (d : Fin 8) (a : Fin 64) (b : Fin 64)
  /-- VLD (R93). -/
  | vld (t : Fin 128) (d : Fin 32) (a : Fin 64) (pg : Fin 8) (imm : BitVec 12)
  /-- VST (R93). -/
  | vst (t : Fin 128) (d : Fin 32) (a : Fin 64) (pg : Fin 8) (imm : BitVec 12)
  /-- MLDW (R140). -/
  | mldw (t : Fin 128) (ga : Fin 64) (gb : Fin 64) (arr : Fin 4) (ope : Bool) (tag : Fin 8) (k : BitVec 7) (n : BitVec 7) (wb : BitVec 4) (wf : BitVec 4)
  /-- MSTR (R96). -/
  | mstr (t : Fin 128) (ga : Fin 64) (gb : Fin 64) (arr : Fin 4) (ope : Bool) (tag : Fin 8) (acc : Bool) (m : BitVec 12) (af : BitVec 4) (out : BitVec 2) (gs : Fin 64)
  /-- LIW (R94). -/
  | liw (t : Fin 128) (d : Fin 64) (z : Bool) (imm : BitVec 32)
  /-- FENCE (R106). -/
  | fence (t : Fin 128)
  /-- FENCE_COMPLETE (R106). -/
  | fenceComplete (t : Fin 128)
  /-- FENCEF (R392). -/
  | fencef (t : Fin 128)
  /-- FENCEF_COMPLETE (R392). -/
  | fencefComplete (t : Fin 128)
  /-- CINV (R98). -/
  | cinv (t : Fin 128) (a : Fin 64) (b : Fin 64)
  /-- CINVA (R98). -/
  | cinva (t : Fin 128)
  /-- IINV (R98). -/
  | iinv (t : Fin 128)
  /-- RDT (R98). -/
  | rdt (t : Fin 128) (d : Fin 64)
  /-- RDTS (R98). -/
  | rdts (t : Fin 128) (d : Fin 64)
  /-- WAITT (R99). -/
  | waitt (t : Fin 128) (d : Fin 64) (a : Fin 64)
  /-- WAITT_RESUME (R99). -/
  | waittResume (t : Fin 128)
  /-- WAITE (R100). -/
  | waite (t : Fin 128) (d : Fin 64) (a : Fin 64)
  /-- WAITE_RETURN (R100). -/
  | waiteReturn (t : Fin 128)
  /-- ARMB (R101). -/
  | armb (t : Fin 128) (d : Fin 64) (a : Fin 64) (b : Fin 64)
  /-- DISB (R101). -/
  | disb (t : Fin 128) (d : Fin 64) (a : Fin 64)
  /-- MWAIT (R97). -/
  | mwait (t : Fin 128) (d : Fin 64) (a : Fin 64)
  /-- MWAIT_RETURN (R97). -/
  | mwaitReturn (t : Fin 128)
  /-- MTEST (R97). -/
  | mtest (t : Fin 128) (d : Fin 64) (a : Fin 64)
  /-- KEND (R97). -/
  | kend (t : Fin 128) (a : Fin 64)
  /-- TILE_KERNEL_END (R413). -/
  | tileKernelEnd (t : Fin 128)
  /-- BREAK (R102). -/
  | brk (t : Fin 128)
  /-- ERET (R98). -/
  | eret (t : Fin 128)
  /-- MFS (R79). -/
  | mfs (t : Fin 128) (d : Fin 64) (idx : BitVec 14)
  /-- MTS (R79). -/
  | mts (t : Fin 128) (d : Fin 64) (idx : BitVec 14)
  /-- ILLEGAL_OPCODE (R84). -/
  | illegalOpcode (t : Fin 128) (w0 : BitVec 32) (w1 : BitVec 32)
  /-- CONTEXT_SAVE_DONE (R169). -/
  | contextSaveDone (t : Fin 128)
  /-- STOP (R416). -/
  | stop (t : Fin 128) (c : Fin 256)
  /-- TILE_TEVT_SET (R108). -/
  | tileTevtSet (ag : Agent) (t : Fin 128) (v : Word)
  /-- TILE_RESET (R171). -/
  | tileReset (t : Fin 128) (v : Word)
  /-- TILE_CNT_CORR_READ (R108). -/
  | tileCntCorrRead (t : Fin 128)
  /-- MPY (R115). -/
  | mpy (t : Fin 128) (sat : Bool) (acc : Fin 8) (xr : Fin 8) (xm : Fin 4) (yr : Fin 8) (ym : Fin 4)
  /-- MAC (R115). -/
  | mac (t : Fin 128) (sat : Bool) (acc : Fin 8) (xr : Fin 8) (xm : Fin 4) (yr : Fin 8) (ym : Fin 4)
  /-- MSU (R115). -/
  | msu (t : Fin 128) (sat : Bool) (acc : Fin 8) (xr : Fin 8) (xm : Fin 4) (yr : Fin 8) (ym : Fin 4)
  /-- MACC (R115). -/
  | macc (t : Fin 128) (sat : Bool) (acc : Fin 8) (xr : Fin 8) (xm : Fin 4) (cr : Fin 4) (cm : Fin 4)
  /-- PMAC (R115). -/
  | pmac (t : Fin 128) (sat : Bool) (acc : Fin 8) (xr : Fin 8) (xm : Fin 4) (yr : Fin 8) (ym : Fin 4) (cr : Fin 4) (cm : Fin 4)
  /-- DMAC2 (R115). -/
  | dmac2 (t : Fin 128) (sat : Bool) (acc : Fin 8) (xr : Fin 8) (xm : Fin 4) (yr : Fin 8) (ym : Fin 4)
  /-- SQA (R115). -/
  | sqa (t : Fin 128) (sat : Bool) (acc : Fin 8) (xr : Fin 8) (xm : Fin 4)
  /-- CMPY (R120). -/
  | cmpy (t : Fin 128) (sat : Bool) (acc : Fin 8) (xr : Fin 8) (xm : Fin 4) (yr : Fin 8) (ym : Fin 4)
  /-- CMAC (R120). -/
  | cmac (t : Fin 128) (sat : Bool) (acc : Fin 8) (xr : Fin 8) (xm : Fin 4) (yr : Fin 8) (ym : Fin 4)
  /-- CMSU (R120). -/
  | cmsu (t : Fin 128) (sat : Bool) (acc : Fin 8) (xr : Fin 8) (xm : Fin 4) (yr : Fin 8) (ym : Fin 4)
  /-- CMACJ (R120). -/
  | cmacj (t : Fin 128) (sat : Bool) (acc : Fin 8) (xr : Fin 8) (xm : Fin 4) (yr : Fin 8) (ym : Fin 4)
  /-- CMACC (R120). -/
  | cmacc (t : Fin 128) (sat : Bool) (acc : Fin 8) (xr : Fin 8) (xm : Fin 4) (cr : Fin 4) (cm : Fin 4)
  /-- CMACCJ (R120). -/
  | cmaccj (t : Fin 128) (sat : Bool) (acc : Fin 8) (xr : Fin 8) (xm : Fin 4) (cr : Fin 4) (cm : Fin 4)
  /-- DST (R118). -/
  | dst (t : Fin 128) (sat : Bool) (acc : Fin 8) (yr : Fin 8) (ym : Fin 4) (sh : BitVec 4)
  /-- DSTC (R118). -/
  | dstc (t : Fin 128) (sat : Bool) (acc : Fin 8) (yr : Fin 8) (ym : Fin 4) (sh : BitVec 4)
  /-- ACLR (R115). -/
  | aclr (t : Fin 128) (ad : Fin 8)
  /-- AMOV (R115). -/
  | amov (t : Fin 128) (ad : Fin 8) (aa : Fin 8)
  /-- AADD (R115). -/
  | aadd (t : Fin 128) (sat : Bool) (ad : Fin 8) (aa : Fin 8)
  /-- ASUB (R115). -/
  | asub (t : Fin 128) (sat : Bool) (ad : Fin 8) (aa : Fin 8)
  /-- ASHL (R115). -/
  | ashl (t : Fin 128) (sat : Bool) (ad : Fin 8) (aa : Fin 8) (sh : BitVec 5)
  /-- ATOG (R115). -/
  | atog (t : Fin 128) (g : Fin 64) (aa : Fin 8)
  /-- ATOGH (R115). -/
  | atogh (t : Fin 128) (g : Fin 64) (aa : Fin 8)
  /-- GTOA (R115). -/
  | gtoa (t : Fin 128) (sat : Bool) (ad : Fin 8) (g : Fin 64)
  /-- ARND (R118). -/
  | arnd (t : Fin 128) (sat : Bool) (aa : Fin 8) (g : Fin 64) (sh : BitVec 5)
  /-- ANORM (R115). -/
  | anorm (t : Fin 128) (aa : Fin 8) (g : Fin 64)
  /-- ASET (R115). -/
  | aset (t : Fin 128) (ar : BitVec 5) (g : Fin 64)
  /-- AADDI (R111). -/
  | aaddi (t : Fin 128) (ar : BitVec 5) (imm : BitVec 13)
  /-- AGET (R115). -/
  | aget (t : Fin 128) (ar : BitVec 5) (g : Fin 64)
  /-- DLOOP (R123). -/
  | dloop (t : Fin 128) (a : Fin 64) (len : BitVec 6)
  /-- LOOP_END (R123). -/
  | loopEnd (t : Fin 128)
  /-- ACS (R132). -/
  | acs (t : Fin 128) (d : Fin 32) (a : Fin 32) (b : Fin 64)
  /-- BEST (R134). -/
  | best (t : Fin 128) (d : Fin 64) (a : Fin 32)
  /-- TBK (R134). -/
  | tbk (t : Fin 128) (d : Fin 64) (a : Fin 64)
  /-- DMFS (R122). -/
  | dmfs (t : Fin 128) (g : Fin 64) (idx : BitVec 6)
  /-- DMTS (R122). -/
  | dmts (t : Fin 128) (g : Fin 64) (idx : BitVec 6)
  /-- MATRIX_OPERATION_START (R141). -/
  | matrixOperationStart (t : Fin 128) (u : Fin 5)
  /-- MATRIX_OPERATION_COMPLETE (R148). -/
  | matrixOperationComplete (t : Fin 128) (u : Fin 5) (str : Bool) (fault : MatFault)
  /-- KEEP_END (R160). -/
  | keepEnd (t : Fin 128) (u : Fin 5)
  /-- RAMP_UP_END (R161). -/
  | rampUpEnd (t : Fin 128) (u : Fin 5)
  /-- RAMP_DOWN_END (R160). -/
  | rampDownEnd (t : Fin 128) (u : Fin 5)
  /-- GANG_OPERATION_START (R165). -/
  | gangOperationStart (t : Fin 128) (u : Fin 5)
  /-- GANG_COMPLETE (R166). -/
  | gangComplete (t : Fin 128)
  /-- RESTORE_DONE (R170). -/
  | restoreDone (t : Fin 128) (bad : Bool)
  /-- TILE_ARR_ERR_CLEAR (R172). -/
  | tileArrErrClear (t : Fin 128) (u : Fin 5) (v : Word)
  /-- TILE_ARR_CNT_READ (R172). -/
  | tileArrCntRead (t : Fin 128) (u : Fin 5)
  /-- FH_PORT_ENABLE (R174). -/
  | fhPortEnable (p : Fin 16) (v : Word)
  /-- FH_LINK_UP (R176). -/
  | fhLinkUp (p : Fin 16)
  /-- FH_LINK_DOWN (R176). -/
  | fhLinkDown (p : Fin 16)
  /-- FH_FRAME_RECEIVE (R175). -/
  | fhFrameReceive (p : Fin 16) (size : Nat) (fcsOk : Bool) (tags : Nat) (pause : Bool) (dst : BitVec 48) (hdr : Option EcpriHdr)
  /-- UPLANE_SECTION_RX (R197). -/
  | uplaneSectionRx (p : Fin 16) (sec : Section)
  /-- TD_MESSAGE_RX (R193). -/
  | tdMessageRx (p : Fin 16) (eaxc : BitVec 16) (hdr : Word) (samples : List (Int × Int))
  /-- DELAY_REQUEST_RX (R179). -/
  | delayRequestRx (p : Fin 16) (action : BitVec 8) (mid : BitVec 8)
  /-- DELAY_FOLLOW_UP_RX (R179). -/
  | delayFollowUpRx (p : Fin 16) (mid : BitVec 8)
  /-- DELAY_FOLLOW_UP_TIMEOUT (R179). -/
  | delayFollowUpTimeout (p : Fin 16) (mid : BitVec 8)
  /-- PTP_EVENT_RX (R60). -/
  | ptpEventRx (p : Fin 16) (msg : BitVec 4) (seq : BitVec 16) (domain : BitVec 8)
  /-- FH_TX_POST (R199). -/
  | fhTxPost (ag : Agent) (p : Fin 16) (v : Word)
  /-- DECIDE (R202). -/
  | decide (p : Fin 16) (w : BitVec 12)
  /-- WINDOW_CLOSE (R196). -/
  | windowClose (p : Fin 16) (w : BitVec 12)
  /-- FH_FRAME_SEND (R200). -/
  | fhFrameSend (p : Fin 16) (ptp : Option PtpFrame)
  /-- FREEZE (R186). -/
  | freeze (ag : Agent) (v : Word)
  /-- AGC_RELEASE (R186). -/
  | agcRelease (ag : Agent) (v : Word)
  /-- FREEZE_HOLD_EXPIRE (R186). -/
  | freezeHoldExpire
  /-- FH_CNT_POST_READ (R207). -/
  | fhCntPostRead (p : Fin 16)
  /-- FH_CNT_RX_READ (R207). -/
  | fhCntRxRead (p : Fin 16)
  /-- FH_CNT_TX_READ (R207). -/
  | fhCntTxRead (p : Fin 16)
  /-- COD_SQ_TAIL_WRITE (R212). -/
  | codSqTailWrite (ag : Agent) (k : Fin 2) (r : Fin 8) (v : Word)
  /-- COD_CQ_HEAD_WRITE (R212). -/
  | codCqHeadWrite (ag : Agent) (k : Fin 2) (r : Fin 8) (v : Word)
  /-- COD_RING_ENABLE (R232). -/
  | codRingEnable (k : Fin 2) (r : Fin 8) (v : Word)
  /-- COD_DESCRIPTOR_TAKE (R213). -/
  | codDescriptorTake (k : Fin 2)
  /-- LDPC_DECODE (R220). -/
  | ldpcDecode (k : Fin 2)
  /-- LDPC_ENCODE (R219). -/
  | ldpcEncode (k : Fin 2)
  /-- TURBO_DECODE (R221). -/
  | turboDecode (k : Fin 2)
  /-- TURBO_ENCODE (R221). -/
  | turboEncode (k : Fin 2)
  /-- POLAR_DECODE (R222). -/
  | polarDecode (k : Fin 2)
  /-- POLAR_ENCODE (R222). -/
  | polarEncode (k : Fin 2)
  /-- CODE_BLOCK_START (R214). -/
  | codeBlockStart (k : Fin 2) (pool : Fin 6)
  /-- CODE_BLOCK_END (R210). -/
  | codeBlockEnd (k : Fin 2) (job : Nat) (block : Fin 256)
  /-- JOB_DEADLINE (R223). -/
  | jobDeadline (k : Fin 2) (job : Nat)
  /-- HARQ_COMBINE (R292). -/
  | harqCombine (k : Fin 2)
  /-- COD_CNT_READ (R232). -/
  | codCntRead (k : Fin 2)
  /-- COD_CNT_ERR_READ (R232). -/
  | codCntErrRead (k : Fin 2)
  /-- COD_CNT_HWAIT_READ (R232). -/
  | codCntHwaitRead (k : Fin 2)
  /-- RAISE (R247). -/
  | raise (ag : Agent) (piles : BitVec 8) (cnt : BitVec 16) (rsv : BitVec 11) (page : BitVec 25)
  /-- RELEASE (R247). -/
  | release (ag : Agent) (piles : BitVec 8) (cnt : BitVec 16) (rsv : BitVec 11) (page : BitVec 25)
  /-- LOWER (R247). -/
  | lower (ag : Agent) (piles : BitVec 8) (cnt : BitVec 16) (rsv : BitVec 11) (page : BitVec 25)
  /-- PIN (R247). -/
  | pin (ag : Agent) (piles : BitVec 8) (cnt : BitVec 16) (rsv : BitVec 11) (page : BitVec 25)
  /-- UNPIN (R247). -/
  | unpin (ag : Agent) (piles : BitVec 8) (cnt : BitVec 16) (rsv : BitVec 11) (page : BitVec 25)
  /-- GRANARY_TURN (R249). -/
  | granaryTurn
  /-- MOVE_SWITCH (R240). -/
  | moveSwitch (riser : Nat)
  /-- GRN_P_QUOTA_WRITE (R261). -/
  | grnPQuotaWrite (p : Fin 16) (v : Word)
  /-- RECLAIM_TURN (R262). -/
  | reclaimTurn (p : Fin 16)
  /-- GRN_P_PF_ENABLE (R251). -/
  | grnPPfEnable (p : Fin 16) (v : Word)
  /-- GRN_P_PF_CUR_WRITE (R252). -/
  | grnPPfCurWrite (ag : Agent) (p : Fin 16) (v : Word)
  /-- PF_WALK_ENTRY (R251). -/
  | pfWalkEntry (p : Fin 16)
  /-- GRN_QUERY (R268). -/
  | grnQuery (ag : Agent) (p : Fin 16) (v : Word)
  /-- SCRUB_READ (R265). -/
  | scrubRead
  /-- T2_LINK_ALIGN_LOSS (R267). -/
  | t2LinkAlignLoss (link : Fin 8)
  /-- T2_ACCESS_TIMEOUT (R267). -/
  | t2AccessTimeout (link : Fin 8)
  /-- GRN_CNT_ECC_READ (R268). -/
  | grnCntEccRead
  /-- GRN_CNT_MOVE_READ (R268). -/
  | grnCntMoveRead
  /-- GRN_P_CNT_READ (R268). -/
  | grnPCntRead (ag : Agent) (p : Fin 16)
  /-- GRN_P_CNT2_READ (R268). -/
  | grnPCnt2Read (ag : Agent) (p : Fin 16)
  /-- SE_SQ_TAIL_WRITE (R271). -/
  | seSqTailWrite (ag : Agent) (k : Fin 8) (r : Fin 16) (v : Word)
  /-- SE_CQ_HEAD_WRITE (R271). -/
  | seCqHeadWrite (ag : Agent) (k : Fin 8) (r : Fin 16) (v : Word)
  /-- SE_RING_ENABLE (R297). -/
  | seRingEnable (k : Fin 8) (r : Fin 16) (v : Word)
  /-- SE_DESCRIPTOR_TAKE (R272). -/
  | seDescriptorTake (k : Fin 8)
  /-- GATHER (R279). -/
  | gather (k : Fin 8)
  /-- SCATTER (R279). -/
  | scatter (k : Fin 8)
  /-- SELECT_EC (R281). -/
  | selectEc (k : Fin 8)
  /-- SELECT_TC (R282). -/
  | selectTc (k : Fin 8)
  /-- REPSCAT (R284). -/
  | repscat (k : Fin 8)
  /-- PAD (R285). -/
  | pad (k : Fin 8)
  /-- COMBINE (R286). -/
  | combine (k : Fin 8)
  /-- DEQUANT (R288). -/
  | dequant (k : Fin 8)
  /-- KV_APPEND (R291). -/
  | kvAppend (k : Fin 8)
  /-- SE_UNIT (R273). -/
  | seUnit (k : Fin 8)
  /-- SE_COMMAND_COMPLETE (R293). -/
  | seCommandComplete (k : Fin 8) (cmd : Nat)
  /-- SE_CNT_READ (R297). -/
  | seCntRead (k : Fin 8)
  /-- SE_CNT_ERR_READ (R297). -/
  | seCntErrRead (k : Fin 8)
  /-- HOME_POST (R303). -/
  | homePost (ag : Agent) (h : Fin 8) (v : Word)
  /-- RECV_POST (R317). -/
  | recvPost (ag : Agent) (h : Fin 8) (v : Word)
  /-- DISPATCH_ARRIVAL (R318). -/
  | dispatchArrival (h : Fin 8) (set : Fin 4) (src : Fin 4096)
  /-- RX_NS_EXPIRY (R319). -/
  | rxNsExpiry (h : Fin 8) (slot : Fin 16)
  /-- DRV_RET_POST (R320). -/
  | drvRetPost (ag : Agent) (h : Fin 8) (v : Word)
  /-- RETURN_ARRIVAL (R322). -/
  | returnArrival (h : Fin 8) (set : Fin 4) (src : Fin 4096)
  /-- DRV_SH_POST (R324). -/
  | drvShPost (ag : Agent) (h : Fin 8) (v : Word)
  /-- FIN_NS_EXPIRY (R327). -/
  | finNsExpiry (h : Fin 8) (slot : Fin 16)
  /-- DRV_CANCEL (R328). -/
  | drvCancel (ag : Agent) (h : Fin 8) (v : Word)
  /-- DRV_CQ_HEAD_WRITE (R331). -/
  | drvCqHeadWrite (ag : Agent) (h : Fin 8) (v : Word)
  /-- DRV_CQ_ENABLE (R335). -/
  | drvCqEnable (h : Fin 8) (v : Word)
  /-- DRV_ALARM_CLEAR (R311). -/
  | drvAlarmClear (ag : Agent) (h : Fin 8) (v : Word)
  /-- DRV_CNT_SEL_READ (R335). -/
  | drvCntSelRead (h : Fin 8)
  /-- DRV_CNT_RX_READ (R335). -/
  | drvCntRxRead (h : Fin 8)
  /-- GLN_CNT_READ (R335). -/
  | glnCntRead (h : Fin 8)
  /-- GLN_CNT2_READ (R335). -/
  | glnCnt2Read (h : Fin 8)
  /-- FAB_CP_GO (R343). -/
  | fabCpGo (ag : Agent) (p : Fin 32) (v : Word)
  /-- PUT (R345). -/
  | put (p : Fin 32)
  /-- REDUCE (R348). -/
  | reduce (p : Fin 32) (fault : Bool)
  /-- AREDUCE (R345). -/
  | areduce (p : Fin 32) (fault : Bool)
  /-- WAIT (R344). -/
  | wait (p : Fin 32)
  /-- SIGNAL (R347). -/
  | signal (p : Fin 32)
  /-- A2A (R362). -/
  | a2a (p : Fin 32)
  /-- COMMIT (R354). -/
  | commit (p : Fin 32)
  /-- COLL_DATA_RX (R346). -/
  | collDataRx (port : Fin 36) (e : LinkErr) (h : PktHdr) (m : CollMsg) (fault : Bool)
  /-- REPORT_RX (R354). -/
  | reportRx (port : Fin 36) (e : LinkErr) (h : PktHdr) (p : Fin 32) (epoch : BitVec 32) (member : BitVec 12)
  /-- DECISION_RX (R354). -/
  | decisionRx (port : Fin 36) (e : LinkErr) (h : PktHdr) (p : Fin 32) (epoch : BitVec 32)
  /-- ABORT_RX (R355). -/
  | abortRx (port : Fin 36) (e : LinkErr) (h : PktHdr) (p : Fin 32) (epoch : BitVec 32) (src : BitVec 12) (cause : BitVec 3)
  /-- CREDIT_RX (R365). -/
  | creditRx (port : Fin 36) (e : LinkErr) (h : PktHdr) (p : Fin 32) (epoch : BitVec 32) (dir : Bool) (set : BitVec 2) (rank : BitVec 12)
  /-- A2A_ACK_RX (R366). -/
  | a2aAckRx (port : Fin 36) (e : LinkErr) (h : PktHdr) (p : Fin 32) (epoch : BitVec 32) (dir : Bool) (hamlet : Fin 8) (set : BitVec 2) (rank : BitVec 12)
  /-- FAB_CP_ABORT (R355). -/
  | fabCpAbort (ag : Agent) (p : Fin 32) (v : Word)
  /-- DECISION_TIMEOUT (R357). -/
  | decisionTimeout (p : Fin 32)
  /-- FAILED_TIMEOUT (R357). -/
  | failedTimeout (p : Fin 32)
  /-- A2A_CREDIT_TIMEOUT (R364). -/
  | a2aCreditTimeout (p : Fin 32)
  /-- FAB_CP_ENABLE (R367). -/
  | fabCpEnable (p : Fin 32) (v : Word)
  /-- FAB_CP_DISABLE (R367). -/
  | fabCpDisable (p : Fin 32) (v : Word)
  /-- FAB_CP_CNT_READ (R368). -/
  | fabCpCntRead (p : Fin 32)
  /-- WRITE (R378). -/
  | write (port : Fin 36) (e : LinkErr) (h : PktHdr) (data : List Byte)
  /-- READ (R387). -/
  | read (port : Fin 36) (e : LinkErr) (h : PktHdr)
  /-- READ_RSP (R388). -/
  | readRsp (port : Fin 36) (e : LinkErr) (h : PktHdr) (data : List Byte)
  /-- ATOMIC (R389). -/
  | atomic (port : Fin 36) (e : LinkErr) (h : PktHdr) (operand : Word) (compare : Word) (req : BitVec 32)
  /-- ATOMIC_RSP (R391). -/
  | atomicRsp (port : Fin 36) (e : LinkErr) (h : PktHdr) (old : Word) (req : BitVec 32)
  /-- ACK (R379). -/
  | ack (port : Fin 36) (e : LinkErr) (h : PktHdr)
  /-- NAK (R380). -/
  | nak (port : Fin 36) (e : LinkErr) (h : PktHdr)
  /-- PATH_FAIL (R375). -/
  | pathFail (port : Fin 36) (e : LinkErr) (h : PktHdr) (p0 : BitVec 6) (p1 : BitVec 6) (p2 : BitVec 6)
  /-- PACKET_FORWARD (R374). -/
  | packetForward (port : Fin 36) (e : LinkErr) (pkt : Packet)
  /-- PACKET_SEND (R395). -/
  | packetSend (port : Fin 36)
  /-- ACK_SEND (R379). -/
  | ackSend (node : BitVec 12)
  /-- RETRANSMIT_TIMEOUT (R379). -/
  | retransmitTimeout (node : BitVec 12)
  /-- REPLY_CACHE_EXPIRE (R389). -/
  | replyCacheExpire
  /-- ATOMIC_RETRY (R391). -/
  | atomicRetry (req : BitVec 32)
  /-- ATOMIC_TIMEOUT (R391). -/
  | atomicTimeout (req : BitVec 32)
  /-- WRITE_LOST_TIMEOUT (R387). -/
  | writeLostTimeout (node : BitVec 12)
  /-- LOAD_TIMEOUT (R388). -/
  | loadTimeout (id : Nat)
  /-- FAB_PATH_UPD (R375). -/
  | fabPathUpd (v : Word)
  /-- PORT_TRAINED (R393). -/
  | portTrained (port : Fin 36) (peer : BitVec 12) (peerPort : BitVec 6)
  /-- PORT_DOWN (R393). -/
  | portDown (port : Fin 36)
  /-- PORT_ERROR_INTERVAL (R394). -/
  | portErrorInterval (port : Fin 36)
  /-- PORT_RETRAIN (R394). -/
  | portRetrain (port : Fin 36)
  /-- SAMPLE_TICK (R397). -/
  | sampleTick
  /-- FAB_SMP_ENABLE (R399). -/
  | fabSmpEnable (v : Word)
  /-- FAB_RC_STAT_READ (R399). -/
  | fabRcStatRead
  /-- FAB_CNT_READ (R399). -/
  | fabCntRead
  /-- FAB_CNT2_READ (R399). -/
  | fabCnt2Read
  /-- FAB_PORT_CNT_READ (R399). -/
  | fabPortCntRead (port : Fin 36)
  /-- FAB_SMP_CFG_READ (R399). -/
  | fabSmpCfgRead
  /-- CX_LQ_TAIL_WRITE (R409). -/
  | cxLqTailWrite (ag : Agent) (c : Fin 256) (v : Word)
  /-- CX_CQ_HEAD_WRITE (R415). -/
  | cxCqHeadWrite (ag : Agent) (c : Fin 256) (v : Word)
  /-- SCHEDULER_DISPATCH (R410). -/
  | schedulerDispatch
  /-- SWAP_OUT_DONE (R419). -/
  | swapOutDone (c : Fin 256)
  /-- SWAP_IN_DONE (R419). -/
  | swapInDone (c : Fin 256)
  /-- LAUNCH_DEADLINE (R412). -/
  | launchDeadline (id : Nat)
  /-- RESUME_TIMEOUT (R417). -/
  | resumeTimeout (t : Fin 128) (dest : Fin 128)
  /-- PART_DMA_GO (R421). -/
  | partDmaGo (ag : Agent) (c : Fin 32) (v : Word)
  /-- DMA_TRANSFER_START (R422). -/
  | dmaTransferStart (c : Fin 32)
  /-- DMA_COMPLETE (R422). -/
  | dmaComplete (c : Fin 32)
  /-- SLUICE_WINDOW (R423). -/
  | sluiceWindow
  /-- FN_DISABLE (R429). -/
  | fnDisable (f : Fin 32) (v : Word)
  /-- DRAIN_END (R429). -/
  | drainEnd (f : Fin 32)
  /-- FN_ENABLE (R426). -/
  | fnEnable (f : Fin 32) (v : Word)
  /-- PARTITION_STOP (R430). -/
  | partitionStop (p : Fin 16)
  /-- PARTITION_RESUME (R430). -/
  | partitionResume (p : Fin 16)
  /-- PART_P_TILE_WRITE (R401). -/
  | partPTileWrite (p : Fin 16) (hi : Bool) (v : Word)
  /-- PART_P_CTL_WRITE (R401). -/
  | partPCtlWrite (p : Fin 16) (v : Word)
  /-- CX_CTL_WRITE (R406). -/
  | cxCtlWrite (c : Fin 256) (v : Word)
  /-- PART_P_CNT_READ (R431). -/
  | partPCntRead (ag : Agent) (p : Fin 16)
  /-- SLU_P_HELD_READ (R431). -/
  | sluPHeldRead (ag : Agent) (p : Fin 16)
  /-- PART_FN_CNT_READ (R431). -/
  | partFnCntRead (f : Fin 32)
  /-- HOST_READ (R435). -/
  | hostRead (f : Fin 32) (src : BitVec 16) (addr : Addr) (len : BitVec 10)
  /-- HOST_WRITE (R435). -/
  | hostWrite (f : Fin 32) (src : BitVec 16) (addr : Addr) (data : List Byte)
  /-- HOST_READ_COMPLETION (R440). -/
  | hostReadCompletion (id : Nat) (data : Option (List Byte))
  /-- HOST_READ_TIMEOUT (R440). -/
  | hostReadTimeout (id : Nat)
  /-- HL_RETRAIN (R432). -/
  | hlRetrain (v : Word)
  /-- HL_LINK_UP (R432). -/
  | hlLinkUp (gen : BitVec 2) (width : BitVec 4)
  /-- HL_LINK_DOWN (R434). -/
  | hlLinkDown
  /-- HL_TRAIN_RETRY (R432). -/
  | hlTrainRetry
  /-- FUNCTION_LEVEL_RESET (R448). -/
  | functionLevelReset (f : Fin 32)
  /-- MBX_SEND (R444). -/
  | mbxSend (ag : Agent) (m : Fin 256) (v : Word)
  /-- MBX_ACK (R445). -/
  | mbxAck (ag : Agent) (m : Fin 256) (v : Word)
  /-- MBX_READY (R448). -/
  | mbxReady (ag : Agent) (m : Fin 256) (v : Word)
  /-- MBX_DB_SET (R446). -/
  | mbxDbSet (ag : Agent) (m : Fin 256) (v : Word)
  /-- MBX_DB_CLEAR (R446). -/
  | mbxDbClear (ag : Agent) (m : Fin 256) (v : Word)
  /-- MBX_DB_MASK_WRITE (R447). -/
  | mbxDbMaskWrite (ag : Agent) (m : Fin 256) (v : Word)
  /-- MBX_CFG_WRITE (R451). -/
  | mbxCfgWrite (m : Fin 256) (v : Word)
  /-- HL_CNT_READ (R450). -/
  | hlCntRead (ag : Agent)
  /-- MBX_CNT_READ (R451). -/
  | mbxCntRead (ag : Agent) (m : Fin 256)
  /-- PWR_DOM_REQ_WRITE (R455). -/
  | pwrDomReqWrite (v : Word)
  /-- DORMANT_ENTRY (R455). -/
  | dormantEntry (d : Fin 50)
  /-- DOMAIN_READY (R458). -/
  | domainReady (d : Fin 50)
  /-- DOMAIN_RESET (R463). -/
  | domainReset (v : Word)
  /-- DEVICE_RESET (R463). -/
  | deviceReset
  /-- STEWARD_RESTART (R483). -/
  | stewardRestart
  /-- CARD_RESET (R509). -/
  | cardReset
  /-- POWER_ON (R464). -/
  | powerOn
  /-- BROWN_OUT (R509). -/
  | brownOut
  /-- GOV_WINDOW (R459). -/
  | govWindow (est : Nat)
  /-- THERM_SAMPLE (R461). -/
  | thermSample (dies : List Nat) (optics : List Nat)
  /-- THERMAL_REDUCTION_STEP (R461). -/
  | thermalReductionStep
  /-- THERMTRIP (R511). -/
  | thermtrip
  /-- PMBUS_POLL (R462). -/
  | pmbusPoll (rails : List (Option PmbRead × Option PmbRead))
  /-- PWR_CNT_READ (R474). -/
  | pwrCntRead
  /-- STAGE (R469). -/
  | stage (v : Word)
  /-- LOAD_COMPLETE (R469). -/
  | loadComplete
  /-- DISCARD (R469). -/
  | discard
  /-- ROLLBACK (R472). -/
  | rollback
  /-- ROLLBACK_TAKE_EFFECT (R472). -/
  | rollbackTakeEffect
  /-- TILE_RELOAD_DONE (R471). -/
  | tileReloadDone (t : Fin 128)
  /-- UPDATE_REQUEST (R485). -/
  | updateRequest
  /-- BEGIN (R485). -/
  | fwBegin
  /-- WRITTEN (R485). -/
  | written (media : Bool)
  /-- ACTIVATE (R485). -/
  | activate
  /-- CONFIRM (R485). -/
  | confirm (refused : Bool)
  /-- ABANDON (R485). -/
  | abandon
  /-- RECOVERY_DOWNLOAD (R484). -/
  | recoveryDownload (media : Bool)
  /-- WATCHDOG_EXPIRE (R489). -/
  | watchdogExpire
  /-- WATCHDOG_RELOAD (R489). -/
  | watchdogReload (v : Word)
  /-- MEAS_EXTEND (R488). -/
  | measExtend (v : Word)
  /-- ERR_REC_CLEAR (R493). -/
  | errRecClear (n : Fin 128) (ev : Option (Nat × Nat))
  /-- ERR_LOST_READ (R503). -/
  | errLostRead (ag : Agent)
  /-- SCORE_WINDOW (R495). -/
  | scoreWindow
  /-- RM_WINDOW (R499). -/
  | rmWindow
  /-- BUDGET_EXPIRY (R500). -/
  | budgetExpiry
  /-- SHADOW_STEP_TIMEOUT (R502). -/
  | shadowStepTimeout (d : Fin 64)
  /-- ERR_RM_DEV_WRITE (R501). -/
  | errRmDevWrite (d : Fin 64) (v : Word)
  /-- TIER2_LINK_RETRAIN_DONE (R267). -/
  | tier2LinkRetrainDone (link : Fin 8)
  /-- READ_REISSUE (R388). -/
  | readReissue (id : Nat)
  /-- PPS_OUT_PULSE_END (R62). -/
  | ppsOutPulseEnd
  deriving DecidableEq, Repr

end Sys2Proof
end

