-- ==== Sys2Proof/Decode.lean ====
section
/-! DEFINITION. The command that a word spells by the bits of the opcode table. The table gives none of its rows any
bits (its rows are operations and events of a block, not instruction words), so no word spells a command. -/

namespace Sys2Proof

/-- No row of the table has bits, so every word spells no command. -/
def decodeTableWord (_nbits _w : Nat) : Option Instr := none

end Sys2Proof
end

