-- ==== Sys2Proof/Machine/Bits.lean ====
section
/-! DEFINITION. Bit fields, sign extension and saturation over words, as the register and record tables of the spec
write them ("[high:low]", bit 0 least significant; 00_scope.md). -/

namespace Sys2Proof.Machine

open Sys2Proof

/-- The field `[hi:lo]` of a value, as a number. -/
def fld {w : Nat} (v : BitVec w) (hi lo : Nat) : Nat := (v.toNat / 2 ^ lo) % 2 ^ (hi + 1 - lo)

/-- Bit `i` of a word, as a truth value. -/
def bit {w : Nat} (v : BitVec w) (i : Nat) : Bool := fld v i i == 1

/-- The field value `x` placed at `[hi:lo]` of an otherwise zero word. -/
def place (hi lo x : Nat) : Word := BitVec.ofNat 64 ((x % 2 ^ (hi + 1 - lo)) * 2 ^ lo)

/-- The mask with ones at `[hi:lo]`. -/
def fmask (hi lo : Nat) : Word := BitVec.ofNat 64 ((2 ^ (hi + 1 - lo) - 1) * 2 ^ lo)

/-- `v` with the field `[hi:lo]` replaced by `x`. -/
def putFld (v : Word) (hi lo x : Nat) : Word := (v &&& ~~~ fmask hi lo) ||| place hi lo x

/-- `v` with bit `i` set. -/
def setBit (v : Word) (i : Nat) : Word := v ||| place i i 1

/-- `v` with bit `i` cleared. -/
def clearBit (v : Word) (i : Nat) : Word := v &&& ~~~ place i i 1

/-- The signed (two's complement) reading of the low `n` bits of `x`. -/
def signed (n x : Nat) : Int :=
  let y := x % 2 ^ n
  if 2 * y < 2 ^ n then (y : Int) else (y : Int) - (2 ^ n : Nat)

/-- The signed reading of the field `[hi:lo]`. -/
def sfld {w : Nat} (v : BitVec w) (hi lo : Nat) : Int := signed (hi + 1 - lo) (fld v hi lo)

/-- An integer reduced modulo `2 ^ n`, as a number. -/
def wrap (n : Nat) (x : Int) : Nat := (x % (2 ^ n : Nat)).toNat

/-- A number clamped to the largest value an `n`-bit counter holds (a saturating count). -/
def satNat (n x : Nat) : Nat := min x (2 ^ n - 1)

/-- An integer clamped to the range of an `n`-bit signed value. -/
def satInt (n : Nat) (x : Int) : Int :=
  max (-((2 ^ (n - 1) : Nat) : Int)) (min (((2 ^ (n - 1) : Nat) : Int) - 1) x)

/-- The counter in `[hi:lo]` of `v` raised by `k`, saturating at its largest value. -/
def bumpFld (v : Word) (hi lo k : Nat) : Word := putFld v hi lo (satNat (hi + 1 - lo) (fld v hi lo + k))

/-- `x / y` rounded up. -/
def ceilDiv (x y : Nat) : Nat := (x + y - 1) / y

/-- Put `x` before the first element that it comes before. -/
def insertBy {α : Type} (before : α → α → Bool) (x : α) : List α → List α
  | [] => [x]
  | y :: ys => if before x y then x :: y :: ys else y :: insertBy before x ys

/-- A list in the order of `before`; elements that neither comes before the other keep their order. -/
def sortBy {α : Type} (before : α → α → Bool) : List α → List α
  | [] => []
  | x :: xs =>
    let ys := sortBy before xs
    insertBy (fun a b => !before b a) x ys

end Sys2Proof.Machine
end

