-- ==== Sys2Proof/Machine/Float.lean ====
section
/-! DEFINITION. Floating-point formats and exact arithmetic over them (03_tile_isa.md R91; 05_matrix_arrays.md R156): a
finite value is a sign, an integer significand and a power of two; sums and products are formed exactly and rounded
once, to nearest with ties to even. The encodings are those of IEEE 754 and of the OCP formats that the format names
stand for (notes/assumptions/22.md). -/

namespace Sys2Proof.Machine

/-- What the codes with the largest exponent mean: infinities and NaNs, one NaN per sign (E4M3), or numbers. -/
inductive Special where
  | ieee | nanOnly | none
  deriving DecidableEq, Repr

/-- A format: exponent bits, fraction bits, bias, and its special codes. -/
structure FFmt where
  e : Nat
  m : Nat
  bias : Nat
  sp : Special
  deriving DecidableEq, Repr

def fBF16 : FFmt := ⟨8, 7, 127, .ieee⟩
def fFP16 : FFmt := ⟨5, 10, 15, .ieee⟩
def fFP32 : FFmt := ⟨8, 23, 127, .ieee⟩
def fE4M3 : FFmt := ⟨4, 3, 7, .nanOnly⟩
def fE5M2 : FFmt := ⟨5, 2, 15, .ieee⟩
def fE3M2 : FFmt := ⟨3, 2, 3, .none⟩
def fE2M3 : FFmt := ⟨2, 3, 1, .none⟩
def fE2M1 : FFmt := ⟨2, 1, 1, .none⟩

/-- The width of a format. -/
def FFmt.bits (f : FFmt) : Nat := 1 + f.e + f.m

/-- A value: NaN, an infinity, or (−1)^neg × m × 2^e. -/
inductive FVal where
  | nan
  | inf (neg : Bool)
  | fin (neg : Bool) (m : Nat) (e : Int)
  deriving DecidableEq, Repr

/-- The value of a code. -/
def FFmt.decode (f : FFmt) (x : Nat) : FVal :=
  let fr := x % 2 ^ f.m
  let ex := x / 2 ^ f.m % 2 ^ f.e
  let neg := x / 2 ^ (f.m + f.e) % 2 == 1
  if f.sp = .ieee ∧ ex = 2 ^ f.e - 1 then (if fr = 0 then .inf neg else .nan)
  else if f.sp = .nanOnly ∧ ex = 2 ^ f.e - 1 ∧ fr = 2 ^ f.m - 1 then .nan
  else if ex = 0 then .fin neg fr (1 - f.bias - f.m)
  else .fin neg (2 ^ f.m + fr) ((ex : Int) - f.bias - f.m)

/-- The canonical quiet NaN (R91). -/
def FFmt.nanCode (f : FFmt) : Nat :=
  match f.sp with
  | .ieee => (2 ^ f.e - 1) * 2 ^ f.m + 2 ^ (f.m - 1)
  | _ => 2 ^ (f.e + f.m) - 1

/-- The code of an infinity. -/
def FFmt.infCode (f : FFmt) (neg : Bool) : Nat := neg.toNat * 2 ^ (f.e + f.m) + (2 ^ f.e - 1) * 2 ^ f.m

/-- `m × 2^k` rounded to an integer, to nearest with ties to even. -/
def rneShift (m : Nat) (k : Int) : Nat :=
  if 0 ≤ k then m * 2 ^ k.toNat
  else
    let d := 2 ^ (-k).toNat
    let q := m / d
    let r := m % d
    if 2 * r > d ∨ (2 * r = d ∧ q % 2 = 1) then q + 1 else q

/-- The number of binary digits. -/
def bitLen (m : Nat) : Nat := if m = 0 then 0 else Nat.log2 m + 1

/-- The code nearest to a value, ties to even; a value that rounds beyond the largest number is an infinity, in the
formats with infinities. -/
def FFmt.encode (f : FFmt) : FVal → Nat
  | .nan => f.nanCode
  | .inf neg => f.infCode neg
  | .fin neg m e =>
    let s := neg.toNat * 2 ^ (f.e + f.m)
    if m = 0 then s else
    let top : Int := bitLen m + e - 1
    let lo : Int := max (top - f.m) (1 - f.bias - f.m)
    let q := rneShift m (e - lo)
    let ex : Nat := (lo - (1 - (f.bias : Int) - f.m)).toNat
    -- a significand of m + 1 digits carries 1 into the exponent field; a carry out of the rounding carries on by itself
    let code := ex * 2 ^ f.m + q
    if code ≥ (2 ^ f.e - 1) * 2 ^ f.m then s + (f.infCode false) else s + code

/-- The negated value. -/
def FVal.neg : FVal → FVal
  | .nan => .nan
  | .inf n => .inf (!n)
  | .fin n m e => .fin (!n) m e

/-- The exact product. -/
def FVal.mul : FVal → FVal → FVal
  | .nan, _ => .nan
  | _, .nan => .nan
  | .inf a, .inf b => .inf (a != b)
  | .inf a, .fin b m _ => if m = 0 then .nan else .inf (a != b)
  | .fin a m _, .inf b => if m = 0 then .nan else .inf (a != b)
  | .fin a m e, .fin b n f => .fin (a != b) (m * n) (e + f)

/-- The signed integer of a finite value at a lower exponent `k`. -/
def finAt (neg : Bool) (m : Nat) (e k : Int) : Int :=
  let x : Int := (m : Int) * (2 ^ (e - k).toNat : Nat)
  if neg then -x else x

/-- The exact sum: zeros of one sign keep it, and an exact cancellation gives +0. -/
def FVal.add : FVal → FVal → FVal
  | .nan, _ => .nan
  | _, .nan => .nan
  | .inf a, .inf b => if a = b then .inf a else .nan
  | .inf a, .fin .. => .inf a
  | .fin .., .inf b => .inf b
  | .fin a m e, .fin b n f =>
    if m = 0 ∧ n = 0 then .fin (a && b) 0 0
    else
      let k := min e f
      let x := finAt a m e k + finAt b n f k
      .fin (decide (x < 0)) x.natAbs k

/-- The exact sum of finite values and specials, in order. -/
def FVal.sum (l : List FVal) : FVal :=
  match l with
  | [] => .fin false 0 0
  | x :: xs => xs.foldl FVal.add x

/-- `a < b`; false with a NaN. -/
def FVal.lt : FVal → FVal → Bool
  | .nan, _ => false
  | _, .nan => false
  | .inf a, .inf b => a && !b
  | .inf a, .fin .. => a
  | .fin .., .inf b => !b
  | .fin a m e, .fin b n f =>
    let k := min e f
    decide (finAt a m e k < finAt b n f k)

/-- The value is a zero. -/
def FVal.isZero : FVal → Bool
  | .fin _ m _ => m == 0
  | _ => false

/-- The nearest integer, ties to even, saturated to `n` bits signed; NaN gives 0. -/
def FVal.toInt (n : Nat) : FVal → Int
  | .nan => 0
  | .inf neg => if neg then -((2 ^ (n - 1) : Nat) : Int) else ((2 ^ (n - 1) : Nat) : Int) - 1
  | .fin neg m e => satInt n (if neg then -(rneShift m e : Int) else (rneShift m e : Int))

/-- An integer as a value. -/
def FVal.ofInt (x : Int) : FVal := .fin (decide (x < 0)) x.natAbs 0

end Sys2Proof.Machine
end

