-- ==== Sys2Proof/Machine/Ecc.lean ====
section
/-! DEFINITION. The memory code: a Reed–Solomon code over GF(2^8) on every 32-byte word (08_memory_tiers.md R263,
R264). A stored word is kept as its data and the difference between its stored check bytes and those of its data. By
linearity the syndromes of the stored word are those of the difference alone. -/

namespace Sys2Proof.Machine

/-- Multiply by α = 2 in the field built on x^8 + x^4 + x^3 + x^2 + 1 (R263). -/
def gfDouble (a : Nat) : Nat := if 2 * a < 256 then 2 * a else (2 * a - 256) ^^^ 0x1D

/-- The product in the field, by the bits of the second factor from the top. -/
def gfMulAux (a b : Nat) : Nat → Nat
  | 0 => 0
  | n + 1 => gfDouble (gfMulAux a (b / 2) n) ^^^ (if b % 2 = 1 then a else 0)

/-- The product of two field elements. -/
def gfMul (a b : Nat) : Nat := gfMulAux a b 8

/-- α to the power `n`. -/
def gfPow : Nat → Nat
  | 0 => 1
  | n + 1 => gfDouble (gfPow n)

/-- Syndrome `k` of a word whose check bytes differ from those of its data by `d` (check byte j is the coefficient of
x^(3 - j)). -/
def syndrome (d : BitVec 32) (k : Nat) : Nat :=
  (List.range 4).foldl (fun a j => a ^^^ gfMul (fld d (8 * j + 7) (8 * j)) (gfPow (k * (3 - j)))) 0

/-- What a read of a word finds (R264). -/
inductive EccRead where
  | clean
  /-- Data byte `i` is to be XORed with `x`. -/
  | data (i x : Nat)
  /-- A check byte is in error; the data is right. -/
  | check
  | uncorrectable
  deriving DecidableEq, Repr

/-- The outcome of R264 for a check-byte difference. -/
def eccRead (d : BitVec 32) : EccRead :=
  if d = 0 then .clean else
  let s0 := syndrome d 0
  let s1 := syndrome d 1
  let s2 := syndrome d 2
  let s3 := syndrome d 3
  if s0 = 0 && s1 = 0 && s2 = 0 && s3 = 0 then .clean
  else if s0 ≠ 0 && s1 ≠ 0 && s2 ≠ 0 && s3 ≠ 0 && gfMul s1 s1 = gfMul s0 s2 && gfMul s2 s2 = gfMul s1 s3 then
    match (List.range 36).find? fun l => gfMul s0 (gfPow l) = s1 with
    | some l => if 4 ≤ l then .data (35 - l) s0 else .check
    | none => .uncorrectable
  else .uncorrectable

/-- The remainder of x^4 · d(x) by the generator (R263), as the four check bytes of a word's 32 data bytes: the
division step for one byte. -/
def eccStep (c : Nat × Nat × Nat × Nat) (b : Nat) : Nat × Nat × Nat × Nat :=
  let f := b ^^^ c.1
  (c.2.1 ^^^ gfMul f 0x0F, c.2.2.1 ^^^ gfMul f 0x36, c.2.2.2 ^^^ gfMul f 0x78, gfMul f 0x40)

/-- The check bytes of 32 data bytes: check byte j in bits [8j+7:8j] (R263). -/
def eccCheck (data : List (BitVec 8)) : BitVec 32 :=
  let c := data.foldl (fun c b => eccStep c b.toNat) (0, 0, 0, 0)
  BitVec.ofNat 32 (c.1 + c.2.1 * 256 + c.2.2.1 * 65536 + c.2.2.2 * 16777216)

end Sys2Proof.Machine
end

