-- ==== Sys2Proof/Config.lean ====
section
/-! DEFINITION. What an implementation fixes and the spec leaves open. Every constant here is opaque: nothing can be
proved of its value, so a claim that holds in this model holds whatever the value is. -/

namespace Sys2Proof

/-- The `n`-th value that the spec leaves open, as a 64-bit word: State's counter `free` names the next `n`
(notes/assumptions/3.md). -/
opaque Config.freeWord : Nat → Word

/-- The byte at an address of a region whose contents "are not guaranteed": the first argument numbers the event that
made them so (notes/assumptions/4.md). -/
opaque Config.freeByte : Nat → Nat → Byte

/-- Byte `i` of the data words of a collective message, and of a PATH_FAIL that names a path's ports: the spec lays out
neither (11_collectives.md R345 to R366; 12_rack_fabric.md R377; notes/assumptions/166.md). -/
opaque Config.collByte : (m : CollMsg) → (i : Nat) → Byte

opaque Config.pathByte : (p0 p1 p2 : BitVec 6) → (i : Nat) → Byte

/-- One more than the error of a part (real, or true: imaginary) of output `i` of the transmit transform: the spec
bounds each part to within 1 of the exactly scaled and rounded value (06_fronthaul_and_slots.md R188) and gives no other
value (notes/assumptions/28.md). -/
opaque Config.fourierErr : (shift : Nat) → (xs : List (Int × Int)) → (i : Nat) → (imag : Bool) → Fin 3

/-- The shift of a base graph's entry for a lifting-size set, none where it has no entry: Tables 5.3.2-2 and 5.3.2-3 of
TS 38.212, which the spec names and does not hold (07_channel_coding.md R219; notes/assumptions/32.md). -/
opaque Config.ldpcShift : (bg2 : Bool) → (set row col : Nat) → Option Nat

/-- Whether `num` / 4 or `num` / 16 of a decoder's value is rounded up where it is no integer: R220 and R221 give the
scale alone. -/
opaque Config.roundsUp : (num : Nat) → (x : Int) → Bool

/-- A bit's value in the LDPC decoder, in the width that the device keeps it in: R220 gives the messages' width alone. -/
opaque Config.ldpcPost : Int → Int

/-- The decision on a value of 0: R218 says what a positive one favours. -/
opaque Config.zeroBit : Bool

/-- f1 and f2 of the QPP interleaver of size `K`: Table 5.1.3-3 of TS 36.212, which the spec does not hold (R221). -/
opaque Config.qppParams : (k : Nat) → Nat × Nat

/-- The 1,024 polar input positions in ascending reliability, and the input interleaver's pattern of 164: Tables
5.3.1.2-1 and 5.3.1.1-1 of TS 38.212, which the spec does not hold (R222). -/
opaque Config.polarSeq : Nat → Nat

opaque Config.polarIl : Nat → Nat

/-- The arithmetic of the successive-cancellation decoder that R222 leaves out: the value of the sum of two bits, what an
input adds to a path's metric, and the value of a bit that is known to be 0. -/
opaque Config.polarJoin : Int → Int → Int

opaque Config.polarMetric : (value : Int) → (u : Bool) → Int

opaque Config.polarKnown : Int

/-- Which of the FP32 values within 1 ulp of the exact one exp gives for an input: the spec says that it is always the
same one, and not which (10_expert_routing.md R312; notes/assumptions/33.md). -/
opaque Config.expErr : BitVec 32 → Fin 4

/-- Whether both signatures of a message verify under a root key set: Ed25519 of RFC 8032 and ML-DSA-65 of FIPS 204
(16_firmware_and_security.md R478, R479; notes/assumptions/34.md). The keys are in the boot ROM. -/
opaque Config.sigOk : (keySet : Nat) → (message edSig mlSig : List Byte) → Bool

/-- The key pairs of the device, from their 32-byte seeds: the public keys, and the signatures of a message, with Ed25519
of RFC 8032 and ML-DSA-65 of FIPS 204 (16_firmware_and_security.md R486, R487; notes/assumptions/174.md). -/
opaque Config.edPublic : (seed : List Byte) → BitVec 256

opaque Config.mlPublic : (seed : List Byte) → BitVec 15616

opaque Config.edSign : (seed message : List Byte) → BitVec 512

opaque Config.mlSign : (seed message : List Byte) → BitVec 26472

/-- Whether the unit secret reconstructs from PUF helper data, and the secret (R486). -/
opaque Config.pufOk : (helper : List Word) → Bool

opaque Config.pufSecret : (helper : List Word) → List Byte

/-- The bytes of the card flash that nothing has written since manufacture (notes/assumptions/37.md). -/
opaque Config.flashByte : Nat → Byte

end Sys2Proof
end

