-- ==== Sys2Proof/Machine/RegName.lean ====
section
/-! DEFINITION. Every control register of the device, by the name its chapter gives it: its offset from
0x0_FF00_0000_0000 (00_scope.md R12 and the chapters' register tables), its instances, and its fields with their
access types and reset values (R13 to R16). A field with no reset value in the spec (write-only) has 0 here. -/

namespace Sys2Proof.Machine

/-- The names of the control registers (19_register_index.md lists them all). -/
inductive RegName where
  | TB_CTL
  | TB_STATE
  | TB_SNAP
  | TB_SNAP_SEC
  | TB_SNAP_NS
  | TB_SNAP_CNT
  | TB_SNAP_CNTF
  | TB_NOW_NS
  | TB_RATE
  | TB_SLEW_MAX
  | TB_ADJ
  | TB_STEP_SEC
  | TB_STEP_NS
  | TB_STEP_GO
  | TB_LOCK_CFG
  | TB_EVT
  | TB_FSRC
  | TB_PPSO_CTL
  | TB_PPSI_SEC
  | TB_PPSI_NS
  | TB_PPSI_DLY
  | TB_PORT_INLAT
  | TB_PORT_EGLAT
  | TB_PORT_ASYM
  | TB_PORT_PTP
  | TB_PORT_TS_STAT
  | TB_PORT_TS_HI
  | TB_PORT_TS_LO
  | BELL_TIME
  | BELL_ACT
  | BELL_PERIOD
  | BELL_CTL
  | BELL_MASK
  | BELL_DMASK_LO
  | BELL_DMASK_HI
  | BELL_STAT
  | BELL_ARMED
  | BELL_FIRED
  | TILE_STAT
  | TILE_PC
  | TILE_ECAUSE
  | TILE_EPC
  | TILE_EADDR
  | TILE_MVEC
  | TILE_TEVT_SET
  | TILE_EPOCH
  | TILE_RESET
  | TILE_CNT_CORR
  | TILE_ARR_DIGEST
  | TILE_GANG_BASE
  | TILE_ARR_CTL
  | TILE_ARR_STAT
  | TILE_ARR_ERR
  | TILE_ARR_CNT
  | FH_PORT_CTL
  | FH_PORT_STAT
  | FH_PORT_MAC
  | FH_PORT_WGT
  | FH_PORT_OVH
  | FH_WIN_BASE
  | FH_WIN_CNT
  | FH_TX_POST
  | FH_WIN_SEL
  | FH_WIN_INFO
  | FH_PORT_ERR
  | FH_CNT_POST
  | FH_CNT_RX
  | FH_CNT_TX
  | FH_PORT_RU
  | FH_SFN_OFFSET
  | FH_LEDGER_BASE
  | FH_LEDGER_CFG
  | FH_AGC_CFG
  | FH_AGC_CMD
  | FH_EVT
  | FH_TD_BASE
  | FH_LEDGER_SUM
  | FH_CELL_CFG
  | COD_CTL
  | COD_STAT
  | COD_ERR
  | COD_CNT
  | COD_CNT_ERR
  | COD_CNT_HWAIT
  | COD_SQ_BASE
  | COD_SQ_CFG
  | COD_SQ_TAIL
  | COD_SQ_HEAD
  | COD_CQ_BASE
  | COD_CQ_TAIL
  | COD_CQ_HEAD
  | COD_CQ_DB
  | GRN_CTL
  | GRN_STAT
  | GRN_CMD
  | GRN_EVT
  | GRN_BW
  | GRN_RECLAIM
  | GRN_SCRUB
  | GRN_SCRUB_POS
  | GRN_CNT_ECC
  | GRN_CNT_MOVE
  | GRN_P_QUOTA
  | GRN_P_FLOOR
  | GRN_P_USE
  | GRN_P_STAT
  | GRN_P_PF_BASE
  | GRN_P_PF_CFG
  | GRN_P_PF_CUR
  | GRN_P_DB
  | GRN_P_CNT
  | GRN_P_CNT2
  | GRN_P_QADDR
  | GRN_P_QRES
  | SE_CTL
  | SE_STAT
  | SE_ERR
  | SE_CNT
  | SE_CNT_ERR
  | SE_SQ_BASE
  | SE_SQ_CFG
  | SE_SQ_TAIL
  | SE_SQ_HEAD
  | SE_CQ_BASE
  | SE_CQ_TAIL
  | SE_CQ_HEAD
  | SE_CQ_DB
  | DRV_CTL
  | DRV_STAT
  | DRV_ERR
  | DRV_POST
  | DRV_RET_POST
  | DRV_SH_POST
  | DRV_CANCEL
  | DRV_XCFG
  | DRV_STAGE
  | DRV_RXAREA
  | DRV_RSTAGE
  | DRV_RETAREA
  | DRV_ALARM_CFG
  | DRV_ALARM
  | DRV_CNT_SEL
  | DRV_CNT_RX
  | GLN_CNT
  | GLN_CNT2
  | DRV_CQ_BASE
  | DRV_CQ_CFG
  | DRV_CQ_TAIL
  | DRV_CQ_HEAD
  | DRV_CQ_DB
  | FAB_CP_CTL
  | FAB_CP_BASE
  | FAB_CP_GO
  | FAB_CP_STAT
  | FAB_CP_EPOCH
  | FAB_CP_STEP
  | FAB_CP_ERR
  | FAB_CP_CNT
  | FAB_CP_ABORT
  | FAB_CP_RES
  | FAB_CP_DB
  | FAB_CP_CTRS
  | FAB_CTL
  | FAB_NODE
  | FAB_RACK_PRESENT
  | FAB_INC
  | FAB_EVT
  | FAB_XPORT_CFG
  | FAB_PATH_BASE
  | FAB_PATH_UPD
  | FAB_PATH_Q
  | FAB_PATH_QRES
  | FAB_RC_STAT
  | FAB_CNT
  | FAB_CNT2
  | FAB_SMP_BASE
  | FAB_SMP_CFG
  | FAB_SMP_PORTS
  | FAB_SMP_HEAD
  | FAB_SMP_TAIL
  | FAB_RGN_BASE
  | FAB_RGN_LIM
  | FAB_RGN_KEY
  | FAB_RGN_CTL
  | FAB_P_KEY
  | FAB_P_CLASS
  | FAB_P_ERR
  | FAB_PORT_CTL
  | FAB_PORT_STAT
  | FAB_PORT_PEER
  | FAB_PORT_OVH
  | FAB_PORT_WGT0
  | FAB_PORT_WGT1
  | FAB_PORT_ERR
  | FAB_PORT_CNT
  | PART_CTL
  | PART_STAT
  | PART_ERR
  | PART_LEND_LO
  | PART_LEND_HI
  | PART_LEND_OFS
  | PART_P_CTL
  | PART_P_TILE_LO
  | PART_P_TILE_HI
  | PART_P_KTAB
  | PART_P_DLOG
  | PART_P_STOP
  | PART_P_CNT
  | SLU_P_PILE
  | SLU_P_T2
  | SLU_P_FAB
  | SLU_P_HL
  | SLU_P_HELD
  | PART_HS_OWN
  | PART_DMA_CTL
  | PART_DMA_BASE
  | PART_DMA_STAT
  | PART_DMA_GO
  | PART_DMA_DB
  | PART_FN_CTL
  | PART_FN_SRC
  | PART_FN_STAT
  | PART_FN_CNT
  | CX_CTL
  | CX_TILE_LO
  | CX_TILE_HI
  | CX_TS
  | CX_RING
  | CX_SWAP
  | CX_LQ_TAIL
  | CX_LQ_HEAD
  | CX_CQ_TAIL
  | CX_CQ_HEAD
  | CX_STAT
  | CX_EVT
  | CX_DB
  | HL_CTL
  | HL_RETRAIN
  | HL_STAT
  | HL_ERR
  | HL_CFG
  | HL_CNT
  | MBX_CFG
  | MBX_ACL
  | MBX_STAT
  | MBX_SEND
  | MBX_ACK
  | MBX_DB_SET
  | MBX_DB
  | MBX_DB_MASK
  | MBX_CNT
  | MBX_MSG
  | MBX_STG
  | MBX_STG_STAT
  | DEV_ID
  | DEV_HWTYPE
  | DEV_SERIAL
  | DEV_TILEMAP_LO
  | DEV_TILEMAP_HI
  | DEV_STAT
  | DEV_RST
  | DEV_RST_CAUSE
  | DEV_CFG_CUR
  | DEV_CFG_STAGE
  | DEV_CFG_CTL
  | DEV_CFG_STAT
  | DEV_CFG_EVT
  | DEV_CFG_DB
  | PWR_DOM_REQ
  | PWR_DOM_STAT
  | PWR_DOM_HOLD
  | PWR_DOM_RST
  | PWR_IDLE
  | PWR_LIMIT
  | PWR_GOV
  | PWR_GOV_STAT
  | PWR_THERM
  | PWR_EVT
  | PWR_PMB_CFG
  | PWR_RAIL
  | PWR_CNT
  | SEC_BOOT_STAT
  | SEC_FW_CTL
  | SEC_FW_STAT
  | SEC_ARB
  | SEC_ARB2
  | SEC_WDOG
  | SEC_REC_STAT
  | SEC_MEAS_GO
  | SEC_MEAS_IN
  | SEC_MEAS
  | ERR_STAT
  | ERR_SUM
  | ERR_LOST
  | ERR_CTL
  | ERR_DB
  | ERR_REC
  | ERR_RV_CTL
  | ERR_RV_CFG
  | ERR_RV_STAT
  | ERR_RV_WGT0
  | ERR_RV_WGT1
  | ERR_RV_DEST
  | ERR_SH_CTL
  | ERR_SH_ACC
  | ERR_RM_CTL
  | ERR_RM_MASK
  | ERR_RM_CFG
  | ERR_RM_BASE
  | ERR_RM_DEV
  deriving DecidableEq, Repr

/-- The access types of R16. -/
inductive Access where
  | rw | ro | w1c | w1s | rc | wo
  deriving DecidableEq, Repr

/-- One field of a register: bits `[hi:lo]`, its access type and its reset value. -/
structure Field where
  name   : String
  hi     : Nat
  lo     : Nat
  access : Access
  reset  : Nat
  deriving DecidableEq, Repr

/-- One register: the offset of instance (0, 0), the counts and strides of its one or two instance indices (count 1
and stride 0 where it has none), and its fields. -/
structure RegDesc where
  base    : Nat
  count1  : Nat
  stride1 : Nat
  count2  : Nat
  stride2 : Nat
  fields  : List Field
  deriving DecidableEq, Repr

/-- The register tables of the chapters. -/
def RegName.desc : RegName → RegDesc
  -- 02_timebase_and_bells.md R62
  | .TB_CTL => ⟨0x10000, 1, 0x0, 1, 0x0,
      [⟨"STEP_GUARD", 8, 8, .rw, 1⟩, ⟨"MODE_WE", 2, 2, .wo, 0⟩, ⟨"MODE_REQ", 1, 0, .wo, 0⟩]⟩
  -- 02_timebase_and_bells.md R62
  | .TB_STATE => ⟨0x10008, 1, 0x0, 1, 0x0,
      [⟨"HOLD_AGE_MS", 63, 32, .ro, 0⟩, ⟨"LOCK_RUN", 15, 8, .ro, 0⟩, ⟨"SLEWING", 4, 4, .ro, 0⟩, ⟨"SYNC_OK", 3, 3, .ro, 0⟩, ⟨"STATE", 1, 0, .ro, 0⟩]⟩
  -- 02_timebase_and_bells.md R62
  | .TB_SNAP => ⟨0x10010, 1, 0x0, 1, 0x0,
      [⟨"GO", 0, 0, .wo, 0⟩]⟩
  -- 02_timebase_and_bells.md R62
  | .TB_SNAP_SEC => ⟨0x10018, 1, 0x0, 1, 0x0,
      [⟨"TB_SNAP_SEC", 63, 0, .ro, 0⟩]⟩
  -- 02_timebase_and_bells.md R62
  | .TB_SNAP_NS => ⟨0x10020, 1, 0x0, 1, 0x0,
      [⟨"NS", 45, 16, .ro, 0⟩, ⟨"SUBNS", 15, 0, .ro, 0⟩]⟩
  -- 02_timebase_and_bells.md R62
  | .TB_SNAP_CNT => ⟨0x10028, 1, 0x0, 1, 0x0,
      [⟨"TB_SNAP_CNT", 63, 0, .ro, 0⟩]⟩
  -- 02_timebase_and_bells.md R62
  | .TB_SNAP_CNTF => ⟨0x10030, 1, 0x0, 1, 0x0,
      [⟨"CNTF", 15, 0, .ro, 0⟩]⟩
  -- 02_timebase_and_bells.md R62
  | .TB_NOW_NS => ⟨0x10038, 1, 0x0, 1, 0x0,
      [⟨"TB_NOW_NS", 63, 0, .ro, 0⟩]⟩
  -- 02_timebase_and_bells.md R62
  | .TB_RATE => ⟨0x10040, 1, 0x0, 1, 0x0,
      [⟨"TB_RATE", 31, 0, .rw, 0⟩]⟩
  -- 02_timebase_and_bells.md R62
  | .TB_SLEW_MAX => ⟨0x10048, 1, 0x0, 1, 0x0,
      [⟨"TB_SLEW_MAX", 27, 0, .rw, 0xa7c5ac⟩]⟩
  -- 02_timebase_and_bells.md R62
  | .TB_ADJ => ⟨0x10050, 1, 0x0, 1, 0x0,
      [⟨"TB_ADJ", 47, 0, .rw, 0⟩]⟩
  -- 02_timebase_and_bells.md R62
  | .TB_STEP_SEC => ⟨0x10058, 1, 0x0, 1, 0x0,
      [⟨"TB_STEP_SEC", 63, 0, .rw, 0⟩]⟩
  -- 02_timebase_and_bells.md R62
  | .TB_STEP_NS => ⟨0x10060, 1, 0x0, 1, 0x0,
      [⟨"SIGN", 63, 63, .rw, 0⟩, ⟨"NS", 45, 16, .rw, 0⟩, ⟨"SUBNS", 15, 0, .rw, 0⟩]⟩
  -- 02_timebase_and_bells.md R62
  | .TB_STEP_GO => ⟨0x10068, 1, 0x0, 1, 0x0,
      [⟨"GO", 0, 0, .wo, 0⟩]⟩
  -- 02_timebase_and_bells.md R62
  | .TB_LOCK_CFG => ⟨0x10070, 1, 0x0, 1, 0x0,
      [⟨"HOLD_TO_MS", 63, 48, .rw, 0x7d0⟩, ⟨"LOCK_N", 47, 40, .rw, 0x10⟩, ⟨"UNLOCK_THR", 39, 20, .rw, 0x3e8⟩, ⟨"LOCK_THR", 19, 0, .rw, 0x64⟩]⟩
  -- 02_timebase_and_bells.md R62
  | .TB_EVT => ⟨0x10078, 1, 0x0, 1, 0x0,
      [⟨"BELL_DENIED", 9, 9, .w1c, 0⟩, ⟨"BELL_LATE", 8, 8, .w1c, 0⟩, ⟨"TS_DROP", 7, 7, .w1c, 0⟩, ⟨"FSRC_LOSS", 6, 6, .w1c, 0⟩, ⟨"PPS_IN", 5, 5, .w1c, 0⟩, ⟨"ADJ_REPLACED", 4, 4, .w1c, 0⟩, ⟨"RATE_REJECT", 3, 3, .w1c, 0⟩, ⟨"STEP_REFUSED", 2, 2, .w1c, 0⟩, ⟨"STEP_DONE", 1, 1, .w1c, 0⟩, ⟨"STATE_CHG", 0, 0, .w1c, 0⟩]⟩
  -- 02_timebase_and_bells.md R62
  | .TB_FSRC => ⟨0x10080, 1, 0x0, 1, 0x0,
      [⟨"ACTIVE", 17, 16, .ro, 0⟩, ⟨"SYNCE_PORT", 11, 8, .rw, 0⟩, ⟨"LOS", 4, 4, .ro, 0⟩, ⟨"SEL", 1, 0, .rw, 0⟩]⟩
  -- 02_timebase_and_bells.md R62
  | .TB_PPSO_CTL => ⟨0x10088, 1, 0x0, 1, 0x0,
      [⟨"OFFSET", 63, 32, .rw, 0⟩, ⟨"WIDTH_US", 27, 8, .rw, 0x64⟩, ⟨"GATE", 3, 0, .rw, 0xc⟩]⟩
  -- 02_timebase_and_bells.md R62
  | .TB_PPSI_SEC => ⟨0x10090, 1, 0x0, 1, 0x0,
      [⟨"TB_PPSI_SEC", 63, 0, .ro, 0⟩]⟩
  -- 02_timebase_and_bells.md R62
  | .TB_PPSI_NS => ⟨0x10098, 1, 0x0, 1, 0x0,
      [⟨"NS", 45, 16, .ro, 0⟩, ⟨"SUBNS", 15, 0, .ro, 0⟩]⟩
  -- 02_timebase_and_bells.md R62
  | .TB_PPSI_DLY => ⟨0x100A0, 1, 0x0, 1, 0x0,
      [⟨"TB_PPSI_DLY", 31, 0, .rw, 0⟩]⟩
  -- 02_timebase_and_bells.md R62
  | .TB_PORT_INLAT => ⟨0x11000, 16, 0x100, 1, 0x0,
      [⟨"TB_PORT_INLAT", 31, 0, .rw, 0⟩]⟩
  -- 02_timebase_and_bells.md R62
  | .TB_PORT_EGLAT => ⟨0x11008, 16, 0x100, 1, 0x0,
      [⟨"TB_PORT_EGLAT", 31, 0, .rw, 0⟩]⟩
  -- 02_timebase_and_bells.md R62
  | .TB_PORT_ASYM => ⟨0x11010, 16, 0x100, 1, 0x0,
      [⟨"TB_PORT_ASYM", 31, 0, .rw, 0⟩]⟩
  -- 02_timebase_and_bells.md R62
  | .TB_PORT_PTP => ⟨0x11018, 16, 0x100, 1, 0x0,
      [⟨"DOMAIN", 23, 16, .rw, 0x18⟩, ⟨"DOMAIN_FILT", 12, 12, .rw, 1⟩, ⟨"ROLE", 9, 8, .rw, 0⟩, ⟨"ONE_STEP", 4, 4, .rw, 0⟩, ⟨"TS_EN", 0, 0, .rw, 0⟩]⟩
  -- 02_timebase_and_bells.md R62
  | .TB_PORT_TS_STAT => ⟨0x11020, 16, 0x100, 1, 0x0,
      [⟨"DROP", 47, 32, .rc, 0⟩, ⟨"COUNT", 6, 0, .ro, 0⟩]⟩
  -- 02_timebase_and_bells.md R62
  | .TB_PORT_TS_HI => ⟨0x11028, 16, 0x100, 1, 0x0,
      [⟨"TB_PORT_TS_HI", 63, 0, .ro, 0⟩]⟩
  -- 02_timebase_and_bells.md R62
  | .TB_PORT_TS_LO => ⟨0x11030, 16, 0x100, 1, 0x0,
      [⟨"TB_PORT_TS_LO", 63, 0, .rc, 0⟩]⟩
  -- 02_timebase_and_bells.md R74
  | .BELL_TIME => ⟨0x20000, 9, 0x1000, 64, 0x20,
      [⟨"BELL_TIME", 63, 0, .rw, 0⟩]⟩
  -- 02_timebase_and_bells.md R74
  | .BELL_ACT => ⟨0x20008, 9, 0x1000, 64, 0x20,
      [⟨"LATE_DROP", 63, 63, .rw, 0⟩, ⟨"ALIGNED", 62, 62, .rw, 0⟩, ⟨"ACTION", 59, 48, .rw, 0⟩, ⟨"TARGET", 47, 32, .rw, 0⟩, ⟨"ARG", 31, 0, .rw, 0⟩]⟩
  -- 02_timebase_and_bells.md R74
  | .BELL_PERIOD => ⟨0x20010, 9, 0x1000, 64, 0x20,
      [⟨"BELL_PERIOD", 39, 0, .rw, 0⟩]⟩
  -- 02_timebase_and_bells.md R74
  | .BELL_CTL => ⟨0x20018, 9, 0x1000, 64, 0x20,
      [⟨"FIRES", 63, 48, .ro, 0⟩, ⟨"REMAIN", 47, 32, .rw, 0⟩, ⟨"OWNER", 19, 16, .rw, 0⟩, ⟨"OWNER_VALID", 12, 12, .rw, 0⟩, ⟨"LAST", 10, 8, .ro, 0⟩, ⟨"ARMED", 2, 2, .ro, 0⟩, ⟨"DISARM", 1, 1, .wo, 0⟩, ⟨"ARM", 0, 0, .wo, 0⟩]⟩
  -- 02_timebase_and_bells.md R74
  | .BELL_MASK => ⟨0x20800, 8, 0x1000, 16, 0x8,
      [⟨"BELL_MASK", 15, 0, .rw, 0⟩]⟩
  -- 02_timebase_and_bells.md R74
  | .BELL_DMASK_LO => ⟨0x28800, 32, 0x10, 1, 0x0,
      [⟨"BELL_DMASK_LO", 63, 0, .rw, 0⟩]⟩
  -- 02_timebase_and_bells.md R74
  | .BELL_DMASK_HI => ⟨0x28808, 32, 0x10, 1, 0x0,
      [⟨"BELL_DMASK_HI", 63, 0, .rw, 0⟩]⟩
  -- 02_timebase_and_bells.md R74
  | .BELL_STAT => ⟨0x20C00, 9, 0x1000, 1, 0x0,
      [⟨"BELL_STAT", 47, 32, .rc, 0⟩, ⟨"BELL_STAT", 31, 16, .rc, 0⟩, ⟨"BELL_STAT", 15, 0, .rc, 0⟩]⟩
  -- 02_timebase_and_bells.md R74
  | .BELL_ARMED => ⟨0x20C08, 9, 0x1000, 1, 0x0,
      [⟨"BELL_ARMED", 63, 0, .ro, 0⟩]⟩
  -- 02_timebase_and_bells.md R74
  | .BELL_FIRED => ⟨0x20C10, 9, 0x1000, 1, 0x0,
      [⟨"BELL_FIRED", 63, 0, .w1c, 0⟩]⟩
  -- 03_tile_isa.md R108
  | .TILE_STAT => ⟨0x200000, 128, 0x10000, 1, 0x0,
      [⟨"KENTRY", 63, 48, .ro, 0⟩, ⟨"TAGERR", 47, 40, .ro, 0⟩, ⟨"TAGBUSY", 39, 32, .ro, 0⟩, ⟨"PART", 19, 16, .ro, 0⟩, ⟨"LENT", 12, 12, .ro, 0⟩, ⟨"RADIO_RES", 11, 11, .ro, 0⟩, ⟨"RUN", 10, 8, .ro, 0⟩, ⟨"MODE", 0, 0, .ro, 0⟩]⟩
  -- 03_tile_isa.md R108
  | .TILE_PC => ⟨0x200008, 128, 0x10000, 1, 0x0,
      [⟨"TILE_PC", 63, 0, .ro, 0⟩]⟩
  -- 03_tile_isa.md R108
  | .TILE_ECAUSE => ⟨0x200010, 128, 0x10000, 1, 0x0,
      [⟨"TILE_ECAUSE", 7, 0, .ro, 0⟩]⟩
  -- 03_tile_isa.md R108
  | .TILE_EPC => ⟨0x200018, 128, 0x10000, 1, 0x0,
      [⟨"TILE_EPC", 63, 0, .ro, 0⟩]⟩
  -- 03_tile_isa.md R108
  | .TILE_EADDR => ⟨0x200020, 128, 0x10000, 1, 0x0,
      [⟨"TILE_EADDR", 63, 0, .ro, 0⟩]⟩
  -- 03_tile_isa.md R108
  | .TILE_MVEC => ⟨0x200028, 128, 0x10000, 1, 0x0,
      [⟨"TILE_MVEC", 51, 12, .rw, 0⟩]⟩
  -- 03_tile_isa.md R108
  | .TILE_TEVT_SET => ⟨0x200030, 128, 0x10000, 1, 0x0,
      [⟨"TILE_TEVT_SET", 31, 0, .wo, 0⟩]⟩
  -- 03_tile_isa.md R108
  | .TILE_EPOCH => ⟨0x200038, 128, 0x10000, 1, 0x0,
      [⟨"TILE_EPOCH", 63, 0, .ro, 0⟩]⟩
  -- 03_tile_isa.md R108
  | .TILE_RESET => ⟨0x200040, 128, 0x10000, 1, 0x0,
      [⟨"GO", 0, 0, .wo, 0⟩]⟩
  -- 03_tile_isa.md R108
  | .TILE_CNT_CORR => ⟨0x200048, 128, 0x10000, 1, 0x0,
      [⟨"TILE_CNT_CORR", 31, 0, .rc, 0⟩]⟩
  -- 05_matrix_arrays.md R172
  | .TILE_ARR_DIGEST => ⟨0x200080, 128, 0x10000, 1, 0x0,
      [⟨"TILE_ARR_DIGEST", 63, 0, .ro, 0⟩]⟩
  -- 05_matrix_arrays.md R172
  | .TILE_GANG_BASE => ⟨0x200088, 128, 0x10000, 1, 0x0,
      [⟨"TILE_GANG_BASE", 51, 6, .rw, 0⟩]⟩
  -- 05_matrix_arrays.md R172
  | .TILE_ARR_CTL => ⟨0x200100, 128, 0x10000, 5, 0x40,
      [⟨"KEEP_NS", 18, 10, .rw, 0x190⟩, ⟨"CHK_STOP", 2, 2, .rw, 0⟩, ⟨"CHK_ROW", 1, 1, .rw, 1⟩]⟩
  -- 05_matrix_arrays.md R172
  | .TILE_ARR_STAT => ⟨0x200108, 128, 0x10000, 5, 0x40,
      [⟨"QUEUED", 18, 16, .ro, 0⟩, ⟨"GANG_PEND", 11, 11, .ro, 0⟩, ⟨"PLANE", 10, 10, .ro, 0⟩, ⟨"WFMT", 7, 4, .ro, 0⟩, ⟨"STATE", 2, 0, .ro, 0⟩]⟩
  -- 05_matrix_arrays.md R172
  | .TILE_ARR_ERR => ⟨0x200110, 128, 0x10000, 5, 0x40,
      [⟨"FIRST_ROW", 63, 48, .ro, 0⟩, ⟨"GANG_BAD", 5, 5, .w1c, 0⟩, ⟨"RESIDUE", 4, 4, .w1c, 0⟩, ⟨"RANGE", 3, 3, .w1c, 0⟩, ⟨"UNCORR", 2, 2, .w1c, 0⟩, ⟨"CHK_ROW", 1, 1, .w1c, 0⟩, ⟨"CHK_COL", 0, 0, .w1c, 0⟩]⟩
  -- 05_matrix_arrays.md R172
  | .TILE_ARR_CNT => ⟨0x200118, 128, 0x10000, 5, 0x40,
      [⟨"MISMATCH", 63, 48, .rc, 0⟩, ⟨"GANG_LATE", 47, 32, .rc, 0⟩, ⟨"SAT_OUT", 31, 16, .rc, 0⟩, ⟨"STALL", 15, 0, .rc, 0⟩]⟩
  -- 06_fronthaul_and_slots.md R207
  | .FH_PORT_CTL => ⟨0xE0000, 16, 0x1000, 1, 0x0,
      [⟨"TX_STATIC", 19, 19, .rw, 0⟩, ⟨"SYNC_GATE", 18, 18, .rw, 1⟩, ⟨"FEC_OFF", 17, 17, .rw, 0⟩, ⟨"EN", 16, 16, .rw, 0⟩, ⟨"MODE", 2, 0, .rw, 0⟩]⟩
  -- 06_fronthaul_and_slots.md R207
  | .FH_PORT_STAT => ⟨0xE0008, 16, 0x1000, 1, 0x0,
      [⟨"CFG_ERR", 3, 3, .ro, 0⟩, ⟨"FEC_LOCK", 2, 2, .ro, 0⟩, ⟨"LINK", 1, 1, .ro, 0⟩, ⟨"ENABLED", 0, 0, .ro, 0⟩]⟩
  -- 06_fronthaul_and_slots.md R207
  | .FH_PORT_MAC => ⟨0xE0010, 16, 0x1000, 1, 0x0,
      [⟨"FH_PORT_MAC", 47, 0, .rw, 0⟩]⟩
  -- 06_fronthaul_and_slots.md R207
  | .FH_PORT_WGT => ⟨0xE0018, 16, 0x1000, 1, 0x0,
      [⟨"W7", 31, 24, .rw, 1⟩, ⟨"W6", 23, 16, .rw, 1⟩, ⟨"W5", 15, 8, .rw, 1⟩, ⟨"W4", 7, 0, .rw, 1⟩]⟩
  -- 06_fronthaul_and_slots.md R207
  | .FH_PORT_OVH => ⟨0xE0020, 16, 0x1000, 1, 0x0,
      [⟨"FH_PORT_OVH", 15, 0, .rw, 0x14⟩]⟩
  -- 06_fronthaul_and_slots.md R207
  | .FH_WIN_BASE => ⟨0xE0028, 16, 0x1000, 1, 0x0,
      [⟨"FH_WIN_BASE", 51, 5, .rw, 0⟩]⟩
  -- 06_fronthaul_and_slots.md R207
  | .FH_WIN_CNT => ⟨0xE0030, 16, 0x1000, 1, 0x0,
      [⟨"FH_WIN_CNT", 12, 0, .rw, 0⟩]⟩
  -- 06_fronthaul_and_slots.md R207
  | .FH_TX_POST => ⟨0xE0038, 16, 0x1000, 1, 0x0,
      [⟨"WINDOW", 63, 48, .wo, 0⟩, ⟨"OCC", 47, 40, .wo, 0⟩, ⟨"ENTRY", 15, 0, .wo, 0⟩]⟩
  -- 06_fronthaul_and_slots.md R207
  | .FH_WIN_SEL => ⟨0xE0040, 16, 0x1000, 1, 0x0,
      [⟨"FH_WIN_SEL", 11, 0, .rw, 0⟩]⟩
  -- 06_fronthaul_and_slots.md R207
  | .FH_WIN_INFO => ⟨0xE0048, 16, 0x1000, 1, 0x0,
      [⟨"DECIDED", 9, 9, .ro, 0⟩, ⟨"OPEN", 8, 8, .ro, 0⟩, ⟨"OCC", 7, 0, .ro, 0⟩]⟩
  -- 06_fronthaul_and_slots.md R207
  | .FH_PORT_ERR => ⟨0xE0050, 16, 0x1000, 1, 0x0,
      [⟨"WIN_OVERLAP", 3, 3, .w1c, 0⟩, ⟨"WIN_FULL", 2, 2, .w1c, 0⟩, ⟨"WIN_BAD", 1, 1, .w1c, 0⟩, ⟨"LINK_DOWN", 0, 0, .w1c, 0⟩]⟩
  -- 06_fronthaul_and_slots.md R207
  | .FH_CNT_POST => ⟨0xE0058, 16, 0x1000, 1, 0x0,
      [⟨"LATE", 63, 48, .rc, 0⟩, ⟨"STALE", 47, 32, .rc, 0⟩, ⟨"BAD", 31, 16, .rc, 0⟩, ⟨"DUP", 15, 0, .rc, 0⟩]⟩
  -- 06_fronthaul_and_slots.md R207
  | .FH_CNT_RX => ⟨0xE0060, 16, 0x1000, 1, 0x0,
      [⟨"DISC", 63, 48, .rc, 0⟩, ⟨"OUTSIDE", 47, 32, .rc, 0⟩, ⟨"SEQGAP", 31, 16, .rc, 0⟩, ⟨"FCS", 15, 0, .rc, 0⟩]⟩
  -- 06_fronthaul_and_slots.md R207
  | .FH_CNT_TX => ⟨0xE0068, 16, 0x1000, 1, 0x0,
      [⟨"EXPIRED", 63, 48, .rc, 0⟩, ⟨"FALLBACK", 47, 32, .rc, 0⟩, ⟨"GATED", 31, 16, .rc, 0⟩, ⟨"CLIP", 15, 0, .rc, 0⟩]⟩
  -- 06_fronthaul_and_slots.md R207
  | .FH_PORT_RU => ⟨0xE0100, 16, 0x1000, 16, 0x8,
      [⟨"VLAN_EN", 63, 63, .rw, 0⟩, ⟨"PCP", 62, 60, .rw, 0⟩, ⟨"VID", 59, 48, .rw, 0⟩, ⟨"MAC", 47, 0, .rw, 0⟩]⟩
  -- 06_fronthaul_and_slots.md R208
  | .FH_SFN_OFFSET => ⟨0xF0000, 1, 0x0, 1, 0x0,
      [⟨"FH_SFN_OFFSET", 63, 0, .rw, 0⟩]⟩
  -- 06_fronthaul_and_slots.md R208
  | .FH_LEDGER_BASE => ⟨0xF0008, 1, 0x0, 1, 0x0,
      [⟨"FH_LEDGER_BASE", 51, 4, .rw, 0⟩]⟩
  -- 06_fronthaul_and_slots.md R208
  | .FH_LEDGER_CFG => ⟨0xF0010, 1, 0x0, 1, 0x0,
      [⟨"EN", 63, 63, .rw, 0⟩, ⟨"DEPTH_LOG2", 3, 0, .rw, 0⟩]⟩
  -- 06_fronthaul_and_slots.md R208
  | .FH_AGC_CFG => ⟨0xF0018, 1, 0x0, 1, 0x0,
      [⟨"STEP", 19, 16, .rw, 2⟩, ⟨"GMAX", 15, 12, .rw, 8⟩, ⟨"HEAD", 11, 8, .rw, 2⟩, ⟨"TRACK", 4, 0, .rw, 0xe⟩]⟩
  -- 06_fronthaul_and_slots.md R208
  | .FH_AGC_CMD => ⟨0xF0020, 1, 0x0, 1, 0x0,
      [⟨"OP", 63, 62, .wo, 0⟩, ⟨"CELL", 55, 48, .wo, 0⟩, ⟨"FIRST", 45, 40, .wo, 0⟩, ⟨"LAST", 37, 32, .wo, 0⟩, ⟨"HOLD_US", 31, 0, .wo, 0⟩]⟩
  -- 06_fronthaul_and_slots.md R208
  | .FH_EVT => ⟨0xF0028, 1, 0x0, 1, 0x0,
      [⟨"LINK_CHG", 1, 1, .w1c, 0⟩, ⟨"MISS", 0, 0, .w1c, 0⟩]⟩
  -- 06_fronthaul_and_slots.md R208
  | .FH_TD_BASE => ⟨0xF0030, 1, 0x0, 1, 0x0,
      [⟨"FH_TD_BASE", 51, 10, .rw, 0⟩]⟩
  -- 06_fronthaul_and_slots.md R208
  | .FH_LEDGER_SUM => ⟨0xF0040, 4, 0x8, 1, 0x0,
      [⟨"FH_LEDGER_SUM", 63, 0, .w1c, 0⟩]⟩
  -- 06_fronthaul_and_slots.md R208
  | .FH_CELL_CFG => ⟨0xF2000, 256, 0x20, 1, 0x0,
      [⟨"VALID", 63, 63, .rw, 0⟩, ⟨"MODE", 62, 62, .rw, 0⟩, ⟨"RAT", 61, 61, .rw, 0⟩, ⟨"CAT", 60, 60, .rw, 0⟩, ⟨"MU", 59, 58, .rw, 0⟩, ⟨"TDX", 52, 48, .rw, 0⟩, ⟨"PORT", 47, 44, .rw, 0⟩, ⟨"NPRB", 40, 32, .rw, 0⟩]⟩
  -- 07_channel_coding.md R232
  | .COD_CTL => ⟨0x100000, 2, 0x1000, 1, 0x0,
      [⟨"EN", 0, 0, .rw, 0⟩]⟩
  -- 07_channel_coding.md R232
  | .COD_STAT => ⟨0x100008, 2, 0x1000, 1, 0x0,
      [⟨"SLOTS", 56, 48, .ro, 0⟩, ⟨"LDEC_BUSY", 43, 40, .ro, 0⟩, ⟨"LENC_BUSY", 34, 32, .ro, 0⟩, ⟨"TDEC_BUSY", 26, 24, .ro, 0⟩, ⟨"TENC_BUSY", 17, 16, .ro, 0⟩, ⟨"PDEC_BUSY", 9, 8, .ro, 0⟩, ⟨"PENC_BUSY", 4, 4, .ro, 0⟩, ⟨"ENABLED", 0, 0, .ro, 0⟩]⟩
  -- 07_channel_coding.md R232
  | .COD_ERR => ⟨0x100010, 2, 0x1000, 1, 0x0,
      [⟨"ABORTED", 5, 5, .w1c, 0⟩, ⟨"HARQ_MISMATCH", 4, 4, .w1c, 0⟩, ⟨"UNCORR", 3, 3, .w1c, 0⟩, ⟨"ADDRESS", 2, 2, .w1c, 0⟩, ⟨"DESC_BAD", 1, 1, .w1c, 0⟩, ⟨"SQ_OVF", 0, 0, .w1c, 0⟩]⟩
  -- 07_channel_coding.md R232
  | .COD_CNT => ⟨0x100018, 2, 0x1000, 1, 0x0,
      [⟨"OK", 63, 48, .rc, 0⟩, ⟨"CRC_FAIL", 47, 32, .rc, 0⟩, ⟨"LATE", 31, 16, .rc, 0⟩, ⟨"EXPIRED", 15, 0, .rc, 0⟩]⟩
  -- 07_channel_coding.md R232
  | .COD_CNT_ERR => ⟨0x100020, 2, 0x1000, 1, 0x0,
      [⟨"DESC_BAD", 63, 48, .rc, 0⟩, ⟨"UNCORR", 47, 32, .rc, 0⟩, ⟨"HARQ_MISMATCH", 31, 16, .rc, 0⟩, ⟨"ABORTED", 15, 0, .rc, 0⟩]⟩
  -- 07_channel_coding.md R232
  | .COD_CNT_HWAIT => ⟨0x100028, 2, 0x1000, 1, 0x0,
      [⟨"COD_CNT_HWAIT", 31, 0, .rc, 0⟩]⟩
  -- 07_channel_coding.md R232
  | .COD_SQ_BASE => ⟨0x100100, 2, 0x1000, 8, 0x40,
      [⟨"COD_SQ_BASE", 51, 6, .rw, 0⟩]⟩
  -- 07_channel_coding.md R232
  | .COD_SQ_CFG => ⟨0x100108, 2, 0x1000, 8, 0x40,
      [⟨"EN", 63, 63, .rw, 0⟩, ⟨"SIZE_LOG2", 3, 0, .rw, 4⟩]⟩
  -- 07_channel_coding.md R232
  | .COD_SQ_TAIL => ⟨0x100110, 2, 0x1000, 8, 0x40,
      [⟨"COD_SQ_TAIL", 15, 0, .rw, 0⟩]⟩
  -- 07_channel_coding.md R232
  | .COD_SQ_HEAD => ⟨0x100118, 2, 0x1000, 8, 0x40,
      [⟨"COD_SQ_HEAD", 15, 0, .ro, 0⟩]⟩
  -- 07_channel_coding.md R232
  | .COD_CQ_BASE => ⟨0x100120, 2, 0x1000, 8, 0x40,
      [⟨"COD_CQ_BASE", 51, 5, .rw, 0⟩]⟩
  -- 07_channel_coding.md R232
  | .COD_CQ_TAIL => ⟨0x100128, 2, 0x1000, 8, 0x40,
      [⟨"COD_CQ_TAIL", 15, 0, .ro, 0⟩]⟩
  -- 07_channel_coding.md R232
  | .COD_CQ_HEAD => ⟨0x100130, 2, 0x1000, 8, 0x40,
      [⟨"COD_CQ_HEAD", 15, 0, .rw, 0⟩]⟩
  -- 07_channel_coding.md R232
  | .COD_CQ_DB => ⟨0x100138, 2, 0x1000, 8, 0x40,
      [⟨"DB_EN", 63, 63, .rw, 0⟩, ⟨"MBX", 56, 48, .rw, 0⟩, ⟨"BIT", 4, 0, .rw, 0⟩]⟩
  -- 08_memory_tiers.md R268
  | .GRN_CTL => ⟨0xA0000, 1, 0x0, 1, 0x0,
      [⟨"MOVES", 4, 0, .rw, 0x10⟩]⟩
  -- 08_memory_tiers.md R268
  | .GRN_STAT => ⟨0xA0008, 1, 0x0, 1, 0x0,
      [⟨"INFLIGHT", 36, 32, .ro, 0⟩, ⟨"FREE1", 22, 0, .ro, 0⟩]⟩
  -- 08_memory_tiers.md R268
  | .GRN_CMD => ⟨0xA0010, 1, 0x0, 1, 0x0,
      [⟨"GRN_CMD", 63, 0, .wo, 0⟩]⟩
  -- 08_memory_tiers.md R268
  | .GRN_EVT => ⟨0xA0018, 1, 0x0, 1, 0x0,
      [⟨"STEW_DROP", 6, 6, .w1c, 0⟩, ⟨"QUOTA_CUT", 5, 5, .w1c, 0⟩, ⟨"SCRUB_UNCORR", 4, 4, .w1c, 0⟩, ⟨"MIG_UNCORR", 3, 3, .w1c, 0⟩, ⟨"STUCK", 2, 2, .w1c, 0⟩, ⟨"NO_VICTIM", 1, 1, .w1c, 0⟩, ⟨"CMD_BAD", 0, 0, .w1c, 0⟩]⟩
  -- 08_memory_tiers.md R268
  | .GRN_BW => ⟨0xA0020, 1, 0x0, 1, 0x0,
      [⟨"GRN_BW", 15, 0, .rw, 0xc8⟩]⟩
  -- 08_memory_tiers.md R268
  | .GRN_RECLAIM => ⟨0xA0028, 1, 0x0, 1, 0x0,
      [⟨"GRN_RECLAIM", 8, 0, .rw, 0x10⟩]⟩
  -- 08_memory_tiers.md R268
  | .GRN_SCRUB => ⟨0xA0030, 1, 0x0, 1, 0x0,
      [⟨"EN", 63, 63, .rw, 1⟩, ⟨"RATE", 7, 0, .rw, 2⟩]⟩
  -- 08_memory_tiers.md R268
  | .GRN_SCRUB_POS => ⟨0xA0038, 1, 0x0, 1, 0x0,
      [⟨"GRN_SCRUB_POS", 63, 32, .ro, 0⟩, ⟨"GRN_SCRUB_POS", 24, 0, .ro, 0⟩]⟩
  -- 08_memory_tiers.md R268
  | .GRN_CNT_ECC => ⟨0xA0040, 1, 0x0, 1, 0x0,
      [⟨"CORR", 63, 32, .rc, 0⟩, ⟨"UNCORR", 31, 16, .rc, 0⟩, ⟨"MIG_UNCORR", 15, 0, .rc, 0⟩]⟩
  -- 08_memory_tiers.md R268
  | .GRN_CNT_MOVE => ⟨0xA0048, 1, 0x0, 1, 0x0,
      [⟨"GRN_CNT_MOVE", 63, 32, .rc, 0⟩, ⟨"CANCELLED", 31, 16, .rc, 0⟩, ⟨"STUCK", 15, 0, .rc, 0⟩]⟩
  -- 08_memory_tiers.md R268
  | .GRN_P_QUOTA => ⟨0xA0100, 16, 0x80, 1, 0x0,
      [⟨"QUOTA", 22, 0, .rw, 0x600000⟩]⟩
  -- 08_memory_tiers.md R268
  | .GRN_P_FLOOR => ⟨0xA0108, 16, 0x80, 1, 0x0,
      [⟨"FLOOR", 22, 0, .rw, 0⟩]⟩
  -- 08_memory_tiers.md R268
  | .GRN_P_USE => ⟨0xA0110, 16, 0x80, 1, 0x0,
      [⟨"PINNED", 54, 32, .ro, 0⟩, ⟨"USE", 22, 0, .ro, 0⟩]⟩
  -- 08_memory_tiers.md R268
  | .GRN_P_STAT => ⟨0xA0118, 16, 0x80, 1, 0x0,
      [⟨"CMD_QUEUED", 54, 48, .ro, 0⟩, ⟨"PF_PAUSED", 4, 4, .ro, 0⟩, ⟨"DECL_BAD", 3, 3, .w1c, 0⟩, ⟨"CMD_DROP", 2, 2, .w1c, 0⟩, ⟨"QUOTA_REFUSED", 1, 1, .w1c, 0⟩, ⟨"RECLAIM", 0, 0, .ro, 0⟩]⟩
  -- 08_memory_tiers.md R268
  | .GRN_P_PF_BASE => ⟨0xA0120, 16, 0x80, 1, 0x0,
      [⟨"GRN_P_PF_BASE", 51, 5, .rw, 0⟩]⟩
  -- 08_memory_tiers.md R268
  | .GRN_P_PF_CFG => ⟨0xA0128, 16, 0x80, 1, 0x0,
      [⟨"EN", 63, 63, .rw, 0⟩, ⟨"LOOKAHEAD", 55, 40, .rw, 0⟩, ⟨"PERIOD", 39, 20, .rw, 1⟩, ⟨"SIZE_LOG2", 3, 0, .rw, 4⟩]⟩
  -- 08_memory_tiers.md R268
  | .GRN_P_PF_CUR => ⟨0xA0130, 16, 0x80, 1, 0x0,
      [⟨"CUR", 31, 0, .rw, 0⟩]⟩
  -- 08_memory_tiers.md R268
  | .GRN_P_DB => ⟨0xA0138, 16, 0x80, 1, 0x0,
      [⟨"DB_EN", 63, 63, .rw, 0⟩, ⟨"MBX", 56, 48, .rw, 0⟩, ⟨"BIT", 4, 0, .rw, 0⟩]⟩
  -- 08_memory_tiers.md R268
  | .GRN_P_CNT => ⟨0xA0140, 16, 0x80, 1, 0x0,
      [⟨"SHADOW", 63, 48, .rc, 0⟩, ⟨"DROP", 47, 32, .rc, 0⟩, ⟨"WAITED", 31, 16, .rc, 0⟩, ⟨"PF_STALE", 15, 0, .rc, 0⟩]⟩
  -- 08_memory_tiers.md R268
  | .GRN_P_CNT2 => ⟨0xA0148, 16, 0x80, 1, 0x0,
      [⟨"NO_VICTIM", 63, 48, .rc, 0⟩, ⟨"QUOTA", 47, 32, .rc, 0⟩, ⟨"LOWER_REFUSED", 31, 16, .rc, 0⟩, ⟨"DEMOTED", 15, 0, .rc, 0⟩]⟩
  -- 08_memory_tiers.md R268
  | .GRN_P_QADDR => ⟨0xA0150, 16, 0x80, 1, 0x0,
      [⟨"GRN_P_QADDR", 24, 0, .rw, 0⟩]⟩
  -- 08_memory_tiers.md R268
  | .GRN_P_QRES => ⟨0xA0158, 16, 0x80, 1, 0x0,
      [⟨"GRN_P_QRES", 63, 0, .ro, 0⟩]⟩
  -- 09_pile_engines.md R297
  | .SE_CTL => ⟨0xB0000, 8, 0x1000, 1, 0x0,
      [⟨"EN", 0, 0, .rw, 0⟩]⟩
  -- 09_pile_engines.md R297
  | .SE_STAT => ⟨0xB0008, 8, 0x1000, 1, 0x0,
      [⟨"INFLIGHT", 11, 8, .ro, 0⟩, ⟨"ENABLED", 0, 0, .ro, 0⟩]⟩
  -- 09_pile_engines.md R297
  | .SE_ERR => ⟨0xB0010, 8, 0x1000, 1, 0x0,
      [⟨"ABORTED", 5, 5, .w1c, 0⟩, ⟨"INDEX", 4, 4, .w1c, 0⟩, ⟨"UNCORR", 3, 3, .w1c, 0⟩, ⟨"ADDRESS", 2, 2, .w1c, 0⟩, ⟨"DESC_BAD", 1, 1, .w1c, 0⟩, ⟨"SQ_OVF", 0, 0, .w1c, 0⟩]⟩
  -- 09_pile_engines.md R297
  | .SE_CNT => ⟨0xB0018, 8, 0x1000, 1, 0x0,
      [⟨"SE_CNT", 63, 32, .rc, 0⟩, ⟨"CAP_DROP", 31, 16, .rc, 0⟩, ⟨"HARQ", 15, 0, .rc, 0⟩]⟩
  -- 09_pile_engines.md R297
  | .SE_CNT_ERR => ⟨0xB0020, 8, 0x1000, 1, 0x0,
      [⟨"DESC_BAD", 63, 48, .rc, 0⟩, ⟨"UNCORR", 47, 32, .rc, 0⟩, ⟨"INDEX", 31, 16, .rc, 0⟩, ⟨"ABORTED", 15, 0, .rc, 0⟩]⟩
  -- 09_pile_engines.md R297
  | .SE_SQ_BASE => ⟨0xB0100, 8, 0x1000, 16, 0x40,
      [⟨"SE_SQ_BASE", 51, 6, .rw, 0⟩]⟩
  -- 09_pile_engines.md R297
  | .SE_SQ_CFG => ⟨0xB0108, 8, 0x1000, 16, 0x40,
      [⟨"EN", 63, 63, .rw, 0⟩, ⟨"PART", 23, 20, .rw, 0⟩, ⟨"SIZE_LOG2", 3, 0, .rw, 4⟩]⟩
  -- 09_pile_engines.md R297
  | .SE_SQ_TAIL => ⟨0xB0110, 8, 0x1000, 16, 0x40,
      [⟨"SE_SQ_TAIL", 15, 0, .rw, 0⟩]⟩
  -- 09_pile_engines.md R297
  | .SE_SQ_HEAD => ⟨0xB0118, 8, 0x1000, 16, 0x40,
      [⟨"SE_SQ_HEAD", 15, 0, .ro, 0⟩]⟩
  -- 09_pile_engines.md R297
  | .SE_CQ_BASE => ⟨0xB0120, 8, 0x1000, 16, 0x40,
      [⟨"SE_CQ_BASE", 51, 5, .rw, 0⟩]⟩
  -- 09_pile_engines.md R297
  | .SE_CQ_TAIL => ⟨0xB0128, 8, 0x1000, 16, 0x40,
      [⟨"SE_CQ_TAIL", 15, 0, .ro, 0⟩]⟩
  -- 09_pile_engines.md R297
  | .SE_CQ_HEAD => ⟨0xB0130, 8, 0x1000, 16, 0x40,
      [⟨"SE_CQ_HEAD", 15, 0, .rw, 0⟩]⟩
  -- 09_pile_engines.md R297
  | .SE_CQ_DB => ⟨0xB0138, 8, 0x1000, 16, 0x40,
      [⟨"DB_EN", 63, 63, .rw, 0⟩, ⟨"MBX", 56, 48, .rw, 0⟩, ⟨"BIT", 4, 0, .rw, 0⟩]⟩
  -- 10_expert_routing.md R335
  | .DRV_CTL => ⟨0xC0000, 8, 0x1000, 1, 0x0,
      [⟨"EN", 63, 63, .rw, 0⟩, ⟨"PART", 19, 16, .rw, 0⟩, ⟨"PART_VALID", 12, 12, .rw, 0⟩]⟩
  -- 10_expert_routing.md R335
  | .DRV_STAT => ⟨0xC0008, 8, 0x1000, 1, 0x0,
      [⟨"SLOTS", 20, 16, .ro, 0⟩, ⟨"CQ_FULL", 8, 8, .ro, 0⟩, ⟨"ENABLED", 0, 0, .ro, 0⟩]⟩
  -- 10_expert_routing.md R335
  | .DRV_ERR => ⟨0xC0010, 8, 0x1000, 1, 0x0,
      [⟨"STEP_ERR", 4, 4, .w1c, 0⟩, ⟨"GATE_BAD", 3, 3, .w1c, 0⟩, ⟨"CANCEL_MISS", 2, 2, .w1c, 0⟩, ⟨"POST_BAD", 1, 1, .w1c, 0⟩, ⟨"POST_FULL", 0, 0, .w1c, 0⟩]⟩
  -- 10_expert_routing.md R335
  | .DRV_POST => ⟨0xC0018, 8, 0x1000, 1, 0x0,
      [⟨"DRV_POST", 51, 7, .wo, 0⟩]⟩
  -- 10_expert_routing.md R335
  | .DRV_RET_POST => ⟨0xC0020, 8, 0x1000, 1, 0x0,
      [⟨"STEP", 31, 0, .wo, 0⟩]⟩
  -- 10_expert_routing.md R335
  | .DRV_SH_POST => ⟨0xC0028, 8, 0x1000, 1, 0x0,
      [⟨"BATCH", 63, 48, .wo, 0⟩, ⟨"S", 32, 32, .wo, 0⟩, ⟨"GEN", 31, 0, .wo, 0⟩]⟩
  -- 10_expert_routing.md R335
  | .DRV_CANCEL => ⟨0xC0030, 8, 0x1000, 1, 0x0,
      [⟨"BATCH", 63, 48, .wo, 0⟩, ⟨"GEN", 31, 0, .wo, 0⟩]⟩
  -- 10_expert_routing.md R335
  | .DRV_XCFG => ⟨0xC0038, 8, 0x1000, 1, 0x0,
      [⟨"NDEV−1", 63, 52, .rw, 0⟩, ⟨"SELF", 51, 40, .rw, 0⟩, ⟨"SLOT16−1", 39, 32, .rw, 0⟩, ⟨"RSLOT16−1", 31, 24, .rw, 0⟩, ⟨"DROWB−1", 23, 13, .rw, 0⟩, ⟨"RROWB−1", 12, 2, .rw, 0⟩, ⟨"SETS−1", 1, 0, .rw, 0⟩]⟩
  -- 10_expert_routing.md R335
  | .DRV_STAGE => ⟨0xC0040, 8, 0x1000, 1, 0x0,
      [⟨"DRV_STAGE", 51, 5, .rw, 0⟩]⟩
  -- 10_expert_routing.md R335
  | .DRV_RXAREA => ⟨0xC0048, 8, 0x1000, 1, 0x0,
      [⟨"DRV_RXAREA", 51, 5, .rw, 0⟩]⟩
  -- 10_expert_routing.md R335
  | .DRV_RSTAGE => ⟨0xC0050, 8, 0x1000, 1, 0x0,
      [⟨"DRV_RSTAGE", 51, 5, .rw, 0⟩]⟩
  -- 10_expert_routing.md R335
  | .DRV_RETAREA => ⟨0xC0058, 8, 0x1000, 1, 0x0,
      [⟨"DRV_RETAREA", 51, 5, .rw, 0⟩]⟩
  -- 10_expert_routing.md R335
  | .DRV_ALARM_CFG => ⟨0xC0060, 8, 0x1000, 1, 0x0,
      [⟨"UNPICK_PM", 63, 48, .rw, 0x40⟩, ⟨"DROP_THR", 31, 16, .rw, 0⟩, ⟨"MULT", 3, 0, .rw, 2⟩]⟩
  -- 10_expert_routing.md R335
  | .DRV_ALARM => ⟨0xC0068, 8, 0x1000, 1, 0x0,
      [⟨"HOT_EXPERT", 63, 52, .ro, 0⟩, ⟨"HOT_DEMAND", 51, 32, .ro, 0⟩, ⟨"UNPICK", 1, 1, .w1c, 0⟩, ⟨"LOAD", 0, 0, .w1c, 0⟩]⟩
  -- 10_expert_routing.md R335
  | .DRV_CNT_SEL => ⟨0xC0070, 8, 0x1000, 1, 0x0,
      [⟨"CAP", 63, 48, .rc, 0⟩, ⟨"UNPICKED", 47, 32, .rc, 0⟩, ⟨"OVER8", 31, 16, .rc, 0⟩, ⟨"NOSEND", 15, 0, .rc, 0⟩]⟩
  -- 10_expert_routing.md R335
  | .DRV_CNT_RX => ⟨0xC0078, 8, 0x1000, 1, 0x0,
      [⟨"RX_CAP", 63, 48, .rc, 0⟩, ⟨"BAD_SLOT", 47, 32, .rc, 0⟩, ⟨"MISSING", 31, 16, .rc, 0⟩, ⟨"RET_OVF", 15, 0, .rc, 0⟩]⟩
  -- 10_expert_routing.md R335
  | .GLN_CNT => ⟨0xC0080, 8, 0x1000, 1, 0x0,
      [⟨"CANCEL_DROP", 63, 48, .rc, 0⟩, ⟨"STRAY", 47, 32, .rc, 0⟩, ⟨"DUP", 31, 16, .rc, 0⟩, ⟨"LOST", 15, 0, .rc, 0⟩]⟩
  -- 10_expert_routing.md R335
  | .GLN_CNT2 => ⟨0xC0088, 8, 0x1000, 1, 0x0,
      [⟨"CHEAP", 63, 48, .rc, 0⟩, ⟨"RENORM", 47, 32, .rc, 0⟩, ⟨"NOCONTRIB", 31, 16, .rc, 0⟩, ⟨"ERROR", 15, 0, .rc, 0⟩]⟩
  -- 10_expert_routing.md R335
  | .DRV_CQ_BASE => ⟨0xC0090, 8, 0x1000, 1, 0x0,
      [⟨"DRV_CQ_BASE", 51, 5, .rw, 0⟩]⟩
  -- 10_expert_routing.md R335
  | .DRV_CQ_CFG => ⟨0xC0098, 8, 0x1000, 1, 0x0,
      [⟨"EN", 63, 63, .rw, 0⟩, ⟨"SIZE_LOG2", 3, 0, .rw, 4⟩]⟩
  -- 10_expert_routing.md R335
  | .DRV_CQ_TAIL => ⟨0xC00A0, 8, 0x1000, 1, 0x0,
      [⟨"DRV_CQ_TAIL", 15, 0, .ro, 0⟩]⟩
  -- 10_expert_routing.md R335
  | .DRV_CQ_HEAD => ⟨0xC00A8, 8, 0x1000, 1, 0x0,
      [⟨"DRV_CQ_HEAD", 15, 0, .rw, 0⟩]⟩
  -- 10_expert_routing.md R335
  | .DRV_CQ_DB => ⟨0xC00B0, 8, 0x1000, 1, 0x0,
      [⟨"DB_EN", 63, 63, .rw, 0⟩, ⟨"MBX", 56, 48, .rw, 0⟩, ⟨"BIT", 4, 0, .rw, 0⟩]⟩
  -- 11_collectives.md R368
  | .FAB_CP_CTL => ⟨0xD8000, 32, 0x80, 1, 0x0,
      [⟨"EN", 63, 63, .rw, 0⟩, ⟨"PART", 19, 16, .rw, 0⟩, ⟨"PART_VALID", 12, 12, .rw, 0⟩]⟩
  -- 11_collectives.md R368
  | .FAB_CP_BASE => ⟨0xD8008, 32, 0x80, 1, 0x0,
      [⟨"FAB_CP_BASE", 51, 6, .rw, 0⟩]⟩
  -- 11_collectives.md R368
  | .FAB_CP_GO => ⟨0xD8010, 32, 0x80, 1, 0x0,
      [⟨"FAB_CP_GO", 5, 0, .wo, 0⟩]⟩
  -- 11_collectives.md R368
  | .FAB_CP_STAT => ⟨0xD8018, 32, 0x80, 1, 0x0,
      [⟨"PHASE", 21, 16, .ro, 0⟩, ⟨"OUTST", 14, 8, .ro, 0⟩, ⟨"STATE", 2, 0, .ro, 0⟩]⟩
  -- 11_collectives.md R368
  | .FAB_CP_EPOCH => ⟨0xD8020, 32, 0x80, 1, 0x0,
      [⟨"FAB_CP_EPOCH", 31, 0, .ro, 0⟩]⟩
  -- 11_collectives.md R368
  | .FAB_CP_STEP => ⟨0xD8028, 32, 0x80, 1, 0x0,
      [⟨"STEP_R", 63, 32, .rw, 0⟩, ⟨"STEP_D", 31, 0, .rw, 0⟩]⟩
  -- 11_collectives.md R368
  | .FAB_CP_ERR => ⟨0xD8030, 32, 0x80, 1, 0x0,
      [⟨"FAILED", 4, 4, .w1c, 0⟩, ⟨"A2A_STALL", 3, 3, .w1c, 0⟩, ⟨"BAD_CHECK", 2, 2, .w1c, 0⟩, ⟨"PHASE_ORDER", 1, 1, .w1c, 0⟩, ⟨"PROGRAM_BAD", 0, 0, .w1c, 0⟩]⟩
  -- 11_collectives.md R368
  | .FAB_CP_CNT => ⟨0xD8038, 32, 0x80, 1, 0x0,
      [⟨"STALE", 63, 48, .rc, 0⟩, ⟨"A2A_STALL", 47, 32, .rc, 0⟩, ⟨"ABORTS", 31, 16, .rc, 0⟩, ⟨"COMMITS", 15, 0, .rc, 0⟩]⟩
  -- 11_collectives.md R368
  | .FAB_CP_ABORT => ⟨0xD8040, 32, 0x80, 1, 0x0,
      [⟨"GO", 0, 0, .wo, 0⟩]⟩
  -- 11_collectives.md R368
  | .FAB_CP_RES => ⟨0xD8048, 32, 0x80, 1, 0x0,
      [⟨"SRC", 63, 52, .ro, 0⟩, ⟨"EPOCH", 39, 8, .ro, 0⟩, ⟨"CAUSE", 2, 0, .ro, 0⟩]⟩
  -- 11_collectives.md R368
  | .FAB_CP_DB => ⟨0xD8050, 32, 0x80, 1, 0x0,
      [⟨"DB_EN", 63, 63, .rw, 0⟩, ⟨"MBX", 56, 48, .rw, 0⟩, ⟨"BIT", 4, 0, .rw, 0⟩]⟩
  -- 11_collectives.md R368
  | .FAB_CP_CTRS => ⟨0xD8058, 32, 0x80, 1, 0x0,
      [⟨"SEL", 61, 56, .rw, 0⟩, ⟨"VALUE", 31, 0, .ro, 0⟩]⟩
  -- 12_rack_fabric.md R399
  | .FAB_CTL => ⟨0xD0000, 1, 0x0, 1, 0x0,
      [⟨"EN", 63, 63, .rw, 0⟩]⟩
  -- 12_rack_fabric.md R399
  | .FAB_NODE => ⟨0xD0008, 1, 0x0, 1, 0x0,
      [⟨"FAB_NODE", 11, 6, .rw, 0⟩, ⟨"FAB_NODE", 5, 0, .rw, 0⟩]⟩
  -- 12_rack_fabric.md R399
  | .FAB_RACK_PRESENT => ⟨0xD0010, 1, 0x0, 1, 0x0,
      [⟨"PRESENT", 63, 0, .rw, 0⟩]⟩
  -- 12_rack_fabric.md R399
  | .FAB_INC => ⟨0xD0018, 1, 0x0, 1, 0x0,
      [⟨"FAB_INC", 7, 0, .ro, 0⟩]⟩
  -- 12_rack_fabric.md R399
  | .FAB_EVT => ⟨0xD0020, 1, 0x0, 1, 0x0,
      [⟨"SMP_OVF", 7, 7, .w1c, 0⟩, ⟨"RC_FULL", 6, 6, .w1c, 0⟩, ⟨"INDET", 5, 5, .w1c, 0⟩, ⟨"UNREACHABLE", 4, 4, .w1c, 0⟩, ⟨"PATH_DEAD", 3, 3, .w1c, 0⟩, ⟨"PEER_CHANGE", 2, 2, .w1c, 0⟩, ⟨"PORT_DOWN", 1, 1, .w1c, 0⟩, ⟨"WR_LOST", 0, 0, .w1c, 0⟩]⟩
  -- 12_rack_fabric.md R399
  | .FAB_XPORT_CFG => ⟨0xD0028, 1, 0x0, 1, 0x0,
      [⟨"RTO_US", 15, 0, .rw, 0x14⟩]⟩
  -- 12_rack_fabric.md R399
  | .FAB_PATH_BASE => ⟨0xD0030, 1, 0x0, 1, 0x0,
      [⟨"FAB_PATH_BASE", 51, 5, .rw, 0⟩]⟩
  -- 12_rack_fabric.md R399
  | .FAB_PATH_UPD => ⟨0xD0038, 1, 0x0, 1, 0x0,
      [⟨"ALL", 63, 63, .wo, 0⟩, ⟨"FAB_PATH_UPD", 11, 0, .wo, 0⟩]⟩
  -- 12_rack_fabric.md R399
  | .FAB_PATH_Q => ⟨0xD0040, 1, 0x0, 1, 0x0,
      [⟨"FAB_PATH_Q", 11, 0, .rw, 0⟩]⟩
  -- 12_rack_fabric.md R399
  | .FAB_PATH_QRES => ⟨0xD0048, 1, 0x0, 1, 0x0,
      [⟨"VALID", 7, 4, .ro, 0⟩, ⟨"LIVE", 3, 0, .ro, 0⟩]⟩
  -- 12_rack_fabric.md R399
  | .FAB_RC_STAT => ⟨0xD0050, 1, 0x0, 1, 0x0,
      [⟨"FAB_RC_STAT", 44, 32, .ro, 0⟩, ⟨"FAB_RC_STAT", 12, 0, .ro, 0⟩]⟩
  -- 12_rack_fabric.md R399
  | .FAB_CNT => ⟨0xD0058, 1, 0x0, 1, 0x0,
      [⟨"RETX", 63, 48, .rc, 0⟩, ⟨"DUP_DROP", 47, 32, .rc, 0⟩, ⟨"LIFE_DROP", 31, 16, .rc, 0⟩, ⟨"HDR_DROP", 15, 0, .rc, 0⟩]⟩
  -- 12_rack_fabric.md R399
  | .FAB_CNT2 => ⟨0xD0060, 1, 0x0, 1, 0x0,
      [⟨"UNCORR_DISCARD", 63, 48, .rc, 0⟩, ⟨"PERM_REFUSED", 47, 32, .rc, 0⟩, ⟨"BUSY_SENT", 31, 16, .rc, 0⟩, ⟨"RESET_NAK", 15, 0, .rc, 0⟩]⟩
  -- 12_rack_fabric.md R399
  | .FAB_SMP_BASE => ⟨0xD0068, 1, 0x0, 1, 0x0,
      [⟨"FAB_SMP_BASE", 51, 4, .rw, 0⟩]⟩
  -- 12_rack_fabric.md R399
  | .FAB_SMP_CFG => ⟨0xD0070, 1, 0x0, 1, 0x0,
      [⟨"EN", 63, 63, .rw, 0⟩, ⟨"OVF", 47, 32, .rc, 0⟩, ⟨"QMASK", 31, 16, .rw, 0⟩, ⟨"SIZE_LOG2", 4, 0, .rw, 0xa⟩]⟩
  -- 12_rack_fabric.md R399
  | .FAB_SMP_PORTS => ⟨0xD0078, 1, 0x0, 1, 0x0,
      [⟨"PORTS", 35, 0, .rw, 0⟩]⟩
  -- 12_rack_fabric.md R399
  | .FAB_SMP_HEAD => ⟨0xD0080, 1, 0x0, 1, 0x0,
      [⟨"FAB_SMP_HEAD", 31, 0, .rw, 0⟩]⟩
  -- 12_rack_fabric.md R399
  | .FAB_SMP_TAIL => ⟨0xD0088, 1, 0x0, 1, 0x0,
      [⟨"FAB_SMP_TAIL", 31, 0, .ro, 0⟩]⟩
  -- 12_rack_fabric.md R399
  | .FAB_RGN_BASE => ⟨0xD1000, 128, 0x20, 1, 0x0,
      [⟨"FAB_RGN_BASE", 24, 0, .rw, 0⟩]⟩
  -- 12_rack_fabric.md R399
  | .FAB_RGN_LIM => ⟨0xD1008, 128, 0x20, 1, 0x0,
      [⟨"FAB_RGN_LIM", 24, 0, .rw, 0⟩]⟩
  -- 12_rack_fabric.md R399
  | .FAB_RGN_KEY => ⟨0xD1010, 128, 0x20, 1, 0x0,
      [⟨"FAB_RGN_KEY", 31, 0, .rw, 0⟩]⟩
  -- 12_rack_fabric.md R399
  | .FAB_RGN_CTL => ⟨0xD1018, 128, 0x20, 1, 0x0,
      [⟨"VALID", 63, 63, .rw, 0⟩, ⟨"OWNER", 19, 16, .rw, 0⟩, ⟨"SCOPE", 4, 4, .rw, 0⟩, ⟨"A", 2, 2, .rw, 0⟩, ⟨"W", 1, 1, .rw, 0⟩, ⟨"R", 0, 0, .rw, 0⟩]⟩
  -- 12_rack_fabric.md R399
  | .FAB_P_KEY => ⟨0xD2000, 16, 0x40, 1, 0x0,
      [⟨"KEY_VALID", 63, 63, .rw, 0⟩, ⟨"FAB_P_KEY", 31, 0, .rw, 0⟩]⟩
  -- 12_rack_fabric.md R399
  | .FAB_P_CLASS => ⟨0xD2008, 16, 0x40, 1, 0x0,
      [⟨"A2A", 15, 12, .rw, 4⟩, ⟨"COLL", 11, 8, .rw, 4⟩, ⟨"ATOMIC", 7, 4, .rw, 4⟩, ⟨"FAB_P_CLASS", 3, 0, .rw, 4⟩]⟩
  -- 12_rack_fabric.md R399
  | .FAB_P_ERR => ⟨0xD2010, 16, 0x40, 1, 0x0,
      [⟨"UNREACHABLE", 3, 3, .w1c, 0⟩, ⟨"INDET", 2, 2, .w1c, 0⟩, ⟨"WR_LOST", 1, 1, .w1c, 0⟩, ⟨"WR_REFUSED", 0, 0, .w1c, 0⟩]⟩
  -- 12_rack_fabric.md R399
  | .FAB_PORT_CTL => ⟨0xD4000, 36, 0x100, 1, 0x0,
      [⟨"EN", 63, 63, .rw, 0⟩, ⟨"ERR_MAX", 15, 0, .rw, 0x40⟩]⟩
  -- 12_rack_fabric.md R399
  | .FAB_PORT_STAT => ⟨0xD4008, 36, 0x100, 1, 0x0,
      [⟨"TRAINING", 1, 1, .ro, 0⟩, ⟨"UP", 0, 0, .ro, 0⟩]⟩
  -- 12_rack_fabric.md R399
  | .FAB_PORT_PEER => ⟨0xD4010, 36, 0x100, 1, 0x0,
      [⟨"FAB_PORT_PEER", 23, 12, .ro, 0⟩, ⟨"FAB_PORT_PEER", 5, 0, .ro, 0⟩]⟩
  -- 12_rack_fabric.md R399
  | .FAB_PORT_OVH => ⟨0xD4018, 36, 0x100, 1, 0x0,
      [⟨"FAB_PORT_OVH", 15, 0, .rw, 0x14⟩]⟩
  -- 12_rack_fabric.md R399
  | .FAB_PORT_WGT0 => ⟨0xD4020, 36, 0x100, 1, 0x0,
      [⟨"W11", 63, 56, .rw, 1⟩, ⟨"W10", 55, 48, .rw, 1⟩, ⟨"W9", 47, 40, .rw, 1⟩, ⟨"W8", 39, 32, .rw, 1⟩, ⟨"W7", 31, 24, .rw, 1⟩, ⟨"W6", 23, 16, .rw, 1⟩, ⟨"W5", 15, 8, .rw, 1⟩, ⟨"W4", 7, 0, .rw, 1⟩]⟩
  -- 12_rack_fabric.md R399
  | .FAB_PORT_WGT1 => ⟨0xD4028, 36, 0x100, 1, 0x0,
      [⟨"W15", 31, 24, .rw, 1⟩, ⟨"W14", 23, 16, .rw, 1⟩, ⟨"W13", 15, 8, .rw, 1⟩, ⟨"W12", 7, 0, .rw, 1⟩]⟩
  -- 12_rack_fabric.md R399
  | .FAB_PORT_ERR => ⟨0xD4030, 36, 0x100, 1, 0x0,
      [⟨"ERR_DOWN", 2, 2, .w1c, 0⟩, ⟨"PEER_CHANGE", 1, 1, .w1c, 0⟩, ⟨"DOWN", 0, 0, .w1c, 0⟩]⟩
  -- 12_rack_fabric.md R399
  | .FAB_PORT_CNT => ⟨0xD4038, 36, 0x100, 1, 0x0,
      [⟨"FAB_PORT_CNT", 63, 32, .rc, 0⟩, ⟨"FAB_PORT_CNT", 31, 16, .rc, 0⟩, ⟨"FAB_PORT_CNT", 15, 0, .rc, 0⟩]⟩
  -- 13_partitions_and_scheduling.md R431
  | .PART_CTL => ⟨0x90000, 1, 0x0, 1, 0x0,
      [⟨"RADIO", 63, 63, .rw, 0⟩, ⟨"BLOCK_US", 47, 32, .rw, 0x64⟩, ⟨"RESUME_US", 31, 16, .rw, 0x32⟩]⟩
  -- 13_partitions_and_scheduling.md R431
  | .PART_STAT => ⟨0x90008, 1, 0x0, 1, 0x0,
      [⟨"PART_STAT", 40, 32, .ro, 0⟩, ⟨"PART_STAT", 6, 0, .ro, 0⟩]⟩
  -- 13_partitions_and_scheduling.md R431
  | .PART_ERR => ⟨0x90010, 1, 0x0, 1, 0x0,
      [⟨"CX_FULL", 5, 5, .w1c, 0⟩, ⟨"RING_BAD", 4, 4, .w1c, 0⟩, ⟨"EVT_LOST", 3, 3, .w1c, 0⟩, ⟨"SPOOF", 2, 2, .w1c, 0⟩, ⟨"OVERLAP", 0, 0, .w1c, 0⟩]⟩
  -- 13_partitions_and_scheduling.md R431
  | .PART_LEND_LO => ⟨0x90018, 1, 0x0, 1, 0x0,
      [⟨"PART_LEND_LO", 63, 0, .rw, 0⟩]⟩
  -- 13_partitions_and_scheduling.md R431
  | .PART_LEND_HI => ⟨0x90020, 1, 0x0, 1, 0x0,
      [⟨"PART_LEND_HI", 63, 0, .rw, 0⟩]⟩
  -- 13_partitions_and_scheduling.md R431
  | .PART_LEND_OFS => ⟨0x90028, 1, 0x0, 1, 0x0,
      [⟨"PART_LEND_OFS", 21, 16, .rw, 0x30⟩]⟩
  -- 13_partitions_and_scheduling.md R431
  | .PART_P_CTL => ⟨0x90100, 16, 0x40, 1, 0x0,
      [⟨"VALID", 63, 63, .rw, 0⟩, ⟨"BORROW", 62, 62, .rw, 0⟩, ⟨"STATE", 1, 0, .ro, 0⟩]⟩
  -- 13_partitions_and_scheduling.md R431
  | .PART_P_TILE_LO => ⟨0x90108, 16, 0x40, 1, 0x0,
      [⟨"PART_P_TILE_LO", 63, 0, .rw, 0⟩]⟩
  -- 13_partitions_and_scheduling.md R431
  | .PART_P_TILE_HI => ⟨0x90110, 16, 0x40, 1, 0x0,
      [⟨"PART_P_TILE_HI", 63, 0, .rw, 0⟩]⟩
  -- 13_partitions_and_scheduling.md R431
  | .PART_P_KTAB => ⟨0x90118, 16, 0x40, 1, 0x0,
      [⟨"KCNT−1", 63, 52, .rw, 0⟩, ⟨"PART_P_KTAB", 51, 6, .rw, 0⟩]⟩
  -- 13_partitions_and_scheduling.md R431
  | .PART_P_DLOG => ⟨0x90120, 16, 0x40, 1, 0x0,
      [⟨"EN", 63, 63, .rw, 0⟩, ⟨"PART_P_DLOG", 51, 6, .rw, 0⟩]⟩
  -- 13_partitions_and_scheduling.md R431
  | .PART_P_STOP => ⟨0x90128, 16, 0x40, 1, 0x0,
      [⟨"RESUME", 1, 1, .wo, 0⟩, ⟨"STOP", 0, 0, .wo, 0⟩]⟩
  -- 13_partitions_and_scheduling.md R431
  | .PART_P_CNT => ⟨0x90130, 16, 0x40, 1, 0x0,
      [⟨"LATE_START", 63, 48, .rc, 0⟩, ⟨"SWAP_OUT", 47, 32, .rc, 0⟩, ⟨"CQ_DROP", 31, 16, .rc, 0⟩, ⟨"BAD_ENTRY", 15, 0, .rc, 0⟩]⟩
  -- 13_partitions_and_scheduling.md R431
  | .SLU_P_PILE => ⟨0x90600, 16, 0x40, 1, 0x0,
      [⟨"BORROW", 63, 63, .rw, 1⟩, ⟨"SHARE", 15, 0, .rw, 0⟩]⟩
  -- 13_partitions_and_scheduling.md R431
  | .SLU_P_T2 => ⟨0x90608, 16, 0x40, 1, 0x0,
      [⟨"BORROW", 63, 63, .rw, 1⟩, ⟨"SHARE", 15, 0, .rw, 0⟩]⟩
  -- 13_partitions_and_scheduling.md R431
  | .SLU_P_FAB => ⟨0x90610, 16, 0x40, 1, 0x0,
      [⟨"BORROW", 63, 63, .rw, 1⟩, ⟨"SHARE", 15, 0, .rw, 0⟩]⟩
  -- 13_partitions_and_scheduling.md R431
  | .SLU_P_HL => ⟨0x90618, 16, 0x40, 1, 0x0,
      [⟨"BORROW", 63, 63, .rw, 1⟩, ⟨"SHARE", 15, 0, .rw, 0⟩]⟩
  -- 13_partitions_and_scheduling.md R431
  | .SLU_P_HELD => ⟨0x90620, 16, 0x40, 1, 0x0,
      [⟨"SLU_P_HELD", 63, 48, .rc, 0⟩, ⟨"SLU_P_HELD", 47, 32, .rc, 0⟩, ⟨"SLU_P_HELD", 31, 16, .rc, 0⟩, ⟨"SLU_P_HELD", 15, 0, .rc, 0⟩]⟩
  -- 13_partitions_and_scheduling.md R431
  | .PART_HS_OWN => ⟨0x90A00, 8, 0x20, 4, 0x8,
      [⟨"VALID7", 63, 63, .rw, 0⟩, ⟨"OWNER7", 59, 56, .rw, 0⟩, ⟨"VALID6", 55, 55, .rw, 0⟩, ⟨"OWNER6", 51, 48, .rw, 0⟩, ⟨"VALID5", 47, 47, .rw, 0⟩, ⟨"OWNER5", 43, 40, .rw, 0⟩, ⟨"VALID4", 39, 39, .rw, 0⟩, ⟨"OWNER4", 35, 32, .rw, 0⟩, ⟨"VALID3", 31, 31, .rw, 0⟩, ⟨"OWNER3", 27, 24, .rw, 0⟩, ⟨"VALID2", 23, 23, .rw, 0⟩, ⟨"OWNER2", 19, 16, .rw, 0⟩, ⟨"VALID1", 15, 15, .rw, 0⟩, ⟨"OWNER1", 11, 8, .rw, 0⟩, ⟨"VALID0", 7, 7, .rw, 0⟩, ⟨"OWNER0", 3, 0, .rw, 0⟩]⟩
  -- 13_partitions_and_scheduling.md R431
  | .PART_DMA_CTL => ⟨0x90C00, 32, 0x40, 1, 0x0,
      [⟨"EN", 63, 63, .rw, 0⟩, ⟨"FN", 52, 48, .rw, 0⟩, ⟨"OWNER", 19, 16, .rw, 0⟩, ⟨"NDESC−1", 15, 0, .rw, 0⟩]⟩
  -- 13_partitions_and_scheduling.md R431
  | .PART_DMA_BASE => ⟨0x90C08, 32, 0x40, 1, 0x0,
      [⟨"PART_DMA_BASE", 51, 5, .rw, 0⟩]⟩
  -- 13_partitions_and_scheduling.md R431
  | .PART_DMA_STAT => ⟨0x90C10, 32, 0x40, 1, 0x0,
      [⟨"LAST", 63, 48, .ro, 0⟩, ⟨"STATUS", 47, 40, .ro, 0⟩, ⟨"QUEUED", 20, 16, .ro, 0⟩, ⟨"BUSY", 0, 0, .ro, 0⟩]⟩
  -- 13_partitions_and_scheduling.md R431
  | .PART_DMA_GO => ⟨0x90C18, 32, 0x40, 1, 0x0,
      [⟨"PART_DMA_GO", 15, 0, .wo, 0⟩]⟩
  -- 13_partitions_and_scheduling.md R431
  | .PART_DMA_DB => ⟨0x90C20, 32, 0x40, 1, 0x0,
      [⟨"DB_EN", 63, 63, .rw, 0⟩, ⟨"MBX", 56, 48, .rw, 0⟩, ⟨"BIT", 4, 0, .rw, 0⟩]⟩
  -- 13_partitions_and_scheduling.md R431
  | .PART_FN_CTL => ⟨0x91400, 32, 0x20, 1, 0x0,
      [⟨"EN", 63, 63, .rw, 0⟩, ⟨"DRAIN_US", 47, 32, .rw, 0⟩, ⟨"PART", 19, 16, .rw, 0⟩, ⟨"PART_VALID", 12, 12, .rw, 0⟩]⟩
  -- 13_partitions_and_scheduling.md R431
  | .PART_FN_SRC => ⟨0x91408, 32, 0x20, 1, 0x0,
      [⟨"PART_FN_SRC", 15, 0, .rw, 0⟩]⟩
  -- 13_partitions_and_scheduling.md R431
  | .PART_FN_STAT => ⟨0x91410, 32, 0x20, 1, 0x0,
      [⟨"STATE", 1, 0, .ro, 0⟩]⟩
  -- 13_partitions_and_scheduling.md R431
  | .PART_FN_CNT => ⟨0x91418, 32, 0x20, 1, 0x0,
      [⟨"SPOOF", 63, 48, .rc, 0⟩, ⟨"BLOCKED_WR", 47, 32, .rc, 0⟩, ⟨"ABORTED", 31, 16, .rc, 0⟩]⟩
  -- 13_partitions_and_scheduling.md R431
  | .CX_CTL => ⟨0x98000, 256, 0x80, 1, 0x0,
      [⟨"VALID", 63, 63, .rw, 0⟩, ⟨"PIN", 62, 62, .rw, 0⟩, ⟨"RELOC", 61, 61, .rw, 0⟩, ⟨"FN", 52, 48, .rw, 0⟩, ⟨"PART", 19, 16, .rw, 0⟩, ⟨"PRIO", 11, 8, .rw, 0⟩, ⟨"SIZE_LOG2", 3, 0, .rw, 4⟩]⟩
  -- 13_partitions_and_scheduling.md R431
  | .CX_TILE_LO => ⟨0x98008, 256, 0x80, 1, 0x0,
      [⟨"CX_TILE_LO", 63, 0, .rw, 0⟩]⟩
  -- 13_partitions_and_scheduling.md R431
  | .CX_TILE_HI => ⟨0x98010, 256, 0x80, 1, 0x0,
      [⟨"CX_TILE_HI", 63, 0, .rw, 0⟩]⟩
  -- 13_partitions_and_scheduling.md R431
  | .CX_TS => ⟨0x98018, 256, 0x80, 1, 0x0,
      [⟨"TS_OFS", 53, 48, .rw, 0⟩, ⟨"TS_LEN", 21, 16, .rw, 0⟩]⟩
  -- 13_partitions_and_scheduling.md R431
  | .CX_RING => ⟨0x98020, 256, 0x80, 1, 0x0,
      [⟨"CX_RING", 51, 6, .rw, 0⟩]⟩
  -- 13_partitions_and_scheduling.md R431
  | .CX_SWAP => ⟨0x98028, 256, 0x80, 1, 0x0,
      [⟨"CX_SWAP", 51, 16, .rw, 0⟩]⟩
  -- 13_partitions_and_scheduling.md R431
  | .CX_LQ_TAIL => ⟨0x98030, 256, 0x80, 1, 0x0,
      [⟨"TAIL", 15, 0, .rw, 0⟩]⟩
  -- 13_partitions_and_scheduling.md R431
  | .CX_LQ_HEAD => ⟨0x98038, 256, 0x80, 1, 0x0,
      [⟨"CX_LQ_HEAD", 15, 0, .ro, 0⟩]⟩
  -- 13_partitions_and_scheduling.md R431
  | .CX_CQ_TAIL => ⟨0x98040, 256, 0x80, 1, 0x0,
      [⟨"CX_CQ_TAIL", 15, 0, .ro, 0⟩]⟩
  -- 13_partitions_and_scheduling.md R431
  | .CX_CQ_HEAD => ⟨0x98048, 256, 0x80, 1, 0x0,
      [⟨"CX_CQ_HEAD", 15, 0, .rw, 0⟩]⟩
  -- 13_partitions_and_scheduling.md R431
  | .CX_STAT => ⟨0x98050, 256, 0x80, 1, 0x0,
      [⟨"STEP", 63, 32, .ro, 0⟩, ⟨"BLK_US", 31, 8, .ro, 0⟩, ⟨"CQ_FULL", 4, 4, .ro, 0⟩, ⟨"STATE", 2, 0, .ro, 0⟩]⟩
  -- 13_partitions_and_scheduling.md R431
  | .CX_EVT => ⟨0x98058, 256, 0x80, 1, 0x0,
      [⟨"CX_EVT", 31, 0, .ro, 0⟩]⟩
  -- 13_partitions_and_scheduling.md R431
  | .CX_DB => ⟨0x98060, 256, 0x80, 1, 0x0,
      [⟨"DB_EN", 63, 63, .rw, 0⟩, ⟨"MBX", 56, 48, .rw, 0⟩, ⟨"BIT", 4, 0, .rw, 0⟩]⟩
  -- 14_host_link_and_mailboxes.md R450
  | .HL_CTL => ⟨0x80000, 1, 0x0, 1, 0x0,
      [⟨"EN", 63, 63, .rw, 0⟩, ⟨"GEN_MAX", 1, 0, .rw, 3⟩]⟩
  -- 14_host_link_and_mailboxes.md R450
  | .HL_RETRAIN => ⟨0x80008, 1, 0x0, 1, 0x0,
      [⟨"GO", 0, 0, .wo, 0⟩]⟩
  -- 14_host_link_and_mailboxes.md R450
  | .HL_STAT => ⟨0x80010, 1, 0x0, 1, 0x0,
      [⟨"UP", 63, 63, .ro, 0⟩, ⟨"GEN", 9, 8, .ro, 0⟩, ⟨"WIDTH", 3, 0, .ro, 0⟩]⟩
  -- 14_host_link_and_mailboxes.md R450
  | .HL_ERR => ⟨0x80018, 1, 0x0, 1, 0x0,
      [⟨"REQ_FAIL", 3, 3, .w1c, 0⟩, ⟨"REMOTE_ERR", 2, 2, .w1c, 0⟩, ⟨"CTO", 1, 1, .w1c, 0⟩, ⟨"LINK_DOWN", 0, 0, .w1c, 0⟩]⟩
  -- 14_host_link_and_mailboxes.md R450
  | .HL_CFG => ⟨0x80020, 1, 0x0, 1, 0x0,
      [⟨"CTO_US", 15, 0, .rw, 0x32⟩]⟩
  -- 14_host_link_and_mailboxes.md R450
  | .HL_CNT => ⟨0x80028, 1, 0x0, 1, 0x0,
      [⟨"DENIED", 63, 48, .rc, 0⟩, ⟨"BAD_MBX", 47, 32, .rc, 0⟩, ⟨"NOTE_LOST", 31, 16, .rc, 0⟩, ⟨"HL_CNT", 15, 0, .rc, 0⟩]⟩
  -- 14_host_link_and_mailboxes.md R451
  | .MBX_CFG => ⟨0x60000, 256, 0x100, 1, 0x0,
      [⟨"EN", 63, 63, .rw, 0⟩, ⟨"RKIND", 61, 60, .rw, 0⟩, ⟨"RFN", 56, 52, .rw, 0⟩, ⟨"RPART", 51, 48, .rw, 0⟩, ⟨"DMASK", 44, 40, .rw, 0⟩, ⟨"VEC", 10, 0, .rw, 0⟩]⟩
  -- 14_host_link_and_mailboxes.md R451
  | .MBX_ACL => ⟨0x60008, 256, 0x100, 1, 0x0,
      [⟨"MBX_ACL", 47, 16, .rw, 0⟩, ⟨"MBX_ACL", 15, 0, .rw, 0⟩]⟩
  -- 14_host_link_and_mailboxes.md R451
  | .MBX_STAT => ⟨0x60010, 256, 0x100, 1, 0x0,
      [⟨"FULL", 63, 63, .ro, 0⟩, ⟨"COLLISION", 62, 62, .ro, 0⟩, ⟨"RREADY", 61, 61, .ro, 0⟩, ⟨"SEQ", 31, 0, .ro, 0⟩]⟩
  -- 14_host_link_and_mailboxes.md R451
  | .MBX_SEND => ⟨0x60018, 256, 0x100, 1, 0x0,
      [⟨"NOTE_EN", 63, 63, .wo, 0⟩, ⟨"NOTE_MBX", 56, 48, .wo, 0⟩, ⟨"NOTE_BIT", 44, 40, .wo, 0⟩, ⟨"RING", 39, 39, .wo, 0⟩, ⟨"BIT", 36, 32, .wo, 0⟩, ⟨"CODE", 31, 16, .wo, 0⟩, ⟨"LEN", 2, 0, .wo, 0⟩]⟩
  -- 14_host_link_and_mailboxes.md R451
  | .MBX_ACK => ⟨0x60020, 256, 0x100, 1, 0x0,
      [⟨"READY", 1, 1, .wo, 0⟩, ⟨"ACK", 0, 0, .wo, 0⟩]⟩
  -- 14_host_link_and_mailboxes.md R451
  | .MBX_DB_SET => ⟨0x60028, 256, 0x100, 1, 0x0,
      [⟨"MBX_DB_SET", 31, 0, .w1s, 0⟩]⟩
  -- 14_host_link_and_mailboxes.md R451
  | .MBX_DB => ⟨0x60030, 256, 0x100, 1, 0x0,
      [⟨"MBX_DB", 31, 0, .w1c, 0⟩]⟩
  -- 14_host_link_and_mailboxes.md R451
  | .MBX_DB_MASK => ⟨0x60038, 256, 0x100, 1, 0x0,
      [⟨"MBX_DB_MASK", 31, 0, .rw, 0⟩]⟩
  -- 14_host_link_and_mailboxes.md R451
  | .MBX_CNT => ⟨0x60040, 256, 0x100, 1, 0x0,
      [⟨"MBX_CNT", 63, 32, .rc, 0⟩, ⟨"MBX_CNT", 31, 16, .rc, 0⟩, ⟨"ABORTED", 15, 0, .rc, 0⟩]⟩
  -- 14_host_link_and_mailboxes.md R451
  | .MBX_MSG => ⟨0x60080, 256, 0x100, 8, 0x8,
      [⟨"MBX_MSG", 63, 0, .ro, 0⟩]⟩
  -- 14_host_link_and_mailboxes.md R451
  | .MBX_STG => ⟨0x70000, 7, 0x8, 1, 0x0,
      [⟨"MBX_STG", 63, 0, .rw, 0⟩]⟩
  -- 14_host_link_and_mailboxes.md R451
  | .MBX_STG_STAT => ⟨0x70038, 1, 0x0, 1, 0x0,
      [⟨"MBX_STG_STAT", 39, 32, .ro, 0⟩, ⟨"STATUS", 1, 0, .ro, 0⟩]⟩
  -- 15_power_reset_configuration.md R473
  | .DEV_ID => ⟨0x0, 1, 0x0, 1, 0x0,
      [⟨"ID", 63, 0, .ro, 0x475600070001⟩]⟩
  -- 15_power_reset_configuration.md R473
  | .DEV_HWTYPE => ⟨0x8, 1, 0x0, 1, 0x0,
      [⟨"HWTYPE", 15, 0, .ro, 0⟩]⟩
  -- 15_power_reset_configuration.md R473
  | .DEV_SERIAL => ⟨0x10, 1, 0x0, 1, 0x0,
      [⟨"SERIAL", 63, 0, .ro, 0⟩]⟩
  -- 15_power_reset_configuration.md R473
  | .DEV_TILEMAP_LO => ⟨0x18, 1, 0x0, 1, 0x0,
      [⟨"DEV_TILEMAP_LO", 63, 0, .ro, 0⟩]⟩
  -- 15_power_reset_configuration.md R473
  | .DEV_TILEMAP_HI => ⟨0x20, 1, 0x0, 1, 0x0,
      [⟨"DEV_TILEMAP_HI", 63, 0, .ro, 0⟩]⟩
  -- 15_power_reset_configuration.md R473
  | .DEV_STAT => ⟨0x28, 1, 0x0, 1, 0x0,
      [⟨"READY", 63, 63, .ro, 0⟩, ⟨"STEP", 2, 0, .ro, 0⟩]⟩
  -- 15_power_reset_configuration.md R473
  | .DEV_RST => ⟨0x30, 1, 0x0, 1, 0x0,
      [⟨"STEWARD", 1, 1, .wo, 0⟩, ⟨"DEVICE", 0, 0, .wo, 0⟩]⟩
  -- 15_power_reset_configuration.md R473
  | .DEV_RST_CAUSE => ⟨0x38, 1, 0x0, 1, 0x0,
      [⟨"DEV_RST_CAUSE", 2, 0, .ro, 0⟩]⟩
  -- 15_power_reset_configuration.md R473
  | .DEV_CFG_CUR => ⟨0x40, 1, 0x0, 1, 0x0,
      [⟨"EPOCH", 63, 32, .ro, 0⟩, ⟨"PREV", 31, 0, .ro, 0⟩]⟩
  -- 15_power_reset_configuration.md R473
  | .DEV_CFG_STAGE => ⟨0x48, 1, 0x0, 1, 0x0,
      [⟨"DEV_CFG_STAGE", 51, 5, .rw, 0⟩]⟩
  -- 15_power_reset_configuration.md R473
  | .DEV_CFG_CTL => ⟨0x50, 1, 0x0, 1, 0x0,
      [⟨"OP", 63, 62, .wo, 0⟩, ⟨"VERSION", 31, 0, .wo, 0⟩]⟩
  -- 15_power_reset_configuration.md R473
  | .DEV_CFG_STAT => ⟨0x58, 1, 0x0, 1, 0x0,
      [⟨"DEV_CFG_STAT", 63, 32, .ro, 0⟩, ⟨"STATE", 2, 0, .ro, 0⟩]⟩
  -- 15_power_reset_configuration.md R473
  | .DEV_CFG_EVT => ⟨0x60, 1, 0x0, 1, 0x0,
      [⟨"RB_REFUSED", 3, 3, .w1c, 0⟩, ⟨"ACT_REFUSED", 2, 2, .w1c, 0⟩, ⟨"ACTIVATED", 1, 1, .w1c, 0⟩, ⟨"LOAD_BAD", 0, 0, .w1c, 0⟩]⟩
  -- 15_power_reset_configuration.md R473
  | .DEV_CFG_DB => ⟨0x68, 1, 0x0, 1, 0x0,
      [⟨"DB_EN", 63, 63, .rw, 0⟩, ⟨"MBX", 56, 48, .rw, 0⟩, ⟨"BIT", 4, 0, .rw, 0⟩]⟩
  -- 15_power_reset_configuration.md R474
  | .PWR_DOM_REQ => ⟨0x40000, 1, 0x0, 1, 0x0,
      [⟨"REQ", 48, 0, .rw, 0⟩]⟩
  -- 15_power_reset_configuration.md R474
  | .PWR_DOM_STAT => ⟨0x40008, 1, 0x0, 1, 0x0,
      [⟨"STAT", 49, 0, .ro, 0⟩]⟩
  -- 15_power_reset_configuration.md R474
  | .PWR_DOM_HOLD => ⟨0x40010, 1, 0x0, 1, 0x0,
      [⟨"HOLD", 49, 0, .ro, 0⟩]⟩
  -- 15_power_reset_configuration.md R474
  | .PWR_DOM_RST => ⟨0x40018, 1, 0x0, 1, 0x0,
      [⟨"RST", 47, 0, .wo, 0⟩]⟩
  -- 15_power_reset_configuration.md R474
  | .PWR_IDLE => ⟨0x40020, 1, 0x0, 1, 0x0,
      [⟨"PWR_IDLE", 31, 0, .rw, 0x3e8⟩]⟩
  -- 15_power_reset_configuration.md R474
  | .PWR_LIMIT => ⟨0x40028, 1, 0x0, 1, 0x0,
      [⟨"W", 10, 0, .rw, 0x514⟩]⟩
  -- 15_power_reset_configuration.md R474
  | .PWR_GOV => ⟨0x40030, 1, 0x0, 1, 0x0,
      [⟨"EN", 63, 63, .rw, 1⟩, ⟨"AVG_US", 6, 0, .rw, 0xa⟩]⟩
  -- 15_power_reset_configuration.md R474
  | .PWR_GOV_STAT => ⟨0x40038, 1, 0x0, 1, 0x0,
      [⟨"EST_W", 63, 48, .ro, 0⟩, ⟨"AVG_W", 47, 32, .ro, 0⟩, ⟨"LIM_W", 31, 16, .ro, 0⟩, ⟨"TRIM", 6, 0, .ro, 0⟩]⟩
  -- 15_power_reset_configuration.md R474
  | .PWR_THERM => ⟨0x40040, 1, 0x0, 1, 0x0,
      [⟨"TJ_MAX", 55, 48, .ro, 0⟩, ⟨"T_CRIT", 15, 8, .rw, 0x6e⟩, ⟨"T_TRIM", 7, 0, .rw, 0x64⟩]⟩
  -- 15_power_reset_configuration.md R474
  | .PWR_EVT => ⟨0x40048, 1, 0x0, 1, 0x0,
      [⟨"RAIL_FAULT", 4, 4, .w1c, 0⟩, ⟨"PMB_ERR", 3, 3, .w1c, 0⟩, ⟨"THERM_CRIT", 2, 2, .w1c, 0⟩, ⟨"THERM_TRIM", 1, 1, .w1c, 0⟩, ⟨"LIMIT_UNMET", 0, 0, .w1c, 0⟩]⟩
  -- 15_power_reset_configuration.md R474
  | .PWR_PMB_CFG => ⟨0x40050, 1, 0x0, 1, 0x0,
      [⟨"EN", 63, 63, .rw, 1⟩, ⟨"POLL_MS", 15, 0, .rw, 0xa⟩]⟩
  -- 15_power_reset_configuration.md R474
  | .PWR_RAIL => ⟨0x40058, 8, 0x8, 1, 0x0,
      [⟨"STATUS", 63, 48, .ro, 0⟩, ⟨"VOUT", 47, 32, .ro, 0⟩, ⟨"IOUT", 31, 16, .ro, 0⟩, ⟨"POUT", 15, 0, .ro, 0⟩]⟩
  -- 15_power_reset_configuration.md R474
  | .PWR_CNT => ⟨0x40098, 1, 0x0, 1, 0x0,
      [⟨"PWR_CNT", 63, 32, .rc, 0⟩, ⟨"PMB", 31, 16, .rc, 0⟩, ⟨"PWR_CNT", 15, 0, .rc, 0⟩]⟩
  -- 16_firmware_and_security.md R489
  | .SEC_BOOT_STAT => ⟨0x110000, 1, 0x0, 1, 0x0,
      [⟨"BOOT_SVN", 63, 32, .ro, 0⟩, ⟨"ARB_STALE", 12, 12, .ro, 0⟩, ⟨"CAUSE", 11, 8, .ro, 0⟩, ⟨"RECOVERY", 4, 4, .ro, 0⟩, ⟨"FALLBACK", 3, 3, .ro, 0⟩, ⟨"TRIAL", 2, 2, .ro, 0⟩, ⟨"ACTIVE", 1, 1, .ro, 0⟩, ⟨"BOOTED", 0, 0, .ro, 0⟩]⟩
  -- 16_firmware_and_security.md R489
  | .SEC_FW_CTL => ⟨0x110008, 1, 0x0, 1, 0x0,
      [⟨"OP", 2, 0, .wo, 0⟩]⟩
  -- 16_firmware_and_security.md R489
  | .SEC_FW_STAT => ⟨0x110010, 1, 0x0, 1, 0x0,
      [⟨"SVN", 63, 32, .ro, 0⟩, ⟨"CAUSE", 11, 8, .ro, 0⟩, ⟨"REFUSED", 3, 3, .ro, 0⟩, ⟨"STATE", 2, 0, .ro, 0⟩]⟩
  -- 16_firmware_and_security.md R489
  | .SEC_ARB => ⟨0x110018, 1, 0x0, 1, 0x0,
      [⟨"FW_SVN", 63, 32, .ro, 0⟩, ⟨"REC_MIN", 31, 0, .ro, 0⟩]⟩
  -- 16_firmware_and_security.md R489
  | .SEC_ARB2 => ⟨0x110020, 1, 0x0, 1, 0x0,
      [⟨"KEY_REV", 0, 0, .ro, 0⟩]⟩
  -- 16_firmware_and_security.md R489
  | .SEC_WDOG => ⟨0x110028, 1, 0x0, 1, 0x0,
      [⟨"SEC_WDOG", 31, 0, .rw, 0x1388⟩]⟩
  -- 16_firmware_and_security.md R489
  | .SEC_REC_STAT => ⟨0x110030, 1, 0x0, 1, 0x0,
      [⟨"CAUSE", 11, 8, .ro, 0⟩, ⟨"SEC_REC_STAT", 2, 0, .ro, 0⟩]⟩
  -- 16_firmware_and_security.md R489
  | .SEC_MEAS_GO => ⟨0x110038, 1, 0x0, 1, 0x0,
      [⟨"SEC_MEAS_GO", 1, 0, .wo, 0⟩]⟩
  -- 16_firmware_and_security.md R489
  | .SEC_MEAS_IN => ⟨0x110040, 6, 0x8, 1, 0x0,
      [⟨"SEC_MEAS_IN", 63, 0, .wo, 0⟩]⟩
  -- 16_firmware_and_security.md R489
  | .SEC_MEAS => ⟨0x110100, 4, 0x40, 6, 0x8,
      [⟨"M", 63, 0, .ro, 0⟩]⟩
  -- 17_errors_and_health.md R503
  | .ERR_STAT => ⟨0x50000, 1, 0x0, 1, 0x0,
      [⟨"ERR_STAT", 7, 0, .ro, 0⟩]⟩
  -- 17_errors_and_health.md R503
  | .ERR_SUM => ⟨0x50008, 1, 0x0, 1, 0x0,
      [⟨"SUM", 7, 0, .w1c, 0⟩]⟩
  -- 17_errors_and_health.md R503
  | .ERR_LOST => ⟨0x50010, 1, 0x0, 1, 0x0,
      [⟨"ERR_LOST", 59, 48, .rc, 0⟩, ⟨"ERR_LOST", 31, 0, .rc, 0⟩]⟩
  -- 17_errors_and_health.md R503
  | .ERR_CTL => ⟨0x50018, 1, 0x0, 1, 0x0,
      [⟨"DB_CLASS", 7, 0, .rw, 0xff⟩]⟩
  -- 17_errors_and_health.md R503
  | .ERR_DB => ⟨0x50020, 1, 0x0, 1, 0x0,
      [⟨"DB_EN", 63, 63, .rw, 0⟩, ⟨"MBX", 56, 48, .rw, 0⟩, ⟨"BIT", 4, 0, .rw, 0⟩]⟩
  -- 17_errors_and_health.md R503
  | .ERR_REC => ⟨0x51000, 128, 0x20, 4, 0x8,
      [⟨"WORD", 63, 0, .ro, 0⟩]⟩
  -- 17_errors_and_health.md R503
  | .ERR_RV_CTL => ⟨0x52000, 1, 0x0, 1, 0x0,
      [⟨"PUB", 63, 63, .rw, 0⟩, ⟨"PART", 19, 16, .rw, 0⟩]⟩
  -- 17_errors_and_health.md R503
  | .ERR_RV_CFG => ⟨0x52008, 1, 0x0, 1, 0x0,
      [⟨"SCORE_MS", 63, 48, .rw, 0x64⟩, ⟨"RECOVER", 47, 40, .rw, 0x10⟩, ⟨"THR_OK", 39, 30, .rw, 0x300⟩, ⟨"THR_BAD", 29, 20, .rw, 0x100⟩, ⟨"HYST", 19, 10, .rw, 0x40⟩]⟩
  -- 17_errors_and_health.md R503
  | .ERR_RV_STAT => ⟨0x52010, 1, 0x0, 1, 0x0,
      [⟨"BAND", 41, 40, .ro, 0⟩, ⟨"S", 25, 16, .ro, 0x3ff⟩]⟩
  -- 17_errors_and_health.md R503
  | .ERR_RV_WGT0 => ⟨0x52018, 1, 0x0, 1, 0x0,
      [⟨"W7", 63, 56, .rw, 8⟩, ⟨"W6", 55, 48, .rw, 2⟩, ⟨"W5", 47, 40, .rw, 0x20⟩, ⟨"W4", 39, 32, .rw, 0x40⟩, ⟨"W3", 31, 24, .rw, 0x40⟩, ⟨"W2", 23, 16, .rw, 0x40⟩, ⟨"W1", 15, 8, .rw, 0x10⟩, ⟨"W0", 7, 0, .rw, 1⟩]⟩
  -- 17_errors_and_health.md R503
  | .ERR_RV_WGT1 => ⟨0x52020, 1, 0x0, 1, 0x0,
      [⟨"W11", 31, 24, .rw, 0xff⟩, ⟨"W10", 23, 16, .rw, 0x20⟩, ⟨"W9", 15, 8, .rw, 0x10⟩, ⟨"W8", 7, 0, .rw, 4⟩]⟩
  -- 17_errors_and_health.md R503
  | .ERR_RV_DEST => ⟨0x52028, 1, 0x0, 1, 0x0,
      [⟨"ERR_RV_DEST", 51, 12, .rw, 0⟩]⟩
  -- 17_errors_and_health.md R503
  | .ERR_SH_CTL => ⟨0x52030, 1, 0x0, 1, 0x0,
      [⟨"EN", 63, 63, .rw, 0⟩, ⟨"PART", 19, 16, .rw, 0⟩, ⟨"CX", 7, 0, .rw, 0⟩]⟩
  -- 17_errors_and_health.md R503
  | .ERR_SH_ACC => ⟨0x52038, 1, 0x0, 1, 0x0,
      [⟨"ERR_SH_ACC", 63, 0, .ro, 0⟩]⟩
  -- 17_errors_and_health.md R503
  | .ERR_RM_CTL => ⟨0x52100, 1, 0x0, 1, 0x0,
      [⟨"EN", 63, 63, .rw, 0⟩]⟩
  -- 17_errors_and_health.md R503
  | .ERR_RM_MASK => ⟨0x52108, 1, 0x0, 1, 0x0,
      [⟨"MASK", 63, 0, .rw, 0⟩]⟩
  -- 17_errors_and_health.md R503
  | .ERR_RM_CFG => ⟨0x52110, 1, 0x0, 1, 0x0,
      [⟨"BUDGET", 63, 56, .rw, 2⟩, ⟨"BWIN_S", 55, 40, .rw, 0x258⟩, ⟨"CONFIRM_N", 39, 36, .rw, 3⟩, ⟨"RECOVER_N", 35, 32, .rw, 0xa⟩, ⟨"MISS_N", 31, 28, .rw, 5⟩, ⟨"DEG_PCT", 27, 20, .rw, 0x19⟩, ⟨"PROMOTE_N", 19, 8, .rw, 0x3e8⟩, ⟨"STEP_TO_MS", 7, 0, .rw, 0x32⟩]⟩
  -- 17_errors_and_health.md R503
  | .ERR_RM_BASE => ⟨0x52118, 1, 0x0, 1, 0x0,
      [⟨"ERR_RM_BASE", 51, 12, .rw, 0⟩]⟩
  -- 17_errors_and_health.md R503
  | .ERR_RM_DEV => ⟨0x52200, 64, 0x8, 1, 0x0,
      [⟨"STATE", 63, 62, .rw, 0⟩, ⟨"SHADOW_OF", 61, 56, .rw, 0⟩, ⟨"WORK_PCT", 55, 48, .ro, 0x64⟩, ⟨"CLEAN", 47, 32, .ro, 0⟩]⟩

/-- The registers of block DEV (offsets 0x0 up; R12). -/
def regsDev : List RegName :=
  [.DEV_ID, .DEV_HWTYPE, .DEV_SERIAL, .DEV_TILEMAP_LO, .DEV_TILEMAP_HI, .DEV_STAT, .DEV_RST, .DEV_RST_CAUSE, .DEV_CFG_CUR, .DEV_CFG_STAGE, .DEV_CFG_CTL, .DEV_CFG_STAT] ++
  [.DEV_CFG_EVT, .DEV_CFG_DB]

/-- The registers of block TB (offsets 0x10000 up; R12). -/
def regsTb : List RegName :=
  [.TB_CTL, .TB_STATE, .TB_SNAP, .TB_SNAP_SEC, .TB_SNAP_NS, .TB_SNAP_CNT, .TB_SNAP_CNTF, .TB_NOW_NS, .TB_RATE, .TB_SLEW_MAX, .TB_ADJ, .TB_STEP_SEC] ++
  [.TB_STEP_NS, .TB_STEP_GO, .TB_LOCK_CFG, .TB_EVT, .TB_FSRC, .TB_PPSO_CTL, .TB_PPSI_SEC, .TB_PPSI_NS, .TB_PPSI_DLY, .TB_PORT_INLAT, .TB_PORT_EGLAT, .TB_PORT_ASYM] ++
  [.TB_PORT_PTP, .TB_PORT_TS_STAT, .TB_PORT_TS_HI, .TB_PORT_TS_LO]

/-- The registers of block BELL (offsets 0x20000 up; R12). -/
def regsBell : List RegName :=
  [.BELL_TIME, .BELL_ACT, .BELL_PERIOD, .BELL_CTL, .BELL_MASK, .BELL_DMASK_LO, .BELL_DMASK_HI, .BELL_STAT, .BELL_ARMED, .BELL_FIRED]

/-- The registers of block PWR (offsets 0x40000 up; R12). -/
def regsPwr : List RegName :=
  [.PWR_DOM_REQ, .PWR_DOM_STAT, .PWR_DOM_HOLD, .PWR_DOM_RST, .PWR_IDLE, .PWR_LIMIT, .PWR_GOV, .PWR_GOV_STAT, .PWR_THERM, .PWR_EVT, .PWR_PMB_CFG, .PWR_RAIL] ++
  [.PWR_CNT]

/-- The registers of block ERR (offsets 0x50000 up; R12). -/
def regsErr : List RegName :=
  [.ERR_STAT, .ERR_SUM, .ERR_LOST, .ERR_CTL, .ERR_DB, .ERR_REC, .ERR_RV_CTL, .ERR_RV_CFG, .ERR_RV_STAT, .ERR_RV_WGT0, .ERR_RV_WGT1, .ERR_RV_DEST] ++
  [.ERR_SH_CTL, .ERR_SH_ACC, .ERR_RM_CTL, .ERR_RM_MASK, .ERR_RM_CFG, .ERR_RM_BASE, .ERR_RM_DEV]

/-- The registers of block MBX (offsets 0x60000 up; R12). -/
def regsMbx : List RegName :=
  [.MBX_CFG, .MBX_ACL, .MBX_STAT, .MBX_SEND, .MBX_ACK, .MBX_DB_SET, .MBX_DB, .MBX_DB_MASK, .MBX_CNT, .MBX_MSG, .MBX_STG, .MBX_STG_STAT]

/-- The registers of block HL (offsets 0x80000 up; R12). -/
def regsHl : List RegName :=
  [.HL_CTL, .HL_RETRAIN, .HL_STAT, .HL_ERR, .HL_CFG, .HL_CNT]

/-- The registers of block PART (offsets 0x90000 up; R12). -/
def regsPart : List RegName :=
  [.PART_CTL, .PART_STAT, .PART_ERR, .PART_LEND_LO, .PART_LEND_HI, .PART_LEND_OFS, .PART_P_CTL, .PART_P_TILE_LO, .PART_P_TILE_HI, .PART_P_KTAB, .PART_P_DLOG, .PART_P_STOP] ++
  [.PART_P_CNT, .SLU_P_PILE, .SLU_P_T2, .SLU_P_FAB, .SLU_P_HL, .SLU_P_HELD, .PART_HS_OWN, .PART_DMA_CTL, .PART_DMA_BASE, .PART_DMA_STAT, .PART_DMA_GO, .PART_DMA_DB] ++
  [.PART_FN_CTL, .PART_FN_SRC, .PART_FN_STAT, .PART_FN_CNT, .CX_CTL, .CX_TILE_LO, .CX_TILE_HI, .CX_TS, .CX_RING, .CX_SWAP, .CX_LQ_TAIL, .CX_LQ_HEAD] ++
  [.CX_CQ_TAIL, .CX_CQ_HEAD, .CX_STAT, .CX_EVT, .CX_DB]

/-- The registers of block GRN (offsets 0xA0000 up; R12). -/
def regsGrn : List RegName :=
  [.GRN_CTL, .GRN_STAT, .GRN_CMD, .GRN_EVT, .GRN_BW, .GRN_RECLAIM, .GRN_SCRUB, .GRN_SCRUB_POS, .GRN_CNT_ECC, .GRN_CNT_MOVE, .GRN_P_QUOTA, .GRN_P_FLOOR] ++
  [.GRN_P_USE, .GRN_P_STAT, .GRN_P_PF_BASE, .GRN_P_PF_CFG, .GRN_P_PF_CUR, .GRN_P_DB, .GRN_P_CNT, .GRN_P_CNT2, .GRN_P_QADDR, .GRN_P_QRES]

/-- The registers of block SE (offsets 0xB0000 up; R12). -/
def regsSe : List RegName :=
  [.SE_CTL, .SE_STAT, .SE_ERR, .SE_CNT, .SE_CNT_ERR, .SE_SQ_BASE, .SE_SQ_CFG, .SE_SQ_TAIL, .SE_SQ_HEAD, .SE_CQ_BASE, .SE_CQ_TAIL, .SE_CQ_HEAD] ++
  [.SE_CQ_DB]

/-- The registers of block DRV (offsets 0xC0000 up; R12). -/
def regsDrv : List RegName :=
  [.DRV_CTL, .DRV_STAT, .DRV_ERR, .DRV_POST, .DRV_RET_POST, .DRV_SH_POST, .DRV_CANCEL, .DRV_XCFG, .DRV_STAGE, .DRV_RXAREA, .DRV_RSTAGE, .DRV_RETAREA] ++
  [.DRV_ALARM_CFG, .DRV_ALARM, .DRV_CNT_SEL, .DRV_CNT_RX, .GLN_CNT, .GLN_CNT2, .DRV_CQ_BASE, .DRV_CQ_CFG, .DRV_CQ_TAIL, .DRV_CQ_HEAD, .DRV_CQ_DB]

/-- The registers of block FAB (offsets 0xD0000 up; R12). -/
def regsFab : List RegName :=
  [.FAB_CP_CTL, .FAB_CP_BASE, .FAB_CP_GO, .FAB_CP_STAT, .FAB_CP_EPOCH, .FAB_CP_STEP, .FAB_CP_ERR, .FAB_CP_CNT, .FAB_CP_ABORT, .FAB_CP_RES, .FAB_CP_DB, .FAB_CP_CTRS] ++
  [.FAB_CTL, .FAB_NODE, .FAB_RACK_PRESENT, .FAB_INC, .FAB_EVT, .FAB_XPORT_CFG, .FAB_PATH_BASE, .FAB_PATH_UPD, .FAB_PATH_Q, .FAB_PATH_QRES, .FAB_RC_STAT, .FAB_CNT] ++
  [.FAB_CNT2, .FAB_SMP_BASE, .FAB_SMP_CFG, .FAB_SMP_PORTS, .FAB_SMP_HEAD, .FAB_SMP_TAIL, .FAB_RGN_BASE, .FAB_RGN_LIM, .FAB_RGN_KEY, .FAB_RGN_CTL, .FAB_P_KEY, .FAB_P_CLASS] ++
  [.FAB_P_ERR, .FAB_PORT_CTL, .FAB_PORT_STAT, .FAB_PORT_PEER, .FAB_PORT_OVH, .FAB_PORT_WGT0, .FAB_PORT_WGT1, .FAB_PORT_ERR, .FAB_PORT_CNT]

/-- The registers of block FH (offsets 0xE0000 up; R12). -/
def regsFh : List RegName :=
  [.FH_PORT_CTL, .FH_PORT_STAT, .FH_PORT_MAC, .FH_PORT_WGT, .FH_PORT_OVH, .FH_WIN_BASE, .FH_WIN_CNT, .FH_TX_POST, .FH_WIN_SEL, .FH_WIN_INFO, .FH_PORT_ERR, .FH_CNT_POST] ++
  [.FH_CNT_RX, .FH_CNT_TX, .FH_PORT_RU, .FH_SFN_OFFSET, .FH_LEDGER_BASE, .FH_LEDGER_CFG, .FH_AGC_CFG, .FH_AGC_CMD, .FH_EVT, .FH_TD_BASE, .FH_LEDGER_SUM, .FH_CELL_CFG]

/-- The registers of block COD (offsets 0x100000 up; R12). -/
def regsCod : List RegName :=
  [.COD_CTL, .COD_STAT, .COD_ERR, .COD_CNT, .COD_CNT_ERR, .COD_CNT_HWAIT, .COD_SQ_BASE, .COD_SQ_CFG, .COD_SQ_TAIL, .COD_SQ_HEAD, .COD_CQ_BASE, .COD_CQ_TAIL] ++
  [.COD_CQ_HEAD, .COD_CQ_DB]

/-- The registers of block SEC (offsets 0x110000 up; R12). -/
def regsSec : List RegName :=
  [.SEC_BOOT_STAT, .SEC_FW_CTL, .SEC_FW_STAT, .SEC_ARB, .SEC_ARB2, .SEC_WDOG, .SEC_REC_STAT, .SEC_MEAS_GO, .SEC_MEAS_IN, .SEC_MEAS]

/-- The registers of block TILE (offsets 0x200000 up; R12). -/
def regsTile : List RegName :=
  [.TILE_STAT, .TILE_PC, .TILE_ECAUSE, .TILE_EPC, .TILE_EADDR, .TILE_MVEC, .TILE_TEVT_SET, .TILE_EPOCH, .TILE_RESET, .TILE_CNT_CORR, .TILE_ARR_DIGEST, .TILE_GANG_BASE] ++
  [.TILE_ARR_CTL, .TILE_ARR_STAT, .TILE_ARR_ERR, .TILE_ARR_CNT]

/-- The registers of the block that an offset lies in (R12). -/
def blockRegs (off : Nat) : List RegName :=
  if off < 0x10000 then regsDev else
  if off < 0x20000 then regsTb else
  if off < 0x40000 then regsBell else
  if off < 0x50000 then regsPwr else
  if off < 0x60000 then regsErr else
  if off < 0x80000 then regsMbx else
  if off < 0x90000 then regsHl else
  if off < 0xA0000 then regsPart else
  if off < 0xB0000 then regsGrn else
  if off < 0xC0000 then regsSe else
  if off < 0xD0000 then regsDrv else
  if off < 0xE0000 then regsFab else
  if off < 0x100000 then regsFh else
  if off < 0x110000 then regsCod else
  if off < 0x200000 then regsSec else
  if off < 0xA00000 then regsTile else []

end Sys2Proof.Machine
end

