-- ==== Sys2Proof/Machine/Tab.lean ====
section
/-! DEFINITION. Sparse tables: a list of (key, value) pairs in one canonical form (keys strictly rising, no entry equal
to the value that an unlisted key reads as). Memory, the registers and every numbered unit of the device are held so. -/

namespace Sys2Proof.Machine

/-- A sparse table over numeric keys. -/
abbrev Tab (α : Type) := List (Nat × α)

/-- The value at key `k`; `d k` where nothing is listed. -/
def Tab.get {α : Type} (d : Nat → α) : Tab α → Nat → α
  | [], k => d k
  | (k', v) :: m, k => if k' = k then v else Tab.get d m k

/-- Remove key `k`. -/
def Tab.erase {α : Type} : Tab α → Nat → Tab α
  | [], _ => []
  | (k', v) :: m, k => if k' = k then Tab.erase m k else (k', v) :: Tab.erase m k

/-- Insert a pair before the first larger key. -/
def Tab.insert {α : Type} : Tab α → Nat → α → Tab α
  | [], k, v => [(k, v)]
  | (k', v') :: m, k, v => if k < k' then (k, v) :: (k', v') :: m else (k', v') :: Tab.insert m k v

/-- Write `v` at key `k`. A value equal to the default removes the entry, so equal tables are equal data. -/
def Tab.set {α : Type} [DecidableEq α] (d : Nat → α) (m : Tab α) (k : Nat) (v : α) : Tab α :=
  if v = d k then Tab.erase m k else Tab.insert (Tab.erase m k) k v

/-- The canonical form, from a lower bound of the keys on. -/
def Tab.wfFrom {α : Type} [DecidableEq α] (d : Nat → α) (lo : Nat) : Tab α → Bool
  | [] => true
  | (k, v) :: m => decide (lo ≤ k) && !decide (v = d k) && Tab.wfFrom d (k + 1) m

/-- The canonical form of a table. -/
def Tab.wf {α : Type} [DecidableEq α] (d : Nat → α) (m : Tab α) : Bool := Tab.wfFrom d 0 m

end Sys2Proof.Machine
end

