-- ==== Sys2Proof/Machine/RegMap.lean ====
section
/-! DEFINITION. Where a register lies in the control range, which register an offset names, and what a plain read,
write and reset of a register do (00_scope.md R12 to R17). -/

namespace Sys2Proof.Machine

open Sys2Proof

/-- The offset of instance (`i`, `j`) of a register (R12 and the chapters' tables). -/
def addrOf (r : RegName) (i j : Nat) : Nat := r.desc.base + i * r.desc.stride1 + j * r.desc.stride2

/-- The instance of a register at an offset, if the offset is one of its instances. -/
def RegDesc.index (d : RegDesc) (off : Nat) : Option (Nat × Nat) :=
  if off < d.base then none else
  let o := off - d.base
  let i := if d.stride1 = 0 then 0 else o / d.stride1
  let o2 := o - i * d.stride1
  let j := if d.stride2 = 0 then 0 else o2 / d.stride2
  if o2 = j * d.stride2 ∧ i < d.count1 ∧ j < d.count2 then some (i, j) else none

/-- The first register of a list with an instance at an offset. -/
def locateIn (off : Nat) : List RegName → Option (RegName × Nat × Nat)
  | [] => none
  | r :: rs => match r.desc.index off with
    | some (i, j) => some (r, i, j)
    | none => locateIn off rs

/-- The register at an offset of the control range, if any (R12, R14). -/
def locate (off : Nat) : Option (RegName × Nat × Nat) := locateIn off (blockRegs off)

/-- The value made of the reset values of the fields. -/
def Field.resetWord (f : Field) : Word := place f.hi f.lo f.reset

/-- The bits of the fields that have one of the given access types. -/
def accessMask (p : Access → Bool) : List Field → Word
  | [] => 0
  | f :: fs => (if p f.access then fmask f.hi f.lo else 0) ||| accessMask p fs

/-- A register's value at reset: the reset values of its fields, 0 elsewhere (R15). -/
def RegDesc.reset (d : RegDesc) : Word := d.fields.foldl (fun a f => a ||| f.resetWord) 0

/-- The value that a read returns from the stored word: readable fields, with reserved and write-only bits 0
(R15, R16). -/
def RegDesc.readView (d : RegDesc) (v : Word) : Word := v &&& accessMask (fun a => a != .wo) d.fields

/-- The stored word after a write: RW fields take the written value, W1C bits written as 1 clear, W1S bits written as 1
set, and RO, RC and reserved fields keep theirs (R15, R16). -/
def RegDesc.written (d : RegDesc) (old v : Word) : Word :=
  let rw := accessMask (· == .rw) d.fields
  let w1c := accessMask (· == .w1c) d.fields
  let w1s := accessMask (· == .w1s) d.fields
  (((old &&& ~~~ rw) ||| (v &&& rw)) &&& ~~~ (v &&& w1c)) ||| (v &&& w1s)

/-- The stored word after a read: RC fields clear (R16). -/
def RegDesc.afterRead (d : RegDesc) (v : Word) : Word := v &&& ~~~ accessMask (· == .rc) d.fields

/-- What the register map reads at an offset that nothing has changed since reset. -/
def resetAt (off : Nat) : Word :=
  match locate off with
  | some (r, _, _) => r.desc.reset
  | none => 0

/-- A TB_* register's (or any single register's) descriptor lies where `locate` finds it: used by the tests. -/
def locatesItself (r : RegName) : Bool := locate (addrOf r 0 0) == some (r, 0, 0)

end Sys2Proof.Machine
end

