-- ==== Sys2Proof/Machine/State.lean ====
section
/-! DEFINITION. The state of the device: plain data, every piece of state the spec names. The control registers are the
map `regs` (Machine/RegMap.lean gives their names, offsets and reset values); what follows is the state behind them. -/

namespace Sys2Proof.Machine

open Sys2Proof

/-- A step of this model never stops with a fault: the spec gives every command an effect. -/
inductive Fault where
  deriving DecidableEq, Repr

/-- Why a command has no meaning. -/
inductive Refusal where
  /-- Raised by Machine/Dispatch.lean for a command whose meaning is not written yet; safe. -/
  | notModelled (mnemonic : String)
  deriving DecidableEq, Repr

/-! ### The unit that makes a request, and what leaves the device -/

/-- Who makes a request: the unit kind code of R491, the unit's index, and the partition it acts for (none for the
device itself and for steward firmware). -/
structure Who where
  kind : Nat
  unit : Nat
  part : Option Nat
  deriving DecidableEq, Repr

/-- What leaves the device, or is returned to whoever sent a command. Model's own (notes/assumptions/6.md). -/
inductive Out where
  /-- The value a register read returns. -/
  | readData (off : Nat) (v : Word)
  /-- The status with which an access by an agent completes: a cause code of R102. -/
  | status (code : Nat)
  /-- An interrupt to steward firmware from mailbox `m` (R447). -/
  | stewardIrq (m : Nat)
  /-- An interrupt message on vector `vec` of function `f` (R447). -/
  | hostIrq (f vec : Nat)
  /-- A 1PPS output edge: rising or falling (R58, R62). -/
  | pps (rising : Bool)
  /-- The answer to a host read (R435, R436): data, or `none` for an error completion. -/
  | hostRead (f : Nat) (data : Option (List Byte))
  /-- A read request to host memory, with the function and its PART_FN_SRC (R439). -/
  | hostReadReq (f src hostAddr len : Nat)
  /-- A write to host memory, with the function and its PART_FN_SRC (R439). -/
  | hostWrite (f src hostAddr : Nat) (data : List Byte)
  /-- An Ethernet frame on a fronthaul port, from its destination address to the byte before its FCS (ch. 6). -/
  | frame (port : Nat) (data : List Byte)
  /-- A fabric packet on a port (ch. 12). -/
  | packet (port : Nat) (p : Packet) (words : List (List Byte))
  /-- Stast's answer to an update request, in the mailbox that the request names: BUSY (R485). -/
  | updateBusy (m : Nat)
  /-- A level on a pin (ch. 18). -/
  | pin (name : String) (level : Bool)
  deriving DecidableEq, Repr

/-! ### Timebase and bells (02_timebase_and_bells.md) -/

/-- The lock states, in the order of their codes (R52). -/
inductive LockState where
  | freerun | acquiring | locked | holdover
  deriving DecidableEq, Repr

/-- The timebase. Times are kept in units of 2^-37 ns, the correction that one unit of rate makes in one reference tick
(R49), so that every rebasing of R43 is exact (notes/assumptions/8.md). -/
structure Timebase where
  /-- Reference ticks since power-up: the counter of R19 is 8 ns times this. -/
  ticks    : Nat
  /-- The offset of R19. -/
  offset   : Int
  /-- TB_RATE as in force (R47). -/
  rate     : Int
  /-- The slew bound as in force (R50). -/
  slewMax  : Nat
  /-- The effective rate in force (R43, R48). -/
  eff      : Int
  /-- What remains of the slew (R49). -/
  rem      : Int
  /-- A TB_RATE write waits for the next tick (R47). -/
  ratePend : Bool
  /-- A TB_SLEW_MAX write waits for the next tick (R50). -/
  slewPend : Bool
  /-- A step waits for the next tick (R51). -/
  stepGo   : Bool
  lock     : LockState
  /-- TB_STATE.LOCK_RUN (R52). -/
  lockRun  : Nat
  /-- The tick of the last TB_ADJ write, and of the entry to HOLDOVER (R52). -/
  lastAdj  : Nat
  holdAt   : Nat
  /-- The frequency source: signal lost and frequency held, and the tick of the last loss (R57). -/
  fsrcHeld : Bool
  fsrcAt   : Nat
  /-- The tick of the last accepted 1PPS input edge (R58). -/
  ppsInAt  : Option Nat
  /-- The tick of the last 1PPS output edge, and the device time in ns at which the pulse ends, while it is high
  (R58, R62). -/
  ppsAt    : Option Nat
  ppsEnd   : Option Nat
  /-- The timestamp FIFOs of the ports: (HI, LO) records, oldest first (R61, R63). -/
  tsFifo   : Tab (List (Word × Word))
  deriving DecidableEq, Repr

/-- A bell action on its way to its targets (R65, R67). -/
structure Delivery where
  action   : Nat
  belfry   : Nat
  bell     : Nat
  target   : Nat
  arg      : Nat
  owner    : Nat
  /-- The target tiles that the owner still holds, as a mask of 128 bits (R69). -/
  mask     : BitVec 128
  fireTime : Nat
  /-- The device time of the fire tick. -/
  firedNs  : Nat
  deriving DecidableEq, Repr

/-! ### The tile (03_tile_isa.md, 04_dsp_datapath.md, 05_matrix_arrays.md) -/

/-- What a core is waiting for inside an instruction whose address is still in pc. -/
inductive Wait where
  | none
  /-- WAITT (R99). -/
  | time (gd : Fin 64) (target : Word)
  /-- WAITE (R100). -/
  | event (gd : Fin 64) (mask : BitVec 32)
  /-- MWAIT (R97). -/
  | tags (gd : Fin 64) (mask : BitVec 8)
  /-- FENCE (R106). -/
  | fence
  /-- FENCEF, with the snapshot of (node, SEQ) pairs (R392). -/
  | fencef (snap : List (Nat × Nat))
  /-- KEND with its software status, waiting for tags, gang operations and its FENCEF (R97, R106, R166). -/
  | kend (status : Nat) (snap : List (Nat × Nat))
  /-- A remote load: destination, bytes, sign extension, and the request's identifier (R388). -/
  | remoteLoad (gd : Fin 64) (bytes : Nat) (sx : Bool) (req : Nat)
  /-- A remote atomic: destination and REQID (R391). -/
  | remoteAtomic (gd : Fin 64) (req : Nat)
  /-- An atomic held at the Granary until the page's switch (R241). -/
  | heldAtomic
  deriving DecidableEq, Repr

/-- The DSP special registers (R122). -/
structure Dsp where
  ctl     : Word
  dconf   : Word
  loopcnt : Word
  loopst  : Word
  tbctl   : Word
  tbst    : Word
  deriving DecidableEq, Repr

def Dsp.reset : Dsp := ⟨0, 0, 0, 0, 0, 0⟩

/-- A mailbox sender's staging set (R442), with what the ABORTED notice needs of its last send (R448). -/
structure Staging where
  words  : Tab Word
  mbx    : Nat
  status : Nat
  sent   : Bool
  deriving DecidableEq, Repr

def Staging.reset : Staging := ⟨[], 0, 0, false⟩

/-- The registers of a control core, all of them part of the context that preemption saves (R78 to R80, R122, R135,
R442). -/
structure CoreRegs where
  g        : Tab Word
  v        : Tab (BitVec 1024)
  p        : Tab (BitVec 128)
  a        : Tab (BitVec 80)
  xa       : Tab (BitVec 32)
  ya       : Tab (BitVec 32)
  ca       : Tab (BitVec 32)
  pc       : Addr
  /-- TSTAT.MODE: true in M mode. -/
  modeM    : Bool
  /-- TSTAT.PM. -/
  pm       : Bool
  epc      : Word
  ecause   : BitVec 8
  eaddr    : Word
  mscratch : Word
  tevt     : BitVec 32
  kentry   : BitVec 16
  ltime    : Word
  part     : BitVec 4
  tagErr   : BitVec 8
  tagBusy  : BitVec 8
  /-- The sub-ns part that the last RDT latched (R98). -/
  rdtSub   : BitVec 16
  wait     : Wait
  dsp      : Dsp
  stg      : Staging
  deriving DecidableEq, Repr

def CoreRegs.reset : CoreRegs :=
  { g := [], v := [], p := [], a := [], xa := [], ya := [], ca := [], pc := 0, modeM := false, pm := false,
    epc := 0, ecause := 0, eaddr := 0, mscratch := 0, tevt := 0, kentry := 0, ltime := 0, part := 0, tagErr := 0,
    tagBusy := 0, rdtSub := 0, wait := .none, dsp := Dsp.reset, stg := Staging.reset }

/-- The format in force of a unit: depth K, columns N, weight bits WB and format code (R140, R142). -/
structure Fmt where
  k  : Nat
  n  : Nat
  wb : Nat
  wf : Nat
  deriving DecidableEq, Repr

def Fmt.reset : Fmt := ⟨128, 128, 8, 0⟩

/-- A weight plane: whether it is loaded, the element codes by row, the block scale codes by block row, and the sums
of the checksum column (R136, R140, R145, R151). -/
structure Plane where
  loaded : Bool
  rows   : List (List Nat)
  scales : List (List Nat)
  deriving DecidableEq, Repr

def Plane.empty : Plane := ⟨false, [], []⟩

/-- A queued or running array operation, with its feeder words (R94, R96, R144). -/
structure MatOp where
  /-- true for MSTR, false for MLDW. -/
  str     : Bool
  /-- MLDW: weights; MSTR: activations. -/
  ga      : Word
  /-- MLDW: scales; MSTR: outputs. -/
  gb      : Word
  /-- MSTR: activation scales. -/
  gs      : Word
  /-- MLDW or MSTR: whether the scale operand is present (R149). -/
  scaled  : Bool
  /-- MLDW: the format it loads. MSTR: the format in force. -/
  fmt     : Fmt
  /-- The plane it writes or uses (a complex format uses both). -/
  plane   : Nat
  m       : Nat
  afmt    : Nat
  out     : Nat
  acc     : Bool
  /-- The completion tag; none for a gang operation (R165). -/
  tag     : Option Nat
  /-- The number of the gang operation that it belongs to (R163). -/
  gang    : Option Nat
  running : Bool
  /-- The next activation row (or the first row of the next block) to stream (R168). -/
  nextRow : Nat
  /-- The checksum state: q per row of the array, and the column-foot sums (R152, R168). -/
  q       : List Int
  foot    : List Int
  /-- What the rows streamed so far add to TILE_ARR_DIGEST (R154). -/
  dig     : Int
  /-- The first operation of a gang operation that found operations queued (R165). -/
  late    : Bool
  deriving DecidableEq, Repr

/-- TILE_ARR_STAT.STATE (R172). -/
inductive UState where
  | idle | rampUp | active | keep | rampDown | saving | restoring
  deriving DecidableEq, Repr

/-- A matrix unit: a BSA or the OPE (R136 to R172). -/
structure MUnit where
  queue     : List MatOp
  plane0    : Plane
  plane1    : Plane
  /-- The MLDWs that loaded the planes, replayed on restore (R168, R170). -/
  image0    : Option MatOp
  image1    : Option MatOp
  fmt       : Fmt
  /-- The plane that the next MLDW writes, and the plane that the next MSTR uses (R140). -/
  nextPlane : Nat
  curPlane  : Nat
  st        : UState
  /-- The device time in ns at which KEEP began (R160). -/
  keepAt    : Nat
  /-- Gang operations waiting behind the queue (R165). -/
  gangPend  : List MatOp
  deriving DecidableEq, Repr

def MUnit.reset : MUnit :=
  ⟨[], .empty, .empty, none, none, .reset, 0, 0, .idle, 0, []⟩

/-- A gang operation that runs on a member: its number, whether a unit failed, its bits and the owner of its bell
(R166). -/
structure GangRun where
  id      : Nat
  failed  : Bool
  doneBit : Nat
  errBit  : Nat
  owner   : Nat
  deriving DecidableEq, Repr

/-- Where a tile stands (TILE_STAT.RUN of R108, and the steps of a launch, R76, R254, R257). -/
inductive RunState where
  | idle
  /-- A launch has reached the tile and its first instruction has not run (R254, R417). -/
  | launching
  /-- A launch held under WAIT (R257). -/
  | held
  | running
  | saving
  | restoring
  | halted
  deriving DecidableEq, Repr

/-- A context image: core, DSP, loop and array state (R28, R135, R168). -/
structure Image where
  core   : CoreRegs
  units  : Tab MUnit
  digest : Word
  gangs  : List GangRun
  cx     : Nat
  launch : Nat
  deriving DecidableEq, Repr

/-- A tile. -/
structure Tile where
  core     : CoreRegs
  run      : RunState
  /-- The context on the tile and the launch it runs. -/
  cx       : Option Nat
  launch   : Option Nat
  units    : Tab MUnit
  /-- TILE_ARR_DIGEST (R154). -/
  digest   : Word
  gangs    : List GangRun
  /-- The number of the tile's next gang operation (model's own). -/
  gangNext : Nat
  /-- The context saved here after a radio preemption (R28, R417). -/
  saved    : Option Image
  /-- The device time in ns of that save (R417). -/
  savedAt  : Nat
  /-- Launches waiting for the tile, in the order of R410, and launches to be delivered again (R417). -/
  waiting  : List Nat
  redeliver : List Nat
  /-- The contexts that have been on the tile since it was last reset, latest first (R408). -/
  hist     : List Nat
  /-- The radio event latch (R100). -/
  latch    : BitVec 32
  /-- An asynchronous STOP asked for: the status and REASON it gives (R412, R416). -/
  stopReq  : Option (Nat × Nat)
  /-- The status and REASON that a taken STOP ends the kernel with. -/
  stopEnd  : Option (Nat × Nat)
  /-- Lines of the data cache: line number and its 64 bytes (R82). -/
  dcache   : List (Nat × BitVec 512)
  /-- Lines that the instruction cache holds, by line number, and the kernel image last run (R76, R82). -/
  icache   : List Nat
  lastImg  : Option Nat
  /-- Parcels of the loop cache that the first iteration has filled (R125). -/
  loopFill : List Nat
  /-- The tile is loading the configuration image of a version (R471). -/
  loading  : Option Nat
  /-- A wake of the tile's quad that its launch waits for (R410, R457). -/
  wakeFor  : Bool
  deriving DecidableEq, Repr

def Tile.reset : Tile :=
  { core := CoreRegs.reset, run := .idle, cx := none, launch := none, units := [], digest := 0, gangs := [],
    gangNext := 0,
    saved := none, savedAt := 0, waiting := [], redeliver := [], hist := [], latch := 0, stopReq := none,
    stopEnd := none, dcache := [], icache := [], lastImg := none, loopFill := [], loading := none,
    wakeFor := false }

/-! ### Memory and the Granary (08_memory_tiers.md) -/

/-- A region whose contents are not guaranteed: its base, length and the number of the event that made it so. -/
structure FreeRegion where
  base : Nat
  len  : Nat
  gen  : Nat
  deriving DecidableEq, Repr

/-- Where the data of a page is (R238). -/
inductive PageState where
  | resident | rising | falling | lower
  deriving DecidableEq, Repr

/-- An entry of the page map (R234): state, pile of the tier-1 frame, owner, RELEASED mark, pin count, and the access
age as the millisecond of the last access (R245). -/
structure Page where
  st       : PageState
  pile     : Nat
  owner    : Option Nat
  released : Bool
  pin      : Nat
  ageMs    : Nat
  deriving DecidableEq, Repr

/-- The map after a power-up reset (R236). -/
def Page.atReset (n : Nat) : Page :=
  if n < 6291456 then ⟨.resident, n % 8, none, false, 0, 0⟩ else ⟨.lower, 0, none, false, 0, 0⟩

/-- What the Granary holds for a moving page until the switch (R241). -/
inductive Held where
  | bytes (addr : Nat) (data : List Byte)
  /-- An update by a pile engine: reads of its words wait (R241, R275). -/
  | update (addr : Nat) (data : List Byte)
  /-- An atomic: operation code of R88, address, operand, compare value, the tile and its destination. -/
  | atomic (op addr : Nat) (operand compare : Word) (tile : Nat) (gd : Fin 64)
  deriving DecidableEq, Repr

/-- A move in flight (R240). -/
structure Move where
  riser   : Nat
  faller  : Nat
  /-- The pile of the faller's frame. -/
  pile    : Nat
  /-- 0 marked, 1 staged, 2 past the frame-write point. -/
  stage   : Nat
  /-- The partition the move is charged to (R242). -/
  charge  : Option Nat
  /-- Who asked for the raise (R245): a partition, or steward firmware (`some none`); none for a demotion. -/
  asker   : Option (Option Nat)
  /-- The riser's pile mask, for a new victim search (R247). -/
  piles   : Nat
  /-- A reclaim demotion (R262). -/
  reclaim : Bool
  held    : List Held
  deriving DecidableEq, Repr

/-- A queued command, or what is left of it (R248): operation, pile mask, next page, pages left. -/
structure GrnCmd where
  op    : Nat
  piles : Nat
  page  : Nat
  count : Nat
  /-- A RAISE that the launcher placed: the held launch and the tile that it is for (R257). -/
  hold  : Option (Nat × Nat)
  deriving DecidableEq, Repr

/-- The prefetch walk of a partition (R251). -/
structure PfWalk where
  x : Nat
  s : Nat
  deriving DecidableEq, Repr

/-- An access of a core that waits: who makes it, its address, and the pc and launch of the core that makes it again
until it is served (model's own). -/
structure Asking where
  who    : Who
  addr   : Nat
  pc     : Addr
  launch : Option Nat
  deriving DecidableEq, Repr

/-- An access waiting for a tier-2 link (R267). -/
structure T2Wait where
  ask     : Asking
  link    : Nat
  since   : Nat
  expired : Bool
  deriving DecidableEq, Repr

/-- The Granary. -/
structure Granary where
  pages  : Tab Page
  moves  : List Move
  /-- Command queues: partition p at p, the steward's at 16 (R248). -/
  queues : Tab (List GrnCmd)
  /-- The position of the round: partitions 0 to 15, the steward 16, reclaim 17 (R249). -/
  turn   : Nat
  /-- The partition whose reclaim was served last (R249, R262). -/
  reclaimAt : Nat
  /-- Reclaim demotions started in the current 10 µs interval, the interval's number, and the partitions whose
  demotion found no counterpart in it (R246, R262). -/
  reclaimed : Nat
  reclaimIv : Nat
  stuck     : List Nat
  walks  : Tab PfWalk
  /-- Raises that a full queue makes a held launch wait to place (R257). -/
  pendRaise : List (Nat × GrnCmd)
  /-- The next word of the scrubber's page (R265). -/
  scrubWord : Nat
  /-- Links that have lost alignment (R267). -/
  t2down : List Nat
  t2wait : List T2Wait
  deriving DecidableEq, Repr

/-! ### Partitions, contexts and scheduling (13_partitions_and_scheduling.md) -/

/-- Where one tile of a launch stands. -/
inductive PartSt where
  /-- Not delivered there yet. -/
  | waiting
  /-- A ring launch has the tile reserved (R410). -/
  | reserved
  /-- The launch has reached the tile: its wake, load or evaluation goes on, or it is held under WAIT. -/
  | placed
  /-- It is evaluated, and starts with the launch's other tiles (R410). -/
  | ready
  /-- Its kernel has started there: it runs, or is saved, restored or swapped out. -/
  | running
  /-- Ended with a status, a REASON and the tile it ended on (R413, R414). -/
  | ended (status reason : Nat)
  deriving DecidableEq, Repr

/-- A launch held on a tile under WAIT: its declaration list, the number of the declaration that waits, the pages whose
raises it waits for, and whether one of those raises has been refused (R257). -/
structure Hold where
  list    : List Word
  decl    : Nat
  pages   : List Nat
  refused : Bool
  deriving DecidableEq, Repr

/-- One tile of a launch. -/
structure LTile where
  tile : Nat
  st   : PartSt
  /-- Pages pinned by the launch evaluation on this tile (R254, R255). -/
  pins : List Nat
  /-- What a launch held under WAIT waits for (R257). -/
  hold : Option Hold
  deriving DecidableEq, Repr

/-- A launch (R403, R409 to R415). -/
structure Launch where
  id      : Nat
  part    : Nat
  cx      : Nat
  kentry  : Nat
  cls     : Nat
  quiet   : Bool
  stepEnd : Bool
  tag     : Nat
  step    : Nat
  /-- Delivered by a bell, not taken from the ring. -/
  bell    : Bool
  pc      : Nat
  arg     : Nat
  image   : Nat
  dlNs    : Nat
  ndecl   : Nat
  decl    : Nat
  /-- The launch time once the launch is delivered (R76). -/
  startNs : Option Nat
  tiles   : List LTile
  /-- The launch of a context that waits, with others of one record, until its collective epochs are decided (R358). -/
  heldEpochs : List (Nat × Nat)
  deriving DecidableEq, Repr

/-- What of a context is not in its CX registers. -/
structure Cx where
  /-- Resident (0), or the code of R407: SWAP_OUT, SWAPPED or SWAP_IN. -/
  swap      : Nat
  /-- Its swap area holds what a swap-out wrote: the images by tile (R419), and the mask of a WAITE it was executing
  (R418). -/
  stored    : Bool
  images    : List (Nat × Image)
  waite     : Nat
  /-- Its state's code as last seen, and the device time in ns since which it has had it (R407). -/
  code      : Nat
  since     : Nat
  /-- Completion records held for want of ring room (R415). -/
  records   : List (List Word)
  /-- Collective epochs that make its results provisional: (program slot, epoch) (R358). -/
  epochs    : List (Nat × Nat)
  deriving DecidableEq, Repr

def Cx.reset : Cx := ⟨5, false, [], 0, 5, 0, [], []⟩

/-- A transfer in progress on a DMA channel (R421, R422): the descriptor's index and words; the bytes of a host source
that have been asked for; the pieces of a remote or host source that have arrived, by offset; the pieces that failed,
with their status; how much of a remote destination has been sent; the status with which its reads and writes have
ended; and the status with which a destination has refused a write. -/
structure DmaRun where
  desc  : Nat
  ws    : List Word
  next  : Nat
  got   : List (Nat × List Byte)
  fails : List (Nat × Nat)
  sent  : Nat
  wrote : Option Nat
  refused : Option Nat
  deriving DecidableEq, Repr

/-- A DMA channel: descriptors that wait to start, and the one that runs. -/
structure Dma where
  queue : List Nat
  run   : Option DmaRun
  deriving DecidableEq, Repr

def Dma.reset : Dma := ⟨[], none⟩

/-- The Sluice stages: piles 0 to 7, tier 2 (8), fabric halves (9, 10), host link (11) (R423 to R425). -/
structure Sluice where
  /-- Bytes served in the window, by stage × 16 + partition. -/
  served : Tab Nat
  /-- Whether a request of the partition was held in the window, by stage × 16 + partition. -/
  heldF  : Tab Bool
  /-- The requests held at the stages, and the partition served last by stage × 4 + class (R424). -/
  wait   : List (Nat × Asking)
  turn   : Tab Nat
  /-- The share registers in force, by kind × 16 + partition (kinds: pile, tier 2, fabric, host link). -/
  shares : Tab Word
  /-- The number of the window. -/
  window : Nat
  deriving DecidableEq, Repr

/-- The scheduler (R403 to R420). -/
structure Sched where
  launches : List Launch
  nextId   : Nat
  cxs      : Tab Cx
  dma      : Tab Dma
  sluice   : Sluice
  /-- The device time in ns at which a draining function's drain ends (R429). -/
  drainEnd : Tab Nat
  deriving DecidableEq, Repr

/-! ### Host link and mailboxes (14_host_link_and_mailboxes.md) -/

/-- The sender of a held message and its note (R443, R448): sender kind and number, the launch that a sending tile ran,
NOTE_EN, NOTE_MBX, NOTE_BIT; and the count of sends stored since EN was set. -/
structure MbxSender where
  kind    : Nat
  id      : Nat
  launch  : Option Nat
  noteEn  : Bool
  noteMbx : Nat
  noteBit : Nat
  seq     : Nat
  deriving DecidableEq, Repr

def MbxSender.reset : MbxSender := ⟨0, 0, none, false, 0, 0, 0⟩

/-- A host-memory read in flight (R439, R440): its number, the function, the DMA channel, the destination and length,
and the device time at which it was sent. -/
structure HostRd where
  id      : Nat
  fn      : Nat
  chan    : Nat
  dst     : Nat
  len     : Nat
  since   : Nat
  deriving DecidableEq, Repr

/-- The host link. -/
structure HostLink where
  /-- Notifications held while the link is down: (function, vector) (R434, R447). -/
  notes    : List (Nat × Nat)
  reads    : List HostRd
  nextRd   : Nat
  /-- The device time of the last training attempt (R432). -/
  tryAt    : Nat
  senders  : Tab MbxSender
  /-- Staging sets of functions 0 to 31 and of the steward (32) (R442). -/
  staging  : Tab Staging
  deriving DecidableEq, Repr

/-! ### Errors and health (17_errors_and_health.md) -/

/-- What the rack manager keeps of a device besides ERR_RM_DEV (R499 to R502). -/
structure RmDev where
  failing  : Nat
  healthy  : Nat
  missing  : Nat
  lastSeq  : Nat
  cand     : Bool
  lastS    : Nat
  /-- Consecutive failed comparisons while SHADOWING; the steps that are compared, or not to be compared; those that one
  side has published, with the device time in ns at which the rack manager first saw them. -/
  misses   : Nat
  compared : List Nat
  seen     : List (Nat × Nat)
  deriving DecidableEq, Repr

def RmDev.reset : RmDev := ⟨0, 0, 0, 0, false, 1023, 0, [], []⟩

/-- The Reeve. -/
structure Reeve where
  /-- Input events of the window, by input of R496, and the remainders of the inputs counted in units of 1,024 or
  1,000. -/
  inputs  : Tab Nat
  /-- Windows since device reset (R498), and how many of them the rack manager has acted at (R499). -/
  seq     : Nat
  rmSeq   : Nat
  /-- The reference tick at which the window began. -/
  windowAt : Nat
  rm      : Tab RmDev
  /-- The times in ns of the changes to EXPELLED (R500). -/
  expelled : List Nat
  deriving DecidableEq, Repr

/-! ### Power and configuration versions (15_power_reset_configuration.md) -/

/-- The power domains' waking state, the governor and the thermal control (R453 to R462). -/
structure Power where
  /-- Domains that have begun to wake and are not ready (R458). -/
  waking   : List Nat
  /-- The device power estimates of the last windows, latest first (R459). -/
  hist     : List Nat
  /-- Consecutive windows with TRIM at 0 and the average above the limit (R460). -/
  zeroRun  : Nat
  /-- LIMIT_UNMET holds (R460), and the windows spent so since the last whole millisecond. -/
  unmet    : Bool
  unmetUs  : Nat
  /-- The thermal reduction, in percent of PWR_LIMIT (R461). -/
  thermal  : Nat
  /-- The governor's gain correction, in percent of the record's value (R462). -/
  gain     : Int
  /-- The reference tick at which a domain's hold conditions were last seen to hold (R455). -/
  heldAt   : Tab Nat
  /-- THERM_N and THERMTRIP_N are asserted (R461, R511). -/
  thermN   : Bool
  trip     : Bool
  deriving DecidableEq, Repr

/-- A bell of a version's bell set (R468). -/
structure SetBell where
  belfry : Nat
  bell   : Nat
  time   : Word
  act    : Word
  period : Nat
  remain : Nat
  owner  : Nat
  deriving DecidableEq, Repr

/-- A bank: versioned registers that differ from their reset values, bell set, and tile images (tile, address)
(R467, R468). -/
structure Bank where
  regs  : Tab Word
  bells : List SetBell
  tiles : List (Nat × Nat)
  deriving DecidableEq, Repr

def Bank.empty : Bank := ⟨[], [], []⟩

/-- The configuration versions: the bell set and tile images of the active version (its registers are the registers
themselves), the inactive bank, the address of the image that a load reads, and the slot boundary at which a pending
rollback takes effect (R467 to R472). -/
structure Versions where
  bells    : List SetBell
  tiles    : List (Nat × Nat)
  inactive : Bank
  image    : Nat
  due      : Nat
  deriving DecidableEq, Repr

def Power.reset : Power := ⟨[], [], 0, false, 0, 0, 0, [], false, false⟩

def Versions.reset : Versions := ⟨[], [], .empty, 0, 0⟩

/-! ### Fronthaul (06_fronthaul_and_slots.md) -/

/-- The state of one (stream, symbol) of an open RX window, from which its status word is written (R197). -/
structure RxSym where
  prbs   : Nat
  sect   : Nat
  clip   : Bool
  frozen : Bool
  peak   : Nat
  gain   : Nat
  /-- The PRBs written: first and number. -/
  got    : List (Nat × Nat)
  deriving DecidableEq, Repr

def RxSym.reset : RxSym := ⟨0, 0, false, false, 0, 0, []⟩

/-- The configuration of a cell: FH_CELL_CFG, and the time-domain descriptor. -/
structure CellConf where
  cfg : Word
  td  : List Word
  deriving DecidableEq, Repr

/-- An open occurrence of a window (R195, R196). -/
structure Win where
  win     : Nat
  occ     : Nat
  fire    : Nat
  /-- The window table entry, as read at the open. -/
  entry   : List Word
  cell    : Nat
  /-- Its cell's configuration at the open (R467). -/
  conf    : CellConf
  nprb    : Nat
  /-- The slot count n of R194, and the slot's start. -/
  slot    : Int
  slotNs  : Nat
  decided : Bool
  /-- TX: entries with an accepted post (R199). -/
  posted  : List Nat
  /-- RX: sections accepted, and the (stream, symbol) states by stream × 64 + symbol (R197). -/
  sections : Nat
  syms    : Tab RxSym
  /-- Time-domain samples of a symbol by stream × 64 + symbol, keyed by their index in the symbol (R193). -/
  td      : Tab (Tab (Int × Int))
  deriving DecidableEq, Repr

/-- What a queued frame carries. -/
inductive FrameKind where
  /-- An accepted TX entry: its four words (R198). -/
  | entry (words : List Word)
  /-- One half of a fallback pair, already read (R202). -/
  | fallback (cplane : Bool) (eaxc ru : Nat) (data : List Byte)
  /-- Message `part` of the time-domain symbol of entry `j`, whose samples have not been formed; `zeros`: of zero samples
  at the filter input (R193, R202). -/
  | symbol (words : List Word) (j part : Nat) (zeros : Bool)
  /-- A message of a time-domain symbol: the index of its first sample, and its samples (R193). -/
  | samples (words : List Word) (off : Nat) (ys : List (Int × Int))
  deriving DecidableEq, Repr

/-- A frame waiting in an egress queue, with its window's occurrence, its size and its tags (R200). -/
structure TxFrame where
  win     : Nat
  occ     : Nat
  cell    : Nat
  conf    : CellConf
  slot    : Int
  slotNs  : Nat
  nprb    : Nat
  kind    : FrameKind
  size    : Nat
  start   : Rat
  fin     : Rat
  deriving DecidableEq, Repr

/-- A fronthaul port. -/
structure FhPort where
  /-- Open windows in the order of their opens (R196, R197). -/
  wins    : List Win
  /-- The occurrence number of each window's latest open (R196). -/
  occs    : Tab Nat
  /-- The cell and slot of each window's latest occurrence. -/
  lastOcc : Tab (Option (Nat × Int × Nat))
  /-- Posts accepted before the open: window, occurrence, entry, the entry's words (R199). -/
  pre     : List (Nat × Nat × Nat × List Word)
  /-- The egress queues 0 to 7, oldest frame first (R200). -/
  queues  : Tab (List TxFrame)
  /-- The finish tags of queues 4 to 7 and the virtual time V (R200). -/
  finish  : Tab Rat
  vtime   : Rat
  /-- eCPRI sequence IDs: next to send, and one more than the last received (0: none yet), by
  message type × 65536 + eAxC ID (R178). -/
  txSeq   : Tab Nat
  rxSeq   : Tab Nat
  /-- Delay Requests that wait for their Follow_Up: Measurement ID, t2 (seconds, ns) and arrival time in ns (R179). -/
  delays  : List (Nat × Nat × Nat)
  deriving DecidableEq, Repr

def FhPort.reset : FhPort := ⟨[], [], [], [], [], [], 0, [], [], []⟩

/-- An AGC stream (R184 to R186): the last symbols, latest first, with the P_sym of each; the two latches; the value most
recently loaded; the freeze with its end in ns (none: until release); and what the freeze was before the commands that
took effect on the tick `at`. -/
structure Agc where
  hist    : List (Nat × Nat)
  l0      : Nat
  l1      : Nat
  last    : Nat
  frozen  : Bool
  holdEnd : Option Nat
  was     : Bool
  at_     : Option Nat
  deriving DecidableEq, Repr

def Agc.reset : Agc := ⟨[], 0, 0, 0, false, none, false, none⟩

/-- A live slot of a cell (R205): its number, start, port, open windows and unfinished uplink decode jobs. -/
structure Live where
  cell  : Nat
  slot  : Int
  ns    : Nat
  port  : Nat
  wins  : Nat
  jobs  : Nat
  deriving DecidableEq, Repr

/-- The fronthaul. -/
structure Fronthaul where
  ports : Tab FhPort
  /-- AGC streams by cell × 64 + stream. -/
  agc   : Tab Agc
  /-- FH_AGC_CMD writes that take effect on the next reference tick, with their times in ns (R186). -/
  cmds  : List (Word × Nat)
  live  : List Live
  /-- The time-domain descriptor of each time-domain cell, as read at activation (R192). -/
  td    : Tab (List Word)
  /-- Transmit filter history by cell × 64 + stream: the last input samples, latest first (R189). -/
  hist  : Tab (List (Int × Int))
  deriving DecidableEq, Repr

def Fronthaul.reset : Fronthaul := ⟨[], [], [], [], [], []⟩

/-! ### Channel coding (07_channel_coding.md) -/

/-- One code block or polar segment of a job (R214): 0 waiting, 1 on an engine, 2 ended; whether its combine has run
(R226); the soft bits it decodes from; what it gave. -/
structure CodBlock where
  st       : Nat
  combined : Bool
  soft     : List Int
  iters    : Nat
  bits     : List Bool
  ok       : Bool
  metric   : Int
  deriving DecidableEq, Repr

def CodBlock.reset : CodBlock := ⟨0, false, [], 0, [], false, 0⟩

/-- A job in a slot (R213). -/
structure CodJob where
  /-- The order in which it was taken. -/
  seq     : Nat
  ring    : Nat
  desc    : List Word
  /-- Its type's command has begun it: BUSY is held and the header is in order, or the payload is read (R226). -/
  begun   : Bool
  /-- It has waited on BUSY (R226). -/
  waited  : Bool
  /-- Its first combine or engine block has begun (R223). -/
  started : Bool
  /-- Its soft buffers start afresh (R226, step 2). -/
  fresh   : Bool
  /-- The error status found so far: 0 or 0x12 (R228). -/
  status  : Nat
  /-- The block mask (R215). -/
  mask    : BitVec 256
  blocks  : Tab CodBlock
  deriving DecidableEq, Repr

/-- A coding cluster: its job slots, the ring visited next, and the number of the next job (R213). -/
structure Cluster where
  jobs     : List CodJob
  nextRing : Nat
  seq      : Nat
  deriving DecidableEq, Repr

def Cluster.reset : Cluster := ⟨[], 0, 0⟩

/-! ### Pile engines (09_pile_engines.md) -/

/-- Who issued a command, and what for: a ring, or a Drover or Gleaner of a hamlet for a step slot (R270, R306, R316,
R318 to R320, R325). -/
inductive SeIssuer where
  | ring (r : Nat)
  | select (h slot shard : Nat)
  | stage (h slot rank : Nat)
  | repscat (h slot src : Nat)
  | pad (h slot : Nat)
  | retStage (h slot rank : Nat)
  /-- A contribution of a token: 0 and 1 shared experts, 2 + i routed entry i. -/
  | combine (h slot tok idx : Nat)
  deriving DecidableEq, Repr

/-- A command in an engine (R272): its part in execution, and for an internal command the operand list that its issuer
holds itself. -/
structure SeCmd where
  seq      : Nat
  issuer   : SeIssuer
  part     : Nat
  desc     : List Word
  /-- Internal GATHER: source rows. -/
  idx      : List Nat
  /-- Internal COMBINE: accumulator address, gate weight, result row address. -/
  ent      : List (Nat × Nat × Nat)
  started  : Bool
  /-- The next row, entry or token row, and the units of it that have run (R273). -/
  row      : Nat
  sub      : Nat
  result   : Nat
  aux      : Nat
  /-- It has ended, with a status and the row at which it stopped. -/
  ended    : Bool
  status   : Nat
  firstBad : Nat
  deriving DecidableEq, Repr

/-- A pile engine: commands in its slots, internal commands that wait for one, the round of the sources, the command
served last, and the number of the next command. -/
structure Engine where
  cmds  : List SeCmd
  wait  : List SeCmd
  next  : Nat
  last  : Nat
  seq   : Nat
  deriving DecidableEq, Repr

def Engine.reset : Engine := ⟨[], [], 0, 0, 0⟩

/-! ### Expert routing (10_expert_routing.md) -/

/-- A (token, expert) pair: expert, the rank and local number that the expert map gives it (rank 4,096 where it is not
placed), state of R313 (0 while no state is decided), gate weight as FP32 bits, the address of its returned row, and
whether its COMBINE is in flight. -/
structure Pair where
  expert : Nat
  rank   : Nat
  loc    : Nat
  st     : Nat
  g      : Nat
  row    : Nat
  fly    : Bool
  deriving DecidableEq, Repr

/-- What R326 fixes for a token once its routed entries have left SENT: its weights as they are, divided by a sum, or
none applied. -/
inductive Renorm where
  | keep
  | by (d : Nat)
  | skip
  deriving DecidableEq, Repr

/-- A token of a HOME step: its pairs in rank order, where its shared contributions stand (0 waiting, 1 in flight, 2
applied, 3 given up), whether a failure on its accumulator row ended its contributions (R330), and what R326 fixes. -/
structure Tok where
  pairs : List Pair
  sh0   : Nat
  sh1   : Nat
  dead  : Bool
  norm  : Option Renorm
  deriving DecidableEq, Repr

/-- Where a HOME step stands: selecting, its slots being staged or returns awaited, finalising, cancelled or stopped
with its end waiting for its commands, or ended with its record waiting. -/
inductive HomePh where
  | select | open | final | cancelled | ended
  deriving DecidableEq, Repr

/-- A slot still to be staged (R316, R320): rank, the tokens of a dispatch slot's rows or the tags of a return slot with
the output row of each result, and whether its GATHER is in flight. -/
structure Stage where
  rank : Nat
  toks : List Nat
  tags : List Nat
  rows : List Nat
  fly  : Bool
  deriving DecidableEq, Repr

/-- A HOME step (R303, R306 to R316, R322 to R328). -/
structure Home where
  desc    : List Word
  ph      : HomePh
  /-- Shards whose SELECT has not completed. -/
  shards  : Nat
  /-- A SELECT has failed (R330). -/
  selBad  : Bool
  toks    : List Tok
  /-- Slots whose header is not written yet. -/
  staging : List Stage
  rows    : Nat
  /-- Ranks whose return has been handled. -/
  returned : List Nat
  /-- Return areas whose rows are still wanted: hamlet, set and source of the area, and the SRC_DEV of its header. -/
  areas   : List (Nat × Nat × Nat × Nat)
  /-- Shared experts posted. -/
  posted  : List Nat
  /-- The engines' commands in flight. -/
  inFly   : Nat
  /-- The highest status so far (R333). -/
  status  : Nat
  unpick  : Nat
  deriving DecidableEq, Repr

/-- A source whose dispatch slot a RECV step has taken (R318): the first two words of its header, the tokens and masks
of its rows, and the row at which its REPSCAT stopped. -/
structure RecvSrc where
  src   : Nat
  hdr0  : Word
  hdr1  : Word
  toks  : List Nat
  masks : List Nat
  bad   : Option Nat
  deriving DecidableEq, Repr

/-- A RECV step (R317 to R320), with the address of its descriptor. -/
structure Recv where
  addr    : Nat
  desc    : List Word
  srcs    : List RecvSrc
  /-- Commands in flight. -/
  inFly   : Nat
  /-- RX_NS has passed (R319). -/
  closed  : Bool
  padding : Bool
  retd    : Bool
  /-- Return slots whose header is not written yet. -/
  staging : List Stage
  /-- It has been stopped (R329). -/
  stopped : Bool
  ended   : Bool
  copies  : Nat
  drops   : Nat
  missing : Nat
  ovf     : Nat
  status  : Nat
  deriving DecidableEq, Repr

/-- A step slot (R302). -/
inductive StepSlot where
  | home (x : Home)
  | recv (x : Recv)
  deriving DecidableEq, Repr

/-- A Drover and its Gleaner: step slots, and the arrivals recorded by set and source until the set is released
(R318). -/
structure Drover where
  slots    : Tab (Option StepSlot)
  arrivals : List (Nat × Nat)
  /-- DRV_XCFG, DRV_STAGE, DRV_RXAREA, DRV_RSTAGE and DRV_RETAREA as an activation found them, for the steps that had
  begun (R467). -/
  kept     : Option (List Word)
  deriving DecidableEq, Repr

def Drover.reset : Drover := ⟨[], [], none⟩

/-! ### Rack fabric (12_rack_fabric.md) -/

/-- What a sequenced packet belongs to: a posted store of a tile's core (R106), an operation of a program slot, a DMA
channel, or nothing that waits for it. -/
inductive PktTag where
  | none
  | tile (t : Nat)
  | coll (prog op : Nat)
  | dma (c : Nat)
  deriving DecidableEq, Repr

/-- A sequenced packet that the sender keeps until it is acknowledged (R379): its number in the order of issue, the
partition that issued it, the device time of its first transmission, the path it last took, its discards (R382), and
whether it has been given up as lost (R387). -/
structure OutPkt where
  n        : Nat
  pkt      : Packet
  part     : Option Nat
  tag      : PktTag
  first    : Option Nat
  path     : Option Nat
  discards : Nat
  lost     : Bool
  deriving DecidableEq, Repr

/-- A packet held ahead of the SEQ expected: the port that it came in on, and whether its combine meets a residue
disagreement (R351, R378). -/
structure HeldPkt where
  port  : Nat
  fault : Bool
  pkt   : Packet
  deriving DecidableEq, Repr

/-- The transport's state for one other node (R375 to R380). -/
structure Peer where
  /-- The next SEQ, the number of packets issued, and the packets not yet acknowledged, oldest first. -/
  nextSeq : Nat
  issued  : Nat
  sent    : List OutPkt
  /-- The device time of the last advance of the acknowledgement, or of the first transmission after a rest. -/
  advAt   : Nat
  /-- The turn of the round robin over the active set. -/
  turn    : Nat
  /-- The four path entries as last read, and which of them are LIVE. -/
  paths   : List Word
  live    : List Nat
  /-- The path of the oldest packet at the last timeouts in a row, and how many. -/
  toPath  : Nat
  toCount : Nat
  /-- The node's incarnation as known here. -/
  dinc    : Nat
  /-- As a source: its incarnation once known, the SEQ expected, and the packets held ahead of it. -/
  sinc    : Option Nat
  expect  : Nat
  held    : List HeldPkt
  /-- Packets performed since the last ACK, and the device time of the first of them. -/
  unacked : Nat
  perfAt  : Nat
  /-- WRITEs that a cumulative acknowledgement has covered, for a NAK that comes after it on another path (R377, R387). -/
  acked   : List OutPkt
  deriving DecidableEq, Repr

def Peer.reset : Peer := ⟨0, 0, [], 0, 0, [], [], 0, 0, 0, none, 0, [], 0, 0, []⟩

/-- A packet in an egress queue: since when, its tags, and the partition that it is charged to (R395, R423). -/
structure QPkt where
  pkt   : Packet
  at_   : Nat
  start : Rat
  fin   : Rat
  part  : Option Nat
  deriving DecidableEq, Repr

/-- A fabric port: egress queues 0 to 15, finish tags and virtual time, uncorrectable words in the current interval,
the peer it last trained with, and the device time at which it took itself down (R393 to R395). -/
structure FabPort where
  queues : Tab (List QPkt)
  finish : Tab Rat
  vtime  : Rat
  errs   : Nat
  peer   : Option (Nat × Nat)
  errAt  : Option Nat
  deriving DecidableEq, Repr

def FabPort.reset : FabPort := ⟨[], [], 0, 0, none, none⟩

/-- An entry of the reply cache (R389). -/
structure RcEntry where
  src    : Nat
  req    : Nat
  status : Nat
  old    : Word
  made   : Nat
  deriving DecidableEq, Repr

/-- What waits for the answer to a READ or an ATOMIC. -/
inductive Asker where
  | load (t : Nat)
  | atomic (t : Nat)
  | dma (c off : Nat)
  | rm (d : Nat)
  deriving DecidableEq, Repr

/-- An outstanding READ or ATOMIC (R388, R391). -/
structure RemReq where
  id      : Nat
  asker   : Asker
  part    : Option Nat
  node    : Nat
  addr    : Nat
  bytes   : Nat
  op      : Nat
  operand : Word
  compare : Word
  /-- The SEQs of its packets, the latest first, the times of its issue, of its latest issue and of its first
  transmission, and of a NAK BUSY. -/
  seqs    : List Nat
  t0      : Nat
  last    : Nat
  first   : Option Nat
  busyAt  : Option Nat
  deriving DecidableEq, Repr

/-- The rack fabric. -/
structure Fabric where
  peers   : Tab Peer
  ports   : Tab FabPort
  cache   : List RcEntry
  reqs    : List RemReq
  /-- The next REQID (R389), and the next number of a READ (model's own). -/
  nextReq : Nat
  nextRd  : Nat
  /-- The last microsecond sampled (R397). -/
  sampled : Nat
  deriving DecidableEq, Repr

def Fabric.reset : Fabric := ⟨[], [], [], [], 0, 0, 0⟩

/-! ### Collectives (11_collectives.md) -/

/-- An A2A operation in progress (R362 to R366): direction (true: return), hamlet, exchange number, set, the device time
of its issue, the slots not sent yet as they stood at issue (their pieces by offset, the header last), and the ranks
whose slot is sent and not acknowledged. -/
structure Exchange where
  dir   : Bool
  ham   : Nat
  num   : Nat
  set   : Nat
  atNs  : Nat
  todo  : List (Nat × List (Nat × List Byte))
  wait  : List Nat
  deriving DecidableEq, Repr

/-- An operation that has issued and not completed: the packets of a PUT or AREDUCE that are not acknowledged, or an
exchange. -/
structure CollOp where
  id   : Nat
  left : Nat
  xch  : Option Exchange
  deriving DecidableEq, Repr

/-- A program slot's run (R343 to R358). -/
structure Prog where
  /-- The program header, as read at the start of the run, and whether the program has been checked. -/
  hdr      : List Word
  checked  : Bool
  counters : Tab Nat
  /-- What the started phases have still to issue: (first operation, how many). -/
  todo     : List (Nat × Nat)
  ops      : List CollOp
  nextOp   : Nat
  /-- The children that have reported clean, and whether this member's COMMIT operation has issued. -/
  kids     : List Nat
  commit   : Bool
  /-- A bad check has been found in the run. -/
  bad      : Bool
  startNs  : Nat
  /-- Credits not held: (direction, set, rank). -/
  owed     : List (Bool × Nat × Nat)
  deriving DecidableEq, Repr

def Prog.reset : Prog := ⟨[], false, [], [], [], 0, [], false, false, 0, []⟩

/-- An area of a Drover with a slot in it (R365): hamlet, direction, set and source, the program slot and the node to
which its release returns the credit, and whether its arrival has been notified. -/
structure Area where
  ham  : Nat
  dir  : Bool
  set  : Nat
  src  : Nat
  prog : Nat
  node : Nat
  told : Bool
  deriving DecidableEq, Repr

/-- The collective engines. -/
structure Coll where
  progs  : Tab Prog
  areas  : List Area
  /-- Staged slots that an exchange has taken and the receiver has not acknowledged (R366): hamlet, direction, set and
  rank. -/
  staged : List (Nat × Bool × Nat × Nat)
  /-- Areas of which a piece of the slot that is landing has been refused: hamlet, direction, set and source. -/
  spoiled : List (Nat × Bool × Nat × Nat)
  deriving DecidableEq, Repr

def Coll.reset : Coll := ⟨[], [], [], []⟩

/-! ### Boot, firmware and security (16_firmware_and_security.md) -/

/-- What an update request asks for (R485): the package's address and length, and the mailbox for replies. -/
structure Update where
  addr  : Nat
  len   : Nat
  reply : Nat
  deriving DecidableEq, Repr

/-- The card flash with its replay-protected block (R475, R480), and what the steward domain keeps for boot, update and
attestation. -/
structure Sec where
  /-- The flash by offset: what an unlisted byte reads is `Config.flashByte`. -/
  flash   : Tab Byte
  /-- The counters of the replay-protected block: FW_SVN, KEY_REV, REC_MIN (R480). -/
  svn     : Nat
  keyRev  : Nat
  recMin  : Nat
  /-- The device record as applied: its words 0 to 15 (R465, R466). -/
  record  : List Word
  /-- The key register: the unit secret, and its lock (R483, R486). -/
  uds     : List Byte
  locked  : Bool
  /-- The secret of layer 2, which holds it while the firmware runs; layer 1 has erased its own (R486). -/
  cdi2    : List Byte
  /-- The key certificates of layers 1 and 2 (R487), which the ROM and Stast make at a boot; that of layer 0 lies in the
  flash. -/
  cert1   : List Byte
  cert2   : List Byte
  /-- Steward memory, 8 MiB, by offset (R477, R478). -/
  smem    : Tab Byte
  /-- The manifest of the package that runs (R481, R485): its words 0 to 163. -/
  running : List Word
  /-- The update that Stast has been asked for (R485). -/
  update  : Option Update
  /-- SEC_MEAS_IN (R488). -/
  measIn  : Tab Word
  /-- The tick at which the steward watchdog was last reloaded, and that of the last CONFIRM (R485, R489). -/
  wdogAt  : Nat
  confirm : Option Nat
  deriving DecidableEq, Repr

def Sec.reset : Sec :=
  { flash := [], svn := 0, keyRev := 0, recMin := 0, record := [], uds := [], locked := false, cdi2 := [],
    cert1 := [], cert2 := [],
    smem := [], running := [], update := none, measIn := [], wdogAt := 0, confirm := none }

/-! ### The whole device -/

/-- The state of the device. -/
structure State where
  /-- The commands that wait, first in, first out. -/
  pending : List Instr
  /-- The control registers, by offset (R12). -/
  regs    : Tab Word
  /-- Memory, by device address (R7 to R9): what an unlisted byte reads is `memDefault`. -/
  mem     : Tab Byte
  freeMem : List FreeRegion
  /-- For each 32-byte word whose stored check bytes differ from those of its data: the difference (R263). -/
  ecc     : Tab (BitVec 32)
  tb      : Timebase
  /-- The device time at which an armed bell was armed, and whether a step passed its fire time, by belfry × 64 + bell
  (R66, R72). -/
  bellArm : Tab Nat
  bellStep : Tab Bool
  deliveries : List Delivery
  tiles   : Tab Tile
  grn     : Granary
  sched   : Sched
  hl      : HostLink
  reeve   : Reeve
  pwr     : Power
  ver     : Versions
  fh      : Fronthaul
  cod     : Tab Cluster
  se      : Tab Engine
  drv     : Tab Drover
  fab     : Fabric
  coll    : Coll
  sec     : Sec
  /-- The number of the next open value (model's own, notes/assumptions/3.md). -/
  free    : Nat
  /-- What has left the device, latest first (model's own, notes/assumptions/6.md). -/
  wire    : List Out
  deriving DecidableEq, Repr

/-- The timebase at power-up (R42, R52). -/
def Timebase.reset : Timebase :=
  { ticks := 0, offset := 0, rate := 0, slewMax := 10995116, eff := 0, rem := 0, ratePend := false,
    slewPend := false, stepGo := false, lock := .freerun, lockRun := 0, lastAdj := 0, holdAt := 0,
    fsrcHeld := false, fsrcAt := 0, ppsInAt := none, ppsAt := none, ppsEnd := none, tsFifo := [] }

def Granary.reset : Granary :=
  { pages := [], moves := [], queues := [], turn := 0, reclaimAt := 0, reclaimed := 0, reclaimIv := 0, stuck := [], walks := [],
    pendRaise := [], scrubWord := 0, t2down := [], t2wait := [] }

def Sched.reset : Sched :=
  { launches := [], nextId := 0, cxs := [], dma := [], sluice := ⟨[], [], [], [], [], 0⟩, drainEnd := [] }

def HostLink.reset : HostLink := { notes := [], reads := [], nextRd := 0, tryAt := 0, senders := [], staging := [] }

def Reeve.reset : Reeve := { inputs := [], seq := 0, rmSeq := 0, windowAt := 0, rm := [], expelled := [] }

/-- The machine right after reset: every register at its reset value, memory with nothing listed, nothing queued
(notes/assumptions/2.md). -/
def State.reset : State :=
  { pending := [], regs := [], mem := [], freeMem := [], ecc := [], tb := Timebase.reset, bellArm := [],
    bellStep := [], deliveries := [], tiles := [], grn := Granary.reset, sched := Sched.reset, hl := HostLink.reset,
    reeve := Reeve.reset, pwr := Power.reset, ver := Versions.reset,
    fh := Fronthaul.reset, cod := [], se := [], drv := [], fab := Fabric.reset, coll := Coll.reset, sec := Sec.reset,
    free := 0, wire := [] }

end Sys2Proof.Machine
end

