-- ==== Sys2Proof/Machine/Ops.lean ====
section
/-! DEFINITION. The named operations over the registers, the tiles and the model's own fields, and the questions that
many blocks ask: which tiles are enabled, what a partition holds of the tiles and control instances, where a domain
lies. -/

namespace Sys2Proof.Machine

open Sys2Proof

/-! ### Registers -/

/-- The stored word of a register instance. -/
def State.reg (s : State) (r : RegName) (i : Nat := 0) (j : Nat := 0) : Word :=
  Tab.get resetAt s.regs (addrOf r i j)

/-- The field `[hi:lo]` of a register instance. -/
def State.rf (s : State) (r : RegName) (hi lo : Nat) (i : Nat := 0) (j : Nat := 0) : Nat := fld (s.reg r i j) hi lo

/-- Bit `b` of a register instance. -/
def State.rb (s : State) (r : RegName) (b : Nat) (i : Nat := 0) (j : Nat := 0) : Bool := bit (s.reg r i j) b

/-- Write the stored word of a register instance. -/
def State.setReg (s : State) (r : RegName) (v : Word) (i : Nat := 0) (j : Nat := 0) : State :=
  { s with regs := Tab.set resetAt s.regs (addrOf r i j) v }

/-- Write the field `[hi:lo]` of a register instance. -/
def State.putReg (s : State) (r : RegName) (hi lo x : Nat) (i : Nat := 0) (j : Nat := 0) : State :=
  s.setReg r (putFld (s.reg r i j) hi lo x) i j

/-- Set bit `b` of a register instance: how hardware raises an event or error flag. -/
def State.flag (s : State) (r : RegName) (b : Nat) (i : Nat := 0) (j : Nat := 0) : State :=
  s.setReg r (setBit (s.reg r i j) b) i j

/-- Set bit `b` when a condition holds. -/
def State.flagIf (s : State) (c : Bool) (r : RegName) (b : Nat) (i : Nat := 0) (j : Nat := 0) : State :=
  if c then s.flag r b i j else s

/-- Clear bit `b` of a register instance. -/
def State.unflag (s : State) (r : RegName) (b : Nat) (i : Nat := 0) (j : Nat := 0) : State :=
  s.setReg r (clearBit (s.reg r i j) b) i j

/-- Raise the saturating counter in `[hi:lo]` of a register instance by `k`. -/
def State.count (s : State) (r : RegName) (hi lo : Nat) (i : Nat := 0) (j : Nat := 0) (k : Nat := 1) : State :=
  s.setReg r (bumpFld (s.reg r i j) hi lo k) i j

/-- The plain write of R15 and R16 to a register instance: RW fields, W1C and W1S bits, nothing else. -/
def State.writePlain (s : State) (r : RegName) (v : Word) (i : Nat := 0) (j : Nat := 0) : State :=
  s.setReg r (r.desc.written (s.reg r i j) v) i j

/-- What leaves the device. -/
def State.emit (s : State) (o : Out) : State := { s with wire := o :: s.wire }

/-- The plain read of R16: the value goes to the reader, and RC fields clear. -/
def State.readPlain (s : State) (r : RegName) (i : Nat := 0) (j : Nat := 0) : State :=
  let v := s.reg r i j
  (s.setReg r (r.desc.afterRead v) i j).emit (.readData (addrOf r i j) (r.desc.readView v))

/-- The read of a partition that may not clear the counts (R74): the value goes to the reader. -/
def State.peekPlain (s : State) (r : RegName) (i : Nat := 0) (j : Nat := 0) : State :=
  s.emit (.readData (addrOf r i j) (r.desc.readView (s.reg r i j)))

/-! ### Open values -/

/-- The next value that the spec leaves open. -/
def State.open (s : State) : Word := Config.freeWord s.free

/-- The state after an open value has been used. -/
def State.used (s : State) : State := { s with free := s.free + 1 }

/-! ### Device time (R19, R42 to R44) -/

/-- Device time in units of 2^-37 ns: offset + counter × (1 + rate). -/
def Timebase.now (t : Timebase) : Int := t.offset + (t.ticks : Int) * (8 * 2 ^ 37) + (t.ticks : Int) * t.eff

/-- Device time truncated to whole nanoseconds, as a 64-bit reading (R44). -/
def Timebase.ns (t : Timebase) : Nat := wrap 64 (t.now / 2 ^ 37)

/-- The 64-bit nanosecond reading of device time (R44). -/
def State.now (s : State) : Nat := s.tb.ns

/-- The sub-nanosecond part, in units of 2^-16 ns, truncated (R19). -/
def Timebase.subns (t : Timebase) : Nat := (t.now % 2 ^ 37 / 2 ^ 21).toNat

/-- The seconds and the nanoseconds within the second (R19). -/
def Timebase.sec (t : Timebase) : Int := t.now / 2 ^ 37 / 1000000000

def Timebase.nsec (t : Timebase) : Nat := (t.now / 2 ^ 37 % 1000000000).toNat

/-! ### Tiles -/

/-- Tile `t`. -/
def State.tile (s : State) (t : Nat) : Tile := Tab.get (fun _ => Tile.reset) s.tiles t

/-- Replace tile `t`. -/
def State.setTile (s : State) (t : Nat) (x : Tile) : State :=
  { s with tiles := Tab.set (fun _ => Tile.reset) s.tiles t x }

/-- Change tile `t`. -/
def State.modTile (s : State) (t : Nat) (f : Tile → Tile) : State := s.setTile t (f (s.tile t))

/-- Change the core of tile `t`. -/
def State.modCore (s : State) (t : Nat) (f : CoreRegs → CoreRegs) : State :=
  s.modTile t fun x => { x with core := f x.core }

/-- The core of tile `t`. -/
def State.core (s : State) (t : Nat) : CoreRegs := (s.tile t).core

/-- Bit `t` of a 128-bit mask. -/
def inMask (m : BitVec 128) (t : Nat) : Bool := m.getLsbD t

/-- The 128-bit mask of two registers: tiles 0 to 63 and 64 to 127. -/
def mask128 (lo hi : Word) : BitVec 128 := hi ++ lo

/-- The tiles of a mask, ascending. -/
def tilesOf (m : BitVec 128) : List Nat := (List.range 128).filter fun t => inMask m t

/-- The mask of a list of tiles. -/
def maskOf (ts : List Nat) : BitVec 128 := ts.foldl (fun m t => m ||| (1#128 <<< t)) 0

/-- The enabled-tile map of the device record, once applied (R2, R466). -/
def State.enabledMap (s : State) : BitVec 128 := mask128 (s.reg .DEV_TILEMAP_LO) (s.reg .DEV_TILEMAP_HI)

/-- Tile `t` is enabled (R2, R3). -/
def State.enabled (s : State) (t : Nat) : Bool := inMask s.enabledMap t

/-- The mill tiles: local indices 0 and 8 (01_architecture.md R21; 00_scope.md "Registers"). -/
def isMill (t : Nat) : Bool := t % 16 == 0 || t % 16 == 8

/-! ### Partitions and what they hold (R400 to R402) -/

/-- Partition `p` exists (R400). -/
def State.partValid (s : State) (p : Nat) : Bool := s.rb .PART_P_CTL 63 p

/-- The tile set of partition `p`. -/
def State.partTiles (s : State) (p : Nat) : BitVec 128 := mask128 (s.reg .PART_P_TILE_LO p) (s.reg .PART_P_TILE_HI p)

/-- Partition `p` holds tile `t` (R401). -/
def State.holdsTile (s : State) (p t : Nat) : Bool := s.partValid p && inMask (s.partTiles p) t

/-- Partition 0 is the radio partition (R400). -/
def State.radio (s : State) : Bool := s.rb .PART_CTL 63

/-- The lendable tiles: a bit that names a tile not held by partition 0 reads 0 (R402). -/
def State.lendable (s : State) (t : Nat) : Bool :=
  inMask (mask128 (s.reg .PART_LEND_LO) (s.reg .PART_LEND_HI)) t && inMask (s.partTiles 0) t

/-- The start of the lent region (R402, R431). -/
def State.lendOfs (s : State) : Nat := s.rf .PART_LEND_OFS 21 16 * 65536

/-- The partition of context `c`. -/
def State.cxPart (s : State) (c : Nat) : Nat := s.rf .CX_CTL 19 16 c

/-- A context of partition `p` is on tile `t`, running there or saved there (R408). -/
def State.cxOn (s : State) (p t : Nat) : Bool :=
  (match (s.tile t).cx with | some c => s.cxPart c == p | none => false) ||
  (match (s.tile t).saved with | some im => s.cxPart im.cx == p | none => false)

/-- Partition `p` holds tile `t` as a borrowed tile (R401). -/
def State.holdsBorrowed (s : State) (p t : Nat) : Bool :=
  p != 0 && s.partValid p && s.rb .PART_P_CTL 62 p && s.lendable t && s.cxOn p t

/-- Tile `t` is lent: a borrower's context is on it and no context of partition 0 is (TILE_STAT.LENT; R100). -/
def State.lent (s : State) (t : Nat) : Bool :=
  s.lendable t && (match (s.tile t).cx with | some c => s.cxPart c != 0 | none => false)

/-- Partition `p` holds the tile-store bytes of tile `t` from offset `o` on (R401, R402). -/
def State.holdsStore (s : State) (p t o : Nat) : Bool :=
  if s.lendable t then
    if p = 0 then s.holdsTile 0 t && decide (o < s.lendOfs)
    else s.holdsBorrowed p t && decide (s.lendOfs ≤ o)
  else s.holdsTile p t

/-- Partition `p` holds segment `g` of hamlet store `h`; segment 31 is the save area and no partition's (R401). -/
def State.holdsSegment (s : State) (p h g : Nat) : Bool :=
  g != 31 && s.partValid p &&
    (let b := s.rf .PART_HS_OWN (g % 8 * 8 + 7) (g % 8 * 8) h (g / 8)
     bit (BitVec.ofNat 8 b) 7 && decide (b % 16 = p))

/-- The partition that host function `f` binds (R426). -/
def State.fnPart (s : State) (f : Nat) : Option Nat :=
  if s.rb .PART_FN_CTL 12 f then some (s.rf .PART_FN_CTL 19 16 f) else none

/-- The partition an agent acts for (none: steward firmware, or a function that binds no partition). -/
def State.agentPart (s : State) : Agent → Option Nat
  | .steward => none
  | .tile t => some (s.core t).part.toNat
  | .host f => s.fnPart f

/-- The partition is the agent's. -/
def State.actsFor (s : State) (ag : Agent) (p : Nat) : Bool :=
  match ag with
  | .steward => false
  | _ => s.agentPart ag == some p

/-- Steward firmware, or an agent of partition `p`: who may write a partition's own registers. -/
def State.mayWrite (s : State) (ag : Agent) (p : Nat) : Bool := ag == .steward || s.actsFor ag p

/-! ### Power domains (R453) -/

/-- The domain of tile `t`'s quad. -/
def domQuad (t : Nat) : Nat := t / 4

/-- The domain of a hamlet's common logic. -/
def domHamlet (h : Nat) : Nat := 32 + h

/-- Domain `d` is dormant (PWR_DOM_STAT). -/
def State.dormant (s : State) (d : Nat) : Bool := s.rb .PWR_DOM_STAT d

/-! ### Outcomes -/

/-- Every meaning of this model answers a next state. -/
abbrev Ans := Host.Outcome State Fault Refusal

end Sys2Proof.Machine
end

