-- ==== Sys2Proof/Machine/Notify.lean ====
section
/-! DEFINITION. What many blocks do when something happens: wake a domain (15_power_reset_configuration.md R457), set
event bits on a tile (13_partitions_and_scheduling.md R408, 03_tile_isa.md R100), ring a doorbell
(14_host_link_and_mailboxes.md R446, R447) and write a sticky error record (17_errors_and_health.md R490 to R494). -/

namespace Sys2Proof.Machine

open Sys2Proof

/-! ### Waking -/

/-- Begin to wake domain `d` if it is dormant and not waking yet (R457, R458). The count of wakes is PWR_CNT. -/
def wakeDom (d : Nat) (s : State) : State :=
  if s.dormant d && !(s.pwr.waking.contains d) then
    { s with pwr := { s.pwr with waking := s.pwr.waking ++ [d] } }.count .PWR_CNT 63 32
  else s

/-- Begin to wake tile `t`'s quad, and its hamlet common first (R457). -/
def wakeTile (t : Nat) (s : State) : State :=
  if s.dormant (domQuad t) then wakeDom (domQuad t) (wakeDom (domHamlet (t / 16)) s) else s

/-! ### Event bits -/

/-- The latest of the contexts that have been on tile `t` since its reset and belong to partition `p`. -/
def lastCx (p t : Nat) (s : State) : Option Nat := (s.tile t).hist.find? fun c => s.cxPart c == p

/-- Latch event bits in CX_EVT of context `c`. -/
def latchCx (c : Nat) (bits : BitVec 32) (s : State) : State :=
  s.setReg .CX_EVT (s.reg .CX_EVT c ||| bits.setWidth 64) c

/-- Context `c` is being swapped: actions for it latch (R419). -/
def swapping (c : Nat) (s : State) : Bool :=
  let sw := (Tab.get (fun _ => Cx.reset) s.sched.cxs c).swap
  sw == 4 || sw == 6

/-- The context on tile `t` takes events in TEVT: it is past its launch and is not being swapped (R76, R419). -/
def takesEvt (t c : Nat) (s : State) : Bool :=
  let r := (s.tile t).run
  r != .launching && r != .held && r != .idle && !swapping c s

/-- The context image saved on tile `t` takes the bits in its TEVT; while its context is being swapped they latch (R408,
R419). -/
def evtSaved (t : Nat) (bits : BitVec 32) (s : State) : State :=
  match (s.tile t).saved with
  | none => s
  | some im =>
    if swapping im.cx s then latchCx im.cx bits s
    else s.modTile t fun x => { x with
      saved := some { im with core := { im.core with tevt := im.core.tevt ||| bits } } }

/-- The owner's context on tile `t` takes the bits: in TEVT, in the image that is being restored, or latched. -/
def evtOn (t c : Nat) (bits : BitVec 32) (s : State) : State :=
  if !takesEvt t c s then latchCx c bits s
  else if (s.tile t).run == .restoring then evtSaved t bits s
  else s.modCore t fun k => { k with tevt := k.tevt ||| bits }

/-- No context of the owner is on tile `t`: its last one there latches the bits, or they are lost (R408). -/
def evtOff (p t : Nat) (bits : BitVec 32) (s : State) : State :=
  match lastCx p t s with
  | some c => latchCx c bits s
  | none => s.flag .PART_ERR 3

/-- An action that sets TEVT bits on tile `t` for owner partition `p` (R408; R100 for partition 0 and a lent tile). -/
def deliverEvt (p t : Nat) (bits : BitVec 32) (s : State) : State :=
  if p == 0 && s.lent t then s.modTile t fun x => { x with latch := x.latch ||| bits }
  else
    let x := s.tile t
    let saved := match x.saved with
      | some im => s.cxPart im.cx == p
      | none => false
    match x.cx with
    | some c => if s.cxPart c == p then evtOn t c bits s
        else if saved then evtSaved t bits s else evtOff p t bits s
    | none => if saved then evtSaved t bits s else evtOff p t bits s

/-- The same action on each tile of a list, a dormant quad waking first (R65, R457). -/
def deliverEvts (p : Nat) (ts : List Nat) (bits : BitVec 32) (s : State) : State :=
  ts.foldl (fun s t => deliverEvt p t bits (wakeTile t s)) s

/-- Device mask `i` of the device bells (R65, R74). -/
def State.dmask (s : State) (i : Nat) : BitVec 128 := mask128 (s.reg .BELL_DMASK_LO i) (s.reg .BELL_DMASK_HI i)

/-! ### Doorbells -/

/-- MBX_CFG.EN; mailboxes 0 to 3 read 1 (R451). -/
def State.mbxEn (s : State) (m : Nat) : Bool := m < 4 || s.rb .MBX_CFG 63 m

/-- MBX_CFG.RKIND; mailboxes 0 to 3 have the steward (R441, R451). -/
def State.mbxKind (s : State) (m : Nat) : Nat := if m < 4 then 1 else s.rf .MBX_CFG 61 60 m

/-- An interrupt message to vector `v` of function `f`: sent while the link is up, else held, merging with one that
waits; a dormant host-link domain wakes (R434, R447, R449). -/
def hostNotify (f v : Nat) (s : State) : State :=
  if s.rb .HL_STAT 63 then s.emit (.hostIrq f v)
  else
    let s := wakeDom 45 s
    if s.hl.notes.contains (f, v) then s else { s with hl := { s.hl with notes := s.hl.notes ++ [(f, v)] } }

/-- Notify the receiver of mailbox `m` of doorbell bits (R441, R447). Notifying no bit does nothing. -/
def notify (m : Nat) (bits : BitVec 32) (s : State) : State :=
  if bits = 0 then s else
  match s.mbxKind m with
  | 1 => (wakeDom 48 s).emit (.stewardIrq m)
  | 2 => hostNotify (s.rf .MBX_CFG 56 52 m) (s.rf .MBX_CFG 10 0 m) s
  | 3 =>
    let p := s.rf .MBX_CFG 51 48 m
    deliverEvts p ((tilesOf (s.dmask (s.rf .MBX_CFG 44 40 m))).filter fun t => s.holdsTile p t || s.holdsBorrowed p t)
      bits s
  | _ => s

/-- Set doorbell bits of an enabled mailbox: bits that go from 0 to 1 while their mask bit is 1 notify (R446, R447). -/
def setDb (m : Nat) (bits : BitVec 32) (s : State) : State :=
  let old := (s.reg .MBX_DB m).setWidth 32
  let mask := (s.reg .MBX_DB_MASK m).setWidth 32
  notify m (bits &&& ~~~ old &&& mask) (s.setReg .MBX_DB ((old ||| bits).setWidth 64) m)

/-- A doorbell rung by a bell or by a device block: dropped and counted in HL_CNT.BAD_MBX when the mailbox number is 256
or above or the mailbox is disabled (R441, R451). -/
def ringDb (m : Nat) (bits : BitVec 32) (s : State) : State :=
  if m ≥ 256 then s.count .HL_CNT 47 32
  else if !s.mbxEn m || s.mbxKind m == 0 then s.count .HL_CNT 47 32
  else setDb m bits s

/-- Ring the doorbell that a DB register of a device block names, if its DB_EN is 1. -/
def ringReg (r : RegName) (i j : Nat) (s : State) : State :=
  if s.rb r 63 i j then ringDb (s.rf r 56 48 i j) (1#32 <<< s.rf r 4 0 i j) s else s

/-! ### Error records -/

/-- The class of a record code (R492). -/
def errClass (code : Nat) : Nat :=
  if code < 0x010 then 0 else if code < 0x020 then 1 else if code < 0x030 then 2 else if code < 0x040 then 3
  else if code < 0x050 then 4 else if code < 0x060 then 5 else if code < 0x070 then 6 else 7

/-- The health-score input that a record code counts in (R496), besides input 1 for class 0. -/
def errInput (code : Nat) : Option Nat :=
  if errClass code = 0 then some 1 else if code = 0x010 then some 2 else if code = 0x011 then some 3
  else if code = 0x040 then some 4 else if code = 0x041 then some 5 else none

/-- Count `k` events of a health-score input at their source (R495). -/
def reeveCount (i k : Nat) (s : State) : State :=
  let n := Tab.get (fun _ => 0) s.reeve.inputs i
  { s with reeve := { s.reeve with inputs := Tab.set (fun _ => 0) s.reeve.inputs i (n + k) } }

/-- Word 0 of a record, without COUNT (R491). -/
def errHead (code : Nat) (w : Who) : Word :=
  place 63 63 1 ||| place 62 60 (errClass code) ||| place 59 48 code ||| place 47 44 w.kind ||| place 43 32 w.unit |||
    (match w.part with | some p => place 27 24 p ||| place 23 23 1 | none => 0)

/-- The valid record into which an event merges: same CODE, UNIT_KIND, UNIT and PART (R490). -/
def errMerge (code : Nat) (w : Who) (s : State) : Option Nat :=
  (List.range 128).find? fun i => s.reg .ERR_REC i 0 &&& ~~~ fmask 15 0 == errHead code w

/-- The lowest-numbered free slot (R490). -/
def errFree (s : State) : Option Nat := (List.range 128).find? fun i => !s.rb .ERR_REC 63 i 0

/-- Word 3 of a record (R491). -/
def errTail (addr aux : Nat) : Word := place 63 52 aux ||| place 51 0 addr

/-- A sticky error record: the event merges, takes the lowest free slot, or is counted in ERR_LOST; ERR_SUM shows its
class; a created record of a class in DB_CLASS rings ERR_DB (R490, R494). -/
def errRecord (code : Nat) (w : Who) (addr aux : Nat) (s : State) : State :=
  let s := (match errInput code with | some i => reeveCount i 1 s | none => s).flag .ERR_SUM (errClass code)
  let now := BitVec.ofNat 64 s.now
  match errMerge code w s with
  | some i => (s.count .ERR_REC 15 0 i 0).setReg .ERR_REC now i 2
  | none =>
    match errFree s with
    | some i =>
      let s := (((s.setReg .ERR_REC (errHead code w ||| place 15 0 1) i 0).setReg .ERR_REC now i 1).setReg
        .ERR_REC now i 2).setReg .ERR_REC (errTail addr aux) i 3
      if s.rb .ERR_CTL (errClass code) then ringReg .ERR_DB 0 0 s else s
    | none =>
      let s := if s.rf .ERR_LOST 31 0 = 0 then s.putReg .ERR_LOST 59 48 code else s
      s.count .ERR_LOST 31 0

/-- The device itself, tile `t`, and the other unit kinds of R491 as makers of requests. -/
def Who.device : Who := ⟨0, 0, none⟩

def whoTile (s : State) (t : Nat) : Who := ⟨1, t, some (s.core t).part.toNat⟩

def whoUnit (kind unit part : Nat) : Who := ⟨kind, unit, some part⟩

end Sys2Proof.Machine
end

