-- ==== Sys2Proof/Machine/Memory.lean ====
section
/-! DEFINITION. The device address map and every access to memory: the checks of an access in the order of R102, the
page map, held writes of a moving page, the tier-2 links, the Sluice stages, the memory code and the dirty-page log
(00_scope.md R6 to R11; 08_memory_tiers.md R233 to R241, R263 to R267; 13_partitions_and_scheduling.md R401, R423 to
R428). -/

namespace Sys2Proof.Machine

open Sys2Proof

/-! ### The address map -/

/-- What a device address reaches (R7 to R11). -/
inductive Space where
  | unified (page : Nat)
  | tile (t off : Nat)
  | hamlet (h off : Nat)
  | control (off : Nat)
  | fabric (d off : Nat)
  | unassigned
  deriving DecidableEq, Repr

/-- The address of tile `t`'s store, and of hamlet `h`'s (R9). -/
def tileBase (t : Nat) : Nat := 0xFE0000000000 + t * 0x400000

def hamletBase (h : Nat) : Nat := 0xFE8000000000 + h * 0x2000000

/-- The populated bytes of a tile store (R9). -/
def tileStoreBytes : Nat := 0x300000

/-- The first address of the control range (R7). -/
def controlBase : Nat := 0xFF0000000000

/-- The address map. -/
def spaceOf (a : Nat) : Space :=
  if a < 0x1E000000000 then .unified (a / 65536)
  else if 0xFE0000000000 ≤ a ∧ a < 0xFE0000000000 + 128 * 0x400000 then
    let t := (a - 0xFE0000000000) / 0x400000
    let o := (a - 0xFE0000000000) % 0x400000
    if o < tileStoreBytes then .tile t o else .unassigned
  else if 0xFE8000000000 ≤ a ∧ a < 0xFE8000000000 + 8 * 0x2000000 then
    .hamlet ((a - 0xFE8000000000) / 0x2000000) ((a - 0xFE8000000000) % 0x2000000)
  else if 0xFF0000000000 ≤ a ∧ a < 0x1000000000000 then .control (a - 0xFF0000000000)
  else if 0x1000000000000 ≤ a ∧ a < 0x1800000000000 then
    .fabric ((a - 0x1000000000000) / 0x20000000000) ((a - 0x1000000000000) % 0x20000000000)
  else .unassigned

/-! ### Values -/

/-- The little-endian value of bytes (R6). -/
def leVal : List Byte → Nat
  | [] => 0
  | b :: bs => b.toNat + 256 * leVal bs

/-- The `n` bytes of a value, lowest address first (R6). -/
def leBytes : Nat → Nat → List Byte
  | 0, _ => []
  | n + 1, x => BitVec.ofNat 8 (x % 256) :: leBytes n (x / 256)

/-- 64-bit words of consecutive bytes. -/
def leWords (bs : List Byte) : List Word :=
  (List.range (bs.length / 8)).map fun i => BitVec.ofNat 64 (leVal ((bs.drop (8 * i)).take 8))

/-- Word `i` of a record. -/
def wordAt (ws : List Word) (i : Nat) : Word := ws.getD i 0

/-! ### Bytes -/

/-- What a byte that nothing lists reads as: 0 (R236; notes/assumptions/4.md for the stores), or an open value in a
region whose contents are not guaranteed. -/
def memDefault (fr : List FreeRegion) (a : Nat) : Byte :=
  match fr.find? fun r => decide (r.base ≤ a ∧ a < r.base + r.len) with
  | some r => Config.freeByte r.gen a
  | none => 0

/-- The stored byte at an address. -/
def State.byte (s : State) (a : Nat) : Byte := Tab.get (memDefault s.freeMem) s.mem a

/-- Store one byte. -/
def State.setByte (s : State) (a : Nat) (b : Byte) : State :=
  { s with mem := Tab.set (memDefault s.freeMem) s.mem a b }

/-- Store consecutive bytes. -/
def State.setBytes (s : State) (a : Nat) : List Byte → State
  | [] => s
  | b :: bs => (s.setByte a b).setBytes (a + 1) bs

/-- The contents of a region become not guaranteed: they read as open values until they are written. -/
def State.loseRegion (s : State) (base len : Nat) : State :=
  { s with
    mem := s.mem.filter fun p => decide (p.1 < base ∨ base + len ≤ p.1)
    freeMem := ⟨base, len, s.free⟩ :: s.freeMem.filter fun r => !decide (base ≤ r.base ∧ r.base + r.len ≤ base + len)
    free := s.free + 1 }

/-- The check-byte difference of word `w` (R263). -/
def State.eccOf (s : State) (w : Nat) : BitVec 32 := Tab.get (fun _ => 0) s.ecc w

/-- Word `w` is rewritten with valid check bytes. -/
def State.eccClean (s : State) (w : Nat) : State := { s with ecc := Tab.set (fun _ => 0) s.ecc w 0 }

/-- Word `w` takes check bytes that differ from those of its data by `d`. -/
def State.setEcc (s : State) (w : Nat) (d : BitVec 32) : State := { s with ecc := Tab.set (fun _ => 0) s.ecc w d }

/-- What a read of word `w` finds (R264). -/
def State.eccAt (s : State) (w : Nat) : EccRead := eccRead (s.eccOf w)

/-- The 32-byte words that an access of `len` bytes at `a` touches. -/
def wordsOf (a len : Nat) : List Nat :=
  if len = 0 then [] else (List.range ((a + len - 1) / 32 - a / 32 + 1)).map fun i => a / 32 + i

/-- The corrected byte at an address (R264, R265). -/
def State.goodByte (s : State) (a : Nat) : Byte :=
  match s.eccAt (a / 32) with
  | .data i x => if i = a % 32 then s.byte a ^^^ BitVec.ofNat 8 x else s.byte a
  | _ => s.byte a

/-- Correct word `w` in place (R265). -/
def State.correctWord (s : State) (w : Nat) : State :=
  match s.eccAt w with
  | .data i x => (s.setByte (w * 32 + i) (s.byte (w * 32 + i) ^^^ BitVec.ofNat 8 x)).eccClean w
  | .check => s.eccClean w
  | _ => s

/-- Count a corrected word: in GRN_CNT_ECC.CORR in the tiers, in TILE_CNT_CORR in a tile store, and in input 0 of the
health score everywhere (R265, R496). -/
def countCorrected (w : Nat) (s : State) : State :=
  let s := reeveCount 0 1 s
  match spaceOf (w * 32) with
  | .unified _ => s.count .GRN_CNT_ECC 63 32
  | .tile t _ => s.count .TILE_CNT_CORR 31 0 t
  | _ => s

/-! ### Pages -/

/-- Page `n` of the map (R234). -/
def State.page (s : State) (n : Nat) : Page := Tab.get Page.atReset s.grn.pages n

def State.setPage (s : State) (n : Nat) (p : Page) : State :=
  { s with grn := { s.grn with pages := Tab.set Page.atReset s.grn.pages n p } }

/-- The frame that serves page `n` is in tier 1 (R238). -/
def Page.inTier1 (p : Page) : Bool := p.st == .resident || p.st == .falling

/-- The page is in a move. -/
def Page.moving (p : Page) : Bool := p.st == .rising || p.st == .falling

/-- The move that page `n` takes part in. -/
def State.moveOf (s : State) (n : Nat) : Option Move := s.grn.moves.find? fun m => m.riser == n || m.faller == n

/-- The latest held write that covers an address (R241). -/
def heldByte (held : List Held) (a : Nat) : Option Byte :=
  held.foldl (fun r h => match h with
    | .bytes b data => if b ≤ a ∧ a < b + data.length then data[a - b]? else r
    | .update b data => if b ≤ a ∧ a < b + data.length then data[a - b]? else r
    | .atomic .. => r) none

/-- A held atomic or a held update of a pile engine covers a word that an access reads (R241). -/
def heldAtomicAt (held : List Held) (a len : Nat) : Bool :=
  held.any fun h => match h with
    | .atomic _ b .. => decide (b / 32 * 32 < a + len ∧ a < b / 32 * 32 + 32)
    | .update b d => decide (b / 32 * 32 < a + len ∧ a < (b + d.length + 31) / 32 * 32)
    | .bytes .. => false

/-- The new value of an atomic: operation `f`, old value, operand and compare value (03_tile_isa.md R88). -/
def amoValue (f : Nat) (old b cmp : Word) : Word :=
  match f with
  | 0 => old + b
  | 1 => old &&& b
  | 2 => old ||| b
  | 3 => old ^^^ b
  | 4 => if old.toInt ≤ b.toInt then old else b
  | 5 => if old.toInt ≤ b.toInt then b else old
  | 6 => b
  | _ => if old = cmp then b else old

/-- What one held item makes of the 8 bytes at `b`. -/
def heldOnce (b : Nat) (bs : List Byte) (h : Held) : List Byte :=
  let put := fun (a : Nat) (d : List Byte) => bs.zipIdx.map fun x =>
    if a ≤ b + x.2 ∧ b + x.2 < a + d.length then d.getD (b + x.2 - a) 0 else x.1
  match h with
  | .bytes a d => put a d
  | .update a d => put a d
  | .atomic op a x c _ _ =>
    if a = b then leBytes 8 (amoValue op (BitVec.ofNat 64 (leVal bs)) x c).toNat else bs

/-- The held writes of a moving page cover all of word `w`, so that a read of it meets no stored check bytes (R241,
R266). -/
def heldWhole (w : Nat) (s : State) : Bool :=
  match spaceOf (w * 32) with
  | .unified n => match s.moveOf n with
    | some m => (List.range 32).all fun i => (heldByte m.held (w * 32 + i)).isSome
    | none => false
  | _ => false

/-- What an access to word `w` finds: its check bytes, unless held writes replace it whole (R241, R264). -/
def State.eccNow (s : State) (w : Nat) : EccRead := if heldWhole w s then .clean else s.eccAt w

/-- A read or a partial write of word `w` meets a correctable error (R264). -/
def State.correctable (s : State) (w : Nat) : Bool :=
  match s.eccNow w with
  | .data _ _ => true
  | .check => true
  | _ => false

/-- What a read does with the words it meets: a corrected word is counted, and in the tiers written back (R265). -/
def readCorrects (s : State) (ws : List Nat) : State :=
  ws.foldl (fun s w =>
    if s.correctable w then
      let s := countCorrected w s
      match spaceOf (w * 32) with
      | .unified _ => s.correctWord w
      | _ => s
    else s) s

/-- The current contents of an address: a held write of a moving page over the frame's corrected data (R241). -/
def State.curByte (s : State) (a : Nat) : Byte :=
  match spaceOf a with
  | .unified n =>
    match s.moveOf n with
    | some m => (heldByte m.held a).getD (s.goodByte a)
    | none => s.goodByte a
  | _ => s.goodByte a

/-- Add a held item to the move of page `n` (R241). -/
def holdItem (n : Nat) (h : Held) (s : State) : State :=
  { s with grn := { s.grn with moves := s.grn.moves.map fun m =>
      if m.riser == n || m.faller == n then { m with held := m.held ++ [h] } else m } }

/-- Note an access to page `n`, for the access age (R245). -/
def touchPage (n : Nat) (s : State) : State :=
  let p := s.page n
  if p.owner.isSome then s.setPage n { p with ageMs := s.now / 1000000 } else s

/-! ### Sluices -/

/-- The share in force at a stage for a partition (R423, R425): kinds 0 pile, 1 tier 2, 2 fabric, 3 host link. -/
def State.share (s : State) (kind p : Nat) : Word :=
  Tab.get (fun _ => 0x8000000000000000#64) s.sched.sluice.shares (kind * 16 + p)

/-- The kind of a stage: piles 0 to 7, tier 2 at 8, fabric halves at 9 and 10, host link at 11. -/
def stageKind (st : Nat) : Nat := if st < 8 then 0 else if st = 8 then 1 else if st < 11 then 2 else 3

/-- The capacity of a stage in units of 256 bytes per window (R423; R433 for the host link as trained). -/
def stageCap (st : Nat) (s : State) : Nat :=
  if st < 8 then 8007 else if st = 8 then 3125 else if st < 11 then 23437
  else 250 * (if s.rf .HL_STAT 9 8 = 2 then 1 else 2) * s.rf .HL_STAT 3 0 / 16

/-- Bytes of partition `p` served at a stage in this window. -/
def State.served (s : State) (st p : Nat) : Nat := Tab.get (fun _ => 0) s.sched.sluice.served (st * 16 + p)

/-- Bytes of every partition served at a stage in this window. -/
def State.servedAll (s : State) (st : Nat) : Nat := (List.range 16).foldl (fun n p => n + s.served st p) 0

/-- The class in which a stage serves a request of partition `p` now: 1 partition 0 within its share, 2 another
partition within its share, 3 past the share with BORROW; none past a share that may not borrow (R424). A share of 0
with BORROW = 0 counts as BORROW = 1. -/
def sluiceClass (st p : Nat) (s : State) : Option Nat :=
  let sh := s.share (stageKind st) p
  let units := fld sh 15 0
  if s.served st p < units * 256 then some (if p = 0 then 1 else 2)
  else if bit sh 63 || (units == 0) then some 3 else none

/-- The access that a unit asks for: of a tile, with the core's pc and launch. -/
def asking (w : Who) (a : Nat) (s : State) : Asking :=
  if w.kind = 1 then ⟨w, a, (s.core w.unit).pc, (s.tile w.unit).launch⟩ else ⟨w, a, 0, none⟩

/-- The access is still asked for: its core runs, at the same pc of the same launch. -/
def stillAsked (x : Asking) (s : State) : Bool :=
  x == asking x.who x.addr s && (x.who.kind != 1 || (s.tile x.who.unit).run == .running)

/-- A request held for partition `q` goes before one of partition `p` of class `c`: it is of an earlier class, or of the
same one and its partition's turn comes sooner (R424). -/
def sluiceBefore (st p c q : Nat) (s : State) : Bool :=
  let last := Tab.get (fun _ => 15) s.sched.sluice.turn (st * 4 + c)
  match sluiceClass st q s with
  | some d => decide (d < c) || (d == c && decide ((q + 31 - last) % 16 < (p + 31 - last) % 16))
  | none => false

/-- A request of partition `p` may be served now: the window has room, the partition is below its share or may borrow,
and no request that waits at the stage goes before it (R27, R424). -/
def sluiceOpen (st p : Nat) (s : State) : Bool :=
  match sluiceClass st p s with
  | none => false
  | some c =>
    decide (s.servedAll st < stageCap st s * 256) && s.sched.sluice.wait.all fun x =>
      x.1 != st || !stillAsked x.2 s || (match x.2.who.part with
        | some q => !sluiceBefore st p c q s
        | none => true)

def modSluice (f : Sluice → Sluice) (s : State) : State :=
  { s with sched := { s.sched with sluice := f s.sched.sluice } }

/-- Charge a request in full to the window that serves it (R424). -/
def sluiceCharge (st p len : Nat) (s : State) : State :=
  modSluice (fun x => { x with
    served := Tab.set (fun _ => 0) x.served (st * 16 + p) (s.served st p + len)
    turn := match sluiceClass st p s with
      | some c => Tab.set (fun _ => 15) x.turn (st * 4 + c) p
      | none => x.turn }) s

/-- Note that a request of the partition was held in this window (R424). -/
def sluiceHeld (st p : Nat) (s : State) : State :=
  modSluice (fun x => { x with heldF := Tab.set (fun _ => false) x.heldF (st * 16 + p) true }) s

/-- A core's request is held at a stage, and keeps its place (R424). -/
def sluiceWait (st p : Nat) (w : Who) (a : Nat) (s : State) : State :=
  modSluice (fun x => { x with
    wait := (x.wait.filter fun y => y.2.who != w) ++ [(st, asking w a s)] }) (sluiceHeld st p s)

/-- A core's request has been served. -/
def sluiceServed (w : Who) (s : State) : State :=
  modSluice (fun x => { x with wait := x.wait.filter fun y => y.2.who != w }) s

/-! ### The checks of an access -/

/-- Why an access to memory is not performed (R87, R102, R266). -/
inductive MemErr where
  | address | access | permission | uncorr
  deriving DecidableEq, Repr

/-- Partition `p` (or the device itself, for none) may reach `len` bytes at `a`: the first failing check in the order
address, access, permission (R11, R13, R87, R102, R401). The access lies in one space because it does not straddle an
aligned unit. Control registers and the fabric window are not reached this way. -/
def addrCheck (part : Option Nat) (a : Nat) (s : State) : Option MemErr :=
  match spaceOf a with
  | .unified n => match part with
    | none => none
    | some p => if (s.page n).owner == some p then none else some .permission
  | .tile t o =>
    if !s.enabled t then some .address else
    match part with
    | none => none
    | some p => if s.holdsStore p t o then none else some .permission
  | .hamlet h o => match part with
    | none => none
    | some p => if s.holdsSegment p h (o / 0x100000) then none else some .permission
  | .control _ => some .access
  | .fabric _ _ => some .access
  | .unassigned => some .address

/-- The check of every byte of a longer access: its first failing check. -/
def rangeCheck (part : Option Nat) (a len : Nat) (s : State) : Option MemErr :=
  match addrCheck part a s with
  | some e => some e
  | none =>
    ((List.range (len / 32 + 1)).findSome? fun i =>
      let b := if (i + 1) * 32 ≤ len then a + (i + 1) * 32 - 1 else a + len - 1
      if len = 0 then none else addrCheck part b s)

/-- The outcome of an access: performed, waiting, or not performed and why. -/
inductive Acc (α : Type) where
  | ok (a : α) (s : State)
  | wait (s : State)
  | err (e : MemErr) (s : State)

/-- The sticky record of an access error: ADDRESS_FAULT (R11), ACCESS_FAULT (R13) or MEM_UNCORR with the word's address
(R266); a permission refusal leaves none here. -/
def memErrRecord (e : MemErr) (w : Who) (a aux : Nat) (s : State) : State :=
  match e with
  | .address => errRecord 0x020 w a 0 s
  | .access => errRecord 0x021 w a 0 s
  | .permission => s
  | .uncorr => errRecord 0x001 w (a / 32 * 32) aux s

/-- The tier-2 link whose stripe holds an address (R233). -/
def t2Link (a : Nat) : Nat := a / 2048 % 8

/-- The tier-2 links that have lost alignment and that an access needs: those of its stripes in tier-2 frames (R233,
R267). -/
def t2Needs (a len : Nat) (s : State) : List Nat :=
  (((List.range ((a + len - 1) / 2048 - a / 2048 + 1)).map fun i => (a / 2048 + i) * 2048).filter fun b =>
    (match spaceOf b with
      | .unified n => !(s.page n).inTier1
      | _ => false) && s.grn.t2down.contains (t2Link b)).map t2Link

/-- What a tier-2 access meets: it may go on, it waits for its link, or its 100 µs have passed (R267). -/
inductive T2Gate where
  | go | wait | expired
  deriving DecidableEq, Repr

def t2Gate (w : Who) (a len : Nat) (s : State) : T2Gate :=
  if s.grn.t2wait.any fun x => x.ask == asking w a s && x.expired then .expired
  else if (t2Needs a len s).isEmpty then .go else .wait

/-- Note that an access waits for its tier-2 links (R267). -/
def t2Wait (w : Who) (a len : Nat) (s : State) : State :=
  let k := asking w a s
  { s with grn := { s.grn with t2wait := s.grn.t2wait ++ ((t2Needs a len s).eraseDups.filter fun l =>
      !(s.grn.t2wait.any fun x => x.ask == k && x.link == l)).map fun l => ⟨k, l, s.now, false⟩ } }

/-- The access has been served or refused: it waits no longer. -/
def t2Done (w : Who) (s : State) : State :=
  { s with grn := { s.grn with t2wait := s.grn.t2wait.filter fun x => x.ask.who != w } }

/-- The Sluice stage that serves an address of the unified range. -/
def stageOf (n : Nat) (s : State) : Nat := let p := s.page n; if p.inTier1 then p.pile else 8

/-- The gates of the unified range: the tier-2 links, then the Sluice stage (R267, R424). `none`: go on. -/
def tierGate (w : Who) (a len : Nat) (s : State) : Option (Acc Unit) :=
  match spaceOf a with
  | .unified n =>
    match t2Gate w a len s with
    | .wait => some (.wait (t2Wait w a len s))
    | .expired => some (.err .uncorr (t2Done w s))
    | .go => match w.part with
      | some p => if sluiceOpen (stageOf n s) p s then none else some (.wait (sluiceWait (stageOf n s) p w a s))
      | none => none
  | _ => none

/-- An access wakes the dormant domain that holds its memory (15_power_reset_configuration.md R454, R457). -/
def wakeFor (a : Nat) (s : State) : State :=
  match spaceOf a with
  | .unified n => let st := stageOf n s; wakeDom (if st < 4 then 46 else 47) s
  | .tile t _ => wakeTile t s
  | .hamlet h _ => wakeDom (domHamlet h) s
  | _ => s

/-- Charge an access to its Sluice stage and note the page's use. -/
def tierCharge (w : Who) (a len : Nat) (s : State) : State :=
  let s := wakeFor a s
  match spaceOf a with
  | .unified n =>
    let s := t2Done w (touchPage n s)
    match w.part with
    | some p => sluiceCharge (stageOf n s) p len (sluiceServed w s)
    | none => s
  | _ => s

/-- The words of an access that cannot be corrected (R264). -/
def badWords (a len : Nat) (s : State) : List Nat := (wordsOf a len).filter fun w => s.eccNow w == .uncorrectable

/-- The reads in the tiers that met uncorrectable words are counted (R268). -/
def countUncorr (a : Nat) (s : State) : State :=
  match spaceOf a with
  | .unified _ => s.count .GRN_CNT_ECC 31 16
  | _ => s

/-- The data of an access (R6, R241). -/
def bytesAt (a len : Nat) (s : State) : List Byte := (List.range len).map fun i => s.curByte (a + i)

/-- A held atomic or update of a moving page covers a word of an access, which then waits for the switch (R241). -/
def heldOver (a len : Nat) (s : State) : Bool :=
  match spaceOf a with
  | .unified n => (match s.moveOf n with | some m => heldAtomicAt m.held a len | none => false)
  | _ => false

/-- A read of `len` bytes at `a` (R87, R264 to R267). `aux` is the consumer's status in an error record. -/
def readMem (w : Who) (a len aux : Nat) (s : State) : Acc (List Byte) :=
  match rangeCheck w.part a len s with
  | some e => .err e (memErrRecord e w a aux s)
  | none =>
    match tierGate w a len s with
    | some (.wait s') => .wait s'
    | some (.err e s') => .err e (memErrRecord e w a aux s')
    | some (.ok _ s') => .wait s'
    | none =>
      if heldOver a len s then .wait s
      else match badWords a len s with
        | b :: _ => .err .uncorr (memErrRecord .uncorr w (b * 32) aux (countUncorr a s))
        | [] =>
          let data := bytesAt a len s
          .ok data (tierCharge w a len (readCorrects s (wordsOf a len)))

/-! ### Writes -/

/-- Words that a write covers only in part. -/
def partialWords (a len : Nat) : List Nat :=
  (wordsOf a len).filter fun w => decide (w * 32 < a ∨ a + len < w * 32 + 32)

/-- Words that a write replaces. -/
def wholeWords (a len : Nat) : List Nat :=
  (wordsOf a len).filter fun w => !decide (w * 32 < a ∨ a + len < w * 32 + 32)

/-- Store bytes: a partly written word that holds a correctable error is corrected and counted first, a wholly written
word gets new check bytes (R265, R266). -/
def storeBytes (a : Nat) (data : List Byte) (s : State) : State :=
  let s := (partialWords a data.length).foldl (fun s w =>
    if s.correctable w then (countCorrected w s).correctWord w else s) s
  let s := (wholeWords a data.length).foldl (fun s w => s.eccClean w) s
  s.setBytes a data

/-- What an engine reads: what the page holds once everything held for it has been applied in order. A read that a held
atomic or update covers is served after the switch (R241; notes/assumptions/156.md). -/
def State.devByte (s : State) (a : Nat) : Byte :=
  match spaceOf a with
  | .unified n => match s.moveOf n with
    | some m =>
      let b := a / 8 * 8
      (m.held.foldl (heldOnce b) ((List.range 8).map fun i => s.goodByte (b + i))).getD (a % 8) 0
    | none => s.goodByte a
  | _ => s.goodByte a

/-- Store a piece, or hold it while its page moves, as a write or as an update (R241, R275). -/
def storeHeld (update : Bool) (a : Nat) (d : List Byte) (s : State) : State :=
  match spaceOf a with
  | .unified n =>
    if (s.page n).moving then holdItem n (if update then .update a d else .bytes a d) s else storeBytes a d s
  | _ => storeBytes a d s

/-- Set bit `n % 8` of the byte at `b` of a dirty-page bitmap, an atomic OR: held while the bitmap's own page moves; no
byte of an uncorrectable word is written, and partition `p`'s record names it (R241, R266, R428). -/
def orDirty (p n b : Nat) (s : State) : State :=
  if s.eccNow (b / 32) == .uncorrectable then memErrRecord .uncorr ⟨0, 0, some p⟩ b 0 s
  else storeHeld false b [s.devByte b ||| BitVec.ofNat 8 (2 ^ (n % 8))] s

/-- Set the dirty bit of a page of partition `p` before a write to it (R428). A write to the bitmap itself sets no
bit. -/
def dirtyLog (a : Nat) (s : State) : State :=
  match spaceOf a with
  | .unified n =>
    match (s.page n).owner with
    | some p =>
      let base := s.rf .PART_P_DLOG 51 6 p * 64
      if s.rb .PART_P_DLOG 63 p && !decide (base ≤ a ∧ a < base + 3932160) then orDirty p n (base + n / 8) s else s
    | none => s
  | _ => s

/-- One write request (R241, R266, R428): refused whole if it covers part of an uncorrectable word; held while its page
moves. -/
def writeMem (w : Who) (a : Nat) (data : List Byte) (aux : Nat) (s : State) : Acc Unit :=
  match rangeCheck w.part a data.length s with
  | some e => .err e (memErrRecord e w a aux s)
  | none =>
    match tierGate w a data.length s with
    | some (.wait s') => .wait s'
    | some (.err e s') => .err e (memErrRecord e w a aux s')
    | some (.ok _ s') => .wait s'
    | none =>
      match (partialWords a data.length).filter fun x => s.eccNow x == .uncorrectable with
      | b :: _ => .err .uncorr (memErrRecord .uncorr w (b * 32) aux s)
      | [] =>
        let s := tierCharge w a data.length (dirtyLog a s)
        match spaceOf a with
        | .unified n => if (s.page n).moving then .ok () (holdItem n (.bytes a data) s) else .ok () (storeBytes a data s)
        | _ => .ok () (storeBytes a data s)

/-! ### Accesses of the engines -/

/-- An engine's access to a tier-2 link that has lost alignment waits, or has waited out its 100 µs: an open value says
which (R267; notes/assumptions/27.md). True: it is lost. -/
def t2Lost (a len : Nat) (s : State) : Bool × State :=
  if (t2Needs a len s).isEmpty then (false, s) else (bit s.open 0, s.used)

/-- The pieces of `len` bytes at `a` that lie in one page each. -/
def pagePieces : Nat → Nat → Nat → List (Nat × Nat)
  | 0, a, len => [(a, len)]
  | n + 1, a, len =>
    let k := 65536 - a % 65536
    if len ≤ k then [(a, len)] else (a, k) :: pagePieces n (a + k) (len - k)

/-- A read by an engine, a port, a DMA channel or another unit of the device: it waits for its Sluice stage as long as
it must, so only its outcome is modelled. -/
def devRead (w : Who) (a len aux : Nat) (s : State) : Except MemErr (List Byte) × State :=
  if len = 0 then (.ok [], s) else
  match rangeCheck w.part a len s with
  | some e => (.error e, memErrRecord e w a aux s)
  | none =>
    let l := t2Lost a len s
    if l.1 then (.error .uncorr, memErrRecord .uncorr w a aux l.2)
    else match badWords a len l.2 with
      | b :: _ => (.error .uncorr, memErrRecord .uncorr w (b * 32) aux (countUncorr a l.2))
      | [] =>
        let data := (List.range len).map fun i => l.2.devByte (a + i)
        (.ok data, (pagePieces (len / 65536 + 1) a len).foldl (fun s p => tierCharge w p.1 p.2 s)
          (readCorrects l.2 (wordsOf a len)))

/-- The pieces of a write that lie in one page each. -/
def pageSplit : Nat → Nat → List Byte → List (Nat × List Byte)
  | 0, a, d => [(a, d)]
  | n + 1, a, d =>
    let k := 65536 - a % 65536
    if d.length ≤ k then [(a, d)] else (a, d.take k) :: pageSplit n (a + k) (d.drop k)

/-- One request of an engine that writes (R266): refused whole, or performed; each page that it writes takes its dirty
bit (R428). -/
def devPut (update : Bool) (w : Who) (a : Nat) (data : List Byte) (aux : Nat) (s : State) : Option MemErr × State :=
  if data.isEmpty then (none, s) else
  match rangeCheck w.part a data.length s with
  | some e => (some e, memErrRecord e w a aux s)
  | none =>
    let l := t2Lost a data.length s
    if l.1 then (some .uncorr, memErrRecord .uncorr w a aux l.2)
    else match (partialWords a data.length).filter fun x => l.2.eccNow x == .uncorrectable with
      | b :: _ => (some .uncorr, memErrRecord .uncorr w (b * 32) aux l.2)
      | [] =>
        (none, (pageSplit (data.length / 65536 + 1) a data).foldl
          (fun s p => storeHeld update p.1 p.2 (tierCharge w p.1 p.2.length (dirtyLog p.1 s))) l.2)

/-- A write of an engine. -/
def devWrite (w : Who) (a : Nat) (data : List Byte) (aux : Nat) (s : State) : Option MemErr × State :=
  devPut false w a data aux s

/-- An update of a pile engine (R275). -/
def devUpdate (w : Who) (a : Nat) (data : List Byte) (aux : Nat) (s : State) : Option MemErr × State :=
  devPut true w a data aux s

end Sys2Proof.Machine
end

