-- ==== Sys2Proof/Machine/Ledger.lean ====
section
/-! DEFINITION. The slot ledger (06_fronthaul_and_slots.md R204, R205): which slots are live, and how an event sets
bits in their records. -/

namespace Sys2Proof.Machine

open Sys2Proof

/-- The bits of word 1 of a ledger record (R204). -/
def ledFault : Nat := 9
def ledPlan : Nat := 8
def ledNoSync : Nat := 7
def ledLink : Nat := 6
def ledNackLate : Nat := 5
def ledRxMissing : Nat := 4
def ledTxExpired : Nat := 3
def ledTxFallback : Nat := 2
def ledMiss : Nat := 1
def ledValid : Nat := 0

/-- FH_LEDGER_CFG.DEPTH_LOG2, clamped to 4 to 10 (R208). -/
def ledDepth (s : State) : Nat := min 10 (max 4 (s.rf .FH_LEDGER_CFG 3 0))

/-- The address of the record of slot `n` of cell `c` (R204). -/
def ledAddr (c : Nat) (n : Int) (s : State) : Nat :=
  s.rf .FH_LEDGER_BASE 51 4 * 16 + (c * 2 ^ ledDepth s + wrap (ledDepth s) n) * 16

/-- The record as it stands, or the one the device rewrites when it does not hold the slot: SLOT_NS and VALID alone
(R204). -/
def ledWord1 (c : Nat) (n : Int) (ns : Nat) (s : State) : Word :=
  let a := ledAddr c n s
  let w0 := leVal (bytesAt a 8 s)
  let w1 := BitVec.ofNat 64 (leVal (bytesAt (a + 8) 8 s))
  if w0 = ns && bit w1 ledValid then w1 else place 0 0 1

/-- MISS is the OR of bits 2 to 5 (R204). -/
def ledWithMiss (w : Word) : Word := if fld w 5 2 ≠ 0 then setBit w ledMiss else w

/-- One atomic update of the record of slot `n` of cell `c`: bits to set, and counters to raise (R204). An update that
sets a bit of MISS shows in FH_LEDGER_SUM and FH_EVT.MISS. -/
def ledgerUpdate (c : Nat) (n : Int) (ns : Nat) (f : Word → Word) (s : State) : State :=
  if !s.rb .FH_LEDGER_CFG 63 then s else
  let w1 := ledWithMiss (f (ledWord1 c n ns s))
  let s := if fld (f 0) 5 2 ≠ 0 then (s.flag .FH_LEDGER_SUM (c % 64) (c / 64)).flag .FH_EVT 0 else s
  (devWrite (whoUnit 10 0 0) (ledAddr c n s) (leBytes 8 ns ++ leBytes 8 w1.toNat) 0 s).2

/-- Set bits in the record of a slot. -/
def ledgerBits (c : Nat) (n : Int) (ns : Nat) (bits : List Nat) (s : State) : State :=
  ledgerUpdate c n ns (fun w => bits.foldl setBit w) s

/-- An event marks the live slots that it touches (R205). -/
def ledgerLive (touches : Live → Bool) (bits : List Nat) (s : State) : State :=
  (s.fh.live.filter touches).foldl (fun s l => ledgerBits l.cell l.slot l.ns bits s) s

/-- A partition-0 fault marks every live slot (R205). -/
def faultLive (s : State) : State := ledgerLive (fun _ => true) [ledFault] s

/-- A partition-0 plan violation marks every live slot (R205). -/
def planLive (s : State) : State := ledgerLive (fun _ => true) [ledPlan] s

/-- A fault of partition `p`: it marks the live slots when `p` is a radio partition 0 (R205, R400). -/
def faultOf (p : Option Nat) (s : State) : State := if p == some 0 then faultLive s else s

/-- A port event marks the live slots of the cells on that port (R205). -/
def portLive (port : Nat) (bits : List Nat) (s : State) : State := ledgerLive (fun l => l.port == port) bits s

end Sys2Proof.Machine
end

