-- ==== Sys2Proof/Machine/Time.lean ====
section
/-! DEFINITION. The timebase: rate, slew, steps, lock states, frequency source, 1PPS and timestamps
(02_timebase_and_bells.md R42 to R63), and the reference tick. -/

namespace Sys2Proof.Machine

open Sys2Proof

/-! ### Rate and slew -/

/-- Change the effective rate with the rebasing of R43, so that device time does not jump. -/
def Timebase.setEff (t : Timebase) (e : Int) : Timebase :=
  { t with offset := t.offset + (t.ticks : Int) * (t.eff - e), eff := e }

/-- The effective rate that the remainder asks for (R48). -/
def Timebase.wantEff (t : Timebase) : Int :=
  if t.rem = 0 then t.rate else if 0 < t.rem then t.rate + t.slewMax else t.rate - t.slewMax

/-- The counter's advance on one tick, with the slew's progress: a whole tick's correction, or on the final tick only
what remains (R48, R49). -/
def Timebase.advance (t : Timebase) : Timebase :=
  if t.rem = 0 then { t with ticks := t.ticks + 1 }
  else if t.slewMax < t.rem.natAbs then
    { t with ticks := t.ticks + 1, rem := if 0 < t.rem then t.rem - t.slewMax else t.rem + t.slewMax }
  else
    let u := t.setEff t.rate
    { u with ticks := u.ticks + 1, offset := u.offset + u.rem, rem := 0 }

/-- The slew ends on the next tick (R48). -/
def Timebase.ending (t : Timebase) : Bool := t.rem != 0 && decide (t.rem.natAbs ≤ t.slewMax)

/-- TB_RATE and TB_SLEW_MAX writes take effect on a tick, with rebasing (R47, R50). -/
def takeRates (s : State) : Timebase :=
  let t := s.tb
  let t := if t.ratePend then { t with rate := s.rf .TB_RATE 31 0 |> signed 32, ratePend := false } else t
  let t := if t.slewPend then { t with slewMax := s.rf .TB_SLEW_MAX 27 0, slewPend := false } else t
  t.setEff t.wantEff

/-! ### Lock states (R52) -/

/-- The code of a lock state. -/
def LockState.code : LockState → Nat
  | .freerun => 0
  | .acquiring => 1
  | .locked => 2
  | .holdover => 3

/-- SYNC_OK: LOCKED or HOLDOVER (R53). -/
def State.syncOk (s : State) : Bool := s.tb.lock == .locked || s.tb.lock == .holdover

/-- Move the lock state: STATE_CHG is set when it takes a different value, LOCK_RUN is 0 in FREERUN, and HOLD_AGE_MS
counts from the entry to HOLDOVER (R52). Losing SYNC_OK marks the live slots (R205). -/
def setLock (l : LockState) (s : State) : State :=
  if s.tb.lock = l then s else
  let was := s.syncOk
  let s := { s with tb := { s.tb with
      lock := l
      lockRun := if l = LockState.freerun then 0 else s.tb.lockRun
      holdAt := if l = LockState.holdover then s.tb.ticks else s.tb.holdAt } }
  let s := s.flag .TB_EVT 0
  if was && !s.syncOk then ledgerLive (fun _ => true) [ledNoSync, ledFault] s else s

/-- LOCK_THR, UNLOCK_THR and LOCK_N (R52, R62). -/
def lockThr (s : State) : Nat := s.rf .TB_LOCK_CFG 19 0 * 65536

def unlockThr (s : State) : Nat := s.rf .TB_LOCK_CFG 39 20 * 65536

def lockN (s : State) : Nat := max 1 (s.rf .TB_LOCK_CFG 47 40)

/-- HOLD_TO_MS as reference ticks (R52). -/
def holdTicks (s : State) : Nat := max 1 (s.rf .TB_LOCK_CFG 63 48) * 125000

/-- The run count after a TB_ADJ write (R52). -/
def lockRunAfter (mag : Nat) (s : State) : Nat :=
  if s.tb.lock = .freerun then 0 else if mag ≤ lockThr s then min 255 (s.tb.lockRun + 1) else 0

/-- The state after a TB_ADJ write of a magnitude, given the run count it leaves (R52). -/
def lockAfter (mag run : Nat) (s : State) : LockState :=
  match s.tb.lock with
  | .freerun => .freerun
  | .acquiring => if mag ≤ lockThr s && lockN s ≤ run then .locked else .acquiring
  | .locked => if unlockThr s < mag then .acquiring else .locked
  | .holdover => if mag ≤ lockThr s then .locked else .acquiring

/-! ### Register writes and events of the timebase -/

/-- TB_SNAP (R45): device time and the counter, from one reference tick. -/
def tbSnap (v : Word) (s : State) : State :=
  if bit v 0 then
    (((s.setReg .TB_SNAP_SEC (BitVec.ofInt 64 s.tb.sec)).setReg .TB_SNAP_NS
      (place 45 16 s.tb.nsec ||| place 15 0 s.tb.subns)).setReg .TB_SNAP_CNT (BitVec.ofNat 64 (s.tb.ticks * 8))).setReg
      .TB_SNAP_CNTF 0
  else s

/-- The bound of R47 and R50: 200 ppm in units of 2^-40. -/
def ppm200 : Nat := 219902326

/-- TB_RATE (R47). -/
def tbRateWrite (v : Word) (s : State) : State :=
  if (sfld v 31 0).natAbs ≤ ppm200 then
    let s := s.writePlain .TB_RATE v
    { s with tb := { s.tb with ratePend := true } }
  else s.flag .TB_EVT 3

/-- TB_ADJ (R49, R52): the remainder is replaced, fraction bits included. -/
def tbAdjWrite (v : Word) (s : State) : State :=
  let a := sfld v 47 0
  let s := s.flagIf (s.tb.rem != 0) .TB_EVT 4
  let run := lockRunAfter a.natAbs s
  let l := lockAfter a.natAbs run s
  let t := { s.tb with rem := a * 2 ^ 21, lastAdj := s.tb.ticks, lockRun := run }
  setLock l { s with tb := t.setEff t.wantEff }

/-- TB_SLEW_MAX, its field clamped (R50). That a write of 0, which is treated as 1, reads back as 1 is the model's choice
(notes/assumptions/146.md). -/
def tbSlewMaxWrite (v : Word) (s : State) : State :=
  let s := s.setReg .TB_SLEW_MAX (BitVec.ofNat 64 (min ppm200 (max 1 (fld v 27 0))))
  { s with tb := { s.tb with slewPend := true } }

/-- TB_STEP_GO (R51). -/
def tbStepGo (v : Word) (s : State) : State :=
  if bit v 0 then { s with tb := { s.tb with stepGo := true } } else s

/-- Bell `n` of Belfry `h` is armed. -/
def bellArmed (s : State) (h n : Nat) : Bool := s.rb .BELL_CTL 2 h n

/-- The bells of the device: the Belfries of hamlets 0 to 7, and the device bells as Belfry 8. -/
def allBells : List (Nat × Nat) := (List.range 9).flatMap fun h => (List.range 64).map fun n => (h, n)

/-- Some bell owned by partition 0 is armed (R51). -/
def radioBellArmed (s : State) : Bool :=
  allBells.any fun b => bellArmed s b.1 b.2 && s.rb .BELL_CTL 12 b.1 b.2 && s.rf .BELL_CTL 19 16 b.1 b.2 == 0

/-- The amount of a step, in units of 2^-37 ns (R51, R62). -/
def stepAmount (s : State) : Int :=
  let v := s.reg .TB_STEP_NS
  let m : Int := (fld v 45 16 : Int) * 2 ^ 37 + (fld v 15 0 : Int) * 2 ^ 21
  signed 64 (s.reg .TB_STEP_SEC).toNat * (1000000000 * 2 ^ 37) + (if bit v 63 then -m else m)

/-- Bells whose fire times a forward step passes will fire as LATE (R72). -/
def markStepped (before after : Nat) (s : State) : State :=
  allBells.foldl (fun s b =>
    let ft := (s.reg .BELL_TIME b.1 b.2).toNat
    if bellArmed s b.1 b.2 && decide (before < ft ∧ ft ≤ after) then
      { s with bellStep := Tab.set (fun _ => false) s.bellStep (b.1 * 64 + b.2) true }
    else s) s

/-- A step ends the slew and moves device time by an amount (R51). -/
def Timebase.stepBy (t : Timebase) (x : Int) : Timebase :=
  let u := { t with rem := 0 }.setEff t.rate
  { u with offset := u.offset + x }

/-- A step that is taken: bells that it passes will be late (R51, R72). -/
def stepTaken (s : State) : State :=
  let s' := { s with tb := s.tb.stepBy (stepAmount s) }
  (markStepped s.now s'.now s').flag .TB_EVT 1

/-- A step may be taken now (R51). -/
def stepAllowed (s : State) : Bool :=
  (s.tb.lock == .freerun || s.tb.lock == .acquiring) && (!s.rb .TB_CTL 8 || !radioBellArmed s)

/-- The evaluation of a step on the tick after TB_STEP_GO (R51). -/
def stepEval (s : State) : State :=
  let s := { s with tb := { s.tb with stepGo := false } }
  if stepAllowed s then stepTaken s else s.flag .TB_EVT 2

/-- One 125 MHz reference tick: the counter advances by 8 ns, the slew goes on or ends, rates written take effect, and a
step that was asked for is evaluated (R19, R47 to R51). -/
def refTick (s : State) : State :=
  let s := { s with tb := s.tb.advance }
  let s := { s with tb := takeRates s }
  if s.tb.stepGo then stepEval s else s

/-- TB_CTL (R52): STEP_GUARD, and a mode request when MODE_WE is 1. -/
def tbCtlWrite (v : Word) (s : State) : State :=
  let s := s.writePlain .TB_CTL v
  if !bit v 2 then s else
  match fld v 1 0 with
  | 0 => setLock .freerun s
  | 1 => if s.tb.lock = .freerun then setLock .acquiring s else s
  | 3 => if s.tb.lock = .locked then setLock .holdover s else s
  | _ => s

/-- The value of a TB_CTL write that makes a mode request. -/
def modeRequest (guard : Bool) (mode : Nat) : Word := place 8 8 guard.toNat ||| place 2 2 1 ||| place 1 0 mode

/-- No TB_ADJ write for HOLD_TO_MS in LOCKED (R52). -/
def holdTimeout (s : State) : State :=
  if s.tb.lock = .locked ∧ holdTicks s ≤ s.tb.ticks - s.tb.lastAdj then setLock .holdover s else s

/-- The source that TB_FSRC.SEL selects; 3 counts as the oscillator (R57, R62). -/
def fsrcSel (s : State) : Nat := if s.rf .TB_FSRC 1 0 = 3 then 0 else s.rf .TB_FSRC 1 0

/-- The signal that TB_FSRC selects: the source, and for SyncE the port that it is recovered from (R57). -/
def fsrcSignal (s : State) : Nat × Nat := (fsrcSel s, if fsrcSel s = 1 then s.rf .TB_FSRC 11 8 else 0)

/-- The selected frequency signal is lost: the PLL holds (R57). -/
def fsrcLoss (s : State) : State :=
  let s := ((s.putReg .TB_FSRC 17 16 3).flag .TB_FSRC 4).flag .TB_EVT 6
  { s with tb := { s.tb with fsrcHeld := true, fsrcAt := s.tb.ticks } }

/-- The PLL locks to the selected signal, which is present. -/
def fsrcFollow (s : State) : State :=
  let s := (s.putReg .TB_FSRC 17 16 (fsrcSel s)).unflag .TB_FSRC 4
  { s with tb := { s.tb with fsrcHeld := false } }

/-- The signal has been valid for 1 s without a break, which began at the earliest at the last loss: the PLL relocks
(R57). -/
def fsrcRelock (s : State) : State :=
  if s.tb.fsrcHeld && decide (s.tb.fsrcAt + 125000000 ≤ s.tb.ticks) then fsrcFollow s else s

/-- A write of TB_FSRC: a new selection ends a hold, and the PLL locks to the selected signal, present until FSRC_LOSS
says otherwise (R57; notes/assumptions/147.md). -/
def tbFsrcWrite (v : Word) (s : State) : State :=
  let u := s.writePlain .TB_FSRC v
  if s.tb.fsrcHeld && fsrcSignal u == fsrcSignal s then u else fsrcFollow u

/-- The value of TB_FSRC: while the frequency is held after a loss, whether the signal is absent still is an open value
(R62; notes/assumptions/147.md). -/
def tbFsrc (s : State) : Word :=
  let v := s.reg .TB_FSRC
  if s.tb.fsrcHeld && s.tb.fsrcAt != s.tb.ticks then
    (v &&& ~~~ fmask 4 4) ||| place 4 4 (fld (Config.freeWord s.free) 0 0)
  else v

/-- How long ago the latest instant of a 1PPS output edge was, in units of 2^-37 ns: whole seconds of device time plus
OFFSET, which is in units of 0.25 ns (R58). -/
def ppsAge (s : State) : Int := (s.tb.now - sfld (s.reg .TB_PPSO_CTL) 63 32 * 2 ^ 35) % (1000000000 * 2 ^ 37)

/-- What device time advances by on one reference tick, in units of 2^-37 ns (R19, R48). -/
def tickSpan (s : State) : Int := 8 * 2 ^ 37 + s.tb.eff

/-- An instant of the 1PPS output lies in this reference tick, and its edge has not been made (R58). -/
def ppsDue (s : State) : Bool := decide (ppsAge s < tickSpan s) && s.tb.ppsAt != some s.tb.ticks

/-- WIDTH_US, with 0 as 1 and at most 999,999 (R62). -/
def ppsWidth (s : State) : Nat := min 999999 (max 1 (s.rf .TB_PPSO_CTL 27 8))

/-- A 1PPS output edge, on the tick that its instant lies in, in the states that GATE enables (R58). -/
def ppsOutEdge (s : State) : State :=
  if ppsDue s && s.rb .TB_PPSO_CTL s.tb.lock.code then
    { s with tb := { s.tb with ppsAt := some s.tb.ticks, ppsEnd := some (s.now + ppsWidth s * 1000) } }.emit (.pps true)
  else s

/-- The end of the 1PPS output pulse (R62). -/
def ppsOutPulseEnd (s : State) : State :=
  match s.tb.ppsEnd with
  | some e => if e ≤ s.now then { s with tb := { s.tb with ppsEnd := none } }.emit (.pps false) else s
  | none => s

/-- A 1PPS input edge: captured less TB_PPSI_DLY, unless within 500 ms of the last accepted one (R58). -/
def ppsInEdge (s : State) : State :=
  let near := match s.tb.ppsInAt with | some k => decide (s.tb.ticks - k < 62500000) | none => false
  if near then s else
  let t := { s.tb with offset := s.tb.offset - (s.rf .TB_PPSI_DLY 31 0 : Int) * 2 ^ 21 }
  let s := (s.setReg .TB_PPSI_SEC (BitVec.ofInt 64 t.sec)).setReg .TB_PPSI_NS (place 45 16 t.nsec ||| place 15 0 t.subns)
  { s with tb := { s.tb with ppsInAt := some s.tb.ticks } }.flag .TB_EVT 5

/-! ### Timestamps (R60 to R63) -/

/-- The timestamp records held by port `p`. -/
def State.tsFifo (s : State) (p : Nat) : List (Word × Word) := Tab.get (fun _ => []) s.tb.tsFifo p

def State.setTsFifo (s : State) (p : Nat) (q : List (Word × Word)) : State :=
  { s with tb := { s.tb with tsFifo := Tab.set (fun _ => []) s.tb.tsFifo p q } }

/-- Device time corrected by a signed latency in units of 2^-16 ns: whole ns and sub-ns (R60). -/
def stamp (s : State) (lat : Int) : Nat × Nat :=
  let t := { s.tb with offset := s.tb.offset + lat * 2 ^ 21 }
  (t.ns, t.subns)

/-- Queue a timestamp record, or drop it when 64 are held (R61, R63). -/
def tsPush (p : Nat) (egress : Bool) (msg seq dom ns sub : Nat) (s : State) : State :=
  if 64 ≤ (s.tsFifo p).length then (s.count .TB_PORT_TS_STAT 47 32 p).flag .TB_EVT 7
  else
    let hi := place 63 63 1 ||| place 62 62 egress.toNat ||| place 59 56 msg ||| place 55 40 seq ||| place 39 32 dom |||
      place 15 0 sub
    s.setTsFifo p (s.tsFifo p ++ [(hi, BitVec.ofNat 64 ns)])

/-- The ingress timestamp: device time minus TB_PORT_INLAT (R60). -/
def ingressStamp (p : Nat) (s : State) : Nat × Nat := stamp s (-(s.rf .TB_PORT_INLAT 31 0 p : Int))

/-- The egress timestamp: device time plus TB_PORT_EGLAT (R60). -/
def egressStamp (p : Nat) (s : State) : Nat × Nat := stamp s (s.rf .TB_PORT_EGLAT 31 0 p : Int)

/-- A read of TB_PORT_TS_LO: the rest of the head record, which leaves the FIFO (R61). -/
def tsLoRead (p : Nat) (s : State) : State :=
  match s.tsFifo p with
  | [] => s.emit (.readData (addrOf .TB_PORT_TS_LO p 0) 0)
  | r :: q => (s.setTsFifo p q).emit (.readData (addrOf .TB_PORT_TS_LO p 0) r.2)

/-- The value of TB_PORT_TS_STAT (R62). -/
def tsStat (p : Nat) (s : State) : Word := (s.reg .TB_PORT_TS_STAT p &&& fmask 47 32) ||| place 6 0 (s.tsFifo p).length

/-- A read of TB_PORT_TS_STAT, which clears DROP (R62). -/
def tsStatRead (p : Nat) (s : State) : State :=
  (s.putReg .TB_PORT_TS_STAT 47 32 0 p).emit (.readData (addrOf .TB_PORT_TS_STAT p 0) (tsStat p s))

/-- A write of TB_PORT_PTP: one that would make a second slave port is ignored (R55). -/
def tbPortPtpWrite (p : Nat) (v : Word) (s : State) : State :=
  let other := (List.range 16).any fun q => q != p && s.rf .TB_PORT_PTP 9 8 q == 1
  if fld v 9 8 = 1 && other then s else s.writePlain .TB_PORT_PTP v p

/-- The value of TB_STATE (R52, R62). -/
def tbState (s : State) : Word :=
  let age := if s.tb.lock = .holdover then satNat 32 ((s.tb.ticks - s.tb.holdAt) / 125000) else 0
  place 63 32 age ||| place 15 8 s.tb.lockRun ||| place 4 4 (if s.tb.rem = 0 then 0 else 1) |||
    place 3 3 s.syncOk.toNat ||| place 1 0 s.tb.lock.code

/-- The value of TB_ADJ: the remainder truncated toward zero (R49). -/
def tbAdj (s : State) : Word := (BitVec.ofInt 48 (s.tb.rem.tdiv (2 ^ 21))).setWidth 64

/-! ### The commands -/

def execTbSnap (v : Word) (s : State) : Ans := .next (tbSnap v s)

def execTbRateWrite (v : Word) (s : State) : Ans := .next (tbRateWrite v s)

def execTbAdjWrite (v : Word) (s : State) : Ans := .next (tbAdjWrite v s)

def execTbSlewMaxWrite (v : Word) (s : State) : Ans := .next (tbSlewMaxWrite v s)

def execTbStepGo (v : Word) (s : State) : Ans := .next (tbStepGo v s)

def execFreerun (guard : Bool) (s : State) : Ans := .next (tbCtlWrite (modeRequest guard 0) s)

def execAcquire (guard : Bool) (s : State) : Ans := .next (tbCtlWrite (modeRequest guard 1) s)

def execHoldover (guard : Bool) (s : State) : Ans := .next (tbCtlWrite (modeRequest guard 3) s)

def execHoldTimeout (s : State) : Ans := .next (holdTimeout s)

def execFsrcLoss (s : State) : Ans := .next (fsrcLoss s)

def execFsrcRelock (s : State) : Ans := .next (fsrcRelock s)

def execPpsOutEdge (s : State) : Ans := .next (ppsOutEdge s)

def execPpsInEdge (s : State) : Ans := .next (ppsInEdge s)

def execPpsOutPulseEnd (s : State) : Ans := .next (ppsOutPulseEnd s)

def execTbPortTsLoRead (port : Fin 16) (s : State) : Ans := .next (tsLoRead port s)

def execTbPortTsStatRead (port : Fin 16) (s : State) : Ans := .next (tsStatRead port s)

end Sys2Proof.Machine
end

