-- ==== Sys2Proof/Machine/Bells.lean ====
section
/-! DEFINITION. The bells: arming, disarming, firing and period advance (02_timebase_and_bells.md R64 to R74), and ARMB
and DISB from a tile (03_tile_isa.md R101). A fired bell's action waits in `deliveries` for the command that performs
it. -/

namespace Sys2Proof.Machine

open Sys2Proof

/-- Fields of word 1 of a bell entry (R64). -/
def actLateDrop (w : Word) : Bool := bit w 63
def actCode (w : Word) : Nat := fld w 59 48
def actTarget (w : Word) : Nat := fld w 47 32
def actArg (w : Word) : Nat := fld w 31 0

/-- The actions whose TARGET is a mask index: WAKE, LAUNCH, GANG_START and EVENT (R65). -/
def maskAction (a : Nat) : Bool := a == 1 || a == 2 || a == 3 || a == 8

/-- A valid ACTION in Belfry `h`; CONFIG_ACTIVATE is valid in device bells only (R65). -/
def validAction (h a : Nat) : Bool := decide (a < 10) || (a == 10 && h == 8)

/-- TARGET is inside the range of its action (R69). -/
def targetInRange (h a tg : Nat) : Bool :=
  if maskAction a then decide (tg < (if h = 8 then 32 else 16))
  else if a = 5 ∨ a = 6 then decide (tg ≤ 15)
  else if a = 4 then decide (tg ≤ 31)
  else if a = 7 then decide (tg ≤ 255)
  else if a = 9 then decide (tg ≤ 31)
  else true

/-- Partition `p` holds the single resource that TARGET names (R69, R401): a fronthaul port serves partition 0
(R207; notes/assumptions/12.md), a DMA channel and a program slot name their owner, and a mailbox lists its senders
(R441). A mask names no single resource. -/
def holdsTarget (p a tg : Nat) (s : State) : Bool :=
  if a = 5 ∨ a = 6 then p == 0
  else if a = 4 then s.rf .PART_DMA_CTL 19 16 tg == p
  else if a = 7 then s.rb .MBX_ACL p tg
  else if a = 9 then s.rb .FAB_CP_CTL 12 tg && s.rf .FAB_CP_CTL 19 16 tg == p
  else true

/-- The first condition of R69 that refuses an arm: LAST is 5 for INVALID, 4 for DENIED. `from` is the partition of a
context that arms with ARMB. -/
def armRefusal (h n : Nat) (act : Word) (period : Nat) (from_ : Option Nat) (s : State) : Option Nat :=
  let a := actCode act
  let owner := s.rf .BELL_CTL 19 16 h n
  if !validAction h a then some 5
  else if period ≠ 0 && period < 1000 then some 5
  else if !targetInRange h a (actTarget act) then some 5
  else if !s.rb .BELL_CTL 12 h n || !holdsTarget owner a (actTarget act) s then some 4
  else match from_ with
    | some p => if p = owner then none else some 4
    | none => none

/-- Record a refusal: LAST, the count of BELL_STAT, and for DENIED the event bit (R69); a partition-0 DENIED marks the
live slots (R205). -/
def armRefused (h n last : Nat) (s : State) : State :=
  let s := s.putReg .BELL_CTL 10 8 last h n
  if last = 4 then
    let s := (s.count .BELL_STAT 31 16 h).flag .TB_EVT 9
    if s.rb .BELL_CTL 12 h n && s.rf .BELL_CTL 19 16 h n == 0 then planLive s else s
  else s.count .BELL_STAT 15 0 h

/-- Device time in ns, a part of a ns counted as a whole one: at least 16 ns lie between it and a fire time exactly when
they lie between device time and that fire time (R66). -/
def nsUp (s : State) : Nat := if s.tb.now % 2 ^ 37 = 0 then s.now else s.now + 1

/-- The bell is armed now (R66 measures ON_TIME from this instant). -/
def armNow (h n : Nat) (s : State) : State :=
  let s := s.flag .BELL_CTL 2 h n
  { s with
    bellArm := Tab.set (fun _ => 0) s.bellArm (h * 64 + n) (nsUp s)
    bellStep := Tab.set (fun _ => false) s.bellStep (h * 64 + n) false }

/-- Arm an idle bell as its entry stands (R69). -/
def armBell (h n : Nat) (s : State) : State :=
  match armRefusal h n (s.reg .BELL_ACT h n) (s.rf .BELL_PERIOD 39 0 h n) none s with
  | some last => armRefused h n last s
  | none => armNow h n s

/-- A bell becomes idle. -/
def disarmBell (h n : Nat) (s : State) : State := s.unflag .BELL_CTL 2 h n

/-! ### Firing -/

/-- Bell `n` is due: armed, with device time at or after FIRE_TIME (R66). -/
def bellDue (h n : Nat) (s : State) : Bool := bellArmed s h n && decide ((s.reg .BELL_TIME h n).toNat ≤ s.now)

/-- Another bell of the Belfry delivers before this one: an earlier FIRE_TIME, or the same and a lower number (R67). -/
def firesBefore (h m n : Nat) (s : State) : Bool :=
  let a := (s.reg .BELL_TIME h m).toNat
  let b := (s.reg .BELL_TIME h n).toNat
  bellDue h m s && (decide (a < b) || (decide (a = b) && decide (m < n)))

/-- The bell is LATE: armed less than 16 ns before FIRE_TIME, or passed by a step (R66, R72). -/
def bellLate (h n : Nat) (s : State) : Bool :=
  Tab.get (fun _ => false) s.bellStep (h * 64 + n) ||
    decide ((s.reg .BELL_TIME h n).toNat < Tab.get (fun _ => 0) s.bellArm (h * 64 + n) + 16)

/-- The tiles that mask `i` of a Belfry names (R65, R74); a disabled tile's bit is ignored (R3). -/
def bellMask (h i : Nat) (s : State) : BitVec 128 :=
  (if h = 8 then s.dmask i else ((s.reg .BELL_MASK h i).setWidth 128) <<< (16 * h)) &&& s.enabledMap

/-- The tiles of a mask that partition `p` holds; a borrowed tile is never held for bells, and partition 0 holds its
lent tiles (R69, R401). -/
def heldMask (p : Nat) (m : BitVec 128) (s : State) : BitVec 128 :=
  if s.partValid p then m &&& s.partTiles p else 0

/-- The check at the fire tick: the tiles to deliver to, whether the action is performed, and whether a target is
skipped (R69). -/
def fireTargets (h n : Nat) (s : State) : BitVec 128 × Bool × Bool :=
  let w := s.reg .BELL_ACT h n
  let p := s.rf .BELL_CTL 19 16 h n
  if maskAction (actCode w) then
    let m := bellMask h (actTarget w) s
    let k := heldMask p m s
    (k, m == 0 || k != 0, k != m)
  else
    let ok := holdsTarget p (actCode w) (actTarget w) s
    (0, ok, !ok)

/-- The FIRE_TIME of the next occurrence: whole periods added until it is later than device time (R71). -/
def nextFire (ft period now : Nat) : Nat :=
  let f := ft + period
  if f ≤ now then f + ((now - f) / period + 1) * period else f

/-- What follows a fire: a one-shot bell becomes idle; a periodic one advances, and counts REMAIN down (R71). -/
def advanceBell (h n : Nat) (s : State) : State :=
  let period := s.rf .BELL_PERIOD 39 0 h n
  let s := { s with bellStep := Tab.set (fun _ => false) s.bellStep (h * 64 + n) false }
  if period = 0 then disarmBell h n s
  else
    let s := s.setReg .BELL_TIME (BitVec.ofNat 64 (nextFire (s.reg .BELL_TIME h n).toNat period s.now)) h n
    let k := s.rf .BELL_CTL 47 32 h n
    if k = 0 then s
    else
      let s := s.putReg .BELL_CTL 47 32 (k - 1) h n
      if k = 1 then disarmBell h n s else s

/-- The record of a fire: FIRES, BELL_FIRED, LAST, the late and denied counts and the event bits (R66, R69, R74). A
partition-0 fire that is not ON_TIME marks the live slots (R205). -/
def recordFire (h n : Nat) (late dropped denied : Bool) (s : State) : State :=
  let last := if denied then 4 else if dropped then 3 else if late then 2 else 1
  let s := s.putReg .BELL_CTL 63 48 (s.rf .BELL_CTL 63 48 h n + 1) h n
  let s := (s.putReg .BELL_CTL 10 8 last h n).flag .BELL_FIRED n h
  let s := if late then (s.count .BELL_STAT 47 32 h).flag .TB_EVT 8 else s
  let s := if denied then (s.count .BELL_STAT 31 16 h).flag .TB_EVT 9 else s
  if (late || denied) && s.rf .BELL_CTL 19 16 h n == 0 then planLive s else s

/-- A bell fires: it is classed, its targets are checked, its action goes on its way, and it advances (R66, R69, R71).
The event happens only to a due bell, in the order of R67 within its Belfry. -/
def fireBell (h n : Nat) (s : State) : State :=
  if !bellDue h n s || (List.range 64).any (fun m => firesBefore h m n s) then s else
  let w := s.reg .BELL_ACT h n
  let ft := (s.reg .BELL_TIME h n).toNat
  let late := bellLate h n s
  let dropped := late && actLateDrop w
  let tg := fireTargets h n s
  let act := !dropped && tg.2.1 && actCode w != 0
  let owner := s.rf .BELL_CTL 19 16 h n
  let s' := recordFire h n late dropped (!dropped && tg.2.2) s
  let s' := if act then
      { s' with deliveries := s'.deliveries ++
          [⟨actCode w, h, n, actTarget w, actArg w, owner, tg.1, ft, s.now⟩] }
    else s'
  advanceBell h n s'

/-- The due bell of Belfry `h` that fires first (R67). -/
def nextDue (h : Nat) (s : State) : Option Nat :=
  (List.range 64).find? fun n => bellDue h n s && !(List.range 64).any fun m => firesBefore h m n s

/-- The bells of Belfry `h` that are due fire, each once, in their order (R66, R67). -/
def fireDue (h : Nat) : Nat → State → State
  | 0, s => s
  | k + 1, s => match nextDue h s with
    | some n => fireDue h k (fireBell h n s)
    | none => s

/-- A disarm: one that comes on the tick of the bell's fire takes effect after the fire, whose action is performed and
recorded (R70). -/
def disarmNow (h n : Nat) (s : State) : State := disarmBell h n (if bellDue h n s then fireDue h 64 s else s)

/-- A write of BELL_CTL (R69, R70, R74): ARM with DISARM is ignored; an armed bell takes only DISARM; an idle bell takes
OWNER, OWNER_VALID and REMAIN, and then ARM. R70 does not say whether a write to an armed bell sets OWNER_VALID, as it
says that it does not set OWNER: that it does not is the model's choice (notes/assumptions/148.md). -/
def bellCtlWrite (h n : Nat) (v : Word) (s : State) : State :=
  if bit v 0 && bit v 1 then s
  else if bellArmed s h n then if bit v 1 then disarmNow h n s else s
  else
    let s := s.writePlain .BELL_CTL v h n
    if bit v 0 then armBell h n s else s

/-- A write of an entry word or the period: ignored while the bell is armed (R70). -/
def bellWordWrite (r : RegName) (h n : Nat) (v : Word) (s : State) : State :=
  if bellArmed s h n then s else s.writePlain r v h n

/-- Delivery `e`, which a bell of the same Belfry made earlier on the same tick as `d`, goes before it (R67, R72); an
activation of a configuration version, which takes effect at the end of its tick, goes before none (R470). -/
def Delivery.before (e d : Delivery) : Bool := e.belfry == d.belfry && e.firedNs == d.firedNs && e.action != 10

/-- The oldest delivery of an action that none of its Belfry and tick goes before, and the others. `seen` are the older
ones, newest first. -/
def takeFrom (a : Nat) (seen : List Delivery) : List Delivery → Option (Delivery × List Delivery)
  | [] => none
  | d :: ds =>
    if d.action = a ∧ seen.all (fun e => !e.before d) = true then some (d, seen.reverse ++ ds) else takeFrom a (d :: seen) ds

/-- The oldest delivery of an action that may be performed, and the others. -/
def takeDelivery (a : Nat) (ds : List Delivery) : Option (Delivery × List Delivery) := takeFrom a [] ds

/-- Perform the oldest delivery of an action; with none on its way, nothing happens. -/
def withDelivery (a : Nat) (f : Delivery → State → State) (s : State) : State :=
  match takeDelivery a s.deliveries with
  | some (d, ds) => f d { s with deliveries := ds }
  | none => s

/-! ### Reads of the block by a partition (R74) -/

/-- Partition `p` owns bell `n` of Belfry `h`. -/
def ownsBell (p h n : Nat) (s : State) : Bool := s.rb .BELL_CTL 12 h n && s.rf .BELL_CTL 19 16 h n == p

/-- Partition `p` owns some bell of Belfry `h`. -/
def ownsSome (p h : Nat) (s : State) : Bool := (List.range 64).any fun n => ownsBell p h n s

/-- The status with which an access by an agent is refused: the code of PERMISSION (R102). -/
def refusePermission (s : State) : State := s.emit (.status 0x08)

/-- A read of BELL_STAT: steward firmware clears the counts, a partition that owns a bell of the Belfry reads them
(R74). -/
def bellStatRead (ag : Agent) (h : Nat) (s : State) : State :=
  match ag with
  | .steward => s.readPlain .BELL_STAT h
  | _ => match s.agentPart ag with
    | some p => if ownsSome p h s then s.peekPlain .BELL_STAT h else refusePermission s
    | none => refusePermission s

/-! ### ARMB and DISB (R101) -/

/-- The Belfry that a selector names for a tile. -/
def selBelfry (t : Nat) (sel : Word) : Nat := if bit sel 7 then 8 else t / 16

/-- ARMB: entry, period, REMAIN and arm in one operation. Answers the status: 0 DONE, 1 DENIED, 2 INVALID, 3 BUSY. -/
def armbOp (t : Nat) (part : Nat) (sel time act : Word) (s : State) : Nat × State :=
  let h := selBelfry t sel
  let n := fld sel 5 0
  if bit sel 6 then (2, s)
  else if bellArmed s h n then (3, s)
  else match armRefusal h n act (fld sel 63 24) (some part) s with
    | some 5 => (2, armRefused h n 5 s)
    | some l => (1, armRefused h n l s)
    | none =>
      let s := ((s.setReg .BELL_TIME time h n).writePlain .BELL_ACT act h n).setReg .BELL_PERIOD
        (place 39 0 (fld sel 63 24)) h n
      (0, armNow h n (s.putReg .BELL_CTL 47 32 (fld sel 23 8) h n))

/-- DISB: 0 DONE, 1 DENIED, 2 INVALID, 4 IDLE. -/
def disbOp (t : Nat) (part : Nat) (sel : Word) (s : State) : Nat × State :=
  let h := selBelfry t sel
  let n := fld sel 5 0
  if bit sel 6 then (2, s)
  else if !ownsBell part h n s then (1, s)
  else if !bellArmed s h n then (4, s)
  else (0, disarmNow h n s)

/-! ### The commands -/

/-- A steward write of BELL_CTL with ARM. -/
def execArm (h : Fin 9) (n : Fin 64) (v : Word) (s : State) : Ans := .next (bellCtlWrite h n v s)

/-- A steward write of BELL_CTL with DISARM. -/
def execDisarm (h : Fin 9) (n : Fin 64) (v : Word) (s : State) : Ans := .next (bellCtlWrite h n v s)

def execBellFire (h : Fin 9) (n : Fin 64) (s : State) : Ans := .next (fireBell h n s)

def execBellStatRead (ag : Agent) (h : Fin 9) (s : State) : Ans := .next (bellStatRead ag h s)

/-- A WAKE action wakes the quads of its tiles (R457). -/
def execWake (s : State) : Ans :=
  .next (withDelivery 1 (fun d s => (tilesOf d.mask).foldl (fun s t => wakeTile t s) s) s)

/-- An EVENT action sets its bits on each target tile (R100, R408), a dormant quad waking first (R65). -/
def execEvent (s : State) : Ans :=
  .next (withDelivery 8 (fun d s => deliverEvts d.owner (tilesOf d.mask) (BitVec.ofNat 32 d.arg) s) s)

/-- A DOORBELL action sets doorbell bits of its mailbox (R446). -/
def execDoorbell (s : State) : Ans :=
  .next (withDelivery 7 (fun d s => ringDb d.target (BitVec.ofNat 32 d.arg) s) s)

end Sys2Proof.Machine
end

