-- ==== Sys2Proof/Machine/Operands.lean ====
section
/-! DEFINITION. The register operands of a tile's core (03_tile_isa.md R78, R79, R89; 04_dsp_datapath.md R110, R116):
g0 reads 0 and p0 reads all ones, and writes to them are discarded. -/

namespace Sys2Proof.Machine

open Sys2Proof

/-- General register `i`: g0 reads 0 (R78). -/
def CoreRegs.gr (c : CoreRegs) (i : Nat) : Word := if i = 0 then 0 else Tab.get (fun _ => 0) c.g i

/-- Write a general register; a write to g0 is discarded (R78). -/
def CoreRegs.setG (c : CoreRegs) (i : Nat) (v : Word) : CoreRegs :=
  if i = 0 then c else { c with g := Tab.set (fun _ => 0) c.g i v }

/-- Vector register `i`. -/
def CoreRegs.vr (c : CoreRegs) (i : Nat) : BitVec 1024 := Tab.get (fun _ => 0) c.v i

def CoreRegs.setV (c : CoreRegs) (i : Nat) (v : BitVec 1024) : CoreRegs :=
  { c with v := Tab.set (fun _ => 0) c.v i v }

/-- Predicate `i`: p0 reads all ones (R78). -/
def CoreRegs.pr (c : CoreRegs) (i : Nat) : BitVec 128 :=
  if i = 0 then BitVec.allOnes 128 else Tab.get (fun _ => 0) c.p i

/-- Write a predicate; a write to p0 is discarded (R78). -/
def CoreRegs.setP (c : CoreRegs) (i : Nat) (v : BitVec 128) : CoreRegs :=
  if i = 0 then c else { c with p := Tab.set (fun _ => 0) c.p i v }

/-- Accumulator `i`, and its value as an 80-bit signed integer (R116). -/
def CoreRegs.ar (c : CoreRegs) (i : Nat) : BitVec 80 := Tab.get (fun _ => 0) c.a i

def CoreRegs.setA (c : CoreRegs) (i : Nat) (v : BitVec 80) : CoreRegs :=
  { c with a := Tab.set (fun _ => 0) c.a i v }

/-- DSP address register by its AR number: 0–7 xa, 8–15 ya, 16–19 ca (R114). -/
def CoreRegs.addrReg (c : CoreRegs) (i : Nat) : BitVec 32 :=
  if i < 8 then Tab.get (fun _ => 0) c.xa i else if i < 16 then Tab.get (fun _ => 0) c.ya (i - 8)
  else Tab.get (fun _ => 0) c.ca (i - 16)

def CoreRegs.setAddrReg (c : CoreRegs) (i : Nat) (v : BitVec 32) : CoreRegs :=
  if i < 8 then { c with xa := Tab.set (fun _ => 0) c.xa i v }
  else if i < 16 then { c with ya := Tab.set (fun _ => 0) c.ya (i - 8) v }
  else { c with ca := Tab.set (fun _ => 0) c.ca (i - 16) v }

/-- The lane width in bits that SZ selects (R83). -/
def laneBits (sz : Nat) : Nat := 8 * 2 ^ sz

/-- The number of lanes (R89). -/
def laneCount (sz : Nat) : Nat := 128 / 2 ^ sz

/-- Lane `i` of a vector register, as a number. -/
def lane (sz : Nat) (v : BitVec 1024) (i : Nat) : Nat := (v.toNat / 2 ^ (i * laneBits sz)) % 2 ^ laneBits sz

/-- A vector register from its lanes, lane 0 lowest. -/
def ofLanes (w : Nat) : List Nat → Nat
  | [] => 0
  | x :: xs => x % 2 ^ w + 2 ^ w * ofLanes w xs

/-- Lane `i` is active under a predicate: bit i × b for lanes of b bytes (R89). -/
def active (sz : Nat) (p : BitVec 128) (i : Nat) : Bool := p.getLsbD (i * 2 ^ sz)

/-- A vector whose active lanes are `f i` and whose inactive lanes keep their value (R89). -/
def laneMap (sz : Nat) (p : BitVec 128) (old : BitVec 1024) (f : Nat → Nat) : BitVec 1024 :=
  BitVec.ofNat 1024 (ofLanes (laneBits sz) ((List.range (laneCount sz)).map fun i =>
    if active sz p i then f i else lane sz old i))

/-- TSTAT, as MFS reads it (R80). -/
def CoreRegs.tstat (c : CoreRegs) : Word :=
  place 47 40 c.tagErr.toNat ||| place 39 32 c.tagBusy.toNat ||| place 19 16 c.part.toNat |||
    place 8 8 c.pm.toNat ||| place 0 0 c.modeM.toNat

/-- LOOPST.ACTIVE, the first parcel of the body, and its length in parcels (R122). -/
def Dsp.active (d : Dsp) : Bool := bit d.loopst 63
def Dsp.first (d : Dsp) : Nat := fld d.loopst 51 0
def Dsp.len (d : Dsp) : Nat := fld d.loopst 62 57 + 1

end Sys2Proof.Machine
end

