-- ==== Sys2Proof/Machine/Regions.lean ====
section
/-! DEFINITION. The regions that array operations read and write in a tile's own store (05_matrix_arrays.md R144, R145,
R149, R156), and what the core's own accesses get while an operation on a region is queued or running
(03_tile_isa.md R106, item 7). -/

namespace Sys2Proof.Machine

open Sys2Proof

/-- The format is an MX format: it has block scales (R149). -/
def isMx (f : Nat) : Bool := f == 3 || decide (9 ≤ f ∧ f ≤ 0xD)

/-- The element width of the formats that the OPE takes (R156). -/
def opeBits (f : Nat) : Nat :=
  if f = 6 ∨ f = 7 then 16 else if f = 8 then 32 else if f = 0xB ∨ f = 0xC then 6 else if f = 0xD then 4 else 8

/-- The element width of weights of a format (R145). -/
def Fmt.bits (f : Fmt) : Nat := if f.wf < 2 then f.wb else if f.wf = 2 then 32 else if f.wf = 3 then 8 else opeBits f.wf

/-- The element width of activations of a format. -/
def actBits (af : Nat) : Nat :=
  if af = 0xE then 16 else if af = 2 then 32 else if af = 0 ∨ af = 3 then 8 else opeBits af

/-- The element width of outputs: doubled for complex. -/
def outBits (wf out : Nat) : Nat := (if out = 0 then 32 else 16) * (if wf = 2 then 2 else 1)

/-- Fields of a feeder word (R144). -/
def feederAddr (w : Word) : Nat := fld w 51 7 * 128
def feederOsh (w : Word) : Nat := fld w 55 52

/-- The bytes of a row of `n` elements of `e` bits. -/
def rowBytes (n e : Nat) : Nat := ceilDiv (n * e) 8

/-- The pitch of rows of `len` bytes: the feeder word's, or the packed one (R145). -/
def feederPitch (w : Word) (len : Nat) : Nat :=
  if fld w 63 56 = 0 then ceilDiv len 128 * 128 else fld w 63 56 * 128

/-- A region of rows. -/
structure Region where
  base  : Nat
  pitch : Nat
  rows  : Nat
  len   : Nat
  deriving DecidableEq, Repr

/-- The region that a feeder word names, of `rows` rows of `n` elements of `e` bits. -/
def feederRegion (w : Word) (rows n e : Nat) : Region :=
  ⟨feederAddr w, feederPitch w (rowBytes n e), rows, rowBytes n e⟩

/-- The address of row `i`. -/
def Region.row (r : Region) (i : Nat) : Nat := r.base + i * r.pitch

/-- The first address after the region. -/
def Region.limit (r : Region) : Nat := r.base + (r.rows - 1) * r.pitch + r.len

/-- Address `a` lies in a row of the region. -/
def Region.has (r : Region) (a : Nat) : Bool :=
  decide (r.base ≤ a ∧ a < r.limit) &&
    (let i := if r.pitch = 0 then 0 else min (r.rows - 1) ((a - r.base) / r.pitch)
     decide (a - r.base - i * r.pitch < r.len) ||
      (i != 0 && decide (a - r.base - (i - 1) * r.pitch < r.len)))

/-- Two regions share an address range. -/
def Region.meets (r q : Region) : Bool := decide (r.base < q.limit ∧ q.base < r.limit)

/-- The weights of a load, and its scales. -/
def MatOp.weights (o : MatOp) : Region := feederRegion o.ga o.fmt.k o.fmt.n o.fmt.bits
def MatOp.wscales (o : MatOp) : Region := feederRegion o.gb (ceilDiv o.fmt.k 32) o.fmt.n 8

/-- The activations of a stream, their scales, and its outputs. -/
def MatOp.acts (o : MatOp) : Region := feederRegion o.ga o.m o.fmt.k (actBits o.afmt)
def MatOp.ascales (o : MatOp) : Region := feederRegion o.gs o.m (ceilDiv o.fmt.k 32) 8
def MatOp.outs (o : MatOp) : Region := feederRegion o.gb o.m o.fmt.n (outBits o.fmt.wf o.out)

/-- The regions that an operation reads. -/
def MatOp.inputs (o : MatOp) : List Region :=
  if o.str then o.acts :: (if o.scaled && isMx o.afmt then [o.ascales] else [])
  else o.weights :: (if o.scaled && isMx o.fmt.wf then [o.wscales] else [])

/-- All regions of an operation. -/
def MatOp.regions (o : MatOp) : List Region := if o.str then o.outs :: o.inputs else o.inputs

/-- Unit `u` of a tile. -/
def Tile.munit (x : Tile) (u : Nat) : MUnit := Tab.get (fun _ => MUnit.reset) x.units u

/-- Replace unit `u`. -/
def Tile.setUnit (x : Tile) (u : Nat) (m : MUnit) : Tile :=
  { x with units := Tab.set (fun _ => MUnit.reset) x.units u m }

/-- The operations of a tile's units, queued or running. -/
def Tile.matOps (x : Tile) : List MatOp := x.units.flatMap fun u => u.2.queue ++ u.2.gangPend

/-- Address `a` lies in a region of an operation of tile `t` that is queued or running (R106). -/
def arrayBusy (t a : Nat) (s : State) : Bool := (s.tile t).matOps.any fun o => o.regions.any (·.has a)

/-- What a load of the core gets from an address: an open value where an array operation is at work. -/
def State.coreByte (s : State) (t a : Nat) : Byte := if arrayBusy t a s then Config.freeByte s.free a else s.curByte a

/-- The bytes that a load of the core gets. -/
def coreBytes (t a len : Nat) (s : State) : List Byte := (List.range len).map fun i => s.coreByte t (a + i)

/-- What a store of the core leaves: open values where an array operation is at work. -/
def coreCells (t : Nat) (cells : List (Nat × Byte)) (s : State) : List (Nat × Byte) :=
  cells.map fun c => (c.1, if arrayBusy t c.1 s then Config.freeByte s.free c.1 else c.2)

/-- An access of the core has used its open values. -/
def usedIfBusy (t : Nat) (as : List Nat) (s : State) : State := if as.any fun a => arrayBusy t a s then s.used else s

end Sys2Proof.Machine
end

