-- ==== Sys2Proof/Machine/Tile.lean ====
section
/-! DEFINITION. How a tile's core runs one instruction: whether it runs at all, the fetch causes, the loop, taking an
exception and returning from one (03_tile_isa.md R75 to R86, R102 to R105; 04_dsp_datapath.md R123 to R126). -/

namespace Sys2Proof.Machine

open Sys2Proof

/-! ### Exception causes (R102) -/

def causeInstrAlign : Nat := 0x01
def causeInstrFault : Nat := 0x02
def causeIllegal : Nat := 0x03
def causePrivileged : Nat := 0x04
def causeDataAlign : Nat := 0x05
def causeAddress : Nat := 0x06
def causeAccess : Nat := 0x07
def causePermission : Nat := 0x08
def causeMemUncorr : Nat := 0x09
def causeRemoteIndet : Nat := 0x0A
def causeTimeRange : Nat := 0x0B
def causeBreak : Nat := 0x0C
def causeStop : Nat := 0x0D

/-- The cause of an access that was not performed. -/
def MemErr.cause : MemErr → Nat
  | .address => causeAddress
  | .access => causeAccess
  | .permission => causePermission
  | .uncorr => causeMemUncorr

/-- The window registers that show the last exception of a tile (R104, R108). -/
def showException (t cause : Nat) (epc eaddr : Word) (s : State) : State :=
  ((s.setReg .TILE_ECAUSE (place 7 0 cause) t).setReg .TILE_EPC epc t).setReg .TILE_EADDR eaddr t

/-- A double fault: the core halts, its own exception registers keep their values, the window and a sticky record show
the exception raised in M mode (R104). In partition 0 it marks the live slots (R205). -/
def doubleFault (t cause addr : Nat) (s : State) : State :=
  let c := s.core t
  let s := s.modTile t fun x => { x with run := .halted }
  let s := showException t 0x0F (c.pc.setWidth 64) (BitVec.ofNat 64 addr) s
  faultOf (some c.part.toNat) (errRecord 0x011 (whoTile s t) c.pc.toNat cause s)

/-- The core's registers after exception entry (R103): the loop ends (R126). -/
def CoreRegs.enter (c : CoreRegs) (mvec : Word) (cause addr : Nat) : CoreRegs :=
  { c with
    epc := c.pc.setWidth 64
    ecause := BitVec.ofNat 8 cause
    eaddr := BitVec.ofNat 64 addr
    pm := c.modeM
    modeM := true
    pc := BitVec.ofNat 52 (mvec.toNat + cause * 0x40)
    wait := .none
    dsp := { c.dsp with loopst := clearBit c.dsp.loopst 63 } }

/-- Taking an exception: entry in K mode (R103), a double fault in M mode (R104). `addr` is the faulting data or fetch
address, or 0. -/
def takeException (t cause addr : Nat) (s : State) : State :=
  if (s.core t).modeM then doubleFault t cause addr s
  else
    let mvec := s.reg .TILE_MVEC t
    let s := s.modTile t fun x => { x with core := x.core.enter mvec cause addr, loopFill := [] }
    showException t cause (s.core t).epc (s.core t).eaddr s

/-- Returning from an exception: mode and pc as saved (R98). -/
def CoreRegs.eret (c : CoreRegs) : CoreRegs := { c with modeM := c.pm, pc := c.epc.setWidth 52 }

/-! ### The loop (R123 to R126) -/

/-- The address after the loop's body. -/
def Dsp.bodyEnd (d : Dsp) : Nat := d.first + 4 * d.len

/-- The pc and the loop after an instruction of `n` bytes: at the end of the body the next iteration starts, or on the
last one execution goes on after the body with LOOPCNT at 0 (R122, R123). -/
def CoreRegs.next (c : CoreRegs) (n : Nat) : CoreRegs :=
  let pc' := c.pc + BitVec.ofNat 52 n
  if c.dsp.active && decide (pc'.toNat = c.dsp.bodyEnd) then
    if 1 < c.dsp.loopcnt.toNat then
      { c with pc := BitVec.ofNat 52 c.dsp.first, dsp := { c.dsp with loopcnt := c.dsp.loopcnt - 1 } }
    else { c with pc := pc', dsp := { c.dsp with loopcnt := 0 } }
  else { c with pc := pc' }

/-- The loop has run out: LOOPST.ACTIVE clears (R123). -/
def CoreRegs.loopOut (c : CoreRegs) : CoreRegs :=
  if c.dsp.active && c.dsp.loopcnt == 0 then { c with dsp := { c.dsp with loopst := clearBit c.dsp.loopst 63 } } else c

/-- The pc lies in the body of an active loop. -/
def CoreRegs.inBody (c : CoreRegs) : Bool :=
  c.dsp.active && c.dsp.loopcnt != 0 && decide (c.dsp.first ≤ c.pc.toNat ∧ c.pc.toNat < c.dsp.bodyEnd)

/-! ### Fetch (R82, R86, R102) -/

/-- Memory from which tile `t` may fetch: its own tile store, its own hamlet store and the unified range (R82). -/
def fetchSpace (t a : Nat) : Bool :=
  match spaceOf a with
  | .unified _ => true
  | .tile u _ => u == t
  | .hamlet h _ => h == t / 16
  | _ => false

/-- The range at `a` is assigned, executable and held by the partition (R102). The monitor's code in M mode is the
firmware's, not the partition's (R75; notes/assumptions/14.md). -/
def fetchHeld (t a : Nat) (s : State) : Bool :=
  fetchSpace t a && ((s.core t).modeM || (addrCheck (some (s.core t).part.toNat) a s).isNone)

/-- The lines that stay when a line is filled in a cache of `cap` lines: the spec gives no placement, so an open value
says which line leaves, or that none does while fewer are held (notes/assumptions/45.md). -/
def evict {α : Type} (cap : Nat) (v : Word) (ls : List α) : List α :=
  let n := ls.length
  let k := if n < cap then v.toNat % (n + 1) else v.toNat % n
  ls.eraseIdx k

/-- What a fetch meets: it goes on, it waits, or it finds a cause, with the fetch address (R102). -/
inductive Fetch where
  | go (s : State)
  | wait (s : State)
  | cause (c addr : Nat) (s : State)

/-- A fetch at `a` meets an uncorrectable word (R102, R205, R266). -/
def fetchBad (t a : Nat) (s : State) : Fetch :=
  .cause causeMemUncorr a (faultOf (some (s.core t).part.toNat) (memErrRecord .uncorr (whoTile s t) a causeMemUncorr s))

/-- A fetch that misses the instruction cache reads memory, and fills its line unless a word of the line cannot be
corrected (R81, R82, R241, R264, R267). -/
def fetchLine (t a : Nat) (s : State) : Fetch :=
  let w := whoTile s t
  let b := a / 64 * 64
  match tierGate w a 4 s with
  | some (.err _ s) => fetchBad t a s
  | some (.wait s) => .wait s
  | some (.ok _ s) => .wait s
  | none =>
    if heldOver b 64 s then .wait s
    else if !(badWords a 4 s).isEmpty then fetchBad t a (countUncorr a s)
    else if !(badWords b 64 s).isEmpty then .go (tierCharge w b 64 (readCorrects s (wordsOf a 4)))
    else
      let s := tierCharge w b 64 (readCorrects s (wordsOf b 64))
      .go (s.modTile t fun x => { x with icache := a / 64 :: evict 1024 s.open x.icache }).used

/-- The fetch of the parcel at `a`, its causes in the order of R102: the target's alignment, a range that it may not
fetch from, an uncorrectable word, which a line of the instruction cache does not meet. -/
def fetchParcel (t a : Nat) (s : State) : Fetch :=
  if a % 4 ≠ 0 then .cause causeInstrAlign a s
  else if !fetchHeld t a s then .cause causeInstrFault a s
  else if (s.tile t).icache.contains (a / 64) then .go s
  else fetchLine t a s

/-- The fetch of the instruction at pc, of `n` parcels. Iterations of a loop after the first fetch from the loop cache
alone (R125). -/
def fetchInstr (t n : Nat) (s : State) : Fetch :=
  let pc := (s.core t).pc.toNat
  if (s.core t).inBody && (s.tile t).loopFill.contains pc then .go s
  else match fetchParcel t pc s with
    | .go s => if n < 2 then .go s else fetchParcel t (pc + 4) s
    | r => r

/-- Tile `t` takes instructions: enabled, awake, running, and not waiting inside an instruction. -/
def ready (t : Nat) (s : State) : Bool :=
  s.enabled t && !s.dormant (domQuad t) && (s.tile t).run == .running && (s.core t).wait == .none

/-- An iteration writes each parcel it fetches into the loop cache (R125). -/
def fillLoop (t : Nat) (s : State) : State :=
  let pc := (s.core t).pc.toNat
  if (s.tile t).loopFill.contains pc then s else s.modTile t fun x => { x with loopFill := pc :: x.loopFill }

/-- A loop that has run out ends before the next instruction (R123). -/
def endLoop (t : Nat) (s : State) : State :=
  if (s.core t).dsp.active && (s.core t).dsp.loopcnt == 0 then s.modCore t CoreRegs.loopOut else s

/-- Run an instruction of `n` parcels on tile `t`: nothing happens on a tile that takes no instruction; the fetch comes
first, and an instruction that a loop body may not contain is ILLEGAL there (R124). -/
def runParcels (t n : Nat) (bodyOk : Bool) (f : State → State) (s : State) : State :=
  if !ready t s then s else
  match fetchInstr t n (endLoop t s) with
  | .wait s => s
  | .cause c a s => takeException t c a s
  | .go s =>
    if (s.core t).inBody then
      if bodyOk then f (fillLoop t s) else takeException t causeIllegal 0 s
    else f s

/-- Run an instruction of one parcel. -/
def runInstr (t : Nat) (bodyOk : Bool) (f : State → State) (s : State) : State := runParcels t 1 bodyOk f s

/-- Run a long form: two parcels (R77); a loop body may not contain it (R124). -/
def runLong (t : Nat) (f : State → State) (s : State) : State := runParcels t 2 false f s

/-- An instruction that only changes the core's registers and goes on to the next parcel. -/
def simple (t : Nat) (bodyOk : Bool) (f : CoreRegs → CoreRegs) (s : State) : State :=
  runInstr t bodyOk (fun s => s.modCore t fun c => (f c).next 4) s

/-- An instruction that computes a general register. -/
def toG (t d : Nat) (f : CoreRegs → Word) (s : State) : State := simple t true (fun c => c.setG d (f c)) s

/-- The instruction raises ILLEGAL. -/
def illegal (t : Nat) (s : State) : State := takeException t causeIllegal 0 s

/-- The loop count is exhausted: execution goes on after the body (R123). -/
def execLoopEnd (t : Fin 128) (s : State) : Ans := .next (endLoop t s)

/-- BREAK raises BREAK (R98, R102); the loop body may not contain it (R124). -/
def execBrk (t : Fin 128) (s : State) : Ans := .next (runInstr t false (takeException t causeBreak 0) s)

/-- ERET: return from M mode; PRIVILEGED in K mode (R98). -/
def execEret (t : Fin 128) (s : State) : Ans :=
  .next (runInstr t false (fun s =>
    if (s.core t).modeM then s.modCore t CoreRegs.eret else takeException t causePrivileged 0 s) s)

end Sys2Proof.Machine
end

