-- ==== Sys2Proof/Machine/Scalar.lean ====
section
/-! DEFINITION. The scalar ALU instructions, branches and jumps (03_tile_isa.md R85, R86), and LIW (R94). -/

namespace Sys2Proof.Machine

open Sys2Proof

/-! ### The results -/

def b2w (b : Bool) : Word := if b then 1 else 0

/-- Shift amounts use bits [5:0] of the operand (R85). -/
def shamt (b : Word) : Nat := fld b 5 0

/-- The quotient of DIV: toward zero; divisor 0 gives all ones; the most negative value by −1 gives the dividend. -/
def divS (a b : Word) : Word := if b = 0 then BitVec.allOnes 64 else a.sdiv b

def divU (a b : Word) : Word := if b = 0 then BitVec.allOnes 64 else a / b

/-- The remainder of REM: the sign of the dividend; divisor 0 gives the dividend. -/
def remS (a b : Word) : Word := if b = 0 then a else a.srem b

def remU (a b : Word) : Word := if b = 0 then a else a % b

/-- The high 64 bits of the signed and of the unsigned product. -/
def mulHS (a b : Word) : Word := BitVec.ofInt 64 (a.toInt * b.toInt / 2 ^ 64)

def mulHU (a b : Word) : Word := BitVec.ofNat 64 (a.toNat * b.toNat / 2 ^ 64)

/-- The number of ones among the low `n` bits. -/
def ones {w : Nat} (a : BitVec w) : Nat → Nat
  | 0 => 0
  | n + 1 => ones a n + (if a.getLsbD n then 1 else 0)

/-- Leading zeros among the low `n` bits, from bit n − 1 down. -/
def lead0 {w : Nat} (a : BitVec w) : Nat → Nat
  | 0 => 0
  | n + 1 => if a.getLsbD n then 0 else lead0 a n + 1

/-- Trailing zeros from bit `i` on, of `n` bits left. -/
def trail0 {w : Nat} (a : BitVec w) (i : Nat) : Nat → Nat
  | 0 => 0
  | n + 1 => if a.getLsbD i then 0 else trail0 a (i + 1) n + 1

def minS (a b : Word) : Word := if a.toInt ≤ b.toInt then a else b
def maxS (a b : Word) : Word := if a.toInt ≤ b.toInt then b else a
def minU (a b : Word) : Word := if a.toNat ≤ b.toNat then a else b
def maxU (a b : Word) : Word := if a.toNat ≤ b.toNat then b else a

/-- The sign-extended immediate of format I, and its zero extension (R83, R85). -/
def imm14 (i : BitVec 14) : Word := i.signExtend 64
def imm14z (i : BitVec 14) : Word := i.setWidth 64

/-! ### OP 0x01: gd := f(ga, gb) -/

/-- A register ALU instruction. -/
def aluR (t d a b : Nat) (f : Word → Word → Word) (s : State) : State := toG t d (fun c => f (c.gr a) (c.gr b)) s

def execAdd (t : Fin 128) (d a b : Fin 64) (s : State) : Ans := .next (aluR t d a b (· + ·) s)
def execSub (t : Fin 128) (d a b : Fin 64) (s : State) : Ans := .next (aluR t d a b (· - ·) s)
def execAnd (t : Fin 128) (d a b : Fin 64) (s : State) : Ans := .next (aluR t d a b (· &&& ·) s)
def execOr (t : Fin 128) (d a b : Fin 64) (s : State) : Ans := .next (aluR t d a b (· ||| ·) s)
def execXor (t : Fin 128) (d a b : Fin 64) (s : State) : Ans := .next (aluR t d a b (· ^^^ ·) s)
def execShl (t : Fin 128) (d a b : Fin 64) (s : State) : Ans := .next (aluR t d a b (fun x y => x <<< shamt y) s)
def execShr (t : Fin 128) (d a b : Fin 64) (s : State) : Ans := .next (aluR t d a b (fun x y => x >>> shamt y) s)
def execSra (t : Fin 128) (d a b : Fin 64) (s : State) : Ans :=
  .next (aluR t d a b (fun x y => x.sshiftRight (shamt y)) s)
def execSlt (t : Fin 128) (d a b : Fin 64) (s : State) : Ans := .next (aluR t d a b (fun x y => b2w (x.slt y)) s)
def execSltu (t : Fin 128) (d a b : Fin 64) (s : State) : Ans := .next (aluR t d a b (fun x y => b2w (x.ult y)) s)
def execMin (t : Fin 128) (d a b : Fin 64) (s : State) : Ans := .next (aluR t d a b minS s)
def execMax (t : Fin 128) (d a b : Fin 64) (s : State) : Ans := .next (aluR t d a b maxS s)
def execMinu (t : Fin 128) (d a b : Fin 64) (s : State) : Ans := .next (aluR t d a b minU s)
def execMaxu (t : Fin 128) (d a b : Fin 64) (s : State) : Ans := .next (aluR t d a b maxU s)
def execMul (t : Fin 128) (d a b : Fin 64) (s : State) : Ans := .next (aluR t d a b (· * ·) s)
def execMulh (t : Fin 128) (d a b : Fin 64) (s : State) : Ans := .next (aluR t d a b mulHS s)
def execMulhu (t : Fin 128) (d a b : Fin 64) (s : State) : Ans := .next (aluR t d a b mulHU s)
def execDiv (t : Fin 128) (d a b : Fin 64) (s : State) : Ans := .next (aluR t d a b divS s)
def execDivu (t : Fin 128) (d a b : Fin 64) (s : State) : Ans := .next (aluR t d a b divU s)
def execRem (t : Fin 128) (d a b : Fin 64) (s : State) : Ans := .next (aluR t d a b remS s)
def execRemu (t : Fin 128) (d a b : Fin 64) (s : State) : Ans := .next (aluR t d a b remU s)

/-- A count over the bits of ga. -/
def countR (t d a : Nat) (f : Word → Nat) (s : State) : State := toG t d (fun c => BitVec.ofNat 64 (f (c.gr a))) s

def execPopc (t : Fin 128) (d a : Fin 64) (s : State) : Ans := .next (countR t d a (fun x => ones x 64) s)
def execClz (t : Fin 128) (d a : Fin 64) (s : State) : Ans := .next (countR t d a (fun x => lead0 x 64) s)
def execCtz (t : Fin 128) (d a : Fin 64) (s : State) : Ans := .next (countR t d a (fun x => trail0 x 0 64) s)

/-! ### OP 0x02–0x0B: gd := f(ga, imm) -/

/-- An immediate ALU instruction on an immediate already extended. -/
def aluI (t d a : Nat) (i : Word) (f : Word → Word → Word) (s : State) : State := toG t d (fun c => f (c.gr a) i) s

/-- A shift by IMM14[5:0]; IMM14[13:6] must be 0, else ILLEGAL (R84, R85). -/
def shiftI (t d a : Nat) (imm : BitVec 14) (f : Word → Nat → Word) (s : State) : State :=
  runInstr t true (fun s =>
    if fld imm 13 6 ≠ 0 then illegal t s
    else s.modCore t fun c => (c.setG d (f (c.gr a) (fld imm 5 0))).next 4) s

def execAddi (t : Fin 128) (d a : Fin 64) (imm : BitVec 14) (s : State) : Ans :=
  .next (aluI t d a (imm14 imm) (· + ·) s)
def execAndi (t : Fin 128) (d a : Fin 64) (imm : BitVec 14) (s : State) : Ans :=
  .next (aluI t d a (imm14z imm) (· &&& ·) s)
def execOri (t : Fin 128) (d a : Fin 64) (imm : BitVec 14) (s : State) : Ans :=
  .next (aluI t d a (imm14z imm) (· ||| ·) s)
def execXori (t : Fin 128) (d a : Fin 64) (imm : BitVec 14) (s : State) : Ans :=
  .next (aluI t d a (imm14z imm) (· ^^^ ·) s)
def execShli (t : Fin 128) (d a : Fin 64) (imm : BitVec 14) (s : State) : Ans :=
  .next (shiftI t d a imm (fun x n => x <<< n) s)
def execShri (t : Fin 128) (d a : Fin 64) (imm : BitVec 14) (s : State) : Ans :=
  .next (shiftI t d a imm (fun x n => x >>> n) s)
def execSrai (t : Fin 128) (d a : Fin 64) (imm : BitVec 14) (s : State) : Ans :=
  .next (shiftI t d a imm (fun x n => x.sshiftRight n) s)
def execSlti (t : Fin 128) (d a : Fin 64) (imm : BitVec 14) (s : State) : Ans :=
  .next (aluI t d a (imm14 imm) (fun x y => b2w (x.slt y)) s)
def execSltiu (t : Fin 128) (d a : Fin 64) (imm : BitVec 14) (s : State) : Ans :=
  .next (aluI t d a (imm14 imm) (fun x y => b2w (x.ult y)) s)

/-- LUI: sign-extended IMM20 × 2^14. -/
def execLui (t : Fin 128) (d : Fin 64) (imm : BitVec 20) (s : State) : Ans :=
  .next (toG t d (fun _ => (imm.signExtend 64) <<< (14 : Nat)) s)

/-- LIW: two parcels, gd := IMM32, zero- or sign-extended (R94); not in a loop body (R124). -/
def execLiw (t : Fin 128) (d : Fin 64) (z : Bool) (imm : BitVec 32) (s : State) : Ans :=
  .next (runLong t (fun s =>
    s.modCore t fun c => (c.setG d (if z then imm.setWidth 64 else imm.signExtend 64)).next 8) s)

/-! ### Branches and jumps (R86): a loop body may not contain them (R124) -/

/-- The pc moved by a signed offset in units of 4 bytes. -/
def branchTo {w : Nat} (c : CoreRegs) (off : BitVec w) : Addr := c.pc + (off.signExtend 52 <<< (2 : Nat))

/-- A conditional branch. -/
def branchIf (t a b : Nat) (off : BitVec 14) (f : Word → Word → Bool) (s : State) : State :=
  runInstr t false (fun s => s.modCore t fun c =>
    if f (c.gr a) (c.gr b) then { c with pc := branchTo c off } else c.next 4) s

def execBeq (t : Fin 128) (a b : Fin 64) (off : BitVec 14) (s : State) : Ans :=
  .next (branchIf t a b off (fun x y => x == y) s)
def execBne (t : Fin 128) (a b : Fin 64) (off : BitVec 14) (s : State) : Ans :=
  .next (branchIf t a b off (fun x y => x != y) s)
def execBlt (t : Fin 128) (a b : Fin 64) (off : BitVec 14) (s : State) : Ans :=
  .next (branchIf t a b off (fun x y => x.slt y) s)
def execBge (t : Fin 128) (a b : Fin 64) (off : BitVec 14) (s : State) : Ans :=
  .next (branchIf t a b off (fun x y => !x.slt y) s)
def execBltu (t : Fin 128) (a b : Fin 64) (off : BitVec 14) (s : State) : Ans :=
  .next (branchIf t a b off (fun x y => x.ult y) s)
def execBgeu (t : Fin 128) (a b : Fin 64) (off : BitVec 14) (s : State) : Ans :=
  .next (branchIf t a b off (fun x y => !x.ult y) s)

def execJ (t : Fin 128) (off : BitVec 26) (s : State) : Ans :=
  .next (runInstr t false (fun s => s.modCore t fun c => { c with pc := branchTo c off }) s)

/-- JAL: g63 := pc + 4. -/
def execJal (t : Fin 128) (off : BitVec 26) (s : State) : Ans :=
  .next (runInstr t false (fun s => s.modCore t fun c =>
    { c.setG 63 (c.pc.setWidth 64 + 4) with pc := branchTo c off }) s)

/-- JALR: t := ga + imm; gd := pc + 4; pc := t. -/
def execJalr (t : Fin 128) (d a : Fin 64) (imm : BitVec 14) (s : State) : Ans :=
  .next (runInstr t false (fun s => s.modCore t fun c =>
    { c.setG d (c.pc.setWidth 64 + 4) with pc := (c.gr a + imm14 imm).setWidth 52 }) s)

end Sys2Proof.Machine
end

