-- ==== Sys2Proof/Machine/Vector.lean ====
section
/-! DEFINITION. The vector integer instructions, the integer compares, the predicate instructions, the vector moves, and
the vector accesses to the tile's own store (03_tile_isa.md R89, R90, R92, R93). -/

namespace Sys2Proof.Machine

open Sys2Proof

/-! ### Vector integer (R90) -/

/-- A vector instruction on the active lanes: `f c i` is the new lane i. -/
def vecOp (t d pg sz : Nat) (f : CoreRegs → Nat → Nat) (s : State) : State :=
  simple t true (fun c => c.setV d (laneMap sz (c.pr pg) (c.vr d) (f c))) s

/-- Lane `i` of va, as a signed integer. -/
def slane (sz : Nat) (v : BitVec 1024) (i : Nat) : Int := signed (laneBits sz) (lane sz v i)

/-- A signed operation per lane, wrapping. -/
def vecS (t d a b pg sz : Nat) (f : Int → Int → Int) (s : State) : State :=
  vecOp t d pg sz (fun c i => wrap (laneBits sz) (f (slane sz (c.vr a) i) (slane sz (c.vr b) i))) s

/-- An operation per lane on the lanes as numbers. -/
def vecU (t d a b pg sz : Nat) (f : Nat → Nat → Nat) (s : State) : State :=
  vecOp t d pg sz (fun c i => f (lane sz (c.vr a) i) (lane sz (c.vr b) i)) s

def execVadd (t : Fin 128) (d a b : Fin 32) (pg : Fin 8) (sz : Fin 4) (s : State) : Ans :=
  .next (vecS t d a b pg sz (· + ·) s)
def execVsub (t : Fin 128) (d a b : Fin 32) (pg : Fin 8) (sz : Fin 4) (s : State) : Ans :=
  .next (vecS t d a b pg sz (· - ·) s)
def execVadds (t : Fin 128) (d a b : Fin 32) (pg : Fin 8) (sz : Fin 4) (s : State) : Ans :=
  .next (vecS t d a b pg sz (fun x y => satInt (laneBits sz) (x + y)) s)
def execVsubs (t : Fin 128) (d a b : Fin 32) (pg : Fin 8) (sz : Fin 4) (s : State) : Ans :=
  .next (vecS t d a b pg sz (fun x y => satInt (laneBits sz) (x - y)) s)
def execVmul (t : Fin 128) (d a b : Fin 32) (pg : Fin 8) (sz : Fin 4) (s : State) : Ans :=
  .next (vecS t d a b pg sz (· * ·) s)
def execVmulh (t : Fin 128) (d a b : Fin 32) (pg : Fin 8) (sz : Fin 4) (s : State) : Ans :=
  .next (vecS t d a b pg sz (fun x y => x * y / (2 ^ laneBits sz : Nat)) s)
def execVmin (t : Fin 128) (d a b : Fin 32) (pg : Fin 8) (sz : Fin 4) (s : State) : Ans :=
  .next (vecS t d a b pg sz min s)
def execVmax (t : Fin 128) (d a b : Fin 32) (pg : Fin 8) (sz : Fin 4) (s : State) : Ans :=
  .next (vecS t d a b pg sz max s)
def execVand (t : Fin 128) (d a b : Fin 32) (pg : Fin 8) (sz : Fin 4) (s : State) : Ans :=
  .next (vecU t d a b pg sz (fun x y => x &&& y) s)
def execVor (t : Fin 128) (d a b : Fin 32) (pg : Fin 8) (sz : Fin 4) (s : State) : Ans :=
  .next (vecU t d a b pg sz (fun x y => x ||| y) s)
def execVxor (t : Fin 128) (d a b : Fin 32) (pg : Fin 8) (sz : Fin 4) (s : State) : Ans :=
  .next (vecU t d a b pg sz (fun x y => x ^^^ y) s)

/-- Shifts by the vb lane, modulo the lane width. -/
def execVshl (t : Fin 128) (d a b : Fin 32) (pg : Fin 8) (sz : Fin 4) (s : State) : Ans :=
  .next (vecU t d a b pg sz (fun x y => x * 2 ^ (y % laneBits sz)) s)
def execVshr (t : Fin 128) (d a b : Fin 32) (pg : Fin 8) (sz : Fin 4) (s : State) : Ans :=
  .next (vecU t d a b pg sz (fun x y => x / 2 ^ (y % laneBits sz)) s)
def execVsra (t : Fin 128) (d a b : Fin 32) (pg : Fin 8) (sz : Fin 4) (s : State) : Ans :=
  .next (vecOp t d pg sz (fun c i => wrap (laneBits sz)
    (slane sz (c.vr a) i / (2 ^ (lane sz (c.vr b) i % laneBits sz) : Nat))) s)

/-- VSEL writes all lanes. -/
def execVsel (t : Fin 128) (d a b : Fin 32) (pg : Fin 8) (sz : Fin 4) (s : State) : Ans :=
  .next (simple t true (fun c => c.setV d (laneMap sz (c.pr pg) (c.vr b) (lane sz (c.vr a)))) s)

/-- VPERM: vd lane i := va lane (vb lane i mod lane count). -/
def execVperm (t : Fin 128) (d a b : Fin 32) (pg : Fin 8) (sz : Fin 4) (s : State) : Ans :=
  .next (vecOp t d pg sz (fun c i => lane sz (c.vr a) (lane sz (c.vr b) i % laneCount sz)) s)

/-- The signed values of the active lanes. -/
def activeLanes (sz : Nat) (p : BitVec 128) (v : BitVec 1024) : List Int :=
  ((List.range (laneCount sz)).filter (active sz p)).map (slane sz v)

/-- The sum over the active lanes, wrapped, in lane 0; other lanes 0. -/
def execVredadd (t : Fin 128) (d a : Fin 32) (pg : Fin 8) (sz : Fin 4) (s : State) : Ans :=
  .next (simple t true (fun c => c.setV d (BitVec.ofNat 1024
    (wrap (laneBits sz) (activeLanes sz (c.pr pg) (c.vr a)).sum))) s)

/-- The maximum over the active lanes, signed (notes/assumptions/20.md), in lane 0; other lanes 0. With no lane active
the maximum is an open value. -/
def execVredmax (t : Fin 128) (d a : Fin 32) (pg : Fin 8) (sz : Fin 4) (s : State) : Ans :=
  .next (runInstr t true (fun s =>
    match activeLanes sz ((s.core t).pr pg) ((s.core t).vr a) with
    | [] => (s.modCore t fun c => (c.setV d (BitVec.ofNat 1024 (s.open.toNat % 2 ^ laneBits sz))).next 4).used
    | x :: xs => s.modCore t fun c =>
        (c.setV d (BitVec.ofNat 1024 (wrap (laneBits sz) (xs.foldl max x)))).next 4) s)

/-! ### Compares and predicates (R92) -/

/-- A predicate from a truth value per lane: every bit of a lane's group takes it (notes/assumptions/21.md). -/
def lanesToPred (b n : Nat) (f : Nat → Bool) : BitVec 128 :=
  BitVec.ofNat 128 (ofLanes b ((List.range n).map fun i => if f i then 2 ^ b - 1 else 0))

/-- A compare: inactive lanes of pd are 0. -/
def vecCmp (t d a b pg sz : Nat) (f : BitVec 1024 → BitVec 1024 → Nat → Bool) (s : State) : State :=
  simple t true (fun c => c.setP d (lanesToPred (2 ^ sz) (laneCount sz) fun i =>
    active sz (c.pr pg) i && f (c.vr a) (c.vr b) i)) s

def execVcmpeq (t : Fin 128) (d : Fin 8) (a b : Fin 32) (pg : Fin 8) (sz : Fin 4) (s : State) : Ans :=
  .next (vecCmp t d a b pg sz (fun x y i => lane sz x i == lane sz y i) s)
def execVcmplt (t : Fin 128) (d : Fin 8) (a b : Fin 32) (pg : Fin 8) (sz : Fin 4) (s : State) : Ans :=
  .next (vecCmp t d a b pg sz (fun x y i => decide (slane sz x i < slane sz y i)) s)
def execVcmpltu (t : Fin 128) (d : Fin 8) (a b : Fin 32) (pg : Fin 8) (sz : Fin 4) (s : State) : Ans :=
  .next (vecCmp t d a b pg sz (fun x y i => decide (lane sz x i < lane sz y i)) s)

/-- A predicate instruction on all 128 bits. -/
def predOp (t d : Nat) (f : CoreRegs → BitVec 128) (s : State) : State := simple t true (fun c => c.setP d (f c)) s

def execPand (t : Fin 128) (d a b : Fin 8) (s : State) : Ans := .next (predOp t d (fun c => c.pr a &&& c.pr b) s)
def execPor (t : Fin 128) (d a b : Fin 8) (s : State) : Ans := .next (predOp t d (fun c => c.pr a ||| c.pr b) s)
def execPxor (t : Fin 128) (d a b : Fin 8) (s : State) : Ans := .next (predOp t d (fun c => c.pr a ^^^ c.pr b) s)
/-- PNOT takes pa; its row names pb too, which any predicate may stand in and which it does not use
(notes/assumptions/150.md). -/
def execPnot (t : Fin 128) (d a : Fin 8) (s : State) : Ans := .next (predOp t d (fun c => ~~~ c.pr a) s)
def execPall (t : Fin 128) (d : Fin 8) (s : State) : Ans := .next (predOp t d (fun _ => BitVec.allOnes 128) s)
def execPnone (t : Fin 128) (d : Fin 8) (s : State) : Ans := .next (predOp t d (fun _ => 0) s)
def execPfromg (t : Fin 128) (d : Fin 8) (a b : Fin 64) (s : State) : Ans :=
  .next (predOp t d (fun c => c.gr b ++ c.gr a) s)
def execPany (t : Fin 128) (d : Fin 64) (a : Fin 8) (s : State) : Ans :=
  .next (toG t d (fun c => b2w (c.pr a != 0)) s)
def execPcnt (t : Fin 128) (d : Fin 64) (a : Fin 8) (s : State) : Ans :=
  .next (toG t d (fun c => BitVec.ofNat 64 (ones (c.pr a) 128)) s)

/-! ### Vector moves (R92): no predicate governs them (notes/assumptions/21.md) -/

def execVbcast (t : Fin 128) (d : Fin 32) (a : Fin 64) (sz : Fin 4) (s : State) : Ans :=
  .next (vecOp t d 0 sz (fun c _ => (c.gr a).toNat) s)
def execVext (t : Fin 128) (d : Fin 64) (a : Fin 32) (b : Fin 64) (sz : Fin 4) (s : State) : Ans :=
  .next (toG t d (fun c => BitVec.ofInt 64 (slane sz (c.vr a) ((c.gr b).toNat % laneCount sz))) s)
def execVins (t : Fin 128) (d : Fin 32) (a b : Fin 64) (sz : Fin 4) (s : State) : Ans :=
  .next (vecOp t d 0 sz (fun c i =>
    if i = (c.gr b).toNat % laneCount sz then (c.gr a).toNat else lane sz (c.vr d) i) s)

/-! ### Accesses of the core to its own tile store (R93) -/

/-- Why a vector or bus access of tile `t` is refused: an unassigned range or a disabled tile's store, any range but
the tile's own store, or a part of it that the partition does not hold. -/
def ownCheck (t a : Nat) (s : State) : Option MemErr :=
  match spaceOf a with
  | .unassigned => some .address
  | .tile u o =>
    if !s.enabled u then some .address else if u ≠ t then some .access
    else if !s.holdsStore (s.core t).part.toNat t o then some .permission else none
  | _ => some .access

/-- A data access of tile `t` is not performed: an uncorrectable word in partition 0 marks the live slots (R205), and
the core takes the exception. The sticky record is already written. -/
def dataFault (t : Nat) (e : MemErr) (a : Nat) (s : State) : State :=
  takeException t e.cause a (if e = .uncorr then faultOf (some (s.core t).part.toNat) s else s)

/-- The refusal of an access before it is made, with its sticky record (R11, R13). -/
def dataRefuse (t : Nat) (e : MemErr) (a : Nat) (s : State) : State :=
  dataFault t e a (memErrRecord e (whoTile s t) a causeMemUncorr s)

/-- Several bytes stored as one write request (R266): refused whole if it covers part of an uncorrectable word. -/
def writeCells (cells : List (Nat × Byte)) (s : State) : Option Nat × State :=
  let ws := (cells.map fun c => c.1 / 32).eraseDups
  let part := ws.filter fun w => decide (((cells.filter fun c => c.1 / 32 == w).map (·.1)).eraseDups.length < 32)
  match part.filter fun w => s.eccAt w == .uncorrectable with
  | b :: _ => (some b, s)
  | [] =>
    let s := part.foldl (fun s w => if s.correctable w then (countCorrected w s).correctWord w else s) s
    let s := (ws.filter fun w => !part.contains w).foldl (fun s w => s.eccClean w) s
    (none, cells.foldl (fun s c => s.setByte c.1 c.2) s)

/-- The address of VLD and VST: GA + IMM12 × 128, of 52 bits. -/
def vAddr (c : CoreRegs) (a : Nat) (imm : BitVec 12) : Nat :=
  ((c.gr a + (imm.signExtend 64 <<< (7 : Nat))).setWidth 52).toNat

/-- Elements of `n` bytes at the addresses of the active lanes: the lanes with their addresses. -/
def gatherAddrs (c : CoreRegs) (a b sz : Nat) : List (Nat × Nat) :=
  ((List.range (laneCount sz)).filter (active sz (c.pr 1))).map fun i =>
    (i, ((c.gr a + BitVec.ofNat 64 (lane sz (c.vr b) i * 2 ^ sz)).setWidth 52).toNat)

/-- The first cause among the elements of an instruction, highest priority first: alignment, then the refusals in the
order of R102, with the element's address. -/
def elemFault (t n : Nat) (as : List Nat) (s : State) : Option (Nat ⊕ (MemErr × Nat)) :=
  match as.find? fun a => a % n != 0 with
  | some a => some (.inl a)
  | none =>
    let es := as.filterMap fun a => (ownCheck t a s).map fun e => (e, a)
    match es.find? fun e => e.1 == .address, es.find? fun e => e.1 == .access, es with
    | some e, _, _ => some (.inr e)
    | none, some e, _ => some (.inr e)
    | none, none, e :: _ => some (.inr e)
    | none, none, [] => none

/-- Run an access to elements of `n` bytes: the checks, then `f`. -/
def ownAccess (t n : Nat) (as : List Nat) (f : State → State) (s : State) : State :=
  match elemFault t n as s with
  | some (.inl a) => takeException t causeDataAlign a s
  | some (.inr (e, a)) => dataRefuse t e a s
  | none => f s

/-- Read the elements: an uncorrectable word among them raises MEM_UNCORR with nothing changed, and EADDR is the address
of the first element in that word (R93, R112; notes/assumptions/152.md); corrected words are counted (R81). `f` gets
the elements' values in order. -/
def ownRead (t n : Nat) (as : List Nat) (f : List Nat → State → State) (s : State) : State :=
  let ws := (as.flatMap fun a => wordsOf a n).eraseDups
  match ws.filter fun w => s.eccAt w == .uncorrectable with
  | w :: _ => dataRefuse t .uncorr ((as.find? fun a => (wordsOf a n).contains w).getD (w * 32)) s
  | [] =>
    let es := as.map fun a => leVal (coreBytes t a n s)
    f es (usedIfBusy t (as.flatMap fun a => (List.range n).map (a + ·)) (readCorrects s ws))

/-- Write cells and go on with `f`, or raise MEM_UNCORR at the first cell in the uncorrectable word. -/
def ownWrite (t : Nat) (cells : List (Nat × Byte)) (f : State → State) (s : State) : State :=
  match writeCells (coreCells t cells s) s with
  | (some w, s') =>
    dataRefuse t .uncorr (((cells.find? fun c => c.1 / 32 == w).map (·.1)).getD (w * 32)) s'
  | (none, s') => f (usedIfBusy t (cells.map (·.1)) s')

/-- Go on to the next parcel. -/
def goNext (t : Nat) (s : State) : State := s.modCore t (·.next 4)

/-- The value read for lane `i`, from the lanes read and their values. -/
def elemOf (js es : List Nat) (i : Nat) : Nat :=
  match (js.zip es).find? fun p => p.1 == i with
  | some p => p.2
  | none => 0

/-- VLD: the active byte lanes of one register, from a 128-byte-aligned address (R89, R93; notes/assumptions/21.md). -/
def execVld (t : Fin 128) (d : Fin 32) (a : Fin 64) (pg : Fin 8) (imm : BitVec 12) (s : State) : Ans :=
  .next (runInstr t true (fun s =>
    let a' := vAddr (s.core t) a imm
    let p := (s.core t).pr pg
    let js := (List.range 128).filter (active 0 p)
    ownAccess t 128 [a'] (ownRead t 1 (js.map (a' + ·)) (fun es s =>
      s.modCore t fun c => (c.setV d (laneMap 0 p (c.vr d) (elemOf js es))).next 4)) s) s)

/-- VST writes the active byte lanes (R93). -/
def execVst (t : Fin 128) (d : Fin 32) (a : Fin 64) (pg : Fin 8) (imm : BitVec 12) (s : State) : Ans :=
  .next (runInstr t true (fun s =>
    let c := s.core t
    let a' := vAddr c a imm
    ownAccess t 128 [a'] (ownWrite t
      (((List.range 128).filter (active 0 (c.pr pg))).map fun i => (a' + i, BitVec.ofNat 8 (lane 0 (c.vr d) i)))
      (goNext t)) s) s)

/-- VGATHER, governed by p1. -/
def execVgather (t : Fin 128) (d : Fin 32) (a : Fin 64) (b : Fin 32) (sz : Fin 4) (s : State) : Ans :=
  .next (runInstr t true (fun s =>
    let es := gatherAddrs (s.core t) a b sz
    ownAccess t (2 ^ sz.val) (es.map (·.2)) (ownRead t (2 ^ sz.val) (es.map (·.2)) (fun vs s =>
      s.modCore t fun c => (c.setV d (laneMap sz (c.pr 1) (c.vr d) (elemOf (es.map (·.1)) vs))).next 4)) s) s)

/-- VSCATTER, governed by p1; where lanes collide, the highest lane's value is stored. -/
def execVscatter (t : Fin 128) (d : Fin 32) (a : Fin 64) (b : Fin 32) (sz : Fin 4) (s : State) : Ans :=
  .next (runInstr t true (fun s =>
    let c := s.core t
    let es := gatherAddrs c a b sz
    ownAccess t (2 ^ sz.val) (es.map (·.2)) (ownWrite t
      (es.flatMap fun e => (List.range (2 ^ sz.val)).map fun j =>
        (e.2 + j, BitVec.ofNat 8 (lane sz (c.vr d) e.1 / 2 ^ (8 * j)))) (goNext t)) s) s)

end Sys2Proof.Machine
end

