-- ==== Sys2Proof/Machine/VecFp.lean ====
section
/-! DEFINITION. The vector floating-point instructions (03_tile_isa.md R91) and VFCMPLT (R92). SZ names the format, and
a lane is as wide as its format (notes/assumptions/22.md). -/

namespace Sys2Proof.Machine

open Sys2Proof

/-- The format that SZ names. -/
def vfmt (sz : Nat) : FFmt := if sz = 0 then fBF16 else if sz = 1 then fFP16 else fFP32

/-- The lane-width code of that format: 16-bit lanes or 32-bit lanes. -/
def vfw (sz : Nat) : Nat := if sz = 2 then 2 else 1

/-- Run a floating-point instruction: SZ = 3 is ILLEGAL. -/
def vfRun (t sz : Nat) (f : State → State) (s : State) : State :=
  runInstr t true (fun s => if sz = 3 then illegal t s else f s) s

/-- The value of lane `i` of a register. -/
def flane (sz : Nat) (v : BitVec 1024) (i : Nat) : FVal := (vfmt sz).decode (lane (vfw sz) v i)

/-- An operation per active lane. -/
def vfOp (t d pg sz : Nat) (f : CoreRegs → Nat → FVal) (s : State) : State :=
  vfRun t sz (fun s => s.modCore t fun c =>
    (c.setV d (laneMap (vfw sz) (c.pr pg) (c.vr d) fun i => (vfmt sz).encode (f c i))).next 4) s

/-- va op vb per active lane. -/
def vfBin (t d a b pg sz : Nat) (f : FVal → FVal → FVal) (s : State) : State :=
  vfOp t d pg sz (fun c i => f (flane sz (c.vr a) i) (flane sz (c.vr b) i)) s

def execVfadd (t : Fin 128) (d a b : Fin 32) (pg : Fin 8) (sz : Fin 4) (s : State) : Ans :=
  .next (vfBin t d a b pg sz FVal.add s)
def execVfsub (t : Fin 128) (d a b : Fin 32) (pg : Fin 8) (sz : Fin 4) (s : State) : Ans :=
  .next (vfBin t d a b pg sz (fun x y => x.add y.neg) s)
def execVfmul (t : Fin 128) (d a b : Fin 32) (pg : Fin 8) (sz : Fin 4) (s : State) : Ans :=
  .next (vfBin t d a b pg sz FVal.mul s)

/-- vd + va × vb, rounded once. -/
def execVfma (t : Fin 128) (d a b : Fin 32) (pg : Fin 8) (sz : Fin 4) (s : State) : Ans :=
  .next (vfOp t d pg sz (fun c i =>
    (flane sz (c.vr d) i).add ((flane sz (c.vr a) i).mul (flane sz (c.vr b) i))) s)

/-- The smaller (or larger) of two values; a NaN operand yields the other. Of two zeros of different sign, an open
value says which. -/
def fpick (less pick0 : Bool) (x y : FVal) : FVal :=
  match x, y with
  | .nan, v => v
  | v, .nan => v
  | x, y =>
    if x.isZero && y.isZero then (if pick0 then x else y)
    else if x.lt y == less then x else y

/-- VFMIN and VFMAX. -/
def vfMinMax (t d a b pg sz : Nat) (less : Bool) (s : State) : State :=
  vfRun t sz (fun s =>
    let o := s.open
    (s.modCore t fun c => (c.setV d (laneMap (vfw sz) (c.pr pg) (c.vr d) fun i =>
      (vfmt sz).encode (fpick less (o.getLsbD (i % 64)) (flane sz (c.vr a) i) (flane sz (c.vr b) i)))).next 4).used) s

def execVfmin (t : Fin 128) (d a b : Fin 32) (pg : Fin 8) (sz : Fin 4) (s : State) : Ans :=
  .next (vfMinMax t d a b pg sz true s)
def execVfmax (t : Fin 128) (d a b : Fin 32) (pg : Fin 8) (sz : Fin 4) (s : State) : Ans :=
  .next (vfMinMax t d a b pg sz false s)

/-- Signed 32-bit integer lanes to the SZ format. With a 16-bit format there are 32 integers for 64 lanes: the upper
half's active lanes are open values (notes/assumptions/23.md). -/
def execVcvti (t : Fin 128) (d a : Fin 32) (pg : Fin 8) (sz : Fin 4) (s : State) : Ans :=
  .next (vfRun t sz (fun s =>
    let n := s.free
    (s.modCore t fun c => (c.setV d (laneMap (vfw sz) (c.pr pg) (c.vr d) fun i =>
      if i < 32 then (vfmt sz).encode (FVal.ofInt (slane 2 (c.vr a) i))
      else (Config.freeWord n).toNat / 2 ^ (i % 4 * 16))).next 4).used) s)

/-- SZ format to signed 32-bit integer lanes; of a 16-bit format, the low half's lanes. -/
def execVcvtf (t : Fin 128) (d a : Fin 32) (pg : Fin 8) (sz : Fin 4) (s : State) : Ans :=
  .next (vfRun t sz (fun s => s.modCore t fun c =>
    (c.setV d (laneMap 2 (c.pr pg) (c.vr d) fun i => wrap 32 ((flane sz (c.vr a) i).toInt 32))).next 4) s)

/-- Low-half BF16 or FP16 lanes widened to FP32. SZ = 2 names no half to widen: its active lanes are open values. -/
def execVcvtw (t : Fin 128) (d a : Fin 32) (pg : Fin 8) (sz : Fin 4) (s : State) : Ans :=
  .next (vfRun t sz (fun s =>
    let n := s.free
    (s.modCore t fun c => (c.setV d (laneMap 2 (c.pr pg) (c.vr d) fun i =>
      if sz.val = 2 then (Config.freeWord n).toNat / 2 ^ (i % 2 * 32)
      else fFP32.encode (flane sz (c.vr a) i))).next 4).used) s)

/-- FP32 lanes narrowed to the SZ format, in the low half of vd; the upper half is 0. SZ = 2 does not narrow: the
active lanes of its low half are open values. -/
def execVcvtn (t : Fin 128) (d a : Fin 32) (pg : Fin 8) (sz : Fin 4) (s : State) : Ans :=
  .next (vfRun t sz (fun s =>
    let n := s.free
    (s.modCore t fun c =>
      (c.setV d (BitVec.ofNat 1024 ((laneMap (vfw sz) (c.pr pg) (c.vr d) fun i =>
        if sz.val = 2 then (Config.freeWord n).toNat / 2 ^ (i % 2 * 32)
        else (vfmt sz).encode (fFP32.decode (lane 2 (c.vr a) (i % 32)))).toNat % 2 ^ 512))).next 4).used) s)

/-- VFCMPLT: NaN compares false; SZ = 3 is ILLEGAL. -/
def execVfcmplt (t : Fin 128) (d : Fin 8) (a b : Fin 32) (pg : Fin 8) (sz : Fin 4) (s : State) : Ans :=
  .next (vfRun t sz (fun s => s.modCore t fun c =>
    (c.setP d (lanesToPred (2 ^ vfw sz) (laneCount (vfw sz)) fun i =>
      active (vfw sz) (c.pr pg) i && (flane sz (c.vr a) i).lt (flane sz (c.vr b) i))).next 4) s)

end Sys2Proof.Machine
end

