-- ==== Sys2Proof/Machine/Arrays.lean ====
section
/-! DEFINITION. What the matrix arrays and the outer-product engines compute, row by row, and what a completed, failed,
saved or discarded operation leaves (05_matrix_arrays.md R136 to R171). -/

namespace Sys2Proof.Machine

open Sys2Proof

/-! ### Elements and rows -/

/-- Element `j` of `e` bits of a row's bytes, in little-endian bit order (R145). -/
def elemAt (row e j : Nat) : Nat := row / 2 ^ (j * e) % 2 ^ e

/-- The `n` elements of row `i` of a region, as the store holds them. -/
def rowElems (r : Region) (i n e : Nat) (s : State) : List Nat :=
  let v := leVal (bytesAt (r.row i) r.len s)
  (List.range n).map (elemAt v e)

/-- The words of row `i`. -/
def Region.rowWords (r : Region) (i : Nat) : List Nat := wordsOf (r.row i) r.len

/-- Every byte of a region lies in tile `t`'s own populated store (R144). -/
def Region.inStore (t : Nat) (r : Region) : Bool :=
  decide (tileBase t ≤ r.base ∧ r.limit ≤ tileBase t + tileStoreBytes)

/-- The operation's regions are all in range. -/
def MatOp.inRange (t : Nat) (o : MatOp) : Bool := o.regions.all fun r => r.inStore t

/-! ### The bit-serial array: integers (R137, R138, R146) -/

/-- The value of a weight code (R95, R136). -/
def weightVal (f : Fmt) (x : Nat) : Int := if f.wf = 1 then (x : Int) else signed f.bits x

/-- The sums down the columns: Σ_r W[r][c] × x_r. -/
def columnSums (n : Nat) (rows : List (List Int)) (xs : List Int) : List Int :=
  (rows.zip xs).foldl (fun acc p => List.zipWith (fun v w => v + w * p.2) acc p.1) (List.replicate n 0)

/-- Round to nearest, ties to even, of v × 2^-k. -/
def rneDiv (v : Int) (k : Nat) : Int :=
  let d : Int := (2 ^ k : Nat)
  let q := v / d
  let r := v % d
  if 2 * r > d ∨ (2 * r = d ∧ q % 2 = 1) then q + 1 else q

/-- An integer output element of `n` bits: its code, and whether it saturated (R146). -/
def intOut (n osh : Nat) (old : Option Nat) (v : Int) : Nat × Bool :=
  let t := rneDiv v osh + (match old with | some x => signed n x | none => 0)
  let o := satInt n t
  (wrap n o, o != t)

/-! ### Block scales (R149, R150) -/

/-- The power of two of an E8M0 scale, or none for NaN. -/
def scaleExp (e : Nat) : Option Int := if e = 0xFF then none else some ((e : Int) - 127)

/-- A value times 2^k. -/
def FVal.scale : FVal → Int → FVal
  | .fin n m e, k => .fin n m (e + k)
  | v, _ => v

/-- A value with the product of two scales applied: NaN where a scale is NaN. -/
def FVal.scaled (v : FVal) (ew ea : Nat) : FVal :=
  match scaleExp ew, scaleExp ea with
  | some a, some b => v.scale (a + b)
  | _, _ => .nan

/-- The MXINT8 output value: the segment sums with their scales and the 2^-12 of two elements. -/
def mxValue (segs : List Int) (ews eas : List Nat) : FVal :=
  FVal.sum ((segs.zip (ews.zip eas)).map fun p => ((FVal.ofInt p.1).scale (-12)).scaled p.2.1 p.2.2)

/-! ### The outer-product engine (R156, R157) -/

/-- The floating-point format of an OPE format code. -/
def opeFmt (f : Nat) : FFmt :=
  if f = 4 ∨ f = 9 then fE4M3 else if f = 5 ∨ f = 0xA then fE5M2 else if f = 6 then fBF16 else if f = 7 then fFP16
  else if f = 8 then fFP32 else if f = 0xB then fE3M2 else if f = 0xC then fE2M3 else fE2M1

/-- A value rounded to FP32. -/
def toFP32 (v : FVal) : FVal := fFP32.decode (fFP32.encode v)

/-- Split a list into groups of 32. -/
def groups32 {α : Type} : Nat → List α → List (List α)
  | 0, _ => []
  | n + 1, l => l.take 32 :: groups32 n (l.drop 32)

/-- The accumulator of one output element after the products of all k: with FP32 on either side, one fused multiply-add
for each k in ascending order, its product with the scales of its block; with other formats, exact groups of 32 with
their scales (R157). The rule gives no arithmetic of its own for FP32 beside another format: notes/assumptions/60.md. -/
def opeAcc (fp32 : Bool) (prods : List (FVal × FVal)) (ews eas : List Nat) : FVal :=
  if fp32 then
    prods.zipIdx.foldl (fun a p => toFP32 (a.add ((p.1.1.mul p.1.2).scaled (ews.getD (p.2 / 32) 127)
      (eas.getD (p.2 / 32) 127)))) (.fin false 0 0)
  else
    let gs := groups32 (ceilDiv prods.length 32) prods
    (gs.zip (ews.zip eas)).foldl (fun a g =>
      toFP32 (a.add ((FVal.sum (g.1.map fun p => p.1.mul p.2)).scaled g.2.1 g.2.2))) (.fin false 0 0)

/-! ### One output row -/

/-- What a row needs of the unit: the planes in use, and the scales of each. -/
structure Weights where
  rows   : List (List Nat)
  rows2  : List (List Nat)
  scales : List (List Nat)

/-- The K × N codes of a plane in a format; a cell that holds no weight, as every cell of an empty plane, counts as a
weight of 0 (R140, R142). -/
def Plane.codes (p : Plane) (f : Fmt) : List (List Nat) :=
  (List.range f.k).map fun r => (List.range f.n).map fun c => (p.rows.getD r []).getD c 0

/-- The weights that an operation uses. -/
def MUnit.weights (m : MUnit) (o : MatOp) : Weights :=
  let p := if o.plane = 0 then m.plane0 else m.plane1
  { rows := p.codes o.fmt, rows2 := m.plane1.codes o.fmt, scales := p.scales }

/-- Column `c` of rows of codes. -/
def column (rows : List (List Nat)) (c : Nat) : List Nat := rows.map fun r => r.getD c 0

/-- The output elements of a row: their codes, how many saturated, the exact sums that the checksum row keeps at the
column foot, split by parts and by segments, and what the row adds to the digest (R137, R146, R150, R152, R154, R157). `xs`: activation codes, `eas`: their
block scales, `olds`: the old outputs when ACC is 1. -/
def rowOut (o : MatOp) (w : Weights) (xs eas : List Nat) (olds : Option (List Nat)) :
    List Nat × Nat × List Int × Int :=
  let f := o.fmt
  let ob := if o.out = 0 then 32 else 16
  let old := fun i => olds.map fun l => l.getD i 0
  if f.wf < 2 then
    let vs := columnSums f.n (w.rows.map (·.map (weightVal f))) (xs.map (signed (actBits o.afmt)))
    let es := vs.zipIdx.map fun p => intOut ob (feederOsh o.gb) (old p.2) p.1
    (es.map (·.1), (es.filter (·.2)).length, vs, vs.sum)
  else if f.wf = 2 then
    let wr := w.rows.map (·.map (signed 16))
    let wi := w.rows2.map (·.map (signed 16))
    let xr := xs.map fun x => signed 16 x
    let xi := xs.map fun x => signed 16 (x / 65536)
    let re := List.zipWith (· - ·) (columnSums f.n wr xr) (columnSums f.n wi xi)
    let im := List.zipWith (· + ·) (columnSums f.n wi xr) (columnSums f.n wr xi)
    let es := (List.zip re im).zipIdx.map fun p =>
      let ox := old p.2
      (intOut ob (feederOsh o.gb) (ox.map (· % 2 ^ ob)) p.1.1, intOut ob (feederOsh o.gb) (ox.map (· / 2 ^ ob)) p.1.2)
    (es.map fun e => e.1.1 + e.2.1 * 2 ^ ob, (es.filter (·.1.2)).length + (es.filter (·.2.2)).length, re ++ im,
      re.sum + im.sum)
  else if f.wf = 3 then
    let nb := ceilDiv f.k 32
    let ws := groups32 nb (w.rows.map (·.map (signed 8)))
    let xg := groups32 nb (xs.map (signed 8))
    let segs := (ws.zip xg).map fun p => columnSums f.n p.1 p.2
    let ff := if o.out = 0 then fFP32 else fBF16
    let es := (List.range f.n).map fun c =>
      let v := mxValue (segs.map fun sg => sg.getD c 0) ((List.range nb).map fun j => (w.scales.getD j []).getD c 127) eas
      ff.encode (match old c with | some x => v.add (ff.decode x) | none => v)
    (es, 0, segs.flatten, segs.flatten.sum)
  else
    let nb := ceilDiv f.k 32
    let es := (List.range f.n).map fun c =>
      let prods := (xs.zip (column w.rows c)).map fun p => ((opeFmt o.afmt).decode p.1, (opeFmt f.wf).decode p.2)
      let a := opeAcc (f.wf == 8 || o.afmt == 8) prods
        ((List.range nb).map fun j => (w.scales.getD j []).getD c 127) eas
      if o.out = 0 then fFP32.encode (match old c with | some x => a.add (fFP32.decode x) | none => a)
      else fBF16.encode (match old c with | some x => toFP32 (a.add (fBF16.decode x)) | none => a)
    (es, 0, [], ((es.foldl (· + ·) 0 : Nat) : Int))

/-- Stream row `i` of an operation through unit `u` of tile `t`: the operation with its checksum state, and the word
that stopped it if one is uncorrectable (R155, R266). -/
def streamRow (t u i : Nat) (o : MatOp) (s : State) : Option Nat × MatOp × State :=
  let m := (s.tile t).munit u
  let mx := o.scaled && isMx o.afmt
  let ws := (o.acts.rowWords i ++ (if mx then o.ascales.rowWords i else []) ++
    (if o.acc then o.outs.rowWords i else [])).eraseDups
  match ws.filter fun w => s.eccAt w == .uncorrectable with
  | b :: _ => (some b, o, s)
  | [] =>
    let nb := ceilDiv o.fmt.k 32
    let ob := outBits o.fmt.wf o.out
    let xs := rowElems o.acts i o.fmt.k (actBits o.afmt) s
    let eas := if mx then rowElems o.ascales i nb 8 s else List.replicate nb 127
    let olds := if o.acc then some (rowElems o.outs i o.fmt.n ob s) else none
    let r := rowOut o (m.weights o) xs eas olds
    let data := leBytes o.outs.len (ofLanes ob r.1)
    let a := o.outs.row i
    match writeCells (data.zipIdx.map fun p => (a + p.2, p.1)) (readCorrects s ws) with
    | (some b, s') => (some b, o, s')
    | (none, s') =>
      let s' := s'.count .TILE_ARR_CNT 31 16 t u r.2.1
      let q := if o.fmt.wf = 2 then (xs.map fun x => signed 16 x) ++ xs.map fun x => signed 16 (x / 65536)
        else xs.map (signed (actBits o.afmt))
      (none, { o with
        nextRow := i + 1
        dig := o.dig + r.2.2.2
        q := if u = 4 then [] else if o.q = [] then q else List.zipWith (· + ·) o.q q
        foot := if o.foot = [] then r.2.2.1 else List.zipWith (· + ·) o.foot r.2.2.1 }, s')

/-- Stream `n` rows from row `i` on, until one meets an uncorrectable word. -/
def streamRows (t u : Nat) : Nat → Nat → MatOp → State → Option Nat × MatOp × State
  | 0, _, o, s => (none, o, s)
  | n + 1, i, o, s =>
    match streamRow t u i o s with
    | (some b, r) => (some b, r)
    | (none, o', s') => streamRows t u n (i + 1) o' s'

/-! ### The queue of a unit (R96, R140, R141) -/

/-- The operation uses plane `p` (a complex format uses both). -/
def MatOp.uses (o : MatOp) (p : Nat) : Bool := o.fmt.wf == 2 || o.plane == p

/-- Two operations share a plane. -/
def MatOp.shares (o b : MatOp) : Bool := (o.uses 0 && b.uses 0) || (o.uses 1 && b.uses 1)

/-- The operation may start behind those still ahead of it (R141). -/
def MatOp.canStart (o : MatOp) (before : List MatOp) : Bool :=
  if o.str then before.isEmpty else before.all fun b => b.str && !b.shares o

/-- The index of the next operation to start. -/
def nextStart (q : List MatOp) : Option Nat :=
  (List.range q.length).find? fun i =>
    match q[i]? with
    | some o => !o.running && o.canStart (q.take i)
    | none => false

/-- Change a unit of tile `t`. -/
def modUnit (t u : Nat) (f : MUnit → MUnit) (s : State) : State := s.modTile t fun x => x.setUnit u (f (x.munit u))

/-- Put an issued operation in a queue: a load takes the next plane and sets the format in force, a stream uses them
(R140). -/
def MUnit.take (m : MUnit) (o : MatOp) : MatOp × MUnit :=
  if o.str then ({ o with plane := m.curPlane, fmt := m.fmt }, m)
  else if o.fmt.wf = 2 then ({ o with plane := 0 }, { m with curPlane := 0, nextPlane := 0, fmt := o.fmt })
  else ({ o with plane := m.nextPlane },
    { m with curPlane := m.nextPlane, nextPlane := 1 - m.nextPlane, fmt := o.fmt })

/-- A unit with an operation at the end of its queue. -/
def MUnit.enqueue (m : MUnit) (o : MatOp) : MUnit :=
  let r := m.take o
  { r.2 with queue := r.2.queue ++ [r.1] }

/-- The planes that a load writes, emptied (R140, R144, R155, R167). -/
def MUnit.emptyPlanes (m : MUnit) (o : MatOp) : MUnit :=
  if o.fmt.wf = 2 then { m with plane0 := .empty, plane1 := .empty, image0 := none, image1 := none }
  else if o.plane = 0 then { m with plane0 := .empty, image0 := none }
  else { m with plane1 := .empty, image1 := none }

/-! ### Completion -/

/-- What a unit with nothing to do enters: KEEP, or a ramp down where KEEP_NS is 0 (R160, R161). -/
def unitRest (t u : Nat) (s : State) : UState := if s.rf .TILE_ARR_CTL 18 10 t u = 0 then .rampDown else .keep

/-- The operation at index `i` of a unit leaves the queue: its tag frees, with TAGERR on an error; a gang operation
notes the error; the digest takes what the operation adds; an empty queue enters KEEP, or ramps down when KEEP_NS is 0
(R97, R148, R154, R160). -/
def finishOp (t u i : Nat) (err : Bool) (dig : Int) (s : State) : State :=
  let m := (s.tile t).munit u
  match m.queue[i]? with
  | none => s
  | some o =>
    let q := m.queue.eraseIdx i
    let m' := { m with
      queue := q
      st := if q.isEmpty && m.gangPend.isEmpty then unitRest t u s else m.st
      keepAt := s.now }
    s.modTile t fun x =>
      let x := x.setUnit u m'
      let x := match o.tag with
        | some g => { x with core := { x.core with
            tagBusy := x.core.tagBusy &&& ~~~ (1#8 <<< g)
            tagErr := if err then x.core.tagErr ||| (1#8 <<< g) else x.core.tagErr } }
        | none => x
      { x with
        gangs := if err then x.gangs.map fun g => if some g.id = o.gang then { g with failed := true } else g
          else x.gangs
        digest := if err then x.digest else x.digest + BitVec.ofInt 64 dig }

/-- An uncorrectable operand word: TILE_ARR_ERR.UNCORR, a sticky record, and the mark in the live slots for partition 0
(R155, R205). -/
def arrayUncorr (t u w : Nat) (s : State) : State :=
  faultOf (some (s.core t).part.toNat)
    (memErrRecord .uncorr (whoTile s t) (w * 32) causeMemUncorr (s.flag .TILE_ARR_ERR 2 t u))

/-- A load completes: its plane or planes hold the weights, or are empty after an uncorrectable word. -/
def finishLoad (t u i : Nat) (o : MatOp) (s : State) : State :=
  let ws := (o.inputs.flatMap fun r => (List.range r.rows).flatMap r.rowWords).eraseDups
  match ws.filter fun w => s.eccAt w == .uncorrectable with
  | b :: _ => finishOp t u i true 0 (modUnit t u (·.emptyPlanes o) (arrayUncorr t u b s))
  | [] =>
    let rows := (List.range o.fmt.k).map fun r => rowElems o.weights r o.fmt.n o.fmt.bits s
    let scales := if o.scaled && isMx o.fmt.wf then
        (List.range (ceilDiv o.fmt.k 32)).map fun j => rowElems o.wscales j o.fmt.n 8 s
      else []
    let s := readCorrects s ws
    let o' := { o with running := false }
    let s := modUnit t u (fun m =>
      if o.fmt.wf = 2 then { m with
        plane0 := ⟨true, rows.map (·.map (· % 65536)), []⟩
        plane1 := ⟨true, rows.map (·.map (· / 65536)), []⟩
        image0 := some o', image1 := some o' }
      else if o.plane = 0 then { m with plane0 := ⟨true, rows, scales⟩, image0 := some o' }
      else { m with plane1 := ⟨true, rows, scales⟩, image1 := some o' }) s
    finishOp t u i false 0 s

/-- The mismatches that unit `u` finds on the rows of an operation, each as its row, its flag of TILE_ARR_ERR and what
FIRST_ROW records of it: the checksum column of a BSA, the residues of the OPE (R151, R153, R159). -/
def rowMismatches (u : Nat) (o : MatOp) (f : MatFault) : List (Nat × Nat × Nat) :=
  (if u < 4 then f.cols.map fun r => (r, 0, r) else f.blocks.map fun r => (r, 4, r / 64 * 64)).filter
    fun x => decide (x.1 < o.m)

/-- The mismatches that the checksum row finds after the last row, where CHK_ROW enables it (R152). -/
def sumMismatches (t u : Nat) (f : MatFault) (s : State) : List (Nat × Nat) :=
  if u < 4 && s.rb .TILE_ARR_CTL 1 t u then List.replicate f.sums (1, 0xFFFF) else []

/-- The number of rows that an operation streams: with CHK_STOP it stops after the first row with a mismatch (R153). -/
def rowsToStream (t u : Nat) (o : MatOp) (f : MatFault) (s : State) : Nat :=
  if s.rb .TILE_ARR_CTL 2 t u then (rowMismatches u o f).foldl (fun n x => min n (x.1 + 1)) o.m else o.m

/-- A mismatch is recorded: the flag, FIRST_ROW unless a mismatch stands, the count and the sticky record (R153,
R172). -/
def recordMismatch (t u fl first : Nat) (o : MatOp) (s : State) : State :=
  let e := s.reg .TILE_ARR_ERR t u
  let stands := bit e 0 || bit e 1 || bit e 4
  let s := s.flag .TILE_ARR_ERR fl t u
  let s := if stands then s else s.putReg .TILE_ARR_ERR 63 48 first t u
  let s := s.count .TILE_ARR_CNT 63 48 t u
  faultOf (some (s.core t).part.toNat) (errRecord 0x010 (whoTile s t) o.outs.base first s)

/-- The contents of `n` rows from row `i` on become open values. -/
def loseRows (r : Region) (i : Nat) : Nat → State → State
  | 0, s => s
  | n + 1, s => loseRows r (i + 1) n (s.loseRegion (r.row i) r.len)

/-- A stream completes with what its checks found (R148, R153, R155). -/
def finishStream (t u i : Nat) (o : MatOp) (f : MatFault) (s : State) : State :=
  let stop := rowsToStream t u o f s
  let r := streamRows t u (stop - o.nextRow) o.nextRow o s
  let o' := r.2.1
  let mis := ((rowMismatches u o f).filter fun x => decide (x.1 < o'.nextRow)).map (·.2) ++
    (if r.1.isNone && decide (o.m ≤ stop) then sumMismatches t u f s else [])
  let s := if o.inputs.any fun r => r.meets o.outs then loseRows o.outs 0 o'.nextRow r.2.2 else r.2.2
  let s := if mis.isEmpty then s
    else loseRows o.outs 0 o'.nextRow (mis.foldl (fun s x => recordMismatch t u x.1 x.2 o s) s)
  match r.1 with
  | some b => finishOp t u i true 0 (arrayUncorr t u b s)
  | none => finishOp t u i (!mis.isEmpty) o'.dig s

/-! ### Partial progress: preemption and discarding -/

/-- The running stream of a unit has done an open number of its rows; where the unit may finish what it is on, the OPE
goes on to the end of its 64-row block (R142, R157, R167). -/
def runPart (t u : Nat) (finish : Bool) (s : State) : State :=
  match ((s.tile t).munit u).queue.findIdx? fun o => o.running && o.str with
  | none => s
  | some i =>
    match ((s.tile t).munit u).queue[i]? with
    | none => s
    | some o =>
      let n := s.open.toNat % (o.m - o.nextRow + 1)
      let n := if finish && u == 4 then min o.m (ceilDiv (o.nextRow + n) 64 * 64) - o.nextRow else n
      let r := streamRows t u n o.nextRow o s.used
      modUnit t u (fun m => { m with queue := m.queue.set i r.2.1 }) r.2.2

/-- A unit after its context is taken: nothing runs, and the plane that a load was writing is empty (R167). -/
def MUnit.paused (m : MUnit) : MUnit :=
  let m := m.queue.foldl (fun m o => if o.running && !o.str then m.emptyPlanes o else m) m
  { m with queue := m.queue.map fun o => { o with running := false } }

/-- A unit with nothing left to do: every operation and plane discarded, ramping down unless it is idle (R171). -/
def MUnit.discarded (m : MUnit) : MUnit :=
  { MUnit.reset with st := if m.st = .idle then .idle else .rampDown }

/-- TILE_RESET, or a kernel's end other than through KEND: the units discard everything and the tags clear (R142,
R171). -/
def discardUnits (t : Nat) (s : State) : State :=
  let s := (List.range 5).foldl (fun s u => runPart t u false s) s
  s.modTile t fun x => { x with
    units := (List.range 5).foldl (fun us u =>
      Tab.set (fun _ => MUnit.reset) us u (Tab.get (fun _ => MUnit.reset) us u).discarded) x.units
    gangs := []
    core := { x.core with tagBusy := 0, tagErr := 0 } }

/-- The units at a launch: every plane empty, the format in force reset (R142); the alternation of R140 starts again with
plane 0 (notes/assumptions/161.md). What a gang operation has brought stays (R166). -/
def MUnit.launched (m : MUnit) : MUnit :=
  { MUnit.reset with st := m.st, keepAt := m.keepAt, queue := m.queue, gangPend := m.gangPend }

/-! ### Power (R39, R162, R459) -/

/-- The governor withholds every bit-cycle of the arrays of tile `t`: TRIM is 0, and the tile does not work for the
radio, which is never trimmed. Before the governor's first window no trim is set. -/
def trimmed (t : Nat) (s : State) : Bool :=
  !s.pwr.hist.isEmpty && s.rf .PWR_GOV_STAT 6 0 == 0 &&
    !(s.radio && (match (s.tile t).cx with
      | some c => s.cxPart c == 0
      | none => s.holdsTile 0 t))

end Sys2Proof.Machine
end

