-- ==== Sys2Proof/Machine/Contexts.lean ====
section
/-! DEFINITION. Launches and contexts as the scheduler sees them, and the states of R407
(13_partitions_and_scheduling.md). -/

namespace Sys2Proof.Machine

open Sys2Proof

def modSched (f : Sched → Sched) (s : State) : State := { s with sched := f s.sched }

/-- Context `c`, besides its registers. -/
def State.cx (s : State) (c : Nat) : Cx := Tab.get (fun _ => Cx.reset) s.sched.cxs c

def modCx (c : Nat) (f : Cx → Cx) (s : State) : State :=
  modSched (fun d => { d with cxs := Tab.set (fun _ => Cx.reset) d.cxs c (f (s.cx c)) }) s

/-- CX_CTL.VALID. -/
def State.cxValid (s : State) (c : Nat) : Bool := s.rb .CX_CTL 63 c

/-- The tile set of context `c`. -/
def State.cxTiles (s : State) (c : Nat) : BitVec 128 := mask128 (s.reg .CX_TILE_LO c) (s.reg .CX_TILE_HI c)

/-- The size of its rings (R409, R431). -/
def cxSize (c : Nat) (s : State) : Nat := 2 ^ min 12 (max 4 (s.rf .CX_CTL 3 0 c))

def State.launch (s : State) (id : Nat) : Option Launch := s.sched.launches.find? fun l => l.id == id

def modLaunch (id : Nat) (f : Launch → Launch) (s : State) : State :=
  modSched (fun d => { d with launches := d.launches.map fun l => if l.id = id then f l else l }) s

def PartSt.isEnd : PartSt → Bool
  | .ended .. => true
  | _ => false

/-- Change the part of a launch on one tile. A part that has ended changes no more, and another part of the launch may
have been moved to its tile (R417). -/
def modPart (id t : Nat) (f : LTile → LTile) (s : State) : State :=
  modLaunch id (fun l => { l with tiles := l.tiles.map fun x => if x.tile = t && !x.st.isEnd then f x else x }) s

/-- Where a launch stands on tile `t`: its part there that has not ended, or else one that has. -/
def Launch.part? (l : Launch) (t : Nat) : Option LTile :=
  (l.tiles.find? fun x => x.tile == t && !x.st.isEnd) <|> l.tiles.find? fun x => x.tile == t

/-- It has reached a tile. -/
def PartSt.on : PartSt → Bool
  | .placed => true
  | .ready => true
  | .running => true
  | _ => false

/-- Every tile of the launch has ended (R413). -/
def Launch.over (l : Launch) : Bool := l.tiles.all fun x => x.st.isEnd

/-- The launches of context `c`, in the order in which they were taken. -/
def cxLaunches (c : Nat) (s : State) : List Launch := s.sched.launches.filter fun l => l.cx == c

/-- A tile of a launch keeps its context blocked (R407). -/
def partBlocked (id : Nat) (x : LTile) (s : State) : Bool :=
  match x.st with
  | .ended .. => true
  | .placed => x.hold.isSome
  | .running =>
    let u := s.tile x.tile
    if u.launch == some id && u.run != .restoring then
      match u.core.wait with
      | .event .. => u.run == .running
      | _ => false
    else true
  | _ => false

/-- The state of R407, as CX_STAT.STATE gives it. -/
def cxState (c : Nat) (s : State) : Nat :=
  let x := s.cx c
  if !s.cxValid c then 0
  else if x.swap ≠ 0 then x.swap
  else
    let ls := (cxLaunches c s).filter fun l => !l.over
    let on := ls.filter fun l => l.tiles.any fun y => y.st.on
    if ls.isEmpty then 0
    else if on.isEmpty then 1
    else if on.all fun l => l.tiles.all fun y => partBlocked l.id y s then 3
    else 2

/-- Note a change of a context's state, with its time (R407). -/
def noteCx (c : Nat) (s : State) : State :=
  let k := cxState c s
  if k = (s.cx c).code then s else modCx c (fun x => { x with code := k, since := s.now }) s

/-- The same for the context on tile `t`. -/
def noteTile (t : Nat) (s : State) : State :=
  match (s.tile t).cx with
  | some c => noteCx c s
  | none => s

/-- CX_STAT.BLK_US: the time since it last entered BLOCKED or IDLE (R407). -/
def blkUs (c : Nat) (s : State) : Nat :=
  let k := cxState c s
  if s.cxValid c && (k == 0 || k == 3) then satNat 24 ((s.now - (s.cx c).since) / 1000) else 0

/-- The contexts that hold a scheduler slot (R406): resident ones and those being swapped. -/
def holdsSlot (c : Nat) (s : State) : Bool := s.cxValid c && (s.cx c).swap != 5

/-- The valid contexts. -/
def cxList (s : State) : List Nat := (List.range 256).filter fun c => s.cxValid c

def slotsUsed (s : State) : Nat := ((cxList s).filter fun c => holdsSlot c s).length

/-- A pinned context is never swapped out (R406). -/
def cxPinned (c : Nat) (s : State) : Bool := s.rb .CX_CTL 62 c || (s.radio && s.cxPart c == 0)

end Sys2Proof.Machine
end

