-- ==== Sys2Proof/Machine/Encoding.lean ====
section
/-! DEFINITION. Which parcels are legal encodings (03_tile_isa.md R83, R84, R90 to R94, R98; 04_dsp_datapath.md R114,
R115): the assigned opcodes and function codes, with every reserved field and every register field that the
instruction does not use at 0. What only the operands decide (formats of R95, status register indices of R79) is left
to the instructions' own meanings. -/

namespace Sys2Proof.Machine

/-- The D, A and B fields that an OP 0x25 instruction uses: none for an unassigned function code (R98). -/
def sysFields (f : Nat) : Option (Bool × Bool × Bool) :=
  if f ∈ [0x00, 0x01, 0x03, 0x04, 0x19, 0x1A] then some (false, false, false)
  else if f = 0x02 then some (false, true, true)
  else if f ∈ [0x08, 0x09] then some (true, false, false)
  else if f ∈ [0x0A, 0x0B, 0x0D, 0x10, 0x11] then some (true, true, false)
  else if f = 0x0C then some (true, true, true)
  else if f = 0x18 then some (false, true, false)
  else none

/-- Vector classes in format V: operand fields VD, VA, VB, PG, the width code and the function code. -/
def legalV (op d a b pg sz vf : Nat) : Bool :=
  if op = 0x28 then
    decide (vf ≤ 0x0E ∨ vf = 0x10) || (decide (vf = 0x11 ∨ vf = 0x12) && b == 0)
  else if op = 0x29 then
    sz != 3 && (decide (vf ≤ 5) || (decide (8 ≤ vf ∧ vf ≤ 0x0B) && b == 0))
  else
    if vf ≤ 2 then decide (d < 8)
    else if vf = 3 then decide (d < 8) && sz != 3
    else if vf = 8 ∨ vf = 9 ∨ vf = 0x0A ∨ vf = 0x0B then decide (d < 8 ∧ a < 8 ∧ b < 8 ∧ pg = 0)
    else if vf = 0x0C ∨ vf = 0x0D then decide (d < 8 ∧ a = 0 ∧ b = 0 ∧ pg = 0)
    else false

/-- OP 0x2D, format R with SZ in F[7:6]. -/
def legalVR (d a b f : Nat) : Bool :=
  if f = 0x08 ∨ f = 0x09 then decide (a < 8 ∧ b = 0)
  else if f = 0x0A then decide (d < 8)
  else
    let c := f % 64
    if c = 0 then decide (d < 32 ∧ b = 0)
    else if c = 1 then decide (a < 32)
    else if c = 2 then decide (d < 32)
    else if c = 4 ∨ c = 5 then decide (d < 32 ∧ b < 32)
    else false

/-- The DSP formats of R114: `w` is the whole parcel. -/
def legalDsp (op : Nat) (w : BitVec 32) : Bool :=
  let df := fld w 7 0
  let y0 := fld w 16 12 == 0
  let c0 := fld w 11 8 == 0
  let accOdd := fld w 22 22 == 1
  let ad0 := fld w 24 22 == 0
  let aa0 := fld w 21 19 == 0
  let g0 := fld w 18 13 == 0
  if op = 0x30 then
    if df ∈ [0x00, 0x01, 0x02, 0x05] then c0
    else if df = 0x03 then y0
    else if df = 0x04 then true
    else if df = 0x06 then y0 && c0
    else false
  else if op = 0x31 then
    !accOdd && (if df ≤ 3 then c0 else if df = 4 ∨ df = 5 then y0 else false)
  else if op = 0x32 then
    fld w 21 17 == 0 && (df == 0 || (df == 1 && !accOdd))
  else if op = 0x33 then
    if df = 0 then aa0 && g0
    else if df ≤ 4 then g0
    else if df = 7 then aa0
    else if df ≤ 9 then ad0
    else false
  else if op = 0x34 then
    fld w 25 24 != 3 && decide (fld w 23 19 ≤ 19) && (fld w 25 24 != 1 || g0)
  else if op = 0x35 then fld w 25 20 == 0 && fld w 13 6 == 0
  else if op = 0x36 then
    if df = 0 then fld w 25 25 == 0 && fld w 19 19 == 0
    else if df = 1 then fld w 19 19 == 0 && fld w 13 8 == 0
    else df == 2 && fld w 13 8 == 0
  else fld w 19 14 == 0 && decide (df < 2)

/-- The long form (R94), from both parcels. -/
def legalLong (w w1 : BitVec 32) : Bool :=
  let lop := fld w 25 22
  let unit := fld w 7 7 == 0 || fld w 9 8 == 0
  if lop = 0 then fld w 3 0 == 0 && unit && fld w1 9 0 == 0
  else if lop = 1 then fld w 2 0 == 0 && unit && fld w1 7 0 == 0 && decide (fld w1 15 14 < 2)
  else lop == 0xE && fld w 14 0 == 0

/-- The parcel (with the next one, for the long form) is a legal encoding. -/
def legalParcel (w w1 : BitVec 32) : Bool :=
  let op := fld w 31 26
  let f := fld w 7 0
  let d := fld w 25 20
  let a := fld w 19 14
  let b := fld w 13 8
  if op = 0x01 then
    decide (f ≤ 0x0D ∨ (0x10 ≤ f ∧ f ≤ 0x17 ∧ f ≠ 0x13)) || (decide (0x18 ≤ f ∧ f ≤ 0x1A) && b == 0)
  else if 0x06 ≤ op ∧ op ≤ 0x08 then fld w 13 6 == 0
  else if (0x02 ≤ op ∧ op ≤ 0x0C) ∨ (0x10 ≤ op ∧ op ≤ 0x17) ∨ (0x18 ≤ op ∧ op ≤ 0x1E) ∨ (0x20 ≤ op ∧ op ≤ 0x23) then
    true
  else if op = 0x24 then decide (f ≤ 7)
  else if op = 0x25 then
    match sysFields f with
    | some (ud, ua, ub) => (ud || d == 0) && (ua || a == 0) && (ub || b == 0)
    | none => false
  else if op = 0x26 ∨ op = 0x27 then a == 0
  else if 0x28 ≤ op ∧ op ≤ 0x2A then
    legalV op (fld w 25 21) (fld w 20 16) (fld w 15 11) (fld w 10 8) (fld w 7 6) (fld w 5 0)
  else if op = 0x2B ∨ op = 0x2C then true
  else if op = 0x2D then legalVR d a b f
  else if 0x30 ≤ op ∧ op ≤ 0x37 then legalDsp op w
  else if op = 0x3F then legalLong w w1
  else false

end Sys2Proof.Machine
end

