-- ==== Sys2Proof/Machine/System.lean ====
section
/-! DEFINITION. The system and time instructions of a tile's core (03_tile_isa.md R79, R80, R96 to R101, R106), and
the illegal encodings (R84). A wait keeps pc at the waiting instruction; the command that ends it writes the result
and goes on. FENCEF and KEND, which wait for the fabric, are in Machine/Fabric files. -/

namespace Sys2Proof.Machine

open Sys2Proof

/-! ### Illegal encodings -/

/-- A parcel that is no legal encoding raises ILLEGAL (R84). With a legal one the event does not happen. -/
def execIllegalOpcode (t : Fin 128) (w0 w1 : BitVec 32) (s : State) : Ans :=
  .next (if legalParcel w0 w1 then s else runParcels t (if fld w0 31 26 = 0x3F then 2 else 1) false (illegal t) s)

/-! ### Fences and caches -/

/-- The core stops inside an instruction. -/
def waitIn (t : Nat) (w : Wait) (s : State) : State := s.modCore t fun c => { c with wait := w }

/-- The core leaves a wait: the result is written, and it goes on to the next parcel. -/
def CoreRegs.leave (c : CoreRegs) (f : CoreRegs → CoreRegs) : CoreRegs := (f { c with wait := .none }).next 4

/-- Tile `t`'s core waits inside an instruction of which `p` holds, and may go on. -/
def waitsFor (t : Nat) (p : Wait → Bool) (s : State) : Bool :=
  s.enabled t && (s.tile t).run == .running && p (s.core t).wait

def execFence (t : Fin 128) (s : State) : Ans := .next (runInstr t false (waitIn t .fence) s)

/-- A posted store of the core through the window has not been performed at its destination: the device knows of that
by its acknowledgement, or gives the store up after 2 ms (R106, R379, R387; notes/assumptions/151.md). -/
def storesOut (t : Nat) (s : State) : Bool :=
  s.fab.peers.any fun e => e.2.sent.any fun o => o.tag == .tile t && !o.lost

/-- Every earlier access of the core has been performed: FENCE returns (R106). -/
def execFenceComplete (t : Fin 128) (s : State) : Ans :=
  .next (if waitsFor t (· == .fence) s && !storesOut t s then s.modCore t fun c => c.leave id else s)

/-- CINV: drop the lines that overlap [ga, ga + gb). -/
def execCinv (t : Fin 128) (a b : Fin 64) (s : State) : Ans :=
  .next (runInstr t false (fun s =>
    let lo := ((s.core t).gr a).toNat
    let n := ((s.core t).gr b).toNat
    s.modTile t fun x => { x with
      dcache := x.dcache.filter fun l => !decide (0 < n ∧ l.1 * 64 < lo + n ∧ lo < l.1 * 64 + 64)
      core := x.core.next 4 }) s)

def execCinva (t : Fin 128) (s : State) : Ans :=
  .next (runInstr t false (fun s => s.modTile t fun x => { x with dcache := [], core := x.core.next 4 }) s)

def execIinv (t : Fin 128) (s : State) : Ans :=
  .next (runInstr t false (fun s => s.modTile t fun x => { x with icache := [], core := x.core.next 4 }) s)

/-! ### Time -/

/-- The tile's time view (R46), a 64-bit ns reading. -/
def timeView (s : State) : Word := BitVec.ofNat 64 s.now

def execRdt (t : Fin 128) (d : Fin 64) (s : State) : Ans :=
  .next (runInstr t false (fun s => s.modCore t fun c =>
    ({ c.setG d (timeView s) with rdtSub := BitVec.ofNat 16 s.tb.subns }).next 4) s)

def execRdts (t : Fin 128) (d : Fin 64) (s : State) : Ans :=
  .next (simple t false (fun c => c.setG d (c.rdtSub.setWidth 64)) s)

/-- WAITT (R99): a target more than 2^34 ns ahead raises TIME_RANGE; a passed one returns the lateness. -/
def execWaitt (t : Fin 128) (d a : Fin 64) (s : State) : Ans :=
  .next (runInstr t false (fun s =>
    let g := (s.core t).gr a
    if s.now + 2 ^ 34 < g.toNat then takeException t causeTimeRange 0 s
    else if g.toNat ≤ s.now then s.modCore t fun c => (c.setG d (timeView s - g)).next 4
    else waitIn t (.time d g) s) s)

/-- The time view has reached the target: gd := time view − ga (R99). -/
def execWaittResume (t : Fin 128) (s : State) : Ans :=
  .next (match (s.core t).wait with
    | .time d g =>
      if waitsFor t (fun _ => true) s && decide (g.toNat ≤ s.now) then
        s.modCore t fun c => c.leave fun c => c.setG d (timeView s - g)
      else s
    | _ => s)

/-! ### Events -/

/-- gd := TEVT ∩ mask, and those bits clear (R100). -/
def CoreRegs.takeEvt (c : CoreRegs) (d : Nat) (m : BitVec 32) : CoreRegs :=
  { c.setG d ((c.tevt &&& m).setWidth 64) with tevt := c.tevt &&& ~~~ m }

def execWaite (t : Fin 128) (d a : Fin 64) (s : State) : Ans :=
  .next (runInstr t false (fun s =>
    let c := s.core t
    let m := (c.gr a).setWidth 32
    if c.gr a = 0 || c.tevt &&& m != 0 then s.modCore t fun c => (c.takeEvt d m).next 4
    else noteTile t (waitIn t (.event d m) s)) s)

def execWaiteReturn (t : Fin 128) (s : State) : Ans :=
  .next (match (s.core t).wait with
    | .event d m =>
      if waitsFor t (fun _ => true) s && (s.core t).tevt &&& m != 0 then
        noteTile t (s.modCore t fun c => c.leave fun c => c.takeEvt d m)
      else s
    | _ => s)

/-! ### Bells (R101) -/

/-- ARMB takes effect once every earlier store of the core has been performed: until then it waits (R106). -/
def execArmb (t : Fin 128) (d a b : Fin 64) (s : State) : Ans :=
  .next (runInstr t false (fun s =>
    if storesOut t s then s else
    let c := s.core t
    let r := armbOp t c.part.toNat (c.gr d) (c.gr a) (c.gr b) s
    r.2.modCore t fun c => (c.setG d (BitVec.ofNat 64 r.1)).next 4) s)

def execDisb (t : Fin 128) (d a : Fin 64) (s : State) : Ans :=
  .next (runInstr t false (fun s =>
    let c := s.core t
    let r := disbOp t c.part.toNat (c.gr a) s
    r.2.modCore t fun c => (c.setG d (BitVec.ofNat 64 r.1)).next 4) s)

/-! ### Matrix tags (R97) -/

/-- gd := TAGERR ∩ mask, and those bits clear. -/
def CoreRegs.takeTags (c : CoreRegs) (d : Nat) (m : BitVec 8) : CoreRegs :=
  { c.setG d ((c.tagErr &&& m).setWidth 64) with tagErr := c.tagErr &&& ~~~ m }

def execMwait (t : Fin 128) (d a : Fin 64) (s : State) : Ans :=
  .next (runInstr t false (fun s =>
    let c := s.core t
    let m := (c.gr a).setWidth 8
    if c.tagBusy &&& m = 0 then s.modCore t fun c => (c.takeTags d m).next 4 else waitIn t (.tags d m) s) s)

def execMwaitReturn (t : Fin 128) (s : State) : Ans :=
  .next (match (s.core t).wait with
    | .tags d m =>
      if waitsFor t (fun _ => true) s && (s.core t).tagBusy &&& m == 0 then
        s.modCore t fun c => c.leave fun c => c.takeTags d m
      else s
    | _ => s)

def execMtest (t : Fin 128) (d a : Fin 64) (s : State) : Ans :=
  .next (simple t false (fun c =>
    let m := (c.gr a).setWidth 8
    c.setG d (place 15 8 (c.tagBusy &&& m).toNat ||| place 7 0 (c.tagErr &&& m).toNat)) s)

/-! ### Status registers (R79, R80) -/

/-- What a status register index is: its access in K mode and in M mode allows a write (rw), a read only (ro), or the
index is for M mode alone; none for an undefined index. -/
inductive StatusAccess where
  | rw | ro | mrw | mro
  deriving DecidableEq, Repr

def statusAccess (i : Nat) : Option StatusAccess :=
  if i = 0x000 ∨ i = 0x008 then some .rw
  else if i = 0x001 ∨ i = 0x002 ∨ i = 0x003 ∨ i = 0x005 then some .mrw
  else if i = 0x004 then some .mro
  else if 0x009 ≤ i ∧ i ≤ 0x00D then some .ro
  else none

/-- The value that MFS reads. CYC is an open value: the model keeps no tile clock. -/
def statusRead (t i : Nat) (s : State) : Word :=
  let c := s.core t
  if i = 0x000 then c.tstat
  else if i = 0x001 then c.epc
  else if i = 0x002 then c.ecause.setWidth 64
  else if i = 0x003 then c.eaddr
  else if i = 0x004 then s.reg .TILE_MVEC t
  else if i = 0x005 then c.mscratch
  else if i = 0x008 then c.tevt.setWidth 64
  else if i = 0x009 then BitVec.ofNat 64 t
  else if i = 0x00A then c.kentry.setWidth 64
  else if i = 0x00B then c.ltime
  else if i = 0x00C then s.reg .TILE_EPOCH t
  else s.open

/-- MTS: TSTAT takes W1C on TAGERR and, in M mode, PM; TEVT is replaced. -/
def CoreRegs.statusWrite (c : CoreRegs) (i : Nat) (v : Word) : CoreRegs :=
  if i = 0x000 then
    { c with
      tagErr := c.tagErr &&& ~~~ BitVec.ofNat 8 (fld v 47 40)
      pm := if c.modeM then bit v 8 else c.pm }
  else if i = 0x001 then { c with epc := v }
  else if i = 0x002 then { c with ecause := v.setWidth 8 }
  else if i = 0x003 then { c with eaddr := v }
  else if i = 0x005 then { c with mscratch := v }
  else { c with tevt := v.setWidth 32 }

/-- An index that the mode may not use raises PRIVILEGED; an undefined one, and a write to an RO one, ILLEGAL. -/
def withStatus (t i : Nat) (write : Bool) (f : State → State) (s : State) : State :=
  match statusAccess i with
  | none => illegal t s
  | some a =>
    if write && (a == .ro || a == .mro) then illegal t s
    else if (a == .mrw || a == .mro) && !(s.core t).modeM then takeException t causePrivileged 0 s
    else f s

def execMfs (t : Fin 128) (d : Fin 64) (idx : BitVec 14) (s : State) : Ans :=
  .next (runInstr t false (withStatus t idx.toNat false (fun s =>
    let s' := s.modCore t fun c => (c.setG d (statusRead t idx.toNat s)).next 4
    if idx.toNat = 0x00D then s'.used else s')) s)

def execMts (t : Fin 128) (d : Fin 64) (idx : BitVec 14) (s : State) : Ans :=
  .next (runInstr t false (withStatus t idx.toNat true (fun s =>
    s.modCore t fun c => (c.statusWrite idx.toNat (c.gr d)).next 4)) s)

/-! ### The window's counter (R108) -/

def execTileCntCorrRead (t : Fin 128) (s : State) : Ans := .next (s.readPlain .TILE_CNT_CORR t)

end Sys2Proof.Machine
end

