-- ==== Sys2Proof/Machine/ArrayCmds.lean ====
section
/-! DEFINITION. The commands of the matrix units: issue from the core (03_tile_isa.md R94 to R97), start, completion and
the ramps (05_matrix_arrays.md R141, R144, R148, R160, R161), gang operations (R163 to R166) and the unit registers
(R172). -/

namespace Sys2Proof.Machine

open Sys2Proof

/-! ### Issue (R95, R96, R143) -/

/-- The weight format, bits and shape that an MLDW names are ones that the unit takes (R95). `wb` is the WB−1 field. -/
def loadOk (u : Nat) (k n wb wf : Nat) : Bool :=
  if u < 4 then
    decide (wf < 2) || (wf == 2 && wb == 15) || (wf == 3 && wb == 0)
  else decide (4 ≤ wf ∧ wf ≤ 0xD) && wb == 0 && decide (k ≤ 64 ∧ n ≤ 64)

/-- The activation format pairs with the weight format in force (R95, R143, R156), and the output width exists. -/
def streamOk (u : Nat) (f : Fmt) (af out : Nat) : Bool :=
  decide (out < 2) &&
    (if u < 4 then
      (decide (f.wf < 2) && (af == 0 || af == 0xE)) || (f.wf == 2 && af == 2) || (f.wf == 3 && af == 3)
    else decide (4 ≤ af ∧ af ≤ 0xD) && decide (4 ≤ f.wf ∧ f.wf ≤ 0xD))

/-- The unit that ARR and U name exists on the tile: the OPE with ARR 0, on mill tiles (R94, R95). -/
def unitOk (t : Nat) (arr : Nat) (ope : Bool) : Bool := !ope || (arr == 0 && isMill t)

/-- The unit number: BSA 0 to 3, the OPE 4. -/
def unitOf (arr : Nat) (ope : Bool) : Nat := if ope then 4 else arr

/-- Issue an operation on a unit under a tag: ILLEGAL unless `ok`; a full queue, a busy tag or a gang operation that
waits stalls the core, and nothing happens yet (R96, R165). -/
def issueOp (t u : Nat) (tag : Nat) (ok : State → Bool) (mk : CoreRegs → MatOp) (s : State) : State :=
  runLong t (fun s =>
    if !ok s then illegal t s
    else
      let m := (s.tile t).munit u
      if m.queue.length ≥ 4 || !m.gangPend.isEmpty || (s.core t).tagBusy.getLsbD tag then s
      else s.modTile t fun x =>
        let x := x.setUnit u (m.enqueue (mk x.core))
        { x with core := { x.core with tagBusy := x.core.tagBusy ||| (1#8 <<< tag) }.next 8 }) s

/-- MLDW (R94, R140). -/
def execMldw (t : Fin 128) (ga gb : Fin 64) (arr : Fin 4) (ope : Bool) (tag : Fin 8) (k n : BitVec 7) (wb wf : BitVec 4)
    (s : State) : Ans :=
  .next (issueOp t (unitOf arr ope) tag
    (fun _ => unitOk t arr ope && loadOk (unitOf arr ope) (k.toNat + 1) (n.toNat + 1) wb.toNat wf.toNat)
    (fun c => { str := false, ga := c.gr ga, gb := c.gr gb, gs := 0, scaled := gb != 0,
                fmt := ⟨k.toNat + 1, n.toNat + 1, wb.toNat + 1, wf.toNat⟩, plane := 0, m := 0, afmt := 0, out := 0,
                acc := false, tag := some tag, gang := none, running := false, nextRow := 0, q := [], foot := [],
                dig := 0, late := false }) s)

/-- MSTR (R94, R96). `m` is the M−1 field. -/
def execMstr (t : Fin 128) (ga gb : Fin 64) (arr : Fin 4) (ope : Bool) (tag : Fin 8) (acc : Bool) (m : BitVec 12)
    (af : BitVec 4) (out : BitVec 2) (gs : Fin 64) (s : State) : Ans :=
  .next (issueOp t (unitOf arr ope) tag
    (fun s => unitOk t arr ope && streamOk (unitOf arr ope) ((s.tile t).munit (unitOf arr ope)).fmt af.toNat out.toNat)
    (fun c => { str := true, ga := c.gr ga, gb := c.gr gb, gs := c.gr gs, scaled := gs != 0, fmt := .reset, plane := 0,
                m := m.toNat + 1, afmt := af.toNat, out := out.toNat, acc := acc, tag := some tag, gang := none,
                running := false, nextRow := 0, q := [], foot := [], dig := 0, late := false }) s)

/-! ### Start and completion -/

/-- The operation at index `i` starts; with a region out of range it completes with an error at once, and a load leaves
its planes empty (R144). -/
def beginOp (t u i : Nat) (s : State) : State :=
  match ((s.tile t).munit u).queue[i]? with
  | none => s
  | some o =>
    if o.inRange t then
      modUnit t u (fun m => { m with st := .active, queue := m.queue.set i { o with running := true } }) s
    else
      let s := (modUnit t u (fun m => { m with st := .active }) s).flag .TILE_ARR_ERR 3 t u
      finishOp t u i true 0 (if o.str then s else modUnit t u (·.emptyPlanes o) s)

/-- The next operation that may start does so (R141), unless the governor withholds its issue (R162). -/
def beginNext (t u : Nat) (s : State) : State :=
  match if trimmed t s then none else nextStart ((s.tile t).munit u).queue with
  | some i => beginOp t u i s
  | none => s

/-- An operation reaches its unit's head: an idle unit ramps up first, a ramp down reverses, and KEEP or an active unit
starts at once (R160, R161). With TRIM = 0 the governor withholds it (R162). -/
def execMatrixOperationStart (t : Fin 128) (u : Fin 5) (s : State) : Ans :=
  .next (
    let m := (s.tile t).munit u
    match if trimmed t s then none else nextStart m.queue with
    | none => s
    | some i =>
      match m.st with
      | .idle => modUnit t u (fun m => { m with st := .rampUp }) s
      | .rampDown => modUnit t u (fun m => { m with st := .rampUp }) s
      | .active => beginOp t u i s
      | .keep => beginOp t u i s
      | _ => s)

/-- 64 ramp cycles have passed: real work starts (R161). -/
def execRampUpEnd (t : Fin 128) (u : Fin 5) (s : State) : Ans :=
  .next (
    let m := (s.tile t).munit u
    if m.st == .rampUp && !m.queue.isEmpty then beginNext t u (modUnit t u (fun m => { m with st := .active }) s) else s)

/-- KEEP_NS has elapsed with no new operation: the unit ramps down (R160). -/
def execKeepEnd (t : Fin 128) (u : Fin 5) (s : State) : Ans :=
  .next (
    let m := (s.tile t).munit u
    if m.st == .keep && m.queue.isEmpty && m.gangPend.isEmpty &&
        decide (m.keepAt + s.rf .TILE_ARR_CTL 18 10 t u ≤ s.now) then
      modUnit t u (fun m => { m with st := .rampDown }) s
    else s)

/-- The ramp down has ended: the unit is idle (R160). -/
def execRampDownEnd (t : Fin 128) (u : Fin 5) (s : State) : Ans :=
  .next (modUnit t u (fun m => if m.st = .rampDown then { m with st := .idle } else m) s)

/-- The running load (`str` false) or stream of the unit completes, with what its checks found. Cycles lost to feeder
conflicts are an open number. -/
def execMatrixOperationComplete (t : Fin 128) (u : Fin 5) (str : Bool) (fault : MatFault) (s : State) : Ans :=
  .next (
    match ((s.tile t).munit u).queue.findIdx? fun o => o.running && o.str == str with
    | none => s
    | some i =>
      match ((s.tile t).munit u).queue[i]? with
      | none => s
      | some o =>
        let s := (s.count .TILE_ARR_CNT 15 0 t u (fld s.open 15 0)).used
        if str then finishStream t u i o fault s else finishLoad t u i o s)

/-! ### Gang operations (R163 to R166) -/

/-- The units that a descriptor names on a tile. -/
def gangUnits (t : Nat) (w0 : Word) : List Nat :=
  ((List.range 4).filter fun a => bit w0 (60 + a)) ++ (if bit w0 59 && isMill t then [4] else [])

/-- Bits of a descriptor that are reserved (R163), the reserved bits of its parcels (R94) and of its feeder words
included. PRESENT, which applies to the scale words only, is taken as reserved in the others
(notes/assumptions/160.md). -/
def gangReserved (d : List Word) : Bool :=
  let w0 := wordAt d 0
  let w1 := wordAt d 1
  let feeder := fun i => fld (wordAt d i) 51 33 != 0 || fld (wordAt d i) 31 22 != 0
  let noPresent := fun i => fld (wordAt d i) 32 32 != 0
  fld w0 55 53 != 0 || fld w0 42 40 != 0 || fld w1 63 32 != 0 || wordAt d 7 != 0 || fld w0 9 0 != 0 ||
    fld w1 7 0 != 0 || fld w1 13 8 != 0 || (List.range 5).any (fun i => feeder (2 + i)) || noPresent 2 ||
    noPresent 4 || noPresent 6

/-- A gang feeder word for unit `u` as a feeder word of the tile: its offset plus u × USTRIDE × 4 KiB. -/
def gangWord (t u : Nat) (w0 w : Word) : Word :=
  place 63 52 (fld w 63 52) ||| place 51 0 (tileBase t + fld w 21 0 + u * fld w0 39 32 * 4096)

/-- The load and the stream of a descriptor for unit `u` (R163); KIND says which of them run. -/
def gangOps (t u id : Nat) (d : List Word) : List MatOp :=
  let w0 := wordAt d 0
  let w1 := wordAt d 1
  let kind := fld w0 58 57
  let ld : MatOp :=
    { str := false, ga := gangWord t u w0 (wordAt d 2), gb := gangWord t u w0 (wordAt d 3), gs := 0,
      scaled := bit (wordAt d 3) 32,
      fmt := ⟨fld w0 31 25 + 1, fld w0 24 18 + 1, fld w0 17 14 + 1, fld w0 13 10⟩, plane := 0, m := 0, afmt := 0, out := 0,
      acc := false, tag := none, gang := some id, running := false, nextRow := 0, q := [], foot := [], dig := 0,
      late := false }
  let st : MatOp :=
    { str := true, ga := gangWord t u w0 (wordAt d 4), gb := gangWord t u w0 (wordAt d 6),
      gs := gangWord t u w0 (wordAt d 5), scaled := bit (wordAt d 5) 32, fmt := .reset, plane := 0,
      m := fld w1 31 20 + 1, afmt := fld w1 19 16, out := fld w1 15 14, acc := bit w0 56, tag := none, gang := some id,
      running := false, nextRow := 0, q := [], foot := [], dig := 0, late := false }
  (if kind = 0 ∨ kind = 2 then [ld] else []) ++ (if kind = 1 ∨ kind = 2 then [st] else [])

/-- The checks of R95 and R143 on unit `u`, against the descriptor and the format in force. -/
def gangUnitOk (t u : Nat) (d : List Word) (s : State) : Bool :=
  let w0 := wordAt d 0
  let w1 := wordAt d 1
  let kind := fld w0 58 57
  let k := fld w0 31 25 + 1
  let n := fld w0 24 18 + 1
  let f : Fmt := ⟨k, n, fld w0 17 14 + 1, fld w0 13 10⟩
  let inForce := if kind = 2 then f else ((s.tile t).munit u).fmt
  (kind == 1 || loadOk u k n (fld w0 17 14) (fld w0 13 10)) &&
    (kind == 0 || streamOk u inForce (fld w1 19 16) (fld w1 15 14))

/-- The member refuses the gang operation: GANG_BAD and ERR_BIT (R164). GANG_BAD shows in the units that the descriptor
names, and DONE_BIT is not set (notes/assumptions/159.md). -/
def gangBad (t owner errBit : Nat) (us : List Nat) (s : State) : State :=
  deliverEvt owner t (1#32 <<< errBit) (us.foldl (fun s u => s.flag .TILE_ARR_ERR 5 t u) s)

/-- Put the descriptor's operations behind each named unit's queue, where the gang operation is late if anything is
before it; a unit with nothing to do begins its 64 cycles of ramp or dummy activity (R165). -/
def gangEnqueue (t id : Nat) (d : List Word) (us : List Nat) (s : State) : State :=
  us.foldl (fun s u => modUnit t u (fun m =>
    let late := !m.queue.isEmpty || !m.gangPend.isEmpty
    let r := (gangOps t u id d).foldl (fun (acc : List MatOp × MUnit) o =>
      let x := acc.2.take o
      (acc.1 ++ [{ x.1 with late := late && acc.1.isEmpty }], x.2)) ([], m)
    { r.2 with
      gangPend := m.gangPend ++ r.1
      st := if m.st = .idle ∨ m.st = .rampDown then .rampUp else m.st }) s) s

/-- A gang operation reaches member `t` (R163 to R165). An index of 4,096 or more reads no descriptor: every unit shows
GANG_BAD, and an open value names the ERR_BIT (notes/assumptions/26.md). -/
def gangMember (d : Delivery) (t : Nat) (s : State) : State :=
  let all := (List.range 4) ++ (if isMill t then [4] else [])
  if 4096 ≤ d.arg then gangBad t d.owner (fld s.open 4 0) all s.used
  else
    let a := s.rf .TILE_GANG_BASE 51 6 t * 64 + d.arg * 64
    let bad := badWords a 64 s
    let w := whoUnit 1 t d.owner
    let inHamlet := match spaceOf a with | .hamlet h _ => h == t / 16 | _ => false
    if !inHamlet then gangBad t d.owner (fld s.open 4 0) all s.used
    else if !bad.isEmpty then
      gangBad t d.owner (fld s.open 4 0) all
        (memErrRecord .uncorr w (bad.headD 0 * 32) causeMemUncorr (faultOf (some d.owner) s)).used
    else
      let ws := leWords (bytesAt a 64 s)
      let us := gangUnits t (wordAt ws 0)
      let errBit := fld (wordAt ws 0) 47 43
      if fld (wordAt ws 0) 58 57 = 3 || gangReserved ws || us.any (fun u => !gangUnitOk t u ws s) then
        gangBad t d.owner errBit us (readCorrects s (wordsOf a 64))
      else
        let id := (s.tile t).gangNext
        let s := readCorrects s (wordsOf a 64)
        let s := s.modTile t fun x => { x with
          gangNext := id + 1
          gangs := x.gangs ++ [⟨id, false, fld (wordAt ws 0) 52 48, errBit, d.owner⟩] }
        gangEnqueue t id ws us s

/-- A GANG_START action reaches its tiles, a dormant quad waking first (R65, R165). A halted tile runs nothing (R104):
for the radio partition that is a fault (R35). -/
def execGangStart (s : State) : Ans :=
  .next (withDelivery 3 (fun d s => (tilesOf d.mask).foldl (fun s t =>
    if (s.tile t).run = .halted then faultOf (some d.owner) s else gangMember d t (wakeTile t s)) s) s)

/-- The oldest gang operation that waits behind a unit's queue starts, once what is before it lets its first operation
start (R141): a load fills the idle plane beside a stream. Behind a queue it is late. The gang operations after it still
wait (R165). -/
def execGangOperationStart (t : Fin 128) (u : Fin 5) (s : State) : Ans :=
  .next (
    let m := (s.tile t).munit u
    match m.gangPend with
    | [] => s
    | o :: _ =>
      if m.st = .saving || m.st = .restoring || trimmed t s || !o.canStart m.queue then s
      else
        let ops := m.gangPend.takeWhile fun x => x.gang == o.gang
        let s := if o.late then s.count .TILE_ARR_CNT 47 32 t u else s
        beginOp t u m.queue.length (modUnit t u (fun m =>
          { m with queue := m.queue ++ ops, gangPend := m.gangPend.drop ops.length, st := .active }) s))

/-- Every named unit has completed the oldest gang operation of the member: DONE_BIT, with ERR_BIT on an error, is set
in its TEVT (R166, R408). -/
def execGangComplete (t : Fin 128) (s : State) : Ans :=
  .next (
    match (s.tile t).gangs.find? fun g => !(s.tile t).matOps.any fun o => o.gang == some g.id with
    | none => s
    | some g =>
      let s := s.modTile t fun x => { x with gangs := x.gangs.filter fun h => h.id != g.id }
      deliverEvt g.owner t ((1#32 <<< g.doneBit) ||| (if g.failed then 1#32 <<< g.errBit else 0)) s)

/-! ### The unit registers (R172) -/

/-- The registers of an OPE exist on mill tiles only; elsewhere they read 0 and take no write (R159). -/
def hasUnit (t u : Nat) : Bool := decide (u < 4) || isMill t

/-- A W1C write; ones in CHK_COL, CHK_ROW and RESIDUE together clear FIRST_ROW. -/
def arrErrWrite (t u : Nat) (v : Word) (s : State) : State :=
  if !hasUnit t u || !s.enabled t then s
  else
    let s := s.writePlain .TILE_ARR_ERR v t u
    if bit v 0 && bit v 1 && bit v 4 then s.putReg .TILE_ARR_ERR 63 48 0 t u else s

def execTileArrErrClear (t : Fin 128) (u : Fin 5) (v : Word) (s : State) : Ans := .next (arrErrWrite t u v s)

def execTileArrCntRead (t : Fin 128) (u : Fin 5) (s : State) : Ans := .next (s.readPlain .TILE_ARR_CNT t u)

end Sys2Proof.Machine
end

