-- ==== Sys2Proof/Machine/Clamp.lean ====
section
/-! DEFINITION. The fields whose written values the register tables clamp (00_scope.md R15; each register's row). -/

namespace Sys2Proof.Machine

open Sys2Proof

/-- The field `[hi:lo]` held between two bounds. -/
def clampFld (v : Word) (hi lo least most : Nat) : Word := putFld v hi lo (min most (max least (fld v hi lo)))

/-- What a write of a value stores in the clamped fields of a register. -/
def regClamp (r : RegName) (v : Word) : Word :=
  match r with
  | .TB_PPSO_CTL => clampFld v 27 8 0 999999
  | .TILE_ARR_CTL => clampFld v 18 10 0 400
  | .FH_WIN_CNT => clampFld v 12 0 0 4096
  | .FH_LEDGER_CFG => clampFld v 3 0 4 10
  | .FH_AGC_CFG => clampFld v 15 12 0 8
  | .GRN_CTL => clampFld v 4 0 0 16
  | .GRN_BW => clampFld v 15 0 0 800
  | .GRN_RECLAIM => clampFld v 8 0 0 256
  | .GRN_SCRUB => clampFld v 7 0 0 64
  | .FAB_XPORT_CFG => clampFld v 15 0 0 1000
  | .PART_LEND_OFS => clampFld v 21 16 0 0x30
  | .HL_CFG => clampFld v 15 0 0 10000
  | .PWR_LIMIT => clampFld v 10 0 200 1300
  | .PWR_GOV => clampFld v 6 0 1 100
  | .PWR_PMB_CFG => clampFld v 15 0 1 1000
  | .ERR_RM_CFG => clampFld v 27 20 0 100
  | _ => v

/-- A write to a register with nothing of its own to do. -/
def State.writeReg (s : State) (r : RegName) (v : Word) (i : Nat := 0) (j : Nat := 0) : State :=
  s.writePlain r (regClamp r v) i j

end Sys2Proof.Machine
end

