-- ==== Sys2Proof/Machine/CodeMath.lean ====
section
/-! DEFINITION. The bit processing around the channel codes: CRCs, segmentation and rate matching of TS 38.212 and TS
36.212 as 07_channel_coding.md R219 to R222 name them. The standards' own tables that are too long to hold here (base
graphs, QPP parameters, polar sequences) are constants of Config.lean (notes/assumptions/32.md). -/

namespace Sys2Proof.Machine

open Sys2Proof

/-! ### Bits and CRCs -/

/-- Stream bit i is bit i mod 8 of byte i / 8 (R218). -/
def streamBits (bs : List Byte) : List Bool := bs.flatMap fun b => (List.range 8).map fun i => b.getLsbD i

/-- A byte of eight stream bits. -/
def byteOf (bs : List Bool) : Byte := BitVec.ofNat 8 (bs.foldr (fun b a => (if b then 1 else 0) + 2 * a) 0)

/-- `n` bytes of a packed stream; bits past its end are 0 (R218, R219). -/
def streamBytes (bs : List Bool) (n : Nat) : List Byte :=
  (List.range n).map fun i => byteOf ((bs.drop (8 * i)).take 8)

/-- One step of a CRC register of `l` bits. -/
def crcStep (poly l : Nat) (r : Nat) (b : Bool) : Nat :=
  let top := (r / 2 ^ (l - 1) % 2 == 1) != b
  let r' := r * 2 % 2 ^ l
  if top then r' ^^^ poly else r'

/-- The parity bits of a CRC, first parity bit first. -/
def crcBits (poly l : Nat) (bs : List Bool) : List Bool :=
  let r := bs.foldl (crcStep poly l) 0
  (List.range l).map fun i => r / 2 ^ (l - 1 - i) % 2 == 1

def crc24A : List Bool → List Bool := crcBits 0x864CFB 24
def crc24B : List Bool → List Bool := crcBits 0x800063 24
def crc16 : List Bool → List Bool := crcBits 0x1021 16

/-- A block that ends in its own CRC of `l` bits checks. -/
def crcHolds (f : List Bool → List Bool) (l : Nat) (bs : List Bool) : Bool :=
  f (bs.take (bs.length - l)) == bs.drop (bs.length - l)

/-! ### What a job of any type computes with -/

/-- The derived parameters of a job: code blocks, and for block r its size K′ or K without the filler, its filler and
its code size; the circular buffer and its start; the rate-matched size of each block. -/
structure CodeParams where
  c    : Nat
  /-- Bits of block r, CRC included and filler excluded, and its filler bits. -/
  kb   : Nat → Nat
  fill : Nat → Nat
  ncb  : Nat → Nat
  /-- Positions of the circular buffer that hold no transmitted bit. -/
  null : Nat → Nat → Bool
  /-- Positions of the circular buffer that are known zeros. -/
  zero : Nat → Nat → Bool
  k0   : Nat → Nat

/-- The transmitted positions of a circular buffer of `n`, from its start on, null positions skipped. -/
def ringOrder (n k0 : Nat) (null : Nat → Bool) : List Nat :=
  ((List.range n).map fun j => (k0 + j) % n).filter fun p => !null p

/-- The position that bit `k` of the selected bits comes from. -/
def selPos (order : List Nat) (k : Nat) : Nat := order.getD (k % order.length) 0

/-- The transport block's CRC in NR: CRC24A above 3,824 bits, else CRC16 (R219). -/
def nrTbCrc (tbs : Nat) : Nat := if tbs > 3824 then 24 else 16

def nrTbCrcBits (tbs : Nat) : List Bool → List Bool := if tbs > 3824 then crc24A else crc16

/-- The code blocks and the size K′ of TS 38.212 section 5.2.2: C, and B′ = C × K′ (R219). -/
def nrBlocks (bg2 : Bool) (tbs : Nat) : Nat × Nat :=
  let b := tbs + nrTbCrc tbs
  let kcb := if bg2 then 3840 else 8448
  if b ≤ kcb then (1, b) else let c := ceilDiv b (kcb - 24); (c, b + 24 * c)

/-- The lifting sizes of TS 38.212 section 5.3.2: a × 2^j up to 384. -/
def liftSizes : List Nat :=
  [2, 3, 5, 7, 9, 11, 13, 15].flatMap fun a => (List.range 8).filterMap fun j =>
    if a * 2 ^ j ≤ 384 ∧ 2 ≤ a * 2 ^ j then some (a * 2 ^ j) else none

/-- The smallest of a list of sizes that is at least `m`. -/
def leastAtLeast (m : Nat) (l : List Nat) : Nat :=
  l.foldl (fun r z => if m ≤ z && (r == 0 || z < r) then z else r) 0

/-- Zc for K′ (R219). -/
def nrZc (bg2 : Bool) (tbs k' : Nat) : Nat :=
  let b := tbs + nrTbCrc tbs
  let kb := if bg2 then (if b > 640 then 10 else if b > 560 then 9 else if b > 192 then 8 else 6) else 22
  leastAtLeast (ceilDiv k' kb) liftSizes

/-- k0 of an NR block (R219). -/
def nrK0 (bg2 : Bool) (rv ncb zc : Nat) : Nat :=
  let num := if bg2 then [0, 13, 25, 43].getD rv 0 else [0, 17, 33, 56].getD rv 0
  num * ncb / ((if bg2 then 50 else 66) * zc) * zc

/-- The parameters of an LDPC job (R219). -/
def ldpcParams (bg2 : Bool) (tbs lbrm rv : Nat) : CodeParams :=
  let c := (nrBlocks bg2 tbs).1
  let k' := (nrBlocks bg2 tbs).2 / c
  let zc := nrZc bg2 tbs k'
  let k := (if bg2 then 10 else 22) * zc
  let n := (if bg2 then 50 else 66) * zc
  let ncb := if lbrm = 0 then n else min n (lbrm * 3 / (2 * c))
  let filler := fun (_ p : Nat) => decide (k' - 2 * zc ≤ p ∧ p < k - 2 * zc)
  { c := c, kb := fun _ => k', fill := fun _ => k - k', ncb := fun _ => ncb, null := filler, zero := filler,
    k0 := fun _ => nrK0 bg2 rv ncb zc }

/-- E_r: the coded bits `g` shared over `m` blocks, block number `i` of them; the last take one unit more (R219, R221). -/
def shareE (g unit m i : Nat) : Nat :=
  let q := g / unit
  if i + q % m < m then unit * (q / m) else unit * ceilDiv q m

/-- Where received bit `x` of an NR block stands before the bit interleaver of `qm` (R219). -/
def deinterleave (e qm x : Nat) : Nat := x % qm * (e / qm) + x / qm

/-! ### LTE turbo (R221) -/

/-- The 188 interleaver sizes of TS 36.212. -/
def turboSizes : List Nat :=
  ((List.range 60).map fun i => 40 + 8 * i) ++ ((List.range 32).map fun i => 528 + 16 * i) ++
    ((List.range 32).map fun i => 1056 + 32 * i) ++ ((List.range 64).map fun i => 2112 + 64 * i)

/-- Code blocks, K₊, K₋, C₋ and the filler bits of TS 36.212 section 5.1.2. -/
def lteBlocks (tbs : Nat) : Nat × Nat × Nat × Nat × Nat :=
  let b := tbs + 24
  let c := if b ≤ 6144 then 1 else ceilDiv b 6120
  let b' := if c = 1 then b else b + 24 * c
  let kp := leastAtLeast (ceilDiv b' c) turboSizes
  if c = 1 then (1, kp, 0, 0, kp - b')
  else
    let km := turboSizes.foldl (fun r z => if z < kp ∧ r < z then z else r) 0
    let cm := (c * kp - b') / (kp - km)
    (c, kp, km, cm, (c - cm) * kp + cm * km - b')

/-- The interleaver size of block `r`. -/
def lteK (tbs r : Nat) : Nat := let x := lteBlocks tbs; if r < x.2.2.2.1 then x.2.2.1 else x.2.1

/-- The column permutation of the sub-block interleaver: 5-bit reversal. -/
def colPerm (j : Nat) : Nat := j % 2 * 16 + j / 2 % 2 * 8 + j / 4 % 2 * 4 + j / 8 % 2 * 2 + j / 16 % 2

/-- Where position `p` of the circular buffer of size 3 × 32R comes from: the stream (0, 1, 2) and its bit, if it is not
a dummy (TS 36.212 section 5.1.4.1). -/
def turboSource (k p : Nat) : Option (Nat × Nat) :=
  let d := k + 4
  let r := ceilDiv d 32
  let kp := 32 * r
  let nd := kp - d
  let st := if p < kp then 0 else if (p - kp) % 2 = 0 then 1 else 2
  let x := if p < kp then p else (p - kp) / 2
  let y := if st < 2 then x % r * 32 + colPerm (x / r) else (colPerm (x / r) + 32 * (x % r) + 1) % kp
  if nd ≤ y then some (st, y - nd) else none

/-- The parameters of a turbo job (R221). -/
def turboParams (tbs nir rv : Nat) : CodeParams :=
  let x := lteBlocks tbs
  let c := x.1
  let f := fun r => if r = 0 then x.2.2.2.2 else 0
  let rr := fun r => ceilDiv (lteK tbs r + 4) 32
  let ncb := fun r => if nir = 0 then 96 * rr r else min (nir / c) (96 * rr r)
  let zero := fun r p => match turboSource (lteK tbs r) p with
    | some (st, i) => st < 2 && decide (i < f r)
    | none => false
  { c := c, kb := fun r => lteK tbs r - f r, fill := f, ncb := ncb, zero := zero
    null := fun r p => (turboSource (lteK tbs r) p).isNone || zero r p
    k0 := fun r => rr r * (2 * ceilDiv (ncb r) (8 * rr r) * rv + 2) }

/-- One constituent encoder step: state of three bits, latest first; the parity bit and the next state. -/
def rscStep (st : Bool × Bool × Bool) (x : Bool) : Bool × (Bool × Bool × Bool) :=
  let a := (x != st.2.1) != st.2.2
  ((a != st.1) != st.2.2, (a, st.1, st.2.1))

/-- The parity bits of a stream, and the state after it. -/
def rscRun : Bool × Bool × Bool → List Bool → List Bool × (Bool × Bool × Bool)
  | st, [] => ([], st)
  | st, x :: xs => let r := rscStep st x; let t := rscRun r.2 xs; (r.1 :: t.1, t.2)

/-- Termination: three (systematic, parity) pairs that drive the state to zero. -/
def rscTail : Nat → Bool × Bool × Bool → List (Bool × Bool)
  | 0, _ => []
  | n + 1, st => let x := st.2.1 != st.2.2; let r := rscStep st x; (x, r.1) :: rscTail n r.2

/-- Position `i` of the QPP interleaver of size `K` (TS 36.212 section 5.1.3.2.3). -/
def qpp (k i : Nat) : Nat := let f := Config.qppParams k; (f.1 * i + f.2 * i * i) % k

/-- The three streams of a turbo block (TS 36.212 section 5.1.3.2), each of K + 4 bits. -/
def turboEncode (c : List Bool) : List Bool × List Bool × List Bool :=
  let k := c.length
  let i := (List.range k).map fun j => c.getD (qpp k j) false
  let p1 := rscRun (false, false, false) c
  let p2 := rscRun (false, false, false) i
  let t := (rscTail 3 p1.2 ++ rscTail 3 p2.2).flatMap fun x => [x.1, x.2]
  let at_ := fun n => t.getD n false
  (c ++ [at_ 0, at_ 3, at_ 6, at_ 9], p1.1 ++ [at_ 1, at_ 4, at_ 7, at_ 10], p2.1 ++ [at_ 2, at_ 5, at_ 8, at_ 11])

/-! ### Transmitting -/

/-- The blocks of a transport block with its CRC, each with its own CRC when there is more than one. -/
def segment (c : Nat) (sizes : Nat → Nat) (bs : List Bool) : Nat → Nat → List (List Bool)
  | 0, _ => []
  | n + 1, r =>
    let l := if c = 1 then sizes r else sizes r - 24
    let b := bs.take l
    (if c = 1 then b else b ++ crc24B b) :: segment c sizes (bs.drop l) n (r + 1)

/-- The rate-matched and interleaved bits of an NR block. -/
def ldpcSend (pr : CodeParams) (r e qm : Nat) (code : Nat → Bool) : List Bool :=
  let order := ringOrder (pr.ncb r) (pr.k0 r) (pr.null r)
  (List.range e).map fun x => code (selPos order (deinterleave e qm x))

/-- The rate-matched bits of a turbo block. -/
def turboSend (pr : CodeParams) (r k e : Nat) (b : List Bool) : List Bool :=
  let d := turboEncode b
  let order := ringOrder (pr.ncb r) (pr.k0 r) (pr.null r)
  (List.range e).map fun x => match turboSource k (selPos order x) with
    | some (0, i) => d.1.getD i false
    | some (1, i) => d.2.1.getD i false
    | some (_, i) => d.2.2.getD i false
    | none => false

/-! ### Receiving -/

/-- The soft buffer before a first combine: +127 at filler positions, 0 elsewhere (R226, step 2). -/
def freshSoft (pr : CodeParams) (r : Nat) : List Int :=
  (List.range (pr.ncb r)).map fun p => if pr.zero r p then 127 else 0

/-- Add a value to one position, clamped to ±127 (R226, step 4). -/
def softAdd (soft : List Int) (p : Nat) (v : Int) : List Int :=
  soft.set p (max (-127) (min 127 (soft.getD p 0 + v)))

/-- Add the block's LLRs into the positions that de-rate-matching gives (R226); −128 reads as −127 (R218). -/
def softCombine (pr : CodeParams) (r qm : Nat) (nr : Bool) (soft llr : List Int) : List Int :=
  let order := ringOrder (pr.ncb r) (pr.k0 r) (pr.null r)
  let e := llr.length
  (List.range e).foldl (fun a x =>
    softAdd a (selPos order (if nr then deinterleave e qm x else x)) (max (-127) (llr.getD x 0))) soft

/-- The first iteration, of `n`, after which a stop rule holds on the decisions; otherwise the last: iterations run,
decisions, and whether it held. -/
def firstStop (dec : Nat → List Bool × Bool) : Nat → Nat → Nat × List Bool × Bool
  | 0, i => (i, (dec i).1, (dec i).2)
  | n + 1, i => if (dec i).2 then (i, (dec i).1, true) else firstStop dec n (i + 1)

/-- The layers that the LDPC decoder processes (R220). -/
def ldpcLayers (bg2 : Bool) (e ncb zc : Nat) : Nat :=
  min (if bg2 then 42 else 46) (max 4 (ceilDiv (min e ncb) zc + 2 - (if bg2 then 10 else 22)))

end Sys2Proof.Machine
end

