-- ==== Sys2Proof/Machine/Codes.lean ====
section
/-! DEFINITION. The channel codes themselves: LDPC parity and decoding, the turbo decoder, and the polar chains
(07_channel_coding.md R219 to R222). What the standards that the spec names hold in long tables, and what a decoder does
where the spec gives no arithmetic, are constants of Config.lean (notes/assumptions/32.md). -/

namespace Sys2Proof.Machine

open Sys2Proof

/-! ### LDPC (R219, R220; TS 38.212 section 5.3.2) -/

/-- Columns and rows of a base graph, and its systematic columns. -/
def ldpcKb (bg2 : Bool) : Nat := if bg2 then 10 else 22
def ldpcRows (bg2 : Bool) : Nat := if bg2 then 42 else 46
def ldpcCols (bg2 : Bool) : Nat := ldpcKb bg2 + ldpcRows bg2

/-- The set of a lifting size: the place of its odd part, or of 2, in the standard's list. -/
def ldpcSet (zc : Nat) : Nat :=
  ((List.range 8).find? fun i => (List.range 8).any fun j => zc == [2, 3, 5, 7, 9, 11, 13, 15].getD i 0 * 2 ^ j).getD 0

/-- The bits of the codeword that check `r` of row `i` sums. -/
def ldpcCheck (bg2 : Bool) (zc i r : Nat) : List Nat :=
  (List.range (ldpcCols bg2)).filterMap fun j =>
    (Config.ldpcShift bg2 (ldpcSet zc) i j).map fun v => j * zc + (r + v) % zc

/-- The checks of the first `layers` rows. -/
def ldpcChecks (bg2 : Bool) (zc layers : Nat) : List (List Nat) :=
  (List.range layers).flatMap fun i => (List.range zc).map fun r => ldpcCheck bg2 zc i r

/-- A check holds: its bits sum to 0. -/
def checkHolds (bits : Nat → Bool) (vs : List Nat) : Bool := !(vs.foldl (fun a v => a != bits v) false)

/-- Equations over GF(2) as bit masks, unknown `u` in bit `u`: `u` is eliminated from all of them with one that has it.
Answers the equation left for each unknown. -/
def gf2Solve : Nat → List Nat → List (Nat × Nat) → List (Nat × Nat)
  | 0, _, done => done
  | u + 1, rows, done =>
    match rows.find? fun r => r.testBit u with
    | none => gf2Solve u rows done
    | some p =>
      let f := fun (r : Nat) => if r.testBit u then r ^^^ p else r
      gf2Solve u (rows.map f) ((u, p) :: done.map fun d => (d.1, f d.2))

/-- The parity bits after a block: those with which every check of the base graph holds. The constant of an equation is in
the bit after its unknowns. -/
def ldpcParity (bg2 : Bool) (zc : Nat) (block : List Bool) (i : Nat) : Bool :=
  let k := ldpcKb bg2 * zc
  let n := ldpcRows bg2 * zc
  let eqs := (ldpcChecks bg2 zc (ldpcRows bg2)).map fun vs => vs.foldl (fun r v =>
    if k ≤ v then r ^^^ 2 ^ (v - k) else if block.getD v false then r ^^^ 2 ^ n else r) 0
  match (gf2Solve n eqs []).find? fun d => d.1 == i with
  | some d => d.2.testBit n
  | none => false

/-- A message clamped to 8 bits. -/
def sat8 (x : Int) : Int := max (-127) (min 127 x)

/-- `num` / `den` of a value. Where that is no integer the spec does not say how it is rounded. -/
def scaleBy (num den : Nat) (x : Int) : Int :=
  x * num / den + (if x * num % den = 0 then 0 else if Config.roundsUp num x then 1 else 0)

/-- The messages of a check to its bits: 0.75 of the least magnitude among the others, with the product of their signs
(R220). -/
def checkMessages (qs : List Int) : List Int :=
  (List.range qs.length).map fun i =>
    let o := qs.eraseIdx i
    let m := scaleBy 3 4 ((o.map fun q => (q.natAbs : Int)).foldl min 127)
    if (o.filter fun q => decide (q < 0)).length % 2 = 1 then -m else m

/-- One check is processed: the values of its bits, and its messages. -/
def runCheck (post : List Int) (vs : List Nat) (old : List Int) : List Int × List Int :=
  let qs := List.zipWith (fun v r => sat8 (post.getD v 0 - r)) vs old
  let new := checkMessages qs
  ((vs.zip (List.zipWith (· + ·) qs new)).foldl (fun p x => p.set x.1 (Config.ldpcPost x.2)) post, new)

/-- One iteration over the layers, in order. -/
def runLayers (checks : List (List Nat)) (st : List Int × List (List Int)) : List Int × List (List Int) :=
  (checks.zip st.2).foldl (fun a c => let r := runCheck a.1 c.1 c.2; (r.1, a.2 ++ [r.2])) (st.1, [])

def runIters {α : Type} (f : α → α) : Nat → α → α
  | 0, x => x
  | n + 1, x => runIters f n (f x)

/-- The decision on a value: a positive one favours 0 (R218). -/
def hardBit (x : Int) : Bool := decide (x < 0) || (x == 0 && Config.zeroBit)

/-- The decisions on the codeword after a number of iterations over `layers` layers, and whether every check of those
layers holds (R220). The first two columns are not transmitted. -/
def ldpcDecode (bg2 : Bool) (zc layers iters : Nat) (soft : List Int) : List Bool × Bool :=
  let checks := ldpcChecks bg2 zc layers
  let post := (List.range (ldpcCols bg2 * zc)).map fun v => if v < 2 * zc then 0 else soft.getD (v - 2 * zc) 0
  let bits := (runIters (runLayers checks) iters (post, checks.map fun vs => vs.map fun _ => 0)).1.map hardBit
  (bits, checks.all (checkHolds fun v => bits.getD v false))

/-- The bits of an LDPC codeword after its first 2 Zc, filler bits as 0 (R219). -/
def ldpcCode (bg2 : Bool) (zc k : Nat) (b : List Bool) (p : Nat) : Bool :=
  if p < k - 2 * zc then b.getD (p + 2 * zc) false else ldpcParity bg2 zc b (p - (k - 2 * zc))

/-! ### The turbo decoder (R221; TS 36.212 section 5.1.3.2) -/

/-- A state of a constituent encoder, and metrics of the states that can be reached. -/
abbrev RscState := Bool × Bool × Bool
abbrev Metrics := List (RscState × Int)

def rscStates : List RscState :=
  [false, true].flatMap fun a => [false, true].flatMap fun b => [false, true].map fun c => (a, b, c)

/-- The metric of a branch for input `x`, and where it leads. -/
def rscBranch (sys par : Int) (st : RscState) (x : Bool) : Int × RscState :=
  let r := rscStep st x
  ((if x then -sys else sys) + (if r.1 then -par else par), r.2)

/-- Max-log metrics one step on, and one step back. -/
def rscForward (m : Metrics) (sys par : Int) : Metrics :=
  rscStates.filterMap fun t => ((m.flatMap fun e => [false, true].filterMap fun x =>
    let b := rscBranch sys par e.1 x
    if b.2 = t then some (e.2 + b.1) else none).max?).map fun v => (t, v)

def rscBackward (m : Metrics) (sys par : Int) : Metrics :=
  rscStates.filterMap fun t => (([false, true].filterMap fun x =>
    let b := rscBranch sys par t x
    (m.lookup b.2).map fun v => v + b.1).max?).map fun v => (t, v)

/-- The max-log-MAP values of a terminated trellis, from its systematic values with their a priori part and its parity
values; and the backward metrics of its start. -/
def rscDecode : Metrics → List (Int × Int) → List Int × Metrics
  | _, [] => ([], [((false, false, false), 0)])
  | m, x :: xs =>
    let t := rscDecode (rscForward m x.1 x.2) xs
    let best := fun b => ((m.filterMap fun e =>
      let r := rscBranch x.1 x.2 e.1 b
      (t.2.lookup r.2).map fun v => e.2 + r.1 + v).max?).getD 0
    ((best false - best true) / 2 :: t.1, rscBackward t.2 x.1 x.2)

/-- One constituent decoder on `k` bits and its tail: the values, and the extrinsic part scaled by 11/16 (R221). -/
def turboHalf (k : Nat) (sys par apr : List Int) (tail : List (Int × Int)) : List Int × List Int :=
  let sa := (List.range k).map fun i => sys.getD i 0 + apr.getD i 0
  let l := (rscDecode [((false, false, false), 0)] (sa.zip par ++ tail)).1
  (l.take k, List.zipWith (fun x y => scaleBy 11 16 (x - y)) l sa)

/-- The values of the turbo decoder on a block after a number of full iterations (R221): from the a priori values of the
first decoder. -/
def turboIter (k : Nat) (sys par1 par2 : List Int) (t1 t2 : List (Int × Int)) (st : List Int × List Int) :
    List Int × List Int :=
  let e1 := (turboHalf k sys par1 st.1 t1).2
  let il := fun (l : List Int) => (List.range k).map fun i => l.getD (qpp k i) 0
  let h := turboHalf k (il sys) par2 (il e1) t2
  let back := fun (l : List Int) => (List.range k).map fun i =>
    match (List.range k).find? fun j => qpp k j == i with
    | some j => l.getD j 0
    | none => 0
  (back h.2, back h.1)

/-- The value that a soft buffer holds for bit `i` of stream `st` of a block of size `K`. -/
def turboSoft (k : Nat) (soft : List Int) (st i : Nat) : Int :=
  match (List.range soft.length).find? fun p => turboSource k p == some (st, i) with
  | some p => soft.getD p 0
  | none => 0

/-- The hard decisions of the turbo decoder on a block of size `K` after a number of full iterations (R221). -/
def turboDecode (k iters : Nat) (soft : List Int) : List Bool :=
  let d := fun st => (List.range k).map (turboSoft k soft st)
  let tail := fun n => turboSoft k soft (n % 3) (k + n / 3)
  let pairs := fun n => [(tail n, tail (n + 1)), (tail (n + 2), tail (n + 3)), (tail (n + 4), tail (n + 5))]
  (runIters (turboIter k (d 0) (d 1) (d 2) (pairs 0) (pairs 6)) iters ([], [])).2.map hardBit

/-! ### Polar codes (R222; TS 38.212 sections 5.2.1, 5.3.1, 5.4.1, 7.1 and 7.3) -/

def crc6 : List Bool → List Bool := crcBits 0x21 6
def crc11 : List Bool → List Bool := crcBits 0x621 11
def crc24C : List Bool → List Bool := crcBits 0xB2B117 24

/-- The least `c` with `x` at most 2^c. -/
def log2Up (x : Nat) : Nat := bitLen (x - 1)

/-- The base-2 logarithm of the mother code's size for `k` bits in `e` (section 5.3.1). -/
def polarLog (nmax k e : Nat) : Nat :=
  let c := log2Up e
  let n1 := if 8 * e ≤ 9 * 2 ^ (c - 1) ∧ 16 * k < 9 * e then c - 1 else c
  max 5 (min n1 (min (log2Up (8 * k)) nmax))

/-- The sub-block interleaver's pattern, and position `i` of it for a code of `n` bits (section 5.4.1.1). -/
def subBlocks : List Nat :=
  [0, 1, 2, 4, 3, 5, 6, 7, 8, 16, 9, 17, 10, 18, 11, 19, 12, 20, 13, 21, 14, 22, 15, 23, 24, 25, 26, 28, 27, 29, 30, 31]

def subBlockPos (n i : Nat) : Nat := subBlocks.getD (32 * i / n) 0 * (n / 32) + i % (n / 32)

/-- The code is punctured rather than shortened. -/
def polarPunctures (k e : Nat) : Bool := decide (16 * k ≤ 7 * e)

/-- Input positions that rate matching freezes. -/
def polarUnsent (n k e : Nat) : List Nat :=
  if n ≤ e then []
  else if polarPunctures k e then
    ((List.range (n - e)).map (subBlockPos n)) ++
      List.range (if 3 * n ≤ 4 * e then ceilDiv (3 * n - 2 * e) 4 else ceilDiv (9 * n - 4 * e) 16)
  else (List.range (n - e)).map fun i => subBlockPos n (e + i)

/-- The input positions that carry bits, parity-check bits included: the most reliable ones, in ascending order of
reliability. -/
def polarInfo (n k npc e : Nat) : List Nat :=
  let bad := polarUnsent n k e
  let q := ((List.range 1024).map Config.polarSeq).filter fun x => decide (x < n) && !bad.contains x
  q.drop (q.length - (k + npc))

/-- The ones of a position's binary form, which give the weight of its row. -/
def popCount (x : Nat) : Nat := ((List.range 10).filter fun i => x.testBit i).length

/-- The positions of the parity-check bits: the least reliable, and one of least row weight where E − K + 3 is above 192. -/
def polarPc (info : List Nat) (k npc e : Nat) : List Nat :=
  if npc = 0 then []
  else if e + 3 ≤ 192 + k then info.take npc
  else
    let r := info.drop npc
    let w := (r.map popCount).foldl min 10
    info.take (npc - 1) ++ ((r.reverse.find? fun x => popCount x == w).toList)

/-- A path through the inputs: the bits so far, the parity-check register, and the path's metric. -/
structure PolarPath where
  us     : List Bool
  y      : List Bool
  metric : Int
  deriving DecidableEq, Repr

/-- The register of the parity-check bits turns (section 5.3.1.2). -/
def turnRegister (y : List Bool) : List Bool := y.drop 1 ++ y.take 1

/-- The next input is `u`; a data bit enters the register. -/
def PolarPath.extend (p : PolarPath) (u data : Bool) (metric : Int) : PolarPath :=
  let y := turnRegister p.y
  ⟨p.us ++ [u], if data then (y.headD false != u) :: y.drop 1 else y, metric⟩

/-- The inputs that make the transform's input `n` long, from the data bits: their positions are those of `info` that are
not in `pc`. -/
def polarInputs (n : Nat) (info pc : List Nat) (bits : List Bool) : List Bool :=
  ((List.range n).foldl (fun (a : PolarPath × List Bool) i =>
    if !info.contains i then (a.1.extend false false 0, a.2)
    else if pc.contains i then (a.1.extend ((turnRegister a.1.y).headD false) false 0, a.2)
    else (a.1.extend (a.2.headD false) true 0, a.2.drop 1)) (⟨[], List.replicate 5 false, 0⟩, bits)).1.us

/-- The polar transform of 2^n inputs. -/
def polarTransform : Nat → List Bool → List Bool
  | 0, u => u
  | n + 1, u =>
    let a := u.take (2 ^ n)
    let b := u.drop (2 ^ n)
    polarTransform n (List.zipWith (· != ·) a b) ++ polarTransform n b

/-- The value of the next input given the inputs decided, from the values of the code's bits. -/
def polarLlr : Nat → List Int → List Bool → Int
  | 0, v, _ => v.headD 0
  | n + 1, v, us =>
    let a := v.take (2 ^ n)
    let b := v.drop (2 ^ n)
    if us.length < 2 ^ n then polarLlr n (List.zipWith Config.polarJoin a b) us
    else
      let x := polarTransform n (us.take (2 ^ n))
      polarLlr n (List.zipWith (fun p y => if p.2 then y - p.1 else y + p.1) (a.zip x) b) (us.drop (2 ^ n))

/-- One input of every path: a frozen one is 0, a parity-check bit follows, and a data bit goes both ways; the `list` best
paths remain (R222). -/
def polarStep (n : Nat) (v : List Int) (info pc : List Nat) (list : Nat) (ps : List PolarPath) (i : Nat) :
    List PolarPath :=
  let go := fun (p : PolarPath) (u data : Bool) => p.extend u data (p.metric + Config.polarMetric (polarLlr n v p.us) u)
  if !info.contains i then ps.map fun p => go p false false
  else if pc.contains i then ps.map fun p => go p ((turnRegister p.y).headD false) false
  else (sortBy (fun a b => decide (b.metric < a.metric))
    (ps.flatMap fun p => [go p false true, go p true true])).take list

/-- The data bits that a path carries. -/
def pathBits (info pc : List Nat) (p : PolarPath) : List Bool :=
  p.us.zipIdx.filterMap fun x => if info.contains x.2 && !pc.contains x.2 then some x.1 else none

/-- The channel interleaver's order of `e` bits: a triangle written by rows and read by columns (section 5.4.1.3). -/
def triangleOrder (e : Nat) : List Nat :=
  let t := ((List.range (e + 1)).find? fun t => decide (2 * e ≤ t * (t + 1))).getD e
  (List.range t).flatMap fun j => (List.range (t - j)).filterMap fun i =>
    let x := i * t - i * (i - 1) / 2 + j
    if x < e then some x else none

/-- The values of a code's bits from `e` received ones: repeated bits add, punctured ones are unknown, and shortened ones
are zeros that are known. -/
def polarGather (n k e : Nat) (f : Nat → Int) : List Int :=
  let y := fun i => if n ≤ e then ((List.range e).filter fun x => x % n == i).foldl (fun a x => a + f x) 0
    else if polarPunctures k e then (if i < n - e then 0 else f (i - (n - e)))
    else if i < e then f i else Config.polarKnown
  (List.range n).map fun b => match (List.range n).find? fun i => subBlockPos n i == b with
    | some i => y i
    | none => 0

/-- A UCI segment of `a` payload bits decoded with a list size, under CRC6 and three parity-check bits or CRC11: payload
bits, whether a path passed the CRC, and the metric of the path that is output: the best that passes, or the best
(R222). -/
def polarDecode (short : Bool) (a e list : Nat) (soft : List Int) : List Bool × Bool × Int :=
  let l := if short then 6 else 11
  let npc := if short then 3 else 0
  let k := a + l
  let lg := polarLog 10 k e
  let n := 2 ^ lg
  let info := polarInfo n k npc e
  let pc := polarPc info k npc e
  let order := triangleOrder e
  let v := polarGather n k e fun x => match order.findIdx? fun p => p == x with
    | some i => soft.getD i 0
    | none => 0
  let ps := sortBy (fun p q => decide (q.metric < p.metric))
    ((List.range n).foldl (polarStep lg v info pc list) [⟨[], List.replicate 5 false, 0⟩])
  let ok := ps.find? fun p => crcHolds (if short then crc6 else crc11) l (pathBits info pc p)
  match ok, ps with
  | some p, _ => ((pathBits info pc p).take a, true, p.metric)
  | none, p :: _ => ((pathBits info pc p).take a, false, p.metric)
  | none, [] => ([], false, 0)

/-- The bit order of the input interleaver for `k` bits (section 5.3.1.1). -/
def polarInterleave (k : Nat) : List Nat :=
  ((List.range 164).map Config.polarIl).filterMap fun x => if 164 - k ≤ x then some (x - (164 - k)) else none

/-- The CRC of a DCI: computed with 24 ones before the payload, its last 16 bits scrambled by RNTI, the highest bit first
(section 7.3.2). -/
def dciCrc (rnti : Nat) (payload : List Bool) : List Bool :=
  let c := crc24C (List.replicate 24 true ++ payload)
  c.take 8 ++ List.zipWith (· != ·) (c.drop 8) ((List.range 16).map fun i => rnti.testBit (15 - i))

/-- The rate-matched bits of a polar codeword of DCI or PBCH (true), with n_max = 9 (R222); the CRC of PBCH is attached here
too (notes/assumptions/176.md). -/
def polarEncode (pbch : Bool) (e rnti : Nat) (payload : List Bool) : List Bool :=
  let c := payload ++ (if pbch then crc24C payload else dciCrc rnti payload)
  let k := c.length
  let lg := polarLog 9 k e
  let n := 2 ^ lg
  let bits := (polarInterleave k).map fun i => c.getD i false
  let d := polarTransform lg (polarInputs n (polarInfo n k 0 e) [] bits)
  let y := fun i => d.getD (subBlockPos n i) false
  (List.range e).map fun i => y (if n ≤ e then i % n else if polarPunctures k e then i + (n - e) else i)

end Sys2Proof.Machine
end

