-- ==== Sys2Proof/Machine/Fourier.lean ====
section
/-! DEFINITION. The Fourier transforms of the time-domain option (06_fronthaul_and_slots.md R188, R191). -/

namespace Sys2Proof.Machine

open Sys2Proof

/-- One, in the fixed point of the transforms' cosines. -/
def fxOne : Nat := 2 ^ 240

/-- Cosine and sine of 2π/2^k by half angles. -/
def rootUnit : Nat → Int × Int
  | 0 => (fxOne, 0)
  | 1 => (-fxOne, 0)
  | 2 => (0, fxOne)
  | k + 3 =>
    let c := (rootUnit (k + 2)).1
    (Nat.sqrt ((fxOne + c) * fxOne / 2).toNat, Nat.sqrt ((fxOne - c) * fxOne / 2).toNat)

/-- A product of complex numbers in fixed point. -/
def fxMul (x y : Int × Int) : Int × Int :=
  ((x.1 * y.1 - x.2 * y.2) / fxOne, (x.1 * y.2 + x.2 * y.1) / fxOne)

/-- Cosine of 2πm/2^k for an angle of the first quadrant: the product of the roots that m's digits name. -/
def cosQuarter (k m : Nat) : Int :=
  ((List.range k).foldl (fun z i => if m.testBit i then fxMul z (rootUnit (k - i)) else z) ((fxOne : Int), 0)).1

/-- Cosine of 2πm/2^k. The other quadrants mirror the first, so that terms which cancel exactly do so here: a tie of the
rounding is met exactly. -/
def fxCos (k m : Nat) : Int :=
  let n := 2 ^ k
  let m := m % n
  let m := if n / 2 < m then n - m else m
  if n / 4 < m then -cosQuarter k (n / 2 - m) else cosQuarter k m

/-- Sine of 2πm/2^k. -/
def fxSin (k m : Nat) : Int := fxCos k (m + 3 * 2 ^ k / 4)

/-- A sum in fixed point, scaled by 2 to the minus `shift` and rounded half up. -/
def fxRound (shift : Nat) (v : Int) : Int := (2 * v + fxOne * (2 ^ shift : Nat)) / (2 * fxOne * (2 ^ shift : Nat) : Nat)

/-- Output `i` of the transform of 2^k samples, Σ x[b] e^(±j2πbi/2^k), plus for the inverse and minus for the other,
scaled and rounded (R188, R191). -/
def fourierAt (inverse : Bool) (k shift : Nat) (xs : List (Int × Int)) (i : Nat) : Int × Int :=
  let z := xs.zipIdx.foldl (fun (a : Int × Int) x =>
    let c := fxCos k (x.2 * i)
    let d := if inverse then fxSin k (x.2 * i) else -fxSin k (x.2 * i)
    (a.1 + x.1.1 * c - x.1.2 * d, a.2 + x.1.1 * d + x.1.2 * c)) (0, 0)
  (fxRound shift z.1, fxRound shift z.2)

/-- The inverse transform of transmission: each part is within 1 of the exact rounded value, and which of the three it is
the spec leaves open (R188). -/
def fourierInverse (k shift : Nat) (xs : List (Int × Int)) : List (Int × Int) :=
  (List.range (2 ^ k)).map fun i =>
    let z := fourierAt true k shift xs i
    let err := fun b => (Config.fourierErr shift xs i b).val
    (z.1 + err false - 1, z.2 + err true - 1)

/-- The transform of reception (R191). -/
def fourierForward (k shift : Nat) (xs : List (Int × Int)) : List (Int × Int) :=
  (List.range (2 ^ k)).map (fourierAt false k shift xs)

end Sys2Proof.Machine
end

