-- ==== Sys2Proof/Machine/Fronthaul.lean ====
section
/-! DEFINITION. The fronthaul ports: enabling and link, what the MAC and the eCPRI layer accept, block floating point,
uplink gain, and the receive windows (06_fronthaul_and_slots.md R173 to R186, R191, R193 to R197). -/

namespace Sys2Proof.Machine

open Sys2Proof

/-! ### Ports (R173, R174, R176) -/

def State.fhPort (s : State) (p : Nat) : FhPort := Tab.get (fun _ => FhPort.reset) s.fh.ports p

def State.setFhPort (s : State) (p : Nat) (x : FhPort) : State :=
  { s with fh := { s.fh with ports := Tab.set (fun _ => FhPort.reset) s.fh.ports p x } }

def modPort (p : Nat) (f : FhPort → FhPort) (s : State) : State := s.setFhPort p (f (s.fhPort p))

/-- MODE, with 7 treated as 0. -/
def fhMode (m : Nat) : Nat := if m = 7 then 0 else m

/-- The lanes of a mode; a disabled mode has none. -/
def fhLanes (m : Nat) : Nat := if fhMode m = 0 then 0 else if m = 5 then 2 else if m = 6 then 4 else 1

def State.fhEn (s : State) (p : Nat) : Bool := s.rb .FH_PORT_CTL 16 p
def State.fhLink (s : State) (p : Nat) : Bool := s.rb .FH_PORT_STAT 1 p

/-- Port `p` with a mode may be enabled: aligned, and no lane of another enabled port; a port without lanes shares none. -/
def fhLanesFree (p m : Nat) (s : State) : Bool :=
  let w := fhLanes m
  (w == 0 || p % w == 0) &&
    (List.range 16).all fun q => q == p || !s.fhEn q ||
      (let v := fhLanes (s.rf .FH_PORT_CTL 2 0 q); w == 0 || v == 0 || decide (q + v ≤ p ∨ p + w ≤ q))

/-- LINK falls: LINK_CHG, LINK_DOWN while EN = 1, and the mark in the port's live slots (R176, R205). -/
def fhLinkFall (p : Nat) (s : State) : State :=
  if !s.fhLink p then s else
  let s := ((s.unflag .FH_PORT_STAT 1 p).unflag .FH_PORT_STAT 2 p).flag .FH_EVT 1
  let s := if s.fhEn p then s.flag .FH_PORT_ERR 0 p else s
  portLive p [ledLink, ledFault] s

/-- LINK rises on an enabled port with a mode; FEC_LOCK is 1 where FEC is used. -/
def fhLinkRise (p : Nat) (s : State) : State :=
  let m := fhMode (s.rf .FH_PORT_CTL 2 0 p)
  if !s.fhEn p || m == 0 || s.fhLink p then s
  else
    let fec := decide (3 ≤ m) || (m == 2 && !s.rb .FH_PORT_CTL 17 p)
    let s := (s.flag .FH_PORT_STAT 1 p).flag .FH_EVT 1
    if fec then s.flag .FH_PORT_STAT 2 p else s

/-- A write of FH_PORT_CTL: MODE and FEC_OFF change only while EN = 0; EN = 1 is refused, with CFG_ERR, on bad lanes, and
the write's other fields are taken (DESIGN CHOICE, notes/assumptions/168.md); enabling restarts the sequence counters
(R174, R178). -/
def fhPortCtlWrite (p : Nat) (v : Word) (s : State) : State :=
  let old := s.reg .FH_PORT_CTL p
  if s.fhEn p then
    let v := putFld (putFld v 17 17 (fld old 17 17)) 2 0 (fld old 2 0)
    let s := s.writePlain .FH_PORT_CTL v p
    if bit v 16 then s else fhLinkFall p (s.unflag .FH_PORT_STAT 0 p)
  else if bit v 16 then
    if fhLanesFree p (fld v 2 0) s then
      let s := ((s.writePlain .FH_PORT_CTL v p).unflag .FH_PORT_STAT 3 p).flag .FH_PORT_STAT 0 p
      modPort p (fun x => { x with txSeq := [], rxSeq := [] }) s
    else (s.writePlain .FH_PORT_CTL (clearBit v 16) p).flag .FH_PORT_STAT 3 p
  else s.writePlain .FH_PORT_CTL v p

/-! ### Frames and messages (R175, R177 to R179) -/

/-- The frame is one that the port discards as DISC. -/
def fhDisc (p : Nat) (s : State) : State := s.count .FH_CNT_RX 63 48 p

/-- The PTP addresses of R54. -/
def ptpAddrs : List Nat := [0x011B19000000, 0x0180C200000E]

/-- The eCPRI layer drops the message (R177, R178): types 2 and the unsupported ones, a wrong revision, concatenation, a
length that does not fit; a message type 0 with E = 0 or a subsequence ID. -/
def ecpriBad (h : EcpriHdr) : Bool :=
  h.rev != 1 || h.c || !h.lenOk || !(h.mtype == 0 || h.mtype == 5) || (h.mtype == 0 && (!h.e || h.sub != 0))

/-- The sequence check of a message (R178). -/
def seqCheck (p : Nat) (h : EcpriHdr) (s : State) : State :=
  let key := h.mtype.toNat * 65536 + h.id.toNat
  let last := Tab.get (fun _ => 0) (s.fhPort p).rxSeq key
  let s := if last ≠ 0 && h.seq.toNat ≠ last % 256 then s.count .FH_CNT_RX 31 16 p else s
  modPort p (fun x => { x with rxSeq := Tab.set (fun _ => 0) x.rxSeq key (h.seq.toNat + 1) }) s

/-- The MAC receives a frame (R175): its checks in turn, and those of the eCPRI header it carries, if any. What the
message holds comes with its own command. -/
def frameReceive (p size : Nat) (fcsOk : Bool) (tags : Nat) (pause : Bool) (dst : BitVec 48) (h : Option EcpriHdr)
    (s : State) : State :=
  if !s.fhLink p then s
  else if size < 64 ∨ 9216 < size ∨ fcsOk = false then s.count .FH_CNT_RX 15 0 p
  else if 2 ≤ tags ∨ pause = true then fhDisc p s
  else if dst.toNat ≠ s.rf .FH_PORT_MAC 47 0 p ∧ !(ptpAddrs.contains dst.toNat) then s
  else match h with
    | none => s
    | some h => if ecpriBad h then fhDisc p s else if h.mtype = 0 then seqCheck p h s else s

/-- Bytes of a number, most significant first. -/
def bitsBytes (n x : Nat) : List Byte := (leBytes n x).reverse

/-- A time in ns as a PTP timestamp: 48 bits of seconds and 32 of ns. -/
def ptpTime (ns : Nat) : List Byte := bitsBytes 6 (ns / 1000000000) ++ bitsBytes 4 (ns % 1000000000)

/-- An eCPRI message as an Ethernet frame, to a destination with the fields of FH_PORT_RU: revision 1, C = 0, and
ecpriPayload (R177; notes/assumptions/31.md). -/
def ecpriFrame (p : Nat) (ru : Word) (mtype : Nat) (payload : List Byte) (s : State) : List Byte :=
  let f := bitsBytes 6 (fld ru 47 0) ++ bitsBytes 6 (s.rf .FH_PORT_MAC 47 0 p) ++
    (if bit ru 63 then [0x81, 0x00] ++ bitsBytes 2 (fld ru 62 60 * 8192 + fld ru 59 48) else []) ++
    [0xAE, 0xFE, 0x10, BitVec.ofNat 8 mtype] ++ bitsBytes 2 payload.length ++ payload
  f ++ List.replicate (60 - f.length) 0

/-- A Response to a delay measurement: Measurement ID, action 0x02, t2 and tCV2 = 0 (R179). It goes back to the address
that the Request came from, which the command does not name: an open value. -/
def delayRespond (p mid t2 : Nat) (s : State) : State :=
  s.used.emit (.frame p (ecpriFrame p (s.open &&& fmask 47 0) 5
    ([BitVec.ofNat 8 mid, 0x02] ++ ptpTime t2 ++ bitsBytes 8 0) s))

/-- A one-way delay Request: answered at once, or once its Follow_Up arrives; other action types are dropped (R179). -/
def delayRequest (p action mid : Nat) (s : State) : State :=
  if !s.fhLink p then s
  else if action = 0x00 then delayRespond p mid (ingressStamp p s).1 s
  else if action = 0x01 then
    modPort p (fun x => { x with delays := x.delays ++ [(mid, (ingressStamp p s).1, s.now)] }) s
  else fhDisc p s

/-- A Follow_Up: the Response to the Request that it matches within 10 ms, else a drop (R179). -/
def delayFollowUp (p mid : Nat) (s : State) : State :=
  if !s.fhLink p then s
  else match (s.fhPort p).delays.find? fun d => d.1 == mid && decide (s.now ≤ d.2.2 + 10000000) with
    | some d => delayRespond p mid d.2.1
        (modPort p (fun x => { x with delays := x.delays.filter fun e => e != d }) s)
    | none => fhDisc p s

/-- A Request whose Follow_Up has not come within 10 ms gets no Response (R179). -/
def delayTimeout (p mid : Nat) (s : State) : State :=
  modPort p (fun x => { x with delays := x.delays.filter fun d => !(d.1 == mid && decide (d.2.2 + 10000000 < s.now)) }) s

/-- A received PTP event message, Sync or Delay_Req, is timestamped when TS_EN is 1 and its domain is accepted (R54,
R60, R62). -/
def ptpEvent (p msg seq dom : Nat) (s : State) : State :=
  if s.fhLink p && s.rb .TB_PORT_PTP 0 p && decide (msg < 2) &&
      (!s.rb .TB_PORT_PTP 12 p || dom == s.rf .TB_PORT_PTP 23 16 p) then
    let t := ingressStamp p s
    tsPush p false msg seq dom t.1 t.2 s
  else s

/-! ### Cells and slots (R194) -/

/-- Cell `c` is valid: VALID, and 1 to 275 PRBs. -/
def cellValid (c : Nat) (s : State) : Bool :=
  s.rb .FH_CELL_CFG 63 c && decide (1 ≤ s.rf .FH_CELL_CFG 40 32 c ∧ s.rf .FH_CELL_CFG 40 32 c ≤ 275)

def cellNprb (c : Nat) (s : State) : Nat := s.rf .FH_CELL_CFG 40 32 c
def cellTd (c : Nat) (s : State) : Bool := s.rb .FH_CELL_CFG 62 c
def cellPort (c : Nat) (s : State) : Nat := s.rf .FH_CELL_CFG 47 44 c

/-- The numerology: 0 for LTE. -/
def cellMu (c : Nat) (s : State) : Nat := if s.rb .FH_CELL_CFG 61 c then 0 else s.rf .FH_CELL_CFG 59 58 c

/-- The slot period in ns. -/
def slotPeriod (c : Nat) (s : State) : Nat := 1000000 / 2 ^ cellMu c s

/-- The slot count at device time `t` ns, and the start of a slot. -/
def slotCount (c : Nat) (t : Int) (s : State) : Int := (t - (s.reg .FH_SFN_OFFSET).toNat) / (slotPeriod c s : Int)

def slotStart (c : Nat) (n : Int) (s : State) : Nat :=
  wrap 64 ((s.reg .FH_SFN_OFFSET).toNat + n * (slotPeriod c s : Int))

/-- The configuration of a cell as it stands. -/
def cellConf (c : Nat) (s : State) : CellConf := ⟨s.reg .FH_CELL_CFG c, Tab.get (fun _ => []) s.fh.td c⟩

def CellConf.lte (k : CellConf) : Bool := bit k.cfg 61
def CellConf.mu (k : CellConf) : Nat := if k.lte then 0 else fld k.cfg 59 58
def CellConf.isTd (k : CellConf) : Bool := bit k.cfg 62
def CellConf.nprb (k : CellConf) : Nat := fld k.cfg 40 32
def CellConf.valid (k : CellConf) : Bool := bit k.cfg 63 && decide (1 ≤ k.nprb ∧ k.nprb ≤ 275)

/-- frameId, subframeId and slotId of a slot. -/
def slotIds (k : CellConf) (n : Int) : Nat × Nat × Nat :=
  let m : Int := (2 ^ k.mu : Nat)
  ((n / (10 * m) % 1024 % 256).toNat, (n / m % 10).toNat, (n % m).toNat)

/-! ### Block floating point (R182, R183) -/

/-- The signed width of a value: 1 plus the digits of v, or of −v − 1. -/
def signedWidth (v : Int) : Nat := 1 + bitLen (if 0 ≤ v then v.toNat else (-v - 1).toNat)

/-- The exponent and mantissas of a compressed PRB, for mantissas of `w` bits. -/
def bfpCompress (w : Nat) (vs : List Int) : Nat × List Int :=
  let l := vs.foldl (fun m v => max m (signedWidth v)) 1
  let e := l - w
  if e = 0 then (0, vs)
  else (e, vs.map fun v => satInt w ((v + (2 ^ (e - 1) : Nat)) / (2 ^ e : Nat)))

/-- The bytes of a PRB on the wire: udCompParam and mantissas, or 24 big-endian integers. -/
def prbBytes (meth w : Nat) (vs : List Int) : List Byte :=
  if meth = 0 then vs.flatMap fun v => bitsBytes 2 (wrap 16 v)
  else
    let c := bfpCompress w vs
    BitVec.ofNat 8 c.1 :: bitsBytes (3 * w) (c.2.foldl (fun acc m => acc * 2 ^ w + wrap w m) 0)

/-- A decompressed value with gain `a`, and whether it was clamped. -/
def bfpExpand (e a : Nat) (m : Int) : Int × Bool :=
  let r := m * (2 ^ (e + a) : Nat)
  (satInt 16 r, satInt 16 r != r)

/-! ### Uplink gain (R184 to R186) -/

def State.agcOf (s : State) (k : Nat) : Agc := Tab.get (fun _ => Agc.reset) s.fh.agc k

def State.setAgc (s : State) (k : Nat) (x : Agc) : State :=
  { s with fh := { s.fh with agc := Tab.set (fun _ => Agc.reset) s.fh.agc k x } }

/-- HEAD, GMAX, STEP and TRACK of FH_AGC_CFG. -/
def agcTrack (s : State) : Nat := min 28 (max 1 (s.rf .FH_AGC_CFG 4 0))
def agcGmax (s : State) : Nat := min 8 (s.rf .FH_AGC_CFG 15 12)

/-- The P of a PRB: the digits of its largest |m|, plus e. -/
def prbPower (e : Nat) (ms : List Int) : Nat := bitLen (ms.foldl (fun x m => max x m.natAbs) 0) + e

/-- The tracker takes the P of a PRB of symbol `id`: P_sym is the largest of the symbol. -/
def agcTrackPrb (k id power : Nat) (s : State) : State :=
  let x := s.agcOf k
  let hist := if x.hist.any (fun h => h.1 == id) then x.hist.map fun h => if h.1 = id then (id, max h.2 power) else h
    else ((id, power) :: x.hist).take 28
  s.setAgc k { x with hist := hist }

/-- The estimate T. With no symbol received yet it is an open value within its range (notes/assumptions/29.md). -/
def agcEstimate (k : Nat) (s : State) : Nat × State :=
  let x := s.agcOf k
  match x.hist.take (agcTrack s) with
  | [] => (s.open.toNat % (agcGmax s + 1), s.used)
  | ps =>
    let pmax := ps.foldl (fun m h => max m h.2) 0
    (min (agcGmax s) (15 - s.rf .FH_AGC_CFG 11 8 - pmax), s)

/-- The stream is frozen for a latch load: a load comes before the commands of its tick (R186). -/
def Agc.holds (x : Agc) (ticks : Nat) : Bool := if x.at_ = some ticks then x.was else x.frozen

/-- Load a latch of one stream, limited by STEP, unless the stream is frozen (R185). -/
def latchLoad (k : Nat) (latch : Bool) (s : State) : State :=
  if (s.agcOf k).holds s.tb.ticks then s else
  let r := agcEstimate k s
  let x := r.2.agcOf k
  let step := r.2.rf .FH_AGC_CFG 19 16
  let g := max (x.last - step) (min (x.last + step) r.1)
  r.2.setAgc k (if latch then { x with l1 := g, last := g } else { x with l0 := g, last := g })

/-- A stream is frozen or released, on this tick. -/
def setFrozen (k : Nat) (frozen : Bool) (holdEnd : Option Nat) (s : State) : State :=
  let x := s.agcOf k
  s.setAgc k { x with frozen := frozen, holdEnd := holdEnd, was := x.holds s.tb.ticks, at_ := some s.tb.ticks }

/-- A write of FH_AGC_CMD at time `t` takes effect (R186): FREEZE and RELEASE on a range of streams of a cell. -/
def agcCommand (v : Word) (t : Nat) (s : State) : State :=
  let ks := ((List.range 64).filter fun i => decide (fld v 45 40 ≤ i ∧ i ≤ fld v 37 32)).map fun i => fld v 55 48 * 64 + i
  let hold := fld v 31 0
  if fld v 63 62 = 1 then
    ks.foldl (fun s k => setFrozen k true (if hold = 0 then none else some (t + hold * 1000)) s) s
  else if fld v 63 62 = 2 then ks.foldl (fun s k => setFrozen k false none s) s
  else s

/-- The reference tick after the writes of FH_AGC_CMD (R186). -/
def agcTick (s : State) : State :=
  s.fh.cmds.foldl (fun s c => agcCommand c.1 c.2 s) { s with fh := { s.fh with cmds := [] } }

/-- Steward firmware and partition 0 may command the gain (R208). -/
def agcWrite (ag : Agent) (v : Word) (s : State) : State :=
  if s.mayWrite ag 0 then { s with fh := { s.fh with cmds := s.fh.cmds ++ [(v, s.now)] } } else refusePermission s

/-- Freezes whose hold has run out end (R186). -/
def freezeExpire (s : State) : State :=
  (s.fh.agc.map (·.1)).foldl (fun s k =>
    let x := s.agcOf k
    match x.holdEnd with
    | some e => if x.frozen && decide (e ≤ s.now) then s.setAgc k { x with frozen := false, holdEnd := none } else s
    | none => s) s

/-! ### Receive windows (R195 to R197) -/

/-- Fields of a window table entry. -/
def winRx (e : List Word) : Bool := bit (wordAt e 0) 63
def winLatchLoad (e : List Word) : Bool := bit (wordAt e 0) 62
def winLatch (e : List Word) : Bool := bit (wordAt e 0) 61
def winDyn (e : List Word) : Bool := bit (wordAt e 0) 60
def winCell (e : List Word) : Nat := fld (wordAt e 0) 54 47
def winFirst (e : List Word) : Nat := fld (wordAt e 0) 46 41
def winLast (e : List Word) : Nat := fld (wordAt e 0) 40 35
def winVal (e : List Word) : BitVec 16 := (wordAt e 0).extractLsb' 16 16
def winMask (e : List Word) : BitVec 16 := (wordAt e 0).setWidth 16
def winRef (e : List Word) : Int := sfld (wordAt e 1) 63 32
def winLen (e : List Word) : Nat := fld (wordAt e 1) 31 0
def winDec (e : List Word) : Nat := fld (wordAt e 2) 63 32
def winExpect (e : List Word) : Nat := fld (wordAt e 2) 31 16
def winAddr (e : List Word) : Nat := fld (wordAt e 3) 51 0

/-- S: two to the power of the number of free eAxC bits. -/
def winStreams (e : List Word) : Nat := 2 ^ ((List.range 16).filter fun i => !(winMask e).getLsbD i).length

/-- The stream index of an eAxC ID: its free bits, packed lowest first. -/
def winStream (e : List Word) (eaxc : BitVec 16) : Nat :=
  ofLanes 1 (((List.range 16).filter fun i => !(winMask e).getLsbD i).map fun i => (eaxc.getLsbD i).toNat)

/-- NS, and the PRBs per symbol in the buffer. -/
def winSyms (e : List Word) : Nat := winLast e + 1 - winFirst e
def winNprb (e : List Word) (cellN : Nat) : Nat := if fld (wordAt e 2) 8 0 = 0 then cellN else fld (wordAt e 2) 8 0

/-- The address of a PRB of a symbol of a stream, and of a status word. -/
def rxAddr (w : Win) (i sym b : Nat) : Nat :=
  winAddr w.entry + ((i * winSyms w.entry + (sym - winFirst w.entry)) * w.nprb + b) * 48

def rxStatusAddr (w : Win) (i sym : Nat) : Nat :=
  winAddr w.entry + winStreams w.entry * winSyms w.entry * w.nprb * 48 +
    (i * winSyms w.entry + (sym - winFirst w.entry)) * 8

/-- Replace an open window of port `p`. -/
def setWin (p : Nat) (w : Win) (s : State) : State :=
  modPort p (fun x => { x with wins := x.wins.map fun v => if v.win = w.win then w else v }) s

/-- The window accepts a message of an eAxC ID, a slot and a symbol (R197). -/
def winMatches (w : Win) (eaxc : BitVec 16) (ids : Nat × Nat × Nat) (sym : Nat) : Bool :=
  winRx w.entry && (eaxc &&& winMask w.entry) == (winVal w.entry &&& winMask w.entry) &&
    slotIds w.conf w.slot == ids && decide (winFirst w.entry ≤ sym ∧ sym ≤ winLast w.entry)

/-- The device as the unit that reads and writes for port `p`, on behalf of partition 0. -/
def whoPort (p : Nat) : Who := whoUnit 10 p 0

/-- An engine's access for partition 0 met an uncorrectable word: every live slot shows FAULT (R205). -/
def fhFault (e : Option MemErr) (s : State) : State := if e = some .uncorr then faultLive s else s

/-- Write one PRB of decompressed samples (R183, R197): the state, and whether a sample was clamped. -/
def rxPrb (p : Nat) (w : Win) (i sym b e a : Nat) (ms : List Int) (s : State) : State × Bool :=
  let vs := ms.map (bfpExpand e a)
  let r := devWrite (whoPort p) (rxAddr w i sym b) ((vs.take 24).flatMap fun v => leBytes 2 (wrap 16 v.1)) 0 s
  (fhFault r.1 r.2, vs.any (·.2))

/-- A section's PRBs from `b` on are tracked, decompressed and written. -/
def rxPrbs (p : Nat) (w : Win) (agc id i sym a : Nat) : Nat → List (Nat × List Int) → State → State × Bool
  | _, [], s => (s, false)
  | b, x :: xs, s =>
    let s := agcTrackPrb agc id (prbPower x.1 x.2) s
    let r := rxPrb p w i sym b x.1 a x.2 s
    let q := rxPrbs p w agc id i sym a (b + 1) xs r.1
    (q.1, r.2 || q.2)

/-- An accepted section: the samples, the tracker and the status of its symbol (R184, R197); `clip`: a sample had already
saturated (R191). -/
def rxAccept (p : Nat) (w : Win) (eaxc : BitVec 16) (sym start : Nat) (prbs : List (Nat × List Int)) (clip : Bool)
    (s : State) : State :=
  let i := winStream w.entry eaxc
  let agc := w.cell * 64 + eaxc.toNat % 64
  let x := s.agcOf agc
  let a := if winLatch w.entry then x.l1 else x.l0
  let id := wrap 48 (w.slot * 64) + sym
  let r := rxPrbs p w agc id i sym a start prbs s
  let st := Tab.get (fun _ => RxSym.reset) w.syms (i * 64 + sym)
  let st' : RxSym :=
    { prbs := satNat 16 (st.prbs + prbs.length), sect := satNat 8 (st.sect + 1), clip := st.clip || clip || r.2,
      frozen := if st.sect = 0 then x.frozen else st.frozen,
      peak := max st.peak (prbs.foldl (fun m q => max m (prbPower q.1 q.2)) 0), gain := a,
      got := st.got ++ [(start, prbs.length)] }
  setWin p { w with
    sections := w.sections + 1
    syms := Tab.set (fun _ => RxSym.reset) w.syms (i * 64 + sym) st' } r.1

/-- The method and width that a section's data have: its own header's, or the window's (R180). -/
def sectionMethod (w : Win) (sec : Section) : Nat × Nat :=
  match winDyn w.entry, sec.hdr with
  | true, some h => (h.1.toNat, h.2.toNat)
  | _, _ => (fld (wordAt w.entry 0) 59 59, fld (wordAt w.entry 0) 58 55)

/-- A U-plane section (R180, R197): what the device does not support is dropped as DISC, what no window takes as
OUTSIDE. -/
def uplaneSection (p : Nat) (sec : Section) (s : State) : State :=
  if !s.fhLink p then s
  else if sec.version ≠ 1 || sec.rb || sec.symInc then fhDisc p s
  else
    let ids := (sec.frame.toNat, sec.subframe.toNat, sec.slot.toNat)
    let count := fun (w : Win) => if sec.num = 0 then w.conf.nprb else sec.num.toNat
    match (s.fhPort p).wins.find? fun w => winMatches w sec.eaxc ids sec.symbol.toNat &&
        decide (sec.start.toNat + count w ≤ w.nprb) with
    | none => s.count .FH_CNT_RX 47 32 p
    | some w =>
      let m := sectionMethod w sec
      let width := if m.2 = 0 then 16 else m.2
      if 1 < m.1 ∨ (m.1 = 1 ∧ width < 6) then fhDisc p s
      else
        let bits := if m.1 = 0 then 16 else width
        rxAccept p w sec.eaxc sec.symbol.toNat sec.start.toNat
          ((sec.prbs.take (count w)).map fun q =>
            (if m.1 = 0 then 0 else q.1.toNat, (q.2.take 24).map fun v => signed bits (wrap bits v))) false s

/-! ### Time-domain reception (R187, R188, R191 to R193) -/

def tdFft (d : List Word) : Nat := 512 * 2 ^ fld (wordAt d 0) 63 62

/-- N_CP of a symbol of a slot for the normal cyclic prefix of TS 38.211 and TS 36.211: 144 samples of 2,048, and 16 × 2^MU
more on the first symbol of each half subframe (R188; notes/assumptions/30.md). -/
def tdCp (k : CellConf) (n slotId sym : Nat) : Nat :=
  let mu := k.mu
  let l := slotId * 14 + sym
  144 * n / 2048 + (if l = 0 ∨ l = 7 * 2 ^ mu then 16 * 2 ^ mu * n / 2048 else 0)

/-- The bin of RE `re` (R188): LTE leaves DC unused. -/
def tdBin (k : CellConf) (n nprb re : Nat) : Nat :=
  let b : Int := (re : Int) - 6 * nprb + (if k.lte && decide (6 * nprb ≤ re) then 1 else 0)
  (b % (n : Int)).toNat

/-- The base-2 logarithm of N_FFT. -/
def tdLog (d : List Word) : Nat := 9 + fld (wordAt d 0) 63 62

/-- The REs of a received symbol, as PRBs of 24 values before the clamp: the bins of the cell's REs (R188, R191). The
PRBs that the buffer has no place for are not written (notes/assumptions/169.md). -/
def tdReceive (k : CellConf) (nprb : Nat) (xs : List (Int × Int)) : List (List Int) :=
  let bins := fourierForward (tdLog k.td) (fld (wordAt k.td 0) 48 45) xs
  (List.range (min nprb k.nprb)).map fun b => (List.range 12).flatMap fun r =>
    let z := bins.getD (tdBin k (tdFft k.td) k.nprb (12 * b + r)) (0, 0)
    [z.1, z.2]

/-- A time-domain message (R193): its samples are placed by OFFSET, and once the N_FFT samples from CP_OFS on are there
they pass through the FFT and are written like a section. -/
def tdMessage (p : Nat) (eaxc : BitVec 16) (hdr : Word) (samples : List (Int × Int)) (s : State) : State :=
  if !s.fhLink p then s
  else if 2048 < fld hdr 15 0 then fhDisc p s
  else
    let sym := fld hdr 45 40
    match (s.fhPort p).wins.find? fun w => winMatches w eaxc (fld hdr 63 56, fld hdr 55 52, fld hdr 51 46) sym && w.conf.isTd with
    | none => s.count .FH_CNT_RX 47 32 p
    | some w =>
      let k := winStream w.entry eaxc * 64 + sym
      let d := w.conf.td
      let n := tdFft d
      let lo := min (fld (wordAt d 0) 44 32) (tdCp w.conf n (fld hdr 51 46) sym)
      let got := Tab.get (fun _ => []) w.td k
      let xs := (samples.take (fld hdr 15 0)).zipIdx.foldl (fun (m : Tab (Int × Int)) q =>
        Tab.insert (Tab.erase m (fld hdr 31 16 + q.2)) (fld hdr 31 16 + q.2)
          (signed 16 (wrap 16 q.1.1), signed 16 (wrap 16 q.1.2))) got
      let full := fun (m : Tab (Int × Int)) => (m.filter fun e => decide (lo ≤ e.1 ∧ e.1 < lo + n)).length == n
      let w' := { w with td := Tab.set (fun _ => []) w.td k xs }
      let s := setWin p w' s
      if full xs && !full got then
        let prbs := tdReceive w.conf w.nprb ((xs.filter fun e => decide (lo ≤ e.1 ∧ e.1 < lo + n)).map (·.2))
        rxAccept p w' eaxc sym 0 (prbs.map fun vs => (0, vs.map (satInt 16)))
          (prbs.any fun vs => vs.any fun v => satInt 16 v != v) s
      else s

/-- The status word of a stream's symbol at CLOSE (R197). PEAK and GAIN of a symbol with no accepted section are open
values. -/
def rxStatus (w : Win) (x : RxSym) (o : Word) : Word :=
  place 63 48 x.prbs ||| place 47 40 x.sect ||| place 15 15 (if x.prbs < w.nprb then 1 else 0) |||
    place 14 14 x.clip.toNat ||| place 13 13 x.frozen.toNat |||
    place 12 8 (if x.sect = 0 then fld o 12 8 else x.peak) ||| place 3 0 (if x.sect = 0 then fld o 3 0 else x.gain)

/-- The (stream, symbol) pairs of a window. -/
def rxPairs (e : List Word) : List (Nat × Nat) :=
  (List.range (winStreams e)).flatMap fun i => (List.range (winSyms e)).map fun k => (i, winFirst e + k)

/-- The contents of a window's status words before CLOSE are not guaranteed (R197). -/
def rxLoseStatus (w : Win) (s : State) : State :=
  s.loseRegion (rxStatusAddr w 0 (winFirst w.entry)) (winStreams w.entry * winSyms w.entry * 8)

/-- The unwritten PRBs of a symbol that misses some hold values that are not guaranteed (R197). -/
def rxLosePrbs (w : Win) (i sym : Nat) (x : RxSym) (s : State) : State :=
  if w.nprb ≤ x.prbs then s else
  ((List.range w.nprb).filter fun b => !x.got.any fun g => decide (g.1 ≤ b ∧ b < g.1 + g.2)).foldl (fun s b =>
    s.loseRegion (rxAddr w i sym b) 48) s

/-- Write the status words of a closing RX window; answers whether RX_MISSING is recorded. -/
def rxClose (p : Nat) (w : Win) (s : State) : Bool × State :=
  let get := fun (q : Nat × Nat) => Tab.get (fun _ => RxSym.reset) w.syms (q.1 * 64 + q.2)
  let s := (rxPairs w.entry).foldl (fun s q =>
    let x := get q
    let r := devWrite (whoPort p) (rxStatusAddr w q.1 q.2) (leBytes 8 (rxStatus w x s.open).toNat) 0 s
    let s := rxLosePrbs w q.1 q.2 x (fhFault r.1 r.2)
    if x.sect = 0 then s.used else s) s
  (decide (w.sections < winExpect w.entry) || (rxPairs w.entry).any (fun q => decide ((get q).prbs < w.nprb)), s)

/-! ### The commands -/

def execFhPortEnable (p : Fin 16) (v : Word) (s : State) : Ans := .next (fhPortCtlWrite p v s)
def execFhLinkUp (p : Fin 16) (s : State) : Ans := .next (fhLinkRise p s)
def execFhLinkDown (p : Fin 16) (s : State) : Ans := .next (fhLinkFall p s)
def execFhFrameReceive (p : Fin 16) (size : Nat) (fcsOk : Bool) (tags : Nat) (pause : Bool) (dst : BitVec 48)
    (hdr : Option EcpriHdr) (s : State) : Ans := .next (frameReceive p size fcsOk tags pause dst hdr s)
def execUplaneSectionRx (p : Fin 16) (sec : Section) (s : State) : Ans := .next (uplaneSection p sec s)
def execTdMessageRx (p : Fin 16) (eaxc : BitVec 16) (hdr : Word) (samples : List (Int × Int)) (s : State) : Ans :=
  .next (tdMessage p eaxc hdr samples s)
def execDelayRequestRx (p : Fin 16) (action mid : BitVec 8) (s : State) : Ans :=
  .next (delayRequest p action.toNat mid.toNat s)
def execDelayFollowUpRx (p : Fin 16) (mid : BitVec 8) (s : State) : Ans := .next (delayFollowUp p mid.toNat s)
def execDelayFollowUpTimeout (p : Fin 16) (mid : BitVec 8) (s : State) : Ans := .next (delayTimeout p mid.toNat s)
def execPtpEventRx (p : Fin 16) (msg : BitVec 4) (seq : BitVec 16) (domain : BitVec 8) (s : State) : Ans :=
  .next (ptpEvent p msg.toNat seq.toNat domain.toNat s)
def execFreeze (ag : Agent) (v : Word) (s : State) : Ans := .next (agcWrite ag v s)
def execAgcRelease (ag : Agent) (v : Word) (s : State) : Ans := .next (agcWrite ag v s)
def execFreezeHoldExpire (s : State) : Ans := .next (freezeExpire s)
def execFhCntPostRead (p : Fin 16) (s : State) : Ans := .next (s.readPlain .FH_CNT_POST p)
def execFhCntRxRead (p : Fin 16) (s : State) : Ans := .next (s.readPlain .FH_CNT_RX p)
def execFhCntTxRead (p : Fin 16) (s : State) : Ans := .next (s.readPlain .FH_CNT_TX p)

end Sys2Proof.Machine
end

