-- ==== Sys2Proof/Machine/FhTx.lean ====
section
/-! DEFINITION. The windows of the fronthaul ports, transmit posts, deadlines and fallbacks, the egress scheduler, and
the time-domain transmit path (06_fronthaul_and_slots.md R188 to R190, R193, R195 to R202, R205). -/

namespace Sys2Proof.Machine

open Sys2Proof

/-! ### Reading records of partition 0 -/

/-- Read words for port `p` on behalf of partition 0; an uncorrectable word marks the live slots (R205). -/
def fhReadBytes (p a len : Nat) (s : State) : Option (List Byte) × State :=
  match devRead (whoPort p) a len 0 s with
  | (.ok bs, s') => (some bs, s')
  | (.error e, s') => (none, fhFault (some e) s')

def fhReadWords (p a n : Nat) (s : State) : Option (List Word) × State :=
  let r := fhReadBytes p a (8 * n) s
  (r.1.map leWords, r.2)

/-- Partition 0 holds `len` bytes at an address (R196, R199). -/
def fhHeld (a len : Nat) (s : State) : Bool := (rangeCheck (some 0) a (max 1 len) s).isNone

/-! ### Entries (R198) -/

def entKind (e : List Word) : Nat := fld (wordAt e 0) 63 62
def entQueue (e : List Word) : Nat := fld (wordAt e 0) 61 59
def entRu (e : List Word) : Nat := fld (wordAt e 0) 58 55
def entWidth (e : List Word) : Nat := if fld (wordAt e 0) 54 51 = 0 then 16 else fld (wordAt e 0) 54 51
def entMeth (e : List Word) : Nat := fld (wordAt e 0) 50 50
def entEaxc (e : List Word) : Nat := fld (wordAt e 0) 47 32
def entSymbol (e : List Word) : Nat := fld (wordAt e 0) 31 26
def entStart (e : List Word) : Nat := fld (wordAt e 0) 25 17
def entNum (e : List Word) : Nat := fld (wordAt e 0) 16 8
def entSrc (e : List Word) : Nat := fld (wordAt e 1) 51 0
def entSection (e : List Word) : Nat := fld (wordAt e 2) 63 52
def entLength (e : List Word) : Nat := fld (wordAt e 2) 15 0
def entFb (e : List Word) : Nat := fld (wordAt e 3) 51 0

/-- The samples of a time-domain symbol at the output rate, cyclic prefix included (R188, R189). -/
def tdSamples (k : CellConf) (slotId sym : Nat) : Nat :=
  let n := tdFft k.td
  (n + tdCp k n slotId sym) * (1 + fld (wordAt k.td 0) 61 61)

/-- The bytes of the frames that an entry becomes: Ethernet header, tag, eCPRI header, payload and FCS
(notes/assumptions/31.md gives the header sizes that the spec leaves to its standards). -/
def frameSize (p ru payload : Nat) (s : State) : Nat :=
  max 64 (18 + (if s.rb .FH_PORT_RU 63 p ru then 4 else 0) + 8 + payload)

/-- The bytes of the application part of the frame of a U-plane or C-plane entry. -/
def entPayload (p : Nat) (e : List Word) (s : State) : Nat :=
  if entKind e = 0 then
    8 + (if s.rb .FH_PORT_CTL 19 p then 0 else 2) + entNum e * (if entMeth e = 0 then 48 else 1 + 3 * entWidth e)
  else entLength e

/-! ### Egress queues (R200) -/

def fhWeight (p q : Nat) (s : State) : Nat := max 1 (s.rf .FH_PORT_WGT (8 * q - 25) (8 * q - 32) p)

/-- Put a frame at the end of its queue, with its tags if the queue is weighted. -/
def enqueueFrame (p q : Nat) (f : TxFrame) (s : State) : State :=
  let x := s.fhPort p
  let st := max x.vtime (Tab.get (fun _ => 0) x.finish q)
  let len : Int := (f.size : Int) + sfld (s.reg .FH_PORT_OVH p) 15 0
  let fi := st + (len : Rat) / (fhWeight p q s : Rat)
  let f := if q < 4 then f else { f with start := st, fin := fi }
  s.setFhPort p { x with
    queues := Tab.set (fun _ => []) x.queues q (Tab.get (fun _ => []) x.queues q ++ [f])
    finish := if q < 4 then x.finish else Tab.set (fun _ => 0) x.finish q fi }

/-- A frame of a window's occurrence. -/
def winFrame (w : Win) (kind : FrameKind) (size : Nat) : TxFrame :=
  { win := w.win, occ := w.occ, cell := w.cell, conf := w.conf, slot := w.slot, slotNs := w.slotNs, nprb := w.nprb, kind := kind,
    size := size, start := 0, fin := 0 }

/-- The frames of a time-domain symbol: one for each message of 2,048 samples or fewer (R193, R200). -/
def enqueueSymbol (p : Nat) (w : Win) (e : List Word) (j : Nat) (zeros : Bool) (s : State) : State :=
  let n := tdSamples w.conf (slotIds w.conf w.slot).2.2 (entSymbol e)
  (List.range (ceilDiv n 2048)).foldl (fun s i => enqueueFrame p (entQueue e)
    (winFrame w (.symbol e j i zeros) (frameSize p (entRu e) (8 + 4 * min 2048 (n - 2048 * i)) s)) s) s

/-- Accepted entry `j` becomes eligible. -/
def enqueueEntry (p : Nat) (w : Win) (e : List Word) (j : Nat) (s : State) : State :=
  if entKind e = 2 then enqueueSymbol p w e j false s
  else enqueueFrame p (entQueue e) (winFrame w (.entry e) (frameSize p (entRu e) (entPayload p e s) s)) s

/-! ### The ledger counts of a slot -/

/-- Update the record of a window's slot: bits, and one count raised by `k`. -/
def winLedger (w : Win) (bits : List Nat) (hi lo k : Nat) (s : State) : State :=
  ledgerUpdate w.cell w.slot w.slotNs (fun r => bumpFld (bits.foldl setBit r) hi lo k) s

/-- A slot ceases to be live (R205): a miss with neither a fault nor a plan violation is a plan violation, and one with
a fault is an event of the health score (R496). -/
def slotCeases (l : Live) (s : State) : State :=
  let w := ledWord1 l.cell l.slot l.ns s
  let s := { s with fh := { s.fh with live := s.fh.live.filter fun m => m != l } }
  if !s.rb .FH_LEDGER_CFG 63 then s
  else
    let s := if bit w ledMiss && bit w ledFault then reeveCount 10 1 s else s
    if bit w ledMiss && !bit w ledFault && !bit w ledPlan then ledgerBits l.cell l.slot l.ns [ledPlan] s else s

/-- A slot with no open window and no unfinished job ceases if that window or job was its last. The plan knows whether
others are to come and the device is not told: it is an open value (notes/assumptions/170.md). -/
def slotRests (l : Live) (s : State) : State :=
  if l.wins = 0 ∧ l.jobs = 0 then if bit s.open 0 then slotCeases l s.used else s.used else s

/-- Change a live slot, which may cease. -/
def modLive (c : Nat) (n : Int) (f : Live → Live) (s : State) : State :=
  match s.fh.live.find? fun l => l.cell == c && l.slot == n with
  | none => s
  | some l => slotRests (f l) { s with fh := { s.fh with live := s.fh.live.map fun m => if m = l then f l else m } }

/-- A slot is live from the open of its first window (R205); the open records it in the ledger, with the loss of link or
synchronisation that it meets (R176, R201, R204). The cell's other slots that rest may have ceased before it. -/
def slotOpens (c : Nat) (n : Int) (s : State) : State :=
  let ns := slotStart c n s
  let s := (s.fh.live.filter fun l => l.cell == c && l.slot != n).foldl (fun s l => slotRests l s) s
  let s := match s.fh.live.find? fun l => l.cell == c && l.slot == n with
    | some _ => modLive c n (fun l => { l with wins := l.wins + 1 }) s
    | none => { s with fh := { s.fh with live := s.fh.live ++ [⟨c, n, ns, cellPort c s, 1, 0⟩] } }
  ledgerBits c n ns ((if s.fhLink (cellPort c s) then [] else [ledLink, ledFault]) ++
    (if s.syncOk then [] else [ledNoSync, ledFault])) s

/-! ### DECIDE (R202) -/

/-- Put a fallback pair on queue 0, C-plane half first; a record that cannot be read or held sends nothing. -/
def fallbackPair (p : Nat) (w : Win) (e : List Word) (s : State) : State :=
  let fb := entFb e
  match fhReadWords p fb 1 s with
  | (none, s) => s
  | (some h, s) =>
    let clen := fld (wordAt h 0) 31 16
    let ulen := fld (wordAt h 0) 15 0
    let uo := ceilDiv (fb + 8 + clen) 8 * 8
    if !fhHeld fb (uo + ulen - fb) s then s else
    match fhReadBytes p (fb + 8) clen s with
    | (none, s) => s
    | (some cd, s) =>
      match fhReadBytes p uo ulen s with
      | (none, s) => s
      | (some ud, s) =>
        let put := fun (c : Bool) (d : List Byte) (s : State) =>
          if d.isEmpty then s else enqueueFrame p 0
            (winFrame w (.fallback c (entEaxc e) (entRu e) d) (frameSize p (entRu e) d.length s)) s
        put false ud (put true cd s)

/-- One unposted entry is replaced (R202): answers whether it counts. -/
def decideEntry (p : Nat) (w : Win) (j : Nat) (s : State) : Nat × State :=
  match fhReadWords p (winAddr w.entry + 32 * j) 4 s with
  | (none, s) => (0, s)
  | (some e, s) =>
    if entKind e = 3 then (0, s)
    else
      let s := s.count .FH_CNT_TX 47 32 p
      if entKind e = 2 then
        (1, if w.conf.isTd then enqueueSymbol p w e j true s else s)
      else (1, if entFb e = 0 then s else fallbackPair p w e s)

/-- The open window of a number. -/
def openWin (p n : Nat) (s : State) : Option Win := (s.fhPort p).wins.find? fun w => w.win == n

/-- DECIDE for an open TX window that is not decided: every entry without an accepted post is acted on. -/
def decideWin (p : Nat) (w : Win) (s : State) : State :=
  if w.decided || winRx w.entry then s
  else
    let s := setWin p { w with decided := true } s
    let r := ((List.range (winExpect w.entry)).filter fun j => !w.posted.contains j).foldl (fun (a : Nat × State) j =>
      let q := decideEntry p w j a.2
      (a.1 + q.1, q.2)) (0, s)
    if r.1 = 0 then r.2 else winLedger w [ledTxFallback] 63 56 r.1 r.2

/-! ### CLOSE (R196, R197, R200) -/

/-- CLOSE: unsent frames of the occurrence expire; an RX window writes its status words. -/
def closeWin (p : Nat) (w : Win) (s : State) : State :=
  let s := decideWin p w s
  let w := (openWin p w.win s).getD w
  let mine := fun (f : TxFrame) => f.win == w.win && f.occ == w.occ
  let exp := ((s.fhPort p).queues.flatMap fun q => q.2.filter mine).length
  let s := modPort p (fun x => { x with
    queues := (List.range 8).foldl (fun qs q =>
      Tab.set (fun _ => []) qs q ((Tab.get (fun _ => []) qs q).filter fun f => !mine f)) x.queues
    wins := x.wins.filter fun v => v.win != w.win }) s
  let s := if exp = 0 then s else
    winLedger w (if s.fhLink p then [ledTxExpired, ledPlan] else [ledTxExpired]) 39 32 exp (s.count .FH_CNT_TX 63 48 p 0 exp)
  let s := if winRx w.entry then
      let r := rxClose p w s
      if r.1 then ledgerBits w.cell w.slot w.slotNs [ledRxMissing] r.2 else r.2
    else s
  modLive w.cell w.slot (fun l => { l with wins := l.wins - 1 }) s

/-! ### Opening a window (R195, R196) -/

/-- The entry may not open for an action of direction `rx` (R196). -/
def winBad (p n : Nat) (rx : Bool) (e : List Word) (s : State) : Bool :=
  winRx e != rx || decide (s.rf .FH_WIN_CNT 12 0 p ≤ n) || !cellValid (winCell e) s ||
    (if rx then
      decide (winLast e < winFirst e) || decide (64 < winStreams e) ||
        !fhHeld (winAddr e) (winStreams e * winSyms e * (winNprb e (cellNprb (winCell e) s) * 48 + 8)) s
    else decide (winLen e < winDec e) || !fhHeld (winAddr e) (winExpect e * 32) s)

/-- A window error: its flag, and PLAN in the port's live slots (R205). -/
def winError (p b : Nat) (s : State) : State := portLive p [ledPlan] (s.flag .FH_PORT_ERR b p)

/-- Posts accepted before the open become eligible, in entry order (R199). -/
def admitPre (p : Nat) (w : Win) (s : State) : State :=
  let mine := sortBy (fun a b => decide (a.2.2.1 < b.2.2.1))
    ((s.fhPort p).pre.filter fun q => q.1 == w.win && q.2.1 == w.occ)
  let s := modPort p (fun x => { x with pre := x.pre.filter fun q => q.1 != w.win }) s
  mine.foldl (fun s q => enqueueEntry p w q.2.2.2 q.2.2.1 s) (setWin p { w with posted := mine.map fun q => q.2.2.1 } s)

/-- An FH_TX_OPEN or FH_RX_OPEN action opens window `n` of port `p` (R195, R196). -/
def windowOpen (rx : Bool) (p n fire : Nat) (s : State) : State :=
  match fhReadWords p (s.rf .FH_WIN_BASE 51 5 p * 32 + n * 32) 4 s with
  | (none, s) => winError p 1 s
  | (some e, s) =>
    if winBad p n rx e s then winError p 1 s
    else if 64 ≤ ((s.fhPort p).wins.filter fun w => w.win != n).length then winError p 2 s
    else
      let s := match openWin p n s with
        | some w => closeWin p w (winError p 3 s)
        | none => s
      let c := winCell e
      let occ := (Tab.get (fun _ => 0) (s.fhPort p).occs n + 1) % 256
      let k := slotCount c ((fire : Int) + winRef e) s
      let w : Win :=
        { win := n, occ := occ, fire := fire, entry := e, cell := c, conf := cellConf c s,
          nprb := if rx then winNprb e (cellNprb c s) else cellNprb c s, slot := k, slotNs := slotStart c k s,
          decided := false, posted := [], sections := 0, syms := [], td := [] }
      let s := modPort p (fun x => { x with
        occs := Tab.set (fun _ => 0) x.occs n occ
        lastOcc := Tab.set (fun _ => none) x.lastOcc n (some (c, k, w.slotNs))
        wins := x.wins ++ [w] }) s
      let s := slotOpens c k s
      if rx then
        let s := rxLoseStatus w s
        if winLatchLoad e then (List.range 64).foldl (fun s i => latchLoad (c * 64 + i) (winLatch e) s) s else s
      else admitPre p w s

/-! ### Posts (R199) -/

/-- The entry may not be posted (R198, R199): reserved lengths and kinds, PRBs outside the cell, and data outside the
stores that partition 0 holds. The sectionType of a C-plane message is its sixth byte (notes/assumptions/31.md). -/
def entryOk (p : Nat) (k : CellConf) (e : List Word) (s : State) : Bool × State :=
  let nprb := k.nprb
  let fbOk := entFb e == 0 || fhHeld (entFb e) 8 s
  if entKind e = 0 then
    (entNum e != 0 && decide (entStart e + entNum e ≤ nprb) && (decide (entNum e ≤ 255) || entNum e == nprb) &&
      fhHeld (entSrc e) (entNum e * 48) s && fbOk, s)
  else if entKind e = 1 then
    if decide (8 ≤ entLength e ∧ entLength e ≤ 8192) && fhHeld (entSrc e) (entLength e) s && fbOk then
      match fhReadBytes p (entSrc e + 5) 1 s with
      | (some [b], s) => (b == 1 || b == 3, s)
      | (_, s) => (false, s)
    else (false, s)
  else if entKind e = 2 then (k.isTd && fhHeld (entSrc e) (nprb * 48) s && fbOk, s)
  else (false, s)

/-- A post is discarded: its count, and the mark in the window's slot (R199, R205). -/
def postRefused (p n hi lo : Nat) (s : State) : State :=
  let s := s.count .FH_CNT_POST hi lo p
  match Tab.get (fun _ => none) (s.fhPort p).lastOcc n with
  | some (c, k, ns) => ledgerUpdate c k ns (fun r => bumpFld (setBit r ledPlan) 55 48 1) s
  | none => s

/-- Validate entry `j` of a window entry for a post; `f` takes it when it is good. -/
def postEntry (p n j : Nat) (k : CellConf) (e : List Word) (f : List Word → State → State) (s : State) : State :=
  if winExpect e ≤ j ∨ k.valid = false then postRefused p n 31 16 s
  else match fhReadWords p (winAddr e + 32 * j) 4 s with
    | (none, s) => postRefused p n 31 16 s
    | (some ent, s) =>
      let r := entryOk p k ent s
      if r.1 then f ent r.2 else postRefused p n 31 16 r.2

/-- A write of FH_TX_POST. -/
def txPost (p : Nat) (v : Word) (s : State) : State :=
  let n := fld v 63 48
  let occ := fld v 47 40
  let j := fld v 15 0
  match openWin p n s with
  | some w =>
    if occ ≠ w.occ then postRefused p n 47 32 s
    else if w.decided then postRefused p n 63 48 s
    else if w.posted.contains j then s.count .FH_CNT_POST 15 0 p
    else postEntry p n j w.conf w.entry (fun ent s =>
      enqueueEntry p w ent j (setWin p { w with posted := w.posted ++ [j] } s)) s
  | none =>
    if occ ≠ (Tab.get (fun _ => 0) (s.fhPort p).occs n + 1) % 256 then postRefused p n 47 32 s
    else if (s.fhPort p).pre.any fun q => q.1 == n && q.2.1 == occ && q.2.2.1 == j then s.count .FH_CNT_POST 15 0 p
    else if s.rf .FH_WIN_CNT 12 0 p ≤ n then postRefused p n 31 16 s
    else match fhReadWords p (s.rf .FH_WIN_BASE 51 5 p * 32 + n * 32) 4 s with
      | (none, s) => postRefused p n 31 16 s
      | (some e, s) => postEntry p n j (cellConf (winCell e) s) e (fun ent s =>
          modPort p (fun x => { x with pre := x.pre ++ [(n, occ, j, ent)] }) s) s

/-- Steward firmware and partition 0 may post (R207). -/
def txPostBy (ag : Agent) (p : Nat) (v : Word) (s : State) : State :=
  if s.mayWrite ag 0 then txPost p v s else refusePermission s

/-! ### Sending (R178, R188 to R190, R193, R198, R200, R201) -/

/-- The next frame of a port: strict queues first, then the smallest finish tag; V follows the weighted choice. -/
def nextFrame (p : Nat) (s : State) : Option (TxFrame × State) :=
  let x := s.fhPort p
  let q := fun i => Tab.get (fun _ => []) x.queues i
  let pop := fun (i : Nat) (v : Rat) =>
    s.setFhPort p { x with queues := Tab.set (fun _ => []) x.queues i (q i).tail, vtime := v }
  match (List.range 4).find? fun i => !(q i).isEmpty with
  | some i => (q i).head?.map fun f => (f, pop i x.vtime)
  | none =>
    let heads := [4, 5, 6, 7].filterMap fun i => (q i).head?.map fun f => (i, f)
    match heads with
    | [] => none
    | h :: hs =>
      let b := hs.foldl (fun (m : Nat × TxFrame) y => if y.2.fin < m.2.fin then y else m) h
      some (b.2, pop b.1 b.2.start)

/-- The sequence ID of a message, counted up (R178). -/
def takeSeq (p mtype id : Nat) (s : State) : Nat × State :=
  let k := mtype * 65536 + id
  let n := Tab.get (fun _ => 0) (s.fhPort p).txSeq k
  (n, modPort p (fun x => { x with txSeq := Tab.set (fun _ => 0) x.txSeq k ((n + 1) % 256) }) s)

/-- Send one eCPRI message: destination entry, message type, eAxC ID, sequence ID with E = 1 and subsequence ID 0, and
application part (R177, R178). -/
def sendMessage (p ru mtype id : Nat) (data : List Byte) (s : State) : State :=
  let r := takeSeq p mtype id s
  r.2.emit (.frame p (ecpriFrame p (s.reg .FH_PORT_RU p ru) mtype
    (bitsBytes 2 id ++ [BitVec.ofNat 8 r.1, 0x80] ++ data) s))

/-- The U-plane application header (R198; notes/assumptions/31.md): direction and version, the slot's numbers, the section
and its PRBs, and udCompHdr unless TX_STATIC is 1. -/
def uplaneHeader (p : Nat) (f : TxFrame) (e : List Word) (s : State) : List Byte :=
  let ids := slotIds f.conf f.slot
  let nprbu := if entNum e = f.nprb ∧ 255 < entNum e then 0 else entNum e
  [0x90, BitVec.ofNat 8 ids.1] ++ bitsBytes 2 (ids.2.1 * 4096 + ids.2.2 * 64 + entSymbol e) ++
    bitsBytes 3 (entSection e * 4096 + entStart e) ++ [BitVec.ofNat 8 nprbu] ++
    (if s.rb .FH_PORT_CTL 19 p then [] else [BitVec.ofNat 8 (entWidth e % 16 * 16 + entMeth e), 0])

/-- Signed 16-bit values of consecutive halfwords. -/
def halves (bs : List Byte) : List Int := (List.range (bs.length / 2)).map fun i => signed 16 (leVal ((bs.drop (2 * i)).take 2))

/-- The PRBs of samples, compressed. -/
def prbsOut (meth w : Nat) (vs : List Int) : List Byte :=
  (List.range (vs.length / 24)).flatMap fun b => prbBytes meth w ((vs.drop (24 * b)).take 24)

/-- The spectral mask on the values of a symbol (R190). -/
def tdMask (d : List Word) (vs : List Int) : List Int :=
  vs.zipIdx.map fun q =>
    let prb := q.2 / 24
    let g : Int := fld (wordAt d (40 + prb / 8)) (prb % 8 * 8 + 7) (prb % 8 * 8)
    satInt 16 ((q.1 * g + 64) / 128)

/-- The inverse transform's input: the REs in their bins, 0 elsewhere (R188). -/
def tdBins (conf : CellConf) (n nprb : Nat) (vs : List Int) : List (Int × Int) :=
  let res := (List.range (12 * nprb)).map fun k => (tdBin conf n nprb k, (vs.getD (2 * k) 0, vs.getD (2 * k + 1) 0))
  (List.range n).map fun b => match res.find? fun r => r.1 == b with | some r => r.2 | none => (0, 0)

/-- One output of the filter on the input history, latest first: Q1.14 coefficients (R189). -/
def firOut (h : List Int) (us : List Int) : Int × Bool :=
  let v := ((List.zipWith (· * ·) h us).sum + 8192) / 16384
  (satInt 16 v, satInt 16 v != v)

/-- The taps of a descriptor. -/
def tdTaps (d : List Word) : List Int :=
  (List.range (fld (wordAt d 0) 60 53 + 1)).map fun i => sfld (wordAt d (8 + i / 4)) (i % 4 * 16 + 15) (i % 4 * 16)

/-- Filter a symbol: zero-stuffed samples enter the history one by one. Answers the outputs, the history left and the
saturated parts. -/
def tdFilter (h : List Int) : List (Int × Int) → List (Int × Int) → List (Int × Int) × List (Int × Int) × Nat
  | hist, [] => ([], hist, 0)
  | hist, u :: us =>
    let hist := (u :: hist).take h.length
    let i := firOut h (hist.map (·.1))
    let q := firOut h (hist.map (·.2))
    let r := tdFilter h hist us
    ((i.1, q.1) :: r.1, r.2.1, r.2.2 + i.2.toNat + q.2.toNat)

/-- A message of a time-domain symbol: its samples from number `off` on (R193). -/
def tdMessageSend (p : Nat) (f : TxFrame) (e : List Word) (off : Nat) (ys : List (Int × Int)) (s : State) : State :=
  let ids := slotIds f.conf f.slot
  let hdr := place 63 56 ids.1 ||| place 55 52 ids.2.1 ||| place 51 46 ids.2.2 ||| place 45 40 (entSymbol e) |||
    place 31 16 off ||| place 15 0 ys.length
  sendMessage p (entRu e) 0 (entEaxc e)
    (bitsBytes 8 hdr.toNat ++ ys.flatMap fun z => bitsBytes 2 (wrap 16 z.1) ++ bitsBytes 2 (wrap 16 z.2)) s

/-- The samples of a time-domain symbol (R188, R189): mask, bins, inverse transform, cyclic prefix, filter. `vs` are its
REs; none stands for zero samples at the filter input (R202). -/
def tdSymbol (p : Nat) (f : TxFrame) (e : List Word) (vs : Option (List Int)) (s : State) : List (Int × Int) × State :=
  let d := f.conf.td
  let n := tdFft d
  let ids := slotIds f.conf f.slot
  let cp := tdCp f.conf n ids.2.2 (entSymbol e)
  let raw := match vs with
    | some v => fourierInverse (tdLog d) (fld (wordAt d 0) 52 49) (tdBins f.conf n f.nprb (tdMask d v))
    | none => List.replicate n (0, 0)
  let clip := (raw.map fun z => (satInt 16 z.1 != z.1).toNat + (satInt 16 z.2 != z.2).toNat).sum
  let xs := raw.map fun z => (satInt 16 z.1, satInt 16 z.2)
  let xs := xs.drop (xs.length - cp) ++ xs
  let us := if fld (wordAt d 0) 61 61 = 1 then xs.flatMap fun z => [z, (0, 0)] else xs
  let k := f.cell * 64 + entEaxc e % 64
  let r := tdFilter (tdTaps d) (Tab.get (fun _ => []) s.fh.hist k) us
  let s := { s with fh := { s.fh with hist := Tab.set (fun _ => []) s.fh.hist k r.2.1 } }
  (r.1, s.count .FH_CNT_TX 15 0 p 0 (clip + r.2.2))

/-- Samples 2048 `i` and on of a symbol: those of its message `i`. -/
def tdPart (i : Nat) (ys : List (Int × Int)) : List (Int × Int) := (ys.drop (2048 * i)).take 2048

/-- A frame of the symbol of entry `j` of the window's occurrence takes its samples. -/
def TxFrame.formed (f : TxFrame) (win occ j : Nat) (ys : List (Int × Int)) : TxFrame :=
  match f.kind with
  | .symbol e k i _ => if f.win = win ∧ f.occ = occ ∧ k = j then { f with kind := .samples e (2048 * i) (tdPart i ys) } else f
  | _ => f

/-- The turn of message `i` of a time-domain symbol whose samples have not been formed: they are formed, for the symbol's
other messages too, and the message leaves. -/
def symbolSend (p : Nat) (f : TxFrame) (e : List Word) (j i : Nat) (vs : Option (List Int)) (s : State) : State :=
  let r := tdSymbol p f e vs s
  tdMessageSend p f e (2048 * i) (tdPart i r.1) (modPort p (fun x => { x with
    queues := x.queues.map fun q => (q.1, q.2.map fun g => g.formed f.win f.occ j r.1) }) r.2)

/-- Build and send a frame at its turn (R198, R199): a source that cannot be read sends nothing. -/
def sendFrame (p : Nat) (f : TxFrame) (s : State) : State :=
  match f.kind with
  | .fallback c eaxc ru data => sendMessage p ru (if c then 2 else 0) eaxc data s
  | .samples e off ys => tdMessageSend p f e off ys s
  | .symbol e j i true => symbolSend p f e j i none s
  | .symbol e j i false =>
    match fhReadBytes p (entSrc e) (f.nprb * 48) s with
    | (some d, s) => symbolSend p f e j i (some (halves d)) s
    | (none, s) => s
  | .entry e =>
    if entKind e = 1 then
      match fhReadBytes p (entSrc e) (entLength e) s with
      | (some d, s) => sendMessage p (entRu e) 2 (entEaxc e) d s
      | (none, s) => s
    else
      match fhReadBytes p (entSrc e) (entNum e * 48) s with
      | (some d, s) =>
        sendMessage p (entRu e) 0 (entEaxc e) (uplaneHeader p f e s ++ prbsOut (entMeth e) (entWidth e) (halves d)) s
      | (none, s) => s

/-- Bytes `d` in place of those from `i` on. -/
def patchBytes (i : Nat) (d f : List Byte) : List Byte := ((f.take i) ++ d ++ f.drop (i + d.length)).take f.length

/-- A one-step Sync with egress time `t` (ns, sub-ns): originTimestamp takes the whole ns, and the sub-ns part is added to
correctionField (R56), which lie at bytes 34 and 8 of the message that follows the Ethernet header of 14 bytes
(PRESUMED, notes/assumptions/31.md). -/
def oneStep (t : Nat × Nat) (f : List Byte) : List Byte :=
  let corr := leVal ((f.drop 22).take 8).reverse
  patchBytes 22 (bitsBytes 8 (corr + t.2)) (patchBytes 48 (ptpTime t.1) f)

/-- A PTP frame of steward firmware leaves: Sync and Delay_Req are timestamped, and a one-step Sync takes the time and its
sub-ns part (R54, R56, R60). -/
def sendPtp (p : Nat) (f : PtpFrame) (s : State) : State :=
  let t := egressStamp p s
  let ok := s.rb .TB_PORT_PTP 0 p && decide (f.msg.toNat < 2) &&
    (!s.rb .TB_PORT_PTP 12 p || f.domain.toNat == s.rf .TB_PORT_PTP 23 16 p)
  let s := if ok then tsPush p true f.msg.toNat f.seq.toNat f.domain.toNat t.1 t.2 s else s
  s.emit (.frame p (if s.rb .TB_PORT_PTP 4 p && f.msg == 0 then oneStep t f.body else f.body))

/-- The port comes to a frame boundary: a PTP frame goes first; else the next frame is taken, and sent, or discarded
while LINK or the sync gate is against it (R176, R200, R201). -/
def frameSend (p : Nat) (ptp : Option PtpFrame) (s : State) : State :=
  match ptp with
  | some f => if s.fhLink p then sendPtp p f s else s
  | none =>
    match nextFrame p s with
    | none => s
    | some (f, s) =>
      if !s.fhLink p then s
      else if s.rb .FH_PORT_CTL 18 p && !s.syncOk then s.count .FH_CNT_TX 31 16 p
      else sendFrame p f s

/-! ### The commands -/

def execFhTxOpen (s : State) : Ans := .next (withDelivery 5 (fun d s => windowOpen false d.target d.arg d.fireTime s) s)
def execFhRxOpen (s : State) : Ans := .next (withDelivery 6 (fun d s => windowOpen true d.target d.arg d.fireTime s) s)
def execFhTxPost (ag : Agent) (p : Fin 16) (v : Word) (s : State) : Ans := .next (txPostBy ag p v s)

/-- DECIDE falls on the first tick at or after FIRE_TIME + DEC_NS (R196). -/
def execDecide (p : Fin 16) (w : BitVec 12) (s : State) : Ans :=
  .next (match openWin p w.toNat s with
    | some x => if x.fire + winDec x.entry ≤ s.now then decideWin p x s else s
    | none => s)

/-- CLOSE falls on the first tick at or after FIRE_TIME + LEN_NS (R196). -/
def execWindowClose (p : Fin 16) (w : BitVec 12) (s : State) : Ans :=
  .next (match openWin p w.toNat s with
    | some x => if x.fire + winLen x.entry ≤ s.now then closeWin p x s else s
    | none => s)

def execFhFrameSend (p : Fin 16) (ptp : Option PtpFrame) (s : State) : Ans := .next (frameSend p ptp s)

end Sys2Proof.Machine
end

