-- ==== Sys2Proof/Machine/Rings.lean ====
section
/-! DEFINITION. Submission and completion rings (07_channel_coding.md R212, R232; 09_pile_engines.md R271): free-running
16-bit indices over memory rings of 64-byte descriptors and 32-byte records. -/

namespace Sys2Proof.Machine

open Sys2Proof

/-- The difference of two free-running 16-bit indices (R212). -/
def idxDiff (a b : Nat) : Nat := (a + 65536 - b % 65536) % 65536

/-- A submission tail moves forward and leaves no more than `size` jobs outstanding (R212). -/
def tailOk (size old head new : Nat) : Bool :=
  decide (idxDiff old head ≤ idxDiff new head ∧ idxDiff new head ≤ size)

/-- A completion head moves forward and does not pass the tail (R212). -/
def headOk (old tail new : Nat) : Bool := decide (idxDiff new old ≤ idxDiff tail old)

/-- The registers of a kind of ring: SQ_BASE, SQ_CFG, SQ_TAIL, SQ_HEAD, CQ_BASE, CQ_TAIL, CQ_HEAD, CQ_DB. -/
structure RingRegs where
  sqBase : RegName
  cfg    : RegName
  sqTail : RegName
  sqHead : RegName
  cqBase : RegName
  cqTail : RegName
  cqHead : RegName
  cqDb   : RegName

/-- SIZE: SIZE_LOG2 clamped to 4 to 12 (R232). -/
def RingRegs.size (g : RingRegs) (i j : Nat) (s : State) : Nat := 2 ^ min 12 (max 4 (s.rf g.cfg 3 0 i j))

/-- A tail write by whoever may make it; a bad one is ignored and sets bit `b` of `err` (R212). -/
def RingRegs.tailWrite (g : RingRegs) (err : RegName) (b i j : Nat) (v : Word) (s : State) : State :=
  if tailOk (g.size i j s) (s.rf g.sqTail 15 0 i j) (s.rf g.cqHead 15 0 i j) (fld v 15 0) then
    s.putReg g.sqTail 15 0 (fld v 15 0) i j
  else s.flag err b i

/-- A write of the completion head; a bad one is ignored (R212). -/
def RingRegs.headWrite (g : RingRegs) (i j : Nat) (v : Word) (s : State) : State :=
  if headOk (s.rf g.cqHead 15 0 i j) (s.rf g.cqTail 15 0 i j) (fld v 15 0) then
    s.putReg g.cqHead 15 0 (fld v 15 0) i j
  else s

/-- A write of the configuration register: other fields change only while EN = 0, SIZE_LOG2 is clamped, and setting EN
to 1 sets the four indices to 0 (R232). -/
def RingRegs.cfgWrite (g : RingRegs) (i j : Nat) (v : Word) (s : State) : State :=
  if s.rb g.cfg 63 i j then
    if bit v 63 then s else s.unflag g.cfg 63 i j
  else
    let s := s.writePlain g.cfg (putFld v 3 0 (min 12 (max 4 (fld v 3 0)))) i j
    if bit v 63 then
      (((s.setReg g.sqTail 0 i j).setReg g.sqHead 0 i j).setReg g.cqTail 0 i j).setReg g.cqHead 0 i j
    else s

/-- A write of a base register: ignored while EN = 1 (R232). -/
def RingRegs.baseWrite (g : RingRegs) (r : RegName) (i j : Nat) (v : Word) (s : State) : State :=
  if s.rb g.cfg 63 i j then s else s.writePlain r v i j

/-- The ring is visited and holds a descriptor. -/
def RingRegs.ready (g : RingRegs) (i j : Nat) (s : State) : Bool :=
  s.rb g.cfg 63 i j && s.rf g.sqHead 15 0 i j != s.rf g.sqTail 15 0 i j

/-- The first ring from `from_` on, of `n` in turn, that holds a descriptor (R213). -/
def RingRegs.nextRing (g : RingRegs) (i n from_ : Nat) (s : State) : Option Nat :=
  ((List.range n).map fun r => (from_ + r) % n).find? fun j => g.ready i j s

/-- The address of the descriptor at the head (R212). -/
def RingRegs.descAddr (g : RingRegs) (i j : Nat) (s : State) : Nat :=
  s.rf g.sqBase 51 6 i j * 64 + s.rf g.sqHead 15 0 i j % g.size i j s * 64

/-- The head advances. -/
def RingRegs.advance (g : RingRegs) (i j : Nat) (s : State) : State :=
  s.putReg g.sqHead 15 0 (s.rf g.sqHead 15 0 i j + 1) i j

/-- A transfer in write requests of `n` bytes, lowest address first, which ends at the first that is refused (R266). -/
def devWriteBy (w : Who) (n : Nat) : Nat → Nat → List Byte → Nat → State → Option MemErr × State
  | 0, _, _, _, s => (none, s)
  | k + 1, a, d, aux, s =>
    if d.isEmpty then (none, s)
    else match devWrite w a (d.take n) aux s with
      | (none, s) => devWriteBy w n k (a + n) (d.drop n) aux s
      | e => e

/-- A transfer in requests that each lie in one 32-byte word. -/
def devWrite32 (w : Who) (a : Nat) (d : List Byte) (aux : Nat) (s : State) : Option MemErr × State :=
  let k := 32 - a % 32
  match devWrite w a (d.take k) aux s with
  | (none, s) => devWriteBy w 32 (d.length / 32 + 1) (a + k) (d.drop k) aux s
  | e => e

/-- A completion record is written at the tail, the tail advances, and then the doorbell rings (R212, R229). -/
def RingRegs.complete (g : RingRegs) (w : Who) (i j : Nat) (rec : List Word) (s : State) : State :=
  let a := s.rf g.cqBase 51 5 i j * 32 + s.rf g.cqTail 15 0 i j % g.size i j s * 32
  let s := (devWrite w a (rec.flatMap fun x => leBytes 8 x.toNat) 0 s).2
  ringReg g.cqDb i j (s.putReg g.cqTail 15 0 (s.rf g.cqTail 15 0 i j + 1) i j)

end Sys2Proof.Machine
end

