-- ==== Sys2Proof/Machine/Coding.lean ====
section
/-! DEFINITION. The coding clusters: rings, job slots, code blocks, HARQ buffers, deadlines and completion
(07_channel_coding.md R209 to R232). -/

namespace Sys2Proof.Machine

open Sys2Proof

/-! ### The clusters' state -/

def State.cluster (s : State) (k : Nat) : Cluster := Tab.get (fun _ => Cluster.reset) s.cod k

def State.setCluster (s : State) (k : Nat) (x : Cluster) : State :=
  { s with cod := Tab.set (fun _ => Cluster.reset) s.cod k x }

/-- Replace the job with the same number. -/
def putJob (k : Nat) (j : CodJob) (s : State) : State :=
  let x := s.cluster k
  s.setCluster k { x with jobs := x.jobs.map fun i => if i.seq = j.seq then j else i }

def dropJob (k seq : Nat) (s : State) : State :=
  let x := s.cluster k
  s.setCluster k { x with jobs := x.jobs.filter fun i => i.seq != seq }

def findJob (k seq : Nat) (s : State) : Option CodJob := (s.cluster k).jobs.find? fun j => j.seq == seq

def CodJob.block (j : CodJob) (r : Nat) : CodBlock := Tab.get (fun _ => CodBlock.reset) j.blocks r

def CodJob.setBlock (j : CodJob) (r : Nat) (b : CodBlock) : CodJob :=
  { j with blocks := Tab.set (fun _ => CodBlock.reset) j.blocks r b }

/-- The rings of a cluster. -/
def codRing : RingRegs :=
  ⟨.COD_SQ_BASE, .COD_SQ_CFG, .COD_SQ_TAIL, .COD_SQ_HEAD, .COD_CQ_BASE, .COD_CQ_TAIL, .COD_CQ_HEAD, .COD_CQ_DB⟩

/-- A cluster as a maker of requests, for partition 0 (R209). -/
def whoCod (k : Nat) : Who := whoUnit 3 k 0

/-! ### Descriptor fields (R215, R217) -/

def dType (d : List Word) : Nat := fld (wordAt d 0) 63 60
def dCell (d : List Word) : Nat := fld (wordAt d 0) 59 52
def dTag (d : List Word) : Nat := fld (wordAt d 0) 47 32
def dDeadline (d : List Word) : Nat := (wordAt d 1).toNat
def dIn (d : List Word) : Nat := fld (wordAt d 2) 51 0
def dOut (d : List Word) : Nat := fld (wordAt d 3) 51 0
def dHarq (d : List Word) : Nat := fld (wordAt d 4) 51 0
def dSlotNs (d : List Word) : Nat := (wordAt d 6).toNat
def dMask (d : List Word) : Nat := fld (wordAt d 7) 51 0
def dHb (d : List Word) : Bool := (dType d == 1 || dType d == 3) && bit (wordAt d 0) 31
def dNew (d : List Word) : Bool := bit (wordAt d 0) 30
def dBg2 (d : List Word) : Bool := bit (wordAt d 0) 29
def dIter (d : List Word) : Nat := fld (wordAt d 0) 28 24 + 1
def dRv (d : List Word) : Nat := fld (wordAt d 0) 23 22
def dQmCode (d : List Word) : Nat := fld (wordAt d 0) 21 19
def dQm (d : List Word) : Nat := if dQmCode d = 0 then 1 else 2 * dQmCode d
def dNl (d : List Word) : Nat := fld (wordAt d 0) 18 17 + 1
def dTbs (d : List Word) : Nat := fld (wordAt d 5) 63 43
def dG (d : List Word) : Nat := fld (wordAt d 5) 42 22
def dLimit (d : List Word) : Nat := fld (wordAt d 5) 21 1
def dList (d : List Word) : Nat := 2 ^ fld (wordAt d 0) 31 30
def dPbch (d : List Word) : Bool := bit (wordAt d 0) 29
def dA (d : List Word) : Nat := fld (wordAt d 5) 63 52
def dE (d : List Word) : Nat := fld (wordAt d 5) 51 36
def dRnti (d : List Word) : Nat := fld (wordAt d 5) 35 20

/-- A decode job: types 1, 3 and 5. -/
def dDecode (d : List Word) : Bool := dType d % 2 == 1

/-- LDPC or turbo: types 1 to 4. -/
def dShared (d : List Word) : Bool := decide (dType d ≤ 4)

/-- LDPC: types 1 and 2. -/
def dLdpc (d : List Word) : Bool := decide (dType d ≤ 2)

/-- The derived parameters of an LDPC or turbo job. -/
def dParams (d : List Word) : CodeParams :=
  if dLdpc d then ldpcParams (dBg2 d) (dTbs d) (dLimit d) (dRv d) else turboParams (dTbs d) (dLimit d) (dRv d)

/-- Polar segments of UCI (R222; TS 38.212 section 5.2.1). -/
def polarSegs (a e : Nat) : Nat := if (a ≥ 360 ∧ e ≥ 1088) ∨ a ≥ 1013 then 2 else 1

/-- Code blocks, or segments for polar. -/
def dBlocks (d : List Word) : Nat :=
  if dShared d then (dParams d).c else if dType d = 5 then polarSegs (dA d) (dE d) else 1

/-- The reserved bits of a descriptor are 0 (R215, R217). -/
def dReserved (d : List Word) : Bool :=
  let w0 := wordAt d 0
  let t := dType d
  let p0 := if t = 1 then 0x0001FFFF else if t = 2 then 0xC001FFFF else if t = 3 then 0x2001FFFF
    else if t = 4 then 0xE001FFFF else if t = 5 then 0x3FFFFFFF else 0xDFFFFFFF
  let p1 := if t ≤ 4 then 0x1 else if t = 5 then 0xFFFFFFFFF else 0xFFFFF
  fld w0 51 48 != 0 || (w0 &&& p0) != 0 || ((wordAt d 5) &&& p1) != 0 || fld (wordAt d 2) 63 52 != 0 ||
    fld (wordAt d 3) 63 52 != 0 || fld (wordAt d 4) 63 52 != 0 || fld (wordAt d 7) 63 52 != 0

/-- The conditions of DESC_BAD (R216). -/
def descBad (d : List Word) : Bool :=
  let t := dType d
  t == 0 || decide (6 < t) || dReserved d ||
    (if dShared d then
      decide (4 < dQmCode d) || dG d % (dNl d * dQm d) != 0 || (t == 3 && decide (16 < dIter d)) ||
        decide (256 < (dParams d).c) || (dHb d && dHarq d == 0) ||
        (dLdpc d && (nrBlocks (dBg2 d) (dTbs d)).2 % (nrBlocks (dBg2 d) (dTbs d)).1 != 0)
    else if t = 5 then
      decide (dA d < 12 ∨ 1706 < dA d) || decide (8192 < dE d / polarSegs (dA d) (dE d))
    else if dPbch d then dA d != 32 || dE d != 864
    else decide (dA d < 12 ∨ 140 < dA d) || decide (8192 < dE d))

/-- Bytes of input and of output (R218, R219, R229). -/
def dInLen (d : List Word) : Nat :=
  if dDecode d then (if dShared d then dG d else dE d) else ceilDiv (if dShared d then dTbs d else dA d) 8

def dOutLen (d : List Word) : Nat :=
  if dDecode d then ceilDiv (if dShared d then dTbs d else dA d) 256 * 32 + (if dShared d then 32 else 0)
  else ceilDiv (if dShared d then dG d else dE d) 8

/-- Ncb of a transport block: that of its largest code block, which a turbo code's last is (R225;
notes/assumptions/171.md). -/
def harqNcb (d : List Word) : Nat := (dParams d).ncb (dBlocks d - 1)

/-- STRIDE and the bytes of a HARQ buffer (R225). -/
def harqStride (d : List Word) : Nat := ceilDiv (harqNcb d) 64 * 64

def harqLen (d : List Word) : Nat := 64 + dBlocks d * harqStride d

/-- A region that partition 0 holds whole. -/
def heldBy0 (a len : Nat) (s : State) : Bool := len == 0 || (rangeCheck (some 0) a len s).isNone

/-- The conditions of ADDRESS (R216). -/
def descAddress (d : List Word) (s : State) : Bool :=
  dIn d % 32 != 0 || dOut d % 32 != 0 || dHarq d % 32 != 0 || dMask d % 32 != 0 ||
    !heldBy0 (dIn d) (dInLen d) s || !heldBy0 (dOut d) (dOutLen d) s || (dHb d && !heldBy0 (dHarq d) (harqLen d) s) ||
    (dType d == 1 && dMask d != 0 && !heldBy0 (dMask d) 32 s)

/-! ### Blocks of a job -/

/-- The coded bits of block `r`: the marked blocks share G (R219); a polar segment has an equal part of E. -/
def CodJob.e (j : CodJob) (r : Nat) : Nat :=
  let d := j.desc
  if dShared d then
    let n := dBlocks d
    let marked := (List.range n).filter fun i => j.mask.getLsbD i
    if j.mask.getLsbD r then
      shareE (dG d) (dNl d * dQm d) marked.length ((List.range r).filter fun i => j.mask.getLsbD i).length
    else 0
  else dE d / dBlocks d

/-- Where block `r`'s coded bits begin. -/
def CodJob.ofs (j : CodJob) (r : Nat) : Nat := (List.range r).foldl (fun a i => a + j.e i) 0

/-- The address of block `r`'s soft buffer (R225). -/
def CodJob.softAt (j : CodJob) (r : Nat) : Nat := dHarq j.desc + 64 + r * harqStride j.desc

/-- The rank of a job in its pool: DEADLINE, 0 latest, then the order taken (R214). -/
def CodJob.before (a b : CodJob) : Bool :=
  let x := if dDeadline a.desc = 0 then 2 ^ 64 else dDeadline a.desc
  let y := if dDeadline b.desc = 0 then 2 ^ 64 else dDeadline b.desc
  decide (x < y) || (x == y && decide (a.seq < b.seq))

/-- The jobs that satisfy a test, earliest rank first. -/
def ranked (k : Nat) (p : CodJob → Bool) (s : State) : List CodJob :=
  sortBy CodJob.before ((s.cluster k).jobs.filter p)

/-- The signed bytes of a buffer, and back. -/
def toSoft (bs : List Byte) : List Int := bs.map fun b => b.toInt

def ofSoft (xs : List Int) : List Byte := xs.map fun x => BitVec.ofInt 8 x

/-! ### The pile engines' part (R225, R226, R292) -/

/-- The pile engine that works on an address: its pile's, or page mod 8 for tier 2 (R292). -/
def engineOf (a : Nat) (s : State) : Nat :=
  match spaceOf a with
  | .unified n => if (s.page n).inTier1 then (s.page n).pile else n % 8
  | _ => 0

/-- The engine of the pile that holds an address, working for partition 0. -/
def whoPile (a : Nat) (s : State) : Who := whoUnit 2 (engineOf a s) 0

/-- The parts of a region that lie in one page each. -/
def pageParts : Nat → Nat → Nat → List (Nat × Nat)
  | 0, a, n => [(a, n)]
  | k + 1, a, n => let x := 65536 - a % 65536; if n ≤ x then [(a, n)] else (a, x) :: pageParts k (a + x) (n - x)

/-- Read a soft buffer, each part by the engine of its pile. -/
def softRead (a n : Nat) (s : State) : Except MemErr (List Byte) × State :=
  (pageParts (n / 65536 + 1) a n).foldl (fun r p =>
    match r with
    | (.error e, s) => (.error e, s)
    | (.ok bs, s) => match devRead (whoPile p.1 s) p.1 p.2 0x12 s with
      | (.ok ds, s) => (.ok (bs ++ ds), s)
      | (.error e, s) => (.error e, s)) (.ok [], s)

/-- Write a soft buffer, each part by the engine of its pile. -/
def softWrite (a : Nat) (d : List Byte) (s : State) : State :=
  (pageSplit (d.length / 65536 + 1) a d).foldl (fun s p => (devWrite (whoPile p.1 s) p.1 p.2 0x12 s).2) s

/-- Rewrite block `r`'s buffer afresh (R226, step 2), in whole words, so that no word of it stays uncorrectable: the bytes
after its last position are 0 (notes/assumptions/171.md). -/
def softRenew (j : CodJob) (r : Nat) (s : State) : State :=
  let d := ofSoft (freshSoft (dParams j.desc) r)
  softWrite (j.softAt r) (d ++ List.replicate (ceilDiv d.length 32 * 32 - d.length) 0) s

/-- Combine the LLRs of block `r` into its buffer's values, after rewriting it if `renew` (R226, R228). -/
def softCombineIn (j : CodJob) (r : Nat) (renew : Bool) (old : List Int) (llr : List Byte) (s : State) :
    List Int × State :=
  let pr := dParams j.desc
  let soft := softCombine pr r (dQm j.desc) (dLdpc j.desc) (if renew then freshSoft pr r else old) (toSoft llr)
  let s := softWrite (j.softAt r) (ofSoft soft) (if renew then softRenew j r s else s)
  (soft, s.count .SE_CNT 15 0 (engineOf (j.softAt r) s))

/-! ### Completion (R223, R224, R227, R229, R230) -/

/-- The bit of COD_ERR for an error status. -/
def codErrBit (st : Nat) : Nat := st - 0x10 + 1

/-- Count a completion (R232). -/
def codCount (k st : Nat) (s : State) : State :=
  match st with
  | 0x00 => s.count .COD_CNT 63 48 k
  | 0x01 => s.count .COD_CNT 47 32 k
  | 0x02 => s.count .COD_CNT 31 16 k
  | 0x03 => s.count .COD_CNT 15 0 k
  | 0x10 => s.count .COD_CNT_ERR 63 48 k
  | 0x11 => s.count .COD_CNT_ERR 63 48 k
  | 0x12 => s.count .COD_CNT_ERR 47 32 k
  | 0x13 => s.count .COD_CNT_ERR 31 16 k
  | _ => s.count .COD_CNT_ERR 15 0 k

/-- The completion record (R229). An open value stands for the metric of a two-segment codeword. -/
def codRecord (j : CodJob) (st now : Nat) (free : Word) : List Word :=
  let d := j.desc
  let n := if st = 0x10 then 1 else dBlocks d
  let bs := if st = 0x10 then [] else (List.range n).map j.block
  let fails := if dDecode d then (bs.filter fun b => !b.ok).length else 0
  let iters := bs.foldl (fun a b => a + b.iters) 0
  let metric := if dType d = 5 ∧ st ≠ 0x10 then
      (if n = 1 then (BitVec.ofInt 32 (j.block 0).metric).toNat else fld free 31 0) else 0
  [place 63 60 (dType d) ||| place 59 57 j.ring ||| place 56 56 (if st = 0 then 1 else 0) ||| place 55 48 st |||
     place 47 32 (dTag d) ||| place 31 24 (n - 1) ||| place 23 16 (bs.foldl (fun a b => max a b.iters) 0) |||
     place 15 0 (satNat 16 iters),
   BitVec.ofNat 64 now,
   place 63 32 metric ||| place 31 16 fails,
   if dDeadline d = 0 then 0 else BitVec.ofInt 64 ((dDeadline d : Int) - now)]

/-- A late or expired decode shows in the ledger (R203, R224). -/
def nackLate (d : List Word) (st : Nat) (s : State) : State :=
  if dDecode d && dSlotNs d != 0 && (st == 2 || st == 3) then
    ledgerUpdate (dCell d) (slotCount (dCell d) (dSlotNs d) s) (dSlotNs d)
      (fun w => bumpFld (setBit w ledNackLate) 47 40 1) s
  else s

/-- A decode job of a live slot has ended (R205). -/
def jobLeaves (d : List Word) (s : State) : State :=
  if dDecode d && dSlotNs d != 0 then
    modLive (dCell d) (slotCount (dCell d) (dSlotNs d) s) (fun l => { l with jobs := l.jobs - 1 }) s
  else s

/-- Clear BUSY of a HARQ header, and count the transmission or drop VALID (R226, R231). -/
def harqRelease (d : List Word) (f : Word × Word → Word × Word) (s : State) : State :=
  match devRead (whoPile (dHarq d) s) (dHarq d) 16 0x12 s with
  | (.ok bs, s) =>
    let ws := leWords bs
    let r := f (wordAt ws 0, clearBit (wordAt ws 1) 0)
    (devWrite (whoPile (dHarq d) s) (dHarq d) (leBytes 8 r.1.toNat ++ leBytes 8 r.2.toNat) 0x12 s).2
  | (.error _, s) => s

/-- Rewrite the soft buffers of a first transmission that no combine has rewritten (R227). -/
def harqRest (j : CodJob) (s : State) : State :=
  if !(j.begun && dHb j.desc && dNew j.desc) then s
  else ((List.range (dBlocks j.desc)).filter fun r => !(j.block r).combined).foldl (fun s r => softRenew j r s) s

/-- A job completes with a status: its record, counts, error bits, ledger bits and HARQ header; its slot is free. -/
def codFinish (k : Nat) (j : CodJob) (st : Nat) (s : State) : State :=
  let d := j.desc
  let s := if st = 0x12 then s.loseRegion (dOut d) (dOutLen d) else s
  let s := codRing.complete (whoCod k) k j.ring (codRecord j st s.now s.open) s.used
  let s := codCount k st s
  let s := if 0x10 ≤ st then faultOf (some 0) (s.flag .COD_ERR (codErrBit st) k) else s
  let s := dropJob k j.seq (nackLate d st s)
  let s := harqRest j s
  let s := if (j.begun || st == 0x14) && dHb d then
      harqRelease d (fun w => if st = 0x14 then (clearBit w.1 63, w.2)
        else if st = 0x13 || !j.started then w else (w.1, bumpFld w.2 63 56 1)) s
    else s
  jobLeaves d s

/-! ### Taking descriptors (R213, R216) -/

/-- Take the next descriptor in turn, while a slot is free; one that fails a check completes at once. -/
def codTake (k : Nat) (s : State) : State :=
  let x := s.cluster k
  if !s.rb .COD_CTL 0 k || decide (256 ≤ x.jobs.length) then s else
  match codRing.nextRing k 8 x.nextRing s with
  | none => s
  | some r =>
    let rd := devRead (whoCod k) (codRing.descAddr k r s) 64 0 s
    let s := codRing.advance k r rd.2
    let mk := fun (d : List Word) (mask : BitVec 256) =>
      ({ seq := x.seq, ring := r, desc := d, begun := false, waited := false, started := false, fresh := false,
         status := 0, mask := mask, blocks := [] } : CodJob)
    let s := s.setCluster k { x with nextRing := (r + 1) % 8, seq := x.seq + 1 }
    match rd.1 with
    | .error e => codFinish k (mk [] 0) (if e = .uncorr then 0x12 else 0x11) s
    | .ok bs =>
      let d := leWords bs
      let j := mk d (BitVec.allOnes 256)
      let s := if dDecode d && dSlotNs d != 0 then
          modLive (dCell d) (slotCount (dCell d) (dSlotNs d) s) (fun l => { l with jobs := l.jobs + 1 }) s
        else s
      if descBad d then codFinish k j 0x10 s
      else if descAddress d s then codFinish k j 0x11 s
      else let y := s.cluster k; s.setCluster k { y with jobs := y.jobs ++ [j] }

/-! ### Beginning a job -/

/-- The header that a job's parameters make, with BUSY held (R225, R226). -/
def harqHeader (d : List Word) : Word :=
  place 63 63 1 ||| place 62 62 (if dLdpc d then 0 else 1) ||| place 61 61 (if dLdpc d && dBg2 d then 1 else 0) |||
    place 60 53 (dBlocks d - 1) ||| place 52 32 (dTbs d) ||| place 31 15 (harqNcb d)

/-- Begin a decode job: its mask, BUSY, and the header (R226, steps 1 to 3). None while BUSY is held by another. -/
def beginDecode (k : Nat) (j : CodJob) (s : State) : Option State :=
  let d := j.desc
  let m := if dType d = 1 && dMask d != 0 then devRead (whoCod k) (dMask d) 32 0x12 s
    else (.ok (List.replicate 32 0xFF), s)
  match m with
  | (.error _, s) => some (codFinish k j 0x12 s)
  | (.ok mb, s) =>
    let j := { j with mask := BitVec.ofNat 256 (leVal mb) }
    if !dHb d then some (putJob k { j with begun := true, fresh := true } s)
    else match devRead (whoPile (dHarq d) s) (dHarq d) 16 0x12 s with
      | (.error _, s) => some (codFinish k j 0x12 s)
      | (.ok hb, s) =>
        let w0 := wordAt (leWords hb) 0
        let w1 := wordAt (leWords hb) 1
        if bit w1 0 then none
        else
          let fresh := dNew d || !bit w0 63
          let j := { j with begun := true, fresh := fresh }
          if fresh then
            let s := (devWrite (whoPile (dHarq d) s) (dHarq d)
              (leBytes 8 (harqHeader d).toNat ++ leBytes 8 1 ++ List.replicate 48 0) 0x12 s).2
            some (putJob k j s)
          else
            let s := (devWrite (whoPile (dHarq d) s) (dHarq d + 8) (leBytes 8 (setBit w1 0).toNat) 0x12 s).2
            if putFld w0 14 0 0 = harqHeader d then some (putJob k j s) else some (codFinish k j 0x13 s)

/-- The rate-matched bits of block `r` of an encode job. -/
def encodeBlock (j : CodJob) (blocks : List (List Bool)) (payload : List Bool) (r : Nat) : List Bool :=
  let d := j.desc
  let pr := dParams d
  let b := blocks.getD r []
  if dLdpc d then
    let zc := nrZc (dBg2 d) (dTbs d) (pr.kb r)
    ldpcSend pr r (j.e r) (dQm d) (ldpcCode (dBg2 d) zc ((if dBg2 d then 10 else 22) * zc) b)
  else if dShared d then
    turboSend pr r (lteK (dTbs d) r) (j.e r) (List.replicate (pr.fill r) false ++ b)
  else polarEncode (dPbch d) (dE d) (dRnti d) payload

/-- Begin an encode job: read its payload and encode it (R219, R221, R222). -/
def beginEncode (k : Nat) (j : CodJob) (s : State) : State :=
  let d := j.desc
  match devRead (whoCod k) (dIn d) (dInLen d) 0x12 s with
  | (.error _, s) => codFinish k j 0x12 s
  | (.ok bs, s) =>
    let payload := (streamBits bs).take (if dShared d then dTbs d else dA d)
    let tb := payload ++ (if dLdpc d then nrTbCrcBits (dTbs d) payload else if dShared d then crc24A payload else [])
    let blocks := segment (dBlocks d) (dParams d).kb tb (dBlocks d) 0
    let j := { j with begun := true }
    putJob k ((List.range (dBlocks d)).foldl (fun j r =>
      j.setBlock r { j.block r with bits := encodeBlock j blocks payload r }) j) s

/-- Try the jobs of a type that have not begun, in rank order: the first that BUSY does not hold off begins; those it
holds off have waited (R226). -/
def beginFirst (k : Nat) : List CodJob → State → State
  | [], s => s
  | j :: js, s =>
    if dDecode j.desc then
      match beginDecode k j s with
      | some s' => s'
      | none => beginFirst k js (if j.waited then s else putJob k { j with waited := true } (s.count .COD_CNT_HWAIT 31 0 k))
    else beginEncode k j s

/-- DEADLINE has passed: no part of the job starts any more (R223). -/
def CodJob.late (j : CodJob) (s : State) : Bool := dDeadline j.desc != 0 && decide (dDeadline j.desc ≤ s.now)

/-- Begin the next job of a type. -/
def codBegin (k ty : Nat) (s : State) : State :=
  beginFirst k (ranked k (fun j => dType j.desc == ty && !j.begun && !j.late s) s) s

/-! ### Combining (R226 to R228) -/

/-- The LLRs of block `r`. -/
def readLlrs (k : Nat) (j : CodJob) (r : Nat) (s : State) : Except MemErr (List Byte) × State :=
  devRead (whoCod k) (dIn j.desc + j.ofs r) (j.e r) 0x12 s

/-- Combine block `r` of a job with HB = 1 in memory. -/
def combineBlock (k : Nat) (j : CodJob) (r : Nat) (s : State) : State :=
  match readLlrs k j r s with
  | (.error _, s) => codFinish k j 0x12 s
  | (.ok lb, s) =>
    let done := fun (j : CodJob) (s : State) =>
      putJob k ({ j with started := true }.setBlock r { j.block r with combined := true }) s
    if j.fresh then done j (softCombineIn j r true [] lb s).2
    else match softRead (j.softAt r) ((dParams j.desc).ncb r) s with
      | (.ok bs, s) => done j (softCombineIn j r false (toSoft bs) lb s).2
      | (.error _, s) => done { j with status := 0x12 } (softCombineIn j r true [] lb s).2

/-- The first block of a job that waits for its combine. -/
def nextCombine (j : CodJob) : Option Nat :=
  (List.range (dBlocks j.desc)).find? fun r => !(j.block r).combined

/-- The combine of the next block in rank order. -/
def harqCombine (k : Nat) (s : State) : State :=
  match ranked k (fun j => dHb j.desc && j.begun && !j.late s && (nextCombine j).isSome) s with
  | [] => s
  | j :: _ => match nextCombine j with
    | some r => combineBlock k j r s
    | none => s

/-! ### Blocks on engines (R214, R220 to R222) -/

/-- The engines of a pool (R210). -/
def poolSize (ty : Nat) : Nat := [0, 8, 4, 4, 2, 2, 1].getD ty 0

/-- The engines of a pool that run a block. -/
def poolBusy (k ty : Nat) (s : State) : Nat :=
  ((s.cluster k).jobs.filter fun j => dType j.desc == ty).foldl (fun a j =>
    a + (j.blocks.filter fun b => b.2.st == 1).length) 0

/-- The first waiting block of a job. -/
def nextBlock (j : CodJob) : Option Nat := (List.range (dBlocks j.desc)).find? fun r => (j.block r).st == 0

/-- The block may start: its combine has run, and an earlier polar segment has ended (R214). -/
def blockReady (j : CodJob) (r : Nat) : Bool :=
  j.begun && (!dHb j.desc || (j.block r).combined) && (dShared j.desc || r == 0 || (j.block (r - 1)).st == 2)

/-- Start block `r`: an engine takes its soft bits, from the HARQ buffer or an internal one (R226). -/
def startBlock (k : Nat) (j : CodJob) (r : Nat) (s : State) : State :=
  let d := j.desc
  let go := fun (soft : List Int) (s : State) =>
    putJob k ({ j with started := true }.setBlock r { j.block r with st := 1, soft := soft }) s
  if !dDecode d then go [] s
  else if dHb d then
    match devRead (whoUnit 3 k 0) (j.softAt r) ((dParams d).ncb r) 0x12 s with
    | (.ok bs, s) => go (toSoft bs) s
    | (.error _, s) =>
      match readLlrs k j r s with
      | (.error _, s) => codFinish k j 0x12 s
      | (.ok lb, s) =>
        let x := softCombineIn j r true [] lb s
        putJob k ({ j with started := true, status := 0x12 }.setBlock r { j.block r with st := 1, soft := x.1 }) x.2
  else match readLlrs k j r s with
    | (.error _, s) => codFinish k j 0x12 s
    | (.ok lb, s) =>
      if dShared d then
        go (softCombine (dParams d) r (dQm d) (dLdpc d) (freshSoft (dParams d) r) (toSoft lb)) s
      else go ((toSoft lb).map fun x => max (-127) x) s

/-- A free engine of a pool starts the next block of the earliest-ranked job with a waiting block (R214). A job that
waits on BUSY has no block for an engine yet. -/
def codStart (k ty : Nat) (s : State) : State :=
  if poolSize ty ≤ poolBusy k ty s then s else
  match ranked k (fun j => dType j.desc == ty && (j.begun || !j.waited) && !j.late s && (nextBlock j).isSome) s with
  | [] => s
  | j :: _ => match nextBlock j with
    | some r => if blockReady j r then startBlock k j r s else s
    | none => s

/-- The result of a block that runs at most `n` iterations. -/
def blockResult (j : CodJob) (r n : Nat) : CodBlock :=
  let d := j.desc
  let b := j.block r
  let pr := dParams d
  if !dDecode d then { b with st := 2, ok := true }
  else if dLdpc d then
    let zc := nrZc (dBg2 d) (dTbs d) (pr.kb r)
    let dec := fun i =>
      let x := ldpcDecode (dBg2 d) zc (ldpcLayers (dBg2 d) (j.e r) (pr.ncb r) zc) i b.soft
      let bits := x.1.take (pr.kb r)
      (bits, x.2 && (pr.c == 1 || crcHolds crc24B 24 bits))
    let z := firstStop dec (n - 1) 1
    { b with st := 2, iters := z.1, bits := z.2.1, ok := if pr.c = 1 then z.2.2 else crcHolds crc24B 24 z.2.1 }
  else if dShared d then
    let dec := fun i =>
      let bits := (turboDecode (lteK (dTbs d) r) i b.soft).drop (pr.fill r)
      (bits, crcHolds (if pr.c = 1 then crc24A else crc24B) 24 bits)
    let z := firstStop dec (n - 1) 1
    { b with st := 2, iters := z.1, bits := z.2.1, ok := z.2.2 }
  else
    let x := polarDecode (decide (dA d < 20)) (ceilDiv (dA d) (dBlocks d)) (j.e r) (dList d) b.soft
    { b with st := 2, bits := x.1, ok := x.2.1, metric := x.2.2 }

/-- The payload and CRC of a transport block from its decided blocks. -/
def joinBlocks (j : CodJob) : List Bool :=
  let n := dBlocks j.desc
  (List.range n).flatMap fun r =>
    let b := (j.block r).bits
    if n = 1 ∨ !dShared j.desc then b else b.take (b.length - 24)

/-- A decode job's verdict: all checks passed (R230). The only block of a transport block has the block's own CRC. -/
def tbOk (j : CodJob) : Bool :=
  let d := j.desc
  let all := (List.range (dBlocks d)).all fun r => (j.block r).ok
  if !dShared d then all
  else
    let tb := joinBlocks j
    let crc := if dLdpc d then crcHolds (nrTbCrcBits (dTbs d)) (nrTbCrc (dTbs d)) tb else crcHolds crc24A 24 tb
    crc && (dBlocks d == 1 || all)

/-- The output of a decode job: payload, padded, and the map of CB_OK (R229). -/
def decodeOut (j : CodJob) : List Byte :=
  let d := j.desc
  let a := if dShared d then dTbs d else dA d
  let bits := if dShared d then (joinBlocks j).take a
    else let x := joinBlocks j; x.drop (x.length - a)
  streamBytes bits (ceilDiv a 256 * 32) ++
    (if dShared d then streamBytes ((List.range (dBlocks d)).map fun r => (j.block r).ok) 32 else [])

/-- Every block has ended: outputs and record. -/
def codComplete (k : Nat) (j : CodJob) (s : State) : State :=
  let d := j.desc
  let j := if dDecode d && dShared d && dBlocks d == 1 then j.setBlock 0 { j.block 0 with ok := tbOk j } else j
  if j.status ≠ 0 then codFinish k j j.status s
  else
    let out := if dDecode d then decodeOut j
      else streamBytes ((List.range (dBlocks d)).flatMap fun r => (j.block r).bits) (dOutLen d)
    match devWrite32 (whoCod k) (dOut d) out 0x12 s with
    | (some _, s) => codFinish k j 0x12 s
    | (none, s) => codFinish k j (if dDecode d && !tbOk j then 0x01 else 0) s

/-- The iteration limits of the blocks that a deadline stops: how far an engine has come is an open value, the end of
the iteration in progress (R223). A polar segment on an engine is abandoned. -/
def stopBlocks (j : CodJob) : List Nat → State → CodJob × State
  | [], s => (j, s)
  | r :: rs, s =>
    if (j.block r).st = 1 ∧ dShared j.desc ∧ dDecode j.desc then
      stopBlocks (j.setBlock r (blockResult j r (1 + s.open.toNat % dIter j.desc))) rs s.used
    else stopBlocks j rs s

/-- At DEADLINE: EXPIRED or LATE (R223). -/
def codDeadline (k seq : Nat) (s : State) : State :=
  match findJob k seq s with
  | none => s
  | some j =>
    if !j.late s then s
    else if !j.started then codFinish k j 0x03 s
    else
      let x := stopBlocks j (List.range (dBlocks j.desc)) s
      codFinish k x.1 (if x.1.status ≠ 0 then x.1.status else 0x02) x.2

/-- Block `r` ends; after its last block the job completes. Past DEADLINE the job is late instead (R223). -/
def codBlockEnd (k seq r : Nat) (s : State) : State :=
  match findJob k seq s with
  | none => s
  | some j =>
    if (j.block r).st ≠ 1 then s
    else if j.late s then codDeadline k seq s
    else
      let j := j.setBlock r (blockResult j r (dIter j.desc))
      let s := putJob k j s
      if (List.range (dBlocks j.desc)).all fun r => (j.block r).st == 2 then codComplete k j s else s

/-- A reset that covers a cluster completes every job with ABORTED (R231). -/
def codAbort (k : Nat) (s : State) : State :=
  (s.cluster k).jobs.foldl (fun s j => codFinish k j 0x14 s) s

/-! ### The commands -/

def execCodSqTailWrite (ag : Agent) (k : Fin 2) (r : Fin 8) (v : Word) (s : State) : Ans :=
  .next (if s.mayWrite ag 0 then codRing.tailWrite .COD_ERR 0 k r v (wakeDom (40 + k) s) else refusePermission s)

def execCodCqHeadWrite (ag : Agent) (k : Fin 2) (r : Fin 8) (v : Word) (s : State) : Ans :=
  .next (if s.mayWrite ag 0 then codRing.headWrite k r v (wakeDom (40 + k) s) else refusePermission s)

def execCodRingEnable (k : Fin 2) (r : Fin 8) (v : Word) (s : State) : Ans :=
  .next (codRing.cfgWrite k r v (wakeDom (40 + k) s))

def execCodDescriptorTake (k : Fin 2) (s : State) : Ans := .next (codTake k s)
def execLdpcDecode (k : Fin 2) (s : State) : Ans := .next (codBegin k 1 s)
def execLdpcEncode (k : Fin 2) (s : State) : Ans := .next (codBegin k 2 s)
def execTurboDecode (k : Fin 2) (s : State) : Ans := .next (codBegin k 3 s)
def execTurboEncode (k : Fin 2) (s : State) : Ans := .next (codBegin k 4 s)
def execPolarDecode (k : Fin 2) (s : State) : Ans := .next (codBegin k 5 s)
def execPolarEncode (k : Fin 2) (s : State) : Ans := .next (codBegin k 6 s)
def execCodeBlockStart (k : Fin 2) (pool : Fin 6) (s : State) : Ans := .next (codStart k (pool + 1) s)
def execCodeBlockEnd (k : Fin 2) (job : Nat) (block : Fin 256) (s : State) : Ans := .next (codBlockEnd k job block s)
def execJobDeadline (k : Fin 2) (job : Nat) (s : State) : Ans := .next (codDeadline k job s)
def execHarqCombine (k : Fin 2) (s : State) : Ans := .next (harqCombine k s)
def execCodCntRead (k : Fin 2) (s : State) : Ans := .next (s.readPlain .COD_CNT k)
def execCodCntErrRead (k : Fin 2) (s : State) : Ans := .next (s.readPlain .COD_CNT_ERR k)
def execCodCntHwaitRead (k : Fin 2) (s : State) : Ans := .next (s.readPlain .COD_CNT_HWAIT k)

end Sys2Proof.Machine
end

