-- ==== Sys2Proof/Machine/Engines.lean ====
section
/-! DEFINITION. The pile engines: slots and rings, the descriptor checks, and the opcodes row by row
(09_pile_engines.md R269 to R297). A row, list entry, expert or token row takes as many units as its data make; the last
of them does its work: what an earlier one leaves half done shows nowhere (notes/assumptions/36.md). -/

namespace Sys2Proof.Machine

open Sys2Proof

/-! ### State -/

def State.engine (s : State) (k : Nat) : Engine := Tab.get (fun _ => Engine.reset) s.se k

def State.setEngine (s : State) (k : Nat) (x : Engine) : State :=
  { s with se := Tab.set (fun _ => Engine.reset) s.se k x }

def seRing : RingRegs :=
  ⟨.SE_SQ_BASE, .SE_SQ_CFG, .SE_SQ_TAIL, .SE_SQ_HEAD, .SE_CQ_BASE, .SE_CQ_TAIL, .SE_CQ_HEAD, .SE_CQ_DB⟩

/-- The partition of a ring. -/
def seRingPart (k r : Nat) (s : State) : Nat := s.rf .SE_SQ_CFG 23 20 k r

def whoSe (k part : Nat) : Who := whoUnit 2 k part

/-- Replace a command. -/
def putCmd (k : Nat) (c : SeCmd) (s : State) : State :=
  let x := s.engine k
  s.setEngine k { x with cmds := x.cmds.map fun d => if d.seq = c.seq then c else d }

/-- A command of an issuer, not yet started. -/
def newCmd (seq part : Nat) (issuer : SeIssuer) (desc : List Word) : SeCmd :=
  { seq := seq, issuer := issuer, part := part, desc := desc, idx := [], ent := [], started := false, row := 0,
    sub := 0, result := 0, aux := 0, ended := false, status := 0, firstBad := 0xFFFFFFFF }

/-! ### Descriptor fields (R276, R278, R281 to R283, R286, R288, R291) -/

def eOp (d : List Word) : Nat := fld (wordAt d 0) 63 58
def eFence (d : List Word) : Bool := bit (wordAt d 0) 57
def eTag (d : List Word) : Nat := fld (wordAt d 0) 47 32
def eAddr (d : List Word) (i : Nat) : Nat := fld (wordAt d i) 51 0
def eRowB (d : List Word) : Nat := (fld (wordAt d 4) 63 53 + 1) * 32
def eSPitch (d : List Word) : Nat := fld (wordAt d 4) 47 24 * 32
def eDPitch (d : List Word) : Nat := fld (wordAt d 4) 23 0 * 32
def eCount (d : List Word) : Nat := fld (wordAt d 0) 20 0 + 1
def eLimit (d : List Word) : Nat := fld (wordAt d 5) 31 0
def eIdxW (d : List Word) : Nat := if bit (wordAt d 0) 31 then 4 else 2
def eScoreB (d : List Word) : Nat := if bit (wordAt d 0) 31 then 4 else 2
def eCap (d : List Word) : Nat := fld (wordAt d 0) 27 16 + 1
def eExperts (d : List Word) : Nat := fld (wordAt d 0) 11 0 + 1
def eK (d : List Word) : Nat := fld (wordAt d 0) 30 28 + 1
def eTokens (d : List Word) : Nat := fld (wordAt d 4) 63 44 + 1
def eScorePitch (d : List Word) : Nat :=
  if fld (wordAt d 4) 23 0 = 0 then ceilDiv (eExperts d * eScoreB d) 32 * 32 else eDPitch d
def eNRows (d : List Word) : Nat := fld (wordAt d 0) 15 0 + 1
def eBufCap (d : List Word) : Nat := 16 * (fld (wordAt d 7) 63 56 + 1)
def eNExp (d : List Word) : Nat := fld (wordAt d 7) 55 50 + 1
def eStride (d : List Word) : Nat := fld (wordAt d 7) 39 0
def eN (d : List Word) : Nat := fld (wordAt d 5) 13 0 + 1
def eResB (d : List Word) : Nat := if bit (wordAt d 0) 31 then 4 else 2
def eSf (d : List Word) : Nat := fld (wordAt d 0) 31 28
def eOf (d : List Word) : Nat := fld (wordAt d 0) 27 26
def eAxis (d : List Word) : Bool := bit (wordAt d 0) 25
def eRows (d : List Word) : Nat := fld (wordAt d 5) 63 48 + 1
def eCols (d : List Word) : Nat := fld (wordAt d 5) 47 32 + 1
def eBlockLog (d : List Word) : Nat := fld (wordAt d 0) 27 24

/-- A pitch in granules, packed when 0 (R145). -/
def granPitch (p len : Nat) : Nat := if p = 0 then ceilDiv len 128 * 128 else p * 128

/-- DEQUANT: bytes and pitch of a source row, of an output row, and rows and bytes of the scale regions. -/
def eSrcB (d : List Word) : Nat := rowBytes (eCols d) (opeBits (eSf d))
def eSrcPitch (d : List Word) : Nat := granPitch (fld (wordAt d 6) 31 16) (eSrcB d)
def eDstB (d : List Word) : Nat := eCols d * (if eOf d = 0 then 1 else 2)
def eDstPitch (d : List Word) : Nat := granPitch (fld (wordAt d 6) 15 0) (eDstB d)
def eScRows (d : List Word) : Nat := if eAxis d then eRows d else ceilDiv (eRows d) 32
def eScB (d : List Word) : Nat := if eAxis d then ceilDiv (eCols d) 32 else eCols d
def eScPitch (d : List Word) : Nat := ceilDiv (eScB d) 128 * 128

/-! ### The checks (R277) -/

/-- Masks of the reserved bits of words 0 to 7, by opcode; an unknown opcode reserves everything. -/
def eReserved (op : Nat) (d : List Word) : List Word :=
  let hi := fmask 63 52
  let all := BitVec.allOnes 64
  match op with
  | 0x01 => [fmask 30 21, hi, hi, hi, fmask 52 48, fmask 63 32, all, all]
  | 0x02 => [fmask 30 21, hi, hi, hi, fmask 52 48, fmask 63 32, all, all]
  | 0x08 => [fmask 30 28 ||| fmask 15 12, hi, hi, hi, fmask 43 24, fmask 63 32, all, all]
  | 0x09 => [fmask 27 12, hi, hi, all, fmask 43 24, all, fmask 63 32, all]
  | 0x10 => [0, hi, hi, hi, fmask 52 48, hi, hi, fmask 49 40]
  | 0x11 => [fmask 31 0, all, hi, all, fmask 52 48, hi, hi, fmask 49 40]
  | 0x18 => [fmask 30 21, hi, hi, all, fmask 63 48 ||| fmask 23 0, fmask 63 14, all, all]
  | 0x20 => [fmask 24 0, hi, hi, hi, if eOf d = 0 then hi else all, fmask 31 0, fmask 63 32, all]
  | 0x28 => [fmask 31 28 ||| fmask 23 21, hi, hi, hi, fmask 52 48, fmask 63 32, all, all]
  | _ => [all, all, all, all, all, all, all, all]

/-- Fields outside their range, and pitches smaller than their rows. -/
def eRange (op : Nat) (d : List Word) : Bool :=
  match op with
  | 0x01 => eLimit d == 0 || decide (eSPitch d < eRowB d ∨ eDPitch d < eRowB d)
  | 0x02 => eLimit d == 0 || decide (eSPitch d < eRowB d ∨ eDPitch d < eRowB d)
  | 0x08 => decide (eScorePitch d < eExperts d * eScoreB d)
  | 0x09 => decide (eScorePitch d < eExperts d * eScoreB d) || decide (eExperts d < eK d)
  | 0x10 => decide (eSPitch d < eRowB d ∨ eDPitch d < eRowB d) || eStride d % 32 != 0 ||
      decide (eStride d < eBufCap d * eDPitch d)
  | 0x11 => decide (eDPitch d < eRowB d) || eStride d % 32 != 0 || decide (eStride d < eBufCap d * eDPitch d)
  | 0x18 => eN d % 8 != 0 || decide (eSPitch d < eN d * eResB d)
  | 0x20 => decide (eSf d < 9 ∨ 0xD < eSf d) || decide (1 < eOf d) ||
      decide (eSrcPitch d < eSrcB d ∨ eDstPitch d < eDstB d)
  | 0x28 => decide (8 < eBlockLog d) || eLimit d == 0 || decide (eSPitch d < eRowB d) ||
      decide (eDPitch d < 2 ^ eBlockLog d * eRowB d)
  | _ => true

/-- DESC_BAD (R277). -/
def eBad (d : List Word) : Bool :=
  let op := eOp d
  fld (wordAt d 0) 56 48 != 0 ||
    ((eReserved op d).zipIdx.any fun m => (wordAt d m.2 &&& m.1) != 0) || eRange op d

/-- The extent of `n` rows of `len` bytes. -/
def extent (n pitch len : Nat) : Nat := (n - 1) * pitch + len

/-- The regions whose extent follows from the descriptor: base, length and alignment. -/
def eRegions (d : List Word) (internal : Bool) : List (Nat × Nat × Nat) :=
  let a := eAddr d
  match eOp d with
  | 0x01 => [(a 1, extent (eLimit d) (eSPitch d) (eRowB d), 32), (a 2, extent (eCount d) (eDPitch d) (eRowB d), 32)] ++
      (if internal then [] else [(a 3, eCount d * eIdxW d, 32)])
  | 0x02 => [(a 1, extent (eCount d) (eSPitch d) (eRowB d), 32), (a 2, extent (eLimit d) (eDPitch d) (eRowB d), 32),
      (a 3, eCount d * eIdxW d, 32)]
  | 0x08 => [(a 1, extent (eTokens d) (eScorePitch d) (eExperts d * eScoreB d), 32),
      (a 2, eExperts d * eCap d * 8, 32), (a 3, eExperts d * 4, 32)]
  | 0x09 => [(a 1, extent (eTokens d) (eScorePitch d) (eExperts d * eScoreB d), 32), (a 2, eTokens d * eK d * 8, 32)]
  | 0x10 => [(a 1, extent (eNRows d) (eSPitch d) (eRowB d), 32),
      (a 2, (eNExp d - 1) * eStride d + extent (eBufCap d) (eDPitch d) (eRowB d), 32), (a 3, eNRows d * 8, 8),
      (a 5, eNExp d * 8, 8), (a 6, eNExp d * eBufCap d * 4, 4)]
  | 0x11 => [(a 2, (eNExp d - 1) * eStride d + extent (eBufCap d) (eDPitch d) (eRowB d), 32),
      (a 5, eNExp d * 8, 8), (a 6, eNExp d * eBufCap d * 4, 4)]
  | 0x18 => if internal then [] else [(a 1, eCount d * 16, 16), (a 2, 0, 32)]
  | 0x20 => [(a 1, extent (eRows d) (eSrcPitch d) (eSrcB d), 128), (a 2, extent (eScRows d) (eScPitch d) (eScB d), 32),
      (a 3, extent (eRows d) (eDstPitch d) (eDstB d), 128)] ++
      (if eOf d = 0 then [(a 4, extent (eScRows d) (eScPitch d) (eScB d), 32)] else [])
  | _ => [(a 1, extent (eCount d) (eSPitch d) (eRowB d), 32),
      (a 2, (eLimit d - 1) * eDPitch d + 2 ^ eBlockLog d * eRowB d, 32), (a 3, eCount d * 16, 16)]

/-- The first region that fails ADDRESS (R277). The outputs of an internal SELECT lie in SCRATCH, whose size leaves no room
to align them (notes/assumptions/172.md). -/
def eAddress (d : List Word) (internal : Bool) (part : Nat) (s : State) : Option Nat :=
  let selects := internal && (eOp d == 0x08 || eOp d == 0x09)
  ((eRegions d internal).find? fun r => (!(selects && r.1 != eAddr d 1) && r.1 % r.2.2 != 0) ||
    (r.2.1 != 0 && (rangeCheck (some part) r.1 r.2.1 s).isSome)).map (·.1)

/-! ### Accesses of a running command -/

/-- The status of an access that was not performed (R294, R295). -/
def seStatus (e : MemErr) : Nat := if e = .uncorr then 0x12 else 0x11

/-- An ADDRESS error writes its sticky record whatever its cause (R295). -/
def seRecord (e : MemErr) (w : Who) (a : Nat) (s : State) : State :=
  if e = .permission then errRecord 0x020 w a 0 s else s

def seRead (w : Who) (a len : Nat) (s : State) : Except Nat (List Byte) × State :=
  match devRead w a len 0x12 s with
  | (.ok bs, s) => (.ok bs, s)
  | (.error e, s) => (.error (seStatus e), seRecord e w a s)

def seWrite (w : Who) (a : Nat) (data : List Byte) (s : State) : Option Nat × State :=
  match devWrite w a data 0x12 s with
  | (none, s) => (none, s)
  | (some e, s) => (some (seStatus e), seRecord e w a s)

/-- A write, or with `true` an update (R275), of a running command. -/
structure SePut where
  update : Bool
  addr   : Nat
  data   : List Byte

def SePut.run (x : SePut) (w : Who) (s : State) : Option Nat × State :=
  match devPut x.update w x.addr x.data 0x12 s with
  | (none, s) => (none, s)
  | (some e, s) => (some (seStatus e), seRecord e w x.addr s)

/-- The writes of a row: all of them, or none if one is refused (R295). -/
def sePuts (w : Who) (xs : List SePut) (s : State) : Option Nat × State :=
  match xs.find? fun x => (x.run w s).1.isSome with
  | some x => x.run w s
  | none => (none, xs.foldl (fun s x => (x.run w s).2) s)

/-- A little-endian value read by a running command. -/
def seReadVal (w : Who) (a len : Nat) (s : State) : Except Nat Nat × State :=
  match seRead w a len s with
  | (.ok bs, s) => (.ok (leVal bs), s)
  | (.error e, s) => (.error e, s)

/-- What a unit gives: the error it met, the command and the state. -/
abbrev SeRes := Option Nat × SeCmd × State

/-- Copy a row. -/
def seCopy (w : Who) (src dst len : Nat) (c : SeCmd) (s : State) : SeRes :=
  match seRead w src len s with
  | (.error e, s) => (some e, c, s)
  | (.ok bs, s) => match seWrite w dst bs s with
    | (some e, s) => (some e, c, s)
    | (none, s) => (none, { c with result := c.result + 1 }, s)

/-! ### Gather, scatter and KV_APPEND (R279, R291) -/

/-- Entry `i` of the index list, and whether it is the skip value. -/
def seIndex (w : Who) (c : SeCmd) (i : Nat) (s : State) : Except Nat (Nat × Bool) × State :=
  if c.idx.isEmpty then
    let b := eIdxW c.desc
    match seReadVal w (eAddr c.desc 3 + i * b) b s with
    | (.ok x, s) => (.ok (x, x == 256 ^ b - 1), s)
    | (.error e, s) => (.error e, s)
  else (.ok (c.idx.getD i 0, false), s)

/-- A row of GATHER or SCATTER. -/
def gatherRow (w : Who) (scatter : Bool) (c : SeCmd) (s : State) : SeRes :=
  let d := c.desc
  match seIndex w c c.row s with
  | (.error e, s) => (some e, c, s)
  | (.ok (x, skip), s) =>
    if skip then (none, c, s)
    else if eLimit d ≤ x then (some 0x13, c, s)
    else if scatter then seCopy w (eAddr d 1 + c.row * eSPitch d) (eAddr d 2 + x * eDPitch d) (eRowB d) c s
    else seCopy w (eAddr d 1 + x * eSPitch d) (eAddr d 2 + c.row * eDPitch d) (eRowB d) c s

/-- An entry of KV_APPEND: its block table entry, its position, and the row's place in the pool. -/
def kvRow (w : Who) (c : SeCmd) (s : State) : SeRes :=
  let d := c.desc
  match seRead w (eAddr d 3 + c.row * 16) 16 s with
  | (.error e, s) => (some e, c, s)
  | (.ok bs, s) =>
    let ws := leWords bs
    let pos := fld (wordAt ws 1) 31 0
    let ta := fld (wordAt ws 0) 51 0
    if ta % 4 ≠ 0 then (some 0x11, c, errRecord 0x020 w ta 0 s)
    else match seReadVal w (ta + pos / 2 ^ eBlockLog d * 4) 4 s with
      | (.error e, s) => (some e, c, s)
      | (.ok b, s) =>
        if b = 0xFFFFFFFF ∨ eLimit d ≤ b then (some 0x13, c, s)
        else seCopy w (eAddr d 1 + c.row * eSPitch d)
          (eAddr d 2 + b * eDPitch d + pos % 2 ^ eBlockLog d * eRowB d) (eRowB d) c s

/-! ### Selection (R280 to R282, 10_expert_routing.md R301) -/

/-- The FP32 bits of a score. -/
def scoreBits (bytes x : Nat) : Nat := if bytes = 4 then x else x * 65536

/-- SKEY of a score's FP32 bits. -/
def skey (b : Nat) : Nat :=
  if fFP32.decode b = .nan then 0
  else if b = 0x80000000 then 0x80000000
  else if b < 0x80000000 then b + 0x80000000
  else 0xFFFFFFFF - b

/-- A candidate record: SKEY above the complement of its index. -/
def candidate (key idx : Nat) : Nat := key * 2 ^ 32 + (0xFFFFFFFF - idx % 2 ^ 32)

/-- The best `n` records, larger first. -/
def bestOf (n : Nat) (rs : List Nat) : List Nat := (sortBy (fun a b => decide (b < a)) rs).take n

/-- The scores of token row `t`, as FP32 bits. -/
def scoreRow (w : Who) (d : List Word) (t : Nat) (s : State) : Except Nat (List Nat) × State :=
  let b := eScoreB d
  match seRead w (eAddr d 1 + t * eScorePitch d) (eExperts d * b) s with
  | (.error e, s) => (.error e, s)
  | (.ok bs, s) => (.ok ((List.range (eExperts d)).map fun e => scoreBits b (leVal ((bs.drop (e * b)).take b))), s)

/-- A token row of SELECT_TC. -/
def selectTcRow (w : Who) (c : SeCmd) (s : State) : SeRes :=
  let d := c.desc
  match scoreRow w d c.row s with
  | (.error e, s) => (some e, c, s)
  | (.ok xs, s) =>
    let rs := bestOf (eK d) (xs.zipIdx.map fun x => candidate (skey x.1) (fld (wordAt d 6) 31 0 + x.2))
    match seWrite w (eAddr d 2 + c.row * eK d * 8) (rs.flatMap fun r => leBytes 8 r) s with
    | (some e, s) => (some e, c, s)
    | (none, s) => (none, { c with result := c.result + 1 }, s)

/-- The token rows from `t` on: their scores, or the error and the row that met it. -/
def scoreRows (w : Who) (d : List Word) : Nat → Nat → State → Except (Nat × Nat) (List (List Nat)) × State
  | 0, _, s => (.ok [], s)
  | n + 1, t, s => match scoreRow w d t s with
    | (.error e, s) => (.error (e, t), s)
    | (.ok xs, s) => match scoreRows w d n (t + 1) s with
      | (.ok r, s) => (.ok (xs :: r), s)
      | (.error e, s) => (.error e, s)

/-- Write the list of each expert and its count (R281). -/
def writeLists (w : Who) (d : List Word) : List (Nat × List Nat) → SeCmd → State → SeRes
  | [], c, s => (none, c, s)
  | (e, rs) :: ls, c, s =>
    match seWrite w (eAddr d 2 + e * eCap d * 8) (rs.flatMap fun r => leBytes 8 r) s with
    | (some x, s) => (some x, c, s)
    | (none, s) => match seWrite w (eAddr d 3 + e * 4) (leBytes 4 rs.length) s with
      | (some x, s) => (some x, c, s)
      | (none, s) => writeLists w d ls { c with result := c.result + rs.length } s

/-- SELECT_EC. -/
def selectEc (w : Who) (c : SeCmd) (s : State) : SeRes :=
  let d := c.desc
  match scoreRows w d (eTokens d) 0 s with
  | (.error (e, t), s) => (some e, { c with row := t }, s)
  | (.ok rows, s) =>
    let lists := (List.range (eExperts d)).map fun e =>
      (e, bestOf (min (eCap d) (eTokens d)) (rows.zipIdx.map fun r =>
        candidate (skey (r.1.getD e 0)) (fld (wordAt d 5) 31 0 + r.2)))
    writeLists w d lists c s

/-! ### Replication (R283 to R285) -/

/-- The writes of row `i` for the experts of its mask, its copies, and those dropped at capacity: the count of an expert
with room goes up, and the row and its map entry go to the position that the count gave (R284). -/
def repPuts (w : Who) (d : List Word) (i : Nat) (row : List Byte) :
    List Nat → State → Except Nat (List SePut × Nat × Nat) × State
  | [], s => (.ok ([], 0, 0), s)
  | e :: es, s =>
    match seReadVal w (eAddr d 5 + e * 8) 4 s with
    | (.error x, s) => (.error x, s)
    | (.ok pos, s) => match repPuts w d i row es s with
      | (.error x, s) => (.error x, s)
      | (.ok (xs, n, k), s) =>
        if eBufCap d ≤ pos then (.ok (xs, n, k + 1), s)
        else (.ok (⟨true, eAddr d 5 + e * 8, leBytes 4 (pos + 1)⟩ ::
          ⟨false, eAddr d 2 + e * eStride d + pos * eDPitch d, row⟩ ::
          ⟨false, eAddr d 6 + (e * eBufCap d + pos) * 4, leBytes 4 (fld (wordAt d 0) 31 16 * 65536 + i)⟩ :: xs,
          n + 1, k), s)

/-- A received row of REPSCAT. -/
def repRow (w : Who) (c : SeCmd) (s : State) : SeRes :=
  let d := c.desc
  match seReadVal w (eAddr d 3 + c.row * 8) 8 s with
  | (.error e, s) => (some e, c, s)
  | (.ok m, s) =>
    if 2 ^ eNExp d ≤ m then (some 0x13, c, s)
    else if m = 0 then (none, c, s)
    else match seRead w (eAddr d 1 + c.row * eSPitch d) (eRowB d) s with
      | (.error e, s) => (some e, c, s)
      | (.ok row, s) =>
        match repPuts w d c.row row ((List.range (eNExp d)).filter fun e => m / 2 ^ e % 2 == 1) s with
        | (.error e, s) => (some e, c, s)
        | (.ok (xs, n, k), s) => match sePuts w xs s with
          | (some e, s) => (some e, c, s)
          | (none, s) => (none, { c with result := c.result + n, aux := c.aux + k }, s)

/-- An expert of PAD (R285). -/
def padRow (w : Who) (c : SeCmd) (s : State) : SeRes :=
  let d := c.desc
  let e := c.row
  match seReadVal w (eAddr d 5 + e * 8) 4 s with
  | (.error x, s) => (some x, c, s)
  | (.ok f, s) =>
    let p := ceilDiv f 16 * 16
    let xs := (List.range (p - f)).flatMap fun i =>
      [⟨false, eAddr d 2 + e * eStride d + (f + i) * eDPitch d, List.replicate (eRowB d) 0⟩,
       ⟨false, eAddr d 6 + (e * eBufCap d + f + i) * 4, leBytes 4 0xFFFFFFFF⟩]
    match sePuts w (xs ++ [⟨false, eAddr d 5 + e * 8 + 4, leBytes 4 p⟩]) s with
    | (some x, s) => (some x, c, s)
    | (none, s) => (none, { c with result := c.result + (p - f) }, s)

/-! ### Combine (R286) -/

/-- The elements of a row as values. -/
def rowVals (b : Nat) (bs : List Byte) : List FVal :=
  (List.range (bs.length / b)).map fun i => fFP32.decode (scoreBits b (leVal ((bs.drop (i * b)).take b)))

/-- One entry: acc + G × r, the product exact, one rounding. -/
def combineVals (g : Nat) (acc res : List FVal) : List Nat :=
  (acc.zip res).map fun p => fFP32.encode (p.1.add ((fFP32.decode g).mul p.2))

/-- Entry `i` of the list: accumulator, weight, result row address. -/
def combineEntry (w : Who) (c : SeCmd) (i : Nat) (s : State) : Except Nat (Nat × Nat × Nat) × State :=
  if c.ent.isEmpty then
    match seRead w (eAddr c.desc 1 + i * 16) 16 s with
    | (.error e, s) => (.error e, s)
    | (.ok bs, s) =>
      let ws := leWords bs
      (.ok (fld (wordAt ws 0) 51 0, fld (wordAt ws 1) 63 32,
        eAddr c.desc 2 + fld (wordAt ws 1) 31 0 * eSPitch c.desc), s)
  else (.ok (c.ent.getD i (0, 0, 0)), s)

/-- An internal COMBINE that failed on the accumulator row tells its issuer so (10_expert_routing.md R330). -/
def onAcc (c : SeCmd) : SeCmd := if c.ent.isEmpty then c else { c with aux := 1 }

/-- A list entry of COMBINE. -/
def combineRow (w : Who) (c : SeCmd) (s : State) : SeRes :=
  let d := c.desc
  match combineEntry w c c.row s with
  | (.error e, s) => (some e, c, s)
  | (.ok (acc, g, res), s) =>
    if acc % 32 ≠ 0 then (some 0x11, onAcc c, errRecord 0x020 w acc 0 s)
    else match seRead w res (eN d * eResB d) s with
      | (.error e, s) => (some e, c, s)
      | (.ok rb, s) => match seRead w acc (eN d * 4) s with
        | (.error e, s) => (some e, onAcc c, s)
        | (.ok ab, s) =>
          match SePut.run ⟨true, acc, (combineVals g (rowVals 4 ab) (rowVals (eResB d) rb)).flatMap fun x => leBytes 4 x⟩
              w s with
          | (some e, s) => (some e, onAcc c, s)
          | (none, s) => (none, { c with result := c.result + 1 }, s)

/-! ### Dequantise (R288 to R290) -/

/-- The smallest j with m ≤ 127 × 2^j, from −7 on (m > 0). -/
def log127 (m : Nat) : Nat → Int → Int
  | 0, j => j
  | n + 1, j => if 0 ≤ j then (if m ≤ 127 * 2 ^ j.toNat then j else log127 m n (j + 1))
      else if m * 2 ^ (-j).toNat ≤ 127 then j else log127 m n (j + 1)

/-- ceil(log2(amax / 127)) of a value m × 2^e. -/
def ceilLog127 (m : Nat) (e : Int) : Int := log127 m (bitLen m + 8) (-7) + e

/-- A value above another in magnitude. -/
def absLt (a b : FVal) : Bool :=
  match a, b with
  | .fin _ m e, .fin _ n f => FVal.lt (.fin false m e) (.fin false n f)
  | _, _ => false

/-- A block in MXINT8 (R289): the output scale, the elements, and whether it is inexact. -/
def mxint8 (es : Nat) (xs : List FVal) : Nat × List Int × Bool :=
  let finite := xs.all fun x => match x with
    | .fin .. => true
    | _ => false
  if es = 0xFF || !finite then (0xFF, xs.map fun _ => 0, true)
  else
    let amax := xs.foldl (fun a x => if absLt a x then x else a) (.fin false 0 0)
    let d : Int := match amax with
      | .fin _ m e => if m = 0 then 0 else 6 + ceilLog127 m e
      | _ => 0
    let eo := max 0 (min 254 ((es : Int) + d))
    let sc := xs.map fun x => x.scale (6 + (es : Int) - eo)
    let ms := sc.map fun x => max (-127) (min 127 (x.toInt 16))
    (eo.toNat, ms, (sc.zip ms).any fun p => !((p.1.add (FVal.ofInt p.2).neg).isZero))

/-- An element in BF16 (R290). -/
def toBf16 (es : Nat) (x : FVal) : Nat :=
  match scaleExp es with
  | some k => fBF16.encode (x.scale k)
  | none => fBF16.nanCode

/-- Rows of element values, from row `r` on; or the error and the row that met it. -/
def deqRead (w : Who) (d : List Word) : Nat → Nat → State → Except (Nat × Nat) (List (List FVal)) × State
  | 0, _, s => (.ok [], s)
  | n + 1, r, s => match seRead w (eAddr d 1 + r * eSrcPitch d) (eSrcB d) s with
    | (.error e, s) => (.error (e, r), s)
    | (.ok bs, s) =>
      let v := leVal bs
      let b := opeBits (eSf d)
      match deqRead w d n (r + 1) s with
      | (.ok rs, s) => (.ok (((List.range (eCols d)).map fun j => (opeFmt (eSf d)).decode (elemAt v b j)) :: rs), s)
      | (.error e, s) => (.error e, s)

/-- Write rows from row `r` on, the first with the scales of the group; or the error and the row that met it. -/
def deqWrite (w : Who) (d : List Word) : Nat → List SePut → List (List Byte) → State → Option (Nat × Nat) × State
  | _, _, [], s => (none, s)
  | r, sc, x :: xs, s => match sePuts w (sc ++ [⟨false, eAddr d 3 + r * eDstPitch d, x⟩]) s with
    | (none, s) => deqWrite w d (r + 1) [] xs s
    | (some e, s) => (some (e, r), s)

/-- The blocks of a row: they lie along it, or one element of it in each of the blocks down the columns. -/
def deqBlocks (d : List Word) (row : List FVal) (scales : List Nat) : List (Nat × List FVal) :=
  if eAxis d then scales.zipIdx.map fun e => (e.1, (row.drop (32 * e.2)).take 32)
  else scales.zip (row.map fun x => [x])

/-- The rows that are converted together: MXINT8 takes the maximum of a block, which lies down 32 rows unless AXIS is 1. -/
def deqGroup (d : List Word) (row : Nat) : Nat := if eAxis d || eOf d != 0 then 1 else min 32 (eRows d - row)

/-- The blocks that end with row `row`. -/
def deqEnds (d : List Word) (row : Nat) : Nat :=
  if eAxis d || (row + 1) % 32 == 0 || row + 1 == eRows d then eScB d else 0

/-- One row, or one group of 32 rows. A row of a group that cannot be read leaves the whole group unconverted
(notes/assumptions/173.md). -/
def deqRow (w : Who) (c : SeCmd) (s : State) : SeRes :=
  let d := c.desc
  let n := deqGroup d c.row
  let sr := if eAxis d then c.row else c.row / 32
  match seRead w (eAddr d 2 + sr * eScPitch d) (eScB d) s with
  | (.error e, s) => (some e, c, s)
  | (.ok sb, s) => match deqRead w d n c.row s with
    | (.error (e, r), s) => (some e, { c with row := r }, s)
    | (.ok rows, s) =>
      let last := c.row + n - 1
      let scales := sb.map (·.toNat)
      let done := { c with result := c.result + deqEnds d last, row := last }
      if eOf d = 0 then
        let blocks := if eAxis d then deqBlocks d (rows.getD 0 []) scales
          else scales.zipIdx.map fun e => (e.1, rows.map fun r => r.getD e.2 .nan)
        let outs := blocks.map fun b => mxint8 b.1 b.2
        let elems := outs.map fun o => o.2.1.map fun m => (BitVec.ofInt 8 m : Byte)
        let out := if eAxis d then [elems.flatten]
          else (List.range n).map fun i => elems.map fun col => col.getD i 0
        match deqWrite w d c.row [⟨false, eAddr d 4 + sr * eScPitch d, outs.map fun o => BitVec.ofNat 8 o.1⟩] out s with
        | (some (e, r), s) => (some e, { c with row := r }, s)
        | (none, s) => (none, { done with aux := c.aux + (outs.filter fun o => o.2.2).length }, s)
      else
        let out := (deqBlocks d (rows.getD 0 []) scales).flatMap fun b => b.2.flatMap fun x => leBytes 2 (toBf16 b.1 x)
        match deqWrite w d c.row [] [out] s with
        | (some (e, r), s) => (some e, { c with row := r }, s)
        | (none, s) => (none, done, s)

/-! ### Units (R273, R295) -/

/-- The rows, entries, experts or token rows of a command. -/
def seCount (d : List Word) : Nat :=
  match eOp d with
  | 0x08 => 1
  | 0x09 => eTokens d
  | 0x10 => eNRows d
  | 0x11 => eNExp d
  | 0x20 => eRows d
  | _ => eCount d

/-- The bytes of data that a row reads, and the units that they make: at most 2 KiB of data, or 256 scores (R273). -/
def seData (d : List Word) : Nat :=
  match eOp d with
  | 0x08 => eTokens d * eExperts d * 8
  | 0x09 => eExperts d * 8
  | 0x10 => 8 + eRowB d
  | 0x11 => 4
  | 0x18 => 16 + eN d * eResB d
  | 0x20 => eScB d + deqGroup d 0 * eSrcB d
  | 0x28 => 20 + eRowB d
  | _ => eIdxW d + eRowB d

def seUnits (d : List Word) : Nat := max 1 (ceilDiv (seData d) 2048)

/-- The next row of a command. -/
def seRow (w : Who) (c : SeCmd) (s : State) : SeRes :=
  match eOp c.desc with
  | 0x01 => gatherRow w false c s
  | 0x02 => gatherRow w true c s
  | 0x08 => selectEc w c s
  | 0x09 => selectTcRow w c s
  | 0x10 => repRow w c s
  | 0x11 => padRow w c s
  | 0x18 => combineRow w c s
  | 0x20 => deqRow w c s
  | _ => kvRow w c s

/-- A stopped selection leaves its outputs not guaranteed (R295). -/
def seStopped (c : SeCmd) (s : State) : State :=
  let d := c.desc
  if eOp d = 0x08 then
    (s.loseRegion (eAddr d 2) (eExperts d * eCap d * 8)).loseRegion (eAddr d 3) (eExperts d * 4)
  else if eOp d = 0x09 then s.loseRegion (eAddr d 2) (eTokens d * eK d * 8)
  else s

/-- An error of a partition-0 command is a fault in the slot ledger (R295). -/
def seFault (part st : Nat) (s : State) : State := if 0x10 ≤ st then faultOf (some part) s else s

/-- One unit of a command (R273, R295). -/
def runUnit (k : Nat) (c : SeCmd) (s : State) : State :=
  if c.sub + 1 < seUnits c.desc then putCmd k { c with started := true, sub := c.sub + 1 } s
  else match seRow (whoSe k c.part) { c with started := true, sub := 0 } s with
  | (some e, c', s) =>
    seFault c.part e (seStopped c (putCmd k { c' with ended := true, status := e, firstBad := c'.row } s))
  | (none, c', s) =>
    let c' := { c' with row := c'.row + 1 }
    putCmd k (if seCount c'.desc ≤ c'.row then
      { c' with ended := true, status := if c'.aux ≠ 0 ∧ eOp c'.desc = 0x10 then 1 else 0 } else c') s

/-- A bound on the units that a command has left. -/
def unitsLeft (c : SeCmd) : Nat := seCount c.desc * seUnits c.desc

/-- The units of a command up to its end. -/
def runUnits (k seq : Nat) : Nat → State → State
  | 0, s => s
  | n + 1, s => match (s.engine k).cmds.find? fun c => c.seq == seq && !c.ended with
    | some c => runUnits k seq n (runUnit k c s)
    | none => s

/-- Two commands of one ring. -/
def sameRing (a b : SeCmd) : Bool :=
  match a.issuer, b.issuer with
  | .ring r, .ring q => r == q
  | _, _ => false

/-- A command may run: it has started, or every earlier command of its ring has, and with FENCE has completed (R272). -/
def mayRun (x : Engine) (c : SeCmd) : Bool :=
  !c.ended && (c.started ||
    (let before := x.cmds.filter fun b => sameRing b c && decide (b.seq < c.seq)
     if eFence c.desc then before.isEmpty else before.all (·.started)))

/-- Class 0: the commands of a partition-0 ring (R273). -/
def class0 (c : SeCmd) : Bool :=
  match c.issuer with
  | .ring _ => c.part == 0
  | _ => false

/-- The next of a list of commands in turn: the first after the one served last. -/
def inTurn (last : Nat) (cs : List SeCmd) : Option SeCmd :=
  let cs := sortBy (fun a b => decide (a.seq < b.seq)) cs
  (cs.find? fun c => decide (last < c.seq)) <|> cs.head?

/-- The command whose unit runs next (R273). -/
def nextUnit (k : Nat) (s : State) : Option SeCmd :=
  let x := s.engine k
  let ok := x.cmds.filter (mayRun x)
  inTurn x.last (ok.filter class0) <|> inTurn x.last (ok.filter fun c => !class0 c)

/-- The next unit runs. -/
def serveUnit (k : Nat) (c : SeCmd) (s : State) : State := runUnit k c (s.setEngine k { s.engine k with last := c.seq })

/-- Units run in turn until command `seq` has ended: at each unit boundary the engine picks again (R273). -/
def serveUntil (k seq : Nat) : Nat → State → State
  | 0, s => s
  | n + 1, s =>
    if (s.engine k).cmds.any fun c => c.seq == seq && !c.ended then
      match nextUnit k s with
      | some c => serveUntil k seq n (serveUnit k c s)
      | none => s
    else s

/-- If a test holds of the command whose unit is next, run that unit, or all units until the command has ended. -/
def seRun (k : Nat) (p : SeCmd → Bool) (whole : Bool) (s : State) : State :=
  match nextUnit k s with
  | none => s
  | some c =>
    if !p c then s
    else if whole then serveUntil k c.seq (((s.engine k).cmds.map unitsLeft).sum + 1) s
    else serveUnit k c s

/-! ### Taking descriptors (R272, R277) -/

/-- Put a command into a slot with the outcome of its checks. -/
def placeCmd (k : Nat) (internal : Bool) (c : SeCmd) (s : State) : State :=
  let fail := fun (st : Nat) (s : State) =>
    seFault c.part st (let x := s.engine k; s.setEngine k { x with cmds := x.cmds ++
      [{ c with started := true, ended := true, status := st }] })
  if eBad c.desc then fail 0x10 s
  else match eAddress c.desc internal c.part s with
    | some a => fail 0x11 (errRecord 0x020 (whoSe k c.part) a 0 s)
    | none => let x := s.engine k; s.setEngine k { x with cmds := x.cmds ++ [c] }

/-- Take one command: from the next source in turn that has one (R272). Source 16 is the internal commands. -/
def seTake (k : Nat) (s : State) : State :=
  let x := s.engine k
  if 8 ≤ x.cmds.length then s else
  match ((List.range 17).map fun i => (x.next + i) % 17).find? fun j =>
      if j = 16 then !x.wait.isEmpty else s.rb .SE_CTL 0 k && seRing.ready k j s with
  | none => s
  | some 16 => match x.wait with
    | c :: cs => placeCmd k true c (s.setEngine k { x with wait := cs, next := 0 })
    | [] => s
  | some r =>
    let part := seRingPart k r s
    let rd := seRead (whoSe k part) (seRing.descAddr k r s) 64 s
    let s := seRing.advance k r rd.2
    let s := s.setEngine k { x with next := r + 1, seq := x.seq + 1 }
    match rd.1 with
    | .ok bs => placeCmd k false (newCmd (x.seq + 1) part (.ring r) (leWords bs)) s
    | .error e =>
      let y := s.engine k
      seFault part e (s.setEngine k { y with cmds := y.cmds ++
        [{ newCmd (x.seq + 1) part (.ring r) [] with started := true, ended := true, status := e }] })

/-- An internal command is handed to an engine, where it waits for a slot (R270, R272). -/
def seIssue (k part : Nat) (issuer : SeIssuer) (desc : List Word) (idx : List Nat) (ent : List (Nat × Nat × Nat))
    (s : State) : State :=
  let x := s.engine k
  s.setEngine k { x with
    seq := x.seq + 1
    wait := x.wait ++ [{ newCmd (x.seq + 1) part issuer desc with idx := idx, ent := ent }] }

/-! ### Completion (R293, R294, R296) -/

/-- The completion record (R293). -/
def seRecordWords (c : SeCmd) (ring now : Nat) : List Word :=
  [place 63 58 (eOp c.desc) ||| place 57 54 ring ||| place 47 32 (eTag c.desc) ||| place 31 24 c.status,
   place 63 32 c.result ||| place 31 0 c.firstBad, BitVec.ofNat 64 now, place 31 0 c.aux]

/-- Count a completion and show its error (R294, R297). -/
def seCounts (k st : Nat) (s : State) : State :=
  match st with
  | 0x00 => s.count .SE_CNT 63 32 k
  | 0x01 => (s.count .SE_CNT 63 32 k).count .SE_CNT 31 16 k
  | 0x10 => (s.count .SE_CNT_ERR 63 48 k).flag .SE_ERR 1 k
  | 0x11 => (s.count .SE_CNT_ERR 63 48 k).flag .SE_ERR 2 k
  | 0x12 => (s.count .SE_CNT_ERR 47 32 k).flag .SE_ERR 3 k
  | 0x13 => (s.count .SE_CNT_ERR 31 16 k).flag .SE_ERR 4 k
  | _ => (s.count .SE_CNT_ERR 15 0 k).flag .SE_ERR 5 k

/-- An ended command leaves its slot; a ring command's record goes to its ring. -/
def seFinish (k : Nat) (c : SeCmd) (s : State) : State :=
  let x := s.engine k
  let s := seCounts k c.status (s.setEngine k { x with cmds := x.cmds.filter fun d => d.seq != c.seq })
  match c.issuer with
  | .ring r => seRing.complete (whoSe k c.part) k r (seRecordWords c r s.now) s
  | _ => s

/-- The waiting descriptors of a ring are taken and completed with ABORTED (R296). -/
def seAbortRing (k r : Nat) : Nat → State → State
  | 0, s => s
  | n + 1, s =>
    if !seRing.ready k r s then s
    else
      let part := seRingPart k r s
      let rd := seRead (whoSe k part) (seRing.descAddr k r s) 64 s
      let s := seRing.advance k r rd.2
      let d := match rd.1 with
        | .ok bs => leWords bs
        | .error _ => []
      let c := { newCmd 0 part (.ring r) d with status := 0x14 }
      seAbortRing k r n
        (seRing.complete (whoSe k part) k r (seRecordWords c r s.now) (seFault part 0x14 (seCounts k 0x14 s)))

/-- A partition is stopped, or its function disabled (R296). -/
def seStopPart (p : Nat) (s : State) : State :=
  (List.range 8).foldl (fun s k => (List.range 16).foldl (fun s r =>
    if seRingPart k r s = p then seAbortRing k r 4096 s else s) s) s

/-! ### The commands -/

def opIs (op : Nat) (c : SeCmd) : Bool := eOp c.desc == op

def execSeSqTailWrite (ag : Agent) (k : Fin 8) (r : Fin 16) (v : Word) (s : State) : Ans :=
  .next (if s.mayWrite ag (seRingPart k r s) then seRing.tailWrite .SE_ERR 0 k r v (wakeDom (46 + k / 4) s)
    else refusePermission s)

def execSeCqHeadWrite (ag : Agent) (k : Fin 8) (r : Fin 16) (v : Word) (s : State) : Ans :=
  .next (if s.mayWrite ag (seRingPart k r s) then seRing.headWrite k r v (wakeDom (46 + k / 4) s)
    else refusePermission s)

def execSeRingEnable (k : Fin 8) (r : Fin 16) (v : Word) (s : State) : Ans :=
  .next (seRing.cfgWrite k r v (wakeDom (46 + k / 4) s))

def execSeDescriptorTake (k : Fin 8) (s : State) : Ans := .next (seTake k s)
def execGather (k : Fin 8) (s : State) : Ans := .next (seRun k (opIs 0x01) true s)
def execScatter (k : Fin 8) (s : State) : Ans := .next (seRun k (opIs 0x02) true s)
def execSelectEc (k : Fin 8) (s : State) : Ans := .next (seRun k (opIs 0x08) true s)
def execSelectTc (k : Fin 8) (s : State) : Ans := .next (seRun k (opIs 0x09) true s)
def execRepscat (k : Fin 8) (s : State) : Ans := .next (seRun k (opIs 0x10) true s)
def execPad (k : Fin 8) (s : State) : Ans := .next (seRun k (opIs 0x11) true s)
def execCombine (k : Fin 8) (s : State) : Ans := .next (seRun k (opIs 0x18) true s)
def execDequant (k : Fin 8) (s : State) : Ans := .next (seRun k (opIs 0x20) true s)
def execKvAppend (k : Fin 8) (s : State) : Ans := .next (seRun k (opIs 0x28) true s)
def execSeUnit (k : Fin 8) (s : State) : Ans := .next (seRun k (fun _ => true) false s)
def execSeCntRead (k : Fin 8) (s : State) : Ans := .next (s.readPlain .SE_CNT k)
def execSeCntErrRead (k : Fin 8) (s : State) : Ans := .next (s.readPlain .SE_CNT_ERR k)

end Sys2Proof.Machine
end

