-- ==== Sys2Proof/Machine/Flits.lean ====
section
/-! DEFINITION. What a link carries: the words of a packet with their check bytes, and what the memory code finds in
received words (12_rack_fabric.md R370, R376, R377, R382; 08_memory_tiers.md R263, R264). -/

namespace Sys2Proof.Machine

open Sys2Proof

/-- TYPE (R377). -/
def pktCode : PktBody → Nat
  | .write _ => 0x01
  | .read => 0x02
  | .readRsp _ => 0x03
  | .atomic .. => 0x04
  | .atomicRsp .. => 0x05
  | .ack => 0x06
  | .nak => 0x07
  | .coll _ => 0x08
  | .pathFail .. => 0x09

/-- The header word, as four 64-bit words (R376). -/
def pktHeader (p : Packet) : List Word :=
  let h := p.hdr
  [place 63 59 (pktCode p.body) ||| place 58 55 h.cls.toNat ||| place 54 53 h.hops.toNat ||| place 52 51 h.hop.toNat |||
     place 50 45 h.p0.toNat ||| place 44 39 h.p1.toNat ||| place 38 33 h.p2.toNat ||| place 23 12 h.dst.toNat |||
     place 11 0 h.src.toNat,
   place 63 32 h.seq.toNat ||| place 31 0 h.key.toNat,
   place 63 24 h.sendNs.toNat ||| place 23 16 h.sinc.toNat ||| place 15 8 h.dinc.toNat ||| place 7 4 h.words.toNat |||
     place 3 0 h.op.toNat,
   place 60 52 h.bytes.toNat ||| place 51 0 h.addr.toNat]

/-- The bytes of the data words, up to the last one that carries something (R377): a WRITE's data begin at ADDR mod 32 of
its first word, as its count of words says (notes/assumptions/166.md). The spec lays out neither the messages of
collectives nor the ports that a PATH_FAIL names: their bytes are open. -/
def pktPayload (p : Packet) : List Byte :=
  match p.body with
  | .write d => List.replicate (p.hdr.addr.toNat % 32) 0 ++ d
  | .readRsp d => d
  | .atomic x y r => leBytes 8 x.toNat ++ leBytes 8 y.toNat ++ leBytes 4 r.toNat
  | .atomicRsp o r => leBytes 8 o.toNat ++ leBytes 8 0 ++ leBytes 4 r.toNat
  | .coll m => (List.range (32 * p.hdr.words.toNat)).map (Config.collByte m)
  | .pathFail x y z => (List.range 32).map (Config.pathByte x y z)
  | _ => []

/-- The 32 data bytes of word `i` of a packet: the header word, then its data words. -/
def pktWord (p : Packet) (i : Nat) : List Byte :=
  if i = 0 then (pktHeader p).flatMap fun w => leBytes 8 w.toNat
  else (List.range 32).map fun k => (pktPayload p).getD (32 * (i - 1) + k) 0

/-- The check-byte difference with which word `i` travels: of a data word that the code could not correct (R382). -/
def pktErr (p : Packet) (i : Nat) : BitVec 32 :=
  match p.errs.find? fun e => e.1 == i with
  | some e => e.2
  | none => 0

/-- The 36-byte words of a packet: the data bytes of each, and its check bytes (R263, R370). -/
def pktFlits (p : Packet) : List (List Byte) :=
  (List.range (p.hdr.words.toNat + 1)).map fun i =>
    pktWord p i ++ leBytes 4 (eccCheck (pktWord p i) ^^^ pktErr p i).toNat

/-- What the code finds in the words of a received packet: its words by number, with the outcome of each (R264, R382). -/
def linkReads (e : LinkErr) (p : Packet) : List (Nat × BitVec 32 × EccRead) :=
  ((e.diffs ++ p.errs).filter fun x => decide (x.1 ≤ p.hdr.words.toNat)).map fun x => (x.1, x.2, eccRead x.2)

/-- Words that the code corrects. -/
def linkCorrected (e : LinkErr) (p : Packet) : Nat :=
  ((linkReads e p).filter fun x => match x.2.2 with
    | .data .. => true
    | .check => true
    | _ => false).length

/-- The header word is uncorrectable. -/
def linkHdrBad (e : LinkErr) (p : Packet) : Bool := (linkReads e p).any fun x => x.1 == 0 && x.2.2 == .uncorrectable

/-- The uncorrectable data words, with their differences. -/
def linkBad (e : LinkErr) (p : Packet) : List (Nat × BitVec 32) :=
  ((linkReads e p).filter fun x => x.1 != 0 && x.2.2 == .uncorrectable).map fun x => (x.1, x.2.1)

end Sys2Proof.Machine
end

