-- ==== Sys2Proof/Machine/Granary.lean ====
section
/-! DEFINITION. The Granary: the page map's searches, moves, commands and their queues, quotas and reclaim, the prefetch
walk, queries, the scrubber and the tier-2 links (08_memory_tiers.md R233 to R252, R259 to R268). Serving a command and
completing a move come in GranaryTurn.lean, because they resolve held launches. -/

namespace Sys2Proof.Machine

open Sys2Proof

/-! ### Counts (R259, R268) -/

/-- The listed pages that partition `p` owns. -/
def ownedPages (p : Nat) (s : State) : List (Nat × Page) := s.grn.pages.filter fun e => e.2.owner == some p

/-- USE: owned pages that are RESIDENT or RISING (R259). -/
def pageUse (p : Nat) (s : State) : Nat :=
  ((ownedPages p s).filter fun e => e.2.st == .resident || e.2.st == .rising).length

/-- PINNED resident pages. -/
def pinnedUse (p : Nat) (s : State) : Nat :=
  ((ownedPages p s).filter fun e => e.2.st == .resident && e.2.pin != 0).length

def grnQuota (p : Nat) (s : State) : Nat := s.rf .GRN_P_QUOTA 22 0 p
def grnFloor (p : Nat) (s : State) : Nat := s.rf .GRN_P_FLOOR 22 0 p

/-- An unowned RESIDENT page. -/
def Page.free1 (p : Page) : Bool := p.st == .resident && p.owner.isNone

/-- FREE1: the unowned RESIDENT pages; a page that is not listed is one below 6,291,456 (R236). -/
def grnFree1 (s : State) : Nat :=
  6291456 - (s.grn.pages.filter fun e => decide (e.1 < 6291456)).length + (s.grn.pages.filter fun e => e.2.free1).length

/-- MOVES (R242, R268): at most 16. -/
def grnMoves (s : State) : Nat := min 16 (s.rf .GRN_CTL 4 0)

/-- A move may start (R242). -/
def canMove (s : State) : Bool := decide (s.grn.moves.length < grnMoves s)

def modGrn (f : Granary → Granary) (s : State) : State := { s with grn := f s.grn }

/-- Raise a count of a partition's second counter register, where a partition is concerned (R268). -/
def count2 (p : Option Nat) (hi lo : Nat) (s : State) : State :=
  match p with
  | some p => s.count .GRN_P_CNT2 hi lo p
  | none => s

/-! ### Searches (R244 to R246) -/

/-- Page `n` has an entry that differs from the map after reset. -/
def pageListed (n : Nat) (s : State) : Bool := s.grn.pages.any fun e => e.1 == n

/-- The first page from `n` on, `step` apart, with no entry of its own. -/
def firstUnlisted (step limit : Nat) (s : State) : Nat → Nat → Option Nat
  | 0, _ => none
  | k + 1, n => if limit ≤ n then none else if pageListed n s then firstUnlisted step limit s k (n + step) else some n

/-- The smallest of two page numbers, where there are. -/
def minPage : Option Nat → Option Nat → Option Nat
  | some a, some b => some (min a b)
  | some a, none => some a
  | none, b => b

/-- The page of a list with the lowest key, the lowest number on a tie. -/
def lowestBy (key : Page → Nat) : List (Nat × Page) → Option (Nat × Page)
  | [] => none
  | e :: es => match lowestBy key es with
    | none => some e
    | some f => if key f.2 < key e.2 ∨ (key f.2 = key e.2 ∧ f.1 < e.1) then some f else some e

/-- A page that may be a victim on pile `k`, whatever its class (R245). -/
def victimPage (k : Nat) (p : Page) : Bool := p.st == .resident && p.pin == 0 && p.owner != some 0 && p.pile == k

/-- A page of a partition whose USE is above FLOOR. -/
def overFloor (s : State) (p : Page) : Bool :=
  match p.owner with
  | some q => decide (grnFloor q s < pageUse q s)
  | none => false

/-- The victim on pile `k` for raising partition `p`, other than page `skip`; `all` opens classes 1, 3 and 5 (R245). -/
def victimOn (k : Nat) (p : Option Nat) (all : Bool) (skip : Option Nat) (s : State) : Option Nat :=
  let c := s.grn.pages.filter fun e => victimPage k e.2 && some e.1 != skip
  let own := fun (x : Page) => p.isSome && x.owner == p
  let c1 := if all then
      minPage ((lowestBy (fun _ => 0) (c.filter fun e => e.2.owner.isNone)).map (·.1))
        (firstUnlisted 8 6291456 s (s.grn.pages.length + 1) k)
    else none
  let pick := fun (ok : Bool) (key : Page → Nat) (f : Page → Bool) =>
    if ok then (lowestBy key (c.filter fun e => f e.2)).map (·.1) else none
  c1 <|> pick true (fun _ => 0) (fun x => own x && x.released) <|>
    pick all (fun _ => 0) (fun x => x.released && overFloor s x) <|>
    pick true Page.ageMs own <|> pick all Page.ageMs (overFloor s)

/-- The piles of a mask in the order of R244. -/
def pileOrder (n mask : Nat) : List Nat :=
  let m := if mask = 0 then 255 else mask
  let inm := fun k => bit (BitVec.ofNat 8 m) k
  (if inm (n % 8) then [n % 8] else []) ++ (List.range 8).filter fun k => inm k && k != n % 8

/-- The victim of a raise of page `n`, other than page `skip` (R244). -/
def victimFor (n mask : Nat) (p : Option Nat) (all : Bool) (skip : Option Nat) (s : State) : Option Nat :=
  (pileOrder n mask).findSome? fun k => victimOn k p all skip s

/-- A page with a raise queued for it (R246). -/
def raiseQueued (n : Nat) (s : State) : Bool :=
  s.grn.queues.any fun q => q.2.any fun c => c.op == 1 && decide (c.page ≤ n ∧ n < c.page + c.count) &&
    (q.1 == 16 || (s.page n).owner == some q.1)

/-- The counterpart of a demotion (R246). -/
def counterpart (s : State) : Option Nat :=
  let low := s.grn.pages.filter fun e => e.2.st == .lower && e.2.pin == 0
  let c1 := minPage ((lowestBy (fun _ => 0) (low.filter fun e => e.2.owner.isNone)).map (·.1))
    (firstUnlisted 1 31457280 s (s.grn.pages.length + 1) 6291456)
  c1 <|> (lowestBy (fun _ => 0) (low.filter fun e =>
    raiseQueued e.1 s && (match e.2.owner with
      | some q => decide (pageUse q s < grnQuota q s)
      | none => false))).map (·.1)

/-! ### Moves (R239 to R243) -/

/-- RECLAIM clears when USE is at or below QUOTA, and the doorbell rings again (R262). -/
def reclaimEnd (p : Nat) (s : State) : State :=
  if s.rb .GRN_P_STAT 0 p && decide (pageUse p s ≤ grnQuota p s) then
    ringReg .GRN_P_DB p 0 (s.unflag .GRN_P_STAT 0 p)
  else s

/-- Start a move of `riser` against `faller`; both are marked in one update (R240), which lowers the USE of the faller's
owner (R259, R262). The partition that the traffic is charged to is fixed here (R242). -/
def startMove (riser faller : Nat) (asker : Option (Option Nat)) (mask : Nat) (reclaim : Option Nat) (s : State) :
    State :=
  let r := s.page riser
  let f := s.page faller
  let charge := match reclaim with
    | some p => some p
    | none => r.owner
  let s := (s.setPage riser { r with st := .rising }).setPage faller { f with st := .falling }
  let s := wakeDom 47 (wakeDom (46 + f.pile / 4) s)
  let s := modGrn (fun g => { g with moves := g.moves ++
    [⟨riser, faller, f.pile, 0, charge, asker, mask, reclaim.isSome, []⟩] }) s
  match f.owner with
  | some p => reclaimEnd p s
  | none => s

/-- What came of a raise (R247). -/
inductive RaiseEnd where
  | done | wait | refused
  deriving DecidableEq, Repr

/-- A raise of a LOWER page for partition `p`, or for steward firmware (`none`), whose partition is then the page's
owner (R245, R260). -/
def raiseLower (asker : Option Nat) (n mask : Nat) (s : State) : RaiseEnd × State :=
  let p := match asker with
    | some p => some p
    | none => (s.page n).owner
  let quota := match asker with
    | some p => decide (grnQuota p s < pageUse p s)
    | none => false
  let all := match asker with
    | some p => decide (pageUse p s < grnQuota p s)
    | none => true
  if (s.page n).pin ≠ 0 then (.refused, count2 p 63 48 s)
  else if !canMove s then (.wait, s)
  else if quota then
    match asker with
    | some p => (.refused, (s.flag .GRN_P_STAT 1 p).count .GRN_P_CNT2 47 32 p)
    | none => (.refused, s)
  else match victimFor n mask p all none s with
    | some v => (.done, startMove n v (some asker) mask none (s.setPage n { s.page n with released := false }))
    | none => (.refused, (count2 p 63 48 s).flag .GRN_EVT 1)

/-- A held atomic returns its old value to the core that waits for it. -/
def atomicReturns (t : Nat) (gd : Fin 64) (old : Word) (s : State) : State :=
  if (s.core t).wait = .heldAtomic then s.modCore t fun c => ({ c with wait := .none }.setG gd old).next 4 else s

/-- Apply what was held for a moving page (R241); it is a write to the page, and takes its dirty bit (R428). -/
def applyHeld (h : Held) (s : State) : State :=
  match h with
  | .bytes a d => storeBytes a d (dirtyLog a s)
  | .update a d => storeBytes a d (dirtyLog a s)
  | .atomic op a b cmp t gd =>
    let s := dirtyLog a s
    let old := BitVec.ofNat 64 (leVal ((List.range 8).map fun i => s.goodByte (a + i)))
    atomicReturns t gd old (storeBytes a (leBytes 8 (amoValue op old b cmp).toNat) s)

/-- A move is past its frame-write point, or an open value says whether it is: the spec gives no time for a step
(R240; notes/assumptions/35.md). -/
def movePast (m : Move) (s : State) : Bool := m.stage == 2 || (m.stage == 0 && bit s.open 0)

/-- A raise that a launch held on tile `t` waits for is refused (R257). -/
def refuseHold (id t : Nat) (s : State) : State :=
  modPart id t (fun x => { x with hold := x.hold.map fun h => { h with refused := true } }) s

/-- The raise of page `n` has come to nothing: it is refused as NO_VICTIM, for every launch that waits for it too
(R245, R257; notes/assumptions/158.md). -/
def raiseFails (n : Nat) (p : Option Nat) (s : State) : State :=
  modSched (fun d => { d with launches := d.launches.map fun l => { l with tiles := l.tiles.map fun x =>
    { x with hold := x.hold.map fun h => if h.pages.contains n then { h with refused := true } else h } } })
    ((count2 p 63 48 s).flag .GRN_EVT 1)

/-- Cancel the fall of a move: its faller stays RESIDENT, and its riser searches again for a victim, for the partition
that asked for its raise, or else for its owner (R247; notes/assumptions/157.md). What was held for the two pages is
applied to their frames, which have not changed. -/
def cancelFall (m : Move) (s : State) : State :=
  let s := s.setPage m.faller { s.page m.faller with st := .resident }
  let s := s.setPage m.riser { s.page m.riser with st := .lower }
  let s := modGrn (fun g => { g with moves := g.moves.filter fun x => x.riser != m.riser }) s
  let s := m.held.foldl (fun s h => applyHeld h s) s
  let s := s.count .GRN_CNT_MOVE 31 16
  let s := match (s.page m.riser).owner with
    | some p => reclaimEnd p s
    | none => s
  let p := match m.asker with
    | some (some p) => some p
    | _ => (s.page m.riser).owner
  let all := if m.asker = some none then true else match p with
    | some p => decide (pageUse p s < grnQuota p s)
    | none => false
  match victimFor m.riser m.piles p all (some m.faller) s with
  | some v => startMove m.riser v m.asker m.piles none s
  | none => if m.asker.isSome then raiseFails m.riser p s else s

/-- A FALLING page is met: whether its move can still be cancelled; one past the frame-write point stays so (R247). -/
def decideFall (n : Nat) (s : State) : Bool × State :=
  match s.moveOf n with
  | none => (false, s)
  | some m =>
    let past := movePast m s
    let s := if m.stage = 0 then s.used else s
    (!past, if past then modGrn (fun g => { g with moves := g.moves.map fun x =>
      if x.riser = m.riser then { x with stage := 2 } else x }) s else s)

/-- The fall of page `n` is cancelled. -/
def cancelFallOf (n : Nat) (s : State) : State :=
  match s.moveOf n with
  | some m => cancelFall m s
  | none => s

/-- A raise meets a FALLING page (R247): cancelled, or past the frame-write point. -/
def meetFall (n : Nat) (s : State) : Bool × State :=
  let r := decideFall n s
  if r.1 then (true, cancelFallOf n r.2) else r

/-- RAISE of page `n` (R247). -/
def raisePage (asker : Option Nat) (n mask : Nat) (s : State) : RaiseEnd × State :=
  match (s.page n).st with
  | .lower => raiseLower asker n mask s
  | .resident => (.done, s.setPage n { s.page n with released := false })
  | .rising => (.done, s.setPage n { s.page n with released := false })
  | .falling =>
    let r := meetFall n s
    if r.1 then (.done, r.2.setPage n { r.2.page n with released := false }) else (.wait, r.2)

/-- LOWER of page `n` (R246, R247). -/
def lowerPage (p : Option Nat) (n : Nat) (s : State) : RaiseEnd × State :=
  let x := s.page n
  match x.st with
  | .rising => (.refused, count2 p 31 16 s)
  | .resident =>
    if x.pin ≠ 0 then (.refused, count2 p 31 16 s)
    else if !canMove s then (.wait, s)
    else match counterpart s with
      | some c => (.done, startMove c n none 0 none s)
      | none => (.refused, (s.count .GRN_CNT_MOVE 15 0).flag .GRN_EVT 2)
  | _ => (.done, s)

/-- PIN, UNPIN and RELEASE of page `n` (R247). -/
def pinPage (n : Nat) (s : State) : State :=
  let x := s.page n
  if 65535 ≤ x.pin then s.flag .GRN_EVT 0 else s.setPage n { x with pin := x.pin + 1, released := false }

def unpinPage (n : Nat) (s : State) : State :=
  let x := s.page n
  if x.pin = 0 then s.flag .GRN_EVT 0 else s.setPage n { x with pin := x.pin - 1 }

def releasePage (n : Nat) (s : State) : State :=
  let x := s.page n
  if x.st = .resident ∨ x.st = .rising then s.setPage n { x with released := true } else s

/-- One page of a command, for the owner of its queue (R247). -/
def commandPage (asker : Option Nat) (c : GrnCmd) (s : State) : RaiseEnd × State :=
  let p := match asker with
    | some p => some p
    | none => (s.page c.page).owner
  match c.op with
  | 1 => raisePage asker c.page c.piles s
  | 2 => (.done, releasePage c.page s)
  | 3 => lowerPage p c.page s
  | 4 => (.done, pinPage c.page s)
  | _ => (.done, unpinPage c.page s)

/-! ### Commands and their queues (R248) -/

def grnQueue (q : Nat) (s : State) : List GrnCmd := Tab.get (fun _ => []) s.grn.queues q

def setQueue (q : Nat) (cs : List GrnCmd) (s : State) : State :=
  modGrn (fun g => { g with queues := Tab.set (fun _ => []) g.queues q cs }) s

/-- A command word's fields are in order (R248). -/
def cmdOk (v : Word) : Bool :=
  let op := fld v 63 60
  decide (1 ≤ op ∧ op ≤ 5) && fld v 35 25 == 0 && (op == 1 || fld v 59 52 == 0) &&
    decide (fld v 24 0 + fld v 51 36 + 1 ≤ 31457280)

def cmdOf (v : Word) : GrnCmd := ⟨fld v 63 60, fld v 59 52, fld v 24 0, fld v 51 36 + 1, none⟩

/-- A write of GRN_CMD (R248): the write's source picks the queue. -/
def grnCmd (ag : Agent) (v : Word) (s : State) : State :=
  let s := wakeDom 48 s
  let put := fun (q : Nat) =>
    if !cmdOk v then s.flag .GRN_EVT 0
    else if 64 ≤ (grnQueue q s).length then if q = 16 then s.flag .GRN_EVT 6 else s.flag .GRN_P_STAT 2 q
    else setQueue q (grnQueue q s ++ [cmdOf v]) s
  match ag with
  | .steward => put 16
  | _ => match s.agentPart ag with
    | some p => put p
    | none => refusePermission s

/-- The command word of operands (R248). -/
def cmdWord (op : Nat) (piles : BitVec 8) (cnt : BitVec 16) (rsv : BitVec 11) (page : BitVec 25) : Word :=
  place 63 60 op ||| place 59 52 piles.toNat ||| place 51 36 cnt.toNat ||| place 35 25 rsv.toNat |||
    place 24 0 page.toNat

/-! ### Quotas and reclaim (R259 to R262) -/

/-- A write of QUOTA by steward firmware (R261, R262). -/
def quotaWrite (p : Nat) (v : Word) (s : State) : State :=
  let s := s.writePlain .GRN_P_QUOTA v p
  if grnQuota p s < pageUse p s then
    ringReg .GRN_P_DB p 0 ((s.flag .GRN_P_STAT 0 p).flag .GRN_EVT 5)
  else reclaimEnd p s

/-- The page that reclaim takes next: RELEASED ones first, then by oldest access age (R262). -/
def reclaimPage (p : Nat) (s : State) : Option Nat :=
  let c := (ownedPages p s).filter fun e => e.2.st == .resident && e.2.pin == 0
  ((lowestBy (fun _ => 0) (c.filter fun e => e.2.released)).map (·.1)) <|> ((lowestBy Page.ageMs c).map (·.1))

/-- The interval of 10 µs in which reclaim counts its demotions (R262). -/
def reclaimInterval (s : State) : State :=
  if s.grn.reclaimIv = s.now / 10000 then s
  else modGrn (fun g => { g with reclaimIv := s.now / 10000, reclaimed := 0, stuck := [] }) s

/-- Reclaim may demote a page of partition `p` now: within the rate of GRN_RECLAIM per 10 µs, and not after a demotion
that found no counterpart in this interval (R246, R262). -/
def reclaimable (p : Nat) (s : State) : Bool :=
  s.rb .GRN_P_STAT 0 p && decide (grnQuota p s < pageUse p s) && canMove s &&
    decide (s.grn.reclaimed < min 256 (max 1 (s.rf .GRN_RECLAIM 8 0))) && !s.grn.stuck.contains p &&
    (reclaimPage p s).isSome

/-- The round has come to reclaim's turn: no queue before it in the round holds a command (R249). -/
def reclaimUp (s : State) : Bool :=
  (List.range 17).all fun q => decide (q < s.grn.turn) || (grnQueue q s).isEmpty

/-- Reclaim's turn in the round, for partition `p`; the next round begins (R249, R262). -/
def reclaimTurn (p : Nat) (s : State) : State :=
  let s := reclaimInterval s
  if !reclaimUp s || !reclaimable p s then s
  else match reclaimPage p s with
    | none => s
    | some n =>
      let s := modGrn (fun g => { g with reclaimAt := p, turn := 0 }) s
      match counterpart s with
      | some c =>
        (startMove c n none 0 (some p) (modGrn (fun g => { g with reclaimed := g.reclaimed + 1 }) s)).count .GRN_P_CNT2
          15 0 p
      | none =>
        modGrn (fun g => { g with stuck := p :: g.stuck }) ((s.count .GRN_CNT_MOVE 15 0).flag .GRN_EVT 2)

/-! ### The prefetch schedule (R250 to R252) -/

/-- SIZE_LOG2 of a schedule, clamped to 4 to 15 (R268). -/
def pfSize (p : Nat) (s : State) : Nat := 2 ^ min 15 (max 4 (s.rf .GRN_P_PF_CFG 3 0 p))

def pfWalk (p : Nat) (s : State) : PfWalk := Tab.get (fun _ => ⟨0, 0⟩) s.grn.walks p

def setWalk (p : Nat) (w : PfWalk) (s : State) : State :=
  modGrn (fun g => { g with walks := Tab.set (fun _ => ⟨0, 0⟩) g.walks p w }) s

/-- A write of GRN_P_PF_CFG: PERIOD and SIZE_LOG2 change only while EN = 0; setting EN resets x, s and CUR, and a walk
that ends waits for nothing (R251, R268). -/
def pfCfgWrite (p : Nat) (v : Word) (s : State) : State :=
  if s.rb .GRN_P_PF_CFG 63 p then
    let old := s.reg .GRN_P_PF_CFG p
    let s := if bit v 63 then s else s.unflag .GRN_P_STAT 4 p
    s.setReg .GRN_P_PF_CFG (putFld (if bit v 63 then old else clearBit old 63) 55 40 (fld v 55 40)) p
  else
    let s := s.writePlain .GRN_P_PF_CFG (putFld v 3 0 (min 15 (max 4 (fld v 3 0)))) p
    if bit v 63 then (setWalk p ⟨0, 0⟩ s).setReg .GRN_P_PF_CUR 0 p else s

/-- A write of CUR: a lower value is ignored (R252). -/
def pfCurWrite (p : Nat) (v : Word) (s : State) : State :=
  if fld v 31 0 < s.rf .GRN_P_PF_CUR 31 0 p then s else s.putReg .GRN_P_PF_CUR 31 0 (fld v 31 0) p

/-- The walk goes on to the next entry. -/
def pfNext (p : Nat) (s : State) : State :=
  let w := pfWalk p s
  setWalk p (if w.x + 1 = pfSize p s then ⟨0, w.s + 1⟩ else ⟨w.x + 1, w.s⟩) s

/-- The operation that a KIND names, if it names one (R250). -/
def pfOp (kind : Nat) : Option Nat :=
  if kind = 1 then some 1 else if kind = 2 then some 2 else if kind = 3 then some 4 else if kind = 4 then some 5 else none

/-- The command word of an entry, with a reserved bit set where one of the entry's is. -/
def pfCmd (ws : List Word) (op : Nat) : Word :=
  let w0 := wordAt ws 0
  let w1 := wordAt ws 1
  let rsv := fld w0 51 20 != 0 || fld w1 63 52 != 0 || fld w1 35 25 != 0 || wordAt ws 2 != 0 || wordAt ws 3 != 0
  place 63 60 op ||| place 59 52 (fld w0 59 52) ||| place 51 36 (fld w1 51 36) ||| place 25 25 (if rsv then 1 else 0) |||
    place 24 0 (fld w1 24 0)

/-- The walk reads its next entry (R251). An entry that cannot be read counts as not VALID. PF_PAUSED is 1 while it
waits for room in the queue. -/
def pfWalkEntry (p : Nat) (s : State) : State :=
  if !s.rb .GRN_P_PF_CFG 63 p then s else
  let s := s.unflag .GRN_P_STAT 4 p
  let w := pfWalk p s
  let rd := devRead (whoUnit 7 0 p) (s.rf .GRN_P_PF_BASE 51 5 p * 32 + w.x * 32) 32 0 s
  let ws := match rd.1 with
    | .ok bs => leWords bs
    | .error _ => [0, 0, 0, 0]
  let w0 := wordAt ws 0
  let kind := fld w0 62 60
  let layer := w.s * max 1 (s.rf .GRN_P_PF_CFG 39 20 p) + fld w0 19 0
  let cur := s.rf .GRN_P_PF_CUR 31 0 p
  if bit w0 63 && kind == 7 then setWalk p ⟨0, w.s + 1⟩ rd.2
  else if cur + s.rf .GRN_P_PF_CFG 55 40 p < layer then s
  else
    let s := rd.2
    match if bit w0 63 then pfOp kind else none with
    | none => pfNext p s
    | some op =>
      if op = 1 ∧ layer < cur then pfNext p (s.count .GRN_P_CNT 15 0 p)
      else if !cmdOk (pfCmd ws op) then pfNext p (s.flag .GRN_EVT 0)
      else if 64 ≤ (grnQueue p s).length then s.flag .GRN_P_STAT 4 p
      else pfNext p (setQueue p (grnQueue p s ++ [cmdOf (pfCmd ws op)]) s)

/-! ### Queries, the scrubber, the links -/

/-- The map entry of page `n`, as GRN_P_QRES gives it (R268). -/
def queryWord (n : Nat) (s : State) : Word :=
  if 31457280 ≤ n then 0 else
  let x := s.page n
  let code := match x.st with
    | .resident => 0
    | .rising => 1
    | .falling => 2
    | .lower => 3
  place 63 63 1 ||| place 62 61 code ||| place 60 60 (if x.released then 1 else 0) |||
    (match x.owner with
      | some p => place 59 59 1 ||| place 58 55 p
      | none => 0) |||
    (if x.inTier1 then place 54 52 x.pile else 0) ||| place 47 32 x.pin

/-- A write of GRN_P_QADDR takes the snapshot (R268). -/
def queryWrite (p : Nat) (v : Word) (s : State) : State :=
  (s.writePlain .GRN_P_QADDR v p).setReg .GRN_P_QRES (queryWord (fld v 24 0) s) p

/-- The Granary as a maker of requests. -/
def whoGrn : Who := ⟨7, 0, none⟩

/-- The scrubber reads its next word (R265). -/
def scrubRead (s : State) : State :=
  if !s.rb .GRN_SCRUB 63 then s else
  let page := s.rf .GRN_SCRUB_POS 24 0
  let w := page * 2048 + s.grn.scrubWord
  let s := match s.eccAt w with
    | .clean => s
    | .uncorrectable => (errRecord 0x003 whoGrn (w * 32) 0 (s.count .GRN_CNT_ECC 31 16)).flag .GRN_EVT 4
    | _ => (countCorrected w s).correctWord w
  if s.grn.scrubWord + 1 < 2048 then modGrn (fun g => { g with scrubWord := g.scrubWord + 1 }) s
  else
    let s := modGrn (fun g => { g with scrubWord := 0 }) s
    if page + 1 < 31457280 then s.putReg .GRN_SCRUB_POS 24 0 (page + 1)
    else (s.putReg .GRN_SCRUB_POS 24 0 0).putReg .GRN_SCRUB_POS 63 32 (s.rf .GRN_SCRUB_POS 63 32 + 1)

/-- A tier-2 link loses alignment (R267). -/
def linkLost (l : Nat) (s : State) : State :=
  if s.grn.t2down.contains l then s else modGrn (fun g => { g with t2down := g.t2down ++ [l] }) s

/-- The accesses that have waited 100 µs for the link are reported as uncorrectable when they go on (R267). -/
def linkTimeout (l : Nat) (s : State) : State :=
  modGrn (fun g => { g with t2wait := g.t2wait.map fun x =>
    if x.link = l ∧ x.since + 100000 ≤ s.now then { x with expired := true } else x }) s

/-- The link has retrained, and the accesses that wait for it are served, but for those whose 100 µs have passed
(R267). -/
def linkBack (l : Nat) (s : State) : State :=
  modGrn (fun g => { g with
    t2down := g.t2down.filter fun x => x != l
    t2wait := g.t2wait.filter fun x => x.link != l || x.expired }) s

/-! ### The commands -/

def execRaise (ag : Agent) (piles : BitVec 8) (cnt : BitVec 16) (rsv : BitVec 11) (page : BitVec 25) (s : State) : Ans :=
  .next (grnCmd ag (cmdWord 1 piles cnt rsv page) s)

def execRelease (ag : Agent) (piles : BitVec 8) (cnt : BitVec 16) (rsv : BitVec 11) (page : BitVec 25) (s : State) :
    Ans := .next (grnCmd ag (cmdWord 2 piles cnt rsv page) s)

def execLower (ag : Agent) (piles : BitVec 8) (cnt : BitVec 16) (rsv : BitVec 11) (page : BitVec 25) (s : State) : Ans :=
  .next (grnCmd ag (cmdWord 3 piles cnt rsv page) s)

def execPin (ag : Agent) (piles : BitVec 8) (cnt : BitVec 16) (rsv : BitVec 11) (page : BitVec 25) (s : State) : Ans :=
  .next (grnCmd ag (cmdWord 4 piles cnt rsv page) s)

def execUnpin (ag : Agent) (piles : BitVec 8) (cnt : BitVec 16) (rsv : BitVec 11) (page : BitVec 25) (s : State) : Ans :=
  .next (grnCmd ag (cmdWord 5 piles cnt rsv page) s)

def execGrnPQuotaWrite (p : Fin 16) (v : Word) (s : State) : Ans := .next (quotaWrite p v s)
def execReclaimTurn (p : Fin 16) (s : State) : Ans := .next (reclaimTurn p s)
def execGrnPPfEnable (p : Fin 16) (v : Word) (s : State) : Ans := .next (pfCfgWrite p v s)

def execGrnPPfCurWrite (ag : Agent) (p : Fin 16) (v : Word) (s : State) : Ans :=
  .next (if s.mayWrite ag p then pfCurWrite p v s else refusePermission s)

def execPfWalkEntry (p : Fin 16) (s : State) : Ans := .next (pfWalkEntry p s)

def execGrnQuery (ag : Agent) (p : Fin 16) (v : Word) (s : State) : Ans :=
  .next (if s.mayWrite ag p then queryWrite p v s else refusePermission s)

def execScrubRead (s : State) : Ans := .next (scrubRead s)
def execT2LinkAlignLoss (link : Fin 8) (s : State) : Ans := .next (linkLost link s)
def execT2AccessTimeout (link : Fin 8) (s : State) : Ans := .next (linkTimeout link s)
def execTier2LinkRetrainDone (link : Fin 8) (s : State) : Ans := .next (linkBack link s)
def execGrnCntEccRead (s : State) : Ans := .next (s.readPlain .GRN_CNT_ECC)
def execGrnCntMoveRead (s : State) : Ans := .next (s.readPlain .GRN_CNT_MOVE)

/-- A partition may read its own counters; reading them clears them (R268). -/
def execGrnPCntRead (ag : Agent) (p : Fin 16) (s : State) : Ans :=
  .next (if s.mayWrite ag p then s.readPlain .GRN_P_CNT p else refusePermission s)

def execGrnPCnt2Read (ag : Agent) (p : Fin 16) (s : State) : Ans :=
  .next (if s.mayWrite ag p then s.readPlain .GRN_P_CNT2 p else refusePermission s)

end Sys2Proof.Machine
end

