-- ==== Sys2Proof/Machine/FabTx.lean ====
section
/-! DEFINITION. The sending side of the rack fabric: paths, sequenced packets and their retransmission, requests and
their outcomes, egress queues, ports and sampling (12_rack_fabric.md R369 to R399). -/

namespace Sys2Proof.Machine

open Sys2Proof

/-! ### State -/

def modFab (f : Fabric → Fabric) (s : State) : State := { s with fab := f s.fab }

def State.peer (s : State) (n : Nat) : Peer := Tab.get (fun _ => Peer.reset) s.fab.peers n

def State.setPeer (s : State) (n : Nat) (x : Peer) : State :=
  modFab (fun f => { f with peers := Tab.set (fun _ => Peer.reset) f.peers n x }) s

def State.fabPort (s : State) (q : Nat) : FabPort := Tab.get (fun _ => FabPort.reset) s.fab.ports q

def State.setFabPort (s : State) (q : Nat) (x : FabPort) : State :=
  modFab (fun f => { f with ports := Tab.set (fun _ => FabPort.reset) f.ports q x }) s

/-- The device's own node number (R372). -/
def ownNode (s : State) : Nat := s.rf .FAB_NODE 11 0

/-- The transport runs (R399). -/
def fabOn (s : State) : Bool := s.rb .FAB_CTL 63

def portUp (q : Nat) (s : State) : Bool := s.rb .FAB_PORT_STAT 0 q

/-- The nodes for which the transport holds anything. -/
def peerNodes (s : State) : List Nat := s.fab.peers.map (·.1)

/-- The maker of the fabric's own accesses and records, for a port. -/
def whoFab (q : Nat) (p : Option Nat) : Who := ⟨4, q, p⟩

/-- RTO_US in ns (R399). -/
def rtoNs (s : State) : Nat := min 1000 (max 1 (s.rf .FAB_XPORT_CFG 15 0)) * 1000

/-- The address in the window of offset `x` of a node of the own rack (R384). -/
def windowAddr (n x : Nat) : Nat := 0x1000000000000 + n % 64 * 0x20000000000 + x

/-! ### Paths (R373, R375) -/

def pathPort (e : Word) (i : Nat) : Nat := fld e (23 - 6 * i) (18 - 6 * i)

/-- VALID, with every port number in range (R373). -/
def pathValid (e : Word) : Bool := bit e 63 && (List.range 3).all fun i => decide (pathPort e i ≤ 35)

def pathSpare (e : Word) : Bool := bit e 62

def Peer.path (x : Peer) (k : Nat) : Word := x.paths.getD k 0

/-- The active set (R375). -/
def Peer.active (x : Peer) : List Nat :=
  let valid := (List.range 4).filter fun k => pathValid (x.path k)
  let live := valid.filter fun k => x.live.contains k
  let dead := valid.any fun k => !pathSpare (x.path k) && !x.live.contains k
  live.filter fun k => !pathSpare (x.path k) || dead

/-- Path `k` of node `n` becomes DEAD. -/
def pathDead (n k : Nat) (s : State) : State :=
  let x := s.peer n
  if x.live.contains k then (s.setPeer n { x with live := x.live.filter (· != k) }).flag .FAB_EVT 3 else s

/-- Every path whose first port is `q` becomes DEAD. -/
def portDead (q : Nat) (s : State) : State :=
  (peerNodes s).foldl (fun s n => (List.range 4).foldl (fun s k =>
    if pathValid ((s.peer n).path k) && pathPort ((s.peer n).path k) 0 == q then pathDead n k s else s) s) s

/-! ### Egress queues (R395, R396) -/

def wireBytes (p : Packet) : Nat := 36 * (1 + p.hdr.words.toNat)

/-- The weight of queue `i`, 4 to 15; 0 counts as 1. -/
def queueWeight (q i : Nat) (s : State) : Nat :=
  max 1 (if i < 12 then s.rf .FAB_PORT_WGT0 (8 * (i - 4) + 7) (8 * (i - 4)) q
    else s.rf .FAB_PORT_WGT1 (8 * (i - 12) + 7) (8 * (i - 12)) q)

/-- A packet enters the queue of its class on a port (R396). -/
def enqueue (q : Nat) (p : Packet) (part : Option Nat) (s : State) : State :=
  let x := s.fabPort q
  let i := p.hdr.cls.toNat
  let len : Int := (wireBytes p : Int) + sfld (s.reg .FAB_PORT_OVH q) 15 0
  let st := max x.vtime (Tab.get (fun _ => 0) x.finish i)
  let fi := st + (len : Rat) / (queueWeight q i s : Rat)
  let e : QPkt := { pkt := p, at_ := s.now, start := if i < 4 then 0 else st, fin := if i < 4 then 0 else fi, part := part }
  let s := s.setFabPort q { x with
    queues := Tab.set (fun _ => []) x.queues i (Tab.get (fun _ => []) x.queues i ++ [e])
    finish := if i < 4 then x.finish else Tab.set (fun _ => 0) x.finish i fi }
  wakeDom (42 + q / 18) s

/-- The header with the path of an entry (R373, R376). -/
def hdrOnPath (h : PktHdr) (e : Word) : PktHdr :=
  { h with
    hops := BitVec.ofNat 2 (fld e 61 60)
    hop := 0
    p0 := BitVec.ofNat 6 (pathPort e 0)
    p1 := BitVec.ofNat 6 (pathPort e 1)
    p2 := BitVec.ofNat 6 (pathPort e 2) }

/-- The next path of node `n` in turn, avoiding one where another is active (R375, R379). -/
def takePath (n : Nat) (avoid : Option Nat) (s : State) : Option Nat × State :=
  let x := s.peer n
  let ks := x.active
  let other := ks.filter fun k => some k != avoid
  let ks := if other.isEmpty then ks else other
  match ks[x.turn % max 1 ks.length]? with
  | some k => (some k, s.setPeer n { x with turn := x.turn + 1 })
  | none => (none, s)

/-- Put a packet for node `n` on a path. -/
def sendOn (n k : Nat) (p : Packet) (part : Option Nat) (s : State) : State :=
  let e := (s.peer n).path k
  enqueue (pathPort e 0) { p with hdr := hdrOnPath p.hdr e } part s

/-- An unsequenced packet for node `n` on any active path; with none it is not sent. -/
def sendLoose (n : Nat) (p : Packet) (s : State) : State :=
  match takePath n none s with
  | (some k, s) => sendOn n k p none s
  | (none, s) => s

/-- A header for node `n` from this device: class, KEY, SEQ, words, OP, BYTES and ADDR; the rest is filled in as the
packet goes out. -/
def newHdr (n cls key seq words op bytes addr : Nat) (s : State) : PktHdr :=
  { cls := BitVec.ofNat 4 cls, hops := 0, hop := 0, p0 := 0, p1 := 0, p2 := 0, dst := BitVec.ofNat 12 n
    src := BitVec.ofNat 12 (ownNode s), seq := BitVec.ofNat 32 seq, key := BitVec.ofNat 32 key, sendNs := 0
    sinc := 0, dinc := 0, words := BitVec.ofNat 4 words, op := BitVec.ofNat 4 op
    bytes := BitVec.ofNat 9 (bytes + 511), addr := BitVec.ofNat 52 addr }

/-! ### Sequenced packets (R378, R379) -/

/-- Replace the sequenced packet numbered as `o`. -/
def putOut (n : Nat) (o : OutPkt) (s : State) : State :=
  let x := s.peer n
  s.setPeer n { x with sent := x.sent.map fun y => if y.n = o.n then o else y }

/-- The packet is an ATOMIC. -/
def isAtomicBody : PktBody → Bool
  | .atomic .. => true
  | _ => false

/-- Transmit a packet that the sender keeps: on an active path, or held until there is one. An ATOMIC is held while
SYNC_OK is 0 (R379, R383). -/
def transmit (n : Nat) (o : OutPkt) (avoid : Option Nat) (s : State) : State :=
  if isAtomicBody o.pkt.body && !s.syncOk then putOut n { o with path := none } s
  else match takePath n avoid s with
    | (some k, s) => sendOn n k o.pkt o.part (putOut n { o with path := some k } s)
    | (none, s) => putOut n { o with path := none } s

/-- Transmit what node `n` holds for want of a path (R379). -/
def sendHeld (n : Nat) (s : State) : State :=
  ((s.peer n).sent.filter fun o => o.path.isNone).foldl (fun s o => transmit n o none s) s

/-- Issue a sequenced packet; answers its SEQ (R378). -/
def issue (n : Nat) (hdr : Nat → PktHdr) (body : PktBody) (part : Option Nat) (tag : PktTag) (s : State) :
    Nat × State :=
  let x := s.peer n
  let seq := x.nextSeq
  let o : OutPkt := { n := x.issued, pkt := ⟨hdr seq, body, []⟩, part := part, tag := tag, first := none
                      path := none, discards := 0, lost := false }
  let s := s.setPeer n { x with
    nextSeq := (seq + 1) % 2 ^ 32, issued := x.issued + 1, sent := x.sent ++ [o]
    advAt := if x.sent.isEmpty then s.now else x.advAt }
  (seq, transmit n o none s)

/-- The class that a partition's requests of a kind take: 0 load and store, 1 atomic, 2 collective data, 3 A2A
(R396). -/
def classOf (kind : Nat) (part : Option Nat) (s : State) : Nat :=
  match part with
  | some p => max 1 (s.rf .FAB_P_CLASS (4 * kind + 3) (4 * kind) p)
  | none => 1

/-- The fabric key of a partition (R385). -/
def keyOf (part : Option Nat) (s : State) : Nat :=
  match part with
  | some p => s.rf .FAB_P_KEY 31 0 p
  | none => 0

/-- The pieces of a write of a run of bytes: ADDR mod 32 + BYTES is at most 480 (R377). -/
def writePieces : Nat → Nat → List Byte → List (Nat × List Byte)
  | 0, a, d => [(a, d)]
  | k + 1, a, d =>
    let n := 480 - a % 32
    if d.length ≤ n then [(a, d)] else (a, d.take n) :: writePieces k (a + n) (d.drop n)

/-- A posted write to a node: WRITE packets in ascending address order (R377, R387). -/
def remWrite (n a : Nat) (data : List Byte) (part : Option Nat) (tag : PktTag) (s : State) : State :=
  (writePieces (data.length / 449 + 1) a data).foldl (fun s w =>
    let words := ceilDiv (w.1 % 32 + w.2.length) 32
    (issue n (fun seq => newHdr n (classOf 0 part s) (keyOf part s) seq words 0 w.2.length w.1 s) (.write w.2) part tag
      s).2) s

/-- Send the READ or ATOMIC of a request, as a new packet (R388, R391). -/
def sendReq (r : RemReq) (s : State) : State :=
  let r1 := match r.asker with
    | .atomic _ => issue r.node (fun seq => newHdr r.node (classOf 1 r.part s) (keyOf r.part s) seq 1 r.op 8 r.addr s)
        (.atomic r.operand r.compare (BitVec.ofNat 32 r.id)) r.part .none s
    | _ => issue r.node (fun seq => newHdr r.node (classOf 0 r.part s) (keyOf r.part s) seq 0 0 r.bytes r.addr s)
        .read r.part .none s
  modFab (fun f => { f with reqs := (f.reqs.filter fun x => !(x.id == r.id && x.asker == r.asker)) ++
    [{ r with seqs := r1.1 :: r.seqs, last := s.now, busyAt := none }] }) r1.2

/-- Issue a READ (R388). -/
def remRead (n a bytes : Nat) (asker : Asker) (part : Option Nat) (s : State) : Nat × State :=
  let id := s.fab.nextRd
  let s := modFab (fun f => { f with nextRd := f.nextRd + 1 }) s
  (id, sendReq { id := id, asker := asker, part := part, node := n, addr := a, bytes := bytes, op := 0, operand := 0
                 compare := 0, seqs := [], t0 := s.now, last := s.now, first := none, busyAt := none } s)

/-- Issue an ATOMIC with the next REQID (R389). -/
def remAtomic (n a op : Nat) (operand compare : Word) (t : Nat) (part : Option Nat) (s : State) : Nat × State :=
  let id := s.fab.nextReq
  let s := modFab (fun f => { f with nextReq := (f.nextReq + 1) % 2 ^ 32 }) s
  (id, sendReq { id := id, asker := .atomic t, part := part, node := n, addr := a, bytes := 8, op := op
                 operand := operand, compare := compare, seqs := [], t0 := s.now, last := s.now, first := none
                 busyAt := none } s)

/-- A request has been answered or given up. -/
def dropReq (r : RemReq) (s : State) : State :=
  modFab (fun f => { f with reqs := f.reqs.filter fun x => !(x.id == r.id && x.asker == r.asker) }) s

/-! ### How a tile's request ends (R388, R391) -/

/-- The cause code of a status (R377, R388). -/
def statusCause (st : Nat) : Nat :=
  if st = 1 then causePermission else if st = 2 then causeAddress else causeMemUncorr

/-- The data of a remote load reach its core, if it still waits for them. -/
def loadReturns (t id : Nat) (data : List Byte) (s : State) : State :=
  match (s.core t).wait with
  | .remoteLoad gd bytes sx req =>
    if req = id then
      let x := leVal (data.take bytes)
      let v := if sx then BitVec.ofInt 64 (signed (8 * bytes) x) else BitVec.ofNat 64 x
      s.modCore t fun c => ({ c with wait := .none }.setG gd v).next 4
    else s
  | _ => s

/-- A tile's request ends with an exception. -/
def remoteFaults (t cause addr : Nat) (s : State) : State :=
  takeException t cause addr (s.modCore t fun c => { c with wait := .none })

/-- The core of tile `t` waits for request `id`. -/
def awaits (t id : Nat) (s : State) : Bool :=
  match (s.core t).wait with
  | .remoteLoad _ _ _ r => r == id
  | .remoteAtomic _ r => r == id
  | _ => false

/-- The sticky record of an error response of a load or atomic: ADDRESS_FAULT (R11) or MEM_UNCORR (R266). -/
def remoteRecord (cause a : Nat) (w : Who) (s : State) : State :=
  if cause = causeAddress then errRecord 0x020 w a 0 s
  else if cause = causeMemUncorr then errRecord 0x001 w (a / 32 * 32) cause s else s

/-- An atomic completes as INDETERMINATE (R391). -/
def indeterminate (r : RemReq) (s : State) : State :=
  let s := dropReq r s
  let s := match r.part with
    | some p => s.flag .FAB_P_ERR 2 p
    | none => s
  match r.asker with
  | .atomic t =>
    let a := windowAddr r.node r.addr
    let s := errRecord 0x031 (whoTile s t) a (r.id % 4096) (s.flag .FAB_EVT 5)
    if awaits t r.id s then remoteFaults t causeRemoteIndet a s else s
  | _ => s

/-- Change the transfer that runs on a DMA channel. -/
def modDmaRun (c : Nat) (f : DmaRun → DmaRun) (s : State) : State :=
  let d := Tab.get (fun _ => Dma.reset) s.sched.dma c
  { s with sched := { s.sched with dma := Tab.set (fun _ => Dma.reset) s.sched.dma c { d with run := d.run.map f } } }

/-- A piece of a DMA transfer fails: its status at that offset (R422). -/
def dmaFails (c off status : Nat) (s : State) : State :=
  modDmaRun c (fun r => { r with fails := r.fails ++ [(off, status)] }) s

/-- The status of a DMA transfer for a status of R377 (R422). -/
def dmaStatus (st : Nat) : Nat := if st = 1 then 0x12 else if st = 2 then 0x11 else 0x13

/-- A READ of a DMA channel is answered with a status: the piece fails, with the record of R11 or R266. -/
def dmaReadFails (c off st a : Nat) (part : Option Nat) (s : State) : State :=
  let w := whoUnit 6 c (part.getD 0)
  dmaFails c off (dmaStatus st)
    (if st = 2 then errRecord 0x020 w a 0 s else if st = 3 then errRecord 0x001 w a 0x13 s else s)

/-- A destination refuses a write of a DMA transfer: nothing after it is performed (R422). -/
def dmaRefused (c status : Nat) (s : State) : State :=
  modDmaRun c (fun r => { r with refused := r.refused <|> some status }) s

/-- A piece of a DMA channel's source arrives. -/
def dmaGot (c off : Nat) (data : List Byte) (s : State) : State :=
  modDmaRun c (fun r => { r with got := r.got ++ [(off, data)] }) s

/-! ### Losses (R380, R387) -/

/-- A WRITE or COLL packet of a partition is lost; of a WRITE the record names its address (R387). -/
def writeLost (n : Nat) (o : OutPkt) (s : State) : State :=
  let s := match o.part with
    | some p => (s.flag .FAB_P_ERR 1 p).flag .FAB_EVT 0
    | none => s
  let s := match o.tag with
    | .dma c => dmaRefused c 0x11 s
    | _ => s
  match o.pkt.body with
  | .write _ => errRecord 0x030 (whoFab ((o.path.map fun k => pathPort ((s.peer n).path k) 0).getD 0) o.part)
      (windowAddr n o.pkt.hdr.addr.toNat) 2 s
  | _ => s

/-- The packet is a WRITE or COLL. -/
def OutPkt.posted (o : OutPkt) : Bool :=
  match o.pkt.body with
  | .write _ => true
  | .coll _ => true
  | _ => false

/-- The sequence space for node `n` restarts at 0 (R380): READs are reissued, ATOMICs end as INDETERMINATE, and WRITEs
and COLL packets are dropped. -/
def resync (n : Nat) (s : State) : State :=
  let x := s.peer n
  let lost := x.sent.filter OutPkt.posted
  let reqs := s.fab.reqs.filter fun r => r.node == n
  let s := s.setPeer n { x with nextSeq := 0, sent := [], acked := [], advAt := s.now, toCount := 0 }
  let s := modFab (fun f => { f with ports := f.ports.map fun e =>
    (e.1, { e.2 with queues := e.2.queues.map fun q => (q.1, q.2.filter fun p =>
      !(p.pkt.hdr.dst.toNat == n && p.pkt.hdr.src.toNat == ownNode s)) }) }) s
  let s := lost.foldl (fun s o => writeLost n o s) s
  reqs.foldl (fun s r => match r.asker with
    | .atomic _ => indeterminate r s
    | _ => sendReq { r with seqs := [] } s) s

/-! ### Acknowledgements, timeouts (R379, R382, R387, R388, R391) -/

/-- `a` is at or before `b` in a 32-bit sequence space of which `b` is near. -/
def seqLe (a b : Nat) : Bool := decide ((b + 2 ^ 32 - a % 2 ^ 32) % 2 ^ 32 < 2 ^ 31)

/-- The packets that a cumulative acknowledgement of `seq` covers (R379). -/
def ackCovers (x : Peer) (seq : Nat) : List OutPkt := x.sent.filter fun o => seqLe o.pkt.hdr.seq.toNat seq

/-- The acknowledgement names a SEQ that has been issued. -/
def ackOk (x : Peer) (seq : Nat) : Bool := x.sent.any fun o => o.pkt.hdr.seq.toNat == seq

/-- Retransmit one packet, where a path is active; a packet that has not been on the wire yet is no retransmission
(R379, R382). -/
def retransmit (n : Nat) (o : OutPkt) (s : State) : State :=
  transmit n o o.path (if o.first.isSome && !(s.peer n).active.isEmpty && (!(isAtomicBody o.pkt.body) || s.syncOk) then
    reeveCount 6 1 (s.count .FAB_CNT 63 48) else s)

/-- No advance for RTO_US: every unacknowledged packet is sent again; a path that the oldest was on three times in a
row becomes DEAD (R375, R379). -/
def rtoExpires (n : Nat) (s : State) : State :=
  let x := s.peer n
  match x.sent with
  | [] => s
  | o :: _ =>
    if s.now < x.advAt + rtoNs s then s
    else
      let k := o.path.getD 4
      let c := if x.toCount != 0 && x.toPath == k then x.toCount + 1 else 1
      let s := s.setPeer n { x with advAt := s.now, toPath := k, toCount := if 3 ≤ c then 0 else c }
      let s := if 3 ≤ c && k < 4 then pathDead n k s else s
      (s.peer n).sent.foldl (fun s o => retransmit n o s) s

/-- WRITEs not acknowledged within 2 ms of their first transmission (R387). -/
def writesLate (n : Nat) (s : State) : State :=
  ((s.peer n).sent.filter fun o => !o.lost && (match o.pkt.body with | .write _ => true | _ => false) &&
    (match o.first with | some t => decide (t + 2000000 ≤ s.now) | none => false)).foldl
    (fun s o => writeLost n o ((putOut n { o with lost := true } s).flag .FAB_EVT 4)) s

/-- A load with no response within 2 ms of its first transmission (R388). -/
def loadLate (r : RemReq) (s : State) : State :=
  match r.first with
  | some t0 =>
    if s.now < t0 + 2000000 then s
    else
      let s := (dropReq r s).flag .FAB_EVT 4
      let s := match r.part with
        | some p => s.flag .FAB_P_ERR 3 p
        | none => s
      let a := windowAddr r.node r.addr
      match r.asker with
      | .load t =>
        let s := errRecord 0x020 (whoTile s t) a 1 s
        if awaits t r.id s then remoteFaults t causeAddress a s else s
      | .dma c off => dmaFails c off 0x11 (errRecord 0x020 (whoUnit 6 c (r.part.getD 0)) a 1 s)
      | _ => errRecord 0x020 (whoFab 0 r.part) a 1 s
  | none => s

/-- A READ with no response within RTO_US is issued again (R388). -/
def readAgain (r : RemReq) (s : State) : State := if s.now < r.last + rtoNs s then s else sendReq r s

/-- A retry of an ATOMIC: after RTO_US, or 10 µs after a NAK BUSY, up to T0 + 1.5 ms, and only with SYNC_OK (R383,
R391). -/
def atomicAgain (r : RemReq) (s : State) : State :=
  let due := match r.busyAt with
    | some b => decide (b + 10000 ≤ s.now)
    | none => decide (r.last + rtoNs s ≤ s.now)
  if due && decide (s.now ≤ r.t0 + 1500000) && s.syncOk then sendReq r s else s

/-- No response by T0 + 2 ms (R391). -/
def atomicLate (r : RemReq) (s : State) : State := if s.now < r.t0 + 2000000 then s else indeterminate r s

def reqById (atomic : Bool) (id : Nat) (s : State) : Option RemReq :=
  s.fab.reqs.find? fun r => r.id == id && (match r.asker with | .atomic _ => atomic | _ => !atomic)

/-! ### Fences (R392) -/

/-- The snapshot of a fence: for each node the packets issued so far. -/
def fenceSnap (s : State) : List (Nat × Nat) := s.fab.peers.map fun e => (e.1, e.2.issued)

/-- Everything in the snapshot is acknowledged, dropped, or past the 2 ms limit. -/
def fenceDone (snap : List (Nat × Nat)) (s : State) : Bool :=
  snap.all fun e => (s.peer e.1).sent.all fun o => decide (e.2 ≤ o.n) ||
    (match o.first with | some t => decide (t + 2000000 ≤ s.now) | none => false)

/-! ### Sending a packet (R379, R383, R395) -/

/-- The packets at the heads of a port's queues. -/
def FabPort.heads (x : FabPort) : List (Nat × QPkt) :=
  (List.range 16).filterMap fun i => (Tab.get (fun _ => []) x.queues i).head?.map fun p => (i, p)

/-- The partition to which the packet at the head of queue `i` is charged: that of a request or of a collective packet;
transit, responses and control messages, which alone take queue 0, have none (R396, R423). -/
def payer (h : Nat × QPkt) : Option Nat := if h.1 = 0 then none else h.2.part

/-- The Sluice stage of the fabric half holds a packet of the partition: past its share with no BORROW, or with the window
full (R424). -/
def halfHolds (st p : Nat) (s : State) : Bool :=
  (sluiceClass st p s).isNone || decide (stageCap st s * 256 ≤ s.servedAll st)

/-- A packet may leave: it is charged to none, or its partition is not held and none of the port's other packets is of an
earlier class (R424). -/
def mayLeave (st : Nat) (heads : List (Nat × QPkt)) (h : Nat × QPkt) (s : State) : Bool :=
  match payer h with
  | none => true
  | some p => !halfHolds st p s && heads.all fun g => match payer g with
    | some r => halfHolds st r s || decide ((sluiceClass st p s).getD 0 ≤ (sluiceClass st r s).getD 0)
    | none => true

/-- The queue that is served next, among those whose packet may leave: strict ones first, then the smallest finish tag
(R395). -/
def nextQueue (q : Nat) (s : State) : Option (Nat × QPkt) :=
  let all := (s.fabPort q).heads
  let heads := all.filter fun h => mayLeave (9 + q / 18) all h s
  match heads.find? fun h => decide (h.1 < 4) with
  | some h => some h
  | none => match heads with
    | [] => none
    | h :: hs => some (hs.foldl (fun m y => if y.2.fin < m.2.fin then y else m) h)

/-- The packets that the stage of the port's half holds are noted, and the one that leaves is charged (R423, R424). -/
def halfServes (q : Nat) (h : Option (Nat × QPkt)) (s : State) : State :=
  let st := 9 + q / 18
  let s := ((s.fabPort q).heads.filterMap payer).foldl (fun s p => if halfHolds st p s then sluiceHeld st p s else s) s
  match h with
  | some h => (match payer h with
    | some p => sluiceCharge st p (wireBytes h.2.pkt) s
    | none => s)
  | none => s

/-- What the sender notes at a transmission: the first one of a packet, and of its request. -/
def noteSent (p : Packet) (s : State) : State :=
  let n := p.hdr.dst.toNat
  let x := s.peer n
  let fresh := x.sent.all fun o => o.first.isNone
  let s := s.setPeer n { x with
    advAt := if fresh then s.now else x.advAt
    sent := x.sent.map fun o => if o.pkt.hdr.seq = p.hdr.seq && o.first.isNone then { o with first := some s.now } else o }
  modFab (fun f => { f with reqs := f.reqs.map fun r =>
    if r.node = n && r.seqs.contains p.hdr.seq.toNat && r.first.isNone then { r with first := some s.now } else r }) s

/-- The packet is sequenced (R377). -/
def sequenced : PktBody → Bool
  | .write _ => true
  | .read => true
  | .atomic .. => true
  | .coll _ => true
  | _ => false

/-- A port sends its next packet, as words with their check bytes (R370); the sender's own packets take SEND_NS and the
incarnations at this transmission. With SYNC_OK = 0 an ATOMIC of its own stays behind, held (R383). -/
def packetSend (q : Nat) (s : State) : State :=
  let x := s.fabPort q
  if !fabOn s || !portUp q s then s else
  match nextQueue q s with
  | none => halfServes q none s
  | some (i, e) =>
    let s := (halfServes q (some (i, e)) s).setFabPort q { x with
      queues := Tab.set (fun _ => []) x.queues i (Tab.get (fun _ => []) x.queues i).tail
      vtime := if i < 4 then x.vtime else e.start }
    let own := e.pkt.hdr.src.toNat == ownNode s
    if own && isAtomicBody e.pkt.body && !s.syncOk then s else
    let p := if own then { e.pkt with hdr := { e.pkt.hdr with
        sendNs := BitVec.ofNat 40 s.now
        sinc := BitVec.ofNat 8 (s.rf .FAB_INC 7 0)
        dinc := BitVec.ofNat 8 (s.peer e.pkt.hdr.dst.toNat).dinc } } else e.pkt
    let s := if own && sequenced p.body then noteSent p s else s
    (s.count .FAB_PORT_CNT 63 32 q).emit (.packet q p (pktFlits p))

/-! ### Ports (R393, R394) -/

/-- A port goes down: its queues are lost, its paths DEAD. -/
def portGoesDown (q : Nat) (training : Bool) (s : State) : State :=
  let s := (s.putReg .FAB_PORT_STAT 1 0 (if training then 2 else 0) q).setFabPort q { s.fabPort q with queues := [] }
  portDead q (reeveCount 7 1 ((s.flag .FAB_PORT_ERR 0 q).flag .FAB_EVT 1))

/-- A write of FAB_PORT_CTL. -/
def fabPortCtlWrite (q : Nat) (v : Word) (s : State) : State :=
  let was := s.rb .FAB_PORT_CTL 63 q
  let s := wakeDom (42 + q / 18) (s.writePlain .FAB_PORT_CTL v q)
  if !was && bit v 63 then (s.putReg .FAB_PORT_STAT 1 0 2 q).setFabPort q { s.fabPort q with errAt := none }
  else if was && !bit v 63 then
    if portUp q s then portGoesDown q false s else s.putReg .FAB_PORT_STAT 1 0 0 q
  else s

/-- A port that is training trains with a peer; another peer than before kills its paths. A port that took itself down
does not train before its 10 ms are over (R393, R394). -/
def portTrained (q peer pport : Nat) (s : State) : State :=
  if !s.rb .FAB_PORT_CTL 63 q || s.rf .FAB_PORT_STAT 1 0 q != 2 then s else
  let x := s.fabPort q
  let s := (s.putReg .FAB_PORT_STAT 1 0 1 q).setReg .FAB_PORT_PEER (place 23 12 peer ||| place 5 0 pport) q
  let changed := x.peer.isSome && x.peer != some (peer, pport)
  let s := s.setFabPort q { x with peer := some (peer, pport), errs := 0, errAt := none }
  if changed then portDead q ((s.flag .FAB_PORT_ERR 1 q).flag .FAB_EVT 2) else s

def portLost (q : Nat) (s : State) : State := if portUp q s then portGoesDown q (s.rb .FAB_PORT_CTL 63 q) s else s

/-- The end of a 1 ms interval (R394). -/
def portInterval (q : Nat) (s : State) : State :=
  let x := s.fabPort q
  let m := s.rf .FAB_PORT_CTL 15 0 q
  let s := s.setFabPort q { x with errs := 0 }
  if portUp q s && m != 0 && decide (m < x.errs) then
    let s := (portGoesDown q false s).flag .FAB_PORT_ERR 2 q
    s.setFabPort q { s.fabPort q with errAt := some s.now }
  else s

/-- 10 ms after it took itself down, a port retrains (R394). -/
def portRetrain (q : Nat) (s : State) : State :=
  match (s.fabPort q).errAt with
  | some t =>
    if decide (t + 10000000 ≤ s.now) && s.rb .FAB_PORT_CTL 63 q then
      (s.putReg .FAB_PORT_STAT 1 0 2 q).setFabPort q { s.fabPort q with errAt := none }
    else s
  | none => s

/-! ### Path table updates (R373, R375, R399) -/

/-- FAB_PATH_UPD names node `n`: its entries are read again. -/
def pathUpdate (n : Nat) (s : State) : State :=
  let r := devRead (whoFab 0 none) (s.rf .FAB_PATH_BASE 51 5 * 32 + n * 32) 32 0 s
  let ws := match r.1 with
    | .ok bs => leWords bs
    | .error _ => []
  let s := r.2
  let live := (List.range 4).filter fun k => pathValid (ws.getD k 0) && portUp (pathPort (ws.getD k 0) 0) s
  let s := s.setPeer n { s.peer n with paths := ws, live := live }
  sendHeld n s

def pathUpdWrite (v : Word) (s : State) : State :=
  if bit v 63 then (List.range 4096).foldl (fun s n => pathUpdate n s) s else pathUpdate (fld v 11 0) s

/-- The value of FAB_PATH_QRES (R399). -/
def pathQres (s : State) : Word :=
  let x := s.peer (s.rf .FAB_PATH_Q 11 0)
  let m := fun (f : Nat → Bool) => ((List.range 4).filter f).foldl (fun a k => a + 2 ^ k) 0
  place 7 4 (m fun k => pathValid (x.path k)) ||| place 3 0 (m fun k => x.live.contains k)

/-! ### Sampling (R397) -/

def smpSize (s : State) : Nat := 2 ^ min 20 (max 6 (s.rf .FAB_SMP_CFG 4 0))

/-- A sample record of a queue, or a drop when the ring is full. -/
def sampleQueue (q i : Nat) (s : State) : State :=
  let tail := s.rf .FAB_SMP_TAIL 31 0
  let head := s.rf .FAB_SMP_HEAD 31 0
  if smpSize s ≤ (tail + 2 ^ 32 - head) % 2 ^ 32 then (s.count .FAB_SMP_CFG 47 32).flag .FAB_EVT 7
  else
    let ps := Tab.get (fun _ => []) (s.fabPort q).queues i
    let depth := ps.foldl (fun n p => n + wireBytes p.pkt) 0
    let delay := match ps.head? with
      | some p => s.now - p.at_
      | none => 0
    let w1 := place 63 58 q ||| place 57 54 i ||| place 51 24 (satNat 28 depth) ||| place 23 0 (satNat 24 delay)
    let s := (devWrite (whoFab q none) (s.rf .FAB_SMP_BASE 51 4 * 16 + tail % smpSize s * 16)
      (leBytes 8 (s.now % 2 ^ 64) ++ leBytes 8 w1.toNat) 0 s).2
    s.putReg .FAB_SMP_TAIL 31 0 (tail + 1)

/-- The sample of a microsecond. -/
def sampleTick (s : State) : State :=
  if s.now / 1000 = s.fab.sampled then s else
  let s := modFab (fun f => { f with sampled := s.now / 1000 }) s
  if !s.rb .FAB_SMP_CFG 63 then s
  else (List.range 36).foldl (fun s q => if s.rb .FAB_SMP_PORTS q then
    (List.range 16).foldl (fun s i => if s.rb .FAB_SMP_CFG (16 + i) then sampleQueue q i s else s) s else s) s

/-- A write of FAB_SMP_CFG: SIZE_LOG2 is clamped, and setting EN sets the indices to 0. -/
def smpCfgWrite (v : Word) (s : State) : State :=
  let was := s.rb .FAB_SMP_CFG 63
  let s := s.writePlain .FAB_SMP_CFG (putFld v 4 0 (min 20 (max 6 (fld v 4 0))))
  if bit v 63 && !was then (s.setReg .FAB_SMP_HEAD 0).setReg .FAB_SMP_TAIL 0 else s

/-! ### Reply cache (R389) -/

/-- The reply cache's state register: entries in use, and the peak since the last read (R399). -/
def rcPeak (s : State) : State :=
  let n := s.fab.cache.length
  (s.putReg .FAB_RC_STAT 12 0 n).putReg .FAB_RC_STAT 44 32 (max n (s.rf .FAB_RC_STAT 44 32))

/-- Entries 2 ms old are freed. -/
def cacheExpire (s : State) : State :=
  rcPeak (modFab (fun f => { f with cache := f.cache.filter fun e => decide (s.now < e.made + 2000000) }) s)

/-- A reset that covers a fabric half (R375, R380, R398): its ports go down with their queues, for half 0 the reply cache
is discarded, and every exchange in flight is resolved as after a NAK RESET. -/
def fabHalfReset (half : Nat) (s : State) : State :=
  let s := (List.range 18).foldl (fun s i =>
    let q := half * 18 + i
    portDead q (s.setFabPort q { s.fabPort q with queues := [], finish := [], vtime := 0 })) s
  let s := if half = 0 then rcPeak (modFab (fun f => { f with cache := [] }) s) else s
  let s := s.putReg .FAB_INC 7 0 (s.rf .FAB_INC 7 0 + 1)
  (peerNodes s).foldl (fun s n => resync n (s.setPeer n { s.peer n with
    sinc := none, expect := 0, held := [], unacked := 0 })) s

/-! ### The commands -/

def execPacketSend (port : Fin 36) (s : State) : Ans := .next (packetSend port s)
def execRetransmitTimeout (node : BitVec 12) (s : State) : Ans := .next (rtoExpires node.toNat s)
def execWriteLostTimeout (node : BitVec 12) (s : State) : Ans := .next (writesLate node.toNat s)

def execLoadTimeout (id : Nat) (s : State) : Ans :=
  .next (match reqById false id s with | some r => loadLate r s | none => s)

def execReadReissue (id : Nat) (s : State) : Ans :=
  .next (match reqById false id s with | some r => readAgain r s | none => s)

def execAtomicRetry (req : BitVec 32) (s : State) : Ans :=
  .next (match reqById true req.toNat s with | some r => atomicAgain r s | none => s)

def execAtomicTimeout (req : BitVec 32) (s : State) : Ans :=
  .next (match reqById true req.toNat s with | some r => atomicLate r s | none => s)

def execReplyCacheExpire (s : State) : Ans := .next (cacheExpire s)
def execFabPathUpd (v : Word) (s : State) : Ans := .next (pathUpdWrite v s)

def execPortTrained (port : Fin 36) (peer : BitVec 12) (peerPort : BitVec 6) (s : State) : Ans :=
  .next (portTrained port peer.toNat peerPort.toNat s)

def execPortDown (port : Fin 36) (s : State) : Ans := .next (portLost port s)
def execPortErrorInterval (port : Fin 36) (s : State) : Ans := .next (portInterval port s)
def execPortRetrain (port : Fin 36) (s : State) : Ans := .next (portRetrain port s)
def execSampleTick (s : State) : Ans := .next (sampleTick s)
def execFabSmpEnable (v : Word) (s : State) : Ans := .next (smpCfgWrite v s)

/-- A read of FAB_RC_STAT restarts the peak at the entries in use. -/
def execFabRcStatRead (s : State) : Ans :=
  .next ((s.putReg .FAB_RC_STAT 44 32 s.fab.cache.length).emit (.readData (addrOf .FAB_RC_STAT 0 0) (s.reg .FAB_RC_STAT)))

def execFabCntRead (s : State) : Ans := .next (s.readPlain .FAB_CNT)
def execFabCnt2Read (s : State) : Ans := .next (s.readPlain .FAB_CNT2)
def execFabPortCntRead (port : Fin 36) (s : State) : Ans := .next (s.readPlain .FAB_PORT_CNT port)
def execFabSmpCfgRead (s : State) : Ans := .next (s.readPlain .FAB_SMP_CFG)

/-- Everything in the fence's snapshot is acknowledged or given up: FENCEF returns (R392). -/
def execFencefComplete (t : Fin 128) (s : State) : Ans :=
  .next (match (s.core t).wait with
    | .fencef snap =>
      if s.enabled t && (s.tile t).run == .running && fenceDone snap s then
        s.modCore t fun c => { c with wait := .none }.next 4
      else s
    | _ => s)

/-- FENCEF waits for what the whole device has issued (R392). -/
def execFencef (t : Fin 128) (s : State) : Ans :=
  .next (runInstr t false (fun s => s.modCore t fun c => { c with wait := .fencef (fenceSnap s) }) s)

end Sys2Proof.Machine
end

