-- ==== Sys2Proof/Machine/CollBase.lean ====
section
/-! DEFINITION. The state of a program slot, its messages to other members, and the areas and staged slots of the
all-to-all exchange (11_collectives.md R336 to R346, R362 to R367). -/

namespace Sys2Proof.Machine

open Sys2Proof

/-- The Drover of hamlet `h`. -/
def State.drover (s : State) (h : Nat) : Drover := Tab.get (fun _ => Drover.reset) s.drv h

/-- The registers that a configuration version sets for a Drover, and their values in force: those that an activation
found while steps were in progress, until these have ended (R467; notes/assumptions/40.md). -/
def drvVersioned : List RegName := [.DRV_XCFG, .DRV_STAGE, .DRV_RXAREA, .DRV_RSTAGE, .DRV_RETAREA]

def drvConf (h k : Nat) (s : State) : Word :=
  match (s.drover h).kept with
  | some ws => wordAt ws k
  | none => s.reg (drvVersioned.getD k .DRV_XCFG) h

def xSelf (h : Nat) (s : State) : Nat := fld (drvConf h 0 s) 51 40

def State.prog (s : State) (p : Nat) : Prog := Tab.get (fun _ => Prog.reset) s.coll.progs p

def State.setProg (s : State) (p : Nat) (x : Prog) : State :=
  { s with coll := { s.coll with progs := Tab.set (fun _ => Prog.reset) s.coll.progs p x } }

def State.modProg (s : State) (p : Nat) (f : Prog → Prog) : State := s.setProg p (f (s.prog p))

/-! ### Registers -/

/-- The states of R353 and their codes. -/
def cpIdle : Nat := 0
def cpRunning : Nat := 1
def cpAwait : Nat := 2
def cpCommitted : Nat := 3
def cpAborted : Nat := 4
def cpFailed : Nat := 5

def cpState (p : Nat) (s : State) : Nat := s.rf .FAB_CP_STAT 2 0 p
def cpEpoch (p : Nat) (s : State) : Nat := s.rf .FAB_CP_EPOCH 31 0 p
def cpEn (p : Nat) (s : State) : Bool := s.rb .FAB_CP_CTL 63 p

/-- The owner partition of a program slot (R337). -/
def cpOwner (p : Nat) (s : State) : Option Nat :=
  if s.rb .FAB_CP_CTL 12 p then some (s.rf .FAB_CP_CTL 19 16 p) else none

def whoProg (p : Nat) (s : State) : Who := ⟨8, p, cpOwner p s⟩

/-- The run is in RUNNING or AWAIT. -/
def cpLive (p : Nat) (s : State) : Bool := cpState p s == cpRunning || cpState p s == cpAwait

/-! ### The program header (R339) -/

def pNph (h : List Word) : Nat := fld (wordAt h 0) 63 58 + 1
def pMode (h : List Word) : Nat := fld (wordAt h 0) 57 56
def pDf (h : List Word) : Nat := fld (wordAt h 0) 55 54
def pRed (h : List Word) : Nat := fld (wordAt h 0) 53 52
def pXonly (h : List Word) : Bool := bit (wordAt h 0) 51
def pMembers (h : List Word) : Nat := fld (wordAt h 0) 43 32 + 1
def pSelf (h : List Word) : Nat := fld (wordAt h 0) 11 0
def pTimeout (h : List Word) : Nat := fld (wordAt h 4) 31 0

/-- The mode with AUTO resolved (R339): 1 DATA, 2 FIXED. -/
def pResolved (h : List Word) : Nat := if pMode h = 0 then (if 64 < pMembers h then 2 else 1) else pMode h

/-! ### Members and messages (R340, R346) -/

/-- The entry of member `i`: BASE and NODE; none where it cannot be read. -/
def memberOf (p i : Nat) (s : State) : Option (Nat × Nat) × State :=
  let a := fld (wordAt (s.prog p).hdr 1) 51 0 + i * 16
  match devRead (whoProg p s) a 16 0x12 s with
  | (.ok bs, s) => (some (fld (wordAt (leWords bs) 0) 51 0, fld (wordAt (leWords bs) 1) 11 0), s)
  | (.error _, s) => (none, s)

/-- Data words and class of a message: control messages take queue 0 (R396). -/
def msgShape (p addr : Nat) (k : CollKind) (s : State) : Nat × Nat :=
  match k with
  | .data _ _ _ _ _ _ _ bs => (ceilDiv (addr % 32 + bs.length) 32, classOf 2 (cpOwner p s) s)
  | .slot _ _ _ _ _ _ bs => (ceilDiv bs.length 32, classOf 3 (cpOwner p s) s)
  | _ => (1, 0)

/-- Send a message of slot `p` to a node, at an address of that node, as part of an operation (or of none). -/
def sendColl (p node addr : Nat) (tag : PktTag) (k : CollKind) (s : State) : State :=
  let sh := msgShape p addr k s
  let part := cpOwner p s
  let m : CollMsg := ⟨Fin.ofNat 32 p, BitVec.ofNat 32 (cpEpoch p s), k⟩
  (issue node (fun seq => newHdr node sh.2 (keyOf part s) seq sh.1 0 1 addr s) (.coll m) part tag s).2

/-- Send a control message to a member, other than one on the node `not_`. One whose entry cannot be read has no node to
send to (notes/assumptions/167.md). -/
def sendControl (p member : Nat) (not_ : Option Nat) (k : CollKind) (s : State) : State :=
  match memberOf p member s with
  | (none, s) => s
  | (some m, s) => if not_ == some m.2 then s else sendColl p m.2 0 .none k s

/-! ### Areas, credits and staged slots (R364 to R366) -/

/-- The credit for (direction, set, rank) comes back to slot `p`. -/
def grantCredit (p : Nat) (dir : Bool) (set rank : Nat) (s : State) : State :=
  s.modProg p fun x => { x with owed := x.owed.filter fun c => c != (dir, set, rank) }

/-- An area is released: the credit of the slot that lies in it returns to the sender, if an exchange delivered it. -/
def releaseArea (h : Nat) (dir : Bool) (set src : Nat) (s : State) : State :=
  match s.coll.areas.find? fun a => a.ham == h && a.dir == dir && a.set == set && a.src == src with
  | none => s
  | some a =>
    let s := { s with coll := { s.coll with areas := s.coll.areas.filter fun b => b != a } }
    if a.node = ownNode s then grantCredit a.prog dir set src s
    else sendColl a.prog a.node 0 .none
      (.credit dir (BitVec.ofNat 2 set) (BitVec.ofNat 12 (xSelf h s))) s

/-- The staged slot for a rank waits for the receiver's acknowledgement, and is not to be staged into (R366). -/
def stagedBusy (h : Nat) (dir : Bool) (set rank : Nat) (s : State) : Bool := s.coll.staged.contains (h, dir, set, rank)

end Sys2Proof.Machine
end

