-- ==== Sys2Proof/Machine/Gleaner.lean ====
section
/-! DEFINITION. The step slots of a Drover, their staged slots and records, and the Gleaner's side of a HOME step: return
slots, contributions, finalising and completing (10_expert_routing.md R298 to R302, R313 to R316, R322 to R333). -/

namespace Sys2Proof.Machine

open Sys2Proof

/-! ### State and registers -/


def State.setDrover (s : State) (h : Nat) (x : Drover) : State :=
  { s with drv := Tab.set (fun _ => Drover.reset) s.drv h x }

def State.slot (s : State) (h i : Nat) : Option StepSlot := Tab.get (fun _ => none) (s.drover h).slots i

/-- Fill or free a step slot; with none occupied, nothing keeps an earlier configuration in force. -/
def State.setSlot (s : State) (h i : Nat) (x : Option StepSlot) : State :=
  let slots := Tab.set (fun _ => none) (s.drover h).slots i x
  s.setDrover h { s.drover h with slots := slots, kept := if slots.isEmpty then none else (s.drover h).kept }

def setHome (h i : Nat) (x : Home) (s : State) : State := s.setSlot h i (some (.home x))
def setRecv (h i : Nat) (x : Recv) (s : State) : State := s.setSlot h i (some (.recv x))

/-- Change a HOME step, if one is in the slot. -/
def modHome (h i : Nat) (f : Home → Home) (s : State) : State :=
  match s.slot h i with
  | some (.home x) => setHome h i (f x) s
  | _ => s

def modRecv (h i : Nat) (f : Recv → Recv) (s : State) : State :=
  match s.slot h i with
  | some (.recv x) => setRecv h i (f x) s
  | _ => s

def drvEn (h : Nat) (s : State) : Bool := s.rb .DRV_CTL 63 h
def drvPart (h : Nat) (s : State) : Nat := s.rf .DRV_CTL 19 16 h
def whoDrv (h : Nat) (s : State) : Who := whoUnit 9 h (drvPart h s)

def xNdev (h : Nat) (s : State) : Nat := fld (drvConf h 0 s) 63 52 + 1
def xSlotRows (h : Nat) (s : State) : Nat := 16 * (fld (drvConf h 0 s) 39 32 + 1)
def xRetRows (h : Nat) (s : State) : Nat := 16 * (fld (drvConf h 0 s) 31 24 + 1)
def xDrowb (h : Nat) (s : State) : Nat := fld (drvConf h 0 s) 23 13 + 1
def xRrowb (h : Nat) (s : State) : Nat := fld (drvConf h 0 s) 12 2 + 1
def xSets (h : Nat) (s : State) : Nat := fld (drvConf h 0 s) 1 0 + 1

/-- The sizes of the slots (R300). -/
def dispSize (h : Nat) (s : State) : Nat := 64 + 12 * xSlotRows h s + 32 * xSlotRows h s * xDrowb h s
def retSize (h : Nat) (s : State) : Nat := 64 + 8 * xRetRows h s + 32 * xRetRows h s * xRrowb h s

def slotSize (h : Nat) (dir : Bool) (s : State) : Nat := if dir then retSize h s else dispSize h s

/-- The address of a staged slot, and of an area (R300). -/
def stageAddr (h : Nat) (dir : Bool) (set d : Nat) (s : State) : Nat :=
  (if dir then fld (drvConf h 3 s) 51 5 else fld (drvConf h 1 s) 51 5) * 32 + (set * xNdev h s + d) * slotSize h dir s

def areaAddr (h : Nat) (dir : Bool) (set d : Nat) (s : State) : Nat :=
  (if dir then fld (drvConf h 4 s) 51 5 else fld (drvConf h 2 s) 51 5) * 32 + (set * xNdev h s + d) * slotSize h dir s

/-- The status of an engine error in a step (R330, R333). -/
def engStatus (e : Nat) : Nat := if e = 0x12 ∨ e = 0x11 then e else 0x13

/-- The status of a Drover's own access. -/
def memStatus (e : MemErr) : Nat := if e = .uncorr then 0x12 else 0x11

def drvRead (h a len : Nat) (s : State) : Except Nat (List Byte) × State :=
  match devRead (whoDrv h s) a len 0x12 s with
  | (.ok bs, s) => (.ok bs, s)
  | (.error e, s) => (.error (memStatus e), s)

/-- A write of a Drover or Gleaner. -/
def drvWrite (h a : Nat) (d : List Byte) (s : State) : State := (devWrite (whoDrv h s) a d 0x12 s).2

/-- Set event bits, by number, on the tiles of a Belfry mask of the hamlet, for the Drover's partition (R319, R327). -/
def drvSignal (h mask b : Nat) (s : State) : State :=
  deliverEvts (drvPart h s) (tilesOf (bellMask h mask s)) (1#32 <<< b) s

/-! ### Descriptor fields (R303) -/

def hMode (d : List Word) : Bool := bit (wordAt d 0) 59
def hGate (d : List Word) : Nat := fld (wordAt d 0) 58 57
def hCmode (d : List Word) : Nat := fld (wordAt d 0) 56 55
def hSfmt (d : List Word) : Bool := bit (wordAt d 0) 54
def hRfmt (d : List Word) : Bool := bit (wordAt d 0) 53
def hK (d : List Word) : Nat := fld (wordAt d 0) 52 50 + 1
def hShards (d : List Word) : Nat := fld (wordAt d 0) 49 47 + 1
def hShe (d : List Word) : Nat := fld (wordAt d 0) 46 45
def hGen (d : List Word) : Nat := fld (wordAt d 0) 31 0
def hBatch (d : List Word) : Nat := fld (wordAt d 1) 63 48
def hLayer (d : List Word) : Nat := fld (wordAt d 1) 47 32
def hStep (d : List Word) : Nat := fld (wordAt d 1) 31 0
def hT (d : List Word) : Nat := fld (wordAt d 2) 63 44 + 1
def hE (d : List Word) : Nat := fld (wordAt d 2) 43 32 + 1
def hFactor (d : List Word) : Nat := fld (wordAt d 2) 31 16
def hScores (d : List Word) : Nat := fld (wordAt d 3) 51 0
def hXrows (d : List Word) : Nat := fld (wordAt d 4) 51 0
def hXpitch (d : List Word) : Nat := fld (wordAt d 5) 63 40
def hScoreB (d : List Word) : Nat := if hSfmt d then 4 else 2
def hSpitch (d : List Word) : Nat :=
  if fld (wordAt d 5) 39 16 = 0 then ceilDiv (hE d * hScoreB d) 32 * 32 else fld (wordAt d 5) 39 16 * 32
def hAcc (d : List Word) : Nat := fld (wordAt d 6) 51 0
def hApitch (d : List Word) : Nat := fld (wordAt d 7) 63 40
def hN (d : List Word) : Nat := fld (wordAt d 7) 13 0 + 1
def hRoute (d : List Word) : Nat := fld (wordAt d 8) 51 0
def hShbuf (d : List Word) : Nat := fld (wordAt d 9) 51 0
def hShg (d : List Word) (i : Nat) : Nat := if i = 0 then fld (wordAt d 10) 63 32 else fld (wordAt d 10) 31 0
def hScratch (d : List Word) : Nat := fld (wordAt d 11) 51 0
def hFin (d : List Word) : Nat := (wordAt d 12).toNat
def hTbase (d : List Word) : Nat := fld (wordAt d 14) 31 0
def hEmap (d : List Word) : Nat := fld (wordAt d 15) 51 0

/-- C (R307). -/
def hCap (d : List Word) : Nat := min 4096 (max 1 (ceilDiv (hFactor d * hT d * hK d) (256 * hE d)))

/-- The result element size. -/
def hResB (d : List Word) : Nat := if hRfmt d then 4 else 2

/-! ### Records (R331 to R333) -/

/-- Raise a step's status. -/
def Home.raise (x : Home) (e : Nat) : Home := { x with status := max x.status e }

/-- The pairs of a step in a set of states. -/
def Home.pairsIn (x : Home) (p : Nat → Bool) : Nat :=
  x.toks.foldl (fun n t => n + (t.pairs.filter fun q => p q.st).length) 0

/-- The status of a completed HOME step (R333). -/
def Home.final (x : Home) : Nat :=
  let drops := if x.pairsIn (fun st => decide (4 ≤ st ∧ st ≤ 9)) ≠ 0 then 0x01 else 0
  let inc := if x.pairsIn (· == 10) ≠ 0 ∨ x.posted.length < hShe x.desc then 0x02 else 0
  max x.status (max drops inc)

/-- The status of a completed RECV step. -/
def Recv.final (x : Recv) : Nat :=
  max x.status (max (if x.drops ≠ 0 then 0x01 else 0) (if x.ovf ≠ 0 ∨ x.missing ≠ 0 then 0x02 else 0))

def homeRecord (i : Nat) (x : Home) (now : Nat) : List Word :=
  let d := x.desc
  [place 63 60 1 ||| place 59 56 i ||| place 55 48 x.final ||| place 47 32 (hBatch d) ||| place 31 0 (hGen d),
   place 63 32 (hStep d) ||| place 31 0 x.rows, BitVec.ofNat 64 now,
   place 63 48 (satNat 16 (x.pairsIn fun st => decide (4 ≤ st ∧ st ≤ 9))) |||
     place 47 32 (satNat 16 (x.pairsIn (· == 10))) ||| place 31 16 (satNat 16 x.unpick) ||| place 15 0 (hCap d)]

def recvRecord (i : Nat) (x : Recv) (now : Nat) : List Word :=
  [place 63 60 (fld (wordAt x.desc 0) 63 60) ||| place 59 56 i ||| place 55 48 x.final,
   place 63 32 (fld (wordAt x.desc 1) 31 0) ||| place 31 0 x.copies, BitVec.ofNat 64 now,
   place 63 48 (satNat 16 x.drops) ||| place 47 32 (satNat 16 x.ovf) ||| place 31 16 (satNat 16 x.missing)]

/-- The completion ring has room (R331). -/
def drvRoom (h : Nat) (s : State) : Bool :=
  s.rb .DRV_CQ_CFG 63 h &&
    decide (idxDiff (s.rf .DRV_CQ_TAIL 15 0 h) (s.rf .DRV_CQ_HEAD 15 0 h) < 2 ^ min 12 (max 4 (s.rf .DRV_CQ_CFG 3 0 h)))

/-- Write a record, advance the tail and ring the doorbell (R331). -/
def drvPutRecord (h : Nat) (rec : List Word) (s : State) : State :=
  let tail := s.rf .DRV_CQ_TAIL 15 0 h
  let a := s.rf .DRV_CQ_BASE 51 5 h * 32 + tail % 2 ^ min 12 (max 4 (s.rf .DRV_CQ_CFG 3 0 h)) * 32
  let s := drvWrite h a (rec.flatMap fun x => leBytes 8 x.toNat) s
  ringReg .DRV_CQ_DB h 0 (s.putReg .DRV_CQ_TAIL 15 0 (tail + 1) h)

/-- The step in a slot has ended, and its record waits. -/
def slotEnded (h i : Nat) (s : State) : Bool :=
  match s.slot h i with
  | some (.home x) => x.ph == .ended
  | some (.recv x) => x.ended
  | none => false

/-- Write the record of an ended step, set its bits, and free its slot (R327, R331). A RECV step that was returned or
stopped releases its set; one refused when it was posted never had it (R318). -/
def finishSlot (h i : Nat) (s : State) : State :=
  if !slotEnded h i s || !drvRoom h s then s else
  match s.slot h i with
  | some (.home x) =>
    let s := (drvPutRecord h (homeRecord i x s.now) s).flagIf (decide (0x10 ≤ x.final)) .DRV_ERR 4 h
    let d := wordAt x.desc 13
    let s := drvSignal h (fld d 53 50) (fld d 63 59) s
    let s := if 2 ≤ x.final then drvSignal h (fld d 53 50) (fld d 58 54) s else s
    s.setSlot h i none
  | some (.recv x) =>
    let s := (drvPutRecord h (recvRecord i x s.now) s).flagIf (decide (0x10 ≤ x.final)) .DRV_ERR 4 h
    let set := fld (wordAt x.desc 1) 31 0 % xSets h s
    let s := s.setSlot h i none
    if !x.retd then s
    else s.setDrover h { s.drover h with arrivals := (s.drover h).arrivals.filter fun a => a.1 != set }
  | none => s

/-- The records that wait, as far as the ring has room. -/
def drvFlush (h : Nat) (s : State) : State := (List.range 16).foldl (fun s i => finishSlot h i s) s

/-! ### The route table (R313) -/

/-- An entry of the route table. -/
def routeEntry (p : Pair) : Word := place 63 52 p.expert ||| place 51 48 p.st ||| place 31 0 p.g

/-- A token's row. -/
def routeRow (t : Tok) : List Byte :=
  (List.range 8).flatMap fun i => leBytes 8 (match t.pairs[i]? with
    | some p => (routeEntry p).toNat
    | none => 0)

/-- Change pair `i` of token `t`, and its entry in memory. -/
def setPair (h i t j : Nat) (f : Pair → Pair) (s : State) : State :=
  match s.slot h i with
  | some (.home x) =>
    match x.toks[t]? with
    | none => s
    | some tk =>
      match tk.pairs[j]? with
      | none => s
      | some p =>
        let p' := f p
        let s := setHome h i { x with toks := x.toks.set t { tk with pairs := tk.pairs.set j p' } } s
        let s := if p'.st = 9 ∧ p.st ≠ 9 then s.count .GLN_CNT2 15 0 h
          else if p'.st = 10 ∧ p.st ≠ 10 then s.count .GLN_CNT 15 0 h
          else if p'.st = 8 ∧ p.st ≠ 8 then s.count .GLN_CNT2 63 48 h else s
        drvWrite h (hRoute x.desc + t * 64 + j * 8) (leBytes 8 (routeEntry p').toNat) s
  | _ => s

def modTok (h i t : Nat) (f : Tok → Tok) (s : State) : State :=
  modHome h i (fun x => match x.toks[t]? with
    | some tk => { x with toks := x.toks.set t (f tk) }
    | none => x) s

/-- Every (token, pair) of a step. -/
def Home.allPairs (x : Home) : List (Nat × Nat × Pair) :=
  x.toks.zipIdx.flatMap fun t => t.1.pairs.zipIdx.map fun p => (t.2, p.2, p.1)

/-! ### Staging (R315, R316) -/

/-- A slot header. -/
def slotHdr (kind ham src count gen : Nat) (w1 : Word) : List Byte :=
  leBytes 8 (place 63 60 kind ||| place 59 57 ham ||| place 56 45 src ||| place 44 32 count ||| place 31 0 gen).toNat ++
    leBytes 8 w1.toNat ++ List.replicate 48 0

/-- The header of a HOME step's slot. -/
def homeHdr (h count : Nat) (d : List Word) (s : State) : List Byte :=
  slotHdr 1 h (xSelf h s) count (hGen d) (wordAt d 1)

/-- A GATHER of the issuer's own index list (R278): rows of `rowb` 32-byte units. -/
def gatherDesc (n rowb spitch limit src dst : Nat) : List Word :=
  [place 63 58 0x01 ||| place 31 31 1 ||| place 20 0 (n - 1), place 51 0 src, place 51 0 dst, 0,
   place 63 53 (rowb - 1) ||| place 47 24 spitch ||| place 23 0 rowb, place 31 0 limit, 0, 0]

/-- The set of a HOME step. -/
def homeSet (h : Nat) (d : List Word) (s : State) : Nat := hStep d % xSets h s

/-- The header of a slot goes out, and its staging has ended. -/
def homeStaged (h i rank count : Nat) (s : State) : State :=
  match s.slot h i with
  | some (.home x) =>
    let s := drvWrite h (stageAddr h false (homeSet h x.desc s) rank s) (homeHdr h count x.desc s) s
    modHome h i (fun x => { x with staging := x.staging.filter (·.rank != rank), rows := x.rows + count }) s
  | _ => s

/-- Begin to stage one slot of a HOME step, unless it waits for an acknowledgement (R316, R366). -/
def stageHome (h i : Nat) (g : Stage) (s : State) : State :=
  match s.slot h i with
  | some (.home x) =>
    let set := homeSet h x.desc s
    if g.fly || stagedBusy h false set g.rank s then s
    else if g.toks.isEmpty || x.ph == .cancelled then homeStaged h i g.rank 0 s
    else
      let a := stageAddr h false set g.rank s
      let masks := g.toks.flatMap fun t => leBytes 8 ((match x.toks[t]? with
        | some tk => tk.pairs.foldl (fun m p => if p.rank = g.rank ∧ p.st = 1 then m ||| 2 ^ p.loc else m) 0
        | none => 0))
      let s := drvWrite h (a + 64) masks s
      let s := drvWrite h (a + 64 + 8 * xSlotRows h s)
        (g.toks.flatMap fun t => leBytes 4 ((hTbase x.desc + t) % 2 ^ 32)) s
      let dst := a + 64 + 12 * xSlotRows h s
      let s := modHome h i (fun x => { x with
        inFly := x.inFly + 1
        staging := x.staging.map fun y => if y.rank = g.rank then { y with fly := true } else y }) s
      seIssue (engineOf a s) (drvPart h s) (.stage h i g.rank)
        (gatherDesc g.toks.length (xDrowb h s) (hXpitch x.desc) (hT x.desc) (hXrows x.desc) dst) g.toks [] s
  | _ => s

/-- Stage whatever a HOME step still has to stage. -/
def stageHomes (h i : Nat) (s : State) : State :=
  match s.slot h i with
  | some (.home x) => x.staging.foldl (fun s g => stageHome h i g s) s
  | _ => s

/-- The row at which a failed command stopped: its first, where it never ran (R277). -/
def SeCmd.stoppedAt (c : SeCmd) : Nat := if c.started && c.firstBad != 0xFFFFFFFF then c.firstBad else 0

/-- The staging GATHER of a slot has ended (R316): a stop leaves COUNT at its row and drops the later rows' pairs. -/
def stageDone (h i rank : Nat) (c : SeCmd) (s : State) : State :=
  match s.slot h i with
  | some (.home x) =>
    let toks := match x.staging.find? fun g => g.rank == rank with
      | some g => g.toks
      | none => []
    let s := modHome h i (fun x => { x with inFly := x.inFly - 1 }) s
    if x.ph == .cancelled then homeStaged h i rank 0 s
    else if c.status < 0x10 then homeStaged h i rank toks.length s
    else
      let s := modHome h i (fun x => x.raise (engStatus c.status)) s
      let s := (toks.drop c.stoppedAt).foldl (fun s t => match x.toks[t]? with
        | some tk => (List.range tk.pairs.length).foldl (fun s j =>
            setPair h i t j (fun p => if p.rank = rank ∧ p.st = 1 then { p with st := 9 } else p) s) s
        | none => s) s
      homeStaged h i rank c.stoppedAt s
  | _ => s

/-! ### Contributions (R325, R326) -/

/-- The FP32 sum and quotient of two values, each rounded once. -/
def f32Add (a b : Nat) : Nat := fFP32.encode ((fFP32.decode a).add (fFP32.decode b))

def f32Sub (a b : Nat) : Nat := fFP32.encode ((fFP32.decode a).add (fFP32.decode b).neg)

/-- The quotient of two values, with a last binary digit that stands for what is left over. -/
def FVal.div : FVal → FVal → FVal
  | .nan, _ => .nan
  | _, .nan => .nan
  | .inf _, .inf _ => .nan
  | .inf a, .fin b _ _ => .inf (a != b)
  | .fin a _ _, .inf b => .fin (a != b) 0 0
  | .fin a m e, .fin b n f =>
    if n = 0 then (if m = 0 then .nan else .inf (a != b))
    else
      let x := m * 2 ^ 64
      .fin (a != b) (2 * (x / n) + (if x % n = 0 then 0 else 1)) (e - f - 65)

def f32Div (a b : Nat) : Nat := fFP32.encode ((fFP32.decode a).div (fFP32.decode b))

/-- D of a token: the sum of g over its HELD entries, in rank order (R326). -/
def tokSum (t : Tok) : Option Nat :=
  (t.pairs.filter (·.st == 2)).foldl (fun a p => match a with
    | none => some p.g
    | some x => some (f32Add x p.g)) none

/-- What R326 fixes for a token none of whose entries is SENT. -/
def renormOf (t : Tok) : Renorm :=
  match tokSum t with
  | none => .skip
  | some d => if t.pairs.all fun p => decide (p.st < 4) then .keep
      else if (fFP32.decode d).isZero then .skip else .by d

/-- The weight with which a pair is applied. -/
def pairG (t : Tok) (p : Pair) : Nat :=
  match t.norm with
  | some (.by d) => f32Div p.g d
  | _ => p.g

/-- A token has a contribution in flight. -/
def Tok.busy (t : Tok) : Bool := t.sh0 == 1 || t.sh1 == 1 || t.pairs.any (·.fly)

def Tok.sh (t : Tok) (i : Nat) : Nat := if i = 0 then t.sh0 else t.sh1

def Tok.setSh (t : Tok) (i v : Nat) : Tok := if i = 0 then { t with sh0 := v } else { t with sh1 := v }

/-- A pair that is HELD and may still be applied. -/
def Tok.canApply (t : Tok) (p : Pair) : Bool := p.st == 2 && !p.fly && t.norm != some .skip

/-- What a RANKED token does next (R325): contribution `i` of the list 0, 1 (shared), 2 on (routed), or nothing yet. -/
def rankedNext (x : Home) (t : Tok) : Option Nat :=
  if t.busy then none else
  let sh := fun (i : Nat) => if hShe x.desc ≤ i then some false
    else if t.sh i = 0 then (if x.posted.contains i then some true else none) else some false
  match sh 0 with
  | none => none
  | some true => some 0
  | some false => match sh 1 with
    | none => none
    | some true => some 1
    | some false =>
      if hCmode x.desc = 2 ∧ (t.pairs.any (·.st == 1)) then none
      else match t.pairs.zipIdx.find? fun p => p.1.st == 1 || t.canApply p.1 with
        | some (p, j) => if p.st = 1 then none else some (j + 2)
        | none => none

/-- What an ARRIVAL token may issue: every contribution that is there. -/
def arrivalNext (x : Home) (t : Tok) : Option Nat :=
  match (List.range (hShe x.desc)).find? fun i => t.sh i == 0 && x.posted.contains i with
  | some i => some i
  | none => (t.pairs.zipIdx.find? fun p => t.canApply p.1).map fun p => p.2 + 2

/-- Issue contribution `c` of token `t` as a COMBINE (R325). -/
def issueCombine (h i t c : Nat) (x : Home) (tk : Tok) (s : State) : State :=
  let d := x.desc
  let acc := hAcc d + t * hApitch d * 32
  let gr := if c < 2 then (hShg d c, hShbuf d + (c * hT d + t) * xRrowb h s * 32)
    else match tk.pairs[c - 2]? with
      | some p => (pairG tk p, p.row)
      | none => (0, 0)
  let tk' := if c < 2 then tk.setSh c 1
    else { tk with pairs := tk.pairs.zipIdx.map fun p => if p.2 + 2 = c then { p.1 with fly := true } else p.1 }
  let s := modTok h i t (fun _ => tk') (modHome h i (fun x => { x with inFly := x.inFly + 1 }) s)
  seIssue (engineOf acc s) (drvPart h s) (.combine h i t c)
    [place 63 58 0x18 ||| place 31 31 (hRfmt d).toNat, 0, 0, 0, place 47 24 (ceilDiv (hN d * hResB d) 32),
      place 13 0 (hN d - 1), 0, 0] []
    [(acc, gr.1, gr.2)] s

/-- Issue what a token may have issued now. -/
def pumpTok (h i t : Nat) : Nat → State → State
  | 0, s => s
  | n + 1, s =>
    match s.slot h i with
    | some (.home x) =>
      match x.toks[t]? with
      | none => s
      | some tk =>
        if tk.dead || x.ph == .cancelled || x.ph == .ended then s
        else if hCmode x.desc = 2 ∧ tk.norm = none ∧ x.ph ≠ .select ∧ (tk.pairs.all fun p => decide (2 ≤ p.st)) then
          let r := renormOf tk
          let s := modTok h i t (fun tk => { tk with norm := some r }) s
          let s := match r with
            | .keep => s
            | .by _ => s.count .GLN_CNT2 47 32 h
            | .skip => s.count .GLN_CNT2 31 16 h
          pumpTok h i t n s
        else match if hCmode x.desc = 0 then arrivalNext x tk else rankedNext x tk with
          | none => s
          | some c => pumpTok h i t n (issueCombine h i t c x tk s)
    | _ => s

/-- Issue what the tokens of a step may have issued. -/
def pumpHome (h i : Nat) (s : State) : State :=
  match s.slot h i with
  | some (.home x) => (List.range x.toks.length).foldl (fun s t => pumpTok h i t 12 s) s
  | _ => s

/-- Release the return areas whose rows nothing waits for (R322). -/
def releaseReturns (h i : Nat) (s : State) : State :=
  match s.slot h i with
  | some (.home x) =>
    let wanted := fun (dev : Nat) => x.ph != .ended && x.toks.any fun t =>
      t.pairs.any fun p => p.rank == dev && (p.fly || (p.st == 2 && t.norm != some .skip && !t.dead && x.ph != .cancelled))
    let gone := x.areas.filter fun a => !wanted a.2.2.2
    let s := setHome h i { x with areas := x.areas.filter fun a => wanted a.2.2.2 } s
    gone.foldl (fun s a => releaseArea a.1 true a.2.1 a.2.2.1 s) s
  | _ => s

/-! ### Finalising and completing (R327, R328) -/

/-- The contents of the accumulator rows and the route table are not guaranteed (R328). -/
def loseHome (x : Home) (s : State) : State :=
  let d := x.desc
  let s := s.loseRegion (hRoute d) (hT d * 64)
  (List.range (hT d)).foldl (fun s t => s.loseRegion (hAcc d + t * hApitch d * 32) (hN d * 4)) s

/-- Nothing of a finalising step is left to do. -/
def Home.drained (x : Home) : Bool :=
  x.inFly == 0 && x.shards == 0 && x.staging.isEmpty &&
    (x.ph == .cancelled || x.toks.all fun t => t.dead || (!t.busy && !(t.pairs.any fun p => t.canApply p) &&
      !((List.range (hShe x.desc)).any fun i => t.sh i == 0 && x.posted.contains i)))

/-- Complete a step that is finalising or cancelled, once its commands have completed. -/
def completeHome (h i : Nat) (s : State) : State :=
  match s.slot h i with
  | some (.home x) =>
    if (x.ph == .final || x.ph == .cancelled) && x.drained then
      let none_ := (x.toks.filter fun t => !(t.pairs.any (·.st == 3))).length
      let s := if x.ph == .cancelled then loseHome x s
        else if hCmode x.desc = 2 ∨ 0x10 ≤ x.status ∧ x.toks.isEmpty then s else s.count .GLN_CNT2 31 16 h 0 none_
      finishSlot h i (releaseReturns h i (modHome h i (fun x => { x with ph := .ended }) s))
    else s
  | _ => s

/-- A shared expert that is not posted contributes nothing (R327). -/
def giveUpShared (x : Home) (t : Tok) : Tok :=
  (List.range (hShe x.desc)).foldl (fun t k => if t.sh k == 0 && !x.posted.contains k then t.setSh k 3 else t) t

/-- Begin to finalise (R327): the generation is retired, SENT entries become LOST, HELD ones are applied. -/
def beginFinal (h i : Nat) (s : State) : State :=
  match s.slot h i with
  | some (.home x) =>
    let s := modHome h i (fun x => { x with ph := .final }) s
    let s := x.allPairs.foldl (fun s p =>
      if p.2.2.st = 1 then setPair h i p.1 p.2.1 (fun q => { q with st := 10 }) s else s) s
    let s := modHome h i (fun x => { x with toks := x.toks.map (giveUpShared x) }) s
    completeHome h i (releaseReturns h i (pumpHome h i s))
  | _ => s

/-- Every return slot has been handled and every shared expert posted: finalise (R327). -/
def tryFinal (h i : Nat) (s : State) : State :=
  match s.slot h i with
  | some (.home x) =>
    if x.ph == .open && decide (xNdev h s ≤ x.returned.length ∧ hShe x.desc ≤ x.posted.length) then beginFinal h i s
    else completeHome h i s
  | _ => s

/-- What follows any change of a HOME step. -/
def homeGoesOn (h i : Nat) (s : State) : State := tryFinal h i (releaseReturns h i (pumpHome h i (stageHomes h i s)))

/-- A COMBINE of a contribution has ended (R325, R330). -/
def combineDone (h i t c : Nat) (cmd : SeCmd) (s : State) : State :=
  let s := modHome h i (fun x => { x with inFly := x.inFly - 1 }) s
  let bad := decide (0x10 ≤ cmd.status)
  let s := if bad then modHome h i (fun x => x.raise (engStatus cmd.status)) s else s
  let s := if c < 2 then modTok h i t (fun tk => tk.setSh c (if bad then 3 else 2)) s
    else setPair h i t (c - 2) (fun p => { p with st := if bad then 9 else 3, fly := false }) s
  let s := if bad && cmd.aux == 1 then
      let s := modTok h i t (fun tk => { tk with dead := true }) s
      (List.range 8).foldl (fun s j =>
        setPair h i t j (fun p => if (p.st = 1 ∨ p.st = 2) ∧ !p.fly then { p with st := 9 } else p) s) s
    else s
  homeGoesOn h i s

/-! ### Return slots (R322, R323) -/

/-- The HOME step of a hamlet that a batch and generation name, and that takes returns and posts. -/
def homeOf (h batch gen : Nat) (s : State) : Option (Nat × Home) :=
  (List.range 16).findSome? fun i => match s.slot h i with
    | some (.home x) => if hBatch x.desc = batch ∧ hGen x.desc = gen ∧ (x.ph = .select ∨ x.ph = .open) then some (i, x)
        else none
    | _ => none

/-- The entry of a token whose expert a device holds as a local number. -/
def entryOf (tk : Tok) (dev loc : Nat) : Option Nat := tk.pairs.findIdx? fun p => p.rank == dev && p.loc == loc

/-- One tag of an accepted slot: `row` is the address of row `j` (R323). -/
def takeTag (h i dev : Nat) (tag : Word) (row : Nat) (s : State) : State :=
  match s.slot h i with
  | some (.home x) =>
    let t := (fld tag 31 0 + 2 ^ 32 - hTbase x.desc) % 2 ^ 32
    match x.toks[t]? with
    | none => s.count .GLN_CNT 47 32 h
    | some tk => match entryOf tk dev (fld tag 59 54) with
      | none => s.count .GLN_CNT 47 32 h
      | some j =>
        match tk.pairs[j]? with
        | none => s
        | some p =>
          if p.st ≠ 1 then s.count .GLN_CNT 31 16 h
          else setPair h i t j (fun p => match fld tag 63 60 with
            | 0 => { p with st := 2, row := row }
            | 1 => { p with st := 7 }
            | 2 => { p with st := 8 }
            | _ => { p with st := 9 }) s
  | _ => s

/-- A return slot has arrived in an area of hamlet `h` (R322, R323). -/
def returnArrive (h set src : Nat) (s : State) : State :=
  let a := areaAddr h true set src s
  let r := drvRead h a 64 s
  let s := r.2
  let w := match r.1 with
    | .ok bs => leWords bs
    | .error _ => []
  let g := fld (wordAt w 0) 59 57
  let count := min (xRetRows h s) (fld (wordAt w 0) 44 32)
  let dev := fld (wordAt w 0) 56 45
  match (if drvEn g s && !w.isEmpty then homeOf g (fld (wordAt w 1) 63 48) (fld (wordAt w 0) 31 0) s else none) with
  | none => releaseArea h true set src (s.count .GLN_CNT 63 48 g 0 count)
  | some (i, _) =>
    let rt := drvRead h (a + 64) (8 * count) s
    let s := rt.2
    let tags := match rt.1 with
      | .ok bs => leWords bs
      | .error _ => []
    let s := match rt.1 with
      | .ok _ => s
      | .error e => modHome g i (fun x => x.raise e) s
    let s := modHome g i (fun x => { x with
      areas := x.areas ++ [(h, set, src, dev)]
      returned := if x.returned.contains dev then x.returned else x.returned ++ [dev] }) s
    let s := tags.zipIdx.foldl (fun s tg =>
      takeTag g i dev tg.1 (a + 64 + 8 * xRetRows h s + tg.2 * 32 * xRrowb h s) s) s
    let s := match s.slot g i with
      | some (.home x) => x.allPairs.foldl (fun s p =>
          if p.2.2.st = 1 ∧ p.2.2.rank = dev then setPair g i p.1 p.2.1 (fun q => { q with st := 10 }) s else s) s
      | _ => s
    homeGoesOn g i s

/-! ### Shared experts, deadlines, cancels (R324, R327 to R329) -/

/-- DRV_SH_POST. -/
def sharedPost (h : Nat) (v : Word) (s : State) : State :=
  let k := fld v 32 32
  match homeOf h (fld v 63 48) (fld v 31 0) s with
  | some (i, x) =>
    if hShe x.desc ≤ k ∨ x.posted.contains k then s.flag .DRV_ERR 1 h
    else homeGoesOn h i (modHome h i (fun x => { x with posted := x.posted ++ [k] }) s)
  | none => s.flag .DRV_ERR 1 h

/-- FIN_NS passes (R327). -/
def finExpires (h i : Nat) (s : State) : State :=
  match s.slot h i with
  | some (.home x) =>
    if (x.ph == .open || x.ph == .select) && hFin x.desc != 0 && decide (hFin x.desc ≤ s.now) then beginFinal h i s else s
  | _ => s

/-- Slots not yet taken by the exchange get COUNT 0 (R328). -/
def voidStaged (h : Nat) (x : Home) (s : State) : State :=
  (List.range (xNdev h s)).foldl (fun s d =>
    let set := homeSet h x.desc s
    let a := stageAddr h false set d s
    let mine := match (drvRead h a 16 s).1 with
      | .ok bs =>
        let w := leWords bs
        fld (wordAt w 0) 63 60 == 1 && fld (wordAt w 0) 31 0 == hGen x.desc && wordAt w 1 == wordAt x.desc 1
      | .error _ => false
    if mine && !stagedBusy h false set d s then drvWrite h a (homeHdr h 0 x.desc s) s else s) s

/-- A HOME step is cancelled or stopped (R328, R329). -/
def endHome (h i status : Nat) (s : State) : State :=
  match s.slot h i with
  | some (.home x) =>
    if x.ph == .ended then s else
    let s := voidStaged h x s
    let s := modHome h i (fun x => { (x.raise status) with ph := .cancelled }) s
    completeHome h i (releaseReturns h i (stageHomes h i s))
  | _ => s

/-- DRV_CANCEL. -/
def drvCancel (h : Nat) (v : Word) (s : State) : State :=
  match homeOf h (fld v 63 48) (fld v 31 0) s with
  | some (i, _) => endHome h i 0x03 s
  | none => s.flag .DRV_ERR 2 h

end Sys2Proof.Machine
end

