-- ==== Sys2Proof/Machine/Drover.lean ====
section
/-! DEFINITION. The Drover: posts and their checks, selection, gate weights and the route table, the receiving side and
its returns, and what the completion of an engine's command does (10_expert_routing.md R302 to R320, R328 to R335). The
commands themselves are in Machine/Collectives.lean, where the exchange goes on after each of them. -/

namespace Sys2Proof.Machine

open Sys2Proof

/-! ### Checks of a HOME descriptor (R303, R304) -/

/-- Masks of the reserved bits of words 0 to 15. -/
def homeReserved (d : List Word) : List Word :=
  let hi := fmask 63 52
  [fmask 44 32, 0, fmask 15 0, hi, hi, fmask 15 0, hi, fmask 39 14, hi, if hShe d = 0 then BitVec.allOnes 64 else hi, 0, hi,
   0, fmask 49 0, fmask 63 32, hi]

/-- An accumulator row crosses a 64 KiB page boundary. -/
def accCrosses (d : List Word) : Bool :=
  (List.range (hT d)).any fun t => decide (65536 < (hAcc d + t * hApitch d * 32) % 65536 + hN d * 4)

/-- The other HOME steps of the Drover hold this batch. -/
def batchHeld (h b : Nat) (s : State) : Bool :=
  (List.range 16).any fun i => match s.slot h i with
    | some (.home x) => hBatch x.desc == b
    | _ => false

/-- A RECV step of the Drover holds this STEP. -/
def stepHeld (h n : Nat) (s : State) : Bool :=
  (List.range 16).any fun i => match s.slot h i with
    | some (.recv x) => fld (wordAt x.desc 0) 63 60 == 2 && fld (wordAt x.desc 1) 31 0 == n
    | _ => false

def homeBad (h : Nat) (d : List Word) (s : State) : Bool :=
  ((homeReserved d).zipIdx.any fun m => (wordAt d m.2 &&& m.1) != 0) ||
    hGate d == 3 || hCmode d == 3 || hShe d == 3 || hFactor d == 0 || hN d % 8 != 0 ||
    decide (hXpitch d < xDrowb h s) || decide (hSpitch d < hE d * hScoreB d) ||
    (!hMode d && decide (hE d < hK d)) || decide (xRrowb h s * 32 < hN d * hResB d) || accCrosses d ||
    batchHeld h (hBatch d) s

/-- The scratch bytes of a shard in expert choice (R303). -/
def ecShard (d : List Word) : Nat := hE d * hCap d * 8 + ceilDiv (hE d * 4) 32 * 32

/-- The regions of a HOME step, with their alignments. -/
def homeRegions (h : Nat) (d : List Word) (s : State) : List (Nat × Nat × Nat) :=
  [(hScores d, extent (hT d) (hSpitch d) (hE d * hScoreB d), 32),
   (hXrows d, extent (hT d) (hXpitch d * 32) (xDrowb h s * 32), 32),
   (hAcc d, extent (hT d) (hApitch d * 32) (hN d * 4), 32), (hRoute d, hT d * 64, 64),
   (hScratch d, if hMode d then hShards d * ecShard d else hT d * hK d * 8, 32), (hEmap d, hE d * 4, 4)] ++
    (if hShe d = 0 then [] else [(hShbuf d, hShe d * hT d * xRrowb h s * 32, 32)])

/-- A region is misaligned, or partly or wholly outside what the partition holds (R304). -/
def outside (h : Nat) (rs : List (Nat × Nat × Nat)) (s : State) : Bool :=
  rs.any fun r => r.1 % r.2.2 != 0 || (rangeCheck (some (drvPart h s)) r.1 r.2.1 s).isSome

/-! ### Posting (R302 to R306) -/

/-- A HOME step that has just been taken. -/
def newHome (d : List Word) : Home :=
  { desc := d, ph := .select, shards := 0, selBad := false
    toks := List.replicate (hT d) ⟨[], 0, 0, false, none⟩
    staging := [], rows := 0, returned := [], areas := [], posted := [], inFly := 0, status := 0, unpick := 0 }

/-- Every slot of the domain with no rows. -/
def emptyStages (h : Nat) (s : State) : List Stage := (List.range (xNdev h s)).map fun d => ⟨d, [], [], [], false⟩

/-- The rows of a shard (R306). -/
def shardRows (d : List Word) : Nat := ceilDiv (hT d) (hShards d)

/-- The SELECT of a shard (R281, R282, R306). -/
def selectDesc (d : List Word) (k : Nat) : List Word :=
  let first := k * shardRows d
  let n := min (hT d) (first + shardRows d) - first
  let w4 := place 63 44 (n - 1) ||| place 23 0 (hSpitch d / 32)
  let w1 := place 51 0 (hScores d + first * hSpitch d)
  if hMode d then
    let out := hScratch d + k * ecShard d
    [place 63 58 0x08 ||| place 31 31 (hSfmt d).toNat ||| place 27 16 (hCap d - 1) ||| place 11 0 (hE d - 1), w1,
     place 51 0 out, place 51 0 (out + hE d * hCap d * 8), w4, place 31 0 (hTbase d + first), 0, 0]
  else
    [place 63 58 0x09 ||| place 31 31 (hSfmt d).toNat ||| place 30 28 (hK d - 1) ||| place 11 0 (hE d - 1), w1,
     place 51 0 (hScratch d + first * hK d * 8), 0, w4, 0, 0, 0]

/-- Issue the SELECTs of a step. -/
def startSelect (h i : Nat) (d : List Word) (s : State) : State :=
  let ks := (List.range (hShards d)).filter fun k => decide (k * shardRows d < hT d)
  let s := modHome h i (fun x => { x with shards := ks.length }) s
  ks.foldl (fun s k => seIssue (engineOf (hScores d + k * shardRows d * hSpitch d) s) (drvPart h s) (.select h i k)
    (selectDesc d k) [] [] s) s

/-- A HOME step is taken: the highest status that applies is its own (R304, R333). -/
def takeHome (h i : Nat) (d : List Word) (s : State) : State :=
  let st := if outside h (homeRegions h d s) s then 0x11 else if homeBad h d s then 0x10 else 0
  if st = 0 then startSelect h i d (setHome h i (newHome d) s)
  else
    let x := { newHome d with ph := .final, toks := [], status := st, staging := emptyStages h s }
    completeHome h i (stageHomes h i (setHome h i x s))

/-! ### Fields of a RECV descriptor (R317) -/

def vExp (d : List Word) : Nat := fld (wordAt d 0) 59 54 + 1
def vCap (d : List Word) : Nat := 16 * (fld (wordAt d 0) 53 46 + 1)
def vEstride (d : List Word) : Nat := fld (wordAt d 0) 39 0
def vStep (d : List Word) : Nat := fld (wordAt d 1) 31 0
def vEbuf (d : List Word) : Nat := fld (wordAt d 2) 51 0
def vObuf (d : List Word) : Nat := fld (wordAt d 3) 51 0
def vCnt (d : List Word) : Nat := fld (wordAt d 4) 51 0
def vMap (d : List Word) : Nat := fld (wordAt d 5) 51 0
def vDpitch (d : List Word) : Nat := fld (wordAt d 6) 63 40
def vOstride (d : List Word) : Nat := fld (wordAt d 6) 39 0
def vOpitch (d : List Word) : Nat := fld (wordAt d 7) 63 40
def vRx (d : List Word) : Nat := (wordAt d 8).toNat

def recvReserved : List Word :=
  let hi := fmask 63 52
  let all := BitVec.allOnes 64
  [fmask 45 40, fmask 63 32, hi, hi, hi, hi, 0, fmask 30 0, 0, 0, all, all, all, all, all, all]

def recvBad (h : Nat) (d : List Word) (s : State) : Bool :=
  (recvReserved.zipIdx.any fun m => (wordAt d m.2 &&& m.1) != 0) ||
    vOpitch d == 0 || vOstride d % (vOpitch d * 32) != 0 || decide (vDpitch d < xDrowb h s) ||
    decide (vOpitch d < xRrowb h s) || vEstride d % 32 != 0 || decide (vEstride d < vCap d * vDpitch d * 32) ||
    stepHeld h (vStep d) s

def recvRegions (h : Nat) (d : List Word) (s : State) : List (Nat × Nat × Nat) :=
  [(vEbuf d, (vExp d - 1) * vEstride d + extent (vCap d) (vDpitch d * 32) (xDrowb h s * 32), 32),
   (vObuf d, (vExp d - 1) * vOstride d + extent (vCap d) (vOpitch d * 32) (xRrowb h s * 32), 32),
   (vCnt d, vExp d * 8, 8), (vMap d, vExp d * vCap d * 4, 4)]

def newRecv (addr : Nat) (d : List Word) : Recv :=
  { addr := addr, desc := d, srcs := [], inFly := 0, closed := false, padding := false, retd := false, staging := []
    stopped := false, ended := false, copies := 0, drops := 0, missing := 0, ovf := 0, status := 0 }

/-! ### Arrivals (R318, R319) -/

/-- The set of a RECV step. -/
def recvSet (h : Nat) (d : List Word) (s : State) : Nat := vStep d % xSets h s

/-- Every source has been replicated, or RX_NS has passed: PAD is issued (R319). -/
def tryPad (h i : Nat) (s : State) : State :=
  match s.slot h i with
  | some (.recv x) =>
    let all := decide (xNdev h s ≤ x.srcs.length)
    if x.ended || x.stopped || x.padding || x.inFly != 0 || !(all || x.closed) then s
    else
      let d := x.desc
      let s := setRecv h i { x with padding := true, inFly := 1 } s
      seIssue (engineOf (vEbuf d) s) (drvPart h s) (.pad h i)
        [place 63 58 0x11, 0, place 51 0 (vEbuf d), 0, place 63 53 (xDrowb h s - 1) ||| place 23 0 (vDpitch d),
         place 51 0 (vCnt d), place 51 0 (vMap d),
         place 63 56 (vCap d / 16 - 1) ||| place 55 50 (vExp d - 1) ||| place 39 0 (vEstride d)] [] [] s
  | _ => s

/-- A slot from source `src` is handled for the RECV step in slot `i` (R318). -/
def handleSlot (h i src : Nat) (s : State) : State :=
  match s.slot h i with
  | some (.recv x) =>
    let d := x.desc
    let set := recvSet h d s
    let a := areaAddr h false set src s
    if x.closed || x.stopped || x.ended then releaseArea h false set src s
    else
      let r := drvRead h a 64 s
      let w := match r.1 with
        | .ok bs => leWords bs
        | .error _ => []
      let s := r.2
      if fld (wordAt w 0) 63 60 ≠ 1 ∨ fld (wordAt w 1) 31 0 ≠ vStep d then
        releaseArea h false set src (s.count .DRV_CNT_RX 47 32 h)
      else
        let n := min (xSlotRows h s) (fld (wordAt w 0) 44 32)
        let m := drvRead h (a + 64) (8 * n) s
        let t := drvRead h (a + 64 + 8 * xSlotRows h s) (4 * n) m.2
        let masks := match m.1 with
          | .ok bs => (leWords bs).map (·.toNat)
          | .error _ => []
        let toks := match t.1 with
          | .ok bs => (List.range n).map fun j => leVal ((bs.drop (4 * j)).take 4)
          | .error _ => []
        let s := setRecv h i { x with
          srcs := x.srcs ++ [⟨src, wordAt w 0, wordAt w 1, toks, masks, none⟩]
          inFly := x.inFly + (if n = 0 then 0 else 1) } t.2
        if n = 0 then tryPad h i (releaseArea h false set src s)
        else
          seIssue (engineOf a s) (drvPart h s) (.repscat h i src)
            [place 63 58 0x10 ||| place 31 16 src ||| place 15 0 (n - 1), place 51 0 (a + 64 + 12 * xSlotRows h s),
             place 51 0 (vEbuf d), place 51 0 (a + 64),
             place 63 53 (xDrowb h s - 1) ||| place 47 24 (xDrowb h s) ||| place 23 0 (vDpitch d), place 51 0 (vCnt d),
             place 51 0 (vMap d),
             place 63 56 (vCap d / 16 - 1) ||| place 55 50 (vExp d - 1) ||| place 39 0 (vEstride d)] [] [] s
  | _ => s

/-- The RECV step that maps to a set. -/
def recvOfSet (h set : Nat) (s : State) : Option Nat :=
  (List.range 16).find? fun i => match s.slot h i with
    | some (.recv x) => !x.desc.isEmpty && !x.ended && recvSet h x.desc s == set
    | _ => false

/-- A dispatch slot has arrived in an area of hamlet `h` (R318). -/
def dispatchArrive (h set src : Nat) (s : State) : State :=
  if (s.drover h).arrivals.contains (set, src) then
    (s.count .DRV_CNT_RX 47 32 h).loseRegion (areaAddr h false set src s) (dispSize h s)
  else
    let s := s.setDrover h { s.drover h with arrivals := (s.drover h).arrivals ++ [(set, src)] }
    if !drvEn h s then s else
    match recvOfSet h set s with
    | some i => handleSlot h i src s
    | none => s

/-- The sources of a set whose arrival waits for its RECV step are handled. -/
def handleArrivals (h i set : Nat) (s : State) : State :=
  ((s.drover h).arrivals.filter fun a => a.1 == set).foldl (fun s a =>
    match s.slot h i with
    | some (.recv x) => if x.srcs.any fun y => y.src == a.2 then s else handleSlot h i a.2 s
    | _ => s) s

/-- A RECV step is taken, as takeHome. -/
def takeRecv (h i addr : Nat) (d : List Word) (s : State) : State :=
  let st := if outside h (recvRegions h d s) s then 0x11 else if recvBad h d s then 0x10 else 0
  if st = 0 then handleArrivals h i (recvSet h d s) (setRecv h i (newRecv addr d) s)
  else finishSlot h i (setRecv h i { newRecv addr d with ended := true, status := st } s)

/-- DRV_POST (R302): the step goes to the lowest free slot. -/
def drvPost (h : Nat) (v : Word) (s : State) : State :=
  if !drvEn h s || decide (xNdev h s ≤ xSelf h s) then s else
  match (List.range 16).find? fun i => (s.slot h i).isNone with
  | none => s.flag .DRV_ERR 0 h
  | some i =>
    let a := fld v 51 7 * 128
    let r := drvRead h a 128 s
    match r.1 with
    | .error e => finishSlot h i (setRecv h i { newRecv a [] with ended := true, status := e } r.2)
    | .ok bs =>
      let d := leWords bs
      match fld (wordAt d 0) 63 60 with
      | 1 => takeHome h i d r.2
      | 2 => takeRecv h i a d r.2
      | _ => finishSlot h i (setRecv h i { newRecv a d with ended := true, status := 0x10 } r.2)

/-- RX_NS passes (R319). -/
def rxExpires (h i : Nat) (s : State) : State :=
  match s.slot h i with
  | some (.recv x) =>
    if x.ended || x.stopped || x.closed || x.padding || decide (s.now < vRx x.desc) ||
        decide (xNdev h s ≤ x.srcs.length) then s
    else
      let m := xNdev h s - x.srcs.length
      tryPad h i (setRecv h i { x with closed := true, missing := m } (s.count .DRV_CNT_RX 31 16 h 0 m))
  | _ => s

/-! ### Returning (R320, R321) -/

def tagWord (reason loc tok : Nat) : Nat := (place 63 60 reason ||| place 59 54 loc ||| place 31 0 tok).toNat

/-- The map entries of a RECV step's filled positions: expert, position, source and row. -/
def mapEntries (h : Nat) (d : List Word) (s : State) : List (Nat × Nat × Nat × Nat) × State :=
  (List.range (vExp d)).foldl (fun (r : List (Nat × Nat × Nat × Nat) × State) e =>
    let f := drvRead h (vCnt d + e * 8) 4 r.2
    let n := match f.1 with
      | .ok bs => min (vCap d) (leVal bs)
      | .error _ => 0
    let m := drvRead h (vMap d + e * vCap d * 4) (4 * n) f.2
    let es := match m.1 with
      | .ok bs => (List.range n).map fun p =>
          let x := leVal ((bs.drop (4 * p)).take 4)
          (e, p, x / 65536, x % 65536)
      | .error _ => []
    (r.1 ++ es, m.2)) ([], s)

/-- The tags for a source, with the output row index of each RESULT (R320). -/
def returnTags (d : List Word) (drop : Word) (es : List (Nat × Nat × Nat × Nat)) (y : RecvSrc) :
    List (Nat × Option Nat) :=
  let mine := es.filter fun e => e.2.2.1 == y.src && decide (e.2.2.2 < y.toks.length)
  let tok := fun (row : Nat) => y.toks.getD row 0
  let per := vOstride d / (vOpitch d * 32)
  let results := (mine.filter fun e => !bit drop e.1).map fun e => (tagWord 0 e.1 (tok e.2.2.2), some (e.1 * per + e.2.1))
  let cheap := (mine.filter fun e => bit drop e.1).map fun e => (tagWord 2 e.1 (tok e.2.2.2), none)
  let others := (List.range y.toks.length).flatMap fun row =>
    ((List.range 64).filter fun e => y.masks.getD row 0 / 2 ^ e % 2 == 1 &&
      !(mine.any fun m => m.1 == e && m.2.2.2 == row)).map fun e =>
        (tagWord (match y.bad with | some b => if b ≤ row then 3 else 1 | none => 1) e (tok row), none)
  results ++ cheap ++ others

/-- The header of a return slot: it echoes the dispatch slot; one that answers no slot echoes open values. -/
def returnHdr (h i rank count : Nat) (s : State) : List Byte :=
  match s.slot h i with
  | some (.recv x) =>
    match x.srcs.find? fun y => y.src == rank with
    | some y => slotHdr 2 (fld y.hdr0 59 57) (xSelf h s) count (fld y.hdr0 31 0) y.hdr1
    | none => slotHdr 2 (fld s.open 34 32) (xSelf h s) count (fld s.open 31 0)
        (putFld (Config.freeWord (s.free + 1)) 31 0 (vStep x.desc))
  | _ => []

/-- The step completes once every return slot has been staged (R320). -/
def completeRecv (h i : Nat) (s : State) : State :=
  match s.slot h i with
  | some (.recv x) =>
    if !x.ended && x.retd && x.staging.isEmpty && x.inFly == 0 then finishSlot h i (setRecv h i { x with ended := true } s)
    else s
  | _ => s

/-- The header of a return slot goes out. -/
def recvStaged (h i rank count : Nat) (s : State) : State :=
  match s.slot h i with
  | some (.recv x) =>
    let s := drvWrite h (stageAddr h true (recvSet h x.desc s) rank s) (returnHdr h i rank count s) s.used.used
    modRecv h i (fun x => { x with staging := x.staging.filter (·.rank != rank) }) s
  | _ => s

/-- Begin to stage one return slot, unless it waits for an acknowledgement (R320, R366). -/
def stageRecv (h i : Nat) (g : Stage) (s : State) : State :=
  match s.slot h i with
  | some (.recv x) =>
    let d := x.desc
    let set := recvSet h d s
    if g.fly || stagedBusy h true set g.rank s then s
    else if x.stopped then recvStaged h i g.rank 0 s
    else
      let a := stageAddr h true set g.rank s
      let s := drvWrite h (a + 64) (g.tags.flatMap fun t => leBytes 8 t) s
      if g.rows.isEmpty then recvStaged h i g.rank g.tags.length s
      else
        let s := modRecv h i (fun x => { x with
          inFly := x.inFly + 1
          staging := x.staging.map fun y => if y.rank = g.rank then { y with fly := true } else y }) s
        let limit := min (2 ^ 32 - 1) ((vExp d - 1) * (vOstride d / (vOpitch d * 32)) + vCap d)
        seIssue (engineOf a s) (drvPart h s) (.retStage h i g.rank)
          (gatherDesc g.rows.length (xRrowb h s) (vOpitch d) limit (vObuf d) (a + 64 + 8 * xRetRows h s)) g.rows [] s
  | _ => s

def stageRecvs (h i : Nat) (s : State) : State :=
  match s.slot h i with
  | some (.recv x) => completeRecv h i (x.staging.foldl (fun s g => stageRecv h i g s) s)
  | _ => s

/-- The return slots of a step are built (R320). -/
def buildReturns (h i : Nat) (s : State) : State :=
  match s.slot h i with
  | some (.recv x) =>
    let d := x.desc
    let r := drvRead h (x.addr + 72) 8 s
    let drop : Word := match r.1 with
      | .ok bs => wordAt (leWords bs) 0
      | .error _ => wordAt d 9
    let m := mapEntries h d r.2
    let s := m.2
    let q := xRetRows h s
    let all := (List.range (xNdev h s)).map fun rank =>
      (rank, match x.srcs.find? fun y => y.src == rank with
        | some y => returnTags d drop m.1 y
        | none => [])
    let stages := all.map fun e =>
      (⟨e.1, [], (e.2.take q).map (·.1), (e.2.take q).filterMap (·.2), false⟩ : Stage)
    let ovf := all.foldl (fun n e => n + (e.2.length - q)) 0
    let drops := all.foldl (fun n e => n + ((e.2.take q).filter (·.2.isNone)).length) 0
    let s := s.count .DRV_CNT_RX 15 0 h 0 ovf
    stageRecvs h i (setRecv h i { x with retd := true, staging := stages, ovf := ovf, drops := drops } s)
  | _ => s

/-- DRV_RET_POST. -/
def retPost (h : Nat) (v : Word) (s : State) : State :=
  match (List.range 16).find? fun i => match s.slot h i with
      | some (.recv x) => !x.desc.isEmpty && !x.ended && !x.retd && !x.stopped && vStep x.desc == fld v 31 0
      | _ => false with
  | some i => buildReturns h i s
  | none => s.flag .DRV_ERR 1 h

/-! ### Selection (R307 to R314) -/

/-- e to the power −y, where y counts units of 2^−47, in units of 2^−320: a Taylor sum of the 128th root, squared. -/
def expNeg (y : Nat) : Nat :=
  let root := (List.range 80).foldl (fun (p : Int × Int) (k : Nat) =>
    (p.1 + p.2, -(p.2 * y) / (2 ^ 54 * (k + 1)))) (0, 2 ^ 320)
  (List.range 7).foldl (fun v _ => v * v / 2 ^ 320) root.1.toNat

/-- The FP32 code at or next below v × 2^−320, below 1. -/
def fp32Below (v : Nat) : Nat :=
  let b := Nat.log2 v
  if 194 ≤ b then (b - 193) * 2 ^ 23 + v / 2 ^ (b - 23) - 2 ^ 23 else v / 2 ^ 171

/-- exp of a value that is at most 0, within 1 ulp of the exact value (R312): one of the two codes about it, and for
exp(0) = 1 one of the four codes that lie within 1 ulp. Which one is open (notes/assumptions/33.md). -/
def expFp32 (x : Nat) : Nat :=
  let err := (Config.expErr (BitVec.ofNat 32 x)).val
  match fFP32.decode x with
  | .nan => fFP32.nanCode
  | .inf _ => err % 2
  | .fin _ m e =>
    if m = 0 then 0x3F7FFFFE + err
    else if e < -47 then 0x3F7FFFFF + err % 2
    else
      let y := m * 2 ^ (e + 47).toNat
      (if 104 * 2 ^ 47 < y then 0 else fp32Below (expNeg y)) + err % 2

/-- Gate weights of a token's scores in rank order (R312), and whether SUMNORM found no usable sum. -/
def gates (fn : Nat) (ss : List Nat) : List Nat × Bool :=
  match ss with
  | [] => ([], false)
  | s0 :: _ =>
    let nan := ss.any fun x => fFP32.decode x == .nan
    if fn = 0 then (ss, false)
    else if nan then (ss.map fun _ => fFP32.nanCode, false)
    else if fn = 1 then
      let m := ss.foldl (fun m x => if (fFP32.decode m).lt (fFP32.decode x) then x else m) s0
      let es := ss.map fun x => expFp32 (f32Sub x m)
      let sum := match es with
        | [] => 0
        | e :: r => r.foldl f32Add e
      (es.map fun e => f32Div e sum, false)
    else
      let sum := (ss.drop 1).foldl f32Add s0
      match fFP32.decode sum with
      | .fin _ m _ => if m = 0 then (ss.map fun _ => 0, true) else (ss.map fun x => f32Div x sum, false)
      | _ => (ss.map fun _ => 0, true)

/-- Read bytes for a HOME step; an error raises its status. -/
def homeRead (h i a len : Nat) (s : State) : List Byte × State :=
  match drvRead h a len s with
  | (.ok bs, s) => (bs, s)
  | (.error e, s) => (List.replicate len 0, modHome h i (fun x => x.raise e) s)

/-- The 64-bit records at an address. -/
def homeRecords (h i a n : Nat) (s : State) : List Nat × State :=
  let r := homeRead h i a (8 * n) s
  ((leWords r.1).map (·.toNat), r.2)

/-- The index in a candidate record. -/
def recIndex (r : Nat) : Nat := 0xFFFFFFFF - r % 2 ^ 32

/-- The lists of a step: for each token its experts in rank order, and the pairs dropped as OVER8 (R308, R309). -/
def tokenLists (h i : Nat) (d : List Word) (s : State) : List (List Nat) × Nat × State :=
  if hMode d then
    let per := (List.range (hE d)).foldl (fun (r : List (List Nat) × State) e =>
      let u := (List.range (hShards d)).foldl (fun (q : List Nat × State) k =>
        if hT d ≤ k * shardRows d then q else
        let base := hScratch d + k * ecShard d
        let n := homeRead h i (base + hE d * hCap d * 8 + e * 4) 4 q.2
        let rs := homeRecords h i (base + e * hCap d * 8) (min (hCap d) (leVal n.1)) n.2
        (q.1 ++ rs.1, rs.2)) ([], r.2)
      (r.1 ++ [bestOf (min (hCap d) (hT d)) u.1], u.2)) ([], s)
    let lists := (List.range (hT d)).map fun t =>
      let c := per.1.zipIdx.flatMap fun e => (e.1.filter fun r =>
        (recIndex r + 2 ^ 32 - hTbase d) % 2 ^ 32 == t).map fun r => candidate (r / 2 ^ 32) e.2
      bestOf c.length c
    (lists.map fun c => (c.take 8).map recIndex, lists.foldl (fun n c => n + (c.length - 8)) 0, per.2)
  else
    let rs := (List.range (hT d)).foldl (fun (r : List (List Nat) × State) t =>
      let x := homeRecords h i (hScratch d + t * hK d * 8) (hK d) r.2
      (r.1 ++ [x.1.map recIndex], x.2)) ([], s)
    (rs.1, 0, rs.2)

/-- The FP32 scores of a token's experts. -/
def tokenScores (h i : Nat) (d : List Word) (t : Nat) (es : List Nat) (s : State) : List Nat × State :=
  es.foldl (fun (r : List Nat × State) e =>
    let x := homeRead h i (hScores d + t * hSpitch d + e * hScoreB d) (hScoreB d) r.2
    (r.1 ++ [scoreBits (hScoreB d) (leVal x.1)], x.2)) ([], s)

/-- A list with its elements' scores (expert, score), token by token. -/
def allScores (h i : Nat) (d : List Word) (ls : List (List Nat)) (s : State) : List (List (Nat × Nat)) × State :=
  ls.zipIdx.foldl (fun (r : List (List (Nat × Nat)) × State) l =>
    let x := tokenScores h i d l.2 l.1 r.2
    (r.1 ++ [l.1.zip x.1], x.2)) ([], s)

/-- The rank and local number of an expert: rank 4,096 where it is not placed (R299). -/
def placeOf (ndev : Nat) (entry : Nat) : Nat × Nat :=
  let w : Word := BitVec.ofNat 64 entry
  if bit w 31 && decide (fld w 27 16 < ndev) then (fld w 27 16, fld w 5 0) else (4096, fld w 5 0)

/-- The tokens that an expert accepts in token choice (R308). -/
def accepted (d : List Word) (ls : List (List (Nat × Nat))) (e : Nat) : List Nat :=
  let want := ls.zipIdx.flatMap fun l => (l.1.filter (·.1 == e)).map fun x => candidate (skey x.2) (hTbase d + l.2)
  (bestOf (hCap d) want).map fun r => (recIndex r + 2 ^ 32 - hTbase d % 2 ^ 32) % 2 ^ 32

/-- The tokens that want an expert (R308). -/
def demandOf (ls : List (List (Nat × Nat))) (e : Nat) : Nat := (ls.filter fun l => l.any (·.1 == e)).length

/-- The load alarm (R311). -/
def loadAlarm (h : Nat) (d : List Word) (ls : List (List (Nat × Nat))) (caps unpicked : Nat) (s : State) : State :=
  let c := s.reg .DRV_ALARM_CFG h
  let ds := (List.range (hE d)).map (demandOf ls)
  let hot := ds.zipIdx.foldl (fun (m : Nat × Nat) x => if m.2 < x.1 then (x.2, x.1) else m) (0, ds.headD 0)
  let fires := if hMode d then fld c 63 48 != 0 && decide (fld c 63 48 * hT d < unpicked * 1024)
    else (fld c 3 0 != 0 && (ds.any fun n => decide (fld c 3 0 * hCap d ≤ n))) ||
      (fld c 31 16 != 0 && decide (fld c 31 16 < caps))
  if !fires then s
  else
    let first := s.rf .DRV_ALARM 1 0 h = 0
    let s := s.flag .DRV_ALARM (if hMode d then 1 else 0) h
    if first then
      let v := if hMode d then (0xFFF, unpicked) else hot
      (s.putReg .DRV_ALARM 63 52 v.1 h).putReg .DRV_ALARM 51 32 (satNat 20 v.2) h
    else s

/-- The pairs of each token, with weights, places, and CAP and UNPLACED decided (R308 to R310, R312). -/
def makeToks (d : List Word) (emap : Nat → Nat × Nat) (ls : List (List (Nat × Nat))) : List (List Pair) :=
  let acc := (List.range (hE d)).map fun e => if hMode d ∨ demandOf ls e ≤ hCap d then none else some (accepted d ls e)
  ls.zipIdx.map fun l =>
    let g := (gates (hGate d) (l.1.map (·.2))).1
    (l.1.zip g).map fun x =>
      let e := x.1.1
      let p := emap e
      let cap := match acc.getD e none with
        | some ts => !ts.contains l.2
        | none => false
      { expert := e, rank := p.1, loc := p.2, st := if cap then 4 else if p.1 = 4096 then 6 else 0, g := x.2
        row := 0, fly := false }

/-- The rows of each rank's slot; the pairs of later tokens are dropped as SLOT, the others become SENT (R314). -/
def fillSlots (ndev rows : Nat) (ts : List (List Pair)) : List Stage × List (List Pair) :=
  let wants := (List.range ndev).map fun d =>
    (ts.zipIdx.filter fun t => t.1.any fun p => p.st == 0 && p.rank == d).map (·.2)
  let stages := wants.zipIdx.map fun w => (⟨w.2, w.1.take rows, [], [], false⟩ : Stage)
  let late := fun (t d : Nat) => ((wants.getD d []).drop rows).contains t
  (stages, ts.zipIdx.map fun t => t.1.map fun p =>
    if p.st ≠ 0 then p else if late t.2 p.rank then { p with st := 5 } else { p with st := 1 })

/-- Selection has completed: capacity, weights, route table, alarm, and the slots are staged (R308 to R316). -/
def selectionMerge (h i : Nat) (s : State) : State :=
  match s.slot h i with
  | some (.home x) =>
    let d := x.desc
    if x.selBad || x.ph != .select then
      let s := if x.selBad then s.loseRegion (hRoute d) (hT d * 64) else s
      homeGoesOn h i (setHome h i { x with
        ph := if x.ph == .select then .open else x.ph
        staging := emptyStages h s } s)
    else
      let l := tokenLists h i d s
      let ss := allScores h i d l.1 l.2.2
      let em := homeRead h i (hEmap d) (hE d * 4) ss.2
      let s := em.2
      let ls := ss.1
      let emap := fun (e : Nat) => placeOf (xNdev h s) (leVal ((em.1.drop (4 * e)).take 4))
      let f := fillSlots (xNdev h s) (xSlotRows h s) (makeToks d emap ls)
      let count := fun (st : Nat) => f.2.foldl (fun n t => n + (t.filter (·.st == st)).length) 0
      let unpicked := if hMode d then (ls.filter (·.isEmpty)).length else 0
      let s := s.count .DRV_CNT_SEL 63 48 h 0 (count 4)
      let s := s.count .DRV_CNT_SEL 47 32 h 0 unpicked
      let s := s.count .DRV_CNT_SEL 31 16 h 0 l.2.1
      let s := s.count .DRV_CNT_SEL 15 0 h 0 (count 5 + count 6)
      let s := s.flagIf (ls.any fun t => (gates (hGate d) (t.map (·.2))).2) .DRV_ERR 3 h
      let s := loadAlarm h d ls (count 4) unpicked s
      let s := modHome h i (fun x => { x with
        ph := .open
        unpick := unpicked
        toks := (x.toks.zip f.2).map fun t => { t.1 with pairs := t.2 }
        staging := f.1 }) s
      let s := f.2.zipIdx.foldl (fun s t => drvWrite h (hRoute d + t.2 * 64) (routeRow ⟨t.1, 0, 0, false, none⟩) s) s
      homeGoesOn h i s
  | _ => s

/-! ### Commands of the engines that complete (R306, R316, R318 to R320, R325, R330) -/

/-- What the issuer of a completed internal command does. -/
def engineDone (c : SeCmd) (s : State) : State :=
  match c.issuer with
  | .ring _ => s
  | .select h i _ =>
    let bad := decide (0x10 ≤ c.status)
    let s := modHome h i (fun x => { x with
      shards := x.shards - 1
      selBad := x.selBad || bad
      status := if bad then max x.status (if c.status = 0x12 then 0x12 else 0x13) else x.status }) s
    match s.slot h i with
    | some (.home x) => if x.shards = 0 then selectionMerge h i s else s
    | _ => s
  | .stage h i rank => homeGoesOn h i (stageDone h i rank c s)
  | .repscat h i src =>
    match s.slot h i with
    | some (.recv x) =>
      let bad := decide (0x10 ≤ c.status)
      let s := setRecv h i { x with
        inFly := x.inFly - 1
        copies := x.copies + c.result
        status := if bad then max x.status (engStatus c.status) else x.status
        srcs := x.srcs.map fun y => if y.src = src ∧ bad then { y with bad := some c.stoppedAt } else y } s
      let s := s.count .DRV_CNT_RX 63 48 h 0 c.aux
      stageRecvs h i (tryPad h i (releaseArea h false (recvSet h x.desc s) src s))
    | _ => s
  | .pad h i =>
    match s.slot h i with
    | some (.recv x) =>
      let s := setRecv h i { x with
        inFly := x.inFly - 1
        status := if 0x10 ≤ c.status then max x.status (engStatus c.status) else x.status } s
      let s := if x.stopped then s else drvSignal h (fld (wordAt x.desc 7) 34 31) (fld (wordAt x.desc 7) 39 35) s
      stageRecvs h i s
    | _ => s
  | .retStage h i rank =>
    match s.slot h i with
    | some (.recv x) =>
      let n := match x.staging.find? fun g => g.rank == rank with
        | some g => g.tags.length
        | none => 0
      let bad := decide (0x10 ≤ c.status)
      let s := setRecv h i { x with
        inFly := x.inFly - 1
        status := if bad then max x.status (engStatus c.status) else x.status } s
      completeRecv h i (recvStaged h i rank (if x.stopped then 0 else if bad then min n c.stoppedAt else n) s)
    | _ => s
  | .combine h i t k => combineDone h i t k c s

/-- A pile engine's command completes (R293), and its issuer goes on. -/
def seComplete (k seq : Nat) (s : State) : State :=
  match (s.engine k).cmds.find? fun c => c.seq == seq && c.ended with
  | some c => engineDone c (seFinish k c s)
  | none => s

/-! ### Stops, acknowledgements and registers (R329, R335, R366) -/

/-- Every step of a Drover ends as a stop does (R329). -/
def drvStop (h : Nat) (s : State) : State :=
  (List.range 16).foldl (fun s i => match s.slot h i with
    | some (.home _) => endHome h i 0x14 s
    | some (.recv x) =>
      if x.ended then s else
      let stages := if x.retd then x.staging else emptyStages h s
      stageRecvs h i (setRecv h i { x with stopped := true, retd := true, staging := stages, status := max x.status 0x14 } s)
    | none => s) s

/-- A staged slot has been acknowledged: what waited for it goes on. -/
def stagedFree (h : Nat) (s : State) : State :=
  (List.range 16).foldl (fun s i => stageRecvs h i (completeHome h i (stageHomes h i s))) s

/-- DRV_CTL is written: arrivals that wait are handled. -/
def drvCtlWrite (h : Nat) (v : Word) (s : State) : State :=
  let s := s.writePlain .DRV_CTL v h
  if !drvEn h s then s else
  (List.range 16).foldl (fun s i => match s.slot h i with
    | some (.recv x) => if x.desc.isEmpty || x.ended then s else handleArrivals h i (recvSet h x.desc s) s
    | _ => s) s

/-- DRV_CQ_CFG (R335). -/
def drvCqCfgWrite (h : Nat) (v : Word) (s : State) : State :=
  let was := s.rb .DRV_CQ_CFG 63 h
  let s := s.writePlain .DRV_CQ_CFG (putFld v 3 0 (min 12 (max 4 (fld v 3 0)))) h
  let s := if bit v 63 && !was then (s.setReg .DRV_CQ_TAIL 0 h).setReg .DRV_CQ_HEAD 0 h else s
  drvFlush h s

/-- DRV_CQ_HEAD, under R212. -/
def drvCqHeadWrite (h : Nat) (v : Word) (s : State) : State :=
  if headOk (s.rf .DRV_CQ_HEAD 15 0 h) (s.rf .DRV_CQ_TAIL 15 0 h) (fld v 15 0) then
    drvFlush h (s.putReg .DRV_CQ_HEAD 15 0 (fld v 15 0) h)
  else s

/-- The W1C bits of DRV_ALARM: with both clear, the hot expert reads 0 (R311). -/
def drvAlarmClear (h : Nat) (v : Word) (s : State) : State :=
  let s := s.writePlain .DRV_ALARM v h
  if s.rf .DRV_ALARM 1 0 h = 0 then (s.putReg .DRV_ALARM 63 52 0 h).putReg .DRV_ALARM 51 32 0 h else s

/-- Whoever may write DRV_POST and its like: steward firmware, or the Drover's partition (R302, R335). -/
def drvMay (ag : Agent) (h : Nat) (s : State) : Bool :=
  ag == .steward || (s.rb .DRV_CTL 12 h && s.actsFor ag (drvPart h s))

/-- The value of DRV_STAT (R335). -/
def drvStat (h : Nat) (s : State) : Word :=
  place 20 16 ((List.range 16).filter fun i => (s.slot h i).isSome).length |||
    place 8 8 (if (List.range 16).any fun i => slotEnded h i s then 1 else 0) ||| place 0 0 (drvEn h s).toNat

end Sys2Proof.Machine
end

