-- ==== Sys2Proof/Machine/FabMem.lean ====
section
/-! DEFINITION. The window and the region table: what a device performs for a node, itself included, and what a unit of
this device does through the window (12_rack_fabric.md R381, R384 to R389). -/

namespace Sys2Proof.Machine

open Sys2Proof

/-! ### The target (R377, R386) -/

/-- Region `r` matches a request of a kind (0 read, 1 write or collective data, 2 atomic) of `len` bytes at offset `a`
from node `src` with a key (R386). -/
def regionMatches (r src key kind a len : Nat) (s : State) : Bool :=
  let owner := s.rf .FAB_RGN_CTL 19 16 r
  let lo := a / 65536
  let hi := (a + len - 1) / 65536
  s.rb .FAB_RGN_CTL 63 r && owner != 0 && s.rb .FAB_RGN_CTL kind r && s.rf .FAB_RGN_KEY 31 0 r == key &&
    (!s.rb .FAB_RGN_CTL 4 r || src / 64 == ownNode s / 64) &&
    decide (s.rf .FAB_RGN_BASE 24 0 r ≤ lo ∧ hi ≤ s.rf .FAB_RGN_LIM 24 0 r) &&
    (List.range (hi - lo + 1)).all fun i => (s.page (lo + i)).owner == some owner

/-- The owner of the lowest-numbered region that matches. -/
def regionOwner (src key kind a len : Nat) (s : State) : Option Nat :=
  ((List.range 128).find? fun r => regionMatches r src key kind a len s).map fun r => s.rf .FAB_RGN_CTL 19 16 r

/-- A refusal is counted and recorded (R386). -/
def targetRefuses (port src a : Nat) (s : State) : State :=
  errRecord 0x022 (whoFab port none) a src (s.count .FAB_CNT2 47 32)

/-- The status of R377 that an access ends with. -/
def MemErr.status : MemErr → Nat
  | .permission => 1
  | .uncorr => 3
  | _ => 2

/-- The check of a request at its target: the owner it is performed for, or its status (R377, R386). -/
def targetCheck (port src key kind a len : Nat) (s : State) : Except Nat Nat × State :=
  if 0x1E000000000 < a + len then (.error 2, s)
  else match regionOwner src key kind a len s with
    | some p => (.ok p, s)
    | none => (.error 1, targetRefuses port src a s)

/-- Perform a WRITE; answers its status. -/
def targetWrite (port src key a : Nat) (data : List Byte) (s : State) : Nat × State :=
  match targetCheck port src key 1 a data.length s with
  | (.error st, s) => (st, s)
  | (.ok p, s) => match devWrite (whoFab port (some p)) a data 0 s with
    | (none, s) => (0, s)
    | (some e, s) => (e.status, s)

/-- Perform a READ: the data, or a status. -/
def targetRead (port src key a len : Nat) (s : State) : Except Nat (List Byte) × State :=
  match targetCheck port src key 0 a len s with
  | (.error st, s) => (.error st, s)
  | (.ok p, s) => match devRead (whoFab port (some p)) a len 0 s with
    | (.ok d, s) => (.ok d, s)
    | (.error e, s) => (.error e.status, s)

/-- Perform an ATOMIC with the indivisibility of R88: the status and the old value. -/
def targetAtomic (port src key a op : Nat) (operand compare : Word) (s : State) : Nat × Word × State :=
  match targetCheck port src key 2 a 8 s with
  | (.error st, s) => (st, 0, s)
  | (.ok p, s) => match devRead (whoFab port (some p)) a 8 0 s with
    | (.error e, s) => (e.status, 0, s)
    | (.ok d, s) =>
      let old := BitVec.ofNat 64 (leVal d)
      match devWrite (whoFab port (some p)) a (leBytes 8 (amoValue op old operand compare).toNat) 0 s with
      | (none, s) => (0, old, s)
      | (some e, s) => (e.status, 0, s)

/-! ### The requester (R384, R385, R387) -/

/-- A use of the window by a partition: the node and the offset, or why it is refused at issue (R11, R384, R385). -/
def windowUse (part : Option Nat) (a : Nat) (s : State) : Except MemErr (Nat × Nat) :=
  match spaceOf a with
  | .fabric d x =>
    if !s.rb .FAB_RACK_PRESENT d then .error .address
    else match part with
      | some p => if s.rb .FAB_P_KEY 63 p then .ok (ownNode s / 64 * 64 + d, x) else .error .permission
      | none => .error .permission
  | _ => .error .address

/-- A posted store has been refused at its target (R387). -/
def writeRefused (part : Option Nat) (a : Nat) (s : State) : State :=
  let s := match part with
    | some p => s.flag .FAB_P_ERR 0 p
    | none => s
  errRecord 0x030 (whoFab 0 part) a 1 s

/-- A posted store through the window: served locally at the own node (R381), else sent (R387). -/
def windowStore (part : Option Nat) (a : Nat) (data : List Byte) (tag : PktTag) (s : State) : Option MemErr × State :=
  match windowUse part a s with
  | .error e => (some e, s)
  | .ok (n, x) =>
    if n = ownNode s then
      match targetWrite 0 n (keyOf part s) x data s with
      | (0, s) => (none, s)
      | (_, s) => (none, writeRefused part a s)
    else (none, remWrite n x data part tag s)

end Sys2Proof.Machine
end

