-- ==== Sys2Proof/Machine/Launch.lean ====
section
/-! DEFINITION. Launches: kernel entries and declaration lists, the evaluation before the first instruction, the start
and the end of a kernel on a tile, and completion records (13_partitions_and_scheduling.md R403, R404, R409 to R415,
R420; 08_memory_tiers.md R253 to R258; 03_tile_isa.md R76). -/

namespace Sys2Proof.Machine

open Sys2Proof

/-! ### Statuses (R413) -/

def stBadEntry : Nat := 0xC003
def stUncorr : Nat := 0x8009
def stAborted : Nat := 0xC002
def stDeadline : Nat := 0xC004
def stNoTile : Nat := 0xC005
def stMatrix : Nat := 0xC001
def stRestore : Nat := 0xC006

/-! ### Kernel entries (R403, R404) -/

/-- Words that the scheduler reads for partition `p`: BAD_ENTRY where any lies outside what `p` holds, MEM_UNCORR where
one cannot be read (R404); no word at all where there is none to read. -/
def schedRead (p a len : Nat) (s : State) : Except Nat (List Word) × State :=
  if len = 0 then (.ok [], s) else
  match rangeCheck (some p) a len s with
  | some _ => (.error stBadEntry, s)
  | none => match devRead (whoUnit 0 0 p) a len 0x009 s with
    | (.ok d, s) => (.ok (leWords d), s)
    | (.error _, s) => (.error stUncorr, s)

/-- Context `c` is a valid context of partition `p`. -/
def cxOk (p c : Nat) (s : State) : Bool := s.cxValid c && s.cxPart c == p

def entCls (ws : List Word) : Nat := fld (wordAt ws 0) 62 61
def entNdecl (ws : List Word) : Nat := fld (wordAt ws 0) 60 54
def entDecl (ws : List Word) : Nat := fld (wordAt ws 2) 51 0
def entCx (ws : List Word) : Nat := fld (wordAt ws 4) 7 0

/-- A condition of R404 on the entry's own words. -/
def entryBad (p : Nat) (ws : List Word) (s : State) : Bool :=
  let w0 := wordAt ws 0
  let radio := s.radio && p == 0
  !bit w0 63 || entCls ws == 3 || (entCls ws == 0) != radio || decide (64 < entNdecl ws) ||
    (radio && entNdecl ws != 0) || bit w0 52 || fld (wordAt ws 1) 63 52 != 0 || fld (wordAt ws 2) 63 52 != 0 ||
    (entNdecl ws == 0 && wordAt ws 2 != 0) || fld (wordAt ws 4) 63 8 != 0 ||
    wordAt ws 5 != 0 || wordAt ws 6 != 0 || wordAt ws 7 != 0 || fld w0 1 0 != 0 || !cxOk p (entCx ws) s

/-! ### Declarations (R253) -/

def declPath (ws : List Word) : Nat := fld (wordAt ws 0) 62 61
def declPages (ws : List Word) : List Nat :=
  (List.range (fld (wordAt ws 0) 51 36 + 1)).map fun i => fld (wordAt ws 0) 24 0 + i
def declShadow (ws : List Word) : Nat := fld (wordAt ws 1) 51 0
def shadowPages (ws : List Word) : List Nat :=
  (List.range (fld (wordAt ws 3) 63 48 + 1)).map fun i => declShadow ws / 65536 + i
def declPathw (ws : List Word) : Nat := fld (wordAt ws 2) 51 0
def declPwb (ws : List Word) : Nat := fld (wordAt ws 3) 47 44
def declSwb (ws : List Word) : Nat := fld (wordAt ws 3) 43 40

/-- Page `n` is held by partition `p` (R401). -/
def ownsPage (p n : Nat) (s : State) : Bool := decide (n < 31457280) && (s.page n).owner == some p

/-- A VALID declaration is invalid (R253). -/
def declBad (p : Nat) (ws : List Word) (s : State) : Bool :=
  let pwb := if declPwb ws = 0 then 16 else declPwb ws
  declPath ws == 3 || fld (wordAt ws 0) 60 52 != 0 || fld (wordAt ws 0) 35 25 != 0 ||
    (declPages ws).any (fun n => !ownsPage p n s) || declPathw ws % 8 != 0 ||
    (rangeCheck (some p) (declPathw ws) 8 s).isSome ||
    (declPath ws == 0 && (declShadow ws % 65536 != 0 || (shadowPages ws).any (fun n => !ownsPage p n s) ||
      !((declSwb ws == 2 || declSwb ws == 4) && decide (declSwb ws < pwb))))

/-- The four words of declaration `i` of a list. -/
def declWords (ws : List Word) (i : Nat) : List Word := (ws.drop (4 * i)).take 4

/-- The declaration list of an entry, checked (R404): its words, or a status. -/
def readDecls (p a n : Nat) (s : State) : Except Nat (List Word) × State :=
  match schedRead p a (32 * n) s with
  | (.error st, s) => (.error st, s)
  | (.ok ws, s) =>
    if (List.range n).any fun i => bit (wordAt (declWords ws i) 0) 63 && declBad p (declWords ws i) s then
      (.error stBadEntry, s)
    else (.ok ws, s)

/-- Read kernel entry `k` of partition `p`: its words if they could be read, and the status that ends the launch at once
(R404, R430). -/
def readEntry (p k : Nat) (s : State) : Option (List Word) × Option Nat × State :=
  if !s.partValid p || s.rf .PART_P_KTAB 63 52 p < k then (none, some stBadEntry, s)
  else match schedRead p (s.rf .PART_P_KTAB 51 6 p * 64 + k * 64) 64 s with
    | (.error st, s) => (none, some st, s)
    | (.ok ws, s) =>
      if entryBad p ws s then (some ws, some stBadEntry, s)
      else match readDecls p (entDecl ws) (entNdecl ws) s with
        | (.error st, s) => (some ws, some st, s)
        | (.ok _, s) => (some ws, none, s)

/-! ### Records (R413 to R415) -/

/-- Write a record at the tail of the completion ring, with the time, and ring the context's doorbell. -/
def writeRecord (c : Nat) (ws : List Word) (s : State) : State :=
  let n := cxSize c s
  let a := s.rf .CX_RING 51 6 c * 64 + n * 32 + s.rf .CX_CQ_TAIL 15 0 c % n * 32
  let rec_ := [wordAt ws 0, wordAt ws 1, BitVec.ofNat 64 s.now, wordAt ws 2]
  let s := (devWrite (whoUnit 0 0 (s.cxPart c)) a (rec_.flatMap fun w => leBytes 8 w.toNat) 0 s).2
  ringReg .CX_DB c 0 (s.putReg .CX_CQ_TAIL 15 0 (s.rf .CX_CQ_TAIL 15 0 c + 1) c)

/-- The completion ring of context `c` is full. -/
def cqFull (c : Nat) (s : State) : Bool :=
  decide (cxSize c s ≤ idxDiff (s.rf .CX_CQ_TAIL 15 0 c) (s.rf .CX_CQ_HEAD 15 0 c))

/-- Post a record: written, held for want of room, or dropped beyond 64 held (R415). -/
def postRecord (c : Nat) (ws : List Word) (s : State) : State :=
  if (s.cx c).records.isEmpty && !cqFull c s then writeRecord c ws s
  else if 64 ≤ (s.cx c).records.length then s.count .PART_P_CNT 31 16 (s.cxPart c)
  else modCx c (fun x => { x with records := x.records ++ [ws] }) s

/-- Room in the ring: held records are written, oldest first (R415). -/
def flushRecords (c : Nat) : Nat → State → State
  | 0, s => s
  | n + 1, s =>
    if cqFull c s then s
    else match (s.cx c).records with
      | [] => s
      | r :: rs => flushRecords c n (writeRecord c r (modCx c (fun x => { x with records := rs }) s))

/-- The words of a record but for DONE_NS (R414). -/
def recordWords (kentry nfail reason tag status step ntiles tile : Nat) (start : Word) : List Word :=
  [place 63 52 kentry ||| place 51 44 nfail ||| place 43 40 reason ||| place 31 16 tag ||| place 15 0 status,
   place 63 32 step ||| place 31 24 ntiles ||| place 6 0 tile, start]

/-- How the tiles of a launch have ended: status, REASON and tile. -/
def Launch.ends (l : Launch) : List (Nat × Nat × Nat) :=
  l.tiles.filterMap fun x => match x.st with
    | .ended st r => some (st, r, x.tile)
    | _ => none

/-- The numerically highest status, of the lowest tile that gave it. -/
def Launch.worst (l : Launch) : Nat × Nat × Nat :=
  match l.ends with
  | [] => (0, 0, 0)
  | e :: es => es.foldl (fun m x => if m.1 < x.1 ∨ (m.1 = x.1 ∧ x.2.2 < m.2.2) then x else m) e

/-- The Reeve publishes the digest accumulator when a STEP_END launch of the compared context completes (R501). -/
def publishStep (c step : Nat) (s : State) : State :=
  if s.rb .ERR_SH_CTL 63 && s.rf .ERR_SH_CTL 7 0 == c && s.rf .ERR_SH_CTL 19 16 == s.cxPart c then
    let part := some (s.rf .ERR_RV_CTL 19 16)
    let a := s.rf .ERR_RV_DEST 51 12 * 4096 + 0x800 + (ownNode s % 64 * 16 + step % 16) * 16
    let acc := s.reg .ERR_SH_ACC
    let s := s.setReg .ERR_SH_ACC 0
    match windowStore part a (leBytes 8 step ++ leBytes 8 acc.toNat) .none s with
    | (some e, s) => memErrRecord e (whoUnit 0 0 (s.rf .ERR_RV_CTL 19 16)) a 0 s
    | (none, s) => s
  else s

/-- What every completion of a launch of context `c` does: its record unless QUIET suppresses it, the count of launches
aborted for a function, the step's end (R403, R414, R420, R431). -/
def finishLaunch (c : Nat) (quiet : Bool) (status reason : Nat) (stepEnd : Bool) (step : Nat) (ws : List Word)
    (s : State) : State :=
  let s := if quiet && decide (status < 0x8000) then s else postRecord c ws s
  let s := if status = stAborted ∧ reason = 3 then s.count .PART_FN_CNT 31 16 (s.rf .CX_CTL 52 48 c) else s
  if stepEnd then publishStep c step (s.putReg .CX_STAT 63 32 step c) else s

/-- The launch has ended with KEND: its status is software's, or MATRIX_ERROR. -/
def kendStatus (st : Nat) : Bool := decide (st < 0x8000) || st == stMatrix

/-- A launch completes: it is known no longer, and its completion is reported (R413, R414). -/
def reportLaunch (l : Launch) (s : State) : State :=
  let w := l.worst
  let nfail := (l.ends.filter fun e => decide (0x8000 ≤ e.1)).length
  let s := modSched (fun d => { d with launches := d.launches.filter fun x => x.id != l.id }) s
  let start := BitVec.ofNat 64 (l.startNs.getD s.open.toNat)
  let s := if l.startNs.isNone then s.used else s
  noteCx l.cx (finishLaunch l.cx l.quiet w.1 w.2.1 l.stepEnd l.step
    (recordWords l.kentry nfail w.2.1 l.tag w.1 l.step l.tiles.length w.2.2 start) s)

/-- A launch all of whose tiles have ended completes; one that is provisional is held until its epochs are decided
(R358, R413). -/
def completeLaunch (id : Nat) (s : State) : State :=
  match s.launch id with
  | none => s
  | some l =>
    if !l.over then s
    else
      let eps := (s.cx l.cx).epochs
      if kendStatus l.worst.1 && !eps.isEmpty then noteCx l.cx (modLaunch id (fun l => { l with heldEpochs := eps }) s)
      else reportLaunch l s

/-! ### Pages of a launch (R254, R255) -/

/-- Pin pages for a launch; a page whose count is full takes none. Answers the pages pinned. -/
def pinAll : List Nat → State → List Nat × State
  | [], s => ([], s)
  | n :: ns, s =>
    let ok := decide ((s.page n).pin < 65535)
    let r := pinAll ns (pinPage n s)
    (if ok then n :: r.1 else r.1, r.2)

/-- Release the pins that a launch holds on a tile (R255). -/
def unpinPart (id t : Nat) (s : State) : State :=
  let pins := ((s.launch id).bind fun l => l.part? t).elim [] (·.pins)
  modPart id t (fun x => { x with pins := [] }) (pins.foldl (fun s n => unpinPage n s) s)

/-- Every page is RESIDENT, or FALLING with a move that can still be cancelled (R254). -/
def pagesUsable : List Nat → State → Bool × State
  | [], s => (true, s)
  | n :: ns, s => match (s.page n).st with
    | .resident => pagesUsable ns s
    | .falling =>
      let r := decideFall n s
      if r.1 then pagesUsable ns r.2 else r
    | _ => (false, s)

/-- The runs of consecutive pages of a rising list. -/
def pageRuns : List Nat → List (Nat × Nat)
  | [] => []
  | n :: ns => match pageRuns ns with
    | (m, k) :: rs => if m = n + 1 then (n, k + 1) :: rs else (n, 1) :: (m, k) :: rs
    | [] => [(n, 1)]

/-- Place a RAISE at the head of the queue of partition `p`, or keep it until there is room (R257). -/
def placeRaise (p : Nat) (c : GrnCmd) (s : State) : State :=
  if (grnQueue p s).length < 64 then setQueue p (c :: grnQueue p s) s
  else modGrn (fun g => { g with pendRaise := g.pendRaise ++ [(p, c)] }) s

/-- Room has appeared in the queue of partition `p`. -/
def placePending (p : Nat) (s : State) : State :=
  match s.grn.pendRaise.find? fun e => e.1 == p with
  | some e =>
    if (grnQueue p s).length < 64 then
      setQueue p (e.2 :: grnQueue p s) (modGrn (fun g => { g with pendRaise := g.pendRaise.erase e }) s)
    else s
  | none => s

/-! ### Evaluation (R254, R255, R257) -/

/-- The path word (R255). -/
def pathWord (taken : Nat) (waited lowered : Bool) (ws : List Word) : Word :=
  place 63 62 taken ||| place 61 61 (if waited then 1 else 0) ||| place 60 60 (if lowered then 1 else 0) |||
    (if taken = 0 then place 59 56 (declPwb ws) ||| place 51 0 (fld (wordAt ws 0) 24 0 * 65536)
     else if taken = 1 then
       place 59 56 (declSwb ws) ||| place 55 52 (fld (wordAt ws 3) 39 36) ||| place 51 0 (declShadow ws)
     else 0)

/-- What an evaluation comes to: every path word written, the launch held, or the status that ends it on the tile. -/
inductive EvalEnd where
  | done | held
  | failed (status : Nat)
  deriving DecidableEq, Repr

/-- Write a path word: refused, it ends the launch on the tile (R254). -/
def writePath (p : Nat) (ws : List Word) (w : Word) (s : State) : EvalEnd × State :=
  match devWrite (whoUnit 0 0 p) (declPathw ws) (leBytes 8 w.toNat) 0x009 s with
  | (none, s) => (.done, s)
  | (some .uncorr, s) => (.failed stUncorr, s)
  | (some _, s) => (.failed stBadEntry, s)

/-- Count an outcome in GRN_P_CNT. -/
def takenPath (p taken : Nat) (bad : Bool) (ws : List Word) (s : State) : EvalEnd × State :=
  let s := s.flagIf bad .GRN_P_STAT 3 p
  let s := if taken = 1 then s.count .GRN_P_CNT 63 48 p else if taken = 2 then s.count .GRN_P_CNT 47 32 p else s
  writePath p ws (pathWord taken false false ws) s

/-- Add pins to a launch's part on a tile. -/
def addPins (id t : Nat) (ns : List Nat) (s : State) : State :=
  let r := pinAll ns s
  modPart id t (fun x => { x with pins := x.pins ++ r.1 }) r.2

/-- Evaluate declaration `i` of a launch's list on a tile; `wait` says whether WAIT is permitted (R254, R257). -/
def evalDecl (id t p i : Nat) (wait : Bool) (all : List Word) (s : State) : EvalEnd × State :=
  let ws := declWords all i
  if !bit (wordAt ws 0) 63 then (.done, s)
  else if declBad p ws s then (.failed stBadEntry, s)
  else
    let ps := declPages ws
    let u := pagesUsable ps s
    if u.1 then
      let s := addPins id t ps u.2
      takenPath p 0 false ws (ps.foldl (fun s n => if (s.page n).st == .falling then cancelFallOf n s else s) s)
    else
      let s := u.2
      if declPath ws = 0 then
        if (shadowPages ws).all fun n => (s.page n).st == .resident then takenPath p 1 false ws s
        else takenPath p 2 true ws s
      else if declPath ws = 1 then takenPath p 2 false ws s
      else if !wait then takenPath p 2 true ws s
      else
        let miss := ps.filter fun n => (s.page n).st != .resident
        let s := (pageRuns miss).foldr (fun r s => placeRaise p ⟨1, 0, r.1, r.2, some (id, t)⟩ s) s
        (.held, modPart id t (fun x => { x with hold := some ⟨all, i, miss, false⟩ }) s)

/-- Evaluate `n` declarations from number `i` on. -/
def evalFrom (id t p : Nat) (wait : Bool) (all : List Word) : Nat → Nat → State → EvalEnd × State
  | 0, _, s => (.done, s)
  | n + 1, i, s => match evalDecl id t p i wait all s with
    | (.done, s) => evalFrom id t p wait all n (i + 1) s
    | r => r

/-- WAIT is permitted for a launch (R257). -/
def Launch.mayWait (l : Launch) : Bool := l.part != 0 && l.cls != 0 && l.dlNs == 0

/-- Read the list and evaluate it from number `i` on. -/
def evalLaunch (l : Launch) (t i : Nat) (s : State) : EvalEnd × State :=
  if l.ndecl ≤ i then (.done, s)
  else match schedRead l.part l.decl (32 * l.ndecl) s with
    | (.error st, s) => (.failed st, s)
    | (.ok ws, s) => evalFrom l.id t l.part l.mayWait ws (l.ndecl - i) i s

/-! ### A kernel on a tile -/

/-- The epoch in force (R467, R473). -/
def epochNow (s : State) : Nat := s.rf .DEV_CFG_CUR 63 32

/-- The tile's configuration is of another epoch (R471). -/
def stale (t : Nat) (s : State) : Bool := (s.reg .TILE_EPOCH t).toNat != epochNow s

/-- The tile starts to load the active version's image (R471). -/
def startLoad (t : Nat) (s : State) : State := s.modTile t fun x => { x with loading := some (epochNow s) }

/-- An idle awake tile of another epoch loads at once (R471). -/
def loadIfStale (t : Nat) (s : State) : State :=
  let x := s.tile t
  if x.run == .idle && x.loading.isNone && !s.dormant (domQuad t) && stale t s then startLoad t s else s

/-- The tile is free again: idle, or still halted (R104). -/
def freeTile (t : Nat) (s : State) : State :=
  loadIfStale t (s.modTile t fun x => { x with
    cx := none
    launch := none
    run := if x.run = .halted then .halted else .idle
    stopReq := none
    stopEnd := none
    wakeFor := false })

/-- A tile's part of a launch ends: its pins are released, and the launch completes with its last tile (R255, R413). A
status of 0x8000 or above of a radio kernel marks the live slots (R205). -/
def endPart (id t status reason : Nat) (s : State) : State :=
  match (s.launch id).bind fun l => (l.part? t).map fun x => (l, x) with
  | none => s
  | some (l, x) =>
    if x.st.isEnd then s
    else
      let s := unpinPart id t s
      let s := if x.st = .running && s.rb .ERR_SH_CTL 63 && s.rf .ERR_SH_CTL 19 16 == l.part then
          s.setReg .ERR_SH_ACC (s.reg .ERR_SH_ACC + (s.tile t).digest)
        else s
      let s := if 0x8000 ≤ status then faultOf (some l.part) s else s
      completeLaunch id (noteCx l.cx (modPart id t (fun x => { x with st := .ended status reason, hold := none }) s))

/-- The core at a launch (R76, R122). -/
def CoreRegs.launched (c : CoreRegs) (l : Launch) (t : Nat) (tevt : BitVec 32) : CoreRegs :=
  let start := BitVec.ofNat 64 (l.startNs.getD 0)
  let r := { CoreRegs.reset with
    pc := BitVec.ofNat 52 l.pc, epc := c.epc, ecause := c.ecause, eaddr := c.eaddr, pm := c.pm, mscratch := c.mscratch
    tevt := tevt, kentry := BitVec.ofNat 16 l.kentry, ltime := start, part := BitVec.ofNat 4 l.part
    rdtSub := c.rdtSub }
  (((r.setG 1 (BitVec.ofNat 64 l.kentry)).setG 2 start).setG 3 (BitVec.ofNat 64 t)).setG 4 (BitVec.ofNat 64 l.arg)

/-- A context has been on a tile: it is the latest there (R408). -/
def Tile.noteHist (x : Tile) (c : Nat) : Tile := { x with hist := c :: x.hist.filter (· != c) }

/-- The launch's first instruction runs on tile `t` (R76, R82, R142). -/
def startTile (l : Launch) (evt : BitVec 32) (t : Nat) (s : State) : State :=
  let s := modPart l.id t (fun x => { x with st := .running }) s
  let radio := s.radio && l.part == 0
  s.modTile t fun x => { x.noteHist l.cx with
    core := x.core.launched l t (evt ||| (if radio then x.latch else 0))
    latch := if radio then 0 else x.latch
    run := .running
    units := (List.range 5).foldl (fun us u => Tab.set (fun _ => MUnit.reset) us u (x.munit u).launched) x.units
    digest := 0
    stopReq := none
    stopEnd := none
    dcache := []
    icache := if x.lastImg = some l.image && l.image != 0 then x.icache else []
    lastImg := some l.image
    loopFill := []
    wakeFor := false }

/-- The launch starts on tiles at one moment: CX_EVT goes to each of them, and is then clear (R76, R408). -/
def startTiles (l : Launch) (ts : List Nat) (s : State) : State :=
  if ts.isEmpty then s else
  let evt := (s.reg .CX_EVT l.cx).setWidth 32
  noteCx l.cx ((ts.foldl (fun s t => startTile l evt t s) s).setReg .CX_EVT 0 l.cx)

/-- Start what may start: a bell launch on each tile on its own (R411), a ring launch on all its tiles at once (R410). -/
def startReady (id : Nat) (s : State) : State :=
  match s.launch id with
  | none => s
  | some l =>
    let go := l.bell || l.tiles.all fun x => x.st.isEnd || x.st == .ready || x.st == .running
    if go then startTiles l ((l.tiles.filter fun x => x.st == .ready).map (·.tile)) s else s

/-- What an evaluation's end does to the launch on its tile. -/
def evalEnds (id t : Nat) (r : EvalEnd × State) : State :=
  match r with
  | (.done, s) => modPart id t (fun x => { x with st := .ready, hold := none }) (s.modTile t fun x => { x with run := .launching })
  | (.held, s) => s.modTile t fun x => { x with run := .held }
  | (.failed st, s) => freeTile t (endPart id t st 0 s)

/-- The hold of the launch on tile `t`, if it is held under WAIT (R257). -/
def holdOn (t : Nat) (s : State) : Option (Launch × Hold) :=
  if (s.tile t).run == .held then
    (((s.tile t).launch.bind fun id => s.launch id).bind fun l =>
      ((l.part? t).bind (·.hold)).map fun h => (l, h))
  else none

/-- A held launch goes on once every primary page is RESIDENT, or at once when one of its raises has been refused: it
pins the pages that are resident and evaluates the rest of its list (R257). -/
def resolveHold (t : Nat) (s : State) : State :=
  match holdOn t s with
  | none => s
  | some (l, h) =>
    let ws := declWords h.list h.decl
    let lows := (declPages ws).filter fun n => (s.page n).st != .resident
    if !lows.isEmpty && !h.refused then s
    else
      let s := addPins l.id t ((declPages ws).filter fun n => (s.page n).st == .resident)
        (s.count .GRN_P_CNT 31 16 l.part)
      let r := match writePath l.part ws (pathWord 0 true (!lows.isEmpty) ws) s with
        | (.done, s) => evalFrom l.id t l.part l.mayWait h.list (l.ndecl - (h.decl + 1)) (h.decl + 1)
            (modPart l.id t (fun x => { x with hold := none }) s)
        | r => r
      noteCx l.cx (startReady l.id (evalEnds l.id t r))

/-- Every tile that holds a launch under WAIT looks again. -/
def resolvePass (s : State) : State := (s.tiles.map (·.1)).foldl (fun s t => resolveHold t s) s

/-- A launch one of whose raises has been refused proceeds at once, and so does one that its evaluation refuses
(R257). -/
def resolveRefused (s : State) : State :=
  (List.range 8).foldl (fun s _ =>
    if s.tiles.any fun e => (holdOn e.1 s).any (·.2.refused) then resolvePass s else s) s

/-- The held launches look again (R257). -/
def resolveHolds (s : State) : State := resolveRefused (resolvePass s)

/-- A launch on its tile goes on: the quad wakes, the configuration loads, the declarations are evaluated (R30, R254,
R410, R471). A radio launch that meets another epoch or a load is a plan violation (R30, R205). -/
def launchOn (t : Nat) (s : State) : State :=
  match (s.tile t).launch.bind fun id => s.launch id with
  | none => s
  | some l =>
    if (s.tile t).run != .launching || ((l.part? t).map (·.st)) != some .placed then s
    else if s.dormant (domQuad t) then (wakeTile t s).modTile t fun x => { x with wakeFor := true }
    else
      let plan := fun (s : State) => if s.radio && l.part == 0 then planLive s else s
      if (s.tile t).loading.isSome then plan s
      else if stale t s then startLoad t (plan s)
      else noteCx l.cx (resolveRefused (startReady l.id (evalEnds l.id t (evalLaunch l t 0 s))))

/-- A launch reaches a tile that is free for it. -/
def placeOn (id t : Nat) (s : State) : State :=
  match s.launch id with
  | none => s
  | some l =>
    let s := modLaunch id (fun l => { l with startNs := some (l.startNs.getD s.now) }) s
    let s := modPart id t (fun x => { x with st := .placed, hold := none }) s
    noteCx l.cx (launchOn t (s.modTile t fun x => { x with cx := some l.cx, launch := some id, run := .launching }))

/-! ### The commands on a tile -/

/-- KEND waits for the tags, the gang operations and its FENCEF (R97, R106, R166). -/
def execKend (t : Fin 128) (a : Fin 64) (s : State) : Ans :=
  .next (runInstr t false (fun s => waitIn t (.kend (fld ((s.core t).gr a) 14 0) (fenceSnap s)) s) s)

/-- The status and REASON with which the kernel on tile `t` ends now, if it does (R97, R102, R412, R413), and whether
it ends with KEND. The shipped monitor ends the kernel on every exception. -/
def kernelEnd (t : Nat) (s : State) : Option (Nat × Nat × Bool) :=
  let x := s.tile t
  if x.launch.isNone then none
  else if x.run = .halted then some (0x800F, 0, false)
  else if x.run != .running then none
  else match x.core.wait with
    | .kend st snap =>
      if x.core.tagBusy == 0 && x.gangs.isEmpty && fenceDone snap s then
        some (if x.core.tagErr != 0 then stMatrix else st, 0, true)
      else none
    | _ =>
      if x.core.modeM then match x.stopEnd with
        | some e => some (e.1, e.2, false)
        | none => some (0x8000 + x.core.ecause.toNat, 0, false)
      else none

/-- The kernel on tile `t` ends: other than through KEND it leaves no operation behind (R142). -/
def endKernel (t : Nat) (s : State) : State :=
  match kernelEnd t s with
  | none => s
  | some (st, reason, kend) =>
    let s := if kend then s else discardUnits t s
    match (s.tile t).launch with
    | some id => freeTile t (endPart id t st reason (s.modCore t fun c => { c with wait := .none }))
    | none => s

def execTileKernelEnd (t : Fin 128) (s : State) : Ans := .next (endKernel t s)

end Sys2Proof.Machine
end

