-- ==== Sys2Proof/Machine/Scheduler.lean ====
section
/-! DEFINITION. The scheduler: bell and ring launches, preemption and resumption, stopping, swapping
(13_partitions_and_scheduling.md R405 to R420; 01_architecture.md R28 to R31; 03_tile_isa.md R105, R108;
05_matrix_arrays.md R167 to R171). -/

namespace Sys2Proof.Machine

open Sys2Proof

/-! ### Saving and restoring (R28, R31, R167 to R170) -/

/-- The tile stops at an instruction boundary and starts to save its context (R28, R105, R167). -/
def startSave (t : Nat) (s : State) : State :=
  let s := (List.range 5).foldl (fun s u => runPart t u true s) s
  noteTile t (s.modTile t fun x => { x with
    run := .saving
    units := (List.range 5).foldl (fun us u =>
      Tab.set (fun _ => MUnit.reset) us u { (x.munit u).paused with st := .saving }) x.units })

/-- The core has reached the boundary: no atomic is on its way (R88, R105). -/
def atBoundary (c : CoreRegs) : Bool :=
  match c.wait with
  | .remoteAtomic .. => false
  | .heldAtomic => false
  | _ => true

/-- The image of what is on a tile: a wait in progress is abandoned, to be executed again (R105, R168). -/
def Tile.image (x : Tile) : Option Image :=
  match x.cx, x.launch with
  | some c, some l => some ⟨{ x.core with wait := .none }, x.units, x.digest, x.gangs, c, l⟩
  | _, _ => none

/-- Change every unit of tile `t`. -/
def modUnits (t : Nat) (f : Nat → MUnit → MUnit) (s : State) : State :=
  s.modTile t fun x => { x with
    units := (List.range 5).foldl (fun us u => Tab.set (fun _ => MUnit.reset) us u (f u (x.munit u))) x.units }

/-- The units after a save: empty, in KEEP, or ramping down where KEEP_NS is 0 (R161, R169). -/
def keepUnits (t : Nat) (s : State) : State :=
  modUnits t (fun u _ => { MUnit.reset with st := unitRest t u s, keepAt := s.now })
    (s.modTile t fun x => { x with gangs := [] })

/-- The context leaves the tile; its save area in segment 31 of the hamlet store holds an image of a layout that the
spec does not give (R168, R401). -/
def vacate (t : Nat) (s : State) : State :=
  (s.loseRegion (hamletBase (t / 16) + 31 * 0x100000) 0x100000).modTile t fun x => { x with
    cx := none, launch := none, run := .idle, stopReq := none, stopEnd := none }

/-- Load the saved weights of a plane again (R168, R170). -/
def replayLoad (t u : Nat) (o : Option MatOp) (s : State) : State :=
  match o with
  | none => s
  | some o =>
    let n := ((s.tile t).munit u).queue.length
    let o := { o with tag := none, gang := none }
    finishLoad t u n o (modUnit t u (fun m => { m with queue := m.queue ++ [o] }) s)

/-- A load whose image stands for a plane was complex, and wrote both planes. -/
def loadsBoth (o : Option MatOp) : Bool := (o.map fun o => o.fmt.wf) == some 2

/-- A unit takes its saved context: the loads of its planes that are not empty are replayed, a complex load that a later
one has overwritten in part before that one; then its queue goes on, with no ramp unless KEEP is disabled (R161,
R170). -/
def restoreUnit (t u : Nat) (s : State) : State :=
  let m := (s.tile t).munit u
  let s := if m.image0 = m.image1 && loadsBoth m.image0 then replayLoad t u m.image0 s
    else if loadsBoth m.image1 then replayLoad t u m.image0 (replayLoad t u m.image1 s)
    else replayLoad t u m.image1 (replayLoad t u m.image0 s)
  modUnit t u (fun x => { x with
    plane0 := if m.image0.isNone then .empty else x.plane0
    image0 := if m.image0.isNone then none else x.image0
    plane1 := if m.image1.isNone then .empty else x.plane1
    image1 := if m.image1.isNone then none else x.image1
    st := if x.queue.isEmpty || unitRest t u s == .rampDown then unitRest t u s else .active
    keepAt := s.now }) s

/-- A unit's saved context, with the gang operations that have reached the tile since behind its queue (R165, R168). -/
def MUnit.withGangs (m : MUnit) (ops : List MatOp) : MUnit :=
  ops.foldl (fun m o =>
    let r := m.take o
    { r.2 with gangPend := r.2.gangPend ++ [{ r.1 with running := false, late := true }] }) m

/-- A saved context is on the tile again and runs, with the event bits latched for it (R28, R170, R408). -/
def restoreImage (t : Nat) (im : Image) (evt : BitVec 32) (s : State) : State :=
  let s := s.modTile t fun x => { x.noteHist im.cx with
    core := { im.core with tevt := im.core.tevt ||| evt }
    units := (List.range 5).foldl (fun us u => Tab.set (fun _ => MUnit.reset) us u
      ((Tab.get (fun _ => MUnit.reset) im.units u).withGangs ((x.munit u).queue ++ (x.munit u).gangPend))) im.units
    digest := im.digest
    gangs := im.gangs ++ x.gangs
    cx := some im.cx
    launch := some im.launch
    run := .running
    loopFill := []
    stopReq := none
    stopEnd := none }
  (List.range 5).foldl (fun s u => restoreUnit t u s) s

/-- Event bits latched for context `c`, and the state without them (R408). -/
def takeLatched (c : Nat) (s : State) : BitVec 32 × State :=
  ((s.reg .CX_EVT c).setWidth 32, s.setReg .CX_EVT 0 c)

/-! ### Abandoning and stopping (R257, R416, R417) -/

/-- The RAISEs placed for launch `id` held on tile `t` stay in the queue, for no hold any more (R257). -/
def keepRaises (id t : Nat) (s : State) : State :=
  let free := fun (c : GrnCmd) => if c.hold = some (id, t) then { c with hold := none } else c
  modGrn (fun g => { g with
    queues := g.queues.map fun q => (q.1, q.2.map free)
    pendRaise := g.pendRaise.map fun e => (e.1, free e.2) }) s

/-- A launch that has not started on its tile leaves it: its pins are released, and its raises go on without it (R257,
R417). -/
def unstage (id t : Nat) (s : State) : State :=
  let s := modPart id t (fun x => { x with st := .waiting, hold := none }) (unpinPart id t (keepRaises id t s))
  let s := s.modTile t fun x => { x with cx := none, launch := none, run := .idle, wakeFor := false }
  match s.launch id with
  | some l => noteCx l.cx s
  | none => s

/-- It is abandoned, to be delivered again; the wait before a relocation begins (R417). -/
def abandonLaunch (id t : Nat) (s : State) : State :=
  (unstage id t s).modTile t fun x => { x with redeliver := x.redeliver ++ [id], savedAt := s.now }

/-- A restore begins on tile `t` (R170, R172): the units show it, and a dormant quad wakes. -/
def startRestore (t : Nat) (s : State) : State :=
  modUnits t (fun _ m => { m with st := .restoring }) ((wakeTile t s).modTile t fun x => { x with run := .restoring })

/-- A restore on tile `t` stops at once: nothing is saved, because the saved image is intact (R31). The image of a
context that is being swapped in is then kept for the tile, as after a preemption (notes/assumptions/163.md), and the
units are as after a save. -/
def cutRestore (t : Nat) (s : State) : State :=
  let s := modUnits t (fun u m => { m with st := unitRest t u s, keepAt := s.now }) s
  match (s.tile t).cx with
  | none => s
  | some c =>
    let im := if (s.cx c).swap = 6 then ((s.cx c).images.find? fun i => i.1 == t).map (·.2) else none
    let s := match im with
      | some im => modCx c (fun x => { x with images := x.images.filter fun i => i.1 != t })
          (s.modTile t fun x => { x with saved := some im, savedAt := s.now })
      | none => s
    noteCx c (s.modTile t fun x => { x with cx := none, launch := none, run := .idle })

/-- The image saved for a tile, wherever it lies, is discarded (R416). -/
def dropImage (c t : Nat) (s : State) : State :=
  modCx c (fun x => { x with images := x.images.filter fun i => i.1 != t }) (s.modTile t fun x => { x with saved := none })

/-- Stop launch `id` on tile `t`: a running kernel is asked to stop, a saved image ends without a restore, anything else
ends at once (R412, R416). -/
def stopPart (id t status reason : Nat) (s : State) : State :=
  match (s.launch id).bind fun l => (l.part? t).map fun x => (l, x) with
  | none => s
  | some (l, x) => match x.st with
    | .ended .. => s
    | .waiting => endPart id t status reason (s.modTile t fun x =>
        { x with waiting := x.waiting.filter (· != id), redeliver := x.redeliver.filter (· != id) })
    | .reserved => endPart id t status reason s
    | .running =>
      let u := s.tile t
      if u.launch = some id then
        if u.run == .restoring then
          freeTile t (endPart id t status reason (discardUnits t (dropImage l.cx t s)))
        else if u.run == .halted then s
        else s.modTile t fun x => { x with stopReq := some (status, reason) }
      else if (u.saved.map (·.launch)) = some id then
        endPart id t status reason (s.modTile t fun x => { x with saved := none })
      else endPart id t status reason (modCx l.cx (fun c => { c with images := c.images.filter fun i => i.1 != t }) s)
    | _ => freeTile t (endPart id t status reason (unstage id t s))

/-- Stop a launch on every tile where it has not ended. -/
def stopLaunch (id status reason : Nat) (s : State) : State :=
  match s.launch id with
  | some l => l.tiles.foldl (fun s x => stopPart id x.tile status reason s) s
  | none => s

/-- A STOP is taken: exception STOP, in either mode (R102, R105). -/
def takeStop (t : Nat) (e : Nat × Nat) (s : State) : State :=
  let s := s.modTile t fun x => { x with
    core := x.core.enter (s.reg .TILE_MVEC t) 0x0D 0, loopFill := [], stopReq := none, stopEnd := some e }
  noteTile t (showException t 0x0D (s.core t).epc 0 s)

/-- The STOP of context `c` on tile `t`: a running kernel takes it at an instruction boundary; one that is being saved
takes it after its save; a saved image ends without a restore (R105, R416). -/
def stopOn (t c : Nat) (s : State) : State :=
  let x := s.tile t
  let e := x.stopReq.getD (stAborted, 1)
  if x.cx = some c then
    if x.run = .running && x.launch.isSome && x.stopEnd.isNone then
      if atBoundary x.core then takeStop t e s else s.modTile t fun x => { x with stopReq := some e }
    else match x.launch with
      | some id => if x.run == .running then s else stopPart id t e.1 e.2 s
      | none => s
  else match x.saved with
    | some im => if im.cx = c then stopPart im.launch t stAborted 1 s else s
    | none => s

/-! ### Bell launches (R28, R411) -/

/-- No ring launch keeps its reservation of a tile that a bell launch takes (R410). -/
def unreserve (t : Nat) (s : State) : State :=
  modSched (fun d => { d with launches := d.launches.map fun l =>
    { l with tiles := l.tiles.map fun x => if x.tile = t && x.st == .reserved then { x with st := .waiting } else x } }) s

/-- The tile runs nothing and launches nothing. -/
def tileFree (t : Nat) (s : State) : Bool := (s.tile t).run == .idle && (s.tile t).cx.isNone

/-- The context holds a scheduler slot and is not being swapped. A context with nothing in its swap area takes a free
slot for a bell launch. -/
def residentFor (c : Nat) (s : State) : Bool × State :=
  let x := s.cx c
  if x.swap = 0 then (true, s)
  else if x.swap = 5 && !x.stored && decide (slotsUsed s < 64) then (true, modCx c (fun x => { x with swap := 0 }) s)
  else (false, s)

/-- A bell launch waits at tile `t`. -/
def waitAt (id t : Nat) (s : State) : State := s.modTile t fun x => { x with waiting := x.waiting ++ [id] }

/-- A borrower's context makes way for the radio (R28, R31, R417). -/
def preempt (t : Nat) (s : State) : State :=
  let x := s.tile t
  match x.run with
  | .running => startSave t s
  | .restoring => cutRestore t s
  | .launching => x.launch.elim s fun id => abandonLaunch id t s
  | .held => x.launch.elim s fun id => abandonLaunch id t s
  | _ => s

/-- A bell launch is delivered to tile `t`: it starts on a free tile, a radio launch preempts a lent one, and any other
waits for the end of a kernel, its borrower's or the one that waits before it, and is counted late (R28, R411). A halted tile runs nothing: for the radio that is a fault (R35, R104). -/
def bellTo (id t : Nat) (s : State) : State :=
  match s.launch id with
  | none => s
  | some l =>
    let radio := s.radio && l.part == 0
    let s := if radio && (s.tile t).run == .halted then faultOf (some 0) s else s
    let first := (s.tile t).waiting.isEmpty
    let s := if radio && s.lent t then preempt t s else s
    let r := residentFor l.cx s
    let s := r.2
    if tileFree t s && (s.tile t).waiting.isEmpty && r.1 then placeOn id t (unreserve t s)
    else
      let s := waitAt id t s
      if tileFree t s || (radio && first && (s.tile t).run == .saving) then s else s.count .PART_P_CNT 63 48 l.part

/-- A launch of an entry. -/
def mkLaunch (id p c k : Nat) (bell : Bool) (ws : List Word) (ts : List Nat) : Launch :=
  { id := id, part := p, cx := c, kentry := k, cls := entCls ws, quiet := bit (wordAt ws 0) 53, stepEnd := false
    tag := 0, step := 0, bell := bell, pc := fld (wordAt ws 0) 51 0, arg := fld (wordAt ws 1) 51 0
    image := fld (wordAt ws 3) 31 0, dlNs := fld (wordAt ws 3) 63 32, ndecl := entNdecl ws, decl := entDecl ws
    startNs := none, tiles := ts.map fun t => ⟨t, .waiting, [], none⟩, heldEpochs := [] }

/-- Take a launch, with the next number. -/
def addLaunch (f : Nat → Launch) (s : State) : Nat × State :=
  let id := s.sched.nextId
  (id, modSched (fun d => { d with nextId := id + 1, launches := d.launches ++ [f id] }) s)

/-- The partition takes no launch (R430). -/
def partStopped (p : Nat) (s : State) : Bool := s.rf .PART_P_CTL 1 0 p != 0

/-- A LAUNCH action (R411): one launch over the tiles of the mask in the context's set. -/
def launchBell (d : Delivery) (s : State) : State :=
  let p := d.owner
  let r := readEntry p d.arg s
  let s := r.2.2
  let k := d.arg % 4096
  let start := BitVec.ofNat 64 d.fireTime
  match r.1 with
  | none => s.count .PART_P_CNT 15 0 p
  | some ws =>
    let c := entCx ws
    if !cxOk p c s then s.count .PART_P_CNT 15 0 p
    else
      let now := fun (st reason : Nat) (s : State) =>
        noteCx c (faultOf (some p) (finishLaunch c (bit (wordAt ws 0) 53) st reason false 0
          (recordWords k 0 reason 0 st 0 0 0 start) s))
      match r.2.1 with
      | some st => now st 0 s
      | none =>
        let ts := tilesOf (d.mask &&& s.cxTiles c)
        let s := s.count .PART_P_CNT 15 0 p 0 ((tilesOf d.mask).length - ts.length)
        if partStopped p s then now stAborted 2 s
        else if ts.isEmpty then now stNoTile 0 s
        else
          let l := addLaunch (fun id => { mkLaunch id p c k true ws ts with startNs := some d.fireTime }) s
          noteCx c (ts.foldl (fun s t => bellTo l.1 t s) l.2)

/-! ### Ring launches (R409, R410) -/

/-- A ring launch ends at once. -/
def ringEnds (c k tag step : Nat) (stepEnd : Bool) (st reason : Nat) (s : State) : State :=
  let start := s.open
  noteCx c (faultOf (some (s.cxPart c)) (finishLaunch c false st reason stepEnd step
    (recordWords k 0 reason tag st step 0 0 start) s.used))

/-- Take the entry at the head of context `c`'s ring; `force` ends it with a status and REASON (R404, R409, R429,
R430). -/
def takeEntry (c : Nat) (force : Option (Nat × Nat)) (s : State) : State :=
  let p := s.cxPart c
  let head := s.rf .CX_LQ_HEAD 15 0 c
  let r := schedRead p (s.rf .CX_RING 51 6 c * 64 + head % cxSize c s * 32) 32 s
  let s := r.2.putReg .CX_LQ_HEAD 15 0 (head + 1) c
  match r.1 with
  | .error st => ringEnds c 0 0 0 false (force.elim st (·.1)) (force.elim 0 (·.2)) s
  | .ok es =>
    let w0 := wordAt es 0
    let k := fld w0 63 52
    let tag := fld w0 47 32
    let step := fld w0 31 0
    let fin := fun (st reason : Nat) (s : State) => ringEnds c k tag step (bit w0 50) st reason s
    match force with
    | some f => fin f.1 f.2 s
    | none =>
      if partStopped p s then fin stAborted 2 s
      else if bit w0 48 || fld (wordAt es 1) 63 52 != 0 then fin stBadEntry 0 s
      else
        let e := readEntry p k s
        let s := e.2.2
        match e.1, e.2.1 with
        | _, some st => fin st 0 s
        | none, none => fin stBadEntry 0 s
        | some ws, none =>
          if entCx ws ≠ c then fin stBadEntry 0 s
          else
            let m := mask128 (wordAt es 2) (wordAt es 3)
            let ts := tilesOf ((if m = 0 then s.cxTiles c else m &&& s.cxTiles c) &&& s.enabledMap)
            if ts.isEmpty then fin stNoTile 0 s
            else (addLaunch (fun id =>
              let l := mkLaunch id p c k false ws ts
              { l with tag := tag, step := step, stepEnd := bit w0 50
                       arg := if bit w0 49 then fld (wordAt es 1) 51 0 else l.arg }) s).2

/-- The ring of context `c` holds an entry. -/
def ringHas (c : Nat) (s : State) : Bool := s.rf .CX_LQ_HEAD 15 0 c != s.rf .CX_LQ_TAIL 15 0 c

/-- The next entry may be taken: the context is resident, no record is held, and an entry with FENCE waits for every
earlier launch (R409, R415). -/
def mayTake (c : Nat) (s : State) : Bool :=
  ringHas c s && (s.cx c).swap == 0 && (s.cx c).records.isEmpty &&
    (let a := s.rf .CX_RING 51 6 c * 64 + s.rf .CX_LQ_HEAD 15 0 c % cxSize c s * 32
     (cxLaunches c s).isEmpty || !bit (BitVec.ofNat 64 (leVal (bytesAt a 8 s))) 51)

/-- Take entries in order while that is allowed. -/
def takeEntries (c : Nat) : Nat → State → State
  | 0, s => s
  | n + 1, s => if mayTake c s then takeEntries c n (takeEntry c none s) else s

/-- The scheduler may place a launch on tile `t`: the partition holds it, or may borrow it with the context's tile-store
region in the lent region (R401, R405). -/
def mayPlace (l : Launch) (t : Nat) (s : State) : Bool :=
  let ofs := s.rf .CX_TS 53 48 l.cx * 65536
  s.holdsTile l.part t || (l.part != 0 && s.partValid l.part && s.rb .PART_P_CTL 62 l.part && s.lendable t &&
    decide (s.lendOfs ≤ ofs ∧ ofs + s.rf .CX_TS 21 16 l.cx * 65536 ≤ tileStoreBytes))

/-- Launch `a` comes before `b`: CLASS, then PRIO, then the order in which they became ready (R410). -/
def launchBefore (a b : Launch) (s : State) : Bool :=
  let pa := s.rf .CX_CTL 11 8 a.cx
  let pb := s.rf .CX_CTL 11 8 b.cx
  decide (a.cls < b.cls ∨ (a.cls = b.cls ∧ (pb < pa ∨ (pa = pb ∧ a.id < b.id))))

/-- The ring launch that tile `t` is reserved for next. -/
def bestRing (t : Nat) (s : State) : Option Launch :=
  (s.sched.launches.filter fun l => !l.bell && (s.cx l.cx).swap == 0 && !(s.tile t).redeliver.contains l.id &&
    ((l.part? t).map (·.st)) == some .waiting && mayPlace l t s).foldl (fun m l => match m with
      | none => some l
      | some b => if launchBefore l b s then some l else some b) none

/-- Some ring launch has the tile reserved. -/
def reservedTile (t : Nat) (s : State) : Bool :=
  s.sched.launches.any fun l => ((l.part? t).map (·.st)) == some .reserved

/-- A free tile serves what waits for it: bell launches, the context preempted on it, a launch to be delivered again,
ring launches (R410, R417). -/
def serveTile (t : Nat) (s : State) : State :=
  if !s.enabled t || !tileFree t s then s else
  let x := s.tile t
  let bells := x.waiting.filter fun id => match s.launch id with
    | some l => (residentFor l.cx s).1
    | none => false
  match bells with
  | id :: _ =>
    let s := s.modTile t fun x => { x with waiting := x.waiting.erase id }
    let s := match s.launch id with
      | some l => (residentFor l.cx s).2
      | none => s
    placeOn id t (unreserve t s)
  | [] =>
    let ready := fun (c : Nat) => (s.cx c).swap == 0
    match x.saved with
    | some im =>
      if ready im.cx then
        noteCx im.cx (startRestore t (s.modTile t fun x => { x with cx := some im.cx, launch := some im.launch }))
      else s
    | none => match x.redeliver.find? fun id => match s.launch id with
        | some l => ready l.cx
        | none => false with
      | some id => placeOn id t (s.modTile t fun x => { x with redeliver := x.redeliver.erase id })
      | none =>
        if reservedTile t s then s
        else match bestRing t s with
          | some l => modPart l.id t (fun x => { x with st := .reserved }) s
          | none => s

/-- A ring launch that has every tile reserved reaches them all at once (R410). -/
def deliverRing (id : Nat) (s : State) : State :=
  match s.launch id with
  | none => s
  | some l =>
    if !l.bell && l.tiles.any (fun x => x.st == .reserved) &&
        l.tiles.all fun x => x.st.isEnd || x.st == .reserved then
      (l.tiles.filter fun x => x.st == .reserved).foldl (fun s x => placeOn id x.tile s) s
    else s

/-! ### Swapping (R418, R419) -/

/-- A SWAPPED context is runnable (R418); a bell launch that waits for it counts as well. -/
def runnable (c : Nat) (s : State) : Bool :=
  let x := s.cx c
  s.cxValid c && x.swap == 5 && (ringHas c s || ((s.reg .CX_EVT c).toNat &&& x.waite) != 0 ||
    (cxLaunches c s).any fun l => l.bell && l.tiles.any fun y => (s.tile y.tile).waiting.contains l.id)

/-- BLOCK_US; 0 is treated as 1. -/
def blockUs (s : State) : Nat := max 1 (s.rf .PART_CTL 47 32)

/-- Context `v` may be swapped out for a context of priority `prio` (R418). -/
def victimOk (v prio : Nat) (s : State) : Bool :=
  let k := cxState v s
  (s.cx v).swap == 0 && s.cxValid v && !cxPinned v s && (k == 0 || k == 3) && decide (blockUs s ≤ blkUs v s) &&
    decide (s.rf .CX_CTL 11 8 v ≤ prio)

/-- The victim among some contexts: the lowest PRIO, then the greatest BLK_US, then the highest number. -/
def pickVictim (vs : List Nat) (s : State) : Option Nat :=
  let before := fun (a b : Nat) =>
    let pa := s.rf .CX_CTL 11 8 a
    let pb := s.rf .CX_CTL 11 8 b
    decide (pa < pb ∨ (pa = pb ∧ (blkUs b s < blkUs a s ∨ (blkUs a s = blkUs b s ∧ b < a))))
  vs.foldl (fun m v => match m with
    | none => some v
    | some b => if before v b then some v else some b) none

/-- The tiles on which context `c` is. -/
def tilesWith (c : Nat) (s : State) : List Nat :=
  (s.tiles.map (·.1)).filter fun t => (s.tile t).cx == some c

/-- A swap-out starts: each tile stops, a held launch is abandoned to be executed again (R419). -/
def swapOut (c : Nat) (s : State) : State :=
  let s := (tilesWith c s).foldl (fun s t => preempt t s) s
  noteCx c (modCx c (fun x => { x with swap := 4 }) (s.count .PART_P_CNT 47 32 (s.cxPart c)))

/-- The images that a swap-in puts back have their tiles free. -/
def imagesFit (c : Nat) (s : State) : Bool :=
  (s.cx c).images.all fun i => tileFree i.1 s && (s.tile i.1).saved.isNone && (s.tile i.1).waiting.isEmpty

/-- A swap-in starts; a context with nothing to restore is resident at once (R406, R419). -/
def swapIn (c : Nat) (s : State) : State :=
  if !(s.cx c).stored then noteCx c (modCx c (fun x => { x with swap := 0 }) s)
  else
    let s := (s.cx c).images.foldl (fun s i => startRestore i.1 ((unreserve i.1 s).modTile i.1 fun x =>
      { x with cx := some c, launch := some i.2.launch })) s
    noteCx c (modCx c (fun x => { x with swap := 6 }) s)

/-- The runnable contexts, higher PRIO first. -/
def runnables (s : State) : List Nat :=
  let cs := (cxList s).filter fun c => runnable c s
  (List.range 16).flatMap fun k => cs.filter fun c => s.rf .CX_CTL 11 8 c == 15 - k

/-- A runnable context takes a free slot, or another context is chosen to be swapped out (R418). -/
def needSlot (c : Nat) (s : State) : State :=
  if slotsUsed s < 64 then if imagesFit c s then swapIn c s else s
  else if (cxList s).any fun v => (s.cx v).swap == 4 then s
  else match pickVictim ((cxList s).filter fun v => v != c && victimOk v (s.rf .CX_CTL 11 8 c) s) s with
    | some v => swapOut v s
    | none => s

/-- A READY launch, whose own context is resident, that needs a tile which a BLOCKED context occupies has it swapped out
(R418). -/
def needTiles (l : Launch) (s : State) : State :=
  let need := (l.tiles.filter fun x => x.st == .waiting).map (·.tile)
  let vs := need.filterMap fun t => (s.tile t).cx
  if l.bell || (s.cx l.cx).swap != 0 || vs.any (fun v => (s.cx v).swap == 4) then s
  else match pickVictim ((vs.filter fun v => v != l.cx && cxState v s == 3 &&
      victimOk v (s.rf .CX_CTL 11 8 l.cx) s).eraseDups) s with
    | some v => swapOut v s
    | none => s

/-- What the scheduler does when a tile frees or a launch becomes ready (R410, R418). -/
def dispatch (s : State) : State :=
  let s := (runnables s).foldl (fun s c => needSlot c s) s
  let s := (cxList s).foldl (fun s c => noteCx c (takeEntries c (cxSize c s) s)) s
  let s := (List.range 128).foldl (fun s t => serveTile t s) s
  let s := (s.sched.launches.map (·.id)).foldl (fun s id => deliverRing id s) s
  (s.sched.launches.filter fun l => !l.bell).foldl (fun s l => needTiles l s) s

/-- The swap area of the `k`th tile of context `c`'s set (R419). -/
def swapAddr (c k : Nat) (s : State) : Nat :=
  s.rf .CX_SWAP 51 16 c * 65536 + k * (32768 + s.rf .CX_TS 21 16 c * 65536)

/-- The tile-store region of context `c` on tile `t`. -/
def tsBase (c t : Nat) (s : State) : Nat := tileBase t + s.rf .CX_TS 53 48 c * 65536

def tsLen (c : Nat) (s : State) : Nat := s.rf .CX_TS 21 16 c * 65536

/-- Copy whole words by the scheduler: a word that can be corrected is, and an uncorrectable one faults, with its record,
and is copied as it stands, so that every later consumer of the copy faults on it too (R266;
notes/assumptions/164.md). -/
def copyRegion (w : Who) (src dst len : Nat) (s : State) : State :=
  let bad := badWords src len s
  let s := bad.foldl (fun s b => memErrRecord .uncorr w (b * 32) 0 s) s
  let data := bytesAt src len s
  match devWrite w dst data 0 (readCorrects s (wordsOf src len)) with
  | (some _, s) => s
  | (none, s') => bad.foldl (fun r b => r.setEcc (dst / 32 + (b - src / 32)) (s.eccOf b)) s'

/-- Write a context image to the swap area, where the owner holds it: its 32 KiB are charged, and the spec does not give
their layout (R419). -/
def writeImage (w : Who) (a : Nat) (s : State) : State :=
  match rangeCheck w.part a 32768 s with
  | some e => memErrRecord e w a 0 s
  | none =>
    let s := (wordsOf a 32768).foldl (fun s x => s.eccClean x) ((dirtyLog a s).loseRegion a 32768)
    tierCharge w a 32768 s

/-- One tile's part of a swap-out: the image, and the tile-store region. -/
def swapOutTile (c k t : Nat) (s : State) : State :=
  let a := swapAddr c k s
  let x := s.tile t
  let im := if x.cx = some c then x.image else x.saved.bind fun i => if i.cx = c then some i else none
  let w := whoUnit 0 0 (s.cxPart c)
  match im with
  | none => copyRegion w (tsBase c t s) (a + 32768) (tsLen c s) s
  | some im =>
    let s := copyRegion w (tsBase c t s) (a + 32768) (tsLen c s) (writeImage w a s)
    match if x.cx = some c then x.stopReq else none with
    | some e => freeTile t (endPart im.launch t e.1 e.2 (keepUnits t s))
    | none =>
      let s := modCx c (fun y => { y with images := y.images ++ [(t, im)], waite := y.waite ||| (match x.core.wait with
        | .event _ m => if x.cx = some c then m.toNat else 0
        | _ => 0) }) s
      if x.cx = some c then freeTile t (keepUnits t s) else s.modTile t fun x => { x with saved := none }

/-- A swap-out completes (R419). -/
def swapOutDone (c : Nat) (s : State) : State :=
  if (s.cx c).swap != 4 || (tilesWith c s).any (fun t => !atBoundary (s.core t)) then s else
  let s := modCx c (fun x => { x with images := [], waite := 0 }) s
  let s := ((tilesOf (s.cxTiles c)).zipIdx).foldl (fun s e => swapOutTile c e.2 e.1 s) s
  noteCx c (modCx c (fun x => { x with swap := 5, stored := true }) s)

/-- One tile's part of a swap-in: 0, or the status with which a context that cannot be restored ends (R413). -/
def swapInTile (c k t : Nat) (s : State) : Nat × State :=
  let a := swapAddr c k s
  match devRead (whoUnit 0 0 (s.cxPart c)) a (32768 + tsLen c s) 0x006 s with
  | (.error .uncorr, s) => (stRestore, s)
  | (.error _, s) => (stAborted, s)
  | (.ok d, s) => (0, storeBytes (tsBase c t s) (d.drop 32768) s)

/-- The image of context `c` that a cut restore has left on tile `t` cannot be restored either: its part of the launch
ends (R413). -/
def loseSaved (c t status : Nat) (s : State) : State :=
  match (s.tile t).saved with
  | some im => if im.cx = c then endPart im.launch t status 0 (s.modTile t fun x => { x with saved := none }) else s
  | none => s

/-- A swap-in completes: the context goes on, with CX_EVT merged where it starts on a tile (R408, R419). -/
def swapInDone (c : Nat) (s : State) : State :=
  if (s.cx c).swap != 6 || (tilesWith c s).any (fun t => s.dormant (domQuad t)) then s else
  let ims := (s.cx c).images
  let evt := (s.reg .CX_EVT c).setWidth 32
  let s := modCx c (fun x => { x with swap := 0, stored := false, images := [], waite := 0 }) s
  noteCx c (((tilesOf (s.cxTiles c)).zipIdx).foldl (fun s x =>
    let r := swapInTile c x.2 x.1 s
    match ims.find? fun i => i.1 == x.1 with
    | none => if r.1 = 0 then r.2 else loseSaved c x.1 r.1 r.2
    | some i =>
      if r.1 = 0 then (restoreImage x.1 i.2 evt r.2).setReg .CX_EVT 0 c
      else freeTile x.1 (endPart i.2.launch x.1 r.1 0 (discardUnits x.1 r.2))) s)

/-! ### Events of the scheduler -/

/-- The save completes; a STOP met meanwhile applies to the saved image, and the radio launch proceeds (R28, R105, R169,
R416). -/
def saveDone (t : Nat) (s : State) : State :=
  let x := s.tile t
  let swapping := match x.cx with
    | some c => (s.cx c).swap == 4
    | none => true
  if x.run != .saving || swapping || !atBoundary x.core then s
  else match x.image with
    | none => s
    | some im =>
      let s := vacate t (keepUnits t s)
      let s := s.modTile t fun x => { x with saved := some im, savedAt := s.now }
      let s := noteCx im.cx s
      let s := match x.stopReq with
        | some e => stopPart im.launch t e.1 e.2 s
        | none => s
      match x.waiting with
      | id :: ws => placeOn id t ((unreserve t s).modTile t fun x => { x with waiting := ws })
      | [] => s

/-- The restore completes; `bad` when the saved image met an uncorrectable word (R170, R413). -/
def restoreDone (t : Nat) (bad : Bool) (s : State) : State :=
  let x := s.tile t
  match x.saved with
  | none => s
  | some im =>
    if x.run != .restoring || (s.cx im.cx).swap != 0 || s.dormant (domQuad t) then s
    else
      let s := s.modTile t fun x => { x with saved := none }
      if bad then
        let s := errRecord 0x001 ⟨1, t, some (s.cxPart im.cx)⟩ (hamletBase (t / 16) + 31 * 0x100000) 0x006 s
        freeTile t (endPart im.launch t stRestore 0 (discardUnits t s))
      else
        let e := takeLatched im.cx s
        noteCx im.cx (restoreImage t im e.1 e.2)

/-- LTIME + DL_NS has come (R412). -/
def launchDeadline (id : Nat) (s : State) : State :=
  match s.launch id with
  | some l =>
    let due := match l.startNs with
      | some n => l.dlNs != 0 && decide (n + l.dlNs ≤ s.now)
      | none => false
    if due then stopLaunch id stDeadline 0 s else s
  | none => s

/-- The mailbox messages that a kernel has sent from tile `t` follow it to tile `u` with its staging set (R417, R442,
R448). -/
def sendersMove (id t u : Nat) (s : State) : State :=
  { s with hl := { s.hl with senders := s.hl.senders.map fun m =>
      if m.2.kind = 1 ∧ m.2.id = t ∧ m.2.launch = some id then (m.1, { m.2 with id := u }) else m } }

/-- RESUME_US has passed: a RELOC context is resumed on another idle tile of its set, where no launch of the same context
is; its tile-store region goes with it (R417). The same holds for a launch to be delivered again. -/
def relocate (t u : Nat) (s : State) : State :=
  let x := s.tile t
  let who := match x.saved with
    | some im => some (im.cx, im.launch)
    | none => x.redeliver.head?.bind fun id => (s.launch id).map fun l => (l.cx, id)
  match who with
  | none => s
  | some (c, id) => match s.launch id with
    | none => s
    | some l =>
      let busy := (cxLaunches c s).any fun y => match y.part? u with
        | some p => !p.st.isEnd
        | none => false
      if t = u || !s.rb .CX_CTL 61 c || tileFree t s || decide (s.now < x.savedAt + max 1 (s.rf .PART_CTL 31 16) * 1000) ||
          !inMask (s.cxTiles c) u || !s.enabled u || !tileFree u s || busy || reservedTile u s || !mayPlace l u s ||
          (s.tile u).saved.isSome || !(s.tile u).waiting.isEmpty || (s.cx c).swap != 0 then s
      else
        let s := copyRegion (whoUnit 0 0 (s.cxPart c)) (tsBase c t s) (tsBase c u s) (tsLen c s) s
        let s := modPart id t (fun y => { y with tile := u }) s
        let s := sendersMove id t u s
        let s := s.modTile t fun y => if y.saved.isSome then { y with saved := none }
          else { y with redeliver := y.redeliver.tail }
        let s := s.modTile u fun y => match x.saved with
          | some im => { y with saved := some im, savedAt := x.savedAt }
          | none => { y with redeliver := id :: y.redeliver }
        serveTile u s

/-! ### Writes -/

/-- Who may write the ring indices of context `c` (R431). -/
def mayCx (ag : Agent) (c : Nat) (s : State) : Bool :=
  match ag with
  | .steward => true
  | .tile _ => s.actsFor ag (s.cxPart c)
  | .host f => s.actsFor ag (s.cxPart c) && s.rf .CX_CTL 52 48 c == f.toNat

/-- A launch ring's tail may move: not backward, and not past CX_CQ_HEAD by more than the ring's size, of which it may also
be short, because the records of bell launches move that head too (R409, R411). -/
def cxTailOk (size old head new : Nat) : Bool :=
  decide (idxDiff new old < 32768 ∧ (idxDiff new head ≤ size ∨ 32768 ≤ idxDiff new head))

/-- A launch ring's tail (R409). -/
def cxTailWrite (ag : Agent) (c : Nat) (v : Word) (s : State) : State :=
  if !mayCx ag c s then refusePermission s
  else if cxTailOk (cxSize c s) (s.rf .CX_LQ_TAIL 15 0 c) (s.rf .CX_CQ_HEAD 15 0 c) (fld v 15 0) then
    s.putReg .CX_LQ_TAIL 15 0 (fld v 15 0) c
  else s.flag .PART_ERR 4

/-- A completion ring's head: held records are written into the room (R415). -/
def cxHeadWrite (ag : Agent) (c : Nat) (v : Word) (s : State) : State :=
  if !mayCx ag c s then refusePermission s
  else if headOk (s.rf .CX_CQ_HEAD 15 0 c) (s.rf .CX_CQ_TAIL 15 0 c) (fld v 15 0) then
    flushRecords c 64 (s.putReg .CX_CQ_HEAD 15 0 (fld v 15 0) c)
  else s

/-- The context whose partition owns a steward write of TILE_TEVT_SET: running, saved, or last there (R108). -/
def tevtCx (t : Nat) (s : State) : Option Nat :=
  let x := s.tile t
  match x.cx with
  | some c => some c
  | none => match x.saved with
    | some im => some im.cx
    | none => x.hist.head?

/-- A write of TILE_TEVT_SET (R108): an EVENT action. A disabled tile ignores it (R3). -/
def tevtSet (ag : Agent) (t : Nat) (v : Word) (s : State) : State :=
  if !s.enabled t then s
  else match ag with
    | .steward => match tevtCx t s with
      | some c => deliverEvt (s.cxPart c) t (v.setWidth 32) (wakeTile t s)
      | none => s.flag .PART_ERR 3
    | _ => match s.agentPart ag with
      | some p => if s.holdsTile p t || s.holdsBorrowed p t then deliverEvt p t (v.setWidth 32) (wakeTile t s)
        else refusePermission s
      | none => refusePermission s

/-- A tile reset: the units are discarded, the core and the caches take their reset values, the kernel or launch on the
tile ends with REASON 5; an image saved in the hamlet store stays (R108, R171, R414). -/
def resetTile (t : Nat) (s : State) : State :=
  let x := s.tile t
  let s := discardUnits t (if x.run == .restoring then cutRestore t s else s)
  let s := match x.launch with
    | some id =>
      if x.run == RunState.restoring then s
      else if x.run == RunState.launching || x.run == RunState.held then endPart id t stAborted 5 (unpinPart id t s)
      else endPart id t stAborted 5 s
    | none => s
  loadIfStale t (s.modTile t fun x => { x with
    core := CoreRegs.reset, run := .idle, cx := none, launch := none, hist := [], stopReq := none, stopEnd := none
    dcache := [], icache := [], lastImg := none, loopFill := [], wakeFor := false })

/-- A steward write of TILE_RESET. -/
def tileResetWrite (t : Nat) (v : Word) (s : State) : State :=
  if bit v 0 && s.enabled t then resetTile t s else s

/-! ### The commands -/

def execLaunch (s : State) : Ans := .next (withDelivery 2 launchBell s)
def execContextSaveDone (t : Fin 128) (s : State) : Ans := .next (saveDone t s)
def execRestoreDone (t : Fin 128) (bad : Bool) (s : State) : Ans := .next (restoreDone t bad s)
def execStop (t : Fin 128) (c : Fin 256) (s : State) : Ans := .next (stopOn t c s)
def execTileTevtSet (ag : Agent) (t : Fin 128) (v : Word) (s : State) : Ans := .next (tevtSet ag t v s)
def execTileReset (t : Fin 128) (v : Word) (s : State) : Ans := .next (tileResetWrite t v s)
def execCxLqTailWrite (ag : Agent) (c : Fin 256) (v : Word) (s : State) : Ans := .next (cxTailWrite ag c v s)
def execCxCqHeadWrite (ag : Agent) (c : Fin 256) (v : Word) (s : State) : Ans := .next (cxHeadWrite ag c v s)
def execSchedulerDispatch (s : State) : Ans := .next (dispatch s)
def execSwapOutDone (c : Fin 256) (s : State) : Ans := .next (swapOutDone c s)
def execSwapInDone (c : Fin 256) (s : State) : Ans := .next (swapInDone c s)
def execLaunchDeadline (id : Nat) (s : State) : Ans := .next (launchDeadline id s)
def execResumeTimeout (t dest : Fin 128) (s : State) : Ans := .next (relocate t dest s)

end Sys2Proof.Machine
end

