-- ==== Sys2Proof/Machine/Collectives.lean ====
section
/-! DEFINITION. Collective programs: their phases and operations, the arithmetic, the checks, and the commit and abort
of a run's epoch (11_collectives.md R336 to R361, R367, R368). The all-to-all exchange is in Machine/Exchange.lean. -/

namespace Sys2Proof.Machine

open Sys2Proof

/-! ### Arithmetic (R339, R348) -/

/-- The floating-point format of a DF code, wide or not. -/
def collFmt (df : Nat) (wide : Bool) : FFmt := if wide then fFP32 else if df = 0 then fBF16 else if df = 1 then fFP16 else fFP32

/-- The bytes of an element. -/
def collBytes (df : Nat) (wide : Bool) : Nat := if df < 2 && !wide then 2 else 4

/-- The exact greater or lesser of two values: +0 ranks above −0, and a NaN yields the other operand. -/
def collPick (less : Bool) (x y : FVal) : FVal :=
  let neg := match x with
    | .fin n _ _ => n
    | _ => false
  fpick less (neg == less) x y

/-- One element of A ⊕ B: RED 0 SUM, 1 MAX, 2 MIN; operands in DF or wide, and the result likewise. -/
def collOp (df red : Nat) (aw bw ow : Bool) (x y : Nat) : Nat :=
  if df = 3 then
    let a := signed 32 x
    let b := signed 32 y
    wrap 32 (if red = 0 then a + b else if red = 1 then max a b else min a b)
  else
    let a := (collFmt df aw).decode x
    let b := (collFmt df bw).decode y
    (collFmt df ow).encode (if red = 0 then a.add b else collPick (red == 2) a b)

/-- An element moved from one format to the other (R348, output conversion). -/
def collConvert (df : Nat) (aw ow : Bool) (x : Nat) : Nat :=
  if df < 2 && aw != ow then (collFmt df ow).encode ((collFmt df aw).decode x) else x

/-- The elements of `n` bytes each in a run of bytes, and back. -/
def elems (n : Nat) (bs : List Byte) : List Nat := (List.range (bs.length / n)).map fun i => leVal ((bs.drop (n * i)).take n)

def unelems (n : Nat) (xs : List Nat) : List Byte := xs.flatMap fun x => leBytes n x

/-- A ⊕ B over two runs of elements. -/
def collCombine (df red : Nat) (aw bw ow : Bool) (a b : List Byte) : List Byte :=
  unelems (collBytes df ow) (((elems (collBytes df aw) a).zip (elems (collBytes df bw) b)).map fun p =>
    collOp df red aw bw ow p.1 p.2)

/-! ### Operations (R341) -/

def oOpc (w : List Word) : Nat := fld (wordAt w 0) 63 60
def oAw (w : List Word) : Bool := bit (wordAt w 0) 59
def oBw (w : List Word) : Bool := bit (wordAt w 0) 58
def oOw (w : List Word) : Bool := bit (wordAt w 0) 57
def oDir (w : List Word) : Bool := bit (wordAt w 0) 56
def oHam (w : List Word) : Nat := fld (wordAt w 0) 55 52
def oMember (w : List Word) : Nat := fld (wordAt w 0) 43 32
def oCtr (w : List Word) : Nat := fld (wordAt w 0) 31 26
def oLen (w : List Word) : Nat := fld (wordAt w 0) 25 0
def oA (w : List Word) : Nat := fld (wordAt w 1) 51 0
def oB (w : List Word) : Nat := fld (wordAt w 2) 51 0
def oD (w : List Word) : Nat := fld (wordAt w 3) 51 0

/-- Words at an address, for a program slot. -/
def progRead (p a n : Nat) (s : State) : Option (List Word) × State :=
  match devRead (whoProg p s) a (8 * n) 0x12 s with
  | (.ok bs, s) => (some (leWords bs), s)
  | (.error _, s) => (none, s)

/-- BASE of the member itself; none where it cannot be read. -/
def selfBase (p : Nat) (s : State) : Option Nat × State :=
  let m := memberOf p (pSelf (s.prog p).hdr) s
  (m.1.map (·.1), m.2)

/-! ### The check of a program (R342) -/

/-- A local region lies outside what the owner holds. -/
def progOutside (p a len : Nat) (s : State) : Bool :=
  len != 0 && (cpOwner p s).all fun o => (rangeCheck (some o) a len s).isSome

/-- A header field is invalid or out of range. -/
def hdrBad (p : Nat) (h : List Word) (s : State) : Bool :=
  let w := fun i => fld (wordAt h i) 51 0
  pMode h == 3 || pRed h == 3 || pTimeout h == 0 || w 1 % 16 != 0 || w 2 % 8 != 0 || w 3 % 32 != 0 ||
    decide (pMembers h ≤ pSelf h) || progOutside p (w 1) (16 * pMembers h) s || progOutside p (w 2) (8 * pNph h) s

/-- An operation is invalid, has a reserved field set, is not permitted in its program, or has a local region that the
owner does not hold. -/
def opBad (p base : Nat) (h w : List Word) (s : State) : Bool :=
  let df := pDf h
  let n := oLen w
  let out := fun off wide => progOutside p (base + off) (n * collBytes df wide) s
  fld (wordAt w 0) 51 44 != 0 || [1, 2, 3].any (fun i => fld (wordAt w i) 63 52 != 0) ||
    (pXonly h && !(oOpc w == 4 || oOpc w == 5 || oOpc w == 6)) ||
    (match oOpc w with
     | 1 => n == 0 || decide (pMembers h ≤ oMember w) || out (oA w) (oAw w) ||
         (oMember w == pSelf h && out (oD w) (oOw w))
     | 2 => n == 0 || out (oA w) (oAw w) || out (oB w) (oBw w) || out (oD w) (oOw w)
     | 3 => n == 0 || decide (pMembers h ≤ oMember w) || pResolved h == 2 || out (oA w) (oAw w) ||
         (oMember w == pSelf h && out (oD w) (oBw w))
     | 4 => false
     | 5 => fld (wordAt w 0) 25 21 != 0 || decide (7 < oHam w)
     | 6 => decide (7 < oHam w)
     | 7 => false
     | _ => true)

/-- Some operation of `n` from number `j` on is bad. -/
def opsBad (p base : Nat) (h : List Word) : Nat → Nat → State → Bool × State
  | 0, _, s => (false, s)
  | n + 1, j, s => match progRead p (fld (wordAt h 3) 51 0 + j * 32) 4 s with
    | (none, s) => (true, s)
    | (some w, s) => if opBad p base h w s then (true, s) else opsBad p base h n (j + 1) s

/-- Phase `k`: its first operation and their number; none where the table cannot be read. -/
def phaseOf (p k : Nat) (h : List Word) (s : State) : Option (Nat × Nat) × State :=
  match progRead p (fld (wordAt h 2) 51 0 + k * 8) 1 s with
  | (some w, s) => (some (fld (wordAt w 0) 63 48, fld (wordAt w 0) 15 0), s)
  | (none, s) => (none, s)

/-- Some phase of `n` from number `k` on is bad. -/
def phasesBad (p base : Nat) (h : List Word) : Nat → Nat → State → Bool × State
  | 0, _, s => (false, s)
  | n + 1, k, s => match phaseOf p k h s with
    | (none, s) => (true, s)
    | (some f, s) =>
      if 65536 < f.1 + f.2 ∨ progOutside p (fld (wordAt h 3) 51 0 + f.1 * 32) (f.2 * 32) s then (true, s)
      else match opsBad p base h f.2 f.1 s with
        | (true, s) => (true, s)
        | (false, s) => phasesBad p base h n (k + 1) s

/-- The whole program of the slot, whose header has been read, is bad. -/
def progBad (p : Nat) (s : State) : Bool × State :=
  let h := (s.prog p).hdr
  if h.isEmpty || hdrBad p h s then (true, s)
  else
    match selfBase p s with
    | (none, s) => (true, s)
    | (some b, s) => phasesBad p b h (pNph h) 0 s

/-! ### Neighbours in the report tree (R354) -/

/-- The parent of member `i`, if it has one, and its children. -/
def treeKids (m i : Nat) : List Nat := ((List.range 16).map fun j => 16 * i + 1 + j).filter (· < m)

def treeNear (m i : Nat) : List Nat := (if i = 0 then [] else [(i - 1) / 16]) ++ treeKids m i

/-- Send a message to members. -/
def sendAll (p : Nat) (ms : List Nat) (k : CollKind) (s : State) : State := ms.foldl (fun s m => sendControl p m none k s) s

/-- The header is read if it has not been. -/
def needHdr (p : Nat) (s : State) : State :=
  if (s.prog p).hdr.isEmpty then
    let r := progRead p (s.rf .FAB_CP_BASE 51 6 p * 64) 8 s
    r.2.modProg p fun x => { x with hdr := r.1.getD [] }
  else s

/-! ### Signals (R347, R358) -/

/-- Set a TEVT bit for the slot's owner in the tiles of a mask that it holds. -/
def collEvt (p b : Nat) (m : BitVec 128) (s : State) : State :=
  match cpOwner p s with
  | some o => deliverEvts o (tilesOf (heldMask o (m &&& s.enabledMap) s)) (1#32 <<< b) s
  | none => s

/-- COMMIT_BIT or ABORT_BIT in the tiles of DMASK. -/
def decisionBit (p hi lo : Nat) (s : State) : State :=
  let h := (s.prog p).hdr
  collEvt p (fld (wordAt h 4) hi lo) (s.dmask (fld (wordAt h 4) 53 49)) s

/-- The context of partition `o` that event bits for tile `t` reach. -/
def evtCx (o t : Nat) (s : State) : Option Nat :=
  if o == 0 && s.lent t then none
  else
    let on := (s.tile t).cx.filter fun c => s.cxPart c == o
    let saved := ((s.tile t).saved.map (·.cx)).filter fun c => s.cxPart c == o
    (on <|> saved) <|> lastCx o t s

/-- The tiles of a SIGNAL that its owner holds. -/
def signalTiles (p : Nat) (w : List Word) (s : State) : List Nat :=
  match cpOwner p s with
  | some o => tilesOf (heldMask o ((BitVec.ofNat 128 (fld (wordAt w 0) 15 0)) <<< (16 * oHam w) &&& s.enabledMap) s)
  | none => []

def signalCxs (p : Nat) (w : List Word) (s : State) : List Nat :=
  (signalTiles p w s).filterMap fun t => evtCx ((cpOwner p s).getD 0) t s

/-! ### Decisions (R354 to R358) -/

/-- A held launch is reported as ABORTED on every tile (R358). -/
def abortHeld (l : Launch) : Launch := { l with tiles := l.tiles.map fun x => { x with st := .ended stAborted 4 } }

/-- The epoch of slot `p` is decided: held completions are reported, or stopped with the kernels that depend on it
(R358). -/
def decideEpoch (p : Nat) (commit : Bool) (s : State) : State :=
  let e := (p, cpEpoch p s)
  (List.range 256).foldl (fun s c =>
    if !(s.cx c).epochs.contains e then s
    else
      let s := modCx c (fun x => { x with epochs := x.epochs.filter (· != e) }) s
      (cxLaunches c s).foldl (fun s l =>
        if l.heldEpochs.contains e then
          let l := { l with heldEpochs := l.heldEpochs.filter (· != e) }
          if !commit then reportLaunch (abortHeld l) s
          else if l.heldEpochs.isEmpty then reportLaunch l s
          else modLaunch l.id (fun _ => l) s
        else if !commit && !l.over && l.tiles.any (fun x => x.st == .running) then stopLaunch l.id stAborted 4 s
        else s) s) s

/-- Record the last abort (R368). -/
def setRes (p src cause : Nat) (s : State) : State :=
  s.setReg .FAB_CP_RES (place 63 52 src ||| place 39 8 (cpEpoch p s) ||| place 2 0 cause) p

/-- The exchanges of a slot are abandoned: their staged slots are free again (R366). -/
def dropExchanges (p : Nat) (s : State) : State :=
  let xs := (s.prog p).ops.filterMap (·.xch)
  let gone := fun (e : Nat × Bool × Nat × Nat) => xs.any fun x =>
    x.ham == e.1 && x.dir == e.2.1 && x.set == e.2.2.1 && (x.wait.contains e.2.2.2 || x.todo.any fun y => y.1 == e.2.2.2)
  let s := { s with coll := { s.coll with staged := s.coll.staged.filter fun e => !gone e } }
  (s.modProg p fun x => { x with ops := [] }) |> fun s => xs.foldl (fun s x => stagedFree x.ham s) s

/-- The run is aborted here, with a cause and the member that first aborted; the tree neighbours other than the node
the ABORT came from are told (R355). -/
def abortLocal (p cause src : Nat) (from_ : Option Nat) (s : State) : State :=
  let s := needHdr p s
  let h := (s.prog p).hdr
  let s := dropExchanges p (s.putReg .FAB_CP_STAT 2 0 cpAborted p)
  let s := s.modProg p fun x => { x with todo := [], ops := [] }
  let s := if h.isEmpty then s else
    (treeNear (pMembers h) (pSelf h)).foldl (fun s m =>
      sendControl p m from_ (.abort (BitVec.ofNat 12 src) (BitVec.ofNat 3 cause)) s) s
  let s := (setRes p src cause s).count .FAB_CP_CNT 31 16 p
  let s := ringReg .FAB_CP_DB p 0 (if h.isEmpty then s else decisionBit p 58 54 s)
  decideEpoch p false s

/-- A local cause aborts a run that is not decided (R355). -/
def abortHere (p cause : Nat) (s : State) : State :=
  if cpLive p s then
    let s := needHdr p s
    abortLocal p cause (pSelf (s.prog p).hdr) none s
  else s

/-- A bad check of the run: cause 1 RESIDUE or 2 UNCORR (R352, R355). An exchange program has none. -/
def badCheck (p cause : Nat) (s : State) : State :=
  if pXonly (s.prog p).hdr then s
  else
    let s := (s.modProg p fun x => { x with bad := true }).flag .FAB_CP_ERR 2 p
    let s := errRecord 0x040 (whoProg p s) 0 (cpEpoch p s % 4096) s
    if cpState p s = cpRunning then abortHere p cause s else s

/-- The member enters COMMITTED and passes the decision on (R354). -/
def commitLocal (p : Nat) (s : State) : State :=
  let h := (s.prog p).hdr
  let s := (s.putReg .FAB_CP_STAT 2 0 cpCommitted p).count .FAB_CP_CNT 15 0 p
  let s := sendAll p (treeKids (pMembers h) (pSelf h)) .commit s
  decideEpoch p true (ringReg .FAB_CP_DB p 0 (decisionBit p 63 59 s))

/-- Report clean to the parent, or decide at the root, once this member and all its children are clean (R354). -/
def tryReport (p : Nat) (s : State) : State :=
  let x := s.prog p
  let h := x.hdr
  let kids := treeKids (pMembers h) (pSelf h)
  if cpState p s = cpRunning && x.commit && !x.bad && kids.all x.kids.contains then
    if pSelf h = 0 then commitLocal p s
    else sendControl p ((pSelf h - 1) / 16) none (.report (BitVec.ofNat 12 (pSelf h))) (s.putReg .FAB_CP_STAT 2 0 cpAwait p)
  else s

/-- The root has not decided in time (R357). -/
def decisionLate (p : Nat) (s : State) : State :=
  let x := s.prog p
  if cpLive p s && !pXonly x.hdr && pSelf x.hdr == 0 && decide (x.startNs + pTimeout x.hdr * 1000 ≤ s.now) then
    abortLocal p 4 0 none s
  else s

/-- No decision has come in time (R357). -/
def runFails (p : Nat) (s : State) : State :=
  let x := s.prog p
  if cpLive p s && !pXonly x.hdr && pSelf x.hdr != 0 &&
      decide (x.startNs + (pTimeout x.hdr + 250) * 1000 ≤ s.now) then
    let s := decisionBit p 58 54 ((s.putReg .FAB_CP_STAT 2 0 cpFailed p).flag .FAB_CP_ERR 4 p)
    decideEpoch p false (ringReg .FAB_CP_DB p 0 (errRecord 0x041 (whoProg p s) 0 (cpEpoch p s % 4096) s))
  else s

/-! ### Starting a phase (R342, R343) -/

def phaseOrder (p : Nat) (s : State) : State := s.flag .FAB_CP_ERR 1 p

/-- A bad program runs nothing (R342). -/
def programBad (p : Nat) (s : State) : State :=
  let s := (s.flag .FAB_CP_ERR 0 p).putReg .FAB_CP_STAT 2 0 cpAborted p
  let s := (setRes p (pSelf (s.prog p).hdr) 7 s).count .FAB_CP_CNT 31 16 p
  ringReg .FAB_CP_DB p 0 s

/-- The operations of phase `k` come next. -/
def addPhase (p k : Nat) (s : State) : State :=
  let r := phaseOf p k (s.prog p).hdr s
  let s := r.2.putReg .FAB_CP_STAT 21 16 k p
  match r.1 with
  | some f => if f.2 = 0 then s else s.modProg p fun x => { x with todo := x.todo ++ [f] }
  | none => badCheck p 2 s

/-- A start of phase `k` of an exchange program whose header has been read (R343). -/
def startExchange (p k : Nat) (s : State) : State :=
  let x := s.prog p
  if cpState p s = cpAborted ∨ pNph x.hdr ≤ k then phaseOrder p s
  else
    let b := if x.checked then (false, s) else progBad p s
    let s := b.2
    if b.1 then programBad p s
    else addPhase p k ((s.modProg p fun x => { x with checked := true }).putReg .FAB_CP_STAT 2 0 cpRunning p)

/-- Phase 0 starts a new run (R343). -/
def startRun (p : Nat) (s : State) : State :=
  let e := (cpEpoch p s + 1) % 2 ^ 32
  let s := s.setReg .FAB_CP_EPOCH (BitVec.ofNat 64 e) p
  let s := s.modProg p fun x => { Prog.reset with hdr := x.hdr, checked := true, nextOp := x.nextOp, owed := x.owed, startNs := s.now }
  let b := progBad p s
  if b.1 then programBad p b.2 else addPhase p 0 (b.2.putReg .FAB_CP_STAT 2 0 cpRunning p)

/-- A start of phase `k` (R343). -/
def phaseStart (p k : Nat) (s : State) : State :=
  let x := s.prog p
  let st := cpState p s
  if !cpEn p s || (cpOwner p s).isNone then phaseOrder p s
  else if x.checked && pXonly x.hdr then startExchange p k s
  else if k ≠ 0 ∧ st ≠ cpIdle then
    if st ≠ cpAborted && decide (k < pNph x.hdr) && s.rf .FAB_CP_STAT 21 16 p + 1 == k then addPhase p k s
    else phaseOrder p s
  else if cpLive p s then phaseOrder p s
  else
    let s := needHdr p (s.modProg p fun x => { x with hdr := [] })
    if pXonly (s.prog p).hdr then startExchange p k s
    else if k ≠ 0 then phaseOrder p s
    else startRun p s

/-- A write of FAB_CP_GO by the owner or steward firmware (R343, R368). -/
def cpMay (ag : Agent) (p : Nat) (s : State) : Bool :=
  ag == .steward || (match cpOwner p s with
    | some o => s.actsFor ag o
    | none => false)

/-- A write of FAB_CP_CTL: EN starts or ends the slot's use (R367). -/
def cpCtlWrite (p : Nat) (v : Word) (s : State) : State :=
  let was := cpEn p s
  let s := if was && !bit v 63 then abortHere p 3 s else s
  let s := s.writePlain .FAB_CP_CTL v p
  if !was && bit v 63 then
    ((dropExchanges p s).setProg p { Prog.reset with nextOp := (s.prog p).nextOp }).setReg .FAB_CP_STAT 0 p
      |>.setReg .FAB_CP_EPOCH 0 p
  else s

/-- A stop or function disable of partition `o` aborts its runs (R355). -/
def collStop (o : Nat) (s : State) : State :=
  (List.range 32).foldl (fun s p => if cpEn p s && cpOwner p s == some o then abortHere p 5 s else s) s

/-- A reset of a fabric half aborts the runs that have an operation on its engine; which engine runs an operation is an
open value (R336, R355). -/
def collHalfReset (s : State) : State :=
  (List.range 32).foldl (fun s p =>
    if cpEn p s && !(s.prog p).ops.isEmpty then
      if bit s.open 0 then abortHere p 6 s.used else s.used
    else s) s

/-! ### Issuing operations (R344) -/

/-- The slot issues operations. -/
def issuing (p : Nat) (s : State) : Bool :=
  cpEn p s && cpState p s != cpIdle && cpState p s != cpAborted && decide ((s.prog p).ops.length < 32)

/-- The first of what is left has issued. -/
def popOp (p : Nat) (s : State) : State :=
  s.modProg p fun x => { x with todo := match x.todo with
    | (f, n) :: r => if n ≤ 1 then r else (f + 1, n - 1) :: r
    | [] => [] }

/-- Issue the slot's next operation if it is of the given kind. One that cannot be read is a bad check (R352). -/
def issueNext (p opc : Nat) (f : List Word → State → State) (s : State) : State :=
  if !issuing p s then s else
  match (s.prog p).todo with
  | [] => s
  | (j, _) :: _ => match progRead p (fld (wordAt (s.prog p).hdr 3) 51 0 + j * 32) 4 s with
    | (none, s) => badCheck p 2 s
    | (some w, s') => if oOpc w = opc then f w s' else s

/-- The counter of the slot is raised. -/
def bumpCtr (p c : Nat) (s : State) : State :=
  s.modProg p fun x => { x with counters := Tab.set (fun _ => 0) x.counters c (Tab.get (fun _ => 0) x.counters c + 1) }

/-- A new outstanding operation of `left` packets. -/
def openOp (p left : Nat) (xch : Option Exchange) (s : State) : Nat × State :=
  let id := (s.prog p).nextOp
  (id, s.modProg p fun x => { x with nextOp := id + 1, ops := x.ops ++ [⟨id, left, xch⟩] })

/-- Store a result, and go on; a residue disagreement leaves it not guaranteed and is a bad check (R352). -/
def collStore (p a : Nat) (d : List Byte) (fault : Bool) (f : State → State) (s : State) : State :=
  match devWrite (whoProg p s) a d 0x12 s with
  | (some _, s) => badCheck p 2 s
  | (none, s) => f (if fault then badCheck p 1 (s.loseRegion a d.length) else s)

/-- Read an operand; failing that, a bad check. -/
def collLoad (p a len : Nat) (f : List Byte → State → State) (s : State) : State :=
  match devRead (whoProg p s) a len 0x12 s with
  | (.ok d, s) => f d s
  | (.error _, s) => badCheck p 2 s

/-- The pieces of a run of elements for a destination: wire bytes, each piece whole elements, ADDR mod 32 + BYTES at
most 480. -/
def collPieces (wire dest : Nat) : Nat → Nat → List Byte → List (Nat × List Byte)
  | 0, a, d => [(a, d)]
  | k + 1, a, d =>
    let n := (480 - a % 32) / wire * wire
    if d.length ≤ n then [(a, d)] else (a, d.take n) :: collPieces wire dest k (a + n / wire * dest) (d.drop n)

/-- Read the member table's entry `i`; failing that, a bad check (R352). -/
def withMember (p i : Nat) (f : Nat × Nat → State → State) (s : State) : State :=
  match memberOf p i s with
  | (none, s) => badCheck p 2 s
  | (some m, s) => f m s

/-- Send the data of a PUT or AREDUCE to member `m`; the last piece increments the counter (R345). -/
def sendData (p : Nat) (w : List Word) (areduce : Bool) (wireWide destWide : Bool) (data : List Byte) (m : Nat × Nat)
    (s : State) : State :=
  let h := (s.prog p).hdr
  let wire := collBytes (pDf h) wireWide
  let ps := collPieces wire (collBytes (pDf h) destWide) (data.length + 1) (m.1 + oD w) data
  let o := openOp p ps.length none s
  ps.zipIdx.foldl (fun s x =>
    sendColl p m.2 x.1.1 (.coll p o.1) (.data areduce (BitVec.ofNat 2 (pDf h)) (BitVec.ofNat 2 (pRed h)) wireWide
      destWide (BitVec.ofNat 6 (oCtr w)) (x.2 + 1 == ps.length) x.1.2) s) o.2

/-- PUT (R345, R348). -/
def issuePut (p : Nat) (s : State) : State :=
  issueNext p 1 (fun w s =>
    let h := (s.prog p).hdr
    let df := pDf h
    withMember p (pSelf h) (fun b s => collLoad p (b.1 + oA w) (oLen w * collBytes df (oAw w)) (fun a s =>
      let d := if oAw w = oOw w then a
        else unelems (collBytes df (oOw w)) ((elems (collBytes df (oAw w)) a).map (collConvert df (oAw w) (oOw w)))
      if oMember w = pSelf h then collStore p (b.1 + oD w) d false (bumpCtr p (oCtr w)) s
      else withMember p (oMember w) (sendData p w false (oOw w) (oOw w) d) s) s) (popOp p s)) s

/-- REDUCE (R348); `fault` is a residue disagreement of its adders. -/
def issueReduce (p : Nat) (fault : Bool) (s : State) : State :=
  issueNext p 2 (fun w s =>
    let h := (s.prog p).hdr
    let df := pDf h
    withMember p (pSelf h) (fun b s => collLoad p (b.1 + oA w) (oLen w * collBytes df (oAw w)) (fun x s =>
      collLoad p (b.1 + oB w) (oLen w * collBytes df (oBw w)) (fun y s =>
        collStore p (b.1 + oD w) (collCombine df (pRed h) (oAw w) (oBw w) (oOw w) x y) fault id s) s) s) (popOp p s)) s

/-- AREDUCE (R345, R348): combined here when the member is this one. -/
def issueAreduce (p : Nat) (fault : Bool) (s : State) : State :=
  issueNext p 3 (fun w s =>
    let h := (s.prog p).hdr
    let df := pDf h
    withMember p (pSelf h) (fun b s => collLoad p (b.1 + oA w) (oLen w * collBytes df (oAw w)) (fun x s =>
      if oMember w = pSelf h then
        collLoad p (b.1 + oD w) (oLen w * collBytes df (oBw w)) (fun y s =>
          collStore p (b.1 + oD w) (collCombine df (pRed h) (oAw w) (oBw w) (oBw w) x y) fault
            (bumpCtr p (oCtr w)) s) s
      else withMember p (oMember w) (sendData p w true (oAw w) (oBw w) x) s) s) (popOp p s)) s

/-- WAIT (R344). -/
def issueWait (p : Nat) (s : State) : State :=
  issueNext p 4 (fun w s => if oLen w ≤ Tab.get (fun _ => 0) (s.prog p).counters (oCtr w) then popOp p s else s) s

/-- SIGNAL (R344, R347, R358). -/
def issueSignal (p : Nat) (s : State) : State :=
  issueNext p 5 (fun w s =>
    if !(s.prog p).ops.isEmpty then s else
    let e := (p, cpEpoch p s)
    let marks := cpLive p s && !pXonly (s.prog p).hdr
    let cs := signalCxs p w s
    if marks && cs.any (fun c => !(s.cx c).epochs.contains e && decide (4 ≤ (s.cx c).epochs.length)) then s
    else
      let ts := signalTiles p w s
      let s := deliverEvts ((cpOwner p s).getD 0) ts (1#32 <<< fld (wordAt w 0) 20 16) (popOp p s)
      if marks then cs.foldl (fun s c => modCx c (fun x => { x with
        epochs := if x.epochs.contains e then x.epochs else x.epochs ++ [e] }) s) s
      else s) s

/-- COMMIT (R354). -/
def issueCommit (p : Nat) (s : State) : State :=
  issueNext p 7 (fun _ s =>
    if !(s.prog p).ops.isEmpty then s
    else tryReport p ((popOp p s).modProg p fun x => { x with commit := true })) s

/-- A packet of operation `op` of slot `p` has been acknowledged. -/
def collAcked (p op : Nat) (s : State) : State :=
  s.modProg p fun x => { x with ops := (x.ops.map fun o =>
    if o.id = op ∧ o.xch = none then { o with left := o.left - 1 } else o).filter fun o => o.xch.isSome || o.left != 0 }

/-! ### The commands -/

def execCollPhase (s : State) : Ans :=
  .next (withDelivery 9 (fun d s => if d.target < 32 then phaseStart d.target d.arg (wakeDom 42 (wakeDom 43 s)) else s) s)

def execFabCpGo (ag : Agent) (p : Fin 32) (v : Word) (s : State) : Ans :=
  .next (if cpMay ag p s then phaseStart p (fld v 5 0) s else refusePermission s)

def execPut (p : Fin 32) (s : State) : Ans := .next (issuePut p s)
def execReduce (p : Fin 32) (fault : Bool) (s : State) : Ans := .next (issueReduce p fault s)
def execAreduce (p : Fin 32) (fault : Bool) (s : State) : Ans := .next (issueAreduce p fault s)
def execWait (p : Fin 32) (s : State) : Ans := .next (issueWait p s)
def execSignal (p : Fin 32) (s : State) : Ans := .next (issueSignal p s)
def execCommit (p : Fin 32) (s : State) : Ans := .next (issueCommit p s)

/-- FAB_CP_ABORT, bit 0. -/
def execFabCpAbort (ag : Agent) (p : Fin 32) (v : Word) (s : State) : Ans :=
  .next (if cpMay ag p s then (if bit v 0 then abortHere p 3 s else s) else refusePermission s)

def execDecisionTimeout (p : Fin 32) (s : State) : Ans := .next (decisionLate p s)
def execFailedTimeout (p : Fin 32) (s : State) : Ans := .next (runFails p s)

/-- Steward writes of FAB_CP_CTL that set EN, and that clear it. -/
def execFabCpEnable (p : Fin 32) (v : Word) (s : State) : Ans := .next (cpCtlWrite p v s)
def execFabCpDisable (p : Fin 32) (v : Word) (s : State) : Ans := .next (cpCtlWrite p v s)

def execFabCpCntRead (p : Fin 32) (s : State) : Ans := .next (s.readPlain .FAB_CP_CNT p)

end Sys2Proof.Machine
end

