-- ==== Sys2Proof/Machine/Exchange.lean ====
section
/-! DEFINITION. The all-to-all exchange: slots taken, sent, landed and acknowledged, credits, and the messages of
collective programs as their target performs them (11_collectives.md R345, R346, R352, R362 to R366). The commands of
expert routing stand here too, because an area that one of them releases may let an exchange go on (10_expert_routing.md
R302 to R335). -/

namespace Sys2Proof.Machine

open Sys2Proof

def modColl (f : Coll → Coll) (s : State) : State := { s with coll := f s.coll }

/-! ### What an exchange sends (R363) -/

/-- The pieces of a run of bytes at an offset of a slot, each at most 480 bytes. -/
def slotPieces : Nat → Nat → List Byte → List (Nat × List Byte)
  | 0, a, d => if d.isEmpty then [] else [(a, d)]
  | k + 1, a, d =>
    if d.isEmpty then [] else if d.length ≤ 480 then [(a, d)] else (a, d.take 480) :: slotPieces k (a + 480) (d.drop 480)

/-- The parts of a slot with `n` rows, besides its header: offset and bytes (R300). -/
def slotParts (h : Nat) (dir : Bool) (n : Nat) (s : State) : List (Nat × Nat) :=
  if dir then [(64, 8 * n), (64 + 8 * xRetRows h s, n * 32 * xRrowb h s)]
  else [(64, 8 * n), (64 + 8 * xSlotRows h s, 4 * n), (64 + 12 * xSlotRows h s, n * 32 * xDrowb h s)]

/-- The header of a slot that holds nothing (R363). -/
def emptyHdr (h : Nat) (dir : Bool) (num : Nat) (s : State) : List Byte :=
  slotHdr (if dir then 2 else 1) 0 (xSelf h s) 0 0 (place 31 0 num)

/-- Read the parts of a staged slot. -/
def readParts (h a : Nat) : List (Nat × Nat) → State → Option (List (Nat × List Byte)) × State
  | [], s => (some [], s)
  | (off, len) :: r, s => match drvRead h (a + off) len s with
    | (.error _, s) => (none, s)
    | (.ok d, s) => match readParts h a r s with
      | (some ps, s) => (some (slotPieces (len / 480 + 1) off d ++ ps), s)
      | e => e

/-- The staged slot for rank `d` as it stands: its pieces, the header last (R363). One that cannot be read counts as
holding nothing. -/
def takeSlot (h : Nat) (dir : Bool) (num set d : Nat) (s : State) : List (Nat × List Byte) × State :=
  let a := stageAddr h dir set d s
  let none_ := [(0, emptyHdr h dir num s)]
  match drvRead h a 64 s with
  | (.error _, s) => (none_, s)
  | (.ok hd, s) =>
    let w := leWords hd
    let n := min (if dir then xRetRows h s else xSlotRows h s) (fld (wordAt w 0) 44 32)
    if fld (wordAt w 0) 63 60 = (if dir then 2 else 1) ∧ fld (wordAt w 1) 31 0 = num then
      match readParts h a (slotParts h dir n s) s with
      | (some ps, s) => (ps ++ [(0, hd)], s)
      | (none, s) => (none_, s)
    else (none_, s)

/-! ### Landing (R365) -/

/-- A piece of a slot lands in its area; with the header the slot is whole, and its arrival is to be notified. Answers
whether the whole slot has landed. -/
def landSlot (p node h : Nat) (dir : Bool) (set src off : Nat) (last : Bool) (bytes : List Byte) (s : State) :
    Bool × State :=
  let key := (h, dir, set, src)
  let r := if s.coll.spoiled.contains key then (none, s)
    else devWrite (whoDrv h s) (areaAddr h dir set src s + off) bytes 0x12 s
  let s := if r.1.isSome then modColl (fun c => { c with spoiled := c.spoiled ++ [key] }) r.2 else r.2
  if !last then (false, s)
  else if s.coll.spoiled.contains key then
    (false, modColl (fun c => { c with spoiled := c.spoiled.filter (· != key) }) s)
  else (true, modColl (fun c => { c with
    areas := c.areas.filter (fun a => !(a.ham == h && a.dir == dir && a.set == set && a.src == src)) ++
      [⟨h, dir, set, src, p, node, false⟩] }) s)

/-! ### Sending (R364, R366) -/

/-- Change an exchange. -/
def modXch (p op : Nat) (f : Exchange → Exchange) (s : State) : State :=
  s.modProg p fun x => { x with ops := x.ops.map fun o => if o.id = op then { o with xch := o.xch.map f } else o }

/-- An exchange whose slots are all acknowledged or given up completes. -/
def xchDone (p op : Nat) (s : State) : State :=
  s.modProg p fun x => { x with ops := x.ops.filter fun o =>
    !(o.id == op && (match o.xch with | some e => e.todo.isEmpty && e.wait.isEmpty | none => false)) }

/-- The slot for a rank has been acknowledged, or will not be sent: its staged slot is free. -/
def slotFreed (p op h : Nat) (dir : Bool) (set rank : Nat) (s : State) : State :=
  let s := modColl (fun c => { c with staged := c.staged.filter (· != (h, dir, set, rank)) }) s
  xchDone p op (modXch p op (fun e => { e with wait := e.wait.filter (· != rank) }) s)

/-- Send one slot: to its rank's node, or as a local copy. One whose entry cannot be read is not sent, and its credit is
kept (R352; notes/assumptions/167.md). -/
def sendSlot (p op : Nat) (e : Exchange) (rank : Nat) (ps : List (Nat × List Byte)) (s : State) : State :=
  let s := s.modProg p fun x => { x with owed := (e.dir, e.set, rank) :: x.owed }
  let s := modXch p op (fun e => { e with
    todo := e.todo.filter (fun t => t.1 != rank)
    wait := e.wait ++ [rank] }) s
  let self := xSelf e.ham s
  if rank = self then
    let s := ps.foldl (fun s q =>
      (landSlot p (ownNode s) e.ham e.dir e.set self q.1 (q.1 == 0) q.2 s).2) s
    slotFreed p op e.ham e.dir e.set rank s
  else
    match memberOf p rank s with
    | (none, s) => slotFreed p op e.ham e.dir e.set rank (grantCredit p e.dir e.set rank (badCheck p 2 s))
    | (some m, s) => ps.foldl (fun s q => sendColl p m.2 0 (.coll p op)
      (.slot e.dir (Fin.ofNat 8 e.ham) (BitVec.ofNat 2 e.set) (BitVec.ofNat 12 self) q.1 (q.1 == 0) q.2) s) s

/-- Send every slot of an exchange whose credit is held, unless the run is aborted on the way (R355, R364). -/
def pumpOp (p : Nat) (o : CollOp) (s : State) : State :=
  match o.xch with
  | none => s
  | some e => e.todo.foldl (fun s t =>
      if (s.prog p).owed.contains (e.dir, e.set, t.1) || (s.prog p).ops.all (fun y => y.id != o.id) then s
      else sendSlot p o.id e t.1 t.2 s) s

/-- Every exchange goes on as far as its credits let it. -/
def pumpAll (s : State) : State :=
  (s.coll.progs.map (·.1)).foldl (fun s p => (s.prog p).ops.foldl (fun s o => pumpOp p o s) s) s

/-- A2A (R362 to R364). -/
def issueA2a (p : Nat) (s : State) : State :=
  issueNext p 6 (fun w s =>
    let s := popOp p s
    let h := oHam w
    let hd := (s.prog p).hdr
    let dir := oDir w
    if xNdev h s ≠ pMembers hd ∨ xSelf h s ≠ pSelf hd then s.flag .FAB_CP_ERR 0 p
    else
      let hi := if dir then 63 else 31
      let lo := if dir then 32 else 0
      let num := s.rf .FAB_CP_STEP hi lo p
      let s := s.putReg .FAB_CP_STEP hi lo (num + 1) p
      let set := num % xSets h s
      let n := xNdev h s
      let ranks := (List.range n).map fun i => (xSelf h s + 1 + i) % n
      let r := ranks.foldl (fun (r : List (Nat × List (Nat × List Byte)) × State) d =>
        let t := takeSlot h dir num set d r.2
        (r.1 ++ [(d, t.1)], t.2)) ([], s)
      let s := modColl (fun c => { c with staged := c.staged ++ ranks.map fun d => (h, dir, set, d) }) r.2
      let o := openOp p 0 (some ⟨dir, h, num, set, s.now, r.1, []⟩) s
      (o.2.prog p).ops.foldl (fun s x => if x.id = o.1 then pumpOp p x s else s) o.2) s

/-- A slot has been acknowledged (R366). -/
def slotAcked (p h : Nat) (dir : Bool) (set rank : Nat) (s : State) : State :=
  let hit := (s.prog p).ops.find? fun o => match o.xch with
    | some e => e.ham == h && e.dir == dir && e.set == set && e.wait.contains rank
    | none => false
  match hit with
  | some o => stagedFree h (slotFreed p o.id h dir set rank s)
  | none => s

/-- Credits that have not come 10 ms after issue (R364). -/
def creditsLate (p : Nat) (s : State) : State :=
  (s.prog p).ops.foldl (fun s o => match o.xch with
    | some e =>
      if e.todo.isEmpty || decide (s.now < e.atNs + 10000000) then s
      else
        let s := (s.count .FAB_CP_CNT 47 32 p 0 e.todo.length).flag .FAB_CP_ERR 3 p
        let s := modXch p o.id (fun e => { e with todo := [] }) s
        stagedFree e.ham (e.todo.foldl (fun s t => slotFreed p o.id e.ham e.dir e.set t.1 s) s)
    | none => s) s

/-! ### Messages at their target (R345, R346, R352, R354, R355) -/

/-- Data of a PUT or AREDUCE (R345, R348, R386): the status of R377 and the state. -/
def collData (p port src key a : Nat) (areduce : Bool) (df red : Nat) (aw bw : Bool) (ctr : Nat) (last : Bool)
    (bytes : List Byte) (fault : Bool) (s : State) : Nat × State :=
  let len := if areduce then bytes.length / collBytes df aw * collBytes df bw else bytes.length
  match targetCheck port src key 1 a len s with
  | (.error st, s) => (st, badCheck p 2 s)
  | (.ok o, s) =>
    let w := whoFab port (some o)
    let r := if areduce then devRead w a len 0x12 s else (.ok [], s)
    match r.1 with
    | .error e => (e.status, badCheck p 2 r.2)
    | .ok old =>
      let d := if areduce then collCombine df red aw bw bw bytes old else bytes
      match devWrite w a d 0x12 r.2 with
      | (some e, s) => (e.status, badCheck p 2 s)
      | (none, s) =>
        let s := if areduce && fault then badCheck p 1 (s.loseRegion a len) else s
        (0, if last then bumpCtr p ctr s else s)

/-- A decision arrives at a FAILED member: it is recorded and passed on, and changes nothing (R357). -/
def decisionAfter (p cause src : Nat) (k : CollKind) (from_ : Nat) (s : State) : State :=
  let h := (s.prog p).hdr
  let s := setRes p src cause s
  (treeNear (pMembers h) (pSelf h)).foldl (fun s m =>
    if k = .commit ∧ m < pSelf h then s else sendControl p m (some from_) k s) s

/-- A message is dropped: its slot is not enabled, its epoch is another, or the run is ABORTED (R346). -/
def collStale (m : CollMsg) (s : State) : Bool :=
  let p := m.prog.val
  !cpEn p s || cpEpoch p s != m.epoch.toNat || cpState p s == cpAborted

/-- A collective message is performed at its target: the status of R377 and the state. -/
def collPerform (port : Nat) (h : PktHdr) (m : CollMsg) (fault : Bool) (s : State) : Nat × State :=
  let p := m.prog.val
  let src := h.src.toNat
  if collStale m s then (0, s.count .FAB_CP_CNT 63 48 p)
  else match m.kind with
    | .data ar df red aw bw ctr last bytes =>
      collData p port src h.key.toNat h.addr.toNat ar df.toNat red.toNat aw bw ctr.toNat last bytes fault s
    | .slot dir ham set rank off last bytes =>
      let r := landSlot p src ham dir set.toNat rank.toNat off last bytes s
      (0, if r.1 then sendColl p src 0 .none
          (.slotAck dir ham set (BitVec.ofNat 12 (xSelf ham r.2))) r.2 else r.2)
    | .report member => (0, tryReport p (s.modProg p fun x => { x with kids := x.kids ++ [member.toNat] }))
    | .commit =>
      (0, if cpLive p s then commitLocal p s
        else if cpState p s = cpFailed then decisionAfter p 0 0 .commit src s else s)
    | .abort first cause =>
      (0, if cpLive p s || cpState p s == cpIdle then abortLocal p cause.toNat first.toNat (some src) s
        else if cpState p s = cpFailed then decisionAfter p cause.toNat first.toNat (.abort first cause) src s else s)
    | .credit dir set rank => (0, pumpAll (grantCredit p dir set.toNat rank.toNat s))
    | .slotAck dir ham set rank => (0, pumpAll (slotAcked p ham dir set.toNat rank.toNat s))

/-- A word of a message of the run received here is uncorrectable (R352). -/
def collBadWord (m : CollMsg) (s : State) : State := if collStale m s then s else badCheck m.prog 2 s

/-! ### The arrival of a slot (R365) -/

/-- The arrival of a slot that has landed is notified, once. -/
def notifyArea (h : Nat) (dir : Bool) (set src : Nat) (f : State → State) (s : State) : State :=
  let hit := fun (a : Area) => a.ham == h && a.dir == dir && a.set == set && a.src == src
  if s.coll.areas.any fun a => hit a && !a.told then
    pumpAll (f (modColl (fun c => { c with areas := c.areas.map fun a => if hit a then { a with told := true } else a }) s))
  else s

/-! ### The commands of the exchange -/

def execA2a (p : Fin 32) (s : State) : Ans := .next (issueA2a p s)
def execA2aCreditTimeout (p : Fin 32) (s : State) : Ans := .next (pumpAll (creditsLate p s))

/-! ### The commands of expert routing -/

/-- A write by whoever may make it (R335). -/
def drvAgent (ag : Agent) (h : Nat) (f : State → State) (s : State) : Ans :=
  .next (if drvMay ag h s then pumpAll (f s) else refusePermission s)

def execSeCommandComplete (k : Fin 8) (seq : Nat) (s : State) : Ans := .next (pumpAll (seComplete k seq s))

/-- DRV_POST of a HOME descriptor, and of a RECV descriptor: the descriptor in memory says which it is. -/
def execHomePost (ag : Agent) (h : Fin 8) (v : Word) (s : State) : Ans :=
  drvAgent ag h (fun s => drvPost h v (wakeDom (domHamlet h) s)) s
def execRecvPost (ag : Agent) (h : Fin 8) (v : Word) (s : State) : Ans :=
  drvAgent ag h (fun s => drvPost h v (wakeDom (domHamlet h) s)) s

def execDispatchArrival (h : Fin 8) (set : Fin 4) (src : Fin 4096) (s : State) : Ans :=
  .next (notifyArea h false set src (dispatchArrive h set src) s)
def execReturnArrival (h : Fin 8) (set : Fin 4) (src : Fin 4096) (s : State) : Ans :=
  .next (notifyArea h true set src (returnArrive h set src) s)

def execRxNsExpiry (h : Fin 8) (slot : Fin 16) (s : State) : Ans := .next (pumpAll (rxExpires h slot s))
def execFinNsExpiry (h : Fin 8) (slot : Fin 16) (s : State) : Ans := .next (pumpAll (finExpires h slot s))

def execDrvRetPost (ag : Agent) (h : Fin 8) (v : Word) (s : State) : Ans := drvAgent ag h (retPost h v) s
def execDrvShPost (ag : Agent) (h : Fin 8) (v : Word) (s : State) : Ans := drvAgent ag h (sharedPost h v) s
def execDrvCancel (ag : Agent) (h : Fin 8) (v : Word) (s : State) : Ans := drvAgent ag h (drvCancel h v) s
def execDrvCqHeadWrite (ag : Agent) (h : Fin 8) (v : Word) (s : State) : Ans := drvAgent ag h (drvCqHeadWrite h v) s
def execDrvAlarmClear (ag : Agent) (h : Fin 8) (v : Word) (s : State) : Ans := drvAgent ag h (drvAlarmClear h v) s

/-- A steward write of DRV_CQ_CFG. -/
def execDrvCqEnable (h : Fin 8) (v : Word) (s : State) : Ans := .next (pumpAll (drvCqCfgWrite h v s))

def execDrvCntSelRead (h : Fin 8) (s : State) : Ans := .next (s.readPlain .DRV_CNT_SEL h)
def execDrvCntRxRead (h : Fin 8) (s : State) : Ans := .next (s.readPlain .DRV_CNT_RX h)
def execGlnCntRead (h : Fin 8) (s : State) : Ans := .next (s.readPlain .GLN_CNT h)
def execGlnCnt2Read (h : Fin 8) (s : State) : Ans := .next (s.readPlain .GLN_CNT2 h)

end Sys2Proof.Machine
end

