-- ==== Sys2Proof/Machine/Dma.lean ====
section
/-! DEFINITION. The DMA channels (13_partitions_and_scheduling.md R421, R422) and their use of host memory
(14_host_link_and_mailboxes.md R439, R440). -/

namespace Sys2Proof.Machine

open Sys2Proof

def State.dmaCh (s : State) (c : Nat) : Dma := Tab.get (fun _ => Dma.reset) s.sched.dma c

def modDma (c : Nat) (f : Dma → Dma) (s : State) : State :=
  modSched (fun d => { d with dma := Tab.set (fun _ => Dma.reset) d.dma c (f (s.dmaCh c)) }) s

def dmaOwner (c : Nat) (s : State) : Nat := s.rf .PART_DMA_CTL 19 16 c
def dmaFn (c : Nat) (s : State) : Nat := s.rf .PART_DMA_CTL 52 48 c
def whoDma (c : Nat) (s : State) : Who := whoUnit 6 c (dmaOwner c s)

/-- Fields of a descriptor (R421). -/
def mHdir (ws : List Word) : Nat := fld (wordAt ws 0) 62 61
def mLen (ws : List Word) : Nat := fld (wordAt ws 0) 31 0
def mSrc (ws : List Word) : Nat := (wordAt ws 1).toNat
def mDst (ws : List Word) : Nat := (wordAt ws 2).toNat

/-- The status of a refused access (R422). -/
def dmaErr (e : MemErr) : Nat := if e = .address then 0x11 else if e = .uncorr then 0x13 else 0x12

/-! ### Completion -/

/-- Record a channel's status (R422); an error of partition 0 is a ledger fault. -/
def dmaRecord (c desc st : Nat) (s : State) : State :=
  let s := (s.putReg .PART_DMA_STAT 63 48 desc c).putReg .PART_DMA_STAT 47 40 st c
  if st = 0 then s else faultOf (some (dmaOwner c s)) s

/-- The transfer ends: status, doorbell, and DONE_BIT in the tiles of DMASK, under R408 (R421, R422). -/
def dmaFinish (c st : Nat) (s : State) : State :=
  match (s.dmaCh c).run with
  | none => s
  | some r =>
    let s := modDma c (fun d => { d with run := none }) s
    let s := modFab (fun f => { f with reqs := f.reqs.filter fun q => match q.asker with
      | .dma x _ => x != c
      | _ => true }) s
    let s := { s with hl := { s.hl with reads := s.hl.reads.filter fun q => q.chan != c } }
    let s := dmaRecord c r.desc st s
    let w := wordAt r.ws 0
    let s := if bit w 60 then ringReg .PART_DMA_DB c 0 s else s
    if bit w 49 then
      deliverEvts (dmaOwner c s) (tilesOf (s.dmask (fld w 54 50) &&& s.enabledMap)) (1#32 <<< fld w 59 55) s
    else s

/-- A channel's work ends with ABORTED (R429, R430). -/
def dmaAbort (c : Nat) (s : State) : State :=
  let s := dmaFinish c 0x14 s
  match (s.dmaCh c).queue.getLast? with
  | some d => dmaRecord c d 0x14 (modDma c (fun x => { x with queue := [] }) s)
  | none => s

/-- A start of a descriptor: queued, or not run (R421). -/
def dmaGo (c desc : Nat) (s : State) : State :=
  if !s.rb .PART_DMA_CTL 63 c then s
  else if s.rf .PART_P_CTL 1 0 (dmaOwner c s) ≠ 0 then dmaRecord c desc 0x14 s
  else if 16 ≤ (s.dmaCh c).queue.length then dmaRecord c desc 0x15 s
  else modDma c (fun d => { d with queue := d.queue ++ [desc] }) s

/-- The value of PART_DMA_STAT. -/
def dmaStat (c : Nat) (s : State) : Word :=
  let d := s.dmaCh c
  (s.reg .PART_DMA_STAT c &&& fmask 63 40) ||| place 20 16 d.queue.length ||| place 0 0 d.run.isSome.toNat

/-! ### Sources -/

/-- The next request to host memory: at most 512 bytes, within 4 KiB of the host address (R439). -/
def hostChunk (a left : Nat) : Nat := min left (min 512 (4096 - a % 4096))

/-- Ask for more of a host source, at most 256 reads in flight on the device (R439). -/
def hostAsk (c : Nat) : Nat → State → State
  | 0, s => s
  | k + 1, s => match (s.dmaCh c).run with
    | none => s
    | some r =>
      if mHdir r.ws ≠ 1 ∨ mLen r.ws ≤ r.next ∨ r.wrote.isSome ∨ !r.fails.isEmpty ∨ 256 ≤ s.hl.reads.length then s
      else
        let a := mSrc r.ws + r.next
        let n := hostChunk a (mLen r.ws - r.next)
        let f := dmaFn c s
        let s := modDmaRun c (fun r => { r with next := r.next + n }) s
        let s := { s with hl := { s.hl with
          reads := s.hl.reads ++ [(⟨s.hl.nextRd, f, c, r.next, n, s.now⟩ : HostRd)], nextRd := s.hl.nextRd + 1 } }
        hostAsk c k (s.emit (.hostReadReq f (s.rf .PART_FN_SRC 15 0 f) a n))

/-- Every channel asks for what it may. -/
def hostAskAll (s : State) : State := (List.range 32).foldl (fun s c => hostAsk c 256 s) s

/-- The offsets at which a window source is read, 480 bytes at a time. -/
def windowOffs (len : Nat) : List Nat := (List.range (ceilDiv len 480)).map (480 * ·)

/-- A piece of a window source: asked of its node, or of this device itself (R381, R384). -/
def windowAsk (c off : Nat) (s : State) : State :=
  match (s.dmaCh c).run with
  | none => s
  | some r =>
    let p := dmaOwner c s
    let a := mSrc r.ws + off
    let n := min 480 (mLen r.ws - off)
    match windowUse (some p) a s with
    | .error e => dmaFails c off (dmaErr e) (memErrRecord e (whoDma c s) a 0 s)
    | .ok (nd, x) =>
      if nd = ownNode s then
        match targetRead 0 nd (keyOf (some p) s) x n s with
        | (.ok d, s) => dmaGot c off d s
        | (.error st, s) => dmaReadFails c off st a (some p) s
      else (remRead nd x n (.dma c off) (some p) s).2

def inWindow (a : Nat) : Bool := decide (0x1000000000000 ≤ a ∧ a < 0x1800000000000)

/-- A transfer starts: its descriptor is read and checked, and a source that is not here is asked for (R421). -/
def dmaStart (c : Nat) (s : State) : State :=
  let d := s.dmaCh c
  match d.run, d.queue with
  | none, i :: rest =>
    let s := modDma c (fun d => { d with queue := rest }) s
    let run := fun (ws : List Word) (s : State) => modDma c (fun d => { d with run := some ⟨i, ws, 0, [], [], 0, none, none⟩ }) s
    if s.rf .PART_DMA_CTL 15 0 c < i then dmaFinish c 0x10 (run [] s) else
    match devRead (whoDma c s) (s.rf .PART_DMA_BASE 51 5 c * 32 + i * 32) 32 0x13 s with
    | (.error e, s) => dmaFinish c (dmaErr e) (run [] s)
    | (.ok bs, s) =>
      let ws := leWords bs
      let host := mHdir ws != 0
      let bad := !bit (wordAt ws 0) 63 || mHdir ws == 3 || mLen ws == 0 || mLen ws % 32 != 0 ||
        mSrc ws % 32 != 0 || mDst ws % 32 != 0
      let s := run ws s
      if bad then dmaFinish c 0x10 s
      else if host && (s.rf .PART_FN_STAT 1 0 (dmaFn c s) == 0 || s.rf .PART_FN_STAT 1 0 (dmaFn c s) == 3) then dmaFinish c 0x12 s
      else if mHdir ws = 1 then
        if s.rb .HL_STAT 63 then hostAsk c 256 (wakeDom 45 s) else dmaFinish c 0x16 (wakeDom 45 s)
      else if inWindow (mSrc ws) then (windowOffs (mLen ws)).foldl (fun s o => windowAsk c o s) s
      else s
  | _, _ => s

/-- The lowest offset at which a piece failed. -/
def firstFail (r : DmaRun) : Option (Nat × Nat) :=
  match r.fails with
  | [] => none
  | f :: fs => some (fs.foldl (fun m x => if x.1 < m.1 then x else m) f)

/-- The bytes of a source from offset `n` on that have arrived in a row. -/
def gotRun (r : DmaRun) : Nat → Nat → List Byte
  | 0, _ => []
  | k + 1, n => match r.got.find? fun g => g.1 == n with
    | some g => g.2 ++ gotRun r k (n + g.2.length)
    | none => []

/-- Local 32-byte words from `a` on: as many as can be read, and the status that stopped it. -/
def dmaRead (c : Nat) : Nat → Nat → State → List Byte × Nat × State
  | 0, _, s => ([], 0, s)
  | k + 1, a, s => match devRead (whoDma c s) a 32 0x13 s with
    | (.error e, s) => ([], dmaErr e, s)
    | (.ok d, s) =>
      let r := dmaRead c k (a + 32) s
      (d ++ r.1, r.2)

/-- The source comes from host memory or through the window: its pieces arrive by themselves. -/
def dmaArrives (r : DmaRun) : Bool := mHdir r.ws == 1 || inWindow (mSrc r.ws)

/-- The source is there as far as it can be read. -/
def dmaReady (r : DmaRun) : Bool :=
  !dmaArrives r ||
    (let d := gotRun r (r.got.length + 1) 0
     match firstFail r with
     | some f => decide (f.1 ≤ d.length)
     | none => decide (mLen r.ws ≤ d.length))

/-- The `n` bytes of a source at offset `off`: as many as can be read, and the status that stopped it, or 0 (R422). -/
def dmaTake (c : Nat) (r : DmaRun) (off n : Nat) (s : State) : List Byte × Nat × State :=
  if dmaArrives r then
    let d := gotRun r (r.got.length + 1) 0
    match firstFail r with
    | some f => if f.1 < off + n then ((d.take f.1).drop off, f.2, s) else ((d.drop off).take n, 0, s)
    | none => ((d.drop off).take n, 0, s)
  else dmaRead c (n / 32) (mSrc r.ws + off) s

/-! ### Destinations -/

/-- Read and write in ascending 32-byte words from offset `off` on, until one cannot be read or is refused (R422). -/
def dmaLocal (c : Nat) (r : DmaRun) : Nat → Nat → State → Nat × State
  | 0, _, s => (0, s)
  | k + 1, off, s =>
    match dmaTake c r off 32 s with
    | (d, 0, s) => match devWrite (whoDma c s) (mDst r.ws + off) d 0x13 s with
      | (some e, s) => (dmaErr e, s)
      | (none, s) => dmaLocal c r k (off + 32) s
    | (_, st, s) => (st, s)

/-- The same to host memory, in writes of the link's size; a draining function blocks the write (R429, R439). -/
def dmaHost (c : Nat) (r : DmaRun) : Nat → Nat → State → Nat × State
  | 0, _, s => (0, s)
  | k + 1, off, s =>
    let f := dmaFn c s
    if mLen r.ws ≤ off then (0, s)
    else if s.rf .PART_FN_STAT 1 0 f ≠ 1 then (0x17, s.count .PART_FN_CNT 47 32 f)
    else if !s.rb .HL_STAT 63 then (0x16, s)
    else
      let a := mDst r.ws + off
      let x := dmaTake c r off (hostChunk a (mLen r.ws - off)) s
      let s := if x.1.isEmpty then x.2.2
        else sluiceCharge 11 (dmaOwner c s) x.1.length (x.2.2.emit
          (.hostWrite f (s.rf .PART_FN_SRC 15 0 f) a x.1))
      if x.2.1 = 0 then dmaHost c r k (off + x.1.length) s else (x.2.1, s)

/-- Send the next pieces to a window destination: one at a time, so that nothing after a refused one is performed. -/
def dmaPush (c : Nat) : Nat → State → State
  | 0, s => s
  | k + 1, s => match (s.dmaCh c).run with
    | none => s
    | some r =>
      if r.wrote.isSome || r.refused.isSome then s
      else if mLen r.ws ≤ r.sent then modDmaRun c (fun r => { r with wrote := some 0 }) s
      else
        let p := dmaOwner c s
        let a := mDst r.ws + r.sent
        match windowUse (some p) a s with
        | .error e => dmaRefused c (dmaErr e) (memErrRecord e (whoDma c s) a 0 s)
        | .ok (nd, x) =>
          let y := dmaTake c r r.sent (min 480 (mLen r.ws - r.sent)) s
          let s := modDmaRun c (fun r => { r with
            sent := r.sent + y.1.length, wrote := if y.2.1 = 0 then none else some y.2.1 }) y.2.2
          if y.1.isEmpty then s
          else if nd = ownNode s then
            match targetWrite 0 nd (keyOf (some p) s) x y.1 s with
            | (0, s) => dmaPush c k s
            | (st, s) => writeRefused (some p) a (dmaRefused c (dmaStatus st) s)
          else remWrite nd x y.1 (some p) (.dma c) s

/-- A piece of a window destination has been acknowledged. -/
def dmaAcked (c : Nat) (s : State) : State :=
  match (s.dmaCh c).run with
  | some r => dmaPush c (mLen r.ws / 480 + 2) s
  | none => s

/-- Packets of the channel wait for an acknowledgement. -/
def dmaWaits (c : Nat) (s : State) : Bool := s.fab.peers.any fun e => e.2.sent.any fun o => o.tag == .dma c && !o.lost

/-- A transfer to the window ends once a write has been refused, or everything has been written (R422). -/
def dmaTryEnd (c : Nat) (s : State) : State :=
  match (s.dmaCh c).run with
  | some r => match r.refused with
    | some st => dmaFinish c st s
    | none => match r.wrote with
      | some st => if dmaWaits c s then s else dmaFinish c st s
      | none => s
  | none => s

/-- The transfer reads and writes, and ends; one whose source has not come, or whose remote destination has not
acknowledged it, waits (R422). -/
def dmaComplete (c : Nat) (s : State) : State :=
  match (s.dmaCh c).run with
  | none => s
  | some r =>
    if !dmaReady r then s
    else if mHdir r.ws = 2 then
      let w := dmaHost c r (mLen r.ws / 32 + 1) 0 (wakeDom 45 s)
      dmaFinish c w.1 w.2
    else if inWindow (mDst r.ws) then
      dmaTryEnd c (if r.sent = 0 then dmaPush c (mLen r.ws / 480 + 2) s else s)
    else
      let w := dmaLocal c r (mLen r.ws / 32) 0 s
      dmaFinish c w.1 w.2

/-! ### Host reads (R434, R440) -/

/-- The reads of the channel are over: with an error, the transfer's status at that offset. -/
def hostRdEnds (r : HostRd) (data : Option (List Byte)) (s : State) : State :=
  let s := { s with hl := { s.hl with reads := s.hl.reads.filter fun q => q.id != r.id } }
  let s := match data with
    | some d => if d.length = r.len then dmaGot r.chan r.dst d (sluiceCharge 11 (dmaOwner r.chan s) r.len s)
        else dmaFails r.chan r.dst 0x16 s
    | none => dmaFails r.chan r.dst 0x16 s
  hostAskAll s

/-- The record of a host read that ends in an error names the host address (R440, R492). -/
def hostRdRecord (r : HostRd) (s : State) : State :=
  let a := ((s.dmaCh r.chan).run.elim 0 fun x => mSrc x.ws) + r.dst
  errRecord 0x032 (whoDma r.chan s) (a % 2 ^ 52) 0 s

/-- A completion from the adapter: data, or an error (R440). -/
def hostRdCompletes (id : Nat) (data : Option (List Byte)) (s : State) : State :=
  match s.hl.reads.find? fun r => r.id == id with
  | none => s
  | some r =>
    let s := if data.isNone then hostRdRecord r (s.flag .HL_ERR 2) else s
    hostRdEnds r data s

/-- CTO_US in ns. -/
def ctoNs (s : State) : Nat := min 10000 (max 1 (s.rf .HL_CFG 15 0)) * 1000

/-- A read has had no completion within CTO_US (R440). -/
def hostRdLate (id : Nat) (s : State) : State :=
  match s.hl.reads.find? fun r => r.id == id with
  | none => s
  | some r =>
    if s.now < r.since + ctoNs s then s
    else hostRdEnds r none (hostRdRecord r (s.flag .HL_ERR 1))

/-! ### The commands -/

def execDmaStart (s : State) : Ans :=
  .next (withDelivery 4 (fun d s => if d.target < 32 then dmaGo d.target d.arg s else s) s)

/-- PART_DMA_GO, by the channel's owner or steward firmware (R421, R431). -/
def execPartDmaGo (ag : Agent) (c : Fin 32) (v : Word) (s : State) : Ans :=
  .next (if s.mayWrite ag (dmaOwner c s) then dmaGo c (fld v 15 0) s else refusePermission s)

def execDmaTransferStart (c : Fin 32) (s : State) : Ans := .next (dmaStart c s)
def execDmaComplete (c : Fin 32) (s : State) : Ans := .next (dmaComplete c s)
def execHostReadCompletion (id : Nat) (data : Option (List Byte)) (s : State) : Ans := .next (hostRdCompletes id data s)
def execHostReadTimeout (id : Nat) (s : State) : Ans := .next (hostRdLate id s)

end Sys2Proof.Machine
end

