-- ==== Sys2Proof/Machine/FabRx.lean ====
section
/-! DEFINITION. The receiving side of the rack fabric: forwarding, the order of a source's packets, what a target
performs and answers, and what answers do at the requester (12_rack_fabric.md R374 to R391). -/

namespace Sys2Proof.Machine

open Sys2Proof

/-! ### Answers (R377) -/

/-- A packet that returns by the reverse of the path of the packet it answers: the first port is the one that packet
came in on; the ports further back are open values. -/
def answer (port : Nat) (h : PktHdr) (cls words status bytes : Nat) (body : PktBody) (s : State) : State :=
  let r := newHdr h.src.toNat cls 0 h.seq.toNat words status bytes h.addr.toNat s
  let r := { r with
    hops := h.hops
    p0 := BitVec.ofNat 6 port
    p1 := if h.hops = 0 then 0 else s.open.setWidth 6
    p2 := if h.hops = 0 then 0 else (s.open >>> 8).setWidth 6 }
  enqueue port ⟨r, body, []⟩ none (if h.hops = 0 then s else s.used)

/-- A NAK (R377): CLASS 0, the status, and the SEQ refused. -/
def nak (port : Nat) (h : PktHdr) (status : Nat) (s : State) : State := answer port h 0 0 status 1 .nak s

/-- A cumulative acknowledgement for node `n` (R379). -/
def sendAck (n : Nat) (s : State) : State :=
  let x := s.peer n
  let s := s.setPeer n { x with unacked := 0 }
  sendLoose n ⟨newHdr n 0 0 ((x.expect + 2 ^ 32 - 1) % 2 ^ 32) 0 0 1 0 s, .ack, []⟩ s

/-! ### Performing (R378, R386, R389, R390) -/

/-- An ATOMIC at its target: performed once, answered from the reply cache, or turned away. -/
def performAtomic (port : Nat) (h : PktHdr) (operand compare : Word) (req : Nat) (s : State) : State :=
  let src := h.src.toNat
  let rsp := fun (st : Nat) (old : Word) (s : State) =>
    answer port h h.cls.toNat 1 st 8 (.atomicRsp old (BitVec.ofNat 32 req)) s
  let busy := fun (s : State) => nak port h 4 (s.count .FAB_CNT2 31 16)
  if !s.syncOk then busy s
  else match s.fab.cache.find? fun e => e.src == src && e.req == req with
    | some e => rsp e.status e.old s
    | none =>
      if 4096 ≤ s.fab.cache.length then busy (s.flag .FAB_EVT 6)
      else
        let r := targetAtomic port src h.key.toNat h.addr.toNat h.op.toNat operand compare s
        let s := rcPeak (modFab (fun f => { f with cache := f.cache ++ [⟨src, req, r.1, r.2.1, r.2.2.now⟩] }) r.2.2)
        rsp r.1 r.2.1 s

/-- Perform a sequenced packet; one that is refused is answered with its status. `fault`: its combine meets a residue
disagreement. -/
def perform (port : Nat) (fault : Bool) (p : Packet) (s : State) : State :=
  let h := p.hdr
  let src := h.src.toNat
  match p.body with
  | .write d =>
    let r := targetWrite port src h.key.toNat h.addr.toNat d s
    if r.1 = 0 then r.2 else nak port h r.1 r.2
  | .read =>
    let len := h.bytes.toNat + 1
    (match targetRead port src h.key.toNat h.addr.toNat len s with
     | (.ok d, s) => answer port h h.cls.toNat (ceilDiv len 32) 0 len (.readRsp d) s
     | (.error st, s) => answer port h h.cls.toNat 0 st len (.readRsp []) s)
  | .atomic x y req => performAtomic port h x y req.toNat s
  | .coll m =>
    let r := collPerform port h m fault s
    if r.1 = 0 then r.2 else nak port h r.1 r.2
  | _ => s

/-- Note that a packet of node `n` has been performed (R379). -/
def performed (n : Nat) (s : State) : State :=
  let x := s.peer n
  s.setPeer n { x with
    expect := (x.expect + 1) % 2 ^ 32
    unacked := x.unacked + 1
    perfAt := if x.unacked = 0 then s.now else x.perfAt }

/-- Perform, in turn, the held packets that come next, each answered through the port that it came in on (R377,
R378). -/
def performHeld (n : Nat) : Nat → State → State
  | 0, s => s
  | k + 1, s =>
    let x := s.peer n
    match x.held.find? fun p => p.pkt.hdr.seq.toNat == x.expect with
    | none => s
    | some p =>
      let s := s.setPeer n { x with held := x.held.filter fun q => q.pkt.hdr.seq != p.pkt.hdr.seq }
      performHeld n k (performed n (perform p.port p.fault p.pkt s))

/-- The packet's age on arrival is more than 400 µs (R383). -/
def tooOld (h : PktHdr) (s : State) : Bool :=
  let age := (s.now + 2 ^ 40 - h.sendNs.toNat) % 2 ^ 40
  decide (400000 < age ∧ age < 2 ^ 39)

/-- WORDS of a WRITE differs from what its ADDR and BYTES make (R377). -/
def wordsBad (p : Packet) : Bool :=
  match p.body with
  | .write _ => p.hdr.words.toNat != ceilDiv (p.hdr.addr.toNat % 32 + p.hdr.bytes.toNat + 1) 32
  | _ => false

/-- The packet comes from a former incarnation of its source (R380): of two incarnations, the one up to 127 counts ahead
is the newer one, because the number has 8 bits (notes/assumptions/165.md). -/
def formerSinc (x : Peer) (h : PktHdr) : Bool :=
  match x.sinc with
  | some c => decide (128 ≤ (h.sinc.toNat + 256 - c % 256) % 256)
  | none => false

/-- Node `n` under incarnation `i`: a new one starts the state towards it at SEQ 0 (R380). -/
def heardAs (n i : Nat) (s : State) : State :=
  if (s.peer n).sinc = some i then s
  else s.setPeer n { s.peer n with sinc := some i, expect := 0, held := [], unacked := 0 }

/-- A sequenced packet at its target (R378, R380, R382, R383). A packet sent before a reset of its source is never
performed after it. -/
def receiveSeq (port : Nat) (p : Packet) (fault : Bool) (s : State) : State :=
  let h := p.hdr
  let n := h.src.toNat
  if tooOld h s then s.count .FAB_CNT 31 16
  else if wordsBad p then s.count .FAB_CNT 15 0
  else if h.dinc.toNat ≠ s.rf .FAB_INC 7 0 then nak port h 5 (s.count .FAB_CNT2 15 0)
  else if formerSinc (s.peer n) h then s
  else
    let s := heardAs n h.sinc.toNat s
    if !p.errs.isEmpty then
      let s := nak port h 6 (s.count .FAB_CNT2 63 48)
      match p.body with
      | .coll m => collBadWord m s
      | _ => s
    else
      let x := s.peer n
      let ahead := (h.seq.toNat + 2 ^ 32 - x.expect) % 2 ^ 32
      if ahead = 0 then performHeld n 256 (performed n (perform port fault p s))
      else if 2 ^ 31 ≤ ahead ∨ x.held.any (fun q => q.pkt.hdr.seq == h.seq) then sendAck n (s.count .FAB_CNT 47 32)
      else if x.held.length < 256 then s.setPeer n { x with held := x.held ++ [⟨port, fault, p⟩] }
      else s

/-! ### At the requester (R375, R379, R380, R382, R388, R391) -/

/-- The WRITEs among packets, with which a NAK may still have to do within the 2 ms of R387. -/
def nakable (os : List OutPkt) (s : State) : List OutPkt :=
  os.filter fun o => (match o.pkt.body with | .write _ => true | _ => false) &&
    (match o.first with | some t => decide (s.now < t + 2000000) | none => true)

/-- A cumulative acknowledgement from node `n`. -/
def receiveAck (n : Nat) (h : PktHdr) (s : State) : State :=
  let x := s.peer n
  let seq := h.seq.toNat
  if h.sinc.toNat ≠ x.dinc ∨ !ackOk x seq then s
  else
    let gone := ackCovers x seq
    let s := s.setPeer n { x with
      sent := x.sent.filter fun o => !seqLe o.pkt.hdr.seq.toNat seq
      acked := nakable (x.acked ++ gone) s
      advAt := s.now
      toCount := 0 }
    gone.foldl (fun s o => match o.tag with
      | .coll p op => collAcked p op s
      | .dma c => dmaAcked c s
      | .tile _ => s
      | .none => s) s

/-- NAK BUSY: the ATOMIC that it names is retried in 10 µs (R391). -/
def nakBusy (n : Nat) (h : PktHdr) (s : State) : State :=
  modFab (fun f => { f with reqs := f.reqs.map fun r =>
    match r.asker with
    | .atomic _ => if r.node = n ∧ r.seqs.head? = some h.seq.toNat then { r with busyAt := some s.now } else r
    | _ => r }) s

/-- NAK DISCARD: the packet is sent again at once on another path, and its path fails after four (R375, R382). -/
def nakDiscard (n : Nat) (h : PktHdr) (s : State) : State :=
  match (s.peer n).sent.find? fun o => o.pkt.hdr.seq == h.seq with
  | none => s
  | some o =>
    let o := { o with discards := o.discards + 1 }
    let s := putOut n o s
    let s := if 4 ≤ o.discards then o.path.elim s fun k => pathDead n k s else s
    retransmit n o s

/-- A refused WRITE, which an acknowledgement may have covered before its NAK came (R387). -/
def nakRefused (n : Nat) (h : PktHdr) (s : State) : State :=
  let x := s.peer n
  match (x.sent ++ x.acked).find? fun o => o.pkt.hdr.seq == h.seq with
  | none => s
  | some o => match o.pkt.body with
    | .write _ =>
      let s := s.setPeer n { x with acked := x.acked.filter fun o => o.pkt.hdr.seq != h.seq }
      let s := match o.tag with
        | .dma c => dmaRefused c (dmaStatus h.op.toNat) s
        | _ => s
      writeRefused o.part (windowAddr n o.pkt.hdr.addr.toNat) s
    | _ => s

/-- A NAK names a packet of this device (R377). -/
def receiveNak (n : Nat) (h : PktHdr) (s : State) : State :=
  let st := h.op.toNat
  if st = 5 then
    if h.sinc.toNat = (s.peer n).dinc then s else resync n (s.setPeer n { s.peer n with dinc := h.sinc.toNat })
  else if st = 4 then nakBusy n h s
  else if st = 6 then nakDiscard n h s
  else nakRefused n h s

/-- The data of a READ reach who asked; a response to an earlier issue of it counts as well (R388). -/
def receiveReadRsp (n : Nat) (h : PktHdr) (data : List Byte) (s : State) : State :=
  match s.fab.reqs.find? fun r => r.node == n && r.seqs.contains h.seq.toNat &&
      (match r.asker with | .atomic _ => false | _ => true) with
  | none => s
  | some r =>
    let s := dropReq r s
    let a := windowAddr n r.addr
    let st := h.op.toNat
    match r.asker with
    | .load t =>
      if st = 0 then loadReturns t r.id data s
      else
        let s := remoteRecord (statusCause st) a (whoTile s t) s
        if awaits t r.id s then remoteFaults t (statusCause st) a s else s
    | .dma c off =>
      if st = 0 then dmaGot c off data s
      else dmaReadFails c off st a r.part s
    | _ => s

/-- The answer to an ATOMIC: the first one completes it (R391). -/
def receiveAtomicRsp (n : Nat) (h : PktHdr) (old : Word) (req : Nat) (s : State) : State :=
  match reqById true req s with
  | none => s
  | some r =>
    if r.node ≠ n then s else
    let s := dropReq r s
    match r.asker with
    | .atomic t =>
      if !awaits t r.id s then s
      else
        let st := h.op.toNat
        let a := windowAddr n r.addr
        if st ≠ 0 then remoteFaults t (statusCause st) a (remoteRecord (statusCause st) a (whoTile s t) s)
        else match (s.core t).wait with
          | .remoteAtomic gd _ => s.modCore t fun c => ({ c with wait := .none }.setG gd old).next 4
          | _ => s
    | _ => s

/-- A PATH_FAIL names a path by its ports: it becomes DEAD (R375). -/
def receivePathFail (p0 p1 p2 : Nat) (s : State) : State :=
  (peerNodes s).foldl (fun s n => (List.range 4).foldl (fun s k =>
    let e := (s.peer n).path k
    if pathValid e && pathPort e 0 == p0 && pathPort e 1 == p1 && pathPort e 2 == p2 then pathDead n k s else s) s) s

/-! ### A packet arrives (R374, R382) -/

/-- Forward a transit packet, or drop it and tell its source (R374). -/
def forward (p : Packet) (s : State) : State :=
  let h := p.hdr
  let hop := h.hop.toNat + 1
  let q := if hop = 1 then h.p1.toNat else h.p2.toNat
  if hop ≤ h.hops.toNat ∧ q < 36 ∧ portUp q s then enqueue q { p with hdr := { h with hop := BitVec.ofNat 2 hop } } none s
  else
    let n := h.src.toNat
    sendLoose n ⟨newHdr n 0 0 h.seq.toNat 1 0 1 0 s, .pathFail h.p0 h.p1 h.p2, []⟩ s

/-- What the arrival of a packet at a port counts, and the wake of the port's half (R382, R394, R496). -/
def noteArrival (port : Nat) (e : LinkErr) (p : Packet) (s : State) : State :=
  let bad := (linkBad e p).length + (if linkHdrBad e p then 1 else 0)
  let s := s.count .FAB_PORT_CNT 31 16 port 0 (linkCorrected e p)
  let s := s.count .FAB_PORT_CNT 15 0 port 0 bad
  let s := reeveCount 0 (linkCorrected e p) (wakeDom (42 + port / 18) s)
  s.setFabPort port { s.fabPort port with errs := (s.fabPort port).errs + bad }

/-- A packet without a sequence reaches its handler (R375, R379, R380, R388, R391). -/
def receiveLoose (p : Packet) (s : State) : State :=
  let n := p.hdr.src.toNat
  match p.body with
  | .readRsp d => receiveReadRsp n p.hdr d s
  | .atomicRsp old req => receiveAtomicRsp n p.hdr old req.toNat s
  | .ack => receiveAck n p.hdr s
  | .nak => receiveNak n p.hdr s
  | .pathFail p0 p1 p2 => receivePathFail p0.toNat p1.toNat p2.toNat s
  | _ => s

/-- A packet with a good header: another node's goes on, and this node's is performed (R374, R378). -/
def takePacket (port : Nat) (p : Packet) (fault : Bool) (s : State) : State :=
  if p.hdr.dst.toNat ≠ ownNode s then forward p s
  else if sequenced p.body then receiveSeq port p fault s
  else if !p.errs.isEmpty then s.count .FAB_CNT2 63 48
  else receiveLoose p s

/-- A packet arrives at a port, its words having been checked. -/
def receive (port : Nat) (e : LinkErr) (p : Packet) (fault : Bool) (s : State) : State :=
  if !fabOn s || !portUp port s then s
  else if linkHdrBad e p then (noteArrival port e p s).count .FAB_CNT 15 0
  else takePacket port { p with errs := linkBad e p } fault (noteArrival port e p s)

/-! ### The commands -/

def execWrite (port : Fin 36) (e : LinkErr) (h : PktHdr) (data : List Byte) (s : State) : Ans :=
  .next (receive port e ⟨h, .write data, []⟩ false s)
def execRead (port : Fin 36) (e : LinkErr) (h : PktHdr) (s : State) : Ans :=
  .next (receive port e ⟨h, .read, []⟩ false s)
def execReadRsp (port : Fin 36) (e : LinkErr) (h : PktHdr) (data : List Byte) (s : State) : Ans :=
  .next (receive port e ⟨h, .readRsp data, []⟩ false s)
def execAtomic (port : Fin 36) (e : LinkErr) (h : PktHdr) (operand compare : Word) (req : BitVec 32) (s : State) : Ans :=
  .next (receive port e ⟨h, .atomic operand compare req, []⟩ false s)
def execAtomicRsp (port : Fin 36) (e : LinkErr) (h : PktHdr) (old : Word) (req : BitVec 32) (s : State) : Ans :=
  .next (receive port e ⟨h, .atomicRsp old req, []⟩ false s)
def execAck (port : Fin 36) (e : LinkErr) (h : PktHdr) (s : State) : Ans :=
  .next (receive port e ⟨h, .ack, []⟩ false s)
def execNak (port : Fin 36) (e : LinkErr) (h : PktHdr) (s : State) : Ans :=
  .next (receive port e ⟨h, .nak, []⟩ false s)
def execPathFail (port : Fin 36) (e : LinkErr) (h : PktHdr) (p0 p1 p2 : BitVec 6) (s : State) : Ans :=
  .next (receive port e ⟨h, .pathFail p0 p1 p2, []⟩ false s)
def execPacketForward (port : Fin 36) (e : LinkErr) (pkt : Packet) (s : State) : Ans :=
  .next (receive port e pkt false s)

def execCollDataRx (port : Fin 36) (e : LinkErr) (h : PktHdr) (m : CollMsg) (fault : Bool) (s : State) : Ans :=
  .next (receive port e ⟨h, .coll m, []⟩ fault s)
def execReportRx (port : Fin 36) (e : LinkErr) (h : PktHdr) (p : Fin 32) (epoch : BitVec 32) (member : BitVec 12)
    (s : State) : Ans :=
  .next (receive port e ⟨h, .coll ⟨p, epoch, .report member⟩, []⟩ false s)
def execDecisionRx (port : Fin 36) (e : LinkErr) (h : PktHdr) (p : Fin 32) (epoch : BitVec 32) (s : State) : Ans :=
  .next (receive port e ⟨h, .coll ⟨p, epoch, .commit⟩, []⟩ false s)
def execAbortRx (port : Fin 36) (e : LinkErr) (h : PktHdr) (p : Fin 32) (epoch : BitVec 32) (src : BitVec 12)
    (cause : BitVec 3) (s : State) : Ans :=
  .next (receive port e ⟨h, .coll ⟨p, epoch, .abort src cause⟩, []⟩ false s)
def execCreditRx (port : Fin 36) (e : LinkErr) (h : PktHdr) (p : Fin 32) (epoch : BitVec 32) (dir : Bool)
    (set : BitVec 2) (rank : BitVec 12) (s : State) : Ans :=
  .next (receive port e ⟨h, .coll ⟨p, epoch, .credit dir set rank⟩, []⟩ false s)
def execA2aAckRx (port : Fin 36) (e : LinkErr) (h : PktHdr) (p : Fin 32) (epoch : BitVec 32) (dir : Bool)
    (hamlet : Fin 8) (set : BitVec 2) (rank : BitVec 12) (s : State) : Ans :=
  .next (receive port e ⟨h, .coll ⟨p, epoch, .slotAck dir hamlet set rank⟩, []⟩ false s)

/-- The target acknowledges what it has performed (R379). -/
def execAckSend (node : BitVec 12) (s : State) : Ans :=
  .next (if fabOn s && (s.peer node.toNat).unacked != 0 then sendAck node.toNat s else s)

end Sys2Proof.Machine
end

