-- ==== Sys2Proof/Machine/GranaryTurn.lean ====
section
/-! DEFINITION. What the Granary does by itself with its queues and moves: the round of R249 and the switch of R240
(08_memory_tiers.md R240 to R243, R247, R249, R257). -/

namespace Sys2Proof.Machine

open Sys2Proof

/-- The next queue of the round that holds a command: partitions 0 to 15 and the steward's, 16. With none left in this
round it is reclaim's turn, where a page waits for it, and then the next round begins (R249). -/
def nextQueueTurn (s : State) : Option Nat :=
  let some' := fun q => !(grnQueue q s).isEmpty
  match (List.range 17).find? fun q => decide (s.grn.turn ≤ q) && some' q with
  | some q => some q
  | none => if (List.range 16).any fun p => reclaimable p s then none else (List.range 17).find? some'

/-- The command at the head of a queue goes on to its next page, or leaves the queue, and a RAISE that waits for room is
placed (R249, R257). -/
def commandOn (q : Nat) (s : State) : State :=
  let s := match grnQueue q s with
    | c :: cs => setQueue q (if c.count ≤ 1 then cs else { c with page := c.page + 1, count := c.count - 1 } :: cs) s
    | [] => s
  if q = 16 then s else placePending q s

/-- One page of a queued command is served; a partition's command skips pages that it does not own; a raise that waits
for a switch or for a free move keeps its place (R247 to R249). -/
def granaryTurn (s : State) : State :=
  let s := reclaimInterval s
  match nextQueueTurn s with
  | none => s
  | some q =>
    let s := modGrn (fun g => { g with turn := q + 1 }) s
    match grnQueue q s with
    | [] => s
    | c :: _ =>
      let asker := if q = 16 then none else some q
      if asker.isSome && (s.page c.page).owner != asker then resolveHolds (commandOn q (s.flag .GRN_EVT 0))
      else match commandPage asker c s with
        | (.wait, s) => s
        | (r, s) =>
          let s := match c.hold with
            | some (id, t) => if r = .refused then refuseHold id t s else s
            | none => s
          resolveHolds (commandOn q s)

/-- The words of a page whose check bytes differ from those of their data. -/
def pageEcc (n : Nat) (s : State) : List Nat :=
  (s.ecc.map (·.1)).filter fun w => decide (n * 2048 ≤ w ∧ w < (n + 1) * 2048)

/-- The move engine copies page `n`: an owned page's words are checked, corrected or left uncorrectable, counted and
recorded; an unowned page is not read, and its contents are not guaranteed (R237, R240, R243). -/
def copyPage (n : Nat) (s : State) : State :=
  if (s.page n).owner.isNone then s.loseRegion (n * 65536) 65536
  else (pageEcc n s).foldl (fun s w => match s.eccAt w with
    | .uncorrectable =>
      errRecord 0x002 whoGrn (w * 32) 0 ((s.count .GRN_CNT_ECC 15 0).flag .GRN_EVT 3)
    | _ => if s.correctable w then countCorrected w (s.correctWord w) else s) s

/-- The Sluice stages that a move's copy goes through: the pile of its frame, and tier 2 (R242, R423). -/
def moveStages (m : Move) : List Nat := [m.pile, 8]

/-- The copy of a move is served at its stages: charged to its partition, or held there (R27, R242, R424). A move past
its frame-write point has been served. -/
def moveServed (m : Move) (s : State) : Bool × State :=
  match m.charge with
  | none => (true, s)
  | some p =>
    if m.stage == 2 || (moveStages m).all fun st => sluiceOpen st p s then
      (true, (moveStages m).foldl (fun s st => sluiceCharge st p 65536 s) s)
    else (false, (moveStages m).foldl (fun s st => if sluiceOpen st p s then s else sluiceHeld st p s) s)

/-- The copy and the switch of the move that raises page `riser`, once its stages serve it (R240 to R242). -/
def moveSwitch (riser : Nat) (s : State) : State :=
  match s.grn.moves.find? fun m => m.riser == riser with
  | none => s
  | some m =>
    let r := moveServed m s
    if !r.1 then r.2 else
    let s := r.2
    let s := copyPage m.faller (copyPage m.riser s)
    let s := s.setPage m.riser { s.page m.riser with st := .resident, pile := m.pile }
    let s := s.setPage m.faller { s.page m.faller with st := .lower }
    let s := modGrn (fun g => { g with moves := g.moves.filter fun x => x.riser != riser }) s
    let s := m.held.foldl (fun s h => applyHeld h s) (s.count .GRN_CNT_MOVE 63 32)
    resolveHolds s

def execGranaryTurn (s : State) : Ans := .next (granaryTurn s)
def execMoveSwitch (riser : Nat) (s : State) : Ans := .next (moveSwitch riser s)

end Sys2Proof.Machine
end

