-- ==== Sys2Proof/Machine/Mailbox.lean ====
section
/-! DEFINITION. Mailboxes: staging sets, sends and their outcomes, doorbell bits, and receiver resets
(14_host_link_and_mailboxes.md R441 to R449, R451). -/

namespace Sys2Proof.Machine

open Sys2Proof

def modHl (f : HostLink → HostLink) (s : State) : State := { s with hl := f s.hl }

/-! ### Senders and staging sets (R441, R442) -/

/-- MBX_ACL permits the sender; mailboxes 0 to 3 always accept PF0 (R441). -/
def mbxPermits (ag : Agent) (m : Nat) (s : State) : Bool :=
  match ag with
  | .steward => true
  | .tile t => s.rb .MBX_ACL (s.core t).part.toNat m
  | .host f => s.rb .MBX_ACL (16 + f.val) m || (f.val == 0 && decide (m < 4))

/-- The number of a staging set outside the tiles: functions 0 to 31, the steward 32. -/
def stgIndex : Agent → Nat
  | .host f => f.val
  | _ => 32

def hlStaging (i : Nat) (s : State) : Staging := Tab.get (fun _ => Staging.reset) s.hl.staging i

/-- The staging set of a writer. -/
def stagingOf (ag : Agent) (s : State) : Staging :=
  match ag with
  | .tile t => (s.core t).stg
  | _ => hlStaging (stgIndex ag) s

def modStaging (ag : Agent) (f : Staging → Staging) (s : State) : State :=
  match ag with
  | .tile t => s.modCore t fun c => { c with stg := f c.stg }
  | _ => modHl (fun h => { h with
      staging := Tab.set (fun _ => Staging.reset) h.staging (stgIndex ag) (f (hlStaging (stgIndex ag) s)) }) s

/-- A write of MBX_STG word `j`, in the writer's own set. -/
def stgWrite (ag : Agent) (j : Nat) (v : Word) (s : State) : State :=
  modStaging ag (fun g => { g with words := Tab.set (fun _ => 0) g.words j v }) s

/-- The value of MBX_STG_STAT for a reader. -/
def stgStat (ag : Agent) (s : State) : Word :=
  let g := stagingOf ag s
  place 39 32 g.mbx ||| place 1 0 g.status

/-- The outcome of a send in the sender's set. -/
def sendOutcome (ag : Agent) (m status : Nat) (s : State) : State :=
  modStaging ag (fun g => { g with mbx := m, status := status, sent := true }) s

/-! ### Messages (R443, R444) -/

def mbxSender (m : Nat) (s : State) : MbxSender := Tab.get (fun _ => MbxSender.reset) s.hl.senders m

def setSender (m : Nat) (x : MbxSender) (s : State) : State :=
  modHl (fun h => { h with senders := Tab.set (fun _ => MbxSender.reset) h.senders m x }) s

/-- The launch whose kernel sends. -/
def senderLaunch (ag : Agent) (s : State) : Option Nat :=
  match ag with
  | .tile t => (s.tile t).launch
  | _ => none

/-- SKIND, SID and SPART of a sender. -/
def senderId (ag : Agent) (s : State) : Nat × Nat × Nat :=
  match ag with
  | .steward => (0, 0, 0)
  | .tile t => (1, t.val, (s.core t).part.toNat)
  | .host f => (2, f.val, (s.fnPart f.val).getD 0)

/-- A doorbell that a notice asks for: dropped when its mailbox's receiver is not ready (R448). -/
def noteRing (x : MbxSender) (s : State) : State :=
  if !x.noteEn then s
  else if x.noteMbx < 256 ∧ !s.rb .MBX_STAT 61 x.noteMbx then s.count .HL_CNT 31 16
  else ringDb x.noteMbx (1#32 <<< x.noteBit) s

/-- The last send of a set was to mailbox `m`: its status becomes ABORTED. -/
def Staging.abort (g : Staging) (m : Nat) : Staging := if g.sent && g.mbx == m then { g with status := 2 } else g

/-- The notice in a saved or swapped image, if it is of the launch that sent. -/
def Image.abortSend (im : Image) (launch : Option Nat) (m : Nat) : Image :=
  if launch = some im.launch then { im with core := { im.core with stg := im.core.stg.abort m } } else im

/-- The ABORTED notice reaches the sender's set: of a tile, the set of the kernel that sent, on the tile or in the saved
or swapped image that holds it (R442, R448). -/
def noteStatus (x : MbxSender) (m : Nat) (s : State) : State :=
  if x.kind = 1 then
    if (s.tile x.id).launch = x.launch then s.modCore x.id fun c => { c with stg := c.stg.abort m }
    else
      let s := s.modTile x.id fun y => { y with saved := y.saved.map fun im => im.abortSend x.launch m }
      { s with sched := { s.sched with cxs := s.sched.cxs.map fun c => (c.1, { c.2 with images := c.2.images.map fun i =>
        if i.1 = x.id then (i.1, i.2.abortSend x.launch m) else i }) } }
  else
    let i := if x.kind = 2 then x.id else 32
    modHl (fun h => { h with staging := Tab.set (fun _ => Staging.reset) h.staging i ((hlStaging i s).abort m) }) s

/-- The ABORTED notice of a message or send (R448). -/
def abortedNotice (m : Nat) (x : MbxSender) (s : State) : State := noteRing x (noteStatus x m s)

/-- The message words of a send (R443). -/
def messageWords (ag : Agent) (v : Word) (seq : Nat) (s : State) : List Word :=
  let id := senderId ag s
  let n := fld v 2 0
  let w0 := place 63 62 id.1 ||| place 61 55 id.2.1 ||| place 54 51 id.2.2 ||| place 50 48 n |||
    place 47 32 (fld v 31 16) ||| place 31 0 seq
  w0 :: (List.range 7).map fun i => if i < n then Tab.get (fun _ => 0) (stagingOf ag s).words i else 0

/-- MBX_SEND: stored, stored over another message, turned away or denied (R443, R444). -/
def mbxSend (ag : Agent) (m : Nat) (v : Word) (s : State) : State :=
  let s := wakeDom 48 s
  if !mbxPermits ag m s || s.mbxKind m == 0 || !s.mbxEn m then sendOutcome ag m 3 (s.count .HL_CNT 63 48)
  else
    let id := senderId ag s
    let x : MbxSender := ⟨id.1, id.2.1, senderLaunch ag s, bit v 63, fld v 56 48, fld v 44 40, (mbxSender m s).seq⟩
    if !s.rb .MBX_STAT 61 m then noteRing x (sendOutcome ag m 2 (s.count .MBX_CNT 15 0 m))
    else
      let full := s.rb .MBX_STAT 63 m
      let seq := (x.seq + 1) % 2 ^ 32
      let ws := messageWords ag v seq s
      let s := ws.zipIdx.foldl (fun s w => s.setReg .MBX_MSG w.1 m w.2) s
      let s := setSender m { x with seq := seq } ((s.putReg .MBX_STAT 31 0 seq m).flag .MBX_STAT 63 m)
      let s := (s.flagIf full .MBX_STAT 62 m).count .MBX_CNT 63 32 m
      let s := if full then s.count .MBX_CNT 31 16 m else s
      sendOutcome ag m (if full then 1 else 0) (if bit v 39 then setDb m (1#32 <<< fld v 36 32) s else s)

/-! ### Receivers (R445 to R448, R451) -/

/-- The receiver of a mailbox, or steward firmware (R441, R448, R451). -/
def mbxReceives (ag : Agent) (m : Nat) (s : State) : Bool :=
  match ag with
  | .steward => true
  | .tile t => s.mbxKind m == 3 && s.rf .MBX_CFG 51 48 m == (s.core t).part.toNat &&
      inMask (s.dmask (s.rf .MBX_CFG 44 40 m)) t
  | .host f => s.mbxKind m == 2 && s.rf .MBX_CFG 56 52 m == f.val

/-- MBX_ACK: ACK clears FULL and COLLISION, READY sets RREADY. -/
def mbxAck (m : Nat) (v : Word) (s : State) : State :=
  let s := wakeDom 48 s
  let s := if bit v 0 then (s.unflag .MBX_STAT 63 m).unflag .MBX_STAT 62 m else s
  s.flagIf (bit v 1) .MBX_STAT 61 m

/-- MBX_DB_SET by any tile, function or steward firmware (R446, R451). -/
def mbxDbSet (ag : Agent) (m : Nat) (v : Word) (s : State) : State :=
  let s := wakeDom 48 s
  if !mbxPermits ag m s || !s.mbxEn m || s.mbxKind m == 0 then s.count .HL_CNT 63 48
  else setDb m (v.setWidth 32) s

/-- MBX_DB, W1C. -/
def mbxDbClear (m : Nat) (v : Word) (s : State) : State :=
  let s := wakeDom 48 s
  s.setReg .MBX_DB (s.reg .MBX_DB m &&& ~~~ v) m

/-- MBX_DB_MASK: what it unmasks of the bits already set notifies (R447). -/
def mbxDbMask (m : Nat) (v : Word) (s : State) : State :=
  let s := wakeDom 48 s
  let old := (s.reg .MBX_DB_MASK m).setWidth 32
  let new := v.setWidth 32
  notify m (new &&& ~~~ old &&& (s.reg .MBX_DB m).setWidth 32) (s.setReg .MBX_DB_MASK (new.setWidth 64) m)

/-- A write of MBX_CFG (R451). -/
def mbxCfgWrite (m : Nat) (v : Word) (s : State) : State :=
  let s := wakeDom 48 s
  if m < 4 then s
  else
    let was := s.rb .MBX_CFG 63 m
    let s := s.writePlain .MBX_CFG v m
    if bit v 63 && !was then
      let s := (((s.unflag .MBX_STAT 63 m).unflag .MBX_STAT 62 m).setReg .MBX_DB 0 m).flag .MBX_STAT 61 m
      setSender m { mbxSender m s with seq := 0 } s
    else s

/-- The receiver of mailbox `m` is reset (R448). -/
def mbxReset (m : Nat) (s : State) : State :=
  let full := s.rb .MBX_STAT 63 m
  let s := (((s.unflag .MBX_STAT 63 m).unflag .MBX_STAT 62 m).unflag .MBX_STAT 61 m).setReg .MBX_DB 0 m
  if full then abortedNotice m (mbxSender m s) s else s

/-- The receivers of a kind, which a further condition picks, are reset. -/
def mbxResets (kind : Nat) (sel : Nat → Bool) (s : State) : State :=
  (List.range 256).foldl (fun s m => if s.mbxKind m == kind && sel m then mbxReset m s else s) s

/-- A steward restart, a reset or disable of function `f`, a stop of partition `p` (R448). -/
def mbxStewardReset (s : State) : State := mbxResets 1 (fun _ => true) s
def mbxFnReset (f : Nat) (s : State) : State := mbxResets 2 (fun m => s.rf .MBX_CFG 56 52 m == f) s
def mbxPartReset (p : Nat) (s : State) : State := mbxResets 3 (fun m => s.rf .MBX_CFG 51 48 m == p) s

/-! ### The commands -/

/-- An access by the receiver of a mailbox; it wakes the steward domain (R449). -/
def mbxBy (ag : Agent) (m : Nat) (f : State → State) (s : State) : Ans :=
  .next (if mbxReceives ag m s then f (wakeDom 48 s) else refusePermission s)

def execMbxSend (ag : Agent) (m : Fin 256) (v : Word) (s : State) : Ans := .next (mbxSend ag m v s)
def execMbxAck (ag : Agent) (m : Fin 256) (v : Word) (s : State) : Ans := mbxBy ag m (mbxAck m v) s
def execMbxReady (ag : Agent) (m : Fin 256) (v : Word) (s : State) : Ans := mbxBy ag m (mbxAck m v) s
def execMbxDbSet (ag : Agent) (m : Fin 256) (v : Word) (s : State) : Ans := .next (mbxDbSet ag m v s)
def execMbxDbClear (ag : Agent) (m : Fin 256) (v : Word) (s : State) : Ans := mbxBy ag m (mbxDbClear m v) s
def execMbxDbMaskWrite (ag : Agent) (m : Fin 256) (v : Word) (s : State) : Ans := mbxBy ag m (mbxDbMask m v) s
def execMbxCfgWrite (m : Fin 256) (v : Word) (s : State) : Ans := .next (mbxCfgWrite m v s)
def execMbxCntRead (ag : Agent) (m : Fin 256) (s : State) : Ans := mbxBy ag m (fun s => s.readPlain .MBX_CNT m) s

end Sys2Proof.Machine
end

