-- ==== Sys2Proof/Machine/PartCtl.lean ====
section
/-! DEFINITION. Partitions, contexts and functions as steward firmware sets them up, stopping a partition, draining a
function, and the Sluice windows (13_partitions_and_scheduling.md R400, R401, R406, R423 to R431). -/

namespace Sys2Proof.Machine

open Sys2Proof

/-! ### Partitions (R401) -/

/-- Another valid partition holds a tile of `m`. -/
def tilesOverlap (p : Nat) (m : BitVec 128) (s : State) : Bool :=
  (List.range 16).any fun q => q != p && s.partValid q && (s.partTiles q &&& m) != 0

/-- A write of PART_P_TILE_LO or _HI (true). -/
def partTileWrite (p : Nat) (hi : Bool) (v : Word) (s : State) : State :=
  let lo := if hi then s.reg .PART_P_TILE_LO p else v
  let up := if hi then v else s.reg .PART_P_TILE_HI p
  if s.partValid p && tilesOverlap p (mask128 lo up) s then s.flag .PART_ERR 0
  else if hi then s.setReg .PART_P_TILE_HI v p else s.setReg .PART_P_TILE_LO v p

/-- A write of PART_P_CTL; clearing VALID resets the partition's mailbox receivers (R448). -/
def partCtlWrite (p : Nat) (v : Word) (s : State) : State :=
  let was := s.partValid p
  if bit v 63 && !was && tilesOverlap p (s.partTiles p) s then s.flag .PART_ERR 0
  else
    let s := s.writePlain .PART_P_CTL v p
    if was && !bit v 63 then mbxPartReset p s else s

/-! ### Contexts (R406, R431) -/

/-- A write of CX_CTL. -/
def cxCtlWrite (c : Nat) (v : Word) (s : State) : State :=
  if s.cxValid c then
    if bit v 63 || (cxState c s != 0 && cxState c s != 5) then s
    else modCx c (fun _ => Cx.reset) (s.unflag .CX_CTL 63 c)
  else
    let v := putFld v 3 0 (min 12 (max 4 (fld v 3 0)))
    if !bit v 63 then s.writePlain .CX_CTL v c
    else
      let pinned := bit v 62 || (s.radio && fld v 19 16 == 0)
      if pinned && decide (64 ≤ slotsUsed s) then s.flag .PART_ERR 5
      else
        let s := ((((s.writePlain .CX_CTL v c).setReg .CX_LQ_TAIL 0 c).setReg .CX_LQ_HEAD 0 c).setReg .CX_CQ_TAIL 0
          c).setReg .CX_CQ_HEAD 0 c
        noteCx c (modCx c (fun _ => { Cx.reset with swap := if pinned then 0 else 5, since := s.now }) s)

/-- The value of CX_STAT (R407). -/
def cxStat (c : Nat) (s : State) : Word :=
  (s.reg .CX_STAT c &&& fmask 63 32) ||| place 31 8 (blkUs c s) ||| place 4 4 (!(s.cx c).records.isEmpty).toNat |||
    place 2 0 (cxState c s)

/-- The value of PART_STAT. -/
def partStat (s : State) : Word :=
  let on := slotsUsed s
  place 40 32 ((cxList s).length - on) ||| place 6 0 on

/-! ### Stopping (R416, R429, R430) -/

/-- Every ring entry of context `c` that has not been taken completes with a status and REASON. -/
def forceEntries (c : Nat) (e : Nat × Nat) : Nat → State → State
  | 0, s => s
  | n + 1, s => if ringHas c s then forceEntries c e n (takeEntry c (some e) s) else s

/-- The kernels and ring entries of context `c` end with ABORTED and a REASON. -/
def stopCx (c reason : Nat) (s : State) : State :=
  let s := (cxLaunches c s).foldl (fun s l => stopLaunch l.id stAborted reason s) s
  noteCx c (forceEntries c (stAborted, reason) 65536 s)

/-- Pile engines, Drovers and collective runs of a partition act as at a stop (R296, R329, R355). -/
def stopEngines (p : Nat) (s : State) : State :=
  let s := seStopPart p s
  let s := (List.range 8).foldl (fun s h => if s.rb .DRV_CTL 12 h && drvPart h s == p then drvStop h s else s) s
  pumpAll (collStop p s)

/-- Nothing of the engines' work for partition `p` is left. -/
def enginesQuiet (p : Nat) (s : State) : Bool :=
  (s.se.all fun e => e.2.cmds.all (fun c => c.part != p) && e.2.wait.all (fun c => c.part != p)) &&
    ((List.range 8).all fun h => !(s.rb .DRV_CTL 12 h && drvPart h s == p) ||
      (List.range 16).all fun i => (s.slot h i).isNone) &&
    ((List.range 32).all fun q => !(cpEn q s && cpOwner q s == some p && cpLive q s))

/-- A DMA channel is idle. -/
def dmaIdle (c : Nat) (s : State) : Bool := (s.dmaCh c).run.isNone && (s.dmaCh c).queue.isEmpty

/-- Contexts that a condition picks have no launch and no ring entry left. -/
def cxsQuiet (sel : Nat → Bool) (s : State) : Bool :=
  (cxList s).all fun c => !sel c || ((cxLaunches c s).isEmpty && !ringHas c s)

/-- Everything that a stop of partition `p` ends has ended (R430). -/
def partQuiet (p : Nat) (s : State) : Bool :=
  cxsQuiet (fun c => s.cxPart c == p) s && enginesQuiet p s &&
    (List.range 32).all fun c => dmaOwner c s != p || dmaIdle c s

/-- PART_P_CTL.STATE: STOPPING becomes STOPPED when all has completed (R430). -/
def partState (p : Nat) (s : State) : Nat :=
  let st := s.rf .PART_P_CTL 1 0 p
  if st = 1 then (if partQuiet p s then 2 else 1) else st

/-- A write of STOP to PART_P_STOP (R430, R448). -/
def partStop (p : Nat) (s : State) : State :=
  if s.rf .PART_P_CTL 1 0 p ≠ 0 then s
  else
    let s := s.putReg .PART_P_CTL 1 0 1 p
    let s := (cxList s).foldl (fun s c => if s.cxPart c == p then stopCx c 2 s else s) s
    let s := (List.range 32).foldl (fun s c => if dmaOwner c s == p then dmaAbort c s else s) s
    let s := mbxPartReset p (stopEngines p s)
    if s.radio && p == 0 then faultLive s else s

/-- A write of RESUME (R430). -/
def partResume (p : Nat) (s : State) : State := if partState p s = 2 then s.putReg .PART_P_CTL 1 0 0 p else s

/-! ### Functions (R426, R429, R448) -/

/-- Contexts that name function `f`. -/
def cxOfFn (f : Nat) (s : State) (c : Nat) : Bool := s.rf .CX_CTL 52 48 c == f

/-- Another enabled function binds the partition. -/
def otherFn (f p : Nat) (s : State) : Bool :=
  (List.range 32).any fun g => g != f && s.rf .PART_FN_STAT 1 0 g == 1 && s.fnPart g == some p

/-- Step 3 of a drain has completed (R429). The stored state is then 3, and 2 before it. -/
def drainQuiet (f : Nat) (s : State) : Bool :=
  cxsQuiet (cxOfFn f s) s && ((List.range 32).all fun c => dmaFn c s != f || dmaIdle c s) &&
    (match s.fnPart f with
     | some p => otherFn f p s || enginesQuiet p s
     | none => true)

/-- PART_FN_STAT.STATE: 0 DISABLED, 1 ENABLED, 2 DRAINING. -/
def fnState (f : Nat) (s : State) : Nat :=
  let st := s.rf .PART_FN_STAT 1 0 f
  if st = 3 then (if drainQuiet f s then 0 else 2) else st

/-- The drain ends: with its rings empty and no launch running, or at DRAIN_US (R429, step 3). -/
def drainEnds (f : Nat) (s : State) : State :=
  let due := decide (Tab.get (fun _ => 0) s.sched.drainEnd f ≤ s.now)
  if s.rf .PART_FN_STAT 1 0 f ≠ 2 || !(due || cxsQuiet (cxOfFn f s) s) then s
  else
    let s := s.putReg .PART_FN_STAT 1 0 3 f
    let s := (cxList s).foldl (fun s c => if cxOfFn f s c then stopCx c 3 s else s) s
    let s := (List.range 32).foldl (fun s c => if dmaFn c s == f then dmaAbort c s else s) s
    match s.fnPart f with
    | some p => if otherFn f p s then s else stopEngines p s
    | none => s

/-- A write of PART_FN_CTL: EN = 0 starts a drain, EN = 1 enables, and is ignored during a drain; a drain of a
function with empty rings and no launch, or with DRAIN_US = 0, is at step 3 at once (R426, R429). -/
def fnCtlWrite (f : Nat) (v : Word) (s : State) : State :=
  let st := fnState f s
  if bit v 63 then
    if st = 2 then s else (s.writePlain .PART_FN_CTL v f).putReg .PART_FN_STAT 1 0 1 f
  else
    let s := s.writePlain .PART_FN_CTL v f
    if st = 1 then
      let s := s.putReg .PART_FN_STAT 1 0 2 f
      let t := s.now + s.rf .PART_FN_CTL 47 32 f * 1000
      drainEnds f (mbxFnReset f (modSched (fun d => { d with drainEnd := Tab.set (fun _ => 0) d.drainEnd f t }) s))
    else s

/-- A stop or a drain that has ended stays ended, whatever is asked of the partition or the function later (R429,
R430). -/
def settleStops (s : State) : State :=
  let s := (List.range 16).foldl (fun s p =>
    if s.rf .PART_P_CTL 1 0 p = 1 ∧ partQuiet p s then s.putReg .PART_P_CTL 1 0 2 p else s) s
  (List.range 32).foldl (fun s f =>
    if s.rf .PART_FN_STAT 1 0 f = 3 ∧ drainQuiet f s then s.putReg .PART_FN_STAT 1 0 0 f else s) s

/-! ### Sluice windows (R423 to R425) -/

/-- The share registers by kind (R423). -/
def shareReg (k : Nat) : RegName :=
  if k = 0 then .SLU_P_PILE else if k = 1 then .SLU_P_T2 else if k = 2 then .SLU_P_FAB else .SLU_P_HL

/-- The field of SLU_P_HELD for a stage. -/
def heldField (st : Nat) : Nat × Nat :=
  let k := stageKind st
  (63 - 16 * k, 48 - 16 * k)

/-- A window ends and the next begins: held requests are counted, and the shares as written come into force. -/
def sluiceWindow (s : State) : State :=
  let x := s.sched.sluice
  if s.now / 1000 = x.window then s
  else
    let s := (List.range 12).foldl (fun s st => (List.range 16).foldl (fun s p =>
      if Tab.get (fun _ => false) x.heldF (st * 16 + p) then
        s.count .SLU_P_HELD (heldField st).1 (heldField st).2 p else s) s) s
    let shares := (List.range 4).foldl (fun t k => (List.range 16).foldl (fun t p =>
      Tab.set (fun _ => 0x8000000000000000#64) t (k * 16 + p) (s.reg (shareReg k) p)) t) x.shares
    modSched (fun d => { d with sluice := { d.sluice with served := [], heldF := [], shares := shares, window := s.now / 1000 } }) s

/-! ### The commands -/

def execSluiceWindow (s : State) : Ans := .next (sluiceWindow s)
def execFnDisable (f : Fin 32) (v : Word) (s : State) : Ans := .next (fnCtlWrite f v s)
def execDrainEnd (f : Fin 32) (s : State) : Ans := .next (drainEnds f s)
def execFnEnable (f : Fin 32) (v : Word) (s : State) : Ans := .next (fnCtlWrite f v s)
def execPartitionStop (p : Fin 16) (s : State) : Ans := .next (partStop p s)
def execPartitionResume (p : Fin 16) (s : State) : Ans := .next (partResume p s)
def execPartPTileWrite (p : Fin 16) (hi : Bool) (v : Word) (s : State) : Ans := .next (partTileWrite p hi v s)
def execPartPCtlWrite (p : Fin 16) (v : Word) (s : State) : Ans := .next (partCtlWrite p v s)
def execCxCtlWrite (c : Fin 256) (v : Word) (s : State) : Ans := .next (cxCtlWrite c v s)

/-- A read of a partition's counters, by an agent of the partition or steward firmware. -/
def execPartPCntRead (ag : Agent) (p : Fin 16) (s : State) : Ans :=
  .next (if s.mayWrite ag p then s.readPlain .PART_P_CNT p else refusePermission s)
def execSluPHeldRead (ag : Agent) (p : Fin 16) (s : State) : Ans :=
  .next (if s.mayWrite ag p then s.readPlain .SLU_P_HELD p else refusePermission s)
def execPartFnCntRead (f : Fin 32) (s : State) : Ans := .next (s.readPlain .PART_FN_CNT f)

end Sys2Proof.Machine
end

