-- ==== Sys2Proof/Machine/HostLink.lean ====
section
/-! DEFINITION. The host link: training, going down and coming up, and function-level resets
(14_host_link_and_mailboxes.md R432 to R434, R447, R448, R450). Host requests are in Machine/HostReq.lean. -/

namespace Sys2Proof.Machine

open Sys2Proof

def linkUp (s : State) : Bool := s.rb .HL_STAT 63

/-- The link goes down, for whatever cause: reads and writes of host memory in flight complete with HOST (R434). -/
def linkGoesDown (s : State) : State :=
  if !linkUp s then s else
  let s := (s.setReg .HL_STAT 0).flag .HL_ERR 0
  let s := modHl (fun h => { h with tryAt := s.now }) (reeveCount 7 1 (s.count .HL_CNT 15 0))
  let s := s.hl.reads.foldl (fun s r => dmaFails r.chan r.dst 0x16 s) s
  modHl (fun h => { h with reads := [] }) s

/-- The link trains at a generation and a width that HL_CTL permits; what was held for it is delivered (R432, R434,
R447). -/
def linkTrains (gen width : Nat) (s : State) : State :=
  let g := if s.rf .HL_CTL 1 0 = 2 then 2 else 3
  if linkUp s || !s.rb .HL_CTL 63 || s.dormant 45 || !(gen == 2 || gen == 3) || decide (g < gen) ||
      !(width == 8 || width == 4 || width == 2) then s
  else
    let s := s.setReg .HL_STAT (place 63 63 1 ||| place 9 8 gen ||| place 3 0 width)
    let notes := s.hl.notes
    notes.foldl (fun s n => s.emit (.hostIrq n.1 n.2)) (modHl (fun h => { h with notes := [] }) s)

/-- A write of HL_RETRAIN. -/
def retrain (v : Word) (s : State) : State := if bit v 0 then linkGoesDown s else s

/-- A write of HL_CTL: GEN_MAX other than 2 is 3; clearing EN takes the link down (R434, R450). -/
def hlCtlWrite (v : Word) (s : State) : State :=
  let s := s.writePlain .HL_CTL (putFld v 1 0 (if fld v 1 0 = 2 then 2 else 3))
  if bit v 63 then s else linkGoesDown s

/-- A training attempt, every 10 ms while the link is down (R432). Whether it succeeds is HL_LINK_UP. -/
def trainRetry (s : State) : State :=
  if !linkUp s && s.rb .HL_CTL 63 && decide (s.hl.tryAt + 10000000 ≤ s.now) then
    modHl (fun h => { h with tryAt := s.now }) s
  else s

/-- A function-level reset that the adapter signals: its mailboxes are cleared and its held notifications discarded
(R434, R448). -/
def fnReset (f : Nat) (s : State) : State :=
  mbxFnReset f (modHl (fun h => { h with notes := h.notes.filter fun n => n.1 != f }) s)

/-! ### The commands -/

def execHlRetrain (v : Word) (s : State) : Ans := .next (retrain v s)
def execHlLinkUp (gen : BitVec 2) (width : BitVec 4) (s : State) : Ans := .next (linkTrains gen.toNat width.toNat s)
def execHlLinkDown (s : State) : Ans := .next (linkGoesDown s)
def execHlTrainRetry (s : State) : Ans := .next (trainRetry s)
def execFunctionLevelReset (f : Fin 32) (s : State) : Ans := .next (fnReset f s)

/-- A read of HL_CNT, by steward firmware or PF0 (R450). -/
def execHlCntRead (ag : Agent) (s : State) : Ans :=
  .next (if ag == .steward || ag == .host 0 then s.readPlain .HL_CNT else refusePermission s)

end Sys2Proof.Machine
end

