-- ==== Sys2Proof/Machine/Power.lean ====
section
/-! DEFINITION. Power domains: what holds one awake, entering dormant and waking; the power governor, the thermal
control and the PMBus polls (15_power_reset_configuration.md R452 to R462; 18_package_and_electrical.md R510, R511). -/

namespace Sys2Proof.Machine

open Sys2Proof

def modPwr (f : Power → Power) (s : State) : State := { s with pwr := f s.pwr }

/-! ### What holds a domain (R456) -/

/-- Domain `d` is awake: ready, and not waking. -/
def awake (d : Nat) (s : State) : Bool := !s.dormant d

/-- Tile `t` holds its quad: a kernel or a launch, a save or restore, a load of its configuration, a unit in KEEP or in
a ramp (R162). -/
def tileHolds (t : Nat) (s : State) : Bool :=
  let x := s.tile t
  !(x.run == .idle || (x.run == .halted && x.launch.isNone)) || x.loading.isSome || !x.waiting.isEmpty ||
    (List.range 5).any fun u => (x.munit u).st != .idle

/-- Belfry `h` holds an armed bell (R73). -/
def belfryArmed (h : Nat) (s : State) : Bool := (List.range 64).any fun n => bellArmed s h n

/-- A pile engine of memory pair `m` holds a command, or an enabled ring has a descriptor waiting (R296). -/
def pairBusy (m : Nat) (s : State) : Bool :=
  (List.range 4).any fun i =>
    let x := s.engine (4 * m + i)
    !x.cmds.isEmpty || !x.wait.isEmpty || (List.range 16).any fun r => seRing.ready (4 * m + i) r s

/-- A page pinned for partition 0 lies on the piles of memory pair `m`. -/
def radioPinned (m : Nat) (s : State) : Bool :=
  s.grn.pages.any fun e => e.2.owner == some 0 && decide (0 < e.2.pin) && e.2.inTier1 && e.2.pile / 4 == m

/-- The hold conditions of domain `d`. -/
def domHeld (d : Nat) (s : State) : Bool :=
  if d < 32 then (List.range 4).any (fun i => tileHolds (4 * d + i) s) || s.pwr.waking.contains (32 + d / 4)
  else if d < 40 then
    let h := d - 32
    (List.range 4).any (fun q => awake (4 * h + q) s || s.pwr.waking.contains (4 * h + q)) || belfryArmed h s ||
      (List.range 16).any (fun i => (s.slot h i).isSome) ||
      (List.range 16).any fun i => (s.tile (16 * h + i)).saved.isSome || (s.tile (16 * h + i)).run == .saving
  else if d < 42 then !(s.cluster (d - 40)).jobs.isEmpty
  else if d < 44 then
    (List.range 18).any (fun i => s.rb .FAB_PORT_CTL 63 ((d - 42) * 18 + i)) ||
      (List.range 32).any (fun p => cpEn p s && (!(s.prog p).ops.isEmpty || cpLive p s)) ||
      (d == 42 && !s.fab.cache.isEmpty)
  else if d = 44 then (List.range 16).any fun p => s.fhEn p
  else if d = 45 then s.rb .HL_CTL 63 && linkUp s &&
    (!s.hl.reads.isEmpty || !s.hl.notes.isEmpty ||
      s.sched.dma.any fun e => match e.2.run with
        | some r => mHdir r.ws != 0
        | none => false)
  else if d < 48 then
    let m := d - 46
    pairBusy m s || s.grn.moves.any (fun v => m == 1 || v.pile / 4 == m) || (s.radio && radioPinned m s)
  else if d = 48 then
    ((cxList s).any fun c => holdsSlot c s) || !s.grn.moves.isEmpty || (s.grn.queues.any fun q => !q.2.isEmpty) ||
      (List.range 256).any fun m => s.mbxKind m == 1 && s.reg .MBX_DB m &&& s.reg .MBX_DB_MASK m != 0
  else true

/-- The value of PWR_DOM_HOLD: requested and held. -/
def domHold (s : State) : Word :=
  BitVec.ofNat 64 ((List.range 49).foldl (fun a d => if s.rb .PWR_DOM_REQ d && domHeld d s then a + 2 ^ d else a) 0)

/-- Note, at each reference tick, the domains whose hold conditions hold (R455). -/
def noteHolds (s : State) : State :=
  modPwr (fun p => { p with heldAt := (List.range 49).foldl (fun h d =>
    if domHeld d s then Tab.set (fun _ => 0) h d s.tb.ticks else h) p.heldAt }) s

/-- Every bell that is due fires. -/
def fireAll (s : State) : State := (List.range 9).foldl (fun s h => fireDue h 64 s) s

/-- The end of one reference tick and the next: the bells that are due fire, so that each fires on the first tick on which
it is due, and all that are due on a tick fire on it (02_timebase_and_bells.md R66); then the timebase, and what the
dormant requests count from; the gain commands written since the last tick (06_fronthaul_and_slots.md R186); and the stops
and drains that have ended (13_partitions_and_scheduling.md R429, R430). -/
def deviceTick (s : State) : State := settleStops (agcTick (noteHolds (refTick (fireAll s))))

/-- The tick on which the slew ends; at any other time the event does not happen (02_timebase_and_bells.md R48). -/
def execSlewEnd (s : State) : Ans := .next (if s.tb.ending then deviceTick s else s)

/-- The tick on which a step that was asked for is evaluated (02_timebase_and_bells.md R51). -/
def execStepApply (s : State) : Ans := .next (if s.tb.stepGo then deviceTick s else s)

/-- The time in ns since which a domain's hold conditions have been clear. -/
def quietNs (d : Nat) (s : State) : Nat := 8 * (s.tb.ticks - Tab.get (fun _ => 0) s.pwr.heldAt d)

/-! ### Dormancy (R454, R455) -/

/-- A tile loses its caches and its weight planes (R454). -/
def Tile.sleep (x : Tile) : Tile :=
  { x with
    dcache := [], icache := [], loopFill := []
    units := (List.range 5).foldl (fun us u => Tab.set (fun _ => MUnit.reset) us u
      { x.munit u with plane0 := .empty, plane1 := .empty, image0 := none, image1 := none }) x.units }

/-- What domain `d` loses on entering dormant: caches and weight planes, or the link's training. -/
def domLoses (d : Nat) (s : State) : State :=
  if d < 32 then (List.range 4).foldl (fun s i => s.modTile (4 * d + i) Tile.sleep) s
  else if d = 45 then linkGoesDown s
  else s

/-- Domain `d` enters dormant: requested, not held, and its hold conditions clear for PWR_IDLE ns. -/
def enterDormant (d : Nat) (s : State) : State :=
  if d ≥ 49 || !s.rb .PWR_DOM_REQ d || s.dormant d || domHeld d s ||
      decide (quietNs d s < max 1 (s.rf .PWR_IDLE 31 0)) then s
  else (domLoses d s).flag .PWR_DOM_STAT d

/-- The domains that domain `d` waits for while it wakes: a quad waits for its hamlet common (R457). -/
def wakesAfter (d : Nat) (s : State) : Bool := decide (d < 32) && s.dormant (32 + d / 4)

/-- A waking domain is ready (R458): what waited for it goes on. -/
def domainReady (d : Nat) (s : State) : State :=
  if !s.pwr.waking.contains d || wakesAfter d s then s
  else
    let s := (modPwr (fun p => { p with waking := p.waking.filter (· != d) }) s).unflag .PWR_DOM_STAT d
    if d < 32 then (List.range 4).foldl (fun s i => launchOn (4 * d + i) s) s else s

/-- A write of PWR_DOM_REQ: a cleared bit wakes its domain and keeps it awake (R455). -/
def domReqWrite (v : Word) (s : State) : State :=
  let s := s.writeReg .PWR_DOM_REQ v
  (List.range 49).foldl (fun s d =>
    if bit v d || !s.dormant d then s
    else wakeDom d (if d < 32 then wakeDom (32 + d / 4) s else s)) s

/-- The tile-clock PLL of a compute die (0 or 1) has stopped: all 16 quads of the die are dormant (R452). -/
def pllStopped (die : Nat) (s : State) : Bool := (List.range 16).all fun q => s.dormant (16 * die + q)

/-- The fabric-clock PLL of a base die (0 A, 1 B) has stopped: every domain on that die is dormant, but for the always-on
island and the steward domain (R452, R453; 01_architecture.md R21). -/
def fabricPllStopped (die : Nat) (s : State) : Bool :=
  ((List.range 4).map (32 + 4 * die + ·) ++ [40 + die, 42 + die, 44 + die, 46 + die]).all fun d => s.dormant d

/-! ### The governor (R459, R460) -/

/-- AVG_US. -/
def avgUs (s : State) : Nat := min 100 (max 1 (s.rf .PWR_GOV 6 0))

/-- The effective limit: PWR_LIMIT less the thermal reduction (R459, R461). -/
def effLimit (s : State) : Nat := s.rf .PWR_LIMIT 10 0 - s.rf .PWR_LIMIT 10 0 * s.pwr.thermal / 100

def average (xs : List Nat) : Nat := if xs.isEmpty then 0 else xs.foldl (· + ·) 0 / xs.length

/-- One window: `est` is the estimate that the activity counters give with the record's coefficients, to which the
governor's gain applies. The spec gives TRIM no law but its bounds: with EN = 0 there is no trim, and while LIMIT_UNMET
holds it stays 0 (notes/assumptions/38.md). -/
def govWindow (est : Nat) (s : State) : State :=
  let est := (((est : Int) * (100 + s.pwr.gain)) / 100).toNat % 65536
  let hist := (est :: s.pwr.hist).take (avgUs s)
  let avg := average hist
  let lim := effLimit s
  let above := decide (lim < avg)
  let zeros := if s.rb .PWR_GOV 63 && s.rf .PWR_GOV_STAT 6 0 == 0 && above then s.pwr.zeroRun + 1 else 0
  let begins := !s.pwr.unmet && decide (avgUs s ≤ zeros)
  let unmet := s.rb .PWR_GOV 63 && (s.pwr.unmet || begins) && decide (lim ≤ avg)
  let us := if unmet then s.pwr.unmetUs + 1 else s.pwr.unmetUs
  let trim := if !s.rb .PWR_GOV 63 then 64 else if unmet then 0 else s.open.toNat % 65
  let s := s.used.setReg .PWR_GOV_STAT (place 63 48 est ||| place 47 32 avg ||| place 31 16 lim ||| place 6 0 trim)
  let s := modPwr (fun p => { p with hist := hist, zeroRun := zeros, unmet := unmet, unmetUs := us % 1000 }) s
  let s := if 1000 ≤ us then s.count .PWR_CNT 15 0 else s
  let s := if s.rb .PWR_EVT 1 then reeveCount 8 1 s else s
  if begins then errRecord 0x050 Who.device 0 lim (s.flag .PWR_EVT 0) else s

/-! ### Temperature (R461, R510, R511) -/

/-- A pin's level changes. -/
def setPin (name : String) (level was : Bool) (s : State) : State := if level == was then s else s.emit (.pin name level)

/-- The sensors are read each 100 µs: dies and piles as they are, optical engines with 15 °C added (R510). THERM_N and
THERMTRIP_N are active low; THERM_N lets go 3 °C below T_CRIT. -/
def thermSample (dies optics : List Nat) (s : State) : State :=
  let tj := min 255 ((dies ++ optics.map (· + 15)).foldl max 0)
  let s := s.putReg .PWR_THERM 55 48 tj
  let crit := s.rf .PWR_THERM 15 8
  let n := if crit ≤ tj then true else if tj + 3 ≤ crit then false else s.pwr.thermN
  let s := modPwr (fun p => { p with thermN := n }) (setPin "THERM_N" (!n) (!s.pwr.thermN) s)
  let s := s.flagIf (decide (s.rf .PWR_THERM 7 0 ≤ tj)) .PWR_EVT 1
  if crit ≤ tj then errRecord 0x051 Who.device 0 tj (s.flag .PWR_EVT 2) else s

/-- Each 1 ms the thermal reduction grows or shrinks by 2 % of PWR_LIMIT, or stays. -/
def thermalStep (s : State) : State :=
  let tj := s.rf .PWR_THERM 55 48
  let trim := s.rf .PWR_THERM 7 0
  if trim ≤ tj then modPwr (fun p => { p with thermal := min 50 (p.thermal + 2) }) (s.flag .PWR_EVT 1)
  else if tj + 3 ≤ trim then modPwr (fun p => { p with thermal := p.thermal - 2 }) s
  else s

/-- A die or pile sensor reaches 120 °C: THERMTRIP_N asserts until PWR_OK falls. -/
def thermTrip (s : State) : State :=
  modPwr (fun p => { p with trip := true }) (setPin "THERMTRIP_N" false (!s.pwr.trip) s)

/-! ### PMBus (R462) -/

/-- Word 8 + r of the record describes rail r: its address, and whether the device draws from it (R465). -/
def railWord (r : Nat) (s : State) : Word := wordAt s.sec.record (8 + r)

/-- The fault bits of STATUS_WORD: every bit but BUSY, OFF and POWER_GOOD# (PMBus 1.3 part II;
notes/assumptions/39.md). -/
def railFault (v : BitVec 16) : Bool := v &&& 0xF73F#16 != 0

/-- The poll of one rail, with what its two attempts read. -/
def pollRail (r : Nat) (x : Option PmbRead × Option PmbRead) (s : State) : State :=
  if fld (railWord r s) 6 0 = 0 then s
  else match x.1 <|> x.2 with
    | none => reeveCount 9 1 ((s.count .PWR_CNT 31 16).flag .PWR_EVT 3)
    | some m =>
      let s := s.setReg .PWR_RAIL (place 63 48 m.status.toNat ||| place 47 32 m.vout.toNat |||
        place 31 16 m.iout.toNat ||| place 15 0 m.pout.toNat) r
      if railFault m.status then reeveCount 9 1 (s.flag .PWR_EVT 4) else s

/-- The summed power of the device's rails, in 0.1 W. -/
def railPower (s : State) : Nat :=
  (List.range 8).foldl (fun n r => if bit (railWord r s) 16 then n + s.rf .PWR_RAIL 15 0 r else n) 0

/-- A poll of every rail; then the gain moves towards the measured power by at most 1 %, and stays within 10 % of the
record's: by how much is open (notes/assumptions/38.md). -/
def pmbusPoll (rails : List (Option PmbRead × Option PmbRead)) (s : State) : State :=
  if !s.rb .PWR_PMB_CFG 63 then s
  else
    let s := (List.range 8).foldl (fun s r => pollRail r (rails.getD r (none, none)) s) s
    let want : Int := if railPower s = 10 * s.rf .PWR_GOV_STAT 47 32 then 0
      else if railPower s < 10 * s.rf .PWR_GOV_STAT 47 32 then -1 else 1
    let d := if bit s.open 0 then want else 0
    modPwr (fun p => { p with gain := max (-10) (min 10 (p.gain + d)) }) s.used

/-! ### The commands -/

def execPwrDomReqWrite (v : Word) (s : State) : Ans := .next (domReqWrite v s)
def execDormantEntry (d : Fin 50) (s : State) : Ans := .next (enterDormant d s)
def execDomainReady (d : Fin 50) (s : State) : Ans := .next (domainReady d s)
def execGovWindow (est : Nat) (s : State) : Ans := .next (govWindow est s)
def execThermSample (dies optics : List Nat) (s : State) : Ans := .next (thermSample dies optics s)
def execThermalReductionStep (s : State) : Ans := .next (thermalStep s)
def execThermtrip (s : State) : Ans := .next (thermTrip s)
def execPmbusPoll (rails : List (Option PmbRead × Option PmbRead)) (s : State) : Ans := .next (pmbusPoll rails s)
def execPwrCntRead (s : State) : Ans := .next (s.readPlain .PWR_CNT)

end Sys2Proof.Machine
end

