-- ==== Sys2Proof/Machine/Versions.lean ====
section
/-! DEFINITION. Configuration versions: staging an image, activation, tile reload and rollback
(15_power_reset_configuration.md R467 to R473; 06_fronthaul_and_slots.md R189, R192). -/

namespace Sys2Proof.Machine

open Sys2Proof

def modVer (f : Versions → Versions) (s : State) : State := { s with ver := f s.ver }

/-- The registers whose settings a version holds (R467): those of its registers that a write can set. -/
def versioned (r : RegName) : Bool :=
  match r with
  | .FH_PORT_CTL | .FH_PORT_MAC | .FH_PORT_WGT | .FH_PORT_OVH | .FH_WIN_BASE | .FH_WIN_CNT | .FH_WIN_SEL
  | .FH_PORT_RU | .FH_SFN_OFFSET | .FH_LEDGER_BASE | .FH_LEDGER_CFG | .FH_AGC_CFG | .FH_TD_BASE | .FH_CELL_CFG
  | .BELL_MASK | .BELL_DMASK_LO | .BELL_DMASK_HI | .DRV_XCFG | .DRV_STAGE | .DRV_RXAREA | .DRV_RSTAGE
  | .DRV_RETAREA | .PART_LEND_LO | .PART_LEND_HI | .PART_LEND_OFS | .SLU_P_PILE | .SLU_P_T2 | .SLU_P_FAB
  | .SLU_P_HL => true
  | _ => false

/-- The other FH and SLU_P registers that R467 names: an entry may name them, and sets nothing. -/
def versionedIdle (r : RegName) : Bool :=
  match r with
  | .FH_PORT_STAT | .FH_WIN_INFO | .FH_PORT_ERR | .FH_EVT | .FH_LEDGER_SUM | .SLU_P_HELD => true
  | _ => false

def versionedOff (off : Nat) : Bool :=
  match locate off with
  | some (r, _, _) => versioned r
  | none => false

/-! ### Registers of the block (R473) -/

def cfgNone : Nat := 0
def cfgLoading : Nat := 1
def cfgStaged : Nat := 2
def cfgRollback : Nat := 3
def cfgFailed : Nat := 4

def cfgState (s : State) : Nat := s.rf .DEV_CFG_STAT 2 0
def cfgStat (version st : Nat) (s : State) : State := s.setReg .DEV_CFG_STAT (place 63 32 version ||| place 2 0 st)
def cfgPrev (s : State) : Nat := s.rf .DEV_CFG_CUR 31 0
def cfgCur (epoch prev : Nat) (s : State) : State := s.setReg .DEV_CFG_CUR (place 63 32 epoch ||| place 31 0 prev)

/-- The configuration hardware as the maker of its own reads: the steward domain's. -/
def whoCfg : Who := ⟨12, 0, none⟩

/-! ### Staging (R468, R469) -/

/-- One entry added to a bank; none for a bad entry. -/
def stageEntry (ws : List Word) (b : Bank) : Option Bank :=
  let w0 := wordAt ws 0
  if fld w0 59 24 ≠ 0 then none
  else match fld w0 63 60 with
  | 1 =>
    if wordAt ws 2 ≠ 0 ∨ wordAt ws 3 ≠ 0 then none
    else match locate (fld w0 23 0) with
    | some (r, _, _) =>
      if versioned r then
        some { b with regs := Tab.set resetAt b.regs (fld w0 23 0) (r.desc.written r.desc.reset (regClamp r (wordAt ws 1))) }
      else if versionedIdle r then some b else none
    | none => none
  | 2 =>
    match locate (fld w0 23 0) with
    | some (.BELL_TIME, h, n) =>
      if fld (wordAt ws 3) 7 4 ≠ 0 ∨ (h = 8 ∧ actCode (wordAt ws 2) = 10) then none
      else some { b with bells := b.bells ++ [⟨h, n, wordAt ws 1, wordAt ws 2, fld (wordAt ws 3) 63 24,
        fld (wordAt ws 3) 23 8, fld (wordAt ws 3) 3 0⟩] }
    | _ => none
  | 3 =>
    if fld w0 23 7 ≠ 0 ∨ wordAt ws 2 ≠ 0 ∨ wordAt ws 3 ≠ 0 then none
    else some { b with tiles := b.tiles ++ [(fld w0 6 0, (wordAt ws 1).toNat)] }
  | _ => none

/-- The entries from an address on, up to END; none where the image is bad or cannot be read. -/
def readImage : Nat → Nat → Bank → State → Option Bank × State
  | 0, _, _, s => (none, s)
  | n + 1, a, b, s => match devRead whoCfg a 32 0 s with
    | (.error _, s) => (none, s)
    | (.ok bs, s) =>
      let ws := leWords bs
      if fld (wordAt ws 0) 63 60 = 0 then (if ws.all (· == 0) then some b else none, s)
      else match stageEntry ws b with
        | some b => readImage n (a + 32) b s
        | none => (none, s)

/-- OP = STAGE. -/
def stageVersion (v : Nat) (s : State) : State :=
  if cfgState s = cfgRollback then s.flag .DEV_CFG_EVT 3
  else
    let s := modVer (fun x => { x with inactive := .empty, image := s.rf .DEV_CFG_STAGE 51 5 * 32 }) s
    cfgStat v cfgLoading (cfgCur (epochNow s) 0 s)

/-- The load ends: the entries are read here, as they stand (R469; notes/assumptions/41.md). -/
def loadCompletes (s : State) : State :=
  if cfgState s ≠ cfgLoading then s
  else
    let v := s.rf .DEV_CFG_STAT 63 32
    let r := readImage 65537 s.ver.image .empty s
    match r.1, v == 0 || v == epochNow s with
    | some b, false => cfgStat v cfgStaged (modVer (fun x => { x with inactive := b }) r.2)
    | _, _ => cfgStat v cfgFailed (r.2.flag .DEV_CFG_EVT 0)

/-- OP = DISCARD: the inactive bank holds nothing, neither a staged nor a kept version. -/
def discardVersion (s : State) : State :=
  cfgStat 0 cfgNone (cfgCur (epochNow s) 0 (modVer (fun x => { x with inactive := .empty }) s))

/-! ### Switching banks (R470, R472) -/

/-- The active version's own bank, from the registers as they stand. -/
def activeBank (s : State) : Bank := ⟨s.regs.filter fun e => versionedOff e.1, s.ver.bells, s.ver.tiles⟩

/-- A port whose FH_PORT_CTL a switch has changed: cleared or set EN, and a mode changed in force, act as a write of each
would (R174, R176). -/
def portSwitch (p : Nat) (old : Word) (s : State) : State :=
  let new := s.reg .FH_PORT_CTL p
  let moved := fld new 2 0 != fld old 2 0 || bit new 17 != bit old 17
  let s := if bit old 16 && (!bit new 16 || moved) then fhLinkFall p (s.unflag .FH_PORT_STAT 0 p) else s
  if bit new 16 && (!bit old 16 || moved) then
    if fhLanesFree p (fld new 2 0) s then
      modPort p (fun x => { x with txSeq := [], rxSeq := [] }) ((s.unflag .FH_PORT_STAT 3 p).flag .FH_PORT_STAT 0 p)
    else (s.unflag .FH_PORT_CTL 16 p).flag .FH_PORT_STAT 3 p
  else s

/-- The time-domain descriptor of a cell, read by an activation that changes the cell (R192). -/
def readTd (c : Nat) (s : State) : State :=
  let r := devRead (whoPort 0) (s.rf .FH_TD_BASE 51 10 * 1024 + s.rf .FH_CELL_CFG 52 48 c * 1024) 1024 0 s
  let d := match r.1 with
    | .ok bs => (leWords bs, r.2)
    | .error e => ([], fhFault (some e) r.2)
  { d.2 with fh := { d.2.fh with td := Tab.set (fun _ => []) d.2.fh.td c d.1 } }

/-- What a switch does to cell `c`: its descriptor is read if it is a time-domain cell, and its filter history clears
(R189, R192). -/
def cellSwitch (c : Nat) (s : State) : State :=
  let s := { s with fh := { s.fh with hist := s.fh.hist.filter fun e => e.1 / 64 != c } }
  if cellValid c s && cellTd c s then readTd c s else s

/-- The Drovers whose steps are in progress keep the registers with which these began (R467). -/
def keepDrovers (s : State) : State :=
  (List.range 8).foldl (fun s h =>
    if (s.drover h).slots.isEmpty then s
    else s.setDrover h { s.drover h with kept := some ((List.range 5).map fun k => drvConf h k s) }) s

/-- The versioned registers take the values of a bank, and their reset values where it has none. -/
def installRegs (b : Bank) (s : State) : State :=
  let old := s
  let s := keepDrovers s
  let s := { s with regs := b.regs.foldl (fun t e => Tab.set resetAt t e.1 e.2) (s.regs.filter fun e => !versionedOff e.1) }
  let s := (List.range 16).foldl (fun s p => portSwitch p (old.reg .FH_PORT_CTL p) s) s
  let based := old.reg .FH_TD_BASE != s.reg .FH_TD_BASE
  (List.range 256).foldl (fun s c =>
    if old.reg .FH_CELL_CFG c != s.reg .FH_CELL_CFG c || (based && cellTd c s) then cellSwitch c s else s) s

/-- Every bell of a set is disarmed. -/
def disarmSet (bs : List SetBell) (s : State) : State :=
  bs.foldl (fun s b => if bellArmed s b.belfry b.bell then disarmBell b.belfry b.bell s else s) s

/-- A bell of a set is taken over, written with a FIRE_TIME, and armed under R69 unless it is to stay idle. -/
def armSet (b : SetBell) (time : Word) (arm : Bool) (s : State) : State :=
  let h := b.belfry
  let n := b.bell
  let s := disarmBell h n s
  let s := if h < 8 then wakeDom (domHamlet h) s else s
  let s := ((s.setReg .BELL_TIME time h n).setReg .BELL_ACT b.act h n).setReg .BELL_PERIOD (place 39 0 b.period) h n
  let s := ((s.putReg .BELL_CTL 47 32 b.remain h n).putReg .BELL_CTL 19 16 b.owner h n).flag .BELL_CTL 12 h n
  if arm then armBell h n s else s

/-- The bank `b` becomes the active version's. -/
def install (b : Bank) (s : State) : State :=
  modVer (fun x => { x with bells := b.bells, tiles := b.tiles }) (installRegs b (disarmSet s.ver.bells s))

/-- Every tile whose configuration is of another epoch loads, as far as it may now (R471). -/
def reloadTiles (s : State) : State :=
  (List.range 128).foldl (fun s t => if s.enabled t then loadIfStale t s else s) s

/-- A CONFIG_ACTIVATE action with ARG `v` (R470). -/
def activateVersion (v : Nat) (s : State) : State :=
  if cfgState s ≠ cfgStaged ∨ s.rf .DEV_CFG_STAT 63 32 ≠ v then
    errRecord 0x060 Who.device 0 (v % 4096) (s.flag .DEV_CFG_EVT 2)
  else
    let old := activeBank s
    let b := s.ver.inactive
    let e := epochNow s
    let s := cfgStat 0 cfgNone (cfgCur v e (modVer (fun x => { x with inactive := old }) (install b s)))
    let s := b.bells.foldl (fun s x => armSet x x.time true s) s
    reloadTiles (ringReg .DEV_CFG_DB 0 0 (s.flag .DEV_CFG_EVT 1))

/-- An action of a bell that fired at device time `t` is still on its way. -/
def tickActs (t : Nat) (s : State) : Bool := s.deliveries.any fun e => e.firedNs == t && e.action != 10

/-- The oldest CONFIG_ACTIVATE action, once every bell of its tick has fired and every other action of that tick has been
performed (R470). -/
def activateNow (s : State) : State :=
  match takeDelivery 10 s.deliveries with
  | none => s
  | some (d, _) =>
    let s := fireAll s
    if tickActs d.firedNs s then s else withDelivery 10 (fun d s => activateVersion d.arg s) s

/-! ### Rollback (R472) -/

/-- The shortest slot period among the valid cells, 1 ms with none. -/
def shortestSlot (s : State) : Nat :=
  (List.range 256).foldl (fun m c => if cellValid c s then min m (slotPeriod c s) else m) 1000000

/-- The next slot boundary after a device time. -/
def nextBoundary (now : Nat) (s : State) : Nat :=
  let t := shortestSlot s
  let o : Int := if (List.range 256).any fun c => cellValid c s then (s.reg .FH_SFN_OFFSET).toNat else 0
  wrap 64 (o + (((now : Int) - o) / t + 1) * t)

/-- OP = ROLLBACK. -/
def rollbackAsked (s : State) : State :=
  if cfgPrev s = 0 then s.flag .DEV_CFG_EVT 3
  else if cfgState s = cfgRollback then s
  else cfgStat (s.rf .DEV_CFG_STAT 63 32) cfgRollback (modVer (fun x => { x with due := nextBoundary s.now s }) s)

/-- FIRE_TIME of a re-armed periodic bell: whole periods later, until it is later than the boundary. -/
def rearmTime (b : SetBell) (due : Nat) : Nat :=
  if b.time.toNat ≤ due then b.time.toNat + ((due - b.time.toNat) / b.period + 1) * b.period else b.time.toNat

/-- A bell of the kept set is re-armed; a one-shot bell whose time has passed stays idle. -/
def rearm (due : Nat) (b : SetBell) (s : State) : State :=
  if b.period = 0 then armSet b b.time (decide (due < b.time.toNat)) s
  else armSet b (BitVec.ofNat 64 (rearmTime b due)) true s

/-- The rollback takes effect at its boundary, once every bell of the tick has fired and its action has been
performed. -/
def rollbackTakes (s : State) : State :=
  if cfgState s ≠ cfgRollback || decide (s.now < s.ver.due) then s
  else
    let s := fireAll s
    if tickActs s.now s then s else
    let b := s.ver.inactive
    let s := cfgStat 0 cfgNone (cfgCur (cfgPrev s) 0 (modVer (fun x => { x with inactive := .empty }) (install b s)))
    reloadTiles ((b.bells.foldl (fun s x => rearm s.ver.due x s) s).flag .DEV_CFG_EVT 1)

/-! ### Tile reload (R471) -/

/-- The registers of a tile image, in the order of R467, one 64-bit word each (notes/assumptions/42.md). -/
def setTileImage (t : Nat) (ws : List Word) (s : State) : State :=
  let s := (s.writeReg .TILE_MVEC (wordAt ws 0) t).writeReg .TILE_GANG_BASE (wordAt ws 1) t
  (List.range 5).foldl (fun s u => s.writeReg .TILE_ARR_CTL (wordAt ws (2 + u)) t u) s

/-- The same registers at their reset values. -/
def clearTileImage (t : Nat) (s : State) : State :=
  let s := (s.setReg .TILE_MVEC RegName.TILE_MVEC.desc.reset t).setReg .TILE_GANG_BASE RegName.TILE_GANG_BASE.desc.reset t
  (List.range 5).foldl (fun s u => s.setReg .TILE_ARR_CTL RegName.TILE_ARR_CTL.desc.reset t u) s

/-- The load of tile `t` ends: TILE_EPOCH is set and a launch that waits goes on; or an uncorrectable word leaves
TILE_EPOCH as it was, with a record, and ends the launch with status 0x8009. -/
def reloadDone (t : Nat) (s : State) : State :=
  if (s.tile t).loading.isNone then s
  else
    let s := s.modTile t fun x => { x with loading := none }
    let good := fun (s : State) => launchOn t (s.setReg .TILE_EPOCH (BitVec.ofNat 64 (epochNow s)) t)
    match s.ver.tiles.reverse.find? fun e => e.1 == t with
    | none => good (clearTileImage t s)
    | some (_, a) => match badWords a 56 s with
      | w :: _ =>
        let id := (s.tile t).launch
        let part := (id.bind fun i => s.launch i).map (·.part)
        let s := errRecord 0x061 ⟨1, t, part⟩ (w * 32) 0 s
        match id with
        | some i => freeTile t (endPart i t stUncorr 0 s)
        | none => s
      | [] => good (setTileImage t (leWords (bytesAt a 56 s)) (readCorrects s (wordsOf a 56)))

/-! ### The commands -/

def execConfigActivate (s : State) : Ans := .next (activateNow s)
def execStage (v : Word) (s : State) : Ans := .next (stageVersion (fld v 31 0) s)
def execLoadComplete (s : State) : Ans := .next (loadCompletes s)
def execDiscard (s : State) : Ans := .next (discardVersion s)
def execRollback (s : State) : Ans := .next (rollbackAsked s)
def execRollbackTakeEffect (s : State) : Ans := .next (rollbackTakes s)
def execTileReloadDone (t : Fin 128) (s : State) : Ans := .next (reloadDone t s)

end Sys2Proof.Machine
end

