-- ==== Sys2Proof/Machine/Reset.lean ====
section
/-! DEFINITION. Resets of power domains, and what a device reset, a power-on reset and a brown-out leave before start-up
(15_power_reset_configuration.md R463; 18_package_and_electrical.md R509). -/

namespace Sys2Proof.Machine

open Sys2Proof

/-! ### Where the registers lie -/

/-- The power domain that holds the register at an offset (R453): what no reset of a domain covers lies in the steward
domain, the registers that both fabric halves share among it (R336). -/
def regDomain (off : Nat) : Nat :=
  if off < 0x10000 then 48
  else if off < 0x20000 then 49
  else if off < 0x28000 then 32 + (off - 0x20000) / 0x1000
  else if off < 0x29000 then 49
  else if off < 0x80000 then 48
  else if off < 0x90000 then 45
  else if off < 0xB0000 then 48
  else if off < 0xB8000 then 46 + (off - 0xB0000) / 0x4000
  else if off < 0xC0000 then 48
  else if off < 0xC8000 then 32 + (off - 0xC0000) / 0x1000
  else if off = 0xD0018 then 49
  else if off < 0xD4000 then 48
  else if off < 0xD6400 then 42 + (off - 0xD4000) / 0x100 / 18
  else if off < 0xE0000 then 48
  else if off < 0x100000 then 44
  else if off < 0x102000 then 40 + (off - 0x100000) / 0x1000
  else if off < 0x200000 then 48
  else if off < 0xA00000 then (off - 0x200000) / 0x40000
  else 48

/-- The registers of the domains that a test picks return to their reset values. -/
def resetRegs (p : Nat → Bool) (s : State) : State := { s with regs := s.regs.filter fun e => !p (regDomain e.1) }

/-! ### The rules of the domains (R463) -/

/-- A command of engine `k` is run to its end, and its issuer goes on. -/
def runOut (k : Nat) (c : SeCmd) (s : State) : State :=
  let x := s.engine k
  let s := if x.wait.any fun d => d.seq == c.seq then
      placeCmd k true c (s.setEngine k { x with wait := x.wait.filter fun d => d.seq != c.seq })
    else s
  seComplete k c.seq (runUnits k c.seq (unitsLeft c + 1) s)

/-- The commands of engine `k` that a test picks are run to their ends, those in its slots first. -/
def drainEngine (p : SeCmd → Bool) (waits : Bool) (k : Nat) : Nat → State → State
  | 0, s => s
  | n + 1, s =>
    let x := s.engine k
    match (x.cmds ++ if waits then x.wait else []).find? p with
    | some c => drainEngine p waits k n (runOut k c s)
    | none => s

/-- The Drover or Gleaner that issued a command (R270). -/
def SeIssuer.hamlet : SeIssuer → Option Nat
  | .ring _ => none
  | .select h _ _ | .stage h _ _ | .repscat h _ _ | .pad h _ | .retStage h _ _ | .combine h _ _ _ => some h

def drainAll (p : SeCmd → Bool) (waits : Bool) (ks : List Nat) (s : State) : State :=
  ks.foldl (fun s k => drainEngine p waits k ((s.engine k).cmds.length + (s.engine k).wait.length) s) s

/-- A tile's core and units at reset: a context saved in segment 31 and what waits for the tile stay (R463). -/
def coldTile (t : Nat) (s : State) : State :=
  (resetTile t s).modTile t fun x => { Tile.reset with
    gangNext := x.gangNext, saved := x.saved, savedAt := x.savedAt, waiting := x.waiting, redeliver := x.redeliver }

/-- The rule of domain `d`, and its logic at reset. -/
def domainRule (d : Nat) (s : State) : State :=
  if d < 32 then (List.range 4).foldl (fun s i => coldTile (4 * d + i) s) s
  else if d < 40 then
    let h := d - 32
    let s := pumpAll (drainAll (fun c => c.issuer.hamlet == some h) true (List.range 8) (drvStop h s))
    { s with
      drv := Tab.set (fun _ => Drover.reset) s.drv h Drover.reset
      bellArm := s.bellArm.filter fun e => e.1 / 64 != h
      bellStep := s.bellStep.filter fun e => e.1 / 64 != h }
  else if d < 42 then (codAbort (d - 40) s).setCluster (d - 40) Cluster.reset
  else if d < 44 then
    let s := collHalfReset (fabHalfReset (d - 42) s)
    (List.range 18).foldl (fun s i => s.setFabPort ((d - 42) * 18 + i) FabPort.reset) s
  else if d = 44 then
    { (List.range 16).foldl (fun s p => fhLinkFall p s) s with fh := Fronthaul.reset }
  else if d = 45 then mbxResets 2 (fun _ => true) (linkGoesDown s)
  else if d < 48 then
    let ks := (List.range 4).map (4 * (d - 46) + ·)
    ks.foldl (fun s k => s.setEngine k { s.engine k with next := 0, last := 0 })
      (pumpAll (drainAll (fun _ => true) false ks s))
  else s

/-- A domain is awake at once. -/
def wakeNow (d : Nat) (s : State) : State :=
  let s := if s.dormant d then domainReady d (wakeDom d s) else s
  (modPwr (fun p => { p with waking := p.waking.filter (· != d) }) s).unflag .PWR_DOM_STAT d

/-- A reset of domain `d`, 0 to 47: it wakes, a quad's hamlet common first (R457), its rule is applied, its registers return to their reset values; its
stores keep their contents. An idle tile then loads the active version's image again (R471). -/
def domainReset (d : Nat) (s : State) : State :=
  let s := wakeNow d (if d < 32 ∧ s.dormant d then wakeNow (32 + d / 4) s else s)
  let s := resetRegs (· == d) (domainRule d s)
  let s := modPwr (fun p => { p with heldAt := Tab.set (fun _ => 0) p.heldAt d s.tb.ticks }) s
  if d < 32 then (List.range 4).foldl (fun s i => if s.enabled (4 * d + i) then loadIfStale (4 * d + i) s else s) s else s

/-- A write of PWR_DOM_RST: bits 48 and above are ignored. -/
def domainResets (v : Word) (s : State) : State :=
  (List.range 48).foldl (fun s d => if bit v d then domainReset d s else s) s

/-! ### Resets of the device -/

/-- The device addresses of the tile stores and of the hamlet stores: their contents are not guaranteed after a reset
that does not keep them. -/
def loseStores (s : State) : State :=
  let s := (s.loseRegion (tileBase 0) (128 * 0x400000)).loseRegion (hamletBase 0) (8 * 0x2000000)
  { s with ecc := s.ecc.filter fun e => decide (e.1 * 32 < tileBase 0) }

/-- The moves in flight end with their switch, so that the page map that is kept is one of pages at rest. -/
def settleMoves (s : State) : State := s.grn.moves.foldl (fun s m => moveSwitch m.riser s) s

/-- What a device reset leaves before start-up: every domain but the always-on island at reset, after its rule; the
timebase, the device bells, the unified range, the page map, the card flash and FAB_INC, one higher, stay. -/
def deviceClear (s : State) : State :=
  let inc := s.rf .FAB_INC 7 0 + 1
  let s := loseStores (settleMoves ((List.range 48).foldl (fun s d => domainReset d s) s))
  let s := { State.reset with
    pending := s.pending, mem := s.mem, freeMem := s.freeMem, ecc := s.ecc, tb := s.tb
    regs := s.regs.filter fun e => regDomain e.1 == 49 && !versionedOff e.1
    bellArm := s.bellArm.filter fun e => e.1 / 64 == 8
    bellStep := s.bellStep.filter fun e => e.1 / 64 == 8
    deliveries := s.deliveries.filter fun e => e.belfry == 8
    grn := { Granary.reset with pages := s.grn.pages }
    hl := { HostLink.reset with tryAt := s.now }
    reeve := { Reeve.reset with windowAt := s.tb.ticks }
    pwr := { Power.reset with
      thermN := s.pwr.thermN, trip := s.pwr.trip
      heldAt := (List.range 49).foldl (fun h d => Tab.set (fun _ => 0) h d s.tb.ticks) [] }
    sec := { Sec.reset with
      flash := s.sec.flash, svn := s.sec.svn, keyRev := s.sec.keyRev, recMin := s.sec.recMin, wdogAt := s.tb.ticks }
    free := s.free, wire := s.wire }
  s.putReg .FAB_INC 7 0 inc

/-- What a power-on reset leaves: nothing but the card flash; the tiers are zeroed (R236, R463). -/
def powerClear (s : State) : State :=
  let s := setPin "THERMTRIP_N" true (!s.pwr.trip) (setPin "THERM_N" true (!s.pwr.thermN) s)
  loseStores { State.reset with
    pending := s.pending
    sec := { Sec.reset with flash := s.sec.flash, svn := s.sec.svn, keyRev := s.sec.keyRev, recMin := s.sec.recMin }
    free := s.free, wire := s.wire }

/-- A brown-out: every domain is held in reset, and the piles lose their contents (R509). -/
def brownOut (s : State) : State := (powerClear s).loseRegion 0 (31457280 * 65536)

/-! ### The commands -/

def execDomainReset (v : Word) (s : State) : Ans := .next (domainResets v s)
def execBrownOut (s : State) : Ans := .next (brownOut s)

end Sys2Proof.Machine
end

