-- ==== Sys2Proof/Machine/Sha.lean ====
section
/-! DEFINITION. SHA-384 and HMAC-SHA-384, which measure firmware and derive its secrets
(16_firmware_and_security.md R476, R477, R486, R488). The spec names the functions; what they compute is that of FIPS
180-4 and FIPS 198-1. -/

namespace Sys2Proof.Machine

open Sys2Proof

/-! ### The constants: digits of roots of primes -/

/-- The primes below 410, of which there are 80. -/
def shaPrimes : List Nat :=
  (List.range 410).filter fun n => decide (2 ≤ n) && (List.range 21).all fun d => decide (d < 2 ∨ n ≤ d) || n % d != 0

/-- The largest `x` below 2 ^ `bits` with `x ^ k ≤ n`, bit by bit from the top. -/
def intRoot (k n : Nat) : (bits : Nat) → (x : Nat) → Nat
  | 0, x => x
  | b + 1, x => intRoot k n b (if (x + 2 ^ b) ^ k ≤ n then x + 2 ^ b else x)

/-- The first 64 binary digits of the fraction of the `k`-th root of `p`. -/
def rootDigits (k p : Nat) : Word := BitVec.ofNat 64 (intRoot k (p * 2 ^ (64 * k)) 70 0)

/-- The constant of each round. -/
def shaRounds : List Word := shaPrimes.map (rootDigits 3)

/-- The chaining value of SHA-384 before the first block, as its two halves. -/
def shaStart : List Word × List Word :=
  let h := ((shaPrimes.drop 8).take 8).map (rootDigits 2)
  (h.take 4, h.drop 4)

/-! ### The compression of a block -/

/-- The sum modulo 2 of a word turned right by each of some amounts. -/
def turns (x : Word) (amounts : List Nat) : Word := (amounts.map x.rotateRight).foldl (· ^^^ ·) 0

/-- The words that the rounds take in turn, each made from the 16 before it: of the words so far `ws`, latest first, the
next `n`. -/
def shaExpand (ws : List Word) : (n : Nat) → List Word
  | 0 => []
  | n + 1 =>
    let back := fun (i : Nat) => ws.getD (i - 1) 0
    let next := back 16 + back 7 + (turns (back 15) [1, 8] ^^^ back 15 >>> 7) + (turns (back 2) [19, 61] ^^^ back 2 >>> 6)
    next :: shaExpand (next :: ws) n

/-- A round, which takes `kw`, the sum of its constant and its word. The eight working variables are two registers of
four words that shift: the new word of each is its own. -/
def shaRound (v : List Word × List Word) (kw : Word) : List Word × List Word :=
  let a := fun (i : Nat) => v.1.getD i 0
  let e := fun (i : Nat) => v.2.getD i 0
  let chosen := e 2 ^^^ (e 0 &&& (e 1 ^^^ e 2))
  let most := (a 0 &&& a 1) ||| (a 2 &&& (a 0 ||| a 1))
  let x := kw + e 3 + chosen + turns (e 0) [14, 18, 41]
  ((x + most + turns (a 0) [28, 34, 39]) :: v.1.take 3, (x + a 3) :: v.2.take 3)

/-- The chaining value after a block of 16 words. -/
def shaBlock (ks : List Word) (h : List Word × List Word) (block : List Word) : List Word × List Word :=
  let r := (List.zipWith (· + ·) ks (block ++ shaExpand block.reverse 64)).foldl shaRound h
  (List.zipWith (· + ·) r.1 h.1, List.zipWith (· + ·) r.2 h.2)

/-! ### The digest -/

/-- Bytes as words, the first byte highest. -/
def wordsHigh (bs : List Byte) : List Word :=
  (List.range (bs.length / 8)).map fun i => BitVec.ofNat 64 (leVal ((bs.drop (8 * i)).take 8).reverse)

/-- A message filled to whole blocks: a one bit, zeros, and its length in bits as the last 16 bytes. -/
def shaFill (bs : List Byte) : List Byte :=
  let len := bs.length
  bs ++ 0x80#8 :: List.replicate (128 * ((len + 144) / 128) - len - 17) 0 ++ (leBytes 16 (8 * len)).reverse

/-- SHA-384 of bytes: 48 bytes. -/
def sha384 (bs : List Byte) : List Byte :=
  let ws := wordsHigh (shaFill bs)
  let ks := shaRounds
  let h := (List.range (ws.length / 16)).foldl (fun h i => shaBlock ks h ((ws.drop (16 * i)).take 16)) shaStart
  (h.1 ++ h.2.take 2).flatMap fun w => (leBytes 8 w.toNat).reverse

/-- HMAC-SHA-384, for keys of at most 128 bytes. -/
def hmac384 (key msg : List Byte) : List Byte :=
  let keyed := fun (pad : Byte) (m : List Byte) =>
    sha384 ((List.range 128).map (fun i => key.getD i 0 ^^^ pad) ++ m)
  keyed 0x5C (keyed 0x36 msg)

end Sys2Proof.Machine
end

