-- ==== Sys2Proof/Machine/Boot.lean ====
section
/-! DEFINITION. The card flash, the device record, boot control blocks and manifests, and the boot ROM: start-up, steward
restarts and recovery (16_firmware_and_security.md R475 to R484, R486, R488; 15_power_reset_configuration.md R463 to
R466). Start-up takes no time in this model (notes/assumptions/43.md). -/

namespace Sys2Proof.Machine

open Sys2Proof

def modSec (f : Sec → Sec) (s : State) : State := { s with sec := f s.sec }

/-! ### The flash (R475) -/

/-- `len` bytes of the flash from an offset. -/
def flashBytes (o len : Nat) (s : State) : List Byte :=
  (List.range len).map fun i => Tab.get Config.flashByte s.sec.flash (o + i)

/-- Program bytes at an offset. -/
def flashWrite (o : Nat) (bs : List Byte) (s : State) : State :=
  modSec (fun x => { x with flash := bs.zipIdx.foldl (fun f b => Tab.set Config.flashByte f (o + b.2) b.1) x.flash }) s

/-- The slots: 0 A, 1 B. -/
def slotBase (b : Nat) : Nat := if b = 0 then 0x100000 else 0x1900000
def slotBytes : Nat := 0x1800000

/-! ### The device record (R465, R466, R479) -/

/-- TILEMAP fits HWTYPE (R2, R466). -/
def tilemapFits (hwtype : Nat) (m : BitVec 128) : Bool :=
  if hwtype = 1 then m == BitVec.allOnes 128
  else if hwtype = 2 then (List.range 8).all fun h =>
    m.getLsbD (16 * h) && m.getLsbD (16 * h + 8) && ((List.range 16).filter fun i => m.getLsbD (16 * h + i)).length == 14
  else false

/-- Both signatures of a record verify under a root key set. -/
def recordSigned (keySet : Nat) (bs : List Byte) : Bool :=
  Config.sigOk keySet (bs.take 3264) ((bs.drop 3264).take 64) ((bs.drop 3328).take 3309)

def recordHelper (ws : List Word) : List Word := (ws.drop 144).take 256
def recordSeq (ws : List Word) : Nat := fld (wordAt ws 4) 31 0

/-- The record is accepted: R466, R479, and its helper data gives the unit secret (R486). -/
def recordOk (bs : List Byte) (s : State) : Bool :=
  let ws := leWords bs
  let w0 := wordAt ws 0
  decide (ws.length = 1024) && (recordSigned s.sec.keyRev bs || (s.sec.keyRev == 0 && recordSigned 1 bs)) &&
    decide (s.sec.recMin ≤ recordSeq ws) && fld w0 63 32 == 0x47445243 && fld w0 31 16 == 1 &&
    tilemapFits (fld w0 15 0) (mask128 (wordAt ws 2) (wordAt ws 3)) && Config.pufOk (recordHelper ws)

/-- A measurement register (R488, R489): word 0 holds digest bytes 0 to 7. -/
def measure (m : Nat) (digest : List Byte) (s : State) : State :=
  (leWords digest).zipIdx.foldl (fun s w => s.setReg .SEC_MEAS w.1 m w.2) s

def measured (m : Nat) (s : State) : List Byte :=
  (List.range 6).flatMap fun j => leBytes 8 (s.reg .SEC_MEAS m j).toNat

/-- SEC_ARB and SEC_ARB2 mirror the counters (R480). -/
def mirrorArb (s : State) : State :=
  (s.setReg .SEC_ARB (place 63 32 s.sec.svn ||| place 31 0 s.sec.recMin)).setReg .SEC_ARB2 (place 0 0 s.sec.keyRev)

/-- Steps 1 and 2 of R481 with a good record. -/
def applyRecord (bs : List Byte) (s : State) : State :=
  let ws := leWords bs
  let s := modSec (fun x => { x with record := ws.take 16, uds := Config.pufSecret (recordHelper ws) }) s
  let s := (s.putReg .DEV_HWTYPE 15 0 (fld (wordAt ws 0) 15 0)).setReg .DEV_SERIAL (wordAt ws 1)
  let s := (s.setReg .DEV_TILEMAP_LO (wordAt ws 2)).setReg .DEV_TILEMAP_HI (wordAt ws 3)
  mirrorArb (measure 0 (sha384 (bs.take 3264)) s)

/-! ### Boot control blocks (R476) -/

/-- A copy with a valid digest: its number, SEQ and word 1. -/
def bcbCopy (k : Nat) (s : State) : Option (Nat × Nat × Word) :=
  let bs := flashBytes (0x4000 + k * 0x1000) 64 s
  let ws := leWords bs
  if sha384 (bs.take 16) = bs.drop 16 then some (k, fld (wordAt ws 0) 63 32, wordAt ws 1) else none

/-- The copy in use. -/
def bcbNow (s : State) : Option (Nat × Nat × Word) :=
  match bcbCopy 0 s, bcbCopy 1 s with
  | some a, some b => some (if a.2.1 < b.2.1 then b else a)
  | some a, none => some a
  | none, b => b

/-- Word 1 of a boot control block. -/
def bcbWord (pendValid : Bool) (tries pending active : Nat) : Word :=
  place 8 8 pendValid.toNat ||| place 7 4 tries ||| place 1 1 pending ||| place 0 0 active

/-- The other copy is written with SEQ + 1. -/
def bcbWrite (w : Word) (s : State) : State :=
  let k := match bcbNow s with
    | some (k, seq, _) => (1 - k, seq + 1)
    | none => (0, 1)
  let bs := leBytes 8 (place 63 32 k.2 ||| place 31 0 0x42434243).toNat ++ leBytes 8 w.toNat
  flashWrite (0x4000 + k.1 * 0x1000) (bs ++ sha384 bs) s

/-- BCB ACTIVE. -/
def bcbActive (s : State) : Nat :=
  match bcbNow s with
  | some (_, _, w) => fld w 0 0
  | none => 0

/-! ### Manifests (R477, R478) -/

/-- What reads a package: bytes from an offset on, a number of them. -/
abbrev PkgReader : Type := Nat → Nat → List Byte

def slotReader (b : Nat) (s : State) : PkgReader := fun o len => flashBytes (slotBase b + o) len s
def listReader (bs : List Byte) : PkgReader := fun o len => (bs.drop o).take len

/-- Words 0 to 585 of a manifest. -/
def manifestOf (rd : PkgReader) : List Word := leWords (rd 0 4688)

def mNcomp (ws : List Word) : Nat := fld (wordAt ws 0) 15 8
def mKey (ws : List Word) : Nat := fld (wordAt ws 0) 1 0
def mSvn (ws : List Word) : Nat := fld (wordAt ws 1) 63 32

def compType (ws : List Word) (i : Nat) : Nat := fld (wordAt ws (4 + 10 * i)) 63 60
def compOfs (ws : List Word) (i : Nat) : Nat := fld (wordAt ws (4 + 10 * i)) 31 0
def compSize (ws : List Word) (i : Nat) : Nat := fld (wordAt ws (5 + 10 * i)) 31 0
def compLoad (ws : List Word) (i : Nat) : Nat := fld (wordAt ws (6 + 10 * i)) 51 0
def compDigest (ws : List Word) (i : Nat) : List Byte :=
  ((ws.drop (8 + 10 * i)).take 6).flatMap fun w => leBytes 8 w.toNat

/-- The components of a type. -/
def compsOf (ws : List Word) (ty : Nat) : List Nat := (List.range (mNcomp ws)).filter fun i => compType ws i == ty

/-- Component `i` is well formed: reserved bits 0, within the package, and within steward memory or the unified range. -/
def compOk (ws : List Word) (size i : Nat) : Bool :=
  let ty := compType ws i
  fld (wordAt ws (4 + 10 * i)) 59 32 == 0 && fld (wordAt ws (5 + 10 * i)) 63 32 == 0 &&
    fld (wordAt ws (6 + 10 * i)) 63 52 == 0 && wordAt ws (7 + 10 * i) == 0 &&
    compOfs ws i % 4096 == 0 && decide (0x2000 ≤ compOfs ws i) && decide (1 ≤ compSize ws i) &&
    decide (compOfs ws i + compSize ws i ≤ size) &&
    (if ty = 1 ∨ ty = 2 then decide (compLoad ws i + compSize ws i ≤ 0x800000)
     else (ty == 3 || ty == 4) && compLoad ws i % 65536 == 0 &&
       decide (compLoad ws i + compSize ws i ≤ 31457280 * 65536))

/-- The check of cause 1, FORMAT. -/
def formatOk (ws : List Word) (size : Nat) : Bool :=
  let n := mNcomp ws
  let w0 := wordAt ws 0
  fld w0 63 32 == 0x4D464E46 && fld w0 31 16 == 1 && decide (2 ≤ n ∧ n ≤ 16) && fld w0 7 2 == 0 &&
    decide (mKey ws < 2) && fld (wordAt ws 1) 15 1 == 0 && (List.range n).all (compOk ws size) &&
    ((ws.take 164).drop (4 + 10 * n)).all (· == 0) &&
    (compsOf ws 1).length == 1 && (compsOf ws 2).length == 1 && decide ((compsOf ws 3).length ≤ 1)

/-- Both signatures of a manifest verify under its root key set. -/
def manifestSigned (rd : PkgReader) (ws : List Word) : Bool :=
  Config.sigOk (mKey ws) (rd 0 1312) (rd 1312 64) (rd 1376 3309)

/-- The checks of the manifest alone: the cause of the first that fails, or 0. -/
def manifestFault (rd : PkgReader) (size : Nat) (s : State) : Nat :=
  let ws := manifestOf rd
  if !formatOk ws size then 1
  else if decide (mKey ws < s.sec.keyRev) || !manifestSigned rd ws then 2
  else if mSvn ws < s.sec.svn then 3
  else if !(bit (wordAt ws 1) (16 + s.rf .DEV_HWTYPE 15 0 - 1) && decide (1 ≤ s.rf .DEV_HWTYPE 15 0 ∧ s.rf .DEV_HWTYPE 15 0 ≤ 16))
      || !(wordAt ws 2 == 0 || wordAt ws 2 == s.reg .DEV_SERIAL) then 4
  else 0

def compGood (rd : PkgReader) (ws : List Word) (i : Nat) : Bool :=
  decide (sha384 (rd (compOfs ws i) (compSize ws i)) = compDigest ws i)

/-- The regions of the MONITOR and DATA components. -/
def loadRegions (ws : List Word) : List (Nat × Nat) :=
  (compsOf ws 3 ++ compsOf ws 4).map fun i => (compLoad ws i, compSize ws i)

def regionsMeet (a b : Nat × Nat) : Bool := decide (a.1 < b.1 + b.2 ∧ b.1 < a.1 + a.2)

/-- The first check of R478 that a package fails, or 0; `running` is the manifest of the package that it is to replace,
`media` whether a read of it met an error. -/
def packageFault (rd : PkgReader) (size : Nat) (running : List Word) (media : Bool) (s : State) : Nat :=
  let ws := manifestOf rd
  let f := manifestFault rd size s
  if f ≠ 0 then f
  else if !(List.range (mNcomp ws)).all (compGood rd ws) then 5
  else if (loadRegions ws).any fun a => (loadRegions running).any (regionsMeet a) then 6
  else if media then 7
  else 0

/-! ### Keys and certificates (R486 to R488) -/

/-- The seed of a key that a layer's secret gives. -/
def keySeed (secret : List Byte) (name : String) : List Byte :=
  (hmac384 secret (name.toList.map fun c => BitVec.ofNat 8 c.toNat)).take 32

/-- A message with both signatures of a layer's keys after it: Ed25519, then ML-DSA-65 with 3 bytes of 0 (R477, R487,
R488). -/
def signedBy (secret : List Byte) (name : String) (msg : List Byte) : List Byte :=
  msg ++ leBytes 64 (Config.edSign (keySeed secret (name ++ " ED")) msg).toNat ++
    leBytes 3312 (Config.mlSign (keySeed secret (name ++ " ML")) msg).toNat

/-- The key certificate of a layer (R487): the public keys that its secret gives, and the signatures of the layer below. -/
def keyCert (layer : Nat) (serial : Word) (secret meas below : List Byte) (name : String) : List Byte :=
  signedBy below name (leBytes 8 (place 63 32 0x4B434654 ||| place 15 8 layer).toNat ++ leBytes 8 serial.toNat ++
    leBytes 32 (Config.edPublic (keySeed secret "ALIAS ED")).toNat ++
    leBytes 1952 (Config.mlPublic (keySeed secret "ALIAS ML")).toNat ++ meas)

/-- The endorsement of the DeviceID, a certificate of layer 0, in the identity area of the flash (R475, R487). -/
def identityCert (s : State) : List Byte := flashBytes 0x2000 5424 s

/-- The answer to an attestation request: the certificates of layers 2, 1 and 0, and the report on a nonce (R488). No
command of the table asks for it. -/
def attestation (nonce : List Byte) (s : State) : List (List Byte) :=
  let epoch := place 63 32 (s.rf .DEV_CFG_CUR 63 32) ||| place 31 0 (s.rf .SEC_BOOT_STAT 63 32)
  [s.sec.cert2, s.sec.cert1, identityCert s,
   signedBy s.sec.cdi2 "ALIAS" (leBytes 8 (place 63 32 0x52504654).toNat ++ nonce ++
     (List.range 4).flatMap (fun m => measured m s) ++ leBytes 8 epoch.toNat)]

/-! ### The ROM and Stast (R481 to R483, R486) -/

/-- Steward firmware as the maker of its own accesses. -/
def whoSteward : Who := ⟨12, 0, none⟩

/-- Component `i` is placed: steward memory, or the unified range. Answers whether it could be. -/
def placeComp (rd : PkgReader) (ws : List Word) (i : Nat) (s : State) : Bool × State :=
  let bs := rd (compOfs ws i) (compSize ws i)
  if compType ws i ≤ 2 then
    (true, modSec (fun x => { x with
      smem := bs.zipIdx.foldl (fun m b => Tab.set (fun _ => 0) m (compLoad ws i + b.2) b.1) x.smem }) s)
  else
    let r := devWrite whoSteward (compLoad ws i) bs 0 s
    (r.1.isNone, r.2)

def placeComps (rd : PkgReader) (ws : List Word) : List Nat → State → Bool × State
  | [], s => (true, s)
  | i :: is, s => match placeComp rd ws i s with
    | (true, s) => placeComps rd ws is s
    | r => r

/-- Start a slot: steps 4 to 6 of R481. Answers the cause of R478 where it fails; a failure after Stast has started
restarts the steward (R482). -/
def trySlot (b : Nat) (s : State) : Nat × State :=
  let rd := slotReader b s
  let ws := manifestOf rd
  let f := manifestFault rd slotBytes s
  if f ≠ 0 then (f, s)
  else if !(compsOf ws 1).all (compGood rd ws) then (5, s)
  else
    let m1 := (compsOf ws 1).flatMap (compDigest ws)
    let s := measure 3 (List.replicate 48 0) (measure 2 (sha384 (rd 0 1312)) (measure 1 m1 s))
    let cdi1 := hmac384 s.sec.uds (measured 0 s ++ m1)
    let serial := s.reg .DEV_SERIAL
    let s := modSec (fun x => { x with locked := true, cert1 := keyCert 1 serial cdi1 m1 x.uds "FVX-GN7 DEVID" }) s
    let r := placeComps rd ws (compsOf ws 1 ++ compsOf ws 2 ++ compsOf ws 3 ++ compsOf ws 4) s
    let abandon := fun (c : Nat) (s : State) =>
      (c, mbxStewardReset (modSec (fun x => { x with cert1 := [] }) (s.setReg .DEV_RST_CAUSE 5)))
    if !r.1 then abandon 7 r.2
    else if !(List.range (mNcomp ws)).all (compGood rd ws) then abandon 5 r.2
    else
      let m2 := measured 2 r.2
      let cdi2 := hmac384 cdi1 m2
      (0, modSec (fun x => { x with
        running := ws.take 164, cdi2 := cdi2, cert2 := keyCert 2 serial cdi2 m2 cdi1 "ALIAS" }) r.2)

/-- The counters are raised from a confirmed manifest (R480). -/
def raiseCounters (ws : List Word) (s : State) : State :=
  mirrorArb (modSec (fun x => { x with
    svn := max x.svn (mSvn ws)
    keyRev := if bit (wordAt ws 1) 0 then max x.keyRev (mKey ws) else x.keyRev }) s)

/-- The firmware has started from slot `b`. -/
def started (b : Nat) (trial fallback : Bool) (cause : Nat) (s : State) : State :=
  let active := bcbActive s
  let confirmed := b == active && !trial
  let stale := s.rb .SEC_BOOT_STAT 12 && !confirmed
  let s := if confirmed then raiseCounters s.sec.running s else s
  let s := s.setReg .SEC_BOOT_STAT (place 63 32 (mSvn s.sec.running) ||| place 12 12 stale.toNat ||| place 11 8 cause |||
    place 3 3 fallback.toNat ||| place 2 2 trial.toNat ||| place 1 1 active ||| place 0 0 b)
  (s.setReg .SEC_FW_STAT (place 2 0 (if trial then 3 else 0))).setReg .DEV_STAT (place 63 63 1 ||| place 2 0 7)

/-- PF0 is enabled, with the source field of the host adapter card's management requester (R484). -/
def enablePf0 (s : State) : State := ((s.setReg .PART_FN_SRC 0 0).flag .PART_FN_CTL 63 0).putReg .PART_FN_STAT 1 0 1 0

/-- Recovery (R484): PF0 alone is enabled, and the link trains at IL-2. `step` is the step of R464 that failed. -/
def enterRecovery (step cause : Nat) (s : State) : State :=
  let s := (s.setReg .DEV_STAT (place 2 0 step)).setReg .SEC_BOOT_STAT
    (place 12 12 (s.rf .SEC_BOOT_STAT 12 12) ||| place 11 8 cause ||| place 4 4 1 ||| place 1 1 (bcbActive s))
  let s := (s.setReg .SEC_FW_STAT 0).setReg .SEC_REC_STAT 0
  let s := (List.range 32).foldl (fun s f =>
    if f = 0 then s else if s.rb .PART_FN_CTL 63 f then fnCtlWrite f (clearBit (s.reg .PART_FN_CTL f) 63) s else s) s
  let s := (linkGoesDown (enablePf0 s)).setReg .HL_CTL (place 63 63 1 ||| place 1 0 2)
  s.flag .MBX_STAT 61 0

/-- The slot that boot tries first is tried, then the other one, then recovery is entered (R481, R482). -/
def bootFrom (first : Nat) (trial lost : Bool) (s : State) : Bool × State :=
  match trySlot first s with
  | (0, s) => (true, started first trial lost (if lost then 8 else 0) s)
  | (c, s) => match trySlot (1 - first) s with
    | (0, s) => (true, started (1 - first) false true c s)
    | (d, s) => (false, enterRecovery 6 d s)

/-- Word 0 of the valid boot control block, or 0. -/
def bootWord (s : State) : Word :=
  match bcbNow s with
  | some (_, _, w) => w
  | none => 0

/-- Steps 3 to 6 of R481: the slot is chosen, checked and started. Answers whether the firmware runs. -/
def bootSlots (s : State) : Bool × State :=
  let w := bootWord s
  let trial := bit w 8 && fld w 7 4 == 1
  let lost := bit w 8 && fld w 7 4 != 1
  bootFrom (if trial then fld w 1 1 else fld w 0 0) trial lost
    (if trial then bcbWrite (bcbWord true 0 (fld w 1 1) (fld w 0 0)) s else s)

/-- A steward restart (R483): the steward cores alone, with the record and the unit secret kept. -/
def stewardRestart (cause : Nat) (s : State) : State :=
  let s := mbxStewardReset (s.setReg .DEV_RST_CAUSE (place 2 0 cause))
  let s := modSec (fun x => { x with
    locked := false, cdi2 := [], cert1 := [], cert2 := [], smem := [], running := [], update := none, wdogAt := s.tb.ticks }) s
  if s.sec.record.isEmpty then enterRecovery 3 0 s else (bootSlots s).2

/-- Start-up from step 2 on (R464, R481), after a reset has left the device cold. -/
def startUp (cause : Word) (s : State) : State :=
  let s := s.setReg .DEV_RST_CAUSE (place 2 0 cause.toNat)
  let bs := flashBytes 0 8192 s
  if !recordOk bs s then enterRecovery 3 0 s
  else match bootSlots (applyRecord bs s) with
    | (true, s) => s.flag .HL_CTL 63
    | (false, s) => s

/-- A device reset (R463), with the code of R473 for what started it. -/
def deviceReset (cause : Word) (s : State) : State := startUp cause (deviceClear s)

/-! ### The commands -/

def execDeviceReset (s : State) : Ans := .next (deviceReset 1 s)
def execCardReset (s : State) : Ans := .next (deviceReset 2 s)
def execPowerOn (s : State) : Ans := .next (startUp 0 (powerClear s))
def execStewardRestart (s : State) : Ans := .next (stewardRestart 4 s)

end Sys2Proof.Machine
end

