-- ==== Sys2Proof/Machine/Firmware.lean ====
section
/-! DEFINITION. Firmware updates, recovery downloads, the steward watchdog and measurements
(16_firmware_and_security.md R480, R484, R485, R488, R489). -/

namespace Sys2Proof.Machine

open Sys2Proof

/-! ### SEC_FW_STAT -/

def fwIdle : Nat := 0
def fwWriting : Nat := 1
def fwWritten : Nat := 2
def fwTrial : Nat := 3
def fwFailed : Nat := 4

def fwState (s : State) : Nat := s.rf .SEC_FW_STAT 2 0

/-- An accepted OP leaves this status. -/
def fwStat (svn cause st : Nat) (s : State) : State :=
  s.setReg .SEC_FW_STAT (place 63 32 svn ||| place 11 8 cause ||| place 2 0 st)

/-- An OP that is not accepted in the present state (R485). -/
def fwRefuse (s : State) : State := s.flag .SEC_FW_STAT 3

/-- The running slot and the other one. -/
def slotBooted (s : State) : Nat := s.rf .SEC_BOOT_STAT 0 0
def slotOther (s : State) : Nat := 1 - slotBooted s

def inRecovery (s : State) : Bool := s.rb .SEC_BOOT_STAT 4

/-! ### Update requests -/

/-- Mailbox `m` holds a message of a CODE. -/
def mbxHolds (m code : Nat) (s : State) : Bool := s.rb .MBX_STAT 63 m && s.rf .MBX_MSG 47 32 m 0 == code

/-- Payload word `i` of the message in mailbox `m`. -/
def mbxPayload (m i : Nat) (s : State) : Nat := (s.reg .MBX_MSG m (i + 1)).toNat

/-- Stast takes an update request from mailbox 1: BUSY while an update is being written or tried. -/
def updateRequest (s : State) : State :=
  if inRecovery s || !mbxHolds 1 0x0F01 s then s
  else
    let u : Update := ⟨mbxPayload 1 0 s, mbxPayload 1 1 s, mbxPayload 1 2 s⟩
    let s := mbxAck 1 1 s
    if fwState s = fwWriting ∨ fwState s = fwTrial then s.emit (.updateBusy u.reply)
    else modSec (fun x => { x with update := some u }) s

/-! ### The operations of SEC_FW_CTL (R485) -/

/-- BEGIN: the header of the inactive slot is erased; an erased byte reads 0xFF (notes/assumptions/37.md). -/
def fwBegin (s : State) : State :=
  if fwState s = fwIdle ∨ fwState s = fwWritten ∨ fwState s = fwFailed then
    fwStat 0 0 fwWriting (flashWrite (slotBase (slotOther s)) (List.replicate 8192 0xFF) s)
  else fwRefuse s

/-- The package that the update request names is programmed into the inactive slot (notes/assumptions/44.md). -/
def programPackage (s : State) : State :=
  match s.sec.update with
  | none => s
  | some u =>
    let r := devRead whoSteward u.addr (min u.len slotBytes) 0 s
    match r.1 with
    | .ok bs => flashWrite (slotBase (slotOther s)) bs r.2
    | .error _ => r.2

/-- WRITTEN: the inactive slot is read again and checked. -/
def fwCheck (media : Bool) (s : State) : State :=
  if fwState s ≠ fwWriting then fwRefuse s
  else
    let s := programPackage s
    let rd := slotReader (slotOther s) s
    let c := packageFault rd slotBytes s.sec.running media s
    if c = 0 then fwStat (mSvn (manifestOf rd)) 0 fwWritten s else fwStat 0 c fwFailed s

/-- ACTIVATE: the inactive slot is pending for a trial, and the steward restarts. -/
def fwActivate (s : State) : State :=
  if fwState s ≠ fwWritten then fwRefuse s
  else
    let active := if (bcbNow s).isSome then bcbActive s else slotBooted s
    stewardRestart 5 (bcbWrite (bcbWord true 1 (slotOther s) active) s)

/-- CONFIRM: the booted slot becomes ACTIVE, and the counters are raised, unless the flash refuses that write. -/
def fwConfirm (refused : Bool) (s : State) : State :=
  if fwState s ≠ fwTrial then fwRefuse s
  else
    let b := slotBooted s
    let s := bcbWrite (bcbWord false 0 (slotOther s) b) s
    let raised := raiseCounters s.sec.running s
    let s := if refused && raised.sec != s.sec then s.flag .SEC_BOOT_STAT 12 else raised
    let s := fwStat 0 0 fwIdle ((s.unflag .SEC_BOOT_STAT 2).putReg .SEC_BOOT_STAT 1 1 b)
    modSec (fun x => { x with confirm := some s.tb.ticks }) s

/-- ABANDON. -/
def fwAbandon (s : State) : State :=
  if fwState s = fwTrial then stewardRestart 5 s else fwStat 0 0 fwIdle s

/-- A write of SEC_FW_CTL. -/
def fwCtl (op : Nat) (s : State) : State :=
  match op with
  | 1 => fwBegin s
  | 2 => fwCheck false s
  | 3 => fwActivate s
  | 4 => fwConfirm false s
  | 5 => fwAbandon s
  | _ => fwRefuse s

/-! ### Recovery downloads (R484) -/

/-- A download is refused or fails. -/
def downloadFails (cause : Nat) (s : State) : State :=
  s.setReg .SEC_REC_STAT (place 11 8 cause ||| place 2 0 4)

/-- The FIRMWARE kind: a package for slot A. -/
def recoverFirmware (bs : List Byte) (media : Bool) (s : State) : State :=
  let c := packageFault (listReader bs) (min bs.length slotBytes) [] media s
  if c ≠ 0 then downloadFails c s
  else deviceReset s.open (bcbWrite (bcbWord false 0 0 0) (flashWrite (slotBase 0) (bs.take slotBytes) s)).used

/-- The RECORD kind. R478 gives a refused record no cause code: it is an open value. -/
def recoverRecord (bs : List Byte) (media : Bool) (s : State) : State :=
  if media then downloadFails 7 s
  else if !recordOk bs s then (downloadFails (s.open.toNat % 16) s).used
  else
    let s := modSec (fun x => { x with recMin := recordSeq (leWords bs) }) (flashWrite 0 bs s)
    deviceReset s.open s.used

/-- The ROM takes a download request from mailbox 0: length and kind. What starts the reset that follows a good one has
no code in R473: the cause that DEV_RST_CAUSE then shows is an open value. -/
def recoveryDownload (media : Bool) (s : State) : State :=
  if !inRecovery s || !mbxHolds 0 0x0F10 s then s
  else
    let len := mbxPayload 0 0 s
    let kind := mbxPayload 0 1 s
    let r := devRead whoSteward (hamletBase 0) (min len 0x2000000) 0 (mbxAck 0 1 s)
    match r.1, kind with
    | .ok bs, 1 => recoverFirmware bs media r.2
    | .ok bs, 2 => recoverRecord bs media r.2
    | .error _, _ => downloadFails 7 r.2
    | _, _ => (downloadFails (r.2.open.toNat % 16) r.2).used

/-! ### The watchdog and measurements (R488, R489) -/

/-- A write of SEC_WDOG. -/
def watchdogReload (v : Word) (s : State) : State :=
  modSec (fun x => { x with wdogAt := s.tb.ticks }) (s.writePlain .SEC_WDOG v)

/-- The watchdog expires, unless CONFIRM was written on this cycle (R485): the steward restarts, and WDOG_N pulses low
(18_package_and_electrical.md R511). -/
def watchdogExpire (s : State) : State :=
  let ms := s.rf .SEC_WDOG 31 0
  if ms = 0 ∨ s.tb.ticks < s.sec.wdogAt + ms * 125000 then s
  else if s.sec.confirm = some s.tb.ticks then modSec (fun x => { x with wdogAt := s.tb.ticks }) s
  else stewardRestart 3 ((s.emit (.pin "WDOG_N" false)).emit (.pin "WDOG_N" true))

/-- A write of SEC_MEAS_IN word `j`. -/
def measInWrite (j : Nat) (v : Word) (s : State) : State :=
  modSec (fun x => { x with measIn := Tab.set (fun _ => 0) x.measIn j v }) s

/-- A write of SEC_MEAS_GO. -/
def measExtend (v : Word) (s : State) : State :=
  if fld v 1 0 ≠ 3 then s
  else
    let inp := (List.range 6).flatMap fun j => leBytes 8 (Tab.get (fun _ => 0) s.sec.measIn j).toNat
    measure 3 (sha384 (measured 3 s ++ inp)) s

/-! ### The commands -/

def execUpdateRequest (s : State) : Ans := .next (updateRequest s)
def execFwBegin (s : State) : Ans := .next (fwBegin s)
def execWritten (media : Bool) (s : State) : Ans := .next (fwCheck media s)
def execActivate (s : State) : Ans := .next (fwActivate s)
def execConfirm (refused : Bool) (s : State) : Ans := .next (fwConfirm refused s)
def execAbandon (s : State) : Ans := .next (fwAbandon s)
def execRecoveryDownload (media : Bool) (s : State) : Ans := .next (recoveryDownload media s)
def execWatchdogExpire (s : State) : Ans := .next (watchdogExpire s)
def execWatchdogReload (v : Word) (s : State) : Ans := .next (watchdogReload v s)
def execMeasExtend (v : Word) (s : State) : Ans := .next (measExtend v s)

end Sys2Proof.Machine
end

