-- ==== Sys2Proof/Machine/Health.lean ====
section
/-! DEFINITION. Clearing error records, the health score, and the rack-manager role with its shadowing
(17_errors_and_health.md R493 to R503). -/

namespace Sys2Proof.Machine

open Sys2Proof

def modReeve (f : Reeve → Reeve) (s : State) : State := { s with reeve := f s.reeve }

/-! ### Error records (R493, R494) -/

/-- ERR_STAT: the number of valid records. -/
def errStat (s : State) : Word := BitVec.ofNat 64 ((List.range 128).filter fun i => s.rb .ERR_REC 63 i 0).length

/-- Steward firmware clears record `i`. An event that would merge into it on the same cycle leaves a new record of that
event alone, which rings as any created record does. -/
def errClear (i : Nat) (ev : Option (Nat × Nat)) (s : State) : State :=
  if !s.rb .ERR_REC 63 i 0 then s
  else match ev with
  | none => s.unflag .ERR_REC 63 i 0
  | some (addr, aux) =>
    let now := BitVec.ofNat 64 s.now
    let code := s.rf .ERR_REC 59 48 i 0
    let cls := s.rf .ERR_REC 62 60 i 0
    let s := (match errInput code with | some k => reeveCount k 1 s | none => s).flag .ERR_SUM cls
    let s := (((s.putReg .ERR_REC 15 0 1 i 0).setReg .ERR_REC now i 1).setReg .ERR_REC now i 2).setReg
      .ERR_REC (errTail addr aux) i 3
    if s.rb .ERR_CTL cls then ringReg .ERR_DB 0 0 s else s

/-! ### The health score (R495 to R498) -/

/-- The event unit of an input, and its weight (R496). -/
def inputUnit (i : Nat) : Nat := if i = 0 ∨ i = 6 then 1024 else if i = 8 then 1000 else 1

def inputWeight (i : Nat) (s : State) : Nat :=
  if i < 8 then s.rf .ERR_RV_WGT0 (8 * i + 7) (8 * i) else s.rf .ERR_RV_WGT1 (8 * i - 57) (8 * i - 64)

/-- The events of an input in the window that ends, in its unit; what is short of a unit is kept for the next. -/
def inputCount (i : Nat) (s : State) : Nat := Tab.get (fun _ => 0) s.reeve.inputs i / inputUnit i

def penalty (s : State) : Nat :=
  (List.range 12).foldl (fun p i => p + inputWeight i s * min 255 (inputCount i s)) 0

def restInputs (s : State) : State :=
  modReeve (fun r => { r with inputs := (List.range 12).foldl (fun t i =>
    Tab.set (fun _ => 0) t i (Tab.get (fun _ => 0) t i % inputUnit i)) r.inputs }) s

def thrOk (s : State) : Nat := s.rf .ERR_RV_CFG 39 30
def thrBad (s : State) : Nat := min (s.rf .ERR_RV_CFG 29 20) (thrOk s)
def thrHyst (s : State) : Nat := s.rf .ERR_RV_CFG 19 10

/-- The band after a score (R497): down at once, up with hysteresis. -/
def bandAfter (band score : Nat) (s : State) : Nat :=
  if score < thrBad s then 2
  else if score < thrOk s ∧ band = 0 then 1
  else if band = 0 then 0
  else if thrOk s + thrHyst s ≤ score then 0
  else if band = 2 ∧ thrBad s + thrHyst s ≤ score then 1
  else band

/-- The health record is posted (R498). -/
def publishHealth (s : State) : State :=
  if !s.rb .ERR_RV_CTL 63 then s
  else
    let p := s.rf .ERR_RV_CTL 19 16
    let a := s.rf .ERR_RV_DEST 51 12 * 4096 + ownNode s % 64 * 32
    let w0 := place 63 52 (ownNode s) ||| place 41 40 (s.rf .ERR_RV_STAT 41 40) |||
      place 25 16 (s.rf .ERR_RV_STAT 25 16) ||| place 7 0 (s.rf .ERR_SUM 7 0)
    let bs := leBytes 8 w0.toNat ++ leBytes 8 s.reeve.seq ++ leBytes 8 s.now ++ leBytes 8 0
    match windowStore (some p) a bs .none s with
    | (some e, s) => memErrRecord e (whoUnit 0 0 p) a 0 s
    | (none, s) => s

/-- The end of a window of SCORE_MS. -/
def scoreWindow (s : State) : State :=
  if s.tb.ticks < s.reeve.windowAt + max 1 (s.rf .ERR_RV_CFG 63 48) * 125000 then s
  else
    let p := penalty s
    let was := s.rf .ERR_RV_STAT 25 16
    let score := if 0 < p then was - p else min 1023 (was + s.rf .ERR_RV_CFG 47 40)
    let band := s.rf .ERR_RV_STAT 41 40
    let now := bandAfter band score s
    let s := restInputs (modReeve (fun r => { r with seq := (r.seq + 1) % 2 ^ 64, windowAt := s.tb.ticks }) s)
    let s := s.setReg .ERR_RV_STAT (place 41 40 now ||| place 25 16 score)
    publishHealth (if now != band then ringReg .ERR_DB 0 0 s else s)

/-! ### The rack manager (R499, R500) -/

def rmOn (s : State) : Bool := s.rb .ERR_RM_CTL 63

def rmDev (d : Nat) (s : State) : RmDev := Tab.get (fun _ => RmDev.reset) s.reeve.rm d

def modRm (d : Nat) (f : RmDev → RmDev) (s : State) : State :=
  modReeve (fun r => { r with rm := Tab.set (fun _ => RmDev.reset) r.rm d (f (rmDev d s)) }) s

/-- The states of R499. -/
def rmIn : Nat := 0
def rmDegraded : Nat := 1
def rmExpelled : Nat := 2
def rmShadowing : Nat := 3

def rmState (d : Nat) (s : State) : Nat := s.rf .ERR_RM_DEV 63 62 d

/-- A state change, with WORK_PCT: ERR_RM_DEV is written and ERR_DB rings. -/
def rmMove (d st pct : Nat) (s : State) : State :=
  ringReg .ERR_DB 0 0 ((s.putReg .ERR_RM_DEV 63 62 st d).putReg .ERR_RM_DEV 55 48 pct d)

/-- A change to EXPELLED, which counts towards the budget whatever its cause. -/
def rmExpel (d : Nat) (s : State) : State :=
  let s := modReeve (fun r => { r with expelled := s.now :: r.expelled }) s
  rmMove d rmExpelled (s.rf .ERR_RM_DEV 55 48 d) (modRm d (fun x => { x with cand := false, failing := 0 }) s)

/-- The changes to EXPELLED within the last BWIN_S seconds. -/
def expulsions (s : State) : Nat :=
  (s.reeve.expelled.filter fun t => decide (s.now < t + s.rf .ERR_RM_CFG 55 40 * 1000000000)).length

def budgetLeft (s : State) : Bool := decide (expulsions s < s.rf .ERR_RM_CFG 63 56)

/-- The DEGRADED candidate that is expelled next: lowest S, then lowest index. -/
def nextDegraded (s : State) : Option Nat :=
  ((List.range 64).filter fun d => rmState d s == rmDegraded && (rmDev d s).cand).foldl (fun best d =>
    match best with
    | none => some d
    | some b => if (rmDev d s).lastS < (rmDev b s).lastS then some d else some b) none

/-- DEGRADED candidates are expelled while the budget lasts. -/
def expelDegraded : Nat → State → State
  | 0, s => s
  | n + 1, s => if !budgetLeft s then s else match nextDegraded s with
    | some d => expelDegraded n (rmExpel d s)
    | none => s

def confirmN (s : State) : Nat := max 1 (s.rf .ERR_RM_CFG 39 36)
def recoverN (s : State) : Nat := max 1 (s.rf .ERR_RM_CFG 35 32)
def missN (s : State) : Nat := max 1 (s.rf .ERR_RM_CFG 31 28)

/-- Device `d` has become a candidate. -/
def rmCandidate (d : Nat) (s : State) : State :=
  if rmState d s = rmIn then
    if budgetLeft s then rmExpel d s
    else rmMove d rmDegraded (s.rf .ERR_RM_CFG 27 20) (modRm d (fun x => { x with cand := true }) s)
  else modRm d (fun x => { x with cand := true }) s

/-- A record of a band counts: FAILING, HEALTHY or neither. -/
def rmRecord (d band : Nat) (s : State) : State :=
  let s := modRm d (fun x => { x with
    failing := if band = 2 then x.failing + 1 else 0
    healthy := if band = 0 then x.healthy + 1 else 0
    cand := x.cand && band == 2 }) s
  let st := rmState d s
  if (st = rmIn ∨ st = rmDegraded) ∧ confirmN s ≤ (rmDev d s).failing then rmCandidate d s
  else if st = rmDegraded ∧ recoverN s ≤ (rmDev d s).healthy then rmMove d rmIn 100 s
  else s

/-- Words of the inbox, as the Reeve reads them. -/
def rmRead (ofs len : Nat) (s : State) : Option (List Word) × State :=
  match devRead Who.device (s.rf .ERR_RM_BASE 51 12 * 4096 + ofs) len 0 s with
  | (.ok bs, s) => (some (leWords bs), s)
  | (.error _, s) => (none, s)

/-- The record of device `d` is read (R499): a SEQ that has not advanced is a missing record. -/
def rmReadDev (d : Nat) (s : State) : State :=
  match rmRead (d * 32) 32 s with
  | (some ws, s) =>
    if (rmDev d s).lastSeq < (wordAt ws 1).toNat then
      rmRecord d (fld (wordAt ws 0) 41 40) (modRm d (fun x => { x with
        missing := 0, lastSeq := (wordAt ws 1).toNat, lastS := fld (wordAt ws 0) 25 16 }) s)
    else miss s
  | (none, s) => miss s
where
  /-- MISS_N missing records in a row count as one FAILING record. -/
  miss (s : State) : State :=
    if missN s ≤ (rmDev d s).missing + 1 then rmRecord d 2 (modRm d (fun x => { x with missing := 0 }) s)
    else modRm d (fun x => { x with missing := x.missing + 1 }) s

/-! ### Shadowing (R501, R502) -/

/-- The step record that slot `k` of device `d` holds: STEP and the accumulator. -/
def stepRecord (d k : Nat) (s : State) : Option (Nat × Word) × State :=
  match rmRead (0x800 + (d * 16 + k) * 16) 16 s with
  | (some ws, s) => (some ((wordAt ws 0).toNat, wordAt ws 1), s)
  | (none, s) => (none, s)

/-- Two step records are equal. -/
def shadowEqual (d : Nat) (s : State) : State :=
  let s := modRm d (fun x => { x with misses := 0 }) (s.count .ERR_RM_DEV 47 32 d)
  if max 1 (s.rf .ERR_RM_CFG 19 8) ≤ s.rf .ERR_RM_DEV 47 32 d then rmMove d rmIn 100 s else s

/-- Two step records differ, or one is missing for too long. A device that shadows on its own rack counts input 11. -/
def shadowDiffers (d : Nat) (s : State) : State :=
  let s := errRecord 0x070 Who.device 0 d (s.putReg .ERR_RM_DEV 47 32 0 d)
  let s := if d = ownNode s % 64 then reeveCount 11 1 s else s
  let s := modRm d (fun x => { x with misses := x.misses + 1 }) s
  if confirmN s ≤ (rmDev d s).misses then rmExpel d s else s

/-- A step that only one side has published is noted when it is first seen. -/
def noteStep (d step : Nat) (s : State) : State :=
  let x := rmDev d s
  if x.compared.contains step || x.seen.any fun e => e.1 == step then s
  else modRm d (fun x => { x with seen := x.seen ++ [(step, s.now)] }) s

/-- A step is settled. -/
def settleStep (d step : Nat) (s : State) : State :=
  modRm d (fun x => { x with compared := x.compared ++ [step], seen := x.seen.filter fun e => e.1 != step }) s

/-- Compare slot `k` of device `d` with that of the device it shadows. -/
def shadowSlot (d k : Nat) (s : State) : State :=
  if rmState d s ≠ rmShadowing then s
  else
    let a := stepRecord d k s
    let b := stepRecord (s.rf .ERR_RM_DEV 61 56 d) k a.2
    match a.1, b.1 with
    | some (sd, ad), some (sw, aw) =>
      if sd = sw then
        if (rmDev d b.2).compared.contains sd then b.2
        else if ad = aw then shadowEqual d (settleStep d sd b.2) else shadowDiffers d (settleStep d sd b.2)
      else noteStep d sw (noteStep d sd b.2)
    | _, _ => b.2

/-- Steps that wait for STEP_TO_MS count as different. -/
def shadowLate (d : Nat) (s : State) : State :=
  let late := (rmDev d s).seen.filter fun e => decide (e.2 + max 1 (s.rf .ERR_RM_CFG 7 0) * 1000000 ≤ s.now)
  late.foldl (fun s e => if rmState d s = rmShadowing then shadowDiffers d (settleStep d e.1 s) else s) s

/-- Read and compare the step records of a shadowing device. -/
def shadowScan (d : Nat) (s : State) : State :=
  shadowLate d ((List.range 16).foldl (fun s k => shadowSlot d k s) s)

/-- The steps that lie in the slots of device `d` and of device `w`. -/
def stepsOf (d w : Nat) (s : State) : List Nat × State :=
  (List.range 16).foldl (fun r k =>
    let a := stepRecord d k r.2
    let b := stepRecord w k a.2
    (r.1 ++ (a.1.map (·.1)).toList ++ (b.1.map (·.1)).toList, b.2)) ([], s)

/-- One window of the rack manager (R499). -/
def rmWindow (s : State) : State :=
  if !rmOn s || s.reeve.rmSeq == s.reeve.seq then s
  else
    let s := expelDegraded 64 (modReeve (fun r => { r with rmSeq := r.seq }) s)
    let s := (List.range 64).foldl (fun s d => if s.rb .ERR_RM_MASK d then shadowScan d (rmReadDev d s) else s) s
    expelDegraded 64 s

/-- A write of ERR_RM_DEV by steward firmware: EXPELLED, or SHADOWING with SHADOW_OF (R500, R501). -/
def rmDevWrite (d : Nat) (v : Word) (s : State) : State :=
  let st := fld v 63 62
  if !rmOn s || st < 2 then s
  else
    let was := rmState d s
    let s := s.putReg .ERR_RM_DEV 61 56 (fld v 61 56) d
    if st = 2 then (if was = rmExpelled then s else rmExpel d s)
    else
      let r := stepsOf d (fld v 61 56) (s.putReg .ERR_RM_DEV 47 32 0 d)
      let s := modRm d (fun x => { x with cand := false, failing := 0, misses := 0, compared := r.1, seen := [] }) r.2
      if was = rmShadowing then s else rmMove d rmShadowing (s.rf .ERR_RM_DEV 55 48 d) s

/-! ### The commands -/

def execErrRecClear (i : Fin 128) (ev : Option (Nat × Nat)) (s : State) : Ans := .next (errClear i ev s)

/-- A read of ERR_LOST, by steward firmware or PF0 (R503). -/
def execErrLostRead (ag : Agent) (s : State) : Ans :=
  .next (if ag == .steward || ag == .host 0 then s.readPlain .ERR_LOST else refusePermission s)

def execScoreWindow (s : State) : Ans := .next (scoreWindow s)
def execRmWindow (s : State) : Ans := .next (rmWindow s)
def execBudgetExpiry (s : State) : Ans := .next (if rmOn s then expelDegraded 64 s else s)
def execShadowStepTimeout (d : Fin 64) (s : State) : Ans := .next (if rmOn s then shadowScan d s else s)
def execErrRmDevWrite (d : Fin 64) (v : Word) (s : State) : Ans := .next (rmDevWrite d v s)

end Sys2Proof.Machine
end

