-- ==== Sys2Proof/Machine/CtlRead.lean ====
section
/-! DEFINITION. Reads of the control range: who may read which register, what it reads as, and what the read changes
(00_scope.md R3, R12 to R17; 13_partitions_and_scheduling.md R401; the access paragraphs of the blocks). -/

namespace Sys2Proof.Machine

open Sys2Proof

/-! ### Who may read (R401) -/

/-- The four registers of one bell (R74). -/
def bellOwn (r : RegName) : Bool := r == .BELL_TIME || r == .BELL_ACT || r == .BELL_PERIOD || r == .BELL_CTL

/-- Partition `p` may read a register of the BELL block (R74). -/
def mayReadBell (p : Nat) (r : RegName) (i j : Nat) (s : State) : Bool :=
  if bellOwn r then ownsBell p i j s
  else if r == .BELL_DMASK_LO || r == .BELL_DMASK_HI then ownsSome p 8 s
  else ownsSome p i s

/-- An agent may read a register of a mailbox (R442, R451). -/
def mayReadMbx (ag : Agent) (r : RegName) (m : Nat) (s : State) : Bool :=
  if r == .MBX_STG || r == .MBX_STG_STAT then true
  else if r == .MBX_STAT then mbxPermits ag m s || mbxReceives ag m s
  else mbxReceives ag m s

/-- An agent may read a register of the PART block: those of an instance that its partition owns (R401, R431). -/
def mayReadPart (ag : Agent) (r : RegName) (i : Nat) (s : State) : Bool :=
  let b := r.desc.base
  if b < 0x90100 then false
  else if b < 0x90A00 then s.actsFor ag i
  else if b < 0x90C00 then false
  else if b < 0x91400 then s.actsFor ag (dmaOwner i s)
  else if b < 0x98000 then false
  else s.cxValid i && s.actsFor ag (s.cxPart i)

/-- An agent may read a register of the FAB block (R337, R399, R401). -/
def mayReadFab (ag : Agent) (r : RegName) (i : Nat) (s : State) : Bool :=
  let b := r.desc.base
  if b < 0xD2000 then false else if b < 0xD4000 then s.actsFor ag i else if b < 0xD8000 then false else cpMay ag i s

/-- An agent may read instance (`i`, `j`) of a register: steward firmware every one, a partition those that R401 and
the register's block name, PF0 also those of the management role (R438, R450, R489, R503). The radio blocks are
partition 0's (R207, R209). -/
def mayRead (ag : Agent) (r : RegName) (i j : Nat) (s : State) : Bool :=
  let b := r.desc.base
  let part := s.agentPart ag
  let pf0 := ag == .host 0
  if ag == .steward then true
  else if b < 0x10000 then part.isSome || pf0
  else if b < 0x20000 then part.isSome
  else if b < 0x40000 then part.any fun p => mayReadBell p r i j s
  else if b < 0x50000 then false
  else if b < 0x60000 then pf0
  else if b < 0x80000 then mayReadMbx ag r i s
  else if b < 0x90000 then pf0
  else if b < 0xA0000 then mayReadPart ag r i s
  else if b < 0xB0000 then decide (0xA0100 ≤ b) && s.actsFor ag i
  else if b < 0xC0000 then decide (0xB0100 ≤ b) && s.actsFor ag (seRingPart i j s)
  else if b < 0xD0000 then drvMay ag i s
  else if b < 0xE0000 then mayReadFab ag r i s
  else if b < 0x110000 then s.actsFor ag 0
  else if b < 0x200000 then pf0 && (r == .SEC_BOOT_STAT || r == .SEC_REC_STAT)
  else part.any fun p => s.holdsTile p i || s.holdsBorrowed p i

/-! ### What a register reads as -/

/-- The window of a disabled tile, and the OPE registers of a tile that has none: they read 0 and ignore writes
(R3, R159). -/
def absent (r : RegName) (i j : Nat) (s : State) : Bool :=
  decide (0x200000 ≤ r.desc.base) &&
    (!s.enabled i || (decide (0x200100 ≤ r.desc.base) && !hasUnit i j))

/-- The ERR_RM registers of a device that is no rack manager read 0 (R503). -/
def rmHidden (r : RegName) (s : State) : Bool :=
  decide (0x52108 ≤ r.desc.base ∧ r.desc.base < 0x53000) && !rmOn s

/-- TILE_STAT.RUN (R108): a launch on its way, a held one, WAITT and WAITE count as waiting, every other wait inside an
instruction as running (notes/assumptions/153.md). -/
def tileRun (t : Nat) (s : State) : Nat :=
  let x := s.tile t
  if s.dormant (domQuad t) then 5
  else match x.run with
    | .idle => 0
    | .launching => 2
    | .held => 2
    | .running => (match x.core.wait with | .time _ _ => 2 | .event _ _ => 2 | _ => 1)
    | .saving => 3
    | .restoring => 3
    | .halted => 4

/-- The value of TILE_STAT (R108). -/
def tileStat (t : Nat) (s : State) : Word :=
  let x := s.tile t
  let on := x.cx.isSome
  place 63 48 (if on then x.core.kentry.toNat else 0) ||| place 47 40 x.core.tagErr.toNat |||
    place 39 32 x.core.tagBusy.toNat ||| place 19 16 (if on then x.core.part.toNat else 0) |||
    place 12 12 (s.lent t).toNat ||| place 11 11 (s.radio && s.holdsTile 0 t).toNat ||| place 10 8 (tileRun t s) |||
    place 0 0 x.core.modeM.toNat

def UState.code : UState → Nat
  | .idle => 0
  | .rampUp => 1
  | .active => 2
  | .keep => 3
  | .rampDown => 4
  | .saving => 5
  | .restoring => 6

/-- The value of TILE_ARR_STAT (R172). -/
def arrStat (t u : Nat) (s : State) : Word :=
  let m := (s.tile t).munit u
  place 18 16 (min 4 m.queue.length) ||| place 11 11 (!m.gangPend.isEmpty).toNat ||| place 10 10 m.curPlane |||
    place 7 4 m.fmt.wf ||| place 2 0 m.st.code

/-- The value of FH_WIN_INFO: the window that FH_WIN_SEL names (R199). -/
def winInfo (p : Nat) (s : State) : Word :=
  let n := s.rf .FH_WIN_SEL 11 0 p
  match openWin p n s with
  | some w => place 9 9 w.decided.toNat ||| place 8 8 1 ||| place 7 0 w.occ
  | none => place 7 0 (Tab.get (fun _ => 0) (s.fhPort p).occs n)

/-- The value of COD_STAT (R232). -/
def codStat (k : Nat) (s : State) : Word :=
  place 56 48 (s.cluster k).jobs.length ||| place 43 40 (poolBusy k 1 s) ||| place 34 32 (poolBusy k 2 s) |||
    place 26 24 (poolBusy k 3 s) ||| place 17 16 (poolBusy k 4 s) ||| place 9 8 (poolBusy k 5 s) |||
    place 4 4 (poolBusy k 6 s) ||| place 0 0 (s.rf .COD_CTL 0 0 k)

/-- The value of GRN_P_QRES: a page that the partition does not own reads 0, except to steward firmware (R268). -/
def grnPQres (ag : Agent) (p : Nat) (s : State) : Word :=
  let v := s.reg .GRN_P_QRES p
  if ag == .steward || (bit v 59 && decide (fld v 58 55 = p)) then v else 0

/-- The value of GRN_P_STAT (R268). -/
def grnPStat (p : Nat) (s : State) : Word :=
  let v := s.reg .GRN_P_STAT p &&& fmask 4 0
  place 54 48 (grnQueue p s).length ||| (if 64 ≤ (grnQueue p s).length then v else clearBit v 4)

/-- The value of FAB_CP_STAT (R368). -/
def cpStat (p : Nat) (s : State) : Word :=
  (s.reg .FAB_CP_STAT p &&& ~~~ fmask 14 8) ||| place 14 8 (s.prog p).ops.length

/-- The value of FAB_CP_CTRS: the counter that SEL names (R368). -/
def cpCtrs (p : Nat) (s : State) : Word :=
  let sel := s.rf .FAB_CP_CTRS 61 56 p
  place 61 56 sel ||| place 31 0 (satNat 32 (Tab.get (fun _ => 0) (s.prog p).counters sel))

/-- BELL_ARMED: bit n is the ARMED bit of bell n (R74). -/
def bellArmedWord (h : Nat) (s : State) : Word :=
  (List.range 64).foldl (fun w n => if bellArmed s h n then setBit w n else w) 0

/-- The lendable tiles that partition 0 holds (R402). -/
def lendWord (r : RegName) (s : State) : Word :=
  s.reg r &&& (if r == .PART_LEND_LO then s.reg .PART_P_TILE_LO else s.reg .PART_P_TILE_HI)

/-- What instance (`i`, `j`) of a register reads as (R15, R16): most read their stored word; those that report the
state of a unit read it. -/
def regValue (ag : Agent) (r : RegName) (i j : Nat) (s : State) : Word :=
  let stored := r.desc.readView (s.reg r i j)
  match r with
  | .TB_STATE => tbState s
  | .TB_ADJ => tbAdj s
  | .TB_FSRC => tbFsrc s
  | .TB_NOW_NS => BitVec.ofNat 64 s.now
  | .TB_PORT_TS_STAT => tsStat i s
  | .TB_PORT_TS_HI => ((s.tsFifo i).head?.map (·.1)).getD 0
  | .TB_PORT_TS_LO => ((s.tsFifo i).head?.map (·.2)).getD 0
  | .BELL_ARMED => bellArmedWord i s
  | .TILE_STAT => tileStat i s
  | .TILE_PC => (s.core i).pc.setWidth 64
  | .TILE_ARR_DIGEST => (s.tile i).digest
  | .TILE_ARR_STAT => arrStat i j s
  | .FH_WIN_INFO => winInfo i s
  | .COD_STAT => codStat i s
  | .SE_STAT => place 11 8 (s.engine i).cmds.length ||| place 0 0 (s.rf .SE_CTL 0 0 i)
  | .DRV_STAT => drvStat i s
  | .GRN_STAT => place 36 32 s.grn.moves.length ||| place 22 0 (grnFree1 s)
  | .GRN_P_USE => place 54 32 (pinnedUse i s) ||| place 22 0 (pageUse i s)
  | .GRN_P_STAT => grnPStat i s
  | .GRN_P_QRES => grnPQres ag i s
  | .FAB_PATH_QRES => pathQres s
  | .FAB_CP_STAT => cpStat i s
  | .FAB_CP_CTRS => cpCtrs i s
  | .PART_STAT => partStat s
  | .PART_P_CTL => (s.reg r i &&& fmask 63 62) ||| place 1 0 (partState i s)
  | .PART_FN_STAT => place 1 0 (fnState i s)
  | .PART_DMA_STAT => dmaStat i s
  | .PART_LEND_LO => lendWord r s
  | .PART_LEND_HI => lendWord r s
  | .PART_HS_OWN => if j = 3 then stored &&& ~~~ fmask 63 56 else stored
  | .CX_STAT => cxStat i s
  | .MBX_CFG => if i < 4 then place 63 63 1 ||| place 61 60 1 else stored
  | .MBX_ACL => if i < 4 then setBit stored 16 else stored
  | .MBX_DB_SET => s.reg .MBX_DB i
  | .MBX_STG => Tab.get (fun _ => 0) (stagingOf ag s).words i
  | .MBX_STG_STAT => stgStat ag s
  | .PWR_DOM_HOLD => domHold s
  | .ERR_STAT => errStat s
  | _ => stored

/-- What a read changes: RC fields clear (R16), a timestamp record leaves its FIFO (R61), FAB_RC_STAT starts its peak
again (R398). A partition's read of BELL_STAT clears nothing (R74). -/
def afterReg (ag : Agent) (r : RegName) (i j : Nat) (s : State) : State :=
  match r with
  | .BELL_STAT => if ag == .steward then s.setReg r (r.desc.afterRead (s.reg r i j)) i j else s
  | .TB_PORT_TS_LO => s.setTsFifo i (s.tsFifo i).tail
  | .TB_FSRC => if s.tb.fsrcHeld then s.used else s
  | .FAB_RC_STAT => s.putReg .FAB_RC_STAT 44 32 s.fab.cache.length
  | _ => s.setReg r (r.desc.afterRead (s.reg r i j)) i j

/-- An access to a register wakes the dormant domain that holds it, a tile's hamlet common first (R454, R457). -/
def wakeReg (off : Nat) (s : State) : State :=
  let d := regDomain off
  if d < 32 then wakeTile (4 * d) s else wakeDom d s

/-- An aligned 64-bit read of the control range: the value, or none for PERMISSION (R13, R14, R401). -/
def controlRead (ag : Agent) (off : Nat) (s : State) : Option Word × State :=
  match locate off with
  | none => (some 0, s)
  | some (r, i, j) =>
    if !mayRead ag r i j s then (none, s)
    else
      let s := wakeReg off s
      if absent r i j s || rmHidden r s then (some 0, s)
      else (some (regValue ag r i j s), afterReg ag r i j s)

end Sys2Proof.Machine
end

