-- ==== Sys2Proof/Machine/CtlWrite.lean ====
section
/-! DEFINITION. Writes of the control range: who may write which register, and what each write does
(00_scope.md R3, R12 to R16; the access paragraphs and register tables of the blocks). -/

namespace Sys2Proof.Machine

open Sys2Proof

/-! ### Who may write -/

/-- An agent may write instance (`i`, `j`) of a register: steward firmware every one, a partition those that the
register's block names (R401). -/
def mayPut (ag : Agent) (r : RegName) (i j : Nat) (s : State) : Bool :=
  if ag == .steward then true else
  match r with
  -- 03_tile_isa.md R108
  | .TILE_TEVT_SET => (s.agentPart ag).any fun p => s.holdsTile p i || s.holdsBorrowed p i
  -- 06_fronthaul_and_slots.md R207, R208; 07_channel_coding.md R232
  | .FH_TX_POST => s.actsFor ag 0
  | .FH_AGC_CMD => s.actsFor ag 0
  | .COD_SQ_TAIL => s.actsFor ag 0
  | .COD_CQ_HEAD => s.actsFor ag 0
  -- 08_memory_tiers.md R268
  | .GRN_CMD => (s.agentPart ag).isSome
  | .GRN_P_PF_CUR => s.actsFor ag i
  | .GRN_P_QADDR => s.actsFor ag i
  | .GRN_P_STAT => s.actsFor ag i
  -- 09_pile_engines.md R297
  | .SE_SQ_TAIL => s.actsFor ag (seRingPart i j s)
  | .SE_CQ_HEAD => s.actsFor ag (seRingPart i j s)
  -- 10_expert_routing.md R335
  | .DRV_POST => drvMay ag i s
  | .DRV_RET_POST => drvMay ag i s
  | .DRV_SH_POST => drvMay ag i s
  | .DRV_CANCEL => drvMay ag i s
  | .DRV_CQ_HEAD => drvMay ag i s
  | .DRV_ERR => drvMay ag i s
  | .DRV_ALARM => drvMay ag i s
  -- 11_collectives.md R368
  | .FAB_CP_GO => cpMay ag i s
  | .FAB_CP_ABORT => cpMay ag i s
  | .FAB_CP_CTRS => cpMay ag i s
  | .FAB_CP_ERR => cpMay ag i s
  -- 12_rack_fabric.md R399
  | .FAB_P_ERR => s.actsFor ag i
  -- 13_partitions_and_scheduling.md R431
  | .CX_LQ_TAIL => mayCx ag i s
  | .CX_CQ_HEAD => mayCx ag i s
  | .PART_DMA_GO => s.actsFor ag (dmaOwner i s)
  -- 14_host_link_and_mailboxes.md R442, R451
  | .MBX_SEND => true
  | .MBX_DB_SET => true
  | .MBX_STG => true
  | .MBX_ACK => mbxReceives ag i s
  | .MBX_DB => mbxReceives ag i s
  | .MBX_DB_MASK => mbxReceives ag i s
  | _ => false

/-! ### What a write does -/

/-- A write that has its effect only while a bit is clear (R335, R368, R399, R431). -/
def whileClear (held : Bool) (f : State → State) (s : State) : State := if held then s else f s

/-- DEV_RST (R463, R473): bit 0 resets the device, bit 1 restarts the steward. -/
def devRstWrite (v : Word) (s : State) : State :=
  if bit v 0 then deviceReset 1 s else if bit v 1 then stewardRestart 4 s else s

/-- DEV_CFG_CTL (R469, R472, R473). -/
def cfgCtlWrite (v : Word) (s : State) : State :=
  match fld v 63 62 with
  | 1 => stageVersion (fld v 31 0) s
  | 2 => rollbackAsked s
  | 3 => discardVersion s
  | _ => s

/-- PART_P_STOP (R430): STOP goes before RESUME. -/
def stopWrite (p : Nat) (v : Word) (s : State) : State :=
  if bit v 0 then partStop p s else if bit v 1 then partResume p s else s

/-- Word 0 of an error record is cleared by its VALID bit (R491, R503). -/
def recWrite (i j : Nat) (v : Word) (s : State) : State := if j = 0 && bit v 63 then errClear i none s else s

/-- Writes of the timebase, bell, tile and fronthaul registers that do more than store; none for the others. -/
def radioWrite (ag : Agent) (r : RegName) (i j : Nat) (v : Word) (s : State) : Option State :=
  match r with
  | .TB_CTL => some (tbCtlWrite v s)
  | .TB_SNAP => some (tbSnap v s)
  | .TB_RATE => some (tbRateWrite v s)
  | .TB_ADJ => some (tbAdjWrite v s)
  | .TB_SLEW_MAX => some (tbSlewMaxWrite v s)
  | .TB_STEP_GO => some (tbStepGo v s)
  | .TB_FSRC => some (tbFsrcWrite v s)
  | .TB_PORT_PTP => some (tbPortPtpWrite i v s)
  | .BELL_TIME => some (bellWordWrite r i j v s)
  | .BELL_ACT => some (bellWordWrite r i j v s)
  | .BELL_PERIOD => some (bellWordWrite r i j v s)
  | .BELL_CTL => some (bellCtlWrite i j v s)
  | .TILE_TEVT_SET => some (tevtSet ag i v s)
  | .TILE_RESET => some (tileResetWrite i v s)
  | .TILE_ARR_ERR => some (arrErrWrite i j v s)
  | .FH_PORT_CTL => some (fhPortCtlWrite i v s)
  | .FH_TX_POST => some (txPostBy ag i v s)
  | .FH_AGC_CMD => some (agcWrite ag v s)
  | .COD_SQ_CFG => some (codRing.cfgWrite i j v s)
  | .COD_SQ_BASE => some (codRing.baseWrite r i j v s)
  | .COD_CQ_BASE => some (codRing.baseWrite r i j v s)
  | .COD_SQ_TAIL => some (codRing.tailWrite .COD_ERR 0 i j v s)
  | .COD_CQ_HEAD => some (codRing.headWrite i j v s)
  | _ => none

/-- The same of the memory, engine and expert-routing registers. -/
def memoryWrite (ag : Agent) (r : RegName) (i j : Nat) (v : Word) (s : State) : Option State :=
  let drvHeld := s.rb .DRV_CTL 63 i
  match r with
  | .GRN_CMD => some (grnCmd ag v s)
  | .GRN_P_QUOTA => some (quotaWrite i v s)
  | .GRN_P_PF_CFG => some (pfCfgWrite i v s)
  | .GRN_P_PF_BASE => some (whileClear (s.rb .GRN_P_PF_CFG 63 i) (fun s => s.writePlain r v i) s)
  | .GRN_P_PF_CUR => some (pfCurWrite i v s)
  | .GRN_P_QADDR => some (queryWrite i v s)
  | .SE_SQ_CFG => some (seRing.cfgWrite i j v s)
  | .SE_SQ_BASE => some (seRing.baseWrite r i j v s)
  | .SE_CQ_BASE => some (seRing.baseWrite r i j v s)
  | .SE_SQ_TAIL => some (seRing.tailWrite .SE_ERR 0 i j v s)
  | .SE_CQ_HEAD => some (seRing.headWrite i j v s)
  | .DRV_CTL => some (pumpAll (drvCtlWrite i v s))
  | .DRV_POST => some (pumpAll (drvPost i v s))
  | .DRV_RET_POST => some (pumpAll (retPost i v s))
  | .DRV_SH_POST => some (pumpAll (sharedPost i v s))
  | .DRV_CANCEL => some (pumpAll (drvCancel i v s))
  | .DRV_CQ_CFG => some (pumpAll (drvCqCfgWrite i v s))
  | .DRV_CQ_HEAD => some (pumpAll (drvCqHeadWrite i v s))
  | .DRV_ALARM => some (drvAlarmClear i v s)
  | .DRV_XCFG => some (whileClear drvHeld (fun s => s.writePlain r v i) s)
  | .DRV_STAGE => some (whileClear drvHeld (fun s => s.writePlain r v i) s)
  | .DRV_RXAREA => some (whileClear drvHeld (fun s => s.writePlain r v i) s)
  | .DRV_RSTAGE => some (whileClear drvHeld (fun s => s.writePlain r v i) s)
  | .DRV_RETAREA => some (whileClear drvHeld (fun s => s.writePlain r v i) s)
  | .DRV_CQ_BASE => some (whileClear drvHeld (fun s => s.writePlain r v i) s)
  | _ => none

/-- The same of the fabric, collective, partition and context registers. -/
def sharedWrite (ag : Agent) (r : RegName) (i _j : Nat) (v : Word) (s : State) : Option State :=
  match r with
  | .FAB_NODE => some (whileClear (fabOn s) (fun s => s.writePlain r v) s)
  | .FAB_PATH_BASE => some (whileClear (fabOn s) (fun s => s.writePlain r v) s)
  | .FAB_PATH_UPD => some (pathUpdWrite v s)
  | .FAB_SMP_CFG => some (smpCfgWrite v s)
  | .FAB_PORT_CTL => some (fabPortCtlWrite i v s)
  | .FAB_CP_CTL => some (cpCtlWrite i v s)
  | .FAB_CP_BASE => some (whileClear (cpEn i s) (fun s => s.writePlain r v i) s)
  | .FAB_CP_GO => some (phaseStart i (fld v 5 0) s)
  | .FAB_CP_ABORT => some (if bit v 0 then abortHere i 3 s else s)
  | .PART_P_CTL => some (partCtlWrite i v s)
  | .PART_P_TILE_LO => some (partTileWrite i false v s)
  | .PART_P_TILE_HI => some (partTileWrite i true v s)
  | .PART_P_STOP => some (stopWrite i v s)
  | .PART_FN_CTL => some (fnCtlWrite i v s)
  | .PART_DMA_GO => some (dmaGo i (fld v 15 0) s)
  | .CX_CTL => some (cxCtlWrite i v s)
  | .CX_TILE_LO => some (whileClear (s.cxValid i) (fun s => s.writePlain r v i) s)
  | .CX_TILE_HI => some (whileClear (s.cxValid i) (fun s => s.writePlain r v i) s)
  | .CX_TS => some (whileClear (s.cxValid i) (fun s => s.writePlain r v i) s)
  | .CX_RING => some (whileClear (s.cxValid i) (fun s => s.writePlain r v i) s)
  | .CX_SWAP => some (whileClear (s.cxValid i) (fun s => s.writePlain r v i) s)
  | .CX_LQ_TAIL => some (cxTailWrite ag i v s)
  | .CX_CQ_HEAD => some (cxHeadWrite ag i v s)
  | _ => none

/-- The same of the host link, mailbox, device, power, security and error registers. -/
def deviceWrite (ag : Agent) (r : RegName) (i j : Nat) (v : Word) (s : State) : Option State :=
  match r with
  | .HL_CTL => some (hlCtlWrite v s)
  | .HL_RETRAIN => some (retrain v s)
  | .MBX_CFG => some (mbxCfgWrite i v s)
  | .MBX_SEND => some (mbxSend ag i v s)
  | .MBX_ACK => some (mbxAck i v s)
  | .MBX_DB_SET => some (mbxDbSet ag i v s)
  | .MBX_DB => some (mbxDbClear i v s)
  | .MBX_DB_MASK => some (mbxDbMask i v s)
  | .MBX_STG => some (stgWrite ag i v s)
  | .DEV_RST => some (devRstWrite v s)
  | .DEV_CFG_CTL => some (cfgCtlWrite v s)
  | .PWR_DOM_REQ => some (domReqWrite v s)
  | .PWR_DOM_RST => some (domainResets v s)
  | .SEC_FW_CTL => some (fwCtl (fld v 2 0) s)
  | .SEC_WDOG => some (watchdogReload v s)
  | .SEC_MEAS_GO => some (measExtend v s)
  | .SEC_MEAS_IN => some (measInWrite i v s)
  | .ERR_REC => some (recWrite i j v s)
  | .ERR_RM_DEV => some (rmDevWrite i v s)
  | _ => none

/-- A write of instance (`i`, `j`) of a register. A register with no rule of its own takes the plain write of R16, with
the bounds of its table row. -/
def putRegister (ag : Agent) (r : RegName) (i j : Nat) (v : Word) (s : State) : State :=
  match radioWrite ag r i j v s, memoryWrite ag r i j v s, sharedWrite ag r i j v s, deviceWrite ag r i j v s with
  | some s, _, _, _ => s
  | none, some s, _, _ => s
  | none, none, some s, _ => s
  | none, none, none, some s => s
  | none, none, none, none => s.writeReg r v i j

/-- An aligned 64-bit write of the control range: false where it is refused as PERMISSION (R13, R14, R401). -/
def controlWrite (ag : Agent) (off : Nat) (v : Word) (s : State) : Bool × State :=
  match locate off with
  | none => (true, s)
  | some (r, i, j) =>
    if !mayPut ag r i j s then (false, s)
    else
      let s := wakeReg off s
      (true, if absent r i j s then s else putRegister ag r i j v s)

/-- The agent as the subject of a sticky error record (R491). -/
def whoAgent (ag : Agent) (s : State) : Who :=
  match ag with
  | .steward => ⟨12, 0, none⟩
  | .tile t => whoTile s t
  | .host f => ⟨5, f, s.fnPart f⟩

/-- A write by an agent to an offset of the control range: unaligned, it is not performed, and leaves an ACCESS_FAULT
record (R13). -/
def registerWrite (ag : Agent) (off : Nat) (v : Word) (s : State) : State :=
  if off % 8 ≠ 0 then
    (errRecord 0x021 (whoAgent ag s) (controlBase + off) 0 s).emit (.status causeAccess)
  else match controlWrite ag off v s with
    | (true, s) => s
    | (false, s) => refusePermission s

def execRegisterWrite (ag : Agent) (off : BitVec 40) (v : Word) (s : State) : Ans := .next (registerWrite ag off.toNat v s)

end Sys2Proof.Machine
end

