-- ==== Sys2Proof/Machine/Dsp.lean ====
section
/-! DEFINITION. The DSP datapath (04_dsp_datapath.md R109 to R134): the buses, fixed-point accumulation and rounding, the
special registers, the hardware loop, the legacy mode and the add-compare-select unit. -/

namespace Sys2Proof.Machine

open Sys2Proof

/-! ### DSPCTL and TBCTL (R122) -/

def Dsp.legacy (d : Dsp) : Bool := bit d.ctl 8

/-- The legacy bank, and the half of it that holds the D4 memory. -/
def Dsp.lbank (d : Dsp) : Nat := fld d.ctl 19 16
def Dsp.lhalf (d : Dsp) : Nat := fld d.ctl 20 20

/-- The rounding mode in force: legacy mode rounds ties to even (R129). -/
def Dsp.rmode (d : Dsp) : Nat := if d.legacy then 1 else fld d.ctl 1 0

/-- SAT is sticky (R119). -/
def Dsp.sat (d : Dsp) (b : Bool) : Dsp := if b then { d with ctl := setBit d.ctl 32 } else d

/-- A write of DSPCTL: LBANK 12–15 writes 11, RMODE 3 writes 0. -/
def dspCtlValue (v : Word) : Word :=
  place 32 32 (fld v 32 32) ||| place 20 20 (fld v 20 20) ||| place 19 16 (min 11 (fld v 19 16)) |||
    place 9 8 (fld v 9 8) ||| place 1 0 (if fld v 1 0 = 3 then 0 else fld v 1 0)

/-- A write of TBCTL. -/
def tbCtlValue (v : Word) : Word :=
  place 30 24 (fld v 30 24) ||| place 22 16 (fld v 22 16) ||| place 14 8 (fld v 14 8) ||| place 4 0 (fld v 4 0)

/-! ### Address registers (R111, R127) -/

def arRing (r : BitVec 32) : Nat := fld r 31 27

/-- The register's value is ILLEGAL when used. -/
def arIllegal (legacy : Bool) (r : BitVec 32) : Bool :=
  if legacy then fld r 26 16 != 0 || decide (16 < arRing r)
  else fld r 26 22 != 0 || !(arRing r == 0 || decide (7 ≤ arRing r ∧ arRing r ≤ 21))

/-- The tile-store offset that the register names. -/
def arOffset (d : Dsp) (r : BitVec 32) : Nat :=
  if d.legacy then
    let h := fld r 15 0
    let w := h / 2
    let granule := w / 32 + 1024 * d.lhalf
    (granule * 12 + d.lbank) * 128 + w % 32 * 4 + h % 2 * 2
  else fld r 21 0

/-- Post-modify by `delta` bytes, or halfwords in legacy mode: linear, or inside the circular buffer. A linear one in
legacy mode wraps modulo 2^16 (notes/assumptions/155.md). -/
def arMove (legacy : Bool) (r : BitVec 32) (delta : Int) : BitVec 32 :=
  let w : Nat := if legacy then 16 else 22
  let o : Nat := r.toNat % 2 ^ w
  let ring := arRing r
  let o' : Nat := if ring = 0 then wrap w ((o : Int) + delta) else o / 2 ^ ring * 2 ^ ring + wrap ring ((o : Int) + delta)
  BitVec.ofNat 32 (r.toNat / 2 ^ w * 2 ^ w + o')

/-- Post-modify by a bus field's code, for elements of `n` bytes: code 3 is four element sizes, two in legacy mode. -/
def arPost (legacy : Bool) (n code : Nat) (r : BitVec 32) : BitVec 32 :=
  let e : Int := if legacy then (n / 2 : Nat) else (n : Nat)
  if code = 1 then arMove legacy r e
  else if code = 2 then arMove legacy r (-e)
  else if code = 3 then arMove legacy r (e * if legacy then 2 else 4)
  else r

/-! ### Bus accesses (R110 to R113) -/

/-- A bus access: its address register by AR number, and its post-modify code. -/
structure Bus where
  ar : Nat
  code : Nat
  deriving DecidableEq, Repr

def busX (r m : Nat) : Bus := ⟨r, m⟩
def busY (r m : Nat) : Bus := ⟨8 + r, m⟩
def busC (r m : Nat) : Bus := ⟨16 + r, m⟩

/-- The device address of a bus access of tile `t`. -/
def busAddr (t : Nat) (c : CoreRegs) (b : Bus) : Nat := tileBase t + arOffset c.dsp (c.addrReg b.ar)

/-- The registers after the buses' post-modifies. -/
def CoreRegs.post (c : CoreRegs) (n : Nat) (bs : List Bus) : CoreRegs :=
  bs.foldl (fun c b => c.setAddrReg b.ar (arPost c.dsp.legacy n b.code (c.addrReg b.ar))) c

/-- Cycles lost inside one instruction: accesses to different granules of one bank (R113, with the bank of R81). In
legacy mode the X and Y accesses have a cycle each (R128). -/
def lostCycles (c : CoreRegs) (bs : List Bus) : Nat :=
  if c.dsp.legacy then 0
  else
    let gs := (bs.map fun b => arOffset c.dsp (c.addrReg b.ar) / 128).eraseDups
    gs.length - (gs.map (· % 12)).eraseDups.length

/-- DCONF after an instruction: its own conflicts, and an open number of cycles while an array feeder of the tile
runs. -/
def bumpDconf (t : Nat) (lost : Nat) (s : State) : State :=
  let feeding := ((s.tile t).units.any fun u => u.2.queue.any (·.running))
  let k := if feeding then lost + fld s.open 31 0 else lost
  let s' := s.modCore t fun c => { c with dsp := { c.dsp with dconf := place 31 0 (satNat 32 (c.dsp.dconf.toNat + k)) } }
  if feeding then s'.used else s'

/-- Run a DSP instruction: legacy mode has only some of them, and only a0 to a3 (R128, R129). -/
def dspRun (t : Nat) (inLegacy : Bool) (accs : List Nat) (f : State → State) (s : State) : State :=
  runInstr t true (fun s =>
    if (s.core t).dsp.legacy && (!inLegacy || accs.any fun a => decide (3 < a)) then illegal t s else f s) s

/-- Check the address registers and the addresses of the buses, then go on. -/
def busCheck (t n : Nat) (bs : List Bus) (f : State → State) (s : State) : State :=
  let c := s.core t
  if bs.any fun b => arIllegal c.dsp.legacy (c.addrReg b.ar) then illegal t s
  else ownAccess t n (bs.map (busAddr t c)) f s

/-- A DSP instruction that reads elements of `n` bytes: `f` gets them in the order of the buses. -/
def dspRead (t n : Nat) (bs : List Bus) (f : List Nat → CoreRegs → CoreRegs) (s : State) : State :=
  busCheck t n bs (fun s =>
    let as := bs.map (busAddr t (s.core t))
    ownRead t n as (fun es s =>
      let lost := lostCycles (s.core t) bs
      bumpDconf t lost (s.modCore t fun c => ((f es c).post n bs).next 4)) s) s

/-! ### Fixed point (R116 to R120) -/

/-- A 16-bit operand, and the two halves of a 32-bit element. -/
def q15 (x : Nat) : Int := signed 16 x
def lo16 (x : Nat) : Int := signed 16 x
def hi16 (x : Nat) : Int := signed 16 (x / 65536)

/-- prod and prod17: exact. -/
def prodQ (x y : Int) : Int := x * y * 2

def CoreRegs.accVal (c : CoreRegs) (i : Nat) : Int := (c.ar i).toInt

/-- Accumulate `v` into `a`: saturate with S, wrap without; legacy mode ignores S and wraps modulo 2^48 (R117,
R129). -/
def CoreRegs.accPut (c : CoreRegs) (sat : Bool) (i : Nat) (v : Int) : CoreRegs :=
  if c.dsp.legacy then c.setA i (BitVec.ofInt 80 (signed 48 (wrap 48 v)))
  else if sat then
    let r := satInt 80 v
    { c.setA i (BitVec.ofInt 80 r) with dsp := c.dsp.sat (r != v) }
  else c.setA i (BitVec.ofInt 80 v)

/-- The rounded 16-bit result of an accumulator, and whether it was clamped (R118). -/
def roundAcc (d : Dsp) (sat : Bool) (v : Int) (sh : Int) : Int × Bool :=
  let num := v * (2 ^ (sh + 8).toNat : Nat)
  let den : Int := (2 ^ 24 : Nat)
  let fl := num / den
  let r := num % den
  let q := if d.rmode = 0 then (2 * num + den) / (2 * den)
    else if d.rmode = 1 then
      (if 2 * r > den ∨ (2 * r = den ∧ fl % 2 = 1) then fl + 1 else fl)
    else fl
  if sat || (d.legacy && bit d.ctl 9) then
    let q' := satInt 16 q
    (q', q' != q)
  else (signed 16 (wrap 16 q), false)

/-! ### OP 0x30: real products -/

/-- A multiply instruction on 16-bit elements or real pairs. -/
def macOp (t : Nat) (inLegacy sat : Bool) (acc n : Nat) (bs : List Bus) (f : Int → List Nat → Int) (s : State) :
    State :=
  dspRun t inLegacy [acc] (dspRead t n bs fun es c => c.accPut sat acc (f (c.accVal acc) es)) s

def el (es : List Nat) (i : Nat) : Nat := es.getD i 0

def execMpy (t : Fin 128) (sat : Bool) (acc xr : Fin 8) (xm : Fin 4) (yr : Fin 8) (ym : Fin 4) (s : State) : Ans :=
  .next (macOp t true sat acc 2 [busX xr xm, busY yr ym] (fun _ e => prodQ (q15 (el e 0)) (q15 (el e 1))) s)
def execMac (t : Fin 128) (sat : Bool) (acc xr : Fin 8) (xm : Fin 4) (yr : Fin 8) (ym : Fin 4) (s : State) : Ans :=
  .next (macOp t true sat acc 2 [busX xr xm, busY yr ym] (fun a e => a + prodQ (q15 (el e 0)) (q15 (el e 1))) s)
def execMsu (t : Fin 128) (sat : Bool) (acc xr : Fin 8) (xm : Fin 4) (yr : Fin 8) (ym : Fin 4) (s : State) : Ans :=
  .next (macOp t true sat acc 2 [busX xr xm, busY yr ym] (fun a e => a - prodQ (q15 (el e 0)) (q15 (el e 1))) s)
def execMacc (t : Fin 128) (sat : Bool) (acc xr : Fin 8) (xm : Fin 4) (cr cm : Fin 4) (s : State) : Ans :=
  .next (macOp t false sat acc 2 [busX xr xm, busC cr cm] (fun a e => a + prodQ (q15 (el e 0)) (q15 (el e 1))) s)
def execPmac (t : Fin 128) (sat : Bool) (acc xr : Fin 8) (xm : Fin 4) (yr : Fin 8) (ym cr cm : Fin 4) (s : State) :
    Ans :=
  .next (macOp t false sat acc 2 [busX xr xm, busY yr ym, busC cr cm]
    (fun a e => a + prodQ (q15 (el e 0) + q15 (el e 1)) (q15 (el e 2))) s)
def execDmac2 (t : Fin 128) (sat : Bool) (acc xr : Fin 8) (xm : Fin 4) (yr : Fin 8) (ym : Fin 4) (s : State) : Ans :=
  .next (macOp t false sat acc 4 [busX xr xm, busY yr ym]
    (fun a e => a + prodQ (lo16 (el e 0)) (lo16 (el e 1)) + prodQ (hi16 (el e 0)) (hi16 (el e 1))) s)
def execSqa (t : Fin 128) (sat : Bool) (acc xr : Fin 8) (xm : Fin 4) (s : State) : Ans :=
  .next (macOp t true sat acc 2 [busX xr xm] (fun a e => a + prodQ (q15 (el e 0)) (q15 (el e 0))) s)

/-! ### OP 0x31: complex products (R120) -/

/-- The parts that x × y and x × conj(y) add. -/
def cprod (conj : Bool) (x y : Nat) : Int × Int :=
  let s : Int := if conj then -1 else 1
  (prodQ (lo16 x) (lo16 y) - s * prodQ (hi16 x) (hi16 y),
   s * prodQ (lo16 x) (hi16 y) + prodQ (hi16 x) (lo16 y))

/-- A complex instruction: an odd ACC is ILLEGAL; each part accumulates on its own. `keep` is 0 for CMPY, and the sign
of the product is `sg`. -/
def cmacOp (t : Nat) (inLegacy sat : Bool) (acc : Nat) (bs : List Bus) (keep sg : Int) (conj : Bool) (s : State) :
    State :=
  dspRun t inLegacy [acc, acc + 1] (fun s =>
    if acc % 2 = 1 then illegal t s
    else dspRead t 4 bs (fun es c =>
      let p := cprod conj (el es 0) (el es 1)
      let c' := c.accPut sat acc (keep * c.accVal acc + sg * p.1)
      c'.accPut sat (acc + 1) (keep * c.accVal (acc + 1) + sg * p.2)) s) s

def execCmpy (t : Fin 128) (sat : Bool) (acc xr : Fin 8) (xm : Fin 4) (yr : Fin 8) (ym : Fin 4) (s : State) : Ans :=
  .next (cmacOp t true sat acc [busX xr xm, busY yr ym] 0 1 false s)
def execCmac (t : Fin 128) (sat : Bool) (acc xr : Fin 8) (xm : Fin 4) (yr : Fin 8) (ym : Fin 4) (s : State) : Ans :=
  .next (cmacOp t true sat acc [busX xr xm, busY yr ym] 1 1 false s)
def execCmsu (t : Fin 128) (sat : Bool) (acc xr : Fin 8) (xm : Fin 4) (yr : Fin 8) (ym : Fin 4) (s : State) : Ans :=
  .next (cmacOp t true sat acc [busX xr xm, busY yr ym] 1 (-1) false s)
def execCmacj (t : Fin 128) (sat : Bool) (acc xr : Fin 8) (xm : Fin 4) (yr : Fin 8) (ym : Fin 4) (s : State) : Ans :=
  .next (cmacOp t true sat acc [busX xr xm, busY yr ym] 1 1 true s)
def execCmacc (t : Fin 128) (sat : Bool) (acc xr : Fin 8) (xm cr cm : Fin 4) (s : State) : Ans :=
  .next (cmacOp t false sat acc [busX xr xm, busC cr cm] 1 1 false s)
def execCmaccj (t : Fin 128) (sat : Bool) (acc xr : Fin 8) (xm cr cm : Fin 4) (s : State) : Ans :=
  .next (cmacOp t false sat acc [busX xr xm, busC cr cm] 1 1 true s)

/-! ### OP 0x32: stores -/

/-- Store through Y the bytes that `f` gives with the clamp flag. -/
def dspStore (t n : Nat) (b : Bus) (f : CoreRegs → List Byte × Bool) (s : State) : State :=
  busCheck t n [b] (fun s =>
    let c := s.core t
    let r := f c
    let a := busAddr t c b
    ownWrite t (r.1.zipIdx.map fun p => (a + p.2, p.1))
      (fun s => bumpDconf t 0 (s.modCore t fun c => { (c.post n [b]) with dsp := c.dsp.sat r.2 }.next 4)) s) s

/-- The stored halfword of an accumulator. -/
def storeHalf (c : CoreRegs) (sat : Bool) (acc : Nat) (sh : BitVec 4) : List Byte × Bool :=
  let r := roundAcc c.dsp sat (c.accVal acc) sh.toInt
  (leBytes 2 (wrap 16 r.1), r.2)

def execDst (t : Fin 128) (sat : Bool) (acc yr : Fin 8) (ym : Fin 4) (sh : BitVec 4) (s : State) : Ans :=
  .next (dspRun t true [acc] (dspStore t 2 (busY yr ym) fun c => storeHalf c sat acc sh) s)

def execDstc (t : Fin 128) (sat : Bool) (acc yr : Fin 8) (ym : Fin 4) (sh : BitVec 4) (s : State) : Ans :=
  .next (dspRun t true [acc, acc + 1] (fun s =>
    if acc.val % 2 = 1 then illegal t s
    else dspStore t 4 (busY yr ym) (fun c =>
      let a := storeHalf c sat acc sh
      let b := storeHalf c sat (acc + 1) sh
      (a.1 ++ b.1, a.2 || b.2)) s) s)

/-! ### OP 0x33: accumulator moves -/

/-- An instruction on accumulators and g registers alone. -/
def accOp (t : Nat) (accs : List Nat) (f : CoreRegs → CoreRegs) (s : State) : State :=
  dspRun t true accs (fun s => s.modCore t fun c => (f c).next 4) s

def execAclr (t : Fin 128) (ad : Fin 8) (s : State) : Ans := .next (accOp t [ad] (fun c => c.setA ad 0) s)
def execAmov (t : Fin 128) (ad aa : Fin 8) (s : State) : Ans :=
  .next (accOp t [ad.val, aa.val] (fun c => c.setA ad (c.ar aa)) s)
def execAadd (t : Fin 128) (sat : Bool) (ad aa : Fin 8) (s : State) : Ans :=
  .next (accOp t [ad.val, aa.val] (fun c => c.accPut sat ad (c.accVal ad + c.accVal aa)) s)
def execAsub (t : Fin 128) (sat : Bool) (ad aa : Fin 8) (s : State) : Ans :=
  .next (accOp t [ad.val, aa.val] (fun c => c.accPut sat ad (c.accVal ad - c.accVal aa)) s)

/-- ad := aa × 2^SH5. Where a right shift drops ones, an open value says which of the two nearest integers is taken
(notes/assumptions/24.md). -/
def execAshl (t : Fin 128) (sat : Bool) (ad aa : Fin 8) (sh : BitVec 5) (s : State) : Ans :=
  .next (dspRun t true [ad.val, aa.val] (fun s =>
    let v := (s.core t).accVal aa
    let k := sh.toInt
    if 0 ≤ k then s.modCore t fun c => (c.accPut sat ad (v * (2 ^ k.toNat : Nat))).next 4
    else
      let d : Int := (2 ^ (-k).toNat : Nat)
      let up : Int := if v % d ≠ 0 ∧ bit s.open 0 then 1 else 0
      (s.modCore t fun c => (c.accPut sat ad (v / d + up)).next 4).used) s)

def execAtog (t : Fin 128) (g : Fin 64) (aa : Fin 8) (s : State) : Ans :=
  .next (accOp t [aa] (fun c => c.setG g ((c.ar aa).setWidth 64)) s)
def execAtogh (t : Fin 128) (g : Fin 64) (aa : Fin 8) (s : State) : Ans :=
  .next (accOp t [aa] (fun c => c.setG g (BitVec.ofInt 64 (sfld (c.ar aa) 79 64))) s)
def execGtoa (t : Fin 128) (sat : Bool) (ad : Fin 8) (g : Fin 64) (s : State) : Ans :=
  .next (accOp t [ad] (fun c => c.accPut sat ad (c.gr g).toInt) s)

/-- ARND: an SH5 outside −8 to +7 counts as the nearer limit (notes/assumptions/154.md). -/
def execArnd (t : Fin 128) (sat : Bool) (aa : Fin 8) (g : Fin 64) (sh : BitVec 5) (s : State) : Ans :=
  .next (accOp t [aa] (fun c =>
    let r := roundAcc c.dsp sat (c.accVal aa) (max (-8) (min 7 sh.toInt))
    { c.setG g (BitVec.ofInt 64 r.1) with dsp := c.dsp.sat r.2 }) s)

/-- The redundant sign bits of an 80-bit value: how many bits below bit 79 repeat it. -/
def redundant (v : BitVec 80) : Nat := (if v.getLsbD 79 then lead0 (~~~ v) 80 else lead0 v 80) - 1

def execAnorm (t : Fin 128) (aa : Fin 8) (g : Fin 64) (s : State) : Ans :=
  .next (accOp t [aa] (fun c => c.setG g (BitVec.ofInt 64 ((redundant (c.ar aa) : Int) - 48))) s)

/-! ### OP 0x34: address registers -/

/-- AR numbers above 19 are ILLEGAL (R114). -/
def arOp (t : Nat) (ar : BitVec 5) (f : CoreRegs → CoreRegs) (s : State) : State :=
  dspRun t true [] (fun s =>
    if 19 < ar.toNat then illegal t s else s.modCore t fun c => (f c).next 4) s

def execAset (t : Fin 128) (ar : BitVec 5) (g : Fin 64) (s : State) : Ans :=
  .next (arOp t ar (fun c => c.setAddrReg ar.toNat ((c.gr g).setWidth 32)) s)

/-- AADDI post-modifies by IMM13 bytes (halfwords in legacy mode); an ILLEGAL register value is used (R111). -/
def execAaddi (t : Fin 128) (ar : BitVec 5) (imm : BitVec 13) (s : State) : Ans :=
  .next (dspRun t true [] (fun s =>
    let c := s.core t
    if 19 < ar.toNat || arIllegal c.dsp.legacy (c.addrReg ar.toNat) then illegal t s
    else s.modCore t fun c =>
      (c.setAddrReg ar.toNat (arMove c.dsp.legacy (c.addrReg ar.toNat) imm.toInt)).next 4) s)

def execAget (t : Fin 128) (ar : BitVec 5) (g : Fin 64) (s : State) : Ans :=
  .next (arOp t ar (fun c => c.setG g ((c.addrReg ar.toNat).setWidth 64)) s)

/-! ### OP 0x35: the hardware loop (R123, R125) -/

/-- Start a loop of `n` parcels that begins after DLOOP, or skip it. -/
def CoreRegs.startLoop (c : CoreRegs) (count n : Nat) : CoreRegs :=
  if count = 0 then { c with pc := c.pc + BitVec.ofNat 52 (4 + 4 * n) }
  else { c with
    pc := c.pc + 4
    dsp := { c.dsp with
      loopcnt := place 31 0 count
      loopst := place 63 63 1 ||| place 62 57 (n - 1) ||| place 51 0 (c.pc + 4).toNat } }

def execDloop (t : Fin 128) (a : Fin 64) (len : BitVec 6) (s : State) : Ans :=
  .next (runInstr t false (fun s => s.modTile t fun x => { x with
    loopFill := []
    core := x.core.startLoop (fld (x.core.gr a) 31 0) (len.toNat + 1) }) s)

/-! ### OP 0x36: add-compare-select (R131 to R134) -/

/-- K, NOUT and the generators of TBCTL. -/
def Dsp.k (d : Dsp) : Nat := fld d.tbctl 2 0
def Dsp.nout (d : Dsp) : Nat := fld d.tbctl 4 3
def Dsp.gen (d : Dsp) (i : Nat) : Nat := fld d.tbctl (14 + 8 * i) (8 + 8 * i)

/-- TBCTL defines no trellis that the unit runs (R122). -/
def Dsp.badTrellis (d : Dsp) : Bool :=
  d.k < 3 || !(d.nout == 2 || d.nout == 3) || (List.range d.nout).any fun i => decide (2 ^ d.k ≤ d.gen i)

/-- Run an instruction of the unit: legacy mode has none, and TBCTL must define a trellis. -/
def acsRun (t : Nat) (f : State → State) (s : State) : State :=
  dspRun t false [] (fun s => if (s.core t).dsp.badTrellis then illegal t s else f s) s

/-- The parity of a number of 7 bits. -/
def parity7 (x : Nat) : Nat := ones (BitVec.ofNat 7 x) 7 % 2

/-- The LLR of coded bit `i`: −128 counts as −127. -/
def llr (g : Word) (i : Nat) : Int := max (-127) (sfld g (8 * i + 7) (8 * i))

/-- The branch metric of a window. -/
def branchMetric (d : Dsp) (g : Word) (w : Nat) : Int :=
  ((List.range d.nout).map fun i => if parity7 (w &&& d.gen i) = 0 then llr g i else -(llr g i)).sum

/-- The new metric and the decision of state `st` (R132). -/
def acsState (d : Dsp) (v : BitVec 1024) (g : Word) (st : Nat) : Nat × Bool :=
  let half := 2 ^ (d.k - 1) / 2
  let u := st % 2
  let p0 := st / 2
  let p1 := p0 + half
  let cand := fun p => wrap 16 ((lane 1 v p : Int) + branchMetric d g (2 * p + u))
  let dec := decide (0 < signed 16 (wrap 16 ((cand p1 : Int) - cand p0)))
  (if dec then cand p1 else cand p0, dec)

def execAcs (t : Fin 128) (d a : Fin 32) (b : Fin 64) (s : State) : Ans :=
  .next (acsRun t (fun s =>
    let c := s.core t
    let r := (List.range (2 ^ (c.dsp.k - 1))).map (acsState c.dsp (c.vr a) (c.gr b))
    let dec := r.zipIdx.foldl (fun n p => if p.1.2 then n + 2 ^ p.2 else n) 0
    busCheck t 8 [busC 3 0] (fun s =>
      let a' := busAddr t c (busC 3 0)
      ownWrite t ((leBytes 8 dec).zipIdx.map fun p => (a' + p.2, p.1)) (fun s => bumpDconf t 0 (s.modCore t fun c =>
        ((c.setV d (BitVec.ofNat 1024 (ofLanes 16 (r.map (·.1))))).setAddrReg 19 (arMove false (c.addrReg 19) 8)).next 4))
        s) s) s)

/-- The state with the greatest metric relative to lane 0; the lowest wins a tie (R134). -/
def bestState (v : BitVec 1024) : Nat → Nat
  | 0 => 0
  | n + 1 =>
    let rel := fun i => signed 16 (wrap 16 ((lane 1 v i : Int) - lane 1 v 0))
    let b := bestState v n
    if rel b < rel n then n else b

def execBest (t : Fin 128) (d : Fin 64) (a : Fin 32) (s : State) : Ans :=
  .next (acsRun t (fun s => s.modCore t fun c =>
    (c.setG d (BitVec.ofNat 64 (bestState (c.vr a) (2 ^ (c.dsp.k - 1))))).next 4) s)

/-- The traceback over decision words, oldest step last: the state, and the bits collected with the newest step in bit
n − 1 (R134). -/
def traceback (k : Nat) : List Nat → Nat → Nat → Nat × Nat
  | [], st, out => (st, out)
  | w :: ws, st, out =>
    traceback k ws (st / 2 ||| w / 2 ^ st % 2 * 2 ^ (k - 2)) (out + st % 2 * 2 ^ ws.length)

/-- The `n` register values at which TBK reads, the first read first. -/
def tbkRegs (r : BitVec 32) : Nat → List (BitVec 32)
  | 0 => []
  | n + 1 => let r' := arMove false r (-8); r' :: tbkRegs r' n

def execTbk (t : Fin 128) (d a : Fin 64) (s : State) : Ans :=
  .next (acsRun t (fun s =>
    let c := s.core t
    let n := fld (c.gr a) 6 0
    let r := c.addrReg 19
    if n = 0 ∨ 64 < n ∨ arIllegal false r then illegal t s
    else
      let rs := tbkRegs r n
      let as := rs.map fun r => tileBase t + arOffset c.dsp r
      ownAccess t 8 as (ownRead t 8 as fun ds s =>
        let o := traceback c.dsp.k ds (fld c.dsp.tbst 5 0) 0
        bumpDconf t 0 (s.modCore t fun c =>
          { (c.setG d (BitVec.ofNat 64 o.2)).setAddrReg 19 (rs.getLastD r) with
            dsp := { c.dsp with tbst := place 5 0 o.1 } }.next 4)) s) s)

/-! ### OP 0x37: the special registers (R122) -/

def execDmfs (t : Fin 128) (g : Fin 64) (idx : BitVec 6) (s : State) : Ans :=
  .next (dspRun t true [] (fun s =>
    if 5 < idx.toNat then illegal t s
    else s.modCore t fun c => (c.setG g (match idx.toNat with
      | 0 => c.dsp.ctl
      | 1 => c.dsp.dconf
      | 2 => c.dsp.loopcnt
      | 3 => c.dsp.loopst
      | 4 => c.dsp.tbctl
      | _ => c.dsp.tbst)).next 4) s)

/-- Legacy mode truncates each accumulator to 48 bits (R129). -/
def CoreRegs.truncAcc (c : CoreRegs) : CoreRegs :=
  (List.range 8).foldl (fun c i => c.setA i (BitVec.ofInt 80 (signed 48 (c.ar i).toNat))) c

def execDmts (t : Fin 128) (g : Fin 64) (idx : BitVec 6) (s : State) : Ans :=
  .next (dspRun t true [] (fun s =>
    match idx.toNat with
    | 0 => s.modCore t fun c =>
        let c := { c with dsp := { c.dsp with ctl := dspCtlValue (c.gr g) } }
        (if c.dsp.legacy then c.truncAcc else c).next 4
    | 4 => s.modCore t fun c => { c with dsp := { c.dsp with tbctl := tbCtlValue (c.gr g) } }.next 4
    | 5 => s.modCore t fun c => { c with dsp := { c.dsp with tbst := place 5 0 (fld (c.gr g) 5 0) } }.next 4
    | _ => illegal t s) s)

end Sys2Proof.Machine
end

