-- ==== Sys2Proof/Machine/HostReq.lean ====
section
/-! DEFINITION. Requests from the host: the check of function and source, what the request reaches, and how a refused
or failed one is answered (14_host_link_and_mailboxes.md R435 to R438; 13_partitions_and_scheduling.md R426, R427,
R429). -/

namespace Sys2Proof.Machine

open Sys2Proof

/-- Why a host request is not performed (R436): the causes with a record of their own, the draining of its function,
and the rack fabric window. -/
inductive HostFail where
  | spoof | draining | window | mem (e : MemErr)
  deriving DecidableEq, Repr

/-- A function's request as the maker of accesses. -/
def whoFn (f : Nat) (s : State) : Who := ⟨5, f, s.fnPart f⟩

/-- The check of a request's function and source (R427, R429): a refusal counts as SPOOF and is recorded, but for a
draining function. -/
def hostCheck (f : Nat) (src : BitVec 16) (s : State) : Option HostFail × State :=
  if fnState f s = 2 then (some .draining, s)
  else if fnState f s = 1 && s.rf .PART_FN_SRC 15 0 f == src.toNat then (none, s)
  else (some .spoof, errRecord 0x023 (whoFn f s) src.toNat f ((s.count .PART_FN_CNT 63 48 f).flag .PART_ERR 2))

/-- The maker of a request's accesses to memory: in recovery PF0 has hamlet store 0 (R484); else the function's
partition, and none for a function that reaches no memory (R426). -/
def hostWho (f a len : Nat) (s : State) : Option Who :=
  if f = 0 ∧ inRecovery s ∧ hamletBase 0 ≤ a ∧ a + len ≤ hamletBase 1 then some ⟨5, f, none⟩
  else (s.fnPart f).map fun p => ⟨5, f, some p⟩

/-- An access error that is found before the access, with its record (R11, R13). -/
def hostErr (f : Nat) (e : MemErr) (a : Nat) (s : State) : HostFail × State :=
  (.mem e, memErrRecord e (whoFn f s) a 0 s)

/-- The error of a request by a function that binds no partition: it holds nothing (R401, R426). -/
def unheld (a len : Nat) (s : State) : MemErr :=
  match rangeCheck none a len s with
  | some e => e
  | none => .permission

/-- What a checked read reaches. -/
def hostReads (f : Fin 32) (a len : Nat) (s : State) : Except HostFail (List Byte) × State :=
  match spaceOf a with
  | .control off =>
    if len ≠ 8 ∨ a % 8 ≠ 0 then
      let r := hostErr f .access a s
      (.error r.1, r.2)
    else match controlRead (.host f) off s with
      | (some v, s) => (.ok (leBytes 8 v.toNat), s)
      | (none, s) => (.error (.mem .permission), s)
  | .fabric _ _ => (.error .window, s)
  | _ => match hostWho f a len s with
    | none =>
      let r := hostErr f (unheld a len s) a s
      (.error r.1, r.2)
    | some w => match devRead w a len 0 s with
      | (.ok d, s) => (.ok d, s)
      | (.error e, s) => (.error (.mem e), s)

/-- What a checked write reaches. -/
def hostWrites (f : Fin 32) (a : Nat) (data : List Byte) (s : State) : Option HostFail × State :=
  match spaceOf a with
  | .control off =>
    if data.length ≠ 8 ∨ a % 8 ≠ 0 then
      let r := hostErr f .access a s
      (some r.1, r.2)
    else match controlWrite (.host f) off (BitVec.ofNat 64 (leVal data)) s with
      | (true, s) => (none, s)
      | (false, s) => (some (.mem .permission), s)
  | .fabric _ _ => (some .window, s)
  | _ => match hostWho f a data.length s with
    | none =>
      let r := hostErr f (unheld a data.length s) a s
      (some r.1, r.2)
    | some w => match devWrite w a data 0 s with
      | (none, s) => (none, s)
      | (some e, s) => (some (.mem e), s)

/-- AUX of the HOST_REQ record of a failed write whose cause has no record of its own (R436). -/
def HostFail.aux : HostFail → Option Nat
  | .draining => some 2
  | .window => some 3
  | .mem .permission => some 1
  | _ => none

/-- A failed write: HL_ERR.REQ_FAIL, and exactly one record (R436). -/
def writeFails (f a : Nat) (e : HostFail) (s : State) : State :=
  let s := s.flag .HL_ERR 3
  match e.aux with
  | some x => errRecord 0x024 (whoFn f s) a x s
  | none => s

/-- A request of a length that R435 does not give, or one that comes while the link is down, is none (R434). -/
def hostRequest (len : Nat) (s : State) : Bool := decide (1 ≤ len ∧ len ≤ 512) && linkUp s

/-- A request that is performed is charged to its partition at the host link's stage (R423). -/
def hostCharge (f len : Nat) (s : State) : State :=
  match s.fnPart f with
  | some p => sluiceCharge 11 p len s
  | none => s

/-- A host read: the data, or an error completion (R435, R436). -/
def hostReadReq (f : Fin 32) (src : BitVec 16) (a len : Nat) (s : State) : State :=
  if !hostRequest len s then s
  else match hostCheck f src s with
    | (some _, s) => s.emit (.hostRead f none)
    | (none, s) => match hostReads f a len s with
      | (.ok d, s) => (hostCharge f len s).emit (.hostRead f (some d))
      | (.error _, s) => s.emit (.hostRead f none)

/-- A host write: performed, or failed (R435, R436). -/
def hostWriteReq (f : Fin 32) (src : BitVec 16) (a : Nat) (data : List Byte) (s : State) : State :=
  if !hostRequest data.length s then s
  else match hostCheck f src s with
    | (some e, s) => writeFails f a e s
    | (none, s) => match hostWrites f a data s with
      | (none, s) => hostCharge f data.length s
      | (some e, s) => writeFails f a e s

def execHostRead (f : Fin 32) (src : BitVec 16) (addr : Addr) (len : BitVec 10) (s : State) : Ans :=
  .next (hostReadReq f src addr.toNat len.toNat s)

def execHostWrite (f : Fin 32) (src : BitVec 16) (addr : Addr) (data : List Byte) (s : State) : Ans :=
  .next (hostWriteReq f src addr.toNat data s)

end Sys2Proof.Machine
end

