-- ==== Sys2Proof/Machine/LoadStore.lean ====
section
/-! DEFINITION. Scalar loads, stores and atomics of the control core (03_tile_isa.md R82, R87, R88, R102, R106;
12_rack_fabric.md R381, R384, R387 to R391). -/

namespace Sys2Proof.Machine

open Sys2Proof

/-! ### The data cache (R82) -/

/-- The data cache holds lines of the hamlet stores and of the unified range only. -/
def cacheable (a : Nat) : Bool :=
  match spaceOf a with
  | .unified _ => true
  | .hamlet _ _ => true
  | _ => false

/-- The line that holds an address, if tile `t`'s cache holds it. -/
def cacheLine (t a : Nat) (s : State) : Option (BitVec 512) :=
  ((s.tile t).dcache.find? fun l => l.1 == a / 64).map (·.2)

/-- `len` bytes of a line, from byte `o` on. -/
def lineBytes (l : BitVec 512) (o len : Nat) : List Byte :=
  (List.range len).map fun i => BitVec.ofNat 8 (l.toNat / 2 ^ (8 * (o + i)))

/-- The line of 64 bytes. -/
def lineOf (bs : List Byte) : BitVec 512 := BitVec.ofNat 512 (leVal bs)

/-- A load fills its line, unless a word of the line cannot be corrected. -/
def fillLine (t a : Nat) (s : State) : State :=
  let b := a / 64 * 64
  if (badWords b 64 s).isEmpty then
    let s := readCorrects s (wordsOf b 64)
    (s.modTile t fun x => { x with dcache := (a / 64, lineOf (bytesAt b 64 s)) :: evict 512 s.open x.dcache }).used
  else s

/-- A store updates a line that is present. -/
def updateLine (t a : Nat) (data : List Byte) (s : State) : State :=
  s.modTile t fun x => { x with
    dcache := x.dcache.map fun l => if l.1 = a / 64 then
        (l.1, lineOf ((lineBytes l.2 0 (a % 64)) ++ data ++ lineBytes l.2 (a % 64 + data.length) (64 - a % 64 - data.length)))
      else l }

/-- An atomic drops the line that it covers (R88). -/
def dropLine (t a : Nat) (s : State) : State :=
  s.modTile t fun x => { x with dcache := x.dcache.filter fun l => l.1 != a / 64 }

/-! ### Common parts -/

/-- The address lies in tile `t`'s own store. -/
def ownStore (t a : Nat) : Bool :=
  match spaceOf a with
  | .tile u _ => u == t
  | _ => false

/-- The partition that tile `t` acts for. -/
def tilePart (t : Nat) (s : State) : Nat := (s.core t).part.toNat

/-- The effective address ga + IMM14: bits 63:52 of the sum are dropped (R87; notes/assumptions/149.md). -/
def dataAddr (c : CoreRegs) (a : Nat) (imm : BitVec 14) : Nat := ((c.gr a + imm14 imm).setWidth 52).toNat

/-- What a load of `n` bytes leaves in gd: sign- or zero-extended. -/
def extend (n : Nat) (sx : Bool) (data : List Byte) : Word :=
  let x := leVal (data.take n)
  if sx then BitVec.ofInt 64 (signed (8 * n) x) else BitVec.ofNat 64 x

/-- A load ends: gd is written and the core goes on. -/
def loadEnds (t d n : Nat) (sx : Bool) (data : List Byte) (s : State) : State :=
  s.modCore t fun c => (c.setG d (extend n sx data)).next 4

/-- An access through the window that the own node serves ends with an error status (R381, R388). -/
def localFault (t st a : Nat) (s : State) : State :=
  let cause := statusCause st
  takeException t cause a (remoteRecord cause a (whoTile s t) s)

/-! ### Loads -/

/-- A load from a store or the unified range: from the cache where it holds the line, else from memory. -/
def loadMem (t d n : Nat) (sx : Bool) (a : Nat) (s : State) : State :=
  let w := whoTile s t
  match rangeCheck w.part a n s, (if cacheable a then cacheLine t a s else none) with
  | none, some l => loadEnds t d n sx (lineBytes l (a % 64) n) s
  | _, _ => match readMem w a n causeMemUncorr s with
    | .wait s => s
    | .err e s => dataFault t e a s
    | .ok data s =>
      if cacheable a then loadEnds t d n sx data (fillLine t a s)
      else
        if ownStore t a then
          loadEnds t d n sx (coreBytes t a n s) (usedIfBusy t ((List.range n).map (a + ·)) s)
        else loadEnds t d n sx data s

/-- A load from the rack fabric window (R384, R388): the core waits for the response of another node. -/
def loadWindow (t : Nat) (d : Fin 64) (n : Nat) (sx : Bool) (a : Nat) (s : State) : State :=
  let p := some (tilePart t s)
  match windowUse p a s with
  | .error e => dataRefuse t e a s
  | .ok (nd, x) =>
    if nd = ownNode s then
      match targetRead 0 nd (keyOf p s) x n s with
      | (.ok data, s) => loadEnds t d n sx data s
      | (.error st, s) => localFault t st a s
    else
      let r := remRead nd x n (.load t) p s
      r.2.modCore t fun c => { c with wait := .remoteLoad d n sx r.1 }

/-- A load of `n` bytes from any range (R87). -/
def load (t : Fin 128) (d a : Fin 64) (imm : BitVec 14) (n : Nat) (sx : Bool) (s : State) : State :=
  runInstr t true (fun s =>
    let ad := dataAddr (s.core t) a imm
    if ad % n ≠ 0 then takeException t causeDataAlign ad s
    else match spaceOf ad with
      | .control off =>
        if n ≠ 8 then dataRefuse t .access ad s
        else match controlRead (.tile t) off s with
          | (some v, s) => s.modCore t fun c => (c.setG d v).next 4
          | (none, s) => dataRefuse t .permission ad s
      | .fabric _ _ => loadWindow t d n sx ad s
      | _ => loadMem t d n sx ad s) s

/-! ### Stores -/

/-- A store to a store or the unified range (R82, R106). -/
def storeMem (t a : Nat) (data : List Byte) (s : State) : State :=
  let own := ownStore t a
  let as := data.zipIdx.map fun b => a + b.2
  let bs := if own then (coreCells t (as.zip data) s).map (·.2) else data
  match writeMem (whoTile s t) a bs causeMemUncorr s with
  | .wait s => s
  | .err e s => dataFault t e a s
  | .ok _ s => goNext t (updateLine t a data (if own then usedIfBusy t as s else s))

/-- A store of the low `n` bytes of gd to any range (R87); to the window it is posted (R387). -/
def store (t : Fin 128) (d a : Fin 64) (imm : BitVec 14) (n : Nat) (s : State) : State :=
  runInstr t true (fun s =>
    let c := s.core t
    let ad := dataAddr c a imm
    let data := leBytes n (c.gr d).toNat
    if ad % n ≠ 0 then takeException t causeDataAlign ad s
    else match spaceOf ad with
      | .control off =>
        if n ≠ 8 then dataRefuse t .access ad s
        else match controlWrite (.tile t) off (c.gr d) s with
          | (true, s) => goNext t s
          | (false, s) => dataRefuse t .permission ad s
      | .fabric _ _ => match windowStore (some (tilePart t s)) ad data (.tile t) s with
        | (none, s) => goNext t s
        | (some e, s) => dataRefuse t e ad s
      | _ => storeMem t ad data s) s

/-! ### Atomics (R88) -/

/-- An atomic on a page that moves is held at the Granary, after the checks of its access (R241). -/
def holdAtomic (t : Nat) (d : Fin 64) (op a : Nat) (b cmp : Word) (s : State) : State :=
  let w := whoTile s t
  match tierGate w a 8 s with
  | some (.wait s) => s
  | some (.ok _ s) => s
  | some (.err e s) => dataFault t e a (memErrRecord e w a causeMemUncorr s)
  | none => match badWords a 8 s with
    | x :: _ => dataFault t .uncorr a (memErrRecord .uncorr w (x * 32) causeMemUncorr (countUncorr a s))
    | [] =>
      let s := holdItem (a / 65536) (.atomic op a b cmp t d) (tierCharge w a 8 (dirtyLog a s))
      s.modCore t fun c => { c with wait := .heldAtomic }

/-- An atomic on a store or the unified range. -/
def atomicMem (t : Nat) (d : Fin 64) (op a : Nat) (b cmp : Word) (s : State) : State :=
  let w := whoTile s t
  let moving := match spaceOf a with | .unified n => (s.page n).moving | _ => false
  if moving && (rangeCheck w.part a 8 s).isNone then holdAtomic t d op a b cmp (dropLine t a s)
  else match readMem w a 8 causeMemUncorr s with
    | .wait s => s
    | .err e s => dataFault t e a s
    | .ok data s =>
      let as := (List.range 8).map (a + ·)
      let own := ownStore t a
      let old := BitVec.ofNat 64 (leVal (if own then coreBytes t a 8 s else data))
      let new := leBytes 8 (amoValue op old b cmp).toNat
      let new := if own then (coreCells t (as.zip new) s).map (·.2) else new
      let s := if own then usedIfBusy t as s else s
      (dropLine t a (storeBytes a new (dirtyLog a s))).modCore t fun c => (c.setG d old).next 4

/-- An atomic through the window (R383, R389): the core waits for the response of another node. -/
def atomicWindow (t : Fin 128) (d : Fin 64) (op a : Nat) (b cmp : Word) (s : State) : State :=
  let p := some (tilePart t s)
  match windowUse p a s with
  | .error e => dataRefuse t e a s
  | .ok (nd, x) =>
    if nd = ownNode s then
      match targetAtomic 0 nd (keyOf p s) x op b cmp s with
      | (0, old, s) => s.modCore t fun c => (c.setG d old).next 4
      | (st, _, s) => localFault t st a s
    else if !s.syncOk then s
    else
      let r := remAtomic nd x op b cmp t p s
      r.2.modCore t fun c => { c with wait := .remoteAtomic d r.1 }

/-- Atomic operation `op` of R88. -/
def atomic (t : Fin 128) (d a b : Fin 64) (op : Nat) (s : State) : State :=
  runInstr t false (fun s =>
    let c := s.core t
    let ad := ((c.gr a).setWidth 52).toNat
    if ad % 8 ≠ 0 then takeException t causeDataAlign ad s
    else match spaceOf ad with
      | .control _ => dataRefuse t .access ad s
      | .fabric _ _ => atomicWindow t d op ad (c.gr b) (c.gr d) s
      | _ => atomicMem t d op ad (c.gr b) (c.gr d) s) s

/-! ### The commands -/

def execLd8s (t : Fin 128) (d a : Fin 64) (imm : BitVec 14) (s : State) : Ans := .next (load t d a imm 1 true s)
def execLd8u (t : Fin 128) (d a : Fin 64) (imm : BitVec 14) (s : State) : Ans := .next (load t d a imm 1 false s)
def execLd16s (t : Fin 128) (d a : Fin 64) (imm : BitVec 14) (s : State) : Ans := .next (load t d a imm 2 true s)
def execLd16u (t : Fin 128) (d a : Fin 64) (imm : BitVec 14) (s : State) : Ans := .next (load t d a imm 2 false s)
def execLd32s (t : Fin 128) (d a : Fin 64) (imm : BitVec 14) (s : State) : Ans := .next (load t d a imm 4 true s)
def execLd32u (t : Fin 128) (d a : Fin 64) (imm : BitVec 14) (s : State) : Ans := .next (load t d a imm 4 false s)
def execLd64 (t : Fin 128) (d a : Fin 64) (imm : BitVec 14) (s : State) : Ans := .next (load t d a imm 8 false s)
def execSt8 (t : Fin 128) (d a : Fin 64) (imm : BitVec 14) (s : State) : Ans := .next (store t d a imm 1 s)
def execSt16 (t : Fin 128) (d a : Fin 64) (imm : BitVec 14) (s : State) : Ans := .next (store t d a imm 2 s)
def execSt32 (t : Fin 128) (d a : Fin 64) (imm : BitVec 14) (s : State) : Ans := .next (store t d a imm 4 s)
def execSt64 (t : Fin 128) (d a : Fin 64) (imm : BitVec 14) (s : State) : Ans := .next (store t d a imm 8 s)
def execAmoadd (t : Fin 128) (d a b : Fin 64) (s : State) : Ans := .next (atomic t d a b 0 s)
def execAmoand (t : Fin 128) (d a b : Fin 64) (s : State) : Ans := .next (atomic t d a b 1 s)
def execAmoor (t : Fin 128) (d a b : Fin 64) (s : State) : Ans := .next (atomic t d a b 2 s)
def execAmoxor (t : Fin 128) (d a b : Fin 64) (s : State) : Ans := .next (atomic t d a b 3 s)
def execAmomin (t : Fin 128) (d a b : Fin 64) (s : State) : Ans := .next (atomic t d a b 4 s)
def execAmomax (t : Fin 128) (d a b : Fin 64) (s : State) : Ans := .next (atomic t d a b 5 s)
def execAmoswap (t : Fin 128) (d a b : Fin 64) (s : State) : Ans := .next (atomic t d a b 6 s)
def execAmocas (t : Fin 128) (d a b : Fin 64) (s : State) : Ans := .next (atomic t d a b 7 s)

end Sys2Proof.Machine
end

