-- ==== Sys2Proof/Machine/Dispatch.lean ====
section
/-! DEFINITION. Which meaning each command has: one arm for each constructor. -/

namespace Sys2Proof.Machine

open Sys2Proof

def exec (i : Instr) (s : State) : Host.Outcome State Fault Refusal :=
  match i with
  | .registerWrite ag off v => Sys2Proof.Machine.execRegisterWrite ag off v s
  | .tbSnap v => Sys2Proof.Machine.execTbSnap v s
  | .tbRateWrite v => Sys2Proof.Machine.execTbRateWrite v s
  | .tbAdjWrite v => Sys2Proof.Machine.execTbAdjWrite v s
  | .slewEnd => Sys2Proof.Machine.execSlewEnd s
  | .tbSlewMaxWrite v => Sys2Proof.Machine.execTbSlewMaxWrite v s
  | .tbStepGo v => Sys2Proof.Machine.execTbStepGo v s
  | .stepApply => Sys2Proof.Machine.execStepApply s
  | .freerun guard => Sys2Proof.Machine.execFreerun guard s
  | .acquire guard => Sys2Proof.Machine.execAcquire guard s
  | .holdover guard => Sys2Proof.Machine.execHoldover guard s
  | .holdTimeout => Sys2Proof.Machine.execHoldTimeout s
  | .fsrcLoss => Sys2Proof.Machine.execFsrcLoss s
  | .fsrcRelock => Sys2Proof.Machine.execFsrcRelock s
  | .ppsOutEdge => Sys2Proof.Machine.execPpsOutEdge s
  | .ppsInEdge => Sys2Proof.Machine.execPpsInEdge s
  | .tbPortTsLoRead port => Sys2Proof.Machine.execTbPortTsLoRead port s
  | .tbPortTsStatRead port => Sys2Proof.Machine.execTbPortTsStatRead port s
  | .arm h n v => Sys2Proof.Machine.execArm h n v s
  | .disarm h n v => Sys2Proof.Machine.execDisarm h n v s
  | .bellFire h n => Sys2Proof.Machine.execBellFire h n s
  | .wake => Sys2Proof.Machine.execWake s
  | .launch => Sys2Proof.Machine.execLaunch s
  | .gangStart => Sys2Proof.Machine.execGangStart s
  | .dmaStart => Sys2Proof.Machine.execDmaStart s
  | .fhTxOpen => Sys2Proof.Machine.execFhTxOpen s
  | .fhRxOpen => Sys2Proof.Machine.execFhRxOpen s
  | .doorbell => Sys2Proof.Machine.execDoorbell s
  | .event => Sys2Proof.Machine.execEvent s
  | .collPhase => Sys2Proof.Machine.execCollPhase s
  | .configActivate => Sys2Proof.Machine.execConfigActivate s
  | .bellStatRead ag h => Sys2Proof.Machine.execBellStatRead ag h s
  | .add t d a b => Sys2Proof.Machine.execAdd t d a b s
  | .sub t d a b => Sys2Proof.Machine.execSub t d a b s
  | .and t d a b => Sys2Proof.Machine.execAnd t d a b s
  | .or t d a b => Sys2Proof.Machine.execOr t d a b s
  | .xor t d a b => Sys2Proof.Machine.execXor t d a b s
  | .shl t d a b => Sys2Proof.Machine.execShl t d a b s
  | .shr t d a b => Sys2Proof.Machine.execShr t d a b s
  | .sra t d a b => Sys2Proof.Machine.execSra t d a b s
  | .slt t d a b => Sys2Proof.Machine.execSlt t d a b s
  | .sltu t d a b => Sys2Proof.Machine.execSltu t d a b s
  | .min t d a b => Sys2Proof.Machine.execMin t d a b s
  | .max t d a b => Sys2Proof.Machine.execMax t d a b s
  | .minu t d a b => Sys2Proof.Machine.execMinu t d a b s
  | .maxu t d a b => Sys2Proof.Machine.execMaxu t d a b s
  | .mul t d a b => Sys2Proof.Machine.execMul t d a b s
  | .mulh t d a b => Sys2Proof.Machine.execMulh t d a b s
  | .mulhu t d a b => Sys2Proof.Machine.execMulhu t d a b s
  | .div t d a b => Sys2Proof.Machine.execDiv t d a b s
  | .divu t d a b => Sys2Proof.Machine.execDivu t d a b s
  | .rem t d a b => Sys2Proof.Machine.execRem t d a b s
  | .remu t d a b => Sys2Proof.Machine.execRemu t d a b s
  | .popc t d a => Sys2Proof.Machine.execPopc t d a s
  | .clz t d a => Sys2Proof.Machine.execClz t d a s
  | .ctz t d a => Sys2Proof.Machine.execCtz t d a s
  | .addi t d a imm => Sys2Proof.Machine.execAddi t d a imm s
  | .andi t d a imm => Sys2Proof.Machine.execAndi t d a imm s
  | .ori t d a imm => Sys2Proof.Machine.execOri t d a imm s
  | .xori t d a imm => Sys2Proof.Machine.execXori t d a imm s
  | .shli t d a imm => Sys2Proof.Machine.execShli t d a imm s
  | .shri t d a imm => Sys2Proof.Machine.execShri t d a imm s
  | .srai t d a imm => Sys2Proof.Machine.execSrai t d a imm s
  | .slti t d a imm => Sys2Proof.Machine.execSlti t d a imm s
  | .sltiu t d a imm => Sys2Proof.Machine.execSltiu t d a imm s
  | .lui t d imm => Sys2Proof.Machine.execLui t d imm s
  | .beq t a b off => Sys2Proof.Machine.execBeq t a b off s
  | .bne t a b off => Sys2Proof.Machine.execBne t a b off s
  | .blt t a b off => Sys2Proof.Machine.execBlt t a b off s
  | .bge t a b off => Sys2Proof.Machine.execBge t a b off s
  | .bltu t a b off => Sys2Proof.Machine.execBltu t a b off s
  | .bgeu t a b off => Sys2Proof.Machine.execBgeu t a b off s
  | .j t off => Sys2Proof.Machine.execJ t off s
  | .jal t off => Sys2Proof.Machine.execJal t off s
  | .jalr t d a imm => Sys2Proof.Machine.execJalr t d a imm s
  | .ld8s t d a imm => Sys2Proof.Machine.execLd8s t d a imm s
  | .ld8u t d a imm => Sys2Proof.Machine.execLd8u t d a imm s
  | .ld16s t d a imm => Sys2Proof.Machine.execLd16s t d a imm s
  | .ld16u t d a imm => Sys2Proof.Machine.execLd16u t d a imm s
  | .ld32s t d a imm => Sys2Proof.Machine.execLd32s t d a imm s
  | .ld32u t d a imm => Sys2Proof.Machine.execLd32u t d a imm s
  | .ld64 t d a imm => Sys2Proof.Machine.execLd64 t d a imm s
  | .st8 t d a imm => Sys2Proof.Machine.execSt8 t d a imm s
  | .st16 t d a imm => Sys2Proof.Machine.execSt16 t d a imm s
  | .st32 t d a imm => Sys2Proof.Machine.execSt32 t d a imm s
  | .st64 t d a imm => Sys2Proof.Machine.execSt64 t d a imm s
  | .amoadd t d a b => Sys2Proof.Machine.execAmoadd t d a b s
  | .amoand t d a b => Sys2Proof.Machine.execAmoand t d a b s
  | .amoor t d a b => Sys2Proof.Machine.execAmoor t d a b s
  | .amoxor t d a b => Sys2Proof.Machine.execAmoxor t d a b s
  | .amomin t d a b => Sys2Proof.Machine.execAmomin t d a b s
  | .amomax t d a b => Sys2Proof.Machine.execAmomax t d a b s
  | .amoswap t d a b => Sys2Proof.Machine.execAmoswap t d a b s
  | .amocas t d a b => Sys2Proof.Machine.execAmocas t d a b s
  | .vadd t d a b pg sz => Sys2Proof.Machine.execVadd t d a b pg sz s
  | .vsub t d a b pg sz => Sys2Proof.Machine.execVsub t d a b pg sz s
  | .vadds t d a b pg sz => Sys2Proof.Machine.execVadds t d a b pg sz s
  | .vsubs t d a b pg sz => Sys2Proof.Machine.execVsubs t d a b pg sz s
  | .vmul t d a b pg sz => Sys2Proof.Machine.execVmul t d a b pg sz s
  | .vmulh t d a b pg sz => Sys2Proof.Machine.execVmulh t d a b pg sz s
  | .vmin t d a b pg sz => Sys2Proof.Machine.execVmin t d a b pg sz s
  | .vmax t d a b pg sz => Sys2Proof.Machine.execVmax t d a b pg sz s
  | .vand t d a b pg sz => Sys2Proof.Machine.execVand t d a b pg sz s
  | .vor t d a b pg sz => Sys2Proof.Machine.execVor t d a b pg sz s
  | .vxor t d a b pg sz => Sys2Proof.Machine.execVxor t d a b pg sz s
  | .vshl t d a b pg sz => Sys2Proof.Machine.execVshl t d a b pg sz s
  | .vshr t d a b pg sz => Sys2Proof.Machine.execVshr t d a b pg sz s
  | .vsra t d a b pg sz => Sys2Proof.Machine.execVsra t d a b pg sz s
  | .vsel t d a b pg sz => Sys2Proof.Machine.execVsel t d a b pg sz s
  | .vperm t d a b pg sz => Sys2Proof.Machine.execVperm t d a b pg sz s
  | .vredadd t d a pg sz => Sys2Proof.Machine.execVredadd t d a pg sz s
  | .vredmax t d a pg sz => Sys2Proof.Machine.execVredmax t d a pg sz s
  | .vfadd t d a b pg sz => Sys2Proof.Machine.execVfadd t d a b pg sz s
  | .vfsub t d a b pg sz => Sys2Proof.Machine.execVfsub t d a b pg sz s
  | .vfmul t d a b pg sz => Sys2Proof.Machine.execVfmul t d a b pg sz s
  | .vfma t d a b pg sz => Sys2Proof.Machine.execVfma t d a b pg sz s
  | .vfmin t d a b pg sz => Sys2Proof.Machine.execVfmin t d a b pg sz s
  | .vfmax t d a b pg sz => Sys2Proof.Machine.execVfmax t d a b pg sz s
  | .vcvti t d a pg sz => Sys2Proof.Machine.execVcvti t d a pg sz s
  | .vcvtf t d a pg sz => Sys2Proof.Machine.execVcvtf t d a pg sz s
  | .vcvtw t d a pg sz => Sys2Proof.Machine.execVcvtw t d a pg sz s
  | .vcvtn t d a pg sz => Sys2Proof.Machine.execVcvtn t d a pg sz s
  | .vcmpeq t d a b pg sz => Sys2Proof.Machine.execVcmpeq t d a b pg sz s
  | .vcmplt t d a b pg sz => Sys2Proof.Machine.execVcmplt t d a b pg sz s
  | .vcmpltu t d a b pg sz => Sys2Proof.Machine.execVcmpltu t d a b pg sz s
  | .vfcmplt t d a b pg sz => Sys2Proof.Machine.execVfcmplt t d a b pg sz s
  | .pand t d a b => Sys2Proof.Machine.execPand t d a b s
  | .por t d a b => Sys2Proof.Machine.execPor t d a b s
  | .pxor t d a b => Sys2Proof.Machine.execPxor t d a b s
  | .pnot t d a => Sys2Proof.Machine.execPnot t d a s
  | .pall t d => Sys2Proof.Machine.execPall t d s
  | .pnone t d => Sys2Proof.Machine.execPnone t d s
  | .vbcast t d a sz => Sys2Proof.Machine.execVbcast t d a sz s
  | .vext t d a b sz => Sys2Proof.Machine.execVext t d a b sz s
  | .vins t d a b sz => Sys2Proof.Machine.execVins t d a b sz s
  | .vgather t d a b sz => Sys2Proof.Machine.execVgather t d a b sz s
  | .vscatter t d a b sz => Sys2Proof.Machine.execVscatter t d a b sz s
  | .pany t d a => Sys2Proof.Machine.execPany t d a s
  | .pcnt t d a => Sys2Proof.Machine.execPcnt t d a s
  | .pfromg t d a b => Sys2Proof.Machine.execPfromg t d a b s
  | .vld t d a pg imm => Sys2Proof.Machine.execVld t d a pg imm s
  | .vst t d a pg imm => Sys2Proof.Machine.execVst t d a pg imm s
  | .mldw t ga gb arr ope tag k n wb wf => Sys2Proof.Machine.execMldw t ga gb arr ope tag k n wb wf s
  | .mstr t ga gb arr ope tag acc m af out gs => Sys2Proof.Machine.execMstr t ga gb arr ope tag acc m af out gs s
  | .liw t d z imm => Sys2Proof.Machine.execLiw t d z imm s
  | .fence t => Sys2Proof.Machine.execFence t s
  | .fenceComplete t => Sys2Proof.Machine.execFenceComplete t s
  | .fencef t => Sys2Proof.Machine.execFencef t s
  | .fencefComplete t => Sys2Proof.Machine.execFencefComplete t s
  | .cinv t a b => Sys2Proof.Machine.execCinv t a b s
  | .cinva t => Sys2Proof.Machine.execCinva t s
  | .iinv t => Sys2Proof.Machine.execIinv t s
  | .rdt t d => Sys2Proof.Machine.execRdt t d s
  | .rdts t d => Sys2Proof.Machine.execRdts t d s
  | .waitt t d a => Sys2Proof.Machine.execWaitt t d a s
  | .waittResume t => Sys2Proof.Machine.execWaittResume t s
  | .waite t d a => Sys2Proof.Machine.execWaite t d a s
  | .waiteReturn t => Sys2Proof.Machine.execWaiteReturn t s
  | .armb t d a b => Sys2Proof.Machine.execArmb t d a b s
  | .disb t d a => Sys2Proof.Machine.execDisb t d a s
  | .mwait t d a => Sys2Proof.Machine.execMwait t d a s
  | .mwaitReturn t => Sys2Proof.Machine.execMwaitReturn t s
  | .mtest t d a => Sys2Proof.Machine.execMtest t d a s
  | .kend t a => Sys2Proof.Machine.execKend t a s
  | .tileKernelEnd t => Sys2Proof.Machine.execTileKernelEnd t s
  | .brk t => Sys2Proof.Machine.execBrk t s
  | .eret t => Sys2Proof.Machine.execEret t s
  | .mfs t d idx => Sys2Proof.Machine.execMfs t d idx s
  | .mts t d idx => Sys2Proof.Machine.execMts t d idx s
  | .illegalOpcode t w0 w1 => Sys2Proof.Machine.execIllegalOpcode t w0 w1 s
  | .contextSaveDone t => Sys2Proof.Machine.execContextSaveDone t s
  | .stop t c => Sys2Proof.Machine.execStop t c s
  | .tileTevtSet ag t v => Sys2Proof.Machine.execTileTevtSet ag t v s
  | .tileReset t v => Sys2Proof.Machine.execTileReset t v s
  | .tileCntCorrRead t => Sys2Proof.Machine.execTileCntCorrRead t s
  | .mpy t sat acc xr xm yr ym => Sys2Proof.Machine.execMpy t sat acc xr xm yr ym s
  | .mac t sat acc xr xm yr ym => Sys2Proof.Machine.execMac t sat acc xr xm yr ym s
  | .msu t sat acc xr xm yr ym => Sys2Proof.Machine.execMsu t sat acc xr xm yr ym s
  | .macc t sat acc xr xm cr cm => Sys2Proof.Machine.execMacc t sat acc xr xm cr cm s
  | .pmac t sat acc xr xm yr ym cr cm => Sys2Proof.Machine.execPmac t sat acc xr xm yr ym cr cm s
  | .dmac2 t sat acc xr xm yr ym => Sys2Proof.Machine.execDmac2 t sat acc xr xm yr ym s
  | .sqa t sat acc xr xm => Sys2Proof.Machine.execSqa t sat acc xr xm s
  | .cmpy t sat acc xr xm yr ym => Sys2Proof.Machine.execCmpy t sat acc xr xm yr ym s
  | .cmac t sat acc xr xm yr ym => Sys2Proof.Machine.execCmac t sat acc xr xm yr ym s
  | .cmsu t sat acc xr xm yr ym => Sys2Proof.Machine.execCmsu t sat acc xr xm yr ym s
  | .cmacj t sat acc xr xm yr ym => Sys2Proof.Machine.execCmacj t sat acc xr xm yr ym s
  | .cmacc t sat acc xr xm cr cm => Sys2Proof.Machine.execCmacc t sat acc xr xm cr cm s
  | .cmaccj t sat acc xr xm cr cm => Sys2Proof.Machine.execCmaccj t sat acc xr xm cr cm s
  | .dst t sat acc yr ym sh => Sys2Proof.Machine.execDst t sat acc yr ym sh s
  | .dstc t sat acc yr ym sh => Sys2Proof.Machine.execDstc t sat acc yr ym sh s
  | .aclr t ad => Sys2Proof.Machine.execAclr t ad s
  | .amov t ad aa => Sys2Proof.Machine.execAmov t ad aa s
  | .aadd t sat ad aa => Sys2Proof.Machine.execAadd t sat ad aa s
  | .asub t sat ad aa => Sys2Proof.Machine.execAsub t sat ad aa s
  | .ashl t sat ad aa sh => Sys2Proof.Machine.execAshl t sat ad aa sh s
  | .atog t g aa => Sys2Proof.Machine.execAtog t g aa s
  | .atogh t g aa => Sys2Proof.Machine.execAtogh t g aa s
  | .gtoa t sat ad g => Sys2Proof.Machine.execGtoa t sat ad g s
  | .arnd t sat aa g sh => Sys2Proof.Machine.execArnd t sat aa g sh s
  | .anorm t aa g => Sys2Proof.Machine.execAnorm t aa g s
  | .aset t ar g => Sys2Proof.Machine.execAset t ar g s
  | .aaddi t ar imm => Sys2Proof.Machine.execAaddi t ar imm s
  | .aget t ar g => Sys2Proof.Machine.execAget t ar g s
  | .dloop t a len => Sys2Proof.Machine.execDloop t a len s
  | .loopEnd t => Sys2Proof.Machine.execLoopEnd t s
  | .acs t d a b => Sys2Proof.Machine.execAcs t d a b s
  | .best t d a => Sys2Proof.Machine.execBest t d a s
  | .tbk t d a => Sys2Proof.Machine.execTbk t d a s
  | .dmfs t g idx => Sys2Proof.Machine.execDmfs t g idx s
  | .dmts t g idx => Sys2Proof.Machine.execDmts t g idx s
  | .matrixOperationStart t u => Sys2Proof.Machine.execMatrixOperationStart t u s
  | .matrixOperationComplete t u str fault => Sys2Proof.Machine.execMatrixOperationComplete t u str fault s
  | .keepEnd t u => Sys2Proof.Machine.execKeepEnd t u s
  | .rampUpEnd t u => Sys2Proof.Machine.execRampUpEnd t u s
  | .rampDownEnd t u => Sys2Proof.Machine.execRampDownEnd t u s
  | .gangOperationStart t u => Sys2Proof.Machine.execGangOperationStart t u s
  | .gangComplete t => Sys2Proof.Machine.execGangComplete t s
  | .restoreDone t bad => Sys2Proof.Machine.execRestoreDone t bad s
  | .tileArrErrClear t u v => Sys2Proof.Machine.execTileArrErrClear t u v s
  | .tileArrCntRead t u => Sys2Proof.Machine.execTileArrCntRead t u s
  | .fhPortEnable p v => Sys2Proof.Machine.execFhPortEnable p v s
  | .fhLinkUp p => Sys2Proof.Machine.execFhLinkUp p s
  | .fhLinkDown p => Sys2Proof.Machine.execFhLinkDown p s
  | .fhFrameReceive p size fcsOk tags pause dst hdr => Sys2Proof.Machine.execFhFrameReceive p size fcsOk tags pause dst hdr s
  | .uplaneSectionRx p sec => Sys2Proof.Machine.execUplaneSectionRx p sec s
  | .tdMessageRx p eaxc hdr samples => Sys2Proof.Machine.execTdMessageRx p eaxc hdr samples s
  | .delayRequestRx p action mid => Sys2Proof.Machine.execDelayRequestRx p action mid s
  | .delayFollowUpRx p mid => Sys2Proof.Machine.execDelayFollowUpRx p mid s
  | .delayFollowUpTimeout p mid => Sys2Proof.Machine.execDelayFollowUpTimeout p mid s
  | .ptpEventRx p msg seq domain => Sys2Proof.Machine.execPtpEventRx p msg seq domain s
  | .fhTxPost ag p v => Sys2Proof.Machine.execFhTxPost ag p v s
  | .decide p w => Sys2Proof.Machine.execDecide p w s
  | .windowClose p w => Sys2Proof.Machine.execWindowClose p w s
  | .fhFrameSend p ptp => Sys2Proof.Machine.execFhFrameSend p ptp s
  | .freeze ag v => Sys2Proof.Machine.execFreeze ag v s
  | .agcRelease ag v => Sys2Proof.Machine.execAgcRelease ag v s
  | .freezeHoldExpire => Sys2Proof.Machine.execFreezeHoldExpire s
  | .fhCntPostRead p => Sys2Proof.Machine.execFhCntPostRead p s
  | .fhCntRxRead p => Sys2Proof.Machine.execFhCntRxRead p s
  | .fhCntTxRead p => Sys2Proof.Machine.execFhCntTxRead p s
  | .codSqTailWrite ag k r v => Sys2Proof.Machine.execCodSqTailWrite ag k r v s
  | .codCqHeadWrite ag k r v => Sys2Proof.Machine.execCodCqHeadWrite ag k r v s
  | .codRingEnable k r v => Sys2Proof.Machine.execCodRingEnable k r v s
  | .codDescriptorTake k => Sys2Proof.Machine.execCodDescriptorTake k s
  | .ldpcDecode k => Sys2Proof.Machine.execLdpcDecode k s
  | .ldpcEncode k => Sys2Proof.Machine.execLdpcEncode k s
  | .turboDecode k => Sys2Proof.Machine.execTurboDecode k s
  | .turboEncode k => Sys2Proof.Machine.execTurboEncode k s
  | .polarDecode k => Sys2Proof.Machine.execPolarDecode k s
  | .polarEncode k => Sys2Proof.Machine.execPolarEncode k s
  | .codeBlockStart k pool => Sys2Proof.Machine.execCodeBlockStart k pool s
  | .codeBlockEnd k job block => Sys2Proof.Machine.execCodeBlockEnd k job block s
  | .jobDeadline k job => Sys2Proof.Machine.execJobDeadline k job s
  | .harqCombine k => Sys2Proof.Machine.execHarqCombine k s
  | .codCntRead k => Sys2Proof.Machine.execCodCntRead k s
  | .codCntErrRead k => Sys2Proof.Machine.execCodCntErrRead k s
  | .codCntHwaitRead k => Sys2Proof.Machine.execCodCntHwaitRead k s
  | .raise ag piles cnt rsv page => Sys2Proof.Machine.execRaise ag piles cnt rsv page s
  | .release ag piles cnt rsv page => Sys2Proof.Machine.execRelease ag piles cnt rsv page s
  | .lower ag piles cnt rsv page => Sys2Proof.Machine.execLower ag piles cnt rsv page s
  | .pin ag piles cnt rsv page => Sys2Proof.Machine.execPin ag piles cnt rsv page s
  | .unpin ag piles cnt rsv page => Sys2Proof.Machine.execUnpin ag piles cnt rsv page s
  | .granaryTurn => Sys2Proof.Machine.execGranaryTurn s
  | .moveSwitch riser => Sys2Proof.Machine.execMoveSwitch riser s
  | .grnPQuotaWrite p v => Sys2Proof.Machine.execGrnPQuotaWrite p v s
  | .reclaimTurn p => Sys2Proof.Machine.execReclaimTurn p s
  | .grnPPfEnable p v => Sys2Proof.Machine.execGrnPPfEnable p v s
  | .grnPPfCurWrite ag p v => Sys2Proof.Machine.execGrnPPfCurWrite ag p v s
  | .pfWalkEntry p => Sys2Proof.Machine.execPfWalkEntry p s
  | .grnQuery ag p v => Sys2Proof.Machine.execGrnQuery ag p v s
  | .scrubRead => Sys2Proof.Machine.execScrubRead s
  | .t2LinkAlignLoss link => Sys2Proof.Machine.execT2LinkAlignLoss link s
  | .t2AccessTimeout link => Sys2Proof.Machine.execT2AccessTimeout link s
  | .grnCntEccRead => Sys2Proof.Machine.execGrnCntEccRead s
  | .grnCntMoveRead => Sys2Proof.Machine.execGrnCntMoveRead s
  | .grnPCntRead ag p => Sys2Proof.Machine.execGrnPCntRead ag p s
  | .grnPCnt2Read ag p => Sys2Proof.Machine.execGrnPCnt2Read ag p s
  | .seSqTailWrite ag k r v => Sys2Proof.Machine.execSeSqTailWrite ag k r v s
  | .seCqHeadWrite ag k r v => Sys2Proof.Machine.execSeCqHeadWrite ag k r v s
  | .seRingEnable k r v => Sys2Proof.Machine.execSeRingEnable k r v s
  | .seDescriptorTake k => Sys2Proof.Machine.execSeDescriptorTake k s
  | .gather k => Sys2Proof.Machine.execGather k s
  | .scatter k => Sys2Proof.Machine.execScatter k s
  | .selectEc k => Sys2Proof.Machine.execSelectEc k s
  | .selectTc k => Sys2Proof.Machine.execSelectTc k s
  | .repscat k => Sys2Proof.Machine.execRepscat k s
  | .pad k => Sys2Proof.Machine.execPad k s
  | .combine k => Sys2Proof.Machine.execCombine k s
  | .dequant k => Sys2Proof.Machine.execDequant k s
  | .kvAppend k => Sys2Proof.Machine.execKvAppend k s
  | .seUnit k => Sys2Proof.Machine.execSeUnit k s
  | .seCommandComplete k cmd => Sys2Proof.Machine.execSeCommandComplete k cmd s
  | .seCntRead k => Sys2Proof.Machine.execSeCntRead k s
  | .seCntErrRead k => Sys2Proof.Machine.execSeCntErrRead k s
  | .homePost ag h v => Sys2Proof.Machine.execHomePost ag h v s
  | .recvPost ag h v => Sys2Proof.Machine.execRecvPost ag h v s
  | .dispatchArrival h set src => Sys2Proof.Machine.execDispatchArrival h set src s
  | .rxNsExpiry h slot => Sys2Proof.Machine.execRxNsExpiry h slot s
  | .drvRetPost ag h v => Sys2Proof.Machine.execDrvRetPost ag h v s
  | .returnArrival h set src => Sys2Proof.Machine.execReturnArrival h set src s
  | .drvShPost ag h v => Sys2Proof.Machine.execDrvShPost ag h v s
  | .finNsExpiry h slot => Sys2Proof.Machine.execFinNsExpiry h slot s
  | .drvCancel ag h v => Sys2Proof.Machine.execDrvCancel ag h v s
  | .drvCqHeadWrite ag h v => Sys2Proof.Machine.execDrvCqHeadWrite ag h v s
  | .drvCqEnable h v => Sys2Proof.Machine.execDrvCqEnable h v s
  | .drvAlarmClear ag h v => Sys2Proof.Machine.execDrvAlarmClear ag h v s
  | .drvCntSelRead h => Sys2Proof.Machine.execDrvCntSelRead h s
  | .drvCntRxRead h => Sys2Proof.Machine.execDrvCntRxRead h s
  | .glnCntRead h => Sys2Proof.Machine.execGlnCntRead h s
  | .glnCnt2Read h => Sys2Proof.Machine.execGlnCnt2Read h s
  | .fabCpGo ag p v => Sys2Proof.Machine.execFabCpGo ag p v s
  | .put p => Sys2Proof.Machine.execPut p s
  | .reduce p fault => Sys2Proof.Machine.execReduce p fault s
  | .areduce p fault => Sys2Proof.Machine.execAreduce p fault s
  | .wait p => Sys2Proof.Machine.execWait p s
  | .signal p => Sys2Proof.Machine.execSignal p s
  | .a2a p => Sys2Proof.Machine.execA2a p s
  | .commit p => Sys2Proof.Machine.execCommit p s
  | .collDataRx port e h m fault => Sys2Proof.Machine.execCollDataRx port e h m fault s
  | .reportRx port e h p epoch member => Sys2Proof.Machine.execReportRx port e h p epoch member s
  | .decisionRx port e h p epoch => Sys2Proof.Machine.execDecisionRx port e h p epoch s
  | .abortRx port e h p epoch src cause => Sys2Proof.Machine.execAbortRx port e h p epoch src cause s
  | .creditRx port e h p epoch dir set rank => Sys2Proof.Machine.execCreditRx port e h p epoch dir set rank s
  | .a2aAckRx port e h p epoch dir hamlet set rank => Sys2Proof.Machine.execA2aAckRx port e h p epoch dir hamlet set rank s
  | .fabCpAbort ag p v => Sys2Proof.Machine.execFabCpAbort ag p v s
  | .decisionTimeout p => Sys2Proof.Machine.execDecisionTimeout p s
  | .failedTimeout p => Sys2Proof.Machine.execFailedTimeout p s
  | .a2aCreditTimeout p => Sys2Proof.Machine.execA2aCreditTimeout p s
  | .fabCpEnable p v => Sys2Proof.Machine.execFabCpEnable p v s
  | .fabCpDisable p v => Sys2Proof.Machine.execFabCpDisable p v s
  | .fabCpCntRead p => Sys2Proof.Machine.execFabCpCntRead p s
  | .write port e h data => Sys2Proof.Machine.execWrite port e h data s
  | .read port e h => Sys2Proof.Machine.execRead port e h s
  | .readRsp port e h data => Sys2Proof.Machine.execReadRsp port e h data s
  | .atomic port e h operand compare req => Sys2Proof.Machine.execAtomic port e h operand compare req s
  | .atomicRsp port e h old req => Sys2Proof.Machine.execAtomicRsp port e h old req s
  | .ack port e h => Sys2Proof.Machine.execAck port e h s
  | .nak port e h => Sys2Proof.Machine.execNak port e h s
  | .pathFail port e h p0 p1 p2 => Sys2Proof.Machine.execPathFail port e h p0 p1 p2 s
  | .packetForward port e pkt => Sys2Proof.Machine.execPacketForward port e pkt s
  | .packetSend port => Sys2Proof.Machine.execPacketSend port s
  | .ackSend node => Sys2Proof.Machine.execAckSend node s
  | .retransmitTimeout node => Sys2Proof.Machine.execRetransmitTimeout node s
  | .replyCacheExpire => Sys2Proof.Machine.execReplyCacheExpire s
  | .atomicRetry req => Sys2Proof.Machine.execAtomicRetry req s
  | .atomicTimeout req => Sys2Proof.Machine.execAtomicTimeout req s
  | .writeLostTimeout node => Sys2Proof.Machine.execWriteLostTimeout node s
  | .loadTimeout id => Sys2Proof.Machine.execLoadTimeout id s
  | .fabPathUpd v => Sys2Proof.Machine.execFabPathUpd v s
  | .portTrained port peer peerPort => Sys2Proof.Machine.execPortTrained port peer peerPort s
  | .portDown port => Sys2Proof.Machine.execPortDown port s
  | .portErrorInterval port => Sys2Proof.Machine.execPortErrorInterval port s
  | .portRetrain port => Sys2Proof.Machine.execPortRetrain port s
  | .sampleTick => Sys2Proof.Machine.execSampleTick s
  | .fabSmpEnable v => Sys2Proof.Machine.execFabSmpEnable v s
  | .fabRcStatRead => Sys2Proof.Machine.execFabRcStatRead s
  | .fabCntRead => Sys2Proof.Machine.execFabCntRead s
  | .fabCnt2Read => Sys2Proof.Machine.execFabCnt2Read s
  | .fabPortCntRead port => Sys2Proof.Machine.execFabPortCntRead port s
  | .fabSmpCfgRead => Sys2Proof.Machine.execFabSmpCfgRead s
  | .cxLqTailWrite ag c v => Sys2Proof.Machine.execCxLqTailWrite ag c v s
  | .cxCqHeadWrite ag c v => Sys2Proof.Machine.execCxCqHeadWrite ag c v s
  | .schedulerDispatch => Sys2Proof.Machine.execSchedulerDispatch s
  | .swapOutDone c => Sys2Proof.Machine.execSwapOutDone c s
  | .swapInDone c => Sys2Proof.Machine.execSwapInDone c s
  | .launchDeadline id => Sys2Proof.Machine.execLaunchDeadline id s
  | .resumeTimeout t dest => Sys2Proof.Machine.execResumeTimeout t dest s
  | .partDmaGo ag c v => Sys2Proof.Machine.execPartDmaGo ag c v s
  | .dmaTransferStart c => Sys2Proof.Machine.execDmaTransferStart c s
  | .dmaComplete c => Sys2Proof.Machine.execDmaComplete c s
  | .sluiceWindow => Sys2Proof.Machine.execSluiceWindow s
  | .fnDisable f v => Sys2Proof.Machine.execFnDisable f v s
  | .drainEnd f => Sys2Proof.Machine.execDrainEnd f s
  | .fnEnable f v => Sys2Proof.Machine.execFnEnable f v s
  | .partitionStop p => Sys2Proof.Machine.execPartitionStop p s
  | .partitionResume p => Sys2Proof.Machine.execPartitionResume p s
  | .partPTileWrite p hi v => Sys2Proof.Machine.execPartPTileWrite p hi v s
  | .partPCtlWrite p v => Sys2Proof.Machine.execPartPCtlWrite p v s
  | .cxCtlWrite c v => Sys2Proof.Machine.execCxCtlWrite c v s
  | .partPCntRead ag p => Sys2Proof.Machine.execPartPCntRead ag p s
  | .sluPHeldRead ag p => Sys2Proof.Machine.execSluPHeldRead ag p s
  | .partFnCntRead f => Sys2Proof.Machine.execPartFnCntRead f s
  | .hostRead f src addr len => Sys2Proof.Machine.execHostRead f src addr len s
  | .hostWrite f src addr data => Sys2Proof.Machine.execHostWrite f src addr data s
  | .hostReadCompletion id data => Sys2Proof.Machine.execHostReadCompletion id data s
  | .hostReadTimeout id => Sys2Proof.Machine.execHostReadTimeout id s
  | .hlRetrain v => Sys2Proof.Machine.execHlRetrain v s
  | .hlLinkUp gen width => Sys2Proof.Machine.execHlLinkUp gen width s
  | .hlLinkDown => Sys2Proof.Machine.execHlLinkDown s
  | .hlTrainRetry => Sys2Proof.Machine.execHlTrainRetry s
  | .functionLevelReset f => Sys2Proof.Machine.execFunctionLevelReset f s
  | .mbxSend ag m v => Sys2Proof.Machine.execMbxSend ag m v s
  | .mbxAck ag m v => Sys2Proof.Machine.execMbxAck ag m v s
  | .mbxReady ag m v => Sys2Proof.Machine.execMbxReady ag m v s
  | .mbxDbSet ag m v => Sys2Proof.Machine.execMbxDbSet ag m v s
  | .mbxDbClear ag m v => Sys2Proof.Machine.execMbxDbClear ag m v s
  | .mbxDbMaskWrite ag m v => Sys2Proof.Machine.execMbxDbMaskWrite ag m v s
  | .mbxCfgWrite m v => Sys2Proof.Machine.execMbxCfgWrite m v s
  | .hlCntRead ag => Sys2Proof.Machine.execHlCntRead ag s
  | .mbxCntRead ag m => Sys2Proof.Machine.execMbxCntRead ag m s
  | .pwrDomReqWrite v => Sys2Proof.Machine.execPwrDomReqWrite v s
  | .dormantEntry d => Sys2Proof.Machine.execDormantEntry d s
  | .domainReady d => Sys2Proof.Machine.execDomainReady d s
  | .domainReset v => Sys2Proof.Machine.execDomainReset v s
  | .deviceReset => Sys2Proof.Machine.execDeviceReset s
  | .stewardRestart => Sys2Proof.Machine.execStewardRestart s
  | .cardReset => Sys2Proof.Machine.execCardReset s
  | .powerOn => Sys2Proof.Machine.execPowerOn s
  | .brownOut => Sys2Proof.Machine.execBrownOut s
  | .govWindow est => Sys2Proof.Machine.execGovWindow est s
  | .thermSample dies optics => Sys2Proof.Machine.execThermSample dies optics s
  | .thermalReductionStep => Sys2Proof.Machine.execThermalReductionStep s
  | .thermtrip => Sys2Proof.Machine.execThermtrip s
  | .pmbusPoll rails => Sys2Proof.Machine.execPmbusPoll rails s
  | .pwrCntRead => Sys2Proof.Machine.execPwrCntRead s
  | .stage v => Sys2Proof.Machine.execStage v s
  | .loadComplete => Sys2Proof.Machine.execLoadComplete s
  | .discard => Sys2Proof.Machine.execDiscard s
  | .rollback => Sys2Proof.Machine.execRollback s
  | .rollbackTakeEffect => Sys2Proof.Machine.execRollbackTakeEffect s
  | .tileReloadDone t => Sys2Proof.Machine.execTileReloadDone t s
  | .updateRequest => Sys2Proof.Machine.execUpdateRequest s
  | .fwBegin => Sys2Proof.Machine.execFwBegin s
  | .written media => Sys2Proof.Machine.execWritten media s
  | .activate => Sys2Proof.Machine.execActivate s
  | .confirm refused => Sys2Proof.Machine.execConfirm refused s
  | .abandon => Sys2Proof.Machine.execAbandon s
  | .recoveryDownload media => Sys2Proof.Machine.execRecoveryDownload media s
  | .watchdogExpire => Sys2Proof.Machine.execWatchdogExpire s
  | .watchdogReload v => Sys2Proof.Machine.execWatchdogReload v s
  | .measExtend v => Sys2Proof.Machine.execMeasExtend v s
  | .errRecClear n ev => Sys2Proof.Machine.execErrRecClear n ev s
  | .errLostRead ag => Sys2Proof.Machine.execErrLostRead ag s
  | .scoreWindow => Sys2Proof.Machine.execScoreWindow s
  | .rmWindow => Sys2Proof.Machine.execRmWindow s
  | .budgetExpiry => Sys2Proof.Machine.execBudgetExpiry s
  | .shadowStepTimeout d => Sys2Proof.Machine.execShadowStepTimeout d s
  | .errRmDevWrite d v => Sys2Proof.Machine.execErrRmDevWrite d v s
  | .tier2LinkRetrainDone link => Sys2Proof.Machine.execTier2LinkRetrainDone link s
  | .readReissue id => Sys2Proof.Machine.execReadReissue id s
  | .ppsOutPulseEnd => Sys2Proof.Machine.execPpsOutPulseEnd s

end Sys2Proof.Machine
end

