-- ==== Sys2Proof/Machine/Step.lean ====
section
/-! DEFINITION. One step of the device: the command at the front of the queue takes its effect; with no command
waiting, the bells that are due fire and one 125 MHz reference tick passes (02_timebase_and_bells.md R19, R66;
notes/assumptions/1.md). -/

namespace Sys2Proof.Machine

open Sys2Proof

/-- One step: the front command with the rest of the queue, or a reference tick. -/
def step (s : State) : Host.Outcome State Fault Refusal :=
  match s.pending with
  | [] => .next (deviceTick s)
  | c :: cs => exec c { s with pending := cs }

/-- `s` with the command that a word spells put at the front of its queue: no word spells one (Decode.lean). -/
def State.withFetchWord (s : State) (nbits w : Nat) : State :=
  match decodeTableWord nbits w with
  | some c => { s with pending := c :: s.pending }
  | none => s

end Sys2Proof.Machine
end

