-- ==== Sys2Proof/Safety.lean ====
section
/-! DEFINITION. The terms in which claims about the device are made: the canonical form of its memory and registers,
what one command may do to the whole device, and when a tile runs the instruction that it is given. -/

namespace Sys2Proof.Machine

open Sys2Proof

/-- Memory is in its canonical form: addresses rise strictly, and no entry equals what an unlisted byte reads as. -/
abbrev State.MemWf (s : State) : Prop := Tab.wf (memDefault s.freeMem) s.mem = true

/-- The register file is in its canonical form. -/
abbrev State.RegsWf (s : State) : Prop := Tab.wf resetAt s.regs = true

/-- Both are. -/
def State.Canonical (s : State) : Prop := s.MemWf ∧ s.RegsWf

/-- What every command keeps, from the state `o` in which it starts to the state `s` that it has reached: the queue is
not touched, open values are never used twice, what has left the device is never taken back, and the canonical forms
stand. -/
structure Since (o s : State) : Prop where
  queue : s.pending = o.pending
  free  : o.free ≤ s.free
  wire  : o.wire <:+ s.wire
  mem   : o.MemWf → s.MemWf
  regs  : o.RegsWf → s.RegsWf

/-- Tile `t` may fetch the parcel at `a`, and its instruction cache holds it (03_tile_isa.md R82, R102): the target is
aligned, and its range is assigned, executable and held. -/
abbrev Cached (t a : Nat) (s : State) : Prop :=
  a % 4 = 0 ∧ fetchHeld t a s = true ∧ (s.tile t).icache.contains (a / 64) = true

/-- Tile `t` runs the instruction at its pc, and no hardware loop is active (03_tile_isa.md R102; 04_dsp_datapath.md
R123): it is enabled, awake, running and not waiting, and its fetch meets no cause and no miss. -/
def Runs (t : Nat) (s : State) : Prop :=
  ready t s = true ∧ Cached t (s.core t).pc.toNat s ∧ (s.core t).dsp.active = false

/-- The same for a long form: both its parcels are there (03_tile_isa.md R77). -/
def RunsLong (t : Nat) (s : State) : Prop := Runs t s ∧ Cached t ((s.core t).pc.toNat + 4) s

/-- Tile `t` may access the `n` bytes at `a`, in a store or in the unified range, and the access goes on at once: the
partition holds them (13_partitions_and_scheduling.md R401), the tier-2 link and the Sluice stage serve them
(08_memory_tiers.md R267; 13_partitions_and_scheduling.md R424), their page is in no move (R241), the words of their
64-byte line hold no error (R264), and no array operation is at work on them (03_tile_isa.md R106). -/
structure Reaches (t a n : Nat) (s : State) : Prop where
  held  : rangeCheck (some (s.core t).part.toNat) a n s = none
  gate  : tierGate (whoTile s t) a n s = none
  still : ∀ p, spaceOf a = .unified p → (s.page p).moving = false ∧ s.moveOf p = none
  clean : s.eccAt (a / 64 * 2) = .clean ∧ s.eccAt (a / 64 * 2 + 1) = .clean
  idle  : ∀ i < n, arrayBusy t (a + i) s = false

/-- `s` with the core of tile `t` put to `c`, and nothing else changed. -/
abbrev State.withCore (s : State) (t : Nat) (c : CoreRegs) : State := s.modCore t fun _ => c

end Sys2Proof.Machine
end

