-- ==== Sys2Proof/Certificates/Slice0/Obligations.lean ====
section
/-! DEFINITION. The statements for the provers. Each formalises a rule of the spec, or is derived from the sections that
it cites (OBLIGATIONS.json says which); a statement about a result is also the statement that the command completes. -/

open Sys2Proof Sys2Proof.Machine

/-- A step takes the command at the front of the queue and runs it with the queue's rest (the model's convention for a
block, notes/assumptions/1.md). -/
def Obligations.StepRunsFrontCommand : Prop :=
  ∀ (s : State) (c : Instr) (cs : List Instr), s.pending = c :: cs → step s = exec c { s with pending := cs }

/-- No bell is due (R66). -/
def NoneDue (s : State) : Prop := ∀ h < 9, ∀ n < 64, s.rb .BELL_CTL 2 h n = true → s.now < (s.reg .BELL_TIME h n).toNat

/-- Nothing but the timebase has anything to do on the next reference tick: no bell is due, no gain command waits (R186), no
stop and no drain is under way (R429, R430). -/
def Calm (s : State) : Prop :=
  NoneDue s ∧ s.fh.cmds = [] ∧
  (∀ p < 16, s.rf .PART_P_CTL 1 0 p ≠ 1) ∧ ∀ f < 32, s.rf .PART_FN_STAT 1 0 f ≠ 3

/-- With no command waiting, a step is one reference tick (R19; that this is what an idle step does is the model's choice,
notes/assumptions/1.md). -/
def Obligations.EmptyQueueLetsOneReferenceTickPass : Prop :=
  ∀ s : State, s.pending = [] →
    ∃ t, step s = .next t ∧ t.pending = [] ∧ t.tb.ticks = s.tb.ticks + 1 ∧ t.mem = s.mem ∧ t.tiles = s.tiles ∧
      (s.tb.rem = 0 → s.tb.stepGo = false → t.tb.now = s.tb.now + 8 * 2 ^ 37 + s.tb.eff) ∧
      (s.now < 2 ^ 63 → ∀ h < 9, ∀ n < 64, t.rb .BELL_CTL 2 h n = true → s.now < (t.reg .BELL_TIME h n).toNat)

/-- No command stops the model; none touches the queue, uses an open value twice, takes back what has left the device, or
breaks the canonical form of memory or of the register file. -/
def Obligations.EveryCommandCompletesAndKeepsTheQueue : Prop :=
  ∀ (c : Instr) (s : State), ∃ t, exec c s = .next t ∧ t.pending = s.pending ∧ s.free ≤ t.free ∧ s.wire <:+ t.wire ∧
    (s.MemWf → t.MemWf) ∧ (s.RegsWf → t.RegsWf)

/-- An invariant that every step keeps, whatever command is in front: memory and the register file stay canonical, so equal
contents are equal data. -/
def Obligations.EveryStepKeepsTheCanonicalForms : Prop :=
  ∀ s t : State, s.Canonical → step s = .next t → t.Canonical

/-- What reset leaves where the spec gives a value (R236; R18; the Reset columns of the register tables). -/
def ResetDocumented : Prop :=
  (∀ n : Nat, State.reset.page n =
    ⟨if n < 6291456 then .resident else .lower, if n < 6291456 then n % 8 else 0, none, false, 0, 0⟩) ∧
  State.reset.now = 0 ∧ State.reset.tb.lock = .freerun ∧
  (∀ t : Nat, (State.reset.tile t).run = .idle ∧ (State.reset.core t).modeM = false) ∧
  State.reset.reg .DEV_ID = 0x475600070001 ∧
  State.reset.rb .TB_CTL 8 = true ∧ State.reset.rf .TB_SLEW_MAX 27 0 = 10995116 ∧
  State.reset.rf .TB_LOCK_CFG 63 48 = 2000 ∧ State.reset.rf .TB_LOCK_CFG 47 40 = 16 ∧
  State.reset.rf .TB_LOCK_CFG 39 20 = 1000 ∧ State.reset.rf .TB_LOCK_CFG 19 0 = 100 ∧
  State.reset.rf .GRN_CTL 4 0 = 16 ∧ State.reset.rf .GRN_BW 15 0 = 200 ∧
  (∀ p : Fin 16, State.reset.rf .GRN_P_QUOTA 22 0 p = 6291456) ∧
  State.reset.rf .PART_CTL 47 32 = 100 ∧ State.reset.rf .PART_CTL 31 16 = 50 ∧
  State.reset.rf .PART_LEND_OFS 21 16 = 48 ∧
  State.reset.rf .PWR_IDLE 31 0 = 1000 ∧ State.reset.rf .PWR_LIMIT 10 0 = 1300 ∧
  State.reset.rf .ERR_RV_STAT 25 16 = 1023

/-- The invariant holds at reset. -/
def Obligations.ResetIsCanonicalAndAsDocumented : Prop :=
  ResetDocumented ∧
  State.reset.Canonical ∧ State.reset.pending = [] ∧ State.reset.wire = []

/-- The queue is worked off first in, first out: n steps run exactly the first n commands, and none of them stops. -/
def Obligations.QueuedCommandsAreWorkedOffInOrder : Prop :=
  ∀ (s : State) (n : Nat), n ≤ s.pending.length →
    ∃ t, Host.Core.run Sys2Proof.core n s = .next t ∧ t.pending = s.pending.drop n ∧ s.free ≤ t.free ∧
      s.wire <:+ t.wire ∧ (s.Canonical → t.Canonical)

/-- The access types of R15 and R16 as a write shows them, the empty offsets of R14, a write refused for want of
permission, and the unaligned access of R13. -/
def Obligations.RegisterWritesFollowTheAccessTypes : Prop :=
  (∀ (i : Fin 16) (v : Word) (s : State), s.dormant 49 = false →
    exec (.registerWrite .steward (0x11000#40 + 0x100#40 * BitVec.ofNat 40 i) v) s =
      .next (s.setReg .TB_PORT_INLAT ((s.reg .TB_PORT_INLAT i &&& 0xFFFFFFFF00000000) ||| (v &&& 0xFFFFFFFF)) i)) ∧
  (∀ (v : Word) (s : State), s.dormant 49 = false →
    exec (.registerWrite .steward 0x10078#40 v) s = .next (s.setReg .TB_EVT (s.reg .TB_EVT &&& ~~~ (v &&& 0x3FF)))) ∧
  (∀ (v : Word) (s : State), s.dormant 49 = false → ∃ t, exec (.registerWrite .steward 0x10090#40 v) s = .next t ∧
    (∀ r i j, t.reg r i j = s.reg r i j) ∧ { t with regs := s.regs } = s) ∧
  (∀ (ag : Agent) (off : BitVec 40) (v : Word) (s : State), off.toNat % 8 = 0 → locate off.toNat = none →
    exec (.registerWrite ag off v) s = .next s) ∧
  (∀ (ag : Agent) (off : BitVec 40) (v : Word) (s : State) (r : RegName) (i j : Nat), off.toNat % 8 = 0 →
    locate off.toNat = some (r, i, j) → mayPut ag r i j s = false →
    exec (.registerWrite ag off v) s = .next { s with wire := .status 0x08 :: s.wire }) ∧
  (∀ (ag : Agent) (off : BitVec 40) (v : Word) (s : State), off.toNat % 8 ≠ 0 →
    ∃ t, exec (.registerWrite ag off v) s = .next t ∧ t.wire.head? = some (.status 0x07))

/-- Command `c` is a read of instance (`i`, `j`) of register `r`: the value goes to the reader, without write-only fields,
RC fields clear, and nothing else changes (00_scope.md R16). -/
def ReadsAndClears (c : Instr) (r : RegName) (i j : Nat) : Prop :=
  ∀ s : State, exec c s = .next
    { s.setReg r (s.reg r i j &&& ~~~ accessMask (· == .rc) r.desc.fields) i j with
      wire := .readData (addrOf r i j) (s.reg r i j &&& accessMask (· != .wo) r.desc.fields) :: s.wire }

/-- The reads of the counting registers: RC returns the current value, then clears the field. -/
def Obligations.CountReadsReturnTheCountAndClearIt : Prop :=
  (∀ t : Fin 128, ReadsAndClears (.tileCntCorrRead t) .TILE_CNT_CORR t 0) ∧
  (∀ (t : Fin 128) (u : Fin 5), ReadsAndClears (.tileArrCntRead t u) .TILE_ARR_CNT t u) ∧
  (∀ p : Fin 16, ReadsAndClears (.fhCntPostRead p) .FH_CNT_POST p 0) ∧
  (∀ p : Fin 16, ReadsAndClears (.fhCntRxRead p) .FH_CNT_RX p 0) ∧
  (∀ p : Fin 16, ReadsAndClears (.fhCntTxRead p) .FH_CNT_TX p 0) ∧
  (∀ k : Fin 2, ReadsAndClears (.codCntRead k) .COD_CNT k 0) ∧
  (∀ k : Fin 2, ReadsAndClears (.codCntErrRead k) .COD_CNT_ERR k 0) ∧
  (∀ k : Fin 2, ReadsAndClears (.codCntHwaitRead k) .COD_CNT_HWAIT k 0) ∧
  ReadsAndClears .grnCntEccRead .GRN_CNT_ECC 0 0 ∧ ReadsAndClears .grnCntMoveRead .GRN_CNT_MOVE 0 0 ∧
  (∀ k : Fin 8, ReadsAndClears (.seCntRead k) .SE_CNT k 0) ∧
  (∀ k : Fin 8, ReadsAndClears (.seCntErrRead k) .SE_CNT_ERR k 0) ∧
  (∀ h : Fin 8, ReadsAndClears (.drvCntSelRead h) .DRV_CNT_SEL h 0) ∧
  (∀ h : Fin 8, ReadsAndClears (.drvCntRxRead h) .DRV_CNT_RX h 0) ∧
  (∀ h : Fin 8, ReadsAndClears (.glnCntRead h) .GLN_CNT h 0) ∧
  (∀ h : Fin 8, ReadsAndClears (.glnCnt2Read h) .GLN_CNT2 h 0) ∧
  (∀ p : Fin 32, ReadsAndClears (.fabCpCntRead p) .FAB_CP_CNT p 0) ∧
  ReadsAndClears .fabCntRead .FAB_CNT 0 0 ∧ ReadsAndClears .fabCnt2Read .FAB_CNT2 0 0 ∧
  (∀ p : Fin 36, ReadsAndClears (.fabPortCntRead p) .FAB_PORT_CNT p 0) ∧
  ReadsAndClears .fabSmpCfgRead .FAB_SMP_CFG 0 0 ∧
  (∀ f : Fin 32, ReadsAndClears (.partFnCntRead f) .PART_FN_CNT f 0) ∧
  ReadsAndClears .pwrCntRead .PWR_CNT 0 0 ∧
  (∀ s : State, exec .fabRcStatRead s = .next { s.putReg .FAB_RC_STAT 44 32 s.fab.cache.length with
    wire := .readData (addrOf .FAB_RC_STAT 0 0) (s.reg .FAB_RC_STAT) :: s.wire })

/-- Reads that an agent makes: its own counts are returned and cleared, any other read gives PERMISSION. -/
def Obligations.AgentReadsNeedPermission : Prop :=
  ∀ (ag : Agent) (s : State),
    let no : Ans := .next { s with wire := .status 0x08 :: s.wire }
    (∀ p : Fin 16,
      let own := ag = .steward ∨ ag ≠ .steward ∧ s.agentPart ag = some p.val
      exec (.grnPCntRead ag p) s = (if own then .next (s.readPlain .GRN_P_CNT p) else no) ∧
      exec (.grnPCnt2Read ag p) s = (if own then .next (s.readPlain .GRN_P_CNT2 p) else no) ∧
      exec (.partPCntRead ag p) s = (if own then .next (s.readPlain .PART_P_CNT p) else no) ∧
      exec (.sluPHeldRead ag p) s = (if own then .next (s.readPlain .SLU_P_HELD p) else no)) ∧
    exec (.hlCntRead ag) s = (if ag = .steward ∨ ag = .host 0 then .next (s.readPlain .HL_CNT) else no) ∧
    exec (.errLostRead ag) s = (if ag = .steward ∨ ag = .host 0 then .next (s.readPlain .ERR_LOST) else no) ∧
    (∀ m : Fin 256, exec (.mbxCntRead ag m) s =
      (if ag = .steward ∨ mbxReceives ag m s = true then .next (s.readPlain .MBX_CNT m) else no)) ∧
    (∀ h : Fin 9, exec (.bellStatRead ag h) s =
      (if ag = .steward then .next (s.readPlain .BELL_STAT h)
       else match s.agentPart ag with
         | some p => if (∃ n : Fin 64, ownsBell p h n s = true) then
             .next { s with wire := .readData (addrOf .BELL_STAT h 0) (s.reg .BELL_STAT h &&& 0xFFFFFFFFFFFF) :: s.wire }
           else no
         | none => no))

/-- R85: the instructions of OP 0x01. `r v` is the state in which gd holds `v` and pc is at the next parcel. -/
def Obligations.ScalarRegisterInstructionResults : Prop :=
  ∀ (t : Fin 128) (d a b : Fin 64) (s : State), Runs t s →
    let x := (s.core t).gr a
    let y := (s.core t).gr b
    let n := y.toNat % 64
    let r (v : Word) : Ans := .next (s.modCore t fun c => { c.setG d v with pc := c.pc + 4 })
    exec (.add t d a b) s = r (x + y) ∧ exec (.sub t d a b) s = r (x - y) ∧
    exec (.and t d a b) s = r (x &&& y) ∧ exec (.or t d a b) s = r (x ||| y) ∧ exec (.xor t d a b) s = r (x ^^^ y) ∧
    exec (.shl t d a b) s = r (x <<< n) ∧ exec (.shr t d a b) s = r (x >>> n) ∧
    exec (.sra t d a b) s = r (x.sshiftRight n) ∧
    exec (.slt t d a b) s = r (if x.toInt < y.toInt then 1 else 0) ∧
    exec (.sltu t d a b) s = r (if x.toNat < y.toNat then 1 else 0) ∧
    exec (.min t d a b) s = r (if x.toInt ≤ y.toInt then x else y) ∧
    exec (.max t d a b) s = r (if x.toInt ≤ y.toInt then y else x) ∧
    exec (.minu t d a b) s = r (if x.toNat ≤ y.toNat then x else y) ∧
    exec (.maxu t d a b) s = r (if x.toNat ≤ y.toNat then y else x) ∧
    exec (.mul t d a b) s = r (x * y) ∧
    exec (.mulh t d a b) s = r ((x.signExtend 128 * y.signExtend 128).extractLsb' 64 64) ∧
    exec (.mulhu t d a b) s = r ((x.setWidth 128 * y.setWidth 128).extractLsb' 64 64) ∧
    exec (.div t d a b) s = r (if y = 0 then BitVec.allOnes 64 else BitVec.ofInt 64 (x.toInt.tdiv y.toInt)) ∧
    exec (.divu t d a b) s = r (if y = 0 then BitVec.allOnes 64 else BitVec.ofNat 64 (x.toNat / y.toNat)) ∧
    exec (.rem t d a b) s = r (if y = 0 then x else BitVec.ofInt 64 (x.toInt.tmod y.toInt)) ∧
    exec (.remu t d a b) s = r (if y = 0 then x else BitVec.ofNat 64 (x.toNat % y.toNat)) ∧
    exec (.popc t d a) s = r (BitVec.ofNat 64 ((List.range 64).filter fun i => x.getLsbD i).length) ∧
    (∃ k, exec (.clz t d a) s = r (BitVec.ofNat 64 k) ∧ k ≤ 64 ∧ (∀ i, i < k → x.getLsbD (63 - i) = false) ∧
      (k < 64 → x.getLsbD (63 - k) = true)) ∧
    (∃ k, exec (.ctz t d a) s = r (BitVec.ofNat 64 k) ∧ k ≤ 64 ∧ (∀ i, i < k → x.getLsbD i = false) ∧
      (k < 64 → x.getLsbD k = true))

/-- R85, R94: the immediate instructions. -/
def Obligations.ImmediateInstructionResults : Prop :=
  ∀ (t : Fin 128) (d a : Fin 64) (imm : BitVec 14) (s : State), Runs t s →
    let x := (s.core t).gr a
    let i := imm.signExtend 64
    let z := imm.setWidth 64
    let r (v : Word) : Ans := .next (s.modCore t fun c => { c.setG d v with pc := c.pc + 4 })
    exec (.addi t d a imm) s = r (x + i) ∧ exec (.andi t d a imm) s = r (x &&& z) ∧
    exec (.ori t d a imm) s = r (x ||| z) ∧ exec (.xori t d a imm) s = r (x ^^^ z) ∧
    exec (.slti t d a imm) s = r (if x.toInt < i.toInt then 1 else 0) ∧
    exec (.sltiu t d a imm) s = r (if x.toNat < i.toNat then 1 else 0) ∧
    (imm.toNat < 64 →
      exec (.shli t d a imm) s = r (x <<< imm.toNat) ∧ exec (.shri t d a imm) s = r (x >>> imm.toNat) ∧
      exec (.srai t d a imm) s = r (x.sshiftRight imm.toNat)) ∧
    (64 ≤ imm.toNat →
      exec (.shli t d a imm) s = .next (takeException t 0x03 0 s) ∧
      exec (.shri t d a imm) s = .next (takeException t 0x03 0 s) ∧
      exec (.srai t d a imm) s = .next (takeException t 0x03 0 s)) ∧
    (∀ u : BitVec 20, exec (.lui t d u) s = r (u.signExtend 64 * 0x4000)) ∧
    (∀ (zx : Bool) (w : BitVec 32), RunsLong t s → exec (.liw t d zx w) s = .next (s.modCore t fun c =>
      { c.setG d (if zx then w.setWidth 64 else w.signExtend 64) with pc := c.pc + 8 }))

/-- R86: branches and jumps. -/
def Obligations.BranchesAndJumpsMoveThePc : Prop :=
  ∀ (t : Fin 128) (d a b : Fin 64) (off : BitVec 14) (far : BitVec 26) (s : State), Runs t s →
    let x := (s.core t).gr a
    let y := (s.core t).gr b
    let pc := (s.core t).pc
    let link := pc.setWidth 64 + 4
    let br (p : Prop) [Decidable p] : Ans :=
      .next (s.modCore t fun c => { c with pc := if p then pc + off.signExtend 52 * 4 else pc + 4 })
    exec (.beq t a b off) s = br (x = y) ∧ exec (.bne t a b off) s = br (x ≠ y) ∧
    exec (.blt t a b off) s = br (x.toInt < y.toInt) ∧ exec (.bge t a b off) s = br (y.toInt ≤ x.toInt) ∧
    exec (.bltu t a b off) s = br (x.toNat < y.toNat) ∧ exec (.bgeu t a b off) s = br (y.toNat ≤ x.toNat) ∧
    exec (.j t far) s = .next (s.modCore t fun c => { c with pc := pc + far.signExtend 52 * 4 }) ∧
    exec (.jal t far) s = .next (s.modCore t fun c => { c.setG 63 link with pc := pc + far.signExtend 52 * 4 }) ∧
    exec (.jalr t d a off) s =
      .next (s.modCore t fun c => { c.setG d link with pc := (x + off.signExtend 64).setWidth 52 })

/-- R78: g0 reads 0 and p0 all ones, and writes to them are discarded; any other register keeps what was written. -/
def Obligations.HardwiredRegisters : Prop :=
  (∀ c : CoreRegs, c.gr 0 = 0 ∧ c.pr 0 = BitVec.allOnes 128) ∧
  (∀ (c : CoreRegs) (i j : Fin 64) (v : Word),
    (c.setG i v).gr j = if j = 0 then 0 else if j = i then v else c.gr j) ∧
  (∀ (c : CoreRegs) (i j : Fin 8) (v : BitVec 128),
    (c.setP i v).pr j = if j = 0 then BitVec.allOnes 128 else if j = i then v else c.pr j) ∧
  (∀ (c : CoreRegs) (i j : Fin 32) (v : BitVec 1024), (c.setV i v).vr j = if j = i then v else c.vr j) ∧
  (∀ (t : Fin 128) (a b : Fin 64) (s : State), Runs t s →
    exec (.add t 0 a b) s = .next (s.modCore t fun c => { c with pc := c.pc + 4 }))

/-- Command `c`, on tile `t`, leaves a value in vector register `d` whose lanes active under `p` hold what `f` says and
whose other lanes keep theirs; pc goes on by 4, and `u` is all else that happens (`id`: nothing). The lanes are those of
the lane-width code `w` (03_tile_isa.md R89). -/
def WritesLanes (c : Instr) (s : State) (t : Fin 128) (d : Fin 32) (w : Nat) (p : BitVec 128) (u : State → State)
    (f : Nat → Nat → Prop) : Prop :=
  ∃ v : BitVec 1024, exec c s = .next (u (s.modCore t fun c => { c.setV d v with pc := c.pc + 4 })) ∧
    ∀ i, i < laneCount w → if active w p i then f i (lane w v i) else lane w v i = lane w ((s.core t).vr d) i

/-- R90: the vector integer instructions, at every lane width. That VREDMAX compares signed is the model's reading
(notes/assumptions/20.md). -/
def Obligations.VectorIntegerResults : Prop :=
  ∀ (t : Fin 128) (d a b : Fin 32) (pg : Fin 8) (sz : Fin 4) (s : State), Runs t s →
    let w := laneBits sz
    let p := (s.core t).pr pg
    let x := fun i => lane sz ((s.core t).vr a) i
    let y := fun i => lane sz ((s.core t).vr b) i
    let sx := fun i => signed w (x i)
    let sy := fun i => signed w (y i)
    let on (c : Instr) (f : Nat → Nat) : Prop := WritesLanes c s t d sz p id fun i v => v = f i
    let act := (List.range (laneCount sz)).filter (active sz p)
    on (.vadd t d a b pg sz) (fun i => wrap w (sx i + sy i)) ∧ on (.vsub t d a b pg sz) (fun i => wrap w (sx i - sy i)) ∧
    on (.vadds t d a b pg sz) (fun i => wrap w (satInt w (sx i + sy i))) ∧
    on (.vsubs t d a b pg sz) (fun i => wrap w (satInt w (sx i - sy i))) ∧
    on (.vmul t d a b pg sz) (fun i => wrap w (sx i * sy i)) ∧
    on (.vmulh t d a b pg sz) (fun i => wrap w (sx i * sy i / (2 ^ w : Nat))) ∧
    on (.vmin t d a b pg sz) (fun i => if sx i ≤ sy i then x i else y i) ∧
    on (.vmax t d a b pg sz) (fun i => if sx i ≤ sy i then y i else x i) ∧
    on (.vand t d a b pg sz) (fun i => x i &&& y i) ∧ on (.vor t d a b pg sz) (fun i => x i ||| y i) ∧
    on (.vxor t d a b pg sz) (fun i => x i ^^^ y i) ∧
    on (.vshl t d a b pg sz) (fun i => x i * 2 ^ (y i % w) % 2 ^ w) ∧
    on (.vshr t d a b pg sz) (fun i => x i / 2 ^ (y i % w)) ∧
    on (.vsra t d a b pg sz) (fun i => wrap w (sx i / (2 ^ (y i % w) : Nat))) ∧
    WritesLanes (.vsel t d a b pg sz) s t d sz (BitVec.allOnes 128) id
      (fun i v => v = if active sz p i then x i else y i) ∧
    on (.vperm t d a b pg sz) (fun i => x (y i % laneCount sz)) ∧
    exec (.vredadd t d a pg sz) s = .next (s.modCore t fun c =>
      { c.setV d (BitVec.ofNat 1024 (wrap w (act.map sx).sum)) with pc := c.pc + 4 }) ∧
    (∀ m : Int, m ∈ act.map sx → (∀ k ∈ act.map sx, k ≤ m) → exec (.vredmax t d a pg sz) s = .next (s.modCore t fun c =>
      { c.setV d (BitVec.ofNat 1024 (wrap w m)) with pc := c.pc + 4 }))

/-- R92: compares, predicate logic and vector moves. -/
def Obligations.CompareAndPredicateResults : Prop :=
  ∀ (t : Fin 128) (s : State), Runs t s →
    let pr := fun i : Fin 8 => (s.core t).pr i
    let vr := fun i : Fin 32 => (s.core t).vr i
    let gr := fun i : Fin 64 => (s.core t).gr i
    let toP (d : Fin 8) (v : BitVec 128) : Ans := .next (s.modCore t fun c => { c.setP d v with pc := c.pc + 4 })
    let toG (d : Fin 64) (v : Word) : Ans := .next (s.modCore t fun c => { c.setG d v with pc := c.pc + 4 })
    let cmp (c : Instr) (d pg : Fin 8) (n : Nat) (f : Nat → Prop) : Prop :=
      ∃ v, exec c s = toP d v ∧ ∀ k < 128, v.getLsbD k = true ↔ (pr pg).getLsbD (k / n * n) = true ∧ f (k / n)
    (∀ (d pg : Fin 8) (a b : Fin 32) (sz : Fin 4),
      let w := laneBits sz
      cmp (.vcmpeq t d a b pg sz) d pg (2 ^ sz.val) (fun i => lane sz (vr a) i = lane sz (vr b) i) ∧
      cmp (.vcmplt t d a b pg sz) d pg (2 ^ sz.val)
        (fun i => signed w (lane sz (vr a) i) < signed w (lane sz (vr b) i)) ∧
      cmp (.vcmpltu t d a b pg sz) d pg (2 ^ sz.val) (fun i => lane sz (vr a) i < lane sz (vr b) i) ∧
      (sz.val ≠ 3 → cmp (.vfcmplt t d a b pg sz) d pg (2 ^ vfw sz)
        (fun i => (((vfmt sz).decode (lane (vfw sz) (vr a) i)).lt ((vfmt sz).decode (lane (vfw sz) (vr b) i))) = true)) ∧
      (sz.val = 3 → exec (.vfcmplt t d a b pg sz) s = .next (takeException t 0x03 0 s))) ∧
    (∀ d a b : Fin 8, exec (.pand t d a b) s = toP d (pr a &&& pr b) ∧ exec (.por t d a b) s = toP d (pr a ||| pr b) ∧
      exec (.pxor t d a b) s = toP d (pr a ^^^ pr b) ∧ exec (.pnot t d a) s = toP d (~~~ pr a) ∧
      exec (.pall t d) s = toP d (BitVec.allOnes 128) ∧ exec (.pnone t d) s = toP d 0) ∧
    (∀ (d : Fin 8) (a b : Fin 64), exec (.pfromg t d a b) s = toP d (gr b ++ gr a)) ∧
    (∀ (d : Fin 64) (a : Fin 8), exec (.pany t d a) s = toG d (if pr a = 0 then 0 else 1) ∧
      exec (.pcnt t d a) s = toG d (BitVec.ofNat 64 ((List.range 128).filter fun i => (pr a).getLsbD i).length)) ∧
    (∀ (d : Fin 64) (a : Fin 32) (b : Fin 64) (sz : Fin 4), exec (.vext t d a b sz) s =
      toG d (BitVec.ofInt 64 (signed (laneBits sz) (lane sz (vr a) ((gr b).toNat % laneCount sz))))) ∧
    (∀ (d : Fin 32) (a b : Fin 64) (sz : Fin 4),
      WritesLanes (.vbcast t d a sz) s t d sz (BitVec.allOnes 128) id (fun _ v => v = (gr a).toNat % 2 ^ laneBits sz) ∧
      WritesLanes (.vins t d a b sz) s t d sz (BitVec.allOnes 128) id (fun i v =>
        v = if i = (gr b).toNat % laneCount sz then (gr a).toNat % 2 ^ laneBits sz else lane sz (vr d) i))

/-- R91: the vector floating-point instructions. -/
def Obligations.VectorFloatingPointResults : Prop :=
  fBF16.encode .nan = 0x7FC0 ∧ fFP16.encode .nan = 0x7E00 ∧ fFP32.encode .nan = 0x7FC00000 ∧
  ∀ (t : Fin 128) (d a b : Fin 32) (pg : Fin 8) (sz : Fin 4) (s : State), Runs t s →
    let p := (s.core t).pr pg
    let w := vfw sz
    let x := fun i => (vfmt sz).decode (lane w ((s.core t).vr a) i)
    let y := fun i => (vfmt sz).decode (lane w ((s.core t).vr b) i)
    let z := fun i => (vfmt sz).decode (lane w ((s.core t).vr d) i)
    let enc := fun v => (vfmt sz).encode v % 2 ^ laneBits w
    let on (c : Instr) (f : Nat → FVal) : Prop := WritesLanes c s t d w p id fun i v => v = enc (f i)
    let pick (c : Instr) (less : FVal → FVal → Bool) : Prop := WritesLanes c s t d w p State.used fun i v =>
      (x i = .nan → v = enc (y i)) ∧ (y i = .nan → v = enc (x i)) ∧
      (less (x i) (y i) = true → v = enc (x i)) ∧ (less (y i) (x i) = true → v = enc (y i))
    (sz.val ≠ 3 →
      on (.vfadd t d a b pg sz) (fun i => (x i).add (y i)) ∧ on (.vfsub t d a b pg sz) (fun i => (x i).add (y i).neg) ∧
      on (.vfmul t d a b pg sz) (fun i => (x i).mul (y i)) ∧
      on (.vfma t d a b pg sz) (fun i => (z i).add ((x i).mul (y i))) ∧
      pick (.vfmin t d a b pg sz) FVal.lt ∧ pick (.vfmax t d a b pg sz) (fun u v => FVal.lt v u) ∧
      WritesLanes (.vcvtf t d a pg sz) s t d 2 p id (fun i v => v = wrap 32 ((x i).toInt 32)) ∧
      WritesLanes (.vcvti t d a pg sz) s t d w p State.used
        (fun i v => i < 32 → v = enc (.ofInt (signed 32 (lane 2 ((s.core t).vr a) i)))) ∧
      WritesLanes (.vcvtw t d a pg sz) s t d 2 p State.used
        (fun i v => sz.val ≠ 2 → v = fFP32.encode (x i) % 2 ^ 32) ∧
      (∃ v : BitVec 1024,
        exec (.vcvtn t d a pg sz) s = .next (s.modCore t fun c => { c.setV d v with pc := c.pc + 4 }).used ∧
        v.toNat < 2 ^ 512 ∧ (sz.val ≠ 2 → ∀ i < 32, lane 1 v i =
          if active 1 p i then (vfmt sz).encode (fFP32.decode (lane 2 ((s.core t).vr a) i)) % 2 ^ 16
          else lane 1 ((s.core t).vr d) i))) ∧
    (sz.val = 3 →
      ∀ c ∈ [Instr.vfadd t d a b pg sz, .vfsub t d a b pg sz, .vfmul t d a b pg sz, .vfma t d a b pg sz,
        .vfmin t d a b pg sz, .vfmax t d a b pg sz, .vcvti t d a pg sz, .vcvtf t d a pg sz, .vcvtw t d a pg sz,
        .vcvtn t d a pg sz], exec c s = .next (takeException t 0x03 0 s))

/-- The little-endian number of the `n` bytes of memory at `a` (00_scope.md R6). -/
def memValue (s : State) (a n : Nat) : Nat := ((List.range n).map fun i => (s.byte (a + i)).toNat * 256 ^ i).sum

/-- After a store by tile `t`: exactly the `n` bytes at `a` have changed, to the low bytes of `v`; the tile's core is at
the next parcel with its registers as they were; no other tile has changed. -/
def StoredBytes (t a n : Nat) (v : Word) (s u : State) : Prop :=
  (∀ x, u.byte x = if a ≤ x ∧ x < a + n then BitVec.ofNat 8 (v.toNat / 256 ^ (x - a)) else s.byte x) ∧
  u.core t = { s.core t with pc := (s.core t).pc + 4 } ∧ ∀ k, k ≠ t → u.tile k = s.tile k

/-- R87: the loads, from memory, from the data cache and from the control range. -/
def Obligations.LoadResults : Prop :=
  ∀ (t : Fin 128) (d a : Fin 64) (imm : BitVec 14) (s : State), Runs t s →
    let ad := ((s.core t).gr a + imm.signExtend 64).toNat % 2 ^ 52
    let ext (n : Nat) (sx : Bool) (x : Nat) : Word :=
      if sx then (BitVec.ofNat (8 * n) x).signExtend 64 else BitVec.ofNat 64 x
    let loads (c : Instr) (n : Nat) (sx : Bool) : Prop :=
      (ad % n = 0 → Reaches t ad n s → (cacheable ad = true → cacheLine t ad s = none) →
        ∃ u, exec c s = .next u ∧
          u.core t = { (s.core t).setG d (ext n sx (memValue s ad n)) with pc := (s.core t).pc + 4 } ∧
          (∀ x, u.byte x = s.byte x) ∧ ∀ k, k ≠ t.val → u.tile k = s.tile k) ∧
      (∀ l, ad % n = 0 → rangeCheck (some (s.core t).part.toNat) ad n s = none → cacheable ad = true →
        cacheLine t ad s = some l →
        exec c s = .next (s.modCore t fun c =>
          { c.setG d (ext n sx (l.toNat / 256 ^ (ad % 64) % 256 ^ n)) with pc := c.pc + 4 })) ∧
      (ad % n ≠ 0 → exec c s = .next (takeException t 0x05 ad s))
    loads (.ld8s t d a imm) 1 true ∧ loads (.ld8u t d a imm) 1 false ∧
    loads (.ld16s t d a imm) 2 true ∧ loads (.ld16u t d a imm) 2 false ∧
    loads (.ld32s t d a imm) 4 true ∧ loads (.ld32u t d a imm) 4 false ∧ loads (.ld64 t d a imm) 8 false ∧
    (∀ off v s', ad % 8 = 0 → spaceOf ad = .control off → controlRead (.tile t) off s = (some v, s') →
      exec (.ld64 t d a imm) s = .next (s'.modCore t fun c => (c.setG d v).next 4))

/-- R87: the stores. -/
def Obligations.StoreResults : Prop :=
  ∀ (t : Fin 128) (d a : Fin 64) (imm : BitVec 14) (s : State), Runs t s →
    let ad := ((s.core t).gr a + imm.signExtend 64).toNat % 2 ^ 52
    let stores (c : Instr) (n : Nat) : Prop :=
      (ad % n = 0 → Reaches t ad n s → s.rb .PART_P_DLOG 63 (s.core t).part.toNat = false →
        ∃ u, exec c s = .next u ∧ StoredBytes t ad n ((s.core t).gr d) s u) ∧
      (ad % n ≠ 0 → exec c s = .next (takeException t 0x05 ad s)) ∧
      (∀ off, ad % n = 0 → n ≠ 8 → spaceOf ad = .control off → exec c s = .next (dataRefuse t .access ad s))
    stores (.st8 t d a imm) 1 ∧ stores (.st16 t d a imm) 2 ∧ stores (.st32 t d a imm) 4 ∧ stores (.st64 t d a imm) 8

/-- R88: the atomics on stores and on the unified range. -/
def Obligations.AtomicResults : Prop :=
  ∀ (t : Fin 128) (d a b : Fin 64) (s : State), Runs t s →
    let ad := ((s.core t).gr a).toNat % 2 ^ 52
    let old : Word := BitVec.ofNat 64 (memValue s ad 8)
    let y := (s.core t).gr b
    let does (c : Instr) (new : Word) : Prop :=
      (ad % 8 = 0 → Reaches t ad 8 s → s.rb .PART_P_DLOG 63 (s.core t).part.toNat = false →
        ∃ u, exec c s = .next u ∧
          (∀ x, u.byte x = if ad ≤ x ∧ x < ad + 8 then BitVec.ofNat 8 (new.toNat / 256 ^ (x - ad)) else s.byte x) ∧
          u.core t = { (s.core t).setG d old with pc := (s.core t).pc + 4 } ∧ cacheLine t ad u = none ∧
          ∀ k, k ≠ t.val → u.tile k = s.tile k) ∧
      (ad % 8 ≠ 0 → exec c s = .next (takeException t 0x05 ad s)) ∧
      (∀ off, ad % 8 = 0 → spaceOf ad = .control off → exec c s = .next (dataRefuse t .access ad s))
    does (.amoadd t d a b) (old + y) ∧ does (.amoand t d a b) (old &&& y) ∧ does (.amoor t d a b) (old ||| y) ∧
    does (.amoxor t d a b) (old ^^^ y) ∧ does (.amomin t d a b) (if old.toInt ≤ y.toInt then old else y) ∧
    does (.amomax t d a b) (if old.toInt ≤ y.toInt then y else old) ∧ does (.amoswap t d a b) y ∧
    does (.amocas t d a b) (if old = (s.core t).gr d then y else old)

/-- R93 and R92: vector accesses to the tile's own store. `ok` says that the accesses at the addresses `as` of `n` bytes go
on; lane `i` of an indexed form addresses ga + (vb lane i) × (lane bytes). -/
def Obligations.VectorMemoryResults : Prop :=
  ∀ (t : Fin 128) (d b : Fin 32) (a : Fin 64) (pg : Fin 8) (sz : Fin 4) (imm : BitVec 12) (s : State), Runs t s →
    let p := (s.core t).pr pg
    let p1 := (s.core t).pr 1
    let ad := ((s.core t).gr a + imm.signExtend 64 * 128).toNat % 2 ^ 52
    let el := fun i => ((s.core t).gr a + BitVec.ofNat 64 (lane sz ((s.core t).vr b) i * 2 ^ sz.val)).toNat % 2 ^ 52
    let n := 2 ^ sz.val
    let ok (x len : Nat) : Prop := ∀ i < len, s.eccAt ((x + i) / 32) = .clean ∧ arrayBusy t (x + i) s = false
    (ad % 128 ≠ 0 → exec (.vld t d a pg imm) s = .next (takeException t 0x05 ad s) ∧
      exec (.vst t d a pg imm) s = .next (takeException t 0x05 ad s)) ∧
    (∀ e, ad % 128 = 0 → ownCheck t ad s = some e → exec (.vld t d a pg imm) s = .next (dataRefuse t e ad s) ∧
      exec (.vst t d a pg imm) s = .next (dataRefuse t e ad s)) ∧
    (ad % 128 = 0 → ownCheck t ad s = none → ok ad 128 →
      WritesLanes (.vld t d a pg imm) s t d 0 p id (fun i v => v = (s.byte (ad + i)).toNat) ∧
      ∃ u, exec (.vst t d a pg imm) s = .next u ∧ u.core t = { s.core t with pc := (s.core t).pc + 4 } ∧
        (∀ k, k ≠ t.val → u.tile k = s.tile k) ∧
        ∀ x, u.byte x = if ad ≤ x ∧ x < ad + 128 ∧ p.getLsbD (x - ad) = true
          then BitVec.ofNat 8 (lane 0 ((s.core t).vr d) (x - ad)) else s.byte x) ∧
    ((∀ i < laneCount sz, active sz p1 i = true → el i % n = 0 ∧ ownCheck t (el i) s = none ∧ ok (el i) n) →
      WritesLanes (.vgather t d a b sz) s t d sz p1 id (fun i v => v = memValue s (el i) n) ∧
      ∃ u, exec (.vscatter t d a b sz) s = .next u ∧ u.core t = { s.core t with pc := (s.core t).pc + 4 } ∧
        (∀ k, k ≠ t.val → u.tile k = s.tile k) ∧
        ∀ x, ((∀ i < laneCount sz, active sz p1 i = true → ¬ (el i ≤ x ∧ x < el i + n)) → u.byte x = s.byte x) ∧
          ∀ i < laneCount sz, active sz p1 i = true → el i ≤ x → x < el i + n →
            (∀ j < laneCount sz, i < j → active sz p1 j = true → ¬ (el j ≤ x ∧ x < el j + n)) →
            u.byte x = BitVec.ofNat 8 (lane sz ((s.core t).vr d) i / 256 ^ (x - el i)))

/-- Exception entry and return (R98, R103); an exception in M mode halts the tile (R104). -/
def ExceptionEntry : Prop :=
  ∀ (t : Fin 128) (s : State),
    let c := s.core t
    let d (cause addr : Nat) : CoreRegs := { c with
      epc := c.pc.setWidth 64, ecause := BitVec.ofNat 8 cause, eaddr := BitVec.ofNat 64 addr, pm := false, modeM := true
      pc := BitVec.ofNat 52 ((s.reg .TILE_MVEC t).toNat + cause * 0x40), wait := .none
      dsp := { c.dsp with loopst := clearBit c.dsp.loopst 63 } }
    let entered (cause addr : Nat) : State :=
      (((s.modTile t fun x => { x with core := d cause addr, loopFill := [] }).setReg .TILE_ECAUSE (place 7 0 cause) t).setReg
        .TILE_EPC (c.pc.setWidth 64) t).setReg .TILE_EADDR (BitVec.ofNat 64 addr) t
    (c.modeM = false → ∀ cause addr, takeException t cause addr s = entered cause addr) ∧
    (Runs t s → c.modeM = false →
      exec (.brk t) s = .next (entered 0x0C 0) ∧ exec (.eret t) s = .next (entered 0x04 0)) ∧
    (Runs t s → c.modeM = true →
      exec (.eret t) s = .next (s.modCore t fun c => { c with modeM := c.pm, pc := c.epc.setWidth 52 }) ∧
      ∃ u, exec (.brk t) s = .next u ∧
        u = faultOf (some c.part.toNat) (errRecord 0x011 (whoTile s t) c.pc.toNat 0x0C
          ((((s.modTile t fun x => { x with run := .halted }).setReg .TILE_ECAUSE 0x0F t).setReg
            .TILE_EPC (c.pc.setWidth 64) t).setReg .TILE_EADDR 0 t)))

/-- The fetch causes and the illegal encodings (R84, R86, R102). -/
def Obligations.ExceptionsAndFetchCauses : Prop :=
  ExceptionEntry ∧
  ∀ (t : Fin 128) (d a b : Fin 64) (w0 w1 : BitVec 32) (s : State),
    (ready t s = true → (s.core t).dsp.active = false →
      ((s.core t).pc.toNat % 4 ≠ 0 →
        exec (.add t d a b) s = .next (takeException t 0x01 (s.core t).pc.toNat s) ∧
        exec (.brk t) s = .next (takeException t 0x01 (s.core t).pc.toNat s)) ∧
      ((s.core t).pc.toNat % 4 = 0 → (match spaceOf (s.core t).pc.toNat with
          | .unified _ => False
          | .tile u _ => u ≠ t.val
          | .hamlet h _ => h ≠ t.val / 16
          | _ => True) →
        exec (.add t d a b) s = .next (takeException t 0x02 (s.core t).pc.toNat s) ∧
        exec (.brk t) s = .next (takeException t 0x02 (s.core t).pc.toNat s))) ∧
    (Runs t s → legalParcel w0 w1 = false → exec (.illegalOpcode t w0 w1) s = .next (takeException t 0x03 0 s)) ∧
    (∀ pc : Nat, pc = (s.core t).pc.toNat → ready t s = true → (s.core t).dsp.active = false → pc % 4 = 0 →
      fetchHeld t pc s = true → (s.tile t).icache.contains (pc / 64) = false → tierGate (whoTile s t) pc 4 s = none →
      heldOver (pc / 64 * 64) 64 s = false →
      (badWords (pc / 64 * 64) 64 s = [] → ∃ u, exec (.add t d a b) s = .next u ∧
        u.core t = (let c := (s.core t).setG d ((s.core t).gr a + (s.core t).gr b); { c with pc := c.pc + 4 }) ∧
        (u.tile t).icache.contains (pc / 64) = true ∧ (u.tile t).icache.length ≤ max 1024 (s.tile t).icache.length ∧
        (∀ l ∈ (u.tile t).icache, l = pc / 64 ∨ l ∈ (s.tile t).icache) ∧ u.mem = s.mem) ∧
      (badWords pc 4 s ≠ [] → (s.core t).modeM = false → ∃ u, exec (.add t d a b) s = .next u ∧
        (u.core t).ecause = 0x09 ∧ (u.core t).eaddr = BitVec.ofNat 64 pc ∧ (u.core t).epc = BitVec.ofNat 64 pc ∧
        (u.core t).modeM = true ∧ (∀ r, (u.core t).gr r = (s.core t).gr r) ∧ u.mem = s.mem)) ∧
    (legalParcel w0 w1 = true → exec (.illegalOpcode t w0 w1) s = .next s) ∧
    legalParcel 0 0 = false ∧
    (ready t s = false → exec (.add t d a b) s = .next s ∧ exec (.brk t) s = .next s)

/-- The hardware loop (R123 to R125), with ADD as the instruction of the body. -/
def Obligations.HardwareLoopRunsItsBody : Prop :=
  ∀ (t : Fin 128) (d a b : Fin 64) (len : BitVec 6) (s : State),
    let c := s.core t
    let count := (c.gr a).toNat % 2 ^ 32
    (Runs t s → exec (.dloop t a len) s = .next (s.modTile t fun x => { x with
      loopFill := []
      core := if count = 0 then { x.core with pc := x.core.pc + 4 * BitVec.ofNat 52 (len.toNat + 2) }
        else { x.core with
          pc := x.core.pc + 4
          dsp := { x.core.dsp with
            loopcnt := BitVec.ofNat 64 count
            loopst := BitVec.ofNat 64 (2 ^ 63 + 2 ^ 57 * len.toNat + (x.core.pc + 4).toNat) } } })) ∧
    (ready t s = true → ((s.tile t).loopFill.contains c.pc.toNat = true ∨ Cached t c.pc.toNat s) → c.inBody = true →
      (∃ u, exec (.add t d a b) s = .next u ∧
        let w := c.setG d (c.gr a + c.gr b)
        let next := (c.pc + 4).toNat
        let last := decide (next = c.dsp.first + 4 * c.dsp.len)
        u.core t = (if last && decide (1 < c.dsp.loopcnt.toNat) then
              { w with pc := BitVec.ofNat 52 c.dsp.first, dsp := { c.dsp with loopcnt := c.dsp.loopcnt - 1 } }
            else if last then { w with pc := c.pc + 4, dsp := { c.dsp with loopcnt := 0 } }
            else { w with pc := c.pc + 4 }) ∧
        u.mem = s.mem ∧ u.regs = s.regs) ∧
      exec (.brk t) s = .next (takeException t 0x03 0 s)) ∧
    (c.dsp.active = true → c.dsp.loopcnt = 0 → exec (.loopEnd t) s =
      .next (s.modCore t fun c => { c with dsp := { c.dsp with loopst := clearBit c.dsp.loopst 63 } })) ∧
    ((c.dsp.active = false ∨ c.dsp.loopcnt ≠ 0) → exec (.loopEnd t) s = .next s)

/-- The status registers (R79, R80). -/
def Obligations.StatusRegisterMoves : Prop :=
  ∀ (t : Fin 128) (d : Fin 64) (s : State), Runs t s →
    let c := s.core t
    let r (v : Word) : Ans := .next (s.modCore t fun c => { c.setG d v with pc := c.pc + 4 })
    let w (f : CoreRegs → CoreRegs) : Ans := .next (s.modCore t fun c => { f c with pc := c.pc + 4 })
    let m := c.modeM
    let priv : Ans := .next (takeException t 0x04 0 s)
    let ill : Ans := .next (takeException t 0x03 0 s)
    let x := c.gr d
    exec (.mfs t d 0x000) s = r c.tstat ∧
    c.tstat.toNat = c.tagErr.toNat * 2 ^ 40 + c.tagBusy.toNat * 2 ^ 32 + c.part.toNat * 2 ^ 16 +
      (if c.pm then 2 ^ 8 else 0) + (if c.modeM then 1 else 0) ∧
    exec (.mfs t d 0x008) s = r (c.tevt.setWidth 64) ∧ exec (.mfs t d 0x009) s = r (BitVec.ofNat 64 t) ∧
    exec (.mfs t d 0x00A) s = r (c.kentry.setWidth 64) ∧ exec (.mfs t d 0x00B) s = r c.ltime ∧
    exec (.mfs t d 0x00C) s = r (s.reg .TILE_EPOCH t) ∧
    exec (.mfs t d 0x00D) s = .next { s.modCore t fun c => { c.setG d (Config.freeWord s.free) with pc := c.pc + 4 } with
      free := s.free + 1 } ∧
    exec (.mfs t d 0x001) s = (if m then r c.epc else priv) ∧
    exec (.mfs t d 0x002) s = (if m then r (c.ecause.setWidth 64) else priv) ∧
    exec (.mfs t d 0x003) s = (if m then r c.eaddr else priv) ∧
    exec (.mfs t d 0x004) s = (if m then r (s.reg .TILE_MVEC t) else priv) ∧
    exec (.mfs t d 0x005) s = (if m then r c.mscratch else priv) ∧
    exec (.mts t d 0x000) s = w (fun c => { c with
      tagErr := c.tagErr &&& ~~~ (x >>> 40).setWidth 8, pm := if m then x.getLsbD 8 else c.pm }) ∧
    exec (.mts t d 0x008) s = w (fun c => { c with tevt := x.setWidth 32 }) ∧
    exec (.mts t d 0x001) s = (if m then w (fun c => { c with epc := x }) else priv) ∧
    exec (.mts t d 0x002) s = (if m then w (fun c => { c with ecause := x.setWidth 8 }) else priv) ∧
    exec (.mts t d 0x003) s = (if m then w (fun c => { c with eaddr := x }) else priv) ∧
    exec (.mts t d 0x005) s = (if m then w (fun c => { c with mscratch := x }) else priv) ∧
    (∀ i : BitVec 14, (i.toNat = 6 ∨ i.toNat = 7 ∨ 0x00E ≤ i.toNat) →
      exec (.mfs t d i) s = ill ∧ exec (.mts t d i) s = ill) ∧
    (∀ i : BitVec 14, (i.toNat = 4 ∧ m = true ∨ 0x009 ≤ i.toNat ∧ i.toNat ≤ 0x00D) → exec (.mts t d i) s = ill)

/-- The time view, the waits, and the events that end them (R97 to R100). -/
def WaitsAndEvents : Prop :=
  ∀ (t : Fin 128) (d a : Fin 64) (s : State),
    let c := s.core t
    let tv := BitVec.ofNat 64 s.now
    let r (f : CoreRegs → CoreRegs) : Ans := .next (s.modCore t fun c => { f c with pc := c.pc + 4 })
    let hold (w : Wait) : State := s.modCore t fun c => { c with wait := w }
    (Runs t s →
      exec (.rdt t d) s = r (fun c => { c.setG d tv with rdtSub := BitVec.ofNat 16 s.tb.subns }) ∧
      exec (.rdts t d) s = r (fun c => c.setG d (c.rdtSub.setWidth 64)) ∧
      exec (.waitt t d a) s = (if s.now + 2 ^ 34 < (c.gr a).toNat then .next (takeException t 0x0B 0 s)
        else if (c.gr a).toNat ≤ s.now then r (fun c => c.setG d (tv - c.gr a)) else .next (hold (.time d (c.gr a)))) ∧
      (let m := (c.gr a).setWidth 32
       ((c.gr a = 0 ∨ c.tevt &&& m ≠ 0) →
          exec (.waite t d a) s = r (fun c => { c.setG d ((c.tevt &&& m).setWidth 64) with tevt := c.tevt &&& ~~~ m })) ∧
       (c.gr a ≠ 0 → c.tevt &&& m = 0 → exec (.waite t d a) s = .next (noteTile t (hold (.event d m))))) ∧
      (let m := (c.gr a).setWidth 8
       exec (.mwait t d a) s = (if c.tagBusy &&& m = 0 then
           r (fun c => { c.setG d ((c.tagErr &&& m).setWidth 64) with tagErr := c.tagErr &&& ~~~ m })
         else .next (hold (.tags d m))) ∧
       exec (.mtest t d a) s = r (fun c => c.setG d
         (BitVec.ofNat 64 ((c.tagBusy &&& m).toNat * 256 + (c.tagErr &&& m).toNat))))) ∧
    (s.enabled t = true → (s.tile t).run = .running → c.dsp.active = false →
      (∀ g, c.wait = .time d g → g.toNat ≤ s.now →
        exec (.waittResume t) s = r (fun c => { c.setG d (tv - g) with wait := .none })) ∧
      (∀ m, c.wait = .event d m → c.tevt &&& m ≠ 0 →
        exec (.waiteReturn t) s = .next (noteTile t (s.modCore t fun c => { c.setG d ((c.tevt &&& m).setWidth 64) with
          tevt := c.tevt &&& ~~~ m, wait := .none, pc := c.pc + 4 }))) ∧
      (∀ m, c.wait = .tags d m → c.tagBusy &&& m = 0 →
        exec (.mwaitReturn t) s = r (fun c => { c.setG d ((c.tagErr &&& m).setWidth 64) with
          tagErr := c.tagErr &&& ~~~ m, wait := .none }))) ∧
    (c.wait = .none → exec (.waittResume t) s = .next s ∧ exec (.waiteReturn t) s = .next s ∧
      exec (.mwaitReturn t) s = .next s) ∧
    (∀ u : State, (noteTile t u).tiles = u.tiles ∧ (noteTile t u).regs = u.regs ∧ (noteTile t u).mem = u.mem ∧
      (noteTile t u).tb = u.tb ∧ (noteTile t u).wire = u.wire)

/-- The fences and the cache instructions (R82, R98, R106, R392). -/
def Obligations.WaitsFencesAndCaches : Prop :=
  WaitsAndEvents ∧
  ∀ (t : Fin 128) (a b : Fin 64) (s : State),
    let c := s.core t
    let on : Ans := .next (s.modCore t fun c => { c with wait := .none, pc := c.pc + 4 })
    (Runs t s →
      exec (.fence t) s = .next (s.modCore t fun c => { c with wait := .fence }) ∧
      exec (.fencef t) s = .next (s.modCore t fun c => { c with wait := .fencef (fenceSnap s) }) ∧
      exec (.cinva t) s = .next (s.modTile t fun x => { x with dcache := [], core := { x.core with pc := x.core.pc + 4 } }) ∧
      exec (.iinv t) s = .next (s.modTile t fun x => { x with icache := [], core := { x.core with pc := x.core.pc + 4 } }) ∧
      ∃ ls : List (Nat × BitVec 512),
        exec (.cinv t a b) s =
          .next (s.modTile t fun x => { x with dcache := ls, core := { x.core with pc := x.core.pc + 4 } }) ∧
        ls.Sublist (s.tile t).dcache ∧
        ∀ l, l ∈ ls ↔ l ∈ (s.tile t).dcache ∧ ¬ ∃ x : Nat, l.1 * 64 ≤ x ∧ x < l.1 * 64 + 64 ∧
          (c.gr a).toNat ≤ x ∧ x < (c.gr a).toNat + (c.gr b).toNat) ∧
    (s.enabled t = true → (s.tile t).run = .running → c.dsp.active = false →
      (c.wait = .fence → exec (.fenceComplete t) s =
        (if s.fab.peers.any fun e => e.2.sent.any fun o => o.tag == .tile t.val && !o.lost then .next s else on)) ∧
      (∀ snap, c.wait = .fencef snap →
        exec (.fencefComplete t) s = (if fenceDone snap s then on else .next s))) ∧
    (c.wait = .none → exec (.fenceComplete t) s = .next s ∧ exec (.fencefComplete t) s = .next s)

/-- The bus accesses `bs` of `n` bytes by tile `t` go on: their address registers hold legal values, and each address is
aligned, lies in the tile's own store where its partition holds it, in words without error, with no array operation at
work there (R110 to R112; 03_tile_isa.md R106). -/
def BusesGo (t n : Nat) (bs : List Bus) (s : State) : Prop :=
  ∀ b ∈ bs, arIllegal (s.core t).dsp.legacy ((s.core t).addrReg b.ar) = false ∧
    let x := busAddr t (s.core t) b
    x % n = 0 ∧ ownCheck t x s = none ∧ ∀ i < n, s.eccAt ((x + i) / 32) = .clean ∧ arrayBusy t (x + i) s = false

/-- Command `c` is a DSP instruction of tile `t` that reads elements of `n` bytes on the buses `bs`: where they go on, the
core becomes what `f` makes of it and of the elements, the address registers are post-modified, pc goes on by 4, DCONF may
rise, and nothing else changes. -/
def DspReads (c : Instr) (t n : Nat) (bs : List Bus) (f : List Nat → CoreRegs → CoreRegs) (s : State) : Prop :=
  BusesGo t n bs s → ∃ u, exec c s = .next u ∧
    (let w := (f (bs.map fun b => memValue s (busAddr t (s.core t) b) n) (s.core t)).post n bs
     u.core t = { w with pc := (s.core t).pc + 4, dsp := { w.dsp with dconf := (u.core t).dsp.dconf } }) ∧
    (∀ x, u.byte x = s.byte x) ∧ ∀ k, k ≠ t → u.tile k = s.tile k

/-- The core after an exact sum `v` has gone into accumulator `i` (R117, R129): with S clamped to 80 bits, with SAT set if
that changes it; without S modulo 2^80; in legacy mode modulo 2^48 whatever S is. -/
def accumulate (sat : Bool) (i : Nat) (v : Int) (c : CoreRegs) : CoreRegs :=
  if c.dsp.legacy then c.setA i ((BitVec.ofInt 48 v).signExtend 80)
  else if sat then
    let r := max (-(2 ^ 79)) (min (2 ^ 79 - 1) v)
    { c.setA i (BitVec.ofInt 80 r) with dsp := if r = v then c.dsp else { c.dsp with ctl := c.dsp.ctl ||| 0x100000000 } }
  else c.setA i (BitVec.ofInt 80 v)

/-- R115, OP 0x30. -/
def Obligations.RealProductResults : Prop :=
  ∀ (t : Fin 128) (sat : Bool) (acc xr yr : Fin 8) (xm ym cr cm : Fin 4) (s : State), Runs t s →
    let k := s.core t
    let old := (k.ar acc).toInt
    let X : Bus := ⟨xr, xm⟩
    let Y : Bus := ⟨8 + yr, ym⟩
    let C : Bus := ⟨16 + cr, cm⟩
    let h (es : List Nat) (i : Nat) : Int := (BitVec.ofNat 16 (es.getD i 0)).toInt
    let g (es : List Nat) (i : Nat) : Int := (BitVec.ofNat 16 (es.getD i 0 / 65536)).toInt
    let mac (c : Instr) (legacy : Bool) (n : Nat) (bs : List Bus) (v : List Nat → Int) : Prop :=
      if k.dsp.legacy = true ∧ (legacy = false ∨ 3 < acc.val) then exec c s = .next (takeException t 0x03 0 s)
      else DspReads c t n bs (fun es => accumulate sat acc (v es)) s
    mac (.mpy t sat acc xr xm yr ym) true 2 [X, Y] (fun es => h es 0 * h es 1 * 2) ∧
    mac (.mac t sat acc xr xm yr ym) true 2 [X, Y] (fun es => old + h es 0 * h es 1 * 2) ∧
    mac (.msu t sat acc xr xm yr ym) true 2 [X, Y] (fun es => old - h es 0 * h es 1 * 2) ∧
    mac (.macc t sat acc xr xm cr cm) false 2 [X, C] (fun es => old + h es 0 * h es 1 * 2) ∧
    mac (.pmac t sat acc xr xm yr ym cr cm) false 2 [X, Y, C] (fun es => old + (h es 0 + h es 1) * h es 2 * 2) ∧
    mac (.dmac2 t sat acc xr xm yr ym) false 4 [X, Y]
      (fun es => old + h es 0 * h es 1 * 2 + g es 0 * g es 1 * 2) ∧
    mac (.sqa t sat acc xr xm) true 2 [X] (fun es => old + h es 0 * h es 0 * 2)

/-- R115, OP 0x31, with the sums of R120. -/
def Obligations.ComplexProductResults : Prop :=
  ∀ (t : Fin 128) (sat : Bool) (acc xr yr : Fin 8) (xm ym cr cm : Fin 4) (s : State), Runs t s →
    let k := s.core t
    let re := (k.ar acc).toInt
    let im := (k.ar (acc + 1)).toInt
    let X : Bus := ⟨xr, xm⟩
    let Y : Bus := ⟨8 + yr, ym⟩
    let C : Bus := ⟨16 + cr, cm⟩
    let xr_ (es : List Nat) : Int := (BitVec.ofNat 16 (es.getD 0 0)).toInt
    let xi (es : List Nat) : Int := (BitVec.ofNat 16 (es.getD 0 0 / 65536)).toInt
    let yr_ (es : List Nat) : Int := (BitVec.ofNat 16 (es.getD 1 0)).toInt
    let yi (es : List Nat) : Int := (BitVec.ofNat 16 (es.getD 1 0 / 65536)).toInt
    let pr (es : List Nat) : Int := xr_ es * yr_ es * 2 - xi es * yi es * 2
    let pi (es : List Nat) : Int := xr_ es * yi es * 2 + xi es * yr_ es * 2
    let jr (es : List Nat) : Int := xr_ es * yr_ es * 2 + xi es * yi es * 2
    let ji (es : List Nat) : Int := xi es * yr_ es * 2 - xr_ es * yi es * 2
    let cmac (c : Instr) (legacy : Bool) (bs : List Bus) (a b : List Nat → Int) : Prop :=
      if acc.val % 2 = 1 ∨ k.dsp.legacy = true ∧ (legacy = false ∨ 3 < acc.val) then
        exec c s = .next (takeException t 0x03 0 s)
      else DspReads c t 4 bs (fun es w => accumulate sat (acc + 1) (b es) (accumulate sat acc (a es) w)) s
    cmac (.cmpy t sat acc xr xm yr ym) true [X, Y] pr pi ∧
    cmac (.cmac t sat acc xr xm yr ym) true [X, Y] (fun es => re + pr es) (fun es => im + pi es) ∧
    cmac (.cmsu t sat acc xr xm yr ym) true [X, Y] (fun es => re - pr es) (fun es => im - pi es) ∧
    cmac (.cmacj t sat acc xr xm yr ym) true [X, Y] (fun es => re + jr es) (fun es => im + ji es) ∧
    cmac (.cmacc t sat acc xr xm cr cm) false [X, C] (fun es => re + pr es) (fun es => im + pi es) ∧
    cmac (.cmaccj t sat acc xr xm cr cm) false [X, C] (fun es => re + jr es) (fun es => im + ji es)

/-- `r` is the rounded value of an accumulator value `v` at shift `sh` (R118): q = v * 2^sh / 2^16, rounded half up (mode 0),
to nearest with ties to even (1, and in legacy mode) or toward minus infinity (2). With q = num / den. -/
def Rounded (d : Dsp) (v sh r : Int) : Prop :=
  let mode := if d.legacy then 1 else d.ctl.toNat % 4
  let num : Int := v * 2 ^ (sh + 8).toNat
  let den : Int := 2 ^ 24
  (mode = 0 → r * den ≤ num + den / 2 ∧ num + den / 2 < (r + 1) * den) ∧
  (mode = 1 → 2 * (r * den - num) ≤ den ∧ 2 * (num - r * den) ≤ den ∧
    (2 * (r * den - num) = den ∨ 2 * (num - r * den) = den → r % 2 = 0)) ∧
  (mode = 2 → r * den ≤ num ∧ num < (r + 1) * den)

/-- R115, OP 0x32 and 0x33. -/
def Obligations.AccumulatorStoresAndMoves : Prop :=
  ∀ (t : Fin 128) (sat : Bool) (acc ad aa yr : Fin 8) (ym : Fin 4) (g : Fin 64) (sh : BitVec 4) (sh5 : BitVec 5)
    (s : State), Runs t s →
    let k := s.core t
    let Y : Bus := ⟨8 + yr, ym⟩
    let clamps := sat || (k.dsp.legacy && k.dsp.ctl.getLsbD 9)
    let ill : Ans := .next (takeException t 0x03 0 s)
    let r (f : CoreRegs → CoreRegs) : Ans := .next (s.modCore t fun c => { f c with pc := c.pc + 4 })
    let fits (q : Int) (x : BitVec 16) (clipped : Bool) : Prop :=
      (clamps = false → x = BitVec.ofInt 16 q ∧ clipped = false) ∧
      (clamps = true → x.toInt = max (-32768) (min 32767 q) ∧ (clipped = true ↔ q < -32768 ∨ 32767 < q))
    let flag (b : Bool) (d : Dsp) : Dsp := if b then { d with ctl := d.ctl ||| 0x100000000 } else d
    let stored (u : State) (n : Nat) (v : Word) (b : Bool) : Prop :=
      let a := busAddr t k Y
      let w := k.post n [Y]
      (∀ x, u.byte x = if a ≤ x ∧ x < a + n then BitVec.ofNat 8 (v.toNat / 256 ^ (x - a)) else s.byte x) ∧
      u.core t = { w with pc := k.pc + 4, dsp := { flag b k.dsp with dconf := (u.core t).dsp.dconf } } ∧
      ∀ j, j ≠ t.val → u.tile j = s.tile j
    (k.dsp.legacy = true →
      (3 < acc.val → exec (.dst t sat acc yr ym sh) s = ill ∧ exec (.dstc t sat acc yr ym sh) s = ill) ∧
      (3 < aa.val → exec (.arnd t sat aa g sh5) s = ill ∧ exec (.atog t g aa) s = ill ∧ exec (.atogh t g aa) s = ill ∧
        exec (.anorm t aa g) s = ill) ∧
      (3 < ad.val → exec (.aclr t ad) s = ill ∧ exec (.gtoa t sat ad g) s = ill) ∧
      (3 < ad.val ∨ 3 < aa.val → exec (.amov t ad aa) s = ill ∧ exec (.aadd t sat ad aa) s = ill ∧
        exec (.asub t sat ad aa) s = ill ∧ exec (.ashl t sat ad aa sh5) s = ill)) ∧
    ((k.dsp.legacy = true → ad.val ≤ 3 ∧ aa.val ≤ 3 ∧ acc.val ≤ 3) →
    (BusesGo t 2 [Y] s → ∃ u q x b, exec (.dst t sat acc yr ym sh) s = .next u ∧ Rounded k.dsp (k.ar acc).toInt sh.toInt q ∧
      fits q x b ∧ stored u 2 (x.setWidth 64) b) ∧
    (acc.val % 2 = 0 → BusesGo t 4 [Y] s → ∃ u q q' x x' b b', exec (.dstc t sat acc yr ym sh) s = .next u ∧
      Rounded k.dsp (k.ar acc).toInt sh.toInt q ∧ Rounded k.dsp (k.ar (acc + 1)).toInt sh.toInt q' ∧ fits q x b ∧
      fits q' x' b' ∧ stored u 4 ((x' ++ x).setWidth 64) (b || b')) ∧
    (acc.val % 2 = 1 → exec (.dstc t sat acc yr ym sh) s = .next (takeException t 0x03 0 s)) ∧
    (∃ q x b, Rounded k.dsp (k.ar aa).toInt (max (-8) (min 7 sh5.toInt)) q ∧ fits q x b ∧
      exec (.arnd t sat aa g sh5) s = r (fun c => { c.setG g (x.signExtend 64) with dsp := flag b c.dsp })) ∧
    exec (.aclr t ad) s = r (fun c => c.setA ad 0) ∧
    exec (.amov t ad aa) s = r (fun c => c.setA ad (k.ar aa)) ∧
    exec (.aadd t sat ad aa) s = r (accumulate sat ad ((k.ar ad).toInt + (k.ar aa).toInt)) ∧
    exec (.asub t sat ad aa) s = r (accumulate sat ad ((k.ar ad).toInt - (k.ar aa).toInt)) ∧
    exec (.atog t g aa) s = r (fun c => c.setG g ((k.ar aa).setWidth 64)) ∧
    exec (.atogh t g aa) s = r (fun c => c.setG g (((k.ar aa) >>> 64).setWidth 16 |>.signExtend 64)) ∧
    exec (.gtoa t sat ad g) s = r (accumulate sat ad (k.gr g).toInt) ∧
    (0 ≤ sh5.toInt → exec (.ashl t sat ad aa sh5) s = r (accumulate sat ad ((k.ar aa).toInt * 2 ^ sh5.toInt.toNat))) ∧
    (sh5.toInt < 0 → ∃ v u, exec (.ashl t sat ad aa sh5) s = .next u ∧ u.free = s.free + 1 ∧
      u.core t = { accumulate sat ad v k with pc := k.pc + 4 } ∧
      v * 2 ^ (-sh5.toInt).toNat < (k.ar aa).toInt + 2 ^ (-sh5.toInt).toNat ∧
      (k.ar aa).toInt < (v + 1) * 2 ^ (-sh5.toInt).toNat ∧ u.mem = s.mem ∧ u.regs = s.regs) ∧
    (∃ n : Nat, exec (.anorm t aa g) s = r (fun c => c.setG g (BitVec.ofInt 64 ((n : Int) - 48))) ∧ n ≤ 79 ∧
      (∀ i, i < n → (k.ar aa).getLsbD (78 - i) = (k.ar aa).getLsbD 79) ∧
      (n < 79 → (k.ar aa).getLsbD (78 - n) ≠ (k.ar aa).getLsbD 79)))

/-- R115, OP 0x34 and 0x37, with R111 and R122. -/
def Obligations.AddressAndSpecialDspRegisters : Prop :=
  ∀ (t : Fin 128) (ar : BitVec 5) (imm : BitVec 13) (idx : BitVec 6) (g : Fin 64) (s : State), Runs t s →
    let k := s.core t
    let r (f : CoreRegs → CoreRegs) : Ans := .next (s.modCore t fun c => { f c with pc := c.pc + 4 })
    let ill : Ans := .next (takeException t 0x03 0 s)
    let v := k.addrReg ar.toNat
    let x := k.gr g
    (ar.toNat ≤ 19 →
      exec (.aset t ar g) s = r (fun c => c.setAddrReg ar.toNat (x.setWidth 32)) ∧
      exec (.aget t ar g) s = r (fun c => c.setG g (v.setWidth 64)) ∧
      (k.dsp.legacy = false → v.toNat / 2 ^ 22 = 0 → exec (.aaddi t ar imm) s =
        r (fun c => c.setAddrReg ar.toNat ((v.setWidth 22 + imm.signExtend 22).setWidth 32))) ∧
      (∀ ring : Nat, k.dsp.legacy = false → v.toNat / 2 ^ 22 = ring * 32 → 7 ≤ ring → ring ≤ 21 → ∃ w : BitVec 32,
        exec (.aaddi t ar imm) s = r (fun c => c.setAddrReg ar.toNat w) ∧ w.toNat / 2 ^ ring = v.toNat / 2 ^ ring ∧
        ((w.toNat % 2 ^ ring : Nat) : Int) = ((v.toNat % 2 ^ 22 : Nat) + imm.toInt) % 2 ^ ring) ∧
      (arIllegal k.dsp.legacy v = true → exec (.aaddi t ar imm) s = ill)) ∧
    (19 < ar.toNat → exec (.aset t ar g) s = ill ∧ exec (.aget t ar g) s = ill ∧ exec (.aaddi t ar imm) s = ill) ∧
    exec (.dmfs t g 0) s = r (fun c => c.setG g k.dsp.ctl) ∧ exec (.dmfs t g 1) s = r (fun c => c.setG g k.dsp.dconf) ∧
    exec (.dmfs t g 2) s = r (fun c => c.setG g k.dsp.loopcnt) ∧
    exec (.dmfs t g 3) s = r (fun c => c.setG g k.dsp.loopst) ∧
    exec (.dmfs t g 4) s = r (fun c => c.setG g k.dsp.tbctl) ∧ exec (.dmfs t g 5) s = r (fun c => c.setG g k.dsp.tbst) ∧
    (6 ≤ idx.toNat → exec (.dmfs t g idx) s = ill) ∧
    (idx.toNat = 1 ∨ idx.toNat = 2 ∨ idx.toNat = 3 ∨ 6 ≤ idx.toNat → exec (.dmts t g idx) s = ill) ∧
    exec (.dmts t g 4) s = r (fun c => { c with dsp := { c.dsp with tbctl := x &&& 0x7F7F7F1F } }) ∧
    exec (.dmts t g 5) s = r (fun c => { c with dsp := { c.dsp with tbst := x &&& 0x3F } }) ∧
    (let b := (x.toNat / 2 ^ 16) % 16
     let m := x.toNat % 4
     let ctl := (x &&& 0x100100300) ||| BitVec.ofNat 64 (2 ^ 16 * min 11 b) ||| BitVec.ofNat 64 (if m = 3 then 0 else m)
     (x.getLsbD 8 = false →
        exec (.dmts t g 0) s = r (fun c => { c with dsp := { c.dsp with ctl := ctl } })) ∧
     (x.getLsbD 8 = true → ∃ u, exec (.dmts t g 0) s = .next u ∧
        u.core t = { k with a := (u.core t).a, dsp := { k.dsp with ctl := ctl }, pc := k.pc + 4 } ∧
        ∀ i < 8, (u.core t).ar i = ((k.ar i).setWidth 48).signExtend 80))

/-- The parity of the bits of `x` among the lowest seven is odd. -/
def oddParity (x : Nat) : Bool := ((List.range 7).filter fun i => x.testBit i).length % 2 == 1

/-- The branch metric of window `w` (R132): the sum of the LLRs, each with the sign that the coded bit's parity gives. -/
def metric (d : Dsp) (g : Word) (w : Nat) : Int :=
  ((List.range (d.tbctl.toNat / 8 % 4)).map fun i =>
    let l := (BitVec.ofNat 8 (g.toNat / 256 ^ i)).toInt
    let l := if l = -128 then -127 else l
    if oddParity (w &&& d.tbctl.toNat / 2 ^ (8 + 8 * i) % 128) then -l else l).sum

/-- R131 to R134. -/
def Obligations.AddCompareSelectResults : Prop :=
  ∀ (t : Fin 128) (d a : Fin 32) (b gd ga : Fin 64) (s : State), Runs t s →
    let k := s.core t
    let K := k.dsp.tbctl.toNat % 8
    let N := 2 ^ (K - 1)
    let nout := k.dsp.tbctl.toNat / 8 % 4
    let good := 3 ≤ K ∧ (nout = 2 ∨ nout = 3) ∧ ∀ i < nout, k.dsp.tbctl.toNat / 2 ^ (8 + 8 * i) % 128 < 2 ^ K
    let ln (i : Nat) : BitVec 16 := BitVec.ofNat 16 (lane 1 (k.vr a) i)
    let cand (p u : Nat) : BitVec 16 := ln p + BitVec.ofInt 16 (metric k.dsp (k.gr b) (2 * p + u))
    let dec (st : Nat) : Bool := decide (0 < (cand (st / 2 + N / 2) (st % 2) - cand (st / 2) (st % 2)).toInt)
    let ca3 := k.addrReg 19
    let ill : Ans := .next (takeException t 0x03 0 s)
    (k.dsp.legacy = true ∨ ¬ good →
      exec (.acs t d a b) s = ill ∧ exec (.best t gd a) s = ill ∧ exec (.tbk t gd ga) s = ill) ∧
    (k.dsp.legacy = false → good →
      (BusesGo t 8 [⟨19, 0⟩] s →
        ∃ u v D, exec (.acs t d a b) s = .next u ∧
          u.core t = { (k.setV d v).setAddrReg 19 (arMove false ca3 8) with
            pc := k.pc + 4, dsp := { k.dsp with dconf := (u.core t).dsp.dconf } } ∧
          (∀ st < 64, lane 1 v st = if st < N then
            (if dec st then cand (st / 2 + N / 2) (st % 2) else cand (st / 2) (st % 2)).toNat else 0) ∧
          (∀ st < 64, (D : Word).getLsbD st = (decide (st < N) && dec st)) ∧
          (let x := busAddr t k ⟨19, 0⟩
           ∀ y, u.byte y = if x ≤ y ∧ y < x + 8 then BitVec.ofNat 8 (D.toNat / 256 ^ (y - x)) else s.byte y) ∧
          ∀ j, j ≠ t.val → u.tile j = s.tile j) ∧
      (∃ best, exec (.best t gd a) s =
          .next (s.modCore t fun c => { c.setG gd (BitVec.ofNat 64 best) with pc := c.pc + 4 }) ∧ best < N ∧
        ∀ st < N, (ln st - ln 0).toInt ≤ (ln best - ln 0).toInt ∧
          (st < best → (ln st - ln 0).toInt < (ln best - ln 0).toInt)) ∧
      (let n := (k.gr ga).toNat % 128
       let at_ (i : Nat) : BitVec 32 := Nat.repeat (fun r => arMove false r (-8)) (i + 1) ca3
       let off (i : Nat) : Nat := tileBase t + (at_ i).toNat % 2 ^ 22
       ((n = 0 ∨ 64 < n ∨ arIllegal false ca3 = true) → exec (.tbk t gd ga) s = ill) ∧
       (1 ≤ n → n ≤ 64 → arIllegal false ca3 = false →
         (∀ i < n, off i % 8 = 0 ∧ ownCheck t (off i) s = none ∧
           ∀ j < 8, s.eccAt ((off i + j) / 32) = .clean ∧ arrayBusy t (off i + j) s = false) →
         ∃ (u : State) (st : Nat → Nat) (out : Word), exec (.tbk t gd ga) s = .next u ∧
           st 0 = k.dsp.tbst.toNat % 64 ∧
           (∀ i < n, st (i + 1) = (st i / 2 ||| (memValue s (off i) 8 / 2 ^ st i % 2) * 2 ^ (K - 2)) ∧
             out.getLsbD (n - 1 - i) = decide (st i % 2 = 1)) ∧
           (∀ i, n ≤ i → out.getLsbD i = false) ∧
           u.core t = { (k.setG gd out).setAddrReg 19 (at_ (n - 1)) with
             pc := k.pc + 4, dsp := { k.dsp with tbst := BitVec.ofNat 64 (st n % 64), dconf := (u.core t).dsp.dconf } } ∧
           (∀ x, u.byte x = s.byte x) ∧ ∀ j, j ≠ t.val → u.tile j = s.tile j)))

/-- Issue of the matrix instructions (R94 to R97, R140, R143). -/
def Obligations.MatrixIssueQueuesTheOperation : Prop :=
  (∀ (t : Fin 128) (ga gb gs : Fin 64) (arr : Fin 4) (ope acc : Bool) (tag : Fin 8) (k n : BitVec 7) (m : BitVec 12)
      (wb wf af : BitVec 4) (out : BitVec 2) (s : State), RunsLong t s →
    let c := s.core t
    let u := unitOf arr ope
    let x := (s.tile t).munit u
    let free := decide (x.queue.length < 4) && x.gangPend.isEmpty && !c.tagBusy.getLsbD tag
    let issued (o : MatOp) (y : MUnit) : Ans := .next (s.modTile t fun z =>
      let z := z.setUnit u { y with queue := y.queue ++ [o] }
      { z with core := { z.core with tagBusy := z.core.tagBusy ||| (1#8 <<< tag.val), pc := z.core.pc + 8 } })
    let fmt : Fmt := ⟨k.toNat + 1, n.toNat + 1, wb.toNat + 1, wf.toNat⟩
    let plane := if wf = 2 then 0 else x.nextPlane
    let load : MatOp := {
      str := false, ga := c.gr ga, gb := c.gr gb, gs := 0, scaled := gb != 0, fmt := fmt, plane := plane,
      m := 0, afmt := 0, out := 0, acc := false, tag := some tag, gang := none, running := false, nextRow := 0, q := [],
      foot := [], dig := 0, late := false }
    let stream : MatOp := {
      str := true, ga := c.gr ga, gb := c.gr gb, gs := c.gr gs, scaled := gs != 0, fmt := x.fmt,
      plane := x.curPlane, m := m.toNat + 1, afmt := af.toNat, out := out.toNat, acc := acc, tag := some tag, gang := none,
      running := false, nextRow := 0, q := [], foot := [], dig := 0, late := false }
    let okL := unitOk t arr ope && loadOk u (k.toNat + 1) (n.toNat + 1) wb.toNat wf.toNat
    let okS := unitOk t arr ope && streamOk u x.fmt af.toNat out.toNat
    (okL = false → exec (.mldw t ga gb arr ope tag k n wb wf) s = .next (takeException t 0x03 0 s)) ∧
    (okS = false → exec (.mstr t ga gb arr ope tag acc m af out gs) s = .next (takeException t 0x03 0 s)) ∧
    (free = false → (okL = true → exec (.mldw t ga gb arr ope tag k n wb wf) s = .next s) ∧
      (okS = true → exec (.mstr t ga gb arr ope tag acc m af out gs) s = .next s)) ∧
    (free = true → okL = true → exec (.mldw t ga gb arr ope tag k n wb wf) s =
      issued load { x with curPlane := plane, nextPlane := if wf = 2 then 0 else 1 - plane, fmt := fmt }) ∧
    (free = true → okS = true → exec (.mstr t ga gb arr ope tag acc m af out gs) s = issued stream x)) ∧
  (∀ k n, k ≤ 128 → n ≤ 128 → ∀ u < 4, (∀ wb < 16, loadOk u k n wb 0 = true ∧ loadOk u k n wb 1 = true ∧
      (loadOk u k n wb 2 = true ↔ wb = 15) ∧ (loadOk u k n wb 3 = true ↔ wb = 0) ∧
      ∀ wf, 4 ≤ wf → loadOk u k n wb wf = false) ∧
    ∀ wf, loadOk 4 k n 0 wf = decide (4 ≤ wf ∧ wf ≤ 13 ∧ k ≤ 64 ∧ n ≤ 64)) ∧
  (∀ (f : Fmt) (af out : Nat), (∀ u < 4, streamOk u f af out = decide (out < 2 ∧
      (f.wf < 2 ∧ (af = 0 ∨ af = 0xE) ∨ f.wf = 2 ∧ af = 2 ∨ f.wf = 3 ∧ af = 3))) ∧
    streamOk 4 f af out = decide (out < 2 ∧ 4 ≤ af ∧ af ≤ 13 ∧ 4 ≤ f.wf ∧ f.wf ≤ 13)) ∧
  (∀ (t arr : Nat), unitOk t arr false = true ∧ unitOk t arr true = decide (arr = 0 ∧ t % 8 = 0))

/-- The unit's states (R141, R144, R160, R161, R165). -/
def Obligations.MatrixUnitsStartKeepAndRamp : Prop :=
  ∀ (t : Fin 128) (u : Fin 5) (o : MatOp) (s : State),
    let m := (s.tile t).munit u
    let put (m' : MUnit) : Ans := .next (modUnit t u (fun _ => m') s)
    (trimmed t s = true → exec (.matrixOperationStart t u) s = .next s ∧ exec (.gangOperationStart t u) s = .next s) ∧
    (m.queue = [o] → o.running = false → trimmed t s = false →
      (m.st = .idle ∨ m.st = .rampDown → exec (.matrixOperationStart t u) s = put { m with st := .rampUp }) ∧
      (m.st = .active ∨ m.st = .keep → o.inRange t = true →
        exec (.matrixOperationStart t u) s = put { m with st := .active, queue := [{ o with running := true }] }) ∧
      (∀ g, m.st = .active ∨ m.st = .keep → o.inRange t = false → o.tag = some g →
        ∃ v, exec (.matrixOperationStart t u) s = .next v ∧ ((v.tile t).munit u).queue = [] ∧
          (v.core t).tagBusy = (s.core t).tagBusy &&& ~~~ (1#8 <<< g) ∧
          (v.core t).tagErr = (s.core t).tagErr ||| (1#8 <<< g) ∧ v.rb .TILE_ARR_ERR 3 t u = true ∧ v.mem = s.mem) ∧
      (m.st = .rampUp → o.inRange t = true →
        exec (.matrixOperationStart t u) s = .next s ∧
        ∃ v, exec (.rampUpEnd t u) s = .next v ∧
          (v.tile t).munit u = { m with st := .active, queue := [{ o with running := true }] } ∧ v.mem = s.mem ∧
          v.regs = s.regs ∧ v.core t = s.core t)) ∧
    (m.queue = [] → m.gangPend = [] → m.st = .keep → m.keepAt + s.rf .TILE_ARR_CTL 18 10 t u ≤ s.now →
      exec (.keepEnd t u) s = put { m with st := .rampDown }) ∧
    ((m.queue ≠ [] ∨ s.now < m.keepAt + s.rf .TILE_ARR_CTL 18 10 t u) → exec (.keepEnd t u) s = .next s) ∧
    (m.st = .rampDown → exec (.rampDownEnd t u) s = put { m with st := .idle }) ∧
    (∀ os ls, m.gangPend = o :: os ++ ls → (∀ x ∈ os, x.gang = o.gang) → (∀ x ∈ ls.head?, x.gang ≠ o.gang) →
      (m.queue = [] ∨ o.str = false ∧ o.fmt.wf ≠ 2 ∧
        ∀ b ∈ m.queue, b.str = true ∧ b.fmt.wf ≠ 2 ∧ b.plane ≠ o.plane) →
      o.inRange t = true → m.st ≠ .saving → m.st ≠ .restoring → trimmed t s = false →
      ∃ v, exec (.gangOperationStart t u) s = .next v ∧
        (v.tile t).munit u =
          { m with queue := m.queue ++ { o with running := true } :: os, gangPend := ls, st := .active } ∧
        v.mem = s.mem ∧ v.core t = s.core t ∧
        v.rf .TILE_ARR_CNT 47 32 t u = s.rf .TILE_ARR_CNT 47 32 t u +
          (if o.late = true ∧ s.rf .TILE_ARR_CNT 47 32 t u < 65535 then 1 else 0)) ∧
    (m.gangPend = [] → exec (.gangOperationStart t u) s = .next s) ∧
    (∀ os, m.gangPend = o :: os → o.str = true → m.queue ≠ [] → exec (.gangOperationStart t u) s = .next s) ∧
    (trimmed t s = true ↔ s.pwr.hist ≠ [] ∧ s.rf .PWR_GOV_STAT 6 0 = 0 ∧ (s.radio = true →
      match (s.tile t).cx with
      | some c => s.cxPart c ≠ 0
      | none => s.holdsTile 0 t = false))

/-- The bit-serial array on integers, from memory to memory (R136, R137, R145, R146), and what completion does (R97, R154).
One row; each row of a longer stream is written by the same function. -/
def Obligations.IntegerStreamsAreExactDotProducts : Prop :=
  ∀ (t : Fin 128) (u : Fin 5) (o : MatOp) (g : Nat) (s : State), u.val < 4 →
    let m := (s.tile t).munit u
    let w := (m.weights o).rows
    let ob := outBits o.fmt.wf o.out
    let ab := actBits o.afmt
    let clean (a n : Nat) : Prop := ∀ i < n, s.eccAt ((a + i) / 32) = .clean
    let free (v : State) : Prop := (v.core t).tagBusy = (s.core t).tagBusy &&& ~~~ (1#8 <<< g) ∧
      (v.core t).tagErr = (s.core t).tagErr ∧ ((v.tile t).munit u).queue = []
    m.queue = [o] → o.running = true → o.tag = some g → o.gang = none → o.fmt.wf < 2 → o.inRange t = true →
    (o.str = true → o.m = 1 → o.nextRow = 0 → o.afmt = 0 ∨ o.afmt = 0xE → o.out < 2 →
      clean (o.acts.row 0) o.acts.len → clean (o.outs.row 0) o.outs.len → o.acts.meets o.outs = false →
      let x (r : Nat) : Int := (BitVec.ofNat ab (memValue s (o.acts.row 0 + r * (ab / 8)) (ab / 8))).toInt
      let wt (r c : Nat) : Int :=
        let e := (w.getD r []).getD c 0
        if o.fmt.wf = 1 then (e : Int) else (BitVec.ofNat o.fmt.wb e).toInt
      let v (c : Nat) : Int := ((List.range o.fmt.k).map fun r => wt r c * x r).sum
      let at_ (c : Nat) : Nat := o.outs.row 0 + c * (ob / 8)
      let osh := o.gb.toNat / 2 ^ 52 % 16
      ∃ n, exec (.matrixOperationComplete t u true ⟨[], 0, []⟩) s = .next n ∧ free n ∧
        (∀ c < o.fmt.n, ∃ q : Int,
          (2 * (q * 2 ^ osh - v c) ≤ 2 ^ osh ∧ 2 * (v c - q * 2 ^ osh) ≤ 2 ^ osh ∧
            (2 * (q * 2 ^ osh - v c) = 2 ^ osh ∨ 2 * (v c - q * 2 ^ osh) = 2 ^ osh → osh ≠ 0 → q % 2 = 0)) ∧
          (BitVec.ofNat ob (memValue n (at_ c) (ob / 8))).toInt =
            max (-(2 ^ (ob - 1))) (min (2 ^ (ob - 1) - 1)
              (q + if o.acc then (BitVec.ofNat ob (memValue s (at_ c) (ob / 8))).toInt else 0))) ∧
        (∀ a, ¬ (o.outs.row 0 ≤ a ∧ a < o.outs.row 0 + o.outs.len) → n.byte a = s.byte a) ∧
        (n.tile t).digest = (s.tile t).digest + BitVec.ofInt 64 (o.dig + ((List.range o.fmt.n).map v).sum)) ∧
    (o.str = false → (∀ r < o.fmt.k, clean (o.weights.row r) o.weights.len) →
      ∃ n, exec (.matrixOperationComplete t u false ⟨[], 0, []⟩) s = .next n ∧ free n ∧ (∀ a, n.byte a = s.byte a) ∧
        (let p := if o.plane = 0 then ((n.tile t).munit u).plane0 else ((n.tile t).munit u).plane1
         p.loaded = true ∧ p.rows.length = o.fmt.k ∧
         ∀ r < o.fmt.k, (p.rows.getD r []).length = o.fmt.n ∧ ∀ c < o.fmt.n,
           (p.rows.getD r []).getD c 0 =
             memValue s (o.weights.row r) o.weights.len / 2 ^ (c * o.fmt.wb) % 2 ^ o.fmt.wb))

/-- Gang operations (R163 to R166) and the unit error flags (R172). -/
def Obligations.GangOperationsRunAndSignal : Prop :=
  (∀ (t : Fin 128) (d : Delivery) (s : State), s.deliveries = [d] → d.action = 3 → d.mask = 1#128 <<< t.val →
    s.dormant (domQuad t) = false → (s.tile t).run ≠ .halted →
    let a := s.rf .TILE_GANG_BASE 51 6 t * 64 + d.arg * 64
    let ws := leWords (bytesAt a 64 s)
    let w0 := wordAt ws 0
    let us := gangUnits t w0
    let id := (s.tile t).gangNext
    (d.arg < 4096 → (∃ o, spaceOf a = .hamlet (t.val / 16) o) → (∀ i < 64, s.eccAt ((a + i) / 32) = .clean) →
      fld w0 58 57 ≠ 3 → gangReserved ws = false → (∀ u ∈ us, gangUnitOk t u ws s = true) →
      ∃ n, exec .gangStart s = .next n ∧ n.deliveries = [] ∧ n.mem = s.mem ∧ n.regs = s.regs ∧
        (n.tile t).gangs = (s.tile t).gangs ++ [⟨id, false, fld w0 52 48, fld w0 47 43, d.owner⟩] ∧
        n.core t = s.core t ∧
        (∀ u, (u ∈ us ↔ (u < 4 ∧ w0.getLsbD (60 + u) = true) ∨ (u = 4 ∧ w0.getLsbD 59 = true ∧ t.val % 8 = 0))) ∧
        (∀ u ∈ us, ∃ os, ((n.tile t).munit u).gangPend = ((s.tile t).munit u).gangPend ++ os ∧
          os.map (·.str) = (if fld w0 58 57 = 0 then [false] else if fld w0 58 57 = 1 then [true] else [false, true]) ∧
          (∀ o ∈ os, o.gang = some id ∧ o.tag = none) ∧
          (os.map (·.late)).head? = some (!(((s.tile t).munit u).queue.isEmpty && ((s.tile t).munit u).gangPend.isEmpty)) ∧
          (∀ o ∈ os.tail, o.late = false) ∧
          ((n.tile t).munit u).queue = ((s.tile t).munit u).queue) ∧
        ∀ u, u ∉ us → (n.tile t).munit u = (s.tile t).munit u) ∧
    (4096 ≤ d.arg → ∃ n, exec .gangStart s = .next n ∧ n.deliveries = [] ∧ n.mem = s.mem ∧
      (∀ u < 4, n.rb .TILE_ARR_ERR 5 t u = true) ∧ (n.tile t).gangs = (s.tile t).gangs ∧
      (n.tile t).units = (s.tile t).units)) ∧
  (∀ (t : Fin 128) (g : GangRun) (gs : List GangRun) (s : State), (s.tile t).gangs = g :: gs →
    (∀ o ∈ (s.tile t).matOps, o.gang ≠ some g.id) → (∀ h ∈ gs, h.id ≠ g.id) →
    exec (.gangComplete t) s = .next (deliverEvt g.owner t
      ((1#32 <<< g.doneBit) ||| (if g.failed then 1#32 <<< g.errBit else 0)) (s.modTile t fun x => { x with gangs := gs }))) ∧
  (∀ (t : Fin 128) (s : State), (s.tile t).gangs = [] → exec (.gangComplete t) s = .next s) ∧
  (∀ (t : Fin 128) (u : Fin 5) (v : Word) (s : State),
    let e := s.reg .TILE_ARR_ERR t u
    let e' := e &&& ~~~ (v &&& 0x3F)
    exec (.tileArrErrClear t u v) s = .next (if s.enabled t = true ∧ (u.val < 4 ∨ t.val % 8 = 0) then
      s.setReg .TILE_ARR_ERR (if v &&& 0x13 = 0x13 then e' &&& 0xFFFFFFFFFFFF else e') t u else s))

/-- R47: an accepted rate takes effect on the next tick; another is ignored and sets RATE_REJECT. -/
def Obligations.RateWritesFollowR47 : Prop :=
  ∀ (v : Word) (s : State),
    let x := (v.setWidth 32).toInt
    (-219902326 ≤ x → x ≤ 219902326 → ∃ u, exec (.tbRateWrite v) s = .next u ∧
      u.reg .TB_RATE = (s.reg .TB_RATE &&& 0xFFFFFFFF00000000) ||| (v &&& 0xFFFFFFFF) ∧
      u = { s.setReg .TB_RATE (u.reg .TB_RATE) with tb := { s.tb with ratePend := true } } ∧
      (s.pending = [] → s.tb.stepGo = false → ∃ w, step u = .next w ∧ w.tb.rate = x ∧ w.tb.ratePend = false ∧
        (s.tb.rem = 0 → w.tb.eff = x ∧ w.tb.now = s.tb.now + 2 ^ 40 + s.tb.eff))) ∧
    (x < -219902326 ∨ 219902326 < x → exec (.tbRateWrite v) s = .next (s.flag .TB_EVT 3))

/-- The slew (R48 to R50) and the continuity of device time (R43). -/
def Obligations.SlewsCorrectExactly : Prop :=
  ∀ (v : Word) (s : State),
    let a := (v.setWidth 48).toInt
    (∃ u, exec (.tbAdjWrite v) s = .next u ∧ u.tb.rem = a * 2 ^ 21 ∧ u.tb.now = s.tb.now ∧ u.tb.ticks = s.tb.ticks ∧
      u.tb.rate = s.tb.rate ∧ u.tb.lastAdj = s.tb.ticks ∧
      (s.fh.live = [] → (u.rb .TB_EVT 4 = true ↔ s.rb .TB_EVT 4 = true ∨ s.tb.rem ≠ 0) ∧
        ∀ r i j, addrOf r i j ≠ addrOf .TB_EVT 0 0 → u.reg r i j = s.reg r i j)) ∧
    regValue .steward .TB_ADJ 0 0 s = (BitVec.ofInt 48 (s.tb.rem.tdiv (2 ^ 21))).setWidth 64 ∧
    ((regValue .steward .TB_STATE 0 0 s).getLsbD 4 = true ↔ s.tb.rem ≠ 0) ∧
    (s.tb.rem ≠ 0 → s.tb.rem.natAbs ≤ s.tb.slewMax → s.tb.stepGo = false → ∃ u, exec .slewEnd s = .next u ∧
      u.tb.rem = 0 ∧ u.tb.now = s.tb.now + 2 ^ 40 + s.tb.rate + s.tb.rem ∧ (Calm s → u.regs = s.regs) ∧ u.mem = s.mem) ∧
    (s.tb.rem = 0 ∨ s.tb.slewMax < s.tb.rem.natAbs → exec .slewEnd s = .next s) ∧
    exec (.tbSlewMaxWrite v) s = .next { s.setReg .TB_SLEW_MAX (BitVec.ofNat 64 (min 219902326 (max 1 (v.toNat % 2 ^ 28)))) with
      tb := { s.tb with slewPend := true } } ∧
    (s.pending = [] → s.tb.stepGo = false → s.tb.rate.natAbs ≤ 219902326 → s.tb.slewMax ≤ 219902326 →
      s.tb.eff = s.tb.wantEff → ∃ w, step s = .next w ∧ s.tb.now < w.tb.now ∧ w.tb.eff = w.tb.wantEff)

/-- The lock states (R52). -/
def Obligations.LockStatesFollowR52 : Prop :=
  ∀ (g : Bool) (v : Word) (s : State),
    let l := s.tb.lock
    let small := (v.setWidth 48).toInt.natAbs ≤ s.rf .TB_LOCK_CFG 19 0 * 65536
    let large := s.rf .TB_LOCK_CFG 39 20 * 65536 < (v.setWidth 48).toInt.natAbs
    let run := if l = .freerun then 0 else if small then min 255 (s.tb.lockRun + 1) else 0
    let to_ (c : Instr) (k : LockState) (n : Nat) : Prop := ∃ u, exec c s = .next u ∧ u.tb.lock = k ∧ u.tb.now = s.tb.now ∧
      u.tb.lockRun = (if k = .freerun ∧ l ≠ .freerun then 0 else n) ∧
      (s.fh.live = [] → (u.rb .TB_EVT 0 = true ↔ s.rb .TB_EVT 0 = true ∨ k ≠ l) ∧ u.mem = s.mem ∧ u.tiles = s.tiles)
    let guard (c : Instr) : Prop := ∀ u, s.fh.live = [] → exec c s = .next u → u.rb .TB_CTL 8 = g
    to_ (.freerun g) .freerun s.tb.lockRun ∧ guard (.freerun g) ∧
    to_ (.acquire g) (if l = .freerun then .acquiring else l) s.tb.lockRun ∧ guard (.acquire g) ∧
    to_ (.holdover g) (if l = .locked then .holdover else l) s.tb.lockRun ∧ guard (.holdover g) ∧
    (l = .freerun → to_ (.tbAdjWrite v) .freerun run) ∧
    (l = .acquiring → to_ (.tbAdjWrite v)
      (if small ∧ max 1 (s.rf .TB_LOCK_CFG 47 40) ≤ run then .locked else .acquiring) run) ∧
    (l = .locked → to_ (.tbAdjWrite v) (if large then .acquiring else .locked) run) ∧
    (l = .holdover → to_ (.tbAdjWrite v) (if small then .locked else .acquiring) run) ∧
    (l = .locked → max 1 (s.rf .TB_LOCK_CFG 63 48) * 125000 ≤ s.tb.ticks - s.tb.lastAdj →
      to_ .holdTimeout .holdover s.tb.lockRun) ∧
    (l ≠ .locked ∨ s.tb.ticks - s.tb.lastAdj < max 1 (s.rf .TB_LOCK_CFG 63 48) * 125000 →
      exec .holdTimeout s = .next s)

/-- R51. The state without a step is what an idle tick gives with the request withdrawn. Bells that are due fire first on
the tick (R66), so those still armed after that guard it. -/
def Obligations.StepsFollowR51 : Prop :=
  ∀ (v : Word) (s : State),
    exec (.tbStepGo v) s = .next (if v.getLsbD 0 then { s with tb := { s.tb with stepGo := true } } else s) ∧
    (s.tb.stepGo = false → exec .stepApply s = .next s) ∧
    (s.tb.stepGo = true →
      let m := { s with tb := { s.tb with stepGo := false } }
      let ns := s.reg .TB_STEP_NS
      let part : Int := (ns.toNat / 2 ^ 16 % 2 ^ 30 : Nat) * 2 ^ 37 + (ns.toNat % 2 ^ 16 : Nat) * 2 ^ 21
      let amount : Int := (s.reg .TB_STEP_SEC).toInt * 1000000000 * 2 ^ 37 + (if ns.getLsbD 63 then -part else part)
      let b := fireAll s
      let guarded := ∃ h < 9, ∃ n < 64, b.rb .BELL_CTL 2 h n = true ∧ b.rb .BELL_CTL 12 h n = true ∧
        b.rf .BELL_CTL 19 16 h n = 0
      let ok := (s.tb.lock = .freerun ∨ s.tb.lock = .acquiring) ∧ (s.rb .TB_CTL 8 = false ∨ ¬ guarded)
      ∃ t u, step { m with pending := [] } = .next t ∧ exec .stepApply s = .next u ∧ u.pending = s.pending ∧
        u.mem = s.mem ∧ u.tiles = s.tiles ∧
        (¬ ok → u.tb = t.tb ∧ u.rb .TB_EVT 2 = true ∧
          (Calm s → { u with pwr := s.pwr } = { t.flag .TB_EVT 2 with pending := s.pending, pwr := s.pwr })) ∧
        (ok → u.tb.now = t.tb.now + amount ∧ u.tb.rem = 0 ∧ u.tb.stepGo = false ∧ u.tb.rate = t.tb.rate ∧
          u.tb.ticks = t.tb.ticks ∧ u.rb .TB_EVT 1 = true ∧ (Calm s → u.regs = (s.flag .TB_EVT 1).regs)))

/-- Captures, pulses and timestamps (R45, R57, R58, R61, R62). -/
def Obligations.CapturesPulsesAndTimestamps : Prop :=
  ∀ (p : Fin 16) (v : Word) (s : State),
    let sel := s.rf .TB_FSRC 1 0
    let sel := if sel = 3 then 0 else sel
    let age : Int := (s.tb.now - (BitVec.ofNat 32 ((s.reg .TB_PPSO_CTL).toNat / 2 ^ 32)).toInt * 2 ^ 35) % (10 ^ 9 * 2 ^ 37)
    let due := age < 8 * 2 ^ 37 + s.tb.eff ∧ s.tb.ppsAt ≠ some s.tb.ticks
    let width := min 999999 (max 1 (s.rf .TB_PPSO_CTL 27 8))
    let state := match s.tb.lock with | .freerun => 0 | .acquiring => 1 | .locked => 2 | .holdover => 3
    (v.getLsbD 0 = true → exec (.tbSnap v) s = .next ((((s.setReg .TB_SNAP_SEC (BitVec.ofInt 64 (s.tb.now / 2 ^ 37 / 10 ^ 9))).setReg
      .TB_SNAP_NS (BitVec.ofInt 64 (s.tb.now / 2 ^ 37 % 10 ^ 9 * 2 ^ 16 + s.tb.now % 2 ^ 37 / 2 ^ 21))).setReg
      .TB_SNAP_CNT (BitVec.ofNat 64 (s.tb.ticks * 8))).setReg .TB_SNAP_CNTF 0)) ∧
    (v.getLsbD 0 = false → exec (.tbSnap v) s = .next s) ∧
    exec .fsrcLoss s = .next { (((s.putReg .TB_FSRC 17 16 3).flag .TB_FSRC 4).flag .TB_EVT 6) with
      tb := { s.tb with fsrcHeld := true, fsrcAt := s.tb.ticks } } ∧
    (s.tb.fsrcHeld = true → s.tb.fsrcAt + 125000000 ≤ s.tb.ticks → exec .fsrcRelock s = .next { ((s.putReg .TB_FSRC 17 16 sel).unflag .TB_FSRC 4) with
      tb := { s.tb with fsrcHeld := false } }) ∧
    (s.tb.fsrcHeld = false ∨ s.tb.ticks < s.tb.fsrcAt + 125000000 → exec .fsrcRelock s = .next s) ∧
    (due → s.rb .TB_PPSO_CTL state = true → exec .ppsOutEdge s = .next { s with
      tb := { s.tb with ppsAt := some s.tb.ticks, ppsEnd := some (s.now + width * 1000) }, wire := .pps true :: s.wire }) ∧
    (¬ due ∨ s.rb .TB_PPSO_CTL state = false → exec .ppsOutEdge s = .next s) ∧
    (∀ e, s.tb.ppsEnd = some e → exec .ppsOutPulseEnd s =
      .next (if e ≤ s.now then { s with tb := { s.tb with ppsEnd := none }, wire := .pps false :: s.wire } else s)) ∧
    (s.tb.ppsEnd = none → exec .ppsOutPulseEnd s = .next s) ∧
    (∀ a, s.tb.ppsInAt = some a → s.tb.ticks - a < 62500000 → exec .ppsInEdge s = .next s) ∧
    ((∀ a, s.tb.ppsInAt = some a → 62500000 ≤ s.tb.ticks - a) →
      let n : Int := s.tb.now - (s.rf .TB_PPSI_DLY 31 0 : Nat) * 2 ^ 21
      exec .ppsInEdge s = .next ({ ((s.setReg .TB_PPSI_SEC (BitVec.ofInt 64 (n / 2 ^ 37 / 10 ^ 9))).setReg .TB_PPSI_NS
        (BitVec.ofInt 64 (n / 2 ^ 37 % 10 ^ 9 * 2 ^ 16 + n % 2 ^ 37 / 2 ^ 21))) with
          tb := { s.tb with ppsInAt := some s.tb.ticks } }.flag .TB_EVT 5)) ∧
    (∀ hi lo q, s.tsFifo p = (hi, lo) :: q → ∃ u, exec (.tbPortTsLoRead p) s = .next u ∧ u.tsFifo p = q ∧
      (∀ k, k ≠ p.val → u.tsFifo k = s.tsFifo k) ∧ u.wire = .readData (addrOf .TB_PORT_TS_LO p 0) lo :: s.wire ∧
      u.regs = s.regs ∧ u.mem = s.mem) ∧
    (s.tsFifo p = [] → exec (.tbPortTsLoRead p) s =
      .next { s with wire := .readData (addrOf .TB_PORT_TS_LO p 0) 0 :: s.wire }) ∧
    exec (.tbPortTsStatRead p) s = .next { s.putReg .TB_PORT_TS_STAT 47 32 0 p with
      wire := .readData (addrOf .TB_PORT_TS_STAT p 0)
        ((s.reg .TB_PORT_TS_STAT p &&& 0xFFFF00000000) ||| BitVec.ofNat 64 ((s.tsFifo p).length % 128)) :: s.wire }

/-- The first condition of R69 that refuses to arm bell `n` of Belfry `h` with word 1 `act` and period `per`, as LAST shows
it: 5 INVALID, 4 DENIED, 0 for none. -/
def Refuses (h n : Nat) (act : Word) (per : Nat) (by_ : Option Nat) (s : State) : Nat :=
  let code := act.toNat / 2 ^ 48 % 4096
  let target := act.toNat / 2 ^ 32 % 65536
  let owner := s.rf .BELL_CTL 19 16 h n
  let mask := code = 1 ∨ code = 2 ∨ code = 3 ∨ code = 8
  if 10 < code ∨ code = 10 ∧ h ≠ 8 then 5
  else if per ≠ 0 ∧ per < 1000 then 5
  else if mask ∧ (if h = 8 then 32 else 16) ≤ target then 5
  else if (code = 5 ∨ code = 6) ∧ 15 < target ∨ code = 4 ∧ 31 < target ∨ code = 7 ∧ 255 < target ∨ code = 9 ∧ 31 < target then 5
  else if s.rb .BELL_CTL 12 h n = false ∨ holdsTarget owner code target s = false then 4
  else match by_ with
    | some p => if p = owner then 0 else 4
    | none => 0

/-- From `s` to `u` bell `n` of Belfry `h` has been refused with LAST `k`: LAST shows it, BELL_STAT counts it, a DENIED sets
BELL_DENIED, and the bell's other fields, its entry and memory stand. -/
def WasRefused (h n k : Nat) (s u : State) : Prop :=
  u.reg .BELL_CTL h n = (s.reg .BELL_CTL h n &&& ~~~ 0x700) ||| BitVec.ofNat 64 (k * 256) ∧
  (∀ r, r = .BELL_TIME ∨ r = .BELL_ACT ∨ r = .BELL_PERIOD → u.reg r h n = s.reg r h n) ∧
  u.rf .BELL_STAT 31 16 h = min 65535 (s.rf .BELL_STAT 31 16 h + if k = 4 then 1 else 0) ∧
  u.rf .BELL_STAT 15 0 h = min 65535 (s.rf .BELL_STAT 15 0 h + if k = 4 then 0 else 1) ∧
  (u.rb .TB_EVT 9 = true ↔ s.rb .TB_EVT 9 = true ∨ k = 4) ∧ u.mem = s.mem ∧ u.bellArm = s.bellArm

/-- Arming and disarming (R69, R70, R101). -/
def Obligations.BellsArmUnderTheChecks : Prop :=
  ∀ (h : Fin 9) (n : Fin 64) (v : Word) (s : State), s.fh.live = [] →
    let armed (s : State) (h n : Nat) := s.rb .BELL_CTL 2 h n
    let due (h n : Nat) := s.rb .BELL_CTL 2 h n = true ∧ (s.reg .BELL_TIME h n).toNat ≤ s.now
    let out (t : Nat) := s.fab.peers.any fun e => e.2.sent.any fun o => o.tag == .tile t && !o.lost
    -- what a disarm of a due bell leaves: the bell has fired, and is idle
    let fired (h n : Nat) (u : State) : Prop := u.rb .BELL_CTL 2 h n = false ∧
      u.rf .BELL_CTL 63 48 h n = (s.rf .BELL_CTL 63 48 h n + 1) % 65536 ∧ u.rb .BELL_FIRED n h = true ∧ u.mem = s.mem ∧
      ((∀ m < 64, m ≠ n → ¬ due h m) → u.deliveries = (fireBell h n s).deliveries)
    let armedNow (h n : Nat) (ctl : Word) (s u : State) : Prop := u.reg .BELL_CTL h n = ctl ||| 4 ∧
      Tab.get (fun _ => 0) u.bellArm (h * 64 + n) = (if s.tb.now % 2 ^ 37 = 0 then s.now else s.now + 1) ∧ u.mem = s.mem ∧ u.deliveries = s.deliveries
    (let ctl := (s.reg .BELL_CTL h n &&& ~~~ 0xFFFF000F1000) ||| (v &&& 0xFFFF000F1000)
     let w := s.setReg .BELL_CTL ctl h n
     let k := Refuses h n (s.reg .BELL_ACT h n) (s.rf .BELL_PERIOD 39 0 h n) none w
     (v.getLsbD 0 = true → v.getLsbD 1 = true → exec (.arm h n v) s = .next s ∧ exec (.disarm h n v) s = .next s) ∧
     (v.getLsbD 0 = true → v.getLsbD 1 = false → armed s h n = false → ∃ u, exec (.arm h n v) s = .next u ∧
       if k = 0 then armedNow h n ctl s u ∧ u.tiles = s.tiles else WasRefused h n k w u ∧ u.tiles = s.tiles) ∧
     (v.getLsbD 1 = false → armed s h n = true → exec (.arm h n v) s = .next s) ∧
     (v.getLsbD 0 = false → v.getLsbD 1 = true → ¬ due h n →
       exec (.disarm h n v) s = .next (if armed s h n then s.unflag .BELL_CTL 2 h n
         else s.setReg .BELL_CTL ctl h n)) ∧
     (v.getLsbD 0 = false → v.getLsbD 1 = true → due h n → s.now < 2 ^ 63 →
       ∃ u, exec (.disarm h n v) s = .next u ∧ fired h n u)) ∧
    ∀ (t : Fin 128) (d a b : Fin 64), Runs t s →
      let c := s.core t
      let sel := c.gr d
      let hb := if sel.getLsbD 7 then 8 else t.val / 16
      let nb := sel.toNat % 64
      let dsel := c.gr a
      let hd := if dsel.getLsbD 7 then 8 else t.val / 16
      let nd := dsel.toNat % 64
      let on (g : Fin 64) (st : Nat) (c : CoreRegs) : CoreRegs := { c.setG g (BitVec.ofNat 64 st) with pc := c.pc + 4 }
      let per := sel.toNat / 2 ^ 24
      let k := Refuses hb nb (c.gr b) per (some c.part.toNat) s
      (out t = true → exec (.armb t d a b) s = .next s) ∧
      (out t = false → sel.getLsbD 6 = true → exec (.armb t d a b) s = .next (s.modCore t (on d 2))) ∧
      (out t = false → sel.getLsbD 6 = false → armed s hb nb = true → exec (.armb t d a b) s = .next (s.modCore t (on d 3))) ∧
      (out t = false → sel.getLsbD 6 = false → armed s hb nb = false → ∃ u, exec (.armb t d a b) s = .next u ∧
        u.core t = on d (if k = 5 then 2 else if k = 4 then 1 else 0) c ∧
        if k = 0 then
          armedNow hb nb ((s.reg .BELL_CTL hb nb &&& ~~~ 0xFFFF00000000) ||| ((sel &&& 0xFFFF00) <<< (24 : Nat))) s u ∧
          u.reg .BELL_TIME hb nb = c.gr a ∧
          u.reg .BELL_ACT hb nb = (s.reg .BELL_ACT hb nb &&& 0x3000000000000000) ||| (c.gr b &&& ~~~ 0x3000000000000000) ∧
          u.reg .BELL_PERIOD hb nb = BitVec.ofNat 64 per
        else WasRefused hb nb k s u) ∧
      (let mine := s.rb .BELL_CTL 12 hd nd && s.rf .BELL_CTL 19 16 hd nd == c.part.toNat
       (mine = true → dsel.getLsbD 6 = false → due hd nd → s.now < 2 ^ 63 → ∃ u, exec (.disb t d a) s = .next u ∧
         fired hd nd u ∧ u.core t = on d 0 c) ∧
       (¬ due hd nd → exec (.disb t d a) s = (if dsel.getLsbD 6 then .next (s.modCore t (on d 2))
         else if mine = false then .next (s.modCore t (on d 1))
         else if armed s hd nd = false then .next (s.modCore t (on d 4))
         else .next ((s.unflag .BELL_CTL 2 hd nd).modCore t (on d 0)))))

/-- Firing (R66, R67, R69, R71, R72). -/
def Obligations.BellsFireInTurn : Prop :=
  ∀ (h : Fin 9) (n : Fin 64) (s : State), s.fh.live = [] →
    let time (m : Nat) := (s.reg .BELL_TIME h m).toNat
    let due (m : Nat) := s.rb .BELL_CTL 2 h m = true ∧ time m ≤ s.now
    let turn := due n ∧ ∀ m < 64, due m → ¬ (time m < time n ∨ time m = time n ∧ m < n.val)
    let act := s.reg .BELL_ACT h n
    let code := act.toNat / 2 ^ 48 % 4096
    let target := act.toNat / 2 ^ 32 % 65536
    let owner := s.rf .BELL_CTL 19 16 h n
    let late := time n < Tab.get (fun _ => 0) s.bellArm (h * 64 + n) + 16 ∨
      Tab.get (fun _ => false) s.bellStep (h * 64 + n) = true
    let dropped := late ∧ act.getLsbD 63 = true
    let masked := code = 1 ∨ code = 2 ∨ code = 3 ∨ code = 8
    let named := bellMask h target s
    let held := if s.partValid owner then named &&& s.partTiles owner else 0
    let skipped := if masked then held ≠ named else holdsTarget owner code target s = false
    let performs := if masked then named = 0 ∨ held ≠ 0 else holdsTarget owner code target s = true
    let per := s.rf .BELL_PERIOD 39 0 h n
    let rem := s.rf .BELL_CTL 47 32 h n
    (¬ turn → exec (.bellFire h n) s = .next s) ∧
    (turn → ∃ u, exec (.bellFire h n) s = .next u ∧ u.mem = s.mem ∧ u.tiles = s.tiles ∧ u.tb = s.tb ∧
      u.rf .BELL_CTL 63 48 h n = (s.rf .BELL_CTL 63 48 h n + 1) % 65536 ∧ u.rb .BELL_FIRED n h = true ∧
      u.rf .BELL_CTL 19 16 h n = owner ∧ u.reg .BELL_ACT h n = act ∧
      (¬ dropped ∧ skipped → u.rf .BELL_CTL 10 8 h n = 4 ∧ u.rb .TB_EVT 9 = true) ∧
      (dropped → u.rf .BELL_CTL 10 8 h n = 3) ∧
      (¬ dropped ∧ ¬ skipped ∧ late → u.rf .BELL_CTL 10 8 h n = 2) ∧ (¬ late ∧ ¬ skipped → u.rf .BELL_CTL 10 8 h n = 1) ∧
      (late → u.rb .TB_EVT 8 = true ∧ u.rf .BELL_STAT 47 32 h = min 65535 (s.rf .BELL_STAT 47 32 h + 1)) ∧
      (per = 0 → u.rb .BELL_CTL 2 h n = false ∧ u.reg .BELL_TIME h n = s.reg .BELL_TIME h n) ∧
      (per ≠ 0 → ∃ k : Nat, 1 ≤ k ∧ u.reg .BELL_TIME h n = BitVec.ofNat 64 (time n + k * per) ∧ s.now < time n + k * per ∧
        (1 < k → time n + (k - 1) * per ≤ s.now) ∧
        (u.rb .BELL_CTL 2 h n = true ↔ rem ≠ 1) ∧ u.rf .BELL_CTL 47 32 h n = rem - 1) ∧
      (¬ dropped ∧ performs ∧ code ≠ 0 → u.deliveries = s.deliveries ++
        [⟨code, h, n, target, act.toNat % 2 ^ 32, owner, if masked then held else 0, time n, s.now⟩]) ∧
      (dropped ∨ ¬ performs ∨ code = 0 → u.deliveries = s.deliveries))

/-- The performance of actions (R65, R67); the results of the other actions are stated with their blocks. -/
def Obligations.DeliveriesArePerformedOldestFirst : Prop :=
  (∀ s : State,
    let none_ (a : Nat) (c : Instr) : Prop := (∀ d ∈ s.deliveries, d.action ≠ a) → exec c s = .next s
    none_ 1 .wake ∧ none_ 2 .launch ∧ none_ 3 .gangStart ∧ none_ 4 .dmaStart ∧ none_ 5 .fhTxOpen ∧ none_ 6 .fhRxOpen ∧
      none_ 7 .doorbell ∧ none_ 8 .event ∧ none_ 9 .collPhase ∧ none_ 10 .configActivate) ∧
  (∀ (s : State) (d : Delivery) (before after : List Delivery) (t : Fin 128),
    s.deliveries = before ++ d :: after → (∀ x ∈ before, x.action ≠ d.action) →
    let ahead (x : Delivery) : Prop := x.belfry = d.belfry ∧ x.firedNs = d.firedNs ∧ x.action ≠ 10
    let stays (a : Nat) (c : Instr) : Prop := d.action = a → (∃ x ∈ before, ahead x) → (∀ x ∈ after, x.action ≠ a) →
      exec c s = .next s
    (stays 1 .wake ∧ stays 2 .launch ∧ stays 3 .gangStart ∧ stays 4 .dmaStart ∧ stays 5 .fhTxOpen ∧ stays 6 .fhRxOpen ∧
      stays 7 .doorbell ∧ stays 8 .event ∧ stays 9 .collPhase ∧ stays 10 .configActivate) ∧
    ((∀ x ∈ before, ¬ ahead x) →
    let r : State := { s with deliveries := before ++ after }
    (d.action = 8 → d.mask = 1#128 <<< t.val → s.dormant (domQuad t) = false →
      (∀ c, d.owner ≠ 0 → (s.tile t).cx = some c → s.cxPart c = d.owner → (s.tile t).run = .running →
        (s.cx c).swap ≠ 4 → (s.cx c).swap ≠ 6 →
        exec .event s = .next (r.modCore t fun k => { k with tevt := k.tevt ||| BitVec.ofNat 32 d.arg })) ∧
      (d.owner = 0 → s.lent t = true →
        exec .event s = .next (r.modTile t fun x => { x with latch := x.latch ||| BitVec.ofNat 32 d.arg }))) ∧
    (d.action = 7 →
      (d.target < 256 → s.mbxEn d.target = true → s.mbxKind d.target ≠ 0 → s.reg .MBX_DB_MASK d.target = 0 →
        exec .doorbell s = .next (r.setReg .MBX_DB
          ((s.reg .MBX_DB d.target ||| BitVec.ofNat 64 (d.arg % 2 ^ 32)) &&& 0xFFFFFFFF) d.target)) ∧
      (255 < d.target → exec .doorbell s = .next (r.count .HL_CNT 47 32))) ∧
    (d.action = 1 → d.mask = 1#128 <<< t.val →
      (s.dormant (domQuad t) = false → exec .wake s = .next r) ∧
      (s.dormant (domQuad t) = true → s.dormant (domHamlet (t.val / 16)) = false → s.pwr.waking.contains (domQuad t) = false →
        exec .wake s = .next ({ r with pwr := { s.pwr with waking := s.pwr.waking ++ [domQuad t] } }.count .PWR_CNT 63 32)))))

/-- `l` is the only launch, it has one tile, `t`, where its kernel has started, and nothing but its record hangs on its
end: it closes no step, its context waits for no collective epoch, no shadow comparison runs and no slot is live. -/
structure Alone (l : Launch) (t : Nat) (s : State) : Prop where
  only   : s.sched.launches = [l]
  tiles  : l.tiles = [⟨t, .running, [], none⟩]
  tile   : (s.tile t).launch = some l.id
  step   : l.stepEnd = false
  epochs : (s.cx l.cx).epochs = []
  shadow : s.rb .ERR_SH_CTL 63 = false
  live   : s.fh.live = []

/-- The kernel on tile `t` ends now with a status and a REASON (R97, R102, R104, R413): by KEND, once its tags, its gang
operations and its FENCEF are done; by an exception or by a STOP, which the monitor ends; or as halted. -/
def EndsWith (t st reason : Nat) (s : State) : Prop :=
  let x := s.tile t
  (x.run = .running ∧ (∃ k snap, x.core.wait = .kend k snap ∧ x.core.tagBusy = 0 ∧ x.gangs = [] ∧ fenceDone snap s = true ∧
    st = if x.core.tagErr = 0 then k else 0xC001) ∧ reason = 0) ∨
  (x.run = .running ∧ x.core.wait = .none ∧ x.core.modeM = true ∧ x.units = [] ∧
    (x.stopEnd = some (st, reason) ∨ x.stopEnd = none ∧ st = 0x8000 + x.core.ecause.toNat ∧ reason = 0)) ∨
  (x.run = .halted ∧ x.units = [] ∧ st = 0x800F ∧ reason = 0)

/-- The end of a kernel (R97, R102, R412 to R416). -/
def Obligations.KernelsEndWithTheirStatus : Prop :=
  ∀ (t : Fin 128) (s : State),
    (∀ a : Fin 64, Runs t s → exec (.kend t a) s =
      .next (s.modCore t fun c => { c with wait := .kend ((c.gr a).toNat % 2 ^ 15) (fenceSnap s) })) ∧
    ((s.tile t).run ≠ .running → (s.tile t).run ≠ .halted → exec (.tileKernelEnd t) s = .next s) ∧
    ((s.tile t).run = .running → (s.core t).modeM = false → (∀ k snap, (s.core t).wait ≠ .kend k snap) →
      exec (.tileKernelEnd t) s = .next s) ∧
    (∀ (l : Launch) (st reason start : Nat), Alone l t s → EndsWith t st reason s → l.startNs = some start →
      ∃ u, exec (.tileKernelEnd t) s = .next u ∧ u.sched.launches = [] ∧
        (u.tile t).cx = none ∧ (u.tile t).launch = none ∧
        (u.tile t).run = (if (s.tile t).run = .halted then .halted else .idle) ∧ (u.core t).wait = .none ∧
        let quiet := l.quiet = true ∧ st < 0x8000
        let full := cqFull l.cx s = true ∨ (s.cx l.cx).records ≠ []
        (quiet ∨ full → u.mem = s.mem ∧ ∀ v ≠ t.val, u.tile v = s.tile v) ∧
        (quiet → (u.cx l.cx).records = (s.cx l.cx).records) ∧
        (¬ quiet → full → (s.cx l.cx).records.length < 64 → (u.cx l.cx).records = (s.cx l.cx).records ++
          [[place 63 52 l.kentry ||| place 51 44 (if 0x8000 ≤ st then 1 else 0) ||| place 43 40 reason |||
              place 31 16 l.tag ||| place 15 0 st,
            place 63 32 l.step ||| place 31 24 1 ||| place 6 0 t, BitVec.ofNat 64 start]]) ∧
        (¬ quiet → full → 64 ≤ (s.cx l.cx).records.length → (u.cx l.cx).records = (s.cx l.cx).records)) ∧
    (∀ c : Fin 256, (s.tile t).cx = some c.val → (s.tile t).run = .running → (s.tile t).launch.isSome = true →
      (s.tile t).stopEnd = none →
      let e := (s.tile t).stopReq.getD (0xC002, 1)
      ((s.core t).wait = .heldAtomic ∨ (∃ g r, (s.core t).wait = .remoteAtomic g r) →
        exec (.stop t c) s = .next (s.modTile t fun x => { x with stopReq := some e })) ∧
      ((s.core t).wait ≠ .heldAtomic → (∀ g r, (s.core t).wait ≠ .remoteAtomic g r) →
        ∃ u, exec (.stop t c) s = .next u ∧ u.core t = (s.core t).enter (s.reg .TILE_MVEC t) 0x0D 0 ∧
          (u.core t).modeM = true ∧ (u.core t).epc = (s.core t).pc.setWidth 64 ∧ (u.core t).pm = (s.core t).modeM ∧
          (u.tile t).stopEnd = some e ∧ u.mem = s.mem ∧ u.sched.launches = s.sched.launches)) ∧
    (∀ c : Fin 256, (s.tile t).cx ≠ some c.val → (s.tile t).saved = none → exec (.stop t c) s = .next s) ∧
    (∀ (l : Launch) (start : Nat), Alone l t s → (s.tile t).run = .running → l.startNs = some start → l.dlNs ≠ 0 →
      exec (.launchDeadline l.id) s = .next (if start + l.dlNs ≤ s.now
        then s.modTile t fun x => { x with stopReq := some (0xC004, 0) } else s)) ∧
    (∀ id, s.launch id = none → exec (.launchDeadline id) s = .next s)

/-- Reset, event bits, save and restore of a tile (R28, R105, R108, R169 to R171, R408). -/
def Obligations.TileResetsEventsAndSaves : Prop :=
  ∀ (t : Fin 128) (v : Word) (s : State),
    (v.getLsbD 0 = false ∨ s.enabled t = false → exec (.tileReset t v) s = .next s) ∧
    (v.getLsbD 0 = true → s.enabled t = true → (s.tile t).launch = none → (s.tile t).units = [] →
      ∃ u, exec (.tileReset t v) s = .next u ∧ u.core t = CoreRegs.reset ∧ (u.tile t).run = .idle ∧ (u.tile t).cx = none ∧
        (u.tile t).dcache = [] ∧ (u.tile t).icache = [] ∧ (u.tile t).saved = (s.tile t).saved ∧ u.mem = s.mem ∧
        u.regs = s.regs ∧ ∀ x ≠ t.val, u.tile x = s.tile x) ∧
    (∀ (ag : Agent) (c : Nat), s.enabled t = true → s.dormant (domQuad t) = false → (s.tile t).cx = some c →
      (s.tile t).run = .running → (s.cx c).swap = 0 → s.cxPart c ≠ 0 →
      (ag = .steward ∨ s.agentPart ag = some (s.cxPart c) ∧ s.holdsTile (s.cxPart c) t = true) →
      exec (.tileTevtSet ag t v) s = .next (s.modCore t fun k => { k with tevt := k.tevt ||| v.setWidth 32 })) ∧
    (s.enabled t = true → (s.tile t).cx = none → (s.tile t).saved = none → (s.tile t).hist = [] →
      exec (.tileTevtSet .steward t v) s = .next (s.flag .PART_ERR 3)) ∧
    (∀ ag : Agent, ag ≠ .steward → s.enabled t = true → s.agentPart ag = none →
      exec (.tileTevtSet ag t v) s = .next { s with wire := .status 0x08 :: s.wire }) ∧
    (∀ ag : Agent, s.enabled t = false → exec (.tileTevtSet ag t v) s = .next s) ∧
    ((s.tile t).run ≠ .saving → exec (.contextSaveDone t) s = .next s) ∧
    (∀ c l : Nat, (s.tile t).run = .saving → (s.tile t).cx = some c → (s.tile t).launch = some l → (s.cx c).swap ≠ 4 →
      (s.core t).wait ≠ .heldAtomic → (∀ g r, (s.core t).wait ≠ .remoteAtomic g r) →
      (s.tile t).stopReq = none → (s.tile t).waiting = [] →
      ∃ u, exec (.contextSaveDone t) s = .next u ∧ (u.tile t).run = .idle ∧ (u.tile t).cx = none ∧
        (u.tile t).saved = some ⟨{ s.core t with wait := .none }, (s.tile t).units, (s.tile t).digest, (s.tile t).gangs, c, l⟩ ∧
        (u.tile t).savedAt = s.now ∧ (∀ i < 5, ((u.tile t).munit i).queue = [] ∧
          ((u.tile t).munit i).st = if s.rf .TILE_ARR_CTL 18 10 t i = 0 then .rampDown else .keep) ∧
        u.regs = s.regs ∧ (∀ x ≠ t.val, u.tile x = s.tile x) ∧
        ∀ a, a < hamletBase (t / 16) + 0x1F00000 ∨ hamletBase (t / 16) + 0x2000000 ≤ a → u.byte a = s.byte a) ∧
    (∀ bad : Bool, (s.tile t).saved = none ∨ (s.tile t).run ≠ .restoring ∨ s.dormant (domQuad t) = true →
      exec (.restoreDone t bad) s = .next s) ∧
    (∀ im : Image, (s.tile t).saved = some im → (s.tile t).run = .restoring → s.dormant (domQuad t) = false →
      (s.cx im.cx).swap = 0 → im.units = [] →
      ∃ u, exec (.restoreDone t false) s = .next u ∧ (u.tile t).run = .running ∧ (u.tile t).saved = none ∧
        (u.tile t).cx = some im.cx ∧ (u.tile t).launch = some im.launch ∧
        u.core t = { im.core with tevt := im.core.tevt ||| (s.reg .CX_EVT im.cx).setWidth 32 } ∧
        u.reg .CX_EVT im.cx = 0 ∧ u.mem = s.mem ∧ ∀ x ≠ t.val, u.tile x = s.tile x)

/-- What the start of launch `l` leaves on tile `t` (R76): the core and the tile's fields. -/
def StartedOn (l : Launch) (start t : Nat) (s u : State) : Prop :=
  let c := u.core t
  (u.tile t).run = .running ∧ (u.tile t).cx = some l.cx ∧ (u.tile t).launch = some l.id ∧
  c.pc = BitVec.ofNat 52 l.pc ∧ c.modeM = false ∧ c.wait = .none ∧
  c.gr 1 = BitVec.ofNat 64 l.kentry ∧ c.gr 2 = BitVec.ofNat 64 start ∧ c.gr 3 = BitVec.ofNat 64 t ∧
  c.gr 4 = BitVec.ofNat 64 l.arg ∧ (∀ i, 4 < i → c.gr i = 0) ∧ c.kentry = BitVec.ofNat 16 l.kentry ∧
  c.ltime = BitVec.ofNat 64 start ∧ c.part = BitVec.ofNat 4 l.part ∧ c.tevt = (s.reg .CX_EVT l.cx).setWidth 32 ∧
  c.epc = (s.core t).epc ∧ c.mscratch = (s.core t).mscratch ∧ u.reg .CX_EVT l.cx = 0 ∧ u.mem = s.mem

/-- Tile `t` is free, awake, at the configuration in force, and nothing waits for it. -/
structure Vacant (t : Nat) (s : State) : Prop where
  on    : s.enabled t = true
  awake : s.dormant (domQuad t) = false
  run   : (s.tile t).run = .idle
  cx    : (s.tile t).cx = none
  fresh : (s.tile t).loading = none ∧ (s.reg .TILE_EPOCH t).toNat = s.rf .DEV_CFG_CUR 63 32
  wait  : (s.tile t).waiting = [] ∧ (s.tile t).saved = none ∧ (s.tile t).redeliver = []

/-- Launching, swapping and relocating (R76, R409 to R411, R415, R417, R419). -/
def Obligations.LaunchesStartAndContextsSwap : Prop :=
  ∀ (s : State),
    (∀ (d : Delivery) (rest : List Delivery) (t : Fin 128) (ws : List Word) (r : State),
      let c := entCx ws
      let l := { mkLaunch r.sched.nextId d.owner c (d.arg % 4096) true ws [t] with startNs := some d.fireTime }
      s.deliveries = d :: rest → d.action = 2 → d.mask = 1#128 <<< t.val → d.owner ≠ 0 →
      readEntry d.owner d.arg { s with deliveries := rest } = (some ws, none, r) → cxOk d.owner c r = true →
      inMask (r.cxTiles c) t = true → entNdecl ws = 0 → partStopped d.owner r = false → (r.cx c).swap = 0 → Vacant t r →
      r.sched.launches = [] →
      ∃ u, exec .launch s = .next u ∧ StartedOn l d.fireTime t r u ∧ u.deliveries = r.deliveries ∧
        u.sched.launches.map (·.id) = [r.sched.nextId] ∧ u.sched.nextId = r.sched.nextId + 1) ∧
    (∀ (l : Launch) (t : Fin 128), s.sched.launches = [l] → l.bell = false → l.tiles = [⟨t, .waiting, [], none⟩] →
      l.ndecl = 0 → l.part ≠ 0 → l.startNs = none → Vacant t s → s.holdsTile l.part t = true →
      (∀ v, (s.tile v).waiting = [] ∧ (s.tile v).saved = none ∧ (s.tile v).redeliver = []) →
      (∀ c, (s.cx c).swap = 0 ∧ ringHas c s = false) →
      ∃ u, exec .schedulerDispatch s = .next u ∧ StartedOn l s.now t s u) ∧
    (∀ (ag : Agent) (c : Fin 256) (v : Word),
      let mine := ag = .steward ∨ ∃ p, s.agentPart ag = some p ∧ p = s.cxPart c ∧ ag ≠ .steward ∧
        ∀ f, ag = .host f → s.rf .CX_CTL 52 48 c = f.toNat
      let size := 2 ^ min 12 (max 4 (s.rf .CX_CTL 3 0 c))
      let dist (a b : Nat) := (a + 65536 - b) % 65536
      let new := v.toNat % 65536
      let tail := s.rf .CX_LQ_TAIL 15 0 c
      let head := s.rf .CX_CQ_HEAD 15 0 c
      (¬ mine → exec (.cxLqTailWrite ag c v) s = .next { s with wire := .status 0x08 :: s.wire } ∧
        exec (.cxCqHeadWrite ag c v) s = .next { s with wire := .status 0x08 :: s.wire }) ∧
      let takes := dist new tail < 32768 ∧ (dist new head ≤ size ∨ 32768 ≤ dist new head)
      (mine → takes →
        exec (.cxLqTailWrite ag c v) s = .next (s.putReg .CX_LQ_TAIL 15 0 new c)) ∧
      (mine → ¬ takes →
        exec (.cxLqTailWrite ag c v) s = .next (s.flag .PART_ERR 4)) ∧
      (mine → dist new head ≤ dist (s.rf .CX_CQ_TAIL 15 0 c) head → (s.cx c).records = [] →
        exec (.cxCqHeadWrite ag c v) s = .next (s.putReg .CX_CQ_HEAD 15 0 new c)) ∧
      (mine → ¬ dist new head ≤ dist (s.rf .CX_CQ_TAIL 15 0 c) head → exec (.cxCqHeadWrite ag c v) s = .next s)) ∧
    (∀ c : Fin 256,
      ((s.cx c).swap ≠ 4 → exec (.swapOutDone c) s = .next s) ∧
      ((s.cx c).swap = 4 → (∀ t, (s.tile t).cx = some c.val → atBoundary (s.core t) = true) →
        ∃ u, exec (.swapOutDone c) s = .next u ∧ (u.cx c).swap = 5 ∧ (u.cx c).stored = true) ∧
      ((s.cx c).swap ≠ 6 → exec (.swapInDone c) s = .next s) ∧
      let awake := ∀ t, (s.tile t).cx = some c.val → s.dormant (domQuad t) = false
      ((s.cx c).swap = 6 → s.cxTiles c = 0 → awake →
        ∃ u, exec (.swapInDone c) s = .next u ∧ (u.cx c).swap = 0 ∧ (u.cx c).stored = false ∧ (u.cx c).images = [] ∧
          u.reg .CX_EVT c = s.reg .CX_EVT c ∧ u.mem = s.mem ∧ u.tiles = s.tiles) ∧
      (∀ (t : Fin 128) (im : Image) (d : List Byte), (s.cx c).swap = 6 → s.cxTiles c = 1#128 <<< t.val →
        (s.cx c).images = [(t.val, im)] → im.units = [] → awake →
        (let w := modCx c (fun x => { x with swap := 0, stored := false, images := [], waite := 0 }) s
         (devRead (whoUnit 0 0 (s.cxPart c)) (s.rf .CX_SWAP 51 16 c * 65536) (32768 + s.rf .CX_TS 21 16 c * 65536) 0x006
           w).1 = .ok d) →
        ∃ u, exec (.swapInDone c) s = .next u ∧ (u.tile t).run = .running ∧
          (u.tile t).cx = some im.cx ∧ (u.tile t).launch = some im.launch ∧ u.reg .CX_EVT c = 0 ∧
          u.core t = { im.core with tevt := im.core.tevt ||| (s.reg .CX_EVT c).setWidth 32 })) ∧
    (∀ (t dest : Fin 128) (im : Image) (l : Launch), t ≠ dest → (s.tile t).saved = some im → s.sched.launches = [l] →
      l.id = im.launch → l.tiles = [⟨t, .running, [], none⟩] → s.rb .CX_CTL 61 im.cx = true → (s.tile t).cx.isSome = true →
      (s.tile t).savedAt + max 1 (s.rf .PART_CTL 31 16) * 1000 ≤ s.now → inMask (s.cxTiles im.cx) dest = true →
      Vacant dest s → s.holdsTile l.part dest = true → (s.cx im.cx).swap = 0 →
      ∃ u, exec (.resumeTimeout t dest) s = .next u ∧ (u.tile t).saved = none ∧ (u.tile dest).saved = some im ∧
        (u.tile dest).run = .restoring ∧ (u.tile dest).cx = some im.cx ∧
        u.sched.launches.map (·.tiles) = [[⟨dest, .running, [], none⟩]]) ∧
    (∀ (t dest : Fin 128), (s.tile t).saved = none → (s.tile t).redeliver = [] → exec (.resumeTimeout t dest) s = .next s)

/-- Ports, frames, delay measurement, PTP and gain commands (R54, R174 to R179, R186, R200). -/
def Obligations.FronthaulPortsFramesAndGain : Prop :=
  ∀ (p : Fin 16) (s : State),
    let link := s.rb .FH_PORT_STAT 1 p
    let en := s.rb .FH_PORT_CTL 16 p
    let mode := if s.rf .FH_PORT_CTL 2 0 p = 7 then 0 else s.rf .FH_PORT_CTL 2 0 p
    let be (n x : Nat) : List Byte := (List.range n).map fun i => BitVec.ofNat 8 (x / 256 ^ (n - 1 - i))
    let mac := be 6 (s.rf .FH_PORT_MAC 47 0 p)
    (∀ v : Word, en = false → v.getLsbD 16 = true → (∀ q : Fin 16, q ≠ p → s.rb .FH_PORT_CTL 16 q = false) →
      let m := v.toNat % 8
      ∃ u, exec (.fhPortEnable p v) s = .next u ∧ u.mem = s.mem ∧ u.tiles = s.tiles ∧
        if p.val % (if m = 5 then 2 else if m = 6 then 4 else 1) = 0 then
          u.rb .FH_PORT_CTL 16 p = true ∧ u.rf .FH_PORT_CTL 2 0 p = m ∧ u.rb .FH_PORT_STAT 0 p = true ∧
          u.rb .FH_PORT_STAT 3 p = false ∧ (u.fhPort p).txSeq = [] ∧ (u.fhPort p).rxSeq = []
        else u.rb .FH_PORT_CTL 16 p = false ∧ u.rb .FH_PORT_STAT 3 p = true ∧ u.fh = s.fh) ∧
    (∀ v : Word, en = true → v.getLsbD 16 = false → s.fh.live = [] →
      ∃ u, exec (.fhPortEnable p v) s = .next u ∧ u.rb .FH_PORT_CTL 16 p = false ∧ u.rb .FH_PORT_STAT 0 p = false ∧
        u.rb .FH_PORT_STAT 1 p = false ∧ u.rf .FH_PORT_CTL 2 0 p = s.rf .FH_PORT_CTL 2 0 p ∧ u.mem = s.mem) ∧
    (en = false ∨ mode = 0 ∨ link = true → exec (.fhLinkUp p) s = .next s) ∧
    (en = true → mode ≠ 0 → link = false → ∃ u, exec (.fhLinkUp p) s = .next u ∧ u.rb .FH_PORT_STAT 1 p = true ∧
      u.rb .FH_EVT 1 = true ∧ u.mem = s.mem ∧ u.fh = s.fh ∧
      (u.rb .FH_PORT_STAT 2 p = true ↔ 3 ≤ mode ∨ mode = 2 ∧ s.rb .FH_PORT_CTL 17 p = false ∨ s.rb .FH_PORT_STAT 2 p = true)) ∧
    (link = false → exec (.fhLinkDown p) s = .next s) ∧
    (link = true → s.fh.live = [] → ∃ u, exec (.fhLinkDown p) s = .next u ∧ u.rb .FH_PORT_STAT 1 p = false ∧
      u.rb .FH_PORT_STAT 2 p = false ∧ u.rb .FH_EVT 1 = true ∧ u.mem = s.mem ∧ u.fh = s.fh ∧
      (u.rb .FH_PORT_ERR 0 p = true ↔ en = true ∨ s.rb .FH_PORT_ERR 0 p = true)) ∧
    (∀ (size : Nat) (fcs : Bool) (tags : Nat) (pause : Bool) (dst : BitVec 48) (h : Option EcpriHdr),
      let c := Instr.fhFrameReceive p size fcs tags pause dst h
      let good := 64 ≤ size ∧ size ≤ 9216 ∧ fcs = true
      let plain := tags < 2 ∧ pause = false
      let mine := dst.toNat = s.rf .FH_PORT_MAC 47 0 p ∨ dst = 0x011B19000000#48 ∨ dst = 0x0180C200000E#48
      (link = false → exec c s = .next s) ∧
      (link = true → ¬ good → exec c s = .next (s.count .FH_CNT_RX 15 0 p)) ∧
      (link = true → good → ¬ plain → exec c s = .next (s.count .FH_CNT_RX 63 48 p)) ∧
      (link = true → good → plain → ¬ mine ∨ h = none → exec c s = .next s) ∧
      (∀ e, h = some e → link = true → good → plain → mine → e.rev ≠ 1 ∨ e.c = true ∨ e.lenOk = false ∨ e.mtype = 2 →
        exec c s = .next (s.count .FH_CNT_RX 63 48 p)) ∧
      (∀ e, h = some e → link = true → good → plain → mine → e.rev = 1 → e.c = false → e.lenOk = true → e.mtype = 0 →
        e.e = true → e.sub = 0 →
        let last := Tab.get (fun _ => 0) (s.fhPort p).rxSeq e.id.toNat
        ∃ u, exec c s = .next u ∧ Tab.get (fun _ => 0) (u.fhPort p).rxSeq e.id.toNat = e.seq.toNat + 1 ∧ u.mem = s.mem ∧
          u.regs = (if last ≠ 0 ∧ e.seq.toNat ≠ last % 256 then (s.count .FH_CNT_RX 31 16 p).regs else s.regs))) ∧
    (∀ action mid : BitVec 8,
      let t2 := (ingressStamp p s).1
      let answer (t2 : Nat) (s : State) : State := { s with
        free := s.free + 1
        wire := .frame p (be 6 ((Config.freeWord s.free).toNat % 2 ^ 48) ++ mac ++ [0xAE, 0xFE, 0x10, 5, 0, 20, mid, 0x02] ++
          be 6 (t2 / 10 ^ 9) ++ be 4 (t2 % 10 ^ 9) ++ List.replicate 30 0) :: s.wire }
      (link = false → exec (.delayRequestRx p action mid) s = .next s ∧ exec (.delayFollowUpRx p mid) s = .next s) ∧
      (link = true → action = 0 → exec (.delayRequestRx p action mid) s = .next (answer t2 s)) ∧
      (link = true → action = 1 → exec (.delayRequestRx p action mid) s =
        .next (modPort p (fun x => { x with delays := x.delays ++ [(mid.toNat, t2, s.now)] }) s)) ∧
      (link = true → action ≠ 0 → action ≠ 1 →
        exec (.delayRequestRx p action mid) s = .next (s.count .FH_CNT_RX 63 48 p)) ∧
      (∀ t a, link = true → (s.fhPort p).delays = [(mid.toNat, t, a)] → exec (.delayFollowUpRx p mid) s =
        .next (if s.now ≤ a + 10000000 then answer t (modPort p (fun x => { x with delays := [] }) s)
          else s.count .FH_CNT_RX 63 48 p)) ∧
      (link = true → (s.fhPort p).delays = [] → exec (.delayFollowUpRx p mid) s = .next (s.count .FH_CNT_RX 63 48 p)) ∧
      exec (.delayFollowUpTimeout p mid) s = .next (modPort p (fun x => { x with
        delays := x.delays.filter fun d => !(d.1 == mid.toNat && decide (d.2.2 + 10000000 < s.now)) }) s)) ∧
    (∀ (msg : BitVec 4) (seq : BitVec 16) (dom : BitVec 8),
      let ok := link = true ∧ s.rb .TB_PORT_PTP 0 p = true ∧ msg.toNat < 2 ∧
        (s.rb .TB_PORT_PTP 12 p = true → dom.toNat = s.rf .TB_PORT_PTP 23 16 p)
      (¬ ok → exec (.ptpEventRx p msg seq dom) s = .next s) ∧
      (ok → (s.tsFifo p).length < 64 → ∃ u, exec (.ptpEventRx p msg seq dom) s = .next u ∧ u.regs = s.regs ∧
        u.tsFifo p = s.tsFifo p ++ [(place 63 63 1 ||| place 59 56 msg.toNat ||| place 55 40 seq.toNat |||
          place 39 32 dom.toNat ||| place 15 0 (ingressStamp p s).2, BitVec.ofNat 64 (ingressStamp p s).1)]) ∧
      (ok → 64 ≤ (s.tsFifo p).length → exec (.ptpEventRx p msg seq dom) s =
        .next ((s.count .TB_PORT_TS_STAT 47 32 p).flag .TB_EVT 7))) ∧
    (∀ (ag : Agent) (v : Word),
      let may := ag = .steward ∨ s.agentPart ag = some 0 ∧ ag ≠ .steward
      let inRange (k : Nat) : Prop := k / 64 = v.toNat / 2 ^ 48 % 256 ∧ v.toNat / 2 ^ 40 % 64 ≤ k % 64 ∧ k % 64 ≤ v.toNat / 2 ^ 32 % 64
      let hold := v.toNat % 2 ^ 32
      (¬ may → exec (.freeze ag v) s = .next { s with wire := .status 0x08 :: s.wire } ∧
        exec (.agcRelease ag v) s = .next { s with wire := .status 0x08 :: s.wire }) ∧
      let written : State := { s with fh := { s.fh with cmds := s.fh.cmds ++ [(v, s.now)] } }
      (may → exec (.freeze ag v) s = .next written ∧ exec (.agcRelease ag v) s = .next written) ∧
      ∀ at_ : Nat, s.pending = [] → s.fh.cmds = [(v, at_)] →
        let frozen := decide (v.toNat / 2 ^ 62 = 1)
        ∃ u, step s = .next u ∧ u.fh.cmds = [] ∧ u.mem = s.mem ∧ ∀ k,
          (inRange k ∧ 1 ≤ v.toNat / 2 ^ 62 ∧ v.toNat / 2 ^ 62 ≤ 2 →
            u.agcOf k = { s.agcOf k with
              frozen := frozen, holdEnd := if frozen = true ∧ hold ≠ 0 then some (at_ + hold * 1000) else none
              was := (s.agcOf k).holds (s.tb.ticks + 1), at_ := some (s.tb.ticks + 1) }) ∧
          (¬ (inRange k ∧ 1 ≤ v.toNat / 2 ^ 62 ∧ v.toNat / 2 ^ 62 ≤ 2) → u.agcOf k = s.agcOf k)) ∧
    (∀ (k ticks : Nat) (g : Agc), (g.at_ = some ticks → g.holds ticks = g.was) ∧
      (g.at_ ≠ some ticks → g.holds ticks = g.frozen) ∧
      (s.agcOf k = g → g.holds s.tb.ticks = true → ∀ b, latchLoad k b s = s)) ∧
    (∃ u, exec .freezeHoldExpire s = .next u ∧ u.regs = s.regs ∧ u.mem = s.mem ∧ ∀ k,
      (∀ e, (s.agcOf k).frozen = true → (s.agcOf k).holdEnd = some e → e ≤ s.now →
        u.agcOf k = { s.agcOf k with frozen := false, holdEnd := none }) ∧
      ((s.agcOf k).frozen = false ∨ (s.agcOf k).holdEnd = none ∨ (∃ e, (s.agcOf k).holdEnd = some e ∧ s.now < e) →
        u.agcOf k = s.agcOf k)) ∧
    ((∀ i < 8, Tab.get (fun _ => []) (s.fhPort p).queues i = []) → exec (.fhFrameSend p none) s = .next s) ∧
    (∀ (f : TxFrame) (fs : List TxFrame) (c : Bool) (eaxc ru : Nat) (data : List Byte),
      Tab.get (fun _ => []) (s.fhPort p).queues 0 = f :: fs → f.kind = .fallback c eaxc ru data →
      ∃ u, exec (.fhFrameSend p none) s = .next u ∧ Tab.get (fun _ => []) (u.fhPort p).queues 0 = fs ∧ u.mem = s.mem ∧
        (link = false → u.wire = s.wire ∧ u.regs = s.regs) ∧
        (link = true → s.rb .FH_PORT_CTL 18 p = true → s.tb.lock ≠ .locked → s.tb.lock ≠ .holdover →
          u.wire = s.wire ∧ u.regs = (s.count .FH_CNT_TX 31 16 p).regs) ∧
        (link = true → s.rb .FH_PORT_CTL 18 p = false →
          let key := (if c then 2 else 0) * 65536 + eaxc
          let n := Tab.get (fun _ => 0) (s.fhPort p).txSeq key
          let ru := s.reg .FH_PORT_RU p ru
          let bs := be 6 (ru.toNat % 2 ^ 48) ++ mac ++
            (if ru.getLsbD 63 then [0x81, 0] ++ be 2 (ru.toNat / 2 ^ 60 % 8 * 2 ^ 13 + ru.toNat / 2 ^ 48 % 2 ^ 12) else []) ++
            [0xAE, 0xFE, 0x10, if c then 2 else 0] ++ be 2 (data.length + 4) ++ be 2 eaxc ++ [BitVec.ofNat 8 n, 0x80] ++ data
          u.wire = .frame p (bs ++ List.replicate (60 - bs.length) 0) :: s.wire ∧
          Tab.get (fun _ => 0) (u.fhPort p).txSeq key = (n + 1) % 256)) ∧
    (∀ f : PtpFrame, (link = false → exec (.fhFrameSend p (some f)) s = .next s) ∧
      (link = true → s.rb .TB_PORT_PTP 0 p = false → s.rb .TB_PORT_PTP 4 p = false → exec (.fhFrameSend p (some f)) s =
        .next { s with wire := .frame p f.body :: s.wire }) ∧
      (link = true → s.rb .TB_PORT_PTP 0 p = false → s.rb .TB_PORT_PTP 4 p = true → f.msg = 0 → 58 ≤ f.body.length →
        let t := egressStamp p s
        let corr := (f.body.drop 22).take 8
        ∃ g, exec (.fhFrameSend p (some f)) s = .next { s with wire := .frame p g :: s.wire } ∧ g.length = f.body.length ∧
          (g.drop 48).take 10 = be 6 (t.1 / 10 ^ 9) ++ be 4 (t.1 % 10 ^ 9) ∧
          (g.drop 22).take 8 = be 8 (corr.foldl (fun x b => x * 256 + b.toNat) 0 + t.2) ∧
          ∀ i, (i < 22 ∨ 30 ≤ i ∧ i < 48 ∨ 58 ≤ i) → g[i]? = f.body[i]?))

/-- Partition 0 reads `n` words at `a` for port `p`, which gives `ws`, and the device is then in state `r`. -/
abbrev PortReads (p a n : Nat) (ws : List Word) (s r : State) : Prop := fhReadWords p a n s = (some ws, r)

/-- Partition 0 reads the `n` bytes at `a` at once: it holds them, no tier-2 link that has lost alignment serves them, and
no word of them is uncorrectable (R264, R267, R401). -/
abbrev Readable (a n : Nat) (s : State) : Prop :=
  rangeCheck (some 0) a n s = none ∧ t2Needs a n s = [] ∧ badWords a n s = []

/-- The four words of an entry at `a`. -/
def entryAt (a : Nat) (s : State) : List Word := leWords ((List.range 32).map fun i => s.devByte (a + i))

/-- What window commands do beside completing, where no ledger is kept: refusals, drops and counts (R180, R193 to R197,
R199, R202). -/
def WindowDetails : Prop :=
  ∀ (p : Fin 16) (s : State), s.rb .FH_LEDGER_CFG 63 = false →
    let link := s.rb .FH_PORT_STAT 1 p
    let queue (s : State) (q : Nat) := Tab.get (fun _ => ([] : List TxFrame)) (s.fhPort p).queues q
    let lastOcc (n : Nat) := Tab.get (fun _ => 0) (s.fhPort p).occs n
    (∀ (rx : Bool) (d : Delivery) (rest : List Delivery) (e : List Word) (r : State),
      let c := if rx then Instr.fhRxOpen else Instr.fhTxOpen
      let n := d.arg
      s.deliveries = d :: rest → d.action = (if rx then 6 else 5) → d.target = p.val →
      PortReads p (s.rf .FH_WIN_BASE 51 5 p * 32 + n * 32) 4 e { s with deliveries := rest } r → r.fh = s.fh →
      r.regs = s.regs →
      (winBad p n rx e r = true → s.fh.live = [] → exec c s = .next (r.flag .FH_PORT_ERR 1 p)) ∧
      (winBad p n rx e r = false → (s.fhPort p).wins = [] → (s.fhPort p).pre = [] →
        ∃ (u : State) (w : Win), exec c s = .next u ∧ openWin p n u = some w ∧ w.entry = e ∧ w.fire = d.fireTime ∧
          w.occ = (lastOcc n + 1) % 256 ∧ w.decided = false ∧ w.posted = [] ∧ w.cell = winCell e ∧
          w.slot = (((d.fireTime : Int) + winRef e) - (s.reg .FH_SFN_OFFSET).toNat) /
            ((1000000 / 2 ^ (if s.rb .FH_CELL_CFG 61 (winCell e) then 0 else s.rf .FH_CELL_CFG 59 58 (winCell e)) : Nat) : Int) ∧
          (∃ l ∈ u.fh.live, l.cell = w.cell ∧ l.slot = w.slot) ∧ u.deliveries = r.deliveries)) ∧
    (∀ (ag : Agent) (v : Word),
      let n := v.toNat / 2 ^ 48
      let occ := v.toNat / 2 ^ 40 % 256
      let j := v.toNat % 65536
      (ag ≠ .steward → s.agentPart ag ≠ some 0 →
        exec (.fhTxPost ag p v) s = .next { s with wire := .status 0x08 :: s.wire }) ∧
      ∀ w, openWin p n s = some w → ag = .steward ∨ s.agentPart ag = some 0 →
        (occ ≠ w.occ → Tab.get (fun _ => none) (s.fhPort p).lastOcc n = none →
          exec (.fhTxPost ag p v) s = .next (s.count .FH_CNT_POST 47 32 p)) ∧
        (occ = w.occ → w.decided = true → Tab.get (fun _ => none) (s.fhPort p).lastOcc n = none →
          exec (.fhTxPost ag p v) s = .next (s.count .FH_CNT_POST 63 48 p)) ∧
        (occ = w.occ → w.decided = false → j ∈ w.posted → exec (.fhTxPost ag p v) s = .next (s.count .FH_CNT_POST 15 0 p)) ∧
        (∀ (ent : List Word) (r r2 : State), occ = w.occ → w.decided = false → j ∉ w.posted → j < winExpect w.entry →
          w.conf.valid = true → PortReads p (winAddr w.entry + 32 * j) 4 ent s r → entryOk p w.conf ent r = (true, r2) →
          openWin p n r2 = some w → entKind ent ≠ 2 →
          ∃ (u : State) (f : TxFrame), exec (.fhTxPost ag p v) s = .next u ∧
            openWin p n u = some { w with posted := w.posted ++ [j] } ∧
            queue u (entQueue ent) = queue r2 (entQueue ent) ++ [f] ∧ f.kind = .entry ent ∧ f.win = w.win ∧ f.occ = w.occ ∧
            f.slot = w.slot ∧ u.regs = r2.regs ∧ u.mem = r2.mem)) ∧
    (∀ sec : Section,
      let c := Instr.uplaneSectionRx p sec
      let ids := (sec.frame.toNat, sec.subframe.toNat, sec.slot.toNat)
      (link = false → exec c s = .next s) ∧
      (link = true → sec.version ≠ 1 ∨ sec.rb = true ∨ sec.symInc = true →
        exec c s = .next (s.count .FH_CNT_RX 63 48 p)) ∧
      (link = true → sec.version = 1 → sec.rb = false → sec.symInc = false →
        (∀ w ∈ (s.fhPort p).wins, winMatches w sec.eaxc ids sec.symbol.toNat = false) →
        exec c s = .next (s.count .FH_CNT_RX 47 32 p)) ∧
      (∀ w, link = true → sec.version = 1 → sec.rb = false → sec.symInc = false → (s.fhPort p).wins = [w] →
        winMatches w sec.eaxc ids sec.symbol.toNat = true → winDyn w.entry = false → bit (wordAt w.entry 0) 59 = false →
        0 < sec.num.toNat → sec.prbs.length = sec.num.toNat → sec.start.toNat + sec.num.toNat ≤ w.nprb →
        let k := winStream w.entry sec.eaxc * 64 + sec.symbol.toNat
        ∃ (u : State) (w' : Win), exec c s = .next u ∧ (u.fhPort p).wins = [w'] ∧ w'.sections = w.sections + 1 ∧
          (Tab.get (fun _ => RxSym.reset) w'.syms k).prbs =
            min 65535 ((Tab.get (fun _ => RxSym.reset) w.syms k).prbs + sec.num.toNat) ∧
          ∀ j ≠ k, Tab.get (fun _ => RxSym.reset) w'.syms j = Tab.get (fun _ => RxSym.reset) w.syms j)) ∧
    (∀ (eaxc : BitVec 16) (hdr : Word) (xs : List (Int × Int)),
      let c := Instr.tdMessageRx p eaxc hdr xs
      let count := hdr.toNat % 65536
      let off := hdr.toNat / 65536 % 65536
      let sym := hdr.toNat / 2 ^ 40 % 64
      let ids := (hdr.toNat / 2 ^ 56, hdr.toNat / 2 ^ 52 % 16, hdr.toNat / 2 ^ 46 % 64)
      (link = false → exec c s = .next s) ∧
      (link = true → 2048 < count → exec c s = .next (s.count .FH_CNT_RX 63 48 p)) ∧
      (link = true → count ≤ 2048 → (s.fhPort p).wins = [] → exec c s = .next (s.count .FH_CNT_RX 47 32 p)) ∧
      (∀ w, link = true → count ≤ 2048 → (s.fhPort p).wins = [w] → winMatches w eaxc ids sym = true → w.conf.isTd = true →
        xs.length = count → count < 512 → w.td = [] →
        ∃ (u : State) (w' : Win), exec c s = .next u ∧ (u.fhPort p).wins = [w'] ∧ w'.sections = w.sections ∧
          u.mem = s.mem ∧ u.regs = s.regs ∧
          ∀ i < count, Tab.get (fun _ => (0, 0)) (Tab.get (fun _ => []) w'.td (winStream w.entry eaxc * 64 + sym)) (off + i) =
            (signed 16 (wrap 16 (xs.getD i (0, 0)).1), signed 16 (wrap 16 (xs.getD i (0, 0)).2)))) ∧
    (∀ n : BitVec 12,
      (openWin p n.toNat s = none → exec (.decide p n) s = .next s ∧ exec (.windowClose p n) s = .next s) ∧
      ∀ w, openWin p n.toNat s = some w →
        (s.now < w.fire + winDec w.entry → exec (.decide p n) s = .next s) ∧
        (s.now < w.fire + winLen w.entry → exec (.windowClose p n) s = .next s) ∧
        (w.decided = true ∨ winRx w.entry = true → exec (.decide p n) s = .next s) ∧
        (w.fire + winDec w.entry ≤ s.now → w.decided = false → winRx w.entry = false →
          (∀ j < winExpect w.entry, j ∈ w.posted) →
          exec (.decide p n) s = .next (setWin p { w with decided := true } s)) ∧
        (∀ (e : List Word) (r : State), w.fire + winDec w.entry ≤ s.now → w.decided = false → winRx w.entry = false →
          winExpect w.entry = 1 → w.posted = [] → r.rb .FH_LEDGER_CFG 63 = false →
          PortReads p (winAddr w.entry) 4 e (setWin p { w with decided := true } s) r → entKind e < 2 → entFb e = 0 →
          exec (.decide p n) s = .next (r.count .FH_CNT_TX 47 32 p)) ∧
        (w.fire + winLen w.entry ≤ s.now → w.decided = true → winRx w.entry = false → s.fh.live = [] →
          let mine := fun (f : TxFrame) => f.win == w.win && f.occ == w.occ
          let expired := ((s.fhPort p).queues.flatMap fun q => q.2.filter mine).length
          ∃ u, exec (.windowClose p n) s = .next u ∧ (u.fhPort p).wins = (s.fhPort p).wins.filter (fun v => v.win != w.win) ∧
            (∀ q < 8, queue u q = (queue s q).filter fun f => !mine f) ∧ u.mem = s.mem ∧
            u.rf .FH_CNT_TX 63 48 p = min 65535 (s.rf .FH_CNT_TX 63 48 p + expired)) ∧
        (w.fire + winLen w.entry ≤ s.now → winRx w.entry = true → openWin p n.toNat s = some w →
          ∃ u, exec (.windowClose p n) s = .next u ∧
            (u.fhPort p).wins = (s.fhPort p).wins.filter (fun v => v.win != w.win)))

/-- Every window command completes (R180, R193 to R197, R199, R202), with WindowDetails on what it leaves alone or counts. -/
def Obligations.FronthaulWindowsOpenPostAndClose : Prop :=
  WindowDetails ∧
  ∀ (p : Fin 16) (s : State),
    let wins (s : State) := (s.fhPort p).wins
    let queue (s : State) (q : Nat) := Tab.get (fun _ => ([] : List TxFrame)) (s.fhPort p).queues q
    let link := s.rb .FH_PORT_STAT 1 p
    let entry (n : Nat) := entryAt (s.rf .FH_WIN_BASE 51 5 p * 32 + n * 32) s
    let mayOpen (rx : Bool) (n : Nat) : Prop := Readable (s.rf .FH_WIN_BASE 51 5 p * 32 + n * 32) 32 s ∧
      winBad p n rx (entry n) s = false ∧ openWin p n s = none ∧ (wins s).length < 64
    let opened (d : Delivery) (ds : List Delivery) (t : State) : Prop := ∃ w, openWin p d.arg t = some w ∧
      w.entry = entry d.arg ∧ w.fire = d.fireTime ∧ w.decided = false ∧ w.cell = winCell (entry d.arg) ∧
      w.occ = (Tab.get (fun _ => 0) (s.fhPort p).occs d.arg + 1) % 256 ∧ w.sections = 0 ∧
      (∀ j, j ∈ w.posted ↔ d.action = 5 ∧ ∃ e, (d.arg, w.occ, j, e) ∈ (s.fhPort p).pre) ∧
      (∃ l ∈ t.fh.live, l.cell = w.cell ∧ l.slot = w.slot) ∧ t.deliveries = ds ∧
      ∀ v, v.win ≠ d.arg → (v ∈ wins t ↔ v ∈ wins s)
    (∀ (d : Delivery) (ds : List Delivery), s.deliveries = d :: ds → d.action = 5 → d.target = p.val →
      mayOpen false d.arg → ∃ t, exec .fhTxOpen s = .next t ∧ opened d ds t) ∧
    (∀ (d : Delivery) (ds : List Delivery), s.deliveries = d :: ds → d.action = 6 → d.target = p.val →
      mayOpen true d.arg → ∃ t, exec .fhRxOpen s = .next t ∧ opened d ds t) ∧
    (∀ (ag : Agent) (v : Word) (w : Win),
      let n := v.toNat / 2 ^ 48
      let j := v.toNat % 65536
      let e := entryAt (winAddr w.entry + 32 * j) s
      let q := entQueue e
      ag = .steward ∨ s.agentPart ag = some 0 → openWin p n s = some w → v.toNat / 2 ^ 40 % 256 = w.occ →
      w.decided = false → j ∉ w.posted → j < winExpect w.entry → w.conf.valid = true →
      Readable (winAddr w.entry + 32 * j) 32 s → (entryOk p w.conf e s).1 = true →
      ∃ (t : State) (fs : List TxFrame), exec (.fhTxPost ag p v) s = .next t ∧
        openWin p n t = some { w with posted := w.posted ++ [j] } ∧ queue t q = queue s q ++ fs ∧
        (∀ i ≠ q, queue t i = queue s i) ∧ (∀ f ∈ fs, f.win = w.win ∧ f.occ = w.occ ∧ f.slot = w.slot) ∧
        (entKind e ≠ 2 → fs.map (·.kind) = [.entry e]) ∧
        (entKind e = 2 → fs.map (·.kind) = (List.range (ceilDiv
          (tdSamples w.conf (slotIds w.conf w.slot).2.2 (entSymbol e)) 2048)).map fun i => .symbol e j i false)) ∧
    (∀ (sec : Section) (w : Win),
      let ids := (sec.frame.toNat, sec.subframe.toNat, sec.slot.toNat)
      let count (w : Win) := if sec.num = 0 then w.conf.nprb else sec.num.toNat
      let meth := sectionMethod w sec
      let k := winStream w.entry sec.eaxc * 64 + sec.symbol.toNat
      let old := Tab.get (fun _ => RxSym.reset) w.syms k
      let n := (sec.prbs.take (count w)).length
      let g := s.agcOf (w.cell * 64 + sec.eaxc.toNat % 64)
      let gain := if winLatch w.entry then g.l1 else g.l0
      let at_ (b : Nat) := rxAddr w (winStream w.entry sec.eaxc) sec.symbol.toNat b
      link = true → sec.version = 1 → sec.rb = false → sec.symInc = false →
      ((wins s).find? fun w => winMatches w sec.eaxc ids sec.symbol.toNat &&
        decide (sec.start.toNat + count w ≤ w.nprb)) = some w →
      (meth.1 = 0 ∨ meth.1 = 1 ∧ (meth.2 = 0 ∨ 6 ≤ meth.2)) →
      ∃ (t : State) (w' : Win), exec (.uplaneSectionRx p sec) s = .next t ∧
        wins t = (wins s).map (fun v => if v.win = w.win then w' else v) ∧ w'.win = w.win ∧ w'.sections = w.sections + 1 ∧
        (let new := Tab.get (fun _ => RxSym.reset) w'.syms k
         new.prbs = min 65535 (old.prbs + n) ∧ new.sect = min 255 (old.sect + 1) ∧ new.gain = gain ∧
         new.got = old.got ++ [(sec.start.toNat, n)] ∧ (old.clip = true → new.clip = true) ∧
         new.frozen = if old.sect = 0 then g.frozen else old.frozen) ∧
        (∀ q vs x, meth.1 = 0 → sec.prbs = [(q, vs)] → count w = 1 → vs.length = 24 → vs[x]? ≠ none →
          (∃ h o, spaceOf (at_ sec.start.toNat) = .hamlet h o ∧ o % 0x2000000 < 0x1FFFFC0) →
          rangeCheck (some 0) (at_ sec.start.toNat) 48 s = none →
          (∀ i < 48, s.eccAt ((at_ sec.start.toNat + i) / 32) = .clean) →
          (BitVec.ofNat 16 (memValue t (at_ sec.start.toNat + 2 * x) 2)).toInt =
            max (-32768) (min 32767 ((BitVec.ofInt 16 (vs.getD x 0)).toInt * 2 ^ gain)))) ∧
    (∀ (eaxc : BitVec 16) (hdr : Word) (xs : List (Int × Int)) (w : Win),
      let count := hdr.toNat % 65536
      let off := hdr.toNat / 65536 % 65536
      let sym := hdr.toNat / 2 ^ 40 % 64
      let slot := hdr.toNat / 2 ^ 46 % 64
      let ids := (hdr.toNat / 2 ^ 56, hdr.toNat / 2 ^ 52 % 16, slot)
      let k := winStream w.entry eaxc * 64 + sym
      let lo := min (fld (wordAt w.conf.td 0) 44 32) (tdCp w.conf (tdFft w.conf.td) slot sym)
      let got (x : Tab (Int × Int)) := (x.filter fun y => decide (lo ≤ y.1 ∧ y.1 < lo + tdFft w.conf.td)).length
      let old := Tab.get (fun _ => ([] : Tab (Int × Int))) w.td k
      link = true → count ≤ 2048 → xs.length = count →
      ((wins s).find? fun w => winMatches w eaxc ids sym && w.conf.isTd) = some w →
      ∃ (t : State) (w' : Win), exec (.tdMessageRx p eaxc hdr xs) s = .next t ∧
        wins t = (wins s).map (fun v => if v.win = w.win then w' else v) ∧ w'.win = w.win ∧
        (let new := Tab.get (fun _ => ([] : Tab (Int × Int))) w'.td k
         (Tab.wf (fun _ => (70000, 70000)) old = true → ∀ i < count,
            Tab.get (fun _ => (70000, 70000)) new (off + i) =
              ((BitVec.ofInt 16 (xs.getD i (0, 0)).1).toInt, (BitVec.ofInt 16 (xs.getD i (0, 0)).2).toInt)) ∧
         w'.sections = w.sections + (if got old ≠ tdFft w.conf.td ∧ got new = tdFft w.conf.td then 1 else 0))) ∧
    (∀ (n : BitVec 12) (w : Win), openWin p n.toNat s = some w →
      (w.fire + winDec w.entry ≤ s.now → w.decided = false → winRx w.entry = false →
        ∃ t, exec (.decide p n) s = .next t ∧ openWin p n.toNat t = some { w with decided := true } ∧
          wins t = (wins s).map (fun v => if v.win = w.win then { w with decided := true } else v) ∧
          (∀ q, queue s q <+: queue t q) ∧ ((∀ j < winExpect w.entry, j ∈ w.posted) → t = setWin p { w with decided := true } s)) ∧
      (w.fire + winLen w.entry ≤ s.now →
        ∃ t, exec (.windowClose p n) s = .next t ∧ wins t = (wins s).filter (fun v => v.win != w.win) ∧
          (∀ q, ∀ f ∈ queue s q, f.win ≠ w.win ∨ f.occ ≠ w.occ → f ∈ queue t q) ∧
          (∀ q < 8, ∀ f ∈ queue t q, f ∈ queue s q ∧ (f.win ≠ w.win ∨ f.occ ≠ w.occ))))

/-- What writes of the index and configuration registers of a ring do (R212, R232; R271 for the pile engines): `tail`,
`head` and `cfg` are the commands that write value `v`; `may` says that the agent may write the indices; `bad` is the
state after a tail that is ignored. -/
def RingIndexWrites (g : RingRegs) (i j : Nat) (tail head cfg : Word → Instr) (may : Prop) (bad s : State) : Prop :=
  let size := 2 ^ min 12 (max 4 (s.rf g.cfg 3 0 i j))
  let dist (a b : Nat) := (a + 65536 - b) % 65536
  let t := s.rf g.sqTail 15 0 i j
  let h := s.rf g.cqHead 15 0 i j
  ∀ v : Word,
    let new := v.toNat % 65536
    (¬ may → exec (tail v) s = .next { s with wire := .status 0x08 :: s.wire } ∧
      exec (head v) s = .next { s with wire := .status 0x08 :: s.wire }) ∧
    (may → dist t h ≤ dist new h → dist new h ≤ size → exec (tail v) s = .next (s.putReg g.sqTail 15 0 new i j)) ∧
    (may → ¬ (dist t h ≤ dist new h ∧ dist new h ≤ size) → exec (tail v) s = .next bad) ∧
    (may → dist new h ≤ dist (s.rf g.cqTail 15 0 i j) h → exec (head v) s = .next (s.putReg g.cqHead 15 0 new i j)) ∧
    (may → ¬ dist new h ≤ dist (s.rf g.cqTail 15 0 i j) h → exec (head v) s = .next s) ∧
    (s.rb g.cfg 63 i j = true → exec (cfg v) s = .next (if v.getLsbD 63 then s else s.unflag g.cfg 63 i j)) ∧
    (s.rb g.cfg 63 i j = false → v.getLsbD 63 = true → ∃ u, exec (cfg v) s = .next u ∧ u.rb g.cfg 63 i j = true ∧
      u.rf g.cfg 3 0 i j = min 12 (max 4 (v.toNat % 16)) ∧ u.rf g.sqTail 15 0 i j = 0 ∧ u.rf g.sqHead 15 0 i j = 0 ∧
      u.rf g.cqTail 15 0 i j = 0 ∧ u.rf g.cqHead 15 0 i j = 0 ∧ u.mem = s.mem)

/-- The coding clusters (R212 to R232). -/
def Obligations.CodingJobsRunThroughTheirBlocks : Prop :=
  ∀ (k : Fin 2) (s : State), s.dormant (40 + k) = false →
    let jobs (s : State) := (s.cluster k).jobs
    let late (j : CodJob) := dDeadline j.desc ≠ 0 ∧ dDeadline j.desc ≤ s.now
    (∀ (r : Fin 8) (ag : Agent), RingIndexWrites codRing k r (.codSqTailWrite ag k r) (.codCqHeadWrite ag k r)
      (.codRingEnable k r) (ag = .steward ∨ s.agentPart ag = some 0) (s.flag .COD_ERR 0 k) s) ∧
    (s.rb .COD_CTL 0 k = false ∨ 256 ≤ (jobs s).length ∨
      (∀ r < 8, s.rb .COD_SQ_CFG 63 k r = false ∨ s.rf .COD_SQ_HEAD 15 0 k r = s.rf .COD_SQ_TAIL 15 0 k r) →
      exec (.codDescriptorTake k) s = .next s) ∧
    (∀ (r : Nat) (bs : List Byte) (w : State), s.rb .COD_CTL 0 k = true → (jobs s).length < 256 →
      codRing.nextRing k 8 (s.cluster k).nextRing s = some r →
      devRead (whoCod k) (codRing.descAddr k r s) 64 0 s = (.ok bs, w) →
      let d := leWords bs
      let q := (w.putReg .COD_SQ_HEAD 15 0 (w.rf .COD_SQ_HEAD 15 0 k r + 1) k r).setCluster k
        { s.cluster k with nextRing := (r + 1) % 8, seq := (s.cluster k).seq + 1 }
      dDecode d = false ∨ dSlotNs d = 0 → descBad d = false → descAddress d q = false →
      ∃ u, exec (.codDescriptorTake k) s = .next u ∧ u.regs = q.regs ∧ u.mem = w.mem ∧
        jobs u = jobs s ++ [⟨(s.cluster k).seq, r, d, false, false, false, false, 0, BitVec.allOnes 256, []⟩]) ∧
    (let begin_ (ty : Nat) (c : Instr) : Prop :=
       ((∀ j ∈ jobs s, dType j.desc ≠ ty ∨ j.begun = true ∨ late j) → exec c s = .next s) ∧
       ∀ j : CodJob, jobs s = [j] → dType j.desc = ty → j.begun = false → ¬ late j →
         (ty % 2 = 1 → dHb j.desc = false → ty = 1 ∧ dMask j.desc = 0 ∨ ty ≠ 1 → ∃ u, exec c s = .next u ∧
           jobs u = [{ j with begun := true, fresh := true, mask := BitVec.allOnes 256 }] ∧ u.regs = s.regs ∧ u.mem = s.mem) ∧
         (∀ (bs : List Byte) (w : State), ty = 1 ∧ dMask j.desc = 0 ∨ ty = 3 → dHb j.desc = true → j.waited = false →
           devRead (whoPile (dHarq j.desc) s) (dHarq j.desc) 16 0x12 s = (.ok bs, w) → bit (wordAt (leWords bs) 1) 0 = true →
           ∃ u, exec c s = .next u ∧ jobs u = [{ j with waited := true }] ∧
             u.regs = (s.count .COD_CNT_HWAIT 31 0 k).regs) ∧
         (∀ (bs : List Byte) (w : State), ty % 2 = 0 → devRead (whoCod k) (dIn j.desc) (dInLen j.desc) 0x12 s = (.ok bs, w) →
           w.cod = s.cod → ∃ (u : State) (j' : CodJob), exec c s = .next u ∧ jobs u = [j'] ∧ j'.begun = true ∧
             j'.desc = j.desc ∧ j'.seq = j.seq ∧ u.mem = w.mem ∧ u.regs = w.regs ∧
             (∀ r, (j'.block r).st = (j.block r).st) ∧
             (ty = 6 → (j'.block 0).bits = polarEncode (dPbch j.desc) (dE j.desc) (dRnti j.desc)
               ((streamBits bs).take (dA j.desc))))
     begin_ 1 (.ldpcDecode k) ∧ begin_ 2 (.ldpcEncode k) ∧ begin_ 3 (.turboDecode k) ∧ begin_ 4 (.turboEncode k) ∧
       begin_ 5 (.polarDecode k) ∧ begin_ 6 (.polarEncode k)) ∧
    ((∀ j ∈ jobs s, dHb j.desc = false ∨ j.begun = false ∨ late j) → exec (.harqCombine k) s = .next s) ∧
    (∀ (j : CodJob) (lb : List Byte) (w : State), jobs s = [j] → dHb j.desc = true → j.begun = true → j.fresh = true → ¬ late j →
      0 < dBlocks j.desc → (j.block 0).combined = false → readLlrs k j 0 s = (.ok lb, w) → w.cod = s.cod →
      ∃ u, exec (.harqCombine k) s = .next u ∧
        jobs u = [{ j with started := true }.setBlock 0 { j.block 0 with combined := true }]) ∧
    (∀ pool : Fin 6, (∀ j ∈ jobs s, dType j.desc ≠ pool + 1 ∨ late j) → exec (.codeBlockStart k pool) s = .next s) ∧
    (∀ (pool : Fin 6) (j : CodJob), jobs s = [j] → dType j.desc = pool + 1 → (pool.val + 1) % 2 = 0 → j.begun = true → ¬ late j →
      (∀ b ∈ j.blocks, b.2.st ≠ 1) → 0 < dBlocks j.desc → (j.block 0).st = 0 →
      exec (.codeBlockStart k pool) s =
        .next (putJob k ({ j with started := true }.setBlock 0 { j.block 0 with st := 1, soft := [] }) s)) ∧
    (∀ (n : Nat) (r : Fin 256), findJob k n s = none → exec (.codeBlockEnd k n r) s = .next s ∧
      exec (.jobDeadline k n) s = .next s) ∧
    (∀ (n : Nat) (r : Fin 256) (j : CodJob), findJob k n s = some j →
      ((j.block r).st ≠ 1 → exec (.codeBlockEnd k n r) s = .next s) ∧
      ((j.block r).st = 1 → late j → exec (.codeBlockEnd k n r) s = exec (.jobDeadline k n) s) ∧
      ((j.block r).st = 1 → ¬ late j →
        let j' := j.setBlock r (blockResult j r (dIter j.desc))
        ((∃ q < dBlocks j.desc, q ≠ r.val ∧ (j.block q).st ≠ 2) → exec (.codeBlockEnd k n r) s = .next (putJob k j' s)) ∧
        ((∀ q < dBlocks j.desc, q ≠ r.val → (j.block q).st = 2) →
          ∃ u, exec (.codeBlockEnd k n r) s = .next u ∧ findJob k n u = none)) ∧
      (dDeadline j.desc = 0 ∨ s.now < dDeadline j.desc → exec (.jobDeadline k n) s = .next s) ∧
      (dDeadline j.desc ≠ 0 → dDeadline j.desc ≤ s.now → j.started = false →
        exec (.jobDeadline k n) s = .next (codFinish k j 0x03 s)) ∧
      (dDeadline j.desc ≠ 0 → dDeadline j.desc ≤ s.now → j.started = true →
        ∃ u, exec (.jobDeadline k n) s = .next u ∧ findJob k n u = none)) ∧
    (∀ (j : CodJob) (st now : Nat) (free : Word), st < 256 →
      let rec_ := codRecord j st now free
      findJob k j.seq (codFinish k j st s) = none ∧ fld (wordAt rec_ 0) 55 48 = st ∧ fld (wordAt rec_ 0) 47 32 = dTag j.desc ∧
        fld (wordAt rec_ 0) 63 60 = dType j.desc ∧ wordAt rec_ 1 = BitVec.ofNat 64 now ∧
        wordAt rec_ 3 = if dDeadline j.desc = 0 then 0 else BitVec.ofInt 64 ((dDeadline j.desc : Int) - now))

/-- Page commands and moves (R238 to R249). -/
def Obligations.GranaryCommandsQueueAndRun : Prop :=
  (∀ (ag : Agent) (piles : BitVec 8) (cnt : BitVec 16) (rsv : BitVec 11) (page : BitVec 25) (s : State),
    s.dormant 48 = false →
    let queues (op : Nat) (c : Instr) : Prop :=
      let good := rsv = 0 ∧ (op = 1 ∨ piles = 0) ∧ page.toNat + cnt.toNat + 1 ≤ 31457280
      let put (q ovfReg : Nat) : Prop :=
        (¬ good → exec c s = .next (s.flag .GRN_EVT 0)) ∧
        (good → (grnQueue q s).length < 64 →
          exec c s = .next (setQueue q (grnQueue q s ++ [⟨op, piles.toNat, page.toNat, cnt.toNat + 1, none⟩]) s)) ∧
        (good → 64 ≤ (grnQueue q s).length →
          exec c s = .next (if ovfReg = 6 then s.flag .GRN_EVT 6 else s.flag .GRN_P_STAT 2 q))
      (ag = .steward → put 16 6) ∧ (∀ p, ag ≠ .steward → s.agentPart ag = some p → p < 16 → put p 2) ∧
        (ag ≠ .steward → s.agentPart ag = none → exec c s = .next { s with wire := .status 0x08 :: s.wire })
    queues 1 (.raise ag piles cnt rsv page) ∧ queues 2 (.release ag piles cnt rsv page) ∧
      queues 3 (.lower ag piles cnt rsv page) ∧ queues 4 (.pin ag piles cnt rsv page) ∧
      queues 5 (.unpin ag piles cnt rsv page)) ∧
  (∀ s : State, (∀ q < 17, grnQueue q s = []) → exec .granaryTurn s = .next s) ∧
  (∀ (s : State) (q : Fin 16) (c : GrnCmd) (cs : List GrnCmd), (∀ t, (s.tile t).run ≠ .held) → s.grn.pendRaise = [] →
    grnQueue q s = c :: cs → (∀ i < 17, i ≠ q.val → grnQueue i s = []) →
    (s.grn.turn ≤ q ∨ ∀ i : Fin 16, s.rb .GRN_P_STAT 0 i = false) →
    let n := c.page
    let x := s.page n
    let rest := if c.count ≤ 1 then cs else { c with page := n + 1, count := c.count - 1 } :: cs
    let turned (x' : Page) (bad : Bool) : Prop := ∃ u, exec .granaryTurn s = .next u ∧ u.page n = x' ∧
      (∀ m ≠ n, u.page m = s.page m) ∧ grnQueue q u = rest ∧ (∀ i ≠ q.val, grnQueue i u = grnQueue i s) ∧
      u.grn.moves = s.grn.moves ∧ u.mem = s.mem ∧ u.tiles = s.tiles ∧
      u.regs = (if bad then s.flag .GRN_EVT 0 else s).regs
    (x.owner ≠ some q.val → turned x true) ∧
    (x.owner = some q.val → c.op = 2 → turned (if x.st = .resident ∨ x.st = .rising then { x with released := true } else x) false) ∧
    (x.owner = some q.val → c.op = 4 → x.pin < 65535 → turned { x with pin := x.pin + 1, released := false } false) ∧
    (x.owner = some q.val → c.op = 4 → 65535 ≤ x.pin → turned x true) ∧
    (x.owner = some q.val → c.op = 5 → x.pin ≠ 0 → turned { x with pin := x.pin - 1 } false) ∧
    (x.owner = some q.val → c.op = 5 → x.pin = 0 → turned x true) ∧
    (x.owner = some q.val → c.op = 1 → x.st = .resident ∨ x.st = .rising → turned { x with released := false } false) ∧
    (x.owner = some q.val → c.op = 3 → x.st = .lower → turned x false) ∧
    (∀ v, x.owner = some q.val → c.op = 1 → x.st = .lower → x.pin = 0 → canMove s = true → pageUse q s < grnQuota q s →
      victimFor n c.piles (some q.val) true none s = some v → (s.page v).st = .resident →
      ∃ u m, exec .granaryTurn s = .next u ∧ (u.page n).st = .rising ∧ (u.page v).st = .falling ∧
        (u.page v).pile = (s.page v).pile ∧ (∀ k, k ≠ n → k ≠ v → u.page k = s.page k) ∧ u.grn.moves = s.grn.moves ++ [m] ∧
        m.riser = n ∧ m.faller = v ∧ m.pile = (s.page v).pile ∧ m.held = [] ∧ grnQueue q u = rest ∧ u.mem = s.mem)) ∧
  (∀ (s : State) (r : Nat), (∀ m ∈ s.grn.moves, m.riser ≠ r) → exec (.moveSwitch r) s = .next s) ∧
  (∀ (s : State) (m : Move) (p q : Fin 16), (∀ t, (s.tile t).run ≠ .held) → s.grn.moves = [m] → m.held = [] → s.ecc = [] →
    m.riser ≠ m.faller → (s.page m.riser).owner = some p.val → (s.page m.faller).owner = some q.val →
    (∀ i : Fin 16, s.rb .GRN_P_STAT 0 i = false) →
    let opens (c : Nat) := sluiceOpen m.pile c s = true ∧ sluiceOpen 8 c s = true
    (∀ c, m.charge = some c → m.stage ≠ 2 → ¬ opens c → ∃ u, exec (.moveSwitch m.riser) s = .next u ∧
      u.grn.moves = s.grn.moves ∧ (∀ k, u.page k = s.page k) ∧ u.mem = s.mem) ∧
    ((∀ c, m.charge = some c → opens c) → ∃ u, exec (.moveSwitch m.riser) s = .next u ∧ u.page m.riser = { s.page m.riser with st := .resident, pile := m.pile } ∧
      u.page m.faller = { s.page m.faller with st := .lower } ∧
      (∀ k, k ≠ m.riser → k ≠ m.faller → u.page k = s.page k) ∧ u.grn.moves = [] ∧ u.mem = s.mem ∧ u.tiles = s.tiles ∧
      u.regs = (s.count .GRN_CNT_MOVE 63 32).regs))

/-- Quotas, reclaim, prefetch, query, scrubber and links (R250 to R252, R259 to R268). -/
def Obligations.GranaryQuotasPrefetchScrubAndLinks : Prop :=
  (∀ (p : Fin 16) (v : Word) (s : State), s.rb .GRN_P_DB 63 p = false →
    let quota := v.toNat % 2 ^ 23
    ∃ u, exec (.grnPQuotaWrite p v) s = .next u ∧ u.rf .GRN_P_QUOTA 22 0 p = quota ∧ u.grn = s.grn ∧ u.mem = s.mem ∧
      (quota < pageUse p s → u.rb .GRN_P_STAT 0 p = true ∧ u.rb .GRN_EVT 5 = true) ∧
      (pageUse p s ≤ quota → u.reg .GRN_P_STAT p = clearBit (s.reg .GRN_P_STAT p) 0 ∧ u.reg .GRN_EVT = s.reg .GRN_EVT)) ∧
  (∀ (p : Fin 16) (s : State), s.grn.reclaimIv = s.now / 10000 → s.rb .GRN_P_DB 63 p = false →
    let low := s.rb .GRN_P_STAT 0 p
    (low = false → exec (.reclaimTurn p) s = .next s) ∧
    (pageUse p s ≤ s.rf .GRN_P_QUOTA 22 0 p → exec (.reclaimTurn p) s = .next s) ∧
    ((∃ q < 17, s.grn.turn ≤ q ∧ grnQueue q s ≠ []) ∨ p.val ∈ s.grn.stuck → exec (.reclaimTurn p) s = .next s) ∧
    (low = true → s.rf .GRN_P_QUOTA 22 0 p < pageUse p s → min 256 (max 1 (s.rf .GRN_RECLAIM 8 0)) ≤ s.grn.reclaimed →
      exec (.reclaimTurn p) s = .next s) ∧
    (∀ n : Nat, low = true → s.rf .GRN_P_QUOTA 22 0 p < pageUse p s →
      s.grn.reclaimed < min 256 (max 1 (s.rf .GRN_RECLAIM 8 0)) → canMove s = true → reclaimPage p s = some n →
      (∀ q < 17, grnQueue q s = []) → p.val ∉ s.grn.stuck →
      (counterpart s = none → ∃ u, exec (.reclaimTurn p) s = .next u ∧ u.grn.stuck = p.val :: s.grn.stuck ∧
        u.grn.moves = s.grn.moves ∧ (∀ k, u.page k = s.page k) ∧ u.mem = s.mem ∧
        u.regs = ((s.count .GRN_CNT_MOVE 15 0).flag .GRN_EVT 2).regs) ∧
      ∀ c, counterpart s = some c → c ≠ n → ∃ u m, exec (.reclaimTurn p) s = .next u ∧ (u.page n).st = .falling ∧ (u.page c).st = .rising ∧
        u.grn.moves = s.grn.moves ++ [m] ∧ m.riser = c ∧ m.faller = n ∧ m.reclaim = true ∧
        u.grn.reclaimed = s.grn.reclaimed + 1 ∧ u.mem = s.mem)) ∧
  (∀ (p : Fin 16) (v : Word) (s : State),
    (s.rb .GRN_P_PF_CFG 63 p = false → v.getLsbD 63 = true → ∃ u, exec (.grnPPfEnable p v) s = .next u ∧
      u.rb .GRN_P_PF_CFG 63 p = true ∧ u.rf .GRN_P_PF_CFG 39 20 p = v.toNat / 2 ^ 20 % 2 ^ 20 ∧
      u.rf .GRN_P_PF_CFG 3 0 p = min 15 (max 4 (v.toNat % 16)) ∧ u.reg .GRN_P_PF_CUR p = 0 ∧ pfWalk p u = ⟨0, 0⟩ ∧
      u.mem = s.mem) ∧
    (s.rb .GRN_P_PF_CFG 63 p = true → ∃ u, exec (.grnPPfEnable p v) s = .next u ∧ u.grn = s.grn ∧
      u.rb .GRN_P_PF_CFG 63 p = v.getLsbD 63 ∧ u.rf .GRN_P_PF_CFG 55 40 p = v.toNat / 2 ^ 40 % 65536 ∧
      u.rf .GRN_P_PF_CFG 39 20 p = s.rf .GRN_P_PF_CFG 39 20 p ∧ u.rf .GRN_P_PF_CFG 3 0 p = s.rf .GRN_P_PF_CFG 3 0 p)) ∧
  (∀ (ag : Agent) (p : Fin 16) (v : Word) (s : State),
    let may := ag = .steward ∨ ag ≠ .steward ∧ s.agentPart ag = some p.val
    (¬ may → exec (.grnPPfCurWrite ag p v) s = .next { s with wire := .status 0x08 :: s.wire } ∧
      exec (.grnQuery ag p v) s = .next { s with wire := .status 0x08 :: s.wire }) ∧
    (may → exec (.grnPPfCurWrite ag p v) s = .next (if v.toNat % 2 ^ 32 < s.rf .GRN_P_PF_CUR 31 0 p then s
      else s.putReg .GRN_P_PF_CUR 31 0 (v.toNat % 2 ^ 32) p)) ∧
    (may → ∃ u, exec (.grnQuery ag p v) s = .next u ∧ u.mem = s.mem ∧ u.grn = s.grn ∧
      let n := v.toNat % 2 ^ 25
      let x := s.page n
      let q := u.reg .GRN_P_QRES p
      u.rf .GRN_P_QADDR 24 0 p = n ∧ (31457280 ≤ n → q = 0) ∧
      (n < 31457280 → fld q 63 63 = 1 ∧ fld q 60 60 = x.released.toNat ∧ fld q 47 32 = x.pin % 65536 ∧
        fld q 62 61 = (match x.st with | .resident => 0 | .rising => 1 | .falling => 2 | .lower => 3) ∧
        fld q 59 59 = x.owner.isSome.toNat ∧ (∀ o, x.owner = some o → fld q 58 55 = o % 16) ∧
        (x.st = .resident ∨ x.st = .falling → fld q 54 52 = x.pile % 8)))) ∧
  (∀ (p : Fin 16) (s : State), s.rb .GRN_P_PF_CFG 63 p = false → exec (.pfWalkEntry p) s = .next s) ∧
  (∀ (p : Fin 16) (s r : State) (bs : List Byte), s.rb .GRN_P_PF_CFG 63 p = true →
    let w := pfWalk p s
    let s0 := s.unflag .GRN_P_STAT 4 p
    devRead (whoUnit 7 0 p) (s.rf .GRN_P_PF_BASE 51 5 p * 32 + w.x * 32) 32 0 s0 = (.ok bs, r) → r.regs = s0.regs →
    r.grn = s.grn →
    let e := leWords bs
    let kind := fld (wordAt e 0) 62 60
    let layer := w.s * max 1 (s.rf .GRN_P_PF_CFG 39 20 p) + fld (wordAt e 0) 19 0
    let reach := s.rf .GRN_P_PF_CUR 31 0 p + s.rf .GRN_P_PF_CFG 55 40 p
    let next := if w.x + 1 = 2 ^ min 15 (max 4 (s.rf .GRN_P_PF_CFG 3 0 p)) then (⟨0, w.s + 1⟩ : PfWalk) else ⟨w.x + 1, w.s⟩
    (bit (wordAt e 0) 63 = true → kind = 7 → exec (.pfWalkEntry p) s = .next (setWalk p ⟨0, w.s + 1⟩ r)) ∧
    (kind ≠ 7 → reach < layer → exec (.pfWalkEntry p) s = .next s0) ∧
    (layer ≤ reach → bit (wordAt e 0) 63 = false → exec (.pfWalkEntry p) s = .next (setWalk p next r)) ∧
    (layer ≤ reach → bit (wordAt e 0) 63 = true → kind = 3 → cmdOk (pfCmd e 4) = true → (grnQueue p s).length < 64 →
      ∃ u, exec (.pfWalkEntry p) s = .next u ∧ pfWalk p u = next ∧
        grnQueue p u = grnQueue p s ++ [cmdOf (pfCmd e 4)] ∧ u.rb .GRN_P_STAT 4 p = false ∧ u.mem = r.mem)) ∧
  (∀ s : State, (s.rb .GRN_SCRUB 63 = false → exec .scrubRead s = .next s) ∧
    (s.rb .GRN_SCRUB 63 = true → s.grn.scrubWord < 2048 →
      let page := s.rf .GRN_SCRUB_POS 24 0
      let w := page * 2048 + s.grn.scrubWord
      let go (u : State) : Prop := exec .scrubRead s = .next u ∧
        if s.grn.scrubWord + 1 < 2048 then u.grn.scrubWord = s.grn.scrubWord + 1 ∧ u.rf .GRN_SCRUB_POS 24 0 = page
        else u.grn.scrubWord = 0 ∧ u.rf .GRN_SCRUB_POS 24 0 = (if page + 1 < 31457280 then page + 1 else 0)
      (s.eccOf w = 0 → ∃ u, go u ∧ u.mem = s.mem ∧ u.ecc = s.ecc) ∧
      (s.correctable w = true → page < 31457280 → ∃ u, go u ∧ u.eccOf w = 0 ∧
        u.rf .GRN_CNT_ECC 63 32 = min (2 ^ 32 - 1) (s.rf .GRN_CNT_ECC 63 32 + 1) ∧
        ∀ a, a / 32 = w → u.byte a = s.goodByte a))) ∧
  (∀ (l : Fin 8) (s : State),
    (l.val ∈ s.grn.t2down → exec (.t2LinkAlignLoss l) s = .next s) ∧
    (l.val ∉ s.grn.t2down → exec (.t2LinkAlignLoss l) s =
      .next { s with grn := { s.grn with t2down := s.grn.t2down ++ [l.val] } }) ∧
    exec (.t2AccessTimeout l) s = .next { s with grn := { s.grn with t2wait := s.grn.t2wait.map fun x =>
      if x.link = l.val ∧ x.since + 100000 ≤ s.now then { x with expired := true } else x } } ∧
    exec (.tier2LinkRetrainDone l) s = .next { s with grn := { s.grn with
      t2down := s.grn.t2down.filter fun x => x != l.val
      t2wait := s.grn.t2wait.filter fun x => x.link != l.val || x.expired } })

/-- The unit `w` reads the `n` bytes `bs` at `a`, from state `s` to `r`. -/
abbrev UnitReads (w : Who) (a n : Nat) (bs : List Byte) (s r : State) : Prop := seRead w a n s = (.ok bs, r)

/-- The unit `w` writes `bs` at `a`, from state `s` to `r`. -/
abbrev UnitWrites (w : Who) (a : Nat) (bs : List Byte) (s r : State) : Prop := seWrite w a bs s = (none, r)

/-- The unit `w` performs the writes and updates `xs`, all of them, from state `s` to `r`. -/
abbrev UnitPuts (w : Who) (xs : List SePut) (s r : State) : Prop := sePuts w xs s = (none, r)

/-- `c` is the only command of engine `k`, its opcode is `op`, it has not ended, and the last unit of its last row or entry is
left. -/
structure LastRow (k op : Nat) (c : SeCmd) (s : State) : Prop where
  only : (s.engine k).cmds = [c]
  op   : eOp c.desc = op
  runs : c.ended = false
  row  : seCount c.desc = c.row + 1
  unit : seUnits c.desc = c.sub + 1

/-- The command `i` runs the last row of command `c` of engine `k`: the row goes from `s` to `q`, and the command has ended
with `res` added to RESULT, `aux` to AUX and the status they give. -/
def RunsLastRow (k : Nat) (i : Instr) (c : SeCmd) (res aux : Nat) (s q : State) : Prop :=
  exec i s = .next (putCmd k { c with
    started := true, sub := 0, row := c.row + 1, result := c.result + res, aux := c.aux + aux, ended := true
    status := if c.aux + aux ≠ 0 ∧ eOp c.desc = 0x10 then 1 else 0 } q)

/-- The state in which the rows of command `c` begin: the turn of engine `k` has come to it. -/
def served (k : Nat) (c : SeCmd) (s : State) : State := s.setEngine k { s.engine k with last := c.seq }

/-- The pile engines' opcodes (R272 to R291). -/
def Obligations.PileEnginesRunTheirOpcodes : Prop :=
  ∀ (k : Fin 8) (s : State),
    (∀ (r : Fin 16) (ag : Agent), s.dormant (46 + k / 4) = false →
      RingIndexWrites seRing k r (.seSqTailWrite ag k r) (.seCqHeadWrite ag k r) (.seRingEnable k r)
        (ag = .steward ∨ ag ≠ .steward ∧ s.agentPart ag = some (s.rf .SE_SQ_CFG 23 20 k r)) (s.flag .SE_ERR 0 k) s) ∧
    (8 ≤ (s.engine k).cmds.length ∨ (s.rb .SE_CTL 0 k = false ∧ (s.engine k).wait = []) →
      exec (.seDescriptorTake k) s = .next s) ∧
    (∀ (c : SeCmd) (cs : List SeCmd), (s.engine k).cmds.length < 8 → s.rb .SE_CTL 0 k = false → (s.engine k).wait = c :: cs →
      eBad c.desc = false → eAddress c.desc true c.part (s.setEngine k { s.engine k with wait := cs, next := 0 }) = none →
      exec (.seDescriptorTake k) s =
        .next (s.setEngine k { s.engine k with wait := cs, next := 0, cmds := (s.engine k).cmds ++ [c] })) ∧
    (∀ (r : Nat) (bs : List Byte) (w : State), (s.engine k).cmds = [] → (s.engine k).wait = [] → s.rb .SE_CTL 0 k = true →
      (s.engine k).next = r → r < 16 → seRing.ready k r s = true →
      UnitReads (whoSe k (s.rf .SE_SQ_CFG 23 20 k r)) (seRing.descAddr k r s) 64 bs s w → w.se = s.se → s.fh.live = [] →
      w.fh = s.fh →
      let c := newCmd ((s.engine k).seq + 1) (s.rf .SE_SQ_CFG 23 20 k r) (.ring r) (leWords bs)
      (eBad (leWords bs) = true → ∃ u, exec (.seDescriptorTake k) s = .next u ∧
        (u.engine k).cmds = [{ c with started := true, ended := true, status := 0x10 }]) ∧
      (let q := (w.putReg .SE_SQ_HEAD 15 0 (w.rf .SE_SQ_HEAD 15 0 k r + 1) k r).setEngine k
         { s.engine k with next := r + 1, seq := (s.engine k).seq + 1 }
       eBad (leWords bs) = false → eAddress (leWords bs) false c.part q = none →
         exec (.seDescriptorTake k) s = .next (q.setEngine k { q.engine k with cmds := [c] }))) ∧
    (let idle (c : Instr) (op : Nat) : Prop :=
       (∀ d ∈ (s.engine k).cmds, eOp d.desc ≠ op ∨ d.ended = true) → exec c s = .next s
     idle (.gather k) 0x01 ∧ idle (.scatter k) 0x02 ∧ idle (.selectEc k) 0x08 ∧ idle (.selectTc k) 0x09 ∧
       idle (.repscat k) 0x10 ∧ idle (.pad k) 0x11 ∧ idle (.combine k) 0x18 ∧ idle (.dequant k) 0x20 ∧
       idle (.kvAppend k) 0x28 ∧ ((∀ d ∈ (s.engine k).cmds, d.ended = true) → exec (.seUnit k) s = .next s)) ∧
    (∀ c : SeCmd,
      let d := c.desc
      let w := whoSe k c.part
      let i := c.row
      let v := served k c s
      (∀ (x : Nat) (ib bs : List Byte) (q1 q2 q : State), LastRow k 0x01 c s → q.se = v.se →
        c.idx = [] ∧ UnitReads w (eAddr d 3 + i * eIdxW d) (eIdxW d) ib v q1 ∧ x = leVal ib ∧ x ≠ 256 ^ eIdxW d - 1 ∨
          c.idx ≠ [] ∧ x = c.idx.getD i 0 ∧ q1 = v →
        x < eLimit d → UnitReads w (eAddr d 1 + x * eSPitch d) (eRowB d) bs q1 q2 →
        UnitWrites w (eAddr d 2 + i * eDPitch d) bs q2 q → RunsLastRow k (.gather k) c 1 0 s q) ∧
      (∀ x : Nat, LastRow k 0x01 c s → c.idx ≠ [] → x = c.idx.getD i 0 → eLimit d ≤ x → c.part ≠ 0 →
        exec (.gather k) s = .next (putCmd k { c with
          started := true, sub := 0, ended := true, status := 0x13, firstBad := i } v)) ∧
      (∀ (x : Nat) (ib bs : List Byte) (q1 q2 q : State), LastRow k 0x02 c s → q.se = v.se → c.idx = [] →
        UnitReads w (eAddr d 3 + i * eIdxW d) (eIdxW d) ib v q1 → x = leVal ib → x ≠ 256 ^ eIdxW d - 1 → x < eLimit d →
        UnitReads w (eAddr d 1 + i * eSPitch d) (eRowB d) bs q1 q2 →
        UnitWrites w (eAddr d 2 + x * eDPitch d) bs q2 q → RunsLastRow k (.scatter k) c 1 0 s q) ∧
      (∀ (bs : List Byte) (q1 q : State), LastRow k 0x09 c s → q.se = v.se →
        UnitReads w (eAddr d 1 + i * eScorePitch d) (eExperts d * eScoreB d) bs v q1 →
        (let score (e : Nat) := scoreBits (eScoreB d) (leVal ((bs.drop (e * eScoreB d)).take (eScoreB d)))
         let best := bestOf (eK d) ((List.range (eExperts d)).map fun e => candidate (skey (score e)) (fld (wordAt d 6) 31 0 + e))
         UnitWrites w (eAddr d 2 + i * eK d * 8) (best.flatMap fun r => leBytes 8 r) q1 q) →
        RunsLastRow k (.selectTc k) c 1 0 s q) ∧
      (∀ (bs : List Byte) (q1 q2 q : State), LastRow k 0x08 c s → i = 0 → q.se = v.se → eExperts d = 1 → eTokens d = 1 →
        UnitReads w (eAddr d 1) (eScoreB d) bs v q1 →
        (let rec_ := candidate (skey (scoreBits (eScoreB d) (leVal (bs.take (eScoreB d))))) (fld (wordAt d 5) 31 0)
         UnitWrites w (eAddr d 2) (leBytes 8 rec_) q1 q2) → UnitWrites w (eAddr d 3) (leBytes 4 1) q2 q →
        RunsLastRow k (.selectEc k) c 1 0 s q) ∧
      (∀ (mb : List Byte) (q : State), LastRow k 0x10 c s → q.se = v.se →
        UnitReads w (eAddr d 3 + i * 8) 8 mb v q → leVal mb = 0 → RunsLastRow k (.repscat k) c 0 0 s q) ∧
      (∀ (mb row pb : List Byte) (q1 q2 q3 q : State), LastRow k 0x10 c s → q.se = v.se →
        UnitReads w (eAddr d 3 + i * 8) 8 mb v q1 → leVal mb = 1 → UnitReads w (eAddr d 1 + i * eSPitch d) (eRowB d) row q1 q2 →
        UnitReads w (eAddr d 5) 4 pb q2 q3 →
        (eBufCap d ≤ leVal pb → q = q3 → RunsLastRow k (.repscat k) c 0 1 s q) ∧
        (leVal pb < eBufCap d → UnitPuts w [⟨true, eAddr d 5, leBytes 4 (leVal pb + 1)⟩,
            ⟨false, eAddr d 2 + leVal pb * eDPitch d, row⟩,
            ⟨false, eAddr d 6 + leVal pb * 4, leBytes 4 (fld (wordAt d 0) 31 16 * 65536 + i)⟩] q3 q →
          RunsLastRow k (.repscat k) c 1 0 s q)) ∧
      (∀ (fb : List Byte) (q1 q : State), LastRow k 0x11 c s → q.se = v.se → UnitReads w (eAddr d 5 + i * 8) 4 fb v q1 →
        leVal fb % 16 = 0 → UnitPuts w [⟨false, eAddr d 5 + i * 8 + 4, leBytes 4 (leVal fb)⟩] q1 q →
        RunsLastRow k (.pad k) c 0 0 s q) ∧
      (∀ (acc g res : Nat) (rb ab : List Byte) (q1 q2 q : State), LastRow k 0x18 c s → q.se = v.se →
        c.ent ≠ [] → c.ent.getD i (0, 0, 0) = (acc, g, res) → acc % 32 = 0 → UnitReads w res (eN d * eResB d) rb v q1 →
        UnitReads w acc (eN d * 4) ab q1 q2 →
        UnitPuts w [⟨true, acc, ((rowVals 4 ab).zip (rowVals (eResB d) rb)).flatMap fun p =>
          leBytes 4 (fFP32.encode (p.1.add ((fFP32.decode g).mul p.2)))⟩] q2 q →
        RunsLastRow k (.combine k) c 1 0 s q) ∧
      (∀ (sb rb : List Byte) (q1 q2 q : State), LastRow k 0x20 c s → q.se = v.se → eAxis d = true → eOf d = 1 → eCols d = 1 →
        UnitReads w (eAddr d 2 + i * eScPitch d) 1 sb v q1 → sb.length = 1 →
        UnitReads w (eAddr d 1 + i * eSrcPitch d) (eSrcB d) rb q1 q2 →
        UnitPuts w [⟨false, eAddr d 3 + i * eDstPitch d,
          leBytes 2 (toBf16 (sb.headD 0).toNat ((opeFmt (eSf d)).decode (elemAt (leVal rb) (opeBits (eSf d)) 0)))⟩] q2 q →
        RunsLastRow k (.dequant k) c 1 0 s q) ∧
      (∀ (eb bb bs : List Byte) (q1 q2 q3 q : State), LastRow k 0x28 c s → q.se = v.se →
        UnitReads w (eAddr d 3 + i * 16) 16 eb v q1 →
        (let table := fld (wordAt (leWords eb) 0) 51 0
         let pos := fld (wordAt (leWords eb) 1) 31 0
         table % 4 = 0 → UnitReads w (table + pos / 2 ^ eBlockLog d * 4) 4 bb q1 q2 → leVal bb ≠ 0xFFFFFFFF →
         leVal bb < eLimit d → UnitReads w (eAddr d 1 + i * eSPitch d) (eRowB d) bs q2 q3 →
         UnitWrites w (eAddr d 2 + leVal bb * eDPitch d + pos % 2 ^ eBlockLog d * eRowB d) bs q3 q →
         RunsLastRow k (.kvAppend k) c 1 0 s q)) ∧
      (∀ (x : Nat) (bs : List Byte) (q1 q : State), (s.engine k).cmds = [c] → c.ended = false → eOp d = 0x01 →
        i + 1 < seCount d → seUnits d = c.sub + 1 → c.idx ≠ [] → x = c.idx.getD i 0 → x < eLimit d →
        UnitReads w (eAddr d 1 + x * eSPitch d) (eRowB d) bs v q1 → UnitWrites w (eAddr d 2 + i * eDPitch d) bs q1 q →
        exec (.seUnit k) s = .next (putCmd k { c with started := true, sub := 0, row := i + 1, result := c.result + 1 } q)) ∧
      ((s.engine k).cmds = [c] → c.ended = false → c.sub + 1 < seUnits d →
        exec (.seUnit k) s = .next (putCmd k { c with started := true, sub := c.sub + 1 } v)) ∧
      (∀ r, s.coll.progs = [] → (s.engine k).cmds = [c] → c.ended = true → c.issuer = .ring r →
        ∃ u, exec (.seCommandComplete k c.seq) s = .next u ∧ (u.engine k).cmds = [])) ∧
    (∀ n : Nat, s.coll.progs = [] → (∀ c ∈ (s.engine k).cmds, c.seq ≠ n ∨ c.ended = false) →
      exec (.seCommandComplete k n) s = .next s) ∧
    (∀ (n : Nat) (rs : List Nat), (bestOf n rs).length = min n rs.length ∧ (∀ x ∈ bestOf n rs, x ∈ rs) ∧
      (bestOf n rs).Pairwise fun a b => b ≤ a)

/-- The Drover of hamlet `h` reads the `n` bytes `bs` at `a`, from state `s` to `r`, which has the registers, the Drovers and
the collectives of `s`. -/
def DroverReads (h a n : Nat) (bs : List Byte) (s r : State) : Prop :=
  drvRead h a n s = (.ok bs, r) ∧ r.regs = s.regs ∧ r.drv = s.drv ∧ r.coll = s.coll

/-- A slot that lies whole in an area of hamlet `h` has not been notified. -/
def Landed (h : Nat) (dir : Bool) (set src : Nat) (s : State) : Prop :=
  ∃ a ∈ s.coll.areas, a.ham = h ∧ a.dir = dir ∧ a.set = set ∧ a.src = src ∧ a.told = false

/-- `s` once the arrival in an area has been notified. -/
def notified (h : Nat) (dir : Bool) (set src : Nat) (s : State) : State :=
  { s with coll := { s.coll with areas := s.coll.areas.map fun a =>
    if a.ham = h ∧ a.dir = dir ∧ a.set = set ∧ a.src = src then { a with told := true } else a } }

/-- `s` once the arrival of a dispatch slot has been recorded as well. -/
def recorded (h set src : Nat) (s : State) : State :=
  (notified h false set src s).setDrover h { s.drover h with arrivals := (s.drover h).arrivals ++ [(set, src)] }

/-- A RECV step in slot `i` waits for its returns under STEP `n`. -/
def AwaitsReturn (h n i : Nat) (s : State) : Prop :=
  ∃ x : Recv, s.slot h i = some (.recv x) ∧ x.desc ≠ [] ∧ x.ended = false ∧ x.retd = false ∧ x.stopped = false ∧ vStep x.desc = n

/-- The commands of a Drover and its Gleaner (R302 to R335). -/
def Obligations.DroversTakeStepsAndPosts : Prop :=
  ∀ (h : Fin 8) (s : State), s.coll.progs = [] →
    (∀ (ag : Agent) (v : Word), ag ≠ .steward →
      (s.rb .DRV_CTL 12 h = false ∨ s.agentPart ag ≠ some (s.rf .DRV_CTL 19 16 h)) →
      ∀ c ∈ [Instr.homePost ag h v, .recvPost ag h v, .drvRetPost ag h v, .drvShPost ag h v, .drvCancel ag h v,
        .drvCqHeadWrite ag h v, .drvAlarmClear ag h v], exec c s = .next (refusePermission s)) ∧
    (∀ (ag : Agent) (v : Word), ag = .steward ∨ s.rb .DRV_CTL 12 h = true ∧ s.agentPart ag = some (s.rf .DRV_CTL 19 16 h) →
      (s.dormant (domHamlet h) = false →
        (∀ c ∈ [Instr.homePost ag h v, .recvPost ag h v],
          (s.rb .DRV_CTL 63 h = false ∨ xNdev h s ≤ xSelf h s → exec c s = .next s) ∧
          (s.rb .DRV_CTL 63 h = true → xSelf h s < xNdev h s → (∀ i < 16, (s.slot h i).isSome) →
            exec c s = .next (s.flag .DRV_ERR 0 h))) ∧
        (∀ (i : Nat) (bs : List Byte) (r : State), s.rb .DRV_CTL 63 h = true → xSelf h s < xNdev h s → i < 16 →
          s.slot h i = none → (∀ j < i, (s.slot h j).isSome) → DroverReads h (fld v 51 7 * 128) 128 bs s r →
          let d := leWords bs
          (fld (wordAt d 0) 63 60 = 1 → homeBad h d r = false → outside h (homeRegions h d r) r = false →
            ∃ u x, exec (.homePost ag h v) s = .next u ∧ u.slot h i = some (.home x) ∧ x.desc = d ∧ x.ph = .select ∧
              x.toks.length = hT d ∧ x.status = 0 ∧ ∀ j, j ≠ i → u.slot h j = s.slot h j) ∧
          (fld (wordAt d 0) 63 60 = 2 → recvBad h d r = false → outside h (recvRegions h d r) r = false →
            (s.drover h).arrivals = [] →
            exec (.recvPost ag h v) s = .next (r.setSlot h i (some (.recv (newRecv (fld v 51 7 * 128) d))))) ∧
          (∀ st : Nat, fld (wordAt d 0) 63 60 = 2 → s.rb .DRV_CQ_CFG 63 h = false →
            (outside h (recvRegions h d r) r = true ∧ st = 0x11 ∨
              outside h (recvRegions h d r) r = false ∧ recvBad h d r = true ∧ st = 0x10) →
            exec (.recvPost ag h v) s = .next (r.setSlot h i (some (.recv
              { newRecv (fld v 51 7 * 128) d with ended := true, status := st })))))) ∧
      ((∀ i < 16, ¬ AwaitsReturn h (fld v 31 0) i s) → exec (.drvRetPost ag h v) s = .next (s.flag .DRV_ERR 1 h)) ∧
      (∀ (i : Nat) (x : Recv), i < 16 → AwaitsReturn h (fld v 31 0) i s → s.slot h i = some (.recv x) →
        (∀ j < i, ¬ AwaitsReturn h (fld v 31 0) j s) →
        ∃ u, exec (.drvRetPost ag h v) s = .next u ∧
          ((u.slot h i = none ∧ x.inFly = 0) ∨ ∃ y, u.slot h i = some (.recv y) ∧ y.retd = true ∧ y.desc = x.desc)) ∧
      (homeOf h (fld v 63 48) (fld v 31 0) s = none →
        exec (.drvShPost ag h v) s = .next (s.flag .DRV_ERR 1 h) ∧ exec (.drvCancel ag h v) s = .next (s.flag .DRV_ERR 2 h)) ∧
      (∀ (i : Nat) (x : Home), homeOf h (fld v 63 48) (fld v 31 0) s = some (i, x) →
        (let k := fld v 32 32
         if hShe x.desc ≤ k ∨ k ∈ x.posted then exec (.drvShPost ag h v) s = .next (s.flag .DRV_ERR 1 h)
         else ∃ u, exec (.drvShPost ag h v) s = .next u ∧
           (u.slot h i = none ∨ ∃ y, u.slot h i = some (.home y) ∧ y.posted = x.posted ++ [k])) ∧
        ∃ u, exec (.drvCancel ag h v) s = .next u ∧ (u.slot h i = none ∨ ∃ y, u.slot h i = some (.home y) ∧
          (y.ph = .cancelled ∨ y.ph = .ended) ∧ 3 ≤ y.status)) ∧
      ((∀ i < 16, slotEnded h i s = false) →
        exec (.drvCqHeadWrite ag h v) s =
          .next (if headOk (s.rf .DRV_CQ_HEAD 15 0 h) (s.rf .DRV_CQ_TAIL 15 0 h) (fld v 15 0)
            then s.putReg .DRV_CQ_HEAD 15 0 (fld v 15 0) h else s)) ∧
      (∃ u, exec (.drvAlarmClear ag h v) s = .next u ∧
        (∀ b < 2, u.rb .DRV_ALARM b h = (s.rb .DRV_ALARM b h && !bit v b)) ∧
        (u.rf .DRV_ALARM 1 0 h = 0 → u.rf .DRV_ALARM 63 32 h = 0) ∧
        (u.rf .DRV_ALARM 1 0 h ≠ 0 → u.rf .DRV_ALARM 63 32 h = s.rf .DRV_ALARM 63 32 h))) ∧
    (∀ v : Word, (∀ i < 16, slotEnded h i s = false) →
      ∃ u, exec (.drvCqEnable h v) s = .next u ∧ u.rf .DRV_CQ_CFG 3 0 h = min 12 (max 4 (fld v 3 0)) ∧
        u.rb .DRV_CQ_CFG 63 h = bit v 63 ∧ u.drv = s.drv ∧
        (if bit v 63 = true ∧ s.rb .DRV_CQ_CFG 63 h = false then u.reg .DRV_CQ_TAIL h = 0 ∧ u.reg .DRV_CQ_HEAD h = 0
         else u.reg .DRV_CQ_TAIL h = s.reg .DRV_CQ_TAIL h ∧ u.reg .DRV_CQ_HEAD h = s.reg .DRV_CQ_HEAD h)) ∧
    (∀ (set : Fin 4) (src : Fin 4096),
      (¬ Landed h false set src s → exec (.dispatchArrival h set src) s = .next s) ∧
      (¬ Landed h true set src s → exec (.returnArrival h set src) s = .next s) ∧
      (Landed h false set src s → (set.val, src.val) ∉ (s.drover h).arrivals →
        let v := recorded h set src s
        (s.rb .DRV_CTL 63 h = false ∨ recvOfSet h set s = none → exec (.dispatchArrival h set src) s = .next v) ∧
        (∀ (i n : Nat) (x : Recv) (hb mb tb : List Byte) (q1 q2 q3 : State),
          let a := areaAddr h false set src s
          s.rb .DRV_CTL 63 h = true → recvOfSet h set s = some i → s.slot h i = some (.recv x) → x.closed = false →
          x.stopped = false → DroverReads h a 64 hb v q1 → fld (wordAt (leWords hb) 0) 63 60 = 1 →
          fld (wordAt (leWords hb) 1) 31 0 = vStep x.desc → n = min (xSlotRows h s) (fld (wordAt (leWords hb) 0) 44 32) →
          0 < n → DroverReads h (a + 64) (8 * n) mb q1 q2 → DroverReads h (a + 64 + 8 * xSlotRows h s) (4 * n) tb q2 q3 →
          ∃ u y, exec (.dispatchArrival h set src) s = .next u ∧ u.slot h i = some (.recv y) ∧ y.inFly = x.inFly + 1 ∧
            y.srcs = x.srcs ++ [⟨src, wordAt (leWords hb) 0, wordAt (leWords hb) 1,
              (List.range n).map fun j => leVal ((tb.drop (4 * j)).take 4), (leWords mb).map (·.toNat), none⟩])) ∧
      (Landed h true set src s →
        let v := notified h true set src s
        let a := areaAddr h true set src s
        ∀ (g : Fin 8) (hb tb : List Byte) (q1 q2 : State), DroverReads h a 64 hb v q1 →
          fld (wordAt (leWords hb) 0) 59 57 = g.val →
          let w := leWords hb
          let n := min (xRetRows h s) (fld (wordAt w 0) 44 32)
          let dev := fld (wordAt w 0) 56 45
          (s.rb .DRV_CTL 63 g = false ∨ homeOf g (fld (wordAt w 1) 63 48) (fld (wordAt w 0) 31 0) s = none →
            exec (.returnArrival h set src) s = .next (releaseArea h true set src (q1.count .GLN_CNT 63 48 g 0 n))) ∧
          (∀ (i : Nat) (x : Home) (p : Pair), hb ≠ [] → s.rb .DRV_CTL 63 g = true →
            homeOf g (fld (wordAt w 1) 63 48) (fld (wordAt w 0) 31 0) s = some (i, x) →
            x.toks = [⟨[p], 0, 0, false, none⟩] → p.st = 1 → p.rank = dev → x.ph = .open → x.staging = [] → hShe x.desc = 1 →
            x.posted = [] → hCmode x.desc = 1 → n = 1 → DroverReads h (a + 64) 8 tb q1 q2 →
            (let tag := wordAt (leWords tb) 0
             tb.length = 8 → fld tag 31 0 = hTbase x.desc → fld tag 59 54 = p.loc →
             ∃ u y q, exec (.returnArrival h set src) s = .next u ∧ u.slot g i = some (.home y) ∧
               y.toks = [⟨[q], 0, 0, false, none⟩] ∧ dev ∈ y.returned ∧
               (fld tag 63 60 = 0 → q = { p with st := 2, row := a + 64 + 8 * xRetRows h s }) ∧
               (fld tag 63 60 ≠ 0 → q.st = (if fld tag 63 60 = 1 then 7 else if fld tag 63 60 = 2 then 8 else 9)))))) ∧
    (∀ i : Fin 16,
      (∀ x : Recv, s.slot h i = some (.recv x) →
        exec (.finNsExpiry h i) s = .next s ∧
        (s.now < vRx x.desc → exec (.rxNsExpiry h i) s = .next s) ∧
        (vRx x.desc ≤ s.now → x.ended = false → x.stopped = false → x.closed = false → x.padding = false →
          x.srcs.length < xNdev h s →
          let m := xNdev h s - x.srcs.length
          (x.inFly ≠ 0 → exec (.rxNsExpiry h i) s =
            .next ((s.count .DRV_CNT_RX 31 16 h 0 m).setSlot h i (some (.recv { x with closed := true, missing := m })))) ∧
          (x.inFly = 0 → ∃ u, exec (.rxNsExpiry h i) s = .next u ∧ u.rf .DRV_CNT_RX 31 16 h = min 65535 (s.rf .DRV_CNT_RX 31 16 h + m) ∧
            u.slot h i = some (.recv { x with closed := true, missing := m, padding := true, inFly := 1 })))) ∧
      (∀ x : Home, s.slot h i = some (.home x) →
        exec (.rxNsExpiry h i) s = .next s ∧
        (x.ph ≠ .open ∧ x.ph ≠ .select ∨ hFin x.desc = 0 ∨ s.now < hFin x.desc → exec (.finNsExpiry h i) s = .next s) ∧
        (x.ph = .open ∨ x.ph = .select → hFin x.desc ≠ 0 → hFin x.desc ≤ s.now →
          ∃ u, exec (.finNsExpiry h i) s = .next u ∧ (u.slot h i = none ∨ ∃ y, u.slot h i = some (.home y) ∧
            (y.ph = .final ∨ y.ph = .ended) ∧ ∀ t ∈ y.toks, ∀ p ∈ t.pairs, p.st ≠ 1))) ∧
      (s.slot h i = none → exec (.rxNsExpiry h i) s = .next s ∧ exec (.finNsExpiry h i) s = .next s))

/-- Command `i` starts phase `k` of program slot `p`, on state `b`: a write of FAB_CP_GO by whoever may make it, or a COLL_PHASE
action that has been delivered (R343). -/
def StartsPhase (p k : Nat) (i : Instr) (s b : State) : Prop :=
  (∃ (ag : Agent) (q : Fin 32) (v : Word), i = .fabCpGo ag q v ∧ q.val = p ∧ fld v 5 0 = k ∧ b = s ∧
    (ag = .steward ∨ ∃ o, cpOwner p s = some o ∧ ag ≠ .steward ∧ s.agentPart ag = some o)) ∨
  ∃ (d : Delivery) (ds : List Delivery), i = .collPhase ∧ takeDelivery 9 s.deliveries = some (d, ds) ∧ d.target = p ∧ p < 32 ∧
    d.arg = k ∧ s.dormant 42 = false ∧ s.dormant 43 = false ∧ b = { s with deliveries := ds }

/-- Slot `p` reads the `n` words `ws` at `a`. -/
def ProgReads (p a n : Nat) (ws : List Word) (s r : State) : Prop :=
  progRead p a n s = (some ws, r) ∧ r.regs = s.regs ∧ r.coll = s.coll ∧ r.sched = s.sched ∧ r.now = s.now

/-- The collective engine reads the `n` bytes `bs` at `a` for slot `p`. -/
def CollReads (p a n : Nat) (bs : List Byte) (s r : State) : Prop :=
  devRead (whoProg p s) a n 0x12 s = (.ok bs, r) ∧ r.regs = s.regs ∧ r.coll = s.coll

/-- Slot `p` issues next the operation `w`, which it has read, and whose code is `opc`. -/
def Issues (p opc : Nat) (w : List Word) (s q : State) : Prop :=
  cpEn p s = true ∧ cpState p s ≠ 0 ∧ cpState p s ≠ 4 ∧ (s.prog p).ops.length < 32 ∧ oOpc w = opc ∧
    ∃ j n rest, (s.prog p).todo = (j, n) :: rest ∧ ProgReads p (fld (wordAt (s.prog p).hdr 3) 51 0 + j * 32) 4 w s q

/-- Nobody hears of the decision of slot `p` but its own registers: no doorbell, no tile of DMASK, no context that its epoch
holds up. -/
structure Unheard (p : Nat) (s : State) : Prop where
  db    : s.rb .FAB_CP_DB 63 p = false ∧ s.rb .ERR_DB 63 = false
  tiles : s.dmask (fld (wordAt (s.prog p).hdr 4) 53 49) = 0
  held  : ∀ c < 256, (p, cpEpoch p s) ∉ (s.cx c).epochs

/-- Slot `p` runs the program of a lone member, and has no operation outstanding. -/
structure Lone (p : Nat) (s : State) : Prop where
  one  : pMembers (s.prog p).hdr = 1 ∧ pSelf (s.prog p).hdr = 0 ∧ (s.prog p).hdr ≠ []
  ops  : (s.prog p).ops = []

/-- From `s` to `u` the run of slot `p` has been aborted with a cause (R355, R368). -/
def WasAborted (p cause : Nat) (s u : State) : Prop :=
  (u.prog p).todo = [] ∧ (u.prog p).ops = [] ∧
    (Unheard p s → Lone p s → cpState p u = 4 ∧ u.reg .FAB_CP_RES p = place 39 8 (cpEpoch p s) ||| place 2 0 cause ∧
      u.rf .FAB_CP_CNT 31 16 p = min 65535 (s.rf .FAB_CP_CNT 31 16 p + 1))

/-- The start of phases and the use of a slot (R342, R343, R367, R368). -/
def PhasesStart : Prop :=
  ∀ (p : Fin 32) (s : State),
    let x := s.prog p
    (∀ (ag : Agent) (v : Word), ag ≠ .steward → (∀ o, cpOwner p s = some o → s.agentPart ag ≠ some o) →
      exec (.fabCpGo ag p v) s = .next (refusePermission s) ∧ exec (.fabCpAbort ag p v) s = .next (refusePermission s)) ∧
    (∀ (d : Delivery) (ds : List Delivery), takeDelivery 9 s.deliveries = some (d, ds) → 32 ≤ d.target →
      exec .collPhase s = .next { s with deliveries := ds }) ∧
    (∀ (k : Nat) (i : Instr) (b : State), StartsPhase p k i s b →
      let ordered := exec i s = .next (b.flag .FAB_CP_ERR 1 p)
      (cpEn p s = false ∨ cpOwner p s = none → ordered) ∧
      (cpEn p s = true → (cpOwner p s).isSome = true → (x.checked = false ∨ pXonly x.hdr = false) →
        (cpLive p s = true → k = 0 ∨ pNph x.hdr ≤ k ∨ s.rf .FAB_CP_STAT 21 16 p + 1 ≠ k → ordered) ∧
        (cpState p s = 4 → k ≠ 0 → ordered) ∧
        (∀ (w : Word) (r : State), cpLive p s = true → k = s.rf .FAB_CP_STAT 21 16 p + 1 → k < pNph x.hdr →
          ProgReads p (fld (wordAt x.hdr 2) 51 0 + k * 8) 1 [w] b r → fld w 15 0 ≠ 0 →
          exec i s = .next ((r.putReg .FAB_CP_STAT 21 16 k p).modProg p fun x =>
            { x with todo := x.todo ++ [(fld w 63 48, fld w 15 0)] })) ∧
        (∀ (hd : List Word) (bad : Bool) (r q : State), k = 0 → cpLive p s = false →
          ProgReads p (s.rf .FAB_CP_BASE 51 6 p * 64) 8 hd (b.modProg p fun x => { x with hdr := [] }) r →
          pXonly hd = false → s.rb .FAB_CP_DB 63 p = false →
          let e := (cpEpoch p s + 1) % 2 ^ 32
          let v := ((r.modProg p fun x => { x with hdr := hd }).setReg .FAB_CP_EPOCH (BitVec.ofNat 64 e) p).modProg p fun x =>
            { Prog.reset with hdr := hd, checked := true, nextOp := x.nextOp, owed := x.owed, startNs := s.now }
          progBad p v = (bad, q) → q.regs = v.regs → q.coll = v.coll →
          (bad = true → ∃ u, exec i s = .next u ∧ cpState p u = 4 ∧ cpEpoch p u = e ∧ u.rb .FAB_CP_ERR 0 p = true ∧
            (u.prog p).todo = []) ∧
          (∀ (w : Word) (r2 : State), bad = false →
            ProgReads p (fld (wordAt hd 2) 51 0 + 0 * 8) 1 [w] (q.putReg .FAB_CP_STAT 2 0 1 p) r2 → fld w 15 0 ≠ 0 →
            ∃ u, exec i s = .next u ∧ cpState p u = 1 ∧ cpEpoch p u = e ∧ u.rf .FAB_CP_STAT 21 16 p = 0 ∧
              (u.prog p).todo = [(fld w 63 48, fld w 15 0)] ∧ (u.prog p).counters = [] ∧ (u.prog p).startNs = s.now))) ∧
      (∀ (w : Word) (r : State), cpEn p s = true → (cpOwner p s).isSome = true → x.checked = true → pXonly x.hdr = true →
        cpState p s ≠ 4 → k < pNph x.hdr →
        ProgReads p (fld (wordAt x.hdr 2) 51 0 + k * 8) 1 [w]
          ((b.modProg p fun x => { x with checked := true }).putReg .FAB_CP_STAT 2 0 1 p) r → fld w 15 0 ≠ 0 →
        exec i s = .next ((r.putReg .FAB_CP_STAT 21 16 k p).modProg p fun x =>
          { x with todo := x.todo ++ [(fld w 63 48, fld w 15 0)] }))) ∧
    (∀ v : Word,
      (cpEn p s = false → bit v 63 = true → x.ops = [] → ∃ u, exec (.fabCpEnable p v) s = .next u ∧ cpEn p u = true ∧
        cpState p u = 0 ∧ cpEpoch p u = 0 ∧ u.prog p = { Prog.reset with nextOp := x.nextOp }) ∧
      (cpEn p s = true → bit v 63 = true → exec (.fabCpEnable p v) s = .next (s.writePlain .FAB_CP_CTL v p)) ∧
      (bit v 63 = false → cpEn p s = false ∨ cpLive p s = false →
        exec (.fabCpDisable p v) s = .next (s.writePlain .FAB_CP_CTL v p)) ∧
      (bit v 63 = false → cpEn p s = true → cpLive p s = true →
        ∃ u, exec (.fabCpDisable p v) s = .next u ∧ WasAborted p 3 s u))

/-- Operations as they issue, and how a run ends (R344 to R348, R354 to R358, R362 to R366). -/
def OperationsIssue : Prop :=
  ∀ (p : Fin 32) (s : State),
    let x := s.prog p
    let h := x.hdr
    let df := pDf h
    let all : List (Nat × Instr) := [(1, .put p), (2, .reduce p false), (3, .areduce p false), (4, .wait p), (5, .signal p),
      (6, .a2a p), (7, .commit p)]
    (cpEn p s = false ∨ cpState p s = 0 ∨ cpState p s = 4 ∨ 32 ≤ x.ops.length ∨ x.todo = [] →
      ∀ c ∈ all, exec c.2 s = .next s) ∧
    (∀ opc w q, Issues p opc w s q → ∀ c ∈ all, c.1 ≠ opc → exec c.2 s = .next s) ∧
    (∀ (w : List Word) (q q1 q2 q3 q4 q5 : State) (base : Nat) (a b : List Byte), selfBase p (popOp p q) = (some base, q1) →
      q1.regs = q.regs → q1.coll = (popOp p q).coll →
      CollReads p (base + oA w) (oLen w * collBytes df (oAw w)) a q1 q2 →
      let who := whoProg p s
      (Issues p 1 w s q → oAw w = oOw w → oMember w = pSelf h → devWrite who (base + oD w) a 0x12 q2 = (none, q3) →
        exec (.put p) s = .next (bumpCtr p (oCtr w) q3)) ∧
      (Issues p 2 w s q → CollReads p (base + oB w) (oLen w * collBytes df (oBw w)) b q2 q4 →
        devWrite who (base + oD w) (collCombine df (pRed h) (oAw w) (oBw w) (oOw w) a b) 0x12 q4 = (none, q5) →
        exec (.reduce p false) s = .next q5) ∧
      (Issues p 3 w s q → oMember w = pSelf h → CollReads p (base + oD w) (oLen w * collBytes df (oBw w)) b q2 q4 →
        devWrite who (base + oD w) (collCombine df (pRed h) (oAw w) (oBw w) (oBw w) a b) 0x12 q4 = (none, q5) →
        exec (.areduce p false) s = .next (bumpCtr p (oCtr w) q5)) ∧
      (∀ (mb node : Nat), memberOf p (oMember w) q2 = (some (mb, node), q3) → q3.coll = q2.coll → oMember w ≠ pSelf h →
        let opened (i : Instr) (wire dest : Bool) : Prop := ∃ u, exec i s = .next u ∧ (u.prog p).ops = x.ops ++
          [⟨x.nextOp, (collPieces (collBytes df wire) (collBytes df dest) (a.length + 1) (mb + oD w) a).length, none⟩]
        (Issues p 1 w s q → oAw w = oOw w → opened (.put p) (oOw w) (oOw w)) ∧
        (Issues p 3 w s q → opened (.areduce p false) (oAw w) (oBw w)))) ∧
    (∀ w q, Issues p 4 w s q → exec (.wait p) s =
      .next (if oLen w ≤ Tab.get (fun _ => 0) x.counters (oCtr w) then popOp p q else q)) ∧
    (∀ w q, Issues p 5 w s q →
      (x.ops ≠ [] → exec (.signal p) s = .next q) ∧
      (x.ops = [] → cpLive p s = false ∨ pXonly h = true → exec (.signal p) s =
        .next (deliverEvts ((cpOwner p s).getD 0) (signalTiles p w q) (1#32 <<< fld (wordAt w 0) 20 16) (popOp p q))) ∧
      (x.ops = [] → cpLive p s = true → pXonly h = false →
        (∀ c ∈ signalCxs p w q, (p.val, cpEpoch p s) ∈ (s.cx c).epochs ∨ (s.cx c).epochs.length < 4) →
        ∃ u, exec (.signal p) s = .next u ∧ (u.prog p).todo = ((popOp p q).prog p).todo ∧
          ∀ c ∈ signalCxs p w q, (p.val, cpEpoch p s) ∈ (u.cx c).epochs)) ∧
    (∀ w q, Issues p 7 w s q →
      let v := (popOp p q).modProg p fun x => { x with commit := true }
      let clean := cpState p s = 1 ∧ x.bad = false ∧ ∀ m ∈ treeKids (pMembers h) (pSelf h), m ∈ x.kids
      (x.ops ≠ [] → exec (.commit p) s = .next q) ∧
      (x.ops = [] → ¬ clean → exec (.commit p) s = .next v) ∧
      (x.ops = [] → clean → Unheard p s → Lone p s → ∃ u, exec (.commit p) s = .next u ∧ cpState p u = 3 ∧
        u.rf .FAB_CP_CNT 15 0 p = min 65535 (s.rf .FAB_CP_CNT 15 0 p + 1) ∧ (u.prog p).commit = true) ∧
      (∀ (mb node : Nat) (r : State), x.ops = [] → clean → pSelf h ≠ 0 →
        memberOf p ((pSelf h - 1) / 16) (v.putReg .FAB_CP_STAT 2 0 2 p) = (some (mb, node), r) →
        r.regs = (v.putReg .FAB_CP_STAT 2 0 2 p).regs → ∃ u, exec (.commit p) s = .next u ∧ cpState p u = 2)) ∧
    (∀ w q, Issues p 6 w s q →
      let g := oHam w
      (xNdev g s ≠ pMembers h ∨ xSelf g s ≠ pSelf h → q.drv = s.drv →
        exec (.a2a p) s = .next ((popOp p q).flag .FAB_CP_ERR 0 p)) ∧
      (xNdev g s = pMembers h → xSelf g s = pSelf h → q.drv = s.drv →
        let num := if oDir w = true then s.rf .FAB_CP_STEP 63 32 p else s.rf .FAB_CP_STEP 31 0 p
        q.mem = s.mem → q.grn.t2down = [] → (∀ d < xNdev g s, d ≠ xSelf g s → (memberOf p d q).1.isSome = true) →
        ∃ u, exec (.a2a p) s = .next u ∧ ∀ d < xNdev g s, (oDir w, num % xSets g s, d) ∈ (u.prog p).owed)) ∧
    (∀ (ag : Agent) (v : Word), ag = .steward ∨ (∃ o, cpOwner p s = some o ∧ ag ≠ .steward ∧ s.agentPart ag = some o) →
      (bit v 0 = false ∨ cpLive p s = false → exec (.fabCpAbort ag p v) s = .next s) ∧
      (bit v 0 = true → cpLive p s = true → ∃ u, exec (.fabCpAbort ag p v) s = .next u ∧ WasAborted p 3 s u)) ∧
    (let late := cpLive p s = true ∧ pXonly h = false ∧ pSelf h = 0 ∧ x.startNs + pTimeout h * 1000 ≤ s.now
     (¬ late → exec (.decisionTimeout p) s = .next s) ∧
     (late → ∃ u, exec (.decisionTimeout p) s = .next u ∧ WasAborted p 4 s u)) ∧
    (let late := cpLive p s = true ∧ pXonly h = false ∧ pSelf h ≠ 0 ∧ x.startNs + (pTimeout h + 250) * 1000 ≤ s.now
     (¬ late → exec (.failedTimeout p) s = .next s) ∧
     (late → Unheard p s → ∃ u, exec (.failedTimeout p) s = .next u ∧ cpState p u = 5 ∧ u.rb .FAB_CP_ERR 4 p = true ∧
       u.coll = s.coll)) ∧
    ((∀ n, (s.prog n).ops = []) → exec (.a2aCreditTimeout p) s = .next s) ∧
    (∀ (e : Exchange) (id left rank : Nat) (ps : List (Nat × List Byte)), (∀ n, n ≠ p.val → (s.prog n).ops = []) →
      x.ops = [⟨id, left, some e⟩] → e.todo = [(rank, ps)] → e.wait = [] → (∀ i, s.slot e.ham i = none) →
      (s.now < e.atNs + 10000000 → (e.dir, e.set, rank) ∈ x.owed → exec (.a2aCreditTimeout p) s = .next s) ∧
      (e.atNs + 10000000 ≤ s.now → ∃ u, exec (.a2aCreditTimeout p) s = .next u ∧ (u.prog p).ops = [] ∧
        (e.ham, e.dir, e.set, rank) ∉ u.coll.staged ∧ u.rb .FAB_CP_ERR 3 p = true ∧
        u.rf .FAB_CP_CNT 47 32 p = min 65535 (s.rf .FAB_CP_CNT 47 32 p + 1)))

/-- The programs of a slot: how phases start, what operations do as they issue, and how a run ends. -/
def Obligations.CollectiveProgramsRun : Prop := PhasesStart ∧ OperationsIssue

/-- The command `i` is the arrival, on port `q` with the words that `e` found, of a sequenced packet with header `h` and
contents `b`; WORDS of a WRITE is what its ADDR and BYTES make (R377). -/
def Carries (i : Instr) (q : Fin 36) (e : LinkErr) (h : PktHdr) (b : PktBody) : Prop :=
  (∃ d, i = .write q e h d ∧ b = .write d ∧ h.words.toNat = ceilDiv (h.addr.toNat % 32 + h.bytes.toNat + 1) 32) ∨
  (i = .read q e h ∧ b = .read) ∨ (∃ x y r, i = .atomic q e h x y r ∧ b = .atomic x y r) ∨
  (∃ m, i = .collDataRx q e h m false ∧ b = .coll m) ∨
  (∃ p n m, i = .reportRx q e h p n m ∧ b = .coll ⟨p, n, .report m⟩) ∨
  (∃ p n, i = .decisionRx q e h p n ∧ b = .coll ⟨p, n, .commit⟩) ∨
  (∃ p n m c, i = .abortRx q e h p n m c ∧ b = .coll ⟨p, n, .abort m c⟩) ∨
  (∃ p n d k r, i = .creditRx q e h p n d k r ∧ b = .coll ⟨p, n, .credit d k r⟩) ∨
  ∃ p n d g k r, i = .a2aAckRx q e h p n d g k r ∧ b = .coll ⟨p, n, .slotAck d g k r⟩

/-- What the code makes of a received packet's words does not depend on what the packet carries, only on its header and the
differences `e`: the header word cannot be corrected, a data word cannot, and what is noted of the arrival (R264, R382). -/
def hdrBad (e : LinkErr) (h : PktHdr) : Bool := linkHdrBad e ⟨h, .ack, []⟩
def dataBad (e : LinkErr) (h : PktHdr) : Bool := !(linkBad e ⟨h, .ack, []⟩).isEmpty
def arrived (q : Nat) (e : LinkErr) (h : PktHdr) (s : State) : State := noteArrival q e ⟨h, .ack, []⟩ s

/-- A packet comes in on port `q` with a good header, for this node (R372, R374, R382). -/
structure ForUs (q : Fin 36) (e : LinkErr) (h : PktHdr) (s : State) : Prop where
  on  : fabOn s = true
  up  : portUp q s = true
  hdr : hdrBad e h = false
  dst : h.dst.toNat = ownNode s

/-- It is not too old, and knows this device's incarnation, which knows its sender's (R380, R383). -/
structure Timely (h : PktHdr) (s : State) : Prop where
  age : tooOld h s = false
  inc : h.dinc.toNat = s.rf .FAB_INC 7 0
  src : (s.peer h.src.toNat).sinc = some h.sinc.toNat

/-- It is the next that is performed for its source, and no other is held (R378). -/
structure InTurn (h : PktHdr) (s : State) : Prop where
  timely : Timely h s
  next   : (s.peer h.src.toNat).expect = h.seq.toNat
  none_  : (s.peer h.src.toNat).held = []

/-- A packet with these contents and status, for the source of `h`, waits in queue `c` of port `q` (R377). -/
def Answered (q : Fin 36) (h : PktHdr) (c st : Nat) (b : PktBody) (u : State) : Prop :=
  ∃ x ∈ Tab.get (fun _ => []) (u.fabPort q).queues c, x.pkt.body = b ∧ x.pkt.hdr.op = BitVec.ofNat 4 st ∧
    x.pkt.hdr.seq = h.seq ∧ x.pkt.hdr.dst = h.src ∧ x.pkt.hdr.p0 = BitVec.ofNat 6 q ∧ x.pkt.hdr.hops = h.hops

/-- The packet of the source of `h` counts as performed: the next SEQ is expected, and an ACK is owed (R378, R379). -/
def CountsPerformed (h : PktHdr) (s u : State) : Prop :=
  (u.peer h.src.toNat).expect = ((s.peer h.src.toNat).expect + 1) % 2 ^ 32 ∧
    (u.peer h.src.toNat).unacked = (s.peer h.src.toNat).unacked + 1

/-- The receiving side of the fabric (R374 to R390). -/
def Obligations.FabricTargetsPerformInOrder : Prop :=
  ∀ (q : Fin 36) (e : LinkErr) (h : PktHdr) (s : State),
    let v := arrived q e h s
    let n := h.src.toNat
    let x := s.peer n
    let a := h.addr.toNat
    (∀ (i : Instr) (b : PktBody), Carries i q e h b →
      (fabOn s = false ∨ portUp q s = false → exec i s = .next s) ∧
      (fabOn s = true → portUp q s = true → hdrBad e h = true → exec i s = .next (v.count .FAB_CNT 15 0)) ∧
      (ForUs q e h s →
        (tooOld h s = true → exec i s = .next (v.count .FAB_CNT 31 16)) ∧
        (tooOld h s = false → h.dinc.toNat ≠ s.rf .FAB_INC 7 0 →
          ∃ u, exec i s = .next u ∧ Answered q h 0 5 .nak u ∧ u.mem = s.mem ∧ u.fab.peers = s.fab.peers) ∧
        (Timely h s → dataBad e h = true → (∀ m, b ≠ .coll m) →
          ∃ u, exec i s = .next u ∧ Answered q h 0 6 .nak u ∧ u.mem = s.mem ∧ u.fab.peers = s.fab.peers) ∧
        (Timely h s → dataBad e h = false →
          let ahead := (h.seq.toNat + 2 ^ 32 - x.expect) % 2 ^ 32
          (2 ^ 31 ≤ ahead → ∃ u, exec i s = .next u ∧ (u.peer n).unacked = 0 ∧ (u.peer n).expect = x.expect ∧
            (u.peer n).held = x.held ∧ u.mem = s.mem) ∧
          (0 < ahead → ahead < 2 ^ 31 → (∀ p ∈ x.held, p.pkt.hdr.seq ≠ h.seq) →
            exec i s = .next (if x.held.length < 256 then
              v.setPeer n { x with held := x.held ++ [⟨q, false, ⟨h, b, []⟩⟩] } else v))) ∧
        (∀ c, tooOld h s = false → h.dinc.toNat = s.rf .FAB_INC 7 0 → x.sinc = some c →
          (formerSinc x h = true → exec i s = .next v) ∧
          (formerSinc x h = false → h.sinc.toNat ≠ c → dataBad e h = false → 0 < h.seq.toNat → h.seq.toNat < 2 ^ 31 →
            exec i s = .next (v.setPeer n { x with
              sinc := some h.sinc.toNat, expect := 0, unacked := 0, held := [⟨q, false, ⟨h, b, []⟩⟩] }))))) ∧
    (ForUs q e h s → InTurn h s → dataBad e h = false →
      (∀ d : List Byte, h.words.toNat = ceilDiv (a % 32 + h.bytes.toNat + 1) 32 → a + d.length ≤ 0x1E000000000 →
        (∀ (o : Nat) (r : State), regionOwner n h.key.toNat 1 a d.length v = some o →
          devWrite (whoFab q (some o)) a d 0 v = (none, r) → r.fab = v.fab →
          ∃ u, exec (.write q e h d) s = .next u ∧ CountsPerformed h s u ∧ u.mem = r.mem ∧ u.regs = r.regs) ∧
        (regionOwner n h.key.toNat 1 a d.length v = none →
          ∃ u, exec (.write q e h d) s = .next u ∧ CountsPerformed h s u ∧ Answered q h 0 1 .nak u ∧ u.mem = s.mem)) ∧
      (∀ (o : Nat) (d : List Byte) (r : State), a + (h.bytes.toNat + 1) ≤ 0x1E000000000 →
        regionOwner n h.key.toNat 0 a (h.bytes.toNat + 1) v = some o →
        devRead (whoFab q (some o)) a (h.bytes.toNat + 1) 0 v = (.ok d, r) → r.fab = v.fab →
        ∃ u, exec (.read q e h) s = .next u ∧ CountsPerformed h s u ∧ Answered q h h.cls.toNat 0 (.readRsp d) u ∧
          u.mem = r.mem) ∧
      (∀ (operand compare : Word) (req : BitVec 32),
        let hit := s.fab.cache.find? fun c => c.src == n && c.req == req.toNat
        let i := Instr.atomic q e h operand compare req
        (s.syncOk = false ∨ hit = none ∧ 4096 ≤ s.fab.cache.length →
          ∃ u, exec i s = .next u ∧ CountsPerformed h s u ∧ Answered q h 0 4 .nak u ∧ u.mem = s.mem ∧
            u.fab.cache = s.fab.cache) ∧
        (∀ c, s.syncOk = true → hit = some c →
          ∃ u, exec i s = .next u ∧ CountsPerformed h s u ∧ Answered q h h.cls.toNat c.status (.atomicRsp c.old req) u ∧
            u.mem = s.mem ∧ u.fab.cache = s.fab.cache) ∧
        (∀ (o : Nat) (d : List Byte) (r w : State), s.syncOk = true → hit = none → s.fab.cache.length < 4096 →
          a + 8 ≤ 0x1E000000000 → regionOwner n h.key.toNat 2 a 8 v = some o →
          devRead (whoFab q (some o)) a 8 0 v = (.ok d, r) → 
          (let old : Word := BitVec.ofNat 64 (leVal d)
           devWrite (whoFab q (some o)) a (leBytes 8 (amoValue h.op.toNat old operand compare).toNat) 0 r = (none, w) →
           w.fab = v.fab → w.now = s.now →
           ∃ u, exec i s = .next u ∧ CountsPerformed h s u ∧ Answered q h h.cls.toNat 0 (.atomicRsp old req) u ∧
             u.mem = w.mem ∧ u.fab.cache = s.fab.cache ++ [⟨n, req.toNat, 0, old, s.now⟩])))) ∧
    (∀ p : Packet, fabOn s = true → portUp q s = true → linkHdrBad e p = false → p.hdr.dst.toNat ≠ ownNode s →
      let hop := p.hdr.hop.toNat + 1
      let o := if hop = 1 then p.hdr.p1.toNat else p.hdr.p2.toNat
      let y := s.peer p.hdr.src.toNat
      (hop ≤ p.hdr.hops.toNat → o < 36 → portUp o s = true →
        ∃ u, exec (.packetForward q e p) s = .next u ∧ u.mem = s.mem ∧
          ∃ z ∈ Tab.get (fun _ => []) (u.fabPort o).queues p.hdr.cls.toNat,
            z.pkt = ⟨{ p.hdr with hop := BitVec.ofNat 2 hop }, p.body, linkBad e p⟩) ∧
      (∀ k : Nat, p.hdr.hops.toNat < hop ∨ 36 ≤ o ∨ portUp o s = false → y.active = [k] →
        ∃ u, exec (.packetForward q e p) s = .next u ∧
          ∃ z ∈ Tab.get (fun _ => []) (u.fabPort (pathPort (y.path k) 0)).queues 0,
            z.pkt.hdr.dst = p.hdr.src ∧ z.pkt.body = .pathFail p.hdr.p0 p.hdr.p1 p.hdr.p2)) ∧
    (∀ node : BitVec 12,
      let y := s.peer node.toNat
      (fabOn s = false ∨ y.unacked = 0 → exec (.ackSend node) s = .next s) ∧
      (∀ k, fabOn s = true → y.unacked ≠ 0 → y.active = [k] → ∃ u, exec (.ackSend node) s = .next u ∧
        (u.peer node.toNat).unacked = 0 ∧ (u.peer node.toNat).expect = y.expect ∧
        ∃ z ∈ Tab.get (fun _ => []) (u.fabPort (pathPort (y.path k) 0)).queues 0,
          z.pkt.body = .ack ∧ z.pkt.hdr.dst = node ∧ z.pkt.hdr.seq = BitVec.ofNat 32 (y.expect + 2 ^ 32 - 1))) ∧
    (∃ u, exec .replyCacheExpire s = .next u ∧ u.mem = s.mem ∧
      u.fab.cache = s.fab.cache.filter fun c => decide (s.now < c.made + 2000000))

/-- Collective messages that are next in their source's order (R345, R346, R354, R355, R364 to R366). -/
def Obligations.CollectiveMessagesArrive : Prop :=
  ∀ (q : Fin 36) (e : LinkErr) (h : PktHdr) (s : State), ForUs q e h s → InTurn h s → dataBad e h = false →
    let v := arrived q e h s
    let n := h.src.toNat
    let a := h.addr.toNat
    (∀ (i : Instr) (m : CollMsg), Carries i q e h (.coll m) →
      (cpEn m.prog s = false ∨ cpEpoch m.prog s ≠ m.epoch.toNat ∨ cpState m.prog s = 4) →
      ∃ u, exec i s = .next u ∧ CountsPerformed h s u ∧ u.coll = s.coll ∧ u.mem = s.mem ∧
        u.rf .FAB_CP_CNT 63 48 m.prog = min 65535 (s.rf .FAB_CP_CNT 63 48 m.prog + 1)) ∧
    ∀ (p : Fin 32) (ep : BitVec 32), cpEn p s = true → cpEpoch p s = ep.toNat → cpState p s ≠ 4 →
      let live := cpLive p s = true
      let x := s.prog p
      (∀ (df red : BitVec 2) (aw bw : Bool) (ctr : BitVec 6) (last : Bool) (bs : List Byte) (o : Nat) (r : State),
        let who := whoFab q (some o)
        let ends (i : Instr) : Prop := ∃ u, exec i s = .next u ∧ CountsPerformed h s u ∧ u.mem = r.mem ∧
          u.coll = (if last then bumpCtr p ctr.toNat r else r).coll
        (a + bs.length ≤ 0x1E000000000 → regionOwner n h.key.toNat 1 a bs.length v = some o →
          devWrite who a bs 0x12 v = (none, r) → r.fab = v.fab →
          ends (.collDataRx q e h ⟨p, ep, .data false df red aw bw ctr last bs⟩ false)) ∧
        (∀ (old : List Byte) (r1 : State),
          let len := bs.length / collBytes df.toNat aw * collBytes df.toNat bw
          a + len ≤ 0x1E000000000 → regionOwner n h.key.toNat 1 a len v = some o → devRead who a len 0x12 v = (.ok old, r1) →
          devWrite who a (collCombine df.toNat red.toNat aw bw bw bs old) 0x12 r1 = (none, r) → r.fab = v.fab →
          ends (.collDataRx q e h ⟨p, ep, .data true df red aw bw ctr last bs⟩ false))) ∧
      (∀ (dir : Bool) (g : Fin 8) (k : BitVec 2) (src : BitVec 12) (off : Nat) (bs : List Byte) (r : State),
        (g.val, dir, k.toNat, src.toNat) ∉ s.coll.spoiled →
        devWrite (whoDrv g v) (areaAddr g dir k.toNat src.toNat v + off) bs 0x12 v = (none, r) → r.fab = v.fab → r.coll = v.coll →
        ∃ u, exec (.collDataRx q e h ⟨p, ep, .slot dir g k src off true bs⟩ false) s = .next u ∧ CountsPerformed h s u ∧
          ⟨g, dir, k.toNat, src.toNat, p, n, false⟩ ∈ u.coll.areas) ∧
      (∀ m : BitVec 12, ∃ u, exec (.reportRx q e h p ep m) s = .next u ∧ CountsPerformed h s u ∧
        (u.prog p).kids = x.kids ++ [m.toNat]) ∧
      (live → Unheard p s → treeKids (pMembers x.hdr) (pSelf x.hdr) = [] →
        ∃ u, exec (.decisionRx q e h p ep) s = .next u ∧ CountsPerformed h s u ∧ cpState p u = 3 ∧ u.coll = s.coll ∧
          u.rf .FAB_CP_CNT 15 0 p = min 65535 (s.rf .FAB_CP_CNT 15 0 p + 1)) ∧
      (∀ (m : BitVec 12) (c : BitVec 3), live →
        ∃ u, exec (.abortRx q e h p ep m c) s = .next u ∧ CountsPerformed h s u ∧ (u.prog p).todo = [] ∧ (u.prog p).ops = [] ∧
          (Unheard p s → Lone p s → cpState p u = 4 ∧
            u.reg .FAB_CP_RES p = place 63 52 m.toNat ||| place 39 8 ep.toNat ||| place 2 0 c.toNat)) ∧
      (∀ (dir : Bool) (k : BitVec 2) (rank : BitVec 12), (∀ y, (s.prog y).ops = []) →
        ∃ u, exec (.creditRx q e h p ep dir k rank) s = .next u ∧ CountsPerformed h s u ∧
          (u.prog p).owed = x.owed.filter fun c => c != (dir, k.toNat, rank.toNat)) ∧
      (∀ (dir : Bool) (g : Fin 8) (k : BitVec 2) (rank : BitVec 12) (y : Exchange) (id left : Nat),
        (∀ m, m ≠ p.val → (s.prog m).ops = []) → (∀ i, s.slot g i = none) → x.ops = [⟨id, left, some y⟩] → y.todo = [] →
        y.ham = g.val → y.dir = dir → y.set = k.toNat → y.wait = [rank.toNat] →
        ∃ u, exec (.a2aAckRx q e h p ep dir g k rank) s = .next u ∧ CountsPerformed h s u ∧ (u.prog p).ops = [] ∧
          (g.val, dir, k.toNat, rank.toNat) ∉ u.coll.staged)

/-- Packet `d` is at the head of queue `j` of port `q`, and the Sluice stage of the port's half does not hold it (R424). -/
def Ready (q j : Nat) (d : QPkt) (rest : List QPkt) (s : State) : Prop :=
  j < 16 ∧ Tab.get (fun _ => []) (s.fabPort q).queues j = d :: rest ∧
    mayLeave (9 + q / 18) (s.fabPort q).heads (j, d) s = true

/-- Packet `e` is at the head of queue `i`, which the port serves next (R395), of those whose packet may leave: the strict
queues 0 to 3 in order, then the smallest finish tag, the lower number first. -/
structure ServedNext (q i : Nat) (e : QPkt) (rest : List QPkt) (s : State) : Prop where
  head   : Ready q i e rest s
  strict : ∀ j < 4, j < i → ∀ d l, ¬ Ready q j d l s
  fair   : 4 ≤ i → ∀ j d l, 4 ≤ j → Ready q j d l s → j ≠ i → if j < i then e.fin < d.fin else e.fin ≤ d.fin

/-- From `s` to `u` tile `t` has taken an exception for a remote access at `a`, if it was in K mode (R103). -/
def Faulted (t : Fin 128) (cause a : Nat) (s u : State) : Prop :=
  (s.core t).modeM = false → u.core t = (s.core t).enter (s.reg .TILE_MVEC t) cause a

/-- The request `r` is the only one, and tile `t` waits for it. -/
def Waits (t : Fin 128) (r : RemReq) (w : Wait) (s : State) : Prop :=
  s.fab.reqs = [r] ∧ (s.core t).wait = w ∧ s.rb .ERR_DB 63 = false

/-- From `s` to `u` request `r` has gone out again as a new packet with contents `b` (R388, R391). -/
def Reissued (r : RemReq) (b : PktBody) (s u : State) : Prop :=
  let x := s.peer r.node
  u.fab.reqs = [{ r with seqs := x.nextSeq :: r.seqs, last := s.now, busyAt := none }] ∧
    (u.peer r.node).nextSeq = (x.nextSeq + 1) % 2 ^ 32 ∧
    ∃ o ∈ (u.peer r.node).sent, o.pkt.body = b ∧ o.pkt.hdr.seq = BitVec.ofNat 32 x.nextSeq

/-- Answers as they arrive at the requester (R375, R379, R380, R382, R388, R391). -/
def AnswersArrive (q : Fin 36) (e : LinkErr) (h : PktHdr) (s : State) : Prop :=
  let v := arrived q e h s
  let n := h.src.toNat
  let x := s.peer n
  let st := h.op.toNat
  (∀ (bs : List Byte) (old : Word) (req : BitVec 32) (p0 p1 p2 : BitVec 6),
    ∀ c ∈ [Instr.ack q e h, .nak q e h, .readRsp q e h bs, .atomicRsp q e h old req, .pathFail q e h p0 p1 p2],
      (fabOn s = false ∨ portUp q s = false → exec c s = .next s) ∧
      (fabOn s = true → portUp q s = true → hdrBad e h = true → exec c s = .next (v.count .FAB_CNT 15 0)) ∧
      (ForUs q e h s → dataBad e h = true → exec c s = .next (v.count .FAB_CNT2 63 48))) ∧
  (ForUs q e h s → dataBad e h = false →
    (h.sinc.toNat ≠ x.dinc ∨ (∀ o ∈ x.sent, o.pkt.hdr.seq ≠ h.seq) → exec (.ack q e h) s = .next v) ∧
    (h.sinc.toNat = x.dinc → (∃ o ∈ x.sent, o.pkt.hdr.seq = h.seq) →
      let w := v.setPeer n { x with
        sent := x.sent.filter fun o => !seqLe o.pkt.hdr.seq.toNat h.seq.toNat
        acked := nakable (x.acked ++ ackCovers x h.seq.toNat) s, advAt := s.now, toCount := 0 }
      ((∀ o ∈ x.sent, o.tag = .none ∨ ∃ t, o.tag = .tile t) → exec (.ack q e h) s = .next w) ∧
      (∀ o p op, x.sent = [o] → o.tag = .coll p op → exec (.ack q e h) s = .next (collAcked p op w)) ∧
      (∀ o c, x.sent = [o] → o.tag = .dma c → exec (.ack q e h) s = .next (dmaAcked c w))) ∧
    (st = 5 → h.sinc.toNat = x.dinc → exec (.nak q e h) s = .next v) ∧
    (st = 5 → h.sinc.toNat ≠ x.dinc → (∀ r ∈ s.fab.reqs, r.node ≠ n) →
      ∃ u, exec (.nak q e h) s = .next u ∧ (u.peer n).dinc = h.sinc.toNat ∧ (u.peer n).nextSeq = 0 ∧ (u.peer n).sent = [] ∧
        ∀ (o : OutPkt) (p : Fin 16), x.sent = [o] → o.posted = true → o.part = some p.val →
          s.rb .ERR_DB 63 = false → u.rb .FAB_P_ERR 1 p = true ∧ u.rb .FAB_EVT 0 = true) ∧
    (st ≠ 5 → st ≠ 4 → (∀ o ∈ x.sent ++ x.acked, o.pkt.hdr.seq ≠ h.seq) → exec (.nak q e h) s = .next v) ∧
    (st = 4 → exec (.nak q e h) s = .next { v with fab := { v.fab with reqs := v.fab.reqs.map fun r =>
      match r.asker with
      | .atomic _ => if r.node = n ∧ r.seqs.head? = some h.seq.toNat then { r with busyAt := some s.now } else r
      | _ => r } }) ∧
    (∀ (o : OutPkt) (d : List Byte) (p : Fin 16), st < 4 → (x.sent ++ x.acked).find? (fun y => y.pkt.hdr.seq == h.seq) = some o →
      o.pkt.body = .write d → o.part = some p.val → s.rb .ERR_DB 63 = false →
      ∃ u, exec (.nak q e h) s = .next u ∧ u.rb .FAB_P_ERR 0 p = true ∧ (u.peer n).sent = x.sent ∧
        (u.peer n).acked = x.acked.filter fun y => y.pkt.hdr.seq != h.seq) ∧
    (∀ o : OutPkt, x.sent = [o] → o.pkt.hdr.seq = h.seq →
      (st = 6 → ∃ u y, exec (.nak q e h) s = .next u ∧ (u.peer n).sent = [y] ∧ y.discards = o.discards + 1 ∧
        y.pkt = o.pkt ∧ (∀ k, o.path = some k → 3 ≤ o.discards → k ∉ (u.peer n).live))) ∧
    (∀ bs, (∀ r ∈ s.fab.reqs, r.node ≠ n ∨ h.seq.toNat ∉ r.seqs ∨ ∃ t, r.asker = .atomic t) →
      exec (.readRsp q e h bs) s = .next v) ∧
    (∀ (t : Fin 128) (g : Fin 64) (len : Nat) (sx : Bool) (r : RemReq) (bs : List Byte),
      Waits t r (.remoteLoad g len sx r.id) s → r.asker = .load t.val → r.node = n → h.seq.toNat ∈ r.seqs →
      (st = 0 → ∃ u, exec (.readRsp q e h bs) s = .next u ∧ u.fab.reqs = [] ∧ u.mem = s.mem ∧
        u.core t = ({ s.core t with wait := .none }.setG g (if sx then BitVec.ofInt 64 (signed (8 * len) (leVal (bs.take len)))
          else BitVec.ofNat 64 (leVal (bs.take len)))).next 4) ∧
      (st ≠ 0 → ∃ u, exec (.readRsp q e h bs) s = .next u ∧ u.fab.reqs = [] ∧
        Faulted t (if st = 1 then 0x08 else if st = 2 then 0x06 else 0x09) (windowAddr n r.addr) s u)) ∧
    (∀ old req, (∀ r ∈ s.fab.reqs, r.id ≠ req.toNat) → exec (.atomicRsp q e h old req) s = .next v) ∧
    (∀ (t : Fin 128) (g : Fin 64) (r : RemReq) (old : Word) (req : BitVec 32),
      Waits t r (.remoteAtomic g r.id) s → r.asker = .atomic t.val → r.node = n → r.id = req.toNat →
      (st = 0 → ∃ u, exec (.atomicRsp q e h old req) s = .next u ∧ u.fab.reqs = [] ∧ u.mem = s.mem ∧
        u.core t = ({ s.core t with wait := .none }.setG g old).next 4) ∧
      (st ≠ 0 → ∃ u, exec (.atomicRsp q e h old req) s = .next u ∧ u.fab.reqs = [] ∧
        Faulted t (if st = 1 then 0x08 else if st = 2 then 0x06 else 0x09) (windowAddr n r.addr) s u)) ∧
    (∀ p0 p1 p2 : BitVec 6, ∃ u, exec (.pathFail q e h p0 p1 p2) s = .next u ∧ u.mem = s.mem ∧ ∀ m k,
      let hit := k < 4 ∧ pathValid ((s.peer m).path k) = true ∧ pathPort ((s.peer m).path k) 0 = p0.toNat ∧
        pathPort ((s.peer m).path k) 1 = p1.toNat ∧ pathPort ((s.peer m).path k) 2 = p2.toNat
      (k ∈ (u.peer m).live ↔ k ∈ (s.peer m).live ∧ ¬ hit)))

/-- The sending side of the fabric (R375 to R395). -/
def Obligations.FabricSendersSendAndRecover : Prop :=
  ∀ (q : Fin 36) (s : State),
    (∀ (e : LinkErr) (h : PktHdr), AnswersArrive q e h s) ∧
    (fabOn s = false ∨ portUp q s = false ∨ (∀ i < 16, Tab.get (fun _ => []) (s.fabPort q).queues i = []) →
      exec (.packetSend q) s = .next s) ∧
    (fabOn s = true → portUp q s = true → (∀ j d l, ¬ Ready q j d l s) →
      ∃ u, exec (.packetSend q) s = .next u ∧ u.fab = s.fab ∧ u.wire = s.wire ∧ u.mem = s.mem) ∧
    (∀ (i : Nat) (e : QPkt) (rest : List QPkt), fabOn s = true → portUp q s = true → ServedNext q i e rest s →
      ∃ u, exec (.packetSend q) s = .next u ∧ u.mem = s.mem ∧ Tab.get (fun _ => []) (u.fabPort q).queues i = rest ∧
        (let own := e.pkt.hdr.src.toNat = ownNode s
         let stays := own ∧ isAtomicBody e.pkt.body = true ∧ s.syncOk = false
         let p := if own then { e.pkt with hdr := { e.pkt.hdr with
           sendNs := BitVec.ofNat 40 s.now, sinc := BitVec.ofNat 8 (s.rf .FAB_INC 7 0)
           dinc := BitVec.ofNat 8 (s.peer e.pkt.hdr.dst.toNat).dinc } } else e.pkt
         (stays → u.wire = s.wire) ∧
         (¬ stays → u.rf .FAB_PORT_CNT 63 32 q = min 4294967295 (s.rf .FAB_PORT_CNT 63 32 q + 1) ∧
           u.wire = .packet q p (pktFlits p) :: s.wire))) ∧
    (∀ node : BitVec 12,
      let n := node.toNat
      let x := s.peer n
      (x.sent = [] ∨ s.now < x.advAt + rtoNs s → exec (.retransmitTimeout node) s = .next s) ∧
      (∀ o : OutPkt, x.sent = [o] → x.advAt + rtoNs s ≤ s.now →
        ∃ u y, exec (.retransmitTimeout node) s = .next u ∧ (u.peer n).sent = [y] ∧ y.pkt = o.pkt ∧ (u.peer n).advAt = s.now ∧
          (∀ k, k < 4 → o.path = some k → x.toPath = k → x.toCount = 2 → k ∉ (u.peer n).live) ∧
          (∀ k, o.path = some k → x.toPath ≠ k → (u.peer n).live = x.live ∧ (u.peer n).toCount = 1)) ∧
      ((∀ o ∈ x.sent, o.lost = true ∨ (∀ d, o.pkt.body ≠ .write d) ∨ o.first = none ∨ ∃ t0, o.first = some t0 ∧ s.now < t0 + 2000000) →
        exec (.writeLostTimeout node) s = .next s) ∧
      (∀ (o : OutPkt) (t0 : Nat) (d : List Byte) (p : Fin 16), x.sent = [o] → o.first = some t0 → t0 + 2000000 ≤ s.now →
        o.lost = false → o.pkt.body = .write d → o.part = some p.val → s.rb .ERR_DB 63 = false →
        ∃ u, exec (.writeLostTimeout node) s = .next u ∧ (u.peer n).sent = [{ o with lost := true }] ∧
          u.rb .FAB_P_ERR 1 p = true ∧ u.rb .FAB_EVT 0 = true ∧ u.rb .FAB_EVT 4 = true ∧ u.mem = s.mem)) ∧
    (∀ id : Nat, (∀ r ∈ s.fab.reqs, r.id ≠ id) →
      exec (.loadTimeout id) s = .next s ∧ exec (.readReissue id) s = .next s) ∧
    (∀ req : BitVec 32, (∀ r ∈ s.fab.reqs, r.id ≠ req.toNat) →
      exec (.atomicTimeout req) s = .next s ∧ exec (.atomicRetry req) s = .next s) ∧
    (∀ (t : Fin 128) (g : Fin 64) (len : Nat) (sx : Bool) (r : RemReq),
      Waits t r (.remoteLoad g len sx r.id) s → r.asker = .load t.val →
      (r.first = none ∨ (∃ t0, r.first = some t0 ∧ s.now < t0 + 2000000) → exec (.loadTimeout r.id) s = .next s) ∧
      (∀ (t0 : Nat) (p : Fin 16), r.first = some t0 → t0 + 2000000 ≤ s.now → r.part = some p.val →
        ∃ u, exec (.loadTimeout r.id) s = .next u ∧ u.fab.reqs = [] ∧ u.rb .FAB_EVT 4 = true ∧ u.rb .FAB_P_ERR 3 p = true ∧
          Faulted t 0x06 (windowAddr r.node r.addr) s u) ∧
      (s.now < r.last + rtoNs s → exec (.readReissue r.id) s = .next s) ∧
      (r.last + rtoNs s ≤ s.now → ∃ u, exec (.readReissue r.id) s = .next u ∧ Reissued r .read s u)) ∧
    (∀ (t : Fin 128) (g : Fin 64) (r : RemReq) (req : BitVec 32),
      Waits t r (.remoteAtomic g r.id) s → r.asker = .atomic t.val → r.id = req.toNat →
      let due := (match r.busyAt with | some b => b + 10000 | none => r.last + rtoNs s) ≤ s.now
      (¬ due ∨ r.t0 + 1500000 < s.now ∨ s.syncOk = false → exec (.atomicRetry req) s = .next s) ∧
      (due → s.now ≤ r.t0 + 1500000 → s.syncOk = true →
        ∃ u, exec (.atomicRetry req) s = .next u ∧ Reissued r (.atomic r.operand r.compare req) s u) ∧
      (s.now < r.t0 + 2000000 → exec (.atomicTimeout req) s = .next s) ∧
      (∀ p : Fin 16, r.t0 + 2000000 ≤ s.now → r.part = some p.val →
        ∃ u, exec (.atomicTimeout req) s = .next u ∧ u.fab.reqs = [] ∧ u.rb .FAB_EVT 5 = true ∧ u.rb .FAB_P_ERR 2 p = true ∧
          Faulted t 0x0A (windowAddr r.node r.addr) s u))

/-- From `s` to `u` exactly the paths of every node whose first port is `q` have become DEAD (R375). -/
def PortPathsDie (q : Fin 36) (s u : State) : Prop :=
  ∀ m k, let hit := k < 4 ∧ pathValid ((s.peer m).path k) = true ∧ pathPort ((s.peer m).path k) 0 = q.val
    (k ∈ (u.peer m).live ↔ k ∈ (s.peer m).live ∧ ¬ hit)

/-- From `s` to `u` port `q` has gone down: its queues are lost, its paths are DEAD, DOWN and PORT_DOWN show it (R393). -/
def WentDown (q : Fin 36) (training : Bool) (s u : State) : Prop :=
  u.rf .FAB_PORT_STAT 1 0 q = (if training then 2 else 0) ∧ (u.fabPort q).queues = [] ∧ PortPathsDie q s u ∧
    u.rb .FAB_PORT_ERR 0 q = true ∧ u.rb .FAB_EVT 1 = true ∧ u.mem = s.mem

/-- The bytes of a sample record (R397). -/
def sampleBytes (now q i depth delay : Nat) : List Byte :=
  leBytes 8 (now % 2 ^ 64) ++
    leBytes 8 (place 63 58 q ||| place 57 54 i ||| place 51 24 (min (2 ^ 28 - 1) depth) ||| place 23 0 (min (2 ^ 24 - 1) delay)).toNat

/-- Ports, path entries and sampling (R373, R375, R393, R394, R397). -/
def Obligations.PortsTrainPathsUpdateAndSamples : Prop :=
  ∀ (q : Fin 36) (s : State),
    let x := s.fabPort q
    (∀ (peer : BitVec 12) (pport : BitVec 6),
      let trained := ((s.putReg .FAB_PORT_STAT 1 0 1 q).setReg .FAB_PORT_PEER (place 23 12 peer.toNat ||| place 5 0 pport.toNat)
        q).setFabPort q { x with peer := some (peer.toNat, pport.toNat), errs := 0, errAt := none }
      (s.rb .FAB_PORT_CTL 63 q = false ∨ s.rf .FAB_PORT_STAT 1 0 q ≠ 2 → exec (.portTrained q peer pport) s = .next s) ∧
      (s.rb .FAB_PORT_CTL 63 q = true → s.rf .FAB_PORT_STAT 1 0 q = 2 → x.peer = none ∨ x.peer = some (peer.toNat, pport.toNat) →
        exec (.portTrained q peer pport) s = .next trained) ∧
      (∀ old, s.rb .FAB_PORT_CTL 63 q = true → s.rf .FAB_PORT_STAT 1 0 q = 2 → x.peer = some old → old ≠ (peer.toNat, pport.toNat) →
        ∃ u, exec (.portTrained q peer pport) s = .next u ∧ portUp q u = true ∧ PortPathsDie q s u ∧
          u.fabPort q = trained.fabPort q ∧ u.rb .FAB_PORT_ERR 1 q = true ∧ u.rb .FAB_EVT 2 = true)) ∧
    (portUp q s = false → exec (.portDown q) s = .next s) ∧
    (portUp q s = true → ∃ u, exec (.portDown q) s = .next u ∧ WentDown q (s.rb .FAB_PORT_CTL 63 q) s u) ∧
    (let most := s.rf .FAB_PORT_CTL 15 0 q
     (portUp q s = false ∨ most = 0 ∨ x.errs ≤ most →
       exec (.portErrorInterval q) s = .next (s.setFabPort q { x with errs := 0 })) ∧
     (portUp q s = true → most ≠ 0 → most < x.errs → ∃ u, exec (.portErrorInterval q) s = .next u ∧ WentDown q false s u ∧
       u.rb .FAB_PORT_ERR 2 q = true ∧ (u.fabPort q).errAt = some s.now ∧ (u.fabPort q).errs = 0)) ∧
    (x.errAt = none ∨ s.rb .FAB_PORT_CTL 63 q = false → exec (.portRetrain q) s = .next s) ∧
    (∀ t0, x.errAt = some t0 → s.rb .FAB_PORT_CTL 63 q = true → exec (.portRetrain q) s = .next
      (if t0 + 10000000 ≤ s.now then (s.putReg .FAB_PORT_STAT 1 0 2 q).setFabPort q { x with errAt := none } else s)) ∧
    (∀ (v : Word) (bs : List Byte) (r : State), bit v 63 = false → 
      let n := fld v 11 0
      devRead (whoFab 0 none) (s.rf .FAB_PATH_BASE 51 5 * 32 + n * 32) 32 0 s = (.ok bs, r) → r.regs = s.regs → r.fab = s.fab →
      (∀ o ∈ (s.peer n).sent, o.path ≠ none) →
      ∃ u, exec (.fabPathUpd v) s = .next u ∧ (u.peer n).paths = leWords bs ∧ u.mem = r.mem ∧
        (∀ k, k ∈ (u.peer n).live ↔ k < 4 ∧ pathValid ((leWords bs).getD k 0) = true ∧
          portUp (pathPort ((leWords bs).getD k 0) 0) s = true) ∧ ∀ m ≠ n, u.peer m = s.peer m) ∧
    (s.now / 1000 = s.fab.sampled → exec .sampleTick s = .next s) ∧
    (s.now / 1000 ≠ s.fab.sampled →
      let t := { s with fab := { s.fab with sampled := s.now / 1000 } }
      (s.rb .FAB_SMP_CFG 63 = false → exec .sampleTick s = .next t) ∧
      (∀ i : Fin 16, s.rb .FAB_SMP_CFG 63 = true → (∀ p < 36, s.rb .FAB_SMP_PORTS p = decide (p = q.val)) →
        (∀ j < 16, s.rb .FAB_SMP_CFG (16 + j) = decide (j = i.val)) →
        let tail := s.rf .FAB_SMP_TAIL 31 0
        let size := 2 ^ min 20 (max 6 (s.rf .FAB_SMP_CFG 4 0))
        let full := size ≤ (tail + 2 ^ 32 - s.rf .FAB_SMP_HEAD 31 0) % 2 ^ 32
        let ps := Tab.get (fun _ => []) x.queues i
        let depth := (ps.map fun p => wireBytes p.pkt).sum
        (full → exec .sampleTick s = .next ((t.count .FAB_SMP_CFG 47 32).flag .FAB_EVT 7)) ∧
        (∀ r : State, ¬ full → devWrite (whoFab q none) (s.rf .FAB_SMP_BASE 51 4 * 16 + tail % size * 16)
            (sampleBytes s.now q i depth (match ps with | p :: _ => s.now - p.at_ | [] => 0)) 0 t = (none, r) → r.regs = s.regs →
          exec .sampleTick s = .next (r.putReg .FAB_SMP_TAIL 31 0 (tail + 1))))) ∧
    (∀ v : Word, ∃ u, exec (.fabSmpEnable v) s = .next u ∧ u.rb .FAB_SMP_CFG 63 = bit v 63 ∧
      u.rf .FAB_SMP_CFG 4 0 = min 20 (max 6 (fld v 4 0)) ∧ u.rf .FAB_SMP_CFG 31 16 = fld v 31 16 ∧
      if bit v 63 = true ∧ s.rb .FAB_SMP_CFG 63 = false then u.reg .FAB_SMP_HEAD = 0 ∧ u.reg .FAB_SMP_TAIL = 0
      else u.reg .FAB_SMP_HEAD = s.reg .FAB_SMP_HEAD ∧ u.reg .FAB_SMP_TAIL = s.reg .FAB_SMP_TAIL)

/-- Command `i` starts descriptor `d` of DMA channel `c`, on state `b`: a write of PART_DMA_GO by whoever may make it, or a
DMA_START action that has been delivered (R421). -/
def StartsDma (c d : Nat) (i : Instr) (s b : State) : Prop :=
  (∃ (ag : Agent) (q : Fin 32) (v : Word), i = .partDmaGo ag q v ∧ q.val = c ∧ fld v 15 0 = d ∧ b = s ∧
    (ag = .steward ∨ ag ≠ .steward ∧ s.agentPart ag = some (dmaOwner c s))) ∨
  ∃ (x : Delivery) (ds : List Delivery), i = .dmaStart ∧ takeDelivery 4 s.deliveries = some (x, ds) ∧ x.target = c ∧ c < 32 ∧
    x.arg = d ∧ b = { s with deliveries := ds }

/-- The transfer of channel `c` is over, with a status (R422). -/
def TransferOver (c st : Nat) (u : State) : Prop :=
  (u.dmaCh c).run = none ∧ u.rf .PART_DMA_STAT 47 40 c = st

/-- Nothing works for partition `p`, DMA channels apart: no context, ring, Drover, program slot or mailbox is its own. -/
structure NothingOf (p : Nat) (s : State) : Prop where
  cxs   : ∀ c < 256, s.cxValid c = true → s.cxPart c ≠ p
  rings : ∀ k < 8, ∀ r < 16, seRingPart k r s ≠ p
  drvs  : ∀ h < 8, s.rb .DRV_CTL 12 h = false ∨ drvPart h s ≠ p
  progs : (∀ q < 32, cpEn q s = false ∨ cpOwner q s ≠ some p) ∧ ∀ q, (s.prog q).ops = []
  mbxs  : ∀ m < 256, s.mbxKind m ≠ 3 ∨ s.rf .MBX_CFG 51 48 m ≠ p
  radio : s.radio = false ∨ p ≠ 0

/-- DMA channels (R421, R422, R439). -/
def DmaRuns : Prop :=
  ∀ (c : Fin 32) (s : State),
    let ch := s.dmaCh c
    (∀ (ag : Agent) (v : Word), ag ≠ .steward → s.agentPart ag ≠ some (dmaOwner c s) →
      exec (.partDmaGo ag c v) s = .next (refusePermission s)) ∧
    (∀ (d : Nat) (i : Instr) (b : State), StartsDma c d i s b →
      (s.rb .PART_DMA_CTL 63 c = false → exec i s = .next b) ∧
      (s.rb .PART_DMA_CTL 63 c = true →
        let off := s.rf .PART_P_CTL 1 0 (dmaOwner c s) ≠ 0
        (dmaOwner c s ≠ 0 → off ∨ 16 ≤ ch.queue.length → exec i s = .next ((b.putReg .PART_DMA_STAT 63 48 d c).putReg
          .PART_DMA_STAT 47 40 (if off then 0x14 else 0x15) c)) ∧
        (¬ off → ch.queue.length < 16 → ∃ u, exec i s = .next u ∧ (u.dmaCh c).queue = ch.queue ++ [d] ∧ u.regs = s.regs ∧
          (u.dmaCh c).run = ch.run))) ∧
    (ch.run ≠ none ∨ ch.queue = [] → exec (.dmaTransferStart c) s = .next s) ∧
    (∀ (d : Nat) (rest : List Nat), ch.run = none → ch.queue = d :: rest → s.rf .PART_DMA_CTL 15 0 c < d → dmaOwner c s ≠ 0 →
      ∃ u, exec (.dmaTransferStart c) s = .next u ∧ TransferOver c 0x10 u ∧ u.mem = s.mem) ∧
    (∀ (d : Nat) (rest : List Nat) (bs : List Byte) (r : State), ch.run = none → ch.queue = d :: rest →
      let w := modDma c (fun x => { x with queue := rest }) s
      devRead (whoDma c s) (s.rf .PART_DMA_BASE 51 5 c * 32 + d * 32) 32 0x13 w = (.ok bs, r) → r.regs = s.regs →
      r.hl = s.hl →
      let ws := leWords bs
      let bad := bit (wordAt ws 0) 63 = false ∨ mHdir ws = 3 ∨ mLen ws = 0 ∨ mLen ws % 32 ≠ 0 ∨ mSrc ws % 32 ≠ 0 ∨
        mDst ws % 32 ≠ 0
      let run (r : State) := modDma c (fun x => { x with run := some ⟨d, ws, 0, [], [], 0, none, none⟩ }) r
      d ≤ s.rf .PART_DMA_CTL 15 0 c →
      (bad → bit (wordAt ws 0) 60 = false → bit (wordAt ws 0) 49 = false → dmaOwner c s ≠ 0 →
        ∃ u, exec (.dmaTransferStart c) s = .next u ∧ TransferOver c 0x10 u ∧ u.mem = r.mem) ∧
      (¬ bad → mHdir ws = 0 → inWindow (mSrc ws) = false → exec (.dmaTransferStart c) s = .next (run r)) ∧
      (¬ bad → mHdir ws = 2 → s.rf .PART_FN_STAT 1 0 (dmaFn c s) = 1 → inWindow (mSrc ws) = false →
        exec (.dmaTransferStart c) s = .next (run r)) ∧
      (¬ bad → mHdir ws = 1 → s.rf .PART_FN_STAT 1 0 (dmaFn c s) = 1 → s.rb .HL_STAT 63 = true → s.dormant 45 = false →
        s.hl.reads = [] → mLen ws ≤ 512 → mSrc ws % 4096 + mLen ws ≤ 4096 →
        ∃ u, exec (.dmaTransferStart c) s = .next u ∧
          u.wire = .hostReadReq (dmaFn c s) (s.rf .PART_FN_SRC 15 0 (dmaFn c s)) (mSrc ws) (mLen ws) :: r.wire ∧
          u.hl.reads = [⟨s.hl.nextRd, dmaFn c s, c, 0, mLen ws, r.now⟩])) ∧
    (ch.run = none → exec (.dmaComplete c) s = .next s) ∧
    (∀ x : DmaRun, ch.run = some x → bit (wordAt x.ws 0) 60 = false → bit (wordAt x.ws 0) 49 = false → dmaOwner c s ≠ 0 →
      let far := inWindow (mDst x.ws) = true
      let host := mHdir x.ws = 2
      (dmaReady x = false → exec (.dmaComplete c) s = .next s) ∧
      (dmaReady x = true → host → s.dormant 45 = false → mLen x.ws ≠ 0 →
        (s.rf .PART_FN_STAT 1 0 (dmaFn c s) ≠ 1 → ∃ u, exec (.dmaComplete c) s = .next u ∧ TransferOver c 0x17 u) ∧
        (s.rf .PART_FN_STAT 1 0 (dmaFn c s) = 1 → s.rb .HL_STAT 63 = false →
          ∃ u, exec (.dmaComplete c) s = .next u ∧ TransferOver c 0x16 u) ∧
        (∀ (d : List Byte) (q : State), s.rf .PART_FN_STAT 1 0 (dmaFn c s) = 1 → s.rb .HL_STAT 63 = true →
          mLen x.ws % 32 = 0 → mLen x.ws ≤ 512 → mDst x.ws % 4096 + mLen x.ws ≤ 4096 →
          dmaTake c x 0 (mLen x.ws) s = (d, 0, q) → d.length = mLen x.ws → q.regs = s.regs → q.sched.dma = s.sched.dma →
          ∃ u, exec (.dmaComplete c) s = .next u ∧
            u.wire = .hostWrite (dmaFn c s) (s.rf .PART_FN_SRC 15 0 (dmaFn c s)) (mDst x.ws) d :: q.wire ∧ TransferOver c 0 u)) ∧
      (dmaReady x = true → ¬ host → ¬ far →
        (∀ (st : Nat) (w : State), dmaLocal c x (mLen x.ws / 32) 0 s = (st, w) → w.sched.dma = s.sched.dma → dmaOwner c w ≠ 0 →
          ∃ u, exec (.dmaComplete c) s = .next u ∧ u.mem = w.mem ∧ TransferOver c (st % 256) u) ∧
        (∀ (d : List Byte) (q w : State), mLen x.ws = 32 → dmaArrives x = false →
          devRead (whoDma c s) (mSrc x.ws) 32 0x13 s = (.ok d, q) → devWrite (whoDma c q) (mDst x.ws) d 0x13 q = (none, w) →
          w.sched.dma = s.sched.dma → dmaOwner c w ≠ 0 →
          ∃ u, exec (.dmaComplete c) s = .next u ∧ u.mem = w.mem ∧ TransferOver c 0 u) ∧
        (∀ (e : MemErr) (q : State), mLen x.ws = 32 → dmaArrives x = false →
          devRead (whoDma c s) (mSrc x.ws) 32 0x13 s = (.error e, q) → q.sched.dma = s.sched.dma → dmaOwner c q ≠ 0 →
          ∃ u, exec (.dmaComplete c) s = .next u ∧ u.mem = q.mem ∧
            TransferOver c (match e with | .address => 0x11 | .uncorr => 0x13 | _ => 0x12) u)) ∧
      (dmaReady x = true → ¬ host → far →
        (∀ st, x.refused = some st → ∃ u, exec (.dmaComplete c) s = .next u ∧ TransferOver c (st % 256) u) ∧
        (∀ st, x.refused = none → x.wrote = some st →
          (dmaWaits c s = true → exec (.dmaComplete c) s = .next s) ∧
          (dmaWaits c s = false → ∃ u, exec (.dmaComplete c) s = .next u ∧ TransferOver c (st % 256) u)) ∧
        (∀ (n a : Nat) (d : List Byte) (q : State), x.refused = none → x.wrote = none → x.sent = 0 → mLen x.ws ≤ 480 →
          mLen x.ws ≠ 0 → windowUse (some (dmaOwner c s)) (mDst x.ws) s = .ok (n, a) → n ≠ ownNode s → a % 32 = 0 →
          dmaTake c x 0 (mLen x.ws) s = (d, 0, q) → d.length = mLen x.ws → q.regs = s.regs → q.sched.dma = s.sched.dma →
          q.fab = s.fab → ∃ u, exec (.dmaComplete c) s = .next u ∧ (u.dmaCh c).run = some { x with sent := d.length } ∧
            ∃ o ∈ (u.peer n).sent, o.tag = .dma c ∧ o.pkt.body = .write d)))

/-- Partitions, contexts, functions, DMA and Sluice windows (R401, R406, R421 to R430). -/
def Obligations.PartitionsFunctionsAndDma : Prop :=
  DmaRuns ∧ ∀ s : State,
    (let x := s.sched.sluice
     (s.now / 1000 = x.window → exec .sluiceWindow s = .next s) ∧
     (s.now / 1000 ≠ x.window → ∃ u, exec .sluiceWindow s = .next u ∧ u.sched.sluice.window = s.now / 1000 ∧
       u.sched.sluice.served = [] ∧ u.sched.sluice.heldF = [] ∧ u.mem = s.mem ∧
       (∀ (k : Fin 4) (p : Fin 16), (∀ st q, Tab.get (fun _ => false) x.heldF (st * 16 + q) = false) →
         Tab.get (fun _ => 0x8000000000000000#64) u.sched.sluice.shares (k * 16 + p) = s.reg (shareReg k) p) ∧
       (∀ (st : Fin 12) (p : Fin 16), x.heldF = [(st.val * 16 + p.val, true)] →
         let k := stageKind st
         u.rf .SLU_P_HELD (63 - 16 * k) (48 - 16 * k) p = min 65535 (s.rf .SLU_P_HELD (63 - 16 * k) (48 - 16 * k) p + 1)))) ∧
    (∀ (p : Fin 16) (v : Word),
      let lo := mask128 v (s.reg .PART_P_TILE_HI p)
      let hi := mask128 (s.reg .PART_P_TILE_LO p) v
      let clash (m : BitVec 128) := ∃ q < 16, q ≠ p.val ∧ s.partValid q = true ∧ s.partTiles q &&& m ≠ 0
      (s.partValid p = true ∧ clash lo → exec (.partPTileWrite p false v) s = .next (s.flag .PART_ERR 0)) ∧
      (s.partValid p = true ∧ clash hi → exec (.partPTileWrite p true v) s = .next (s.flag .PART_ERR 0)) ∧
      (¬ (s.partValid p = true ∧ clash lo) → exec (.partPTileWrite p false v) s = .next (s.setReg .PART_P_TILE_LO v p)) ∧
      (¬ (s.partValid p = true ∧ clash hi) → exec (.partPTileWrite p true v) s = .next (s.setReg .PART_P_TILE_HI v p)) ∧
      (bit v 63 = true → s.partValid p = false → clash (s.partTiles p) → exec (.partPCtlWrite p v) s = .next (s.flag .PART_ERR 0)) ∧
      (bit v 63 = s.partValid p ∨ (bit v 63 = true ∧ ¬ clash (s.partTiles p)) ∨ NothingOf p s →
        ¬ (bit v 63 = true ∧ s.partValid p = false ∧ clash (s.partTiles p)) →
        exec (.partPCtlWrite p v) s = .next (s.writePlain .PART_P_CTL v p)) ∧
      (s.rf .PART_P_CTL 1 0 p ≠ 0 → exec (.partitionStop p) s = .next s) ∧
      (s.rf .PART_P_CTL 1 0 p = 0 → NothingOf p s →
        ((∀ c < 32, dmaOwner c s ≠ p) → exec (.partitionStop p) s = .next (s.putReg .PART_P_CTL 1 0 1 p) ∧
          (s.se = [] → partState p (s.putReg .PART_P_CTL 1 0 1 p) = 2)) ∧
        (∀ (c : Fin 32) (x : DmaRun), (∀ e < 32, dmaOwner e s = p ↔ e = c.val) → (s.dmaCh c).run = some x → p.val ≠ 0 →
          (s.dmaCh c).queue = [] → bit (wordAt x.ws 0) 60 = false → bit (wordAt x.ws 0) 49 = false →
          ∃ u, exec (.partitionStop p) s = .next u ∧ TransferOver c 0x14 u ∧ u.rf .PART_P_CTL 1 0 p = 1)) ∧
      exec (.partitionResume p) s = .next (if partState p s = 2 then s.putReg .PART_P_CTL 1 0 0 p else s)) ∧
    (∀ (c : Fin 256) (v : Word),
      (s.cxValid c = true → bit v 63 = true ∨ (cxState c s ≠ 0 ∧ cxState c s ≠ 5) → exec (.cxCtlWrite c v) s = .next s) ∧
      (s.cxValid c = true → bit v 63 = false → cxState c s = 0 ∨ cxState c s = 5 →
        exec (.cxCtlWrite c v) s = .next (modCx c (fun _ => Cx.reset) (s.unflag .CX_CTL 63 c))) ∧
      (s.cxValid c = false →
        let v' := putFld v 3 0 (min 12 (max 4 (fld v 3 0)))
        let pinned := bit v 62 = true ∨ (s.radio = true ∧ fld v 19 16 = 0)
        (bit v 63 = false → exec (.cxCtlWrite c v) s = .next (s.writePlain .CX_CTL v' c)) ∧
        (bit v 63 = true → pinned → 64 ≤ slotsUsed s → exec (.cxCtlWrite c v) s = .next (s.flag .PART_ERR 5)) ∧
        (bit v 63 = true → ¬ pinned ∨ slotsUsed s < 64 → ∃ u, exec (.cxCtlWrite c v) s = .next u ∧ u.cxValid c = true ∧
          u.rf .CX_CTL 3 0 c = min 12 (max 4 (fld v 3 0)) ∧ u.cxPart c = fld v 19 16 ∧
          (pinned → (u.cx c).swap = 0) ∧ (¬ pinned → (u.cx c).swap = 5) ∧ (u.cx c).records = [] ∧ (u.cx c).epochs = [] ∧
          u.reg .CX_LQ_TAIL c = 0 ∧ u.reg .CX_LQ_HEAD c = 0 ∧ u.reg .CX_CQ_TAIL c = 0 ∧ u.reg .CX_CQ_HEAD c = 0))) ∧
    ∀ (f : Fin 32) (v : Word),
      (bit v 63 = true → exec (.fnEnable f v) s =
        .next (if fnState f s = 2 then s else (s.writePlain .PART_FN_CTL v f).putReg .PART_FN_STAT 1 0 1 f)) ∧
      (bit v 63 = false → fnState f s ≠ 1 → exec (.fnDisable f v) s = .next (s.writePlain .PART_FN_CTL v f)) ∧
      (bit v 63 = false → fnState f s = 1 → (∀ m < 256, s.mbxKind m ≠ 2 ∨ s.rf .MBX_CFG 56 52 m ≠ f) →
        let w := s.writePlain .PART_FN_CTL v f
        let quiet := cxsQuiet (cxOfFn f s) s = true
        (fld v 47 32 ≠ 0 → ¬ quiet → ∃ u, exec (.fnDisable f v) s = .next u ∧ u.rf .PART_FN_STAT 1 0 f = 2 ∧
          Tab.get (fun _ => 0) u.sched.drainEnd f = s.now + fld v 47 32 * 1000) ∧
        (fld v 47 32 = 0 ∨ quiet → (∀ c < 256, s.cxValid c = true → s.rf .CX_CTL 52 48 c ≠ f) →
          (∀ c < 32, dmaFn c s = f → (s.dmaCh c).run = none ∧ (s.dmaCh c).queue = []) →
          (w.fnPart f = none ∨ ∃ p, w.fnPart f = some p ∧ otherFn f p s = true) →
          ∃ u, exec (.fnDisable f v) s = .next u ∧ u.rf .PART_FN_STAT 1 0 f = 3 ∧ fnState f u = 0)) ∧
      (let due := Tab.get (fun _ => 0) s.sched.drainEnd f ≤ s.now
       (s.rf .PART_FN_STAT 1 0 f ≠ 2 ∨ (¬ due ∧ cxsQuiet (cxOfFn f s) s = false) → exec (.drainEnd f) s = .next s) ∧
       (s.rf .PART_FN_STAT 1 0 f = 2 → (∀ c < 256, s.cxValid c = true → s.rf .CX_CTL 52 48 c ≠ f) →
         (∀ c < 32, dmaFn c s = f → (s.dmaCh c).run = none ∧ (s.dmaCh c).queue = []) →
         (s.fnPart f = none ∨ ∃ p, s.fnPart f = some p ∧ otherFn f p s = true) →
         exec (.drainEnd f) s = .next (s.putReg .PART_FN_STAT 1 0 3 f) ∧
           fnState f (s.putReg .PART_FN_STAT 1 0 3 f) = 0))

/-- Requests from the host (R427, R434 to R436); in recovery PF0 reaches hamlet store 0 (R484). -/
def HostRequests : Prop :=
  ∀ (f : Fin 32) (src : BitVec 16) (addr : Addr) (s : State), s.rb .ERR_DB 63 = false →
    let a := addr.toNat
    let fails (u : State) := u.wire = .hostRead f none :: s.wire ∧ u.mem = s.mem
    let lost (u : State) := u.rb .HL_ERR 3 = true ∧ u.mem = s.mem ∧ u.wire = s.wire
    let ours := s.rf .PART_FN_STAT 1 0 f = 1 ∧ s.rf .PART_FN_SRC 15 0 f = src.toNat
    let ram := (∀ o, spaceOf a ≠ .control o) ∧ ∀ d o, spaceOf a ≠ .fabric d o
    let who (n : Nat) (w : Who) := if f.val = 0 ∧ s.rb .SEC_BOOT_STAT 4 = true ∧ hamletBase 0 ≤ a ∧ a + n ≤ hamletBase 1
      then w = ⟨5, f, none⟩ else ∃ p, s.fnPart f = some p ∧ w = ⟨5, f, some p⟩
    let strange := fnState f s ≠ 2 ∧ (fnState f s ≠ 1 ∨ s.rf .PART_FN_SRC 15 0 f ≠ src.toNat)
    (∀ n : BitVec 10, s.rb .HL_STAT 63 = false ∨ n.toNat = 0 ∨ 512 < n.toNat → exec (.hostRead f src addr n) s = .next s) ∧
    (∀ d : List Byte, s.rb .HL_STAT 63 = false ∨ d = [] ∨ 512 < d.length → exec (.hostWrite f src addr d) s = .next s) ∧
    (∀ n : BitVec 10, s.rb .HL_STAT 63 = true → 1 ≤ n.toNat → n.toNat ≤ 512 →
      (fnState f s = 2 → ∃ u, exec (.hostRead f src addr n) s = .next u ∧ fails u ∧ u.regs = s.regs) ∧
      (strange → ∃ u, exec (.hostRead f src addr n) s = .next u ∧ fails u ∧ u.rb .PART_ERR 2 = true ∧
        u.rf .PART_FN_CNT 63 48 f = min 65535 (s.rf .PART_FN_CNT 63 48 f + 1)) ∧
      (ours → (∃ d o, spaceOf a = .fabric d o) → ∃ u, exec (.hostRead f src addr n) s = .next u ∧ fails u ∧ u.regs = s.regs) ∧
      (∀ (w : Who) (d : List Byte) (r : State), ours → ram → who n.toNat w →
        devRead w a n.toNat 0 s = (.ok d, r) →
        exec (.hostRead f src addr n) s = .next ((hostCharge f n.toNat r).emit (.hostRead f (some d)))) ∧
      (∀ (w : Who) (e : MemErr) (r : State), ours → ram → who n.toNat w →
        devRead w a n.toNat 0 s = (.error e, r) →
        exec (.hostRead f src addr n) s = .next (r.emit (.hostRead f none)))) ∧
    ∀ d : List Byte, s.rb .HL_STAT 63 = true → d ≠ [] → d.length ≤ 512 →
      (fnState f s = 2 ∨ strange ∨ (ours ∧ ∃ x o, spaceOf a = .fabric x o) →
        ∃ u, exec (.hostWrite f src addr d) s = .next u ∧ lost u) ∧
      (∀ (w : Who) (r : State), ours → ram → who d.length w →
        devWrite w a d 0 s = (none, r) → exec (.hostWrite f src addr d) s = .next (hostCharge f d.length r)) ∧
      ∀ (w : Who) (e : MemErr) (r : State), ours → ram → who d.length w →
        devWrite w a d 0 s = (some e, r) → r.rb .ERR_DB 63 = false →
        ∃ u, exec (.hostWrite f src addr d) s = .next u ∧ u.rb .HL_ERR 3 = true ∧ u.mem = r.mem

/-- From `s` to `u` the link, which was up, has gone down (R434). -/
def LinkDropped (s u : State) : Prop :=
  u.rb .HL_STAT 63 = false ∧ u.reg .HL_STAT = 0 ∧ u.rb .HL_ERR 0 = true ∧ u.hl.reads = [] ∧ u.hl.tryAt = s.now ∧
    u.hl.notes = s.hl.notes ∧ u.rf .HL_CNT 15 0 = min 65535 (s.rf .HL_CNT 15 0 + 1) ∧ u.mem = s.mem ∧
    ∀ (r : HostRd) (x : DmaRun), s.hl.reads = [r] → (s.dmaCh r.chan).run = some x →
      (u.dmaCh r.chan).run = some { x with fails := x.fails ++ [(r.dst, 0x16)] }

/-- The link and the reads in flight on it (R432, R434, R440, R447, R448). -/
def HostLinkRuns : Prop :=
  ∀ s : State,
    (∀ v : Word, bit v 0 = false ∨ s.rb .HL_STAT 63 = false → exec (.hlRetrain v) s = .next s) ∧
    (∀ v : Word, bit v 0 = true → s.rb .HL_STAT 63 = true → ∃ u, exec (.hlRetrain v) s = .next u ∧ LinkDropped s u) ∧
    (s.rb .HL_STAT 63 = false → exec .hlLinkDown s = .next s) ∧
    (s.rb .HL_STAT 63 = true → ∃ u, exec .hlLinkDown s = .next u ∧ LinkDropped s u) ∧
    (∀ (gen : BitVec 2) (width : BitVec 4),
      let most := if s.rf .HL_CTL 1 0 = 2 then 2 else 3
      let may := s.rb .HL_STAT 63 = false ∧ s.rb .HL_CTL 63 = true ∧ s.dormant 45 = false ∧ 2 ≤ gen.toNat ∧ gen.toNat ≤ most ∧
        (width.toNat = 8 ∨ width.toNat = 4 ∨ width.toNat = 2)
      (¬ may → exec (.hlLinkUp gen width) s = .next s) ∧
      (may → ∃ u, exec (.hlLinkUp gen width) s = .next u ∧ u.rb .HL_STAT 63 = true ∧ u.rf .HL_STAT 9 8 = gen.toNat ∧
        u.rf .HL_STAT 3 0 = width.toNat ∧ u.hl.notes = [] ∧ u.mem = s.mem ∧
        u.wire = (s.hl.notes.map fun n => .hostIrq n.1 n.2).reverse ++ s.wire)) ∧
    (let due := s.rb .HL_STAT 63 = false ∧ s.rb .HL_CTL 63 = true ∧ s.hl.tryAt + 10000000 ≤ s.now
     (¬ due → exec .hlTrainRetry s = .next s) ∧
     (due → exec .hlTrainRetry s = .next { s with hl := { s.hl with tryAt := s.now } })) ∧
    (∀ id, (∀ r ∈ s.hl.reads, r.id ≠ id) → (∀ d, exec (.hostReadCompletion id d) s = .next s) ∧ exec (.hostReadTimeout id) s = .next s) ∧
    (∀ (r : HostRd) (x : DmaRun), s.hl.reads = [r] → (s.dmaCh r.chan).run = some x → (∀ c < 32, c ≠ r.chan → (s.dmaCh c).run = none) →
      mLen x.ws ≤ x.next → s.rb .ERR_DB 63 = false →
      let got (i : Instr) (f : DmaRun → DmaRun) (bit : Option Nat) : Prop := ∃ u, exec i s = .next u ∧ u.hl.reads = [] ∧ u.mem = s.mem ∧
        (u.dmaCh r.chan).run = some (f x) ∧ ∀ b, bit = some b → u.rb .HL_ERR b = true
      (∀ d : List Byte, d.length = r.len → got (.hostReadCompletion r.id (some d)) (fun x => { x with got := x.got ++ [(r.dst, d)] }) none) ∧
      got (.hostReadCompletion r.id none) (fun x => { x with fails := x.fails ++ [(r.dst, 0x16)] }) (some 2) ∧
      (let wait := min 10000 (max 1 (s.rf .HL_CFG 15 0)) * 1000
       (s.now < r.since + wait → exec (.hostReadTimeout r.id) s = .next s) ∧
       (r.since + wait ≤ s.now → got (.hostReadTimeout r.id) (fun x => { x with fails := x.fails ++ [(r.dst, 0x16)] }) (some 1)))) ∧
    ∀ f : Fin 32,
      let mine (m : Nat) := s.mbxKind m = 2 ∧ s.rf .MBX_CFG 56 52 m = f.val
      ((∀ m < 256, ¬ mine m) → exec (.functionLevelReset f) s =
        .next { s with hl := { s.hl with notes := s.hl.notes.filter fun n => n.1 != f.val } }) ∧
      ∀ m : Fin 256, (∀ n < 256, mine n ↔ n = m.val) → (mbxSender m s).noteEn = false →
        ∃ u, exec (.functionLevelReset f) s = .next u ∧ (∀ n ∈ u.hl.notes, n.1 ≠ f.val) ∧ u.reg .MBX_DB m = 0 ∧
          u.rb .MBX_STAT 63 m = false ∧ u.rb .MBX_STAT 62 m = false ∧ u.rb .MBX_STAT 61 m = false ∧
          (s.rb .MBX_STAT 63 m = true → (mbxSender m s).kind = 2 → (hlStaging (mbxSender m s).id s).sent = true →
            (hlStaging (mbxSender m s).id s).mbx = m.val → (hlStaging (mbxSender m s).id u).status = 2)

/-- From `w` to `u` the receiver of mailbox `m` has been notified of doorbell bits (R441, R447): by kind, the steward, a
function (held while the link is down), or tiles; not at all for no bit. -/
def Notified (m : Nat) (bits : BitVec 32) (w u : State) : Prop :=
  let host := (w.rf .MBX_CFG 56 52 m, w.rf .MBX_CFG 10 0 m)
  (bits = 0 → u = w) ∧
  (bits ≠ 0 → w.mbxKind m = 1 → w.dormant 48 = false → u = w.emit (.stewardIrq m)) ∧
  (bits ≠ 0 → w.mbxKind m = 2 → w.rb .HL_STAT 63 = true → u = w.emit (.hostIrq host.1 host.2)) ∧
  (bits ≠ 0 → w.mbxKind m = 2 → w.rb .HL_STAT 63 = false → w.dormant 45 = false →
    u = { w with hl := { w.hl with notes := if host ∈ w.hl.notes then w.hl.notes else w.hl.notes ++ [host] } }) ∧
  (bits ≠ 0 → w.mbxKind m = 3 →
    let p := w.rf .MBX_CFG 51 48 m
    u = deliverEvts p ((tilesOf (w.dmask (w.rf .MBX_CFG 44 40 m))).filter fun t => w.holdsTile p t || w.holdsBorrowed p t) bits w)

/-- Who may write the registers of mailbox `m` as its receiver: steward firmware, a tile of its partition in its device
mask, or its function (R441, R451). -/
def Receives (ag : Agent) (m : Nat) (s : State) : Prop :=
  ag = .steward ∨
  (∃ t : Fin 128, ag = .tile t ∧ s.mbxKind m = 3 ∧ s.rf .MBX_CFG 51 48 m = (s.core t).part.toNat ∧
    (s.dmask (s.rf .MBX_CFG 44 40 m)).getLsbD t = true) ∨
  ∃ f : Fin 32, ag = .host f ∧ s.mbxKind m = 2 ∧ s.rf .MBX_CFG 56 52 m = f.val

/-- Mailboxes (R441 to R447, R451). -/
def MailboxesRun : Prop :=
  ∀ (ag : Agent) (m : Fin 256) (v : Word) (s : State), s.dormant 48 = false →
    let permits := ag = .steward ∨ (∃ t : Fin 128, ag = .tile t ∧ s.rb .MBX_ACL (s.core t).part.toNat m = true) ∨
      ∃ f : Fin 32, ag = .host f ∧ (s.rb .MBX_ACL (16 + f) m = true ∨ f.val = 0 ∧ m.val < 4)
    let open_ := permits ∧ s.mbxKind m ≠ 0 ∧ s.mbxEn m = true
    let outcome (st : Nat) (u : State) := (stagingOf ag u).mbx = m.val ∧ (stagingOf ag u).status = st ∧ (stagingOf ag u).sent = true ∧
      (stagingOf ag u).words = (stagingOf ag s).words
    let old := (s.reg .MBX_DB m).setWidth 32
    let mask := (s.reg .MBX_DB_MASK m).setWidth 32
    (¬ open_ → (∃ u, exec (.mbxSend ag m v) s = .next u ∧ outcome 3 u ∧ u.rf .HL_CNT 63 48 = min 65535 (s.rf .HL_CNT 63 48 + 1)) ∧
      exec (.mbxDbSet ag m v) s = .next (s.count .HL_CNT 63 48)) ∧
    (open_ → s.rb .MBX_STAT 61 m = false → bit v 63 = false →
      ∃ u, exec (.mbxSend ag m v) s = .next u ∧ outcome 2 u ∧ u.rf .MBX_CNT 15 0 m = min 65535 (s.rf .MBX_CNT 15 0 m + 1) ∧
        (∀ i : Fin 8, u.reg .MBX_MSG m i = s.reg .MBX_MSG m i) ∧ u.reg .MBX_STAT m = s.reg .MBX_STAT m) ∧
    (open_ → s.rb .MBX_STAT 61 m = true → bit v 39 = false →
      let full := s.rb .MBX_STAT 63 m
      let seq := ((mbxSender m s).seq + 1) % 2 ^ 32
      let n := fld v 2 0
      let id := senderId ag s
      ∃ u, exec (.mbxSend ag m v) s = .next u ∧ outcome (if full then 1 else 0) u ∧ u.mem = s.mem ∧ u.wire = s.wire ∧
        u.reg .MBX_MSG m 0 = (place 63 62 id.1 ||| place 61 55 id.2.1 ||| place 54 51 id.2.2 ||| place 50 48 n |||
          place 47 32 (fld v 31 16) ||| place 31 0 seq) ∧
        (∀ i : Fin 7, u.reg .MBX_MSG m (i.val + 1) = if i.val < n then Tab.get (fun _ => 0) (stagingOf ag s).words i else 0) ∧
        u.rb .MBX_STAT 63 m = true ∧ u.rf .MBX_STAT 31 0 m = seq ∧ u.rb .MBX_STAT 62 m = (full || s.rb .MBX_STAT 62 m) ∧
        u.rf .MBX_CNT 63 32 m = min 4294967295 (s.rf .MBX_CNT 63 32 m + 1) ∧
        u.rf .MBX_CNT 31 16 m = min 65535 (s.rf .MBX_CNT 31 16 m + if full then 1 else 0)) ∧
    (open_ → ∃ u, exec (.mbxDbSet ag m v) s = .next u ∧
      let bits := v.setWidth 32
      Notified m (bits &&& ~~~ old &&& mask) (s.setReg .MBX_DB ((old ||| bits).setWidth 64) m) u) ∧
    (¬ Receives ag m s → ∀ c ∈ [Instr.mbxAck ag m v, .mbxReady ag m v, .mbxDbClear ag m v, .mbxDbMaskWrite ag m v],
      exec c s = .next (refusePermission s)) ∧
    (Receives ag m s →
      (∀ c ∈ [Instr.mbxAck ag m v, .mbxReady ag m v], ∃ u, exec c s = .next u ∧ u.mem = s.mem ∧
        u.rb .MBX_STAT 63 m = (s.rb .MBX_STAT 63 m && !bit v 0) ∧ u.rb .MBX_STAT 62 m = (s.rb .MBX_STAT 62 m && !bit v 0) ∧
        u.rb .MBX_STAT 61 m = (s.rb .MBX_STAT 61 m || bit v 1) ∧ u.rf .MBX_STAT 31 0 m = s.rf .MBX_STAT 31 0 m) ∧
      exec (.mbxDbClear ag m v) s = .next (s.setReg .MBX_DB (s.reg .MBX_DB m &&& ~~~ v) m) ∧
      ∃ u, exec (.mbxDbMaskWrite ag m v) s = .next u ∧
        let new := v.setWidth 32
        Notified m (new &&& ~~~ mask &&& old) (s.setReg .MBX_DB_MASK (new.setWidth 64) m) u) ∧
    (m.val < 4 → exec (.mbxCfgWrite m v) s = .next s) ∧
    (4 ≤ m.val → bit v 63 = false ∨ s.rb .MBX_CFG 63 m = true → exec (.mbxCfgWrite m v) s = .next (s.writePlain .MBX_CFG v m)) ∧
    (4 ≤ m.val → bit v 63 = true → s.rb .MBX_CFG 63 m = false → ∃ u, exec (.mbxCfgWrite m v) s = .next u ∧
      u.reg .MBX_CFG m = (s.writePlain .MBX_CFG v m).reg .MBX_CFG m ∧ u.reg .MBX_DB m = 0 ∧ u.rb .MBX_STAT 63 m = false ∧
      u.rb .MBX_STAT 62 m = false ∧ u.rb .MBX_STAT 61 m = true ∧ (mbxSender m u).seq = 0)

/-- The host link and the mailboxes (R426, R427, R432 to R448, R451). -/
def Obligations.HostLinkAndMailboxes : Prop := HostRequests ∧ HostLinkRuns ∧ MailboxesRun

/-- The power domains (R454 to R458). -/
def DomainsSleepAndWake : Prop :=
  ∀ (v : Word) (d : Fin 50) (s : State),
    (∃ u, exec (.pwrDomReqWrite v) s = .next u ∧ u.mem = s.mem ∧ u.reg .PWR_DOM_STAT = s.reg .PWR_DOM_STAT ∧
      (∀ e < 49, u.rb .PWR_DOM_REQ e = bit v e) ∧
      (∀ e ∈ s.pwr.waking, e ∈ u.pwr.waking) ∧
      ∀ e < 49, s.dormant e = true → bit v e = false →
        e ∈ u.pwr.waking ∧ (e < 32 → s.dormant (32 + e / 4) = true → 32 + e / 4 ∈ u.pwr.waking)) ∧
    (let quiet := 8 * (s.tb.ticks - Tab.get (fun _ => 0) s.pwr.heldAt d)
     let sleeps := d.val ≠ 49 ∧ s.rb .PWR_DOM_REQ d = true ∧ s.dormant d = false ∧ domHeld d s = false ∧
       max 1 (s.rf .PWR_IDLE 31 0) ≤ quiet
     (¬ sleeps → exec (.dormantEntry d) s = .next s) ∧
     (sleeps → 32 ≤ d.val → d.val ≠ 45 → exec (.dormantEntry d) s = .next (s.flag .PWR_DOM_STAT d)) ∧
     (sleeps → d.val = 45 → ∃ u, exec (.dormantEntry d) s = .next u ∧ u.dormant d = true ∧ u.rb .HL_STAT 63 = false ∧
       u.mem = s.mem) ∧
     (sleeps → d.val < 32 → ∃ u, exec (.dormantEntry d) s = .next u ∧ u.dormant d = true ∧ u.mem = s.mem ∧
       u.regs = (s.flag .PWR_DOM_STAT d).regs ∧
       ∀ i < 4, let x := u.tile (4 * d.val + i)
         x.core = s.core (4 * d.val + i) ∧ x.dcache = [] ∧ x.icache = [] ∧ x.loopFill = [] ∧
         ∀ k < 5, (x.munit k).plane0 = .empty ∧ (x.munit k).plane1 = .empty)) ∧
    (let ready := d.val ∈ s.pwr.waking ∧ (d.val < 32 → s.dormant (32 + d.val / 4) = false)
     (¬ ready → exec (.domainReady d) s = .next s) ∧
     (ready → 32 ≤ d.val ∨ (∀ i < 4, (s.tile (4 * d.val + i)).launch = none) →
       ∃ u, exec (.domainReady d) s = .next u ∧ u.dormant d = false ∧ u.mem = s.mem ∧ u.tiles = s.tiles ∧
         (∀ e, e ∈ u.pwr.waking ↔ e ∈ s.pwr.waking ∧ e ≠ d.val) ∧
         ∀ e < 64, e ≠ d.val → u.dormant e = s.dormant e))

/-- The resets (R463, R464, R481, R483, R484, R509). -/
def ResetsCoverWhatTheySay : Prop :=
  ∀ (v : Word) (s : State),
    ((∀ d < 48, bit v d = false) → exec (.domainReset v) s = .next s) ∧
    (∀ d < 48, (∀ e < 48, bit v e = (e == d)) →
      (d < 32 ∧ (∀ i < 4, (s.tile (4 * d + i)).launch = none ∧ ∀ k < 5, ((s.tile (4 * d + i)).munit k).queue = [])) ∨
        (40 ≤ d ∧ d < 42 ∧ (s.cluster (d - 40)).jobs = []) ∨ (d = 44 ∧ s.fh.live = []) →
      ∃ u, exec (.domainReset v) s = .next u ∧ u.dormant d = false ∧ d ∉ u.pwr.waking ∧ u.mem = s.mem ∧
        (∀ o, regDomain o = d → Tab.get resetAt u.regs o = resetAt o) ∧
        (∀ o, regDomain o ≠ d → o ≠ addrOf .PWR_DOM_STAT 0 0 → o ≠ addrOf .PWR_CNT 0 0 →
          Tab.get resetAt u.regs o = Tab.get resetAt s.regs o) ∧
        (d < 32 → ∀ i < 4, u.core (4 * d + i) = CoreRegs.reset ∧ (u.tile (4 * d + i)).saved = (s.tile (4 * d + i)).saved) ∧
        (40 ≤ d → d < 42 → u.cluster (d - 40) = Cluster.reset) ∧
        (d = 44 → u.fh = Fronthaul.reset)) ∧
    (let recovers (cause : Nat) (u : State) := u.rf .DEV_RST_CAUSE 2 0 = cause ∧ u.rb .SEC_BOOT_STAT 4 = true ∧
       u.rf .DEV_STAT 2 0 = 3 ∧ u.rb .DEV_STAT 63 = false ∧ u.rb .PART_FN_CTL 63 0 = true ∧ u.rb .HL_CTL 63 = true ∧
       u.rf .HL_CTL 1 0 = 2
     let starts (c : State) (cause : Nat) (u : State) :=
       let bs := flashBytes 0 8192 c
       (recordOk bs c = false → recovers cause u ∧ u.reg .DEV_CFG_CUR = 0) ∧
       (recordOk bs c = true → (bootSlots (applyRecord bs (c.setReg .DEV_RST_CAUSE (BitVec.ofNat 64 cause)))).1 = true →
         u.rb .DEV_STAT 63 = true ∧ u.rf .DEV_STAT 2 0 = 7 ∧ u.rb .HL_CTL 63 = true)
     (∀ x ∈ [(Instr.deviceReset, 1), (.cardReset, 2)], ∃ u, exec x.1 s = .next u ∧ starts (deviceClear s) x.2 u ∧
       (recordOk (flashBytes 0 8192 (deviceClear s)) (deviceClear s) = false →
         u.rf .FAB_INC 7 0 = (s.rf .FAB_INC 7 0 + 1) % 256)) ∧
     (∃ u, exec .powerOn s = .next u ∧ starts (powerClear s) 0 u ∧
       (recordOk (flashBytes 0 8192 s) s = false → u.reg .FAB_INC = 0 ∧ u.tb = State.reset.tb ∧ u.tiles = [] ∧
         u.sec.flash = s.sec.flash ∧ u.sec.svn = s.sec.svn ∧ u.sec.keyRev = s.sec.keyRev ∧ u.sec.recMin = s.sec.recMin)) ∧
     (∃ u, exec .brownOut s = .next u ∧ u.regs = State.reset.regs ∧ u.tb = State.reset.tb ∧ u.tiles = [] ∧
       u.pwr = State.reset.pwr ∧ u.sec.flash = s.sec.flash ∧ u.sec.svn = s.sec.svn ∧ u.sec.keyRev = s.sec.keyRev ∧
       u.sec.recMin = s.sec.recMin ∧ u.sec.uds = [] ∧ ∀ a < 31457280 * 65536, ∀ b, (a, b) ∉ u.mem) ∧
     ((∀ m < 256, s.mbxKind m = 1 → s.rb .MBX_STAT 63 m = false) →
       (s.sec.record = [] → (∀ f < 32, 0 < f → s.rb .PART_FN_CTL 63 f = false) → s.rb .HL_STAT 63 = false →
         ∃ u, exec .stewardRestart s = .next u ∧ recovers 4 u ∧ u.mem = s.mem ∧ u.tb = s.tb ∧ u.tiles = s.tiles ∧ u.fh = s.fh ∧
           u.bellArm = s.bellArm ∧ u.sec.uds = s.sec.uds ∧ u.sec.update = none) ∧
       (s.sec.record ≠ [] → ∃ w, exec .stewardRestart s = .next (bootSlots w).2 ∧ w.mem = s.mem ∧ w.tb = s.tb ∧
         w.tiles = s.tiles ∧ w.fh = s.fh ∧ w.rf .DEV_RST_CAUSE 2 0 = 4 ∧ w.sec.flash = s.sec.flash ∧
         w.sec.record = s.sec.record ∧ w.sec.uds = s.sec.uds ∧ w.sec.running = [] ∧ w.sec.update = none ∧
         ((bootSlots w).1 = true → (bootSlots w).2.rb .DEV_STAT 63 = true ∧ (bootSlots w).2.rf .DEV_STAT 2 0 = 7) ∧
         ((bootSlots w).1 = false → (bootSlots w).2.rb .HL_CTL 63 = true ∧ (bootSlots w).2.rf .HL_CTL 1 0 = 2))))

/-- The governor, the temperature and the rails (R459 to R462, R510, R511). -/
def PowerIsGoverned : Prop :=
  ∀ s : State, s.rb .ERR_DB 63 = false →
    (∀ est : Nat,
      let n := min 100 (max 1 (s.rf .PWR_GOV 6 0))
      let e := (((est : Int) * (100 + s.pwr.gain)) / 100).toNat % 65536
      let hist := (e :: s.pwr.hist).take n
      let avg := hist.foldl (· + ·) 0 / hist.length
      let lim := s.rf .PWR_LIMIT 10 0 - s.rf .PWR_LIMIT 10 0 * s.pwr.thermal / 100
      let zeros := if s.rb .PWR_GOV 63 = true ∧ s.rf .PWR_GOV_STAT 6 0 = 0 ∧ lim < avg then s.pwr.zeroRun + 1 else 0
      let begins := s.pwr.unmet = false ∧ n ≤ zeros
      let unmet := s.rb .PWR_GOV 63 = true ∧ (s.pwr.unmet = true ∨ begins) ∧ lim ≤ avg
      ∃ u, exec (.govWindow est) s = .next u ∧ u.mem = s.mem ∧ u.tiles = s.tiles ∧ u.wire = s.wire ∧ u.pwr.hist = hist ∧
        u.pwr.zeroRun = zeros ∧ (u.pwr.unmet = true ↔ unmet) ∧ u.rf .PWR_GOV_STAT 63 48 = e ∧
        u.rf .PWR_GOV_STAT 47 32 = avg % 65536 ∧ u.rf .PWR_GOV_STAT 31 16 = lim ∧
        (s.rb .PWR_GOV 63 = false → u.rf .PWR_GOV_STAT 6 0 = 64) ∧
        (s.rb .PWR_GOV 63 = true → u.rf .PWR_GOV_STAT 6 0 ≤ 64 ∧ (unmet → u.rf .PWR_GOV_STAT 6 0 = 0)) ∧
        (begins → u.rb .PWR_EVT 0 = true ∧ u.rb .ERR_SUM 5 = true) ∧ (¬ begins → u.reg .PWR_EVT = s.reg .PWR_EVT) ∧
        (¬ unmet → s.pwr.unmetUs < 1000 → u.rf .PWR_CNT 15 0 = s.rf .PWR_CNT 15 0 ∧ u.pwr.unmetUs = s.pwr.unmetUs) ∧
        (unmet → s.pwr.unmetUs < 999 → u.rf .PWR_CNT 15 0 = s.rf .PWR_CNT 15 0 ∧ u.pwr.unmetUs = s.pwr.unmetUs + 1) ∧
        (unmet → s.pwr.unmetUs = 999 → u.rf .PWR_CNT 15 0 = min 65535 (s.rf .PWR_CNT 15 0 + 1) ∧ u.pwr.unmetUs = 0)) ∧
    (∀ dies optics : List Nat,
      let tj := min 255 ((dies ++ optics.map (· + 15)).foldl max 0)
      let crit := s.rf .PWR_THERM 15 8
      ∃ u, exec (.thermSample dies optics) s = .next u ∧ u.mem = s.mem ∧ u.rf .PWR_THERM 55 48 = tj ∧
        u.rf .PWR_THERM 15 8 = crit ∧ u.rf .PWR_THERM 7 0 = s.rf .PWR_THERM 7 0 ∧
        u.pwr.thermN = (decide (crit ≤ tj) || (decide (tj + 3 > crit) && s.pwr.thermN)) ∧
        u.wire = (if u.pwr.thermN = s.pwr.thermN then s.wire else .pin "THERM_N" (!u.pwr.thermN) :: s.wire) ∧
        u.rb .PWR_EVT 1 = (decide (s.rf .PWR_THERM 7 0 ≤ tj) || s.rb .PWR_EVT 1) ∧
        u.rb .PWR_EVT 2 = (decide (crit ≤ tj) || s.rb .PWR_EVT 2) ∧ (crit ≤ tj → u.rb .ERR_SUM 5 = true)) ∧
    (let tj := s.rf .PWR_THERM 55 48
     let trim := s.rf .PWR_THERM 7 0
     (trim ≤ tj → ∃ u, exec .thermalReductionStep s = .next u ∧ u.pwr.thermal = min 50 (s.pwr.thermal + 2) ∧
       u.rb .PWR_EVT 1 = true ∧ u.mem = s.mem) ∧
     (tj + 3 ≤ trim → ∃ u, exec .thermalReductionStep s = .next u ∧ u.pwr.thermal = s.pwr.thermal - 2 ∧ u.regs = s.regs) ∧
     (tj < trim → trim < tj + 3 → exec .thermalReductionStep s = .next s)) ∧
    (∃ u, exec .thermtrip s = .next u ∧ u.pwr.trip = true ∧ u.regs = s.regs ∧ u.mem = s.mem ∧
      u.wire = if s.pwr.trip = true then s.wire else .pin "THERMTRIP_N" false :: s.wire) ∧
    ∀ rails : List (Option PmbRead × Option PmbRead),
      (s.rb .PWR_PMB_CFG 63 = false → exec (.pmbusPoll rails) s = .next s) ∧
      (s.rb .PWR_PMB_CFG 63 = true → ∃ u, exec (.pmbusPoll rails) s = .next u ∧ u.mem = s.mem ∧
        -10 ≤ u.pwr.gain ∧ u.pwr.gain ≤ 10 ∧
        (-10 ≤ s.pwr.gain → s.pwr.gain ≤ 10 → s.pwr.gain - 1 ≤ u.pwr.gain ∧ u.pwr.gain ≤ s.pwr.gain + 1) ∧
        let is (r : Nat) := fld (wordAt s.sec.record (8 + r)) 6 0 ≠ 0
        let got (r : Nat) := (rails.getD r (none, none)).1 <|> (rails.getD r (none, none)).2
        u.rf .PWR_CNT 31 16 = min 65535 (s.rf .PWR_CNT 31 16 + ((List.range 8).filter fun r => is r ∧ got r = none).length) ∧
        ∀ r < 8,
          (¬ is r → u.reg .PWR_RAIL r = s.reg .PWR_RAIL r) ∧
          (is r → got r = none → u.reg .PWR_RAIL r = s.reg .PWR_RAIL r ∧ u.rb .PWR_EVT 3 = true) ∧
          ∀ m, is r → got r = some m → u.rf .PWR_RAIL 63 48 r = m.status.toNat ∧ u.rf .PWR_RAIL 47 32 r = m.vout.toNat ∧
            u.rf .PWR_RAIL 31 16 r = m.iout.toNat ∧ u.rf .PWR_RAIL 15 0 r = m.pout.toNat ∧
            (railFault m.status = true → u.rb .PWR_EVT 4 = true))

/-- From `s` to `u` the inactive bank `b`, which arms no bell, has become the active version with epoch `e`, and PREV is
`prev` (R470, R472). -/
def Switched (s u : State) (b : Bank) (e prev : Nat) : Prop :=
  u.reg .DEV_CFG_CUR = place 63 32 e ||| place 31 0 prev ∧ u.reg .DEV_CFG_STAT = 0 ∧ u.rb .DEV_CFG_EVT 1 = true ∧
    u.ver.bells = b.bells ∧ u.ver.tiles = b.tiles ∧ u.mem = s.mem ∧
    (b.regs = [] → ∀ o, versionedOff o = true → Tab.get resetAt u.regs o = resetAt o) ∧
    ∀ o x, b.regs = [(o, x)] → versionedOff o = true →
      (∀ r i j, locate o = some (r, i, j) → r ≠ .FH_CELL_CFG ∧ r ≠ .FH_PORT_CTL) →
      Tab.get resetAt u.regs o = x ∧ ∀ p, versionedOff p = true → p ≠ o → Tab.get resetAt u.regs p = resetAt p

/-- Configuration versions (R468 to R473). -/
def VersionsAreStagedAndSwitched : Prop :=
  ∀ (v : Word) (t : Fin 128) (s : State),
    let st := s.rf .DEV_CFG_STAT 2 0
    let ver := s.rf .DEV_CFG_STAT 63 32
    let epoch := s.rf .DEV_CFG_CUR 63 32
    let prev := s.rf .DEV_CFG_CUR 31 0
    let quiet := s.rb .ERR_DB 63 = false ∧ s.rb .DEV_CFG_DB 63 = false ∧ s.fh.live = [] ∧ NoneDue s
    let actsAt (t : Nat) := ∃ e ∈ s.deliveries, e.firedNs = t ∧ e.action ≠ 10
    let plain (b : Bank) := b.regs = [] ∨ ∃ o x, b.regs = [(o, x)] ∧ versionedOff o = true ∧
      ∀ r i j, locate o = some (r, i, j) → r ≠ .FH_CELL_CFG ∧ r ≠ .FH_PORT_CTL
    (st = 3 → exec (.stage v) s = .next (s.flag .DEV_CFG_EVT 3)) ∧
    (st ≠ 3 → ∃ u, exec (.stage v) s = .next u ∧ u.reg .DEV_CFG_STAT = place 63 32 (fld v 31 0) ||| place 2 0 1 ∧
      u.reg .DEV_CFG_CUR = place 63 32 epoch ∧ u.ver.inactive = .empty ∧ u.ver.image = s.rf .DEV_CFG_STAGE 51 5 * 32 ∧
      u.ver.bells = s.ver.bells ∧ u.ver.tiles = s.ver.tiles ∧ u.mem = s.mem) ∧
    (st ≠ 1 → exec .loadComplete s = .next s) ∧
    (st = 1 →
      let r := readImage 65537 s.ver.image .empty s
      (∀ b, r.1 = some b → ver ≠ 0 → ver ≠ epoch → ∃ u, exec .loadComplete s = .next u ∧
        u.reg .DEV_CFG_STAT = place 63 32 ver ||| place 2 0 2 ∧ u.ver.inactive = b ∧ u.mem = r.2.mem) ∧
      (r.1 = none ∨ ver = 0 ∨ ver = epoch → ∃ u, exec .loadComplete s = .next u ∧
        u.reg .DEV_CFG_STAT = place 63 32 ver ||| place 2 0 4 ∧ u.rb .DEV_CFG_EVT 0 = true ∧ u.mem = r.2.mem)) ∧
    (∃ u, exec .discard s = .next u ∧ u.reg .DEV_CFG_STAT = 0 ∧ u.reg .DEV_CFG_CUR = place 63 32 epoch ∧
      u.ver = { s.ver with inactive := .empty } ∧ u.mem = s.mem) ∧
    (prev = 0 → exec .rollback s = .next (s.flag .DEV_CFG_EVT 3)) ∧
    (prev ≠ 0 → st = 3 → exec .rollback s = .next s) ∧
    (prev ≠ 0 → st ≠ 3 → ∃ u, exec .rollback s = .next u ∧ u.reg .DEV_CFG_STAT = place 63 32 ver ||| place 2 0 3 ∧
      u.reg .DEV_CFG_CUR = s.reg .DEV_CFG_CUR ∧ u.ver.inactive = s.ver.inactive ∧ u.mem = s.mem ∧
      ((∀ c < 256, cellValid c s = false) → u.ver.due = (s.now / 1000000 + 1) * 1000000 % 2 ^ 64) ∧
      (∀ c < 256, cellValid c s = true → (∀ e < 256, cellValid e s = true → e = c) →
        let p := min 1000000 (slotPeriod c s)
        let o := (s.reg .FH_SFN_OFFSET).toNat
        0 < p → o ≤ s.now → s.now + p < 2 ^ 64 → s.now < u.ver.due ∧ u.ver.due ≤ s.now + p ∧ (u.ver.due - o) % p = 0)) ∧
    (st ≠ 3 ∨ s.now < s.ver.due → exec .rollbackTakeEffect s = .next s) ∧
    (st = 3 → s.ver.due ≤ s.now → quiet → actsAt s.now → exec .rollbackTakeEffect s = .next s) ∧
    (st = 3 → s.ver.due ≤ s.now → quiet → ¬ actsAt s.now → plain s.ver.inactive → s.ver.bells = [] → s.ver.inactive.bells = [] →
      ∃ u, exec .rollbackTakeEffect s = .next u ∧ Switched s u s.ver.inactive prev 0 ∧ u.ver.inactive = .empty) ∧
    (∀ (d : Delivery) (ds : List Delivery), takeDelivery 10 s.deliveries = some (d, ds) → quiet →
      (actsAt d.firedNs → exec .configActivate s = .next s) ∧ (¬ actsAt d.firedNs →
      (st ≠ 2 ∨ ver ≠ d.arg → ∃ u, exec .configActivate s = .next u ∧ u.deliveries = ds ∧ u.rb .DEV_CFG_EVT 2 = true ∧
        u.rb .ERR_SUM 6 = true ∧ u.reg .DEV_CFG_CUR = s.reg .DEV_CFG_CUR ∧ u.reg .DEV_CFG_STAT = s.reg .DEV_CFG_STAT ∧
        u.ver = s.ver ∧ u.mem = s.mem) ∧
      (st = 2 → ver = d.arg → plain s.ver.inactive → s.ver.bells = [] →
        (s.ver.inactive.bells = [] → ∃ u, exec .configActivate s = .next u ∧ u.deliveries = ds ∧
          Switched s u s.ver.inactive ver epoch ∧ u.ver.inactive.bells = [] ∧ u.ver.inactive.tiles = s.ver.tiles ∧
          ∀ o, versionedOff o = true → Tab.get resetAt u.ver.inactive.regs o = Tab.get resetAt s.regs o) ∧
        ∀ b, s.ver.inactive.bells = [b] → b.belfry < 9 → b.bell < 64 →
          ∃ u, exec .configActivate s = .next u ∧ Switched s u s.ver.inactive ver epoch ∧
            u.reg .BELL_TIME b.belfry b.bell = b.time ∧ u.reg .BELL_ACT b.belfry b.bell = b.act ∧
            u.reg .BELL_PERIOD b.belfry b.bell = place 39 0 b.period ∧
            u.rf .BELL_CTL 47 32 b.belfry b.bell = b.remain % 65536 ∧ u.rf .BELL_CTL 19 16 b.belfry b.bell = b.owner % 16 ∧
            u.rb .BELL_CTL 12 b.belfry b.bell = true ∧
            u.rb .BELL_CTL 2 b.belfry b.bell =
              (armRefusal b.belfry b.bell b.act (u.rf .BELL_PERIOD 39 0 b.belfry b.bell) none u).isNone))) ∧
    ((s.tile t).loading = none → exec (.tileReloadDone t) s = .next s) ∧
    (∀ e, (s.tile t).loading = some e → (s.tile t).launch = none → s.rb .ERR_DB 63 = false →
      ((∀ x ∈ s.ver.tiles, x.1 ≠ t.val) → ∃ u, exec (.tileReloadDone t) s = .next u ∧ (u.tile t).loading = none ∧
        (u.reg .TILE_EPOCH t).toNat = epoch ∧ u.reg .TILE_MVEC t = RegName.TILE_MVEC.desc.reset ∧
        u.reg .TILE_GANG_BASE t = RegName.TILE_GANG_BASE.desc.reset ∧
        (∀ k : Fin 5, u.reg .TILE_ARR_CTL t k = RegName.TILE_ARR_CTL.desc.reset) ∧ u.mem = s.mem) ∧
      ∀ a, s.ver.tiles = [(t.val, a)] →
        (badWords a 56 s = [] → ∃ u, exec (.tileReloadDone t) s = .next u ∧ (u.tile t).loading = none ∧
          (u.reg .TILE_EPOCH t).toNat = epoch ∧
          let ws := leWords (bytesAt a 56 s)
          u.reg .TILE_MVEC t = (s.writeReg .TILE_MVEC (wordAt ws 0) t).reg .TILE_MVEC t ∧
          u.reg .TILE_GANG_BASE t = (s.writeReg .TILE_GANG_BASE (wordAt ws 1) t).reg .TILE_GANG_BASE t ∧
          ∀ k : Fin 5, u.reg .TILE_ARR_CTL t k = (s.writeReg .TILE_ARR_CTL (wordAt ws (2 + k)) t k).reg .TILE_ARR_CTL t k) ∧
        (badWords a 56 s ≠ [] → ∃ u, exec (.tileReloadDone t) s = .next u ∧ (u.tile t).loading = none ∧
          u.reg .TILE_EPOCH t = s.reg .TILE_EPOCH t ∧ u.reg .TILE_MVEC t = s.reg .TILE_MVEC t ∧ u.rb .ERR_SUM 6 = true ∧
          u.mem = s.mem))

def Obligations.PowerResetsAndVersions : Prop :=
  DomainsSleepAndWake ∧ ResetsCoverWhatTheySay ∧ PowerIsGoverned ∧ VersionsAreStagedAndSwitched

/-- From `s` to `u` the boot control block in use has become one with word 1 equal to `w` (R476): always, where the SEQ in use
has a successor. -/
def NextBlock (s : State) (w : Word) (u : State) : Prop :=
  (∀ k q x, bcbNow s = some (k, q, x) → q + 1 < 2 ^ 32) → ∃ k q, bcbNow u = some (k, q, w)

/-- The bytes `bs` lie in the flash from an offset on. -/
def InFlash (o : Nat) (bs : List Byte) (s : State) : Prop :=
  ∀ i < bs.length, Tab.get Config.flashByte s.sec.flash (o + i) = bs.getD i 0

/-- Firmware update, recovery, the watchdog and measurements (R478, R480, R484, R485, R488, R489). -/
def FirmwareIsUpdated : Prop :=
  ∀ (media refused : Bool) (v : Word) (s : State),
    let st := s.rf .SEC_FW_STAT 2 0
    let booted := s.rf .SEC_BOOT_STAT 0 0
    let spare := slotBase (1 - booted)
    let refusal : Ans := .next (s.flag .SEC_FW_STAT 3)
    let asked (m code : Nat) := s.rb .MBX_STAT 63 m = true ∧ s.rf .MBX_MSG 47 32 m 0 = code
    let word (i : Nat) := (s.reg .MBX_MSG 1 (i + 1)).toNat
    (s.rb .SEC_BOOT_STAT 4 = true ∨ ¬ asked 1 0x0F01 → exec .updateRequest s = .next s) ∧
    (s.rb .SEC_BOOT_STAT 4 = false → asked 1 0x0F01 → ∃ u, exec .updateRequest s = .next u ∧ u.rb .MBX_STAT 63 1 = false ∧
      u.mem = s.mem ∧
      (st = 1 ∨ st = 3 → u.wire = .updateBusy (word 2) :: s.wire ∧ u.sec = s.sec) ∧
      (st ≠ 1 → st ≠ 3 → u.wire = s.wire ∧ u.sec = { s.sec with update := some ⟨word 0, word 1, word 2⟩ })) ∧
    (st ≠ 0 ∧ st ≠ 2 ∧ st ≠ 4 → exec .fwBegin s = refusal) ∧
    (st = 0 ∨ st = 2 ∨ st = 4 → ∃ u, exec .fwBegin s = .next u ∧ u.reg .SEC_FW_STAT = 1 ∧ u.mem = s.mem ∧
      (∀ i < 8192, Tab.get Config.flashByte u.sec.flash (spare + i) = 0xFF) ∧
      ∀ o, o < spare ∨ spare + 8192 ≤ o → Tab.get Config.flashByte u.sec.flash o = Tab.get Config.flashByte s.sec.flash o) ∧
    (st ≠ 1 → exec (.written media) s = refusal) ∧
    (st = 1 → s.sec.update = none →
      let c := packageFault (slotReader (1 - booted) s) slotBytes s.sec.running media s
      (c = 0 → exec (.written media) s =
        .next (s.setReg .SEC_FW_STAT (place 63 32 (mSvn (manifestOf (slotReader (1 - booted) s))) ||| place 2 0 2))) ∧
      (c ≠ 0 → exec (.written media) s = .next (s.setReg .SEC_FW_STAT (place 11 8 c ||| place 2 0 4)))) ∧
    (∀ (x : Update) (bs : List Byte) (r : State), st = 1 → s.sec.update = some x →
      devRead whoSteward x.addr (min x.len slotBytes) 0 s = (.ok bs, r) →
      ∃ u, exec (.written media) s = .next u ∧ InFlash spare bs u ∧ u.mem = r.mem ∧
        (u.rf .SEC_FW_STAT 2 0 = 2 ∨ u.rf .SEC_FW_STAT 2 0 = 4)) ∧
    (st ≠ 2 → exec .activate s = refusal) ∧
    (st = 2 → ∃ w, exec .activate s = .next (stewardRestart 5 w) ∧ w.regs = s.regs ∧ w.mem = s.mem ∧
      NextBlock s (place 8 8 1 ||| place 7 4 1 ||| place 1 1 (1 - booted) |||
        place 0 0 (if (bcbNow s).isSome then bcbActive s else booted)) w) ∧
    (st ≠ 3 → exec (.confirm refused) s = refusal) ∧
    (st = 3 → ∃ u, exec (.confirm refused) s = .next u ∧ u.reg .SEC_FW_STAT = 0 ∧ u.rb .SEC_BOOT_STAT 2 = false ∧
      u.rf .SEC_BOOT_STAT 1 1 = booted ∧ u.sec.confirm = some s.tb.ticks ∧ u.mem = s.mem ∧
      NextBlock s (place 1 1 (1 - booted) ||| place 0 0 booted) u ∧
      let locks := bit (wordAt s.sec.running 1) 0 = true
      let svn := max s.sec.svn (fld (wordAt s.sec.running 1) 63 32)
      let rev := if locks then max s.sec.keyRev (fld (wordAt s.sec.running 0) 1 0) else s.sec.keyRev
      (refused = false → u.sec.svn = svn ∧ u.sec.keyRev = rev ∧
        u.reg .SEC_ARB = place 63 32 svn ||| place 31 0 s.sec.recMin ∧ u.reg .SEC_ARB2 = place 0 0 rev) ∧
      (refused = true → u.sec.svn = s.sec.svn ∧ u.sec.keyRev = s.sec.keyRev ∧
        (svn ≠ s.sec.svn ∨ rev ≠ s.sec.keyRev → u.rb .SEC_BOOT_STAT 12 = true))) ∧
    (st = 3 → exec .abandon s = .next (stewardRestart 5 s)) ∧
    (st ≠ 3 → ∃ u, exec .abandon s = .next u ∧ u.reg .SEC_FW_STAT = 0 ∧ u.sec = s.sec ∧ u.mem = s.mem) ∧
    (s.rb .SEC_BOOT_STAT 4 = false ∨ ¬ asked 0 0x0F10 → exec (.recoveryDownload media) s = .next s) ∧
    (s.rb .SEC_BOOT_STAT 4 = true → asked 0 0x0F10 →
      let len := (s.reg .MBX_MSG 0 1).toNat
      let kind := (s.reg .MBX_MSG 0 2).toNat
      let read := devRead whoSteward (hamletBase 0) (min len 0x2000000) 0 (mbxAck 0 1 s)
      let failed (c : Nat) (r : State) := ∃ u, exec (.recoveryDownload media) s = .next u ∧ u.mem = r.mem ∧ u.sec = r.sec ∧
        u.reg .SEC_REC_STAT = place 11 8 c ||| place 2 0 4
      (∀ e r, read = (.error e, r) → failed 7 r) ∧
      ∀ bs r, read = (.ok bs, r) →
        (kind = 1 → packageFault (listReader bs) (min bs.length slotBytes) [] media r ≠ 0 →
          failed (packageFault (listReader bs) (min bs.length slotBytes) [] media r) r) ∧
        (kind = 1 → packageFault (listReader bs) (min bs.length slotBytes) [] media r = 0 →
          ∃ x w, exec (.recoveryDownload media) s = .next (deviceReset x w) ∧ InFlash 0x100000 (bs.take slotBytes) w ∧
            NextBlock r 0 w) ∧
        (kind = 2 → media = true → failed 7 r) ∧
        (kind = 2 → media = false → recordOk bs r = false → ∃ c, failed c r) ∧
        (kind = 2 → media = false → recordOk bs r = true → ∃ x w, exec (.recoveryDownload media) s = .next (deviceReset x w) ∧
          InFlash 0 bs w ∧ w.sec.recMin = recordSeq (leWords bs)) ∧
        (kind ≠ 1 → kind ≠ 2 → ∃ c, failed c r)) ∧
    (let ms := s.rf .SEC_WDOG 31 0
     (ms = 0 ∨ s.tb.ticks < s.sec.wdogAt + ms * 125000 → exec .watchdogExpire s = .next s) ∧
     (ms ≠ 0 → s.sec.wdogAt + ms * 125000 ≤ s.tb.ticks →
       (s.sec.confirm = some s.tb.ticks →
         exec .watchdogExpire s = .next { s with sec := { s.sec with wdogAt := s.tb.ticks } }) ∧
       (s.sec.confirm ≠ some s.tb.ticks → exec .watchdogExpire s =
         .next (stewardRestart 3 { s with wire := .pin "WDOG_N" true :: .pin "WDOG_N" false :: s.wire })))) ∧
    (∃ u, exec (.watchdogReload v) s = .next u ∧ u.rf .SEC_WDOG 31 0 = fld v 31 0 ∧ u.mem = s.mem ∧
      u.sec = { s.sec with wdogAt := s.tb.ticks }) ∧
    (fld v 1 0 ≠ 3 → exec (.measExtend v) s = .next s) ∧
    (fld v 1 0 = 3 → ∃ u, exec (.measExtend v) s = .next u ∧ u.mem = s.mem ∧ u.sec = s.sec ∧
      (∀ m < 3, ∀ j < 6, u.reg .SEC_MEAS m j = s.reg .SEC_MEAS m j) ∧
      let old := (List.range 6).flatMap fun j => leBytes 8 (s.reg .SEC_MEAS 3 j).toNat
      let inp := (List.range 6).flatMap fun j => leBytes 8 (Tab.get (fun _ => 0) s.sec.measIn j).toNat
      ∀ j < 6, u.reg .SEC_MEAS 3 j = wordAt (leWords (sha384 (old ++ inp))) j)

/-- Error records and the health score (R493, R495 to R498). -/
def RecordsClearAndHealthIsScored : Prop :=
  ∀ (i : Fin 128) (addr aux : Nat) (s : State), s.rb .ERR_DB 63 = false →
    (s.rb .ERR_REC 63 i 0 = false → ∀ ev, exec (.errRecClear i ev) s = .next s) ∧
    (s.rb .ERR_REC 63 i 0 = true →
      exec (.errRecClear i none) s = .next (s.unflag .ERR_REC 63 i 0) ∧
      ∃ u, exec (.errRecClear i (some (addr, aux))) s = .next u ∧ u.mem = s.mem ∧
        u.reg .ERR_REC i 0 = putFld (s.reg .ERR_REC i 0) 15 0 1 ∧ u.reg .ERR_REC i 1 = BitVec.ofNat 64 s.now ∧
        u.reg .ERR_REC i 2 = BitVec.ofNat 64 s.now ∧ u.reg .ERR_REC i 3 = place 63 52 aux ||| place 51 0 addr ∧
        u.rb .ERR_SUM (s.rf .ERR_REC 62 60 i 0) = true ∧
        ∀ j : Fin 128, j ≠ i → ∀ w < 4, u.reg .ERR_REC j w = s.reg .ERR_REC j w) ∧
    (s.tb.ticks < s.reeve.windowAt + max 1 (s.rf .ERR_RV_CFG 63 48) * 125000 → exec .scoreWindow s = .next s) ∧
    (s.reeve.windowAt + max 1 (s.rf .ERR_RV_CFG 63 48) * 125000 ≤ s.tb.ticks →
      let unit (i : Nat) := if i = 0 ∨ i = 6 then 1024 else if i = 8 then 1000 else 1
      let count (i : Nat) := Tab.get (fun _ => 0) s.reeve.inputs i
      let weight (i : Nat) := if i < 8 then fld (s.reg .ERR_RV_WGT0) (8 * i + 7) (8 * i)
        else fld (s.reg .ERR_RV_WGT1) (8 * (i - 8) + 7) (8 * (i - 8))
      let p := ((List.range 12).map fun i => weight i * min 255 (count i / unit i)).sum
      let was := s.rf .ERR_RV_STAT 25 16
      let score := if 0 < p then was - p else min 1023 (was + s.rf .ERR_RV_CFG 47 40)
      let band := s.rf .ERR_RV_STAT 41 40
      let ok := s.rf .ERR_RV_CFG 39 30
      let bad := min (s.rf .ERR_RV_CFG 29 20) ok
      let hyst := s.rf .ERR_RV_CFG 19 10
      let seq := (s.reeve.seq + 1) % 2 ^ 64
      ∃ w, w.mem = s.mem ∧ w.rf .ERR_RV_STAT 25 16 = score ∧ w.reeve.seq = seq ∧ w.reeve.windowAt = s.tb.ticks ∧
        (∀ i < 12, Tab.get (fun _ => 0) w.reeve.inputs i = count i % unit i) ∧
        (let now := w.rf .ERR_RV_STAT 41 40
         (score < bad → now = 2) ∧ (bad ≤ score → score < ok → band = 0 → now = 1) ∧
         (ok ≤ score → band = 0 → now = 0) ∧ (ok + hyst ≤ score → now = 0) ∧
         (band = 1 → bad ≤ score → score < ok + hyst → now = 1) ∧
         (band = 2 → bad + hyst ≤ score → score < ok + hyst → now = 1) ∧
         (band = 2 → bad ≤ score → score < bad + hyst → score < ok + hyst → now = 2)) ∧
        (s.rb .ERR_RV_CTL 63 = false → exec .scoreWindow s = .next w) ∧
        (s.rb .ERR_RV_CTL 63 = true →
          let own := s.rf .FAB_NODE 11 0
          let bs := leBytes 8 (place 63 52 own ||| place 41 40 (w.rf .ERR_RV_STAT 41 40) ||| place 25 16 score |||
            place 7 0 (s.rf .ERR_SUM 7 0)).toNat ++ leBytes 8 seq ++ leBytes 8 s.now ++ leBytes 8 0
          ∀ r, windowStore (some (s.rf .ERR_RV_CTL 19 16)) (s.rf .ERR_RV_DEST 51 12 * 4096 + own % 64 * 32) bs .none w =
            (none, r) → exec .scoreWindow s = .next r))

/-- Two step records of device `d` and of the device that it shadows, which carry one STEP, are compared (R502): `s` before
and `u` after. -/
def Compared (d : Nat) (same : Bool) (s u : State) : Prop :=
  let x := rmDev d s
  let clean := min 65535 (s.rf .ERR_RM_DEV 47 32 d + 1)
  (same = true → max 1 (s.rf .ERR_RM_CFG 19 8) ≤ clean → u.rf .ERR_RM_DEV 63 62 d = 0 ∧ u.rf .ERR_RM_DEV 55 48 d = 100) ∧
  (same = true → clean < max 1 (s.rf .ERR_RM_CFG 19 8) → u.rf .ERR_RM_DEV 63 62 d = 3 ∧ u.rf .ERR_RM_DEV 47 32 d = clean ∧
    (rmDev d u).misses = 0) ∧
  (same = false → u.rb .ERR_SUM 7 = true ∧ u.rf .ERR_RM_DEV 47 32 d = 0) ∧
  (same = false → x.misses + 1 < max 1 (s.rf .ERR_RM_CFG 39 36) → u.rf .ERR_RM_DEV 63 62 d = 3 ∧
    (rmDev d u).misses = x.misses + 1) ∧
  (same = false → max 1 (s.rf .ERR_RM_CFG 39 36) ≤ x.misses + 1 → u.rf .ERR_RM_DEV 63 62 d = 2 ∧
    u.reeve.expelled = s.now :: s.reeve.expelled)

/-- The rack manager (R499 to R502). -/
def RackManagerRuns : Prop :=
  ∀ (d : Fin 64) (v : Word) (s : State), s.rb .ERR_DB 63 = false →
    let on := s.rb .ERR_RM_CTL 63 = true
    let st := s.rf .ERR_RM_DEV 63 62 d
    let x := rmDev d s
    let others (u : State) := u.mem = s.mem ∧ ∀ e : Fin 64, e ≠ d → u.reg .ERR_RM_DEV e = s.reg .ERR_RM_DEV e
    let budget := (s.reeve.expelled.filter fun t => decide (s.now < t + s.rf .ERR_RM_CFG 55 40 * 1000000000)).length <
      s.rf .ERR_RM_CFG 63 56
    let confirms := max 1 (s.rf .ERR_RM_CFG 39 36)
    let expelled (u : State) := u.rf .ERR_RM_DEV 63 62 d = 2 ∧ u.rf .ERR_RM_DEV 55 48 d = s.rf .ERR_RM_DEV 55 48 d ∧
      u.reeve.expelled = s.now :: s.reeve.expelled ∧ (rmDev d u).cand = false ∧ (rmDev d u).failing = 0
    (¬ on → (∀ c ∈ [Instr.rmWindow, .budgetExpiry, .shadowStepTimeout d, .errRmDevWrite d v], exec c s = .next s)) ∧
    (s.reeve.rmSeq = s.reeve.seq → exec .rmWindow s = .next s) ∧
    (fld v 63 62 < 2 → exec (.errRmDevWrite d v) s = .next s) ∧
    (on → st ≠ 3 → exec (.shadowStepTimeout d) s = .next s) ∧
    (on → fld v 63 62 = 2 → st = 2 → exec (.errRmDevWrite d v) s = .next (s.putReg .ERR_RM_DEV 61 56 (fld v 61 56) d)) ∧
    (on → fld v 63 62 = 2 → st ≠ 2 → ∃ u, exec (.errRmDevWrite d v) s = .next u ∧ expelled u ∧ others u ∧
      u.rf .ERR_RM_DEV 61 56 d = fld v 61 56) ∧
    (on → fld v 63 62 = 3 → st ≠ 3 → ∃ u, exec (.errRmDevWrite d v) s = .next u ∧ u.rf .ERR_RM_DEV 63 62 d = 3 ∧
      u.rf .ERR_RM_DEV 61 56 d = fld v 61 56 ∧ u.rf .ERR_RM_DEV 47 32 d = 0 ∧ (rmDev d u).misses = 0 ∧ (rmDev d u).seen = [] ∧
      (rmDev d u).cand = false ∧ (rmDev d u).failing = 0) ∧
    (on → ¬ budget ∨ (∀ e < 64, s.rf .ERR_RM_DEV 63 62 e = 1 → (rmDev e s).cand = false) → exec .budgetExpiry s = .next s) ∧
    (on → budget → (∀ e < 64, (s.rf .ERR_RM_DEV 63 62 e = 1 ∧ (rmDev e s).cand = true) ↔ e = d.val) →
      ∃ u, exec .budgetExpiry s = .next u ∧ expelled u ∧ others u) ∧
    (on → s.reeve.rmSeq ≠ s.reeve.seq → (∀ e < 64, (rmDev e s).cand = false) →
      let s₁ := { s with reeve := { s.reeve with rmSeq := s.reeve.seq } }
      ((∀ e < 64, s.rb .ERR_RM_MASK e = false) → exec .rmWindow s = .next s₁) ∧
      ∀ (bs : List Byte) (r : State), (∀ e < 64, s.rb .ERR_RM_MASK e = (e == d.val)) → st ≠ 3 →
        devRead Who.device (s.rf .ERR_RM_BASE 51 12 * 4096 + d.val * 32) 32 0 s₁ = (.ok bs, r) →
        r.regs = s.regs → r.reeve = s₁.reeve → r.tb = s.tb → r.mem = s.mem →
        let ws := leWords bs
        let band := fld (wordAt ws 0) 41 40
        let fresh := x.lastSeq < (wordAt ws 1).toNat
        let stays (u : State) := exec .rmWindow s = .next u ∧ others u ∧ u.reg .ERR_RM_DEV d = s.reg .ERR_RM_DEV d
        (fresh → st = 0 → band = 2 → confirms ≤ x.failing + 1 → budget → ∃ u, exec .rmWindow s = .next u ∧ expelled u ∧ others u) ∧
        (fresh → st = 0 → band = 2 → confirms ≤ x.failing + 1 → ¬ budget → ∃ u, exec .rmWindow s = .next u ∧ others u ∧
          u.rf .ERR_RM_DEV 63 62 d = 1 ∧ u.rf .ERR_RM_DEV 55 48 d = s.rf .ERR_RM_CFG 27 20 ∧ (rmDev d u).cand = true) ∧
        (fresh → st = 0 → band ≠ 2 ∨ x.failing + 1 < confirms → ∃ u, stays u ∧
          (rmDev d u).failing = (if band = 2 then x.failing + 1 else 0) ∧
          (rmDev d u).healthy = (if band = 0 then x.healthy + 1 else 0) ∧ (rmDev d u).missing = 0 ∧
          (rmDev d u).lastSeq = (wordAt ws 1).toNat ∧ (rmDev d u).lastS = fld (wordAt ws 0) 25 16) ∧
        (fresh → st = 1 → band = 0 → max 1 (s.rf .ERR_RM_CFG 35 32) ≤ x.healthy + 1 → ∃ u, exec .rmWindow s = .next u ∧ others u ∧
          u.rf .ERR_RM_DEV 63 62 d = 0 ∧ u.rf .ERR_RM_DEV 55 48 d = 100) ∧
        (¬ fresh → x.missing + 1 < max 1 (s.rf .ERR_RM_CFG 31 28) → ∃ u, stays u ∧ (rmDev d u).missing = x.missing + 1) ∧
        (¬ fresh → st = 0 → max 1 (s.rf .ERR_RM_CFG 31 28) ≤ x.missing + 1 → x.failing + 1 < confirms → ∃ u, stays u ∧
          (rmDev d u).missing = 0 ∧ (rmDev d u).failing = x.failing + 1)) ∧
    (let w := (List.range 16).foldl (fun s k => shadowSlot d k s) s
     on → (∀ n t, (n, t) ∈ (rmDev d w).seen → w.now < t + max 1 (w.rf .ERR_RM_CFG 7 0) * 1000000) →
       exec (.shadowStepTimeout d) s = .next w) ∧
    (let w := (List.range 16).foldl (fun s k => shadowSlot d k s) s
     on → w.rf .ERR_RM_DEV 63 62 d = 3 → w.rb .ERR_DB 63 = false → ∀ n t, (rmDev d w).seen = [(n, t)] →
       t + max 1 (w.rf .ERR_RM_CFG 7 0) * 1000000 ≤ w.now →
       ∃ u, exec (.shadowStepTimeout d) s = .next u ∧ Compared d false w u ∧ (rmDev d u).seen = [] ∧
         (rmDev d u).compared = (rmDev d w).compared ++ [n]) ∧
    ∀ (k : Fin 16) (n : Nat) (a b : Word) (r₁ r₂ : State), st = 3 → stepRecord d k s = (some (n, a), r₁) →
      stepRecord (s.rf .ERR_RM_DEV 61 56 d) k r₁ = (some (n, b), r₂) → r₁.regs = s.regs → r₂.regs = s.regs → r₂.reeve = s.reeve →
      r₂.tb = s.tb →
      (n ∈ x.compared → shadowSlot d k s = r₂) ∧ (n ∉ x.compared → Compared d (a == b) s (shadowSlot d k s))

def Obligations.FirmwareRecordsHealthAndRackManager : Prop :=
  FirmwareIsUpdated ∧ RecordsClearAndHealthIsScored ∧ RackManagerRuns
end

