-- ==== Sys2Proof/Laws/Tab.lean ====
section
/-! SUPPORT. What a write to a sparse table does: the written key reads the written value, every other key reads as
before, and the canonical form is kept. -/

namespace Sys2Proof.Laws

open Sys2Proof.Machine

theorem tab_get_erase_same {α : Type} (d : Nat → α) (m : Tab α) (k : Nat) :
    Tab.get d (Tab.erase m k) k = d k := by
  induction m with
  | nil => rfl
  | cons p m ih =>
    obtain ⟨k', v⟩ := p
    by_cases h : k' = k <;> simp [Tab.erase, Tab.get, h, ih]

theorem tab_get_erase_ne {α : Type} (d : Nat → α) (m : Tab α) {k k' : Nat} (h : k' ≠ k) :
    Tab.get d (Tab.erase m k) k' = Tab.get d m k' := by
  induction m with
  | nil => rfl
  | cons p m ih =>
    obtain ⟨j, v⟩ := p
    by_cases hj : j = k
    · subst hj; simp [Tab.erase, Tab.get, Ne.symm h, ih]
    · simp [Tab.erase, Tab.get, hj, ih]

theorem tab_get_insert_ne {α : Type} (d : Nat → α) (m : Tab α) {k k' : Nat} (v : α) (h : k' ≠ k) :
    Tab.get d (Tab.insert m k v) k' = Tab.get d m k' := by
  induction m with
  | nil => simp [Tab.insert, Tab.get, Ne.symm h]
  | cons p m ih =>
    obtain ⟨j, w⟩ := p
    by_cases hj : k < j
    · simp [Tab.insert, hj, Tab.get, Ne.symm h]
    · simp [Tab.insert, hj, Tab.get, ih]

theorem tab_get_insert_erase {α : Type} (d : Nat → α) (m : Tab α) (k : Nat) (v : α) :
    Tab.get d (Tab.insert (Tab.erase m k) k v) k = v := by
  induction m with
  | nil => simp [Tab.erase, Tab.insert, Tab.get]
  | cons p m ih =>
    obtain ⟨j, w⟩ := p
    by_cases hj : j = k
    · simp [Tab.erase, hj, ih]
    · by_cases hlt : k < j
      · simp [Tab.erase, hj, Tab.insert, hlt, Tab.get]
      · simp [Tab.erase, hj, Tab.insert, hlt, Tab.get, ih]

@[simp] theorem tab_get_set_same {α : Type} [DecidableEq α] (d : Nat → α) (m : Tab α) (k : Nat) (v : α) :
    Tab.get d (Tab.set d m k v) k = v := by
  unfold Tab.set
  split
  · rename_i h; rw [tab_get_erase_same, h]
  · exact tab_get_insert_erase d m k v

@[simp] theorem tab_get_set_ne {α : Type} [DecidableEq α] (d : Nat → α) (m : Tab α) {k k' : Nat} (v : α)
    (h : k' ≠ k) : Tab.get d (Tab.set d m k v) k' = Tab.get d m k' := by
  unfold Tab.set
  split
  · exact tab_get_erase_ne d m h
  · rw [tab_get_insert_ne d _ v h, tab_get_erase_ne d m h]

theorem tab_get_set {α : Type} [DecidableEq α] (d : Nat → α) (m : Tab α) (k k' : Nat) (v : α) :
    Tab.get d (Tab.set d m k v) k' = if k' = k then v else Tab.get d m k' := by
  by_cases h : k' = k
  · subst h; simp
  · simp [h]

theorem tab_wfFrom_mono {α : Type} [DecidableEq α] (d : Nat → α) (m : Tab α) {a b : Nat} (hab : a ≤ b)
    (h : Tab.wfFrom d b m = true) : Tab.wfFrom d a m = true := by
  cases m with
  | nil => rfl
  | cons p m =>
    obtain ⟨k, v⟩ := p
    simp only [Tab.wfFrom, Bool.and_eq_true, decide_eq_true_eq] at h ⊢
    exact ⟨⟨by omega, h.1.2⟩, h.2⟩

theorem tab_wfFrom_erase {α : Type} [DecidableEq α] (d : Nat → α) (m : Tab α) (a k : Nat)
    (h : Tab.wfFrom d a m = true) : Tab.wfFrom d a (Tab.erase m k) = true := by
  induction m generalizing a with
  | nil => rfl
  | cons p m ih =>
    obtain ⟨j, v⟩ := p
    simp only [Tab.wfFrom, Bool.and_eq_true, decide_eq_true_eq] at h
    by_cases hj : j = k
    · simp only [Tab.erase, hj, if_true]
      exact ih a (tab_wfFrom_mono d m (by omega) h.2)
    · simp only [Tab.erase, hj, if_false, Tab.wfFrom, Bool.and_eq_true, decide_eq_true_eq]
      exact ⟨h.1, ih _ h.2⟩

/-- No listed pair has key `k`. -/
def TabFree {α : Type} (m : Tab α) (k : Nat) : Prop := ∀ p ∈ m, p.1 ≠ k

theorem tab_erase_free {α : Type} (m : Tab α) (k : Nat) : TabFree (Tab.erase m k) k := by
  induction m with
  | nil => intro p hp; cases hp
  | cons q m ih =>
    obtain ⟨j, v⟩ := q
    by_cases hj : j = k
    · simpa [Tab.erase, hj] using ih
    · intro p hp
      simp only [Tab.erase, hj, if_false, List.mem_cons] at hp
      rcases hp with rfl | hp
      · exact hj
      · exact ih p hp

theorem tab_wfFrom_insert {α : Type} [DecidableEq α] (d : Nat → α) (m : Tab α) (a k : Nat) (v : α)
    (hak : a ≤ k) (hv : v ≠ d k) (hf : TabFree m k) (h : Tab.wfFrom d a m = true) :
    Tab.wfFrom d a (Tab.insert m k v) = true := by
  induction m generalizing a with
  | nil => simp [Tab.insert, Tab.wfFrom, hak, hv]
  | cons p m ih =>
    obtain ⟨j, w⟩ := p
    simp only [Tab.wfFrom, Bool.and_eq_true, decide_eq_true_eq] at h
    have hjk : j ≠ k := hf (j, w) (by simp)
    by_cases hlt : k < j
    · simp only [Tab.insert, hlt, if_true, Tab.wfFrom, Bool.and_eq_true, decide_eq_true_eq]
      exact ⟨⟨hak, by simp [hv]⟩, ⟨by omega, h.1.2⟩, h.2⟩
    · simp only [Tab.insert, hlt, if_false, Tab.wfFrom, Bool.and_eq_true, decide_eq_true_eq]
      exact ⟨h.1, ih (j + 1) (by omega) (fun q hq => hf q (List.mem_cons_of_mem _ hq)) h.2⟩

/-- A write keeps the canonical form. -/
theorem tab_wf_set {α : Type} [DecidableEq α] (d : Nat → α) (m : Tab α) (k : Nat) (v : α)
    (h : Tab.wf d m = true) : Tab.wf d (Tab.set d m k v) = true := by
  unfold Tab.set Tab.wf at *
  split
  · exact tab_wfFrom_erase d m 0 k h
  · rename_i hv
    exact tab_wfFrom_insert d _ 0 k v (Nat.zero_le _) hv (tab_erase_free m k) (tab_wfFrom_erase d m 0 k h)

@[simp] theorem tab_wf_nil {α : Type} [DecidableEq α] (d : Nat → α) : Tab.wf d ([] : Tab α) = true := rfl

end Sys2Proof.Laws
end

