-- ==== Sys2Proof/Laws/Since.lean ====
section
/-! SUPPORT. What every command keeps (`Since` of Safety.lean): it is reflexive, every update of a block's own fields
keeps it, and so do the few operations that write memory, registers, open values or outputs. -/

namespace Sys2Proof.Laws

open Sys2Proof
open Sys2Proof.Machine

variable {o s : State}

theorem since_refl (s : State) : Since s s := ⟨rfl, Nat.le_refl _, List.suffix_refl _, id, id⟩

/-- An update of anything but the queue, the registers, memory, the open values and the outputs. -/
theorem since_mk {ecc tb ba bs dl ti gr sc hl re pw ve fh co se dr fa cl sy} :
    Since o ⟨s.pending, s.regs, s.mem, s.freeMem, ecc, tb, ba, bs, dl, ti, gr, sc, hl, re, pw, ve, fh, co, se, dr, fa,
      cl, sy, s.free, s.wire⟩ ↔ Since o s :=
  ⟨fun h => ⟨h.queue, h.free, h.wire, h.mem, h.regs⟩, fun h => ⟨h.queue, h.free, h.wire, h.mem, h.regs⟩⟩

/-- An update of the registers that keeps their canonical form. -/
theorem since_regs (h : Since o s) {r : Tab Word} (hr : Tab.wf resetAt s.regs = true → Tab.wf resetAt r = true)
    {ecc tb ba bs dl ti gr sc hl re pw ve fh co se dr fa cl sy} :
    Since o ⟨s.pending, r, s.mem, s.freeMem, ecc, tb, ba, bs, dl, ti, gr, sc, hl, re, pw, ve, fh, co, se, dr, fa,
      cl, sy, s.free, s.wire⟩ :=
  ⟨h.queue, h.free, h.wire, h.mem, fun x => hr (h.regs x)⟩

/-- A table without the entries that a test picks. -/
theorem tab_wf_filter {α : Type} [DecidableEq α] (d : Nat → α) (p : Nat × α → Bool) (m : Tab α)
    (h : Tab.wf d m = true) : Tab.wf d (m.filter p) = true := by
  have go : ∀ (m : Tab α) (a : Nat), Tab.wfFrom d a m = true → Tab.wfFrom d a (m.filter p) = true := by
    intro m
    induction m with
    | nil => intro a _; rfl
    | cons e m ih =>
      intro a ha
      obtain ⟨k, v⟩ := e
      simp only [Tab.wfFrom, Bool.and_eq_true, decide_eq_true_eq] at ha
      by_cases hp : p (k, v) = true
      · simp only [List.filter_cons, hp, if_true, Tab.wfFrom, Bool.and_eq_true, decide_eq_true_eq]
        exact ⟨ha.1, ih _ ha.2⟩
      · simp only [List.filter_cons, hp]
        exact tab_wfFrom_mono d _ (by omega) (ih _ ha.2)
  exact go m 0 h

theorem tab_wf_setAll {α : Type} [DecidableEq α] (d : Nat → α) (xs : List (Nat × α)) (m : Tab α)
    (h : Tab.wf d m = true) : Tab.wf d (xs.foldl (fun t e => Tab.set d t e.1 e.2) m) = true := by
  induction xs generalizing m with
  | nil => exact h
  | cons x xs ih => exact ih _ (tab_wf_set d m x.1 x.2 h)

/-! ### The operations that write what `Since` speaks of -/

theorem State_setReg_since (h : Since o s) {r v i j} : Since o (s.setReg r v i j) :=
  since_regs h (tab_wf_set resetAt s.regs _ v)

theorem resetRegs_since (h : Since o s) {p} : Since o (resetRegs p s) := since_regs h (tab_wf_filter resetAt _ s.regs)

theorem State_emit_since (h : Since o s) {x} : Since o (s.emit x) :=
  ⟨h.queue, h.free, h.wire.trans (List.suffix_cons x s.wire), h.mem, h.regs⟩

theorem State_used_since (h : Since o s) : Since o s.used :=
  ⟨h.queue, Nat.le_succ_of_le h.free, h.wire, h.mem, h.regs⟩

theorem State_setByte_since (h : Since o s) {a b} : Since o (s.setByte a b) :=
  ⟨h.queue, h.free, h.wire, fun x => tab_wf_set _ s.mem a b (h.mem x), h.regs⟩

/-- Outside a region that is lost, what an unlisted byte reads as stays. -/
theorem memDefault_lose (fr : List FreeRegion) (base len gen a : Nat) (ha : a < base ∨ base + len ≤ a) :
    memDefault (⟨base, len, gen⟩ :: fr.filter fun r => !decide (base ≤ r.base ∧ r.base + r.len ≤ base + len)) a =
      memDefault fr a := by
  unfold memDefault
  have hn : ¬ (base ≤ a ∧ a < base + len) := by omega
  simp only [List.find?_cons, hn, decide_false]
  have : (fr.filter fun r => !decide (base ≤ r.base ∧ r.base + r.len ≤ base + len)).find?
        (fun r => decide (r.base ≤ a ∧ a < r.base + r.len)) = fr.find? fun r => decide (r.base ≤ a ∧ a < r.base + r.len) := by
    induction fr with
    | nil => rfl
    | cons r fr ih =>
      by_cases hin : base ≤ r.base ∧ r.base + r.len ≤ base + len
      · have hr : ¬ (r.base ≤ a ∧ a < r.base + r.len) := by omega
        simp only [List.filter_cons, hin, decide_true, and_self, Bool.not_true, List.find?_cons, hr, decide_false]
        simpa using ih
      · simp only [List.filter_cons, hin, decide_false, Bool.not_false, if_true, List.find?_cons]
        split <;> simp_all
  rw [this]

theorem tab_wf_lose (fr : List FreeRegion) (base len gen : Nat) (m : Tab Byte)
    (h : Tab.wf (memDefault fr) m = true) :
    Tab.wf (memDefault (⟨base, len, gen⟩ :: fr.filter fun r => !decide (base ≤ r.base ∧ r.base + r.len ≤ base + len)))
      (m.filter fun p => decide (p.1 < base ∨ base + len ≤ p.1)) = true := by
  have go : ∀ (m : Tab Byte) (a : Nat), Tab.wfFrom (memDefault fr) a m = true →
      Tab.wfFrom (memDefault (⟨base, len, gen⟩ ::
          fr.filter fun r => !decide (base ≤ r.base ∧ r.base + r.len ≤ base + len))) a
        (m.filter fun p => decide (p.1 < base ∨ base + len ≤ p.1)) = true := by
    intro m
    induction m with
    | nil => intro a _; rfl
    | cons e m ih =>
      intro a ha
      obtain ⟨k, v⟩ := e
      simp only [Tab.wfFrom, Bool.and_eq_true, decide_eq_true_eq] at ha
      by_cases hp : k < base ∨ base + len ≤ k
      · simp only [List.filter_cons, hp, decide_true, if_true, Tab.wfFrom, Bool.and_eq_true, decide_eq_true_eq]
        rw [memDefault_lose fr base len gen k hp]
        exact ⟨ha.1, ih _ ha.2⟩
      · simp only [List.filter_cons, hp, decide_false]
        exact tab_wfFrom_mono _ _ (by omega) (ih _ ha.2)
  exact go m 0 h

theorem State_loseRegion_since (h : Since o s) {base len} : Since o (s.loseRegion base len) :=
  ⟨h.queue, Nat.le_succ_of_le h.free, h.wire, fun x => tab_wf_lose s.freeMem base len s.free s.mem (h.mem x), h.regs⟩

theorem State_setBytes_since (h : Since o s) {a bs} : Since o (s.setBytes a bs) := by
  induction bs generalizing a s with
  | nil => exact h
  | cons b bs ih => exact ih (State_setByte_since h)

/-! ### Shapes of operations -/

theorem since_foldl {α : Type} {f : State → α → State} {xs : List α} (hf : ∀ s x, Since o s → Since o (f s x))
    (h : Since o s) : Since o (xs.foldl f s) := by
  induction xs generalizing s with
  | nil => exact h
  | cons x xs ih => exact ih (hf s x h)

/-- A fold that carries a value beside the state. -/
theorem since_foldl2 {α β : Type} {f : β × State → α → β × State} {xs : List α} {p : β × State}
    (hf : ∀ p x, Since o p.2 → Since o (f p x).2) (h : Since o p.2) : Since o (xs.foldl f p).2 := by
  induction xs generalizing p with
  | nil => exact h
  | cons x xs ih => exact ih (hf p x h)

theorem since_foldl3 {α β γ : Type} {f : β × γ × State → α → β × γ × State} {xs : List α} {p : β × γ × State}
    (hf : ∀ p x, Since o p.2.2 → Since o (f p x).2.2) (h : Since o p.2.2) : Since o (xs.foldl f p).2.2 := by
  induction xs generalizing p with
  | nil => exact h
  | cons x xs ih => exact ih (hf p x h)

theorem since_foldr {α : Type} {f : α → State → State} {xs : List α} (hf : ∀ x s, Since o s → Since o (f x s))
    (h : Since o s) : Since o (xs.foldr f s) := by
  induction xs with
  | nil => exact h
  | cons x xs ih => exact hf x _ ih

theorem since_elim {α : Type} {x : Option α} {f : α → State} (h : Since o s) (hf : ∀ y, Since o (f y)) :
    Since o (x.elim s f) := by
  cases x with
  | none => exact h
  | some y => exact hf y

theorem since_pair {α : Type} {p : α × State} {a : α} (e : p = (a, s)) (h : Since o p.2) : Since o s := by
  rw [e] at h; exact h

theorem since_triple {α β : Type} {p : α × β × State} {a : α} {b : β} (e : p = (a, b, s)) (h : Since o p.2.2) :
    Since o s := by
  rw [e] at h; exact h

theorem since_fst {α : Type} {p : State × α} {a : α} (e : p = (s, a)) (h : Since o p.1) : Since o s := by
  rw [e] at h; exact h

/-- The state of an access, however it ended. -/
def accState {α : Type} : Acc α → State
  | .ok _ s => s
  | .wait s => s
  | .err _ s => s

theorem since_ok {α : Type} {p : Acc α} {a : α} (e : p = .ok a s) (h : Since o (accState p)) : Since o s := by
  rw [e] at h; exact h

theorem since_wait {α : Type} {p : Acc α} (e : p = .wait s) (h : Since o (accState p)) : Since o s := by
  rw [e] at h; exact h

theorem since_err {α : Type} {p : Acc α} {x : MemErr} (e : p = .err x s) (h : Since o (accState p)) : Since o s := by
  rw [e] at h; exact h

/-- What a meaning answers: a next state that keeps all this. -/
def Keeps (o : State) (r : Ans) : Prop := ∃ t, r = .next t ∧ Since o t

theorem keeps_next (h : Since o s) : Keeps o (.next s) := ⟨s, rfl, h⟩

end Sys2Proof.Laws
end

