-- ==== Sys2Proof/Laws/KeepsBase.lean ====
section
/-! SUPPORT. What the operations keep (`Since` of Safety.lean), one lemma for each: the registers, notices, memory, the ledger, the timebase and the bells. A lemma named _since speaks
of an operation on the state, one named _keeps of the meaning of a command. -/

namespace Sys2Proof.Laws

open Sys2Proof
open Sys2Proof.Machine

variable {o s : State}

/-! ### Ops -/

theorem State_flag_since (h : Since o s) {r : RegName} {b i j : Nat} : Since o (State.flag s r b i j) := by
  unfold State.flag
  exact State_setReg_since h

theorem State_setTile_since (h : Since o s) {t : Nat} {x : Tile} : Since o (State.setTile s t x) := by
  unfold State.setTile
  repeat' first | with_reducible assumption | simp only [since_mk]

theorem State_modTile_since (h : Since o s) {t : Nat} {f : Tile → Tile} : Since o (State.modTile s t f) := by
  unfold State.modTile
  exact State_setTile_since h

theorem State_putReg_since (h : Since o s) {r : RegName} {hi lo x i j : Nat} :
    Since o (State.putReg s r hi lo x i j) := by
  unfold State.putReg
  exact State_setReg_since h

theorem State_unflag_since (h : Since o s) {r : RegName} {b i j : Nat} : Since o (State.unflag s r b i j) := by
  unfold State.unflag
  exact State_setReg_since h

theorem State_readPlain_since (h : Since o s) {r : RegName} {i j : Nat} : Since o (State.readPlain s r i j) := by
  unfold State.readPlain
  repeat' first
    | with_reducible assumption | with_reducible apply State_emit_since | with_reducible apply State_setReg_since

theorem State_modCore_since (h : Since o s) {t : Nat} {f : CoreRegs → CoreRegs} : Since o (State.modCore s t f) := by
  unfold State.modCore
  exact State_modTile_since h

theorem State_flagIf_since (h : Since o s) {c : Bool} {r : RegName} {b i j : Nat} :
    Since o (State.flagIf s c r b i j) := by
  unfold State.flagIf
  repeat' first | with_reducible assumption | with_reducible apply State_flag_since | split

theorem State_peekPlain_since (h : Since o s) {r : RegName} {i j : Nat} : Since o (State.peekPlain s r i j) := by
  unfold State.peekPlain
  exact State_emit_since h

theorem State_count_since (h : Since o s) {r : RegName} {hi lo i j k : Nat} :
    Since o (State.count s r hi lo i j k) := by
  unfold State.count
  exact State_setReg_since h

theorem State_writePlain_since (h : Since o s) {r : RegName} {v : Word} {i j : Nat} :
    Since o (State.writePlain s r v i j) := by
  unfold State.writePlain
  exact State_setReg_since h

/-! ### Notify -/

theorem wakeDom_since (h : Since o s) {d : Nat} : Since o (wakeDom d s) := by
  unfold wakeDom
  repeat' first
    | with_reducible assumption | with_reducible apply State_count_since | split | dsimp only [accState, id]
    | simp only [since_mk]

theorem reeveCount_since (h : Since o s) {i k : Nat} : Since o (reeveCount i k s) := by
  unfold reeveCount
  repeat' first | with_reducible assumption | dsimp only [accState, id] | simp only [since_mk]

theorem hostNotify_since (h : Since o s) {f v : Nat} : Since o (hostNotify f v s) := by
  unfold hostNotify
  repeat' first
    | with_reducible assumption | with_reducible apply State_emit_since | with_reducible apply wakeDom_since | split
    | dsimp only [accState, id] | simp only [since_mk]

theorem latchCx_since (h : Since o s) {c : Nat} {bits : BitVec 32} : Since o (latchCx c bits s) := by
  unfold latchCx
  exact State_setReg_since h

theorem evtSaved_since (h : Since o s) {t : Nat} {bits : BitVec 32} : Since o (evtSaved t bits s) := by
  unfold evtSaved
  repeat' first
    | with_reducible assumption | with_reducible apply latchCx_since | with_reducible apply State_modTile_since
    | split

theorem evtOn_since (h : Since o s) {t c : Nat} {bits : BitVec 32} : Since o (evtOn t c bits s) := by
  unfold evtOn
  repeat' first
    | with_reducible assumption | with_reducible apply latchCx_since | with_reducible apply evtSaved_since
    | with_reducible apply State_modCore_since | split

theorem evtOff_since (h : Since o s) {p t : Nat} {bits : BitVec 32} : Since o (evtOff p t bits s) := by
  unfold evtOff
  repeat' first
    | with_reducible assumption | with_reducible apply latchCx_since | with_reducible apply State_flag_since | split

theorem deliverEvt_since (h : Since o s) {p t : Nat} {bits : BitVec 32} : Since o (deliverEvt p t bits s) := by
  unfold deliverEvt
  repeat' first
    | with_reducible assumption | with_reducible apply State_modTile_since | with_reducible apply evtOn_since
    | with_reducible apply evtSaved_since | with_reducible apply evtOff_since | split | dsimp only [accState, id]

theorem wakeTile_since (h : Since o s) {t : Nat} : Since o (wakeTile t s) := by
  unfold wakeTile
  repeat' first | with_reducible assumption | with_reducible apply wakeDom_since | split

theorem deliverEvts_since (h : Since o s) {p : Nat} {ts : List Nat} {bits : BitVec 32} :
    Since o (deliverEvts p ts bits s) := by
  unfold deliverEvts
  repeat' first
    | with_reducible assumption | with_reducible apply deliverEvt_since | with_reducible apply wakeTile_since
    | with_reducible apply since_foldl | intro _

theorem notify_since (h : Since o s) {m : Nat} {bits : BitVec 32} : Since o (notify m bits s) := by
  unfold notify
  repeat' first
    | with_reducible assumption | with_reducible apply State_emit_since | with_reducible apply wakeDom_since
    | with_reducible apply hostNotify_since | with_reducible apply deliverEvts_since | split

theorem setDb_since (h : Since o s) {m : Nat} {bits : BitVec 32} : Since o (setDb m bits s) := by
  unfold setDb
  repeat' first
    | with_reducible assumption | with_reducible apply notify_since | with_reducible apply State_setReg_since

theorem ringDb_since (h : Since o s) {m : Nat} {bits : BitVec 32} : Since o (ringDb m bits s) := by
  unfold ringDb
  repeat' first
    | with_reducible assumption | with_reducible apply State_count_since | with_reducible apply setDb_since | split

theorem ringReg_since (h : Since o s) {r : RegName} {i j : Nat} : Since o (ringReg r i j s) := by
  unfold ringReg
  repeat' first | with_reducible assumption | with_reducible apply ringDb_since | split

theorem errRecord_since (h : Since o s) {code : Nat} {w : Who} {addr aux : Nat} :
    Since o (errRecord code w addr aux s) := by
  unfold errRecord
  repeat' first
    | with_reducible assumption | with_reducible apply State_flag_since | with_reducible apply reeveCount_since
    | with_reducible apply State_setReg_since | with_reducible apply State_count_since
    | with_reducible apply ringReg_since | with_reducible apply State_putReg_since | split
    | dsimp only [accState, id]

/-! ### Contexts -/

theorem modSched_since (h : Since o s) {f : Sched → Sched} : Since o (modSched f s) := by
  unfold modSched
  repeat' first | with_reducible assumption | simp only [since_mk]

theorem modCx_since (h : Since o s) {c : Nat} {f : Cx → Cx} : Since o (modCx c f s) := by
  unfold modCx
  exact modSched_since h

theorem noteCx_since (h : Since o s) {c : Nat} : Since o (noteCx c s) := by
  unfold noteCx
  repeat' first | with_reducible assumption | with_reducible apply modCx_since | split | dsimp only [accState, id]

theorem noteTile_since (h : Since o s) {t : Nat} : Since o (noteTile t s) := by
  unfold noteTile
  repeat' first | with_reducible assumption | with_reducible apply noteCx_since | split

theorem modLaunch_since (h : Since o s) {id : Nat} {f : Launch → Launch} : Since o (modLaunch id f s) := by
  unfold modLaunch
  exact modSched_since h

theorem modPart_since (h : Since o s) {id t : Nat} {f : LTile → LTile} : Since o (modPart id t f s) := by
  unfold modPart
  exact modLaunch_since h

/-! ### Memory -/

theorem State_eccClean_since (h : Since o s) {w : Nat} : Since o (State.eccClean s w) := by
  unfold State.eccClean
  repeat' first | with_reducible assumption | simp only [since_mk]

theorem State_correctWord_since (h : Since o s) {w : Nat} : Since o (State.correctWord s w) := by
  unfold State.correctWord
  repeat' first
    | with_reducible assumption | with_reducible apply State_eccClean_since
    | with_reducible apply State_setByte_since | split

theorem countCorrected_since (h : Since o s) {w : Nat} : Since o (countCorrected w s) := by
  unfold countCorrected
  repeat' first
    | with_reducible assumption | with_reducible apply reeveCount_since | with_reducible apply State_count_since
    | split

theorem storeBytes_since (h : Since o s) {a : Nat} {data : List Byte} : Since o (storeBytes a data s) := by
  unfold storeBytes
  repeat' first
    | with_reducible assumption | with_reducible apply State_correctWord_since
    | with_reducible apply countCorrected_since | with_reducible apply State_eccClean_since
    | with_reducible apply State_setBytes_since | with_reducible apply since_foldl | intro _ | split

theorem memErrRecord_since (h : Since o s) {e : MemErr} {w : Who} {a aux : Nat} :
    Since o (memErrRecord e w a aux s) := by
  unfold memErrRecord
  repeat' first | with_reducible assumption | with_reducible apply errRecord_since | split

theorem t2Lost_since (h : Since o s) {a len : Nat} : Since o (t2Lost a len s).2 := by
  unfold t2Lost
  repeat' first | with_reducible assumption | with_reducible apply State_used_since | split

theorem countUncorr_since (h : Since o s) {a : Nat} : Since o (countUncorr a s) := by
  unfold countUncorr
  repeat' first | with_reducible assumption | with_reducible apply State_count_since | split

theorem wakeFor_since (h : Since o s) {a : Nat} : Since o (wakeFor a s) := by
  unfold wakeFor
  repeat' first
    | with_reducible assumption | with_reducible apply wakeDom_since | with_reducible apply wakeTile_since | split

theorem t2Done_since (h : Since o s) {w : Who} : Since o (t2Done w s) := by
  unfold t2Done
  repeat' first | with_reducible assumption | dsimp only [accState, id] | simp only [since_mk]

theorem State_setPage_since (h : Since o s) {n : Nat} {p : Page} : Since o (State.setPage s n p) := by
  unfold State.setPage
  repeat' first | with_reducible assumption | dsimp only [accState, id] | simp only [since_mk]

theorem touchPage_since (h : Since o s) {n : Nat} : Since o (touchPage n s) := by
  unfold touchPage
  repeat' first
    | with_reducible assumption | with_reducible apply State_setPage_since | split | dsimp only [accState, id]

theorem modSluice_since (h : Since o s) {f : Sluice → Sluice} : Since o (modSluice f s) := by
  unfold modSluice
  repeat' first | with_reducible assumption | dsimp only [accState, id] | simp only [since_mk]

theorem sluiceCharge_since (h : Since o s) {st p len : Nat} : Since o (sluiceCharge st p len s) := by
  unfold sluiceCharge
  exact modSluice_since h

theorem sluiceServed_since (h : Since o s) {w : Who} : Since o (sluiceServed w s) := by
  unfold sluiceServed
  exact modSluice_since h

theorem tierCharge_since (h : Since o s) {w : Who} {a len : Nat} : Since o (tierCharge w a len s) := by
  unfold tierCharge
  repeat' first
    | with_reducible assumption | with_reducible apply wakeFor_since | with_reducible apply t2Done_since
    | with_reducible apply touchPage_since | with_reducible apply sluiceCharge_since
    | with_reducible apply sluiceServed_since | split

theorem readCorrects_since (h : Since o s) {ws : List Nat} : Since o (readCorrects s ws) := by
  unfold readCorrects
  repeat' first
    | with_reducible assumption | with_reducible apply countCorrected_since
    | with_reducible apply State_correctWord_since | with_reducible apply since_foldl | intro _ | split

theorem devRead_since (h : Since o s) {w : Who} {a len aux : Nat} : Since o (devRead w a len aux s).2 := by
  unfold devRead
  repeat' first
    | with_reducible assumption | with_reducible apply memErrRecord_since | with_reducible apply t2Lost_since
    | with_reducible apply countUncorr_since | with_reducible apply tierCharge_since
    | with_reducible apply readCorrects_since | with_reducible apply since_foldl | intro _ | split
    | dsimp only [accState, id]

theorem sluiceHeld_since (h : Since o s) {st p : Nat} : Since o (sluiceHeld st p s) := by
  unfold sluiceHeld
  exact modSluice_since h

theorem sluiceWait_since (h : Since o s) {st p : Nat} {w : Who} {a : Nat} : Since o (sluiceWait st p w a s) := by
  unfold sluiceWait
  repeat' first
    | with_reducible assumption | with_reducible apply modSluice_since | with_reducible apply sluiceHeld_since

theorem holdItem_since (h : Since o s) {n : Nat} {x1 : Held} : Since o (holdItem n x1 s) := by
  unfold holdItem
  repeat' first | with_reducible assumption | dsimp only [accState, id] | simp only [since_mk]

theorem storeHeld_since (h : Since o s) {update : Bool} {a : Nat} {d : List Byte} :
    Since o (storeHeld update a d s) := by
  unfold storeHeld
  repeat' first
    | with_reducible assumption | with_reducible apply holdItem_since | with_reducible apply storeBytes_since
    | split

theorem orDirty_since (h : Since o s) {p n b : Nat} : Since o (orDirty p n b s) := by
  unfold orDirty
  repeat' first
    | with_reducible assumption | with_reducible apply memErrRecord_since | with_reducible apply storeHeld_since | split

theorem dirtyLog_since (h : Since o s) {a : Nat} : Since o (dirtyLog a s) := by
  unfold dirtyLog
  repeat' first
    | with_reducible assumption | with_reducible apply orDirty_since | split | dsimp only [accState, id]

theorem devPut_since (h : Since o s) {update : Bool} {w : Who} {a : Nat} {data : List Byte} {aux : Nat} :
    Since o (devPut update w a data aux s).2 := by
  unfold devPut
  repeat' first
    | with_reducible assumption | with_reducible apply memErrRecord_since | with_reducible apply t2Lost_since
    | with_reducible apply storeHeld_since | with_reducible apply tierCharge_since
    | with_reducible apply dirtyLog_since | with_reducible apply since_foldl | intro _ | split
    | dsimp only [accState, id]

theorem devWrite_since (h : Since o s) {w : Who} {a : Nat} {data : List Byte} {aux : Nat} :
    Since o (devWrite w a data aux s).2 := by
  unfold devWrite
  repeat' first | with_reducible assumption | with_reducible apply devPut_since

theorem devUpdate_since (h : Since o s) {w : Who} {a : Nat} {data : List Byte} {aux : Nat} :
    Since o (devUpdate w a data aux s).2 := by
  unfold devUpdate
  repeat' first | with_reducible assumption | with_reducible apply devPut_since

theorem t2Wait_since (h : Since o s) {w : Who} {a len : Nat} : Since o (t2Wait w a len s) := by
  unfold t2Wait
  repeat' first | with_reducible assumption | dsimp only [accState, id] | simp only [since_mk]

/-- What a gate that stops an access leaves. -/
theorem tierGate_since {w : Who} {a len : Nat} (h : Since o s) : ∀ x, tierGate w a len s = some x → Since o (accState x) := by
  intro x e
  unfold tierGate at e
  split at e
  · split at e
    · cases e; exact t2Wait_since h
    · cases e; exact t2Done_since h
    · split at e
      · split at e
        · cases e
        · cases e; exact sluiceWait_since h
      · cases e
  · cases e

theorem gate_wait {w : Who} {a len : Nat} {t : State} (e : tierGate w a len s = some (.wait t)) (h : Since o s) : Since o t :=
  tierGate_since h _ e

theorem gate_err {w : Who} {a len : Nat} {x : MemErr} {t : State} (e : tierGate w a len s = some (.err x t)) (h : Since o s) :
    Since o t := tierGate_since h _ e

theorem gate_ok {w : Who} {a len : Nat} {x : Unit} {t : State} (e : tierGate w a len s = some (.ok x t)) (h : Since o s) :
    Since o t := tierGate_since h _ e

theorem writeMem_since (h : Since o s) {w : Who} {a : Nat} {data : List Byte} {aux : Nat} :
    Since o (accState (writeMem w a data aux s)) := by
  unfold writeMem
  repeat' first
    | with_reducible assumption | with_reducible apply memErrRecord_since | with_reducible apply tierCharge_since
    | with_reducible apply dirtyLog_since | with_reducible apply holdItem_since
    | with_reducible apply storeBytes_since | (refine gate_wait (by with_reducible assumption) ?_)
    | (refine gate_err (by with_reducible assumption) ?_) | (refine gate_ok (by with_reducible assumption) ?_)
    | split | (refine since_ok (by with_reducible assumption) ?_)
    | (refine since_wait (by with_reducible assumption) ?_) | (refine since_err (by with_reducible assumption) ?_)
    | dsimp only [accState, id]

theorem readMem_since (h : Since o s) {w : Who} {a len aux : Nat} : Since o (accState (readMem w a len aux s)) := by
  unfold readMem
  repeat' first
    | with_reducible assumption | with_reducible apply memErrRecord_since | with_reducible apply countUncorr_since
    | with_reducible apply tierCharge_since | with_reducible apply readCorrects_since
    | (refine gate_wait (by with_reducible assumption) ?_) | (refine gate_err (by with_reducible assumption) ?_)
    | (refine gate_ok (by with_reducible assumption) ?_) | split | dsimp only [accState, id]

theorem State_setEcc_since (h : Since o s) {w : Nat} {d : BitVec 32} : Since o (State.setEcc s w d) := by
  unfold State.setEcc
  repeat' first | with_reducible assumption | simp only [since_mk]

/-! ### Ledger -/

theorem ledgerUpdate_since (h : Since o s) {c : Nat} {n : Int} {ns : Nat} {f : Word → Word} :
    Since o (ledgerUpdate c n ns f s) := by
  unfold ledgerUpdate
  repeat' first
    | with_reducible assumption | with_reducible apply State_flag_since | with_reducible apply devWrite_since
    | split

theorem ledgerBits_since (h : Since o s) {c : Nat} {n : Int} {ns : Nat} {bits : List Nat} :
    Since o (ledgerBits c n ns bits s) := by
  unfold ledgerBits
  exact ledgerUpdate_since h

theorem ledgerLive_since (h : Since o s) {touches : Live → Bool} {bits : List Nat} :
    Since o (ledgerLive touches bits s) := by
  unfold ledgerLive
  repeat' first
    | with_reducible assumption | with_reducible apply ledgerBits_since | with_reducible apply since_foldl | intro _

theorem faultLive_since (h : Since o s) : Since o (faultLive s) := by
  unfold faultLive
  exact ledgerLive_since h

theorem portLive_since (h : Since o s) {port : Nat} {bits : List Nat} : Since o (portLive port bits s) := by
  unfold portLive
  exact ledgerLive_since h

theorem faultOf_since (h : Since o s) {p : Option Nat} : Since o (faultOf p s) := by
  unfold faultOf
  repeat' first | with_reducible assumption | with_reducible apply faultLive_since | split

theorem planLive_since (h : Since o s) : Since o (planLive s) := by
  unfold planLive
  exact ledgerLive_since h

/-! ### Time -/

theorem tbPortPtpWrite_since (h : Since o s) {p : Nat} {v : Word} : Since o (tbPortPtpWrite p v s) := by
  unfold tbPortPtpWrite
  repeat' first
    | with_reducible assumption | with_reducible apply State_writePlain_since | split | dsimp only [accState, id]

theorem markStepped_since (h : Since o s) {before after : Nat} : Since o (markStepped before after s) := by
  unfold markStepped
  repeat' first
    | with_reducible assumption | with_reducible apply since_foldl | intro _ | split | dsimp only [accState, id]
    | simp only [since_mk]

theorem stepTaken_since (h : Since o s) : Since o (stepTaken s) := by
  unfold stepTaken
  repeat' first
    | with_reducible assumption | with_reducible apply State_flag_since | with_reducible apply markStepped_since
    | simp only [since_mk]

theorem tbSnap_since (h : Since o s) {v : Word} : Since o (tbSnap v s) := by
  unfold tbSnap
  repeat' first | with_reducible assumption | with_reducible apply State_setReg_since | split

theorem execTbSnap_keeps (h : Since o s) {v : Word} : Keeps o (execTbSnap v s) := by
  unfold execTbSnap
  apply keeps_next
  exact tbSnap_since h

theorem ppsInEdge_since (h : Since o s) : Since o (ppsInEdge s) := by
  unfold ppsInEdge
  repeat' first
    | with_reducible assumption | with_reducible apply State_setReg_since | with_reducible apply State_flag_since
    | split | dsimp only [accState, id] | simp only [since_mk]

theorem execPpsInEdge_keeps (h : Since o s) : Keeps o (execPpsInEdge s) := by
  unfold execPpsInEdge
  apply keeps_next
  exact ppsInEdge_since h

theorem setLock_since (h : Since o s) {l : LockState} : Since o (setLock l s) := by
  unfold setLock
  repeat' first
    | with_reducible assumption | with_reducible apply State_flag_since | with_reducible apply ledgerLive_since
    | split | dsimp only [accState, id] | simp only [since_mk]

theorem holdTimeout_since (h : Since o s) : Since o (holdTimeout s) := by
  unfold holdTimeout
  repeat' first | with_reducible assumption | with_reducible apply setLock_since | split

theorem ppsOutEdge_since (h : Since o s) : Since o (ppsOutEdge s) := by
  unfold ppsOutEdge
  repeat' first
    | with_reducible assumption | with_reducible apply State_emit_since | split | dsimp only [accState, id]
    | simp only [since_mk]

theorem execPpsOutEdge_keeps (h : Since o s) : Keeps o (execPpsOutEdge s) := by
  unfold execPpsOutEdge
  apply keeps_next
  exact ppsOutEdge_since h

theorem fsrcFollow_since (h : Since o s) : Since o (fsrcFollow s) := by
  unfold fsrcFollow
  repeat' first
    | with_reducible assumption | with_reducible apply State_unflag_since | with_reducible apply State_putReg_since
    | dsimp only [accState, id] | simp only [since_mk]

theorem fsrcRelock_since (h : Since o s) : Since o (fsrcRelock s) := by
  unfold fsrcRelock
  repeat' first | with_reducible assumption | with_reducible apply fsrcFollow_since | split

theorem execFsrcRelock_keeps (h : Since o s) : Keeps o (execFsrcRelock s) := by
  unfold execFsrcRelock
  apply keeps_next
  exact fsrcRelock_since h

theorem tbRateWrite_since (h : Since o s) {v : Word} : Since o (tbRateWrite v s) := by
  unfold tbRateWrite
  repeat' first
    | with_reducible assumption | with_reducible apply State_writePlain_since
    | with_reducible apply State_flag_since | split | dsimp only [accState, id] | simp only [since_mk]

theorem tsStatRead_since (h : Since o s) {p : Nat} : Since o (tsStatRead p s) := by
  unfold tsStatRead
  repeat' first
    | with_reducible assumption | with_reducible apply State_emit_since | with_reducible apply State_putReg_since

theorem fsrcLoss_since (h : Since o s) : Since o (fsrcLoss s) := by
  unfold fsrcLoss
  repeat' first
    | with_reducible assumption | with_reducible apply State_flag_since | with_reducible apply State_putReg_since
    | dsimp only [accState, id] | simp only [since_mk]

theorem tbSlewMaxWrite_since (h : Since o s) {v : Word} : Since o (tbSlewMaxWrite v s) := by
  unfold tbSlewMaxWrite
  repeat' first
    | with_reducible assumption | with_reducible apply State_setReg_since | dsimp only [accState, id]
    | simp only [since_mk]

theorem execTbSlewMaxWrite_keeps (h : Since o s) {v : Word} : Keeps o (execTbSlewMaxWrite v s) := by
  unfold execTbSlewMaxWrite
  apply keeps_next
  exact tbSlewMaxWrite_since h

theorem tbCtlWrite_since (h : Since o s) {v : Word} : Since o (tbCtlWrite v s) := by
  unfold tbCtlWrite
  repeat' first
    | with_reducible assumption | with_reducible apply State_writePlain_since | with_reducible apply setLock_since
    | split | dsimp only [accState, id]

theorem execHoldover_keeps (h : Since o s) {guard : Bool} : Keeps o (execHoldover guard s) := by
  unfold execHoldover
  apply keeps_next
  exact tbCtlWrite_since h

theorem State_setTsFifo_since (h : Since o s) {p : Nat} {q : List (Word × Word)} :
    Since o (State.setTsFifo s p q) := by
  unfold State.setTsFifo
  repeat' first | with_reducible assumption | dsimp only [accState, id] | simp only [since_mk]

theorem tsLoRead_since (h : Since o s) {p : Nat} : Since o (tsLoRead p s) := by
  unfold tsLoRead
  repeat' first
    | with_reducible assumption | with_reducible apply State_emit_since | with_reducible apply State_setTsFifo_since
    | split

theorem execTbPortTsLoRead_keeps (h : Since o s) {port : Fin 16} : Keeps o (execTbPortTsLoRead port s) := by
  unfold execTbPortTsLoRead
  apply keeps_next
  exact tsLoRead_since h

theorem tbFsrcWrite_since (h : Since o s) {v : Word} : Since o (tbFsrcWrite v s) := by
  unfold tbFsrcWrite
  repeat' first
    | with_reducible assumption | with_reducible apply State_writePlain_since
    | with_reducible apply fsrcFollow_since | split | dsimp only [accState, id]

theorem ppsOutPulseEnd_since (h : Since o s) : Since o (ppsOutPulseEnd s) := by
  unfold ppsOutPulseEnd
  repeat' first
    | with_reducible assumption | with_reducible apply State_emit_since | split | dsimp only [accState, id]
    | simp only [since_mk]

theorem tbStepGo_since (h : Since o s) {v : Word} : Since o (tbStepGo v s) := by
  unfold tbStepGo
  repeat' first | with_reducible assumption | split | dsimp only [accState, id] | simp only [since_mk]

theorem execTbStepGo_keeps (h : Since o s) {v : Word} : Keeps o (execTbStepGo v s) := by
  unfold execTbStepGo
  apply keeps_next
  exact tbStepGo_since h

theorem tbAdjWrite_since (h : Since o s) {v : Word} : Since o (tbAdjWrite v s) := by
  unfold tbAdjWrite
  repeat' first
    | with_reducible assumption | with_reducible apply State_flagIf_since | with_reducible apply setLock_since
    | dsimp only [accState, id] | simp only [since_mk]

theorem execAcquire_keeps (h : Since o s) {guard : Bool} : Keeps o (execAcquire guard s) := by
  unfold execAcquire
  apply keeps_next
  exact tbCtlWrite_since h

theorem execTbPortTsStatRead_keeps (h : Since o s) {port : Fin 16} : Keeps o (execTbPortTsStatRead port s) := by
  unfold execTbPortTsStatRead
  apply keeps_next
  exact tsStatRead_since h

theorem stepEval_since (h : Since o s) : Since o (stepEval s) := by
  unfold stepEval
  repeat' first
    | with_reducible assumption | with_reducible apply stepTaken_since | with_reducible apply State_flag_since
    | split | dsimp only [accState, id] | simp only [since_mk]

theorem execTbRateWrite_keeps (h : Since o s) {v : Word} : Keeps o (execTbRateWrite v s) := by
  unfold execTbRateWrite
  apply keeps_next
  exact tbRateWrite_since h

theorem execTbAdjWrite_keeps (h : Since o s) {v : Word} : Keeps o (execTbAdjWrite v s) := by
  unfold execTbAdjWrite
  apply keeps_next
  exact tbAdjWrite_since h

theorem execPpsOutPulseEnd_keeps (h : Since o s) : Keeps o (execPpsOutPulseEnd s) := by
  unfold execPpsOutPulseEnd
  apply keeps_next
  exact ppsOutPulseEnd_since h

theorem tsPush_since (h : Since o s) {p : Nat} {egress : Bool} {msg seq dom ns sub : Nat} :
    Since o (tsPush p egress msg seq dom ns sub s) := by
  unfold tsPush
  repeat' first
    | with_reducible assumption | with_reducible apply State_flag_since | with_reducible apply State_count_since
    | with_reducible apply State_setTsFifo_since | split

theorem refTick_since (h : Since o s) : Since o (refTick s) := by
  unfold refTick
  repeat' first
    | with_reducible assumption | with_reducible apply stepEval_since | split | dsimp only [accState, id]
    | simp only [since_mk]

theorem execFsrcLoss_keeps (h : Since o s) : Keeps o (execFsrcLoss s) := by
  unfold execFsrcLoss
  apply keeps_next
  exact fsrcLoss_since h

theorem execHoldTimeout_keeps (h : Since o s) : Keeps o (execHoldTimeout s) := by
  unfold execHoldTimeout
  apply keeps_next
  exact holdTimeout_since h

theorem execFreerun_keeps (h : Since o s) {guard : Bool} : Keeps o (execFreerun guard s) := by
  unfold execFreerun
  apply keeps_next
  exact tbCtlWrite_since h

/-! ### Bells -/

theorem withDelivery_since (h : Since o s) {a : Nat} {f : Delivery → State → State}
    (hf : ∀ y0 s, Since o s → Since o (f y0 s)) :
    Since o (withDelivery a f s) := by
  unfold withDelivery
  repeat' first | with_reducible assumption | with_reducible apply hf | split | simp only [since_mk]

theorem execEvent_keeps (h : Since o s) : Keeps o (execEvent s) := by
  unfold execEvent
  apply keeps_next
  repeat' first
    | with_reducible assumption | with_reducible apply withDelivery_since | with_reducible apply deliverEvts_since
    | intro _

theorem disarmBell_since (h : Since o s) {x0 n : Nat} : Since o (disarmBell x0 n s) := by
  unfold disarmBell
  exact State_unflag_since h

theorem recordFire_since (h : Since o s) {x0 n : Nat} {late dropped denied : Bool} :
    Since o (recordFire x0 n late dropped denied s) := by
  unfold recordFire
  repeat' first
    | with_reducible assumption | with_reducible apply State_putReg_since | with_reducible apply State_flag_since
    | with_reducible apply State_count_since | with_reducible apply planLive_since | split
    | dsimp only [accState, id]

theorem advanceBell_since (h : Since o s) {x0 n : Nat} : Since o (advanceBell x0 n s) := by
  unfold advanceBell
  repeat' first
    | with_reducible assumption | with_reducible apply disarmBell_since | with_reducible apply State_setReg_since
    | with_reducible apply State_putReg_since | split | dsimp only [accState, id] | simp only [since_mk]

theorem fireBell_since (h : Since o s) {x0 n : Nat} : Since o (fireBell x0 n s) := by
  unfold fireBell
  repeat' first
    | with_reducible assumption | with_reducible apply recordFire_since | with_reducible apply advanceBell_since
    | split | simp only [since_mk]

theorem fireDue_since (h : Since o s) {x0 x1 : Nat} : Since o (fireDue x0 x1 s) := by
  induction x1 generalizing s x0 with
  | zero =>
    first | rw [fireDue] | unfold fireDue
    repeat' first | with_reducible assumption
  | succ n ih =>
    first | rw [fireDue] | unfold fireDue
    repeat' first | with_reducible assumption | with_reducible apply ih | with_reducible apply fireBell_since | split

theorem disarmNow_since (h : Since o s) {x0 n : Nat} : Since o (disarmNow x0 n s) := by
  unfold disarmNow
  repeat' first
    | with_reducible assumption | with_reducible apply disarmBell_since | with_reducible apply fireDue_since | split

theorem disbOp_since (h : Since o s) {t part : Nat} {sel : Word} : Since o (disbOp t part sel s).2 := by
  unfold disbOp
  repeat' first | with_reducible assumption | with_reducible apply disarmNow_since | split | dsimp only [accState, id]

theorem execBellFire_keeps (h : Since o s) {x0 : Fin 9} {n : Fin 64} : Keeps o (execBellFire x0 n s) := by
  unfold execBellFire
  apply keeps_next
  exact fireBell_since h

theorem execWake_keeps (h : Since o s) : Keeps o (execWake s) := by
  unfold execWake
  apply keeps_next
  repeat' first
    | with_reducible assumption | with_reducible apply withDelivery_since | with_reducible apply wakeTile_since
    | with_reducible apply since_foldl | intro _

theorem bellWordWrite_since (h : Since o s) {r : RegName} {x1 n : Nat} {v : Word} :
    Since o (bellWordWrite r x1 n v s) := by
  unfold bellWordWrite
  repeat' first | with_reducible assumption | with_reducible apply State_writePlain_since | split

theorem armRefused_since (h : Since o s) {x0 n last : Nat} : Since o (armRefused x0 n last s) := by
  unfold armRefused
  repeat' first
    | with_reducible assumption | with_reducible apply State_putReg_since | with_reducible apply State_flag_since
    | with_reducible apply State_count_since | with_reducible apply planLive_since | split
    | dsimp only [accState, id]

theorem armNow_since (h : Since o s) {x0 n : Nat} : Since o (armNow x0 n s) := by
  unfold armNow
  repeat' first
    | with_reducible assumption | with_reducible apply State_flag_since | dsimp only [accState, id]
    | simp only [since_mk]

theorem armBell_since (h : Since o s) {x0 n : Nat} : Since o (armBell x0 n s) := by
  unfold armBell
  repeat' first
    | with_reducible assumption | with_reducible apply armRefused_since | with_reducible apply armNow_since | split

theorem bellCtlWrite_since (h : Since o s) {x0 n : Nat} {v : Word} : Since o (bellCtlWrite x0 n v s) := by
  unfold bellCtlWrite
  repeat' first
    | with_reducible assumption | with_reducible apply disarmNow_since | with_reducible apply State_writePlain_since
    | with_reducible apply armBell_since | split

theorem execDisarm_keeps (h : Since o s) {x0 : Fin 9} {n : Fin 64} {v : Word} : Keeps o (execDisarm x0 n v s) := by
  unfold execDisarm
  apply keeps_next
  exact bellCtlWrite_since h

theorem refusePermission_since (h : Since o s) : Since o (refusePermission s) := by
  unfold refusePermission
  exact State_emit_since h

theorem execArm_keeps (h : Since o s) {x0 : Fin 9} {n : Fin 64} {v : Word} : Keeps o (execArm x0 n v s) := by
  unfold execArm
  apply keeps_next
  exact bellCtlWrite_since h

theorem execDoorbell_keeps (h : Since o s) : Keeps o (execDoorbell s) := by
  unfold execDoorbell
  apply keeps_next
  repeat' first
    | with_reducible assumption | with_reducible apply withDelivery_since | with_reducible apply ringDb_since
    | intro _

theorem bellStatRead_since (h : Since o s) {ag : Agent} {x1 : Nat} : Since o (bellStatRead ag x1 s) := by
  unfold bellStatRead
  repeat' first
    | with_reducible assumption | with_reducible apply State_readPlain_since
    | with_reducible apply State_peekPlain_since | with_reducible apply refusePermission_since | split

theorem execBellStatRead_keeps (h : Since o s) {ag : Agent} {x1 : Fin 9} : Keeps o (execBellStatRead ag x1 s) := by
  unfold execBellStatRead
  apply keeps_next
  exact bellStatRead_since h

theorem armbOp_since (h : Since o s) {t part : Nat} {sel time act : Word} :
    Since o (armbOp t part sel time act s).2 := by
  unfold armbOp
  repeat' first
    | with_reducible assumption | with_reducible apply armRefused_since | with_reducible apply State_setReg_since
    | with_reducible apply State_writePlain_since | with_reducible apply armNow_since
    | with_reducible apply State_putReg_since | split | dsimp only [accState, id]

/-! ### Regions -/

theorem usedIfBusy_since (h : Since o s) {t : Nat} {as : List Nat} : Since o (usedIfBusy t as s) := by
  unfold usedIfBusy
  repeat' first | with_reducible assumption | with_reducible apply State_used_since | split

end Sys2Proof.Laws
end

