-- ==== Sys2Proof/Laws/KeepsTile.lean ====
section
/-! SUPPORT. What the operations keep (`Since` of Safety.lean), one lemma for each: the instructions of a tile and its arrays. A lemma named _since speaks
of an operation on the state, one named _keeps of the meaning of a command. -/

namespace Sys2Proof.Laws

open Sys2Proof
open Sys2Proof.Machine

variable {o s : State}

/-! ### Tile -/

theorem endLoop_since (h : Since o s) {t : Nat} : Since o (endLoop t s) := by
  unfold endLoop
  repeat' first | with_reducible assumption | with_reducible apply State_modCore_since | split

theorem showException_since (h : Since o s) {t cause : Nat} {epc eaddr : Word} :
    Since o (showException t cause epc eaddr s) := by
  unfold showException
  repeat' first | with_reducible assumption | with_reducible apply State_setReg_since

theorem doubleFault_since (h : Since o s) {t cause addr : Nat} : Since o (doubleFault t cause addr s) := by
  unfold doubleFault
  repeat' first
    | with_reducible assumption | with_reducible apply State_modTile_since
    | with_reducible apply showException_since | with_reducible apply faultOf_since
    | with_reducible apply errRecord_since

theorem takeException_since (h : Since o s) {t cause addr : Nat} : Since o (takeException t cause addr s) := by
  unfold takeException
  repeat' first
    | with_reducible assumption | with_reducible apply doubleFault_since | with_reducible apply State_modTile_since
    | with_reducible apply showException_since | split

theorem fillLoop_since (h : Since o s) {t : Nat} : Since o (fillLoop t s) := by
  unfold fillLoop
  repeat' first
    | with_reducible assumption | with_reducible apply State_modTile_since | split | dsimp only [accState, id]

/-- The state that a fetch leaves. -/
def fetchState : Fetch → State
  | .go s => s
  | .wait s => s
  | .cause _ _ s => s

theorem fetchBad_since (h : Since o s) {t a : Nat} : Since o (fetchState (fetchBad t a s)) :=
  faultOf_since (memErrRecord_since h)

theorem fetchLine_since (h : Since o s) {t a : Nat} : Since o (fetchState (fetchLine t a s)) := by
  unfold fetchLine
  dsimp only
  split
  · next e => exact fetchBad_since (gate_err e h)
  · next e => exact gate_wait e h
  · next e => exact gate_ok e h
  · split
    · exact h
    · split
      · exact fetchBad_since (countUncorr_since h)
      · split
        · dsimp only [fetchState]; exact tierCharge_since (readCorrects_since h)
        · dsimp only [fetchState]; exact State_used_since (State_modTile_since (tierCharge_since (readCorrects_since h)))

theorem fetchParcel_since (h : Since o s) {t a : Nat} : Since o (fetchState (fetchParcel t a s)) := by
  unfold fetchParcel
  repeat' split
  all_goals first | exact h | exact fetchLine_since h

theorem fetchInstr_since (h : Since o s) {t n : Nat} : Since o (fetchState (fetchInstr t n s)) := by
  unfold fetchInstr
  dsimp only
  split
  · exact h
  · have hp := fetchParcel_since h (t := t) (a := (s.core t).pc.toNat)
    split
    · next e =>
      rw [e] at hp
      split
      · exact hp
      · exact fetchParcel_since hp
    · exact hp

theorem runParcels_since (h : Since o s) {t n : Nat} {bodyOk : Bool} {f : State → State}
    (hf : ∀ s, Since o s → Since o (f s)) :
    Since o (runParcels t n bodyOk f s) := by
  unfold runParcels
  split
  · exact h
  · have hp := fetchInstr_since (endLoop_since h (t := t)) (t := t) (n := n)
    split
    · next e => rw [e] at hp; exact hp
    · next e => rw [e] at hp; exact takeException_since hp
    · next e =>
      rw [e] at hp
      repeat' split
      · exact hf _ (fillLoop_since hp)
      · exact takeException_since hp
      · exact hf _ hp

theorem runInstr_since (h : Since o s) {t : Nat} {bodyOk : Bool} {f : State → State}
    (hf : ∀ s, Since o s → Since o (f s)) :
    Since o (runInstr t bodyOk f s) := by
  unfold runInstr
  repeat' first | with_reducible assumption | with_reducible apply runParcels_since

theorem simple_since (h : Since o s) {t : Nat} {bodyOk : Bool} {f : CoreRegs → CoreRegs} :
    Since o (simple t bodyOk f s) := by
  unfold simple
  repeat' first
    | with_reducible assumption | with_reducible apply runInstr_since | with_reducible apply State_modCore_since
    | intro _

theorem toG_since (h : Since o s) {t d : Nat} {f : CoreRegs → Word} : Since o (toG t d f s) := by
  unfold toG
  exact simple_since h

theorem execLoopEnd_keeps (h : Since o s) {t : Fin 128} : Keeps o (execLoopEnd t s) := by
  unfold execLoopEnd
  apply keeps_next
  exact endLoop_since h

theorem runLong_since (h : Since o s) {t : Nat} {f : State → State} (hf : ∀ s, Since o s → Since o (f s)) :
    Since o (runLong t f s) := by
  unfold runLong
  repeat' first | with_reducible assumption | with_reducible apply runParcels_since

theorem execEret_keeps (h : Since o s) {t : Fin 128} : Keeps o (execEret t s) := by
  unfold execEret
  apply keeps_next
  repeat' first
    | with_reducible assumption | with_reducible apply runInstr_since | with_reducible apply State_modCore_since
    | with_reducible apply takeException_since | intro _ | split

theorem execBrk_keeps (h : Since o s) {t : Fin 128} : Keeps o (execBrk t s) := by
  unfold execBrk
  apply keeps_next
  repeat' first
    | with_reducible assumption | with_reducible apply runInstr_since | with_reducible apply takeException_since
    | intro _

theorem illegal_since (h : Since o s) {t : Nat} : Since o (illegal t s) := by
  unfold illegal
  exact takeException_since h

/-! ### Scalar -/

theorem aluR_since (h : Since o s) {t d a b : Nat} {f : Word → Word → Word} : Since o (aluR t d a b f s) := by
  unfold aluR
  exact toG_since h

theorem execMulh_keeps (h : Since o s) {t : Fin 128} {d a b : Fin 64} : Keeps o (execMulh t d a b s) := by
  unfold execMulh
  apply keeps_next
  exact aluR_since h

theorem branchIf_since (h : Since o s) {t a b : Nat} {off : BitVec 14} {f : Word → Word → Bool} :
    Since o (branchIf t a b off f s) := by
  unfold branchIf
  repeat' first
    | with_reducible assumption | with_reducible apply runInstr_since | with_reducible apply State_modCore_since
    | intro _

theorem shiftI_since (h : Since o s) {t d a : Nat} {imm : BitVec 14} {f : Word → Nat → Word} :
    Since o (shiftI t d a imm f s) := by
  unfold shiftI
  repeat' first
    | with_reducible assumption | with_reducible apply runInstr_since | with_reducible apply illegal_since
    | with_reducible apply State_modCore_since | intro _ | split

theorem execShri_keeps (h : Since o s) {t : Fin 128} {d a : Fin 64} {imm : BitVec 14} :
    Keeps o (execShri t d a imm s) := by
  unfold execShri
  apply keeps_next
  exact shiftI_since h

theorem aluI_since (h : Since o s) {t d a : Nat} {i : Word} {f : Word → Word → Word} :
    Since o (aluI t d a i f s) := by
  unfold aluI
  exact toG_since h

theorem execSltiu_keeps (h : Since o s) {t : Fin 128} {d a : Fin 64} {imm : BitVec 14} :
    Keeps o (execSltiu t d a imm s) := by
  unfold execSltiu
  apply keeps_next
  exact aluI_since h

theorem execSub_keeps (h : Since o s) {t : Fin 128} {d a b : Fin 64} : Keeps o (execSub t d a b s) := by
  unfold execSub
  apply keeps_next
  exact aluR_since h

theorem execShli_keeps (h : Since o s) {t : Fin 128} {d a : Fin 64} {imm : BitVec 14} :
    Keeps o (execShli t d a imm s) := by
  unfold execShli
  apply keeps_next
  exact shiftI_since h

theorem execSltu_keeps (h : Since o s) {t : Fin 128} {d a b : Fin 64} : Keeps o (execSltu t d a b s) := by
  unfold execSltu
  apply keeps_next
  exact aluR_since h

theorem countR_since (h : Since o s) {t d a : Nat} {f : Word → Nat} : Since o (countR t d a f s) := by
  unfold countR
  exact toG_since h

theorem execClz_keeps (h : Since o s) {t : Fin 128} {d a : Fin 64} : Keeps o (execClz t d a s) := by
  unfold execClz
  apply keeps_next
  exact countR_since h

theorem execMinu_keeps (h : Since o s) {t : Fin 128} {d a b : Fin 64} : Keeps o (execMinu t d a b s) := by
  unfold execMinu
  apply keeps_next
  exact aluR_since h

theorem execMul_keeps (h : Since o s) {t : Fin 128} {d a b : Fin 64} : Keeps o (execMul t d a b s) := by
  unfold execMul
  apply keeps_next
  exact aluR_since h

theorem execLui_keeps (h : Since o s) {t : Fin 128} {d : Fin 64} {imm : BitVec 20} :
    Keeps o (execLui t d imm s) := by
  unfold execLui
  apply keeps_next
  exact toG_since h

theorem execAnd_keeps (h : Since o s) {t : Fin 128} {d a b : Fin 64} : Keeps o (execAnd t d a b s) := by
  unfold execAnd
  apply keeps_next
  exact aluR_since h

theorem execJalr_keeps (h : Since o s) {t : Fin 128} {d a : Fin 64} {imm : BitVec 14} :
    Keeps o (execJalr t d a imm s) := by
  unfold execJalr
  apply keeps_next
  repeat' first
    | with_reducible assumption | with_reducible apply runInstr_since | with_reducible apply State_modCore_since
    | intro _

theorem execAndi_keeps (h : Since o s) {t : Fin 128} {d a : Fin 64} {imm : BitVec 14} :
    Keeps o (execAndi t d a imm s) := by
  unfold execAndi
  apply keeps_next
  exact aluI_since h

theorem execShr_keeps (h : Since o s) {t : Fin 128} {d a b : Fin 64} : Keeps o (execShr t d a b s) := by
  unfold execShr
  apply keeps_next
  exact aluR_since h

theorem execSrai_keeps (h : Since o s) {t : Fin 128} {d a : Fin 64} {imm : BitVec 14} :
    Keeps o (execSrai t d a imm s) := by
  unfold execSrai
  apply keeps_next
  exact shiftI_since h

theorem execBne_keeps (h : Since o s) {t : Fin 128} {a b : Fin 64} {off : BitVec 14} :
    Keeps o (execBne t a b off s) := by
  unfold execBne
  apply keeps_next
  exact branchIf_since h

theorem execDiv_keeps (h : Since o s) {t : Fin 128} {d a b : Fin 64} : Keeps o (execDiv t d a b s) := by
  unfold execDiv
  apply keeps_next
  exact aluR_since h

theorem execBge_keeps (h : Since o s) {t : Fin 128} {a b : Fin 64} {off : BitVec 14} :
    Keeps o (execBge t a b off s) := by
  unfold execBge
  apply keeps_next
  exact branchIf_since h

theorem execXori_keeps (h : Since o s) {t : Fin 128} {d a : Fin 64} {imm : BitVec 14} :
    Keeps o (execXori t d a imm s) := by
  unfold execXori
  apply keeps_next
  exact aluI_since h

theorem execJ_keeps (h : Since o s) {t : Fin 128} {off : BitVec 26} : Keeps o (execJ t off s) := by
  unfold execJ
  apply keeps_next
  repeat' first
    | with_reducible assumption | with_reducible apply runInstr_since | with_reducible apply State_modCore_since
    | intro _

theorem execJal_keeps (h : Since o s) {t : Fin 128} {off : BitVec 26} : Keeps o (execJal t off s) := by
  unfold execJal
  apply keeps_next
  repeat' first
    | with_reducible assumption | with_reducible apply runInstr_since | with_reducible apply State_modCore_since
    | intro _

theorem execBlt_keeps (h : Since o s) {t : Fin 128} {a b : Fin 64} {off : BitVec 14} :
    Keeps o (execBlt t a b off s) := by
  unfold execBlt
  apply keeps_next
  exact branchIf_since h

theorem execOri_keeps (h : Since o s) {t : Fin 128} {d a : Fin 64} {imm : BitVec 14} :
    Keeps o (execOri t d a imm s) := by
  unfold execOri
  apply keeps_next
  exact aluI_since h

theorem execXor_keeps (h : Since o s) {t : Fin 128} {d a b : Fin 64} : Keeps o (execXor t d a b s) := by
  unfold execXor
  apply keeps_next
  exact aluR_since h

theorem execOr_keeps (h : Since o s) {t : Fin 128} {d a b : Fin 64} : Keeps o (execOr t d a b s) := by
  unfold execOr
  apply keeps_next
  exact aluR_since h

theorem execShl_keeps (h : Since o s) {t : Fin 128} {d a b : Fin 64} : Keeps o (execShl t d a b s) := by
  unfold execShl
  apply keeps_next
  exact aluR_since h

theorem execAddi_keeps (h : Since o s) {t : Fin 128} {d a : Fin 64} {imm : BitVec 14} :
    Keeps o (execAddi t d a imm s) := by
  unfold execAddi
  apply keeps_next
  exact aluI_since h

theorem execRem_keeps (h : Since o s) {t : Fin 128} {d a b : Fin 64} : Keeps o (execRem t d a b s) := by
  unfold execRem
  apply keeps_next
  exact aluR_since h

theorem execMulhu_keeps (h : Since o s) {t : Fin 128} {d a b : Fin 64} : Keeps o (execMulhu t d a b s) := by
  unfold execMulhu
  apply keeps_next
  exact aluR_since h

theorem execBgeu_keeps (h : Since o s) {t : Fin 128} {a b : Fin 64} {off : BitVec 14} :
    Keeps o (execBgeu t a b off s) := by
  unfold execBgeu
  apply keeps_next
  exact branchIf_since h

theorem execCtz_keeps (h : Since o s) {t : Fin 128} {d a : Fin 64} : Keeps o (execCtz t d a s) := by
  unfold execCtz
  apply keeps_next
  exact countR_since h

theorem execLiw_keeps (h : Since o s) {t : Fin 128} {d : Fin 64} {z : Bool} {imm : BitVec 32} :
    Keeps o (execLiw t d z imm s) := by
  unfold execLiw
  apply keeps_next
  repeat' first
    | with_reducible assumption | with_reducible apply runLong_since | with_reducible apply State_modCore_since
    | intro _

theorem execPopc_keeps (h : Since o s) {t : Fin 128} {d a : Fin 64} : Keeps o (execPopc t d a s) := by
  unfold execPopc
  apply keeps_next
  exact countR_since h

theorem execDivu_keeps (h : Since o s) {t : Fin 128} {d a b : Fin 64} : Keeps o (execDivu t d a b s) := by
  unfold execDivu
  apply keeps_next
  exact aluR_since h

theorem execMin_keeps (h : Since o s) {t : Fin 128} {d a b : Fin 64} : Keeps o (execMin t d a b s) := by
  unfold execMin
  apply keeps_next
  exact aluR_since h

theorem execBeq_keeps (h : Since o s) {t : Fin 128} {a b : Fin 64} {off : BitVec 14} :
    Keeps o (execBeq t a b off s) := by
  unfold execBeq
  apply keeps_next
  exact branchIf_since h

theorem execSlti_keeps (h : Since o s) {t : Fin 128} {d a : Fin 64} {imm : BitVec 14} :
    Keeps o (execSlti t d a imm s) := by
  unfold execSlti
  apply keeps_next
  exact aluI_since h

theorem execMax_keeps (h : Since o s) {t : Fin 128} {d a b : Fin 64} : Keeps o (execMax t d a b s) := by
  unfold execMax
  apply keeps_next
  exact aluR_since h

theorem execMaxu_keeps (h : Since o s) {t : Fin 128} {d a b : Fin 64} : Keeps o (execMaxu t d a b s) := by
  unfold execMaxu
  apply keeps_next
  exact aluR_since h

theorem execAdd_keeps (h : Since o s) {t : Fin 128} {d a b : Fin 64} : Keeps o (execAdd t d a b s) := by
  unfold execAdd
  apply keeps_next
  exact aluR_since h

theorem execSlt_keeps (h : Since o s) {t : Fin 128} {d a b : Fin 64} : Keeps o (execSlt t d a b s) := by
  unfold execSlt
  apply keeps_next
  exact aluR_since h

theorem execRemu_keeps (h : Since o s) {t : Fin 128} {d a b : Fin 64} : Keeps o (execRemu t d a b s) := by
  unfold execRemu
  apply keeps_next
  exact aluR_since h

theorem execSra_keeps (h : Since o s) {t : Fin 128} {d a b : Fin 64} : Keeps o (execSra t d a b s) := by
  unfold execSra
  apply keeps_next
  exact aluR_since h

theorem execBltu_keeps (h : Since o s) {t : Fin 128} {a b : Fin 64} {off : BitVec 14} :
    Keeps o (execBltu t a b off s) := by
  unfold execBltu
  apply keeps_next
  exact branchIf_since h

/-! ### Vector -/

theorem execPany_keeps (h : Since o s) {t : Fin 128} {d : Fin 64} {a : Fin 8} : Keeps o (execPany t d a s) := by
  unfold execPany
  apply keeps_next
  exact toG_since h

theorem goNext_since (h : Since o s) {t : Nat} : Since o (goNext t s) := by
  unfold goNext
  exact State_modCore_since h

theorem execVext_keeps (h : Since o s) {t : Fin 128} {d : Fin 64} {a : Fin 32} {b : Fin 64} {sz : Fin 4} :
    Keeps o (execVext t d a b sz s) := by
  unfold execVext
  apply keeps_next
  exact toG_since h

theorem predOp_since (h : Since o s) {t d : Nat} {f : CoreRegs → BitVec 128} : Since o (predOp t d f s) := by
  unfold predOp
  exact simple_since h

theorem execPall_keeps (h : Since o s) {t : Fin 128} {d : Fin 8} : Keeps o (execPall t d s) := by
  unfold execPall
  apply keeps_next
  exact predOp_since h

theorem dataFault_since (h : Since o s) {t : Nat} {e : MemErr} {a : Nat} : Since o (dataFault t e a s) := by
  unfold dataFault
  repeat' first
    | with_reducible assumption | with_reducible apply takeException_since | with_reducible apply faultOf_since
    | split

theorem dataRefuse_since (h : Since o s) {t : Nat} {e : MemErr} {a : Nat} : Since o (dataRefuse t e a s) := by
  unfold dataRefuse
  repeat' first
    | with_reducible assumption | with_reducible apply dataFault_since | with_reducible apply memErrRecord_since

theorem ownAccess_since (h : Since o s) {t n : Nat} {as : List Nat} {f : State → State}
    (hf : ∀ s, Since o s → Since o (f s)) :
    Since o (ownAccess t n as f s) := by
  unfold ownAccess
  repeat' first
    | with_reducible assumption | with_reducible apply hf | with_reducible apply takeException_since
    | with_reducible apply dataRefuse_since | split

theorem writeCells_since (h : Since o s) {cells : List (Nat × Byte)} : Since o (writeCells cells s).2 := by
  unfold writeCells
  repeat' first
    | with_reducible assumption | with_reducible apply State_correctWord_since
    | with_reducible apply countCorrected_since | with_reducible apply State_eccClean_since
    | with_reducible apply State_setByte_since | with_reducible apply since_foldl | intro _ | split
    | dsimp only [accState, id]

theorem ownWrite_since (h : Since o s) {t : Nat} {cells : List (Nat × Byte)} {f : State → State}
    (hf : ∀ s, Since o s → Since o (f s)) :
    Since o (ownWrite t cells f s) := by
  unfold ownWrite
  repeat' first
    | with_reducible assumption | with_reducible apply hf | with_reducible apply writeCells_since
    | with_reducible apply dataRefuse_since | with_reducible apply usedIfBusy_since | split
    | (refine since_pair (by with_reducible assumption) ?_)

theorem execVst_keeps (h : Since o s) {t : Fin 128} {d : Fin 32} {a : Fin 64} {pg : Fin 8} {imm : BitVec 12} :
    Keeps o (execVst t d a pg imm s) := by
  unfold execVst
  apply keeps_next
  repeat' first
    | with_reducible assumption | with_reducible apply runInstr_since | with_reducible apply ownAccess_since
    | with_reducible apply ownWrite_since | with_reducible apply goNext_since | intro _

theorem vecOp_since (h : Since o s) {t d pg sz : Nat} {f : CoreRegs → Nat → Nat} :
    Since o (vecOp t d pg sz f s) := by
  unfold vecOp
  exact simple_since h

theorem vecS_since (h : Since o s) {t d a b pg sz : Nat} {f : Int → Int → Int} :
    Since o (vecS t d a b pg sz f s) := by
  unfold vecS
  exact vecOp_since h

theorem execVsubs_keeps (h : Since o s) {t : Fin 128} {d a b : Fin 32} {pg : Fin 8} {sz : Fin 4} :
    Keeps o (execVsubs t d a b pg sz s) := by
  unfold execVsubs
  apply keeps_next
  exact vecS_since h

theorem execPxor_keeps (h : Since o s) {t : Fin 128} {d a b : Fin 8} : Keeps o (execPxor t d a b s) := by
  unfold execPxor
  apply keeps_next
  exact predOp_since h

theorem execVredmax_keeps (h : Since o s) {t : Fin 128} {d a : Fin 32} {pg : Fin 8} {sz : Fin 4} :
    Keeps o (execVredmax t d a pg sz s) := by
  unfold execVredmax
  apply keeps_next
  repeat' first
    | with_reducible assumption | with_reducible apply runInstr_since | with_reducible apply State_used_since
    | with_reducible apply State_modCore_since | intro _ | split

theorem execVmax_keeps (h : Since o s) {t : Fin 128} {d a b : Fin 32} {pg : Fin 8} {sz : Fin 4} :
    Keeps o (execVmax t d a b pg sz s) := by
  unfold execVmax
  apply keeps_next
  exact vecS_since h

theorem vecU_since (h : Since o s) {t d a b pg sz : Nat} {f : Nat → Nat → Nat} :
    Since o (vecU t d a b pg sz f s) := by
  unfold vecU
  exact vecOp_since h

theorem execVshr_keeps (h : Since o s) {t : Fin 128} {d a b : Fin 32} {pg : Fin 8} {sz : Fin 4} :
    Keeps o (execVshr t d a b pg sz s) := by
  unfold execVshr
  apply keeps_next
  exact vecU_since h

theorem vecCmp_since (h : Since o s) {t d a b pg sz : Nat} {f : BitVec 1024 → BitVec 1024 → Nat → Bool} :
    Since o (vecCmp t d a b pg sz f s) := by
  unfold vecCmp
  exact simple_since h

theorem execVadds_keeps (h : Since o s) {t : Fin 128} {d a b : Fin 32} {pg : Fin 8} {sz : Fin 4} :
    Keeps o (execVadds t d a b pg sz s) := by
  unfold execVadds
  apply keeps_next
  exact vecS_since h

theorem execVxor_keeps (h : Since o s) {t : Fin 128} {d a b : Fin 32} {pg : Fin 8} {sz : Fin 4} :
    Keeps o (execVxor t d a b pg sz s) := by
  unfold execVxor
  apply keeps_next
  exact vecU_since h

theorem execPnot_keeps (h : Since o s) {t : Fin 128} {d a : Fin 8} : Keeps o (execPnot t d a s) := by
  unfold execPnot
  apply keeps_next
  exact predOp_since h

theorem execVmul_keeps (h : Since o s) {t : Fin 128} {d a b : Fin 32} {pg : Fin 8} {sz : Fin 4} :
    Keeps o (execVmul t d a b pg sz s) := by
  unfold execVmul
  apply keeps_next
  exact vecS_since h

theorem execPcnt_keeps (h : Since o s) {t : Fin 128} {d : Fin 64} {a : Fin 8} : Keeps o (execPcnt t d a s) := by
  unfold execPcnt
  apply keeps_next
  exact toG_since h

theorem execVperm_keeps (h : Since o s) {t : Fin 128} {d a b : Fin 32} {pg : Fin 8} {sz : Fin 4} :
    Keeps o (execVperm t d a b pg sz s) := by
  unfold execVperm
  apply keeps_next
  exact vecOp_since h

theorem execPnone_keeps (h : Since o s) {t : Fin 128} {d : Fin 8} : Keeps o (execPnone t d s) := by
  unfold execPnone
  apply keeps_next
  exact predOp_since h

theorem ownRead_since (h : Since o s) {t n : Nat} {as : List Nat} {f : List Nat → State → State}
    (hf : ∀ y0 s, Since o s → Since o (f y0 s)) :
    Since o (ownRead t n as f s) := by
  unfold ownRead
  repeat' first
    | with_reducible assumption | with_reducible apply hf | with_reducible apply dataRefuse_since
    | with_reducible apply usedIfBusy_since | with_reducible apply readCorrects_since | split
    | dsimp only [accState, id]

theorem execPfromg_keeps (h : Since o s) {t : Fin 128} {d : Fin 8} {a b : Fin 64} :
    Keeps o (execPfromg t d a b s) := by
  unfold execPfromg
  apply keeps_next
  exact predOp_since h

theorem execVor_keeps (h : Since o s) {t : Fin 128} {d a b : Fin 32} {pg : Fin 8} {sz : Fin 4} :
    Keeps o (execVor t d a b pg sz s) := by
  unfold execVor
  apply keeps_next
  exact vecU_since h

theorem execPand_keeps (h : Since o s) {t : Fin 128} {d a b : Fin 8} : Keeps o (execPand t d a b s) := by
  unfold execPand
  apply keeps_next
  exact predOp_since h

theorem execVmin_keeps (h : Since o s) {t : Fin 128} {d a b : Fin 32} {pg : Fin 8} {sz : Fin 4} :
    Keeps o (execVmin t d a b pg sz s) := by
  unfold execVmin
  apply keeps_next
  exact vecS_since h

theorem execVcmpeq_keeps (h : Since o s) {t : Fin 128} {d : Fin 8} {a b : Fin 32} {pg : Fin 8} {sz : Fin 4} :
    Keeps o (execVcmpeq t d a b pg sz s) := by
  unfold execVcmpeq
  apply keeps_next
  exact vecCmp_since h

theorem execVredadd_keeps (h : Since o s) {t : Fin 128} {d a : Fin 32} {pg : Fin 8} {sz : Fin 4} :
    Keeps o (execVredadd t d a pg sz s) := by
  unfold execVredadd
  apply keeps_next
  exact simple_since h

theorem execVcmpltu_keeps (h : Since o s) {t : Fin 128} {d : Fin 8} {a b : Fin 32} {pg : Fin 8} {sz : Fin 4} :
    Keeps o (execVcmpltu t d a b pg sz s) := by
  unfold execVcmpltu
  apply keeps_next
  exact vecCmp_since h

theorem execVadd_keeps (h : Since o s) {t : Fin 128} {d a b : Fin 32} {pg : Fin 8} {sz : Fin 4} :
    Keeps o (execVadd t d a b pg sz s) := by
  unfold execVadd
  apply keeps_next
  exact vecS_since h

theorem execVld_keeps (h : Since o s) {t : Fin 128} {d : Fin 32} {a : Fin 64} {pg : Fin 8} {imm : BitVec 12} :
    Keeps o (execVld t d a pg imm s) := by
  unfold execVld
  apply keeps_next
  repeat' first
    | with_reducible assumption | with_reducible apply runInstr_since | with_reducible apply ownAccess_since
    | with_reducible apply ownRead_since | with_reducible apply State_modCore_since | intro _

theorem execVsel_keeps (h : Since o s) {t : Fin 128} {d a b : Fin 32} {pg : Fin 8} {sz : Fin 4} :
    Keeps o (execVsel t d a b pg sz s) := by
  unfold execVsel
  apply keeps_next
  exact simple_since h

theorem execVmulh_keeps (h : Since o s) {t : Fin 128} {d a b : Fin 32} {pg : Fin 8} {sz : Fin 4} :
    Keeps o (execVmulh t d a b pg sz s) := by
  unfold execVmulh
  apply keeps_next
  exact vecS_since h

theorem execPor_keeps (h : Since o s) {t : Fin 128} {d a b : Fin 8} : Keeps o (execPor t d a b s) := by
  unfold execPor
  apply keeps_next
  exact predOp_since h

theorem execVand_keeps (h : Since o s) {t : Fin 128} {d a b : Fin 32} {pg : Fin 8} {sz : Fin 4} :
    Keeps o (execVand t d a b pg sz s) := by
  unfold execVand
  apply keeps_next
  exact vecU_since h

theorem execVins_keeps (h : Since o s) {t : Fin 128} {d : Fin 32} {a b : Fin 64} {sz : Fin 4} :
    Keeps o (execVins t d a b sz s) := by
  unfold execVins
  apply keeps_next
  exact vecOp_since h

theorem execVsra_keeps (h : Since o s) {t : Fin 128} {d a b : Fin 32} {pg : Fin 8} {sz : Fin 4} :
    Keeps o (execVsra t d a b pg sz s) := by
  unfold execVsra
  apply keeps_next
  exact vecOp_since h

theorem execVbcast_keeps (h : Since o s) {t : Fin 128} {d : Fin 32} {a : Fin 64} {sz : Fin 4} :
    Keeps o (execVbcast t d a sz s) := by
  unfold execVbcast
  apply keeps_next
  exact vecOp_since h

theorem execVscatter_keeps (h : Since o s) {t : Fin 128} {d : Fin 32} {a : Fin 64} {b : Fin 32} {sz : Fin 4} :
    Keeps o (execVscatter t d a b sz s) := by
  unfold execVscatter
  apply keeps_next
  repeat' first
    | with_reducible assumption | with_reducible apply runInstr_since | with_reducible apply ownAccess_since
    | with_reducible apply ownWrite_since | with_reducible apply goNext_since | intro _

theorem execVsub_keeps (h : Since o s) {t : Fin 128} {d a b : Fin 32} {pg : Fin 8} {sz : Fin 4} :
    Keeps o (execVsub t d a b pg sz s) := by
  unfold execVsub
  apply keeps_next
  exact vecS_since h

theorem execVshl_keeps (h : Since o s) {t : Fin 128} {d a b : Fin 32} {pg : Fin 8} {sz : Fin 4} :
    Keeps o (execVshl t d a b pg sz s) := by
  unfold execVshl
  apply keeps_next
  exact vecU_since h

theorem execVcmplt_keeps (h : Since o s) {t : Fin 128} {d : Fin 8} {a b : Fin 32} {pg : Fin 8} {sz : Fin 4} :
    Keeps o (execVcmplt t d a b pg sz s) := by
  unfold execVcmplt
  apply keeps_next
  exact vecCmp_since h

theorem execVgather_keeps (h : Since o s) {t : Fin 128} {d : Fin 32} {a : Fin 64} {b : Fin 32} {sz : Fin 4} :
    Keeps o (execVgather t d a b sz s) := by
  unfold execVgather
  apply keeps_next
  repeat' first
    | with_reducible assumption | with_reducible apply runInstr_since | with_reducible apply ownAccess_since
    | with_reducible apply ownRead_since | with_reducible apply State_modCore_since | intro _

/-! ### VecFp -/

theorem vfRun_since (h : Since o s) {t sz : Nat} {f : State → State} (hf : ∀ s, Since o s → Since o (f s)) :
    Since o (vfRun t sz f s) := by
  unfold vfRun
  repeat' first
    | with_reducible assumption | with_reducible apply hf | with_reducible apply runInstr_since
    | with_reducible apply illegal_since | intro _ | split

theorem vfMinMax_since (h : Since o s) {t d a b pg sz : Nat} {less : Bool} :
    Since o (vfMinMax t d a b pg sz less s) := by
  unfold vfMinMax
  repeat' first
    | with_reducible assumption | with_reducible apply vfRun_since | with_reducible apply State_used_since
    | with_reducible apply State_modCore_since | intro _

theorem vfOp_since (h : Since o s) {t d pg sz : Nat} {f : CoreRegs → Nat → FVal} : Since o (vfOp t d pg sz f s) := by
  unfold vfOp
  repeat' first
    | with_reducible assumption | with_reducible apply vfRun_since | with_reducible apply State_modCore_since
    | intro _

theorem vfBin_since (h : Since o s) {t d a b pg sz : Nat} {f : FVal → FVal → FVal} :
    Since o (vfBin t d a b pg sz f s) := by
  unfold vfBin
  exact vfOp_since h

theorem execVfsub_keeps (h : Since o s) {t : Fin 128} {d a b : Fin 32} {pg : Fin 8} {sz : Fin 4} :
    Keeps o (execVfsub t d a b pg sz s) := by
  unfold execVfsub
  apply keeps_next
  exact vfBin_since h

theorem execVfadd_keeps (h : Since o s) {t : Fin 128} {d a b : Fin 32} {pg : Fin 8} {sz : Fin 4} :
    Keeps o (execVfadd t d a b pg sz s) := by
  unfold execVfadd
  apply keeps_next
  exact vfBin_since h

theorem execVfmul_keeps (h : Since o s) {t : Fin 128} {d a b : Fin 32} {pg : Fin 8} {sz : Fin 4} :
    Keeps o (execVfmul t d a b pg sz s) := by
  unfold execVfmul
  apply keeps_next
  exact vfBin_since h

theorem execVfmin_keeps (h : Since o s) {t : Fin 128} {d a b : Fin 32} {pg : Fin 8} {sz : Fin 4} :
    Keeps o (execVfmin t d a b pg sz s) := by
  unfold execVfmin
  apply keeps_next
  exact vfMinMax_since h

theorem execVfcmplt_keeps (h : Since o s) {t : Fin 128} {d : Fin 8} {a b : Fin 32} {pg : Fin 8} {sz : Fin 4} :
    Keeps o (execVfcmplt t d a b pg sz s) := by
  unfold execVfcmplt
  apply keeps_next
  repeat' first
    | with_reducible assumption | with_reducible apply vfRun_since | with_reducible apply State_modCore_since
    | intro _

theorem execVfmax_keeps (h : Since o s) {t : Fin 128} {d a b : Fin 32} {pg : Fin 8} {sz : Fin 4} :
    Keeps o (execVfmax t d a b pg sz s) := by
  unfold execVfmax
  apply keeps_next
  exact vfMinMax_since h

theorem execVcvtf_keeps (h : Since o s) {t : Fin 128} {d a : Fin 32} {pg : Fin 8} {sz : Fin 4} :
    Keeps o (execVcvtf t d a pg sz s) := by
  unfold execVcvtf
  apply keeps_next
  repeat' first
    | with_reducible assumption | with_reducible apply vfRun_since | with_reducible apply State_modCore_since
    | intro _

theorem execVcvti_keeps (h : Since o s) {t : Fin 128} {d a : Fin 32} {pg : Fin 8} {sz : Fin 4} :
    Keeps o (execVcvti t d a pg sz s) := by
  unfold execVcvti
  apply keeps_next
  repeat' first
    | with_reducible assumption | with_reducible apply vfRun_since | with_reducible apply State_used_since
    | with_reducible apply State_modCore_since | intro _

theorem execVcvtn_keeps (h : Since o s) {t : Fin 128} {d a : Fin 32} {pg : Fin 8} {sz : Fin 4} :
    Keeps o (execVcvtn t d a pg sz s) := by
  unfold execVcvtn
  apply keeps_next
  repeat' first
    | with_reducible assumption | with_reducible apply vfRun_since | with_reducible apply State_used_since
    | with_reducible apply State_modCore_since | intro _

theorem execVfma_keeps (h : Since o s) {t : Fin 128} {d a b : Fin 32} {pg : Fin 8} {sz : Fin 4} :
    Keeps o (execVfma t d a b pg sz s) := by
  unfold execVfma
  apply keeps_next
  exact vfOp_since h

theorem execVcvtw_keeps (h : Since o s) {t : Fin 128} {d a : Fin 32} {pg : Fin 8} {sz : Fin 4} :
    Keeps o (execVcvtw t d a pg sz s) := by
  unfold execVcvtw
  apply keeps_next
  repeat' first
    | with_reducible assumption | with_reducible apply vfRun_since | with_reducible apply State_used_since
    | with_reducible apply State_modCore_since | intro _

/-! ### System -/

theorem execArmb_keeps (h : Since o s) {t : Fin 128} {d a b : Fin 64} : Keeps o (execArmb t d a b s) := by
  unfold execArmb
  apply keeps_next
  repeat' first
    | with_reducible assumption | with_reducible apply runInstr_since | with_reducible apply armbOp_since
    | with_reducible apply State_modCore_since | intro _ | split

theorem waitIn_since (h : Since o s) {t : Nat} {w : Wait} : Since o (waitIn t w s) := by
  unfold waitIn
  exact State_modCore_since h

theorem execDisb_keeps (h : Since o s) {t : Fin 128} {d a : Fin 64} : Keeps o (execDisb t d a s) := by
  unfold execDisb
  apply keeps_next
  repeat' first
    | with_reducible assumption | with_reducible apply runInstr_since | with_reducible apply disbOp_since
    | with_reducible apply State_modCore_since | intro _

theorem execWaiteReturn_keeps (h : Since o s) {t : Fin 128} : Keeps o (execWaiteReturn t s) := by
  unfold execWaiteReturn
  apply keeps_next
  repeat' first
    | with_reducible assumption | with_reducible apply noteTile_since | with_reducible apply State_modCore_since
    | split

theorem execWaitt_keeps (h : Since o s) {t : Fin 128} {d a : Fin 64} : Keeps o (execWaitt t d a s) := by
  unfold execWaitt
  apply keeps_next
  repeat' first
    | with_reducible assumption | with_reducible apply runInstr_since | with_reducible apply takeException_since
    | with_reducible apply State_modCore_since | with_reducible apply waitIn_since | intro _ | split
    | dsimp only [accState, id]

theorem withStatus_since (h : Since o s) {t i : Nat} {write : Bool} {f : State → State}
    (hf : ∀ s, Since o s → Since o (f s)) :
    Since o (withStatus t i write f s) := by
  unfold withStatus
  repeat' first
    | with_reducible assumption | with_reducible apply hf | with_reducible apply illegal_since
    | with_reducible apply takeException_since | split

theorem execIinv_keeps (h : Since o s) {t : Fin 128} : Keeps o (execIinv t s) := by
  unfold execIinv
  apply keeps_next
  repeat' first
    | with_reducible assumption | with_reducible apply runInstr_since | with_reducible apply State_modTile_since
    | intro _

theorem execFence_keeps (h : Since o s) {t : Fin 128} : Keeps o (execFence t s) := by
  unfold execFence
  apply keeps_next
  repeat' first
    | with_reducible assumption | with_reducible apply runInstr_since | with_reducible apply waitIn_since | intro _

theorem execRdt_keeps (h : Since o s) {t : Fin 128} {d : Fin 64} : Keeps o (execRdt t d s) := by
  unfold execRdt
  apply keeps_next
  repeat' first
    | with_reducible assumption | with_reducible apply runInstr_since | with_reducible apply State_modCore_since
    | intro _

theorem execWaittResume_keeps (h : Since o s) {t : Fin 128} : Keeps o (execWaittResume t s) := by
  unfold execWaittResume
  apply keeps_next
  repeat' first | with_reducible assumption | with_reducible apply State_modCore_since | split

theorem execIllegalOpcode_keeps (h : Since o s) {t : Fin 128} {w0 w1 : BitVec 32} :
    Keeps o (execIllegalOpcode t w0 w1 s) := by
  unfold execIllegalOpcode
  apply keeps_next
  repeat' first
    | with_reducible assumption | with_reducible apply runParcels_since | with_reducible apply illegal_since
    | intro _ | split

theorem execMtest_keeps (h : Since o s) {t : Fin 128} {d a : Fin 64} : Keeps o (execMtest t d a s) := by
  unfold execMtest
  apply keeps_next
  exact simple_since h

theorem execMwait_keeps (h : Since o s) {t : Fin 128} {d a : Fin 64} : Keeps o (execMwait t d a s) := by
  unfold execMwait
  apply keeps_next
  repeat' first
    | with_reducible assumption | with_reducible apply runInstr_since | with_reducible apply State_modCore_since
    | with_reducible apply waitIn_since | intro _ | split | dsimp only [accState, id]

theorem execMts_keeps (h : Since o s) {t : Fin 128} {d : Fin 64} {idx : BitVec 14} :
    Keeps o (execMts t d idx s) := by
  unfold execMts
  apply keeps_next
  repeat' first
    | with_reducible assumption | with_reducible apply runInstr_since | with_reducible apply withStatus_since
    | with_reducible apply State_modCore_since | intro _

theorem execMfs_keeps (h : Since o s) {t : Fin 128} {d : Fin 64} {idx : BitVec 14} :
    Keeps o (execMfs t d idx s) := by
  unfold execMfs
  apply keeps_next
  repeat' first
    | with_reducible assumption | with_reducible apply runInstr_since | with_reducible apply withStatus_since
    | with_reducible apply State_modCore_since | with_reducible apply State_used_since | intro _ | split

theorem execTileCntCorrRead_keeps (h : Since o s) {t : Fin 128} : Keeps o (execTileCntCorrRead t s) := by
  unfold execTileCntCorrRead
  apply keeps_next
  exact State_readPlain_since h

theorem execRdts_keeps (h : Since o s) {t : Fin 128} {d : Fin 64} : Keeps o (execRdts t d s) := by
  unfold execRdts
  apply keeps_next
  exact simple_since h

theorem execCinv_keeps (h : Since o s) {t : Fin 128} {a b : Fin 64} : Keeps o (execCinv t a b s) := by
  unfold execCinv
  apply keeps_next
  repeat' first
    | with_reducible assumption | with_reducible apply runInstr_since | with_reducible apply State_modTile_since
    | intro _

theorem execFenceComplete_keeps (h : Since o s) {t : Fin 128} : Keeps o (execFenceComplete t s) := by
  unfold execFenceComplete
  apply keeps_next
  repeat' first | with_reducible assumption | with_reducible apply State_modCore_since | split

theorem execWaite_keeps (h : Since o s) {t : Fin 128} {d a : Fin 64} : Keeps o (execWaite t d a s) := by
  unfold execWaite
  apply keeps_next
  repeat' first
    | with_reducible assumption | with_reducible apply runInstr_since | with_reducible apply State_modCore_since
    | with_reducible apply noteTile_since | with_reducible apply waitIn_since | intro _ | split
    | dsimp only [accState, id]

theorem execCinva_keeps (h : Since o s) {t : Fin 128} : Keeps o (execCinva t s) := by
  unfold execCinva
  apply keeps_next
  repeat' first
    | with_reducible assumption | with_reducible apply runInstr_since | with_reducible apply State_modTile_since
    | intro _

theorem execMwaitReturn_keeps (h : Since o s) {t : Fin 128} : Keeps o (execMwaitReturn t s) := by
  unfold execMwaitReturn
  apply keeps_next
  repeat' first | with_reducible assumption | with_reducible apply State_modCore_since | split

/-! ### Dsp -/

theorem dspRun_since (h : Since o s) {t : Nat} {inLegacy : Bool} {accs : List Nat} {f : State → State}
    (hf : ∀ s, Since o s → Since o (f s)) :
    Since o (dspRun t inLegacy accs f s) := by
  unfold dspRun
  repeat' first
    | with_reducible assumption | with_reducible apply hf | with_reducible apply runInstr_since
    | with_reducible apply illegal_since | intro _ | split

theorem busCheck_since (h : Since o s) {t n : Nat} {bs : List Bus} {f : State → State}
    (hf : ∀ s, Since o s → Since o (f s)) :
    Since o (busCheck t n bs f s) := by
  unfold busCheck
  repeat' first
    | with_reducible assumption | with_reducible apply illegal_since | with_reducible apply ownAccess_since | split
    | dsimp only [accState, id]

theorem bumpDconf_since (h : Since o s) {t lost : Nat} : Since o (bumpDconf t lost s) := by
  unfold bumpDconf
  repeat' first
    | with_reducible assumption | with_reducible apply State_modCore_since | with_reducible apply State_used_since
    | split | dsimp only [accState, id]

theorem dspRead_since (h : Since o s) {t n : Nat} {bs : List Bus} {f : List Nat → CoreRegs → CoreRegs} :
    Since o (dspRead t n bs f s) := by
  unfold dspRead
  repeat' first
    | with_reducible assumption | with_reducible apply busCheck_since | with_reducible apply ownRead_since
    | with_reducible apply bumpDconf_since | with_reducible apply State_modCore_since | intro _

theorem macOp_since (h : Since o s) {t : Nat} {inLegacy sat : Bool} {acc n : Nat} {bs : List Bus}
    {f : Int → List Nat → Int} :
    Since o (macOp t inLegacy sat acc n bs f s) := by
  unfold macOp
  repeat' first
    | with_reducible assumption | with_reducible apply dspRun_since | with_reducible apply dspRead_since | intro _

theorem execSqa_keeps (h : Since o s) {t : Fin 128} {sat : Bool} {acc xr : Fin 8} {xm : Fin 4} :
    Keeps o (execSqa t sat acc xr xm s) := by
  unfold execSqa
  apply keeps_next
  exact macOp_since h

theorem accOp_since (h : Since o s) {t : Nat} {accs : List Nat} {f : CoreRegs → CoreRegs} :
    Since o (accOp t accs f s) := by
  unfold accOp
  repeat' first
    | with_reducible assumption | with_reducible apply dspRun_since | with_reducible apply State_modCore_since
    | intro _

theorem execArnd_keeps (h : Since o s) {t : Fin 128} {sat : Bool} {aa : Fin 8} {g : Fin 64} {sh : BitVec 5} :
    Keeps o (execArnd t sat aa g sh s) := by
  unfold execArnd
  apply keeps_next
  exact accOp_since h

theorem execAadd_keeps (h : Since o s) {t : Fin 128} {sat : Bool} {ad aa : Fin 8} :
    Keeps o (execAadd t sat ad aa s) := by
  unfold execAadd
  apply keeps_next
  exact accOp_since h

theorem cmacOp_since (h : Since o s) {t : Nat} {inLegacy sat : Bool} {acc : Nat} {bs : List Bus} {keep sg : Int}
    {conj : Bool} :
    Since o (cmacOp t inLegacy sat acc bs keep sg conj s) := by
  unfold cmacOp
  repeat' first
    | with_reducible assumption | with_reducible apply dspRun_since | with_reducible apply illegal_since
    | with_reducible apply dspRead_since | intro _ | split

theorem execCmaccj_keeps (h : Since o s) {t : Fin 128} {sat : Bool} {acc xr : Fin 8} {xm cr cm : Fin 4} :
    Keeps o (execCmaccj t sat acc xr xm cr cm s) := by
  unfold execCmaccj
  apply keeps_next
  exact cmacOp_since h

theorem execCmac_keeps (h : Since o s) {t : Fin 128} {sat : Bool} {acc xr : Fin 8} {xm : Fin 4} {yr : Fin 8}
    {ym : Fin 4} :
    Keeps o (execCmac t sat acc xr xm yr ym s) := by
  unfold execCmac
  apply keeps_next
  exact cmacOp_since h

theorem execAtog_keeps (h : Since o s) {t : Fin 128} {g : Fin 64} {aa : Fin 8} : Keeps o (execAtog t g aa s) := by
  unfold execAtog
  apply keeps_next
  exact accOp_since h

theorem execDloop_keeps (h : Since o s) {t : Fin 128} {a : Fin 64} {len : BitVec 6} :
    Keeps o (execDloop t a len s) := by
  unfold execDloop
  apply keeps_next
  repeat' first
    | with_reducible assumption | with_reducible apply runInstr_since | with_reducible apply State_modTile_since
    | intro _

theorem arOp_since (h : Since o s) {t : Nat} {ar : BitVec 5} {f : CoreRegs → CoreRegs} :
    Since o (arOp t ar f s) := by
  unfold arOp
  repeat' first
    | with_reducible assumption | with_reducible apply dspRun_since | with_reducible apply illegal_since
    | with_reducible apply State_modCore_since | intro _ | split

theorem execCmsu_keeps (h : Since o s) {t : Fin 128} {sat : Bool} {acc xr : Fin 8} {xm : Fin 4} {yr : Fin 8}
    {ym : Fin 4} :
    Keeps o (execCmsu t sat acc xr xm yr ym s) := by
  unfold execCmsu
  apply keeps_next
  exact cmacOp_since h

theorem dspStore_since (h : Since o s) {t n : Nat} {b : Bus} {f : CoreRegs → List Byte × Bool} :
    Since o (dspStore t n b f s) := by
  unfold dspStore
  repeat' first
    | with_reducible assumption | with_reducible apply busCheck_since | with_reducible apply ownWrite_since
    | with_reducible apply bumpDconf_since | with_reducible apply State_modCore_since | intro _

theorem execDst_keeps (h : Since o s) {t : Fin 128} {sat : Bool} {acc yr : Fin 8} {ym : Fin 4} {sh : BitVec 4} :
    Keeps o (execDst t sat acc yr ym sh s) := by
  unfold execDst
  apply keeps_next
  repeat' first
    | with_reducible assumption | with_reducible apply dspRun_since | with_reducible apply dspStore_since | intro _

theorem execAaddi_keeps (h : Since o s) {t : Fin 128} {ar : BitVec 5} {imm : BitVec 13} :
    Keeps o (execAaddi t ar imm s) := by
  unfold execAaddi
  apply keeps_next
  repeat' first
    | with_reducible assumption | with_reducible apply dspRun_since | with_reducible apply illegal_since
    | with_reducible apply State_modCore_since | intro _ | split | dsimp only [accState, id]

theorem execDmac2_keeps (h : Since o s) {t : Fin 128} {sat : Bool} {acc xr : Fin 8} {xm : Fin 4} {yr : Fin 8}
    {ym : Fin 4} :
    Keeps o (execDmac2 t sat acc xr xm yr ym s) := by
  unfold execDmac2
  apply keeps_next
  exact macOp_since h

theorem execDmts_keeps (h : Since o s) {t : Fin 128} {g : Fin 64} {idx : BitVec 6} :
    Keeps o (execDmts t g idx s) := by
  unfold execDmts
  apply keeps_next
  repeat' first
    | with_reducible assumption | with_reducible apply dspRun_since | with_reducible apply State_modCore_since
    | with_reducible apply illegal_since | intro _ | split

theorem execAshl_keeps (h : Since o s) {t : Fin 128} {sat : Bool} {ad aa : Fin 8} {sh : BitVec 5} :
    Keeps o (execAshl t sat ad aa sh s) := by
  unfold execAshl
  apply keeps_next
  repeat' first
    | with_reducible assumption | with_reducible apply dspRun_since | with_reducible apply State_modCore_since
    | with_reducible apply State_used_since | intro _ | split | dsimp only [accState, id]

theorem execAclr_keeps (h : Since o s) {t : Fin 128} {ad : Fin 8} : Keeps o (execAclr t ad s) := by
  unfold execAclr
  apply keeps_next
  exact accOp_since h

theorem execDmfs_keeps (h : Since o s) {t : Fin 128} {g : Fin 64} {idx : BitVec 6} :
    Keeps o (execDmfs t g idx s) := by
  unfold execDmfs
  apply keeps_next
  repeat' first
    | with_reducible assumption | with_reducible apply dspRun_since | with_reducible apply illegal_since
    | with_reducible apply State_modCore_since | intro _ | split

theorem execGtoa_keeps (h : Since o s) {t : Fin 128} {sat : Bool} {ad : Fin 8} {g : Fin 64} :
    Keeps o (execGtoa t sat ad g s) := by
  unfold execGtoa
  apply keeps_next
  exact accOp_since h

theorem execAtogh_keeps (h : Since o s) {t : Fin 128} {g : Fin 64} {aa : Fin 8} : Keeps o (execAtogh t g aa s) := by
  unfold execAtogh
  apply keeps_next
  exact accOp_since h

theorem acsRun_since (h : Since o s) {t : Nat} {f : State → State} (hf : ∀ s, Since o s → Since o (f s)) :
    Since o (acsRun t f s) := by
  unfold acsRun
  repeat' first
    | with_reducible assumption | with_reducible apply hf | with_reducible apply dspRun_since
    | with_reducible apply illegal_since | intro _ | split

theorem execTbk_keeps (h : Since o s) {t : Fin 128} {d a : Fin 64} : Keeps o (execTbk t d a s) := by
  unfold execTbk
  apply keeps_next
  repeat' first
    | with_reducible assumption | with_reducible apply acsRun_since | with_reducible apply illegal_since
    | with_reducible apply ownAccess_since | with_reducible apply ownRead_since
    | with_reducible apply bumpDconf_since | with_reducible apply State_modCore_since | intro _ | split
    | dsimp only [accState, id]

theorem execBest_keeps (h : Since o s) {t : Fin 128} {d : Fin 64} {a : Fin 32} : Keeps o (execBest t d a s) := by
  unfold execBest
  apply keeps_next
  repeat' first
    | with_reducible assumption | with_reducible apply acsRun_since | with_reducible apply State_modCore_since
    | intro _

theorem execAset_keeps (h : Since o s) {t : Fin 128} {ar : BitVec 5} {g : Fin 64} : Keeps o (execAset t ar g s) := by
  unfold execAset
  apply keeps_next
  exact arOp_since h

theorem execCmacj_keeps (h : Since o s) {t : Fin 128} {sat : Bool} {acc xr : Fin 8} {xm : Fin 4} {yr : Fin 8}
    {ym : Fin 4} :
    Keeps o (execCmacj t sat acc xr xm yr ym s) := by
  unfold execCmacj
  apply keeps_next
  exact cmacOp_since h

theorem execDstc_keeps (h : Since o s) {t : Fin 128} {sat : Bool} {acc yr : Fin 8} {ym : Fin 4} {sh : BitVec 4} :
    Keeps o (execDstc t sat acc yr ym sh s) := by
  unfold execDstc
  apply keeps_next
  repeat' first
    | with_reducible assumption | with_reducible apply dspRun_since | with_reducible apply illegal_since
    | with_reducible apply dspStore_since | intro _ | split

theorem execMacc_keeps (h : Since o s) {t : Fin 128} {sat : Bool} {acc xr : Fin 8} {xm cr cm : Fin 4} :
    Keeps o (execMacc t sat acc xr xm cr cm s) := by
  unfold execMacc
  apply keeps_next
  exact macOp_since h

theorem execAmov_keeps (h : Since o s) {t : Fin 128} {ad aa : Fin 8} : Keeps o (execAmov t ad aa s) := by
  unfold execAmov
  apply keeps_next
  exact accOp_since h

theorem execAget_keeps (h : Since o s) {t : Fin 128} {ar : BitVec 5} {g : Fin 64} : Keeps o (execAget t ar g s) := by
  unfold execAget
  apply keeps_next
  exact arOp_since h

theorem execMac_keeps (h : Since o s) {t : Fin 128} {sat : Bool} {acc xr : Fin 8} {xm : Fin 4} {yr : Fin 8}
    {ym : Fin 4} :
    Keeps o (execMac t sat acc xr xm yr ym s) := by
  unfold execMac
  apply keeps_next
  exact macOp_since h

theorem execAsub_keeps (h : Since o s) {t : Fin 128} {sat : Bool} {ad aa : Fin 8} :
    Keeps o (execAsub t sat ad aa s) := by
  unfold execAsub
  apply keeps_next
  exact accOp_since h

theorem execMpy_keeps (h : Since o s) {t : Fin 128} {sat : Bool} {acc xr : Fin 8} {xm : Fin 4} {yr : Fin 8}
    {ym : Fin 4} :
    Keeps o (execMpy t sat acc xr xm yr ym s) := by
  unfold execMpy
  apply keeps_next
  exact macOp_since h

theorem execPmac_keeps (h : Since o s) {t : Fin 128} {sat : Bool} {acc xr : Fin 8} {xm : Fin 4} {yr : Fin 8}
    {ym cr cm : Fin 4} :
    Keeps o (execPmac t sat acc xr xm yr ym cr cm s) := by
  unfold execPmac
  apply keeps_next
  exact macOp_since h

theorem execCmacc_keeps (h : Since o s) {t : Fin 128} {sat : Bool} {acc xr : Fin 8} {xm cr cm : Fin 4} :
    Keeps o (execCmacc t sat acc xr xm cr cm s) := by
  unfold execCmacc
  apply keeps_next
  exact cmacOp_since h

theorem execMsu_keeps (h : Since o s) {t : Fin 128} {sat : Bool} {acc xr : Fin 8} {xm : Fin 4} {yr : Fin 8}
    {ym : Fin 4} :
    Keeps o (execMsu t sat acc xr xm yr ym s) := by
  unfold execMsu
  apply keeps_next
  exact macOp_since h

theorem execAcs_keeps (h : Since o s) {t : Fin 128} {d a : Fin 32} {b : Fin 64} : Keeps o (execAcs t d a b s) := by
  unfold execAcs
  apply keeps_next
  repeat' first
    | with_reducible assumption | with_reducible apply acsRun_since | with_reducible apply busCheck_since
    | with_reducible apply ownWrite_since | with_reducible apply bumpDconf_since
    | with_reducible apply State_modCore_since | intro _

theorem execAnorm_keeps (h : Since o s) {t : Fin 128} {aa : Fin 8} {g : Fin 64} : Keeps o (execAnorm t aa g s) := by
  unfold execAnorm
  apply keeps_next
  exact accOp_since h

theorem execCmpy_keeps (h : Since o s) {t : Fin 128} {sat : Bool} {acc xr : Fin 8} {xm : Fin 4} {yr : Fin 8}
    {ym : Fin 4} :
    Keeps o (execCmpy t sat acc xr xm yr ym s) := by
  unfold execCmpy
  apply keeps_next
  exact cmacOp_since h

/-! ### Arrays -/

theorem streamRow_since (h : Since o s) {t u i : Nat} {x3 : MatOp} : Since o (streamRow t u i x3 s).2.2 := by
  unfold streamRow
  repeat' first
    | with_reducible assumption | with_reducible apply writeCells_since | with_reducible apply readCorrects_since
    | with_reducible apply State_count_since | split | (refine since_pair (by with_reducible assumption) ?_)
    | dsimp only [accState, id]

theorem streamRows_since (h : Since o s) {t u x2 x3 : Nat} {x4 : MatOp} :
    Since o (streamRows t u x2 x3 x4 s).2.2 := by
  induction x2 generalizing s t u x3 x4 with
  | zero =>
    first | rw [streamRows] | unfold streamRows
    repeat' first | with_reducible assumption
  | succ n ih =>
    first | rw [streamRows] | unfold streamRows
    repeat' first
      | with_reducible assumption | with_reducible apply ih | with_reducible apply streamRow_since | split
      | (refine since_triple (by with_reducible assumption) ?_)

theorem finishOp_since (h : Since o s) {t u i : Nat} {err : Bool} {dig : Int} :
    Since o (finishOp t u i err dig s) := by
  unfold finishOp
  repeat' first
    | with_reducible assumption | with_reducible apply State_modTile_since | split | dsimp only [accState, id]

theorem modUnit_since (h : Since o s) {t u : Nat} {f : MUnit → MUnit} : Since o (modUnit t u f s) := by
  unfold modUnit
  exact State_modTile_since h

theorem arrayUncorr_since (h : Since o s) {t u w : Nat} : Since o (arrayUncorr t u w s) := by
  unfold arrayUncorr
  repeat' first
    | with_reducible assumption | with_reducible apply faultOf_since | with_reducible apply memErrRecord_since
    | with_reducible apply State_flag_since

theorem finishLoad_since (h : Since o s) {t u i : Nat} {x3 : MatOp} : Since o (finishLoad t u i x3 s) := by
  unfold finishLoad
  repeat' first
    | with_reducible assumption | with_reducible apply finishOp_since | with_reducible apply modUnit_since
    | with_reducible apply arrayUncorr_since | with_reducible apply readCorrects_since | split
    | dsimp only [accState, id]

theorem recordMismatch_since (h : Since o s) {t u fl first : Nat} {x4 : MatOp} :
    Since o (recordMismatch t u fl first x4 s) := by
  unfold recordMismatch
  repeat' first
    | with_reducible assumption | with_reducible apply State_flag_since | with_reducible apply State_putReg_since
    | with_reducible apply State_count_since | with_reducible apply faultOf_since
    | with_reducible apply errRecord_since | split

theorem runPart_since (h : Since o s) {t u : Nat} {finish : Bool} : Since o (runPart t u finish s) := by
  unfold runPart
  repeat' first
    | with_reducible assumption | with_reducible apply streamRows_since | with_reducible apply State_used_since
    | with_reducible apply modUnit_since | split

theorem loseRows_since (h : Since o s) {r : Region} {i x2 : Nat} : Since o (loseRows r i x2 s) := by
  induction x2 generalizing s r i with
  | zero =>
    first | rw [loseRows] | unfold loseRows
    repeat' first | with_reducible assumption
  | succ n ih =>
    first | rw [loseRows] | unfold loseRows
    repeat' first | with_reducible assumption | with_reducible apply ih | with_reducible apply State_loseRegion_since

theorem finishStream_since (h : Since o s) {t u i : Nat} {x3 : MatOp} {f : MatFault} :
    Since o (finishStream t u i x3 f s) := by
  unfold finishStream
  repeat' first
    | with_reducible assumption | with_reducible apply streamRows_since | with_reducible apply loseRows_since
    | with_reducible apply recordMismatch_since | with_reducible apply finishOp_since
    | with_reducible apply arrayUncorr_since | with_reducible apply since_foldl | intro _ | split
    | dsimp only [accState, id]

theorem discardUnits_since (h : Since o s) {t : Nat} : Since o (discardUnits t s) := by
  unfold discardUnits
  repeat' first
    | with_reducible assumption | with_reducible apply runPart_since | with_reducible apply State_modTile_since
    | with_reducible apply since_foldl | intro _

/-! ### ArrayCmds -/

theorem arrErrWrite_since (h : Since o s) {t u : Nat} {v : Word} : Since o (arrErrWrite t u v s) := by
  unfold arrErrWrite
  repeat' first
    | with_reducible assumption | with_reducible apply State_writePlain_since
    | with_reducible apply State_putReg_since | split

theorem execTileArrErrClear_keeps (h : Since o s) {t : Fin 128} {u : Fin 5} {v : Word} :
    Keeps o (execTileArrErrClear t u v s) := by
  unfold execTileArrErrClear
  apply keeps_next
  exact arrErrWrite_since h

theorem issueOp_since (h : Since o s) {t u tag : Nat} {ok : State → Bool} {mk : CoreRegs → MatOp} :
    Since o (issueOp t u tag ok mk s) := by
  unfold issueOp
  repeat' first
    | with_reducible assumption | with_reducible apply runLong_since | with_reducible apply illegal_since
    | with_reducible apply State_modTile_since | intro _ | split | dsimp only [accState, id]

theorem execMstr_keeps (h : Since o s) {t : Fin 128} {ga gb : Fin 64} {arr : Fin 4} {ope : Bool} {tag : Fin 8}
    {acc : Bool} {m : BitVec 12} {af : BitVec 4} {out : BitVec 2} {gs : Fin 64} :
    Keeps o (execMstr t ga gb arr ope tag acc m af out gs s) := by
  unfold execMstr
  apply keeps_next
  exact issueOp_since h

theorem beginOp_since (h : Since o s) {t u i : Nat} : Since o (beginOp t u i s) := by
  unfold beginOp
  repeat' first
    | with_reducible assumption | with_reducible apply modUnit_since | with_reducible apply State_flag_since
    | with_reducible apply finishOp_since | split

theorem beginNext_since (h : Since o s) {t u : Nat} : Since o (beginNext t u s) := by
  unfold beginNext
  repeat' first | with_reducible assumption | with_reducible apply beginOp_since | split

theorem execGangOperationStart_keeps (h : Since o s) {t : Fin 128} {u : Fin 5} :
    Keeps o (execGangOperationStart t u s) := by
  unfold execGangOperationStart
  apply keeps_next
  repeat' first
    | with_reducible assumption | with_reducible apply State_count_since | with_reducible apply beginOp_since
    | with_reducible apply modUnit_since | split | dsimp only [accState, id]

theorem gangBad_since (h : Since o s) {t owner errBit : Nat} {us : List Nat} :
    Since o (gangBad t owner errBit us s) := by
  unfold gangBad
  repeat' first
    | with_reducible assumption | with_reducible apply deliverEvt_since | with_reducible apply State_flag_since
    | with_reducible apply since_foldl | intro _

theorem gangEnqueue_since (h : Since o s) {t id : Nat} {d : List Word} {us : List Nat} :
    Since o (gangEnqueue t id d us s) := by
  unfold gangEnqueue
  repeat' first
    | with_reducible assumption | with_reducible apply modUnit_since | with_reducible apply since_foldl | intro _

theorem gangMember_since (h : Since o s) {d : Delivery} {t : Nat} : Since o (gangMember d t s) := by
  unfold gangMember
  repeat' first
    | with_reducible assumption | with_reducible apply gangBad_since | with_reducible apply State_used_since
    | with_reducible apply memErrRecord_since | with_reducible apply faultOf_since
    | with_reducible apply readCorrects_since | with_reducible apply State_modTile_since
    | with_reducible apply gangEnqueue_since | split | dsimp only [accState, id]

theorem execGangComplete_keeps (h : Since o s) {t : Fin 128} : Keeps o (execGangComplete t s) := by
  unfold execGangComplete
  apply keeps_next
  repeat' first
    | with_reducible assumption | with_reducible apply State_modTile_since | with_reducible apply deliverEvt_since
    | split

theorem execMatrixOperationComplete_keeps (h : Since o s) {t : Fin 128} {u : Fin 5} {str : Bool}
    {fault : MatFault} :
    Keeps o (execMatrixOperationComplete t u str fault s) := by
  unfold execMatrixOperationComplete
  apply keeps_next
  repeat' first
    | with_reducible assumption | with_reducible apply State_used_since | with_reducible apply State_count_since
    | with_reducible apply finishStream_since | with_reducible apply finishLoad_since | split

theorem execTileArrCntRead_keeps (h : Since o s) {t : Fin 128} {u : Fin 5} : Keeps o (execTileArrCntRead t u s) := by
  unfold execTileArrCntRead
  apply keeps_next
  exact State_readPlain_since h

theorem execRampDownEnd_keeps (h : Since o s) {t : Fin 128} {u : Fin 5} : Keeps o (execRampDownEnd t u s) := by
  unfold execRampDownEnd
  apply keeps_next
  exact modUnit_since h

theorem execKeepEnd_keeps (h : Since o s) {t : Fin 128} {u : Fin 5} : Keeps o (execKeepEnd t u s) := by
  unfold execKeepEnd
  apply keeps_next
  repeat' first | with_reducible assumption | with_reducible apply modUnit_since | split | dsimp only [accState, id]

theorem execMldw_keeps (h : Since o s) {t : Fin 128} {ga gb : Fin 64} {arr : Fin 4} {ope : Bool} {tag : Fin 8}
    {k n : BitVec 7} {wb wf : BitVec 4} :
    Keeps o (execMldw t ga gb arr ope tag k n wb wf s) := by
  unfold execMldw
  apply keeps_next
  exact issueOp_since h

theorem execMatrixOperationStart_keeps (h : Since o s) {t : Fin 128} {u : Fin 5} :
    Keeps o (execMatrixOperationStart t u s) := by
  unfold execMatrixOperationStart
  apply keeps_next
  repeat' first
    | with_reducible assumption | with_reducible apply modUnit_since | with_reducible apply beginOp_since | split
    | dsimp only [accState, id]

theorem execRampUpEnd_keeps (h : Since o s) {t : Fin 128} {u : Fin 5} : Keeps o (execRampUpEnd t u s) := by
  unfold execRampUpEnd
  apply keeps_next
  repeat' first
    | with_reducible assumption | with_reducible apply beginNext_since | with_reducible apply modUnit_since | split
    | dsimp only [accState, id]

theorem execGangStart_keeps (h : Since o s) : Keeps o (execGangStart s) := by
  unfold execGangStart
  apply keeps_next
  repeat' first
    | with_reducible assumption | with_reducible apply withDelivery_since | with_reducible apply faultOf_since
    | with_reducible apply gangMember_since | with_reducible apply wakeTile_since | with_reducible apply since_foldl
    | intro _ | split

end Sys2Proof.Laws
end

