-- ==== Sys2Proof/Laws/KeepsRadio.lean ====
section
/-! SUPPORT. What the operations keep (`Since` of Safety.lean), one lemma for each: the fronthaul and the channel coding. A lemma named _since speaks
of an operation on the state, one named _keeps of the meaning of a command. -/

namespace Sys2Proof.Laws

open Sys2Proof
open Sys2Proof.Machine

variable {o s : State}

/-! ### Fronthaul -/

theorem agcWrite_since (h : Since o s) {ag : Agent} {v : Word} : Since o (agcWrite ag v s) := by
  unfold agcWrite
  repeat' first
    | with_reducible assumption | with_reducible apply refusePermission_since | split | dsimp only [accState, id]
    | simp only [since_mk]

theorem fhLinkRise_since (h : Since o s) {p : Nat} : Since o (fhLinkRise p s) := by
  unfold fhLinkRise
  repeat' first
    | with_reducible assumption | with_reducible apply State_flag_since | split | dsimp only [accState, id]

theorem execFhLinkUp_keeps (h : Since o s) {p : Fin 16} : Keeps o (execFhLinkUp p s) := by
  unfold execFhLinkUp
  apply keeps_next
  exact fhLinkRise_since h

theorem State_setAgc_since (h : Since o s) {k : Nat} {x : Agc} : Since o (State.setAgc s k x) := by
  unfold State.setAgc
  repeat' first | with_reducible assumption | dsimp only [accState, id] | simp only [since_mk]

theorem agcTrackPrb_since (h : Since o s) {k id power : Nat} : Since o (agcTrackPrb k id power s) := by
  unfold agcTrackPrb
  exact State_setAgc_since h

theorem fhFault_since (h : Since o s) {e : Option MemErr} : Since o (fhFault e s) := by
  unfold fhFault
  repeat' first | with_reducible assumption | with_reducible apply faultLive_since | split

theorem rxPrb_since (h : Since o s) {p : Nat} {w : Win} {i sym b e a : Nat} {ms : List Int} :
    Since o (rxPrb p w i sym b e a ms s).1 := by
  unfold rxPrb
  repeat' first | with_reducible assumption | with_reducible apply devWrite_since | with_reducible apply fhFault_since

theorem rxPrbs_since (h : Since o s) {p : Nat} {w : Win} {agc id i sym a x7 : Nat} {x8 : List (Nat × List Int)} :
    Since o (rxPrbs p w agc id i sym a x7 x8 s).1 := by
  induction x8 generalizing s p w agc id i sym a x7 with
  | nil =>
    first | rw [rxPrbs] | unfold rxPrbs
    repeat' first | with_reducible assumption
  | cons y ys ih =>
    first | rw [rxPrbs] | unfold rxPrbs
    repeat' first
      | with_reducible assumption | with_reducible apply ih | with_reducible apply agcTrackPrb_since
      | with_reducible apply rxPrb_since

theorem State_setFhPort_since (h : Since o s) {p : Nat} {x : FhPort} : Since o (State.setFhPort s p x) := by
  unfold State.setFhPort
  repeat' first | with_reducible assumption | dsimp only [accState, id] | simp only [since_mk]

theorem modPort_since (h : Since o s) {p : Nat} {f : FhPort → FhPort} : Since o (modPort p f s) := by
  unfold modPort
  exact State_setFhPort_since h

theorem setWin_since (h : Since o s) {p : Nat} {w : Win} : Since o (setWin p w s) := by
  unfold setWin
  exact modPort_since h

theorem rxAccept_since (h : Since o s) {p : Nat} {w : Win} {eaxc : BitVec 16} {sym start : Nat}
    {prbs : List (Nat × List Int)} {clip : Bool} :
    Since o (rxAccept p w eaxc sym start prbs clip s) := by
  unfold rxAccept
  repeat' first | with_reducible assumption | with_reducible apply rxPrbs_since | with_reducible apply setWin_since

theorem fhDisc_since (h : Since o s) {p : Nat} : Since o (fhDisc p s) := by
  unfold fhDisc
  exact State_count_since h

theorem seqCheck_since (h : Since o s) {p : Nat} {x1 : EcpriHdr} : Since o (seqCheck p x1 s) := by
  unfold seqCheck
  repeat' first
    | with_reducible assumption | with_reducible apply State_count_since | with_reducible apply modPort_since
    | split

theorem frameReceive_since (h : Since o s) {p size : Nat} {fcsOk : Bool} {tags : Nat} {pause : Bool}
    {dst : BitVec 48} {x6 : Option EcpriHdr} :
    Since o (frameReceive p size fcsOk tags pause dst x6 s) := by
  unfold frameReceive
  repeat' first
    | with_reducible assumption | with_reducible apply State_count_since | with_reducible apply fhDisc_since
    | with_reducible apply seqCheck_since | split

theorem setFrozen_since (h : Since o s) {k : Nat} {frozen : Bool} {holdEnd : Option Nat} :
    Since o (setFrozen k frozen holdEnd s) := by
  unfold setFrozen
  exact State_setAgc_since h

theorem agcCommand_since (h : Since o s) {v : Word} {t : Nat} : Since o (agcCommand v t s) := by
  unfold agcCommand
  repeat' first
    | with_reducible assumption | with_reducible apply setFrozen_since | with_reducible apply since_foldl | intro _
    | split

theorem agcTick_since (h : Since o s) : Since o (agcTick s) := by
  unfold agcTick
  repeat' first
    | with_reducible assumption | with_reducible apply agcCommand_since | with_reducible apply since_foldl | intro _
    | dsimp only [accState, id] | simp only [since_mk]

theorem delayRespond_since (h : Since o s) {p mid t2 : Nat} : Since o (delayRespond p mid t2 s) := by
  unfold delayRespond
  repeat' first
    | with_reducible assumption | with_reducible apply State_emit_since | with_reducible apply State_used_since

theorem rxLosePrbs_since (h : Since o s) {w : Win} {i sym : Nat} {x : RxSym} : Since o (rxLosePrbs w i sym x s) := by
  unfold rxLosePrbs
  repeat' first
    | with_reducible assumption | with_reducible apply State_loseRegion_since | with_reducible apply since_foldl
    | intro _ | split

theorem rxClose_since (h : Since o s) {p : Nat} {w : Win} : Since o (rxClose p w s).2 := by
  unfold rxClose
  repeat' first
    | with_reducible assumption | with_reducible apply devWrite_since | with_reducible apply rxLosePrbs_since
    | with_reducible apply fhFault_since | with_reducible apply State_used_since | with_reducible apply since_foldl
    | intro _ | split | dsimp only [accState, id]

theorem delayFollowUp_since (h : Since o s) {p mid : Nat} : Since o (delayFollowUp p mid s) := by
  unfold delayFollowUp
  repeat' first
    | with_reducible assumption | with_reducible apply delayRespond_since | with_reducible apply modPort_since
    | with_reducible apply fhDisc_since | split

theorem execDelayFollowUpRx_keeps (h : Since o s) {p : Fin 16} {mid : BitVec 8} :
    Keeps o (execDelayFollowUpRx p mid s) := by
  unfold execDelayFollowUpRx
  apply keeps_next
  exact delayFollowUp_since h

theorem execFhCntRxRead_keeps (h : Since o s) {p : Fin 16} : Keeps o (execFhCntRxRead p s) := by
  unfold execFhCntRxRead
  apply keeps_next
  exact State_readPlain_since h

theorem agcEstimate_since (h : Since o s) {k : Nat} : Since o (agcEstimate k s).2 := by
  unfold agcEstimate
  repeat' first
    | with_reducible assumption | with_reducible apply State_used_since | split | dsimp only [accState, id]

theorem latchLoad_since (h : Since o s) {k : Nat} {latch : Bool} : Since o (latchLoad k latch s) := by
  unfold latchLoad
  repeat' first
    | with_reducible assumption | with_reducible apply agcEstimate_since | with_reducible apply State_setAgc_since
    | split

theorem execFhCntTxRead_keeps (h : Since o s) {p : Fin 16} : Keeps o (execFhCntTxRead p s) := by
  unfold execFhCntTxRead
  apply keeps_next
  exact State_readPlain_since h

theorem fhLinkFall_since (h : Since o s) {p : Nat} : Since o (fhLinkFall p s) := by
  unfold fhLinkFall
  repeat' first
    | with_reducible assumption | with_reducible apply State_flag_since | with_reducible apply State_unflag_since
    | with_reducible apply portLive_since | split

theorem execFhLinkDown_keeps (h : Since o s) {p : Fin 16} : Keeps o (execFhLinkDown p s) := by
  unfold execFhLinkDown
  apply keeps_next
  exact fhLinkFall_since h

theorem freezeExpire_since (h : Since o s) : Since o (freezeExpire s) := by
  unfold freezeExpire
  repeat' first
    | with_reducible assumption | with_reducible apply State_setAgc_since | with_reducible apply since_foldl
    | intro _ | split | dsimp only [accState, id]

theorem execFreezeHoldExpire_keeps (h : Since o s) : Keeps o (execFreezeHoldExpire s) := by
  unfold execFreezeHoldExpire
  apply keeps_next
  exact freezeExpire_since h

theorem fhPortCtlWrite_since (h : Since o s) {p : Nat} {v : Word} : Since o (fhPortCtlWrite p v s) := by
  unfold fhPortCtlWrite
  repeat' first
    | with_reducible assumption | with_reducible apply State_writePlain_since
    | with_reducible apply fhLinkFall_since | with_reducible apply State_unflag_since
    | with_reducible apply State_flag_since | with_reducible apply modPort_since | split | dsimp only [accState, id]

theorem execFhPortEnable_keeps (h : Since o s) {p : Fin 16} {v : Word} : Keeps o (execFhPortEnable p v s) := by
  unfold execFhPortEnable
  apply keeps_next
  exact fhPortCtlWrite_since h

theorem tdMessage_since (h : Since o s) {p : Nat} {eaxc : BitVec 16} {hdr : Word} {samples : List (Int × Int)} :
    Since o (tdMessage p eaxc hdr samples s) := by
  unfold tdMessage
  repeat' first
    | with_reducible assumption | with_reducible apply fhDisc_since | with_reducible apply State_count_since
    | with_reducible apply setWin_since | with_reducible apply rxAccept_since | split | dsimp only [accState, id]

theorem ptpEvent_since (h : Since o s) {p msg seq dom : Nat} : Since o (ptpEvent p msg seq dom s) := by
  unfold ptpEvent
  repeat' first | with_reducible assumption | with_reducible apply tsPush_since | split

theorem delayRequest_since (h : Since o s) {p action mid : Nat} : Since o (delayRequest p action mid s) := by
  unfold delayRequest
  repeat' first
    | with_reducible assumption | with_reducible apply delayRespond_since | with_reducible apply modPort_since
    | with_reducible apply fhDisc_since | split

theorem execDelayRequestRx_keeps (h : Since o s) {p : Fin 16} {action mid : BitVec 8} :
    Keeps o (execDelayRequestRx p action mid s) := by
  unfold execDelayRequestRx
  apply keeps_next
  exact delayRequest_since h

theorem execTdMessageRx_keeps (h : Since o s) {p : Fin 16} {eaxc : BitVec 16} {hdr : Word}
    {samples : List (Int × Int)} :
    Keeps o (execTdMessageRx p eaxc hdr samples s) := by
  unfold execTdMessageRx
  apply keeps_next
  exact tdMessage_since h

theorem rxLoseStatus_since (h : Since o s) {w : Win} : Since o (rxLoseStatus w s) := by
  unfold rxLoseStatus
  exact State_loseRegion_since h

theorem uplaneSection_since (h : Since o s) {p : Nat} {sec : Section} : Since o (uplaneSection p sec s) := by
  unfold uplaneSection
  repeat' first
    | with_reducible assumption | with_reducible apply fhDisc_since | with_reducible apply State_count_since
    | with_reducible apply rxAccept_since | split | dsimp only [accState, id]

theorem execAgcRelease_keeps (h : Since o s) {ag : Agent} {v : Word} : Keeps o (execAgcRelease ag v s) := by
  unfold execAgcRelease
  apply keeps_next
  exact agcWrite_since h

theorem execFreeze_keeps (h : Since o s) {ag : Agent} {v : Word} : Keeps o (execFreeze ag v s) := by
  unfold execFreeze
  apply keeps_next
  exact agcWrite_since h

theorem execUplaneSectionRx_keeps (h : Since o s) {p : Fin 16} {sec : Section} :
    Keeps o (execUplaneSectionRx p sec s) := by
  unfold execUplaneSectionRx
  apply keeps_next
  exact uplaneSection_since h

theorem delayTimeout_since (h : Since o s) {p mid : Nat} : Since o (delayTimeout p mid s) := by
  unfold delayTimeout
  exact modPort_since h

theorem execDelayFollowUpTimeout_keeps (h : Since o s) {p : Fin 16} {mid : BitVec 8} :
    Keeps o (execDelayFollowUpTimeout p mid s) := by
  unfold execDelayFollowUpTimeout
  apply keeps_next
  exact delayTimeout_since h

theorem execFhFrameReceive_keeps (h : Since o s) {p : Fin 16} {size : Nat} {fcsOk : Bool} {tags : Nat}
    {pause : Bool} {dst : BitVec 48} {hdr : Option EcpriHdr} :
    Keeps o (execFhFrameReceive p size fcsOk tags pause dst hdr s) := by
  unfold execFhFrameReceive
  apply keeps_next
  exact frameReceive_since h

theorem execFhCntPostRead_keeps (h : Since o s) {p : Fin 16} : Keeps o (execFhCntPostRead p s) := by
  unfold execFhCntPostRead
  apply keeps_next
  exact State_readPlain_since h

theorem execPtpEventRx_keeps (h : Since o s) {p : Fin 16} {msg : BitVec 4} {seq : BitVec 16} {domain : BitVec 8} :
    Keeps o (execPtpEventRx p msg seq domain s) := by
  unfold execPtpEventRx
  apply keeps_next
  exact ptpEvent_since h

/-! ### FhTx -/

theorem postRefused_since (h : Since o s) {p n hi lo : Nat} : Since o (postRefused p n hi lo s) := by
  unfold postRefused
  repeat' first
    | with_reducible assumption | with_reducible apply State_count_since | with_reducible apply ledgerUpdate_since
    | split | dsimp only [accState, id]

theorem fhReadBytes_since (h : Since o s) {p a len : Nat} : Since o (fhReadBytes p a len s).2 := by
  unfold fhReadBytes
  repeat' first
    | with_reducible assumption | with_reducible apply devRead_since | with_reducible apply fhFault_since | split
    | (refine since_pair (by with_reducible assumption) ?_)

theorem fhReadWords_since (h : Since o s) {p a n : Nat} : Since o (fhReadWords p a n s).2 := by
  unfold fhReadWords
  repeat' first | with_reducible assumption | with_reducible apply fhReadBytes_since

theorem entryOk_since (h : Since o s) {p : Nat} {k : CellConf} {e : List Word} : Since o (entryOk p k e s).2 := by
  unfold entryOk
  repeat' first
    | with_reducible assumption | with_reducible apply fhReadBytes_since | split
    | (refine since_pair (by with_reducible assumption) ?_) | dsimp only [accState, id]

theorem postEntry_since (h : Since o s) {p n j : Nat} {k : CellConf} {e : List Word}
    {f : List Word → State → State} (hf : ∀ y0 s, Since o s → Since o (f y0 s)) :
    Since o (postEntry p n j k e f s) := by
  unfold postEntry
  repeat' first
    | with_reducible assumption | with_reducible apply hf | with_reducible apply postRefused_since
    | with_reducible apply fhReadWords_since | with_reducible apply entryOk_since | split
    | (refine since_pair (by with_reducible assumption) ?_) | dsimp only [accState, id]

theorem enqueueFrame_since (h : Since o s) {p q : Nat} {f : TxFrame} : Since o (enqueueFrame p q f s) := by
  unfold enqueueFrame
  exact State_setFhPort_since h

theorem enqueueSymbol_since (h : Since o s) {p : Nat} {w : Win} {e : List Word} {j : Nat} {zeros : Bool} :
    Since o (enqueueSymbol p w e j zeros s) := by
  unfold enqueueSymbol
  repeat' first
    | with_reducible assumption | with_reducible apply enqueueFrame_since | with_reducible apply since_foldl
    | intro _

theorem enqueueEntry_since (h : Since o s) {p : Nat} {w : Win} {e : List Word} {j : Nat} :
    Since o (enqueueEntry p w e j s) := by
  unfold enqueueEntry
  repeat' first
    | with_reducible assumption | with_reducible apply enqueueSymbol_since | with_reducible apply enqueueFrame_since
    | split

theorem txPost_since (h : Since o s) {p : Nat} {v : Word} : Since o (txPost p v s) := by
  unfold txPost
  repeat' first
    | with_reducible assumption | with_reducible apply postRefused_since | with_reducible apply State_count_since
    | with_reducible apply postEntry_since | with_reducible apply enqueueEntry_since
    | with_reducible apply setWin_since | with_reducible apply fhReadWords_since
    | with_reducible apply modPort_since | intro _ | split | (refine since_pair (by with_reducible assumption) ?_)
    | dsimp only [accState, id]

theorem txPostBy_since (h : Since o s) {ag : Agent} {p : Nat} {v : Word} : Since o (txPostBy ag p v s) := by
  unfold txPostBy
  repeat' first
    | with_reducible assumption | with_reducible apply txPost_since | with_reducible apply refusePermission_since
    | split

theorem nextFrame_since {t} {y} {p : Nat} (e : (nextFrame p s) = some (y, t)) (h : Since o s) : Since o t := by
  unfold nextFrame at e
  dsimp only at e
  repeat' (split at e)
  all_goals first
    | (cases e; done)
    | (simp only [Option.map_eq_some_iff, Prod.mk.injEq] at e
       obtain ⟨f, _, _, rfl⟩ := e
       exact State_setFhPort_since h)
    | (cases e; exact State_setFhPort_since h)

theorem fallbackPair_since (h : Since o s) {p : Nat} {w : Win} {e : List Word} : Since o (fallbackPair p w e s) := by
  unfold fallbackPair
  repeat' first
    | with_reducible assumption | with_reducible apply fhReadWords_since | with_reducible apply fhReadBytes_since
    | with_reducible apply enqueueFrame_since | split | (refine since_pair (by with_reducible assumption) ?_)
    | dsimp only [accState, id]

theorem decideEntry_since (h : Since o s) {p : Nat} {w : Win} {j : Nat} : Since o (decideEntry p w j s).2 := by
  unfold decideEntry
  repeat' first
    | with_reducible assumption | with_reducible apply fhReadWords_since | with_reducible apply State_count_since
    | with_reducible apply enqueueSymbol_since | with_reducible apply fallbackPair_since | split
    | (refine since_pair (by with_reducible assumption) ?_)

theorem winLedger_since (h : Since o s) {w : Win} {bits : List Nat} {hi lo k : Nat} :
    Since o (winLedger w bits hi lo k s) := by
  unfold winLedger
  exact ledgerUpdate_since h

theorem decideWin_since (h : Since o s) {p : Nat} {w : Win} : Since o (decideWin p w s) := by
  unfold decideWin
  repeat' first
    | with_reducible assumption | with_reducible apply setWin_since | with_reducible apply decideEntry_since
    | with_reducible apply winLedger_since | with_reducible apply since_foldl2 | intro _ | split
    | dsimp only [accState, id]

theorem takeSeq_since (h : Since o s) {p mtype id : Nat} : Since o (takeSeq p mtype id s).2 := by
  unfold takeSeq
  repeat' first | with_reducible assumption | with_reducible apply modPort_since

theorem sendMessage_since (h : Since o s) {p ru mtype id : Nat} {data : List Byte} :
    Since o (sendMessage p ru mtype id data s) := by
  unfold sendMessage
  repeat' first
    | with_reducible assumption | with_reducible apply takeSeq_since | with_reducible apply State_emit_since

theorem tdMessageSend_since (h : Since o s) {p : Nat} {f : TxFrame} {e : List Word} {off : Nat}
    {ys : List (Int × Int)} :
    Since o (tdMessageSend p f e off ys s) := by
  unfold tdMessageSend
  exact sendMessage_since h

theorem winError_since (h : Since o s) {p b : Nat} : Since o (winError p b s) := by
  unfold winError
  repeat' first
    | with_reducible assumption | with_reducible apply portLive_since | with_reducible apply State_flag_since

theorem execFhTxPost_keeps (h : Since o s) {ag : Agent} {p : Fin 16} {v : Word} :
    Keeps o (execFhTxPost ag p v s) := by
  unfold execFhTxPost
  apply keeps_next
  exact txPostBy_since h

theorem admitPre_since (h : Since o s) {p : Nat} {w : Win} : Since o (admitPre p w s) := by
  unfold admitPre
  repeat' first
    | with_reducible assumption | with_reducible apply modPort_since | with_reducible apply enqueueEntry_since
    | with_reducible apply setWin_since | with_reducible apply since_foldl | intro _

theorem slotCeases_since (h : Since o s) {l : Live} : Since o (slotCeases l s) := by
  unfold slotCeases
  repeat' first
    | with_reducible assumption | with_reducible apply reeveCount_since | with_reducible apply ledgerBits_since
    | split | dsimp only [accState, id] | simp only [since_mk]

theorem slotRests_since (h : Since o s) {l : Live} : Since o (slotRests l s) := by
  unfold slotRests
  repeat' first
    | with_reducible assumption | with_reducible apply slotCeases_since | with_reducible apply State_used_since
    | split

theorem modLive_since (h : Since o s) {c : Nat} {n : Int} {f : Live → Live} : Since o (modLive c n f s) := by
  unfold modLive
  repeat' first
    | with_reducible assumption | with_reducible apply slotRests_since | split | dsimp only [accState, id]
    | simp only [since_mk]

theorem closeWin_since (h : Since o s) {p : Nat} {w : Win} : Since o (closeWin p w s) := by
  unfold closeWin
  repeat' first
    | with_reducible assumption | with_reducible apply decideWin_since | with_reducible apply modPort_since
    | with_reducible apply winLedger_since | with_reducible apply State_count_since
    | with_reducible apply rxClose_since | with_reducible apply ledgerBits_since
    | with_reducible apply modLive_since | split | dsimp only [accState, id]

theorem slotOpens_since (h : Since o s) {c : Nat} {n : Int} : Since o (slotOpens c n s) := by
  unfold slotOpens
  repeat' first
    | with_reducible assumption | with_reducible apply slotRests_since | with_reducible apply modLive_since
    | with_reducible apply ledgerBits_since | with_reducible apply since_foldl | intro _ | split
    | dsimp only [accState, id] | simp only [since_mk]

theorem windowOpen_since (h : Since o s) {rx : Bool} {p n fire : Nat} : Since o (windowOpen rx p n fire s) := by
  unfold windowOpen
  repeat' first
    | with_reducible assumption | with_reducible apply fhReadWords_since | with_reducible apply winError_since
    | with_reducible apply closeWin_since | with_reducible apply modPort_since
    | with_reducible apply slotOpens_since | with_reducible apply rxLoseStatus_since
    | with_reducible apply latchLoad_since | with_reducible apply admitPre_since | with_reducible apply since_foldl
    | intro _ | split | (refine since_pair (by with_reducible assumption) ?_)

theorem execFhTxOpen_keeps (h : Since o s) : Keeps o (execFhTxOpen s) := by
  unfold execFhTxOpen
  apply keeps_next
  repeat' first
    | with_reducible assumption | with_reducible apply withDelivery_since | with_reducible apply windowOpen_since
    | intro _

theorem tdSymbol_since (h : Since o s) {p : Nat} {f : TxFrame} {e : List Word} {vs : Option (List Int)} :
    Since o (tdSymbol p f e vs s).2 := by
  unfold tdSymbol
  repeat' first
    | with_reducible assumption | with_reducible apply State_count_since | split | dsimp only [accState, id]
    | simp only [since_mk]

theorem symbolSend_since (h : Since o s) {p : Nat} {f : TxFrame} {e : List Word} {j i : Nat}
    {vs : Option (List Int)} :
    Since o (symbolSend p f e j i vs s) := by
  unfold symbolSend
  repeat' first
    | with_reducible assumption | with_reducible apply tdSymbol_since | with_reducible apply tdMessageSend_since
    | with_reducible apply modPort_since

theorem sendFrame_since (h : Since o s) {p : Nat} {f : TxFrame} : Since o (sendFrame p f s) := by
  unfold sendFrame
  repeat' first
    | with_reducible assumption | with_reducible apply sendMessage_since | with_reducible apply tdMessageSend_since
    | with_reducible apply symbolSend_since | with_reducible apply fhReadBytes_since | split
    | (refine since_pair (by with_reducible assumption) ?_)

theorem execDecide_keeps (h : Since o s) {p : Fin 16} {w : BitVec 12} : Keeps o (execDecide p w s) := by
  unfold execDecide
  apply keeps_next
  repeat' first | with_reducible assumption | with_reducible apply decideWin_since | split

theorem sendPtp_since (h : Since o s) {p : Nat} {f : PtpFrame} : Since o (sendPtp p f s) := by
  unfold sendPtp
  repeat' first
    | with_reducible assumption | with_reducible apply tsPush_since | with_reducible apply State_emit_since | split

theorem execWindowClose_keeps (h : Since o s) {p : Fin 16} {w : BitVec 12} : Keeps o (execWindowClose p w s) := by
  unfold execWindowClose
  apply keeps_next
  repeat' first | with_reducible assumption | with_reducible apply closeWin_since | split

theorem execFhRxOpen_keeps (h : Since o s) : Keeps o (execFhRxOpen s) := by
  unfold execFhRxOpen
  apply keeps_next
  repeat' first
    | with_reducible assumption | with_reducible apply withDelivery_since | with_reducible apply windowOpen_since
    | intro _

theorem frameSend_since (h : Since o s) {p : Nat} {ptp : Option PtpFrame} : Since o (frameSend p ptp s) := by
  unfold frameSend
  repeat' first
    | with_reducible assumption | with_reducible apply sendPtp_since
    | (refine nextFrame_since (by with_reducible assumption) ?_) | with_reducible apply State_count_since
    | with_reducible apply sendFrame_since | split

theorem execFhFrameSend_keeps (h : Since o s) {p : Fin 16} {ptp : Option PtpFrame} :
    Keeps o (execFhFrameSend p ptp s) := by
  unfold execFhFrameSend
  apply keeps_next
  exact frameSend_since h

/-! ### Rings -/

theorem RingRegs_cfgWrite_since (h : Since o s) {g : RingRegs} {i j : Nat} {v : Word} :
    Since o (RingRegs.cfgWrite g i j v s) := by
  unfold RingRegs.cfgWrite
  repeat' first
    | with_reducible assumption | with_reducible apply State_unflag_since
    | with_reducible apply State_writePlain_since | with_reducible apply State_setReg_since | split

theorem devWriteBy_since (h : Since o s) {w : Who} {n x2 x3 : Nat} {x4 : List Byte} {x5 : Nat} :
    Since o (devWriteBy w n x2 x3 x4 x5 s).2 := by
  induction x2 generalizing s w n x3 x4 x5 with
  | zero =>
    first | rw [devWriteBy] | unfold devWriteBy
    repeat' first | with_reducible assumption
  | succ n ih =>
    first | rw [devWriteBy] | unfold devWriteBy
    repeat' first
      | with_reducible assumption | with_reducible apply ih | with_reducible apply devWrite_since | split
      | (refine since_pair (by with_reducible assumption) ?_)

theorem RingRegs_advance_since (h : Since o s) {g : RingRegs} {i j : Nat} : Since o (RingRegs.advance g i j s) := by
  unfold RingRegs.advance
  exact State_putReg_since h

theorem RingRegs_tailWrite_since (h : Since o s) {g : RingRegs} {err : RegName} {b i j : Nat} {v : Word} :
    Since o (RingRegs.tailWrite g err b i j v s) := by
  unfold RingRegs.tailWrite
  repeat' first
    | with_reducible assumption | with_reducible apply State_putReg_since | with_reducible apply State_flag_since
    | split

theorem devWrite32_since (h : Since o s) {w : Who} {a : Nat} {d : List Byte} {aux : Nat} :
    Since o (devWrite32 w a d aux s).2 := by
  unfold devWrite32
  repeat' first
    | with_reducible assumption | with_reducible apply devWrite_since | with_reducible apply devWriteBy_since
    | split | (refine since_pair (by with_reducible assumption) ?_) | dsimp only [accState, id]

theorem RingRegs_headWrite_since (h : Since o s) {g : RingRegs} {i j : Nat} {v : Word} :
    Since o (RingRegs.headWrite g i j v s) := by
  unfold RingRegs.headWrite
  repeat' first | with_reducible assumption | with_reducible apply State_putReg_since | split

theorem RingRegs_complete_since (h : Since o s) {g : RingRegs} {w : Who} {i j : Nat} {rec : List Word} :
    Since o (RingRegs.complete g w i j rec s) := by
  unfold RingRegs.complete
  repeat' first
    | with_reducible assumption | with_reducible apply devWrite_since | with_reducible apply ringReg_since
    | with_reducible apply State_putReg_since

theorem RingRegs_baseWrite_since (h : Since o s) {g : RingRegs} {r : RegName} {i j : Nat} {v : Word} :
    Since o (RingRegs.baseWrite g r i j v s) := by
  unfold RingRegs.baseWrite
  repeat' first | with_reducible assumption | with_reducible apply State_writePlain_since | split

/-! ### Coding -/

theorem State_setCluster_since (h : Since o s) {k : Nat} {x : Cluster} : Since o (State.setCluster s k x) := by
  unfold State.setCluster
  repeat' first | with_reducible assumption | simp only [since_mk]

theorem codCount_since (h : Since o s) {k st : Nat} : Since o (codCount k st s) := by
  unfold codCount
  repeat' first | with_reducible assumption | with_reducible apply State_count_since | split

theorem dropJob_since (h : Since o s) {k seq : Nat} : Since o (dropJob k seq s) := by
  unfold dropJob
  exact State_setCluster_since h

theorem nackLate_since (h : Since o s) {d : List Word} {st : Nat} : Since o (nackLate d st s) := by
  unfold nackLate
  repeat' first | with_reducible assumption | with_reducible apply ledgerUpdate_since | split

theorem softWrite_since (h : Since o s) {a : Nat} {d : List Byte} : Since o (softWrite a d s) := by
  unfold softWrite
  repeat' first
    | with_reducible assumption | with_reducible apply devWrite_since | with_reducible apply since_foldl | intro _

theorem softRenew_since (h : Since o s) {j : CodJob} {r : Nat} : Since o (softRenew j r s) := by
  unfold softRenew
  exact softWrite_since h

theorem harqRest_since (h : Since o s) {j : CodJob} : Since o (harqRest j s) := by
  unfold harqRest
  repeat' first
    | with_reducible assumption | with_reducible apply softRenew_since | with_reducible apply since_foldl | intro _
    | split

theorem harqRelease_since (h : Since o s) {d : List Word} {f : Word × Word → Word × Word} :
    Since o (harqRelease d f s) := by
  unfold harqRelease
  repeat' first
    | with_reducible assumption | with_reducible apply devRead_since | with_reducible apply devWrite_since | split
    | (refine since_pair (by with_reducible assumption) ?_)

theorem jobLeaves_since (h : Since o s) {d : List Word} : Since o (jobLeaves d s) := by
  unfold jobLeaves
  repeat' first | with_reducible assumption | with_reducible apply modLive_since | split

theorem codFinish_since (h : Since o s) {k : Nat} {j : CodJob} {st : Nat} : Since o (codFinish k j st s) := by
  unfold codFinish
  repeat' first
    | with_reducible assumption | with_reducible apply State_loseRegion_since
    | with_reducible apply RingRegs_complete_since | with_reducible apply State_used_since
    | with_reducible apply codCount_since | with_reducible apply faultOf_since
    | with_reducible apply State_flag_since | with_reducible apply dropJob_since
    | with_reducible apply nackLate_since | with_reducible apply harqRest_since
    | with_reducible apply harqRelease_since | with_reducible apply jobLeaves_since | split

theorem stopBlocks_since (h : Since o s) {j : CodJob} {x1 : List Nat} : Since o (stopBlocks j x1 s).2 := by
  induction x1 generalizing s j with
  | nil =>
    first | rw [stopBlocks] | unfold stopBlocks
    repeat' first | with_reducible assumption
  | cons y ys ih =>
    first | rw [stopBlocks] | unfold stopBlocks
    repeat' first
      | with_reducible assumption | with_reducible apply ih | with_reducible apply State_used_since | split

theorem codDeadline_since (h : Since o s) {k seq : Nat} : Since o (codDeadline k seq s) := by
  unfold codDeadline
  repeat' first
    | with_reducible assumption | with_reducible apply codFinish_since | with_reducible apply stopBlocks_since
    | split

theorem putJob_since (h : Since o s) {k : Nat} {j : CodJob} : Since o (putJob k j s) := by
  unfold putJob
  exact State_setCluster_since h

theorem codComplete_since (h : Since o s) {k : Nat} {j : CodJob} : Since o (codComplete k j s) := by
  unfold codComplete
  repeat' first
    | with_reducible assumption | with_reducible apply codFinish_since | with_reducible apply devWrite32_since
    | split | (refine since_pair (by with_reducible assumption) ?_) | dsimp only [accState, id]

theorem codBlockEnd_since (h : Since o s) {k seq r : Nat} : Since o (codBlockEnd k seq r s) := by
  unfold codBlockEnd
  repeat' first
    | with_reducible assumption | with_reducible apply codDeadline_since | with_reducible apply putJob_since
    | with_reducible apply codComplete_since | split | dsimp only [accState, id]

theorem beginEncode_since (h : Since o s) {k : Nat} {j : CodJob} : Since o (beginEncode k j s) := by
  unfold beginEncode
  repeat' first
    | with_reducible assumption | with_reducible apply devRead_since | with_reducible apply codFinish_since
    | with_reducible apply putJob_since | split | (refine since_pair (by with_reducible assumption) ?_)
    | dsimp only [accState, id]

theorem execCodCntErrRead_keeps (h : Since o s) {k : Fin 2} : Keeps o (execCodCntErrRead k s) := by
  unfold execCodCntErrRead
  apply keeps_next
  exact State_readPlain_since h

theorem readLlrs_since (h : Since o s) {k : Nat} {j : CodJob} {r : Nat} : Since o (readLlrs k j r s).2 := by
  unfold readLlrs
  repeat' first | with_reducible assumption | with_reducible apply devRead_since

theorem softCombineIn_since (h : Since o s) {j : CodJob} {r : Nat} {renew : Bool} {old : List Int}
    {llr : List Byte} :
    Since o (softCombineIn j r renew old llr s).2 := by
  unfold softCombineIn
  repeat' first
    | with_reducible assumption | with_reducible apply softWrite_since | with_reducible apply softRenew_since
    | with_reducible apply State_count_since | split

theorem startBlock_since (h : Since o s) {k : Nat} {j : CodJob} {r : Nat} : Since o (startBlock k j r s) := by
  unfold startBlock
  repeat' first
    | with_reducible assumption | with_reducible apply putJob_since | with_reducible apply devRead_since
    | with_reducible apply readLlrs_since | with_reducible apply codFinish_since
    | with_reducible apply softCombineIn_since | split | (refine since_pair (by with_reducible assumption) ?_)
    | dsimp only [accState, id]

theorem beginDecode_since {t} {k : Nat} {j : CodJob} (e : (beginDecode k j s) = some t) (h : Since o s) :
    Since o t := by
  unfold beginDecode at e
  try dsimp only at e
  repeat' (split at e)
  all_goals first
    | (simp only [reduceCtorEq] at e; done)
    | (injection e with e; subst e; repeat' first | with_reducible assumption | with_reducible apply devRead_since | with_reducible apply codFinish_since | with_reducible apply putJob_since | with_reducible apply devWrite_since | with_reducible apply since_foldl | with_reducible apply since_foldr | with_reducible apply since_elim | with_reducible apply since_foldl2 | with_reducible apply since_foldl3 | intro _ | split | (refine since_pair (by with_reducible assumption) ?_) | (refine since_triple (by with_reducible assumption) ?_) | (refine since_fst (by with_reducible assumption) ?_) | (refine since_ok (by with_reducible assumption) ?_) | (refine since_wait (by with_reducible assumption) ?_) | (refine since_err (by with_reducible assumption) ?_) | dsimp only [accState, id] | simp only [since_mk])

theorem beginFirst_since (h : Since o s) {k : Nat} {x1 : List CodJob} : Since o (beginFirst k x1 s) := by
  induction x1 generalizing s k with
  | nil =>
    first | rw [beginFirst] | unfold beginFirst
    repeat' first | with_reducible assumption
  | cons y ys ih =>
    first | rw [beginFirst] | unfold beginFirst
    repeat' first
      | with_reducible assumption | with_reducible apply ih
      | (refine beginDecode_since (by with_reducible assumption) ?_) | with_reducible apply putJob_since
      | with_reducible apply State_count_since | with_reducible apply beginEncode_since | split

theorem codBegin_since (h : Since o s) {k ty : Nat} : Since o (codBegin k ty s) := by
  unfold codBegin
  exact beginFirst_since h

theorem execTurboDecode_keeps (h : Since o s) {k : Fin 2} : Keeps o (execTurboDecode k s) := by
  unfold execTurboDecode
  apply keeps_next
  exact codBegin_since h

theorem execCodeBlockEnd_keeps (h : Since o s) {k : Fin 2} {job : Nat} {block : Fin 256} :
    Keeps o (execCodeBlockEnd k job block s) := by
  unfold execCodeBlockEnd
  apply keeps_next
  exact codBlockEnd_since h

theorem execPolarDecode_keeps (h : Since o s) {k : Fin 2} : Keeps o (execPolarDecode k s) := by
  unfold execPolarDecode
  apply keeps_next
  exact codBegin_since h

theorem execCodCntHwaitRead_keeps (h : Since o s) {k : Fin 2} : Keeps o (execCodCntHwaitRead k s) := by
  unfold execCodCntHwaitRead
  apply keeps_next
  exact State_readPlain_since h

theorem execLdpcEncode_keeps (h : Since o s) {k : Fin 2} : Keeps o (execLdpcEncode k s) := by
  unfold execLdpcEncode
  apply keeps_next
  exact codBegin_since h

theorem execCodCqHeadWrite_keeps (h : Since o s) {ag : Agent} {k : Fin 2} {r : Fin 8} {v : Word} :
    Keeps o (execCodCqHeadWrite ag k r v s) := by
  unfold execCodCqHeadWrite
  apply keeps_next
  repeat' first
    | with_reducible assumption | with_reducible apply RingRegs_headWrite_since | with_reducible apply wakeDom_since
    | with_reducible apply refusePermission_since | split

theorem softRead_since (h : Since o s) {a n : Nat} : Since o (softRead a n s).2 := by
  unfold softRead
  repeat' first
    | with_reducible assumption | with_reducible apply devRead_since | with_reducible apply since_foldl2 | intro _
    | split | (refine since_pair (by with_reducible assumption) ?_)

theorem combineBlock_since (h : Since o s) {k : Nat} {j : CodJob} {r : Nat} : Since o (combineBlock k j r s) := by
  unfold combineBlock
  repeat' first
    | with_reducible assumption | with_reducible apply readLlrs_since | with_reducible apply codFinish_since
    | with_reducible apply putJob_since | with_reducible apply softCombineIn_since
    | with_reducible apply softRead_since | split | (refine since_pair (by with_reducible assumption) ?_)

theorem harqCombine_since (h : Since o s) {k : Nat} : Since o (harqCombine k s) := by
  unfold harqCombine
  repeat' first | with_reducible assumption | with_reducible apply combineBlock_since | split

theorem execHarqCombine_keeps (h : Since o s) {k : Fin 2} : Keeps o (execHarqCombine k s) := by
  unfold execHarqCombine
  apply keeps_next
  exact harqCombine_since h

theorem codStart_since (h : Since o s) {k ty : Nat} : Since o (codStart k ty s) := by
  unfold codStart
  repeat' first | with_reducible assumption | with_reducible apply startBlock_since | split

theorem codAbort_since (h : Since o s) {k : Nat} : Since o (codAbort k s) := by
  unfold codAbort
  repeat' first
    | with_reducible assumption | with_reducible apply codFinish_since | with_reducible apply since_foldl | intro _

theorem execCodCntRead_keeps (h : Since o s) {k : Fin 2} : Keeps o (execCodCntRead k s) := by
  unfold execCodCntRead
  apply keeps_next
  exact State_readPlain_since h

theorem execJobDeadline_keeps (h : Since o s) {k : Fin 2} {job : Nat} : Keeps o (execJobDeadline k job s) := by
  unfold execJobDeadline
  apply keeps_next
  exact codDeadline_since h

theorem execCodeBlockStart_keeps (h : Since o s) {k : Fin 2} {pool : Fin 6} :
    Keeps o (execCodeBlockStart k pool s) := by
  unfold execCodeBlockStart
  apply keeps_next
  exact codStart_since h

theorem execLdpcDecode_keeps (h : Since o s) {k : Fin 2} : Keeps o (execLdpcDecode k s) := by
  unfold execLdpcDecode
  apply keeps_next
  exact codBegin_since h

theorem codTake_since (h : Since o s) {k : Nat} : Since o (codTake k s) := by
  unfold codTake
  repeat' first
    | with_reducible assumption | with_reducible apply devRead_since | with_reducible apply RingRegs_advance_since
    | with_reducible apply State_setCluster_since | with_reducible apply codFinish_since
    | with_reducible apply modLive_since | split | dsimp only [accState, id]

theorem execCodDescriptorTake_keeps (h : Since o s) {k : Fin 2} : Keeps o (execCodDescriptorTake k s) := by
  unfold execCodDescriptorTake
  apply keeps_next
  exact codTake_since h

theorem execPolarEncode_keeps (h : Since o s) {k : Fin 2} : Keeps o (execPolarEncode k s) := by
  unfold execPolarEncode
  apply keeps_next
  exact codBegin_since h

theorem execCodRingEnable_keeps (h : Since o s) {k : Fin 2} {r : Fin 8} {v : Word} :
    Keeps o (execCodRingEnable k r v s) := by
  unfold execCodRingEnable
  apply keeps_next
  repeat' first
    | with_reducible assumption | with_reducible apply RingRegs_cfgWrite_since | with_reducible apply wakeDom_since

theorem execTurboEncode_keeps (h : Since o s) {k : Fin 2} : Keeps o (execTurboEncode k s) := by
  unfold execTurboEncode
  apply keeps_next
  exact codBegin_since h

theorem execCodSqTailWrite_keeps (h : Since o s) {ag : Agent} {k : Fin 2} {r : Fin 8} {v : Word} :
    Keeps o (execCodSqTailWrite ag k r v s) := by
  unfold execCodSqTailWrite
  apply keeps_next
  repeat' first
    | with_reducible assumption | with_reducible apply RingRegs_tailWrite_since | with_reducible apply wakeDom_since
    | with_reducible apply refusePermission_since | split

end Sys2Proof.Laws
end

