-- ==== Sys2Proof/Laws/KeepsGranary.lean ====
section
/-! SUPPORT. What the operations keep (`Since` of Safety.lean), one lemma for each: the Granary and the pile engines. A lemma named _since speaks
of an operation on the state, one named _keeps of the meaning of a command. -/

namespace Sys2Proof.Laws

open Sys2Proof
open Sys2Proof.Machine

variable {o s : State}

/-! ### Granary -/

theorem reclaimEnd_since (h : Since o s) {p : Nat} : Since o (reclaimEnd p s) := by
  unfold reclaimEnd
  repeat' first
    | with_reducible assumption | with_reducible apply ringReg_since | with_reducible apply State_unflag_since
    | split

theorem quotaWrite_since (h : Since o s) {p : Nat} {v : Word} : Since o (quotaWrite p v s) := by
  unfold quotaWrite
  repeat' first
    | with_reducible assumption | with_reducible apply State_writePlain_since | with_reducible apply ringReg_since
    | with_reducible apply State_flag_since | with_reducible apply reclaimEnd_since | split
    | dsimp only [accState, id]

theorem execGrnPQuotaWrite_keeps (h : Since o s) {p : Fin 16} {v : Word} : Keeps o (execGrnPQuotaWrite p v s) := by
  unfold execGrnPQuotaWrite
  apply keeps_next
  exact quotaWrite_since h

theorem modGrn_since (h : Since o s) {f : Granary → Granary} : Since o (modGrn f s) := by
  unfold modGrn
  repeat' first | with_reducible assumption | simp only [since_mk]

theorem startMove_since (h : Since o s) {riser faller : Nat} {asker : Option (Option Nat)} {mask : Nat}
    {reclaim : Option Nat} :
    Since o (startMove riser faller asker mask reclaim s) := by
  unfold startMove
  repeat' first
    | with_reducible assumption | with_reducible apply State_setPage_since | with_reducible apply wakeDom_since
    | with_reducible apply modGrn_since | with_reducible apply reclaimEnd_since | split | dsimp only [accState, id]

theorem releasePage_since (h : Since o s) {n : Nat} : Since o (releasePage n s) := by
  unfold releasePage
  repeat' first
    | with_reducible assumption | with_reducible apply State_setPage_since | split | dsimp only [accState, id]

theorem queryWrite_since (h : Since o s) {p : Nat} {v : Word} : Since o (queryWrite p v s) := by
  unfold queryWrite
  repeat' first
    | with_reducible assumption | with_reducible apply State_setReg_since
    | with_reducible apply State_writePlain_since

theorem setQueue_since (h : Since o s) {q : Nat} {cs : List GrnCmd} : Since o (setQueue q cs s) := by
  unfold setQueue
  exact modGrn_since h

theorem pinPage_since (h : Since o s) {n : Nat} : Since o (pinPage n s) := by
  unfold pinPage
  repeat' first
    | with_reducible assumption | with_reducible apply State_flag_since | with_reducible apply State_setPage_since
    | split | dsimp only [accState, id]

theorem linkTimeout_since (h : Since o s) {l : Nat} : Since o (linkTimeout l s) := by
  unfold linkTimeout
  exact modGrn_since h

theorem execT2AccessTimeout_keeps (h : Since o s) {link : Fin 8} : Keeps o (execT2AccessTimeout link s) := by
  unfold execT2AccessTimeout
  apply keeps_next
  exact linkTimeout_since h

theorem atomicReturns_since (h : Since o s) {t : Nat} {gd : Fin 64} {old : Word} :
    Since o (atomicReturns t gd old s) := by
  unfold atomicReturns
  repeat' first | with_reducible assumption | with_reducible apply State_modCore_since | split

theorem applyHeld_since (h : Since o s) {x0 : Held} : Since o (applyHeld x0 s) := by
  unfold applyHeld
  repeat' first
    | with_reducible assumption | with_reducible apply storeBytes_since | with_reducible apply atomicReturns_since
    | with_reducible apply dirtyLog_since | split | dsimp only [accState, id]

theorem grnCmd_since (h : Since o s) {ag : Agent} {v : Word} : Since o (grnCmd ag v s) := by
  unfold grnCmd
  repeat' first
    | with_reducible assumption | with_reducible apply wakeDom_since | with_reducible apply State_flag_since
    | with_reducible apply setQueue_since | with_reducible apply refusePermission_since | split
    | dsimp only [accState, id]

theorem execUnpin_keeps (h : Since o s) {ag : Agent} {piles : BitVec 8} {cnt : BitVec 16} {rsv : BitVec 11}
    {page : BitVec 25} :
    Keeps o (execUnpin ag piles cnt rsv page s) := by
  unfold execUnpin
  apply keeps_next
  exact grnCmd_since h

theorem setWalk_since (h : Since o s) {p : Nat} {w : PfWalk} : Since o (setWalk p w s) := by
  unfold setWalk
  exact modGrn_since h

theorem pfNext_since (h : Since o s) {p : Nat} : Since o (pfNext p s) := by
  unfold pfNext
  exact setWalk_since h

theorem pfWalkEntry_since (h : Since o s) {p : Nat} : Since o (pfWalkEntry p s) := by
  unfold pfWalkEntry
  repeat' first
    | with_reducible assumption | with_reducible apply State_unflag_since | with_reducible apply devRead_since
    | with_reducible apply setWalk_since | with_reducible apply pfNext_since
    | with_reducible apply State_count_since | with_reducible apply State_flag_since
    | with_reducible apply setQueue_since | split | dsimp only [accState, id]

theorem scrubRead_since (h : Since o s) : Since o (scrubRead s) := by
  unfold scrubRead
  repeat' first
    | with_reducible assumption | with_reducible apply State_flag_since | with_reducible apply errRecord_since
    | with_reducible apply State_count_since | with_reducible apply State_correctWord_since
    | with_reducible apply countCorrected_since | with_reducible apply modGrn_since
    | with_reducible apply State_putReg_since | split | dsimp only [accState, id]

theorem decideFall_since (h : Since o s) {n : Nat} : Since o (decideFall n s).2 := by
  unfold decideFall
  repeat' first
    | with_reducible assumption | with_reducible apply State_used_since | with_reducible apply modGrn_since | split
    | dsimp only [accState, id]

theorem count2_since (h : Since o s) {p : Option Nat} {hi lo : Nat} : Since o (count2 p hi lo s) := by
  unfold count2
  repeat' first | with_reducible assumption | with_reducible apply State_count_since | split

theorem raiseFails_since (h : Since o s) {n : Nat} {p : Option Nat} : Since o (raiseFails n p s) := by
  unfold raiseFails
  repeat' first
    | with_reducible assumption | with_reducible apply modSched_since | with_reducible apply State_flag_since
    | with_reducible apply count2_since

theorem cancelFall_since (h : Since o s) {m : Move} : Since o (cancelFall m s) := by
  unfold cancelFall
  repeat' first
    | with_reducible assumption | with_reducible apply State_setPage_since | with_reducible apply modGrn_since
    | with_reducible apply applyHeld_since | with_reducible apply State_count_since
    | with_reducible apply reclaimEnd_since | with_reducible apply startMove_since
    | with_reducible apply raiseFails_since | with_reducible apply since_foldl | intro _ | split
    | dsimp only [accState, id]

theorem cancelFallOf_since (h : Since o s) {n : Nat} : Since o (cancelFallOf n s) := by
  unfold cancelFallOf
  repeat' first | with_reducible assumption | with_reducible apply cancelFall_since | split

theorem meetFall_since (h : Since o s) {n : Nat} : Since o (meetFall n s).2 := by
  unfold meetFall
  repeat' first
    | with_reducible assumption | with_reducible apply decideFall_since | with_reducible apply cancelFallOf_since
    | split | dsimp only [accState, id]

theorem raiseLower_since (h : Since o s) {asker : Option Nat} {n mask : Nat} :
    Since o (raiseLower asker n mask s).2 := by
  unfold raiseLower
  repeat' first
    | with_reducible assumption | with_reducible apply count2_since | with_reducible apply State_count_since
    | with_reducible apply State_flag_since | with_reducible apply startMove_since
    | with_reducible apply State_setPage_since | split | dsimp only [accState, id]

theorem raisePage_since (h : Since o s) {asker : Option Nat} {n mask : Nat} :
    Since o (raisePage asker n mask s).2 := by
  unfold raisePage
  repeat' first
    | with_reducible assumption | with_reducible apply raiseLower_since | with_reducible apply State_setPage_since
    | with_reducible apply meetFall_since | split | dsimp only [accState, id]

theorem lowerPage_since (h : Since o s) {p : Option Nat} {n : Nat} : Since o (lowerPage p n s).2 := by
  unfold lowerPage
  repeat' first
    | with_reducible assumption | with_reducible apply count2_since | with_reducible apply startMove_since
    | with_reducible apply State_flag_since | with_reducible apply State_count_since | split
    | dsimp only [accState, id]

theorem unpinPage_since (h : Since o s) {n : Nat} : Since o (unpinPage n s) := by
  unfold unpinPage
  repeat' first
    | with_reducible assumption | with_reducible apply State_flag_since | with_reducible apply State_setPage_since
    | split | dsimp only [accState, id]

theorem commandPage_since (h : Since o s) {asker : Option Nat} {c : GrnCmd} : Since o (commandPage asker c s).2 := by
  unfold commandPage
  repeat' first
    | with_reducible assumption | with_reducible apply raisePage_since | with_reducible apply releasePage_since
    | with_reducible apply lowerPage_since | with_reducible apply pinPage_since
    | with_reducible apply unpinPage_since | split

theorem execGrnQuery_keeps (h : Since o s) {ag : Agent} {p : Fin 16} {v : Word} :
    Keeps o (execGrnQuery ag p v s) := by
  unfold execGrnQuery
  apply keeps_next
  repeat' first
    | with_reducible assumption | with_reducible apply queryWrite_since
    | with_reducible apply refusePermission_since | split

theorem linkLost_since (h : Since o s) {l : Nat} : Since o (linkLost l s) := by
  unfold linkLost
  repeat' first | with_reducible assumption | with_reducible apply modGrn_since | split

theorem execRaise_keeps (h : Since o s) {ag : Agent} {piles : BitVec 8} {cnt : BitVec 16} {rsv : BitVec 11}
    {page : BitVec 25} :
    Keeps o (execRaise ag piles cnt rsv page s) := by
  unfold execRaise
  apply keeps_next
  exact grnCmd_since h

theorem execGrnPCntRead_keeps (h : Since o s) {ag : Agent} {p : Fin 16} : Keeps o (execGrnPCntRead ag p s) := by
  unfold execGrnPCntRead
  apply keeps_next
  repeat' first
    | with_reducible assumption | with_reducible apply State_readPlain_since
    | with_reducible apply refusePermission_since | split

theorem execRelease_keeps (h : Since o s) {ag : Agent} {piles : BitVec 8} {cnt : BitVec 16} {rsv : BitVec 11}
    {page : BitVec 25} :
    Keeps o (execRelease ag piles cnt rsv page s) := by
  unfold execRelease
  apply keeps_next
  exact grnCmd_since h

theorem reclaimInterval_since (h : Since o s) : Since o (reclaimInterval s) := by
  unfold reclaimInterval
  repeat' first | with_reducible assumption | with_reducible apply modGrn_since | split

theorem reclaimTurn_since (h : Since o s) {p : Nat} : Since o (reclaimTurn p s) := by
  unfold reclaimTurn
  repeat' first
    | with_reducible assumption | with_reducible apply reclaimInterval_since | with_reducible apply modGrn_since
    | with_reducible apply State_count_since | with_reducible apply startMove_since
    | with_reducible apply State_flag_since | split | dsimp only [accState, id]

theorem execReclaimTurn_keeps (h : Since o s) {p : Fin 16} : Keeps o (execReclaimTurn p s) := by
  unfold execReclaimTurn
  apply keeps_next
  exact reclaimTurn_since h

theorem execGrnPCnt2Read_keeps (h : Since o s) {ag : Agent} {p : Fin 16} : Keeps o (execGrnPCnt2Read ag p s) := by
  unfold execGrnPCnt2Read
  apply keeps_next
  repeat' first
    | with_reducible assumption | with_reducible apply State_readPlain_since
    | with_reducible apply refusePermission_since | split

theorem pfCurWrite_since (h : Since o s) {p : Nat} {v : Word} : Since o (pfCurWrite p v s) := by
  unfold pfCurWrite
  repeat' first | with_reducible assumption | with_reducible apply State_putReg_since | split

theorem pfCfgWrite_since (h : Since o s) {p : Nat} {v : Word} : Since o (pfCfgWrite p v s) := by
  unfold pfCfgWrite
  repeat' first
    | with_reducible assumption | with_reducible apply State_unflag_since | with_reducible apply State_setReg_since
    | with_reducible apply State_writePlain_since | with_reducible apply setWalk_since | split

theorem execGrnPPfEnable_keeps (h : Since o s) {p : Fin 16} {v : Word} : Keeps o (execGrnPPfEnable p v s) := by
  unfold execGrnPPfEnable
  apply keeps_next
  exact pfCfgWrite_since h

theorem execLower_keeps (h : Since o s) {ag : Agent} {piles : BitVec 8} {cnt : BitVec 16} {rsv : BitVec 11}
    {page : BitVec 25} :
    Keeps o (execLower ag piles cnt rsv page s) := by
  unfold execLower
  apply keeps_next
  exact grnCmd_since h

theorem execScrubRead_keeps (h : Since o s) : Keeps o (execScrubRead s) := by
  unfold execScrubRead
  apply keeps_next
  exact scrubRead_since h

theorem execGrnCntMoveRead_keeps (h : Since o s) : Keeps o (execGrnCntMoveRead s) := by
  unfold execGrnCntMoveRead
  apply keeps_next
  exact State_readPlain_since h

theorem execGrnPPfCurWrite_keeps (h : Since o s) {ag : Agent} {p : Fin 16} {v : Word} :
    Keeps o (execGrnPPfCurWrite ag p v s) := by
  unfold execGrnPPfCurWrite
  apply keeps_next
  repeat' first
    | with_reducible assumption | with_reducible apply pfCurWrite_since
    | with_reducible apply refusePermission_since | split

theorem execGrnCntEccRead_keeps (h : Since o s) : Keeps o (execGrnCntEccRead s) := by
  unfold execGrnCntEccRead
  apply keeps_next
  exact State_readPlain_since h

theorem linkBack_since (h : Since o s) {l : Nat} : Since o (linkBack l s) := by
  unfold linkBack
  exact modGrn_since h

theorem refuseHold_since (h : Since o s) {id t : Nat} : Since o (refuseHold id t s) := by
  unfold refuseHold
  exact modPart_since h

theorem execPfWalkEntry_keeps (h : Since o s) {p : Fin 16} : Keeps o (execPfWalkEntry p s) := by
  unfold execPfWalkEntry
  apply keeps_next
  exact pfWalkEntry_since h

theorem execPin_keeps (h : Since o s) {ag : Agent} {piles : BitVec 8} {cnt : BitVec 16} {rsv : BitVec 11}
    {page : BitVec 25} :
    Keeps o (execPin ag piles cnt rsv page s) := by
  unfold execPin
  apply keeps_next
  exact grnCmd_since h

theorem execTier2LinkRetrainDone_keeps (h : Since o s) {link : Fin 8} :
    Keeps o (execTier2LinkRetrainDone link s) := by
  unfold execTier2LinkRetrainDone
  apply keeps_next
  exact linkBack_since h

theorem execT2LinkAlignLoss_keeps (h : Since o s) {link : Fin 8} : Keeps o (execT2LinkAlignLoss link s) := by
  unfold execT2LinkAlignLoss
  apply keeps_next
  exact linkLost_since h

/-! ### Engines -/

theorem State_setEngine_since (h : Since o s) {k : Nat} {x : Engine} : Since o (State.setEngine s k x) := by
  unfold State.setEngine
  repeat' first | with_reducible assumption | simp only [since_mk]

theorem putCmd_since (h : Since o s) {k : Nat} {c : SeCmd} : Since o (putCmd k c s) := by
  unfold putCmd
  exact State_setEngine_since h

theorem seRecord_since (h : Since o s) {e : MemErr} {w : Who} {a : Nat} : Since o (seRecord e w a s) := by
  unfold seRecord
  repeat' first | with_reducible assumption | with_reducible apply errRecord_since | split

theorem seRead_since (h : Since o s) {w : Who} {a len : Nat} : Since o (seRead w a len s).2 := by
  unfold seRead
  repeat' first
    | with_reducible assumption | with_reducible apply devRead_since | with_reducible apply seRecord_since | split
    | (refine since_pair (by with_reducible assumption) ?_)

theorem seReadVal_since (h : Since o s) {w : Who} {a len : Nat} : Since o (seReadVal w a len s).2 := by
  unfold seReadVal
  repeat' first
    | with_reducible assumption | with_reducible apply seRead_since | split
    | (refine since_pair (by with_reducible assumption) ?_)

theorem seIndex_since (h : Since o s) {w : Who} {c : SeCmd} {i : Nat} : Since o (seIndex w c i s).2 := by
  unfold seIndex
  repeat' first
    | with_reducible assumption | with_reducible apply seReadVal_since | split
    | (refine since_pair (by with_reducible assumption) ?_) | dsimp only [accState, id]

theorem seWrite_since (h : Since o s) {w : Who} {a : Nat} {data : List Byte} : Since o (seWrite w a data s).2 := by
  unfold seWrite
  repeat' first
    | with_reducible assumption | with_reducible apply devWrite_since | with_reducible apply seRecord_since | split
    | (refine since_pair (by with_reducible assumption) ?_)

theorem seCopy_since (h : Since o s) {w : Who} {src dst len : Nat} {c : SeCmd} :
    Since o (seCopy w src dst len c s).2.2 := by
  unfold seCopy
  repeat' first
    | with_reducible assumption | with_reducible apply seRead_since | with_reducible apply seWrite_since | split
    | (refine since_pair (by with_reducible assumption) ?_)

theorem gatherRow_since (h : Since o s) {w : Who} {scatter : Bool} {c : SeCmd} :
    Since o (gatherRow w scatter c s).2.2 := by
  unfold gatherRow
  repeat' first
    | with_reducible assumption | with_reducible apply seIndex_since | with_reducible apply seCopy_since | split
    | (refine since_pair (by with_reducible assumption) ?_) | dsimp only [accState, id]

theorem scoreRow_since (h : Since o s) {w : Who} {d : List Word} {t : Nat} : Since o (scoreRow w d t s).2 := by
  unfold scoreRow
  repeat' first
    | with_reducible assumption | with_reducible apply seRead_since | split
    | (refine since_pair (by with_reducible assumption) ?_) | dsimp only [accState, id]

theorem scoreRows_since (h : Since o s) {w : Who} {d : List Word} {x2 x3 : Nat} :
    Since o (scoreRows w d x2 x3 s).2 := by
  induction x2 generalizing s w d x3 with
  | zero =>
    first | rw [scoreRows] | unfold scoreRows
    repeat' first | with_reducible assumption
  | succ n ih =>
    first | rw [scoreRows] | unfold scoreRows
    repeat' first
      | with_reducible assumption | with_reducible apply ih | with_reducible apply scoreRow_since | split
      | (refine since_pair (by with_reducible assumption) ?_)

theorem writeLists_since (h : Since o s) {w : Who} {d : List Word} {x2 : List (Nat × List Nat)} {x3 : SeCmd} :
    Since o (writeLists w d x2 x3 s).2.2 := by
  induction x2 generalizing s w d x3 with
  | nil =>
    first | rw [writeLists] | unfold writeLists
    repeat' first | with_reducible assumption
  | cons y ys ih =>
    first | rw [writeLists] | unfold writeLists
    repeat' first
      | with_reducible assumption | with_reducible apply ih | with_reducible apply seWrite_since | split
      | (refine since_pair (by with_reducible assumption) ?_)

theorem selectEc_since (h : Since o s) {w : Who} {c : SeCmd} : Since o (selectEc w c s).2.2 := by
  unfold selectEc
  repeat' first
    | with_reducible assumption | with_reducible apply scoreRows_since | with_reducible apply writeLists_since
    | split | (refine since_pair (by with_reducible assumption) ?_) | dsimp only [accState, id]

theorem selectTcRow_since (h : Since o s) {w : Who} {c : SeCmd} : Since o (selectTcRow w c s).2.2 := by
  unfold selectTcRow
  repeat' first
    | with_reducible assumption | with_reducible apply scoreRow_since | with_reducible apply seWrite_since | split
    | (refine since_pair (by with_reducible assumption) ?_) | dsimp only [accState, id]

theorem repPuts_since (h : Since o s) {w : Who} {d : List Word} {i : Nat} {row : List Byte} {x4 : List Nat} :
    Since o (repPuts w d i row x4 s).2 := by
  induction x4 generalizing s w d i row with
  | nil =>
    first | rw [repPuts] | unfold repPuts
    repeat' first | with_reducible assumption
  | cons y ys ih =>
    first | rw [repPuts] | unfold repPuts
    repeat' first
      | with_reducible assumption | with_reducible apply ih | with_reducible apply seReadVal_since | split
      | (refine since_pair (by with_reducible assumption) ?_)

theorem SePut_run_since (h : Since o s) {x : SePut} {w : Who} : Since o (SePut.run x w s).2 := by
  unfold SePut.run
  repeat' first
    | with_reducible assumption | with_reducible apply devPut_since | with_reducible apply seRecord_since | split
    | (refine since_pair (by with_reducible assumption) ?_)

theorem sePuts_since (h : Since o s) {w : Who} {xs : List SePut} : Since o (sePuts w xs s).2 := by
  unfold sePuts
  repeat' first
    | with_reducible assumption | with_reducible apply SePut_run_since | with_reducible apply since_foldl | intro _
    | split

theorem repRow_since (h : Since o s) {w : Who} {c : SeCmd} : Since o (repRow w c s).2.2 := by
  unfold repRow
  repeat' first
    | with_reducible assumption | with_reducible apply seReadVal_since | with_reducible apply seRead_since
    | with_reducible apply repPuts_since | with_reducible apply sePuts_since | split
    | (refine since_pair (by with_reducible assumption) ?_) | dsimp only [accState, id]

theorem padRow_since (h : Since o s) {w : Who} {c : SeCmd} : Since o (padRow w c s).2.2 := by
  unfold padRow
  repeat' first
    | with_reducible assumption | with_reducible apply seReadVal_since | with_reducible apply sePuts_since | split
    | (refine since_pair (by with_reducible assumption) ?_) | dsimp only [accState, id]

theorem combineEntry_since (h : Since o s) {w : Who} {c : SeCmd} {i : Nat} : Since o (combineEntry w c i s).2 := by
  unfold combineEntry
  repeat' first
    | with_reducible assumption | with_reducible apply seRead_since | split
    | (refine since_pair (by with_reducible assumption) ?_)

theorem combineRow_since (h : Since o s) {w : Who} {c : SeCmd} : Since o (combineRow w c s).2.2 := by
  unfold combineRow
  repeat' first
    | with_reducible assumption | with_reducible apply combineEntry_since | with_reducible apply errRecord_since
    | with_reducible apply seRead_since | with_reducible apply SePut_run_since | split
    | (refine since_pair (by with_reducible assumption) ?_) | dsimp only [accState, id]

theorem deqRead_since (h : Since o s) {w : Who} {d : List Word} {x2 x3 : Nat} : Since o (deqRead w d x2 x3 s).2 := by
  induction x2 generalizing s w d x3 with
  | zero =>
    first | rw [deqRead] | unfold deqRead
    repeat' first | with_reducible assumption
  | succ n ih =>
    first | rw [deqRead] | unfold deqRead
    repeat' first
      | with_reducible assumption | with_reducible apply ih | with_reducible apply seRead_since | split
      | (refine since_pair (by with_reducible assumption) ?_)

theorem deqWrite_since (h : Since o s) {w : Who} {d : List Word} {x2 : Nat} {x3 : List SePut}
    {x4 : List (List Byte)} :
    Since o (deqWrite w d x2 x3 x4 s).2 := by
  induction x4 generalizing s w d x2 x3 with
  | nil =>
    first | rw [deqWrite] | unfold deqWrite
    repeat' first | with_reducible assumption
  | cons y ys ih =>
    first | rw [deqWrite] | unfold deqWrite
    repeat' first
      | with_reducible assumption | with_reducible apply ih | with_reducible apply sePuts_since | split
      | (refine since_pair (by with_reducible assumption) ?_)

theorem deqRow_since (h : Since o s) {w : Who} {c : SeCmd} : Since o (deqRow w c s).2.2 := by
  unfold deqRow
  repeat' first
    | with_reducible assumption | with_reducible apply seRead_since | with_reducible apply deqRead_since
    | with_reducible apply deqWrite_since | split | (refine since_pair (by with_reducible assumption) ?_)
    | dsimp only [accState, id]

theorem kvRow_since (h : Since o s) {w : Who} {c : SeCmd} : Since o (kvRow w c s).2.2 := by
  unfold kvRow
  repeat' first
    | with_reducible assumption | with_reducible apply seRead_since | with_reducible apply errRecord_since
    | with_reducible apply seReadVal_since | with_reducible apply seCopy_since | split
    | (refine since_pair (by with_reducible assumption) ?_) | dsimp only [accState, id]

theorem seRow_since (h : Since o s) {w : Who} {c : SeCmd} : Since o (seRow w c s).2.2 := by
  unfold seRow
  repeat' first
    | with_reducible assumption | with_reducible apply gatherRow_since | with_reducible apply selectEc_since
    | with_reducible apply selectTcRow_since | with_reducible apply repRow_since | with_reducible apply padRow_since
    | with_reducible apply combineRow_since | with_reducible apply deqRow_since | with_reducible apply kvRow_since
    | split

theorem seFault_since (h : Since o s) {part st : Nat} : Since o (seFault part st s) := by
  unfold seFault
  repeat' first | with_reducible assumption | with_reducible apply faultOf_since | split

theorem seStopped_since (h : Since o s) {c : SeCmd} : Since o (seStopped c s) := by
  unfold seStopped
  repeat' first
    | with_reducible assumption | with_reducible apply State_loseRegion_since | split | dsimp only [accState, id]

theorem runUnit_since (h : Since o s) {k : Nat} {c : SeCmd} : Since o (runUnit k c s) := by
  unfold runUnit
  repeat' first
    | with_reducible assumption | with_reducible apply putCmd_since | with_reducible apply seRow_since
    | with_reducible apply seFault_since | with_reducible apply seStopped_since | split
    | (refine since_triple (by with_reducible assumption) ?_)

theorem serveUnit_since (h : Since o s) {k : Nat} {c : SeCmd} : Since o (serveUnit k c s) := by
  unfold serveUnit
  repeat' first
    | with_reducible assumption | with_reducible apply runUnit_since | with_reducible apply State_setEngine_since

theorem serveUntil_since (h : Since o s) {k seq x2 : Nat} : Since o (serveUntil k seq x2 s) := by
  induction x2 generalizing s k seq with
  | zero =>
    first | rw [serveUntil] | unfold serveUntil
    repeat' first | with_reducible assumption
  | succ n ih =>
    first | rw [serveUntil] | unfold serveUntil
    repeat' first | with_reducible assumption | with_reducible apply ih | with_reducible apply serveUnit_since | split

theorem seRun_since (h : Since o s) {k : Nat} {p : SeCmd → Bool} {whole : Bool} : Since o (seRun k p whole s) := by
  unfold seRun
  repeat' first
    | with_reducible assumption | with_reducible apply serveUntil_since | with_reducible apply serveUnit_since
    | split

theorem execSeUnit_keeps (h : Since o s) {k : Fin 8} : Keeps o (execSeUnit k s) := by
  unfold execSeUnit
  apply keeps_next
  exact seRun_since h

theorem seCounts_since (h : Since o s) {k st : Nat} : Since o (seCounts k st s) := by
  unfold seCounts
  repeat' first
    | with_reducible assumption | with_reducible apply State_count_since | with_reducible apply State_flag_since
    | split

theorem seFinish_since (h : Since o s) {k : Nat} {c : SeCmd} : Since o (seFinish k c s) := by
  unfold seFinish
  repeat' first
    | with_reducible assumption | with_reducible apply seCounts_since | with_reducible apply State_setEngine_since
    | with_reducible apply RingRegs_complete_since | split

theorem execSeSqTailWrite_keeps (h : Since o s) {ag : Agent} {k : Fin 8} {r : Fin 16} {v : Word} :
    Keeps o (execSeSqTailWrite ag k r v s) := by
  unfold execSeSqTailWrite
  apply keeps_next
  repeat' first
    | with_reducible assumption | with_reducible apply RingRegs_tailWrite_since | with_reducible apply wakeDom_since
    | with_reducible apply refusePermission_since | split

theorem execKvAppend_keeps (h : Since o s) {k : Fin 8} : Keeps o (execKvAppend k s) := by
  unfold execKvAppend
  apply keeps_next
  exact seRun_since h

theorem placeCmd_since (h : Since o s) {k : Nat} {internal : Bool} {c : SeCmd} :
    Since o (placeCmd k internal c s) := by
  unfold placeCmd
  repeat' first
    | with_reducible assumption | with_reducible apply seFault_since | with_reducible apply State_setEngine_since
    | with_reducible apply errRecord_since | split

theorem execSelectEc_keeps (h : Since o s) {k : Fin 8} : Keeps o (execSelectEc k s) := by
  unfold execSelectEc
  apply keeps_next
  exact seRun_since h

theorem seAbortRing_since (h : Since o s) {k r x2 : Nat} : Since o (seAbortRing k r x2 s) := by
  induction x2 generalizing s k r with
  | zero =>
    first | rw [seAbortRing] | unfold seAbortRing
    repeat' first | with_reducible assumption
  | succ n ih =>
    first | rw [seAbortRing] | unfold seAbortRing
    repeat' first
      | with_reducible assumption | with_reducible apply ih | with_reducible apply seRead_since
      | with_reducible apply RingRegs_advance_since | with_reducible apply RingRegs_complete_since
      | with_reducible apply seFault_since | with_reducible apply seCounts_since | split

theorem execPad_keeps (h : Since o s) {k : Fin 8} : Keeps o (execPad k s) := by
  unfold execPad
  apply keeps_next
  exact seRun_since h

theorem execSelectTc_keeps (h : Since o s) {k : Fin 8} : Keeps o (execSelectTc k s) := by
  unfold execSelectTc
  apply keeps_next
  exact seRun_since h

theorem runUnits_since (h : Since o s) {k seq x2 : Nat} : Since o (runUnits k seq x2 s) := by
  induction x2 generalizing s k seq with
  | zero =>
    first | rw [runUnits] | unfold runUnits
    repeat' first | with_reducible assumption
  | succ n ih =>
    first | rw [runUnits] | unfold runUnits
    repeat' first | with_reducible assumption | with_reducible apply ih | with_reducible apply runUnit_since | split

theorem execScatter_keeps (h : Since o s) {k : Fin 8} : Keeps o (execScatter k s) := by
  unfold execScatter
  apply keeps_next
  exact seRun_since h

theorem seTake_since (h : Since o s) {k : Nat} : Since o (seTake k s) := by
  unfold seTake
  repeat' first
    | with_reducible assumption | with_reducible apply placeCmd_since | with_reducible apply State_setEngine_since
    | with_reducible apply seRead_since | with_reducible apply RingRegs_advance_since
    | with_reducible apply seFault_since | split | dsimp only [accState, id]

theorem execSeDescriptorTake_keeps (h : Since o s) {k : Fin 8} : Keeps o (execSeDescriptorTake k s) := by
  unfold execSeDescriptorTake
  apply keeps_next
  exact seTake_since h

theorem execRepscat_keeps (h : Since o s) {k : Fin 8} : Keeps o (execRepscat k s) := by
  unfold execRepscat
  apply keeps_next
  exact seRun_since h

theorem execSeCntRead_keeps (h : Since o s) {k : Fin 8} : Keeps o (execSeCntRead k s) := by
  unfold execSeCntRead
  apply keeps_next
  exact State_readPlain_since h

theorem execGather_keeps (h : Since o s) {k : Fin 8} : Keeps o (execGather k s) := by
  unfold execGather
  apply keeps_next
  exact seRun_since h

theorem execSeCntErrRead_keeps (h : Since o s) {k : Fin 8} : Keeps o (execSeCntErrRead k s) := by
  unfold execSeCntErrRead
  apply keeps_next
  exact State_readPlain_since h

theorem execCombine_keeps (h : Since o s) {k : Fin 8} : Keeps o (execCombine k s) := by
  unfold execCombine
  apply keeps_next
  exact seRun_since h

theorem execSeRingEnable_keeps (h : Since o s) {k : Fin 8} {r : Fin 16} {v : Word} :
    Keeps o (execSeRingEnable k r v s) := by
  unfold execSeRingEnable
  apply keeps_next
  repeat' first
    | with_reducible assumption | with_reducible apply RingRegs_cfgWrite_since | with_reducible apply wakeDom_since

theorem execSeCqHeadWrite_keeps (h : Since o s) {ag : Agent} {k : Fin 8} {r : Fin 16} {v : Word} :
    Keeps o (execSeCqHeadWrite ag k r v s) := by
  unfold execSeCqHeadWrite
  apply keeps_next
  repeat' first
    | with_reducible assumption | with_reducible apply RingRegs_headWrite_since | with_reducible apply wakeDom_since
    | with_reducible apply refusePermission_since | split

theorem seStopPart_since (h : Since o s) {p : Nat} : Since o (seStopPart p s) := by
  unfold seStopPart
  repeat' first
    | with_reducible assumption | with_reducible apply seAbortRing_since | with_reducible apply since_foldl
    | intro _ | split

theorem seIssue_since (h : Since o s) {k part : Nat} {issuer : SeIssuer} {desc : List Word} {idx : List Nat}
    {ent : List (Nat × Nat × Nat)} :
    Since o (seIssue k part issuer desc idx ent s) := by
  unfold seIssue
  exact State_setEngine_since h

theorem execDequant_keeps (h : Since o s) {k : Fin 8} : Keeps o (execDequant k s) := by
  unfold execDequant
  apply keeps_next
  exact seRun_since h

end Sys2Proof.Laws
end

