-- ==== Sys2Proof/Laws/KeepsRouting.lean ====
section
/-! SUPPORT. What the operations keep (`Since` of Safety.lean), one lemma for each: the fabric transport and the expert routing. A lemma named _since speaks
of an operation on the state, one named _keeps of the meaning of a command. -/

namespace Sys2Proof.Laws

open Sys2Proof
open Sys2Proof.Machine

variable {o s : State}

/-! ### FabTx -/

theorem modFab_since (h : Since o s) {f : Fabric → Fabric} : Since o (modFab f s) := by
  unfold modFab
  repeat' first | with_reducible assumption | simp only [since_mk]

theorem State_setFabPort_since (h : Since o s) {q : Nat} {x : FabPort} : Since o (State.setFabPort s q x) := by
  unfold State.setFabPort
  exact modFab_since h

theorem State_setPeer_since (h : Since o s) {n : Nat} {x : Peer} : Since o (State.setPeer s n x) := by
  unfold State.setPeer
  exact modFab_since h

theorem pathDead_since (h : Since o s) {n k : Nat} : Since o (pathDead n k s) := by
  unfold pathDead
  repeat' first
    | with_reducible assumption | with_reducible apply State_flag_since | with_reducible apply State_setPeer_since
    | split | dsimp only [accState, id]

theorem portDead_since (h : Since o s) {q : Nat} : Since o (portDead q s) := by
  unfold portDead
  repeat' first
    | with_reducible assumption | with_reducible apply pathDead_since | with_reducible apply since_foldl | intro _
    | split

theorem portGoesDown_since (h : Since o s) {q : Nat} {training : Bool} : Since o (portGoesDown q training s) := by
  unfold portGoesDown
  repeat' first
    | with_reducible assumption | with_reducible apply State_setFabPort_since
    | with_reducible apply State_putReg_since | with_reducible apply portDead_since
    | with_reducible apply reeveCount_since | with_reducible apply State_flag_since

theorem portInterval_since (h : Since o s) {q : Nat} : Since o (portInterval q s) := by
  unfold portInterval
  repeat' first
    | with_reducible assumption | with_reducible apply State_setFabPort_since
    | with_reducible apply State_flag_since | with_reducible apply portGoesDown_since | split
    | dsimp only [accState, id]

theorem modDmaRun_since (h : Since o s) {c : Nat} {f : DmaRun → DmaRun} : Since o (modDmaRun c f s) := by
  unfold modDmaRun
  repeat' first | with_reducible assumption | dsimp only [accState, id] | simp only [since_mk]

theorem dmaRefused_since (h : Since o s) {c status : Nat} : Since o (dmaRefused c status s) := by
  unfold dmaRefused
  exact modDmaRun_since h

theorem writeLost_since (h : Since o s) {n : Nat} {x1 : OutPkt} : Since o (writeLost n x1 s) := by
  unfold writeLost
  repeat' first
    | with_reducible assumption | with_reducible apply State_flag_since | with_reducible apply dmaRefused_since
    | with_reducible apply errRecord_since | split

theorem putOut_since (h : Since o s) {n : Nat} {x1 : OutPkt} : Since o (putOut n x1 s) := by
  unfold putOut
  exact State_setPeer_since h

theorem takePath_since (h : Since o s) {n : Nat} {avoid : Option Nat} : Since o (takePath n avoid s).2 := by
  unfold takePath
  repeat' first
    | with_reducible assumption | with_reducible apply State_setPeer_since | split | dsimp only [accState, id]

theorem enqueue_since (h : Since o s) {q : Nat} {p : Packet} {part : Option Nat} : Since o (enqueue q p part s) := by
  unfold enqueue
  repeat' first
    | with_reducible assumption | with_reducible apply State_setFabPort_since | with_reducible apply wakeDom_since

theorem sendOn_since (h : Since o s) {n k : Nat} {p : Packet} {part : Option Nat} :
    Since o (sendOn n k p part s) := by
  unfold sendOn
  exact enqueue_since h

theorem transmit_since (h : Since o s) {n : Nat} {x1 : OutPkt} {avoid : Option Nat} :
    Since o (transmit n x1 avoid s) := by
  unfold transmit
  repeat' first
    | with_reducible assumption | with_reducible apply putOut_since | with_reducible apply takePath_since
    | with_reducible apply sendOn_since | split | (refine since_pair (by with_reducible assumption) ?_)

theorem sendHeld_since (h : Since o s) {n : Nat} : Since o (sendHeld n s) := by
  unfold sendHeld
  repeat' first
    | with_reducible assumption | with_reducible apply transmit_since | with_reducible apply since_foldl | intro _

theorem pathUpdate_since (h : Since o s) {n : Nat} : Since o (pathUpdate n s) := by
  unfold pathUpdate
  repeat' first
    | with_reducible assumption | with_reducible apply devRead_since | with_reducible apply State_setPeer_since
    | with_reducible apply sendHeld_since

theorem execPortErrorInterval_keeps (h : Since o s) {port : Fin 36} : Keeps o (execPortErrorInterval port s) := by
  unfold execPortErrorInterval
  apply keeps_next
  exact portInterval_since h

theorem loadReturns_since (h : Since o s) {t id : Nat} {data : List Byte} : Since o (loadReturns t id data s) := by
  unfold loadReturns
  repeat' first | with_reducible assumption | with_reducible apply State_modCore_since | split

theorem issue_since (h : Since o s) {n : Nat} {hdr : Nat → PktHdr} {body : PktBody} {part : Option Nat}
    {tag : PktTag} :
    Since o (issue n hdr body part tag s).2 := by
  unfold issue
  repeat' first
    | with_reducible assumption | with_reducible apply State_setPeer_since | with_reducible apply transmit_since

theorem sendReq_since (h : Since o s) {r : RemReq} : Since o (sendReq r s) := by
  unfold sendReq
  repeat' first
    | with_reducible assumption | with_reducible apply issue_since | with_reducible apply modFab_since | split

theorem readAgain_since (h : Since o s) {r : RemReq} : Since o (readAgain r s) := by
  unfold readAgain
  repeat' first | with_reducible assumption | with_reducible apply sendReq_since | split

theorem execFabCntRead_keeps (h : Since o s) : Keeps o (execFabCntRead s) := by
  unfold execFabCntRead
  apply keeps_next
  exact State_readPlain_since h

theorem dropReq_since (h : Since o s) {r : RemReq} : Since o (dropReq r s) := by
  unfold dropReq
  exact modFab_since h

theorem remoteFaults_since (h : Since o s) {t cause addr : Nat} : Since o (remoteFaults t cause addr s) := by
  unfold remoteFaults
  repeat' first
    | with_reducible assumption | with_reducible apply takeException_since
    | with_reducible apply State_modCore_since

theorem dmaFails_since (h : Since o s) {c off status : Nat} : Since o (dmaFails c off status s) := by
  unfold dmaFails
  exact modDmaRun_since h

theorem loadLate_since (h : Since o s) {r : RemReq} : Since o (loadLate r s) := by
  unfold loadLate
  repeat' first
    | with_reducible assumption | with_reducible apply State_flag_since | with_reducible apply dropReq_since
    | with_reducible apply errRecord_since | with_reducible apply remoteFaults_since
    | with_reducible apply dmaFails_since | split | dsimp only [accState, id]

theorem execFencefComplete_keeps (h : Since o s) {t : Fin 128} : Keeps o (execFencefComplete t s) := by
  unfold execFencefComplete
  apply keeps_next
  repeat' first | with_reducible assumption | with_reducible apply State_modCore_since | split

theorem rcPeak_since (h : Since o s) : Since o (rcPeak s) := by
  unfold rcPeak
  repeat' first | with_reducible assumption | with_reducible apply State_putReg_since

theorem cacheExpire_since (h : Since o s) : Since o (cacheExpire s) := by
  unfold cacheExpire
  repeat' first | with_reducible assumption | with_reducible apply rcPeak_since | with_reducible apply modFab_since

theorem execFabSmpCfgRead_keeps (h : Since o s) : Keeps o (execFabSmpCfgRead s) := by
  unfold execFabSmpCfgRead
  apply keeps_next
  exact State_readPlain_since h

theorem retransmit_since (h : Since o s) {n : Nat} {x1 : OutPkt} : Since o (retransmit n x1 s) := by
  unfold retransmit
  repeat' first
    | with_reducible assumption | with_reducible apply transmit_since | with_reducible apply reeveCount_since
    | with_reducible apply State_count_since | split

theorem portLost_since (h : Since o s) {q : Nat} : Since o (portLost q s) := by
  unfold portLost
  repeat' first | with_reducible assumption | with_reducible apply portGoesDown_since | split

theorem atomicAgain_since (h : Since o s) {r : RemReq} : Since o (atomicAgain r s) := by
  unfold atomicAgain
  repeat' first | with_reducible assumption | with_reducible apply sendReq_since | split | dsimp only [accState, id]

theorem execAtomicRetry_keeps (h : Since o s) {req : BitVec 32} : Keeps o (execAtomicRetry req s) := by
  unfold execAtomicRetry
  apply keeps_next
  repeat' first | with_reducible assumption | with_reducible apply atomicAgain_since | split

theorem pathUpdWrite_since (h : Since o s) {v : Word} : Since o (pathUpdWrite v s) := by
  unfold pathUpdWrite
  repeat' first
    | with_reducible assumption | with_reducible apply pathUpdate_since | with_reducible apply since_foldl | intro _
    | split

theorem sampleQueue_since (h : Since o s) {q i : Nat} : Since o (sampleQueue q i s) := by
  unfold sampleQueue
  repeat' first
    | with_reducible assumption | with_reducible apply State_flag_since | with_reducible apply State_count_since
    | with_reducible apply devWrite_since | with_reducible apply State_putReg_since | split
    | dsimp only [accState, id]

theorem sampleTick_since (h : Since o s) : Since o (sampleTick s) := by
  unfold sampleTick
  repeat' first
    | with_reducible assumption | with_reducible apply modFab_since | with_reducible apply sampleQueue_since
    | with_reducible apply since_foldl | intro _ | split | dsimp only [accState, id]

theorem execSampleTick_keeps (h : Since o s) : Keeps o (execSampleTick s) := by
  unfold execSampleTick
  apply keeps_next
  exact sampleTick_since h

theorem portRetrain_since (h : Since o s) {q : Nat} : Since o (portRetrain q s) := by
  unfold portRetrain
  repeat' first
    | with_reducible assumption | with_reducible apply State_setFabPort_since
    | with_reducible apply State_putReg_since | split

theorem execPortRetrain_keeps (h : Since o s) {port : Fin 36} : Keeps o (execPortRetrain port s) := by
  unfold execPortRetrain
  apply keeps_next
  exact portRetrain_since h

theorem execPortDown_keeps (h : Since o s) {port : Fin 36} : Keeps o (execPortDown port s) := by
  unfold execPortDown
  apply keeps_next
  exact portLost_since h

theorem execFabPortCntRead_keeps (h : Since o s) {port : Fin 36} : Keeps o (execFabPortCntRead port s) := by
  unfold execFabPortCntRead
  apply keeps_next
  exact State_readPlain_since h

theorem indeterminate_since (h : Since o s) {r : RemReq} : Since o (indeterminate r s) := by
  unfold indeterminate
  repeat' first
    | with_reducible assumption | with_reducible apply dropReq_since | with_reducible apply State_flag_since
    | with_reducible apply errRecord_since | with_reducible apply remoteFaults_since | split
    | dsimp only [accState, id]

theorem atomicLate_since (h : Since o s) {r : RemReq} : Since o (atomicLate r s) := by
  unfold atomicLate
  repeat' first | with_reducible assumption | with_reducible apply indeterminate_since | split

theorem execAtomicTimeout_keeps (h : Since o s) {req : BitVec 32} : Keeps o (execAtomicTimeout req s) := by
  unfold execAtomicTimeout
  apply keeps_next
  repeat' first | with_reducible assumption | with_reducible apply atomicLate_since | split

theorem smpCfgWrite_since (h : Since o s) {v : Word} : Since o (smpCfgWrite v s) := by
  unfold smpCfgWrite
  repeat' first
    | with_reducible assumption | with_reducible apply State_writePlain_since
    | with_reducible apply State_setReg_since | split | dsimp only [accState, id]

theorem portTrained_since (h : Since o s) {q peer pport : Nat} : Since o (portTrained q peer pport s) := by
  unfold portTrained
  repeat' first
    | with_reducible assumption | with_reducible apply State_setReg_since | with_reducible apply State_putReg_since
    | with_reducible apply State_setFabPort_since | with_reducible apply portDead_since
    | with_reducible apply State_flag_since | split | dsimp only [accState, id]

theorem execPortTrained_keeps (h : Since o s) {port : Fin 36} {peer : BitVec 12} {peerPort : BitVec 6} :
    Keeps o (execPortTrained port peer peerPort s) := by
  unfold execPortTrained
  apply keeps_next
  exact portTrained_since h

theorem writesLate_since (h : Since o s) {n : Nat} : Since o (writesLate n s) := by
  unfold writesLate
  repeat' first
    | with_reducible assumption | with_reducible apply writeLost_since | with_reducible apply State_flag_since
    | with_reducible apply putOut_since | with_reducible apply since_foldl | intro _

theorem halfServes_since (h : Since o s) {q : Nat} {x1 : Option (Nat × QPkt)} : Since o (halfServes q x1 s) := by
  unfold halfServes
  repeat' first
    | with_reducible assumption | with_reducible apply sluiceHeld_since | with_reducible apply sluiceCharge_since
    | with_reducible apply since_foldl | intro _ | split

theorem noteSent_since (h : Since o s) {p : Packet} : Since o (noteSent p s) := by
  unfold noteSent
  repeat' first
    | with_reducible assumption | with_reducible apply State_setPeer_since | with_reducible apply modFab_since

theorem packetSend_since (h : Since o s) {q : Nat} : Since o (packetSend q s) := by
  unfold packetSend
  repeat' first
    | with_reducible assumption | with_reducible apply halfServes_since
    | with_reducible apply State_setFabPort_since | with_reducible apply noteSent_since
    | with_reducible apply State_emit_since | with_reducible apply State_count_since | split
    | dsimp only [accState, id]

theorem execPacketSend_keeps (h : Since o s) {port : Fin 36} : Keeps o (execPacketSend port s) := by
  unfold execPacketSend
  apply keeps_next
  exact packetSend_since h

theorem remAtomic_since (h : Since o s) {n a op : Nat} {operand compare : Word} {t : Nat} {part : Option Nat} :
    Since o (remAtomic n a op operand compare t part s).2 := by
  unfold remAtomic
  repeat' first | with_reducible assumption | with_reducible apply modFab_since | with_reducible apply sendReq_since

theorem resync_since (h : Since o s) {n : Nat} : Since o (resync n s) := by
  unfold resync
  repeat' first
    | with_reducible assumption | with_reducible apply State_setPeer_since | with_reducible apply modFab_since
    | with_reducible apply writeLost_since | with_reducible apply indeterminate_since
    | with_reducible apply sendReq_since | with_reducible apply since_foldl | intro _ | split

theorem sendLoose_since (h : Since o s) {n : Nat} {p : Packet} : Since o (sendLoose n p s) := by
  unfold sendLoose
  repeat' first
    | with_reducible assumption | with_reducible apply takePath_since | with_reducible apply sendOn_since | split
    | (refine since_pair (by with_reducible assumption) ?_)

theorem remWrite_since (h : Since o s) {n a : Nat} {data : List Byte} {part : Option Nat} {tag : PktTag} :
    Since o (remWrite n a data part tag s) := by
  unfold remWrite
  repeat' first
    | with_reducible assumption | with_reducible apply issue_since | with_reducible apply since_foldl | intro _

theorem execReplyCacheExpire_keeps (h : Since o s) : Keeps o (execReplyCacheExpire s) := by
  unfold execReplyCacheExpire
  apply keeps_next
  exact cacheExpire_since h

theorem execFabSmpEnable_keeps (h : Since o s) {v : Word} : Keeps o (execFabSmpEnable v s) := by
  unfold execFabSmpEnable
  apply keeps_next
  exact smpCfgWrite_since h

theorem execLoadTimeout_keeps (h : Since o s) {id : Nat} : Keeps o (execLoadTimeout id s) := by
  unfold execLoadTimeout
  apply keeps_next
  repeat' first | with_reducible assumption | with_reducible apply loadLate_since | split

theorem dmaReadFails_since (h : Since o s) {c off st a : Nat} {part : Option Nat} :
    Since o (dmaReadFails c off st a part s) := by
  unfold dmaReadFails
  repeat' first
    | with_reducible assumption | with_reducible apply dmaFails_since | with_reducible apply errRecord_since | split

theorem remoteRecord_since (h : Since o s) {cause a : Nat} {w : Who} : Since o (remoteRecord cause a w s) := by
  unfold remoteRecord
  repeat' first | with_reducible assumption | with_reducible apply errRecord_since | split

theorem execFabRcStatRead_keeps (h : Since o s) : Keeps o (execFabRcStatRead s) := by
  unfold execFabRcStatRead
  apply keeps_next
  repeat' first
    | with_reducible assumption | with_reducible apply State_emit_since | with_reducible apply State_putReg_since

theorem execWriteLostTimeout_keeps (h : Since o s) {node : BitVec 12} : Keeps o (execWriteLostTimeout node s) := by
  unfold execWriteLostTimeout
  apply keeps_next
  exact writesLate_since h

theorem rtoExpires_since (h : Since o s) {n : Nat} : Since o (rtoExpires n s) := by
  unfold rtoExpires
  repeat' first
    | with_reducible assumption | with_reducible apply State_setPeer_since | with_reducible apply pathDead_since
    | with_reducible apply retransmit_since | with_reducible apply since_foldl | intro _ | split
    | dsimp only [accState, id]

theorem execReadReissue_keeps (h : Since o s) {id : Nat} : Keeps o (execReadReissue id s) := by
  unfold execReadReissue
  apply keeps_next
  repeat' first | with_reducible assumption | with_reducible apply readAgain_since | split

theorem execFabPathUpd_keeps (h : Since o s) {v : Word} : Keeps o (execFabPathUpd v s) := by
  unfold execFabPathUpd
  apply keeps_next
  exact pathUpdWrite_since h

theorem fabPortCtlWrite_since (h : Since o s) {q : Nat} {v : Word} : Since o (fabPortCtlWrite q v s) := by
  unfold fabPortCtlWrite
  repeat' first
    | with_reducible assumption | with_reducible apply wakeDom_since | with_reducible apply State_writePlain_since
    | with_reducible apply State_setFabPort_since | with_reducible apply State_putReg_since
    | with_reducible apply portGoesDown_since | split | dsimp only [accState, id]

theorem dmaGot_since (h : Since o s) {c off : Nat} {data : List Byte} : Since o (dmaGot c off data s) := by
  unfold dmaGot
  exact modDmaRun_since h

theorem fabHalfReset_since (h : Since o s) {half : Nat} : Since o (fabHalfReset half s) := by
  unfold fabHalfReset
  repeat' first
    | with_reducible assumption | with_reducible apply portDead_since | with_reducible apply State_setFabPort_since
    | with_reducible apply rcPeak_since | with_reducible apply modFab_since
    | with_reducible apply State_putReg_since | with_reducible apply resync_since
    | with_reducible apply State_setPeer_since | with_reducible apply since_foldl | intro _ | split

theorem execFabCnt2Read_keeps (h : Since o s) : Keeps o (execFabCnt2Read s) := by
  unfold execFabCnt2Read
  apply keeps_next
  exact State_readPlain_since h

theorem remRead_since (h : Since o s) {n a bytes : Nat} {asker : Asker} {part : Option Nat} :
    Since o (remRead n a bytes asker part s).2 := by
  unfold remRead
  repeat' first | with_reducible assumption | with_reducible apply modFab_since | with_reducible apply sendReq_since

theorem execRetransmitTimeout_keeps (h : Since o s) {node : BitVec 12} : Keeps o (execRetransmitTimeout node s) := by
  unfold execRetransmitTimeout
  apply keeps_next
  exact rtoExpires_since h

theorem execFencef_keeps (h : Since o s) {t : Fin 128} : Keeps o (execFencef t s) := by
  unfold execFencef
  apply keeps_next
  repeat' first
    | with_reducible assumption | with_reducible apply runInstr_since | with_reducible apply State_modCore_since
    | intro _

/-! ### CollBase -/

theorem State_setProg_since (h : Since o s) {p : Nat} {x : Prog} : Since o (State.setProg s p x) := by
  unfold State.setProg
  repeat' first | with_reducible assumption | dsimp only [accState, id] | simp only [since_mk]

theorem State_modProg_since (h : Since o s) {p : Nat} {f : Prog → Prog} : Since o (State.modProg s p f) := by
  unfold State.modProg
  exact State_setProg_since h

theorem grantCredit_since (h : Since o s) {p : Nat} {dir : Bool} {set rank : Nat} :
    Since o (grantCredit p dir set rank s) := by
  unfold grantCredit
  exact State_modProg_since h

theorem sendColl_since (h : Since o s) {p node addr : Nat} {tag : PktTag} {k : CollKind} :
    Since o (sendColl p node addr tag k s) := by
  unfold sendColl
  exact issue_since h

theorem releaseArea_since (h : Since o s) {x0 : Nat} {dir : Bool} {set src : Nat} :
    Since o (releaseArea x0 dir set src s) := by
  unfold releaseArea
  repeat' first
    | with_reducible assumption | with_reducible apply grantCredit_since | with_reducible apply sendColl_since
    | split | dsimp only [accState, id] | simp only [since_mk]

theorem memberOf_since (h : Since o s) {p i : Nat} : Since o (memberOf p i s).2 := by
  unfold memberOf
  repeat' first
    | with_reducible assumption | with_reducible apply devRead_since | split
    | (refine since_pair (by with_reducible assumption) ?_) | dsimp only [accState, id]

theorem sendControl_since (h : Since o s) {p member : Nat} {not_ : Option Nat} {k : CollKind} :
    Since o (sendControl p member not_ k s) := by
  unfold sendControl
  repeat' first
    | with_reducible assumption | with_reducible apply memberOf_since | with_reducible apply sendColl_since | split
    | (refine since_pair (by with_reducible assumption) ?_)

/-! ### Gleaner -/

theorem State_setDrover_since (h : Since o s) {x1 : Nat} {x : Drover} : Since o (State.setDrover s x1 x) := by
  unfold State.setDrover
  repeat' first | with_reducible assumption | simp only [since_mk]

theorem State_setSlot_since (h : Since o s) {x1 i : Nat} {x : Option StepSlot} :
    Since o (State.setSlot s x1 i x) := by
  unfold State.setSlot
  exact State_setDrover_since h

theorem setHome_since (h : Since o s) {x0 i : Nat} {x : Home} : Since o (setHome x0 i x s) := by
  unfold setHome
  exact State_setSlot_since h

theorem modHome_since (h : Since o s) {x0 i : Nat} {f : Home → Home} : Since o (modHome x0 i f s) := by
  unfold modHome
  repeat' first | with_reducible assumption | with_reducible apply setHome_since | split

theorem drvWrite_since (h : Since o s) {x0 a : Nat} {d : List Byte} : Since o (drvWrite x0 a d s) := by
  unfold drvWrite
  exact devWrite_since h

theorem setPair_since (h : Since o s) {x0 i t j : Nat} {f : Pair → Pair} : Since o (setPair x0 i t j f s) := by
  unfold setPair
  repeat' first
    | with_reducible assumption | with_reducible apply setHome_since | with_reducible apply State_count_since
    | with_reducible apply drvWrite_since | split

theorem loseHome_since (h : Since o s) {x : Home} : Since o (loseHome x s) := by
  unfold loseHome
  repeat' first
    | with_reducible assumption | with_reducible apply State_loseRegion_since | with_reducible apply since_foldl
    | intro _

theorem drvPutRecord_since (h : Since o s) {x0 : Nat} {rec : List Word} : Since o (drvPutRecord x0 rec s) := by
  unfold drvPutRecord
  repeat' first
    | with_reducible assumption | with_reducible apply drvWrite_since | with_reducible apply ringReg_since
    | with_reducible apply State_putReg_since

theorem drvSignal_since (h : Since o s) {x0 mask b : Nat} : Since o (drvSignal x0 mask b s) := by
  unfold drvSignal
  exact deliverEvts_since h

theorem finishSlot_since (h : Since o s) {x0 i : Nat} : Since o (finishSlot x0 i s) := by
  unfold finishSlot
  repeat' first
    | with_reducible assumption | with_reducible apply State_flagIf_since | with_reducible apply drvPutRecord_since
    | with_reducible apply drvSignal_since | with_reducible apply State_setSlot_since
    | with_reducible apply State_setDrover_since | split

theorem releaseReturns_since (h : Since o s) {x0 i : Nat} : Since o (releaseReturns x0 i s) := by
  unfold releaseReturns
  repeat' first
    | with_reducible assumption | with_reducible apply setHome_since | with_reducible apply releaseArea_since
    | with_reducible apply since_foldl | intro _ | split

theorem completeHome_since (h : Since o s) {x0 i : Nat} : Since o (completeHome x0 i s) := by
  unfold completeHome
  repeat' first
    | with_reducible assumption | with_reducible apply loseHome_since | with_reducible apply State_count_since
    | with_reducible apply finishSlot_since | with_reducible apply releaseReturns_since
    | with_reducible apply modHome_since | split

theorem modTok_since (h : Since o s) {x0 i t : Nat} {f : Tok → Tok} : Since o (modTok x0 i t f s) := by
  unfold modTok
  exact modHome_since h

theorem issueCombine_since (h : Since o s) {x0 i t c : Nat} {x : Home} {tk : Tok} :
    Since o (issueCombine x0 i t c x tk s) := by
  unfold issueCombine
  repeat' first
    | with_reducible assumption | with_reducible apply modTok_since | with_reducible apply modHome_since
    | with_reducible apply seIssue_since

theorem pumpTok_since (h : Since o s) {x0 i t x3 : Nat} : Since o (pumpTok x0 i t x3 s) := by
  induction x3 generalizing s x0 i t with
  | zero =>
    first | rw [pumpTok] | unfold pumpTok
    repeat' first | with_reducible assumption
  | succ n ih =>
    first | rw [pumpTok] | unfold pumpTok
    repeat' first
      | with_reducible assumption | with_reducible apply ih | with_reducible apply modTok_since
      | with_reducible apply State_count_since | with_reducible apply issueCombine_since | split

theorem pumpHome_since (h : Since o s) {x0 i : Nat} : Since o (pumpHome x0 i s) := by
  unfold pumpHome
  repeat' first
    | with_reducible assumption | with_reducible apply pumpTok_since | with_reducible apply since_foldl | intro _
    | split

theorem beginFinal_since (h : Since o s) {x0 i : Nat} : Since o (beginFinal x0 i s) := by
  unfold beginFinal
  repeat' first
    | with_reducible assumption | with_reducible apply modHome_since | with_reducible apply setPair_since
    | with_reducible apply completeHome_since | with_reducible apply releaseReturns_since
    | with_reducible apply pumpHome_since | with_reducible apply since_foldl | intro _ | split

theorem tryFinal_since (h : Since o s) {x0 i : Nat} : Since o (tryFinal x0 i s) := by
  unfold tryFinal
  repeat' first
    | with_reducible assumption | with_reducible apply beginFinal_since | with_reducible apply completeHome_since
    | split

theorem homeStaged_since (h : Since o s) {x0 i rank count : Nat} : Since o (homeStaged x0 i rank count s) := by
  unfold homeStaged
  repeat' first
    | with_reducible assumption | with_reducible apply drvWrite_since | with_reducible apply modHome_since | split

theorem stageHome_since (h : Since o s) {x0 i : Nat} {g : Stage} : Since o (stageHome x0 i g s) := by
  unfold stageHome
  repeat' first
    | with_reducible assumption | with_reducible apply homeStaged_since | with_reducible apply drvWrite_since
    | with_reducible apply modHome_since | with_reducible apply seIssue_since | split | dsimp only [accState, id]

theorem stageHomes_since (h : Since o s) {x0 i : Nat} : Since o (stageHomes x0 i s) := by
  unfold stageHomes
  repeat' first
    | with_reducible assumption | with_reducible apply stageHome_since | with_reducible apply since_foldl | intro _
    | split

theorem homeGoesOn_since (h : Since o s) {x0 i : Nat} : Since o (homeGoesOn x0 i s) := by
  unfold homeGoesOn
  repeat' first
    | with_reducible assumption | with_reducible apply tryFinal_since | with_reducible apply releaseReturns_since
    | with_reducible apply pumpHome_since | with_reducible apply stageHomes_since

theorem drvRead_since (h : Since o s) {x0 a len : Nat} : Since o (drvRead x0 a len s).2 := by
  unfold drvRead
  repeat' first
    | with_reducible assumption | with_reducible apply devRead_since | split
    | (refine since_pair (by with_reducible assumption) ?_)

theorem setRecv_since (h : Since o s) {x0 i : Nat} {x : Recv} : Since o (setRecv x0 i x s) := by
  unfold setRecv
  exact State_setSlot_since h

theorem modRecv_since (h : Since o s) {x0 i : Nat} {f : Recv → Recv} : Since o (modRecv x0 i f s) := by
  unfold modRecv
  repeat' first | with_reducible assumption | with_reducible apply setRecv_since | split

theorem stageDone_since (h : Since o s) {x0 i rank : Nat} {c : SeCmd} : Since o (stageDone x0 i rank c s) := by
  unfold stageDone
  repeat' first
    | with_reducible assumption | with_reducible apply modHome_since | with_reducible apply homeStaged_since
    | with_reducible apply setPair_since | with_reducible apply since_foldl | intro _ | split

theorem finExpires_since (h : Since o s) {x0 i : Nat} : Since o (finExpires x0 i s) := by
  unfold finExpires
  repeat' first | with_reducible assumption | with_reducible apply beginFinal_since | split

theorem sharedPost_since (h : Since o s) {x0 : Nat} {v : Word} : Since o (sharedPost x0 v s) := by
  unfold sharedPost
  repeat' first
    | with_reducible assumption | with_reducible apply State_flag_since | with_reducible apply homeGoesOn_since
    | with_reducible apply modHome_since | split | dsimp only [accState, id]

theorem takeTag_since (h : Since o s) {x0 i dev : Nat} {tag : Word} {row : Nat} :
    Since o (takeTag x0 i dev tag row s) := by
  unfold takeTag
  repeat' first
    | with_reducible assumption | with_reducible apply State_count_since | with_reducible apply setPair_since
    | split | dsimp only [accState, id]

theorem returnArrive_since (h : Since o s) {x0 set src : Nat} : Since o (returnArrive x0 set src s) := by
  unfold returnArrive
  repeat' first
    | with_reducible assumption | with_reducible apply drvRead_since | with_reducible apply releaseArea_since
    | with_reducible apply State_count_since | with_reducible apply modHome_since
    | with_reducible apply takeTag_since | with_reducible apply setPair_since
    | with_reducible apply homeGoesOn_since | with_reducible apply since_foldl | intro _ | split
    | dsimp only [accState, id]

theorem voidStaged_since (h : Since o s) {x0 : Nat} {x : Home} : Since o (voidStaged x0 x s) := by
  unfold voidStaged
  repeat' first
    | with_reducible assumption | with_reducible apply drvWrite_since | with_reducible apply since_foldl | intro _
    | split | dsimp only [accState, id]

theorem combineDone_since (h : Since o s) {x0 i t c : Nat} {cmd : SeCmd} : Since o (combineDone x0 i t c cmd s) := by
  unfold combineDone
  repeat' first
    | with_reducible assumption | with_reducible apply modHome_since | with_reducible apply modTok_since
    | with_reducible apply setPair_since | with_reducible apply homeGoesOn_since | with_reducible apply since_foldl
    | intro _ | split

theorem endHome_since (h : Since o s) {x0 i status : Nat} : Since o (endHome x0 i status s) := by
  unfold endHome
  repeat' first
    | with_reducible assumption | with_reducible apply voidStaged_since | with_reducible apply modHome_since
    | with_reducible apply completeHome_since | with_reducible apply releaseReturns_since
    | with_reducible apply stageHomes_since | split

theorem drvCancel_since (h : Since o s) {x0 : Nat} {v : Word} : Since o (drvCancel x0 v s) := by
  unfold drvCancel
  repeat' first
    | with_reducible assumption | with_reducible apply endHome_since | with_reducible apply State_flag_since | split

theorem drvFlush_since (h : Since o s) {x0 : Nat} : Since o (drvFlush x0 s) := by
  unfold drvFlush
  repeat' first
    | with_reducible assumption | with_reducible apply finishSlot_since | with_reducible apply since_foldl | intro _

/-! ### Drover -/

theorem startSelect_since (h : Since o s) {x0 i : Nat} {d : List Word} : Since o (startSelect x0 i d s) := by
  unfold startSelect
  repeat' first
    | with_reducible assumption | with_reducible apply modHome_since | with_reducible apply seIssue_since
    | with_reducible apply since_foldl | intro _

theorem takeHome_since (h : Since o s) {x0 i : Nat} {d : List Word} : Since o (takeHome x0 i d s) := by
  unfold takeHome
  repeat' first
    | with_reducible assumption | with_reducible apply startSelect_since | with_reducible apply setHome_since
    | with_reducible apply completeHome_since | with_reducible apply stageHomes_since | split
    | dsimp only [accState, id]

theorem homeRead_since (h : Since o s) {x0 i a len : Nat} : Since o (homeRead x0 i a len s).2 := by
  unfold homeRead
  repeat' first
    | with_reducible assumption | with_reducible apply drvRead_since | with_reducible apply modHome_since | split
    | (refine since_pair (by with_reducible assumption) ?_)

theorem homeRecords_since (h : Since o s) {x0 i a n : Nat} : Since o (homeRecords x0 i a n s).2 := by
  unfold homeRecords
  repeat' first | with_reducible assumption | with_reducible apply homeRead_since

theorem tokenLists_since (h : Since o s) {x0 i : Nat} {d : List Word} : Since o (tokenLists x0 i d s).2.2 := by
  unfold tokenLists
  repeat' first
    | with_reducible assumption | with_reducible apply homeRead_since | with_reducible apply homeRecords_since
    | with_reducible apply since_foldl2 | intro _ | split

theorem tokenScores_since (h : Since o s) {x0 i : Nat} {d : List Word} {t : Nat} {es : List Nat} :
    Since o (tokenScores x0 i d t es s).2 := by
  unfold tokenScores
  repeat' first
    | with_reducible assumption | with_reducible apply homeRead_since | with_reducible apply since_foldl2 | intro _

theorem allScores_since (h : Since o s) {x0 i : Nat} {d : List Word} {ls : List (List Nat)} :
    Since o (allScores x0 i d ls s).2 := by
  unfold allScores
  repeat' first
    | with_reducible assumption | with_reducible apply tokenScores_since | with_reducible apply since_foldl2
    | intro _

theorem loadAlarm_since (h : Since o s) {x0 : Nat} {d : List Word} {ls : List (List (Nat × Nat))}
    {caps unpicked : Nat} :
    Since o (loadAlarm x0 d ls caps unpicked s) := by
  unfold loadAlarm
  repeat' first
    | with_reducible assumption | with_reducible apply State_flag_since | with_reducible apply State_putReg_since
    | split | dsimp only [accState, id]

theorem selectionMerge_since (h : Since o s) {x0 i : Nat} : Since o (selectionMerge x0 i s) := by
  unfold selectionMerge
  repeat' first
    | with_reducible assumption | with_reducible apply State_loseRegion_since
    | with_reducible apply homeGoesOn_since | with_reducible apply setHome_since
    | with_reducible apply tokenLists_since | with_reducible apply allScores_since
    | with_reducible apply homeRead_since | with_reducible apply State_count_since
    | with_reducible apply State_flagIf_since | with_reducible apply loadAlarm_since
    | with_reducible apply modHome_since | with_reducible apply drvWrite_since | with_reducible apply since_foldl
    | intro _ | split

theorem completeRecv_since (h : Since o s) {x0 i : Nat} : Since o (completeRecv x0 i s) := by
  unfold completeRecv
  repeat' first
    | with_reducible assumption | with_reducible apply finishSlot_since | with_reducible apply setRecv_since | split

theorem recvStaged_since (h : Since o s) {x0 i rank count : Nat} : Since o (recvStaged x0 i rank count s) := by
  unfold recvStaged
  repeat' first
    | with_reducible assumption | with_reducible apply drvWrite_since | with_reducible apply State_used_since
    | with_reducible apply modRecv_since | split

theorem stageRecv_since (h : Since o s) {x0 i : Nat} {g : Stage} : Since o (stageRecv x0 i g s) := by
  unfold stageRecv
  repeat' first
    | with_reducible assumption | with_reducible apply recvStaged_since | with_reducible apply drvWrite_since
    | with_reducible apply modRecv_since | with_reducible apply seIssue_since | split | dsimp only [accState, id]

theorem stageRecvs_since (h : Since o s) {x0 i : Nat} : Since o (stageRecvs x0 i s) := by
  unfold stageRecvs
  repeat' first
    | with_reducible assumption | with_reducible apply completeRecv_since | with_reducible apply stageRecv_since
    | with_reducible apply since_foldl | intro _ | split

theorem tryPad_since (h : Since o s) {x0 i : Nat} : Since o (tryPad x0 i s) := by
  unfold tryPad
  repeat' first
    | with_reducible assumption | with_reducible apply setRecv_since | with_reducible apply seIssue_since | split
    | dsimp only [accState, id]

theorem engineDone_since (h : Since o s) {c : SeCmd} : Since o (engineDone c s) := by
  unfold engineDone
  repeat' first
    | with_reducible assumption | with_reducible apply modHome_since | with_reducible apply selectionMerge_since
    | with_reducible apply homeGoesOn_since | with_reducible apply stageDone_since
    | with_reducible apply setRecv_since | with_reducible apply State_count_since
    | with_reducible apply stageRecvs_since | with_reducible apply tryPad_since
    | with_reducible apply releaseArea_since | with_reducible apply drvSignal_since
    | with_reducible apply completeRecv_since | with_reducible apply recvStaged_since
    | with_reducible apply combineDone_since | split | dsimp only [accState, id]

theorem seComplete_since (h : Since o s) {k seq : Nat} : Since o (seComplete k seq s) := by
  unfold seComplete
  repeat' first
    | with_reducible assumption | with_reducible apply engineDone_since | with_reducible apply seFinish_since
    | split

theorem handleSlot_since (h : Since o s) {x0 i src : Nat} : Since o (handleSlot x0 i src s) := by
  unfold handleSlot
  repeat' first
    | with_reducible assumption | with_reducible apply releaseArea_since | with_reducible apply drvRead_since
    | with_reducible apply State_count_since | with_reducible apply setRecv_since
    | with_reducible apply tryPad_since | with_reducible apply seIssue_since | split | dsimp only [accState, id]

theorem handleArrivals_since (h : Since o s) {x0 i set : Nat} : Since o (handleArrivals x0 i set s) := by
  unfold handleArrivals
  repeat' first
    | with_reducible assumption | with_reducible apply handleSlot_since | with_reducible apply since_foldl | intro _
    | split

theorem takeRecv_since (h : Since o s) {x0 i addr : Nat} {d : List Word} : Since o (takeRecv x0 i addr d s) := by
  unfold takeRecv
  repeat' first
    | with_reducible assumption | with_reducible apply handleArrivals_since | with_reducible apply setRecv_since
    | with_reducible apply finishSlot_since | split | dsimp only [accState, id]

theorem dispatchArrive_since (h : Since o s) {x0 set src : Nat} : Since o (dispatchArrive x0 set src s) := by
  unfold dispatchArrive
  repeat' first
    | with_reducible assumption | with_reducible apply State_loseRegion_since
    | with_reducible apply State_count_since | with_reducible apply State_setDrover_since
    | with_reducible apply handleSlot_since | split | dsimp only [accState, id]

theorem mapEntries_since (h : Since o s) {x0 : Nat} {d : List Word} : Since o (mapEntries x0 d s).2 := by
  unfold mapEntries
  repeat' first
    | with_reducible assumption | with_reducible apply drvRead_since | with_reducible apply since_foldl2 | intro _

theorem buildReturns_since (h : Since o s) {x0 i : Nat} : Since o (buildReturns x0 i s) := by
  unfold buildReturns
  repeat' first
    | with_reducible assumption | with_reducible apply drvRead_since | with_reducible apply mapEntries_since
    | with_reducible apply State_count_since | with_reducible apply stageRecvs_since
    | with_reducible apply setRecv_since | split

theorem retPost_since (h : Since o s) {x0 : Nat} {v : Word} : Since o (retPost x0 v s) := by
  unfold retPost
  repeat' first
    | with_reducible assumption | with_reducible apply buildReturns_since | with_reducible apply State_flag_since
    | split

theorem drvPost_since (h : Since o s) {x0 : Nat} {v : Word} : Since o (drvPost x0 v s) := by
  unfold drvPost
  repeat' first
    | with_reducible assumption | with_reducible apply State_flag_since | with_reducible apply drvRead_since
    | with_reducible apply finishSlot_since | with_reducible apply setRecv_since
    | with_reducible apply takeHome_since | with_reducible apply takeRecv_since | split | dsimp only [accState, id]

theorem drvAlarmClear_since (h : Since o s) {x0 : Nat} {v : Word} : Since o (drvAlarmClear x0 v s) := by
  unfold drvAlarmClear
  repeat' first
    | with_reducible assumption | with_reducible apply State_writePlain_since
    | with_reducible apply State_putReg_since | split | dsimp only [accState, id]

theorem rxExpires_since (h : Since o s) {x0 i : Nat} : Since o (rxExpires x0 i s) := by
  unfold rxExpires
  repeat' first
    | with_reducible assumption | with_reducible apply tryPad_since | with_reducible apply setRecv_since
    | with_reducible apply State_count_since | split

theorem drvCqCfgWrite_since (h : Since o s) {x0 : Nat} {v : Word} : Since o (drvCqCfgWrite x0 v s) := by
  unfold drvCqCfgWrite
  repeat' first
    | with_reducible assumption | with_reducible apply State_writePlain_since
    | with_reducible apply State_setReg_since | with_reducible apply drvFlush_since | split

theorem drvStop_since (h : Since o s) {x0 : Nat} : Since o (drvStop x0 s) := by
  unfold drvStop
  repeat' first
    | with_reducible assumption | with_reducible apply endHome_since | with_reducible apply stageRecvs_since
    | with_reducible apply setRecv_since | with_reducible apply since_foldl | intro _ | split

theorem stagedFree_since (h : Since o s) {x0 : Nat} : Since o (stagedFree x0 s) := by
  unfold stagedFree
  repeat' first
    | with_reducible assumption | with_reducible apply stageRecvs_since | with_reducible apply completeHome_since
    | with_reducible apply stageHomes_since | with_reducible apply since_foldl | intro _

theorem drvCtlWrite_since (h : Since o s) {x0 : Nat} {v : Word} : Since o (drvCtlWrite x0 v s) := by
  unfold drvCtlWrite
  repeat' first
    | with_reducible assumption | with_reducible apply State_writePlain_since
    | with_reducible apply handleArrivals_since | with_reducible apply since_foldl | intro _ | split
    | dsimp only [accState, id]

theorem drvCqHeadWrite_since (h : Since o s) {x0 : Nat} {v : Word} : Since o (drvCqHeadWrite x0 v s) := by
  unfold drvCqHeadWrite
  repeat' first
    | with_reducible assumption | with_reducible apply drvFlush_since | with_reducible apply State_putReg_since
    | split

/-! ### FabMem -/

theorem targetRefuses_since (h : Since o s) {port src a : Nat} : Since o (targetRefuses port src a s) := by
  unfold targetRefuses
  repeat' first
    | with_reducible assumption | with_reducible apply errRecord_since | with_reducible apply State_count_since

theorem targetCheck_since (h : Since o s) {port src key kind a len : Nat} :
    Since o (targetCheck port src key kind a len s).2 := by
  unfold targetCheck
  repeat' first | with_reducible assumption | with_reducible apply targetRefuses_since | split

theorem targetWrite_since (h : Since o s) {port src key a : Nat} {data : List Byte} :
    Since o (targetWrite port src key a data s).2 := by
  unfold targetWrite
  repeat' first
    | with_reducible assumption | with_reducible apply targetCheck_since | with_reducible apply devWrite_since
    | split | (refine since_pair (by with_reducible assumption) ?_)

theorem writeRefused_since (h : Since o s) {part : Option Nat} {a : Nat} : Since o (writeRefused part a s) := by
  unfold writeRefused
  repeat' first
    | with_reducible assumption | with_reducible apply State_flag_since | with_reducible apply errRecord_since
    | split

theorem windowStore_since (h : Since o s) {part : Option Nat} {a : Nat} {data : List Byte} {tag : PktTag} :
    Since o (windowStore part a data tag s).2 := by
  unfold windowStore
  repeat' first
    | with_reducible assumption | with_reducible apply targetWrite_since | with_reducible apply writeRefused_since
    | with_reducible apply remWrite_since | split | (refine since_pair (by with_reducible assumption) ?_)

theorem targetRead_since (h : Since o s) {port src key a len : Nat} :
    Since o (targetRead port src key a len s).2 := by
  unfold targetRead
  repeat' first
    | with_reducible assumption | with_reducible apply targetCheck_since | with_reducible apply devRead_since
    | split | (refine since_pair (by with_reducible assumption) ?_)

theorem targetAtomic_since (h : Since o s) {port src key a op : Nat} {operand compare : Word} :
    Since o (targetAtomic port src key a op operand compare s).2.2 := by
  unfold targetAtomic
  repeat' first
    | with_reducible assumption | with_reducible apply targetCheck_since | with_reducible apply devRead_since
    | with_reducible apply devWrite_since | split | (refine since_pair (by with_reducible assumption) ?_)
    | dsimp only [accState, id]

end Sys2Proof.Laws
end

