-- ==== Sys2Proof/Laws/KeepsSched.lean ====
section
/-! SUPPORT. What the operations keep (`Since` of Safety.lean), one lemma for each: launches and the scheduler. A lemma named _since speaks
of an operation on the state, one named _keeps of the meaning of a command. -/

namespace Sys2Proof.Laws

open Sys2Proof
open Sys2Proof.Machine

variable {o s : State}

/-! ### Launch -/

theorem startLoad_since (h : Since o s) {t : Nat} : Since o (startLoad t s) := by
  unfold startLoad
  exact State_modTile_since h

theorem pinAll_since (h : Since o s) {x0 : List Nat} : Since o (pinAll x0 s).2 := by
  induction x0 generalizing s with
  | nil =>
    first | rw [pinAll] | unfold pinAll
    repeat' first | with_reducible assumption
  | cons y ys ih =>
    first | rw [pinAll] | unfold pinAll
    repeat' first | with_reducible assumption | with_reducible apply ih | with_reducible apply pinPage_since

theorem addPins_since (h : Since o s) {id t : Nat} {ns : List Nat} : Since o (addPins id t ns s) := by
  unfold addPins
  repeat' first | with_reducible assumption | with_reducible apply pinAll_since | with_reducible apply modPart_since

theorem writePath_since (h : Since o s) {p : Nat} {ws : List Word} {w : Word} : Since o (writePath p ws w s).2 := by
  unfold writePath
  repeat' first
    | with_reducible assumption | with_reducible apply devWrite_since | split
    | (refine since_pair (by with_reducible assumption) ?_)

theorem pagesUsable_since (h : Since o s) {x0 : List Nat} : Since o (pagesUsable x0 s).2 := by
  induction x0 generalizing s with
  | nil =>
    first | rw [pagesUsable] | unfold pagesUsable
    repeat' first | with_reducible assumption
  | cons y ys ih =>
    first | rw [pagesUsable] | unfold pagesUsable
    repeat' first
      | with_reducible assumption | with_reducible apply ih | with_reducible apply decideFall_since | split
      | dsimp only [accState, id]

theorem takenPath_since (h : Since o s) {p taken : Nat} {bad : Bool} {ws : List Word} :
    Since o (takenPath p taken bad ws s).2 := by
  unfold takenPath
  repeat' first
    | with_reducible assumption | with_reducible apply State_flagIf_since | with_reducible apply State_count_since
    | with_reducible apply writePath_since | split

theorem placeRaise_since (h : Since o s) {p : Nat} {c : GrnCmd} : Since o (placeRaise p c s) := by
  unfold placeRaise
  repeat' first
    | with_reducible assumption | with_reducible apply setQueue_since | with_reducible apply modGrn_since | split

theorem evalDecl_since (h : Since o s) {id t p i : Nat} {wait : Bool} {all : List Word} :
    Since o (evalDecl id t p i wait all s).2 := by
  unfold evalDecl
  repeat' first
    | with_reducible assumption | with_reducible apply pagesUsable_since | with_reducible apply addPins_since
    | with_reducible apply takenPath_since | with_reducible apply cancelFallOf_since
    | with_reducible apply placeRaise_since | with_reducible apply modPart_since | with_reducible apply since_foldl
    | with_reducible apply since_foldr | intro _ | split | simp only

theorem evalFrom_since (h : Since o s) {id t p : Nat} {wait : Bool} {all : List Word} {x5 x6 : Nat} :
    Since o (evalFrom id t p wait all x5 x6 s).2 := by
  induction x5 generalizing s id t p wait all x6 with
  | zero =>
    first | rw [evalFrom] | unfold evalFrom
    repeat' first | with_reducible assumption
  | succ n ih =>
    first | rw [evalFrom] | unfold evalFrom
    repeat' first
      | with_reducible assumption | with_reducible apply ih | with_reducible apply evalDecl_since | split
      | (refine since_pair (by with_reducible assumption) ?_)

theorem startTile_since (h : Since o s) {l : Launch} {evt : BitVec 32} {t : Nat} :
    Since o (startTile l evt t s) := by
  unfold startTile
  repeat' first
    | with_reducible assumption | with_reducible apply modPart_since | with_reducible apply State_modTile_since

theorem startTiles_since (h : Since o s) {l : Launch} {ts : List Nat} : Since o (startTiles l ts s) := by
  unfold startTiles
  repeat' first
    | with_reducible assumption | with_reducible apply noteCx_since | with_reducible apply State_setReg_since
    | with_reducible apply startTile_since | with_reducible apply since_foldl | intro _ | split

theorem startReady_since (h : Since o s) {id : Nat} : Since o (startReady id s) := by
  unfold startReady
  repeat' first | with_reducible assumption | with_reducible apply startTiles_since | split | simp only

theorem loadIfStale_since (h : Since o s) {t : Nat} : Since o (loadIfStale t s) := by
  unfold loadIfStale
  repeat' first | with_reducible assumption | with_reducible apply startLoad_since | split | dsimp only [accState, id]

theorem freeTile_since (h : Since o s) {t : Nat} : Since o (freeTile t s) := by
  unfold freeTile
  repeat' first
    | with_reducible assumption | with_reducible apply loadIfStale_since | with_reducible apply State_modTile_since

theorem unpinPart_since (h : Since o s) {id t : Nat} : Since o (unpinPart id t s) := by
  unfold unpinPart
  repeat' first
    | with_reducible assumption | with_reducible apply modPart_since | with_reducible apply unpinPage_since
    | with_reducible apply since_foldl | intro _

theorem writeRecord_since (h : Since o s) {c : Nat} {ws : List Word} : Since o (writeRecord c ws s) := by
  unfold writeRecord
  repeat' first
    | with_reducible assumption | with_reducible apply devWrite_since | with_reducible apply ringReg_since
    | with_reducible apply State_putReg_since

theorem postRecord_since (h : Since o s) {c : Nat} {ws : List Word} : Since o (postRecord c ws s) := by
  unfold postRecord
  repeat' first
    | with_reducible assumption | with_reducible apply writeRecord_since | with_reducible apply State_count_since
    | with_reducible apply modCx_since | split

theorem publishStep_since (h : Since o s) {c step : Nat} : Since o (publishStep c step s) := by
  unfold publishStep
  repeat' first
    | with_reducible assumption | with_reducible apply State_setReg_since | with_reducible apply windowStore_since
    | with_reducible apply memErrRecord_since | split | (refine since_pair (by with_reducible assumption) ?_)
    | dsimp only [accState, id]

theorem finishLaunch_since (h : Since o s) {c : Nat} {quiet : Bool} {status reason : Nat} {stepEnd : Bool}
    {step : Nat} {ws : List Word} :
    Since o (finishLaunch c quiet status reason stepEnd step ws s) := by
  unfold finishLaunch
  repeat' first
    | with_reducible assumption | with_reducible apply postRecord_since | with_reducible apply State_count_since
    | with_reducible apply publishStep_since | with_reducible apply State_putReg_since | split

theorem reportLaunch_since (h : Since o s) {l : Launch} : Since o (reportLaunch l s) := by
  unfold reportLaunch
  repeat' first
    | with_reducible assumption | with_reducible apply modSched_since | with_reducible apply State_used_since
    | with_reducible apply noteCx_since | with_reducible apply finishLaunch_since | split

theorem completeLaunch_since (h : Since o s) {id : Nat} : Since o (completeLaunch id s) := by
  unfold completeLaunch
  repeat' first
    | with_reducible assumption | with_reducible apply noteCx_since | with_reducible apply modLaunch_since
    | with_reducible apply reportLaunch_since | split | simp only

theorem endPart_since (h : Since o s) {id t status reason : Nat} : Since o (endPart id t status reason s) := by
  unfold endPart
  repeat' first
    | with_reducible assumption | with_reducible apply unpinPart_since | with_reducible apply State_setReg_since
    | with_reducible apply faultOf_since | with_reducible apply completeLaunch_since
    | with_reducible apply noteCx_since | with_reducible apply modPart_since | split

theorem evalEnds_since {id t : Nat} {r : EvalEnd × State} (h : Since o r.2) : Since o (evalEnds id t r) := by
  unfold evalEnds
  repeat' first
    | with_reducible assumption | with_reducible apply modPart_since | with_reducible apply State_modTile_since
    | with_reducible apply freeTile_since | with_reducible apply endPart_since | split

theorem resolveHold_since (h : Since o s) {t : Nat} : Since o (resolveHold t s) := by
  unfold resolveHold
  repeat' first
    | with_reducible assumption | with_reducible apply addPins_since | with_reducible apply State_count_since
    | with_reducible apply writePath_since | with_reducible apply evalFrom_since
    | with_reducible apply modPart_since | with_reducible apply noteCx_since | with_reducible apply startReady_since
    | with_reducible apply evalEnds_since | split | (refine since_pair (by with_reducible assumption) ?_)
    | dsimp only [accState, id]

theorem resolvePass_since (h : Since o s) : Since o (resolvePass s) := by
  unfold resolvePass
  repeat' first
    | with_reducible assumption | with_reducible apply resolveHold_since | with_reducible apply since_foldl
    | intro _

theorem resolveRefused_since (h : Since o s) : Since o (resolveRefused s) := by
  unfold resolveRefused
  repeat' first
    | with_reducible assumption | with_reducible apply resolvePass_since | with_reducible apply since_foldl
    | intro _ | split

theorem schedRead_since (h : Since o s) {p a len : Nat} : Since o (schedRead p a len s).2 := by
  unfold schedRead
  repeat' first
    | with_reducible assumption | with_reducible apply devRead_since | split
    | (refine since_pair (by with_reducible assumption) ?_)

theorem evalLaunch_since (h : Since o s) {l : Launch} {t i : Nat} : Since o (evalLaunch l t i s).2 := by
  unfold evalLaunch
  repeat' first
    | with_reducible assumption | with_reducible apply schedRead_since | with_reducible apply evalFrom_since | split
    | (refine since_pair (by with_reducible assumption) ?_)

theorem launchOn_since (h : Since o s) {t : Nat} : Since o (launchOn t s) := by
  unfold launchOn
  repeat' first
    | with_reducible assumption | with_reducible apply State_modTile_since | with_reducible apply wakeTile_since
    | with_reducible apply planLive_since | with_reducible apply startLoad_since | with_reducible apply noteCx_since
    | with_reducible apply resolveRefused_since | with_reducible apply startReady_since
    | with_reducible apply evalEnds_since | with_reducible apply evalLaunch_since | split
    | dsimp only [accState, id]

theorem placeOn_since (h : Since o s) {id t : Nat} : Since o (placeOn id t s) := by
  unfold placeOn
  repeat' first
    | with_reducible assumption | with_reducible apply modLaunch_since | with_reducible apply modPart_since
    | with_reducible apply noteCx_since | with_reducible apply launchOn_since
    | with_reducible apply State_modTile_since | split

theorem execKend_keeps (h : Since o s) {t : Fin 128} {a : Fin 64} : Keeps o (execKend t a s) := by
  unfold execKend
  apply keeps_next
  repeat' first
    | with_reducible assumption | with_reducible apply runInstr_since | with_reducible apply waitIn_since | intro _

theorem resolveHolds_since (h : Since o s) : Since o (resolveHolds s) := by
  unfold resolveHolds
  repeat' first
    | with_reducible assumption | with_reducible apply resolveRefused_since | with_reducible apply resolvePass_since

theorem endKernel_since (h : Since o s) {t : Nat} : Since o (endKernel t s) := by
  unfold endKernel
  repeat' first
    | with_reducible assumption | with_reducible apply discardUnits_since | with_reducible apply freeTile_since
    | with_reducible apply endPart_since | with_reducible apply State_modCore_since | split
    | dsimp only [accState, id]

theorem execTileKernelEnd_keeps (h : Since o s) {t : Fin 128} : Keeps o (execTileKernelEnd t s) := by
  unfold execTileKernelEnd
  apply keeps_next
  exact endKernel_since h

theorem placePending_since (h : Since o s) {p : Nat} : Since o (placePending p s) := by
  unfold placePending
  repeat' first
    | with_reducible assumption | with_reducible apply setQueue_since | with_reducible apply modGrn_since | split

theorem flushRecords_since (h : Since o s) {c x1 : Nat} : Since o (flushRecords c x1 s) := by
  induction x1 generalizing s c with
  | zero =>
    first | rw [flushRecords] | unfold flushRecords
    repeat' first | with_reducible assumption
  | succ n ih =>
    first | rw [flushRecords] | unfold flushRecords
    repeat' first
      | with_reducible assumption | with_reducible apply ih | with_reducible apply writeRecord_since
      | with_reducible apply modCx_since | split

theorem readDecls_since (h : Since o s) {p a n : Nat} : Since o (readDecls p a n s).2 := by
  unfold readDecls
  repeat' first
    | with_reducible assumption | with_reducible apply schedRead_since | split
    | (refine since_pair (by with_reducible assumption) ?_)

theorem readEntry_since (h : Since o s) {p k : Nat} : Since o (readEntry p k s).2.2 := by
  unfold readEntry
  repeat' first
    | with_reducible assumption | with_reducible apply schedRead_since | with_reducible apply readDecls_since
    | split | (refine since_pair (by with_reducible assumption) ?_)

/-! ### Scheduler -/

theorem startSave_since (h : Since o s) {t : Nat} : Since o (startSave t s) := by
  unfold startSave
  repeat' first
    | with_reducible assumption | with_reducible apply runPart_since | with_reducible apply noteTile_since
    | with_reducible apply State_modTile_since | with_reducible apply since_foldl | intro _

theorem modUnits_since (h : Since o s) {t : Nat} {f : Nat → MUnit → MUnit} : Since o (modUnits t f s) := by
  unfold modUnits
  exact State_modTile_since h

theorem cutRestore_since (h : Since o s) {t : Nat} : Since o (cutRestore t s) := by
  unfold cutRestore
  repeat' first
    | with_reducible assumption | with_reducible apply modUnits_since | with_reducible apply modCx_since
    | with_reducible apply State_modTile_since | with_reducible apply noteCx_since | split
    | dsimp only [accState, id]

theorem keepRaises_since (h : Since o s) {id t : Nat} : Since o (keepRaises id t s) := by
  unfold keepRaises
  exact modGrn_since h

theorem unstage_since (h : Since o s) {id t : Nat} : Since o (unstage id t s) := by
  unfold unstage
  repeat' first
    | with_reducible assumption | with_reducible apply modPart_since | with_reducible apply unpinPart_since
    | with_reducible apply keepRaises_since | with_reducible apply State_modTile_since
    | with_reducible apply noteCx_since | split | simp only

theorem abandonLaunch_since (h : Since o s) {id t : Nat} : Since o (abandonLaunch id t s) := by
  unfold abandonLaunch
  repeat' first
    | with_reducible assumption | with_reducible apply State_modTile_since | with_reducible apply unstage_since

theorem preempt_since (h : Since o s) {t : Nat} : Since o (preempt t s) := by
  unfold preempt
  repeat' first
    | with_reducible assumption | with_reducible apply startSave_since | with_reducible apply cutRestore_since
    | with_reducible apply abandonLaunch_since | with_reducible apply since_elim | intro _ | split
    | dsimp only [accState, id]

theorem residentFor_since (h : Since o s) {c : Nat} : Since o (residentFor c s).2 := by
  unfold residentFor
  repeat' first | with_reducible assumption | with_reducible apply modCx_since | split | dsimp only [accState, id]

theorem unreserve_since (h : Since o s) {t : Nat} : Since o (unreserve t s) := by
  unfold unreserve
  exact modSched_since h

theorem waitAt_since (h : Since o s) {id t : Nat} : Since o (waitAt id t s) := by
  unfold waitAt
  exact State_modTile_since h

theorem bellTo_since (h : Since o s) {id t : Nat} : Since o (bellTo id t s) := by
  unfold bellTo
  repeat' first
    | with_reducible assumption | with_reducible apply faultOf_since | with_reducible apply preempt_since
    | with_reducible apply residentFor_since | with_reducible apply placeOn_since
    | with_reducible apply unreserve_since | with_reducible apply waitAt_since
    | with_reducible apply State_count_since | split | simp only

theorem keepUnits_since (h : Since o s) {t : Nat} : Since o (keepUnits t s) := by
  unfold keepUnits
  repeat' first
    | with_reducible assumption | with_reducible apply modUnits_since | with_reducible apply State_modTile_since

theorem takeLatched_since (h : Since o s) {c : Nat} : Since o (takeLatched c s).2 := by
  unfold takeLatched
  repeat' first | with_reducible assumption | with_reducible apply State_setReg_since

theorem replayLoad_since (h : Since o s) {t u : Nat} {x2 : Option MatOp} : Since o (replayLoad t u x2 s) := by
  unfold replayLoad
  repeat' first
    | with_reducible assumption | with_reducible apply finishLoad_since | with_reducible apply modUnit_since | split

theorem restoreUnit_since (h : Since o s) {t u : Nat} : Since o (restoreUnit t u s) := by
  unfold restoreUnit
  repeat' first
    | with_reducible assumption | with_reducible apply replayLoad_since | with_reducible apply modUnit_since | split

theorem restoreImage_since (h : Since o s) {t : Nat} {im : Image} {evt : BitVec 32} :
    Since o (restoreImage t im evt s) := by
  unfold restoreImage
  repeat' first
    | with_reducible assumption | with_reducible apply State_modTile_since | with_reducible apply restoreUnit_since
    | with_reducible apply since_foldl | intro _

theorem restoreDone_since (h : Since o s) {t : Nat} {bad : Bool} : Since o (restoreDone t bad s) := by
  unfold restoreDone
  repeat' first
    | with_reducible assumption | with_reducible apply State_modTile_since | with_reducible apply errRecord_since
    | with_reducible apply freeTile_since | with_reducible apply endPart_since
    | with_reducible apply discardUnits_since | with_reducible apply takeLatched_since
    | with_reducible apply noteCx_since | with_reducible apply restoreImage_since | split
    | dsimp only [accState, id]

theorem vacate_since (h : Since o s) {t : Nat} : Since o (vacate t s) := by
  unfold vacate
  repeat' first
    | with_reducible assumption | with_reducible apply State_modTile_since
    | with_reducible apply State_loseRegion_since

theorem dropImage_since (h : Since o s) {c t : Nat} : Since o (dropImage c t s) := by
  unfold dropImage
  repeat' first
    | with_reducible assumption | with_reducible apply modCx_since | with_reducible apply State_modTile_since

theorem stopPart_since (h : Since o s) {id t status reason : Nat} : Since o (stopPart id t status reason s) := by
  unfold stopPart
  repeat' first
    | with_reducible assumption | with_reducible apply endPart_since | with_reducible apply State_modTile_since
    | with_reducible apply freeTile_since | with_reducible apply discardUnits_since
    | with_reducible apply dropImage_since | with_reducible apply modCx_since | with_reducible apply unstage_since
    | split | simp only

theorem saveDone_since (h : Since o s) {t : Nat} : Since o (saveDone t s) := by
  unfold saveDone
  repeat' first
    | with_reducible assumption | with_reducible apply vacate_since | with_reducible apply keepUnits_since
    | with_reducible apply State_modTile_since | with_reducible apply noteCx_since
    | with_reducible apply stopPart_since | with_reducible apply placeOn_since
    | with_reducible apply unreserve_since | split | dsimp only [accState, id]

theorem startRestore_since (h : Since o s) {t : Nat} : Since o (startRestore t s) := by
  unfold startRestore
  repeat' first
    | with_reducible assumption | with_reducible apply modUnits_since | with_reducible apply State_modTile_since
    | with_reducible apply wakeTile_since

theorem swapIn_since (h : Since o s) {c : Nat} : Since o (swapIn c s) := by
  unfold swapIn
  repeat' first
    | with_reducible assumption | with_reducible apply noteCx_since | with_reducible apply modCx_since
    | with_reducible apply startRestore_since | with_reducible apply State_modTile_since
    | with_reducible apply unreserve_since | with_reducible apply since_foldl | intro _ | split

theorem swapOut_since (h : Since o s) {c : Nat} : Since o (swapOut c s) := by
  unfold swapOut
  repeat' first
    | with_reducible assumption | with_reducible apply preempt_since | with_reducible apply noteCx_since
    | with_reducible apply modCx_since | with_reducible apply State_count_since | with_reducible apply since_foldl
    | intro _

theorem needSlot_since (h : Since o s) {c : Nat} : Since o (needSlot c s) := by
  unfold needSlot
  repeat' first
    | with_reducible assumption | with_reducible apply swapIn_since | with_reducible apply swapOut_since | split

theorem needTiles_since (h : Since o s) {l : Launch} : Since o (needTiles l s) := by
  unfold needTiles
  repeat' first | with_reducible assumption | with_reducible apply swapOut_since | split | dsimp only [accState, id]

theorem execContextSaveDone_keeps (h : Since o s) {t : Fin 128} : Keeps o (execContextSaveDone t s) := by
  unfold execContextSaveDone
  apply keeps_next
  exact saveDone_since h

theorem copyRegion_since (h : Since o s) {w : Who} {src dst len : Nat} : Since o (copyRegion w src dst len s) := by
  unfold copyRegion
  repeat' first
    | with_reducible assumption | with_reducible apply memErrRecord_since | with_reducible apply devWrite_since
    | with_reducible apply readCorrects_since | with_reducible apply State_setEcc_since
    | with_reducible apply since_foldl | intro _ | split | (refine since_pair (by with_reducible assumption) ?_)
    | dsimp only [accState, id]

theorem serveTile_since (h : Since o s) {t : Nat} : Since o (serveTile t s) := by
  unfold serveTile
  repeat' first
    | with_reducible assumption | with_reducible apply residentFor_since | with_reducible apply State_modTile_since
    | with_reducible apply placeOn_since | with_reducible apply unreserve_since | with_reducible apply noteCx_since
    | with_reducible apply startRestore_since | with_reducible apply modPart_since | split
    | dsimp only [accState, id]

theorem sendersMove_since (h : Since o s) {id t u : Nat} : Since o (sendersMove id t u s) := by
  unfold sendersMove
  simpa only [since_mk] using h

theorem relocate_since (h : Since o s) {t u : Nat} : Since o (relocate t u s) := by
  unfold relocate
  repeat' first
    | with_reducible assumption | with_reducible apply copyRegion_since | with_reducible apply modPart_since
    | with_reducible apply State_modTile_since | with_reducible apply serveTile_since
    | with_reducible apply sendersMove_since | split | dsimp only [accState, id]

theorem swapInTile_since (h : Since o s) {c k t : Nat} : Since o (swapInTile c k t s).2 := by
  unfold swapInTile
  repeat' first
    | with_reducible assumption | with_reducible apply devRead_since | with_reducible apply storeBytes_since | split
    | (refine since_pair (by with_reducible assumption) ?_) | dsimp only [accState, id]

theorem loseSaved_since (h : Since o s) {c t status : Nat} : Since o (loseSaved c t status s) := by
  unfold loseSaved
  repeat' first
    | with_reducible assumption | with_reducible apply endPart_since | with_reducible apply State_modTile_since
    | split

theorem swapInDone_since (h : Since o s) {c : Nat} : Since o (swapInDone c s) := by
  unfold swapInDone
  repeat' first
    | with_reducible assumption | with_reducible apply modCx_since | with_reducible apply noteCx_since
    | with_reducible apply swapInTile_since | with_reducible apply loseSaved_since
    | with_reducible apply State_setReg_since | with_reducible apply restoreImage_since
    | with_reducible apply freeTile_since | with_reducible apply endPart_since
    | with_reducible apply discardUnits_since | with_reducible apply since_foldl | intro _ | split
    | dsimp only [accState, id]

theorem execResumeTimeout_keeps (h : Since o s) {t dest : Fin 128} : Keeps o (execResumeTimeout t dest s) := by
  unfold execResumeTimeout
  apply keeps_next
  exact relocate_since h

theorem takeStop_since (h : Since o s) {t : Nat} {e : Nat × Nat} : Since o (takeStop t e s) := by
  unfold takeStop
  repeat' first
    | with_reducible assumption | with_reducible apply State_modTile_since | with_reducible apply noteTile_since
    | with_reducible apply showException_since

theorem stopOn_since (h : Since o s) {t c : Nat} : Since o (stopOn t c s) := by
  unfold stopOn
  repeat' first
    | with_reducible assumption | with_reducible apply takeStop_since | with_reducible apply State_modTile_since
    | with_reducible apply stopPart_since | split | dsimp only [accState, id]

theorem cxHeadWrite_since (h : Since o s) {ag : Agent} {c : Nat} {v : Word} : Since o (cxHeadWrite ag c v s) := by
  unfold cxHeadWrite
  repeat' first
    | with_reducible assumption | with_reducible apply refusePermission_since
    | with_reducible apply flushRecords_since | with_reducible apply State_putReg_since | split

theorem execCxCqHeadWrite_keeps (h : Since o s) {ag : Agent} {c : Fin 256} {v : Word} :
    Keeps o (execCxCqHeadWrite ag c v s) := by
  unfold execCxCqHeadWrite
  apply keeps_next
  exact cxHeadWrite_since h

theorem resetTile_since (h : Since o s) {t : Nat} : Since o (resetTile t s) := by
  unfold resetTile
  repeat' first
    | with_reducible assumption | with_reducible apply discardUnits_since | with_reducible apply cutRestore_since
    | with_reducible apply endPart_since | with_reducible apply unpinPart_since
    | with_reducible apply loadIfStale_since | with_reducible apply State_modTile_since | split

theorem tileResetWrite_since (h : Since o s) {t : Nat} {v : Word} : Since o (tileResetWrite t v s) := by
  unfold tileResetWrite
  repeat' first | with_reducible assumption | with_reducible apply resetTile_since | split

theorem ringEnds_since (h : Since o s) {c k tag step : Nat} {stepEnd : Bool} {st reason : Nat} :
    Since o (ringEnds c k tag step stepEnd st reason s) := by
  unfold ringEnds
  repeat' first
    | with_reducible assumption | with_reducible apply noteCx_since | with_reducible apply faultOf_since
    | with_reducible apply finishLaunch_since | with_reducible apply State_used_since

theorem cxTailWrite_since (h : Since o s) {ag : Agent} {c : Nat} {v : Word} : Since o (cxTailWrite ag c v s) := by
  unfold cxTailWrite
  repeat' first
    | with_reducible assumption | with_reducible apply refusePermission_since
    | with_reducible apply State_putReg_since | with_reducible apply State_flag_since | split

theorem execRestoreDone_keeps (h : Since o s) {t : Fin 128} {bad : Bool} : Keeps o (execRestoreDone t bad s) := by
  unfold execRestoreDone
  apply keeps_next
  exact restoreDone_since h

theorem addLaunch_since (h : Since o s) {f : Nat → Launch} : Since o (addLaunch f s).2 := by
  unfold addLaunch
  repeat' first | with_reducible assumption | with_reducible apply modSched_since

theorem deliverRing_since (h : Since o s) {id : Nat} : Since o (deliverRing id s) := by
  unfold deliverRing
  repeat' first
    | with_reducible assumption | with_reducible apply placeOn_since | with_reducible apply since_foldl | intro _
    | split

theorem takeEntry_since (h : Since o s) {c : Nat} {force : Option (Nat × Nat)} : Since o (takeEntry c force s) := by
  unfold takeEntry
  repeat' first
    | with_reducible assumption | with_reducible apply schedRead_since | with_reducible apply State_putReg_since
    | with_reducible apply ringEnds_since | with_reducible apply readEntry_since
    | with_reducible apply addLaunch_since | split | dsimp only [accState, id]

theorem writeImage_since (h : Since o s) {w : Who} {a : Nat} : Since o (writeImage w a s) := by
  unfold writeImage
  repeat' first
    | with_reducible assumption | with_reducible apply memErrRecord_since
    | with_reducible apply State_eccClean_since | with_reducible apply State_loseRegion_since
    | with_reducible apply dirtyLog_since | with_reducible apply tierCharge_since | with_reducible apply since_foldl
    | intro _ | split

theorem stopLaunch_since (h : Since o s) {id status reason : Nat} : Since o (stopLaunch id status reason s) := by
  unfold stopLaunch
  repeat' first
    | with_reducible assumption | with_reducible apply stopPart_since | with_reducible apply since_foldl | intro _
    | split

theorem launchDeadline_since (h : Since o s) {id : Nat} : Since o (launchDeadline id s) := by
  unfold launchDeadline
  repeat' first | with_reducible assumption | with_reducible apply stopLaunch_since | split | simp only

theorem swapOutTile_since (h : Since o s) {c k t : Nat} : Since o (swapOutTile c k t s) := by
  unfold swapOutTile
  repeat' first
    | with_reducible assumption | with_reducible apply copyRegion_since | with_reducible apply writeImage_since
    | with_reducible apply freeTile_since | with_reducible apply endPart_since
    | with_reducible apply keepUnits_since | with_reducible apply modCx_since
    | with_reducible apply State_modTile_since | split | dsimp only [accState, id]

theorem takeEntries_since (h : Since o s) {c x1 : Nat} : Since o (takeEntries c x1 s) := by
  induction x1 generalizing s c with
  | zero =>
    first | rw [takeEntries] | unfold takeEntries
    repeat' first | with_reducible assumption
  | succ n ih =>
    first | rw [takeEntries] | unfold takeEntries
    repeat' first | with_reducible assumption | with_reducible apply ih | with_reducible apply takeEntry_since | split

theorem dispatch_since (h : Since o s) : Since o (dispatch s) := by
  unfold dispatch
  repeat' first
    | with_reducible assumption | with_reducible apply needSlot_since | with_reducible apply noteCx_since
    | with_reducible apply takeEntries_since | with_reducible apply serveTile_since
    | with_reducible apply deliverRing_since | with_reducible apply needTiles_since
    | with_reducible apply since_foldl | intro _

theorem execSchedulerDispatch_keeps (h : Since o s) : Keeps o (execSchedulerDispatch s) := by
  unfold execSchedulerDispatch
  apply keeps_next
  exact dispatch_since h

theorem execSwapInDone_keeps (h : Since o s) {c : Fin 256} : Keeps o (execSwapInDone c s) := by
  unfold execSwapInDone
  apply keeps_next
  exact swapInDone_since h

theorem execStop_keeps (h : Since o s) {t : Fin 128} {c : Fin 256} : Keeps o (execStop t c s) := by
  unfold execStop
  apply keeps_next
  exact stopOn_since h

theorem swapOutDone_since (h : Since o s) {c : Nat} : Since o (swapOutDone c s) := by
  unfold swapOutDone
  repeat' first
    | with_reducible assumption | with_reducible apply modCx_since | with_reducible apply swapOutTile_since
    | with_reducible apply noteCx_since | with_reducible apply since_foldl | intro _ | split

theorem execSwapOutDone_keeps (h : Since o s) {c : Fin 256} : Keeps o (execSwapOutDone c s) := by
  unfold execSwapOutDone
  apply keeps_next
  exact swapOutDone_since h

theorem tevtSet_since (h : Since o s) {ag : Agent} {t : Nat} {v : Word} : Since o (tevtSet ag t v s) := by
  unfold tevtSet
  repeat' first
    | with_reducible assumption | with_reducible apply deliverEvt_since | with_reducible apply wakeTile_since
    | with_reducible apply State_flag_since | with_reducible apply refusePermission_since | split

theorem execCxLqTailWrite_keeps (h : Since o s) {ag : Agent} {c : Fin 256} {v : Word} :
    Keeps o (execCxLqTailWrite ag c v s) := by
  unfold execCxLqTailWrite
  apply keeps_next
  exact cxTailWrite_since h

theorem execTileReset_keeps (h : Since o s) {t : Fin 128} {v : Word} : Keeps o (execTileReset t v s) := by
  unfold execTileReset
  apply keeps_next
  exact tileResetWrite_since h

theorem launchBell_since (h : Since o s) {d : Delivery} : Since o (launchBell d s) := by
  unfold launchBell
  repeat' first
    | with_reducible assumption | with_reducible apply readEntry_since | with_reducible apply State_count_since
    | with_reducible apply noteCx_since | with_reducible apply faultOf_since
    | with_reducible apply finishLaunch_since | with_reducible apply addLaunch_since
    | with_reducible apply bellTo_since | with_reducible apply since_foldl | intro _ | split
    | dsimp only [accState, id]

theorem execLaunch_keeps (h : Since o s) : Keeps o (execLaunch s) := by
  unfold execLaunch
  apply keeps_next
  repeat' first
    | with_reducible assumption | with_reducible apply withDelivery_since | with_reducible apply launchBell_since
    | intro _

theorem execTileTevtSet_keeps (h : Since o s) {ag : Agent} {t : Fin 128} {v : Word} :
    Keeps o (execTileTevtSet ag t v s) := by
  unfold execTileTevtSet
  apply keeps_next
  exact tevtSet_since h

theorem execLaunchDeadline_keeps (h : Since o s) {id : Nat} : Keeps o (execLaunchDeadline id s) := by
  unfold execLaunchDeadline
  apply keeps_next
  exact launchDeadline_since h

/-! ### GranaryTurn -/

theorem commandOn_since (h : Since o s) {q : Nat} : Since o (commandOn q s) := by
  unfold commandOn
  repeat' first
    | with_reducible assumption | with_reducible apply setQueue_since | with_reducible apply placePending_since
    | split

theorem granaryTurn_since (h : Since o s) : Since o (granaryTurn s) := by
  unfold granaryTurn
  repeat' first
    | with_reducible assumption | with_reducible apply reclaimInterval_since | with_reducible apply modGrn_since
    | with_reducible apply resolveHolds_since | with_reducible apply commandOn_since
    | with_reducible apply State_flag_since | with_reducible apply commandPage_since
    | with_reducible apply refuseHold_since | split | (refine since_pair (by with_reducible assumption) ?_)
    | dsimp only [accState, id]

theorem moveServed_since (h : Since o s) {m : Move} : Since o (moveServed m s).2 := by
  unfold moveServed
  repeat' first
    | with_reducible assumption | with_reducible apply sluiceCharge_since | with_reducible apply sluiceHeld_since
    | with_reducible apply since_foldl | intro _ | split

theorem copyPage_since (h : Since o s) {n : Nat} : Since o (copyPage n s) := by
  unfold copyPage
  repeat' first
    | with_reducible assumption | with_reducible apply State_loseRegion_since | with_reducible apply errRecord_since
    | with_reducible apply State_flag_since | with_reducible apply State_count_since
    | with_reducible apply countCorrected_since | with_reducible apply State_correctWord_since
    | with_reducible apply since_foldl | intro _ | split

theorem moveSwitch_since (h : Since o s) {riser : Nat} : Since o (moveSwitch riser s) := by
  unfold moveSwitch
  repeat' first
    | with_reducible assumption | with_reducible apply moveServed_since | with_reducible apply copyPage_since
    | with_reducible apply State_setPage_since | with_reducible apply modGrn_since
    | with_reducible apply applyHeld_since | with_reducible apply State_count_since
    | with_reducible apply resolveHolds_since | with_reducible apply since_foldl | intro _ | split
    | dsimp only [accState, id]

theorem execGranaryTurn_keeps (h : Since o s) : Keeps o (execGranaryTurn s) := by
  unfold execGranaryTurn
  apply keeps_next
  exact granaryTurn_since h

theorem execMoveSwitch_keeps (h : Since o s) {riser : Nat} : Keeps o (execMoveSwitch riser s) := by
  unfold execMoveSwitch
  apply keeps_next
  exact moveSwitch_since h

end Sys2Proof.Laws
end

