-- ==== Sys2Proof/Laws/KeepsColl.lean ====
section
/-! SUPPORT. What the operations keep (`Since` of Safety.lean), one lemma for each: the collectives, the mailboxes, the DMA channels and arriving packets. A lemma named _since speaks
of an operation on the state, one named _keeps of the meaning of a command. -/

namespace Sys2Proof.Laws

open Sys2Proof
open Sys2Proof.Machine

variable {o s : State}

/-! ### Collectives -/

theorem phaseOrder_since (h : Since o s) {p : Nat} : Since o (phaseOrder p s) := by
  unfold phaseOrder
  exact State_flag_since h

theorem selfBase_since (h : Since o s) {p : Nat} : Since o (selfBase p s).2 := by
  unfold selfBase
  repeat' first | with_reducible assumption | with_reducible apply memberOf_since

theorem progRead_since (h : Since o s) {p a n : Nat} : Since o (progRead p a n s).2 := by
  unfold progRead
  repeat' first
    | with_reducible assumption | with_reducible apply devRead_since | split
    | (refine since_pair (by with_reducible assumption) ?_)

theorem phaseOf_since (h : Since o s) {p k : Nat} {x2 : List Word} : Since o (phaseOf p k x2 s).2 := by
  unfold phaseOf
  repeat' first
    | with_reducible assumption | with_reducible apply progRead_since | split
    | (refine since_pair (by with_reducible assumption) ?_)

theorem opsBad_since (h : Since o s) {p base : Nat} {x2 : List Word} {x3 x4 : Nat} :
    Since o (opsBad p base x2 x3 x4 s).2 := by
  induction x3 generalizing s p base x2 x4 with
  | zero =>
    first | rw [opsBad] | unfold opsBad
    repeat' first | with_reducible assumption
  | succ n ih =>
    first | rw [opsBad] | unfold opsBad
    repeat' first
      | with_reducible assumption | with_reducible apply ih | with_reducible apply progRead_since | split
      | (refine since_pair (by with_reducible assumption) ?_)

theorem phasesBad_since (h : Since o s) {p base : Nat} {x2 : List Word} {x3 x4 : Nat} :
    Since o (phasesBad p base x2 x3 x4 s).2 := by
  induction x3 generalizing s p base x2 x4 with
  | zero =>
    first | rw [phasesBad] | unfold phasesBad
    repeat' first | with_reducible assumption
  | succ n ih =>
    first | rw [phasesBad] | unfold phasesBad
    repeat' first
      | with_reducible assumption | with_reducible apply ih | with_reducible apply phaseOf_since
      | with_reducible apply opsBad_since | split | (refine since_pair (by with_reducible assumption) ?_)

theorem progBad_since (h : Since o s) {p : Nat} : Since o (progBad p s).2 := by
  unfold progBad
  repeat' first
    | with_reducible assumption | with_reducible apply selfBase_since | with_reducible apply phasesBad_since | split
    | (refine since_pair (by with_reducible assumption) ?_) | dsimp only [accState, id]

theorem setRes_since (h : Since o s) {p src cause : Nat} : Since o (setRes p src cause s) := by
  unfold setRes
  exact State_setReg_since h

theorem programBad_since (h : Since o s) {p : Nat} : Since o (programBad p s) := by
  unfold programBad
  repeat' first
    | with_reducible assumption | with_reducible apply State_putReg_since | with_reducible apply State_flag_since
    | with_reducible apply State_count_since | with_reducible apply setRes_since
    | with_reducible apply ringReg_since

theorem needHdr_since (h : Since o s) {p : Nat} : Since o (needHdr p s) := by
  unfold needHdr
  repeat' first
    | with_reducible assumption | with_reducible apply progRead_since | with_reducible apply State_modProg_since
    | split

theorem dropExchanges_since (h : Since o s) {p : Nat} : Since o (dropExchanges p s) := by
  unfold dropExchanges
  repeat' first
    | with_reducible assumption | with_reducible apply stagedFree_since | with_reducible apply State_modProg_since
    | with_reducible apply since_foldl | intro _ | dsimp only [accState, id] | simp only [since_mk]

theorem collEvt_since (h : Since o s) {p b : Nat} {m : BitVec 128} : Since o (collEvt p b m s) := by
  unfold collEvt
  repeat' first | with_reducible assumption | with_reducible apply deliverEvts_since | split

theorem decisionBit_since (h : Since o s) {p hi lo : Nat} : Since o (decisionBit p hi lo s) := by
  unfold decisionBit
  exact collEvt_since h

theorem decideEpoch_since (h : Since o s) {p : Nat} {commit : Bool} : Since o (decideEpoch p commit s) := by
  unfold decideEpoch
  repeat' first
    | with_reducible assumption | with_reducible apply modCx_since | with_reducible apply reportLaunch_since
    | with_reducible apply modLaunch_since | with_reducible apply stopLaunch_since
    | with_reducible apply since_foldl | intro _ | split | dsimp only [accState, id]

theorem abortLocal_since (h : Since o s) {p cause src : Nat} {from_ : Option Nat} :
    Since o (abortLocal p cause src from_ s) := by
  unfold abortLocal
  repeat' first
    | with_reducible assumption | with_reducible apply needHdr_since | with_reducible apply dropExchanges_since
    | with_reducible apply State_putReg_since | with_reducible apply State_modProg_since
    | with_reducible apply sendControl_since | with_reducible apply State_count_since
    | with_reducible apply setRes_since | with_reducible apply ringReg_since
    | with_reducible apply decisionBit_since | with_reducible apply decideEpoch_since
    | with_reducible apply since_foldl | intro _ | split

theorem abortHere_since (h : Since o s) {p cause : Nat} : Since o (abortHere p cause s) := by
  unfold abortHere
  repeat' first
    | with_reducible assumption | with_reducible apply needHdr_since | with_reducible apply abortLocal_since | split

theorem badCheck_since (h : Since o s) {p cause : Nat} : Since o (badCheck p cause s) := by
  unfold badCheck
  repeat' first
    | with_reducible assumption | with_reducible apply State_flag_since | with_reducible apply State_modProg_since
    | with_reducible apply errRecord_since | with_reducible apply abortHere_since | split
    | dsimp only [accState, id]

theorem addPhase_since (h : Since o s) {p k : Nat} : Since o (addPhase p k s) := by
  unfold addPhase
  repeat' first
    | with_reducible assumption | with_reducible apply phaseOf_since | with_reducible apply State_putReg_since
    | with_reducible apply State_modProg_since | with_reducible apply badCheck_since | split
    | dsimp only [accState, id]

theorem startExchange_since (h : Since o s) {p k : Nat} : Since o (startExchange p k s) := by
  unfold startExchange
  repeat' first
    | with_reducible assumption | with_reducible apply phaseOrder_since | with_reducible apply progBad_since
    | with_reducible apply programBad_since | with_reducible apply addPhase_since
    | with_reducible apply State_putReg_since | with_reducible apply State_modProg_since | split
    | dsimp only [accState, id]

theorem issueNext_since (h : Since o s) {p opc : Nat} {f : List Word → State → State}
    (hf : ∀ y0 s, Since o s → Since o (f y0 s)) :
    Since o (issueNext p opc f s) := by
  unfold issueNext
  repeat' first
    | with_reducible assumption | with_reducible apply hf | with_reducible apply progRead_since
    | with_reducible apply badCheck_since | split | (refine since_pair (by with_reducible assumption) ?_)

theorem withMember_since (h : Since o s) {p i : Nat} {f : Nat × Nat → State → State}
    (hf : ∀ y0 s, Since o s → Since o (f y0 s)) :
    Since o (withMember p i f s) := by
  unfold withMember
  repeat' first
    | with_reducible assumption | with_reducible apply hf | with_reducible apply memberOf_since
    | with_reducible apply badCheck_since | split | (refine since_pair (by with_reducible assumption) ?_)

theorem collLoad_since (h : Since o s) {p a len : Nat} {f : List Byte → State → State}
    (hf : ∀ y0 s, Since o s → Since o (f y0 s)) :
    Since o (collLoad p a len f s) := by
  unfold collLoad
  repeat' first
    | with_reducible assumption | with_reducible apply hf | with_reducible apply devRead_since
    | with_reducible apply badCheck_since | split | (refine since_pair (by with_reducible assumption) ?_)

theorem collStore_since (h : Since o s) {p a : Nat} {d : List Byte} {fault : Bool} {f : State → State}
    (hf : ∀ s, Since o s → Since o (f s)) :
    Since o (collStore p a d fault f s) := by
  unfold collStore
  repeat' first
    | with_reducible assumption | with_reducible apply hf | with_reducible apply devWrite_since
    | with_reducible apply badCheck_since | with_reducible apply State_loseRegion_since | split
    | (refine since_pair (by with_reducible assumption) ?_)

theorem bumpCtr_since (h : Since o s) {p c : Nat} : Since o (bumpCtr p c s) := by
  unfold bumpCtr
  exact State_modProg_since h

theorem openOp_since (h : Since o s) {p left : Nat} {xch : Option Exchange} : Since o (openOp p left xch s).2 := by
  unfold openOp
  repeat' first | with_reducible assumption | with_reducible apply State_modProg_since

theorem sendData_since (h : Since o s) {p : Nat} {w : List Word} {areduce wireWide destWide : Bool}
    {data : List Byte} {m : Nat × Nat} :
    Since o (sendData p w areduce wireWide destWide data m s) := by
  unfold sendData
  repeat' first
    | with_reducible assumption | with_reducible apply openOp_since | with_reducible apply sendColl_since
    | with_reducible apply since_foldl | intro _

theorem popOp_since (h : Since o s) {p : Nat} : Since o (popOp p s) := by
  unfold popOp
  exact State_modProg_since h

theorem issueAreduce_since (h : Since o s) {p : Nat} {fault : Bool} : Since o (issueAreduce p fault s) := by
  unfold issueAreduce
  repeat' first
    | with_reducible assumption | with_reducible apply issueNext_since | with_reducible apply withMember_since
    | with_reducible apply collLoad_since | with_reducible apply collStore_since
    | with_reducible apply bumpCtr_since | with_reducible apply sendData_since | with_reducible apply popOp_since
    | intro _ | split

theorem execAreduce_keeps (h : Since o s) {p : Fin 32} {fault : Bool} : Keeps o (execAreduce p fault s) := by
  unfold execAreduce
  apply keeps_next
  exact issueAreduce_since h

theorem collHalfReset_since (h : Since o s) : Since o (collHalfReset s) := by
  unfold collHalfReset
  repeat' first
    | with_reducible assumption | with_reducible apply abortHere_since | with_reducible apply State_used_since
    | with_reducible apply since_foldl | intro _ | split

theorem issueSignal_since (h : Since o s) {p : Nat} : Since o (issueSignal p s) := by
  unfold issueSignal
  repeat' first
    | with_reducible assumption | with_reducible apply issueNext_since | with_reducible apply deliverEvts_since
    | with_reducible apply popOp_since | with_reducible apply modCx_since | with_reducible apply since_foldl
    | intro _ | split | dsimp only [accState, id]

theorem execSignal_keeps (h : Since o s) {p : Fin 32} : Keeps o (execSignal p s) := by
  unfold execSignal
  apply keeps_next
  exact issueSignal_since h

theorem sendAll_since (h : Since o s) {p : Nat} {ms : List Nat} {k : CollKind} : Since o (sendAll p ms k s) := by
  unfold sendAll
  repeat' first
    | with_reducible assumption | with_reducible apply sendControl_since | with_reducible apply since_foldl
    | intro _

theorem commitLocal_since (h : Since o s) {p : Nat} : Since o (commitLocal p s) := by
  unfold commitLocal
  repeat' first
    | with_reducible assumption | with_reducible apply State_count_since | with_reducible apply State_putReg_since
    | with_reducible apply sendAll_since | with_reducible apply decideEpoch_since
    | with_reducible apply ringReg_since | with_reducible apply decisionBit_since

theorem tryReport_since (h : Since o s) {p : Nat} : Since o (tryReport p s) := by
  unfold tryReport
  repeat' first
    | with_reducible assumption | with_reducible apply commitLocal_since | with_reducible apply sendControl_since
    | with_reducible apply State_putReg_since | split | dsimp only [accState, id]

theorem issuePut_since (h : Since o s) {p : Nat} : Since o (issuePut p s) := by
  unfold issuePut
  repeat' first
    | with_reducible assumption | with_reducible apply issueNext_since | with_reducible apply withMember_since
    | with_reducible apply collLoad_since | with_reducible apply collStore_since
    | with_reducible apply bumpCtr_since | with_reducible apply sendData_since | with_reducible apply popOp_since
    | intro _ | split

theorem cpCtlWrite_since (h : Since o s) {p : Nat} {v : Word} : Since o (cpCtlWrite p v s) := by
  unfold cpCtlWrite
  repeat' first
    | with_reducible assumption | with_reducible apply abortHere_since | with_reducible apply State_writePlain_since
    | with_reducible apply State_setReg_since | with_reducible apply State_setProg_since
    | with_reducible apply dropExchanges_since | split | dsimp only [accState, id]

theorem execFabCpDisable_keeps (h : Since o s) {p : Fin 32} {v : Word} : Keeps o (execFabCpDisable p v s) := by
  unfold execFabCpDisable
  apply keeps_next
  exact cpCtlWrite_since h

theorem collStop_since (h : Since o s) {x0 : Nat} : Since o (collStop x0 s) := by
  unfold collStop
  repeat' first
    | with_reducible assumption | with_reducible apply abortHere_since | with_reducible apply since_foldl | intro _
    | split

theorem issueReduce_since (h : Since o s) {p : Nat} {fault : Bool} : Since o (issueReduce p fault s) := by
  unfold issueReduce
  repeat' first
    | with_reducible assumption | with_reducible apply issueNext_since | with_reducible apply withMember_since
    | with_reducible apply collLoad_since | with_reducible apply collStore_since | with_reducible apply popOp_since
    | intro _ | dsimp only [accState, id]

theorem execReduce_keeps (h : Since o s) {p : Fin 32} {fault : Bool} : Keeps o (execReduce p fault s) := by
  unfold execReduce
  apply keeps_next
  exact issueReduce_since h

theorem issueWait_since (h : Since o s) {p : Nat} : Since o (issueWait p s) := by
  unfold issueWait
  repeat' first
    | with_reducible assumption | with_reducible apply issueNext_since | with_reducible apply popOp_since | intro _
    | split

theorem collAcked_since (h : Since o s) {p op : Nat} : Since o (collAcked p op s) := by
  unfold collAcked
  exact State_modProg_since h

theorem issueCommit_since (h : Since o s) {p : Nat} : Since o (issueCommit p s) := by
  unfold issueCommit
  repeat' first
    | with_reducible assumption | with_reducible apply issueNext_since | with_reducible apply tryReport_since
    | with_reducible apply State_modProg_since | with_reducible apply popOp_since | intro _ | split

theorem execFabCpEnable_keeps (h : Since o s) {p : Fin 32} {v : Word} : Keeps o (execFabCpEnable p v s) := by
  unfold execFabCpEnable
  apply keeps_next
  exact cpCtlWrite_since h

theorem execPut_keeps (h : Since o s) {p : Fin 32} : Keeps o (execPut p s) := by
  unfold execPut
  apply keeps_next
  exact issuePut_since h

theorem execFabCpCntRead_keeps (h : Since o s) {p : Fin 32} : Keeps o (execFabCpCntRead p s) := by
  unfold execFabCpCntRead
  apply keeps_next
  exact State_readPlain_since h

theorem startRun_since (h : Since o s) {p : Nat} : Since o (startRun p s) := by
  unfold startRun
  repeat' first
    | with_reducible assumption | with_reducible apply State_setReg_since | with_reducible apply State_modProg_since
    | with_reducible apply progBad_since | with_reducible apply programBad_since
    | with_reducible apply addPhase_since | with_reducible apply State_putReg_since | split
    | dsimp only [accState, id]

theorem phaseStart_since (h : Since o s) {p k : Nat} : Since o (phaseStart p k s) := by
  unfold phaseStart
  repeat' first
    | with_reducible assumption | with_reducible apply phaseOrder_since | with_reducible apply startExchange_since
    | with_reducible apply addPhase_since | with_reducible apply needHdr_since
    | with_reducible apply State_modProg_since | with_reducible apply startRun_since | split
    | dsimp only [accState, id]

theorem execCollPhase_keeps (h : Since o s) : Keeps o (execCollPhase s) := by
  unfold execCollPhase
  apply keeps_next
  repeat' first
    | with_reducible assumption | with_reducible apply withDelivery_since | with_reducible apply phaseStart_since
    | with_reducible apply wakeDom_since | intro _ | split

theorem decisionLate_since (h : Since o s) {p : Nat} : Since o (decisionLate p s) := by
  unfold decisionLate
  repeat' first
    | with_reducible assumption | with_reducible apply abortLocal_since | split | dsimp only [accState, id]

theorem execFabCpGo_keeps (h : Since o s) {ag : Agent} {p : Fin 32} {v : Word} : Keeps o (execFabCpGo ag p v s) := by
  unfold execFabCpGo
  apply keeps_next
  repeat' first
    | with_reducible assumption | with_reducible apply phaseStart_since
    | with_reducible apply refusePermission_since | split

theorem runFails_since (h : Since o s) {p : Nat} : Since o (runFails p s) := by
  unfold runFails
  repeat' first
    | with_reducible assumption | with_reducible apply decisionBit_since | with_reducible apply State_flag_since
    | with_reducible apply State_putReg_since | with_reducible apply decideEpoch_since
    | with_reducible apply ringReg_since | with_reducible apply errRecord_since | split | dsimp only [accState, id]

theorem execFailedTimeout_keeps (h : Since o s) {p : Fin 32} : Keeps o (execFailedTimeout p s) := by
  unfold execFailedTimeout
  apply keeps_next
  exact runFails_since h

theorem execDecisionTimeout_keeps (h : Since o s) {p : Fin 32} : Keeps o (execDecisionTimeout p s) := by
  unfold execDecisionTimeout
  apply keeps_next
  exact decisionLate_since h

theorem execCommit_keeps (h : Since o s) {p : Fin 32} : Keeps o (execCommit p s) := by
  unfold execCommit
  apply keeps_next
  exact issueCommit_since h

theorem execWait_keeps (h : Since o s) {p : Fin 32} : Keeps o (execWait p s) := by
  unfold execWait
  apply keeps_next
  exact issueWait_since h

theorem execFabCpAbort_keeps (h : Since o s) {ag : Agent} {p : Fin 32} {v : Word} :
    Keeps o (execFabCpAbort ag p v s) := by
  unfold execFabCpAbort
  apply keeps_next
  repeat' first
    | with_reducible assumption | with_reducible apply abortHere_since | with_reducible apply refusePermission_since
    | split

/-! ### Exchange -/

theorem readParts_since (h : Since o s) {x0 a : Nat} {x2 : List (Nat × Nat)} : Since o (readParts x0 a x2 s).2 := by
  induction x2 generalizing s x0 a with
  | nil =>
    first | rw [readParts] | unfold readParts
    repeat' first | with_reducible assumption
  | cons y ys ih =>
    first | rw [readParts] | unfold readParts
    repeat' first
      | with_reducible assumption | with_reducible apply ih | with_reducible apply drvRead_since | split
      | (refine since_pair (by with_reducible assumption) ?_)

theorem modXch_since (h : Since o s) {p op : Nat} {f : Exchange → Exchange} : Since o (modXch p op f s) := by
  unfold modXch
  exact State_modProg_since h

theorem modColl_since (h : Since o s) {f : Coll → Coll} : Since o (modColl f s) := by
  unfold modColl
  repeat' first | with_reducible assumption | simp only [since_mk]

theorem landSlot_since (h : Since o s) {p node x2 : Nat} {dir : Bool} {set src off : Nat} {last : Bool}
    {bytes : List Byte} :
    Since o (landSlot p node x2 dir set src off last bytes s).2 := by
  unfold landSlot
  repeat' first
    | with_reducible assumption | with_reducible apply devWrite_since | with_reducible apply modColl_since | split
    | dsimp only [accState, id]

theorem xchDone_since (h : Since o s) {p op : Nat} : Since o (xchDone p op s) := by
  unfold xchDone
  exact State_modProg_since h

theorem slotFreed_since (h : Since o s) {p op x2 : Nat} {dir : Bool} {set rank : Nat} :
    Since o (slotFreed p op x2 dir set rank s) := by
  unfold slotFreed
  repeat' first
    | with_reducible assumption | with_reducible apply modColl_since | with_reducible apply xchDone_since
    | with_reducible apply modXch_since

theorem sendSlot_since (h : Since o s) {p op : Nat} {e : Exchange} {rank : Nat} {ps : List (Nat × List Byte)} :
    Since o (sendSlot p op e rank ps s) := by
  unfold sendSlot
  repeat' first
    | with_reducible assumption | with_reducible apply State_modProg_since | with_reducible apply modXch_since
    | with_reducible apply landSlot_since | with_reducible apply slotFreed_since
    | with_reducible apply memberOf_since | with_reducible apply grantCredit_since
    | with_reducible apply badCheck_since | with_reducible apply sendColl_since | with_reducible apply since_foldl
    | intro _ | split | (refine since_pair (by with_reducible assumption) ?_) | dsimp only [accState, id]

theorem pumpOp_since (h : Since o s) {p : Nat} {x1 : CollOp} : Since o (pumpOp p x1 s) := by
  unfold pumpOp
  repeat' first
    | with_reducible assumption | with_reducible apply sendSlot_since | with_reducible apply since_foldl | intro _
    | split

theorem pumpAll_since (h : Since o s) : Since o (pumpAll s) := by
  unfold pumpAll
  repeat' first
    | with_reducible assumption | with_reducible apply pumpOp_since | with_reducible apply since_foldl | intro _

theorem execFinNsExpiry_keeps (h : Since o s) {x0 : Fin 8} {slot : Fin 16} :
    Keeps o (execFinNsExpiry x0 slot s) := by
  unfold execFinNsExpiry
  apply keeps_next
  repeat' first
    | with_reducible assumption | with_reducible apply pumpAll_since | with_reducible apply finExpires_since

theorem execSeCommandComplete_keeps (h : Since o s) {k : Fin 8} {seq : Nat} :
    Keeps o (execSeCommandComplete k seq s) := by
  unfold execSeCommandComplete
  apply keeps_next
  repeat' first
    | with_reducible assumption | with_reducible apply pumpAll_since | with_reducible apply seComplete_since

theorem drvAgent_keeps (h : Since o s) {ag : Agent} {x1 : Nat} {f : State → State}
    (hf : ∀ s, Since o s → Since o (f s)) :
    Keeps o (drvAgent ag x1 f s) := by
  unfold drvAgent
  apply keeps_next
  repeat' first
    | with_reducible assumption | with_reducible apply hf | with_reducible apply pumpAll_since
    | with_reducible apply refusePermission_since | split

theorem decisionAfter_since (h : Since o s) {p cause src : Nat} {k : CollKind} {from_ : Nat} :
    Since o (decisionAfter p cause src k from_ s) := by
  unfold decisionAfter
  repeat' first
    | with_reducible assumption | with_reducible apply setRes_since | with_reducible apply sendControl_since
    | with_reducible apply since_foldl | intro _ | split

theorem execGlnCnt2Read_keeps (h : Since o s) {x0 : Fin 8} : Keeps o (execGlnCnt2Read x0 s) := by
  unfold execGlnCnt2Read
  apply keeps_next
  exact State_readPlain_since h

theorem notifyArea_since (h : Since o s) {x0 : Nat} {dir : Bool} {set src : Nat} {f : State → State}
    (hf : ∀ s, Since o s → Since o (f s)) :
    Since o (notifyArea x0 dir set src f s) := by
  unfold notifyArea
  repeat' first
    | with_reducible assumption | with_reducible apply hf | with_reducible apply pumpAll_since
    | with_reducible apply modColl_since | split | dsimp only [accState, id]

theorem execReturnArrival_keeps (h : Since o s) {x0 : Fin 8} {set : Fin 4} {src : Fin 4096} :
    Keeps o (execReturnArrival x0 set src s) := by
  unfold execReturnArrival
  apply keeps_next
  repeat' first
    | with_reducible assumption | with_reducible apply notifyArea_since | with_reducible apply returnArrive_since
    | intro _

theorem collData_since (h : Since o s) {p port src key a : Nat} {areduce : Bool} {df red : Nat} {aw bw : Bool}
    {ctr : Nat} {last : Bool} {bytes : List Byte} {fault : Bool} :
    Since o (collData p port src key a areduce df red aw bw ctr last bytes fault s).2 := by
  unfold collData
  repeat' first
    | with_reducible assumption | with_reducible apply targetCheck_since | with_reducible apply badCheck_since
    | with_reducible apply devRead_since | with_reducible apply devWrite_since
    | with_reducible apply State_loseRegion_since | with_reducible apply bumpCtr_since | split
    | (refine since_pair (by with_reducible assumption) ?_) | dsimp only [accState, id]

theorem slotAcked_since (h : Since o s) {p x1 : Nat} {dir : Bool} {set rank : Nat} :
    Since o (slotAcked p x1 dir set rank s) := by
  unfold slotAcked
  repeat' first
    | with_reducible assumption | with_reducible apply stagedFree_since | with_reducible apply slotFreed_since
    | split | dsimp only [accState, id]

theorem collPerform_since (h : Since o s) {port : Nat} {x1 : PktHdr} {m : CollMsg} {fault : Bool} :
    Since o (collPerform port x1 m fault s).2 := by
  unfold collPerform
  repeat' first
    | with_reducible assumption | with_reducible apply State_count_since | with_reducible apply collData_since
    | with_reducible apply landSlot_since | with_reducible apply sendColl_since
    | with_reducible apply tryReport_since | with_reducible apply State_modProg_since
    | with_reducible apply commitLocal_since | with_reducible apply decisionAfter_since
    | with_reducible apply abortLocal_since | with_reducible apply pumpAll_since
    | with_reducible apply grantCredit_since | with_reducible apply slotAcked_since | split
    | dsimp only [accState, id]

theorem execDrvCntSelRead_keeps (h : Since o s) {x0 : Fin 8} : Keeps o (execDrvCntSelRead x0 s) := by
  unfold execDrvCntSelRead
  apply keeps_next
  exact State_readPlain_since h

theorem collBadWord_since (h : Since o s) {m : CollMsg} : Since o (collBadWord m s) := by
  unfold collBadWord
  repeat' first | with_reducible assumption | with_reducible apply badCheck_since | split

theorem execHomePost_keeps (h : Since o s) {ag : Agent} {x1 : Fin 8} {v : Word} :
    Keeps o (execHomePost ag x1 v s) := by
  unfold execHomePost
  first
    | with_reducible apply keeps_next
    | with_reducible apply drvAgent_keeps
  repeat' first
    | with_reducible assumption | with_reducible apply drvPost_since | with_reducible apply wakeDom_since | intro _

theorem execDrvCntRxRead_keeps (h : Since o s) {x0 : Fin 8} : Keeps o (execDrvCntRxRead x0 s) := by
  unfold execDrvCntRxRead
  apply keeps_next
  exact State_readPlain_since h

theorem creditsLate_since (h : Since o s) {p : Nat} : Since o (creditsLate p s) := by
  unfold creditsLate
  repeat' first
    | with_reducible assumption | with_reducible apply State_flag_since | with_reducible apply State_count_since
    | with_reducible apply modXch_since | with_reducible apply stagedFree_since
    | with_reducible apply slotFreed_since | with_reducible apply since_foldl | intro _ | split

theorem execA2aCreditTimeout_keeps (h : Since o s) {p : Fin 32} : Keeps o (execA2aCreditTimeout p s) := by
  unfold execA2aCreditTimeout
  apply keeps_next
  repeat' first
    | with_reducible assumption | with_reducible apply pumpAll_since | with_reducible apply creditsLate_since

theorem execGlnCntRead_keeps (h : Since o s) {x0 : Fin 8} : Keeps o (execGlnCntRead x0 s) := by
  unfold execGlnCntRead
  apply keeps_next
  exact State_readPlain_since h

theorem execDrvCqEnable_keeps (h : Since o s) {x0 : Fin 8} {v : Word} : Keeps o (execDrvCqEnable x0 v s) := by
  unfold execDrvCqEnable
  apply keeps_next
  repeat' first
    | with_reducible assumption | with_reducible apply pumpAll_since | with_reducible apply drvCqCfgWrite_since

theorem takeSlot_since (h : Since o s) {x0 : Nat} {dir : Bool} {num set d : Nat} :
    Since o (takeSlot x0 dir num set d s).2 := by
  unfold takeSlot
  repeat' first
    | with_reducible assumption | with_reducible apply drvRead_since | with_reducible apply readParts_since | split
    | (refine since_pair (by with_reducible assumption) ?_) | dsimp only [accState, id]

theorem issueA2a_since (h : Since o s) {p : Nat} : Since o (issueA2a p s) := by
  unfold issueA2a
  repeat' first
    | with_reducible assumption | with_reducible apply issueNext_since | with_reducible apply popOp_since
    | with_reducible apply State_flag_since | with_reducible apply State_putReg_since
    | with_reducible apply takeSlot_since | with_reducible apply modColl_since | with_reducible apply openOp_since
    | with_reducible apply pumpOp_since | with_reducible apply since_foldl | with_reducible apply since_foldl2
    | intro _ | split | dsimp only [accState, id]

theorem execDrvShPost_keeps (h : Since o s) {ag : Agent} {x1 : Fin 8} {v : Word} :
    Keeps o (execDrvShPost ag x1 v s) := by
  unfold execDrvShPost
  first
    | with_reducible apply keeps_next
    | with_reducible apply drvAgent_keeps
  repeat' first | with_reducible assumption | with_reducible apply sharedPost_since | intro _

theorem execDrvRetPost_keeps (h : Since o s) {ag : Agent} {x1 : Fin 8} {v : Word} :
    Keeps o (execDrvRetPost ag x1 v s) := by
  unfold execDrvRetPost
  first
    | with_reducible apply keeps_next
    | with_reducible apply drvAgent_keeps
  repeat' first | with_reducible assumption | with_reducible apply retPost_since | intro _

theorem execRxNsExpiry_keeps (h : Since o s) {x0 : Fin 8} {slot : Fin 16} : Keeps o (execRxNsExpiry x0 slot s) := by
  unfold execRxNsExpiry
  apply keeps_next
  repeat' first
    | with_reducible assumption | with_reducible apply pumpAll_since | with_reducible apply rxExpires_since

theorem execDrvCancel_keeps (h : Since o s) {ag : Agent} {x1 : Fin 8} {v : Word} :
    Keeps o (execDrvCancel ag x1 v s) := by
  unfold execDrvCancel
  first
    | with_reducible apply keeps_next
    | with_reducible apply drvAgent_keeps
  repeat' first | with_reducible assumption | with_reducible apply drvCancel_since | intro _

theorem execDispatchArrival_keeps (h : Since o s) {x0 : Fin 8} {set : Fin 4} {src : Fin 4096} :
    Keeps o (execDispatchArrival x0 set src s) := by
  unfold execDispatchArrival
  apply keeps_next
  repeat' first
    | with_reducible assumption | with_reducible apply notifyArea_since | with_reducible apply dispatchArrive_since
    | intro _

theorem execRecvPost_keeps (h : Since o s) {ag : Agent} {x1 : Fin 8} {v : Word} :
    Keeps o (execRecvPost ag x1 v s) := by
  unfold execRecvPost
  first
    | with_reducible apply keeps_next
    | with_reducible apply drvAgent_keeps
  repeat' first
    | with_reducible assumption | with_reducible apply drvPost_since | with_reducible apply wakeDom_since | intro _

theorem execDrvAlarmClear_keeps (h : Since o s) {ag : Agent} {x1 : Fin 8} {v : Word} :
    Keeps o (execDrvAlarmClear ag x1 v s) := by
  unfold execDrvAlarmClear
  first
    | with_reducible apply keeps_next
    | with_reducible apply drvAgent_keeps
  repeat' first | with_reducible assumption | with_reducible apply drvAlarmClear_since | intro _

theorem execDrvCqHeadWrite_keeps (h : Since o s) {ag : Agent} {x1 : Fin 8} {v : Word} :
    Keeps o (execDrvCqHeadWrite ag x1 v s) := by
  unfold execDrvCqHeadWrite
  first
    | with_reducible apply keeps_next
    | with_reducible apply drvAgent_keeps
  repeat' first | with_reducible assumption | with_reducible apply drvCqHeadWrite_since | intro _

theorem execA2a_keeps (h : Since o s) {p : Fin 32} : Keeps o (execA2a p s) := by
  unfold execA2a
  apply keeps_next
  exact issueA2a_since h

/-! ### Mailbox -/

theorem noteRing_since (h : Since o s) {x : MbxSender} : Since o (noteRing x s) := by
  unfold noteRing
  repeat' first
    | with_reducible assumption | with_reducible apply State_count_since | with_reducible apply ringDb_since | split

theorem mbxBy_keeps (h : Since o s) {ag : Agent} {m : Nat} {f : State → State}
    (hf : ∀ s, Since o s → Since o (f s)) :
    Keeps o (mbxBy ag m f s) := by
  unfold mbxBy
  apply keeps_next
  repeat' first
    | with_reducible assumption | with_reducible apply hf | with_reducible apply wakeDom_since
    | with_reducible apply refusePermission_since | split

theorem mbxDbClear_since (h : Since o s) {m : Nat} {v : Word} : Since o (mbxDbClear m v s) := by
  unfold mbxDbClear
  repeat' first
    | with_reducible assumption | with_reducible apply wakeDom_since | with_reducible apply State_setReg_since

theorem execMbxDbClear_keeps (h : Since o s) {ag : Agent} {m : Fin 256} {v : Word} :
    Keeps o (execMbxDbClear ag m v s) := by
  unfold execMbxDbClear
  first
    | with_reducible apply keeps_next
    | with_reducible apply mbxBy_keeps
  repeat' first | with_reducible assumption | with_reducible apply mbxDbClear_since | intro _

theorem mbxDbSet_since (h : Since o s) {ag : Agent} {m : Nat} {v : Word} : Since o (mbxDbSet ag m v s) := by
  unfold mbxDbSet
  repeat' first
    | with_reducible assumption | with_reducible apply wakeDom_since | with_reducible apply State_count_since
    | with_reducible apply setDb_since | split | dsimp only [accState, id]

theorem execMbxDbSet_keeps (h : Since o s) {ag : Agent} {m : Fin 256} {v : Word} :
    Keeps o (execMbxDbSet ag m v s) := by
  unfold execMbxDbSet
  apply keeps_next
  exact mbxDbSet_since h

theorem modHl_since (h : Since o s) {f : HostLink → HostLink} : Since o (modHl f s) := by
  unfold modHl
  repeat' first | with_reducible assumption | simp only [since_mk]

theorem setSender_since (h : Since o s) {m : Nat} {x : MbxSender} : Since o (setSender m x s) := by
  unfold setSender
  exact modHl_since h

theorem mbxCfgWrite_since (h : Since o s) {m : Nat} {v : Word} : Since o (mbxCfgWrite m v s) := by
  unfold mbxCfgWrite
  repeat' first
    | with_reducible assumption | with_reducible apply wakeDom_since | with_reducible apply State_writePlain_since
    | with_reducible apply State_flag_since | with_reducible apply State_setReg_since
    | with_reducible apply State_unflag_since | with_reducible apply setSender_since | split
    | dsimp only [accState, id]

theorem execMbxCfgWrite_keeps (h : Since o s) {m : Fin 256} {v : Word} : Keeps o (execMbxCfgWrite m v s) := by
  unfold execMbxCfgWrite
  apply keeps_next
  exact mbxCfgWrite_since h

theorem modStaging_since (h : Since o s) {ag : Agent} {f : Staging → Staging} : Since o (modStaging ag f s) := by
  unfold modStaging
  repeat' first
    | with_reducible assumption | with_reducible apply State_modCore_since | with_reducible apply modHl_since
    | split

theorem sendOutcome_since (h : Since o s) {ag : Agent} {m status : Nat} : Since o (sendOutcome ag m status s) := by
  unfold sendOutcome
  exact modStaging_since h

theorem mbxSend_since (h : Since o s) {ag : Agent} {m : Nat} {v : Word} : Since o (mbxSend ag m v s) := by
  unfold mbxSend
  repeat' first
    | with_reducible assumption | with_reducible apply wakeDom_since | with_reducible apply sendOutcome_since
    | with_reducible apply State_count_since | with_reducible apply noteRing_since
    | with_reducible apply State_setReg_since | with_reducible apply setSender_since
    | with_reducible apply State_flag_since | with_reducible apply State_putReg_since
    | with_reducible apply State_flagIf_since | with_reducible apply setDb_since | with_reducible apply since_foldl
    | intro _ | split | dsimp only [accState, id]

theorem execMbxSend_keeps (h : Since o s) {ag : Agent} {m : Fin 256} {v : Word} :
    Keeps o (execMbxSend ag m v s) := by
  unfold execMbxSend
  apply keeps_next
  exact mbxSend_since h

theorem mbxAck_since (h : Since o s) {m : Nat} {v : Word} : Since o (mbxAck m v s) := by
  unfold mbxAck
  repeat' first
    | with_reducible assumption | with_reducible apply wakeDom_since | with_reducible apply State_unflag_since
    | with_reducible apply State_flagIf_since | split

theorem execMbxReady_keeps (h : Since o s) {ag : Agent} {m : Fin 256} {v : Word} :
    Keeps o (execMbxReady ag m v s) := by
  unfold execMbxReady
  first
    | with_reducible apply keeps_next
    | with_reducible apply mbxBy_keeps
  repeat' first | with_reducible assumption | with_reducible apply mbxAck_since | intro _

theorem noteStatus_since (h : Since o s) {x : MbxSender} {m : Nat} : Since o (noteStatus x m s) := by
  unfold noteStatus
  repeat' first
    | with_reducible assumption | with_reducible apply State_modCore_since
    | with_reducible apply State_modTile_since | with_reducible apply modHl_since | split | simp only [since_mk]

theorem abortedNotice_since (h : Since o s) {m : Nat} {x : MbxSender} : Since o (abortedNotice m x s) := by
  unfold abortedNotice
  repeat' first
    | with_reducible assumption | with_reducible apply noteRing_since | with_reducible apply noteStatus_since

theorem execMbxCntRead_keeps (h : Since o s) {ag : Agent} {m : Fin 256} : Keeps o (execMbxCntRead ag m s) := by
  unfold execMbxCntRead
  first
    | with_reducible apply keeps_next
    | with_reducible apply mbxBy_keeps
  repeat' first | with_reducible assumption | with_reducible apply State_readPlain_since | intro _

theorem mbxReset_since (h : Since o s) {m : Nat} : Since o (mbxReset m s) := by
  unfold mbxReset
  repeat' first
    | with_reducible assumption | with_reducible apply State_setReg_since | with_reducible apply State_unflag_since
    | with_reducible apply abortedNotice_since | split | dsimp only [accState, id]

theorem mbxResets_since (h : Since o s) {kind : Nat} {sel : Nat → Bool} : Since o (mbxResets kind sel s) := by
  unfold mbxResets
  repeat' first
    | with_reducible assumption | with_reducible apply mbxReset_since | with_reducible apply since_foldl | intro _
    | split

theorem mbxFnReset_since (h : Since o s) {f : Nat} : Since o (mbxFnReset f s) := by
  unfold mbxFnReset
  exact mbxResets_since h

theorem mbxPartReset_since (h : Since o s) {p : Nat} : Since o (mbxPartReset p s) := by
  unfold mbxPartReset
  exact mbxResets_since h

theorem mbxDbMask_since (h : Since o s) {m : Nat} {v : Word} : Since o (mbxDbMask m v s) := by
  unfold mbxDbMask
  repeat' first
    | with_reducible assumption | with_reducible apply wakeDom_since | with_reducible apply notify_since
    | with_reducible apply State_setReg_since

theorem execMbxDbMaskWrite_keeps (h : Since o s) {ag : Agent} {m : Fin 256} {v : Word} :
    Keeps o (execMbxDbMaskWrite ag m v s) := by
  unfold execMbxDbMaskWrite
  first
    | with_reducible apply keeps_next
    | with_reducible apply mbxBy_keeps
  repeat' first | with_reducible assumption | with_reducible apply mbxDbMask_since | intro _

theorem stgWrite_since (h : Since o s) {ag : Agent} {j : Nat} {v : Word} : Since o (stgWrite ag j v s) := by
  unfold stgWrite
  exact modStaging_since h

theorem execMbxAck_keeps (h : Since o s) {ag : Agent} {m : Fin 256} {v : Word} : Keeps o (execMbxAck ag m v s) := by
  unfold execMbxAck
  first
    | with_reducible apply keeps_next
    | with_reducible apply mbxBy_keeps
  repeat' first | with_reducible assumption | with_reducible apply mbxAck_since | intro _

theorem mbxStewardReset_since (h : Since o s) : Since o (mbxStewardReset s) := by
  unfold mbxStewardReset
  exact mbxResets_since h

/-! ### Dma -/

theorem dmaRead_since (h : Since o s) {c x1 x2 : Nat} : Since o (dmaRead c x1 x2 s).2.2 := by
  induction x1 generalizing s c x2 with
  | zero =>
    first | rw [dmaRead] | unfold dmaRead
    repeat' first | with_reducible assumption
  | succ n ih =>
    first | rw [dmaRead] | unfold dmaRead
    repeat' first
      | with_reducible assumption | with_reducible apply ih | with_reducible apply devRead_since | split
      | (refine since_pair (by with_reducible assumption) ?_)

theorem dmaTake_since (h : Since o s) {c : Nat} {r : DmaRun} {off n : Nat} : Since o (dmaTake c r off n s).2.2 := by
  unfold dmaTake
  repeat' first | with_reducible assumption | with_reducible apply dmaRead_since | split

theorem dmaHost_since (h : Since o s) {c : Nat} {r : DmaRun} {x2 x3 : Nat} : Since o (dmaHost c r x2 x3 s).2 := by
  induction x2 generalizing s c r x3 with
  | zero =>
    first | rw [dmaHost] | unfold dmaHost
    repeat' first | with_reducible assumption
  | succ n ih =>
    first | rw [dmaHost] | unfold dmaHost
    repeat' first
      | with_reducible assumption | with_reducible apply ih | with_reducible apply State_count_since
      | with_reducible apply dmaTake_since | with_reducible apply sluiceCharge_since
      | with_reducible apply State_emit_since | split | dsimp only [accState, id]

theorem modDma_since (h : Since o s) {c : Nat} {f : Dma → Dma} : Since o (modDma c f s) := by
  unfold modDma
  exact modSched_since h

theorem dmaRecord_since (h : Since o s) {c desc st : Nat} : Since o (dmaRecord c desc st s) := by
  unfold dmaRecord
  repeat' first
    | with_reducible assumption | with_reducible apply State_putReg_since | with_reducible apply faultOf_since
    | split

theorem dmaFinish_since (h : Since o s) {c st : Nat} : Since o (dmaFinish c st s) := by
  unfold dmaFinish
  repeat' first
    | with_reducible assumption | with_reducible apply modDma_since | with_reducible apply modFab_since
    | with_reducible apply dmaRecord_since | with_reducible apply ringReg_since
    | with_reducible apply deliverEvts_since | split | dsimp only [accState, id] | simp only [since_mk]

theorem dmaTryEnd_since (h : Since o s) {c : Nat} : Since o (dmaTryEnd c s) := by
  unfold dmaTryEnd
  repeat' first | with_reducible assumption | with_reducible apply dmaFinish_since | split

theorem dmaPush_since (h : Since o s) {c x1 : Nat} : Since o (dmaPush c x1 s) := by
  induction x1 generalizing s c with
  | zero =>
    first | rw [dmaPush] | unfold dmaPush
    repeat' first | with_reducible assumption
  | succ n ih =>
    first | rw [dmaPush] | unfold dmaPush
    repeat' first
      | with_reducible assumption | with_reducible apply ih | with_reducible apply modDmaRun_since
      | with_reducible apply dmaRefused_since | with_reducible apply memErrRecord_since
      | with_reducible apply dmaTake_since | with_reducible apply targetWrite_since
      | with_reducible apply writeRefused_since | with_reducible apply remWrite_since | split
      | (refine since_pair (by with_reducible assumption) ?_) | dsimp only [accState, id]

theorem dmaLocal_since (h : Since o s) {c : Nat} {r : DmaRun} {x2 x3 : Nat} : Since o (dmaLocal c r x2 x3 s).2 := by
  induction x2 generalizing s c r x3 with
  | zero =>
    first | rw [dmaLocal] | unfold dmaLocal
    repeat' first | with_reducible assumption
  | succ n ih =>
    first | rw [dmaLocal] | unfold dmaLocal
    repeat' first
      | with_reducible assumption | with_reducible apply ih | with_reducible apply dmaTake_since
      | with_reducible apply devWrite_since | split | (refine since_pair (by with_reducible assumption) ?_)
      | (refine since_triple (by with_reducible assumption) ?_)

theorem dmaComplete_since (h : Since o s) {c : Nat} : Since o (dmaComplete c s) := by
  unfold dmaComplete
  repeat' first
    | with_reducible assumption | with_reducible apply dmaHost_since | with_reducible apply wakeDom_since
    | with_reducible apply dmaFinish_since | with_reducible apply dmaTryEnd_since
    | with_reducible apply dmaPush_since | with_reducible apply dmaLocal_since | split

theorem hostAsk_since (h : Since o s) {c x1 : Nat} : Since o (hostAsk c x1 s) := by
  induction x1 generalizing s c with
  | zero =>
    first | rw [hostAsk] | unfold hostAsk
    repeat' first | with_reducible assumption
  | succ n ih =>
    first | rw [hostAsk] | unfold hostAsk
    repeat' first
      | with_reducible assumption | with_reducible apply ih | with_reducible apply modDmaRun_since
      | with_reducible apply State_emit_since | split | dsimp only [accState, id] | simp only [since_mk]

theorem windowAsk_since (h : Since o s) {c off : Nat} : Since o (windowAsk c off s) := by
  unfold windowAsk
  repeat' first
    | with_reducible assumption | with_reducible apply dmaFails_since | with_reducible apply memErrRecord_since
    | with_reducible apply targetRead_since | with_reducible apply dmaGot_since
    | with_reducible apply dmaReadFails_since | with_reducible apply remRead_since | split
    | (refine since_pair (by with_reducible assumption) ?_) | dsimp only [accState, id]

theorem dmaStart_since (h : Since o s) {c : Nat} : Since o (dmaStart c s) := by
  unfold dmaStart
  repeat' first
    | with_reducible assumption | with_reducible apply modDma_since | with_reducible apply dmaFinish_since
    | with_reducible apply devRead_since | with_reducible apply hostAsk_since | with_reducible apply wakeDom_since
    | with_reducible apply windowAsk_since | with_reducible apply since_foldl | intro _ | split
    | (refine since_pair (by with_reducible assumption) ?_) | dsimp only [accState, id]

theorem hostRdRecord_since (h : Since o s) {r : HostRd} : Since o (hostRdRecord r s) := by
  unfold hostRdRecord
  exact errRecord_since h

theorem hostAskAll_since (h : Since o s) : Since o (hostAskAll s) := by
  unfold hostAskAll
  repeat' first
    | with_reducible assumption | with_reducible apply hostAsk_since | with_reducible apply since_foldl | intro _

theorem hostRdEnds_since (h : Since o s) {r : HostRd} {data : Option (List Byte)} :
    Since o (hostRdEnds r data s) := by
  unfold hostRdEnds
  repeat' first
    | with_reducible assumption | with_reducible apply dmaGot_since | with_reducible apply sluiceCharge_since
    | with_reducible apply dmaFails_since | with_reducible apply hostAskAll_since | split
    | dsimp only [accState, id] | simp only [since_mk]

theorem hostRdCompletes_since (h : Since o s) {id : Nat} {data : Option (List Byte)} :
    Since o (hostRdCompletes id data s) := by
  unfold hostRdCompletes
  repeat' first
    | with_reducible assumption | with_reducible apply hostRdRecord_since | with_reducible apply State_flag_since
    | with_reducible apply hostRdEnds_since | split

theorem dmaGo_since (h : Since o s) {c desc : Nat} : Since o (dmaGo c desc s) := by
  unfold dmaGo
  repeat' first
    | with_reducible assumption | with_reducible apply dmaRecord_since | with_reducible apply modDma_since | split

theorem execDmaStart_keeps (h : Since o s) : Keeps o (execDmaStart s) := by
  unfold execDmaStart
  apply keeps_next
  repeat' first
    | with_reducible assumption | with_reducible apply withDelivery_since | with_reducible apply dmaGo_since
    | intro _ | split

theorem hostRdLate_since (h : Since o s) {id : Nat} : Since o (hostRdLate id s) := by
  unfold hostRdLate
  repeat' first
    | with_reducible assumption | with_reducible apply hostRdEnds_since | with_reducible apply hostRdRecord_since
    | with_reducible apply State_flag_since | split

theorem execHostReadTimeout_keeps (h : Since o s) {id : Nat} : Keeps o (execHostReadTimeout id s) := by
  unfold execHostReadTimeout
  apply keeps_next
  exact hostRdLate_since h

theorem execPartDmaGo_keeps (h : Since o s) {ag : Agent} {c : Fin 32} {v : Word} :
    Keeps o (execPartDmaGo ag c v s) := by
  unfold execPartDmaGo
  apply keeps_next
  repeat' first
    | with_reducible assumption | with_reducible apply dmaGo_since | with_reducible apply refusePermission_since
    | split

theorem execDmaTransferStart_keeps (h : Since o s) {c : Fin 32} : Keeps o (execDmaTransferStart c s) := by
  unfold execDmaTransferStart
  apply keeps_next
  exact dmaStart_since h

theorem dmaAcked_since (h : Since o s) {c : Nat} : Since o (dmaAcked c s) := by
  unfold dmaAcked
  repeat' first | with_reducible assumption | with_reducible apply dmaPush_since | split

theorem dmaAbort_since (h : Since o s) {c : Nat} : Since o (dmaAbort c s) := by
  unfold dmaAbort
  repeat' first
    | with_reducible assumption | with_reducible apply dmaFinish_since | with_reducible apply dmaRecord_since
    | with_reducible apply modDma_since | split | dsimp only [accState, id]

theorem execDmaComplete_keeps (h : Since o s) {c : Fin 32} : Keeps o (execDmaComplete c s) := by
  unfold execDmaComplete
  apply keeps_next
  exact dmaComplete_since h

theorem execHostReadCompletion_keeps (h : Since o s) {id : Nat} {data : Option (List Byte)} :
    Keeps o (execHostReadCompletion id data s) := by
  unfold execHostReadCompletion
  apply keeps_next
  exact hostRdCompletes_since h

/-! ### FabRx -/

theorem receivePathFail_since (h : Since o s) {p0 p1 p2 : Nat} : Since o (receivePathFail p0 p1 p2 s) := by
  unfold receivePathFail
  repeat' first
    | with_reducible assumption | with_reducible apply pathDead_since | with_reducible apply since_foldl | intro _
    | split | dsimp only [accState, id]

theorem receiveReadRsp_since (h : Since o s) {n : Nat} {x1 : PktHdr} {data : List Byte} :
    Since o (receiveReadRsp n x1 data s) := by
  unfold receiveReadRsp
  repeat' first
    | with_reducible assumption | with_reducible apply dropReq_since | with_reducible apply loadReturns_since
    | with_reducible apply remoteRecord_since | with_reducible apply remoteFaults_since
    | with_reducible apply dmaGot_since | with_reducible apply dmaReadFails_since | split
    | dsimp only [accState, id]

theorem nakRefused_since (h : Since o s) {n : Nat} {x1 : PktHdr} : Since o (nakRefused n x1 s) := by
  unfold nakRefused
  repeat' first
    | with_reducible assumption | with_reducible apply State_setPeer_since | with_reducible apply dmaRefused_since
    | with_reducible apply writeRefused_since | split | dsimp only [accState, id]

theorem nakBusy_since (h : Since o s) {n : Nat} {x1 : PktHdr} : Since o (nakBusy n x1 s) := by
  unfold nakBusy
  exact modFab_since h

theorem noteArrival_since (h : Since o s) {port : Nat} {e : LinkErr} {p : Packet} :
    Since o (noteArrival port e p s) := by
  unfold noteArrival
  repeat' first
    | with_reducible assumption | with_reducible apply State_count_since | with_reducible apply reeveCount_since
    | with_reducible apply wakeDom_since | with_reducible apply State_setFabPort_since

theorem forward_since (h : Since o s) {p : Packet} : Since o (forward p s) := by
  unfold forward
  repeat' first
    | with_reducible assumption | with_reducible apply enqueue_since | with_reducible apply sendLoose_since | split
    | dsimp only [accState, id]

theorem answer_since (h : Since o s) {port : Nat} {x1 : PktHdr} {cls words status bytes : Nat} {body : PktBody} :
    Since o (answer port x1 cls words status bytes body s) := by
  unfold answer
  repeat' first
    | with_reducible assumption | with_reducible apply enqueue_since | with_reducible apply State_used_since | split

theorem nak_since (h : Since o s) {port : Nat} {x1 : PktHdr} {status : Nat} : Since o (nak port x1 status s) := by
  unfold nak
  exact answer_since h

theorem heardAs_since (h : Since o s) {n i : Nat} : Since o (heardAs n i s) := by
  unfold heardAs
  repeat' first | with_reducible assumption | with_reducible apply State_setPeer_since | split

theorem performed_since (h : Since o s) {n : Nat} : Since o (performed n s) := by
  unfold performed
  exact State_setPeer_since h

theorem performAtomic_since (h : Since o s) {port : Nat} {x1 : PktHdr} {operand compare : Word} {req : Nat} :
    Since o (performAtomic port x1 operand compare req s) := by
  unfold performAtomic
  repeat' first
    | with_reducible assumption | with_reducible apply answer_since | with_reducible apply nak_since
    | with_reducible apply State_count_since | with_reducible apply State_flag_since
    | with_reducible apply targetAtomic_since | with_reducible apply rcPeak_since
    | with_reducible apply modFab_since | split | dsimp only [accState, id]

theorem perform_since (h : Since o s) {port : Nat} {fault : Bool} {p : Packet} :
    Since o (perform port fault p s) := by
  unfold perform
  repeat' first
    | with_reducible assumption | with_reducible apply targetWrite_since | with_reducible apply nak_since
    | with_reducible apply targetRead_since | with_reducible apply answer_since
    | with_reducible apply performAtomic_since | with_reducible apply collPerform_since | split
    | (refine since_pair (by with_reducible assumption) ?_) | dsimp only [accState, id]

theorem performHeld_since (h : Since o s) {n x1 : Nat} : Since o (performHeld n x1 s) := by
  induction x1 generalizing s n with
  | zero =>
    first | rw [performHeld] | unfold performHeld
    repeat' first | with_reducible assumption
  | succ n ih =>
    first | rw [performHeld] | unfold performHeld
    repeat' first
      | with_reducible assumption | with_reducible apply ih | with_reducible apply State_setPeer_since
      | with_reducible apply performed_since | with_reducible apply perform_since | split

theorem sendAck_since (h : Since o s) {n : Nat} : Since o (sendAck n s) := by
  unfold sendAck
  repeat' first
    | with_reducible assumption | with_reducible apply State_setPeer_since | with_reducible apply sendLoose_since

theorem receiveSeq_since (h : Since o s) {port : Nat} {p : Packet} {fault : Bool} :
    Since o (receiveSeq port p fault s) := by
  unfold receiveSeq
  dsimp only
  split
  · exact State_count_since h
  · split
    · exact State_count_since h
    · split
      · exact nak_since (State_count_since h)
      · split
        · exact h
        · have hs := heardAs_since h (n := p.hdr.src.toNat) (i := p.hdr.sinc.toNat)
          split
          · have hn := nak_since (State_count_since hs (r := .FAB_CNT2) (hi := 63) (lo := 48) (i := 0) (j := 0) (k := 1)) (port := port) (x1 := p.hdr) (status := 6)
            split
            · exact collBadWord_since hn
            · exact hn
          · repeat' split
            · exact performHeld_since (performed_since (perform_since hs))
            · exact sendAck_since (State_count_since hs)
            · exact State_setPeer_since hs
            · exact hs

theorem receiveAtomicRsp_since (h : Since o s) {n : Nat} {x1 : PktHdr} {old : Word} {req : Nat} :
    Since o (receiveAtomicRsp n x1 old req s) := by
  unfold receiveAtomicRsp
  repeat' first
    | with_reducible assumption | with_reducible apply dropReq_since | with_reducible apply remoteFaults_since
    | with_reducible apply remoteRecord_since | with_reducible apply State_modCore_since | split
    | dsimp only [accState, id]

theorem receiveAck_since (h : Since o s) {n : Nat} {x1 : PktHdr} : Since o (receiveAck n x1 s) := by
  unfold receiveAck
  repeat' first
    | with_reducible assumption | with_reducible apply State_setPeer_since | with_reducible apply collAcked_since
    | with_reducible apply dmaAcked_since | with_reducible apply since_foldl | intro _ | split
    | dsimp only [accState, id]

theorem nakDiscard_since (h : Since o s) {n : Nat} {x1 : PktHdr} : Since o (nakDiscard n x1 s) := by
  unfold nakDiscard
  repeat' first
    | with_reducible assumption | with_reducible apply putOut_since | with_reducible apply pathDead_since
    | with_reducible apply retransmit_since | with_reducible apply since_elim | split

theorem receiveNak_since (h : Since o s) {n : Nat} {x1 : PktHdr} : Since o (receiveNak n x1 s) := by
  unfold receiveNak
  repeat' first
    | with_reducible assumption | with_reducible apply resync_since | with_reducible apply State_setPeer_since
    | with_reducible apply nakBusy_since | with_reducible apply nakDiscard_since
    | with_reducible apply nakRefused_since | split | dsimp only [accState, id]

theorem receiveLoose_since (h : Since o s) {p : Packet} : Since o (receiveLoose p s) := by
  obtain ⟨hd, b, bd⟩ := p
  cases b with
  | readRsp d => exact receiveReadRsp_since h
  | atomicRsp old req => exact receiveAtomicRsp_since h
  | ack => exact receiveAck_since h
  | nak => exact receiveNak_since h
  | pathFail a b c => exact receivePathFail_since h
  | write d => exact h
  | read => exact h
  | atomic a b c => exact h
  | coll m => exact h

theorem takePacket_since (h : Since o s) {port : Nat} {p : Packet} {fault : Bool} :
    Since o (takePacket port p fault s) := by
  unfold takePacket
  repeat' first
    | with_reducible assumption | with_reducible apply forward_since | with_reducible apply receiveSeq_since
    | with_reducible apply State_count_since | with_reducible apply receiveLoose_since | split

theorem receive_since (h : Since o s) {port : Nat} {e : LinkErr} {p : Packet} {fault : Bool} :
    Since o (receive port e p fault s) := by
  unfold receive
  repeat' first
    | with_reducible assumption | with_reducible apply State_count_since | with_reducible apply noteArrival_since
    | with_reducible apply takePacket_since | split

theorem execReportRx_keeps (h : Since o s) {port : Fin 36} {e : LinkErr} {x2 : PktHdr} {p : Fin 32}
    {epoch : BitVec 32} {member : BitVec 12} :
    Keeps o (execReportRx port e x2 p epoch member s) := by
  unfold execReportRx
  apply keeps_next
  exact receive_since h

theorem execAckSend_keeps (h : Since o s) {node : BitVec 12} : Keeps o (execAckSend node s) := by
  unfold execAckSend
  apply keeps_next
  repeat' first | with_reducible assumption | with_reducible apply sendAck_since | split

theorem execReadRsp_keeps (h : Since o s) {port : Fin 36} {e : LinkErr} {x2 : PktHdr} {data : List Byte} :
    Keeps o (execReadRsp port e x2 data s) := by
  unfold execReadRsp
  apply keeps_next
  exact receive_since h

theorem execPacketForward_keeps (h : Since o s) {port : Fin 36} {e : LinkErr} {pkt : Packet} :
    Keeps o (execPacketForward port e pkt s) := by
  unfold execPacketForward
  apply keeps_next
  exact receive_since h

theorem execWrite_keeps (h : Since o s) {port : Fin 36} {e : LinkErr} {x2 : PktHdr} {data : List Byte} :
    Keeps o (execWrite port e x2 data s) := by
  unfold execWrite
  apply keeps_next
  exact receive_since h

theorem execAtomicRsp_keeps (h : Since o s) {port : Fin 36} {e : LinkErr} {x2 : PktHdr} {old : Word}
    {req : BitVec 32} :
    Keeps o (execAtomicRsp port e x2 old req s) := by
  unfold execAtomicRsp
  apply keeps_next
  exact receive_since h

theorem execA2aAckRx_keeps (h : Since o s) {port : Fin 36} {e : LinkErr} {x2 : PktHdr} {p : Fin 32}
    {epoch : BitVec 32} {dir : Bool} {hamlet : Fin 8} {set : BitVec 2} {rank : BitVec 12} :
    Keeps o (execA2aAckRx port e x2 p epoch dir hamlet set rank s) := by
  unfold execA2aAckRx
  apply keeps_next
  exact receive_since h

theorem execAtomic_keeps (h : Since o s) {port : Fin 36} {e : LinkErr} {x2 : PktHdr} {operand compare : Word}
    {req : BitVec 32} :
    Keeps o (execAtomic port e x2 operand compare req s) := by
  unfold execAtomic
  apply keeps_next
  exact receive_since h

theorem execCollDataRx_keeps (h : Since o s) {port : Fin 36} {e : LinkErr} {x2 : PktHdr} {m : CollMsg}
    {fault : Bool} :
    Keeps o (execCollDataRx port e x2 m fault s) := by
  unfold execCollDataRx
  apply keeps_next
  exact receive_since h

theorem execAck_keeps (h : Since o s) {port : Fin 36} {e : LinkErr} {x2 : PktHdr} :
    Keeps o (execAck port e x2 s) := by
  unfold execAck
  apply keeps_next
  exact receive_since h

theorem execDecisionRx_keeps (h : Since o s) {port : Fin 36} {e : LinkErr} {x2 : PktHdr} {p : Fin 32}
    {epoch : BitVec 32} :
    Keeps o (execDecisionRx port e x2 p epoch s) := by
  unfold execDecisionRx
  apply keeps_next
  exact receive_since h

theorem execCreditRx_keeps (h : Since o s) {port : Fin 36} {e : LinkErr} {x2 : PktHdr} {p : Fin 32}
    {epoch : BitVec 32} {dir : Bool} {set : BitVec 2} {rank : BitVec 12} :
    Keeps o (execCreditRx port e x2 p epoch dir set rank s) := by
  unfold execCreditRx
  apply keeps_next
  exact receive_since h

theorem execAbortRx_keeps (h : Since o s) {port : Fin 36} {e : LinkErr} {x2 : PktHdr} {p : Fin 32}
    {epoch : BitVec 32} {src : BitVec 12} {cause : BitVec 3} :
    Keeps o (execAbortRx port e x2 p epoch src cause s) := by
  unfold execAbortRx
  apply keeps_next
  exact receive_since h

theorem execPathFail_keeps (h : Since o s) {port : Fin 36} {e : LinkErr} {x2 : PktHdr} {p0 p1 p2 : BitVec 6} :
    Keeps o (execPathFail port e x2 p0 p1 p2 s) := by
  unfold execPathFail
  apply keeps_next
  exact receive_since h

theorem execNak_keeps (h : Since o s) {port : Fin 36} {e : LinkErr} {x2 : PktHdr} :
    Keeps o (execNak port e x2 s) := by
  unfold execNak
  apply keeps_next
  exact receive_since h

theorem execRead_keeps (h : Since o s) {port : Fin 36} {e : LinkErr} {x2 : PktHdr} :
    Keeps o (execRead port e x2 s) := by
  unfold execRead
  apply keeps_next
  exact receive_since h

end Sys2Proof.Laws
end

