-- ==== Sys2Proof/Laws/KeepsControl.lean ====
section
/-! SUPPORT. What the operations keep (`Since` of Safety.lean), one lemma for each: partitions, the host link, power, versions and resets. A lemma named _since speaks
of an operation on the state, one named _keeps of the meaning of a command. -/

namespace Sys2Proof.Laws

open Sys2Proof
open Sys2Proof.Machine

variable {o s : State}

/-! ### PartCtl -/

theorem forceEntries_since (h : Since o s) {c : Nat} {e : Nat × Nat} {x2 : Nat} :
    Since o (forceEntries c e x2 s) := by
  induction x2 generalizing s c e with
  | zero =>
    first | rw [forceEntries] | unfold forceEntries
    repeat' first | with_reducible assumption
  | succ n ih =>
    first | rw [forceEntries] | unfold forceEntries
    repeat' first | with_reducible assumption | with_reducible apply ih | with_reducible apply takeEntry_since | split

theorem stopCx_since (h : Since o s) {c reason : Nat} : Since o (stopCx c reason s) := by
  unfold stopCx
  repeat' first
    | with_reducible assumption | with_reducible apply stopLaunch_since | with_reducible apply noteCx_since
    | with_reducible apply forceEntries_since | with_reducible apply since_foldl | intro _

theorem stopEngines_since (h : Since o s) {p : Nat} : Since o (stopEngines p s) := by
  unfold stopEngines
  repeat' first
    | with_reducible assumption | with_reducible apply seStopPart_since | with_reducible apply drvStop_since
    | with_reducible apply pumpAll_since | with_reducible apply collStop_since | with_reducible apply since_foldl
    | intro _ | split

theorem drainEnds_since (h : Since o s) {f : Nat} : Since o (drainEnds f s) := by
  unfold drainEnds
  repeat' first
    | with_reducible assumption | with_reducible apply State_putReg_since | with_reducible apply stopCx_since
    | with_reducible apply dmaAbort_since | with_reducible apply stopEngines_since
    | with_reducible apply since_foldl | intro _ | split | dsimp only [accState, id]

theorem fnCtlWrite_since (h : Since o s) {f : Nat} {v : Word} : Since o (fnCtlWrite f v s) := by
  unfold fnCtlWrite
  repeat' first
    | with_reducible assumption | with_reducible apply State_putReg_since
    | with_reducible apply State_writePlain_since | with_reducible apply mbxFnReset_since
    | with_reducible apply modSched_since | with_reducible apply drainEnds_since | split | dsimp only [accState, id]

theorem execFnDisable_keeps (h : Since o s) {f : Fin 32} {v : Word} : Keeps o (execFnDisable f v s) := by
  unfold execFnDisable
  apply keeps_next
  exact fnCtlWrite_since h

theorem execDrainEnd_keeps (h : Since o s) {f : Fin 32} : Keeps o (execDrainEnd f s) := by
  unfold execDrainEnd
  apply keeps_next
  exact drainEnds_since h

theorem partStop_since (h : Since o s) {p : Nat} : Since o (partStop p s) := by
  unfold partStop
  repeat' first
    | with_reducible assumption | with_reducible apply State_putReg_since | with_reducible apply stopCx_since
    | with_reducible apply dmaAbort_since | with_reducible apply mbxPartReset_since
    | with_reducible apply stopEngines_since | with_reducible apply faultLive_since
    | with_reducible apply since_foldl | intro _ | split | dsimp only [accState, id]

theorem execPartitionStop_keeps (h : Since o s) {p : Fin 16} : Keeps o (execPartitionStop p s) := by
  unfold execPartitionStop
  apply keeps_next
  exact partStop_since h

theorem cxCtlWrite_since (h : Since o s) {c : Nat} {v : Word} : Since o (cxCtlWrite c v s) := by
  unfold cxCtlWrite
  repeat' first
    | with_reducible assumption | with_reducible apply modCx_since | with_reducible apply State_unflag_since
    | with_reducible apply State_writePlain_since | with_reducible apply State_flag_since
    | with_reducible apply State_setReg_since | with_reducible apply noteCx_since | split
    | dsimp only [accState, id]

theorem execCxCtlWrite_keeps (h : Since o s) {c : Fin 256} {v : Word} : Keeps o (execCxCtlWrite c v s) := by
  unfold execCxCtlWrite
  apply keeps_next
  exact cxCtlWrite_since h

theorem sluiceWindow_since (h : Since o s) : Since o (sluiceWindow s) := by
  unfold sluiceWindow
  repeat' first
    | with_reducible assumption | with_reducible apply State_count_since | with_reducible apply modSched_since
    | with_reducible apply since_foldl | intro _ | split | dsimp only [accState, id]

theorem execSluiceWindow_keeps (h : Since o s) : Keeps o (execSluiceWindow s) := by
  unfold execSluiceWindow
  apply keeps_next
  exact sluiceWindow_since h

theorem execFnEnable_keeps (h : Since o s) {f : Fin 32} {v : Word} : Keeps o (execFnEnable f v s) := by
  unfold execFnEnable
  apply keeps_next
  exact fnCtlWrite_since h

theorem partTileWrite_since (h : Since o s) {p : Nat} {hi : Bool} {v : Word} : Since o (partTileWrite p hi v s) := by
  unfold partTileWrite
  repeat' first
    | with_reducible assumption | with_reducible apply State_flag_since | with_reducible apply State_setReg_since
    | split | dsimp only [accState, id]

theorem execPartPTileWrite_keeps (h : Since o s) {p : Fin 16} {hi : Bool} {v : Word} :
    Keeps o (execPartPTileWrite p hi v s) := by
  unfold execPartPTileWrite
  apply keeps_next
  exact partTileWrite_since h

theorem execPartPCntRead_keeps (h : Since o s) {ag : Agent} {p : Fin 16} : Keeps o (execPartPCntRead ag p s) := by
  unfold execPartPCntRead
  apply keeps_next
  repeat' first
    | with_reducible assumption | with_reducible apply State_readPlain_since
    | with_reducible apply refusePermission_since | split

theorem partCtlWrite_since (h : Since o s) {p : Nat} {v : Word} : Since o (partCtlWrite p v s) := by
  unfold partCtlWrite
  repeat' first
    | with_reducible assumption | with_reducible apply State_flag_since
    | with_reducible apply State_writePlain_since | with_reducible apply mbxPartReset_since | split
    | dsimp only [accState, id]

theorem execPartPCtlWrite_keeps (h : Since o s) {p : Fin 16} {v : Word} : Keeps o (execPartPCtlWrite p v s) := by
  unfold execPartPCtlWrite
  apply keeps_next
  exact partCtlWrite_since h

theorem execSluPHeldRead_keeps (h : Since o s) {ag : Agent} {p : Fin 16} : Keeps o (execSluPHeldRead ag p s) := by
  unfold execSluPHeldRead
  apply keeps_next
  repeat' first
    | with_reducible assumption | with_reducible apply State_readPlain_since
    | with_reducible apply refusePermission_since | split

theorem partResume_since (h : Since o s) {p : Nat} : Since o (partResume p s) := by
  unfold partResume
  repeat' first | with_reducible assumption | with_reducible apply State_putReg_since | split

theorem execPartitionResume_keeps (h : Since o s) {p : Fin 16} : Keeps o (execPartitionResume p s) := by
  unfold execPartitionResume
  apply keeps_next
  exact partResume_since h

theorem execPartFnCntRead_keeps (h : Since o s) {f : Fin 32} : Keeps o (execPartFnCntRead f s) := by
  unfold execPartFnCntRead
  apply keeps_next
  exact State_readPlain_since h

theorem settleStops_since (h : Since o s) : Since o (settleStops s) := by
  unfold settleStops
  repeat' first
    | with_reducible assumption | with_reducible apply State_putReg_since | with_reducible apply since_foldl
    | intro _ | split

/-! ### HostLink -/

theorem linkTrains_since (h : Since o s) {gen width : Nat} : Since o (linkTrains gen width s) := by
  unfold linkTrains
  repeat' first
    | with_reducible assumption | with_reducible apply State_setReg_since | with_reducible apply State_emit_since
    | with_reducible apply modHl_since | with_reducible apply since_foldl | intro _ | split
    | dsimp only [accState, id]

theorem execHlLinkUp_keeps (h : Since o s) {gen : BitVec 2} {width : BitVec 4} :
    Keeps o (execHlLinkUp gen width s) := by
  unfold execHlLinkUp
  apply keeps_next
  exact linkTrains_since h

theorem trainRetry_since (h : Since o s) : Since o (trainRetry s) := by
  unfold trainRetry
  repeat' first | with_reducible assumption | with_reducible apply modHl_since | split

theorem execHlCntRead_keeps (h : Since o s) {ag : Agent} : Keeps o (execHlCntRead ag s) := by
  unfold execHlCntRead
  apply keeps_next
  repeat' first
    | with_reducible assumption | with_reducible apply State_readPlain_since
    | with_reducible apply refusePermission_since | split

theorem execHlTrainRetry_keeps (h : Since o s) : Keeps o (execHlTrainRetry s) := by
  unfold execHlTrainRetry
  apply keeps_next
  exact trainRetry_since h

theorem linkGoesDown_since (h : Since o s) : Since o (linkGoesDown s) := by
  unfold linkGoesDown
  repeat' first
    | with_reducible assumption | with_reducible apply State_flag_since | with_reducible apply State_setReg_since
    | with_reducible apply modHl_since | with_reducible apply reeveCount_since
    | with_reducible apply State_count_since | with_reducible apply dmaFails_since
    | with_reducible apply since_foldl | intro _ | split

theorem retrain_since (h : Since o s) {v : Word} : Since o (retrain v s) := by
  unfold retrain
  repeat' first | with_reducible assumption | with_reducible apply linkGoesDown_since | split

theorem execHlLinkDown_keeps (h : Since o s) : Keeps o (execHlLinkDown s) := by
  unfold execHlLinkDown
  apply keeps_next
  exact linkGoesDown_since h

theorem fnReset_since (h : Since o s) {f : Nat} : Since o (fnReset f s) := by
  unfold fnReset
  repeat' first | with_reducible assumption | with_reducible apply mbxFnReset_since | with_reducible apply modHl_since

theorem execFunctionLevelReset_keeps (h : Since o s) {f : Fin 32} : Keeps o (execFunctionLevelReset f s) := by
  unfold execFunctionLevelReset
  apply keeps_next
  exact fnReset_since h

theorem execHlRetrain_keeps (h : Since o s) {v : Word} : Keeps o (execHlRetrain v s) := by
  unfold execHlRetrain
  apply keeps_next
  exact retrain_since h

theorem hlCtlWrite_since (h : Since o s) {v : Word} : Since o (hlCtlWrite v s) := by
  unfold hlCtlWrite
  repeat' first
    | with_reducible assumption | with_reducible apply State_writePlain_since
    | with_reducible apply linkGoesDown_since | split

/-! ### Clamp -/

theorem State_writeReg_since (h : Since o s) {r : RegName} {v : Word} {i j : Nat} :
    Since o (State.writeReg s r v i j) := by
  unfold State.writeReg
  exact State_writePlain_since h

/-! ### Power -/

theorem modPwr_since (h : Since o s) {f : Power → Power} : Since o (modPwr f s) := by
  unfold modPwr
  repeat' first | with_reducible assumption | simp only [since_mk]

theorem domainReady_since (h : Since o s) {d : Nat} : Since o (domainReady d s) := by
  unfold domainReady
  repeat' first
    | with_reducible assumption | with_reducible apply State_unflag_since | with_reducible apply modPwr_since
    | with_reducible apply launchOn_since | with_reducible apply since_foldl | intro _ | split

theorem noteHolds_since (h : Since o s) : Since o (noteHolds s) := by
  unfold noteHolds
  exact modPwr_since h

theorem fireAll_since (h : Since o s) : Since o (fireAll s) := by
  unfold fireAll
  repeat' first
    | with_reducible assumption | with_reducible apply fireDue_since | with_reducible apply since_foldl | intro _

theorem deviceTick_since (h : Since o s) : Since o (deviceTick s) := by
  unfold deviceTick
  repeat' first
    | with_reducible assumption | with_reducible apply settleStops_since | with_reducible apply agcTick_since
    | with_reducible apply noteHolds_since | with_reducible apply refTick_since | with_reducible apply fireAll_since

theorem thermalStep_since (h : Since o s) : Since o (thermalStep s) := by
  unfold thermalStep
  repeat' first
    | with_reducible assumption | with_reducible apply modPwr_since | with_reducible apply State_flag_since | split
    | dsimp only [accState, id]

theorem execThermalReductionStep_keeps (h : Since o s) : Keeps o (execThermalReductionStep s) := by
  unfold execThermalReductionStep
  apply keeps_next
  exact thermalStep_since h

theorem setPin_since (h : Since o s) {name : String} {level was : Bool} : Since o (setPin name level was s) := by
  unfold setPin
  repeat' first | with_reducible assumption | with_reducible apply State_emit_since | split

theorem thermTrip_since (h : Since o s) : Since o (thermTrip s) := by
  unfold thermTrip
  repeat' first | with_reducible assumption | with_reducible apply modPwr_since | with_reducible apply setPin_since

theorem execThermtrip_keeps (h : Since o s) : Keeps o (execThermtrip s) := by
  unfold execThermtrip
  apply keeps_next
  exact thermTrip_since h

theorem thermSample_since (h : Since o s) {dies optics : List Nat} : Since o (thermSample dies optics s) := by
  unfold thermSample
  repeat' first
    | with_reducible assumption | with_reducible apply State_putReg_since | with_reducible apply modPwr_since
    | with_reducible apply setPin_since | with_reducible apply State_flagIf_since
    | with_reducible apply errRecord_since | with_reducible apply State_flag_since | split
    | dsimp only [accState, id]

theorem domLoses_since (h : Since o s) {d : Nat} : Since o (domLoses d s) := by
  unfold domLoses
  repeat' first
    | with_reducible assumption | with_reducible apply State_modTile_since | with_reducible apply linkGoesDown_since
    | with_reducible apply since_foldl | intro _ | split

theorem govWindow_since (h : Since o s) {est : Nat} : Since o (govWindow est s) := by
  unfold govWindow
  repeat' first
    | with_reducible assumption | with_reducible apply State_setReg_since | with_reducible apply State_used_since
    | with_reducible apply modPwr_since | with_reducible apply State_count_since
    | with_reducible apply reeveCount_since | with_reducible apply errRecord_since
    | with_reducible apply State_flag_since | split | dsimp only [accState, id]

theorem execGovWindow_keeps (h : Since o s) {est : Nat} : Keeps o (execGovWindow est s) := by
  unfold execGovWindow
  apply keeps_next
  exact govWindow_since h

theorem execStepApply_keeps (h : Since o s) : Keeps o (execStepApply s) := by
  unfold execStepApply
  apply keeps_next
  repeat' first | with_reducible assumption | with_reducible apply deviceTick_since | split

theorem enterDormant_since (h : Since o s) {d : Nat} : Since o (enterDormant d s) := by
  unfold enterDormant
  repeat' first
    | with_reducible assumption | with_reducible apply State_flag_since | with_reducible apply domLoses_since
    | split

theorem execDormantEntry_keeps (h : Since o s) {d : Fin 50} : Keeps o (execDormantEntry d s) := by
  unfold execDormantEntry
  apply keeps_next
  exact enterDormant_since h

theorem pollRail_since (h : Since o s) {r : Nat} {x : Option PmbRead × Option PmbRead} :
    Since o (pollRail r x s) := by
  unfold pollRail
  repeat' first
    | with_reducible assumption | with_reducible apply reeveCount_since | with_reducible apply State_flag_since
    | with_reducible apply State_count_since | with_reducible apply State_setReg_since | split

theorem pmbusPoll_since (h : Since o s) {rails : List (Option PmbRead × Option PmbRead)} :
    Since o (pmbusPoll rails s) := by
  unfold pmbusPoll
  repeat' first
    | with_reducible assumption | with_reducible apply pollRail_since | with_reducible apply modPwr_since
    | with_reducible apply State_used_since | with_reducible apply since_foldl | intro _ | split

theorem domReqWrite_since (h : Since o s) {v : Word} : Since o (domReqWrite v s) := by
  unfold domReqWrite
  repeat' first
    | with_reducible assumption | with_reducible apply State_writeReg_since | with_reducible apply wakeDom_since
    | with_reducible apply since_foldl | intro _ | split

theorem execPwrDomReqWrite_keeps (h : Since o s) {v : Word} : Keeps o (execPwrDomReqWrite v s) := by
  unfold execPwrDomReqWrite
  apply keeps_next
  exact domReqWrite_since h

theorem execDomainReady_keeps (h : Since o s) {d : Fin 50} : Keeps o (execDomainReady d s) := by
  unfold execDomainReady
  apply keeps_next
  exact domainReady_since h

theorem execSlewEnd_keeps (h : Since o s) : Keeps o (execSlewEnd s) := by
  unfold execSlewEnd
  apply keeps_next
  repeat' first | with_reducible assumption | with_reducible apply deviceTick_since | split

theorem execThermSample_keeps (h : Since o s) {dies optics : List Nat} :
    Keeps o (execThermSample dies optics s) := by
  unfold execThermSample
  apply keeps_next
  exact thermSample_since h

theorem execPwrCntRead_keeps (h : Since o s) : Keeps o (execPwrCntRead s) := by
  unfold execPwrCntRead
  apply keeps_next
  exact State_readPlain_since h

theorem execPmbusPoll_keeps (h : Since o s) {rails : List (Option PmbRead × Option PmbRead)} :
    Keeps o (execPmbusPoll rails s) := by
  unfold execPmbusPoll
  apply keeps_next
  exact pmbusPoll_since h

/-! ### Versions -/

theorem cfgStat_since (h : Since o s) {version st : Nat} : Since o (cfgStat version st s) := by
  unfold cfgStat
  exact State_setReg_since h

theorem cfgCur_since (h : Since o s) {epoch prev : Nat} : Since o (cfgCur epoch prev s) := by
  unfold cfgCur
  exact State_setReg_since h

theorem modVer_since (h : Since o s) {f : Versions → Versions} : Since o (modVer f s) := by
  unfold modVer
  repeat' first | with_reducible assumption | simp only [since_mk]

theorem keepDrovers_since (h : Since o s) : Since o (keepDrovers s) := by
  unfold keepDrovers
  repeat' first
    | with_reducible assumption | with_reducible apply State_setDrover_since | with_reducible apply since_foldl
    | intro _ | split

theorem portSwitch_since (h : Since o s) {p : Nat} {old : Word} : Since o (portSwitch p old s) := by
  unfold portSwitch
  repeat' first
    | with_reducible assumption | with_reducible apply fhLinkFall_since | with_reducible apply State_unflag_since
    | with_reducible apply modPort_since | with_reducible apply State_flag_since | split | dsimp only [accState, id]

theorem readTd_since (h : Since o s) {c : Nat} : Since o (readTd c s) := by
  unfold readTd
  repeat' first
    | with_reducible assumption | with_reducible apply devRead_since | with_reducible apply fhFault_since | split
    | dsimp only [accState, id] | simp only [since_mk]

theorem cellSwitch_since (h : Since o s) {c : Nat} : Since o (cellSwitch c s) := by
  unfold cellSwitch
  repeat' first
    | with_reducible assumption | with_reducible apply readTd_since | split | dsimp only [accState, id]
    | simp only [since_mk]

theorem installRegs_since (h : Since o s) {b : Bank} : Since o (installRegs b s) := by
  unfold installRegs
  repeat' first
    | with_reducible assumption | with_reducible apply portSwitch_since | with_reducible apply cellSwitch_since
    | with_reducible apply since_foldl | intro _ | split
    | exact since_regs (keepDrovers_since h) fun w => tab_wf_setAll resetAt _ _ (tab_wf_filter resetAt _ _ w)

theorem disarmSet_since (h : Since o s) {bs : List SetBell} : Since o (disarmSet bs s) := by
  unfold disarmSet
  repeat' first
    | with_reducible assumption | with_reducible apply disarmBell_since | with_reducible apply since_foldl | intro _
    | split

theorem install_since (h : Since o s) {b : Bank} : Since o (install b s) := by
  unfold install
  repeat' first
    | with_reducible assumption | with_reducible apply modVer_since | with_reducible apply installRegs_since
    | with_reducible apply disarmSet_since

theorem armSet_since (h : Since o s) {b : SetBell} {time : Word} {arm : Bool} : Since o (armSet b time arm s) := by
  unfold armSet
  repeat' first
    | with_reducible assumption | with_reducible apply disarmBell_since | with_reducible apply wakeDom_since
    | with_reducible apply State_setReg_since | with_reducible apply State_flag_since
    | with_reducible apply State_putReg_since | with_reducible apply armBell_since | split

theorem reloadTiles_since (h : Since o s) : Since o (reloadTiles s) := by
  unfold reloadTiles
  repeat' first
    | with_reducible assumption | with_reducible apply loadIfStale_since | with_reducible apply since_foldl
    | intro _ | split

theorem activateVersion_since (h : Since o s) {v : Nat} : Since o (activateVersion v s) := by
  unfold activateVersion
  repeat' first
    | with_reducible assumption | with_reducible apply errRecord_since | with_reducible apply State_flag_since
    | with_reducible apply cfgStat_since | with_reducible apply cfgCur_since | with_reducible apply modVer_since
    | with_reducible apply install_since | with_reducible apply armSet_since
    | with_reducible apply reloadTiles_since | with_reducible apply ringReg_since | with_reducible apply since_foldl
    | intro _ | split

theorem activateNow_since (h : Since o s) : Since o (activateNow s) := by
  unfold activateNow
  repeat' first
    | with_reducible assumption | with_reducible apply fireAll_since | with_reducible apply withDelivery_since
    | with_reducible apply activateVersion_since | intro _ | split | dsimp only [accState, id]

theorem rearm_since (h : Since o s) {due : Nat} {b : SetBell} : Since o (rearm due b s) := by
  unfold rearm
  repeat' first | with_reducible assumption | with_reducible apply armSet_since | split

theorem readImage_since (h : Since o s) {x0 x1 : Nat} {x2 : Bank} : Since o (readImage x0 x1 x2 s).2 := by
  induction x0 generalizing s x1 x2 with
  | zero =>
    first | rw [readImage] | unfold readImage
    repeat' first | with_reducible assumption
  | succ n ih =>
    first | rw [readImage] | unfold readImage
    repeat' first
      | with_reducible assumption | with_reducible apply ih | with_reducible apply devRead_since | split
      | (refine since_pair (by with_reducible assumption) ?_) | dsimp only [accState, id]

theorem loadCompletes_since (h : Since o s) : Since o (loadCompletes s) := by
  unfold loadCompletes
  repeat' first
    | with_reducible assumption | with_reducible apply readImage_since | with_reducible apply cfgStat_since
    | with_reducible apply modVer_since | with_reducible apply State_flag_since | split | dsimp only [accState, id]

theorem execConfigActivate_keeps (h : Since o s) : Keeps o (execConfigActivate s) := by
  unfold execConfigActivate
  apply keeps_next
  exact activateNow_since h

theorem stageVersion_since (h : Since o s) {v : Nat} : Since o (stageVersion v s) := by
  unfold stageVersion
  repeat' first
    | with_reducible assumption | with_reducible apply State_flag_since | with_reducible apply modVer_since
    | with_reducible apply cfgStat_since | with_reducible apply cfgCur_since | split

theorem execStage_keeps (h : Since o s) {v : Word} : Keeps o (execStage v s) := by
  unfold execStage
  apply keeps_next
  exact stageVersion_since h

theorem clearTileImage_since (h : Since o s) {t : Nat} : Since o (clearTileImage t s) := by
  unfold clearTileImage
  repeat' first
    | with_reducible assumption | with_reducible apply State_setReg_since | with_reducible apply since_foldl
    | intro _

theorem setTileImage_since (h : Since o s) {t : Nat} {ws : List Word} : Since o (setTileImage t ws s) := by
  unfold setTileImage
  repeat' first
    | with_reducible assumption | with_reducible apply State_writeReg_since | with_reducible apply since_foldl
    | intro _

theorem reloadDone_since (h : Since o s) {t : Nat} : Since o (reloadDone t s) := by
  unfold reloadDone
  repeat' first
    | with_reducible assumption | with_reducible apply State_modTile_since | with_reducible apply launchOn_since
    | with_reducible apply State_setReg_since | with_reducible apply clearTileImage_since
    | with_reducible apply errRecord_since | with_reducible apply freeTile_since
    | with_reducible apply endPart_since | with_reducible apply setTileImage_since
    | with_reducible apply readCorrects_since | split | dsimp only [accState, id]

theorem rollbackTakes_since (h : Since o s) : Since o (rollbackTakes s) := by
  unfold rollbackTakes
  repeat' first
    | with_reducible assumption | with_reducible apply fireAll_since | with_reducible apply cfgStat_since
    | with_reducible apply cfgCur_since | with_reducible apply modVer_since | with_reducible apply install_since
    | with_reducible apply reloadTiles_since | with_reducible apply State_flag_since
    | with_reducible apply rearm_since | with_reducible apply since_foldl | intro _ | split
    | dsimp only [accState, id]

theorem execTileReloadDone_keeps (h : Since o s) {t : Fin 128} : Keeps o (execTileReloadDone t s) := by
  unfold execTileReloadDone
  apply keeps_next
  exact reloadDone_since h

theorem rollbackAsked_since (h : Since o s) : Since o (rollbackAsked s) := by
  unfold rollbackAsked
  repeat' first
    | with_reducible assumption | with_reducible apply State_flag_since | with_reducible apply cfgStat_since
    | with_reducible apply modVer_since | split

theorem execRollback_keeps (h : Since o s) : Keeps o (execRollback s) := by
  unfold execRollback
  apply keeps_next
  exact rollbackAsked_since h

theorem execLoadComplete_keeps (h : Since o s) : Keeps o (execLoadComplete s) := by
  unfold execLoadComplete
  apply keeps_next
  exact loadCompletes_since h

theorem discardVersion_since (h : Since o s) : Since o (discardVersion s) := by
  unfold discardVersion
  repeat' first
    | with_reducible assumption | with_reducible apply cfgStat_since | with_reducible apply cfgCur_since
    | with_reducible apply modVer_since

theorem execDiscard_keeps (h : Since o s) : Keeps o (execDiscard s) := by
  unfold execDiscard
  apply keeps_next
  exact discardVersion_since h

theorem execRollbackTakeEffect_keeps (h : Since o s) : Keeps o (execRollbackTakeEffect s) := by
  unfold execRollbackTakeEffect
  apply keeps_next
  exact rollbackTakes_since h

/-! ### Reset -/

theorem runOut_since (h : Since o s) {k : Nat} {c : SeCmd} : Since o (runOut k c s) := by
  unfold runOut
  repeat' first
    | with_reducible assumption | with_reducible apply placeCmd_since | with_reducible apply State_setEngine_since
    | with_reducible apply seComplete_since | with_reducible apply runUnits_since | split

theorem loseStores_since (h : Since o s) : Since o (loseStores s) := by
  unfold loseStores
  repeat' first
    | with_reducible assumption | with_reducible apply State_loseRegion_since | dsimp only [accState, id]
    | simp only [since_mk]

theorem powerClear_since (h : Since o s) : Since o (powerClear s) := by
  unfold powerClear
  have hp := setPin_since (setPin_since h (name := "THERM_N") (level := true) (was := !s.pwr.thermN))
    (name := "THERMTRIP_N") (level := true) (was := !s.pwr.trip)
  exact loseStores_since ⟨hp.queue, hp.free, hp.wire, fun _ => rfl, fun _ => rfl⟩

theorem brownOut_since (h : Since o s) : Since o (brownOut s) := by
  unfold brownOut
  repeat' first
    | with_reducible assumption | with_reducible apply State_loseRegion_since
    | with_reducible apply powerClear_since

theorem coldTile_since (h : Since o s) {t : Nat} : Since o (coldTile t s) := by
  unfold coldTile
  repeat' first
    | with_reducible assumption | with_reducible apply State_modTile_since | with_reducible apply resetTile_since

theorem drainEngine_since (h : Since o s) {p : SeCmd → Bool} {waits : Bool} {k x3 : Nat} :
    Since o (drainEngine p waits k x3 s) := by
  induction x3 generalizing s waits k with
  | zero =>
    first | rw [drainEngine] | unfold drainEngine
    repeat' first | with_reducible assumption
  | succ n ih =>
    first | rw [drainEngine] | unfold drainEngine
    repeat' first | with_reducible assumption | with_reducible apply ih | with_reducible apply runOut_since | split

theorem drainAll_since (h : Since o s) {p : SeCmd → Bool} {waits : Bool} {ks : List Nat} :
    Since o (drainAll p waits ks s) := by
  unfold drainAll
  repeat' first
    | with_reducible assumption | with_reducible apply drainEngine_since | with_reducible apply since_foldl
    | intro _

theorem domainRule_since (h : Since o s) {d : Nat} : Since o (domainRule d s) := by
  unfold domainRule
  repeat' first
    | with_reducible assumption | with_reducible apply coldTile_since | with_reducible apply pumpAll_since
    | with_reducible apply drainAll_since | with_reducible apply drvStop_since
    | with_reducible apply State_setCluster_since | with_reducible apply codAbort_since
    | with_reducible apply collHalfReset_since | with_reducible apply fabHalfReset_since
    | with_reducible apply State_setFabPort_since | with_reducible apply fhLinkFall_since
    | with_reducible apply mbxResets_since | with_reducible apply linkGoesDown_since
    | with_reducible apply State_setEngine_since | with_reducible apply since_foldl | intro _ | split
    | dsimp only [accState, id] | simp only [since_mk]

theorem settleMoves_since (h : Since o s) : Since o (settleMoves s) := by
  unfold settleMoves
  repeat' first
    | with_reducible assumption | with_reducible apply moveSwitch_since | with_reducible apply since_foldl | intro _

theorem wakeNow_since (h : Since o s) {d : Nat} : Since o (wakeNow d s) := by
  unfold wakeNow
  repeat' first
    | with_reducible assumption | with_reducible apply domainReady_since | with_reducible apply wakeDom_since
    | with_reducible apply State_unflag_since | with_reducible apply modPwr_since | split

theorem domainReset_since (h : Since o s) {d : Nat} : Since o (domainReset d s) := by
  unfold domainReset
  repeat' first
    | with_reducible assumption | with_reducible apply wakeNow_since | with_reducible apply resetRegs_since
    | with_reducible apply domainRule_since | with_reducible apply modPwr_since
    | with_reducible apply loadIfStale_since | with_reducible apply since_foldl | intro _ | split

theorem execBrownOut_keeps (h : Since o s) : Keeps o (execBrownOut s) := by
  unfold execBrownOut
  apply keeps_next
  exact brownOut_since h

theorem domainResets_since (h : Since o s) {v : Word} : Since o (domainResets v s) := by
  unfold domainResets
  repeat' first
    | with_reducible assumption | with_reducible apply domainReset_since | with_reducible apply since_foldl
    | intro _ | split

theorem deviceClear_since (h : Since o s) : Since o (deviceClear s) := by
  unfold deviceClear
  apply State_putReg_since
  have hd : Since o (loseStores (settleMoves ((List.range 48).foldl (fun s d => domainReset d s) s))) :=
    loseStores_since (settleMoves_since (since_foldl (fun _ _ hs => domainReset_since hs) h))
  exact since_regs hd fun w => tab_wf_filter resetAt _ _ w

theorem execDomainReset_keeps (h : Since o s) {v : Word} : Keeps o (execDomainReset v s) := by
  unfold execDomainReset
  apply keeps_next
  exact domainResets_since h

end Sys2Proof.Laws
end

