-- ==== Sys2Proof/Laws/KeepsHost.lean ====
section
/-! SUPPORT. What the operations keep (`Since` of Safety.lean), one lemma for each: boot, firmware, health, register accesses, host requests, loads and stores. A lemma named _since speaks
of an operation on the state, one named _keeps of the meaning of a command. -/

namespace Sys2Proof.Laws

open Sys2Proof
open Sys2Proof.Machine

variable {o s : State}

/-! ### Boot -/

theorem modSec_since (h : Since o s) {f : Sec → Sec} : Since o (modSec f s) := by
  unfold modSec
  repeat' first | with_reducible assumption | simp only [since_mk]

theorem enablePf0_since (h : Since o s) : Since o (enablePf0 s) := by
  unfold enablePf0
  repeat' first
    | with_reducible assumption | with_reducible apply State_putReg_since | with_reducible apply State_flag_since
    | with_reducible apply State_setReg_since

theorem enterRecovery_since (h : Since o s) {step cause : Nat} : Since o (enterRecovery step cause s) := by
  unfold enterRecovery
  repeat' first
    | with_reducible assumption | with_reducible apply State_setReg_since | with_reducible apply fnCtlWrite_since
    | with_reducible apply linkGoesDown_since | with_reducible apply enablePf0_since
    | with_reducible apply State_flag_since | with_reducible apply since_foldl | intro _ | split

theorem measure_since (h : Since o s) {m : Nat} {digest : List Byte} : Since o (Machine.measure m digest s) := by
  unfold Machine.measure
  repeat' first
    | with_reducible assumption | with_reducible apply State_setReg_since | with_reducible apply since_foldl
    | intro _

theorem placeComp_since (h : Since o s) {rd : PkgReader} {ws : List Word} {i : Nat} :
    Since o (placeComp rd ws i s).2 := by
  unfold placeComp
  repeat' first
    | with_reducible assumption | with_reducible apply modSec_since | with_reducible apply devWrite_since | split

theorem placeComps_since (h : Since o s) {rd : PkgReader} {ws : List Word} {x2 : List Nat} :
    Since o (placeComps rd ws x2 s).2 := by
  induction x2 generalizing s rd ws with
  | nil =>
    first | rw [placeComps] | unfold placeComps
    repeat' first | with_reducible assumption
  | cons y ys ih =>
    first | rw [placeComps] | unfold placeComps
    repeat' first
      | with_reducible assumption | with_reducible apply ih | with_reducible apply placeComp_since | split
      | (refine since_pair (by with_reducible assumption) ?_)

theorem trySlot_since (h : Since o s) {b : Nat} : Since o (trySlot b s).2 := by
  unfold trySlot
  repeat' first
    | with_reducible assumption | with_reducible apply measure_since | with_reducible apply modSec_since
    | with_reducible apply placeComps_since | with_reducible apply mbxStewardReset_since
    | with_reducible apply State_setReg_since | split | dsimp only [accState, id]

theorem mirrorArb_since (h : Since o s) : Since o (mirrorArb s) := by
  unfold mirrorArb
  repeat' first | with_reducible assumption | with_reducible apply State_setReg_since

theorem raiseCounters_since (h : Since o s) {ws : List Word} : Since o (raiseCounters ws s) := by
  unfold raiseCounters
  repeat' first | with_reducible assumption | with_reducible apply mirrorArb_since | with_reducible apply modSec_since

theorem started_since (h : Since o s) {b : Nat} {trial fallback : Bool} {cause : Nat} :
    Since o (started b trial fallback cause s) := by
  unfold started
  repeat' first
    | with_reducible assumption | with_reducible apply raiseCounters_since | with_reducible apply State_setReg_since
    | split

theorem bootFrom_since (h : Since o s) {first : Nat} {trial lost : Bool} :
    Since o (bootFrom first trial lost s).2 := by
  unfold bootFrom
  repeat' first
    | with_reducible assumption | with_reducible apply trySlot_since | with_reducible apply started_since
    | with_reducible apply enterRecovery_since | split | (refine since_pair (by with_reducible assumption) ?_)

theorem flashWrite_since (h : Since o s) {x0 : Nat} {bs : List Byte} : Since o (flashWrite x0 bs s) := by
  unfold flashWrite
  exact modSec_since h

theorem bcbWrite_since (h : Since o s) {w : Word} : Since o (bcbWrite w s) := by
  unfold bcbWrite
  exact flashWrite_since h

theorem bootSlots_since (h : Since o s) : Since o (bootSlots s).2 := by
  unfold bootSlots
  repeat' first
    | with_reducible assumption | with_reducible apply bootFrom_since | with_reducible apply bcbWrite_since | split

theorem stewardRestart_since (h : Since o s) {cause : Nat} : Since o (stewardRestart cause s) := by
  unfold stewardRestart
  repeat' first
    | with_reducible assumption | with_reducible apply mbxStewardReset_since
    | with_reducible apply State_setReg_since | with_reducible apply modSec_since
    | with_reducible apply enterRecovery_since | with_reducible apply bootSlots_since | split
    | dsimp only [accState, id]

theorem execStewardRestart_keeps (h : Since o s) : Keeps o (execStewardRestart s) := by
  unfold execStewardRestart
  apply keeps_next
  exact stewardRestart_since h

theorem applyRecord_since (h : Since o s) {bs : List Byte} : Since o (applyRecord bs s) := by
  unfold applyRecord
  repeat' first
    | with_reducible assumption | with_reducible apply modSec_since | with_reducible apply State_setReg_since
    | with_reducible apply State_putReg_since | with_reducible apply mirrorArb_since
    | with_reducible apply measure_since

theorem startUp_since (h : Since o s) {cause : Word} : Since o (startUp cause s) := by
  unfold startUp
  repeat' first
    | with_reducible assumption | with_reducible apply State_setReg_since | with_reducible apply enterRecovery_since
    | with_reducible apply bootSlots_since | with_reducible apply applyRecord_since
    | with_reducible apply State_flag_since | split | (refine since_pair (by with_reducible assumption) ?_)
    | dsimp only [accState, id]

theorem execPowerOn_keeps (h : Since o s) : Keeps o (execPowerOn s) := by
  unfold execPowerOn
  apply keeps_next
  repeat' first
    | with_reducible assumption | with_reducible apply startUp_since | with_reducible apply powerClear_since

theorem deviceReset_since (h : Since o s) {cause : Word} : Since o (deviceReset cause s) := by
  unfold deviceReset
  repeat' first
    | with_reducible assumption | with_reducible apply startUp_since | with_reducible apply deviceClear_since

theorem execCardReset_keeps (h : Since o s) : Keeps o (execCardReset s) := by
  unfold execCardReset
  apply keeps_next
  exact deviceReset_since h

theorem execDeviceReset_keeps (h : Since o s) : Keeps o (execDeviceReset s) := by
  unfold execDeviceReset
  apply keeps_next
  exact deviceReset_since h

/-! ### Firmware -/

theorem fwRefuse_since (h : Since o s) : Since o (fwRefuse s) := by
  unfold fwRefuse
  exact State_flag_since h

theorem fwStat_since (h : Since o s) {svn cause st : Nat} : Since o (fwStat svn cause st s) := by
  unfold fwStat
  exact State_setReg_since h

theorem fwConfirm_since (h : Since o s) {refused : Bool} : Since o (fwConfirm refused s) := by
  unfold fwConfirm
  repeat' first
    | with_reducible assumption | with_reducible apply fwRefuse_since | with_reducible apply bcbWrite_since
    | with_reducible apply raiseCounters_since | with_reducible apply State_flag_since
    | with_reducible apply fwStat_since | with_reducible apply State_putReg_since
    | with_reducible apply State_unflag_since | with_reducible apply modSec_since | split

theorem fwBegin_since (h : Since o s) : Since o (fwBegin s) := by
  unfold fwBegin
  repeat' first
    | with_reducible assumption | with_reducible apply fwStat_since | with_reducible apply flashWrite_since
    | with_reducible apply fwRefuse_since | split

theorem programPackage_since (h : Since o s) : Since o (programPackage s) := by
  unfold programPackage
  repeat' first
    | with_reducible assumption | with_reducible apply devRead_since | with_reducible apply flashWrite_since | split
    | dsimp only [accState, id]

theorem fwCheck_since (h : Since o s) {media : Bool} : Since o (fwCheck media s) := by
  unfold fwCheck
  repeat' first
    | with_reducible assumption | with_reducible apply fwRefuse_since | with_reducible apply programPackage_since
    | with_reducible apply fwStat_since | split | dsimp only [accState, id]

theorem fwActivate_since (h : Since o s) : Since o (fwActivate s) := by
  unfold fwActivate
  repeat' first
    | with_reducible assumption | with_reducible apply fwRefuse_since | with_reducible apply stewardRestart_since
    | with_reducible apply bcbWrite_since | split

theorem fwAbandon_since (h : Since o s) : Since o (fwAbandon s) := by
  unfold fwAbandon
  repeat' first
    | with_reducible assumption | with_reducible apply stewardRestart_since | with_reducible apply fwStat_since
    | split

theorem fwCtl_since (h : Since o s) {op : Nat} : Since o (fwCtl op s) := by
  unfold fwCtl
  repeat' first
    | with_reducible assumption | with_reducible apply fwBegin_since | with_reducible apply fwCheck_since
    | with_reducible apply fwActivate_since | with_reducible apply fwConfirm_since
    | with_reducible apply fwAbandon_since | with_reducible apply fwRefuse_since | split

theorem downloadFails_since (h : Since o s) {cause : Nat} : Since o (downloadFails cause s) := by
  unfold downloadFails
  exact State_setReg_since h

theorem recoverFirmware_since (h : Since o s) {bs : List Byte} {media : Bool} :
    Since o (recoverFirmware bs media s) := by
  unfold recoverFirmware
  repeat' first
    | with_reducible assumption | with_reducible apply downloadFails_since | with_reducible apply deviceReset_since
    | with_reducible apply State_used_since | with_reducible apply bcbWrite_since
    | with_reducible apply flashWrite_since | split | dsimp only [accState, id]

theorem recoverRecord_since (h : Since o s) {bs : List Byte} {media : Bool} :
    Since o (recoverRecord bs media s) := by
  unfold recoverRecord
  repeat' first
    | with_reducible assumption | with_reducible apply downloadFails_since | with_reducible apply State_used_since
    | with_reducible apply modSec_since | with_reducible apply flashWrite_since
    | with_reducible apply deviceReset_since | split

theorem recoveryDownload_since (h : Since o s) {media : Bool} : Since o (recoveryDownload media s) := by
  unfold recoveryDownload
  repeat' first
    | with_reducible assumption | with_reducible apply devRead_since | with_reducible apply mbxAck_since
    | with_reducible apply recoverFirmware_since | with_reducible apply recoverRecord_since
    | with_reducible apply downloadFails_since | with_reducible apply State_used_since | split
    | dsimp only [accState, id]

theorem execRecoveryDownload_keeps (h : Since o s) {media : Bool} : Keeps o (execRecoveryDownload media s) := by
  unfold execRecoveryDownload
  apply keeps_next
  exact recoveryDownload_since h

theorem updateRequest_since (h : Since o s) : Since o (updateRequest s) := by
  unfold updateRequest
  repeat' first
    | with_reducible assumption | with_reducible apply mbxAck_since | with_reducible apply State_emit_since
    | with_reducible apply modSec_since | split | dsimp only [accState, id]

theorem execUpdateRequest_keeps (h : Since o s) : Keeps o (execUpdateRequest s) := by
  unfold execUpdateRequest
  apply keeps_next
  exact updateRequest_since h

theorem measExtend_since (h : Since o s) {v : Word} : Since o (measExtend v s) := by
  unfold measExtend
  repeat' first | with_reducible assumption | with_reducible apply measure_since | split

theorem watchdogExpire_since (h : Since o s) : Since o (watchdogExpire s) := by
  unfold watchdogExpire
  repeat' first
    | with_reducible assumption | with_reducible apply modSec_since | with_reducible apply stewardRestart_since
    | with_reducible apply State_emit_since | split | dsimp only [accState, id]

theorem execWatchdogExpire_keeps (h : Since o s) : Keeps o (execWatchdogExpire s) := by
  unfold execWatchdogExpire
  apply keeps_next
  exact watchdogExpire_since h

theorem execMeasExtend_keeps (h : Since o s) {v : Word} : Keeps o (execMeasExtend v s) := by
  unfold execMeasExtend
  apply keeps_next
  exact measExtend_since h

theorem execConfirm_keeps (h : Since o s) {refused : Bool} : Keeps o (execConfirm refused s) := by
  unfold execConfirm
  apply keeps_next
  exact fwConfirm_since h

theorem watchdogReload_since (h : Since o s) {v : Word} : Since o (watchdogReload v s) := by
  unfold watchdogReload
  repeat' first
    | with_reducible assumption | with_reducible apply modSec_since | with_reducible apply State_writePlain_since

theorem execWatchdogReload_keeps (h : Since o s) {v : Word} : Keeps o (execWatchdogReload v s) := by
  unfold execWatchdogReload
  apply keeps_next
  exact watchdogReload_since h

theorem execWritten_keeps (h : Since o s) {media : Bool} : Keeps o (execWritten media s) := by
  unfold execWritten
  apply keeps_next
  exact fwCheck_since h

theorem measInWrite_since (h : Since o s) {j : Nat} {v : Word} : Since o (measInWrite j v s) := by
  unfold measInWrite
  exact modSec_since h

theorem execFwBegin_keeps (h : Since o s) : Keeps o (execFwBegin s) := by
  unfold execFwBegin
  apply keeps_next
  exact fwBegin_since h

theorem execAbandon_keeps (h : Since o s) : Keeps o (execAbandon s) := by
  unfold execAbandon
  apply keeps_next
  exact fwAbandon_since h

theorem execActivate_keeps (h : Since o s) : Keeps o (execActivate s) := by
  unfold execActivate
  apply keeps_next
  exact fwActivate_since h

/-! ### Health -/

theorem modReeve_since (h : Since o s) {f : Reeve → Reeve} : Since o (modReeve f s) := by
  unfold modReeve
  repeat' first | with_reducible assumption | simp only [since_mk]

theorem restInputs_since (h : Since o s) : Since o (restInputs s) := by
  unfold restInputs
  exact modReeve_since h

theorem publishHealth_since (h : Since o s) : Since o (publishHealth s) := by
  unfold publishHealth
  repeat' first
    | with_reducible assumption | with_reducible apply windowStore_since | with_reducible apply memErrRecord_since
    | split | (refine since_pair (by with_reducible assumption) ?_) | dsimp only [accState, id]

theorem scoreWindow_since (h : Since o s) : Since o (scoreWindow s) := by
  unfold scoreWindow
  repeat' first
    | with_reducible assumption | with_reducible apply restInputs_since | with_reducible apply modReeve_since
    | with_reducible apply State_setReg_since | with_reducible apply publishHealth_since
    | with_reducible apply ringReg_since | split

theorem rmRead_since (h : Since o s) {ofs len : Nat} : Since o (rmRead ofs len s).2 := by
  unfold rmRead
  repeat' first
    | with_reducible assumption | with_reducible apply devRead_since | split
    | (refine since_pair (by with_reducible assumption) ?_)

theorem stepRecord_since (h : Since o s) {d k : Nat} : Since o (stepRecord d k s).2 := by
  unfold stepRecord
  repeat' first
    | with_reducible assumption | with_reducible apply rmRead_since | split
    | (refine since_pair (by with_reducible assumption) ?_)

theorem stepsOf_since (h : Since o s) {d w : Nat} : Since o (stepsOf d w s).2 := by
  unfold stepsOf
  repeat' first
    | with_reducible assumption | with_reducible apply stepRecord_since | with_reducible apply since_foldl2
    | intro _

theorem modRm_since (h : Since o s) {d : Nat} {f : RmDev → RmDev} : Since o (modRm d f s) := by
  unfold modRm
  exact modReeve_since h

theorem settleStep_since (h : Since o s) {d step : Nat} : Since o (settleStep d step s) := by
  unfold settleStep
  exact modRm_since h

theorem rmMove_since (h : Since o s) {d st pct : Nat} : Since o (rmMove d st pct s) := by
  unfold rmMove
  repeat' first
    | with_reducible assumption | with_reducible apply ringReg_since | with_reducible apply State_putReg_since

theorem rmExpel_since (h : Since o s) {d : Nat} : Since o (rmExpel d s) := by
  unfold rmExpel
  repeat' first
    | with_reducible assumption | with_reducible apply modReeve_since | with_reducible apply rmMove_since
    | with_reducible apply modRm_since

theorem shadowDiffers_since (h : Since o s) {d : Nat} : Since o (shadowDiffers d s) := by
  unfold shadowDiffers
  repeat' first
    | with_reducible assumption | with_reducible apply errRecord_since | with_reducible apply State_putReg_since
    | with_reducible apply reeveCount_since | with_reducible apply modRm_since | with_reducible apply rmExpel_since
    | split | dsimp only [accState, id]

theorem execErrLostRead_keeps (h : Since o s) {ag : Agent} : Keeps o (execErrLostRead ag s) := by
  unfold execErrLostRead
  apply keeps_next
  repeat' first
    | with_reducible assumption | with_reducible apply State_readPlain_since
    | with_reducible apply refusePermission_since | split

theorem shadowEqual_since (h : Since o s) {d : Nat} : Since o (shadowEqual d s) := by
  unfold shadowEqual
  repeat' first
    | with_reducible assumption | with_reducible apply modRm_since | with_reducible apply State_count_since
    | with_reducible apply rmMove_since | split | dsimp only [accState, id]

theorem rmCandidate_since (h : Since o s) {d : Nat} : Since o (rmCandidate d s) := by
  unfold rmCandidate
  repeat' first
    | with_reducible assumption | with_reducible apply rmExpel_since | with_reducible apply rmMove_since
    | with_reducible apply modRm_since | split

theorem expelDegraded_since (h : Since o s) {x0 : Nat} : Since o (expelDegraded x0 s) := by
  induction x0 generalizing s with
  | zero =>
    first | rw [expelDegraded] | unfold expelDegraded
    repeat' first | with_reducible assumption
  | succ n ih =>
    first | rw [expelDegraded] | unfold expelDegraded
    repeat' first | with_reducible assumption | with_reducible apply ih | with_reducible apply rmExpel_since | split

theorem shadowLate_since (h : Since o s) {d : Nat} : Since o (shadowLate d s) := by
  unfold shadowLate
  repeat' first
    | with_reducible assumption | with_reducible apply shadowDiffers_since | with_reducible apply settleStep_since
    | with_reducible apply since_foldl | intro _ | split

theorem noteStep_since (h : Since o s) {d step : Nat} : Since o (noteStep d step s) := by
  unfold noteStep
  repeat' first | with_reducible assumption | with_reducible apply modRm_since | split | dsimp only [accState, id]

theorem shadowSlot_since (h : Since o s) {d k : Nat} : Since o (shadowSlot d k s) := by
  unfold shadowSlot
  repeat' first
    | with_reducible assumption | with_reducible apply stepRecord_since | with_reducible apply shadowEqual_since
    | with_reducible apply settleStep_since | with_reducible apply shadowDiffers_since
    | with_reducible apply noteStep_since | split | dsimp only [accState, id]

theorem shadowScan_since (h : Since o s) {d : Nat} : Since o (shadowScan d s) := by
  unfold shadowScan
  repeat' first
    | with_reducible assumption | with_reducible apply shadowLate_since | with_reducible apply shadowSlot_since
    | with_reducible apply since_foldl | intro _

theorem rmRecord_since (h : Since o s) {d band : Nat} : Since o (rmRecord d band s) := by
  unfold rmRecord
  repeat' first
    | with_reducible assumption | with_reducible apply modRm_since | with_reducible apply rmCandidate_since
    | with_reducible apply rmMove_since | split | dsimp only [accState, id]

theorem rmReadDev_miss_since (h : Since o s) {d : Nat} : Since o (rmReadDev.miss d s) := by
  unfold rmReadDev.miss
  repeat' first
    | with_reducible assumption | with_reducible apply rmRecord_since | with_reducible apply modRm_since | split

theorem rmReadDev_since (h : Since o s) {d : Nat} : Since o (rmReadDev d s) := by
  unfold rmReadDev
  repeat' first
    | with_reducible assumption | with_reducible apply rmRead_since | with_reducible apply rmRecord_since
    | with_reducible apply modRm_since | with_reducible apply rmReadDev_miss_since | split
    | (refine since_pair (by with_reducible assumption) ?_)

theorem rmWindow_since (h : Since o s) : Since o (rmWindow s) := by
  unfold rmWindow
  repeat' first
    | with_reducible assumption | with_reducible apply expelDegraded_since | with_reducible apply modReeve_since
    | with_reducible apply shadowScan_since | with_reducible apply rmReadDev_since
    | with_reducible apply since_foldl | intro _ | split

theorem execRmWindow_keeps (h : Since o s) : Keeps o (execRmWindow s) := by
  unfold execRmWindow
  apply keeps_next
  exact rmWindow_since h

theorem errClear_since (h : Since o s) {i : Nat} {ev : Option (Nat × Nat)} : Since o (errClear i ev s) := by
  unfold errClear
  repeat' first
    | with_reducible assumption | with_reducible apply State_unflag_since | with_reducible apply State_flag_since
    | with_reducible apply reeveCount_since | with_reducible apply State_setReg_since
    | with_reducible apply State_putReg_since | with_reducible apply ringReg_since | split
    | dsimp only [accState, id]

theorem execBudgetExpiry_keeps (h : Since o s) : Keeps o (execBudgetExpiry s) := by
  unfold execBudgetExpiry
  apply keeps_next
  repeat' first | with_reducible assumption | with_reducible apply expelDegraded_since | split

theorem rmDevWrite_since (h : Since o s) {d : Nat} {v : Word} : Since o (rmDevWrite d v s) := by
  unfold rmDevWrite
  repeat' first
    | with_reducible assumption | with_reducible apply State_putReg_since | with_reducible apply rmExpel_since
    | with_reducible apply stepsOf_since | with_reducible apply modRm_since | with_reducible apply rmMove_since
    | split | dsimp only [accState, id]

theorem execErrRmDevWrite_keeps (h : Since o s) {d : Fin 64} {v : Word} : Keeps o (execErrRmDevWrite d v s) := by
  unfold execErrRmDevWrite
  apply keeps_next
  exact rmDevWrite_since h

theorem execErrRecClear_keeps (h : Since o s) {i : Fin 128} {ev : Option (Nat × Nat)} :
    Keeps o (execErrRecClear i ev s) := by
  unfold execErrRecClear
  apply keeps_next
  exact errClear_since h

theorem execShadowStepTimeout_keeps (h : Since o s) {d : Fin 64} : Keeps o (execShadowStepTimeout d s) := by
  unfold execShadowStepTimeout
  apply keeps_next
  repeat' first | with_reducible assumption | with_reducible apply shadowScan_since | split

theorem execScoreWindow_keeps (h : Since o s) : Keeps o (execScoreWindow s) := by
  unfold execScoreWindow
  apply keeps_next
  exact scoreWindow_since h

/-! ### CtlRead -/

theorem wakeReg_since (h : Since o s) {off : Nat} : Since o (wakeReg off s) := by
  unfold wakeReg
  repeat' first
    | with_reducible assumption | with_reducible apply wakeTile_since | with_reducible apply wakeDom_since | split
    | dsimp only [accState, id]

theorem afterReg_since (h : Since o s) {ag : Agent} {r : RegName} {i j : Nat} : Since o (afterReg ag r i j s) := by
  unfold afterReg
  repeat' first
    | with_reducible assumption | with_reducible apply State_setReg_since
    | with_reducible apply State_setTsFifo_since | with_reducible apply State_used_since
    | with_reducible apply State_putReg_since | split

theorem controlRead_since (h : Since o s) {ag : Agent} {off : Nat} : Since o (controlRead ag off s).2 := by
  unfold controlRead
  repeat' first
    | with_reducible assumption | with_reducible apply wakeReg_since | with_reducible apply afterReg_since | split
    | dsimp only [accState, id]

/-! ### CtlWrite -/

theorem radioWrite_since {t} {ag : Agent} {r : RegName} {i j : Nat} {v : Word}
    (e : (radioWrite ag r i j v s) = some t) (h : Since o s) :
    Since o t := by
  unfold radioWrite at e
  try dsimp only at e
  repeat' (split at e)
  all_goals first
    | (simp only [reduceCtorEq] at e; done)
    | (injection e with e; subst e; repeat' first | with_reducible assumption | with_reducible apply tbCtlWrite_since | with_reducible apply tbSnap_since | with_reducible apply tbRateWrite_since | with_reducible apply tbAdjWrite_since | with_reducible apply tbSlewMaxWrite_since | with_reducible apply tbStepGo_since | with_reducible apply tbFsrcWrite_since | with_reducible apply tbPortPtpWrite_since | with_reducible apply bellWordWrite_since | with_reducible apply bellCtlWrite_since | with_reducible apply tevtSet_since | with_reducible apply tileResetWrite_since | with_reducible apply arrErrWrite_since | with_reducible apply fhPortCtlWrite_since | with_reducible apply txPostBy_since | with_reducible apply agcWrite_since | with_reducible apply RingRegs_cfgWrite_since | with_reducible apply RingRegs_baseWrite_since | with_reducible apply RingRegs_tailWrite_since | with_reducible apply RingRegs_headWrite_since | with_reducible apply since_foldl | with_reducible apply since_foldr | with_reducible apply since_elim | with_reducible apply since_foldl2 | with_reducible apply since_foldl3 | intro _ | split | (refine since_pair (by with_reducible assumption) ?_) | (refine since_triple (by with_reducible assumption) ?_) | (refine since_fst (by with_reducible assumption) ?_) | (refine since_ok (by with_reducible assumption) ?_) | (refine since_wait (by with_reducible assumption) ?_) | (refine since_err (by with_reducible assumption) ?_) | dsimp only [accState, id] | simp only [since_mk])

theorem whileClear_since (h : Since o s) {held : Bool} {f : State → State} (hf : ∀ s, Since o s → Since o (f s)) :
    Since o (whileClear held f s) := by
  unfold whileClear
  repeat' first | with_reducible assumption | with_reducible apply hf | split

theorem memoryWrite_since {t} {ag : Agent} {r : RegName} {i j : Nat} {v : Word}
    (e : (memoryWrite ag r i j v s) = some t) (h : Since o s) :
    Since o t := by
  unfold memoryWrite at e
  try dsimp only at e
  repeat' (split at e)
  all_goals first
    | (simp only [reduceCtorEq] at e; done)
    | (injection e with e; subst e; repeat' first | with_reducible assumption | with_reducible apply grnCmd_since | with_reducible apply quotaWrite_since | with_reducible apply pfCfgWrite_since | with_reducible apply whileClear_since | with_reducible apply State_writePlain_since | with_reducible apply pfCurWrite_since | with_reducible apply queryWrite_since | with_reducible apply RingRegs_cfgWrite_since | with_reducible apply RingRegs_baseWrite_since | with_reducible apply RingRegs_tailWrite_since | with_reducible apply RingRegs_headWrite_since | with_reducible apply pumpAll_since | with_reducible apply drvCtlWrite_since | with_reducible apply drvPost_since | with_reducible apply retPost_since | with_reducible apply sharedPost_since | with_reducible apply drvCancel_since | with_reducible apply drvCqCfgWrite_since | with_reducible apply drvCqHeadWrite_since | with_reducible apply drvAlarmClear_since | with_reducible apply since_foldl | with_reducible apply since_foldr | with_reducible apply since_elim | with_reducible apply since_foldl2 | with_reducible apply since_foldl3 | intro _ | split | (refine since_pair (by with_reducible assumption) ?_) | (refine since_triple (by with_reducible assumption) ?_) | (refine since_fst (by with_reducible assumption) ?_) | (refine since_ok (by with_reducible assumption) ?_) | (refine since_wait (by with_reducible assumption) ?_) | (refine since_err (by with_reducible assumption) ?_) | dsimp only [accState, id] | simp only [since_mk])

theorem stopWrite_since (h : Since o s) {p : Nat} {v : Word} : Since o (stopWrite p v s) := by
  unfold stopWrite
  repeat' first
    | with_reducible assumption | with_reducible apply partStop_since | with_reducible apply partResume_since
    | split

theorem sharedWrite_since {t} {ag : Agent} {r : RegName} {i _j : Nat} {v : Word}
    (e : (sharedWrite ag r i _j v s) = some t) (h : Since o s) :
    Since o t := by
  unfold sharedWrite at e
  try dsimp only at e
  repeat' (split at e)
  all_goals first
    | (simp only [reduceCtorEq] at e; done)
    | (injection e with e; subst e; repeat' first | with_reducible assumption | with_reducible apply whileClear_since | with_reducible apply State_writePlain_since | with_reducible apply pathUpdWrite_since | with_reducible apply smpCfgWrite_since | with_reducible apply fabPortCtlWrite_since | with_reducible apply cpCtlWrite_since | with_reducible apply phaseStart_since | with_reducible apply abortHere_since | with_reducible apply partCtlWrite_since | with_reducible apply partTileWrite_since | with_reducible apply stopWrite_since | with_reducible apply fnCtlWrite_since | with_reducible apply dmaGo_since | with_reducible apply cxCtlWrite_since | with_reducible apply cxTailWrite_since | with_reducible apply cxHeadWrite_since | with_reducible apply since_foldl | with_reducible apply since_foldr | with_reducible apply since_elim | with_reducible apply since_foldl2 | with_reducible apply since_foldl3 | intro _ | split | (refine since_pair (by with_reducible assumption) ?_) | (refine since_triple (by with_reducible assumption) ?_) | (refine since_fst (by with_reducible assumption) ?_) | (refine since_ok (by with_reducible assumption) ?_) | (refine since_wait (by with_reducible assumption) ?_) | (refine since_err (by with_reducible assumption) ?_) | dsimp only [accState, id] | simp only [since_mk])

theorem devRstWrite_since (h : Since o s) {v : Word} : Since o (devRstWrite v s) := by
  unfold devRstWrite
  repeat' first
    | with_reducible assumption | with_reducible apply deviceReset_since | with_reducible apply stewardRestart_since
    | split

theorem cfgCtlWrite_since (h : Since o s) {v : Word} : Since o (cfgCtlWrite v s) := by
  unfold cfgCtlWrite
  repeat' first
    | with_reducible assumption | with_reducible apply stageVersion_since | with_reducible apply rollbackAsked_since
    | with_reducible apply discardVersion_since | split

theorem recWrite_since (h : Since o s) {i j : Nat} {v : Word} : Since o (recWrite i j v s) := by
  unfold recWrite
  repeat' first | with_reducible assumption | with_reducible apply errClear_since | split

theorem deviceWrite_since {t} {ag : Agent} {r : RegName} {i j : Nat} {v : Word}
    (e : (deviceWrite ag r i j v s) = some t) (h : Since o s) :
    Since o t := by
  unfold deviceWrite at e
  try dsimp only at e
  repeat' (split at e)
  all_goals first
    | (simp only [reduceCtorEq] at e; done)
    | (injection e with e; subst e; repeat' first | with_reducible assumption | with_reducible apply hlCtlWrite_since | with_reducible apply retrain_since | with_reducible apply mbxCfgWrite_since | with_reducible apply mbxSend_since | with_reducible apply mbxAck_since | with_reducible apply mbxDbSet_since | with_reducible apply mbxDbClear_since | with_reducible apply mbxDbMask_since | with_reducible apply stgWrite_since | with_reducible apply devRstWrite_since | with_reducible apply cfgCtlWrite_since | with_reducible apply domReqWrite_since | with_reducible apply domainResets_since | with_reducible apply fwCtl_since | with_reducible apply watchdogReload_since | with_reducible apply measExtend_since | with_reducible apply measInWrite_since | with_reducible apply recWrite_since | with_reducible apply rmDevWrite_since | with_reducible apply since_foldl | with_reducible apply since_foldr | with_reducible apply since_elim | with_reducible apply since_foldl2 | with_reducible apply since_foldl3 | intro _ | split | (refine since_pair (by with_reducible assumption) ?_) | (refine since_triple (by with_reducible assumption) ?_) | (refine since_fst (by with_reducible assumption) ?_) | (refine since_ok (by with_reducible assumption) ?_) | (refine since_wait (by with_reducible assumption) ?_) | (refine since_err (by with_reducible assumption) ?_) | dsimp only [accState, id] | simp only [since_mk])

theorem putRegister_since (h : Since o s) {ag : Agent} {r : RegName} {i j : Nat} {v : Word} :
    Since o (putRegister ag r i j v s) := by
  unfold putRegister
  repeat' first
    | with_reducible assumption | (refine radioWrite_since (by with_reducible assumption) ?_)
    | (refine memoryWrite_since (by with_reducible assumption) ?_)
    | (refine sharedWrite_since (by with_reducible assumption) ?_)
    | (refine deviceWrite_since (by with_reducible assumption) ?_) | with_reducible apply State_writeReg_since
    | split

theorem controlWrite_since (h : Since o s) {ag : Agent} {off : Nat} {v : Word} :
    Since o (controlWrite ag off v s).2 := by
  unfold controlWrite
  repeat' first
    | with_reducible assumption | with_reducible apply wakeReg_since | with_reducible apply putRegister_since
    | split | dsimp only [accState, id]

theorem registerWrite_since (h : Since o s) {ag : Agent} {off : Nat} {v : Word} :
    Since o (registerWrite ag off v s) := by
  unfold registerWrite
  repeat' first
    | with_reducible assumption | with_reducible apply State_emit_since | with_reducible apply errRecord_since
    | with_reducible apply controlWrite_since | with_reducible apply refusePermission_since | split
    | (refine since_pair (by with_reducible assumption) ?_)

theorem execRegisterWrite_keeps (h : Since o s) {ag : Agent} {off : BitVec 40} {v : Word} :
    Keeps o (execRegisterWrite ag off v s) := by
  unfold execRegisterWrite
  apply keeps_next
  exact registerWrite_since h

/-! ### HostReq -/

theorem hostErr_since (h : Since o s) {f : Nat} {e : MemErr} {a : Nat} : Since o (hostErr f e a s).2 := by
  unfold hostErr
  repeat' first | with_reducible assumption | with_reducible apply memErrRecord_since

theorem hostCheck_since (h : Since o s) {f : Nat} {src : BitVec 16} : Since o (hostCheck f src s).2 := by
  unfold hostCheck
  repeat' first
    | with_reducible assumption | with_reducible apply errRecord_since | with_reducible apply State_flag_since
    | with_reducible apply State_count_since | split

theorem hostReads_since (h : Since o s) {f : Fin 32} {a len : Nat} : Since o (hostReads f a len s).2 := by
  unfold hostReads
  repeat' first
    | with_reducible assumption | with_reducible apply hostErr_since | with_reducible apply controlRead_since
    | with_reducible apply devRead_since | split | (refine since_pair (by with_reducible assumption) ?_)

theorem writeFails_since (h : Since o s) {f a : Nat} {e : HostFail} : Since o (writeFails f a e s) := by
  unfold writeFails
  repeat' first
    | with_reducible assumption | with_reducible apply State_flag_since | with_reducible apply errRecord_since
    | split

theorem hostWrites_since (h : Since o s) {f : Fin 32} {a : Nat} {data : List Byte} :
    Since o (hostWrites f a data s).2 := by
  unfold hostWrites
  repeat' first
    | with_reducible assumption | with_reducible apply hostErr_since | with_reducible apply controlWrite_since
    | with_reducible apply devWrite_since | split | (refine since_pair (by with_reducible assumption) ?_)

theorem hostCharge_since (h : Since o s) {f len : Nat} : Since o (hostCharge f len s) := by
  unfold hostCharge
  repeat' first | with_reducible assumption | with_reducible apply sluiceCharge_since | split

theorem hostWriteReq_since (h : Since o s) {f : Fin 32} {src : BitVec 16} {a : Nat} {data : List Byte} :
    Since o (hostWriteReq f src a data s) := by
  unfold hostWriteReq
  repeat' first
    | with_reducible assumption | with_reducible apply hostCheck_since | with_reducible apply writeFails_since
    | with_reducible apply hostWrites_since | with_reducible apply hostCharge_since | split
    | (refine since_pair (by with_reducible assumption) ?_)

theorem execHostWrite_keeps (h : Since o s) {f : Fin 32} {src : BitVec 16} {addr : Addr} {data : List Byte} :
    Keeps o (execHostWrite f src addr data s) := by
  unfold execHostWrite
  apply keeps_next
  exact hostWriteReq_since h

theorem hostReadReq_since (h : Since o s) {f : Fin 32} {src : BitVec 16} {a len : Nat} :
    Since o (hostReadReq f src a len s) := by
  unfold hostReadReq
  repeat' first
    | with_reducible assumption | with_reducible apply hostCheck_since | with_reducible apply State_emit_since
    | with_reducible apply hostReads_since | with_reducible apply hostCharge_since | split
    | (refine since_pair (by with_reducible assumption) ?_)

theorem execHostRead_keeps (h : Since o s) {f : Fin 32} {src : BitVec 16} {addr : Addr} {len : BitVec 10} :
    Keeps o (execHostRead f src addr len s) := by
  unfold execHostRead
  apply keeps_next
  exact hostReadReq_since h

/-! ### LoadStore -/

theorem dropLine_since (h : Since o s) {t a : Nat} : Since o (dropLine t a s) := by
  unfold dropLine
  exact State_modTile_since h

theorem localFault_since (h : Since o s) {t st a : Nat} : Since o (localFault t st a s) := by
  unfold localFault
  repeat' first
    | with_reducible assumption | with_reducible apply takeException_since | with_reducible apply remoteRecord_since

theorem atomicWindow_since (h : Since o s) {t : Fin 128} {d : Fin 64} {op a : Nat} {b cmp : Word} :
    Since o (atomicWindow t d op a b cmp s) := by
  unfold atomicWindow
  repeat' first
    | with_reducible assumption | with_reducible apply dataRefuse_since | with_reducible apply targetAtomic_since
    | with_reducible apply State_modCore_since | with_reducible apply localFault_since
    | with_reducible apply remAtomic_since | split | (refine since_triple (by with_reducible assumption) ?_)
    | dsimp only [accState, id]

theorem holdAtomic_since (h : Since o s) {t : Nat} {d : Fin 64} {op a : Nat} {b cmp : Word} :
    Since o (holdAtomic t d op a b cmp s) := by
  unfold holdAtomic
  repeat' first
    | with_reducible assumption | with_reducible apply dataFault_since | with_reducible apply memErrRecord_since
    | with_reducible apply countUncorr_since | with_reducible apply holdItem_since
    | with_reducible apply tierCharge_since | with_reducible apply dirtyLog_since
    | with_reducible apply State_modCore_since | (refine gate_wait (by with_reducible assumption) ?_)
    | (refine gate_err (by with_reducible assumption) ?_) | (refine gate_ok (by with_reducible assumption) ?_)
    | split | dsimp only [accState, id]

theorem atomicMem_since (h : Since o s) {t : Nat} {d : Fin 64} {op a : Nat} {b cmp : Word} :
    Since o (atomicMem t d op a b cmp s) := by
  unfold atomicMem
  repeat' first
    | with_reducible assumption | with_reducible apply holdAtomic_since | with_reducible apply dropLine_since
    | with_reducible apply readMem_since | with_reducible apply dataFault_since
    | with_reducible apply usedIfBusy_since | with_reducible apply State_modCore_since
    | with_reducible apply storeBytes_since | with_reducible apply dirtyLog_since | split
    | (refine since_ok (by with_reducible assumption) ?_) | (refine since_wait (by with_reducible assumption) ?_)
    | (refine since_err (by with_reducible assumption) ?_) | dsimp only [accState, id]

theorem atomic_since (h : Since o s) {t : Fin 128} {d a b : Fin 64} {op : Nat} : Since o (atomic t d a b op s) := by
  unfold atomic
  repeat' first
    | with_reducible assumption | with_reducible apply runInstr_since | with_reducible apply takeException_since
    | with_reducible apply dataRefuse_since | with_reducible apply atomicWindow_since
    | with_reducible apply atomicMem_since | intro _ | split | dsimp only [accState, id]

theorem execAmocas_keeps (h : Since o s) {t : Fin 128} {d a b : Fin 64} : Keeps o (execAmocas t d a b s) := by
  unfold execAmocas
  apply keeps_next
  exact atomic_since h

theorem execAmoor_keeps (h : Since o s) {t : Fin 128} {d a b : Fin 64} : Keeps o (execAmoor t d a b s) := by
  unfold execAmoor
  apply keeps_next
  exact atomic_since h

theorem execAmoswap_keeps (h : Since o s) {t : Fin 128} {d a b : Fin 64} : Keeps o (execAmoswap t d a b s) := by
  unfold execAmoswap
  apply keeps_next
  exact atomic_since h

theorem updateLine_since (h : Since o s) {t a : Nat} {data : List Byte} : Since o (updateLine t a data s) := by
  unfold updateLine
  exact State_modTile_since h

theorem storeMem_since (h : Since o s) {t a : Nat} {data : List Byte} : Since o (storeMem t a data s) := by
  unfold storeMem
  repeat' first
    | with_reducible assumption | with_reducible apply writeMem_since | with_reducible apply dataFault_since
    | with_reducible apply goNext_since | with_reducible apply updateLine_since
    | with_reducible apply usedIfBusy_since | split | (refine since_ok (by with_reducible assumption) ?_)
    | (refine since_wait (by with_reducible assumption) ?_) | (refine since_err (by with_reducible assumption) ?_)
    | dsimp only [accState, id]

theorem store_since (h : Since o s) {t : Fin 128} {d a : Fin 64} {imm : BitVec 14} {n : Nat} :
    Since o (store t d a imm n s) := by
  unfold store
  repeat' first
    | with_reducible assumption | with_reducible apply runInstr_since | with_reducible apply takeException_since
    | with_reducible apply dataRefuse_since | with_reducible apply controlWrite_since
    | with_reducible apply goNext_since | with_reducible apply windowStore_since
    | with_reducible apply storeMem_since | intro _ | split | (refine since_pair (by with_reducible assumption) ?_)
    | dsimp only [accState, id]

theorem execSt16_keeps (h : Since o s) {t : Fin 128} {d a : Fin 64} {imm : BitVec 14} :
    Keeps o (execSt16 t d a imm s) := by
  unfold execSt16
  apply keeps_next
  exact store_since h

theorem loadEnds_since (h : Since o s) {t d n : Nat} {sx : Bool} {data : List Byte} :
    Since o (loadEnds t d n sx data s) := by
  unfold loadEnds
  exact State_modCore_since h

theorem loadWindow_since (h : Since o s) {t : Nat} {d : Fin 64} {n : Nat} {sx : Bool} {a : Nat} :
    Since o (loadWindow t d n sx a s) := by
  unfold loadWindow
  repeat' first
    | with_reducible assumption | with_reducible apply dataRefuse_since | with_reducible apply targetRead_since
    | with_reducible apply loadEnds_since | with_reducible apply localFault_since
    | with_reducible apply remRead_since | with_reducible apply State_modCore_since | split
    | (refine since_pair (by with_reducible assumption) ?_) | dsimp only [accState, id]

theorem fillLine_since (h : Since o s) {t a : Nat} : Since o (fillLine t a s) := by
  unfold fillLine
  repeat' first
    | with_reducible assumption | with_reducible apply readCorrects_since | with_reducible apply State_used_since
    | with_reducible apply State_modTile_since | split | dsimp only [accState, id]

theorem loadMem_since (h : Since o s) {t d n : Nat} {sx : Bool} {a : Nat} : Since o (loadMem t d n sx a s) := by
  unfold loadMem
  repeat' first
    | with_reducible assumption | with_reducible apply loadEnds_since | with_reducible apply readMem_since
    | with_reducible apply dataFault_since | with_reducible apply fillLine_since
    | with_reducible apply usedIfBusy_since | split | (refine since_ok (by with_reducible assumption) ?_)
    | (refine since_wait (by with_reducible assumption) ?_) | (refine since_err (by with_reducible assumption) ?_)
    | dsimp only [accState, id]

theorem load_since (h : Since o s) {t : Fin 128} {d a : Fin 64} {imm : BitVec 14} {n : Nat} {sx : Bool} :
    Since o (load t d a imm n sx s) := by
  unfold load
  repeat' first
    | with_reducible assumption | with_reducible apply runInstr_since | with_reducible apply takeException_since
    | with_reducible apply dataRefuse_since | with_reducible apply controlRead_since
    | with_reducible apply State_modCore_since | with_reducible apply loadWindow_since
    | with_reducible apply loadMem_since | intro _ | split | (refine since_pair (by with_reducible assumption) ?_)
    | dsimp only [accState, id]

theorem execLd64_keeps (h : Since o s) {t : Fin 128} {d a : Fin 64} {imm : BitVec 14} :
    Keeps o (execLd64 t d a imm s) := by
  unfold execLd64
  apply keeps_next
  exact load_since h

theorem execLd32u_keeps (h : Since o s) {t : Fin 128} {d a : Fin 64} {imm : BitVec 14} :
    Keeps o (execLd32u t d a imm s) := by
  unfold execLd32u
  apply keeps_next
  exact load_since h

theorem execAmomin_keeps (h : Since o s) {t : Fin 128} {d a b : Fin 64} : Keeps o (execAmomin t d a b s) := by
  unfold execAmomin
  apply keeps_next
  exact atomic_since h

theorem execAmoand_keeps (h : Since o s) {t : Fin 128} {d a b : Fin 64} : Keeps o (execAmoand t d a b s) := by
  unfold execAmoand
  apply keeps_next
  exact atomic_since h

theorem execLd8s_keeps (h : Since o s) {t : Fin 128} {d a : Fin 64} {imm : BitVec 14} :
    Keeps o (execLd8s t d a imm s) := by
  unfold execLd8s
  apply keeps_next
  exact load_since h

theorem execLd16u_keeps (h : Since o s) {t : Fin 128} {d a : Fin 64} {imm : BitVec 14} :
    Keeps o (execLd16u t d a imm s) := by
  unfold execLd16u
  apply keeps_next
  exact load_since h

theorem execLd16s_keeps (h : Since o s) {t : Fin 128} {d a : Fin 64} {imm : BitVec 14} :
    Keeps o (execLd16s t d a imm s) := by
  unfold execLd16s
  apply keeps_next
  exact load_since h

theorem execLd32s_keeps (h : Since o s) {t : Fin 128} {d a : Fin 64} {imm : BitVec 14} :
    Keeps o (execLd32s t d a imm s) := by
  unfold execLd32s
  apply keeps_next
  exact load_since h

theorem execAmomax_keeps (h : Since o s) {t : Fin 128} {d a b : Fin 64} : Keeps o (execAmomax t d a b s) := by
  unfold execAmomax
  apply keeps_next
  exact atomic_since h

theorem execLd8u_keeps (h : Since o s) {t : Fin 128} {d a : Fin 64} {imm : BitVec 14} :
    Keeps o (execLd8u t d a imm s) := by
  unfold execLd8u
  apply keeps_next
  exact load_since h

theorem execSt32_keeps (h : Since o s) {t : Fin 128} {d a : Fin 64} {imm : BitVec 14} :
    Keeps o (execSt32 t d a imm s) := by
  unfold execSt32
  apply keeps_next
  exact store_since h

theorem execAmoxor_keeps (h : Since o s) {t : Fin 128} {d a b : Fin 64} : Keeps o (execAmoxor t d a b s) := by
  unfold execAmoxor
  apply keeps_next
  exact atomic_since h

theorem execSt8_keeps (h : Since o s) {t : Fin 128} {d a : Fin 64} {imm : BitVec 14} :
    Keeps o (execSt8 t d a imm s) := by
  unfold execSt8
  apply keeps_next
  exact store_since h

theorem execAmoadd_keeps (h : Since o s) {t : Fin 128} {d a b : Fin 64} : Keeps o (execAmoadd t d a b s) := by
  unfold execAmoadd
  apply keeps_next
  exact atomic_since h

theorem execSt64_keeps (h : Since o s) {t : Fin 128} {d a : Fin 64} {imm : BitVec 14} :
    Keeps o (execSt64 t d a imm s) := by
  unfold execSt64
  apply keeps_next
  exact store_since h

end Sys2Proof.Laws
end

