-- ==== Sys2Proof/Laws/State.lean ====
section
/-! SUPPORT. What each update of the state leaves as it was: one lemma for each field, true by rfl, and for what is read
of the registers, the tiles, memory and the page map. What a write reads back as stands at the end. -/

namespace Sys2Proof.Laws

open Sys2Proof
open Sys2Proof.Machine

/-! ### setReg -/

@[simp] theorem setReg_pending (s : State) (q : RegName) (v : Word) (x y : Nat) :
    (s.setReg q v x y).pending = s.pending := rfl
@[simp] theorem setReg_mem (s : State) (q : RegName) (v : Word) (x y : Nat) : (s.setReg q v x y).mem = s.mem := rfl
@[simp] theorem setReg_freeMem (s : State) (q : RegName) (v : Word) (x y : Nat) :
    (s.setReg q v x y).freeMem = s.freeMem := rfl
@[simp] theorem setReg_ecc (s : State) (q : RegName) (v : Word) (x y : Nat) : (s.setReg q v x y).ecc = s.ecc := rfl
@[simp] theorem setReg_tb (s : State) (q : RegName) (v : Word) (x y : Nat) : (s.setReg q v x y).tb = s.tb := rfl
@[simp] theorem setReg_bellArm (s : State) (q : RegName) (v : Word) (x y : Nat) :
    (s.setReg q v x y).bellArm = s.bellArm := rfl
@[simp] theorem setReg_bellStep (s : State) (q : RegName) (v : Word) (x y : Nat) :
    (s.setReg q v x y).bellStep = s.bellStep := rfl
@[simp] theorem setReg_deliveries (s : State) (q : RegName) (v : Word) (x y : Nat) :
    (s.setReg q v x y).deliveries = s.deliveries := rfl
@[simp] theorem setReg_tiles (s : State) (q : RegName) (v : Word) (x y : Nat) :
    (s.setReg q v x y).tiles = s.tiles := rfl
@[simp] theorem setReg_grn (s : State) (q : RegName) (v : Word) (x y : Nat) : (s.setReg q v x y).grn = s.grn := rfl
@[simp] theorem setReg_sched (s : State) (q : RegName) (v : Word) (x y : Nat) :
    (s.setReg q v x y).sched = s.sched := rfl
@[simp] theorem setReg_hl (s : State) (q : RegName) (v : Word) (x y : Nat) : (s.setReg q v x y).hl = s.hl := rfl
@[simp] theorem setReg_reeve (s : State) (q : RegName) (v : Word) (x y : Nat) :
    (s.setReg q v x y).reeve = s.reeve := rfl
@[simp] theorem setReg_pwr (s : State) (q : RegName) (v : Word) (x y : Nat) : (s.setReg q v x y).pwr = s.pwr := rfl
@[simp] theorem setReg_ver (s : State) (q : RegName) (v : Word) (x y : Nat) : (s.setReg q v x y).ver = s.ver := rfl
@[simp] theorem setReg_fh (s : State) (q : RegName) (v : Word) (x y : Nat) : (s.setReg q v x y).fh = s.fh := rfl
@[simp] theorem setReg_cod (s : State) (q : RegName) (v : Word) (x y : Nat) : (s.setReg q v x y).cod = s.cod := rfl
@[simp] theorem setReg_se (s : State) (q : RegName) (v : Word) (x y : Nat) : (s.setReg q v x y).se = s.se := rfl
@[simp] theorem setReg_drv (s : State) (q : RegName) (v : Word) (x y : Nat) : (s.setReg q v x y).drv = s.drv := rfl
@[simp] theorem setReg_fab (s : State) (q : RegName) (v : Word) (x y : Nat) : (s.setReg q v x y).fab = s.fab := rfl
@[simp] theorem setReg_coll (s : State) (q : RegName) (v : Word) (x y : Nat) : (s.setReg q v x y).coll = s.coll := rfl
@[simp] theorem setReg_sec (s : State) (q : RegName) (v : Word) (x y : Nat) : (s.setReg q v x y).sec = s.sec := rfl
@[simp] theorem setReg_free (s : State) (q : RegName) (v : Word) (x y : Nat) : (s.setReg q v x y).free = s.free := rfl
@[simp] theorem setReg_wire (s : State) (q : RegName) (v : Word) (x y : Nat) : (s.setReg q v x y).wire = s.wire := rfl
@[simp] theorem setReg_tile (s : State) (q : RegName) (v : Word) (x y : Nat) (n : Nat) :
    (s.setReg q v x y).tile n = s.tile n := rfl
@[simp] theorem setReg_core (s : State) (q : RegName) (v : Word) (x y : Nat) (n : Nat) :
    (s.setReg q v x y).core n = s.core n := rfl
@[simp] theorem setReg_byte (s : State) (q : RegName) (v : Word) (x y : Nat) (n : Nat) :
    (s.setReg q v x y).byte n = s.byte n := rfl
@[simp] theorem setReg_page (s : State) (q : RegName) (v : Word) (x y : Nat) (n : Nat) :
    (s.setReg q v x y).page n = s.page n := rfl
@[simp] theorem setReg_now (s : State) (q : RegName) (v : Word) (x y : Nat) : (s.setReg q v x y).now = s.now := rfl

/-! ### emit -/

@[simp] theorem emit_pending (s : State) (w : Out) : (s.emit w).pending = s.pending := rfl
@[simp] theorem emit_regs (s : State) (w : Out) : (s.emit w).regs = s.regs := rfl
@[simp] theorem emit_mem (s : State) (w : Out) : (s.emit w).mem = s.mem := rfl
@[simp] theorem emit_freeMem (s : State) (w : Out) : (s.emit w).freeMem = s.freeMem := rfl
@[simp] theorem emit_ecc (s : State) (w : Out) : (s.emit w).ecc = s.ecc := rfl
@[simp] theorem emit_tb (s : State) (w : Out) : (s.emit w).tb = s.tb := rfl
@[simp] theorem emit_bellArm (s : State) (w : Out) : (s.emit w).bellArm = s.bellArm := rfl
@[simp] theorem emit_bellStep (s : State) (w : Out) : (s.emit w).bellStep = s.bellStep := rfl
@[simp] theorem emit_deliveries (s : State) (w : Out) : (s.emit w).deliveries = s.deliveries := rfl
@[simp] theorem emit_tiles (s : State) (w : Out) : (s.emit w).tiles = s.tiles := rfl
@[simp] theorem emit_grn (s : State) (w : Out) : (s.emit w).grn = s.grn := rfl
@[simp] theorem emit_sched (s : State) (w : Out) : (s.emit w).sched = s.sched := rfl
@[simp] theorem emit_hl (s : State) (w : Out) : (s.emit w).hl = s.hl := rfl
@[simp] theorem emit_reeve (s : State) (w : Out) : (s.emit w).reeve = s.reeve := rfl
@[simp] theorem emit_pwr (s : State) (w : Out) : (s.emit w).pwr = s.pwr := rfl
@[simp] theorem emit_ver (s : State) (w : Out) : (s.emit w).ver = s.ver := rfl
@[simp] theorem emit_fh (s : State) (w : Out) : (s.emit w).fh = s.fh := rfl
@[simp] theorem emit_cod (s : State) (w : Out) : (s.emit w).cod = s.cod := rfl
@[simp] theorem emit_se (s : State) (w : Out) : (s.emit w).se = s.se := rfl
@[simp] theorem emit_drv (s : State) (w : Out) : (s.emit w).drv = s.drv := rfl
@[simp] theorem emit_fab (s : State) (w : Out) : (s.emit w).fab = s.fab := rfl
@[simp] theorem emit_coll (s : State) (w : Out) : (s.emit w).coll = s.coll := rfl
@[simp] theorem emit_sec (s : State) (w : Out) : (s.emit w).sec = s.sec := rfl
@[simp] theorem emit_free (s : State) (w : Out) : (s.emit w).free = s.free := rfl
@[simp] theorem emit_reg (s : State) (w : Out) (r : RegName) (i j : Nat) : (s.emit w).reg r i j = s.reg r i j := rfl
@[simp] theorem emit_rb (s : State) (w : Out) (r : RegName) (b i j : Nat) :
    (s.emit w).rb r b i j = s.rb r b i j := rfl
@[simp] theorem emit_tile (s : State) (w : Out) (n : Nat) : (s.emit w).tile n = s.tile n := rfl
@[simp] theorem emit_core (s : State) (w : Out) (n : Nat) : (s.emit w).core n = s.core n := rfl
@[simp] theorem emit_byte (s : State) (w : Out) (n : Nat) : (s.emit w).byte n = s.byte n := rfl
@[simp] theorem emit_page (s : State) (w : Out) (n : Nat) : (s.emit w).page n = s.page n := rfl
@[simp] theorem emit_now (s : State) (w : Out) : (s.emit w).now = s.now := rfl
@[simp] theorem emit_enabledMap (s : State) (w : Out) : (s.emit w).enabledMap = s.enabledMap := rfl

/-! ### used -/

@[simp] theorem used_pending (s : State) : s.used.pending = s.pending := rfl
@[simp] theorem used_regs (s : State) : s.used.regs = s.regs := rfl
@[simp] theorem used_mem (s : State) : s.used.mem = s.mem := rfl
@[simp] theorem used_freeMem (s : State) : s.used.freeMem = s.freeMem := rfl
@[simp] theorem used_ecc (s : State) : s.used.ecc = s.ecc := rfl
@[simp] theorem used_tb (s : State) : s.used.tb = s.tb := rfl
@[simp] theorem used_bellArm (s : State) : s.used.bellArm = s.bellArm := rfl
@[simp] theorem used_bellStep (s : State) : s.used.bellStep = s.bellStep := rfl
@[simp] theorem used_deliveries (s : State) : s.used.deliveries = s.deliveries := rfl
@[simp] theorem used_tiles (s : State) : s.used.tiles = s.tiles := rfl
@[simp] theorem used_grn (s : State) : s.used.grn = s.grn := rfl
@[simp] theorem used_sched (s : State) : s.used.sched = s.sched := rfl
@[simp] theorem used_hl (s : State) : s.used.hl = s.hl := rfl
@[simp] theorem used_reeve (s : State) : s.used.reeve = s.reeve := rfl
@[simp] theorem used_pwr (s : State) : s.used.pwr = s.pwr := rfl
@[simp] theorem used_ver (s : State) : s.used.ver = s.ver := rfl
@[simp] theorem used_fh (s : State) : s.used.fh = s.fh := rfl
@[simp] theorem used_cod (s : State) : s.used.cod = s.cod := rfl
@[simp] theorem used_se (s : State) : s.used.se = s.se := rfl
@[simp] theorem used_drv (s : State) : s.used.drv = s.drv := rfl
@[simp] theorem used_fab (s : State) : s.used.fab = s.fab := rfl
@[simp] theorem used_coll (s : State) : s.used.coll = s.coll := rfl
@[simp] theorem used_sec (s : State) : s.used.sec = s.sec := rfl
@[simp] theorem used_wire (s : State) : s.used.wire = s.wire := rfl
@[simp] theorem used_reg (s : State) (r : RegName) (i j : Nat) : s.used.reg r i j = s.reg r i j := rfl
@[simp] theorem used_rb (s : State) (r : RegName) (b i j : Nat) : s.used.rb r b i j = s.rb r b i j := rfl
@[simp] theorem used_tile (s : State) (n : Nat) : s.used.tile n = s.tile n := rfl
@[simp] theorem used_core (s : State) (n : Nat) : s.used.core n = s.core n := rfl
@[simp] theorem used_byte (s : State) (n : Nat) : s.used.byte n = s.byte n := rfl
@[simp] theorem used_page (s : State) (n : Nat) : s.used.page n = s.page n := rfl
@[simp] theorem used_now (s : State)  : s.used.now = s.now := rfl
@[simp] theorem used_enabledMap (s : State)  : s.used.enabledMap = s.enabledMap := rfl

/-! ### setTile -/

@[simp] theorem setTile_pending (s : State) (t : Nat) (u : Tile) : (s.setTile t u).pending = s.pending := rfl
@[simp] theorem setTile_regs (s : State) (t : Nat) (u : Tile) : (s.setTile t u).regs = s.regs := rfl
@[simp] theorem setTile_mem (s : State) (t : Nat) (u : Tile) : (s.setTile t u).mem = s.mem := rfl
@[simp] theorem setTile_freeMem (s : State) (t : Nat) (u : Tile) : (s.setTile t u).freeMem = s.freeMem := rfl
@[simp] theorem setTile_ecc (s : State) (t : Nat) (u : Tile) : (s.setTile t u).ecc = s.ecc := rfl
@[simp] theorem setTile_tb (s : State) (t : Nat) (u : Tile) : (s.setTile t u).tb = s.tb := rfl
@[simp] theorem setTile_bellArm (s : State) (t : Nat) (u : Tile) : (s.setTile t u).bellArm = s.bellArm := rfl
@[simp] theorem setTile_bellStep (s : State) (t : Nat) (u : Tile) : (s.setTile t u).bellStep = s.bellStep := rfl
@[simp] theorem setTile_deliveries (s : State) (t : Nat) (u : Tile) : (s.setTile t u).deliveries = s.deliveries := rfl
@[simp] theorem setTile_grn (s : State) (t : Nat) (u : Tile) : (s.setTile t u).grn = s.grn := rfl
@[simp] theorem setTile_sched (s : State) (t : Nat) (u : Tile) : (s.setTile t u).sched = s.sched := rfl
@[simp] theorem setTile_hl (s : State) (t : Nat) (u : Tile) : (s.setTile t u).hl = s.hl := rfl
@[simp] theorem setTile_reeve (s : State) (t : Nat) (u : Tile) : (s.setTile t u).reeve = s.reeve := rfl
@[simp] theorem setTile_pwr (s : State) (t : Nat) (u : Tile) : (s.setTile t u).pwr = s.pwr := rfl
@[simp] theorem setTile_ver (s : State) (t : Nat) (u : Tile) : (s.setTile t u).ver = s.ver := rfl
@[simp] theorem setTile_fh (s : State) (t : Nat) (u : Tile) : (s.setTile t u).fh = s.fh := rfl
@[simp] theorem setTile_cod (s : State) (t : Nat) (u : Tile) : (s.setTile t u).cod = s.cod := rfl
@[simp] theorem setTile_se (s : State) (t : Nat) (u : Tile) : (s.setTile t u).se = s.se := rfl
@[simp] theorem setTile_drv (s : State) (t : Nat) (u : Tile) : (s.setTile t u).drv = s.drv := rfl
@[simp] theorem setTile_fab (s : State) (t : Nat) (u : Tile) : (s.setTile t u).fab = s.fab := rfl
@[simp] theorem setTile_coll (s : State) (t : Nat) (u : Tile) : (s.setTile t u).coll = s.coll := rfl
@[simp] theorem setTile_sec (s : State) (t : Nat) (u : Tile) : (s.setTile t u).sec = s.sec := rfl
@[simp] theorem setTile_free (s : State) (t : Nat) (u : Tile) : (s.setTile t u).free = s.free := rfl
@[simp] theorem setTile_wire (s : State) (t : Nat) (u : Tile) : (s.setTile t u).wire = s.wire := rfl
@[simp] theorem setTile_reg (s : State) (t : Nat) (u : Tile) (r : RegName) (i j : Nat) :
    (s.setTile t u).reg r i j = s.reg r i j := rfl
@[simp] theorem setTile_rb (s : State) (t : Nat) (u : Tile) (r : RegName) (b i j : Nat) :
    (s.setTile t u).rb r b i j = s.rb r b i j := rfl
@[simp] theorem setTile_byte (s : State) (t : Nat) (u : Tile) (n : Nat) : (s.setTile t u).byte n = s.byte n := rfl
@[simp] theorem setTile_page (s : State) (t : Nat) (u : Tile) (n : Nat) : (s.setTile t u).page n = s.page n := rfl
@[simp] theorem setTile_now (s : State) (t : Nat) (u : Tile) : (s.setTile t u).now = s.now := rfl
@[simp] theorem setTile_enabledMap (s : State) (t : Nat) (u : Tile) : (s.setTile t u).enabledMap = s.enabledMap := rfl

/-! ### modCore -/

@[simp] theorem modCore_pending (s : State) (t : Nat) (f : CoreRegs → CoreRegs) :
    (s.modCore t f).pending = s.pending := rfl
@[simp] theorem modCore_regs (s : State) (t : Nat) (f : CoreRegs → CoreRegs) : (s.modCore t f).regs = s.regs := rfl
@[simp] theorem modCore_mem (s : State) (t : Nat) (f : CoreRegs → CoreRegs) : (s.modCore t f).mem = s.mem := rfl
@[simp] theorem modCore_freeMem (s : State) (t : Nat) (f : CoreRegs → CoreRegs) :
    (s.modCore t f).freeMem = s.freeMem := rfl
@[simp] theorem modCore_ecc (s : State) (t : Nat) (f : CoreRegs → CoreRegs) : (s.modCore t f).ecc = s.ecc := rfl
@[simp] theorem modCore_tb (s : State) (t : Nat) (f : CoreRegs → CoreRegs) : (s.modCore t f).tb = s.tb := rfl
@[simp] theorem modCore_bellArm (s : State) (t : Nat) (f : CoreRegs → CoreRegs) :
    (s.modCore t f).bellArm = s.bellArm := rfl
@[simp] theorem modCore_bellStep (s : State) (t : Nat) (f : CoreRegs → CoreRegs) :
    (s.modCore t f).bellStep = s.bellStep := rfl
@[simp] theorem modCore_deliveries (s : State) (t : Nat) (f : CoreRegs → CoreRegs) :
    (s.modCore t f).deliveries = s.deliveries := rfl
@[simp] theorem modCore_grn (s : State) (t : Nat) (f : CoreRegs → CoreRegs) : (s.modCore t f).grn = s.grn := rfl
@[simp] theorem modCore_sched (s : State) (t : Nat) (f : CoreRegs → CoreRegs) : (s.modCore t f).sched = s.sched := rfl
@[simp] theorem modCore_hl (s : State) (t : Nat) (f : CoreRegs → CoreRegs) : (s.modCore t f).hl = s.hl := rfl
@[simp] theorem modCore_reeve (s : State) (t : Nat) (f : CoreRegs → CoreRegs) : (s.modCore t f).reeve = s.reeve := rfl
@[simp] theorem modCore_pwr (s : State) (t : Nat) (f : CoreRegs → CoreRegs) : (s.modCore t f).pwr = s.pwr := rfl
@[simp] theorem modCore_ver (s : State) (t : Nat) (f : CoreRegs → CoreRegs) : (s.modCore t f).ver = s.ver := rfl
@[simp] theorem modCore_fh (s : State) (t : Nat) (f : CoreRegs → CoreRegs) : (s.modCore t f).fh = s.fh := rfl
@[simp] theorem modCore_cod (s : State) (t : Nat) (f : CoreRegs → CoreRegs) : (s.modCore t f).cod = s.cod := rfl
@[simp] theorem modCore_se (s : State) (t : Nat) (f : CoreRegs → CoreRegs) : (s.modCore t f).se = s.se := rfl
@[simp] theorem modCore_drv (s : State) (t : Nat) (f : CoreRegs → CoreRegs) : (s.modCore t f).drv = s.drv := rfl
@[simp] theorem modCore_fab (s : State) (t : Nat) (f : CoreRegs → CoreRegs) : (s.modCore t f).fab = s.fab := rfl
@[simp] theorem modCore_coll (s : State) (t : Nat) (f : CoreRegs → CoreRegs) : (s.modCore t f).coll = s.coll := rfl
@[simp] theorem modCore_sec (s : State) (t : Nat) (f : CoreRegs → CoreRegs) : (s.modCore t f).sec = s.sec := rfl
@[simp] theorem modCore_free (s : State) (t : Nat) (f : CoreRegs → CoreRegs) : (s.modCore t f).free = s.free := rfl
@[simp] theorem modCore_wire (s : State) (t : Nat) (f : CoreRegs → CoreRegs) : (s.modCore t f).wire = s.wire := rfl
@[simp] theorem modCore_reg (s : State) (t : Nat) (f : CoreRegs → CoreRegs) (r : RegName) (i j : Nat) :
    (s.modCore t f).reg r i j = s.reg r i j := rfl
@[simp] theorem modCore_rb (s : State) (t : Nat) (f : CoreRegs → CoreRegs) (r : RegName) (b i j : Nat) :
    (s.modCore t f).rb r b i j = s.rb r b i j := rfl
@[simp] theorem modCore_byte (s : State) (t : Nat) (f : CoreRegs → CoreRegs) (n : Nat) :
    (s.modCore t f).byte n = s.byte n := rfl
@[simp] theorem modCore_page (s : State) (t : Nat) (f : CoreRegs → CoreRegs) (n : Nat) :
    (s.modCore t f).page n = s.page n := rfl
@[simp] theorem modCore_now (s : State) (t : Nat) (f : CoreRegs → CoreRegs) : (s.modCore t f).now = s.now := rfl
@[simp] theorem modCore_enabledMap (s : State) (t : Nat) (f : CoreRegs → CoreRegs) :
    (s.modCore t f).enabledMap = s.enabledMap := rfl

/-! ### setByte -/

@[simp] theorem setByte_pending (s : State) (a : Nat) (v : Byte) : (s.setByte a v).pending = s.pending := rfl
@[simp] theorem setByte_regs (s : State) (a : Nat) (v : Byte) : (s.setByte a v).regs = s.regs := rfl
@[simp] theorem setByte_freeMem (s : State) (a : Nat) (v : Byte) : (s.setByte a v).freeMem = s.freeMem := rfl
@[simp] theorem setByte_ecc (s : State) (a : Nat) (v : Byte) : (s.setByte a v).ecc = s.ecc := rfl
@[simp] theorem setByte_tb (s : State) (a : Nat) (v : Byte) : (s.setByte a v).tb = s.tb := rfl
@[simp] theorem setByte_bellArm (s : State) (a : Nat) (v : Byte) : (s.setByte a v).bellArm = s.bellArm := rfl
@[simp] theorem setByte_bellStep (s : State) (a : Nat) (v : Byte) : (s.setByte a v).bellStep = s.bellStep := rfl
@[simp] theorem setByte_deliveries (s : State) (a : Nat) (v : Byte) : (s.setByte a v).deliveries = s.deliveries := rfl
@[simp] theorem setByte_tiles (s : State) (a : Nat) (v : Byte) : (s.setByte a v).tiles = s.tiles := rfl
@[simp] theorem setByte_grn (s : State) (a : Nat) (v : Byte) : (s.setByte a v).grn = s.grn := rfl
@[simp] theorem setByte_sched (s : State) (a : Nat) (v : Byte) : (s.setByte a v).sched = s.sched := rfl
@[simp] theorem setByte_hl (s : State) (a : Nat) (v : Byte) : (s.setByte a v).hl = s.hl := rfl
@[simp] theorem setByte_reeve (s : State) (a : Nat) (v : Byte) : (s.setByte a v).reeve = s.reeve := rfl
@[simp] theorem setByte_pwr (s : State) (a : Nat) (v : Byte) : (s.setByte a v).pwr = s.pwr := rfl
@[simp] theorem setByte_ver (s : State) (a : Nat) (v : Byte) : (s.setByte a v).ver = s.ver := rfl
@[simp] theorem setByte_fh (s : State) (a : Nat) (v : Byte) : (s.setByte a v).fh = s.fh := rfl
@[simp] theorem setByte_cod (s : State) (a : Nat) (v : Byte) : (s.setByte a v).cod = s.cod := rfl
@[simp] theorem setByte_se (s : State) (a : Nat) (v : Byte) : (s.setByte a v).se = s.se := rfl
@[simp] theorem setByte_drv (s : State) (a : Nat) (v : Byte) : (s.setByte a v).drv = s.drv := rfl
@[simp] theorem setByte_fab (s : State) (a : Nat) (v : Byte) : (s.setByte a v).fab = s.fab := rfl
@[simp] theorem setByte_coll (s : State) (a : Nat) (v : Byte) : (s.setByte a v).coll = s.coll := rfl
@[simp] theorem setByte_sec (s : State) (a : Nat) (v : Byte) : (s.setByte a v).sec = s.sec := rfl
@[simp] theorem setByte_free (s : State) (a : Nat) (v : Byte) : (s.setByte a v).free = s.free := rfl
@[simp] theorem setByte_wire (s : State) (a : Nat) (v : Byte) : (s.setByte a v).wire = s.wire := rfl
@[simp] theorem setByte_reg (s : State) (a : Nat) (v : Byte) (r : RegName) (i j : Nat) :
    (s.setByte a v).reg r i j = s.reg r i j := rfl
@[simp] theorem setByte_rb (s : State) (a : Nat) (v : Byte) (r : RegName) (b i j : Nat) :
    (s.setByte a v).rb r b i j = s.rb r b i j := rfl
@[simp] theorem setByte_tile (s : State) (a : Nat) (v : Byte) (n : Nat) : (s.setByte a v).tile n = s.tile n := rfl
@[simp] theorem setByte_core (s : State) (a : Nat) (v : Byte) (n : Nat) : (s.setByte a v).core n = s.core n := rfl
@[simp] theorem setByte_page (s : State) (a : Nat) (v : Byte) (n : Nat) : (s.setByte a v).page n = s.page n := rfl
@[simp] theorem setByte_now (s : State) (a : Nat) (v : Byte) : (s.setByte a v).now = s.now := rfl
@[simp] theorem setByte_enabledMap (s : State) (a : Nat) (v : Byte) : (s.setByte a v).enabledMap = s.enabledMap := rfl

/-! ### eccClean -/

@[simp] theorem eccClean_pending (s : State) (a : Nat) : (s.eccClean a).pending = s.pending := rfl
@[simp] theorem eccClean_regs (s : State) (a : Nat) : (s.eccClean a).regs = s.regs := rfl
@[simp] theorem eccClean_mem (s : State) (a : Nat) : (s.eccClean a).mem = s.mem := rfl
@[simp] theorem eccClean_freeMem (s : State) (a : Nat) : (s.eccClean a).freeMem = s.freeMem := rfl
@[simp] theorem eccClean_tb (s : State) (a : Nat) : (s.eccClean a).tb = s.tb := rfl
@[simp] theorem eccClean_bellArm (s : State) (a : Nat) : (s.eccClean a).bellArm = s.bellArm := rfl
@[simp] theorem eccClean_bellStep (s : State) (a : Nat) : (s.eccClean a).bellStep = s.bellStep := rfl
@[simp] theorem eccClean_deliveries (s : State) (a : Nat) : (s.eccClean a).deliveries = s.deliveries := rfl
@[simp] theorem eccClean_tiles (s : State) (a : Nat) : (s.eccClean a).tiles = s.tiles := rfl
@[simp] theorem eccClean_grn (s : State) (a : Nat) : (s.eccClean a).grn = s.grn := rfl
@[simp] theorem eccClean_sched (s : State) (a : Nat) : (s.eccClean a).sched = s.sched := rfl
@[simp] theorem eccClean_hl (s : State) (a : Nat) : (s.eccClean a).hl = s.hl := rfl
@[simp] theorem eccClean_reeve (s : State) (a : Nat) : (s.eccClean a).reeve = s.reeve := rfl
@[simp] theorem eccClean_pwr (s : State) (a : Nat) : (s.eccClean a).pwr = s.pwr := rfl
@[simp] theorem eccClean_ver (s : State) (a : Nat) : (s.eccClean a).ver = s.ver := rfl
@[simp] theorem eccClean_fh (s : State) (a : Nat) : (s.eccClean a).fh = s.fh := rfl
@[simp] theorem eccClean_cod (s : State) (a : Nat) : (s.eccClean a).cod = s.cod := rfl
@[simp] theorem eccClean_se (s : State) (a : Nat) : (s.eccClean a).se = s.se := rfl
@[simp] theorem eccClean_drv (s : State) (a : Nat) : (s.eccClean a).drv = s.drv := rfl
@[simp] theorem eccClean_fab (s : State) (a : Nat) : (s.eccClean a).fab = s.fab := rfl
@[simp] theorem eccClean_coll (s : State) (a : Nat) : (s.eccClean a).coll = s.coll := rfl
@[simp] theorem eccClean_sec (s : State) (a : Nat) : (s.eccClean a).sec = s.sec := rfl
@[simp] theorem eccClean_free (s : State) (a : Nat) : (s.eccClean a).free = s.free := rfl
@[simp] theorem eccClean_wire (s : State) (a : Nat) : (s.eccClean a).wire = s.wire := rfl
@[simp] theorem eccClean_reg (s : State) (a : Nat) (r : RegName) (i j : Nat) :
    (s.eccClean a).reg r i j = s.reg r i j := rfl
@[simp] theorem eccClean_rb (s : State) (a : Nat) (r : RegName) (b i j : Nat) :
    (s.eccClean a).rb r b i j = s.rb r b i j := rfl
@[simp] theorem eccClean_tile (s : State) (a : Nat) (n : Nat) : (s.eccClean a).tile n = s.tile n := rfl
@[simp] theorem eccClean_core (s : State) (a : Nat) (n : Nat) : (s.eccClean a).core n = s.core n := rfl
@[simp] theorem eccClean_byte (s : State) (a : Nat) (n : Nat) : (s.eccClean a).byte n = s.byte n := rfl
@[simp] theorem eccClean_page (s : State) (a : Nat) (n : Nat) : (s.eccClean a).page n = s.page n := rfl
@[simp] theorem eccClean_now (s : State) (a : Nat) : (s.eccClean a).now = s.now := rfl
@[simp] theorem eccClean_enabledMap (s : State) (a : Nat) : (s.eccClean a).enabledMap = s.enabledMap := rfl

/-! ### setPage -/

@[simp] theorem setPage_pending (s : State) (a : Nat) (p : Page) : (s.setPage a p).pending = s.pending := rfl
@[simp] theorem setPage_regs (s : State) (a : Nat) (p : Page) : (s.setPage a p).regs = s.regs := rfl
@[simp] theorem setPage_mem (s : State) (a : Nat) (p : Page) : (s.setPage a p).mem = s.mem := rfl
@[simp] theorem setPage_freeMem (s : State) (a : Nat) (p : Page) : (s.setPage a p).freeMem = s.freeMem := rfl
@[simp] theorem setPage_ecc (s : State) (a : Nat) (p : Page) : (s.setPage a p).ecc = s.ecc := rfl
@[simp] theorem setPage_tb (s : State) (a : Nat) (p : Page) : (s.setPage a p).tb = s.tb := rfl
@[simp] theorem setPage_bellArm (s : State) (a : Nat) (p : Page) : (s.setPage a p).bellArm = s.bellArm := rfl
@[simp] theorem setPage_bellStep (s : State) (a : Nat) (p : Page) : (s.setPage a p).bellStep = s.bellStep := rfl
@[simp] theorem setPage_deliveries (s : State) (a : Nat) (p : Page) : (s.setPage a p).deliveries = s.deliveries := rfl
@[simp] theorem setPage_tiles (s : State) (a : Nat) (p : Page) : (s.setPage a p).tiles = s.tiles := rfl
@[simp] theorem setPage_sched (s : State) (a : Nat) (p : Page) : (s.setPage a p).sched = s.sched := rfl
@[simp] theorem setPage_hl (s : State) (a : Nat) (p : Page) : (s.setPage a p).hl = s.hl := rfl
@[simp] theorem setPage_reeve (s : State) (a : Nat) (p : Page) : (s.setPage a p).reeve = s.reeve := rfl
@[simp] theorem setPage_pwr (s : State) (a : Nat) (p : Page) : (s.setPage a p).pwr = s.pwr := rfl
@[simp] theorem setPage_ver (s : State) (a : Nat) (p : Page) : (s.setPage a p).ver = s.ver := rfl
@[simp] theorem setPage_fh (s : State) (a : Nat) (p : Page) : (s.setPage a p).fh = s.fh := rfl
@[simp] theorem setPage_cod (s : State) (a : Nat) (p : Page) : (s.setPage a p).cod = s.cod := rfl
@[simp] theorem setPage_se (s : State) (a : Nat) (p : Page) : (s.setPage a p).se = s.se := rfl
@[simp] theorem setPage_drv (s : State) (a : Nat) (p : Page) : (s.setPage a p).drv = s.drv := rfl
@[simp] theorem setPage_fab (s : State) (a : Nat) (p : Page) : (s.setPage a p).fab = s.fab := rfl
@[simp] theorem setPage_coll (s : State) (a : Nat) (p : Page) : (s.setPage a p).coll = s.coll := rfl
@[simp] theorem setPage_sec (s : State) (a : Nat) (p : Page) : (s.setPage a p).sec = s.sec := rfl
@[simp] theorem setPage_free (s : State) (a : Nat) (p : Page) : (s.setPage a p).free = s.free := rfl
@[simp] theorem setPage_wire (s : State) (a : Nat) (p : Page) : (s.setPage a p).wire = s.wire := rfl
@[simp] theorem setPage_reg (s : State) (a : Nat) (p : Page) (r : RegName) (i j : Nat) :
    (s.setPage a p).reg r i j = s.reg r i j := rfl
@[simp] theorem setPage_rb (s : State) (a : Nat) (p : Page) (r : RegName) (b i j : Nat) :
    (s.setPage a p).rb r b i j = s.rb r b i j := rfl
@[simp] theorem setPage_tile (s : State) (a : Nat) (p : Page) (n : Nat) : (s.setPage a p).tile n = s.tile n := rfl
@[simp] theorem setPage_core (s : State) (a : Nat) (p : Page) (n : Nat) : (s.setPage a p).core n = s.core n := rfl
@[simp] theorem setPage_byte (s : State) (a : Nat) (p : Page) (n : Nat) : (s.setPage a p).byte n = s.byte n := rfl
@[simp] theorem setPage_now (s : State) (a : Nat) (p : Page) : (s.setPage a p).now = s.now := rfl
@[simp] theorem setPage_enabledMap (s : State) (a : Nat) (p : Page) : (s.setPage a p).enabledMap = s.enabledMap := rfl

/-! ### modSched -/

@[simp] theorem modSched_pending (s : State) (f : Sched → Sched) : (modSched f s).pending = s.pending := rfl
@[simp] theorem modSched_regs (s : State) (f : Sched → Sched) : (modSched f s).regs = s.regs := rfl
@[simp] theorem modSched_mem (s : State) (f : Sched → Sched) : (modSched f s).mem = s.mem := rfl
@[simp] theorem modSched_freeMem (s : State) (f : Sched → Sched) : (modSched f s).freeMem = s.freeMem := rfl
@[simp] theorem modSched_ecc (s : State) (f : Sched → Sched) : (modSched f s).ecc = s.ecc := rfl
@[simp] theorem modSched_tb (s : State) (f : Sched → Sched) : (modSched f s).tb = s.tb := rfl
@[simp] theorem modSched_bellArm (s : State) (f : Sched → Sched) : (modSched f s).bellArm = s.bellArm := rfl
@[simp] theorem modSched_bellStep (s : State) (f : Sched → Sched) : (modSched f s).bellStep = s.bellStep := rfl
@[simp] theorem modSched_deliveries (s : State) (f : Sched → Sched) : (modSched f s).deliveries = s.deliveries := rfl
@[simp] theorem modSched_tiles (s : State) (f : Sched → Sched) : (modSched f s).tiles = s.tiles := rfl
@[simp] theorem modSched_grn (s : State) (f : Sched → Sched) : (modSched f s).grn = s.grn := rfl
@[simp] theorem modSched_hl (s : State) (f : Sched → Sched) : (modSched f s).hl = s.hl := rfl
@[simp] theorem modSched_reeve (s : State) (f : Sched → Sched) : (modSched f s).reeve = s.reeve := rfl
@[simp] theorem modSched_pwr (s : State) (f : Sched → Sched) : (modSched f s).pwr = s.pwr := rfl
@[simp] theorem modSched_ver (s : State) (f : Sched → Sched) : (modSched f s).ver = s.ver := rfl
@[simp] theorem modSched_fh (s : State) (f : Sched → Sched) : (modSched f s).fh = s.fh := rfl
@[simp] theorem modSched_cod (s : State) (f : Sched → Sched) : (modSched f s).cod = s.cod := rfl
@[simp] theorem modSched_se (s : State) (f : Sched → Sched) : (modSched f s).se = s.se := rfl
@[simp] theorem modSched_drv (s : State) (f : Sched → Sched) : (modSched f s).drv = s.drv := rfl
@[simp] theorem modSched_fab (s : State) (f : Sched → Sched) : (modSched f s).fab = s.fab := rfl
@[simp] theorem modSched_coll (s : State) (f : Sched → Sched) : (modSched f s).coll = s.coll := rfl
@[simp] theorem modSched_sec (s : State) (f : Sched → Sched) : (modSched f s).sec = s.sec := rfl
@[simp] theorem modSched_free (s : State) (f : Sched → Sched) : (modSched f s).free = s.free := rfl
@[simp] theorem modSched_wire (s : State) (f : Sched → Sched) : (modSched f s).wire = s.wire := rfl
@[simp] theorem modSched_reg (s : State) (f : Sched → Sched) (r : RegName) (i j : Nat) :
    (modSched f s).reg r i j = s.reg r i j := rfl
@[simp] theorem modSched_rb (s : State) (f : Sched → Sched) (r : RegName) (b i j : Nat) :
    (modSched f s).rb r b i j = s.rb r b i j := rfl
@[simp] theorem modSched_tile (s : State) (f : Sched → Sched) (n : Nat) : (modSched f s).tile n = s.tile n := rfl
@[simp] theorem modSched_core (s : State) (f : Sched → Sched) (n : Nat) : (modSched f s).core n = s.core n := rfl
@[simp] theorem modSched_byte (s : State) (f : Sched → Sched) (n : Nat) : (modSched f s).byte n = s.byte n := rfl
@[simp] theorem modSched_page (s : State) (f : Sched → Sched) (n : Nat) : (modSched f s).page n = s.page n := rfl
@[simp] theorem modSched_now (s : State) (f : Sched → Sched) : (modSched f s).now = s.now := rfl
@[simp] theorem modSched_enabledMap (s : State) (f : Sched → Sched) : (modSched f s).enabledMap = s.enabledMap := rfl

/-! ### modHl -/

@[simp] theorem modHl_pending (s : State) (f : HostLink → HostLink) : (modHl f s).pending = s.pending := rfl
@[simp] theorem modHl_regs (s : State) (f : HostLink → HostLink) : (modHl f s).regs = s.regs := rfl
@[simp] theorem modHl_mem (s : State) (f : HostLink → HostLink) : (modHl f s).mem = s.mem := rfl
@[simp] theorem modHl_freeMem (s : State) (f : HostLink → HostLink) : (modHl f s).freeMem = s.freeMem := rfl
@[simp] theorem modHl_ecc (s : State) (f : HostLink → HostLink) : (modHl f s).ecc = s.ecc := rfl
@[simp] theorem modHl_tb (s : State) (f : HostLink → HostLink) : (modHl f s).tb = s.tb := rfl
@[simp] theorem modHl_bellArm (s : State) (f : HostLink → HostLink) : (modHl f s).bellArm = s.bellArm := rfl
@[simp] theorem modHl_bellStep (s : State) (f : HostLink → HostLink) : (modHl f s).bellStep = s.bellStep := rfl
@[simp] theorem modHl_deliveries (s : State) (f : HostLink → HostLink) : (modHl f s).deliveries = s.deliveries := rfl
@[simp] theorem modHl_tiles (s : State) (f : HostLink → HostLink) : (modHl f s).tiles = s.tiles := rfl
@[simp] theorem modHl_grn (s : State) (f : HostLink → HostLink) : (modHl f s).grn = s.grn := rfl
@[simp] theorem modHl_sched (s : State) (f : HostLink → HostLink) : (modHl f s).sched = s.sched := rfl
@[simp] theorem modHl_reeve (s : State) (f : HostLink → HostLink) : (modHl f s).reeve = s.reeve := rfl
@[simp] theorem modHl_pwr (s : State) (f : HostLink → HostLink) : (modHl f s).pwr = s.pwr := rfl
@[simp] theorem modHl_ver (s : State) (f : HostLink → HostLink) : (modHl f s).ver = s.ver := rfl
@[simp] theorem modHl_fh (s : State) (f : HostLink → HostLink) : (modHl f s).fh = s.fh := rfl
@[simp] theorem modHl_cod (s : State) (f : HostLink → HostLink) : (modHl f s).cod = s.cod := rfl
@[simp] theorem modHl_se (s : State) (f : HostLink → HostLink) : (modHl f s).se = s.se := rfl
@[simp] theorem modHl_drv (s : State) (f : HostLink → HostLink) : (modHl f s).drv = s.drv := rfl
@[simp] theorem modHl_fab (s : State) (f : HostLink → HostLink) : (modHl f s).fab = s.fab := rfl
@[simp] theorem modHl_coll (s : State) (f : HostLink → HostLink) : (modHl f s).coll = s.coll := rfl
@[simp] theorem modHl_sec (s : State) (f : HostLink → HostLink) : (modHl f s).sec = s.sec := rfl
@[simp] theorem modHl_free (s : State) (f : HostLink → HostLink) : (modHl f s).free = s.free := rfl
@[simp] theorem modHl_wire (s : State) (f : HostLink → HostLink) : (modHl f s).wire = s.wire := rfl
@[simp] theorem modHl_reg (s : State) (f : HostLink → HostLink) (r : RegName) (i j : Nat) :
    (modHl f s).reg r i j = s.reg r i j := rfl
@[simp] theorem modHl_rb (s : State) (f : HostLink → HostLink) (r : RegName) (b i j : Nat) :
    (modHl f s).rb r b i j = s.rb r b i j := rfl
@[simp] theorem modHl_tile (s : State) (f : HostLink → HostLink) (n : Nat) : (modHl f s).tile n = s.tile n := rfl
@[simp] theorem modHl_core (s : State) (f : HostLink → HostLink) (n : Nat) : (modHl f s).core n = s.core n := rfl
@[simp] theorem modHl_byte (s : State) (f : HostLink → HostLink) (n : Nat) : (modHl f s).byte n = s.byte n := rfl
@[simp] theorem modHl_page (s : State) (f : HostLink → HostLink) (n : Nat) : (modHl f s).page n = s.page n := rfl
@[simp] theorem modHl_now (s : State) (f : HostLink → HostLink) : (modHl f s).now = s.now := rfl
@[simp] theorem modHl_enabledMap (s : State) (f : HostLink → HostLink) : (modHl f s).enabledMap = s.enabledMap := rfl

/-! ### modPwr -/

@[simp] theorem modPwr_pending (s : State) (f : Power → Power) : (modPwr f s).pending = s.pending := rfl
@[simp] theorem modPwr_regs (s : State) (f : Power → Power) : (modPwr f s).regs = s.regs := rfl
@[simp] theorem modPwr_mem (s : State) (f : Power → Power) : (modPwr f s).mem = s.mem := rfl
@[simp] theorem modPwr_freeMem (s : State) (f : Power → Power) : (modPwr f s).freeMem = s.freeMem := rfl
@[simp] theorem modPwr_ecc (s : State) (f : Power → Power) : (modPwr f s).ecc = s.ecc := rfl
@[simp] theorem modPwr_tb (s : State) (f : Power → Power) : (modPwr f s).tb = s.tb := rfl
@[simp] theorem modPwr_bellArm (s : State) (f : Power → Power) : (modPwr f s).bellArm = s.bellArm := rfl
@[simp] theorem modPwr_bellStep (s : State) (f : Power → Power) : (modPwr f s).bellStep = s.bellStep := rfl
@[simp] theorem modPwr_deliveries (s : State) (f : Power → Power) : (modPwr f s).deliveries = s.deliveries := rfl
@[simp] theorem modPwr_tiles (s : State) (f : Power → Power) : (modPwr f s).tiles = s.tiles := rfl
@[simp] theorem modPwr_grn (s : State) (f : Power → Power) : (modPwr f s).grn = s.grn := rfl
@[simp] theorem modPwr_sched (s : State) (f : Power → Power) : (modPwr f s).sched = s.sched := rfl
@[simp] theorem modPwr_hl (s : State) (f : Power → Power) : (modPwr f s).hl = s.hl := rfl
@[simp] theorem modPwr_reeve (s : State) (f : Power → Power) : (modPwr f s).reeve = s.reeve := rfl
@[simp] theorem modPwr_ver (s : State) (f : Power → Power) : (modPwr f s).ver = s.ver := rfl
@[simp] theorem modPwr_fh (s : State) (f : Power → Power) : (modPwr f s).fh = s.fh := rfl
@[simp] theorem modPwr_cod (s : State) (f : Power → Power) : (modPwr f s).cod = s.cod := rfl
@[simp] theorem modPwr_se (s : State) (f : Power → Power) : (modPwr f s).se = s.se := rfl
@[simp] theorem modPwr_drv (s : State) (f : Power → Power) : (modPwr f s).drv = s.drv := rfl
@[simp] theorem modPwr_fab (s : State) (f : Power → Power) : (modPwr f s).fab = s.fab := rfl
@[simp] theorem modPwr_coll (s : State) (f : Power → Power) : (modPwr f s).coll = s.coll := rfl
@[simp] theorem modPwr_sec (s : State) (f : Power → Power) : (modPwr f s).sec = s.sec := rfl
@[simp] theorem modPwr_free (s : State) (f : Power → Power) : (modPwr f s).free = s.free := rfl
@[simp] theorem modPwr_wire (s : State) (f : Power → Power) : (modPwr f s).wire = s.wire := rfl
@[simp] theorem modPwr_reg (s : State) (f : Power → Power) (r : RegName) (i j : Nat) :
    (modPwr f s).reg r i j = s.reg r i j := rfl
@[simp] theorem modPwr_rb (s : State) (f : Power → Power) (r : RegName) (b i j : Nat) :
    (modPwr f s).rb r b i j = s.rb r b i j := rfl
@[simp] theorem modPwr_tile (s : State) (f : Power → Power) (n : Nat) : (modPwr f s).tile n = s.tile n := rfl
@[simp] theorem modPwr_core (s : State) (f : Power → Power) (n : Nat) : (modPwr f s).core n = s.core n := rfl
@[simp] theorem modPwr_byte (s : State) (f : Power → Power) (n : Nat) : (modPwr f s).byte n = s.byte n := rfl
@[simp] theorem modPwr_page (s : State) (f : Power → Power) (n : Nat) : (modPwr f s).page n = s.page n := rfl
@[simp] theorem modPwr_now (s : State) (f : Power → Power) : (modPwr f s).now = s.now := rfl
@[simp] theorem modPwr_enabledMap (s : State) (f : Power → Power) : (modPwr f s).enabledMap = s.enabledMap := rfl

/-! ### modVer -/

@[simp] theorem modVer_pending (s : State) (f : Versions → Versions) : (modVer f s).pending = s.pending := rfl
@[simp] theorem modVer_regs (s : State) (f : Versions → Versions) : (modVer f s).regs = s.regs := rfl
@[simp] theorem modVer_mem (s : State) (f : Versions → Versions) : (modVer f s).mem = s.mem := rfl
@[simp] theorem modVer_freeMem (s : State) (f : Versions → Versions) : (modVer f s).freeMem = s.freeMem := rfl
@[simp] theorem modVer_ecc (s : State) (f : Versions → Versions) : (modVer f s).ecc = s.ecc := rfl
@[simp] theorem modVer_tb (s : State) (f : Versions → Versions) : (modVer f s).tb = s.tb := rfl
@[simp] theorem modVer_bellArm (s : State) (f : Versions → Versions) : (modVer f s).bellArm = s.bellArm := rfl
@[simp] theorem modVer_bellStep (s : State) (f : Versions → Versions) : (modVer f s).bellStep = s.bellStep := rfl
@[simp] theorem modVer_deliveries (s : State) (f : Versions → Versions) :
    (modVer f s).deliveries = s.deliveries := rfl
@[simp] theorem modVer_tiles (s : State) (f : Versions → Versions) : (modVer f s).tiles = s.tiles := rfl
@[simp] theorem modVer_grn (s : State) (f : Versions → Versions) : (modVer f s).grn = s.grn := rfl
@[simp] theorem modVer_sched (s : State) (f : Versions → Versions) : (modVer f s).sched = s.sched := rfl
@[simp] theorem modVer_hl (s : State) (f : Versions → Versions) : (modVer f s).hl = s.hl := rfl
@[simp] theorem modVer_reeve (s : State) (f : Versions → Versions) : (modVer f s).reeve = s.reeve := rfl
@[simp] theorem modVer_pwr (s : State) (f : Versions → Versions) : (modVer f s).pwr = s.pwr := rfl
@[simp] theorem modVer_fh (s : State) (f : Versions → Versions) : (modVer f s).fh = s.fh := rfl
@[simp] theorem modVer_cod (s : State) (f : Versions → Versions) : (modVer f s).cod = s.cod := rfl
@[simp] theorem modVer_se (s : State) (f : Versions → Versions) : (modVer f s).se = s.se := rfl
@[simp] theorem modVer_drv (s : State) (f : Versions → Versions) : (modVer f s).drv = s.drv := rfl
@[simp] theorem modVer_fab (s : State) (f : Versions → Versions) : (modVer f s).fab = s.fab := rfl
@[simp] theorem modVer_coll (s : State) (f : Versions → Versions) : (modVer f s).coll = s.coll := rfl
@[simp] theorem modVer_sec (s : State) (f : Versions → Versions) : (modVer f s).sec = s.sec := rfl
@[simp] theorem modVer_free (s : State) (f : Versions → Versions) : (modVer f s).free = s.free := rfl
@[simp] theorem modVer_wire (s : State) (f : Versions → Versions) : (modVer f s).wire = s.wire := rfl
@[simp] theorem modVer_reg (s : State) (f : Versions → Versions) (r : RegName) (i j : Nat) :
    (modVer f s).reg r i j = s.reg r i j := rfl
@[simp] theorem modVer_rb (s : State) (f : Versions → Versions) (r : RegName) (b i j : Nat) :
    (modVer f s).rb r b i j = s.rb r b i j := rfl
@[simp] theorem modVer_tile (s : State) (f : Versions → Versions) (n : Nat) : (modVer f s).tile n = s.tile n := rfl
@[simp] theorem modVer_core (s : State) (f : Versions → Versions) (n : Nat) : (modVer f s).core n = s.core n := rfl
@[simp] theorem modVer_byte (s : State) (f : Versions → Versions) (n : Nat) : (modVer f s).byte n = s.byte n := rfl
@[simp] theorem modVer_page (s : State) (f : Versions → Versions) (n : Nat) : (modVer f s).page n = s.page n := rfl
@[simp] theorem modVer_now (s : State) (f : Versions → Versions) : (modVer f s).now = s.now := rfl
@[simp] theorem modVer_enabledMap (s : State) (f : Versions → Versions) :
    (modVer f s).enabledMap = s.enabledMap := rfl

/-! ### modSec -/

@[simp] theorem modSec_pending (s : State) (f : Sec → Sec) : (modSec f s).pending = s.pending := rfl
@[simp] theorem modSec_regs (s : State) (f : Sec → Sec) : (modSec f s).regs = s.regs := rfl
@[simp] theorem modSec_mem (s : State) (f : Sec → Sec) : (modSec f s).mem = s.mem := rfl
@[simp] theorem modSec_freeMem (s : State) (f : Sec → Sec) : (modSec f s).freeMem = s.freeMem := rfl
@[simp] theorem modSec_ecc (s : State) (f : Sec → Sec) : (modSec f s).ecc = s.ecc := rfl
@[simp] theorem modSec_tb (s : State) (f : Sec → Sec) : (modSec f s).tb = s.tb := rfl
@[simp] theorem modSec_bellArm (s : State) (f : Sec → Sec) : (modSec f s).bellArm = s.bellArm := rfl
@[simp] theorem modSec_bellStep (s : State) (f : Sec → Sec) : (modSec f s).bellStep = s.bellStep := rfl
@[simp] theorem modSec_deliveries (s : State) (f : Sec → Sec) : (modSec f s).deliveries = s.deliveries := rfl
@[simp] theorem modSec_tiles (s : State) (f : Sec → Sec) : (modSec f s).tiles = s.tiles := rfl
@[simp] theorem modSec_grn (s : State) (f : Sec → Sec) : (modSec f s).grn = s.grn := rfl
@[simp] theorem modSec_sched (s : State) (f : Sec → Sec) : (modSec f s).sched = s.sched := rfl
@[simp] theorem modSec_hl (s : State) (f : Sec → Sec) : (modSec f s).hl = s.hl := rfl
@[simp] theorem modSec_reeve (s : State) (f : Sec → Sec) : (modSec f s).reeve = s.reeve := rfl
@[simp] theorem modSec_pwr (s : State) (f : Sec → Sec) : (modSec f s).pwr = s.pwr := rfl
@[simp] theorem modSec_ver (s : State) (f : Sec → Sec) : (modSec f s).ver = s.ver := rfl
@[simp] theorem modSec_fh (s : State) (f : Sec → Sec) : (modSec f s).fh = s.fh := rfl
@[simp] theorem modSec_cod (s : State) (f : Sec → Sec) : (modSec f s).cod = s.cod := rfl
@[simp] theorem modSec_se (s : State) (f : Sec → Sec) : (modSec f s).se = s.se := rfl
@[simp] theorem modSec_drv (s : State) (f : Sec → Sec) : (modSec f s).drv = s.drv := rfl
@[simp] theorem modSec_fab (s : State) (f : Sec → Sec) : (modSec f s).fab = s.fab := rfl
@[simp] theorem modSec_coll (s : State) (f : Sec → Sec) : (modSec f s).coll = s.coll := rfl
@[simp] theorem modSec_free (s : State) (f : Sec → Sec) : (modSec f s).free = s.free := rfl
@[simp] theorem modSec_wire (s : State) (f : Sec → Sec) : (modSec f s).wire = s.wire := rfl
@[simp] theorem modSec_reg (s : State) (f : Sec → Sec) (r : RegName) (i j : Nat) :
    (modSec f s).reg r i j = s.reg r i j := rfl
@[simp] theorem modSec_rb (s : State) (f : Sec → Sec) (r : RegName) (b i j : Nat) :
    (modSec f s).rb r b i j = s.rb r b i j := rfl
@[simp] theorem modSec_tile (s : State) (f : Sec → Sec) (n : Nat) : (modSec f s).tile n = s.tile n := rfl
@[simp] theorem modSec_core (s : State) (f : Sec → Sec) (n : Nat) : (modSec f s).core n = s.core n := rfl
@[simp] theorem modSec_byte (s : State) (f : Sec → Sec) (n : Nat) : (modSec f s).byte n = s.byte n := rfl
@[simp] theorem modSec_page (s : State) (f : Sec → Sec) (n : Nat) : (modSec f s).page n = s.page n := rfl
@[simp] theorem modSec_now (s : State) (f : Sec → Sec) : (modSec f s).now = s.now := rfl
@[simp] theorem modSec_enabledMap (s : State) (f : Sec → Sec) : (modSec f s).enabledMap = s.enabledMap := rfl

/-! ### modReeve -/

@[simp] theorem modReeve_pending (s : State) (f : Reeve → Reeve) : (modReeve f s).pending = s.pending := rfl
@[simp] theorem modReeve_regs (s : State) (f : Reeve → Reeve) : (modReeve f s).regs = s.regs := rfl
@[simp] theorem modReeve_mem (s : State) (f : Reeve → Reeve) : (modReeve f s).mem = s.mem := rfl
@[simp] theorem modReeve_freeMem (s : State) (f : Reeve → Reeve) : (modReeve f s).freeMem = s.freeMem := rfl
@[simp] theorem modReeve_ecc (s : State) (f : Reeve → Reeve) : (modReeve f s).ecc = s.ecc := rfl
@[simp] theorem modReeve_tb (s : State) (f : Reeve → Reeve) : (modReeve f s).tb = s.tb := rfl
@[simp] theorem modReeve_bellArm (s : State) (f : Reeve → Reeve) : (modReeve f s).bellArm = s.bellArm := rfl
@[simp] theorem modReeve_bellStep (s : State) (f : Reeve → Reeve) : (modReeve f s).bellStep = s.bellStep := rfl
@[simp] theorem modReeve_deliveries (s : State) (f : Reeve → Reeve) : (modReeve f s).deliveries = s.deliveries := rfl
@[simp] theorem modReeve_tiles (s : State) (f : Reeve → Reeve) : (modReeve f s).tiles = s.tiles := rfl
@[simp] theorem modReeve_grn (s : State) (f : Reeve → Reeve) : (modReeve f s).grn = s.grn := rfl
@[simp] theorem modReeve_sched (s : State) (f : Reeve → Reeve) : (modReeve f s).sched = s.sched := rfl
@[simp] theorem modReeve_hl (s : State) (f : Reeve → Reeve) : (modReeve f s).hl = s.hl := rfl
@[simp] theorem modReeve_pwr (s : State) (f : Reeve → Reeve) : (modReeve f s).pwr = s.pwr := rfl
@[simp] theorem modReeve_ver (s : State) (f : Reeve → Reeve) : (modReeve f s).ver = s.ver := rfl
@[simp] theorem modReeve_fh (s : State) (f : Reeve → Reeve) : (modReeve f s).fh = s.fh := rfl
@[simp] theorem modReeve_cod (s : State) (f : Reeve → Reeve) : (modReeve f s).cod = s.cod := rfl
@[simp] theorem modReeve_se (s : State) (f : Reeve → Reeve) : (modReeve f s).se = s.se := rfl
@[simp] theorem modReeve_drv (s : State) (f : Reeve → Reeve) : (modReeve f s).drv = s.drv := rfl
@[simp] theorem modReeve_fab (s : State) (f : Reeve → Reeve) : (modReeve f s).fab = s.fab := rfl
@[simp] theorem modReeve_coll (s : State) (f : Reeve → Reeve) : (modReeve f s).coll = s.coll := rfl
@[simp] theorem modReeve_sec (s : State) (f : Reeve → Reeve) : (modReeve f s).sec = s.sec := rfl
@[simp] theorem modReeve_free (s : State) (f : Reeve → Reeve) : (modReeve f s).free = s.free := rfl
@[simp] theorem modReeve_wire (s : State) (f : Reeve → Reeve) : (modReeve f s).wire = s.wire := rfl
@[simp] theorem modReeve_reg (s : State) (f : Reeve → Reeve) (r : RegName) (i j : Nat) :
    (modReeve f s).reg r i j = s.reg r i j := rfl
@[simp] theorem modReeve_rb (s : State) (f : Reeve → Reeve) (r : RegName) (b i j : Nat) :
    (modReeve f s).rb r b i j = s.rb r b i j := rfl
@[simp] theorem modReeve_tile (s : State) (f : Reeve → Reeve) (n : Nat) : (modReeve f s).tile n = s.tile n := rfl
@[simp] theorem modReeve_core (s : State) (f : Reeve → Reeve) (n : Nat) : (modReeve f s).core n = s.core n := rfl
@[simp] theorem modReeve_byte (s : State) (f : Reeve → Reeve) (n : Nat) : (modReeve f s).byte n = s.byte n := rfl
@[simp] theorem modReeve_page (s : State) (f : Reeve → Reeve) (n : Nat) : (modReeve f s).page n = s.page n := rfl
@[simp] theorem modReeve_now (s : State) (f : Reeve → Reeve) : (modReeve f s).now = s.now := rfl
@[simp] theorem modReeve_enabledMap (s : State) (f : Reeve → Reeve) : (modReeve f s).enabledMap = s.enabledMap := rfl

/-! ### modGrn -/

@[simp] theorem modGrn_pending (s : State) (f : Granary → Granary) : (modGrn f s).pending = s.pending := rfl
@[simp] theorem modGrn_regs (s : State) (f : Granary → Granary) : (modGrn f s).regs = s.regs := rfl
@[simp] theorem modGrn_mem (s : State) (f : Granary → Granary) : (modGrn f s).mem = s.mem := rfl
@[simp] theorem modGrn_freeMem (s : State) (f : Granary → Granary) : (modGrn f s).freeMem = s.freeMem := rfl
@[simp] theorem modGrn_ecc (s : State) (f : Granary → Granary) : (modGrn f s).ecc = s.ecc := rfl
@[simp] theorem modGrn_tb (s : State) (f : Granary → Granary) : (modGrn f s).tb = s.tb := rfl
@[simp] theorem modGrn_bellArm (s : State) (f : Granary → Granary) : (modGrn f s).bellArm = s.bellArm := rfl
@[simp] theorem modGrn_bellStep (s : State) (f : Granary → Granary) : (modGrn f s).bellStep = s.bellStep := rfl
@[simp] theorem modGrn_deliveries (s : State) (f : Granary → Granary) : (modGrn f s).deliveries = s.deliveries := rfl
@[simp] theorem modGrn_tiles (s : State) (f : Granary → Granary) : (modGrn f s).tiles = s.tiles := rfl
@[simp] theorem modGrn_sched (s : State) (f : Granary → Granary) : (modGrn f s).sched = s.sched := rfl
@[simp] theorem modGrn_hl (s : State) (f : Granary → Granary) : (modGrn f s).hl = s.hl := rfl
@[simp] theorem modGrn_reeve (s : State) (f : Granary → Granary) : (modGrn f s).reeve = s.reeve := rfl
@[simp] theorem modGrn_pwr (s : State) (f : Granary → Granary) : (modGrn f s).pwr = s.pwr := rfl
@[simp] theorem modGrn_ver (s : State) (f : Granary → Granary) : (modGrn f s).ver = s.ver := rfl
@[simp] theorem modGrn_fh (s : State) (f : Granary → Granary) : (modGrn f s).fh = s.fh := rfl
@[simp] theorem modGrn_cod (s : State) (f : Granary → Granary) : (modGrn f s).cod = s.cod := rfl
@[simp] theorem modGrn_se (s : State) (f : Granary → Granary) : (modGrn f s).se = s.se := rfl
@[simp] theorem modGrn_drv (s : State) (f : Granary → Granary) : (modGrn f s).drv = s.drv := rfl
@[simp] theorem modGrn_fab (s : State) (f : Granary → Granary) : (modGrn f s).fab = s.fab := rfl
@[simp] theorem modGrn_coll (s : State) (f : Granary → Granary) : (modGrn f s).coll = s.coll := rfl
@[simp] theorem modGrn_sec (s : State) (f : Granary → Granary) : (modGrn f s).sec = s.sec := rfl
@[simp] theorem modGrn_free (s : State) (f : Granary → Granary) : (modGrn f s).free = s.free := rfl
@[simp] theorem modGrn_wire (s : State) (f : Granary → Granary) : (modGrn f s).wire = s.wire := rfl
@[simp] theorem modGrn_reg (s : State) (f : Granary → Granary) (r : RegName) (i j : Nat) :
    (modGrn f s).reg r i j = s.reg r i j := rfl
@[simp] theorem modGrn_rb (s : State) (f : Granary → Granary) (r : RegName) (b i j : Nat) :
    (modGrn f s).rb r b i j = s.rb r b i j := rfl
@[simp] theorem modGrn_tile (s : State) (f : Granary → Granary) (n : Nat) : (modGrn f s).tile n = s.tile n := rfl
@[simp] theorem modGrn_core (s : State) (f : Granary → Granary) (n : Nat) : (modGrn f s).core n = s.core n := rfl
@[simp] theorem modGrn_byte (s : State) (f : Granary → Granary) (n : Nat) : (modGrn f s).byte n = s.byte n := rfl
@[simp] theorem modGrn_now (s : State) (f : Granary → Granary) : (modGrn f s).now = s.now := rfl
@[simp] theorem modGrn_enabledMap (s : State) (f : Granary → Granary) : (modGrn f s).enabledMap = s.enabledMap := rfl

/-! ### modFab -/

@[simp] theorem modFab_pending (s : State) (f : Fabric → Fabric) : (modFab f s).pending = s.pending := rfl
@[simp] theorem modFab_regs (s : State) (f : Fabric → Fabric) : (modFab f s).regs = s.regs := rfl
@[simp] theorem modFab_mem (s : State) (f : Fabric → Fabric) : (modFab f s).mem = s.mem := rfl
@[simp] theorem modFab_freeMem (s : State) (f : Fabric → Fabric) : (modFab f s).freeMem = s.freeMem := rfl
@[simp] theorem modFab_ecc (s : State) (f : Fabric → Fabric) : (modFab f s).ecc = s.ecc := rfl
@[simp] theorem modFab_tb (s : State) (f : Fabric → Fabric) : (modFab f s).tb = s.tb := rfl
@[simp] theorem modFab_bellArm (s : State) (f : Fabric → Fabric) : (modFab f s).bellArm = s.bellArm := rfl
@[simp] theorem modFab_bellStep (s : State) (f : Fabric → Fabric) : (modFab f s).bellStep = s.bellStep := rfl
@[simp] theorem modFab_deliveries (s : State) (f : Fabric → Fabric) : (modFab f s).deliveries = s.deliveries := rfl
@[simp] theorem modFab_tiles (s : State) (f : Fabric → Fabric) : (modFab f s).tiles = s.tiles := rfl
@[simp] theorem modFab_grn (s : State) (f : Fabric → Fabric) : (modFab f s).grn = s.grn := rfl
@[simp] theorem modFab_sched (s : State) (f : Fabric → Fabric) : (modFab f s).sched = s.sched := rfl
@[simp] theorem modFab_hl (s : State) (f : Fabric → Fabric) : (modFab f s).hl = s.hl := rfl
@[simp] theorem modFab_reeve (s : State) (f : Fabric → Fabric) : (modFab f s).reeve = s.reeve := rfl
@[simp] theorem modFab_pwr (s : State) (f : Fabric → Fabric) : (modFab f s).pwr = s.pwr := rfl
@[simp] theorem modFab_ver (s : State) (f : Fabric → Fabric) : (modFab f s).ver = s.ver := rfl
@[simp] theorem modFab_fh (s : State) (f : Fabric → Fabric) : (modFab f s).fh = s.fh := rfl
@[simp] theorem modFab_cod (s : State) (f : Fabric → Fabric) : (modFab f s).cod = s.cod := rfl
@[simp] theorem modFab_se (s : State) (f : Fabric → Fabric) : (modFab f s).se = s.se := rfl
@[simp] theorem modFab_drv (s : State) (f : Fabric → Fabric) : (modFab f s).drv = s.drv := rfl
@[simp] theorem modFab_coll (s : State) (f : Fabric → Fabric) : (modFab f s).coll = s.coll := rfl
@[simp] theorem modFab_sec (s : State) (f : Fabric → Fabric) : (modFab f s).sec = s.sec := rfl
@[simp] theorem modFab_free (s : State) (f : Fabric → Fabric) : (modFab f s).free = s.free := rfl
@[simp] theorem modFab_wire (s : State) (f : Fabric → Fabric) : (modFab f s).wire = s.wire := rfl
@[simp] theorem modFab_reg (s : State) (f : Fabric → Fabric) (r : RegName) (i j : Nat) :
    (modFab f s).reg r i j = s.reg r i j := rfl
@[simp] theorem modFab_rb (s : State) (f : Fabric → Fabric) (r : RegName) (b i j : Nat) :
    (modFab f s).rb r b i j = s.rb r b i j := rfl
@[simp] theorem modFab_tile (s : State) (f : Fabric → Fabric) (n : Nat) : (modFab f s).tile n = s.tile n := rfl
@[simp] theorem modFab_core (s : State) (f : Fabric → Fabric) (n : Nat) : (modFab f s).core n = s.core n := rfl
@[simp] theorem modFab_byte (s : State) (f : Fabric → Fabric) (n : Nat) : (modFab f s).byte n = s.byte n := rfl
@[simp] theorem modFab_page (s : State) (f : Fabric → Fabric) (n : Nat) : (modFab f s).page n = s.page n := rfl
@[simp] theorem modFab_now (s : State) (f : Fabric → Fabric) : (modFab f s).now = s.now := rfl
@[simp] theorem modFab_enabledMap (s : State) (f : Fabric → Fabric) : (modFab f s).enabledMap = s.enabledMap := rfl

/-! ### setFhPort -/

@[simp] theorem setFhPort_pending (s : State) (p : Nat) (w : FhPort) : (s.setFhPort p w).pending = s.pending := rfl
@[simp] theorem setFhPort_regs (s : State) (p : Nat) (w : FhPort) : (s.setFhPort p w).regs = s.regs := rfl
@[simp] theorem setFhPort_mem (s : State) (p : Nat) (w : FhPort) : (s.setFhPort p w).mem = s.mem := rfl
@[simp] theorem setFhPort_freeMem (s : State) (p : Nat) (w : FhPort) : (s.setFhPort p w).freeMem = s.freeMem := rfl
@[simp] theorem setFhPort_ecc (s : State) (p : Nat) (w : FhPort) : (s.setFhPort p w).ecc = s.ecc := rfl
@[simp] theorem setFhPort_tb (s : State) (p : Nat) (w : FhPort) : (s.setFhPort p w).tb = s.tb := rfl
@[simp] theorem setFhPort_bellArm (s : State) (p : Nat) (w : FhPort) : (s.setFhPort p w).bellArm = s.bellArm := rfl
@[simp] theorem setFhPort_bellStep (s : State) (p : Nat) (w : FhPort) : (s.setFhPort p w).bellStep = s.bellStep := rfl
@[simp] theorem setFhPort_deliveries (s : State) (p : Nat) (w : FhPort) :
    (s.setFhPort p w).deliveries = s.deliveries := rfl
@[simp] theorem setFhPort_tiles (s : State) (p : Nat) (w : FhPort) : (s.setFhPort p w).tiles = s.tiles := rfl
@[simp] theorem setFhPort_grn (s : State) (p : Nat) (w : FhPort) : (s.setFhPort p w).grn = s.grn := rfl
@[simp] theorem setFhPort_sched (s : State) (p : Nat) (w : FhPort) : (s.setFhPort p w).sched = s.sched := rfl
@[simp] theorem setFhPort_hl (s : State) (p : Nat) (w : FhPort) : (s.setFhPort p w).hl = s.hl := rfl
@[simp] theorem setFhPort_reeve (s : State) (p : Nat) (w : FhPort) : (s.setFhPort p w).reeve = s.reeve := rfl
@[simp] theorem setFhPort_pwr (s : State) (p : Nat) (w : FhPort) : (s.setFhPort p w).pwr = s.pwr := rfl
@[simp] theorem setFhPort_ver (s : State) (p : Nat) (w : FhPort) : (s.setFhPort p w).ver = s.ver := rfl
@[simp] theorem setFhPort_cod (s : State) (p : Nat) (w : FhPort) : (s.setFhPort p w).cod = s.cod := rfl
@[simp] theorem setFhPort_se (s : State) (p : Nat) (w : FhPort) : (s.setFhPort p w).se = s.se := rfl
@[simp] theorem setFhPort_drv (s : State) (p : Nat) (w : FhPort) : (s.setFhPort p w).drv = s.drv := rfl
@[simp] theorem setFhPort_fab (s : State) (p : Nat) (w : FhPort) : (s.setFhPort p w).fab = s.fab := rfl
@[simp] theorem setFhPort_coll (s : State) (p : Nat) (w : FhPort) : (s.setFhPort p w).coll = s.coll := rfl
@[simp] theorem setFhPort_sec (s : State) (p : Nat) (w : FhPort) : (s.setFhPort p w).sec = s.sec := rfl
@[simp] theorem setFhPort_free (s : State) (p : Nat) (w : FhPort) : (s.setFhPort p w).free = s.free := rfl
@[simp] theorem setFhPort_wire (s : State) (p : Nat) (w : FhPort) : (s.setFhPort p w).wire = s.wire := rfl
@[simp] theorem setFhPort_reg (s : State) (p : Nat) (w : FhPort) (r : RegName) (i j : Nat) :
    (s.setFhPort p w).reg r i j = s.reg r i j := rfl
@[simp] theorem setFhPort_rb (s : State) (p : Nat) (w : FhPort) (r : RegName) (b i j : Nat) :
    (s.setFhPort p w).rb r b i j = s.rb r b i j := rfl
@[simp] theorem setFhPort_tile (s : State) (p : Nat) (w : FhPort) (n : Nat) :
    (s.setFhPort p w).tile n = s.tile n := rfl
@[simp] theorem setFhPort_core (s : State) (p : Nat) (w : FhPort) (n : Nat) :
    (s.setFhPort p w).core n = s.core n := rfl
@[simp] theorem setFhPort_byte (s : State) (p : Nat) (w : FhPort) (n : Nat) :
    (s.setFhPort p w).byte n = s.byte n := rfl
@[simp] theorem setFhPort_page (s : State) (p : Nat) (w : FhPort) (n : Nat) :
    (s.setFhPort p w).page n = s.page n := rfl
@[simp] theorem setFhPort_now (s : State) (p : Nat) (w : FhPort) : (s.setFhPort p w).now = s.now := rfl
@[simp] theorem setFhPort_enabledMap (s : State) (p : Nat) (w : FhPort) :
    (s.setFhPort p w).enabledMap = s.enabledMap := rfl

/-! ### setEngine -/

@[simp] theorem setEngine_pending (s : State) (k : Nat) (w : Engine) : (s.setEngine k w).pending = s.pending := rfl
@[simp] theorem setEngine_regs (s : State) (k : Nat) (w : Engine) : (s.setEngine k w).regs = s.regs := rfl
@[simp] theorem setEngine_mem (s : State) (k : Nat) (w : Engine) : (s.setEngine k w).mem = s.mem := rfl
@[simp] theorem setEngine_freeMem (s : State) (k : Nat) (w : Engine) : (s.setEngine k w).freeMem = s.freeMem := rfl
@[simp] theorem setEngine_ecc (s : State) (k : Nat) (w : Engine) : (s.setEngine k w).ecc = s.ecc := rfl
@[simp] theorem setEngine_tb (s : State) (k : Nat) (w : Engine) : (s.setEngine k w).tb = s.tb := rfl
@[simp] theorem setEngine_bellArm (s : State) (k : Nat) (w : Engine) : (s.setEngine k w).bellArm = s.bellArm := rfl
@[simp] theorem setEngine_bellStep (s : State) (k : Nat) (w : Engine) : (s.setEngine k w).bellStep = s.bellStep := rfl
@[simp] theorem setEngine_deliveries (s : State) (k : Nat) (w : Engine) :
    (s.setEngine k w).deliveries = s.deliveries := rfl
@[simp] theorem setEngine_tiles (s : State) (k : Nat) (w : Engine) : (s.setEngine k w).tiles = s.tiles := rfl
@[simp] theorem setEngine_grn (s : State) (k : Nat) (w : Engine) : (s.setEngine k w).grn = s.grn := rfl
@[simp] theorem setEngine_sched (s : State) (k : Nat) (w : Engine) : (s.setEngine k w).sched = s.sched := rfl
@[simp] theorem setEngine_hl (s : State) (k : Nat) (w : Engine) : (s.setEngine k w).hl = s.hl := rfl
@[simp] theorem setEngine_reeve (s : State) (k : Nat) (w : Engine) : (s.setEngine k w).reeve = s.reeve := rfl
@[simp] theorem setEngine_pwr (s : State) (k : Nat) (w : Engine) : (s.setEngine k w).pwr = s.pwr := rfl
@[simp] theorem setEngine_ver (s : State) (k : Nat) (w : Engine) : (s.setEngine k w).ver = s.ver := rfl
@[simp] theorem setEngine_fh (s : State) (k : Nat) (w : Engine) : (s.setEngine k w).fh = s.fh := rfl
@[simp] theorem setEngine_cod (s : State) (k : Nat) (w : Engine) : (s.setEngine k w).cod = s.cod := rfl
@[simp] theorem setEngine_drv (s : State) (k : Nat) (w : Engine) : (s.setEngine k w).drv = s.drv := rfl
@[simp] theorem setEngine_fab (s : State) (k : Nat) (w : Engine) : (s.setEngine k w).fab = s.fab := rfl
@[simp] theorem setEngine_coll (s : State) (k : Nat) (w : Engine) : (s.setEngine k w).coll = s.coll := rfl
@[simp] theorem setEngine_sec (s : State) (k : Nat) (w : Engine) : (s.setEngine k w).sec = s.sec := rfl
@[simp] theorem setEngine_free (s : State) (k : Nat) (w : Engine) : (s.setEngine k w).free = s.free := rfl
@[simp] theorem setEngine_wire (s : State) (k : Nat) (w : Engine) : (s.setEngine k w).wire = s.wire := rfl
@[simp] theorem setEngine_reg (s : State) (k : Nat) (w : Engine) (r : RegName) (i j : Nat) :
    (s.setEngine k w).reg r i j = s.reg r i j := rfl
@[simp] theorem setEngine_rb (s : State) (k : Nat) (w : Engine) (r : RegName) (b i j : Nat) :
    (s.setEngine k w).rb r b i j = s.rb r b i j := rfl
@[simp] theorem setEngine_tile (s : State) (k : Nat) (w : Engine) (n : Nat) :
    (s.setEngine k w).tile n = s.tile n := rfl
@[simp] theorem setEngine_core (s : State) (k : Nat) (w : Engine) (n : Nat) :
    (s.setEngine k w).core n = s.core n := rfl
@[simp] theorem setEngine_byte (s : State) (k : Nat) (w : Engine) (n : Nat) :
    (s.setEngine k w).byte n = s.byte n := rfl
@[simp] theorem setEngine_page (s : State) (k : Nat) (w : Engine) (n : Nat) :
    (s.setEngine k w).page n = s.page n := rfl
@[simp] theorem setEngine_now (s : State) (k : Nat) (w : Engine) : (s.setEngine k w).now = s.now := rfl
@[simp] theorem setEngine_enabledMap (s : State) (k : Nat) (w : Engine) :
    (s.setEngine k w).enabledMap = s.enabledMap := rfl

/-! ### setDrover -/

@[simp] theorem setDrover_pending (s : State) (k : Nat) (w : Drover) : (s.setDrover k w).pending = s.pending := rfl
@[simp] theorem setDrover_regs (s : State) (k : Nat) (w : Drover) : (s.setDrover k w).regs = s.regs := rfl
@[simp] theorem setDrover_mem (s : State) (k : Nat) (w : Drover) : (s.setDrover k w).mem = s.mem := rfl
@[simp] theorem setDrover_freeMem (s : State) (k : Nat) (w : Drover) : (s.setDrover k w).freeMem = s.freeMem := rfl
@[simp] theorem setDrover_ecc (s : State) (k : Nat) (w : Drover) : (s.setDrover k w).ecc = s.ecc := rfl
@[simp] theorem setDrover_tb (s : State) (k : Nat) (w : Drover) : (s.setDrover k w).tb = s.tb := rfl
@[simp] theorem setDrover_bellArm (s : State) (k : Nat) (w : Drover) : (s.setDrover k w).bellArm = s.bellArm := rfl
@[simp] theorem setDrover_bellStep (s : State) (k : Nat) (w : Drover) : (s.setDrover k w).bellStep = s.bellStep := rfl
@[simp] theorem setDrover_deliveries (s : State) (k : Nat) (w : Drover) :
    (s.setDrover k w).deliveries = s.deliveries := rfl
@[simp] theorem setDrover_tiles (s : State) (k : Nat) (w : Drover) : (s.setDrover k w).tiles = s.tiles := rfl
@[simp] theorem setDrover_grn (s : State) (k : Nat) (w : Drover) : (s.setDrover k w).grn = s.grn := rfl
@[simp] theorem setDrover_sched (s : State) (k : Nat) (w : Drover) : (s.setDrover k w).sched = s.sched := rfl
@[simp] theorem setDrover_hl (s : State) (k : Nat) (w : Drover) : (s.setDrover k w).hl = s.hl := rfl
@[simp] theorem setDrover_reeve (s : State) (k : Nat) (w : Drover) : (s.setDrover k w).reeve = s.reeve := rfl
@[simp] theorem setDrover_pwr (s : State) (k : Nat) (w : Drover) : (s.setDrover k w).pwr = s.pwr := rfl
@[simp] theorem setDrover_ver (s : State) (k : Nat) (w : Drover) : (s.setDrover k w).ver = s.ver := rfl
@[simp] theorem setDrover_fh (s : State) (k : Nat) (w : Drover) : (s.setDrover k w).fh = s.fh := rfl
@[simp] theorem setDrover_cod (s : State) (k : Nat) (w : Drover) : (s.setDrover k w).cod = s.cod := rfl
@[simp] theorem setDrover_se (s : State) (k : Nat) (w : Drover) : (s.setDrover k w).se = s.se := rfl
@[simp] theorem setDrover_fab (s : State) (k : Nat) (w : Drover) : (s.setDrover k w).fab = s.fab := rfl
@[simp] theorem setDrover_coll (s : State) (k : Nat) (w : Drover) : (s.setDrover k w).coll = s.coll := rfl
@[simp] theorem setDrover_sec (s : State) (k : Nat) (w : Drover) : (s.setDrover k w).sec = s.sec := rfl
@[simp] theorem setDrover_free (s : State) (k : Nat) (w : Drover) : (s.setDrover k w).free = s.free := rfl
@[simp] theorem setDrover_wire (s : State) (k : Nat) (w : Drover) : (s.setDrover k w).wire = s.wire := rfl
@[simp] theorem setDrover_reg (s : State) (k : Nat) (w : Drover) (r : RegName) (i j : Nat) :
    (s.setDrover k w).reg r i j = s.reg r i j := rfl
@[simp] theorem setDrover_rb (s : State) (k : Nat) (w : Drover) (r : RegName) (b i j : Nat) :
    (s.setDrover k w).rb r b i j = s.rb r b i j := rfl
@[simp] theorem setDrover_tile (s : State) (k : Nat) (w : Drover) (n : Nat) :
    (s.setDrover k w).tile n = s.tile n := rfl
@[simp] theorem setDrover_core (s : State) (k : Nat) (w : Drover) (n : Nat) :
    (s.setDrover k w).core n = s.core n := rfl
@[simp] theorem setDrover_byte (s : State) (k : Nat) (w : Drover) (n : Nat) :
    (s.setDrover k w).byte n = s.byte n := rfl
@[simp] theorem setDrover_page (s : State) (k : Nat) (w : Drover) (n : Nat) :
    (s.setDrover k w).page n = s.page n := rfl
@[simp] theorem setDrover_now (s : State) (k : Nat) (w : Drover) : (s.setDrover k w).now = s.now := rfl
@[simp] theorem setDrover_enabledMap (s : State) (k : Nat) (w : Drover) :
    (s.setDrover k w).enabledMap = s.enabledMap := rfl

/-! ### setProg -/

@[simp] theorem setProg_pending (s : State) (k : Nat) (w : Prog) : (s.setProg k w).pending = s.pending := rfl
@[simp] theorem setProg_regs (s : State) (k : Nat) (w : Prog) : (s.setProg k w).regs = s.regs := rfl
@[simp] theorem setProg_mem (s : State) (k : Nat) (w : Prog) : (s.setProg k w).mem = s.mem := rfl
@[simp] theorem setProg_freeMem (s : State) (k : Nat) (w : Prog) : (s.setProg k w).freeMem = s.freeMem := rfl
@[simp] theorem setProg_ecc (s : State) (k : Nat) (w : Prog) : (s.setProg k w).ecc = s.ecc := rfl
@[simp] theorem setProg_tb (s : State) (k : Nat) (w : Prog) : (s.setProg k w).tb = s.tb := rfl
@[simp] theorem setProg_bellArm (s : State) (k : Nat) (w : Prog) : (s.setProg k w).bellArm = s.bellArm := rfl
@[simp] theorem setProg_bellStep (s : State) (k : Nat) (w : Prog) : (s.setProg k w).bellStep = s.bellStep := rfl
@[simp] theorem setProg_deliveries (s : State) (k : Nat) (w : Prog) : (s.setProg k w).deliveries = s.deliveries := rfl
@[simp] theorem setProg_tiles (s : State) (k : Nat) (w : Prog) : (s.setProg k w).tiles = s.tiles := rfl
@[simp] theorem setProg_grn (s : State) (k : Nat) (w : Prog) : (s.setProg k w).grn = s.grn := rfl
@[simp] theorem setProg_sched (s : State) (k : Nat) (w : Prog) : (s.setProg k w).sched = s.sched := rfl
@[simp] theorem setProg_hl (s : State) (k : Nat) (w : Prog) : (s.setProg k w).hl = s.hl := rfl
@[simp] theorem setProg_reeve (s : State) (k : Nat) (w : Prog) : (s.setProg k w).reeve = s.reeve := rfl
@[simp] theorem setProg_pwr (s : State) (k : Nat) (w : Prog) : (s.setProg k w).pwr = s.pwr := rfl
@[simp] theorem setProg_ver (s : State) (k : Nat) (w : Prog) : (s.setProg k w).ver = s.ver := rfl
@[simp] theorem setProg_fh (s : State) (k : Nat) (w : Prog) : (s.setProg k w).fh = s.fh := rfl
@[simp] theorem setProg_cod (s : State) (k : Nat) (w : Prog) : (s.setProg k w).cod = s.cod := rfl
@[simp] theorem setProg_se (s : State) (k : Nat) (w : Prog) : (s.setProg k w).se = s.se := rfl
@[simp] theorem setProg_drv (s : State) (k : Nat) (w : Prog) : (s.setProg k w).drv = s.drv := rfl
@[simp] theorem setProg_fab (s : State) (k : Nat) (w : Prog) : (s.setProg k w).fab = s.fab := rfl
@[simp] theorem setProg_sec (s : State) (k : Nat) (w : Prog) : (s.setProg k w).sec = s.sec := rfl
@[simp] theorem setProg_free (s : State) (k : Nat) (w : Prog) : (s.setProg k w).free = s.free := rfl
@[simp] theorem setProg_wire (s : State) (k : Nat) (w : Prog) : (s.setProg k w).wire = s.wire := rfl
@[simp] theorem setProg_reg (s : State) (k : Nat) (w : Prog) (r : RegName) (i j : Nat) :
    (s.setProg k w).reg r i j = s.reg r i j := rfl
@[simp] theorem setProg_rb (s : State) (k : Nat) (w : Prog) (r : RegName) (b i j : Nat) :
    (s.setProg k w).rb r b i j = s.rb r b i j := rfl
@[simp] theorem setProg_tile (s : State) (k : Nat) (w : Prog) (n : Nat) : (s.setProg k w).tile n = s.tile n := rfl
@[simp] theorem setProg_core (s : State) (k : Nat) (w : Prog) (n : Nat) : (s.setProg k w).core n = s.core n := rfl
@[simp] theorem setProg_byte (s : State) (k : Nat) (w : Prog) (n : Nat) : (s.setProg k w).byte n = s.byte n := rfl
@[simp] theorem setProg_page (s : State) (k : Nat) (w : Prog) (n : Nat) : (s.setProg k w).page n = s.page n := rfl
@[simp] theorem setProg_now (s : State) (k : Nat) (w : Prog) : (s.setProg k w).now = s.now := rfl
@[simp] theorem setProg_enabledMap (s : State) (k : Nat) (w : Prog) : (s.setProg k w).enabledMap = s.enabledMap := rfl
/-! ### What a write reads back as -/

theorem reg_setReg (s : State) (q : RegName) (v : Word) (x y : Nat) (r : RegName) (i j : Nat) :
    (s.setReg q v x y).reg r i j = if addrOf r i j = addrOf q x y then v else s.reg r i j :=
  tab_get_set resetAt s.regs (addrOf q x y) (addrOf r i j) v

@[simp] theorem reg_setReg_same (s : State) (r : RegName) (v : Word) (i j : Nat) :
    (s.setReg r v i j).reg r i j = v := tab_get_set_same resetAt s.regs (addrOf r i j) v

theorem reg_setReg_ne (s : State) (q : RegName) (v : Word) (x y : Nat) (r : RegName) (i j : Nat)
    (h : addrOf r i j ≠ addrOf q x y) : (s.setReg q v x y).reg r i j = s.reg r i j :=
  tab_get_set_ne resetAt s.regs v h

@[simp] theorem tile_setTile_same (s : State) (t : Nat) (u : Tile) : (s.setTile t u).tile t = u :=
  tab_get_set_same _ s.tiles t u

theorem tile_setTile_ne (s : State) (t n : Nat) (u : Tile) (h : n ≠ t) : (s.setTile t u).tile n = s.tile n :=
  tab_get_set_ne _ s.tiles u h

@[simp] theorem tile_modTile_same (s : State) (t : Nat) (f : Tile → Tile) : (s.modTile t f).tile t = f (s.tile t) :=
  tile_setTile_same s t _

theorem tile_modTile_ne (s : State) (t n : Nat) (f : Tile → Tile) (h : n ≠ t) : (s.modTile t f).tile n = s.tile n :=
  tile_setTile_ne s t n _ h

@[simp] theorem core_modCore_same (s : State) (t : Nat) (f : CoreRegs → CoreRegs) :
    (s.modCore t f).core t = f (s.core t) := by
  unfold State.modCore State.core
  rw [tile_modTile_same]

theorem core_modCore_ne (s : State) (t n : Nat) (f : CoreRegs → CoreRegs) (h : n ≠ t) :
    (s.modCore t f).core n = s.core n := by
  unfold State.modCore State.core
  rw [tile_modTile_ne s t n _ h]

@[simp] theorem byte_setByte_same (s : State) (a : Nat) (b : Byte) : (s.setByte a b).byte a = b :=
  tab_get_set_same _ s.mem a b

theorem byte_setByte_ne (s : State) (a n : Nat) (b : Byte) (h : n ≠ a) : (s.setByte a b).byte n = s.byte n :=
  tab_get_set_ne _ s.mem b h

@[simp] theorem page_setPage_same (s : State) (n : Nat) (p : Page) : (s.setPage n p).page n = p :=
  tab_get_set_same _ s.grn.pages n p

/-- A second write to a key replaces the first. -/
theorem tab_set_set {α : Type} [DecidableEq α] (d : Nat → α) (m : Tab α) (k : Nat) (v w : α) :
    Tab.set d (Tab.set d m k v) k w = Tab.set d m k w := by
  have he : Tab.erase (Tab.erase m k) k = Tab.erase m k := by
    induction m with
    | nil => rfl
    | cons p m ih =>
      obtain ⟨j, x⟩ := p
      by_cases hj : j = k <;> simp [Tab.erase, hj, ih]
  have hi : ∀ m : Tab α, TabFree m k → Tab.erase (Tab.insert m k v) k = m := by
    intro m
    induction m with
    | nil => intro _; simp [Tab.insert, Tab.erase]
    | cons p m ih =>
      intro hf
      obtain ⟨j, x⟩ := p
      have hj : j ≠ k := hf (j, x) (by simp)
      have hm : TabFree m k := fun q hq => hf q (List.mem_cons_of_mem _ hq)
      have hid : Tab.erase m k = m := by
        clear ih hf
        induction m with
        | nil => rfl
        | cons p m ih =>
          obtain ⟨i, y⟩ := p
          have : i ≠ k := hm (i, y) (by simp)
          simp [Tab.erase, this, ih fun q hq => hm q (List.mem_cons_of_mem _ hq)]
      by_cases hlt : k < j
      · simp [Tab.insert, hlt, Tab.erase, hj, hid]
      · simp [Tab.insert, hlt, Tab.erase, hj, ih hm]
  have hs : Tab.erase (Tab.set d m k v) k = Tab.erase m k := by
    unfold Tab.set
    split
    · exact he
    · exact hi _ (tab_erase_free m k)
  unfold Tab.set at hs ⊢
  rw [hs]

theorem modCore_modCore (s : State) (t : Nat) (f g : CoreRegs → CoreRegs) :
    (s.modCore t f).modCore t g = s.modCore t fun c => g (f c) := by
  unfold State.modCore State.modTile
  rw [tile_setTile_same]
  unfold State.setTile
  rw [tab_set_set]

end Sys2Proof.Laws
end

