-- ==== Sys2Proof/Laws/Tile.lean ====
section
/-! SUPPORT. What running one instruction does (Machine/Tile.lean): under `Runs` it is the instruction's own effect, on the
state as it stands; on a tile that takes no instruction nothing happens; a change to a core is a change to that core's
value. -/

namespace Sys2Proof.Laws

open Sys2Proof Sys2Proof.Machine

/-- Two changes of a core that agree on that core's value are one change. -/
theorem modCore_congr {s : State} {t : Nat} {f g : CoreRegs → CoreRegs} (h : f (s.core t) = g (s.core t)) :
    s.modCore t f = s.modCore t g := by
  simp only [State.modCore, State.modTile]
  rw [show ((s.tile t).core) = s.core t from rfl, h]

/-- A change of a core puts that core to a value. -/
theorem modCore_withCore (s : State) (t : Nat) (f : CoreRegs → CoreRegs) :
    s.modCore t f = s.withCore t (f (s.core t)) := modCore_congr rfl

theorem endLoop_inactive {s : State} {t : Nat} (h : (s.core t).dsp.active = false) : endLoop t s = s := by
  simp [endLoop, h]

/-- A fetch from the instruction cache changes nothing. -/
theorem fetchParcel_cached {s : State} {t a : Nat} (h : Cached t a s) : fetchParcel t a s = .go s := by
  obtain ⟨ha, hh, hc⟩ := h
  simp only [fetchParcel, ha, hh, hc]; rfl

/-- Outside a loop the loop cache is not asked. -/
theorem fetchInstr_inactive {s : State} {t : Nat} (hl : (s.core t).dsp.active = false) (n : Nat) :
    fetchInstr t n s = match fetchParcel t (s.core t).pc.toNat s with
      | .go s' => if n < 2 then .go s' else fetchParcel t ((s.core t).pc.toNat + 4) s'
      | r => r := by
  unfold fetchInstr
  rw [show (s.core t).inBody = false by rw [CoreRegs.inBody, hl]; rfl]
  rfl

/-- An instruction of `n` parcels that runs, runs on the state as it stands. -/
theorem runParcels_runs {s : State} {t n : Nat} (h : Runs t s)
    (h2 : 2 ≤ n → Cached t ((s.core t).pc.toNat + 4) s) (ok : Bool) (f : State → State) :
    runParcels t n ok f s = f s := by
  obtain ⟨hr, hf, hl⟩ := h
  have hi : fetchInstr t n s = .go s := by
    rw [fetchInstr_inactive hl, fetchParcel_cached hf]
    by_cases hn : n < 2
    · simp only [hn, if_true]
    · simp only [hn, if_false]; exact fetchParcel_cached (h2 (by omega))
  simp [runParcels, hr, endLoop_inactive hl, hi, CoreRegs.inBody, hl]

theorem runInstr_runs {s : State} {t : Nat} (h : Runs t s) (ok : Bool) (f : State → State) :
    runInstr t ok f s = f s := runParcels_runs h (by omega) ok f

theorem runLong_runs {s : State} {t : Nat} (h : RunsLong t s) (f : State → State) : runLong t f s = f s :=
  runParcels_runs h.1 (fun _ => h.2) false f

/-- A tile that takes no instruction does nothing. -/
theorem runParcels_notReady {s : State} {t : Nat} (h : ready t s = false) (n : Nat) (ok : Bool) (f : State → State) :
    runParcels t n ok f s = s := by
  simp [runParcels, h]

theorem runInstr_notReady {s : State} {t : Nat} (h : ready t s = false) (ok : Bool) (f : State → State) :
    runInstr t ok f s = s := runParcels_notReady h 1 ok f

/-- Outside a loop the next parcel follows. -/
theorem next_inactive {c : CoreRegs} {n : Nat} (h : c.dsp.active = false) :
    c.next n = { c with pc := c.pc + BitVec.ofNat 52 n } := by
  simp [CoreRegs.next, h]

/-- A register instruction that runs, outside a loop, changes its core and goes on to the next parcel. -/
theorem simple_runs {s : State} {t : Nat} (h : Runs t s) (ok : Bool) (f : CoreRegs → CoreRegs)
    (hd : (f (s.core t)).dsp.active = false) :
    simple t ok f s = s.modCore t fun c => { f c with pc := (f c).pc + 4 } := by
  rw [simple, runInstr_runs h]
  apply modCore_congr
  rw [next_inactive hd]; rfl

@[simp] theorem setG_pc (c : CoreRegs) (i : Nat) (v : Word) : (c.setG i v).pc = c.pc := by
  unfold CoreRegs.setG; split <;> rfl
@[simp] theorem setG_dsp (c : CoreRegs) (i : Nat) (v : Word) : (c.setG i v).dsp = c.dsp := by
  unfold CoreRegs.setG; split <;> rfl
@[simp] theorem setV_pc (c : CoreRegs) (i : Nat) (v : BitVec 1024) : (c.setV i v).pc = c.pc := rfl
@[simp] theorem setV_dsp (c : CoreRegs) (i : Nat) (v : BitVec 1024) : (c.setV i v).dsp = c.dsp := rfl
@[simp] theorem setP_pc (c : CoreRegs) (i : Nat) (v : BitVec 128) : (c.setP i v).pc = c.pc := by
  unfold CoreRegs.setP; split <;> rfl
@[simp] theorem setP_dsp (c : CoreRegs) (i : Nat) (v : BitVec 128) : (c.setP i v).dsp = c.dsp := by
  unfold CoreRegs.setP; split <;> rfl

/-- A general register after a write: g0 reads 0, the written register its value, every other one as before. -/
theorem gr_setG (c : CoreRegs) (i j : Nat) (v : Word) :
    (c.setG i v).gr j = if j = 0 then 0 else if j = i then v else c.gr j := by
  unfold CoreRegs.setG CoreRegs.gr
  by_cases hj : j = 0
  · simp [hj]
  · by_cases hi : i = 0
    · subst hi; simp [hj]
    · simp only [hi, if_false, hj]
      exact tab_get_set _ _ _ _ _

/-- A vector register after a write. -/
theorem vr_setV (c : CoreRegs) (i j : Nat) (v : BitVec 1024) :
    (c.setV i v).vr j = if j = i then v else c.vr j := tab_get_set _ _ _ _ _

/-- A predicate after a write: p0 reads all ones. -/
theorem pr_setP (c : CoreRegs) (i j : Nat) (v : BitVec 128) :
    (c.setP i v).pr j = if j = 0 then BitVec.allOnes 128 else if j = i then v else c.pr j := by
  unfold CoreRegs.setP CoreRegs.pr
  by_cases hj : j = 0
  · simp [hj]
  · by_cases hi : i = 0
    · subst hi; simp [hj]
    · simp only [hi, if_false, hj]
      exact tab_get_set _ _ _ _ _

/-- A general-register instruction that runs writes its result and goes on. -/
theorem toG_runs {s : State} {t : Nat} (h : Runs t s) (d : Nat) (f : CoreRegs → Word) :
    toG t d f s = s.modCore t fun c => { c.setG d (f c) with pc := c.pc + 4 } := by
  rw [toG, simple_runs h true _ (by simpa using h.2.2)]
  apply modCore_congr; simp

/-- A core in K mode that takes an exception enters M mode at its handler (R103). -/
theorem takeException_kmode {s : State} {t : Nat} (h : (s.core t).modeM = false) (cause addr : Nat) :
    ((takeException t cause addr s).core t) = (s.core t).enter (s.reg .TILE_MVEC t) cause addr := by
  rw [takeException, if_neg (by simp [h])]
  simp [showException, State.modTile, State.core]

end Sys2Proof.Laws
end

