-- ==== Sys2Proof/Laws/Memory.lean ====
section
/-! SUPPORT. What an access to memory does when it goes on at once (`Reaches` of Safety.lean): a read gives the bytes and
changes no memory, a write changes exactly its bytes. -/

namespace Sys2Proof.Laws

open Sys2Proof Sys2Proof.Machine

/-- A step that may change the power, the Granary's, the scheduler's and the register state, and nothing else. -/
structure SideOnly (s u : State) : Prop where
  mem   : u.mem = s.mem
  free  : u.freeMem = s.freeMem
  ecc   : u.ecc = s.ecc
  tiles : u.tiles = s.tiles

theorem sideOnly_refl (s : State) : SideOnly s s := ⟨rfl, rfl, rfl, rfl⟩

theorem sideOnly_trans {s u v : State} (h : SideOnly s u) (k : SideOnly u v) : SideOnly s v :=
  ⟨k.mem.trans h.mem, k.free.trans h.free, k.ecc.trans h.ecc, k.tiles.trans h.tiles⟩

theorem sideOnly_byte {s u : State} (h : SideOnly s u) (x : Nat) : u.byte x = s.byte x := by
  simp only [State.byte, h.mem, h.free]

theorem sideOnly_tile {s u : State} (h : SideOnly s u) (t : Nat) : u.tile t = s.tile t := by
  simp only [State.tile, h.tiles]

theorem sideOnly_core {s u : State} (h : SideOnly s u) (t : Nat) : u.core t = s.core t := by
  simp only [State.core, sideOnly_tile h]

theorem sideOnly_eccAt {s u : State} (h : SideOnly s u) (w : Nat) : u.eccAt w = s.eccAt w := by
  simp only [State.eccAt, State.eccOf, h.ecc]

theorem wakeDom_side (d : Nat) (s : State) : SideOnly s (wakeDom d s) := by
  unfold wakeDom; split
  · exact ⟨rfl, rfl, rfl, rfl⟩
  · exact sideOnly_refl s

theorem wakeTile_side (t : Nat) (s : State) : SideOnly s (wakeTile t s) := by
  unfold wakeTile; split
  · exact sideOnly_trans (wakeDom_side _ _) (wakeDom_side _ _)
  · exact sideOnly_refl s

theorem wakeFor_side (a : Nat) (s : State) : SideOnly s (wakeFor a s) := by
  unfold wakeFor
  split
  · exact wakeDom_side _ _
  · exact wakeTile_side _ _
  · exact wakeDom_side _ _
  · exact sideOnly_refl s

theorem touchPage_side (n : Nat) (s : State) : SideOnly s (touchPage n s) := by
  unfold touchPage; dsimp only; split
  · exact ⟨rfl, rfl, rfl, rfl⟩
  · exact sideOnly_refl s

theorem sluiceCharge_side (st p len : Nat) (s : State) : SideOnly s (sluiceCharge st p len s) := ⟨rfl, rfl, rfl, rfl⟩

theorem sluiceServed_side (w : Who) (s : State) : SideOnly s (sluiceServed w s) := ⟨rfl, rfl, rfl, rfl⟩

theorem t2Done_side (w : Who) (s : State) : SideOnly s (t2Done w s) := ⟨rfl, rfl, rfl, rfl⟩

/-- A word whose check bytes are in order is found so. -/
theorem eccNow_clean {s : State} {w : Nat} (h : s.eccAt w = .clean) : s.eccNow w = .clean := by
  unfold State.eccNow; split
  · rfl
  · exact h

/-- Charging an access changes no memory and no tile. -/
theorem tierCharge_side (w : Who) (a len : Nat) (s : State) : SideOnly s (tierCharge w a len s) := by
  unfold tierCharge
  dsimp only
  refine sideOnly_trans (wakeFor_side a s) ?_
  split
  · rename_i n _
    refine sideOnly_trans (touchPage_side n _) (sideOnly_trans (t2Done_side w _) ?_)
    split
    · exact sideOnly_trans (sluiceServed_side w _) (sluiceCharge_side _ _ _ _)
    · exact sideOnly_refl _
  · exact sideOnly_refl _

theorem wakeDom_page (d p : Nat) (s : State) : (wakeDom d s).page p = s.page p := by
  unfold wakeDom; split <;> rfl

theorem touchPage_moving (p : Nat) (s : State) : ((touchPage p s).page p).moving = (s.page p).moving := by
  unfold touchPage; dsimp only; split
  · simp only [State.page, State.setPage, tab_get_set_same]; rfl
  · rfl

/-- Charging an access starts and ends no move. -/
theorem tierCharge_moving (w : Who) (a len : Nat) (s : State) {p : Nat} (hp : spaceOf a = .unified p) :
    ((tierCharge w a len s).page p).moving = (s.page p).moving := by
  have hf : (wakeFor a s).page p = s.page p := by
    unfold wakeFor; rw [hp]; exact wakeDom_page _ _ _
  have hd : ∀ u : State, (t2Done w u).page p = u.page p := fun _ => rfl
  have hc : ∀ (st q : Nat) (u : State), (sluiceCharge st q len u).page p = u.page p := fun _ _ _ => rfl
  have hv : ∀ u : State, (sluiceServed w u).page p = u.page p := fun _ => rfl
  unfold tierCharge
  rw [hp]
  dsimp only
  split
  · rw [hc, hv, hd, touchPage_moving, hf]
  · rw [hd, touchPage_moving, hf]

/-- One byte after storing consecutive bytes. -/
theorem setBytes_byte (bs : List Byte) (s : State) (a x : Nat) :
    (s.setBytes a bs).byte x = if h : a ≤ x ∧ x < a + bs.length then bs[x - a]'(by omega) else s.byte x := by
  induction bs generalizing s a with
  | nil => rw [dif_neg (by simp only [List.length_nil]; omega)]; rfl
  | cons b bs ih =>
    have hb : (s.setByte a b).byte x = if x = a then b else s.byte x := by
      simp only [State.byte, State.setByte, tab_get_set]
    rw [State.setBytes, ih, hb]
    by_cases hx : x = a
    · subst hx
      rw [dif_neg (by omega), dif_pos (by simp)]
      simp
    · by_cases h2 : a + 1 ≤ x ∧ x < a + 1 + bs.length
      · rw [dif_pos h2, dif_pos (by simp; omega)]
        simp [show x - a = (x - (a + 1)) + 1 by omega]
      · rw [dif_neg h2, if_neg hx, dif_neg (by simp; omega)]

theorem setBytes_frame (bs : List Byte) (s : State) (a : Nat) :
    (s.setBytes a bs).tiles = s.tiles ∧ (s.setBytes a bs).ecc = s.ecc ∧ (s.setBytes a bs).freeMem = s.freeMem := by
  induction bs generalizing s a with
  | nil => exact ⟨rfl, rfl, rfl⟩
  | cons b bs ih => exact ih _ _

/-- A naturally aligned access of at most 8 bytes lies in one word of memory, of the two words of its line. -/
theorem wordsOf_small (a n : Nat) (hn : n = 1 ∨ n = 2 ∨ n = 4 ∨ n = 8) (ha : a % n = 0) : wordsOf a n = [a / 32] := by
  have h : (a + n - 1) / 32 - a / 32 + 1 = 1 := by rcases hn with rfl | rfl | rfl | rfl <;> omega
  have h0 : n ≠ 0 := by omega
  simp [wordsOf, h0, h]

theorem word_of_line (a : Nat) : a / 32 = a / 64 * 2 ∨ a / 32 = a / 64 * 2 + 1 := by omega

variable {t a n : Nat} {s : State}

theorem reaches_word (h : Reaches t a n s) : s.eccAt (a / 32) = .clean := by
  rcases word_of_line a with e | e
  · rw [e]; exact h.clean.1
  · rw [e]; exact h.clean.2

theorem curByte_clean {s : State} {x : Nat} (h : s.eccAt (x / 32) = .clean)
    (hm : ∀ p, spaceOf x = .unified p → s.moveOf p = none) : s.curByte x = s.byte x := by
  have hg : s.goodByte x = s.byte x := by simp [State.goodByte, h]
  unfold State.curByte
  split
  · rename_i n he; rw [hm n he, hg]
  · exact hg

/-- The address space does not change within an aligned access of at most 8 bytes. -/
theorem spaceOf_unified_near (i : Nat) (hn : n = 1 ∨ n = 2 ∨ n = 4 ∨ n = 8) (ha : a % n = 0) (hi : i < n) {p : Nat}
    (h : spaceOf (a + i) = .unified p) : spaceOf a = .unified p := by
  unfold spaceOf at *
  split at h
  · rw [if_pos (by omega)]
    simp only [Space.unified.injEq] at h ⊢
    rcases hn with rfl | rfl | rfl | rfl <;> omega
  · exfalso
    split at h
    · dsimp only at h; split at h <;> cases h
    · split at h
      · cases h
      · split at h
        · cases h
        · split at h <;> cases h

theorem reaches_bytes (h : Reaches t a n s) (hn : n = 1 ∨ n = 2 ∨ n = 4 ∨ n = 8) (ha : a % n = 0) :
    bytesAt a n s = (List.range n).map fun i => s.byte (a + i) := by
  unfold bytesAt
  apply List.map_congr_left
  intro i hi
  rw [List.mem_range] at hi
  apply curByte_clean
  · rw [show (a + i) / 32 = a / 32 by rcases hn with rfl | rfl | rfl | rfl <;> omega]; exact (reaches_word h)
  · intro p hp; exact (h.still p (spaceOf_unified_near i hn ha hi hp)).2

theorem reaches_coreBytes (h : Reaches t a n s) (hn : n = 1 ∨ n = 2 ∨ n = 4 ∨ n = 8) (ha : a % n = 0) :
    coreBytes t a n s = (List.range n).map fun i => s.byte (a + i) := by
  rw [← reaches_bytes h hn ha]
  unfold Machine.coreBytes bytesAt
  apply List.map_congr_left
  intro i hi
  rw [List.mem_range] at hi
  simp [State.coreByte, h.idle i hi]

/-- A read that goes on at once gives the bytes there; it changes no memory and no tile. -/
theorem reaches_read (h : Reaches t a n s) (hn : n = 1 ∨ n = 2 ∨ n = 4 ∨ n = 8) (ha : a % n = 0) (aux : Nat) :
    ∃ u, readMem (whoTile s t) a n aux s = .ok ((List.range n).map fun i => s.byte (a + i)) u ∧ SideOnly s u := by
  refine ⟨tierCharge (whoTile s t) a n s, ?_, tierCharge_side _ _ _ _⟩
  have hw := wordsOf_small a n hn ha
  have hc : s.correctable (a / 32) = false := by simp [State.correctable, eccNow_clean (reaches_word h)]
  have hb : badWords a n s = [] := by rw [badWords, hw]; simp [eccNow_clean (reaches_word h)]
  have hr : readCorrects s (wordsOf a n) = s := by simp [readCorrects, hw, hc]
  have hh : heldOver a n s = false := by
    unfold heldOver
    split
    · rename_i p hp; rw [(h.still p hp).2]
    · rfl
  unfold readMem
  rw [show (whoTile s t).part = some (s.core t).part.toNat from rfl, h.held, h.gate]
  dsimp only
  rw [hh, hb, hr, reaches_bytes h hn ha]
  rfl

/-- With no dirty-page log in force for the tile's partition, a write sets no dirty bit. -/
theorem reaches_dirtyLog (h : Reaches t a n s) (hl : s.rb .PART_P_DLOG 63 (s.core t).part.toNat = false) :
    dirtyLog a s = s := by
  unfold dirtyLog
  split
  · rename_i p hp
    have hk : addrCheck (some (s.core t).part.toNat) a s = none := by
      have := h.held
      unfold rangeCheck at this
      split at this
      · cases this
      · assumption
    have ho : (s.page p).owner = some (s.core t).part.toNat := by
      unfold addrCheck at hk
      rw [hp] at hk
      dsimp only at hk
      split at hk
      · rename_i e; exact eq_of_beq e
      · cases hk
    rw [ho]
    simp [hl]
  · rfl

/-- Storing at most 8 aligned bytes in a word without error. -/
theorem storeBytes_small (data : List Byte) (hn : data.length = 1 ∨ data.length = 2 ∨ data.length = 4 ∨ data.length = 8)
    (ha : a % data.length = 0) (hc : s.eccAt (a / 32) = .clean) : storeBytes a data s = s.setBytes a data := by
  have hw := wordsOf_small a data.length hn ha
  have hp : partialWords a data.length = [a / 32] := by
    have : a / 32 * 32 < a ∨ a + data.length < a / 32 * 32 + 32 := by omega
    simp [partialWords, hw, this]
  have hq : wholeWords a data.length = [] := by
    have : a / 32 * 32 < a ∨ a + data.length < a / 32 * 32 + 32 := by omega
    rw [wholeWords, hw]; simp only [List.filter, this, decide_true, Bool.not_true]
  have hd : s.correctable (a / 32) = false := by simp [State.correctable, eccNow_clean hc]
  simp [storeBytes, hp, hq, hd]

/-- A write that goes on at once changes exactly its bytes, and no tile. -/
theorem reaches_write (data : List Byte) (h : Reaches t a data.length s)
    (hn : data.length = 1 ∨ data.length = 2 ∨ data.length = 4 ∨ data.length = 8) (ha : a % data.length = 0)
    (hl : s.rb .PART_P_DLOG 63 (s.core t).part.toNat = false) (aux : Nat) :
    ∃ u, writeMem (whoTile s t) a data aux s = .ok () u ∧ u.tiles = s.tiles ∧
      ∀ x, u.byte x = if hx : a ≤ x ∧ x < a + data.length then data[x - a]'(by omega) else s.byte x := by
  have hs := tierCharge_side (whoTile s t) a data.length s
  have hw := wordsOf_small a data.length hn ha
  have hb : (partialWords a data.length).filter (fun x => s.eccNow x == .uncorrectable) = [] := by
    have : partialWords a data.length = [a / 32] := by
      have : a / 32 * 32 < a ∨ a + data.length < a / 32 * 32 + 32 := by omega
      simp [partialWords, hw, this]
    rw [this]; simp [eccNow_clean (reaches_word h)]
  have hsb : storeBytes a data (tierCharge (whoTile s t) a data.length s) =
      (tierCharge (whoTile s t) a data.length s).setBytes a data :=
    storeBytes_small data hn ha (by rw [sideOnly_eccAt hs]; exact reaches_word h)
  refine ⟨(tierCharge (whoTile s t) a data.length s).setBytes a data, ?_, ?_, ?_⟩
  · unfold writeMem
    rw [show (whoTile s t).part = some (s.core t).part.toNat from rfl, h.held, h.gate]
    dsimp only
    rw [hb, reaches_dirtyLog h hl]
    dsimp only
    split
    · rename_i p hp
      have hm := tierCharge_moving (whoTile s t) a data.length s hp
      rw [hm, (h.still p hp).1, hsb]
      simp
    · rw [hsb]
  · rw [(setBytes_frame _ _ _).1, hs.tiles]
  · intro x
    rw [setBytes_byte, sideOnly_byte hs]

end Sys2Proof.Laws
end

