-- ==== Sys2Proof/Laws/Vector.lean ====
section
/-! SUPPORT. The lanes of a vector register (Machine/Operands.lean): what a register made of lanes reads as, lane by
lane, so that no later proof unfolds the packing. -/

namespace Sys2Proof.Laws

open Sys2Proof Sys2Proof.Machine

theorem ofLanes_lt (w : Nat) (l : List Nat) : ofLanes w l < 2 ^ (l.length * w) := by
  induction l with
  | nil => simp [ofLanes]
  | cons x xs ih =>
    have hx : x % 2 ^ w < 2 ^ w := Nat.mod_lt _ (Nat.two_pow_pos _)
    simp only [ofLanes, List.length_cons, Nat.succ_mul, Nat.pow_add]
    calc x % 2 ^ w + 2 ^ w * ofLanes w xs < 2 ^ w + 2 ^ w * ofLanes w xs := by omega
      _ = 2 ^ w * (ofLanes w xs + 1) := by rw [Nat.mul_add, Nat.mul_one, Nat.add_comm]
      _ ≤ 2 ^ w * 2 ^ (xs.length * w) := Nat.mul_le_mul_left _ ih
      _ = 2 ^ (xs.length * w) * 2 ^ w := Nat.mul_comm _ _

theorem ofLanes_digit (w : Nat) (l : List Nat) (i : Nat) (h : i < l.length) :
    ofLanes w l / 2 ^ (i * w) % 2 ^ w = l[i] % 2 ^ w := by
  induction l generalizing i with
  | nil => simp at h
  | cons x xs ih =>
    cases i with
    | zero => simp [ofLanes]
    | succ i =>
      simp only [ofLanes, Nat.succ_mul, Nat.add_comm (i * w) w, Nat.pow_add, List.getElem_cons_succ]
      rw [← Nat.div_div_eq_div_mul, Nat.add_mul_div_left _ _ (Nat.two_pow_pos _), Nat.div_eq_of_lt
        (Nat.mod_lt _ (Nat.two_pow_pos _)), Nat.zero_add]
      exact ih i (by simpa using h)

theorem laneCount_bits (sz : Fin 4) : laneCount sz * laneBits sz = 1024 := by
  revert sz; decide

/-- Lane `i` of a register made of lanes. -/
theorem lane_ofLanes (sz : Fin 4) (l : List Nat) (hl : l.length = laneCount sz) (i : Nat) (h : i < laneCount sz) :
    lane sz (BitVec.ofNat 1024 (ofLanes (laneBits sz) l)) i = l[i]'(by omega) % 2 ^ laneBits sz := by
  have hlt := ofLanes_lt (laneBits sz) l
  rw [hl, laneCount_bits] at hlt
  rw [lane, BitVec.toNat_ofNat, Nat.mod_eq_of_lt hlt]
  exact ofLanes_digit _ _ _ (by omega)

/-- Lane `i` of a register that an instruction has written on its active lanes. -/
theorem lane_laneMap (sz : Fin 4) (p : BitVec 128) (old : BitVec 1024) (f : Nat → Nat) (i : Nat) (h : i < laneCount sz) :
    lane sz (laneMap sz p old f) i = if active sz p i then f i % 2 ^ laneBits sz else lane sz old i := by
  rw [laneMap, lane_ofLanes sz _ (by simp) i h]
  simp only [List.getElem_map, List.getElem_range]
  split
  · rfl
  · exact Nat.mod_eq_of_lt (Nat.mod_lt _ (Nat.two_pow_pos _))

/-- A predicate made of a truth value per lane, bit by bit. -/
theorem lanesToPred_bit (b n : Nat) (f : Nat → Bool) (hb : b * n = 128) (hb0 : 0 < b) (k : Nat) (hk : k < 128) :
    (lanesToPred b n f).getLsbD k = f (k / b) := by
  have hlen : ((List.range n).map fun i => if f i then 2 ^ b - 1 else 0).length = n := by simp
  have hlt := ofLanes_lt b ((List.range n).map fun i => if f i then 2 ^ b - 1 else 0)
  rw [hlen, Nat.mul_comm n b, hb] at hlt
  have hi : k / b < n := Nat.div_lt_of_lt_mul (by omega)
  have hd := ofLanes_digit b ((List.range n).map fun i => if f i then 2 ^ b - 1 else 0) (k / b) (by simpa using hi)
  simp only [List.getElem_map, List.getElem_range] at hd
  simp only [lanesToPred, BitVec.getLsbD_ofNat, hk, decide_true, Bool.true_and]
  generalize ofLanes b ((List.range n).map fun i => if f i then 2 ^ b - 1 else 0) = x at hd hlt
  have hk2 : k = k % b + k / b * b := by rw [Nat.mul_comm, Nat.add_comm]; exact (Nat.div_add_mod k b).symm
  have hr : k % b < b := Nat.mod_lt _ hb0
  have : x.testBit k = (x / 2 ^ (k / b * b) % 2 ^ b).testBit (k % b) := by
    rw [Nat.testBit_mod_two_pow, Nat.testBit_div_two_pow, ← hk2]
    simp [hr]
  rw [this, hd]
  cases hf : f (k / b)
  · simp
  · simp [Nat.testBit_two_pow_sub_one, hr, Nat.mod_eq_of_lt (show 2 ^ b - 1 < 2 ^ b from by
      have := Nat.two_pow_pos b; omega)]

end Sys2Proof.Laws
end

