-- ==== Sys2Proof/WellFormed.lean ====
section
/-! DEFINITION. Which commands something outside the device can send at all: the operands whose Lean type is wider than
what the spec's packet, frame, request or record can carry are in their range. Every other operand has exactly its
width by its type. The meanings are total; a command that fails these checks is one that no sender can form. -/

namespace Sys2Proof

/-- A PRB of a U-plane section: 24 mantissas, I and Q of twelve REs, each a signed value of at most 16 bits
(06_fronthaul_and_slots.md R183). -/
def prbOk (x : BitVec 4 × List Int) : Bool :=
  x.2.length == 24 && x.2.all fun m => decide (-32768 ≤ m ∧ m ≤ 32767)

/-- A time-domain sample: I and Q, 16 bits signed each (06_fronthaul_and_slots.md R193). -/
def sampleOk (x : Int × Int) : Bool :=
  decide (-32768 ≤ x.1 ∧ x.1 ≤ 32767) && decide (-32768 ≤ x.2 ∧ x.2 ≤ 32767)

/-- A row of an array operation: M has 12 bits (03_tile_isa.md R94). -/
def matFaultOk (f : MatFault) : Bool := f.cols.all (fun r => decide (r < 4096)) && f.blocks.all fun r => decide (r < 4096)

/-- A packet's data is at most 15 words of 32 bytes (12_rack_fabric.md R376, R377). -/
def dataOk (d : List Byte) : Bool := decide (d.length ≤ 480)

/-- What a forwarded packet carries fits a packet. -/
def bodyOk : PktBody → Bool
  | .write d => dataOk d
  | .readRsp d => dataOk d
  | _ => true

/-- A number lies in a range. -/
def within (lo hi x : Nat) : Bool := decide (lo ≤ x ∧ x ≤ hi)

/-- The operands are in their range: pages lie in the unified range (00_scope.md R7), a host request has 1 to 512 bytes
(14_host_link_and_mailboxes.md R435), a poll reads up to 8 rails (15_power_reset_configuration.md R462), and an event of
a record has a 52-bit address and 12 bits of AUX (17_errors_and_health.md R491). -/
def Instr.wf : Instr → Bool
  | .matrixOperationComplete _ _ _ f => matFaultOk f
  | .uplaneSectionRx _ sec => sec.prbs.all prbOk
  | .tdMessageRx _ _ _ samples => samples.all sampleOk
  | .moveSwitch riser => within 0 31457279 riser
  | .write _ _ _ data => dataOk data
  | .readRsp _ _ _ data => dataOk data
  | .packetForward _ _ pkt => bodyOk pkt.body
  | .hostRead _ _ _ len => within 1 512 len.toNat
  | .hostWrite _ _ _ data => within 1 512 data.length
  | .pmbusPoll rails => rails.length == 8
  | .errRecClear _ ev => match ev with
    | some x => within 0 (2 ^ 52 - 1) x.1 && within 0 (2 ^ 12 - 1) x.2
    | none => true
  | _ => true

end Sys2Proof
end

