-- ==== Sys2Proof/Tests/Slice0.lean ====
section
/-! SUPPORT. The model's own tests. First, one ill-formed command for each check of WellFormed. Then single steps whose
expected values come from the spec or from a hand calculation. Last, for each statement with hypotheses, a concrete state
and operands that meet them: `test_meets_<statement>`. -/

namespace Sys2Proof.Tests

open Sys2Proof
open Sys2Proof.Machine

/-- The state after a command. -/
def after (c : Instr) (s : State) : State :=
  match exec c s with
  | .next u => u
  | _ => State.reset

/-- Reset with some registers written: name, index, value. -/
def withRegs (l : List (RegName × Nat × Word)) : State := l.foldl (fun s e => s.setReg e.1 e.2.2 e.2.1) State.reset

/-- Reset with every tile enabled and held by partition 0, which exists; the registers of `l` besides. -/
def held (l : List (RegName × Nat × Word)) : State :=
  withRegs ([(.DEV_TILEMAP_LO, 0, BitVec.allOnes 64), (.DEV_TILEMAP_HI, 0, BitVec.allOnes 64),
    (.PART_P_CTL, 0, 0x8000000000000000), (.PART_P_TILE_LO, 0, BitVec.allOnes 64)] ++ l)

/-- That state with tile 5 running at the start of its store, its core changed by `f`, the line of its pc fetched. -/
def running (l : List (RegName × Nat × Word)) (f : CoreRegs → CoreRegs) : State :=
  (held l).modTile 5 fun x =>
    let c := f { x.core with pc := BitVec.ofNat 52 (tileBase 5) }
    { x with run := .running, core := c, icache := [c.pc.toNat / 64] }

/-- A packet header from node 7 to node 0. -/
def header : PktHdr := ⟨4, 1, 0, 0, 0, 0, 0, 7, 0, 0, 0, 0, 0, 1, 0, 7, 0⟩

/-! ### Ill-formed commands -/

theorem test_wf_matrix_row :
    (Instr.matrixOperationComplete 0 0 true ⟨[4096], 0, []⟩).wf = false ∧
    (Instr.matrixOperationComplete 0 4 true ⟨[], 0, [4096]⟩).wf = false ∧
    (Instr.matrixOperationComplete 0 0 true ⟨[4095], 0, []⟩).wf = true := by decide

theorem test_wf_prb :
    (Instr.uplaneSectionRx 0 ⟨0, 1, 0, 0, 0, 0, false, false, 0, 1, none, [(0, List.replicate 23 0)]⟩).wf = false ∧
    (Instr.uplaneSectionRx 0 ⟨0, 1, 0, 0, 0, 0, false, false, 0, 1, none, [(0, List.replicate 24 32768)]⟩).wf = false ∧
    (Instr.uplaneSectionRx 0 ⟨0, 1, 0, 0, 0, 0, false, false, 0, 1, none, [(0, List.replicate 24 (-32768))]⟩).wf = true := by
  decide

theorem test_wf_sample :
    (Instr.tdMessageRx 0 0 0 [(0, 32768)]).wf = false ∧ (Instr.tdMessageRx 0 0 0 [(-32769, 0)]).wf = false ∧
    (Instr.tdMessageRx 0 0 0 [(-32768, 32767)]).wf = true := by decide

theorem test_wf_page : (Instr.moveSwitch 31457280).wf = false ∧ (Instr.moveSwitch 31457279).wf = true := by decide

theorem test_wf_packet :
    (Instr.write 0 ⟨[]⟩ header (List.replicate 481 0)).wf = false ∧
    (Instr.readRsp 0 ⟨[]⟩ header (List.replicate 481 0)).wf = false ∧
    (Instr.packetForward 0 ⟨[]⟩ ⟨header, .write (List.replicate 481 0), []⟩).wf = false ∧
    (Instr.packetForward 0 ⟨[]⟩ ⟨header, .readRsp (List.replicate 481 0), []⟩).wf = false ∧
    (Instr.write 0 ⟨[]⟩ header (List.replicate 480 0)).wf = true := by decide +kernel

theorem test_wf_host_request :
    (Instr.hostRead 0 0 0 0).wf = false ∧ (Instr.hostRead 0 0 0 513).wf = false ∧ (Instr.hostWrite 0 0 0 []).wf = false ∧
    (Instr.hostRead 0 0 0 512).wf = true := by decide

theorem test_wf_rails : (Instr.pmbusPoll []).wf = false ∧ (Instr.pmbusPoll (List.replicate 8 (none, none))).wf = true := by
  decide

theorem test_wf_record_event :
    (Instr.errRecClear 0 (some (2 ^ 52, 0))).wf = false ∧ (Instr.errRecClear 0 (some (0, 4096))).wf = false ∧
    (Instr.errRecClear 0 (some (2 ^ 52 - 1, 4095))).wf = true := by decide

/-! ### Single steps -/

/-- R85: SUB wraps; the destination is also a source. -/
theorem test_sub_wraps :
    ((after (.sub 5 2 1 2) (running [] fun c => (c.setG 1 3).setG 2 5)).core 5).gr 2 = 0xFFFFFFFFFFFFFFFE := by decide

/-- R78: g0 discards the write. -/
theorem test_g0_discards : ((after (.add 5 0 1 1) (running [] fun c => c.setG 1 3)).core 5).gr 0 = 0 := by decide

/-- R85: the corners of the division. -/
theorem test_div_corners :
    ((after (.div 5 3 1 2) (running [] fun c => c.setG 1 9)).core 5).gr 3 = BitVec.allOnes 64 ∧
    ((after (.div 5 3 1 2) (running [] fun c => (c.setG 1 0x8000000000000000).setG 2 (BitVec.allOnes 64))).core 5).gr 3 =
      0x8000000000000000 ∧
    ((after (.rem 5 3 1 2) (running [] fun c => (c.setG 1 (-7)).setG 2 2)).core 5).gr 3 = -1 := by decide

/-- R94: ADDI extends its sign, ANDI does not. -/
theorem test_immediates :
    ((after (.addi 5 3 0 0x3FFF) (running [] id)).core 5).gr 3 = BitVec.allOnes 64 ∧
    ((after (.andi 5 3 1 0x3FFF) (running [] fun c => c.setG 1 (BitVec.allOnes 64))).core 5).gr 3 = 0x3FFF := by decide

/-- R86: a taken branch goes by parcels from its own address. -/
theorem test_branch_back :
    ((after (.beq 5 1 2 0x3FFF) (running [] fun c => { c with pc := c.pc + 8 })).core 5).pc =
      BitVec.ofNat 52 (tileBase 5 + 4) := by decide

/-- R98, R103: BRK saves the pc and enters M mode at TILE_MVEC + 0x40 × 0x0C. -/
theorem test_brk_enters :
    (let u := after (.brk 5) (running [(.TILE_MVEC, 5, 0x1000)] id)
     (u.core 5).pc = 0x1300 ∧ (u.core 5).epc = BitVec.ofNat 64 (tileBase 5) ∧ (u.core 5).ecause = 0x0C ∧
       (u.core 5).modeM = true ∧ (u.core 5).pm = false) := by decide

/-- R104: the same in M mode halts the tile. -/
theorem test_brk_in_m_halts :
    ((after (.brk 5) (running [] fun c => { c with modeM := true })).tile 5).run = .halted := by decide

/-- R87, R6: a store is little-endian, and a load of fewer bytes extends as it says. -/
theorem test_store_then_load :
    (let s := running [] fun c => (c.setG 1 (BitVec.ofNat 64 (tileBase 5 + 64))).setG 2 0x80F1
     let u := after (.st16 5 2 1 0) s
     let w := after (.ld8s 5 3 1 0) u
     u.byte (tileBase 5 + 64) = 0xF1 ∧ u.byte (tileBase 5 + 65) = 0x80 ∧
       (w.core 5).gr 3 = BitVec.ofInt 64 (-15)) := by decide

/-- R16: a read of PWR_CNT returns it and clears it. -/
theorem test_read_clears :
    (let u := after .pwrCntRead (withRegs [(.PWR_CNT, 0, 0x700050003)])
     u.reg .PWR_CNT = 0 ∧ u.wire = [.readData (addrOf .PWR_CNT 0 0) 0x700050003]) := by decide

/-- R47: the largest rate is accepted, the next is not. -/
theorem test_rate_bound :
    (after (.tbRateWrite 219902326) State.reset).reg .TB_RATE = 219902326 ∧
    (after (.tbRateWrite 219902327) State.reset).rb .TB_EVT 3 = true ∧
    (after (.tbRateWrite 219902327) State.reset).reg .TB_RATE = 0 := by decide

/-- R19: a reference tick is 8 ns. -/
theorem test_idle_step_is_a_tick :
    (match step State.reset with | .next u => u.now | _ => 0) = 8 := by decide +kernel

/-- R493: a record that is cleared on the cycle of an event that would merge stays, as a new one. -/
theorem test_record_clear_with_event :
    (let s := (withRegs [(.ERR_CTL, 0, 0)]).setReg .ERR_REC 0x8000000000000009 3 0
     (after (.errRecClear 3 none) s).rb .ERR_REC 63 3 0 = false ∧
       (after (.errRecClear 3 (some (64, 1))) s).reg .ERR_REC 3 0 = 0x8000000000000001) := by decide

/-- R461: the reduction grows by 2 % a step, and THERM_N is active low. -/
theorem test_thermal :
    (after .thermalReductionStep (after (.thermSample [100] []) State.reset)).pwr.thermal = 2 ∧
    (after (.thermSample [] [95]) State.reset).wire = [.pin "THERM_N" false] := by decide

/-- R119: MPY is the doubled product: 0x4000 × 0x4000 × 2. -/
theorem test_mpy_doubles :
    (let s := (running [] id).setBytes (tileBase 5) [0x00, 0x40]
     ((after (.mpy 5 false 0 0 0 0 0) s).core 5).ar 0) = 0x20000000 := by decide

/-- R118: half up, to even and down, on 0x18000 and 0x28000 at shift 0. -/
theorem test_rounding_modes :
    (let go := fun (v ctl : Nat) => (((after (.arnd 5 false 0 3 0) (running [] fun c =>
        { c.setA 0 (BitVec.ofNat 80 v) with dsp := { c.dsp with ctl := BitVec.ofNat 64 ctl } })).core 5).gr 3).toNat
     [go 0x18000 0, go 0x28000 0, go 0x18000 1, go 0x28000 1, go 0x18000 2, go 0x28000 2]) = [2, 3, 2, 2, 1, 2] := by decide

/-! ### What meets the hypotheses of the statements -/

/-- Tile 5 runs the instruction at the start of its store. -/
theorem runs_five : Runs 5 (running [] id) := ⟨by decide, by decide, by decide⟩

theorem test_meets_StepRunsFrontCommand : ({ State.reset with pending := [.thermtrip] } : State).pending = [.thermtrip] := rfl

theorem test_meets_EmptyQueueLetsOneReferenceTickPass : State.reset.pending = [] ∧ State.reset.tb.rem = 0 ∧
    State.reset.tb.stepGo = false := by decide

theorem test_meets_EveryStepKeepsTheCanonicalForms : State.reset.Canonical ∧ (∃ t, step State.reset = .next t) :=
  ⟨⟨by decide, by decide⟩, _, rfl⟩

theorem test_meets_QueuedCommandsAreWorkedOffInOrder : 2 ≤ ({ State.reset with pending := [.thermtrip, .ppsInEdge] } : State).pending.length := by
  decide

theorem test_meets_RegisterWritesFollowTheAccessTypes :
    State.reset.dormant 49 = false ∧ (0x10090#40 : BitVec 40).toNat % 8 = 0 ∧ locate (0x9#40 : BitVec 40).toNat = none ∧
    (0x9#40 : BitVec 40).toNat % 8 ≠ 0 ∧ locate 0x10078 = some (.TB_EVT, 0, 0) ∧ mayPut (.tile 5) .TB_EVT 0 0 State.reset = false ∧
    locate 0x8000 = none := by decide

theorem test_meets_AgentReadsNeedPermission :
    ((running [] id).agentPart (.tile 5) = some 0) ∧ ((running [] id).agentPart (.host 3) = none) := by decide

theorem test_meets_ScalarRegisterInstructionResults : Runs 5 (running [] id) := runs_five

theorem test_meets_ImmediateInstructionResults :
    Runs 5 (running [] id) ∧ (63#14 : BitVec 14).toNat < 64 ∧ 64 ≤ (64#14 : BitVec 14).toNat := ⟨runs_five, by decide, by decide⟩

theorem test_meets_BranchesAndJumpsMoveThePc : Runs 5 (running [] id) := runs_five

theorem test_meets_HardwiredRegisters : Runs 5 (running [] id) := runs_five

theorem test_meets_VectorIntegerResults : Runs 5 (running [] id) := runs_five

/-- VREDMAX over 32 lanes of 32 bits that all hold 0: the greatest is 0. -/
theorem test_meets_VectorIntegerResults_max :
    (let c := (running [] id).core 5
     let act := (List.range (laneCount 2)).filter (active 2 (c.pr 0))
     let xs := act.map fun i => signed 32 (lane 2 (c.vr 1) i)
     (0 : Int) ∈ xs ∧ ∀ k ∈ xs, k ≤ 0) := by decide +kernel

theorem test_meets_CompareAndPredicateResults : Runs 5 (running [] id) ∧ (2 : Fin 4).val ≠ 3 ∧ (3 : Fin 4).val = 3 :=
  ⟨runs_five, by decide, rfl⟩

theorem test_meets_VectorFloatingPointResults : Runs 5 (running [] id) ∧ (2 : Fin 4).val ≠ 3 ∧ (3 : Fin 4).val = 3 :=
  ⟨runs_five, by decide, rfl⟩

/-- Tile 5 with g1 at offset 64 of its store. -/
def pointing : State := running [] fun c => c.setG 1 (BitVec.ofNat 64 (tileBase 5 + 64))

theorem runs_pointing : Runs 5 pointing := ⟨by decide, by decide, by decide⟩

theorem reaches_pointing : Reaches 5 (tileBase 5 + 64) 8 pointing :=
  ⟨by decide, by decide, fun p h => (nomatch (show spaceOf (tileBase 5 + 64) = .tile 5 64 by decide).symm.trans h),
    by decide, by decide⟩

/-- An aligned address that goes on, one that does not, a line in the data cache, and a control register. -/
theorem test_meets_LoadResults :
    Runs 5 pointing ∧ ((pointing.core 5).gr 1 + (0#14).signExtend 64).toNat % 2 ^ 52 = tileBase 5 + 64 ∧
    Reaches 5 (tileBase 5 + 64) 8 pointing ∧ cacheable (tileBase 5 + 64) = false ∧ (tileBase 5 + 65) % 2 ≠ 0 ∧
    (let s := (running [] id).modTile 5 fun x => { x with dcache := [(0, 5#512)] }
     cacheable 0 = true ∧ cacheLine 5 0 s = some 5#512 ∧ (rangeCheck none 0 8 s = none)) ∧
    spaceOf 0xFF0000010078 = .control 0x10078 ∧ (controlRead (.tile 5) 0 pointing).1.isSome = true :=
  ⟨runs_pointing, by decide, reaches_pointing, by decide, by decide, by decide +kernel, by decide, by decide⟩

theorem test_meets_StoreResults :
    Runs 5 pointing ∧ Reaches 5 (tileBase 5 + 64) 8 pointing ∧ pointing.rb .PART_P_DLOG 63 0 = false ∧
    (tileBase 5 + 65) % 2 ≠ 0 ∧ spaceOf 0xFF0000000004 = .control 4 :=
  ⟨runs_pointing, reaches_pointing, by decide, by decide, by decide⟩

theorem test_meets_AtomicResults :
    Runs 5 pointing ∧ Reaches 5 (tileBase 5 + 64) 8 pointing ∧ ((pointing.core 5).gr 1).toNat % 2 ^ 52 = tileBase 5 + 64 ∧
    pointing.rb .PART_P_DLOG 63 0 = false ∧ spaceOf 0xFF0000000008 = .control 8 :=
  ⟨runs_pointing, reaches_pointing, by decide, by decide, by decide⟩

theorem test_meets_VectorMemoryResults :
    Runs 5 pointing ∧ tileBase 5 % 128 = 0 ∧ ownCheck 5 (tileBase 5) pointing = none ∧ (tileBase 5 + 64) % 128 ≠ 0 ∧
    ownCheck 5 (tileBase 6) pointing ≠ none ∧
    (∀ i < 128, pointing.eccAt ((tileBase 5 + i) / 32) = .clean ∧ arrayBusy 5 (tileBase 5 + i) pointing = false) :=
  ⟨runs_pointing, by decide, by decide, by decide, by decide, by decide⟩

theorem test_meets_ExceptionsAndFetchCauses :
    Runs 5 (running [] id) ∧ ((running [] id).core 5).modeM = false ∧
    Runs 5 (running [] fun c => { c with modeM := true }) ∧
    (let s := running [] fun c => { c with pc := c.pc + 2 }
     ready 5 s = true ∧ (s.core 5).dsp.active = false ∧ (s.core 5).pc.toNat % 4 ≠ 0) ∧
    (let s := running [] fun c => { c with pc := BitVec.ofNat 52 (tileBase 6) }
     ready 5 s = true ∧ spaceOf (s.core 5).pc.toNat = .tile 6 0) ∧
    legalParcel 0 0 = false ∧ ready 5 (held []) = false :=
  ⟨runs_five, by decide, ⟨by decide, by decide, by decide⟩, by decide, by decide, by decide, by decide⟩

/-- A loop of two parcels from the start of the store, with one round left and with two. -/
def looping (n : Nat) : State := running [] fun c => { c with dsp := { c.dsp with
  loopcnt := BitVec.ofNat 64 n, loopst := BitVec.ofNat 64 (2 ^ 63 + 2 ^ 57 + tileBase 5) } }

theorem test_meets_HardwareLoopRunsItsBody :
    Runs 5 (running [] id) ∧
    (ready 5 (looping 1) = true ∧ Cached 5 ((looping 1).core 5).pc.toNat (looping 1) ∧ ((looping 1).core 5).inBody = true) ∧
    (((looping 0).core 5).dsp.active = true ∧ ((looping 0).core 5).dsp.loopcnt = 0) ∧
    ((running [] id).core 5).dsp.active = false := ⟨runs_five, by decide, by decide, by decide⟩

theorem test_meets_StatusRegisterMoves : Runs 5 (running [] id) ∧ Runs 5 (running [] fun c => { c with modeM := true }) :=
  ⟨runs_five, by decide, by decide, by decide⟩

/-- Tile 5 while an instruction waits. -/
def waiting (w : Wait) : State := running [] fun c => { c with wait := w }

theorem test_meets_WaitsFencesAndCaches :
    Runs 5 (running [] id) ∧ (waiting (.time 3 0)).enabled 5 = true ∧ ((waiting (.time 3 0)).tile 5).run = .running ∧
    ((waiting (.time 3 0)).core 5).wait = .time 3 0 ∧ (0#64).toNat ≤ (waiting (.time 3 0)).now ∧
    ((waiting (.tags 3 1)).core 5).tagBusy &&& 1 = 0 ∧
    (let s := running [] fun c => { c with wait := .event 3 1, tevt := 1 }
     (s.core 5).wait = .event 3 1 ∧ (s.core 5).tevt &&& 1 ≠ 0) ∧
    ((waiting .fence).core 5).wait = .fence ∧ ((waiting (.fencef [])).core 5).wait = .fencef [] :=
  ⟨runs_five, by decide, by decide, by decide, by decide, by decide, by decide, by decide, by decide⟩

/-- At reset every address register is 0: each bus goes to the start of the tile's store. -/
theorem buses_go : BusesGo 5 8 [⟨0, 0⟩, ⟨8, 0⟩, ⟨16, 0⟩, ⟨19, 0⟩] (running [] id) := by
  intro b hb
  simp only [List.mem_cons, List.not_mem_nil, or_false] at hb
  rcases hb with rfl | rfl | rfl | rfl <;> exact ⟨by decide, by decide, by decide, by decide⟩

theorem test_meets_RealProductResults : Runs 5 (running [] id) ∧ ((running [] id).core 5).dsp.legacy = false ∧
    BusesGo 5 8 [⟨0, 0⟩, ⟨8, 0⟩, ⟨16, 0⟩, ⟨19, 0⟩] (running [] id) := ⟨runs_five, by decide, buses_go⟩

theorem test_meets_ComplexProductResults : Runs 5 (running [] id) ∧ (6 : Fin 8).val % 2 ≠ 1 ∧
    BusesGo 5 8 [⟨0, 0⟩, ⟨8, 0⟩, ⟨16, 0⟩, ⟨19, 0⟩] (running [] id) := ⟨runs_five, by decide, buses_go⟩

theorem test_meets_AccumulatorStoresAndMoves :
    Runs 5 (running [] id) ∧ ((running [] id).core 5).dsp.legacy = false ∧
    BusesGo 5 8 [⟨0, 0⟩, ⟨8, 0⟩, ⟨16, 0⟩, ⟨19, 0⟩] (running [] id) ∧
    (let s := running [] fun c => { c with dsp := { c.dsp with ctl := 0x100 } }
     (s.core 5).dsp.legacy = true ∧ Runs 5 s) ∧ (0#5).toInt = 0 ∧ (31#5).toInt < 0 :=
  ⟨runs_five, by decide, buses_go, ⟨by decide, by decide, by decide, by decide⟩, by decide, by decide⟩

theorem test_meets_AddressAndSpecialDspRegisters :
    Runs 5 (running [] id) ∧ (19#5).toNat ≤ 19 ∧ 19 < (20#5).toNat ∧
    (let v := (running [] fun c => c.setAddrReg 3 0x38000000).core 5 |>.addrReg 3
     v.toNat / 2 ^ 22 = 7 * 32) ∧ arIllegal false 0x18000000 = true ∧ (0x100#64).getLsbD 8 = true :=
  ⟨runs_five, by decide, by decide, by decide, by decide, by decide⟩

/-- TBCTL with constraint length 3 and two output bits. -/
def viterbi : State := running [] fun c => { c.setG 1 1 with dsp := { c.dsp with tbctl := 0x050713 } }

theorem test_meets_AddCompareSelectResults :
    Runs 5 viterbi ∧ (viterbi.core 5).dsp.tbctl.toNat % 8 = 3 ∧ (viterbi.core 5).dsp.tbctl.toNat / 8 % 4 = 2 ∧
    (∀ i < 2, (viterbi.core 5).dsp.tbctl.toNat / 2 ^ (8 + 8 * i) % 128 < 2 ^ 3) ∧ (viterbi.core 5).dsp.legacy = false ∧
    ((viterbi.core 5).gr 1).toNat % 128 = 1 ∧ arIllegal false ((viterbi.core 5).addrReg 19) = false ∧
    ((running [] id).core 5).dsp.tbctl.toNat % 8 < 3 :=
  ⟨⟨by decide, by decide, by decide⟩, by decide, by decide, by decide, by decide, by decide, by decide, by decide⟩

/-- A 1 × 1 integer stream that runs in unit 0 of tile 5: activations at offset 0 of the store, outputs at offset 128. -/
def stream (str running : Bool) : MatOp :=
  { str := str, ga := BitVec.ofNat 64 (tileBase 5), gb := BitVec.ofNat 64 (tileBase 5 + 128), gs := 0, scaled := false,
    fmt := ⟨1, 1, 8, 0⟩, plane := 0, m := 1, afmt := 0, out := 0, acc := false, tag := some 3, gang := none,
    running := running, nextRow := 0, q := [], foot := [], dig := 0, late := false }

/-- The running tile 5 with unit 0 as given. -/
def withUnit (m : MUnit) : State := (running [] id).modTile 5 fun x => x.setUnit 0 m

def loaded (str running : Bool) (st : UState) : MUnit :=
  { MUnit.reset with st := st, plane0 := ⟨true, [[3]], []⟩, queue := [stream str running] }

theorem test_meets_MatrixIssueQueuesTheOperation :
    Runs 5 (running [] id) ∧ RunsLong 5 (running [] id) ∧
    (unitOk 5 0 false && loadOk 0 128 128 7 0) = true ∧ (unitOk 5 0 true && loadOk 4 64 64 0 4) = false ∧
    streamOk 0 Fmt.reset 0 1 = true ∧ streamOk 0 Fmt.reset 0 2 = false ∧
    (let x := ((running [] id).tile 5).munit 0
     (decide (x.queue.length < 4) && x.gangPend.isEmpty && !((running [] id).core 5).tagBusy.getLsbD 7) = true) ∧
    (let s := running [] fun c => { c with tagBusy := 0x80 }
     Runs 5 s ∧ (s.core 5).tagBusy.getLsbD 7 = true) :=
  ⟨runs_five, ⟨runs_five, by decide⟩, by decide, by decide, by decide, by decide, by decide,
    ⟨by decide, by decide, by decide⟩, by decide⟩

theorem test_meets_MatrixUnitsStartKeepAndRamp :
    (∀ st : UState, (((withUnit (loaded true false st)).tile 5).munit 0).queue = [stream true false]) ∧
    (stream true false).running = false ∧ (stream true false).inRange 5 = true ∧
    ({ stream true false with ga := BitVec.ofNat 64 (tileBase 5 + tileStoreBytes - 128) } : MatOp).inRange 5 = true ∧
    ({ stream true false with ga := BitVec.ofNat 64 (tileBase 5 + tileStoreBytes) } : MatOp).inRange 5 = false ∧
    (let s := { withUnit { MUnit.reset with st := .keep } with tb := { State.reset.tb with ticks := 50 } }
     let m := (s.tile 5).munit 0
     m.queue = [] ∧ m.gangPend = [] ∧ m.st = .keep ∧ m.keepAt + s.rf .TILE_ARR_CTL 18 10 5 0 ≤ s.now) ∧
    (let s := withUnit { MUnit.reset with gangPend := [{ stream true false with late := true }] }
     let m := (s.tile 5).munit 0
     m.queue = [] ∧ m.gangPend = [{ stream true false with late := true }] ∧ trimmed 5 s = false) := by
  refine ⟨fun st => ?_, by decide⟩
  cases st <;> decide

theorem test_meets_IntegerStreamsAreExactDotProducts :
    (let s := withUnit (loaded true true .active)
     let o := stream true true
     let m := (s.tile 5).munit 0
     m.queue = [o] ∧ o.running = true ∧ o.tag = some 3 ∧ o.gang = none ∧ o.fmt.wf < 2 ∧ o.inRange 5 = true ∧
       o.str = true ∧ o.m = 1 ∧ o.nextRow = 0 ∧ o.afmt = 0 ∧ o.out < 2 ∧ (m.weights o).rows.length = o.fmt.k ∧
       (∀ r ∈ (m.weights o).rows, r.length = o.fmt.n) ∧ (∀ i < o.acts.len, s.eccAt ((o.acts.row 0 + i) / 32) = .clean) ∧
       (∀ i < o.outs.len, s.eccAt ((o.outs.row 0 + i) / 32) = .clean) ∧ o.acts.meets o.outs = false) ∧
    (let s := withUnit (loaded false true .active)
     let o := stream false true
     ((s.tile 5).munit 0).queue = [o] ∧ o.str = false ∧ o.inRange 5 = true ∧
       ∀ r < o.fmt.k, ∀ i < o.weights.len, s.eccAt ((o.weights.row r + i) / 32) = .clean) := by decide

/-- Tile 5 runs a gang operation that is done. -/
def ganged : State := (running [] id).modTile 5 fun x => { x with gangs := [⟨0, true, 4, 31, 0⟩] }

/-- The delivery of a GANG_START with descriptor `arg` to tile 5. -/
def gangCall (arg : Nat) : Delivery := ⟨3, 0, 7, 0, arg, 0, 1#128 <<< 5, 0, 0⟩

/-- A descriptor in the hamlet store, KIND 0 for unit 0, with WB 15 (16-bit weights), K = N = 1. -/
def gangState : State :=
  let s := running [(.TILE_GANG_BASE, 5, BitVec.ofNat 64 (hamletBase 0))] id
  { s.setBytes (hamletBase 0) (leBytes 8 (2 ^ 60 + 15 * 2 ^ 14)) with deliveries := [gangCall 0] }

theorem test_meets_GangOperationsRunAndSignal :
    (let s := gangState
     let a := s.rf .TILE_GANG_BASE 51 6 5 * 64 + 0 * 64
     let ws := leWords (bytesAt a 64 s)
     s.deliveries = [gangCall 0] ∧ s.dormant (domQuad 5) = false ∧ (s.tile 5).run ≠ .halted ∧
       spaceOf a = .hamlet 0 0 ∧ (∀ i < 64, s.eccAt ((a + i) / 32) = .clean) ∧ fld (wordAt ws 0) 58 57 ≠ 3 ∧
       gangReserved ws = false ∧ gangUnits 5 (wordAt ws 0) = [0] ∧ gangUnitOk 5 0 ws s = true) ∧
    4096 ≤ (gangCall 4096).arg ∧ (gangCall 4095).arg < 4096 ∧
    ((ganged.tile 5).gangs = [⟨0, true, 4, 31, 0⟩] ∧ (ganged.tile 5).matOps = []) := by decide +kernel

/-! ### Time and bells -/

theorem test_meets_RateWritesFollowR47 :
    ((219902326#64).setWidth 32).toInt = 219902326 ∧ 219902326 < ((219902327#64).setWidth 32).toInt ∧
    ((0xF2E48E8A#64).setWidth 32).toInt = -219902326 ∧ State.reset.pending = [] ∧ State.reset.tb.stepGo = false ∧
    State.reset.tb.rem = 0 := by decide

/-- Reset with a slew that has `r` left. -/
def slewing (r : Int) : State := { State.reset with tb := { State.reset.tb with rem := r } }

theorem test_meets_SlewsCorrectExactly :
    (slewing 5).tb.rem ≠ 0 ∧ (slewing 5).tb.rem.natAbs ≤ (slewing 5).tb.slewMax ∧ (slewing 5).tb.stepGo = false ∧
    (slewing (2 ^ 60)).tb.slewMax < (slewing (2 ^ 60)).tb.rem.natAbs ∧
    (State.reset.tb.rate.natAbs ≤ 219902326 ∧ State.reset.tb.slewMax ≤ 219902326 ∧
      State.reset.tb.eff = State.reset.tb.wantEff ∧ State.reset.fh.live = []) := by decide

/-- Where nothing is armed, and nothing waits or drains. -/
theorem calm_slewing (r : Int) : Calm (slewing r) :=
  have bells : ∀ h < 9, ∀ n < 64, State.reset.rb .BELL_CTL 2 h n = false := by decide +kernel
  have parts : ∀ p < 16, State.reset.rf .PART_P_CTL 1 0 p ≠ 1 := by decide
  have fns : ∀ f < 32, State.reset.rf .PART_FN_STAT 1 0 f ≠ 3 := by decide
  ⟨fun h hh n hn hb => absurd ((bells h hh n hn).symm.trans hb) Bool.false_ne_true, rfl, parts, fns⟩

/-- Reset in a lock state at tick `n`. -/
def locking (l : LockState) (n : Nat) : State :=
  { State.reset with tb := { State.reset.tb with lock := l, ticks := n, lockRun := 15 } }

theorem test_meets_LockStatesFollowR52 :
    (∀ l n, (locking l n).tb.lock = l ∧ (locking l n).fh.live = []) ∧
    max 1 ((locking .locked 250000000).rf .TB_LOCK_CFG 63 48) * 125000 ≤
      (locking .locked 250000000).tb.ticks - (locking .locked 250000000).tb.lastAdj ∧
    (locking .locked 249999999).tb.ticks - (locking .locked 249999999).tb.lastAdj <
      max 1 ((locking .locked 249999999).rf .TB_LOCK_CFG 63 48) * 125000 ∧
    max 1 (State.reset.rf .TB_LOCK_CFG 47 40) ≤ (locking .acquiring 0).tb.lockRun + 1 ∧
    ((6553600#64).setWidth 48).toInt.natAbs ≤ State.reset.rf .TB_LOCK_CFG 19 0 * 65536 ∧
    State.reset.rf .TB_LOCK_CFG 39 20 * 65536 < ((65536001#64).setWidth 48).toInt.natAbs :=
  ⟨fun _ _ => ⟨rfl, rfl⟩, by decide⟩

/-- A step of one second back waits, in a lock state, with bell 3 of Belfry 0 armed for partition 0. -/
def stepping (l : LockState) : State :=
  let s := withRegs [(.TB_STEP_SEC, 0, -1), (.BELL_CTL, 0, 0x1004), (.BELL_TIME, 0, 1000)]
  { s with tb := { s.tb with stepGo := true, lock := l } }

/-- R51: the step goes through where the guard is off, and is refused in LOCKED and where the guard holds. -/
theorem test_meets_StepsFollowR51 :
    (1#64).getLsbD 0 = true ∧ (stepping .freerun).tb.stepGo = true ∧ State.reset.tb.stepGo = false ∧
    (after .stepApply (stepping .freerun)).rb .TB_EVT 2 = true ∧ (after .stepApply (stepping .locked)).rb .TB_EVT 2 = true ∧
    (stepping .acquiring).tb.lock = .acquiring ∧ ((stepping .acquiring).unflag .TB_CTL 8).rb .TB_CTL 8 = false := by
  decide +kernel

/-- Reset with a timestamp in the FIFO of port 15, a pulse that is high, and an input edge at tick 0. -/
def pulsing (ticks : Nat) : State :=
  { State.reset with tb := { State.reset.tb with
      ticks := ticks, fsrcHeld := true, ppsEnd := some 1000, ppsInAt := some 0, tsFifo := [(15, [(1, 2)])] } }

theorem test_meets_CapturesPulsesAndTimestamps :
    (pulsing 0).tb.fsrcHeld = true ∧ State.reset.tb.fsrcHeld = false ∧ (pulsing 0).tb.ppsEnd = some 1000 ∧
    State.reset.tb.ppsEnd = none ∧ (pulsing 62499999).tb.ticks - 0 < 62500000 ∧ 62500000 ≤ (pulsing 62500000).tb.ticks - 0 ∧
    (pulsing 0).tb.ppsInAt = some 0 ∧ State.reset.tb.ppsInAt = none ∧ (pulsing 0).tsFifo 15 = [(1, 2)] ∧
    State.reset.tsFifo 15 = [] ∧ (pulsing 0).tb.fsrcAt + 125000000 ≤ (pulsing 125000000).tb.ticks ∧
    (let age (s : State) : Int := (s.tb.now - (BitVec.ofNat 32 ((s.reg .TB_PPSO_CTL).toNat / 2 ^ 32)).toInt * 2 ^ 35) %
       (10 ^ 9 * 2 ^ 37)
     (age (pulsing 0) < 8 * 2 ^ 37 + (pulsing 0).tb.eff ∧ (pulsing 0).tb.ppsAt ≠ some 0) ∧
     ¬ age (pulsing 1) < 8 * 2 ^ 37 + (pulsing 1).tb.eff) := by decide

theorem test_meets_BellsArmUnderTheChecks :
    State.reset.fh.live = [] ∧ (3#64).getLsbD 0 = true ∧ (3#64).getLsbD 1 = true ∧ (1#64).getLsbD 1 = false ∧
    (2#64).getLsbD 1 = true ∧ (State.reset.rb .BELL_CTL 2 8 63 = false) ∧
    ((State.reset.setReg .BELL_CTL 4 8 63).rb .BELL_CTL 2 8 63 = true) ∧ Runs 5 (running [] id) ∧
    (0x40#64).getLsbD 6 = true ∧ (0xBF#64).getLsbD 6 = false ∧
    Refuses 0 0 0x0001000F00000000 0 none (held [(.BELL_CTL, 0, 0x1000)]) = 0 ∧
    Refuses 0 0 0x0001001000000000 0 none (held [(.BELL_CTL, 0, 0x1000)]) = 5 ∧
    Refuses 0 0 0x0001000F00000000 999 none (held [(.BELL_CTL, 0, 0x1000)]) = 5 ∧
    Refuses 0 0 0x0001000F00000000 0 none (held []) = 4 ∧
    Refuses 0 0 0x0001000F00000000 0 (some 1) (held [(.BELL_CTL, 0, 0x1000)]) = 4 ∧
    (let s := State.reset.setReg .BELL_CTL 0x1004 8 63
     s.rb .BELL_CTL 2 8 63 = true ∧ (s.reg .BELL_TIME 8 63).toNat ≤ s.now ∧ s.now < 2 ^ 63 ∧
       (s.rb .BELL_CTL 12 8 63 && s.rf .BELL_CTL 19 16 8 63 == (s.core 5).part.toNat) = true) :=
  ⟨by decide, by decide, by decide, by decide, by decide, by decide, by decide, runs_five, by decide, by decide, by decide,
    by decide, by decide, by decide, by decide, by decide⟩

/-- Bell 0 of Belfry 0 armed for time 0: an EVENT to tile 5, with the period and the number of fires as given. -/
def ringing (per rem : Nat) : State :=
  held [(.BELL_CTL, 0, BitVec.ofNat 64 (0x1004 + rem * 2 ^ 32)), (.BELL_ACT, 0, 0x0008000500000001),
    (.BELL_PERIOD, 0, BitVec.ofNat 64 per)]

theorem test_meets_BellsFireInTurn :
    (ringing 0 0).fh.live = [] ∧
    ((ringing 0 0).rb .BELL_CTL 2 0 0 = true ∧ ((ringing 0 0).reg .BELL_TIME 0 0).toNat ≤ (ringing 0 0).now) ∧
    (∀ m < 64, (ringing 0 0).rb .BELL_CTL 2 0 m = true → m = 0) ∧
    holdsTarget 0 8 5 (ringing 0 0) = true ∧ (ringing 1000 1).rf .BELL_PERIOD 39 0 0 0 = 1000 ∧
    (ringing 1000 1).rf .BELL_CTL 47 32 0 0 = 1 := by decide

/-- An EVENT to tile 5 from a bell of `owner`, bits `arg`. -/
def eventTo (owner : Nat) : Delivery := ⟨8, 0, 7, 5, 6, owner, 1#128 <<< 5, 0, 0⟩

/-- Context 9 of partition 2 is on tile 5, and a delivery is on its way. -/
def contextOn (d : Delivery) (l : List (RegName × Nat × Word)) : State :=
  let s := held ([(.CX_CTL, 9, 0x8000000000020000)] ++ l)
  { (modCx 9 (fun c => { c with swap := 0 }) s).modTile 5 (fun x => { x with run := .running, cx := some 9 }) with
    deliveries := [d] }

theorem test_meets_DeliveriesArePerformedOldestFirst :
    (let s := contextOn (eventTo 2) []
     s.deliveries = [] ++ eventTo 2 :: [] ∧ s.dormant (domQuad 5) = false ∧ (s.tile 5).cx = some 9 ∧ s.cxPart 9 = 2 ∧
       (s.tile 5).run = .running ∧ (s.cx 9).swap ≠ 4 ∧ (s.cx 9).swap ≠ 6) ∧
    (let ahead : Delivery := { eventTo 2 with action := 7, target := 255 }
     let s := { contextOn (eventTo 2) [] with deliveries := [ahead, eventTo 2] }
     s.deliveries = [ahead] ++ eventTo 2 :: [] ∧ ahead.action ≠ (eventTo 2).action ∧ ahead.belfry = (eventTo 2).belfry ∧
       ahead.firedNs = (eventTo 2).firedNs ∧ ahead.action ≠ 10) ∧
    (let s := contextOn (eventTo 0) [(.PART_LEND_LO, 0, 32)]
     s.deliveries = [] ++ eventTo 0 :: [] ∧ s.lent 5 = true) ∧
    (let s := withRegs [(.MBX_CFG, 255, 0x9000000000000000)]
     s.mbxEn 255 = true ∧ s.mbxKind 255 ≠ 0 ∧ s.reg .MBX_DB_MASK 255 = 0) ∧
    (let s := withRegs [(.PWR_DOM_STAT, 0, 2)]
     s.dormant (domQuad 5) = true ∧ s.dormant (domHamlet (5 / 16)) = false ∧ s.pwr.waking.contains (domQuad 5) = false) := by
  decide

/-! ### Fronthaul and coding -/

/-- Words at an offset of tile 5's store. -/
def words (ofs : Nat) (ws : List Nat) (s : State) : State := s.setBytes (tileBase 5 + ofs) (ws.flatMap (leBytes 8))

/-- The table at the start of tile 5's store, as a base register names it. -/
def tableFive : Word := BitVec.ofNat 64 (tileBase 5)

/-- Port 2 enabled in mode 3 with its link up, and a fallback frame in queue 0 of it. -/
def frontPort : State :=
  let s := held [(.FH_PORT_CTL, 2, 0x10003), (.FH_PORT_STAT, 2, 3), (.TB_PORT_PTP, 2, 1), (.FH_PORT_MAC, 2, 0x123456789ABC)]
  let p : FhPort := { FhPort.reset with
    delays := [(255, 7, 0)], queues := [(0, [⟨1, 1, 0, ⟨0, []⟩, 0, 0, 1, .fallback true 5 3 [1, 2], 64, 0, 0⟩])] }
  { modPort 2 (fun _ => p) s with fh := { (modPort 2 (fun _ => p) s).fh with agc := [(70, { Agc.reset with frozen := true, holdEnd := some 0 })] } }

/-- A one-way message of stream 5 with the right revision and length. -/
def oneWay : EcpriHdr := ⟨1, false, 0, 5, 9, true, 0, true⟩

theorem test_meets_FronthaulPortsFramesAndGain :
    (State.reset.rb .FH_PORT_CTL 16 4 = false ∧ (0x10006#64).getLsbD 16 = true ∧
      ∀ q : Fin 16, q ≠ 4 → State.reset.rb .FH_PORT_CTL 16 q = false) ∧
    (frontPort.rb .FH_PORT_CTL 16 2 = true ∧ frontPort.rb .FH_PORT_STAT 1 2 = true ∧ frontPort.fh.live = [] ∧
      (0xFFFF#64).getLsbD 16 = false) ∧
    (let s := held [(.FH_PORT_CTL, 2, 0x10003)]
     s.rb .FH_PORT_CTL 16 2 = true ∧ s.rf .FH_PORT_CTL 2 0 2 = 3 ∧ s.rb .FH_PORT_STAT 1 2 = false) ∧
    ((0x123456789ABC#48).toNat = frontPort.rf .FH_PORT_MAC 47 0 2 ∧ oneWay.rev = 1 ∧ oneWay.c = false ∧ oneWay.lenOk = true ∧
      oneWay.mtype = 0 ∧ oneWay.e = true ∧ oneWay.sub = 0 ∧ 64 ≤ 64 ∧ 9216 ≤ 9216) ∧
    (frontPort.fhPort 2).delays = [((255#8).toNat, 7, 0)] ∧ (State.reset.fhPort 2).delays = [] ∧
    (frontPort.rb .TB_PORT_PTP 0 2 = true ∧ (1#4).toNat < 2 ∧ frontPort.rb .TB_PORT_PTP 12 2 = false ∧
      (frontPort.tsFifo 2).length < 64) ∧
    (let s := { frontPort with tb := { frontPort.tb with tsFifo := [(2, List.replicate 64 (1, 2))] } }
     64 ≤ (s.tsFifo 2).length) ∧
    ((0x4000000000000000#64).toNat / 2 ^ 62 = 1 ∧ (0x8000000000000000#64).toNat / 2 ^ 62 = 2 ∧
      (running [] id).agentPart (.tile 5) = some 0) ∧
    ((frontPort.agcOf 70).frozen = true ∧ (frontPort.agcOf 70).holdEnd = some 0 ∧ 0 ≤ frontPort.now ∧
      (frontPort.agcOf 71).frozen = false) ∧
    (∀ i < 8, Tab.get (fun _ => []) (State.reset.fhPort 2).queues i = []) ∧
    (∃ f fs, Tab.get (fun _ => []) (frontPort.fhPort 2).queues 0 = f :: fs ∧ f.kind = .fallback true 5 3 [1, 2]) ∧
    (frontPort.rb .FH_PORT_CTL 18 2 = false ∧ (frontPort.setReg .FH_PORT_CTL 0x50003 2).rb .FH_PORT_CTL 18 2 = true ∧
      frontPort.tb.lock = .freerun ∧ State.reset.rb .TB_PORT_PTP 0 2 = false ∧ State.reset.rb .TB_PORT_PTP 4 2 = false) := by
  refine ⟨by decide, by decide, by decide, by decide, by decide, by decide, by decide, by decide, by decide, by decide,
    by decide, ⟨_, _, rfl, rfl⟩, by decide⟩

/-- A transmit window of cell 0 with one entry at offset 4096, 1 µs to DECIDE and 2 µs to CLOSE. -/
def txEntry : List Nat := [0, 2000, 1000 * 2 ^ 32 + 65536, tileBase 5 + 4096]

/-- A receive window of cell 0: stream 0, symbols 0 to 13, one PRB. -/
def rxEntry : List Nat := [2 ^ 63 + 13 * 2 ^ 35 + 0xFFFF, 2000, 1, tileBase 5 + 8192]

/-- Cell 0 with one PRB on port 2, and its window table at the start of tile 5's store. -/
def cellUp (td : Nat) (w : List Nat) : State :=
  words 4096 [256, tileBase 5 + 8192, 0, 0] (words 0 w (held [(.FH_PORT_STAT, 2, 2), (.FH_WIN_BASE, 2, tableFive),
    (.FH_WIN_CNT, 2, 1), (.FH_CELL_CFG, 0, BitVec.ofNat 64 (2 ^ 63 + td * 2 ^ 62 + 2 ^ 45 + 2 ^ 32))]))

/-- That window open, with some posts taken, at 2,000 ns. -/
def winOpen (td : Nat) (w : List Nat) (decided : Bool) (posted : List Nat) : State :=
  let s := cellUp td w
  let o : Win := ⟨0, 1, 0, w.map (BitVec.ofNat 64), 0, ⟨s.reg .FH_CELL_CFG 0, []⟩, 1, 0, 0, decided, posted, 0, [], []⟩
  { modPort 2 (fun x => { x with wins := [o] }) s with tb := { s.tb with ticks := 250 } }

def theWin (td : Nat) (w : List Nat) (decided : Bool) (posted : List Nat) : Win :=
  ⟨0, 1, 0, w.map (BitVec.ofNat 64), 0, ⟨(cellUp td w).reg .FH_CELL_CFG 0, []⟩, 1, 0, 0, decided, posted, 0, [], []⟩

/-- An open of window 0 of port 2. -/
def openCall (rx : Bool) : Delivery := ⟨if rx then 6 else 5, 8, 0, 2, 0, 0, 0, 0, 0⟩

theorem test_meets_FronthaulWindowsOpenPostAndClose_open :
    (cellUp 0 txEntry).rb .FH_LEDGER_CFG 63 = false ∧ (cellUp 0 txEntry).fh.live = [] ∧
    (∀ rx : Bool, let e := if rx then rxEntry else txEntry
      let s := cellUp 0 e
      let x := fhReadWords 2 (s.rf .FH_WIN_BASE 51 5 2 * 32 + 0 * 32) 4 s
      x.1 = some (e.map (BitVec.ofNat 64)) ∧ x.2.fh = s.fh ∧ x.2.regs = s.regs ∧
        winBad 2 0 rx (e.map (BitVec.ofNat 64)) x.2 = false ∧ winBad 2 0 (!rx) (e.map (BitVec.ofNat 64)) x.2 = true ∧
        (openCall rx).action = (if rx then 6 else 5) ∧ (openCall rx).target = 2 ∧ (s.fhPort 2).wins = [] ∧
        (s.fhPort 2).pre = []) := by decide

theorem test_meets_FronthaulWindowsOpenPostAndClose_post :
    (let s := winOpen 0 txEntry false []
     let w := theWin 0 txEntry false []
     openWin 2 0 s = some w ∧ Tab.get (fun _ => none) (s.fhPort 2).lastOcc 0 = none ∧ 0 ∉ w.posted ∧ 0 < winExpect w.entry ∧
       w.conf.valid = true ∧
       (let x := fhReadWords 2 (winAddr w.entry + 32 * 0) 4 s
        let ent := (x.1.getD [])
        x.1.isSome = true ∧ (entryOk 2 w.conf ent x.2).1 = true ∧ openWin 2 0 (entryOk 2 w.conf ent x.2).2 = some w)) ∧
    openWin 2 0 (winOpen 0 txEntry true []) = some (theWin 0 txEntry true []) ∧
    (let w := theWin 0 txEntry false [0]
     openWin 2 0 (winOpen 0 txEntry false [0]) = some w ∧ 0 ∈ w.posted) := by decide

theorem test_meets_FronthaulWindowsOpenPostAndClose_receive :
    (let s := winOpen 0 rxEntry false []
     let w := theWin 0 rxEntry false []
     (s.fhPort 2).wins = [w] ∧ s.rb .FH_PORT_STAT 1 2 = true ∧ winMatches w 0 (0, 0, 0) 13 = true ∧
       winMatches w 0 (0, 0, 0) 14 = false ∧ winDyn w.entry = false ∧ bit (wordAt w.entry 0) 59 = false ∧ 0 + 1 ≤ w.nprb) ∧
    (let w := theWin 1 rxEntry false []
     ((winOpen 1 rxEntry false []).fhPort 2).wins = [w] ∧ winMatches w 0 (0, 0, 0) 0 = true ∧ w.conf.isTd = true ∧
       (511 : Nat) < 512 ∧ w.td = []) := by decide

theorem test_meets_FronthaulWindowsOpenPostAndClose_end :
    openWin 2 0 (cellUp 0 txEntry) = none ∧
    (let s := winOpen 0 txEntry false [0]
     let w := theWin 0 txEntry false [0]
     openWin 2 0 s = some w ∧ w.fire + winDec w.entry ≤ s.now ∧ (∀ j < winExpect w.entry, j ∈ w.posted)) ∧
    (let s := winOpen 0 txEntry false []
     let w := theWin 0 txEntry false []
     let x := fhReadWords 2 (winAddr w.entry) 4 (setWin 2 { w with decided := true } s)
     winExpect w.entry = 1 ∧ x.1.isSome = true ∧ x.2.rb .FH_LEDGER_CFG 63 = false ∧ entKind (x.1.getD []) < 2 ∧
       entFb (x.1.getD []) = 0) ∧
    (let s := winOpen 0 txEntry true []
     let w := theWin 0 txEntry true []
     openWin 2 0 s = some w ∧ w.fire + winLen w.entry ≤ s.now ∧ winRx w.entry = false ∧ s.fh.live = []) ∧
    (let w := theWin 0 rxEntry false []
     openWin 2 0 (winOpen 0 rxEntry false []) = some w ∧ winRx w.entry = true ∧
       w.fire + winLen w.entry ≤ (winOpen 0 rxEntry false []).now) := by decide

/-- Partition 0 holds the first segment of hamlet 0 too. A receive window there, and a section of one PRB for it. -/
def hamletWin : Win :=
  { theWin 0 rxEntry false [] with entry := (rxEntry.set 3 (hamletBase 0)).map (BitVec.ofNat 64) }

def rxHamlet : State :=
  (modPort 2 (fun x => { x with wins := [hamletWin] }) (winOpen 0 rxEntry false [])).setReg .PART_HS_OWN 0x80 0 0

def oneSection : Section := ⟨0, 1, 0, 0, 0, 13, false, false, 0, 1, none, [(0, (List.range 24).map fun i => Int.ofNat i)]⟩

theorem test_meets_FronthaulWindowsOpenPostAndClose_completes :
    (∀ rx : Bool, let e := if rx then rxEntry else txEntry
      let s := { cellUp 0 e with deliveries := [openCall rx] }
      let ent := entryAt (s.rf .FH_WIN_BASE 51 5 2 * 32 + 0 * 32) s
      Readable (s.rf .FH_WIN_BASE 51 5 2 * 32 + 0 * 32) 32 s ∧ winBad 2 0 rx ent s = false ∧ openWin 2 0 s = none ∧
        (s.fhPort 2).wins.length < 64) ∧
    (let s := winOpen 0 txEntry false []
     let w := theWin 0 txEntry false []
     let e := entryAt (winAddr w.entry + 32 * 0) s
     Readable (winAddr w.entry + 32 * 0) 32 s ∧ (entryOk 2 w.conf e s).1 = true ∧ entKind e ≠ 2) ∧
    (let s := words 4096 [2 * 2 ^ 62, tileBase 5 + 8192, 0, 0] (winOpen 1 txEntry false [])
     let w := theWin 1 txEntry false []
     let e := entryAt (winAddr w.entry + 32 * 0) s
     openWin 2 0 s = some w ∧ w.conf.valid = true ∧ Readable (winAddr w.entry + 32 * 0) 32 s ∧
       (entryOk 2 w.conf e s).1 = true ∧ entKind e = 2 ∧
       ceilDiv (tdSamples w.conf (slotIds w.conf w.slot).2.2 (entSymbol e)) 2048 = 1) := by
  decide +kernel

theorem test_meets_FronthaulWindowsOpenPostAndClose_samples :
    (let s := rxHamlet
     let w := hamletWin
     let a := rxAddr w (winStream w.entry oneSection.eaxc) 13 0
     s.rb .FH_PORT_STAT 1 2 = true ∧ (s.fhPort 2).wins = [w] ∧ sectionMethod w oneSection = (0, 0) ∧
       winMatches w 0 (0, 0, 0) 13 = true ∧ oneSection.start.toNat + 1 ≤ w.nprb ∧
       (∃ h o, spaceOf a = .hamlet h o ∧ o % 0x2000000 < 0x1FFFFC0) ∧ rangeCheck (some 0) a 48 s = none ∧
       ∀ i < 48, s.eccAt ((a + i) / 32) = .clean) ∧
    (let w := theWin 1 rxEntry false []
     ((winOpen 1 rxEntry false []).fhPort 2).wins = [w] ∧ winMatches w 0 (0, 0, 0) 0 = true ∧ w.conf.isTd = true ∧
       Tab.wf (fun _ => ((70000 : Int), (70000 : Int))) (Tab.get (fun _ => ([] : Tab (Int × Int))) w.td 0) = true) := by
  refine ⟨⟨by decide, by decide, by decide, by decide, by decide, ⟨0, 13 * 48, by decide⟩, by decide +kernel, by decide +kernel⟩,
    by decide +kernel⟩

/-- A polar encode job of 12 bits into 32, data at offset 8192, output at offset 12288. -/
def polarDesc : List Nat := [6 * 2 ^ 60, 0, tileBase 5 + 8192, tileBase 5 + 12288, 0, 12 * 2 ^ 52 + 32 * 2 ^ 36, 0, 0]

/-- An LDPC decode job of 24 bits with a HARQ buffer at offset 16384. -/
def ldpcDesc : List Nat := [2 ^ 60 + 2 ^ 31, 0, tileBase 5 + 8192, tileBase 5 + 12288, tileBase 5 + 16384,
  24 * 2 ^ 43 + 96 * 2 ^ 22, 0, 0]

def job (d : List Nat) (deadline : Nat) (begun fresh : Bool) : CodJob :=
  ⟨4, 0, (d.map (BitVec.ofNat 64)).set 1 (BitVec.ofNat 64 deadline), begun, false, false, fresh, 0, BitVec.allOnes 256, []⟩

/-- Cluster 1 with one job. -/
def coding (j : CodJob) : State := (words 16384 [0, 1] (held [])).setCluster 1 { Cluster.reset with jobs := [j] }

/-- Cluster 1 enabled, with a descriptor in ring 7. -/
def codReady : State :=
  (words 0 polarDesc (held [(.COD_CTL, 1, 1)])).setReg .COD_SQ_BASE tableFive 1 7 |>.setReg .COD_SQ_CFG 0x8000000000000004 1 7
    |>.setReg .COD_SQ_TAIL 1 1 7

/-- The read gave bytes. -/
def gave {α β : Type} (r : Except α (List Byte) × β) : Bool := match r.1 with
  | .ok _ => true
  | .error _ => false

/-- The bytes it gave. -/
def got {α β : Type} (r : Except α (List Byte) × β) : List Byte := match r.1 with
  | .ok bs => bs
  | .error _ => []

theorem test_meets_CodingJobsRunThroughTheirBlocks :
    codReady.dormant 41 = false ∧
    ((held []).agentPart (.tile 5) = some 0 ∧ (held []).agentPart (.host 1) = none) ∧
    (codReady.rf .COD_SQ_TAIL 15 0 1 7 = 1 ∧ codReady.rb .COD_SQ_CFG 63 1 7 = true ∧ codReady.rb .COD_SQ_CFG 63 1 6 = false) ∧
    (let s := codReady
     let r := devRead (whoCod 1) (codRing.descAddr 1 7 s) 64 0 s
     s.rb .COD_CTL 0 1 = true ∧ (s.cluster 1).jobs.length < 256 ∧ codRing.nextRing 1 8 (s.cluster 1).nextRing s = some 7 ∧
       gave r = true ∧ dDecode (leWords (got r)) = false ∧ descBad (leWords (got r)) = false ∧
       descAddress (leWords (got r)) r.2 = false) ∧
    (let j := job ldpcDesc 0 false false
     let s := coding j
     let r := devRead (whoCod 1) (dHarq j.desc) 16 0x12 s
     (s.cluster 1).jobs = [j] ∧ dType j.desc = 1 ∧ dMask j.desc = 0 ∧ dHb j.desc = true ∧ j.waited = false ∧
       gave r = true ∧ bit (wordAt (leWords (got r)) 1) 0 = true) ∧
    (let j := job polarDesc 0 false false
     let s := coding j
     let r := devRead (whoCod 1) (dIn j.desc) (dInLen j.desc) 0x12 s
     dType j.desc = 6 ∧ gave r = true ∧ r.2.cod = s.cod) ∧
    (let j := job ldpcDesc 0 true true
     let s := coding j
     let r := readLlrs 1 j 0 s
     0 < dBlocks j.desc ∧ (j.block 0).combined = false ∧ gave r = true ∧ r.2.cod = s.cod) ∧
    (let j := job polarDesc 2 true true
     0 < dBlocks j.desc ∧ (j.block 0).st = 0 ∧ findJob 1 4 (coding j) = some j ∧ dDeadline j.desc ≠ 0 ∧
       findJob 1 3 (coding j) = none ∧ (coding j).now < dDeadline j.desc) ∧
    (let j := (job polarDesc 2 true true).setBlock 0 { CodBlock.reset with st := 1 }
     let s := { coding j with tb := { State.reset.tb with ticks := 1 } }
     findJob 1 4 s = some j ∧ (j.block 0).st = 1 ∧ (∀ q < dBlocks j.desc, q ≠ 0 → (j.block q).st = 2) ∧
       dDeadline j.desc ≤ s.now) ∧
    (0xFF : Nat) < 256 := by
  refine ⟨by decide, by decide, by decide, by decide, by decide, by decide, ?_, by decide, by decide, by decide⟩
  decide

/-! ### Pages, pile engines and Drovers -/

/-- Partition 3 holds page 7,000,000 in tier 2 and page 5 in tier 1; a command on page `n` waits in its queue. -/
def paged (op n count : Nat) (l : List (RegName × Nat × Word)) : State :=
  setQueue 3 [⟨op, 0, n, count, none⟩] (((held l).setPage 7000000 ⟨.lower, 0, some 3, false, 0, 0⟩).setPage 5
    ⟨.resident, 5, some 3, true, 65535, 0⟩)

theorem test_meets_GranaryCommandsQueueAndRun :
    (State.reset.dormant 48 = false ∧ (31457279#25).toNat + (0#16).toNat + 1 ≤ 31457280 ∧
      ¬ (31457279#25).toNat + (1#16).toNat + 1 ≤ 31457280) ∧
    ((held []).agentPart (.tile 5) = some 0 ∧ (held []).agentPart (.host 0) = none) ∧
    (grnQueue 0 State.reset).length < 64 ∧ 64 ≤ (grnQueue 0 (setQueue 0 (List.replicate 64 ⟨1, 0, 0, 1, none⟩) State.reset)).length ∧
    (∀ q < 17, grnQueue q State.reset = []) ∧
    (let s := paged 1 7000000 2 []
     (∀ t, (s.tile t).run ≠ .held) ∧ s.grn.pendRaise = [] ∧ grnQueue 3 s = [⟨1, 0, 7000000, 2, none⟩] ∧ s.grn.turn ≤ 3 ∧
       (∀ i < 17, i ≠ 3 → grnQueue i s = []) ∧ (s.page 7000000).owner = some 3 ∧ (s.page 7000000).st = .lower ∧
       (s.page 7000000).pin = 0 ∧ canMove s = true ∧ pageUse 3 s < grnQuota 3 s ∧
       victimFor 7000000 0 (some 3) true none s = some 0 ∧ (s.page 0).st = .resident) ∧
    ((paged 4 5 1 []).page 5).pin = 65535 ∧ ((paged 2 6 1 []).page 6).owner ≠ some 3 ∧
    (let m : Move := ⟨7000000, 5, 5, 1, none, none, 0, false, []⟩
     let s := modGrn (fun g => { g with moves := [m] }) (paged 1 7000000 1 [])
     let full := { s with sched := { s.sched with sluice := { s.sched.sluice with served := [(5 * 16 + 3, 1000000000)] } } }
     s.grn.moves = [m] ∧ s.ecc = [] ∧ (s.page m.riser).owner = some 3 ∧ (s.page m.faller).owner = some 3 ∧
       (∀ i : Fin 16, s.rb .GRN_P_STAT 0 i = false) ∧ sluiceOpen 5 3 s = true ∧ sluiceOpen 8 3 s = true ∧
       sluiceOpen 5 3 full = false) := by
  refine ⟨by decide, by decide, by decide, by decide, by decide, ⟨fun t => ?_, by decide⟩, by decide, by decide, by decide⟩
  simp only [paged, setQueue, modGrn, State.setPage, State.tile, held, withRegs, List.foldl, State.setReg, List.append_nil,
    State.reset]
  exact RunState.noConfusion

/-- The prefetch table of partition 0 at the start of tile 5's store, with one entry. -/
def walking (e : List Nat) : State :=
  words 0 e (held [(.GRN_P_PF_CFG, 0, 0x8000000000000004), (.GRN_P_PF_BASE, 0, tableFive)])

/-- `n` pages from page `b` on, pinned in tier 2. -/
def pinnedPages (b n : Nat) : Tab Page := (List.range n).map fun k => (b + k, ⟨.lower, 0, none, false, 1, 0⟩)

theorem pinnedPages_filter (f : Nat × Page → Bool) (b n : Nat) (h : ∀ k, f (k, ⟨.lower, 0, none, false, 1, 0⟩) = false) :
    (pinnedPages b n).filter f = [] := by
  simp [pinnedPages, h]

/-- Partition 3 is to give up page 5, and `n` pages of tier 2 from page `b` on are pinned. -/
def pinnedTier2 (b n : Nat) : State :=
  let s := held [(.GRN_P_STAT, 3, 1), (.GRN_P_QUOTA, 3, 0)]
  { s with grn := { s.grn with pages := (5, ⟨.resident, 5, some 3, true, 0, 0⟩) :: pinnedPages b n } }

theorem firstUnlisted_pinned (b n k m : Nat) (h : b + n < k + m) (hm : b ≤ m) :
    firstUnlisted 1 (b + n) (pinnedTier2 b n) k m = none := by
  induction k generalizing m with
  | zero => rfl
  | succ k ih =>
    unfold firstUnlisted
    split
    · rfl
    · have : pageListed m (pinnedTier2 b n) = true := by
        simp only [pageListed, pinnedTier2, pinnedPages, List.any_cons, List.any_map, List.any_eq_true, Bool.or_eq_true]
        exact .inr ⟨m - b, List.mem_range.mpr (by omega), by simp; omega⟩
      simpa [this] using ih (m + 1) (by omega) (by omega)

/-- Every page of tier 2 is pinned: the `n` there are, from the first, 6,291,456, on. -/
theorem test_meets_GranaryQuotasPrefetchScrubAndLinks_stuck (b n : Nat) (hb : b = 6291456) (hn : b + n = 31457280) :
    (let s := pinnedTier2 b n
     s.grn.reclaimIv = s.now / 10000 ∧ s.rb .GRN_P_STAT 0 3 = true ∧ s.rf .GRN_P_QUOTA 22 0 3 < pageUse 3 s ∧
       s.grn.reclaimed < min 256 (max 1 (s.rf .GRN_RECLAIM 8 0)) ∧ canMove s = true ∧ (∀ q < 17, grnQueue q s = []) ∧
       s.grn.stuck = [] ∧ reclaimPage 3 s = some 5 ∧ counterpart s = none) := by
  have own : ownedPages 3 (pinnedTier2 b n) = [(5, ⟨.resident, 5, some 3, true, 0, 0⟩)] := by
    have : ∀ l : List (Nat × Page), l.filter (fun e => e.2.owner == some 3) = [] →
        List.filter (fun e => e.2.owner == some 3) ((5, ⟨.resident, 5, some 3, true, 0, 0⟩) :: l) =
          [(5, ⟨.resident, 5, some 3, true, 0, 0⟩)] := fun l h => by rw [List.filter_cons_of_pos rfl, h]
    exact this _ (pinnedPages_filter _ b n fun _ => rfl)
  have low : (pinnedTier2 b n).grn.pages.filter (fun e => e.2.st == .lower && e.2.pin == 0) = [] := by
    have := pinnedPages_filter (fun e => e.2.st == .lower && e.2.pin == 0) b n fun _ => rfl
    simp only [pinnedTier2]
    rw [List.filter_cons_of_neg (by decide), this]
  have first := firstUnlisted_pinned b n ((pinnedTier2 b n).grn.pages.length + 1) b
    (by simp [pinnedTier2, pinnedPages]; omega) (Nat.le_refl _)
  have regs : (pinnedTier2 b n).regs = (pinnedTier2 0 0).regs := rfl
  have iv : (pinnedTier2 0 0).grn.reclaimIv = (pinnedTier2 0 0).now / 10000 := by decide +kernel
  refine ⟨iv, ?_, ?_, ?_, ?_, fun q _ => rfl, rfl, ?_, ?_⟩
  · simp only [State.rb, State.reg, regs]
    decide
  · simp only [pageUse, own, State.rf, State.reg, regs]
    decide
  · have h : (pinnedTier2 0 0).grn.reclaimed < min 256 (max 1 ((pinnedTier2 0 0).rf .GRN_RECLAIM 8 0)) := by decide +kernel
    exact h
  · have h : canMove (pinnedTier2 0 0) = true := by decide +kernel
    exact h
  · simp only [reclaimPage, own]
    decide
  · rw [hn] at first
    simp only [counterpart, low]
    rw [← hb, first]
    rfl

theorem test_meets_GranaryQuotasPrefetchScrubAndLinks :
    ((paged 1 5 1 []).rb .GRN_P_DB 63 3 = false ∧ (0#64).toNat % 2 ^ 23 < pageUse 3 (paged 1 5 1 []) ∧
      pageUse 3 (paged 1 5 1 []) ≤ (1#64).toNat % 2 ^ 23) ∧
    (let s := setQueue 3 [] ((paged 1 5 1 [(.GRN_P_STAT, 3, 1), (.GRN_P_QUOTA, 3, 0)]).setPage 5
       ⟨.resident, 5, some 3, true, 0, 0⟩)
     s.grn.reclaimIv = s.now / 10000 ∧ s.rb .GRN_P_STAT 0 3 = true ∧ s.rf .GRN_P_QUOTA 22 0 3 < pageUse 3 s ∧
       s.grn.reclaimed < min 256 (max 1 (s.rf .GRN_RECLAIM 8 0)) ∧ canMove s = true ∧ reclaimPage 3 s = some 5 ∧
       (∀ q < 17, grnQueue q s = []) ∧ s.grn.stuck = [] ∧ counterpart s = some 6291456) ∧
    (let s := paged 1 5 1 [(.GRN_P_STAT, 3, 1)]
     s.grn.turn ≤ 3 ∧ grnQueue 3 s ≠ []) ∧
    ((paged 1 5 1 [(.GRN_P_STAT, 3, 1), (.GRN_P_QUOTA, 3, 1)]).rf .GRN_P_QUOTA 22 0 3 =
      pageUse 3 (paged 1 5 1 [(.GRN_P_STAT, 3, 1), (.GRN_P_QUOTA, 3, 1)])) ∧
    (State.reset.rb .GRN_P_PF_CFG 63 0 = false ∧ (walking [0]).rb .GRN_P_PF_CFG 63 0 = true) ∧
    (∀ kind ∈ [3, 7], let s := walking [2 ^ 63 + kind * 2 ^ 60, 0, 0, 0]
      let r := devRead (whoUnit 7 0 0) (s.rf .GRN_P_PF_BASE 51 5 0 * 32 + (pfWalk 0 s).x * 32) 32 0 s
      let e := leWords (got r)
      gave r = true ∧ r.2.regs = s.regs ∧ r.2.grn = s.grn ∧ bit (wordAt e 0) 63 = true ∧ fld (wordAt e 0) 62 60 = kind ∧
        fld (wordAt e 0) 19 0 ≤ s.rf .GRN_P_PF_CUR 31 0 0 + s.rf .GRN_P_PF_CFG 55 40 0 ∧
        (kind = 3 → cmdOk (pfCmd e 4) = true) ∧ (grnQueue 0 s).length < 64) ∧
    ((walking [1, 0, 0, 0]).rf .GRN_P_PF_CUR 31 0 0 + (walking [1, 0, 0, 0]).rf .GRN_P_PF_CFG 55 40 0 < 1) ∧
    (let s := { withRegs [(.GRN_SCRUB, 0, 0x8000000000000000)] with ecc := [(0, 1)] }
     s.rb .GRN_SCRUB 63 = true ∧ s.grn.scrubWord < 2048 ∧ s.correctable 0 = true ∧ s.eccOf 1 = 0) ∧
    State.reset.grn.t2down = [] := by
  decide

/-- A descriptor of a pile engine with data at offsets 8192, 12288 and 16384: opcode `op`, further bits of words 0 and 5. -/
def engDesc (op w0 w5 : Nat) : List Word := [BitVec.ofNat 64 (op * 2 ^ 58 + w0), BitVec.ofNat 64 (tileBase 5 + 8192),
  BitVec.ofNat 64 (tileBase 5 + 12288), BitVec.ofNat 64 (tileBase 5 + 16384), BitVec.ofNat 64 (2 ^ 24 + 1), BitVec.ofNat 64 w5,
  BitVec.ofNat 64 (tileBase 5 + 20480), 0]

def engCmd (op w0 w5 : Nat) : SeCmd := newCmd 1 0 (.ring 0) (engDesc op w0 w5)

/-- Engine 3 with one command. -/
def engaged (c : SeCmd) : State := (held []).setEngine 3 { Engine.reset with cmds := [c] }

/-- REPSCAT, PAD and KVAPPEND keep more addresses in words 5 to 7. -/
def engAddr5 (op : Nat) : SeCmd := newCmd 1 0 (.ring 0) ((engDesc op 0 (tileBase 5 + 24576)).set 7 0)

/-- What an engine reads and writes in a row: each goes through, and the engines stand. -/
def rowGoes (reads : List (Nat × Nat)) (writes : List (Nat × Nat)) (s : State) : Bool :=
  let r := reads.foldl (fun (x : Bool × State) e => let y := seRead (whoSe 3 0) e.1 e.2 x.2; (x.1 && gave y, y.2)) (true, s)
  let w := writes.foldl (fun (x : Bool × State) e =>
    let y := seWrite (whoSe 3 0) e.1 (List.replicate e.2 0) x.2; (x.1 && y.1.isNone, y.2)) r
  w.1 && w.2.se == s.se

theorem test_meets_PileEnginesRunTheirOpcodes_rows :
    (∀ c ∈ [engCmd 0x01 0 1, engCmd 0x02 0 1], LastRow 3 (eOp c.desc) c (engaged c) ∧
      (let d := c.desc
       (0 : Nat) ≠ 256 ^ eIdxW d - 1 ∧ 0 < eLimit d ∧ rowGoes [(eAddr d 3, eIdxW d), (eAddr d 1, eRowB d)]
         [(eAddr d 2, eRowB d)] (served 3 c (engaged c)) = true)) ∧
    (let c := { engCmd 0x01 0 1 with idx := [1], part := 2 }
     LastRow 3 0x01 c (engaged c) ∧ eLimit c.desc ≤ c.idx.getD c.row 0 ∧ c.part ≠ 0) ∧
    (∀ c ∈ [engCmd 0x08 0 0, engCmd 0x09 0 0], LastRow 3 (eOp c.desc) c (engaged c) ∧
      (let d := c.desc
       eExperts d = 1 ∧ eTokens d = 1 ∧ rowGoes [(eAddr d 1, eScoreB d)] [(eAddr d 2, 8), (eAddr d 3, 4)]
         (served 3 c (engaged c)) = true)) :=
  ⟨fun c hc => by
    simp only [List.mem_cons, List.not_mem_nil, or_false] at hc
    rcases hc with rfl | rfl <;> exact ⟨⟨by decide, by decide, by decide, by decide, by decide⟩, by decide⟩,
   ⟨⟨by decide, by decide, by decide, by decide, by decide⟩, by decide⟩, fun c hc => by
    simp only [List.mem_cons, List.not_mem_nil, or_false] at hc
    rcases hc with rfl | rfl <;> exact ⟨⟨by decide, by decide, by decide, by decide, by decide⟩, by decide⟩⟩

theorem test_meets_PileEnginesRunTheirOpcodes_scatters :
    (let c := engAddr5 0x10
     let d := c.desc
     LastRow 3 0x10 c (engaged c) ∧ 0 < eBufCap d ∧
       rowGoes [(eAddr d 3, 8), (eAddr d 1, eRowB d), (eAddr d 5, 4)] [(eAddr d 5, 4), (eAddr d 2, eRowB d), (eAddr d 6, 4)]
         (served 3 c (engaged c)) = true) ∧
    (let c := engAddr5 0x11
     LastRow 3 0x11 c (engaged c) ∧ rowGoes [(eAddr c.desc 5, 4)] [(eAddr c.desc 5 + 4, 4)] (served 3 c (engaged c)) = true) ∧
    (let c := { engCmd 0x18 0 7 with ent := [(tileBase 5, 0, tileBase 5 + 4096)] }
     LastRow 3 0x18 c (engaged c) ∧ c.ent ≠ [] ∧ tileBase 5 % 32 = 0 ∧
       rowGoes [(tileBase 5 + 4096, eN c.desc * eResB c.desc), (tileBase 5, eN c.desc * 4)] [(tileBase 5, eN c.desc * 4)]
         (served 3 c (engaged c)) = true) ∧
    (let c := engCmd 0x20 (9 * 2 ^ 28 + 2 ^ 26 + 2 ^ 25) 0
     let d := c.desc
     LastRow 3 0x20 c (engaged c) ∧ eAxis d = true ∧ eOf d = 1 ∧ eCols d = 1 ∧
       rowGoes [(eAddr d 2, 1), (eAddr d 1, eSrcB d)] [(eAddr d 3, 2)] (served 3 c (engaged c)) = true) ∧
    (let c := engCmd 0x28 0 1
     let d := c.desc
     LastRow 3 0x28 c (engaged c) ∧ 0 < eLimit d ∧ rowGoes [(eAddr d 3, 16)] [] (served 3 c (engaged c)) = true) :=
  ⟨⟨⟨by decide, by decide, by decide, by decide, by decide⟩, by decide⟩, ⟨⟨by decide, by decide, by decide, by decide, by decide⟩, by decide⟩,
   ⟨⟨by decide, by decide, by decide, by decide, by decide⟩, by decide⟩, ⟨⟨by decide, by decide, by decide, by decide, by decide⟩, by decide⟩,
   ⟨by decide, by decide, by decide, by decide, by decide⟩, by decide⟩

theorem test_meets_PileEnginesRunTheirOpcodes_rest :
    (let c := { engCmd 0x01 0 1 with
       sub := 1, desc := (engCmd 0x01 0 1).desc.set 4 (BitVec.ofNat 64 (127 * 2 ^ 53 + 2 ^ 24 + 1)) }
     ((engaged c).engine 3).cmds = [c] ∧ c.ended = false ∧ c.sub + 1 < seUnits c.desc) ∧
    (let s := engaged (engCmd 0x01 1 1)
     seUnits (engCmd 0x01 1 1).desc = (engCmd 0x01 1 1).sub + 1 ∧ (s.engine 3).cmds = [engCmd 0x01 1 1] ∧ (engCmd 0x01 1 1).row + 1 < seCount (engCmd 0x01 1 1).desc ∧ s.coll.progs = []) ∧
    (State.reset.dormant 46 = false ∧ (held []).agentPart (.tile 5) = some ((held []).rf .SE_SQ_CFG 23 20 3 2)) ∧
    (let c := { engCmd 0x01 0 1 with issuer := .pad 0 0, desc := (engDesc 0x01 0 1).set 6 0 }
     let s := (held []).setEngine 3 { Engine.reset with wait := [c] }
     (s.engine 3).wait = [c] ∧ s.rb .SE_CTL 0 3 = false ∧ eBad c.desc = false ∧
       eAddress c.desc true 0 (s.setEngine 3 { s.engine 3 with wait := [], next := 0 }) = none) ∧
    (let s := (((words 0 ((engDesc 1 0 1).map (·.toNat) |>.set 5 1 |>.set 6 0) (held [(.SE_CTL, 3, 1)])).setReg .SE_SQ_BASE
       tableFive 3 0).setReg .SE_SQ_CFG 0x8000000000000004 3 0).setReg .SE_SQ_TAIL 1 3 0
     let r := seRead (whoSe 3 (s.rf .SE_SQ_CFG 23 20 3 0)) (seRing.descAddr 3 0 s) 64 s
     (s.engine 3).cmds = [] ∧ s.rb .SE_CTL 0 3 = true ∧ seRing.ready 3 0 s = true ∧ gave r = true ∧ r.2.se = s.se ∧
       s.fh.live = [] ∧ r.2.fh = s.fh ∧ eBad (leWords (got r)) = false ∧
       (let q := (r.2.putReg .SE_SQ_HEAD 15 0 (r.2.rf .SE_SQ_HEAD 15 0 3 0 + 1) 3 0).setEngine 3
          { s.engine 3 with next := 0 + 1, seq := (s.engine 3).seq + 1 }
        eAddress (leWords (got r)) false 0 q = none)) ∧
    eBad [0] = true := by decide

/-- The Drover of hamlet 2 for partition 0, at one device, with its areas in tile 5's store. -/
def drover : List (RegName × Nat × Word) := [(.DRV_CTL, 2, 0x8000000000001000), (.DRV_RXAREA, 2, tableFive),
  (.DRV_RETAREA, 2, tableFive)]

/-- A HOME descriptor for one token and one expert; `she` shared experts. -/
def homeDesc (she : Nat) : List Nat :=
  [2 ^ 60 + 2 ^ 55 + she * 2 ^ 45, 0, 256 * 2 ^ 16, tileBase 5 + 8192, tileBase 5 + 12288, 2 ^ 40, tileBase 5 + 16384,
    2 ^ 40 + 7, tileBase 5 + 20480, 0, 0, tileBase 5 + 24576, 8, 0, 3, tileBase 5 + 28672]

/-- A RECV descriptor under STEP 5. -/
def recvDesc : List Nat := [2 * 2 ^ 60 + 512, 5, tileBase 5 + 8192, tileBase 5 + 12288, tileBase 5 + 16384, tileBase 5 + 20480,
  2 ^ 40 + 512, 2 ^ 40, 8]

def recvStep : Recv := newRecv 0 (recvDesc.map (BitVec.ofNat 64))

def homeStep : Home := { newHome ((homeDesc 1).map (BitVec.ofNat 64)) with
  ph := .open, toks := [⟨[⟨0, 0, 0, 1, 0, 0, false⟩], 0, 0, false, none⟩] }

theorem test_meets_DroversTakeStepsAndPosts_posts :
    (let s := held drover
     s.coll.progs = [] ∧ s.agentPart (.tile 5) = some (s.rf .DRV_CTL 19 16 2) ∧ s.rb .DRV_CTL 12 2 = true ∧
       s.dormant (domHamlet 2) = false ∧ xSelf 2 s < xNdev 2 s ∧ s.slot 2 0 = none ∧ homeOf 2 0 0 s = none ∧
       (∀ i < 16, slotEnded 2 i s = false)) ∧
    (∀ d ∈ [homeDesc 0, recvDesc], let s := words 0 d (held drover)
      let r := drvRead 2 (fld tableFive 51 7 * 128) 128 s
      gave r = true ∧ r.2.regs = s.regs ∧ r.2.drv = s.drv ∧ r.2.coll = s.coll ∧
        (d = recvDesc → recvBad 2 (leWords (got r)) r.2 = false ∧ outside 2 (recvRegions 2 (leWords (got r)) r.2) r.2 = false) ∧
        (d ≠ recvDesc → homeBad 2 (leWords (got r)) r.2 = false ∧ outside 2 (homeRegions 2 (leWords (got r)) r.2) r.2 = false)) ∧
    (let d := recvDesc.set 2 0xF00000000000
     let s := words 0 d (held drover)
     let r := drvRead 2 (fld tableFive 51 7 * 128) 128 s
     gave r = true ∧ r.2.regs = s.regs ∧ r.2.drv = s.drv ∧ r.2.coll = s.coll ∧ fld (wordAt (leWords (got r)) 0) 63 60 = 2 ∧
       outside 2 (recvRegions 2 (leWords (got r)) r.2) r.2 = true) ∧
    (let s := words 0 (recvDesc.set 0 (2 * 2 ^ 60 + 512 + 2 ^ 45)) (held drover)
     let r := drvRead 2 (fld tableFive 51 7 * 128) 128 s
     gave r = true ∧ outside 2 (recvRegions 2 (leWords (got r)) r.2) r.2 = false ∧ recvBad 2 (leWords (got r)) r.2 = true) ∧
    recvBad 2 [] (held drover) = true ∧ (held drover).rb .DRV_CQ_CFG 63 2 = false := by
  decide +kernel

theorem test_meets_DroversTakeStepsAndPosts_steps :
    (let s := (held drover).setSlot 2 0 (some (.recv recvStep))
     AwaitsReturn 2 5 0 s ∧ (∀ j < 0, ¬ AwaitsReturn 2 5 j s) ∧ recvStep.padding = false ∧ vRx recvStep.desc = 8 ∧ s.now < 8 ∧
       recvStep.srcs.length < xNdev 2 s) ∧
    (let s := (held drover).setSlot 2 0 (some (.home homeStep))
     homeOf 2 0 0 s = some (0, homeStep) ∧ hShe homeStep.desc ≤ 1 ∧ ¬ (hShe homeStep.desc ≤ 0 ∨ 0 ∈ homeStep.posted) ∧
       hFin homeStep.desc = 8 ∧ (after .ppsOutEdge s).now < 8) :=
  ⟨⟨⟨recvStep, by decide, by decide, rfl, rfl, rfl, by decide⟩, fun j h => absurd h (Nat.not_lt_zero j), by decide⟩,
    by decide⟩

theorem test_meets_DroversTakeStepsAndPosts_arrivals :
    (let s := words 0 [2 ^ 60 + 2 ^ 32, 5] { (held drover).setSlot 2 0 (some (.recv recvStep)) with
       coll := { Coll.reset with areas := [⟨2, false, 0, 0, 0, 0, false⟩] } }
     let v := recorded 2 0 0 s
     let a := areaAddr 2 false 0 0 s
     let r1 := drvRead 2 a 64 v
     let r2 := drvRead 2 (a + 64) 8 r1.2
     let r3 := drvRead 2 (a + 64 + 8 * xSlotRows 2 s) 4 r2.2
     Landed 2 false 0 0 s ∧ (0, 0) ∉ (s.drover 2).arrivals ∧ recvOfSet 2 0 s = some 0 ∧ gave r1 = true ∧
       fld (wordAt (leWords (got r1)) 0) 63 60 = 1 ∧ fld (wordAt (leWords (got r1)) 1) 31 0 = vStep recvStep.desc ∧
       min (xSlotRows 2 s) (fld (wordAt (leWords (got r1)) 0) 44 32) = 1 ∧ gave r2 = true ∧ gave r3 = true ∧
       (∀ r ∈ [r1, r2, r3], r.2.regs = s.regs ∧ r.2.drv = v.drv ∧ r.2.coll = v.coll)) ∧
    (let s := words 0 [2 * 2 ^ 57 + 2 ^ 32, 0, 0, 0, 0, 0, 0, 0, 3] { (held drover).setSlot 2 0 (some (.home homeStep)) with
       coll := { Coll.reset with areas := [⟨2, true, 0, 0, 0, 0, false⟩] } }
     let v := notified 2 true 0 0 s
     let a := areaAddr 2 true 0 0 s
     let r1 := drvRead 2 a 64 v
     let r2 := drvRead 2 (a + 64) 8 r1.2
     Landed 2 true 0 0 s ∧ gave r1 = true ∧ fld (wordAt (leWords (got r1)) 0) 59 57 = 2 ∧
       homeOf 2 (fld (wordAt (leWords (got r1)) 1) 63 48) (fld (wordAt (leWords (got r1)) 0) 31 0) s = some (0, homeStep) ∧
       homeStep.staging = [] ∧ hShe homeStep.desc = 1 ∧ homeStep.posted = [] ∧ hCmode homeStep.desc = 1 ∧
       min (xRetRows 2 s) (fld (wordAt (leWords (got r1)) 0) 44 32) = 1 ∧ gave r2 = true ∧ (got r2).length = 8 ∧
       fld (wordAt (leWords (got r2)) 0) 31 0 = hTbase homeStep.desc ∧ fld (wordAt (leWords (got r2)) 0) 59 54 = 0 ∧
       fld (wordAt (leWords (got r1)) 0) 56 45 = 0 ∧
       (∀ r ∈ [r1, r2], r.2.regs = s.regs ∧ r.2.drv = v.drv ∧ r.2.coll = v.coll)) :=
  ⟨⟨⟨_, List.mem_singleton.mpr rfl, rfl, rfl, rfl, rfl, rfl⟩, by decide⟩,
   ⟨⟨_, List.mem_singleton.mpr rfl, rfl, rfl, rfl, rfl, rfl⟩, by decide⟩⟩

/-! ### Collectives and the fabric -/

/-- The header of a program of `m` members, the first or second of which this is, with two phases and an abort after 1 µs. -/
def progHdr (m self : Nat) : List Nat :=
  [2 ^ 58 + (m - 1) * 2 ^ 32 + self, tileBase 5 + 4096, tileBase 5 + 8192, tileBase 5 + 12288, 1, 0, 0, 0]

/-- Program slot 4 of partition 0, whose program is one operation `opc` in each of two phases. -/
def programmed (m self opc : Nat) (l : List (RegName × Nat × Word)) : State :=
  words 12288 [opc * 2 ^ 60 + 1, 0, 64, 128] (words 8192 [1, 1] (words 4096 [tileBase 5 + 32768, 0, tileBase 5 + 32768, 9]
    (words 0 (progHdr m self) (held ([(.FAB_CP_CTL, 4, 0x8000000000001000), (.FAB_CP_BASE, 4, tableFive)] ++ l)))))

/-- That slot in its run 7, with its operation to issue. -/
def issuing (m self opc : Nat) : State :=
  (programmed m self opc [(.FAB_CP_STAT, 4, 1), (.FAB_CP_EPOCH, 4, 7)]).modProg 4 fun x =>
    { x with hdr := (progHdr m self).map (BitVec.ofNat 64), checked := true, todo := [(0, 1)] }

/-- The operation that the slot reads. -/
def theOp (opc : Nat) : List Word := [opc * 2 ^ 60 + 1, 0, 64, 128].map (BitVec.ofNat 64)

/-- The read of the operation. -/
def opRead (s : State) : Option (List Word) × State :=
  progRead 4 (fld (wordAt (s.prog 4).hdr 3) 51 0 + 0 * 32) 4 s

/-- At `n` ticks. -/
def atTick (n : Nat) (s : State) : State := { s with tb := { s.tb with ticks := n } }

theorem test_meets_CollectiveProgramsRun_phases :
    (let s := programmed 1 0 4 []
     let d : Delivery := ⟨9, 8, 0, 4, 0, 0, 0, 0, 0⟩
     cpOwner 4 s = some 0 ∧ s.agentPart (.tile 5) = some 0 ∧ takeDelivery 9 [d] = some (d, []) ∧ s.dormant 42 = false ∧
       s.dormant 43 = false ∧ cpEn 4 s = true ∧ (s.prog 4).checked = false ∧ cpLive 4 s = false ∧
       (let r := progRead 4 (s.rf .FAB_CP_BASE 51 6 4 * 64) 8 (s.modProg 4 fun x => { x with hdr := [] })
        let hd := r.1.getD []
        let v := ((r.2.modProg 4 fun x => { x with hdr := hd }).setReg .FAB_CP_EPOCH 1 4).modProg 4 fun _ =>
          { Prog.reset with hdr := hd, checked := true }
        let q := progBad 4 v
        let w := progRead 4 (fld (wordAt hd 2) 51 0 + 0 * 8) 1 (q.2.putReg .FAB_CP_STAT 2 0 1 4)
        r.1.isSome = true ∧ r.2.regs = s.regs ∧ pXonly hd = false ∧ s.rb .FAB_CP_DB 63 4 = false ∧ q.1 = false ∧
          q.2.regs = v.regs ∧ q.2.coll = v.coll ∧ w.1.isSome = true ∧ fld (wordAt (w.1.getD []) 0) 15 0 ≠ 0)) ∧
    (let s := issuing 1 0 4
     let w := progRead 4 (fld (wordAt (s.prog 4).hdr 2) 51 0 + 1 * 8) 1 s
     cpLive 4 s = true ∧ (s.prog 4).checked = true ∧ 1 = s.rf .FAB_CP_STAT 21 16 4 + 1 ∧ 1 < pNph (s.prog 4).hdr ∧
       w.1.isSome = true ∧ fld (wordAt (w.1.getD []) 0) 15 0 ≠ 0) ∧
    (let s := programmed 1 0 9 []
     (progBad 4 (s.modProg 4 fun x => { x with hdr := (progHdr 1 0).map (BitVec.ofNat 64) })).1 = true) ∧
    cpEn 4 State.reset = false ∧ bit (0x8000000000000000#64) 63 = true ∧ (State.reset.prog 4).ops = [] := by decide +kernel

theorem test_meets_CollectiveProgramsRun_issue :
    (∀ opc ∈ [1, 2, 3, 4, 5, 6, 7], let s := issuing 1 0 opc
      let r := opRead s
      cpEn 4 s = true ∧ cpState 4 s = 1 ∧ (s.prog 4).ops = [] ∧ (s.prog 4).todo = [(0, 1)] ∧ oOpc (theOp opc) = opc ∧
        r.1 = some (theOp opc) ∧ r.2.regs = s.regs ∧ r.2.coll = s.coll ∧ r.2.sched = s.sched ∧ r.2.now = s.now) ∧
    (let s := issuing 1 0 2
     let q0 := selfBase 4 (popOp 4 (opRead s).2)
     let q1 := (q0.1.getD 0, q0.2)
     let a := devRead (whoProg 4 s) (q1.1 + 0) 2 0x12 q1.2
     let b := devRead (whoProg 4 s) (q1.1 + 64) 2 0x12 a.2
     q0.1.isSome = true ∧ q1.2.regs = s.regs ∧ q1.2.coll = (popOp 4 (opRead s).2).coll ∧ gave a = true ∧ gave b = true ∧ oMember (theOp 2) = pSelf (s.prog 4).hdr ∧
       (devWrite (whoProg 4 s) (q1.1 + 128) (got a) 0x12 b.2).1 = none) ∧
    (let s := issuing 2 1 1
     let r := memberOf 4 (oMember (theOp 1)) s
     r.1.isSome = true ∧ r.2.coll = s.coll ∧ oMember (theOp 1) ≠ pSelf (s.prog 4).hdr) := by decide +kernel

theorem test_meets_CollectiveProgramsRun_ends :
    Unheard 4 (issuing 1 0 7) ∧ Lone 4 (issuing 1 0 7) ∧ cpState 4 (issuing 1 0 7) = 1 ∧
    (((issuing 1 0 7).prog 4).bad = false ∧ treeKids (pMembers ((issuing 1 0 7).prog 4).hdr) 0 = []) ∧
    (let s := issuing 2 1 7
     let t := atTick 31375 s
     pSelf (s.prog 4).hdr ≠ 0 ∧ treeKids (pMembers (s.prog 4).hdr) (pSelf (s.prog 4).hdr) = [] ∧ cpLive 4 t = true ∧
       pXonly (t.prog 4).hdr = false ∧ (t.prog 4).startNs + (pTimeout (t.prog 4).hdr + 250) * 1000 = t.now) ∧
    (let s := atTick 125 (issuing 1 0 7)
     cpLive 4 s = true ∧ pSelf (s.prog 4).hdr = 0 ∧ (s.prog 4).startNs + pTimeout (s.prog 4).hdr * 1000 = s.now) ∧
    (xNdev 0 (issuing 1 0 6) = pMembers ((issuing 1 0 6).prog 4).hdr ∧ xSelf 0 (issuing 1 0 6) = 0) ∧
    (let e : Exchange := ⟨true, 2, 0, 1, 0, [(3, [])], []⟩
     let s := (issuing 1 0 4).modProg 4 fun x => { x with ops := [⟨6, 1, some e⟩], owed := [(true, 1, 3)] }
     (s.prog 4).ops = [⟨6, 1, some e⟩] ∧ s.now < e.atNs + 10000000 ∧ (e.dir, e.set, 3) ∈ (s.prog 4).owed ∧
       e.atNs + 10000000 ≤ (atTick 1250000 s).now) :=
  ⟨⟨by decide, by decide, by decide +kernel⟩, ⟨by decide, by decide⟩, by decide⟩

/-- Port 3 is up. Page 5 belongs to partition 1, whose region 127 with key 9 opens it. Node 7 has been heard as incarnation 1. -/
def fabric (lock : LockState) (x : Peer) : State :=
  let s := (held ([(.FAB_CTL, 0, 0x8000000000000000), (.FAB_PORT_STAT, 3, 1), (.FAB_RGN_BASE, 127, 5), (.FAB_RGN_LIM, 127, 5),
    (.FAB_RGN_KEY, 127, 9), (.FAB_RGN_CTL, 127, 0x8000000000010007), (.PART_P_CTL, 1, 0x8000000000000000)] ++ drover)).setPage 5
      ⟨.resident, 5, some 1, false, 0, 0⟩
  { s.setPeer 7 { x with sinc := some 1 } with tb := { s.tb with lock := lock } }

/-- A header from node 7 for page 5. -/
def hdr7 : PktHdr := { header with key := 9, sinc := 1, addr := 327680 }

def clean : LinkErr := ⟨[]⟩

/-- A difference that the code cannot correct, in data word 1. -/
def spoilt : LinkErr := ⟨[(1, 0x01020304)]⟩

/-- Node 7 has one path, out of port 3. -/
def pathed : Peer := { Peer.reset with paths := [BitVec.ofNat 64 (2 ^ 63 + 3 * 2 ^ 18)], live := [0], unacked := 1 }

theorem for_us : ForUs 3 clean hdr7 (fabric .locked Peer.reset) := ⟨by decide, by decide, by decide, by decide⟩

theorem in_turn : InTurn hdr7 (fabric .locked Peer.reset) :=
  ⟨⟨by decide, by decide, by decide⟩, by decide, by decide⟩

theorem test_meets_FabricTargetsPerformInOrder_turn :
    ForUs 3 clean hdr7 (fabric .locked Peer.reset) ∧ InTurn hdr7 (fabric .locked Peer.reset) ∧
    Carries (.write 3 clean hdr7 (List.replicate 8 0)) 3 clean hdr7 (.write (List.replicate 8 0)) ∧
    (tooOld hdr7 (atTick 50000 (fabric .locked Peer.reset)) = false ∧ tooOld hdr7 (atTick 50001 (fabric .locked Peer.reset)) = true) ∧
    (let h : PktHdr := { hdr7 with words := 1 }
     ForUs 3 spoilt h (fabric .locked Peer.reset) ∧ Timely h (fabric .locked Peer.reset) ∧ dataBad spoilt h = true ∧
       hdrBad ⟨[(0, 0x01020304)]⟩ h = true) ∧
    (formerSinc ((fabric .locked Peer.reset).peer 7) { hdr7 with sinc := 0 } = true ∧
      formerSinc ((fabric .locked Peer.reset).peer 7) { hdr7 with sinc := 2 } = false) ∧
    ((1#8).toNat ≠ (fabric .locked Peer.reset).rf .FAB_INC 7 0) ∧
    (Timely { hdr7 with seq := 0x7FFFFFFF } (fabric .locked Peer.reset) ∧
      (0x7FFFFFFF + 2 ^ 32 - ((fabric .locked Peer.reset).peer 7).expect) % 2 ^ 32 < 2 ^ 31 ∧
      2 ^ 31 ≤ (0x80000000 + 2 ^ 32 - ((fabric .locked Peer.reset).peer 7).expect) % 2 ^ 32) :=
  ⟨for_us, in_turn, .inl ⟨_, rfl, rfl, by decide⟩, by decide,
    ⟨⟨by decide, by decide, by decide, by decide⟩, ⟨by decide, by decide, by decide⟩, by decide, by decide⟩, by decide, by decide,
    ⟨by decide, by decide, by decide⟩, by decide,
    by decide⟩

theorem test_meets_FabricTargetsPerformInOrder_accesses :
    (let s := fabric .locked Peer.reset
     let v := arrived 3 clean hdr7 s
     let w := devWrite (whoFab 3 (some 1)) 327680 (List.replicate 8 0) 0 v
     let r := devRead (whoFab 3 (some 1)) 327680 8 0 v
     let a := devWrite (whoFab 3 (some 1)) 327680 (List.replicate 8 1) 0 r.2
     (∀ kind < 3, regionOwner 7 9 kind 327680 8 v = some 1) ∧ regionOwner 7 8 1 327680 8 v = none ∧
       regionOwner 7 9 1 393216 8 v = none ∧ w.1 = none ∧ w.2.fab = v.fab ∧ gave r = true ∧ r.2.fab = v.fab ∧
       s.syncOk = true ∧ a.1 = none ∧ a.2.fab = v.fab ∧ a.2.now = s.now ∧ s.fab.cache = []) ∧
    (fabric .freerun Peer.reset).syncOk = false ∧
    (let s := fabric .locked pathed
     let h : PktHdr := { hdr7 with dst := 9, p1 := 3 }
     s.fab.peers ≠ [] ∧ h.dst.toNat ≠ ownNode s ∧ h.hop.toNat + 1 ≤ h.hops.toNat ∧ portUp h.p1.toNat s = true ∧
       portUp 4 s = false ∧ (s.peer 7).active = [0] ∧ (s.peer 7).unacked ≠ 0) := by decide +kernel

/-- Slot 4 takes part in run 7, and node 7 is next in order. -/
def joined (ops : List CollOp) : State :=
  ({ fabric .locked Peer.reset with regs := (fabric .locked Peer.reset).regs }.setReg .FAB_CP_CTL 0x8000000000001000 4
    |>.setReg .FAB_CP_STAT 1 4 |>.setReg .FAB_CP_EPOCH 7 4).modProg 4 fun x =>
      { x with hdr := (progHdr 1 0).map (BitVec.ofNat 64), ops := ops }

theorem test_meets_CollectiveMessagesArrive :
    ForUs 3 clean hdr7 (joined []) ∧ InTurn hdr7 (joined []) ∧
    (cpEn 4 (joined []) = true ∧ cpEpoch 4 (joined []) = (7#32).toNat ∧ cpState 4 (joined []) ≠ 4 ∧ cpLive 4 (joined []) = true) ∧
    cpEn 5 (joined []) = false ∧
    (let v := arrived 3 clean hdr7 (joined [])
     let r := devRead (whoFab 3 (some 1)) 327680 8 0x12 v
     let w := devWrite (whoFab 3 (some 1)) 327680 (List.replicate 8 0) 0x12 r.2
     regionOwner 7 9 1 327680 8 v = some 1 ∧ gave r = true ∧ w.1 = none ∧ w.2.fab = v.fab ∧
       (let d := devWrite (whoDrv 2 v) (areaAddr 2 false 0 0 v) (List.replicate 32 1) 0x12 v
        d.1 = none ∧ d.2.fab = v.fab ∧ d.2.coll = v.coll ∧ (2, false, 0, 0) ∉ v.coll.spoiled)) ∧
    Unheard 4 (joined []) ∧ Lone 4 (joined []) ∧ treeKids (pMembers ((joined []).prog 4).hdr) 0 = [] ∧
    (let e : Exchange := ⟨true, 2, 0, 1, 0, [], [3]⟩
     ((joined [⟨6, 1, some e⟩]).prog 4).ops = [⟨6, 1, some e⟩] ∧ e.todo = [] ∧ e.wait = [(3#12).toNat]) :=
  ⟨⟨by decide, by decide, rfl, by decide⟩, ⟨⟨by decide, by decide, by decide⟩, by decide, by decide⟩, by decide, by decide,
    by decide +kernel, ⟨by decide, by decide, by decide +kernel⟩, ⟨by decide, by decide⟩, by decide, by decide⟩

/-- A WRITE to node 7 sent at 0, for partition 1. -/
def outPkt (tag : PktTag) : OutPkt := ⟨0, ⟨hdr7, .write [1], []⟩, some 1, tag, some 0, some 0, 3, false⟩

def sending (tag : PktTag) : State := fabric .locked { pathed with sent := [outPkt tag], toCount := 2 }

/-- Tile 5 waits for a load or an atomic at node 7. -/
def remote (asker : Asker) (w : Wait) : State :=
  let r : RemReq := ⟨11, asker, some 1, 7, 327680, 8, 0, 0, 0, [0], 0, 0, some 0, none⟩
  let s := fabric .locked Peer.reset
  { s with fab := { s.fab with reqs := [r] } }.modCore 5 fun c => { c with wait := w }

theorem test_meets_FabricSendersSendAndRecover_answers :
    (let s := sending .none
     let x := s.peer 7
     hdr7.sinc.toNat ≠ x.dinc ∧ ({ hdr7 with sinc := 0 } : PktHdr).sinc.toNat = x.dinc ∧ x.sent = [outPkt .none] ∧
       (outPkt .none).pkt.hdr.seq = hdr7.seq ∧ (∃ o d, ([outPkt .none] ++ []).find? (fun y : OutPkt => y.pkt.hdr.seq == hdr7.seq) = some o ∧ o.pkt.body = .write d) ∧
       (outPkt .none).posted = true ∧ (outPkt .none).part = some 1 ∧
       s.rb .ERR_DB 63 = false ∧ s.fab.reqs = [] ∧ 3 ≤ (outPkt .none).discards) ∧
    (outPkt (.coll 4 6)).tag = .coll 4 6 ∧
    (let s := remote (.load 5) (.remoteLoad 2 8 false 11)
     s.fab.reqs = [⟨11, .load 5, some 1, 7, 327680, 8, 0, 0, 0, [0], 0, 0, some 0, none⟩] ∧
       (s.core 5).wait = .remoteLoad 2 8 false 11 ∧ (s.core 5).modeM = false) ∧
    (let s := remote (.atomic 5) (.remoteAtomic 2 11)
     s.fab.reqs.map (·.id) = [(11#32).toNat] ∧ (s.core 5).wait = .remoteAtomic 2 11) :=
  ⟨⟨by decide, by decide, rfl, rfl, ⟨_, _, rfl, rfl⟩, by decide⟩, rfl, by decide, by decide⟩

def queuedPkt : QPkt := ⟨⟨hdr7, .write [1], []⟩, 0, 0, 1, some 1⟩

/-- Two packets wait at port 3, in queues 5 and 6. -/
def queued : State := (fabric .locked Peer.reset).setFabPort 3 { FabPort.reset with
  queues := [(5, [queuedPkt]), (6, [{ queuedPkt with pkt := ⟨hdr7, .write [2], []⟩ }])] }

theorem test_meets_FabricSendersSendAndRecover_sends :
    ServedNext 3 5 queuedPkt [] queued ∧ (∀ j d l, ¬ Ready 4 j d l queued) ∧
    (let e : QPkt := { queuedPkt with pkt := ⟨{ hdr7 with src := 0 }, .atomic 1 2 3, []⟩ }
     e.pkt.hdr.src.toNat = ownNode queued ∧ isAtomicBody e.pkt.body = true ∧ (fabric .freerun Peer.reset).syncOk = false) ∧
    ((atTick 125 (sending .none)).peer 7).advAt + rtoNs (sending .none) ≤ (atTick 1250000 (sending .none)).now ∧
    (sending .none).now < ((sending .none).peer 7).advAt + rtoNs (sending .none) ∧
    (((sending .none).peer 7).toPath = 0 ∧ ((sending .none).peer 7).toCount = 2 ∧ (outPkt .none).path = some 0) ∧
    (0 + 2000000 ≤ (atTick 250000 (sending .none)).now ∧ (atTick 249999 (sending .none)).now < 0 + 2000000) ∧
    (let s := atTick 187500 (remote (.atomic 5) (.remoteAtomic 2 11))
     0 + rtoNs s ≤ s.now ∧ s.now = 0 + 1500000 ∧ s.syncOk = true) := by
  refine ⟨⟨⟨by decide, by decide, by decide⟩, ?_, ?_⟩, ?_, by decide, by decide, by decide, by decide, by decide, by decide⟩
  · intro j h4 _ d l h
    have : j = 0 ∨ j = 1 ∨ j = 2 ∨ j = 3 := by omega
    rcases this with rfl | rfl | rfl | rfl <;> exact nomatch h.2.1
  rotate_left
  · exact fun j d l h => nomatch h.2.1
  intro _ j d l h4 ⟨_, hj, _⟩ hne
  have hq : (queued.fabPort 3).queues = [(5, [queuedPkt]), (6, [{ queuedPkt with pkt := ⟨hdr7, .write [2], []⟩ }])] := by
    decide +kernel
  rw [hq] at hj
  have : j = 6 ∨ Tab.get (fun _ => ([] : List QPkt)) [(5, [queuedPkt]),
      (6, [{ queuedPkt with pkt := ⟨hdr7, .write [2], []⟩ }])] j = [] := by
    by_cases h6 : j = 6
    · exact .inl h6
    · exact .inr (by simp [Tab.get, hne.symm, Ne.symm h6])
  rcases this with rfl | h0
  · simp only [Tab.get] at hj; cases hj; decide
  · exact nomatch h0.symm.trans hj

theorem test_meets_PortsTrainPathsUpdateAndSamples :
    (let s := held [(.FAB_PORT_CTL, 3, 0x8000000000000002)]
     s.rb .FAB_PORT_CTL 63 3 = true ∧ s.rf .FAB_PORT_STAT 1 0 3 ≠ 2 ∧ portUp 3 s = false) ∧
    (let s := held [(.FAB_PORT_CTL, 3, 0x8000000000000002), (.FAB_PORT_STAT, 3, 2)]
     s.rb .FAB_PORT_CTL 63 3 = true ∧ s.rf .FAB_PORT_STAT 1 0 3 = 2 ∧ (s.fabPort 3).peer = none) ∧
    (let s := (held [(.FAB_PORT_CTL, 3, 0x8000000000000002), (.FAB_PORT_STAT, 3, 2)]).setFabPort 3 { FabPort.reset with peer := some (1, 1), errAt := some 0 }
     s.rf .FAB_PORT_STAT 1 0 3 = 2 ∧ (s.fabPort 3).peer = some (1, 1) ∧ (1, 1) ≠ ((2#12).toNat, (1#6).toNat) ∧ (s.fabPort 3).errAt = some 0 ∧
       0 + 10000000 ≤ (atTick 1250000 s).now ∧ (atTick 1249999 s).now < 0 + 10000000) ∧
    (let s := (fabric .locked pathed).setReg .FAB_PORT_CTL 2 3 |>.setFabPort 3 { FabPort.reset with errs := 3 }
     portUp 3 s = true ∧ s.rf .FAB_PORT_CTL 15 0 3 = 2 ∧ (s.fabPort 3).errs = 3) ∧
    (let s := fabric .locked pathed |>.setReg .FAB_PATH_BASE tableFive
     let r := devRead (whoFab 0 none) (s.rf .FAB_PATH_BASE 51 5 * 32 + 7 * 32) 32 0 s
     bit (7#64) 63 = false ∧ gave r = true ∧ r.2.regs = s.regs ∧ r.2.fab = s.fab ∧ ∀ o ∈ (s.peer 7).sent, o.path ≠ none) ∧
    (let s := atTick 125 (held [(.FAB_SMP_CFG, 0, 0x8000000000200006), (.FAB_SMP_PORTS, 0, 8), (.FAB_SMP_BASE, 0, tableFive)])
     s.now / 1000 ≠ s.fab.sampled ∧ s.rb .FAB_SMP_CFG 63 = true ∧ (∀ p < 36, s.rb .FAB_SMP_PORTS p = decide (p = 3)) ∧
       (∀ j < 16, s.rb .FAB_SMP_CFG (16 + j) = decide (j = 5)) ∧
       (let t := { s with fab := { s.fab with sampled := s.now / 1000 } }
        let w := devWrite (whoFab 3 none) (s.rf .FAB_SMP_BASE 51 4 * 16) (sampleBytes s.now 3 5 0 0) 0 t
        w.1 = none ∧ w.2.regs = s.regs)) ∧
    (let s := held [(.FAB_SMP_CFG, 0, 0x8000000000200006), (.FAB_SMP_TAIL, 0, 64)]
     2 ^ min 20 (max 6 (s.rf .FAB_SMP_CFG 4 0)) ≤ (s.rf .FAB_SMP_TAIL 31 0 + 2 ^ 32 - s.rf .FAB_SMP_HEAD 31 0) % 2 ^ 32) := by
  decide +kernel

/-! ### Scheduling, partitions, the host link and mailboxes -/

/-- A launch on tile 5 for context 9 of partition 2, with a deadline of 1 µs after its start at 0. -/
def oneLaunch (bell : Bool) (st : PartSt) (start : Option Nat) : Launch :=
  ⟨3, 2, 9, 7, 1, false, false, 6, 0, bell, tileBase 5, 0, 0, 1000, 0, 0, start, [⟨5, st, [], none⟩], []⟩

/-- Tile 5 runs that launch, or has halted. -/
def launched (run : RunState) (f : CoreRegs → CoreRegs) : State :=
  let s := modCx 9 (fun c => { c with swap := 0 }) (held [(.CX_CTL, 9, 0x8000000000020000), (.CX_TILE_LO, 9, 32)])
  let s := s.modTile 5 fun x => { x with run := run, cx := some 9, launch := some 3, core := f x.core }
  { s with sched := { s.sched with launches := [oneLaunch true .running (some 0)] } }

theorem test_meets_KernelsEndWithTheirStatus :
    Runs 5 (running [] id) ∧ ((running [] id).tile 5).stopEnd = none ∧ (running [] id).launch 3 = none ∧
    EndsWith 5 0x7FFF 0 (launched .running fun c => { c with wait := .kend 0x7FFF [] }) ∧
    EndsWith 5 0xC001 0 (launched .running fun c => { c with wait := .kend 0 [], tagErr := 1 }) ∧
    EndsWith 5 0x8003 0 (launched .running fun c => { c with modeM := true, ecause := 3 }) ∧
    EndsWith 5 0x800F 0 (launched .halted id) ∧
    Alone (oneLaunch true .running (some 0)) 5 (launched .running id) ∧
    Alone (oneLaunch true .running (some 0)) 5 (launched .halted id) ∧
    (let s := launched .running id
     (s.tile 5).cx = some 9 ∧ (s.tile 5).launch.isSome = true ∧ (s.tile 5).stopEnd = none ∧ (s.core 5).wait = .none ∧
       (s.core 5).modeM = false ∧ 0 + 1000 ≤ (atTick 125 s).now ∧ ((s.cx 9).records = [] ∧ cqFull 9 s = false)) :=
  ⟨runs_five, by decide, by decide, .inl ⟨by decide, ⟨0x7FFF, [], by decide⟩, rfl⟩, .inl ⟨by decide, ⟨0, [], by decide⟩, rfl⟩,
    .inr (.inl (by decide)), .inr (.inr (by decide)), ⟨rfl, rfl, by decide, rfl, by decide, by decide, rfl⟩,
    ⟨rfl, rfl, by decide, rfl, by decide, by decide, rfl⟩, by decide⟩

/-- An image of tile 5, as it was saved in context 9. -/
def savedImage : Image := ⟨{ CoreRegs.reset with modeM := true }, [], 0, [], 9, 3⟩

theorem test_meets_TileResetsEventsAndSaves :
    (let s := held []
     (1#64).getLsbD 0 = true ∧ s.enabled 5 = true ∧ (s.tile 5).launch = none ∧ (s.tile 5).units = [] ∧ (s.tile 5).cx = none ∧
       (s.tile 5).saved = none ∧ (s.tile 5).hist = [] ∧ s.agentPart (.host 1) = none ∧ State.reset.enabled 5 = false) ∧
    (let s := launched .running id
     s.dormant (domQuad 5) = false ∧ (s.cx 9).swap = 0 ∧ s.cxPart 9 ≠ 0) ∧
    (let s := launched .saving id
     (s.tile 5).run = .saving ∧ (s.cx 9).swap ≠ 4 ∧ (s.core 5).wait = .none ∧ (s.tile 5).stopReq = none ∧
       (s.tile 5).waiting = []) ∧
    (let s := (launched .restoring id).modTile 5 fun x => { x with saved := some savedImage }
     (s.tile 5).saved = some savedImage ∧ (s.tile 5).run = .restoring ∧ (s.cx savedImage.cx).swap = 0) := by decide

/-- The kernel table of partition 2, in page 5: one entry of class 1 for context 9. -/
def kernels : State :=
  let s := (launched .idle id).modTile 5 fun x => { x with cx := none, launch := none }
  let s := ((s.setReg .PART_P_CTL 0x8000000000000000 2).setReg .PART_P_KTAB 327680 2).setReg .PART_P_TILE_LO 32 2
  { s.setPage 5 ⟨.resident, 5, some 2, false, 0, 0⟩ with sched := { s.sched with launches := [] } }.setBytes 327680
    ([2 ^ 63 + 2 ^ 61 + 64, 0, 0, 0, 9].flatMap (leBytes 8))

theorem vacant_five : Vacant 5 kernels := ⟨by decide, by decide, by decide, by decide, by decide, by decide⟩

theorem test_meets_LaunchesStartAndContextsSwap_launch :
    (let d : Delivery := ⟨2, 0, 0, 0, 0, 2, 1#128 <<< 5, 40, 40⟩
     let r := readEntry d.owner d.arg kernels
     let ws := r.1.getD []
     r.1.isSome = true ∧ r.2.1 = none ∧ entCx ws = 9 ∧ cxOk d.owner 9 r.2.2 = true ∧ inMask (r.2.2.cxTiles 9) 5 = true ∧
       entNdecl ws = 0 ∧ partStopped d.owner r.2.2 = false ∧ (r.2.2.cx 9).swap = 0 ∧ r.2.2.sched.launches = [] ∧
       r.2.2.tiles = kernels.tiles) ∧
    Vacant 5 kernels ∧
    (let l := oneLaunch false .waiting none
     let s := { kernels with sched := { kernels.sched with launches := [l] } }
     s.sched.launches = [l] ∧ l.ndecl = 0 ∧ l.part ≠ 0 ∧ s.holdsTile l.part 5 = true) ∧
    (∀ v, (kernels.tile v).waiting = [] ∧ (kernels.tile v).saved = none ∧ (kernels.tile v).redeliver = []) := by
  refine ⟨by decide, vacant_five, by decide, fun v => ?_⟩
  have h : kernels.tiles = [] := by decide
  simp only [State.tile, h, Tab.get]
  decide

theorem test_meets_LaunchesStartAndContextsSwap_contexts :
    (let s := held [(.CX_CTL, 9, 0x8000000000000000)]
     s.agentPart (.tile 5) = some (s.cxPart 9) ∧ s.agentPart (.host 1) ≠ some (s.cxPart 9) ∧
       (16 + 65536 - s.rf .CX_CQ_HEAD 15 0 9) % 65536 ≤ 2 ^ min 12 (max 4 (s.rf .CX_CTL 3 0 9)) ∧ (s.cx 9).records = []) ∧
    (let s := modCx 9 (fun c => { c with swap := 4 }) (held [])
     (s.cx 9).swap = 4 ∧ ∀ t < 128, (s.tile t).cx = none) ∧
    (let s := modCx 9 (fun c => { c with swap := 6, images := [(5, savedImage)] })
       (held [(.CX_TILE_LO, 9, 32), (.CX_CTL, 9, 0x8000000000000000)])
     s.cxTiles 9 = 1#128 <<< 5 ∧ (s.cx 9).images = [(5, savedImage)] ∧
       (let w := (modCx 9 (fun x => { x with swap := 0, stored := false, images := [], waite := 0 }) s).setReg .CX_EVT 0 9
        gave (devRead (whoUnit 0 0 0) (tileBase 5) (32768 + s.rf .CX_TS 21 16 9 * 65536) 0x006 w) = true)) ∧
    (let s := (launched .running id).modTile 6 fun x => { x with saved := some savedImage, cx := some 1 }
     (s.tile 6).saved = some savedImage ∧ (s.tile 6).cx.isSome = true ∧
       (s.tile 6).savedAt + max 1 (s.rf .PART_CTL 31 16) * 1000 ≤ (atTick 6250 s).now) := by decide +kernel

/-- Address 64 of device 7 in the fabric window. -/
def windowSeven : Nat := 0x1000000000000 + 7 * 2 ^ 41 + 64

/-- Channel 3 of partition 2: its descriptor in page 5 moves 32 bytes within the page. -/
def moving (ws : List Nat) (run : Option DmaRun) (queue : List Nat) : State :=
  let s := (held [(.PART_DMA_CTL, 3, 0x8000000000020000), (.PART_DMA_BASE, 3, 327680), (.PART_P_CTL, 2, 0x8000000000000000),
    (.PART_FN_STAT, 0, 1), (.HL_STAT, 0, 0x8000000000000308)]).setPage 5 ⟨.resident, 5, some 2, false, 0, 0⟩
  (modDma 3 (fun _ => ⟨queue, run⟩) s).setBytes 327680 (ws.flatMap (leBytes 8))

def moveDesc (hdir : Nat) : List Nat := [2 ^ 63 + hdir * 2 ^ 61 + 32, 328704, 329728]

def moveRun (hdir : Nat) (wrote : Option Nat) : DmaRun := ⟨0, (moveDesc hdir).map (BitVec.ofNat 64), 32, [], [], 0, wrote, none⟩

theorem test_meets_PartitionsFunctionsAndDma_dma :
    (let s := moving (moveDesc 0) none []
     (∀ ag, ag = Agent.host 1 → s.agentPart ag ≠ some (dmaOwner 3 s)) ∧
       takeDelivery 4 [⟨4, 8, 0, 3, 65535, 2, 0, 0, 0⟩] = some (⟨4, 8, 0, 3, 65535, 2, 0, 0, 0⟩, []) ∧
       s.rb .PART_DMA_CTL 63 3 = true ∧ s.rf .PART_P_CTL 1 0 (dmaOwner 3 s) = 0 ∧ (s.dmaCh 3).queue.length < 16) ∧
    (∀ hdir < 3, let s := moving (moveDesc hdir) none [0]
      let r := devRead (whoDma 3 s) (s.rf .PART_DMA_BASE 51 5 3 * 32) 32 0x13 (modDma 3 (fun x => { x with queue := [] }) s)
      let ws := leWords (got r)
      gave r = true ∧ r.2.regs = s.regs ∧ r.2.hl = s.hl ∧ mHdir ws = hdir ∧ mLen ws = 32 ∧ mSrc ws % 32 = 0 ∧ mDst ws % 32 = 0 ∧
        inWindow (mSrc ws) = false ∧ s.rf .PART_FN_STAT 1 0 (dmaFn 3 s) = 1 ∧ s.rb .HL_STAT 63 = true ∧ s.dormant 45 = false ∧
        s.hl.reads = [] ∧ mSrc ws % 4096 + mLen ws ≤ 4096) ∧
    (let s := moving [] none [0]
     let r := devRead (whoDma 3 s) (s.rf .PART_DMA_BASE 51 5 3 * 32) 32 0x13 (modDma 3 (fun x => { x with queue := [] }) s)
     gave r = true ∧ bit (wordAt (leWords (got r)) 0) 63 = false) := by
  refine ⟨⟨fun ag h => by subst h; decide, by decide⟩, ?_⟩
  decide +kernel

theorem test_meets_PartitionsFunctionsAndDma_ends :
    (∀ hdir ∈ [0, 2], let x := moveRun hdir none
      let s := moving [] (some x) []
      let d := dmaTake 3 x 0 32 s
      let w := dmaLocal 3 x 1 0 s
      (s.dmaCh 3).run = some x ∧ bit (wordAt x.ws 0) 60 = false ∧ bit (wordAt x.ws 0) 49 = false ∧ dmaOwner 3 s ≠ 0 ∧
        dmaReady x = true ∧ dmaArrives x = false ∧ mLen x.ws = 32 ∧ d.1.length = 32 ∧ d.2.1 = 0 ∧ d.2.2.regs = s.regs ∧
        d.2.2.sched.dma = s.sched.dma ∧ inWindow (mDst x.ws) = false ∧ mDst x.ws % 4096 + mLen x.ws ≤ 4096 ∧
        w.1 = 0 ∧ w.2.sched.dma = s.sched.dma ∧ dmaOwner 3 w.2 ≠ 0) ∧
    (let s := moving [] (some (moveRun 0 none)) []
     let q := devRead (whoDma 3 s) (mSrc (moveRun 0 none).ws) 32 0x13 s
     let w := devWrite (whoDma 3 q.2) (mDst (moveRun 0 none).ws) (got q) 0x13 q.2
     gave q = true ∧ w.1 = none ∧ w.2.sched.dma = s.sched.dma ∧ dmaOwner 3 w.2 ≠ 0) ∧
    (let s := { moving [] (some (moveRun 0 none)) [] with ecc := [(328704 / 32, 0x01020304)] }
     let q := devRead (whoDma 3 s) (mSrc (moveRun 0 none).ws) 32 0x13 s
     gave q = false ∧ q.2.sched.dma = s.sched.dma ∧ dmaOwner 3 q.2 ≠ 0) ∧
    dmaReady (moveRun 1 none) = false ∧
    (let x : DmaRun := { moveRun 0 none with ws := (moveRun 0 none).ws.set 2 (BitVec.ofNat 64 windowSeven) }
     let s := moving [] (some x) [] |>.setReg .FAB_RACK_PRESENT 128 |>.setReg .FAB_P_KEY 0x8000000000000000 2
     let d := dmaTake 3 x 0 32 s
     inWindow (mDst x.ws) = true ∧ dmaReady x = true ∧ (windowUse (some (dmaOwner 3 s)) (mDst x.ws) s).toOption = some (7, 64) ∧
       7 ≠ ownNode s ∧ d.1.length = 32 ∧ d.2.1 = 0 ∧ d.2.2.regs = s.regs ∧ d.2.2.sched.dma = s.sched.dma ∧ d.2.2.fab = s.fab) ∧
    dmaWaits 3 (moving [] (some { moveRun 0 none with wrote := some 0 }) []) = false ∧
    (let s := moving [] (some { moveRun 0 none with wrote := some 0 }) []
     dmaWaits 3 (s.setPeer 7 { Peer.reset with sent := [outPkt (.dma 3)] }) = true) := by
  decide +kernel

/-- Partitions 1 and 2 exist, and 2 holds tile 5; nothing works for them. -/
def twoParts : State := withRegs [(.PART_P_CTL, 1, 0x8000000000000000), (.PART_P_CTL, 2, 0x8000000000000000),
  (.PART_P_TILE_LO, 2, 32)]

theorem nothing_of_one : NothingOf 1 twoParts :=
  ⟨by decide +kernel, by decide +kernel, by decide, ⟨by decide, fun _ => rfl⟩, by decide +kernel, by decide⟩

theorem test_meets_PartitionsFunctionsAndDma_setup :
    (let s := { twoParts with sched := { twoParts.sched with sluice := { twoParts.sched.sluice with
       window := 7, heldF := [(11 * 16 + 15, true)] } } }
     s.now / 1000 ≠ s.sched.sluice.window ∧ s.sched.sluice.heldF = [(11 * 16 + 15, true)]) ∧
    (∃ q < 16, q ≠ 1 ∧ twoParts.partValid q = true ∧ twoParts.partTiles q &&& mask128 32 0 ≠ 0) ∧
    (¬ ∃ q < 16, q ≠ 1 ∧ twoParts.partValid q = true ∧ twoParts.partTiles q &&& mask128 64 0 ≠ 0) ∧
    NothingOf 1 twoParts ∧ twoParts.rf .PART_P_CTL 1 0 1 = 0 ∧ (∀ c < 32, dmaOwner c twoParts ≠ 1) ∧ twoParts.se = [] ∧
    (∀ e < 32, dmaOwner e (moving [] (some (moveRun 0 none)) []) = 2 ↔ e = 3) ∧
    (let s := withRegs [(.CX_CTL, 9, 0x8000000000020000)]
     s.cxValid 9 = true ∧ cxState 9 s = 5 ∧ s.cxValid 8 = false ∧ slotsUsed s < 64) ∧
    (let s := withRegs [(.PART_FN_STAT, 31, 1)]
     fnState 31 s = 1 ∧ ∀ m < 256, s.mbxKind m ≠ 2 ∨ s.rf .MBX_CFG 56 52 m ≠ 31) ∧
    (let s := withRegs [(.PART_FN_STAT, 31, 2)]
     s.rf .PART_FN_STAT 1 0 31 = 2 ∧ (∀ c < 256, s.cxValid c = true → s.rf .CX_CTL 52 48 c ≠ 31) ∧
       (∀ c < 32, dmaFn c s ≠ 31) ∧ s.fnPart 31 = none) :=
  ⟨by decide, ⟨2, by decide⟩, by decide, nothing_of_one, by decide, by decide, by decide, by decide, by decide, by decide +kernel,
    by decide +kernel⟩

/-- Function 7 is enabled for source 0x0700 and bound to partition 0; the link is up; its mailbox is 255. -/
def hosted : State := held [(.PART_FN_STAT, 7, 1), (.PART_FN_SRC, 7, 0x0700), (.PART_FN_CTL, 7, 0x1000),
  (.HL_STAT, 0, 0x8000000000000308), (.MBX_CFG, 255, 0xA070000000000000), (.MBX_STAT, 255, 0x2000000000000000),
  (.MBX_DB, 255, 1), (.MBX_DB_MASK, 255, 0xFFFFFFFE)]

theorem test_meets_HostLinkAndMailboxes_host :
    (let s := hosted
     s.rb .ERR_DB 63 = false ∧ s.rf .PART_FN_STAT 1 0 7 = 1 ∧ s.rf .PART_FN_SRC 15 0 7 = (0x0700#16).toNat ∧ s.fnPart 7 = some 0 ∧
       spaceOf (tileBase 5) = .tile 5 0 ∧ gave (devRead ⟨5, 7, some 0⟩ (tileBase 5) 1 0 s) = true ∧
       gave (devRead ⟨5, 7, some 0⟩ (hamletBase 0) 1 0 s) = false ∧
       (devWrite ⟨5, 7, some 0⟩ (tileBase 5) [1] 0 s).1 = none ∧ (devWrite ⟨5, 7, some 0⟩ (hamletBase 0) [1] 0 s).1.isSome = true ∧
       (devWrite ⟨5, 7, some 0⟩ (hamletBase 0) [1] 0 s).2.rb .ERR_DB 63 = false ∧ fnState 8 s ≠ 1 ∧ fnState 8 s ≠ 2 ∧
       spaceOf 0x1000000000000 = .fabric 0 0) ∧
    fnState 7 (withRegs [(.PART_FN_STAT, 7, 2)]) = 2 := by decide +kernel

/-- A read of channel 3 is in flight. -/
def reading : State :=
  let s := moving [] (some (moveRun 1 none)) []
  { s with hl := { s.hl with reads := [⟨4, 0, 3, 0, 32, 0⟩] } }

theorem test_meets_HostLinkAndMailboxes_link :
    hosted.rb .HL_STAT 63 = true ∧ State.reset.rb .HL_STAT 63 = false ∧
    (let s := withRegs [(.HL_CTL, 0, 0x8000000000000003)]
     s.rb .HL_CTL 63 = true ∧ s.dormant 45 = false ∧ (3#2).toNat ≤ (if s.rf .HL_CTL 1 0 = 2 then 2 else 3) ∧
       s.hl.tryAt + 10000000 ≤ (atTick 1250000 s).now) ∧
    (reading.hl.reads = [⟨4, 0, 3, 0, 32, 0⟩] ∧ (reading.dmaCh 3).run = some (moveRun 1 none) ∧
      (∀ c < 32, c ≠ 3 → (reading.dmaCh c).run = none) ∧ mLen (moveRun 1 none).ws ≤ (moveRun 1 none).next ∧
      reading.rb .ERR_DB 63 = false ∧
      0 + min 10000 (max 1 (reading.rf .HL_CFG 15 0)) * 1000 ≤ (atTick 1250000 reading).now) ∧
    (∀ m < 256, ¬ (State.reset.mbxKind m = 2 ∧ State.reset.rf .MBX_CFG 56 52 m = 7)) ∧
    (∀ m < 256, (hosted.mbxKind m = 2 ∧ hosted.rf .MBX_CFG 56 52 m = 7) ↔ m = 255) ∧
    (mbxSender 255 hosted).noteEn = false := by decide +kernel

theorem test_meets_HostLinkAndMailboxes_mailboxes :
    (hosted.dormant 48 = false ∧ hosted.mbxKind 255 = 2 ∧ hosted.mbxEn 255 = true ∧ hosted.rb .MBX_STAT 61 255 = true ∧
      bit (0x0000007FFFFFFFFF#64) 63 = false ∧ bit (0x7FFFFFFFFF#64) 39 = false) ∧
    (hosted.mbxKind 254 = 0 ∧ hosted.rb .MBX_ACL (16 + 7) 255 = false) ∧
    Receives (.host 7) 255 hosted ∧ ¬ Receives (.host 8) 255 hosted ∧ hosted.rb .MBX_CFG 63 255 = true ∧
    State.reset.rb .MBX_CFG 63 255 = false ∧ (3 : Nat) < 4 :=
  ⟨by decide, by decide, .inr (.inr ⟨7, rfl, by decide, by decide⟩), fun h => by
    rcases h with h | ⟨t, h, _⟩ | ⟨f, h, _, h2⟩
    · exact nomatch h
    · exact nomatch h
    · cases h; revert h2; decide, by decide, by decide, by decide⟩

/-! ### Power, resets, versions, firmware and health -/

/-- Quad 1 of hamlet 0 may sleep: REQ is set, and it has been quiet since tick 0. -/
def sleepy (d ticks : Nat) : State :=
  atTick ticks (withRegs [(.PWR_DOM_REQ, 0, 1#64 <<< d), (.DEV_TILEMAP_LO, 0, BitVec.allOnes 64)])

theorem test_meets_PowerResetsAndVersions_domains :
    (∀ d ∈ [1, 40, 45], (sleepy d 125).rb .PWR_DOM_REQ d = true ∧ (sleepy d 125).dormant d = false ∧
      domHeld d (sleepy d 125) = false) ∧
    max 1 ((sleepy 1 125).rf .PWR_IDLE 31 0) = 8 * ((sleepy 1 125).tb.ticks - 0) ∧
    8 * ((sleepy 1 124).tb.ticks - 0) < max 1 ((sleepy 1 124).rf .PWR_IDLE 31 0) ∧
    (let s := withRegs [(.PWR_DOM_STAT, 0, 2)]
     let s := { s with pwr := { s.pwr with waking := [1] } }
     s.dormant 1 = true ∧ 1 ∈ s.pwr.waking ∧ s.dormant (32 + 1 / 4) = false ∧
       (∀ i < 4, (s.tile (4 * 1 + i)).launch = none) ∧ (bit (0#64) 1 = false)) := by decide

/-- A device record of the wrong length is refused: its SEQ, 0, is below REC_MIN. -/
def noRecord : State := { State.reset with sec := { Sec.reset with recMin := 2 ^ 32 } }

theorem record_refused (bs : List Byte) (s : State) (h : 2 ^ 32 ≤ s.sec.recMin) : recordOk bs s = false := by
  have : ¬ s.sec.recMin ≤ recordSeq (leWords bs) := by
    have : recordSeq (leWords bs) < 2 ^ 32 := by
      unfold recordSeq fld
      exact Nat.mod_lt _ (by decide)
    omega
  simp [recordOk, this]

/-- A record that passes cannot be shown: whether a signature verifies is an open function of Config. The statement says both
what a good record gives and what a bad one does. -/
theorem test_meets_PowerResetsAndVersions_resets :
    (∀ e < 48, bit (4#64) e = (e == 2)) ∧ (∀ i < 4, (State.reset.tile (4 * 2 + i)).launch = none) ∧
    (State.reset.cluster 1).jobs = [] ∧ State.reset.fh.live = [] ∧ (∀ d < 48, bit (0#64) d = false) ∧
    recordOk (flashBytes 0 8192 noRecord) noRecord = false ∧
    ((∀ m < 256, State.reset.mbxKind m = 1 → State.reset.rb .MBX_STAT 63 m = false) ∧ State.reset.sec.record = [] ∧
      (∀ f < 32, 0 < f → State.reset.rb .PART_FN_CTL 63 f = false) ∧ State.reset.rb .HL_STAT 63 = false) :=
  ⟨by decide, by decide, by decide, by decide, by decide, record_refused _ _ (by decide), by decide +kernel⟩

theorem test_meets_PowerResetsAndVersions_governor :
    State.reset.rb .ERR_DB 63 = false ∧
    (let s := withRegs [(.PWR_GOV, 0, 0x8000000000000001)]
     let s := { s with pwr := { s.pwr with unmetUs := 999 } }
     s.rb .PWR_GOV 63 = true ∧ s.rf .PWR_GOV_STAT 6 0 = 0 ∧ s.rf .PWR_LIMIT 10 0 = 1300 ∧ s.pwr.unmetUs = 999) ∧
    (let s := withRegs [(.PWR_THERM, 0, BitVec.ofNat 64 (97 * 2 ^ 48 + 105 * 256 + 100))]
     s.rf .PWR_THERM 55 48 + 3 ≤ s.rf .PWR_THERM 7 0) ∧
    (let s := withRegs [(.PWR_THERM, 0, BitVec.ofNat 64 (98 * 2 ^ 48 + 105 * 256 + 100))]
     s.rf .PWR_THERM 55 48 < s.rf .PWR_THERM 7 0 ∧ s.rf .PWR_THERM 7 0 < s.rf .PWR_THERM 55 48 + 3) ∧
    (withRegs [(.PWR_PMB_CFG, 0, 0x8000000000000000)]).rb .PWR_PMB_CFG 63 = true ∧ -10 ≤ State.reset.pwr.gain := by decide

/-- The start of an image at a page that the steward can read: the end mark. -/
def staged (st ver arg : Nat) (b : Bank) : State :=
  let s := withRegs [(.DEV_CFG_STAT, 0, BitVec.ofNat 64 (ver * 2 ^ 32 + st)), (.DEV_CFG_CUR, 0, 0x500000004)]
  { s with ver := { s.ver with inactive := b }, deliveries := [⟨10, 8, 0, 0, arg, 0, 0, 0, 0⟩] }

/-- No bell is due, as a check over the table of bells. -/
abbrev NoneDueTable (s : State) : Prop :=
  ∀ h < 9, ∀ n < 64, ¬ (s.rb .BELL_CTL 2 h n = true ∧ (s.reg .BELL_TIME h n).toNat ≤ s.now)

theorem none_due (s : State) (h : NoneDueTable s) : NoneDue s := fun b hb n hn ha =>
  Nat.lt_of_not_le fun hl => h b hb n hn ⟨ha, hl⟩

theorem test_meets_PowerResetsAndVersions_versions :
    ((staged 1 7 7 .empty).rf .DEV_CFG_STAT 2 0 = 1 ∧ (readImage 1 (staged 1 7 7 .empty).ver.image .empty (staged 1 7 7 .empty)).1
      = some .empty) ∧
    ((staged 3 0 7 .empty).rf .DEV_CFG_CUR 31 0 ≠ 0 ∧ (staged 3 0 7 .empty).ver.due ≤ (staged 3 0 7 .empty).now) ∧
    (let b : Bank := ⟨[(addrOf .FH_SFN_OFFSET 0 0, 9)], [⟨8, 63, 1, 0, 0, 0, 1⟩], []⟩
     let s := staged 2 7 7 b
     s.rb .ERR_DB 63 = false ∧ s.rb .DEV_CFG_DB 63 = false ∧ s.fh.live = [] ∧ NoneDueTable s ∧
       (¬ ∃ e ∈ s.deliveries, e.firedNs = 0 ∧ e.action ≠ 10) ∧
       (∃ e ∈ { eventTo 2 with firedNs := 0 } :: s.deliveries, e.firedNs = 0 ∧ e.action ≠ 10) ∧ takeDelivery 10 s.deliveries =
       some (⟨10, 8, 0, 0, 7, 0, 0, 0, 0⟩, []) ∧ s.rf .DEV_CFG_STAT 63 32 = 7 ∧ s.ver.bells = [] ∧
       versionedOff (addrOf .FH_SFN_OFFSET 0 0) = true ∧
       locate (addrOf .FH_SFN_OFFSET 0 0) = some (.FH_SFN_OFFSET, 0, 0)) ∧
    (let s := withRegs [(.FH_CELL_CFG, 3, BitVec.ofNat 64 (2 ^ 63 + 3 * 2 ^ 58 + 2 ^ 32)), (.DEV_CFG_CUR, 0, 4)]
     cellValid 3 s = true ∧ 0 < min 1000000 (slotPeriod 3 s) ∧ (s.reg .FH_SFN_OFFSET).toNat ≤ s.now) ∧
    (let s := State.reset.modTile 5 fun x => { x with loading := some 5 }
     (s.tile 5).loading = some 5 ∧ (s.tile 5).launch = none ∧ (∀ x ∈ s.ver.tiles, x.1 ≠ 5) ∧ badWords 0 56 s = []) := by
  decide +kernel

/-- An update request waits in mailbox 1, or a recovery request in mailbox 0. -/
def asked (m code : Nat) (boot fw : Word) : State :=
  ((withRegs [(.SEC_BOOT_STAT, 0, boot), (.SEC_FW_STAT, 0, fw)]).setReg .MBX_STAT 0x8000000000000000 m).setReg .MBX_MSG
    (BitVec.ofNat 64 (code * 2 ^ 32)) m 0

theorem test_meets_FirmwareRecordsHealthAndRackManager_firmware :
    (let s := asked 1 0x0F01 0 0
     s.rb .SEC_BOOT_STAT 4 = false ∧ s.rb .MBX_STAT 63 1 = true ∧ s.rf .MBX_MSG 47 32 1 0 = 0x0F01) ∧
    (let s := asked 0 0x0F10 0x10 0
     s.rb .SEC_BOOT_STAT 4 = true ∧ s.rb .MBX_STAT 63 0 = true ∧ s.rf .MBX_MSG 47 32 0 0 = 0x0F10 ∧
       gave (devRead whoSteward (hamletBase 0) (min (s.reg .MBX_MSG 0 1).toNat 0x2000000) 0 (mbxAck 0 1 s)) = true) ∧
    (∀ st < 8, (withRegs [(.SEC_FW_STAT, 0, BitVec.ofNat 64 st)]).rf .SEC_FW_STAT 2 0 = st) ∧
    (let x : Update := ⟨0, 8, 1⟩
     let s := withRegs [(.SEC_FW_STAT, 0, 1)]
     let s := { s with sec := { s.sec with update := some x } }
     s.sec.update = some x ∧ gave (devRead whoSteward x.addr (min x.len slotBytes) 0 s) = true) ∧
    (withRegs [(.SEC_FW_STAT, 0, 1)]).sec.update = none ∧
    (let s := { withRegs [(.SEC_WDOG, 0, 1)] with tb := { State.reset.tb with ticks := 125000 } }
     s.rf .SEC_WDOG 31 0 ≠ 0 ∧ s.sec.wdogAt + s.rf .SEC_WDOG 31 0 * 125000 = s.tb.ticks ∧ s.sec.confirm ≠ some s.tb.ticks) ∧
    fld (3#64) 1 0 = 3 := by decide +kernel

theorem test_meets_FirmwareRecordsHealthAndRackManager_records :
    (let s := (withRegs []).setReg .ERR_REC 0x8000000000000001 127 0
     s.rb .ERR_DB 63 = false ∧ s.rb .ERR_REC 63 127 0 = true ∧ s.rb .ERR_REC 63 126 0 = false) ∧
    (let s := atTick 125000000 (fabric .locked pathed)
     s.reeve.windowAt + max 1 (s.rf .ERR_RV_CFG 63 48) * 125000 ≤ s.tb.ticks) ∧
    (let s := State.reset
     s.tb.ticks < s.reeve.windowAt + max 1 (s.rf .ERR_RV_CFG 63 48) * 125000) := by decide

/-- The rack manager runs, with the records of its devices in page 0; device 63 is in a state and has failed in `n` windows. -/
def rackState (st n : Nat) (band : Nat) : State :=
  let s := withRegs [(.ERR_RM_CTL, 0, 0x8000000000000000), (.ERR_RM_MASK, 0, 0x8000000000000000),
    (.ERR_RM_DEV, 63, BitVec.ofNat 64 (st * 2 ^ 62))]
  let s := modRm 63 (fun x => { x with failing := n, cand := st == 1 }) s
  { s with reeve := { s.reeve with seq := 1 } }.setBytes (63 * 32) ([band * 2 ^ 40, 1].flatMap (leBytes 8))

theorem test_meets_FirmwareRecordsHealthAndRackManager_rack :
    (∀ band ∈ [0, 2], let s := rackState 0 2 band
      let s₁ := { s with reeve := { s.reeve with rmSeq := s.reeve.seq } }
      let r := devRead Who.device (s.rf .ERR_RM_BASE 51 12 * 4096 + 63 * 32) 32 0 s₁
      s.rb .ERR_DB 63 = false ∧ s.rb .ERR_RM_CTL 63 = true ∧ s.reeve.rmSeq ≠ s.reeve.seq ∧ (∀ e < 64, (rmDev e s).cand = false) ∧
        (∀ e < 64, s.rb .ERR_RM_MASK e = (e == 63)) ∧ gave r = true ∧ r.2.regs = s.regs ∧ r.2.reeve = s₁.reeve ∧ r.2.tb = s.tb ∧
        r.2.mem = s.mem ∧ (rmDev 63 s).lastSeq < (wordAt (leWords (got r)) 1).toNat ∧
        fld (wordAt (leWords (got r)) 0) 41 40 = band ∧
        (s.reeve.expelled.filter fun t => decide (s.now < t + s.rf .ERR_RM_CFG 55 40 * 1000000000)).length <
          s.rf .ERR_RM_CFG 63 56) ∧
    (∀ e < 64, ((rackState 1 0 0).rf .ERR_RM_DEV 63 62 e = 1 ∧ (rmDev e (rackState 1 0 0)).cand = true) ↔ e = 63) ∧
    (let s := rackState 3 0 0
     let a := stepRecord 63 15 s
     let b := stepRecord (s.rf .ERR_RM_DEV 61 56 63) 15 a.2
     s.rf .ERR_RM_DEV 63 62 63 = 3 ∧ a.1 = some (0, 0) ∧ b.1 = some (0, 0) ∧ a.2.regs = s.regs ∧ b.2.regs = s.regs ∧
       b.2.reeve = s.reeve ∧ b.2.tb = s.tb) ∧
    (let w := (List.range 16).foldl (fun s k => shadowSlot 63 k s)
       (modRm 63 (fun x => { x with seen := [(5, 0)], compared := [0] }) (rackState 3 0 0))
     w.rf .ERR_RM_DEV 63 62 63 = 3 ∧ (rmDev 63 w).seen = [(5, 0)] ∧
       0 + max 1 (w.rf .ERR_RM_CFG 7 0) * 1000000 ≤ (atTick 250000000 w).now) := by
  decide +kernel

end Sys2Proof.Tests
end

section
/-! PROOFS. The statements of the family of 00_scope.md: loads and stores, the reads and writes of the control range, the
state after reset, and the idle step. -/

namespace Sys2Proof.Proofs

open Sys2Proof Sys2Proof.Machine Sys2Proof.Laws

/-! ### Little-endian values (00_scope.md R6) -/

/-- A common factor of a sum (the package's modules do not see Mathlib). -/
theorem sum_map_mul_left (k : Nat) (g : Nat → Nat) (l : List Nat) :
    (l.map fun i => k * g i).sum = k * (l.map g).sum := by
  induction l with
  | nil => rfl
  | cons x xs ih => rw [List.map_cons, List.map_cons, List.sum_cons, List.sum_cons, ih, Nat.mul_add]

theorem leVal_map_range (f : Nat → Byte) (n : Nat) :
    leVal ((List.range n).map f) = ((List.range n).map fun i => (f i).toNat * 256 ^ i).sum := by
  induction n generalizing f with
  | zero => rfl
  | succ n ih =>
    have hm : ∀ i, (f (i + 1)).toNat * 256 ^ (i + 1) = 256 * ((f (i + 1)).toNat * 256 ^ i) :=
      fun i => by rw [Nat.pow_succ', Nat.mul_left_comm]
    rw [List.range_succ_eq_map, List.map_cons, List.map_map, leVal, ih, List.map_cons, List.map_map, List.sum_cons]
    simp only [Function.comp_def, Nat.succ_eq_add_one, hm, sum_map_mul_left, Nat.pow_zero, Nat.mul_one]

/-- The value of the first `n` base-256 digits of a number. -/
theorem leVal_digits (x n : Nat) : leVal ((List.range n).map fun i => BitVec.ofNat 8 (x / 256 ^ i)) = x % 256 ^ n := by
  induction n generalizing x with
  | zero => exact (Nat.mod_one x).symm
  | succ n ih =>
    have hd : ∀ i, x / 256 ^ (i + 1) = x / 256 / 256 ^ i := fun i => by rw [Nat.pow_succ', Nat.div_div_eq_div_mul]
    rw [List.range_succ_eq_map, List.map_cons, List.map_map, leVal]
    simp only [Function.comp_def, Nat.succ_eq_add_one, hd, ih]
    rw [Nat.pow_succ', Nat.mod_mul, Nat.pow_zero, Nat.div_one, BitVec.toNat_ofNat]

theorem leVal_lineBytes (l : BitVec 512) (o n : Nat) : leVal (lineBytes l o n) = l.toNat / 256 ^ o % 256 ^ n := by
  rw [← leVal_digits, lineBytes]
  congr 2
  funext i
  rw [Nat.div_div_eq_div_mul, ← Nat.pow_add, show 256 = 2 ^ 8 from rfl, ← Nat.pow_mul]

@[simp] theorem leBytes_length (n x : Nat) : (leBytes n x).length = n := by
  induction n generalizing x with
  | zero => rfl
  | succ n ih => simp [leBytes, ih]

theorem leBytes_getElem (n x i : Nat) (h : i < (leBytes n x).length) :
    (leBytes n x)[i] = BitVec.ofNat 8 (x / 256 ^ i) := by
  induction n generalizing x i with
  | zero => simp [leBytes] at h
  | succ n ih =>
    cases i with
    | zero => simp [leBytes, ← BitVec.toNat_inj]
    | succ i =>
      simp only [leBytes, List.getElem_cons_succ]
      rw [ih, Nat.pow_succ', Nat.div_div_eq_div_mul]

/-! ### The operands of a load -/

theorem dataAddr_eq (c : CoreRegs) (a : Nat) (imm : BitVec 14) :
    dataAddr c a imm = (c.gr a + imm.signExtend 64).toNat % 2 ^ 52 := BitVec.toNat_setWidth ..

/-- The word that a load of `n` bytes makes of their value: sign- or zero-extended (R87). -/
def loadWord (n : Nat) (sx : Bool) (x : Nat) : Word :=
  if sx then (BitVec.ofNat (8 * n) x).signExtend 64 else BitVec.ofNat 64 x

theorem extend_of_length {n : Nat} {data : List Byte} (h : data.length = n) (sx : Bool) :
    extend n sx data = loadWord n sx (leVal data) := by
  have hs : signed (8 * n) (leVal data) = (BitVec.ofNat (8 * n) (leVal data)).toInt := by
    simp only [signed, BitVec.toInt, BitVec.toNat_ofNat]
  rw [extend, ← h, List.take_length, h, hs]
  rfl

/-- A load ends outside a loop: gd takes the extended value, and the next parcel follows. -/
theorem loadEnds_inactive {t d n : Nat} {sx : Bool} {data : List Byte} {s : State} (h : (s.core t).dsp.active = false) :
    loadEnds t d n sx data s = s.modCore t fun c => { c.setG d (extend n sx data) with pc := c.pc + 4 } := by
  refine modCore_congr ?_
  rw [next_inactive (by simpa using h)]
  simp

/-! ### What an access leaves alone -/

/-- Memory, the core of tile `t` and the other tiles stand. -/
structure Spares (t : Nat) (s u : State) : Prop where
  byte   : ∀ x, u.byte x = s.byte x
  core   : u.core t = s.core t
  others : ∀ k, k ≠ t → u.tile k = s.tile k

theorem spares_refl (t : Nat) (s : State) : Spares t s s := ⟨fun _ => rfl, rfl, fun _ _ => rfl⟩

theorem spares_trans {t : Nat} {s u v : State} (h : Spares t s u) (k : Spares t u v) : Spares t s v :=
  ⟨fun x => (k.byte x).trans (h.byte x), k.core.trans h.core, fun n hn => (k.others n hn).trans (h.others n hn)⟩

theorem spares_of_sideOnly {s u : State} (h : SideOnly s u) (t : Nat) : Spares t s u :=
  ⟨sideOnly_byte h, sideOnly_core h t, fun k _ => sideOnly_tile h k⟩

theorem spares_used (t : Nat) (s : State) : Spares t s s.used := ⟨fun _ => rfl, rfl, fun _ _ => rfl⟩

/-- A change of tile `t` beside its core. -/
theorem spares_modTile (t : Nat) (s : State) {f : Tile → Tile} (hf : (f (s.tile t)).core = (s.tile t).core) :
    Spares t s (s.modTile t f) := by
  refine ⟨fun _ => rfl, ?_, fun k hk => tile_modTile_ne s t k f hk⟩
  rw [State.core, tile_modTile_same, hf, State.core]

theorem spares_usedIfBusy (t : Nat) (as : List Nat) (s : State) : Spares t s (usedIfBusy t as s) := by
  unfold usedIfBusy
  split
  · exact spares_used t s
  · exact spares_refl t s

theorem spares_updateLine (t a : Nat) (data : List Byte) (s : State) : Spares t s (updateLine t a data s) :=
  spares_modTile t s rfl

/-- Reading words without error corrects nothing. -/
theorem readCorrects_clean {s : State} {ws : List Nat} (h : ∀ w ∈ ws, s.eccAt w = .clean) : readCorrects s ws = s := by
  unfold readCorrects
  refine List.foldlRecOn ws _ (motive := fun u => u = s) rfl fun u hu w hw => ?_
  subst hu
  simp [State.correctable, eccNow_clean (h w hw)]

/-- Filling a line whose words hold no error changes the data cache alone. -/
theorem spares_fillLine {t a : Nat} {s : State} (h : ∀ w ∈ wordsOf (a / 64 * 64) 64, s.eccAt w = .clean) :
    Spares t s (fillLine t a s) := by
  unfold fillLine
  dsimp only
  split
  · rw [readCorrects_clean h]
    exact spares_trans (spares_modTile t s rfl) (spares_used t _)
  · exact spares_refl t s

theorem wordsOf_line (a : Nat) : wordsOf (a / 64 * 64) 64 = [a / 64 * 2, a / 64 * 2 + 1] := by
  have h1 : a / 64 * 64 / 32 = a / 64 * 2 := by omega
  have h2 : (a / 64 * 64 + 64 - 1) / 32 - a / 64 * 64 / 32 + 1 = 2 := by omega
  rw [wordsOf, if_neg (by decide), h2, h1]
  rfl

/-! ### The paths of an access -/

/-- A range that passes the checks of an access lies in a store or in the unified range. -/
theorem spaceOf_of_rangeCheck {part : Option Nat} {a n : Nat} {s : State} (h : rangeCheck part a n s = none) :
    (∃ p, spaceOf a = .unified p) ∨ (∃ u o, spaceOf a = .tile u o) ∨ ∃ g o, spaceOf a = .hamlet g o := by
  have hk : addrCheck part a s = none := by
    unfold rangeCheck at h
    split at h
    · cases h
    · assumption
  unfold addrCheck at hk
  split at hk
  case h_1 p e => exact .inl ⟨p, e⟩
  case h_2 u o e => exact .inr (.inl ⟨u, o, e⟩)
  case h_3 g o e => exact .inr (.inr ⟨g, o, e⟩)
  all_goals cases hk

section Paths

variable {t : Fin 128} {a d : Fin 64} {imm : BitVec 14} {n : Nat} {s : State}

theorem load_misaligned (h : Runs t s) (sx : Bool) (ha : dataAddr (s.core t) a imm % n ≠ 0) :
    load t d a imm n sx s = takeException t causeDataAlign (dataAddr (s.core t) a imm) s := by
  rw [load, runInstr_runs h]
  exact if_pos ha

theorem load_memory (h : Runs t s) (sx : Bool) (ha : dataAddr (s.core t) a imm % n = 0) {part : Option Nat}
    (hr : rangeCheck part (dataAddr (s.core t) a imm) n s = none) :
    load t d a imm n sx s = loadMem t d n sx (dataAddr (s.core t) a imm) s := by
  rw [load, runInstr_runs h]
  dsimp only
  rw [if_neg (fun hne => hne ha)]
  rcases spaceOf_of_rangeCheck hr with ⟨p, e⟩ | ⟨u, o, e⟩ | ⟨g, o, e⟩ <;> rw [e]

theorem load_control (h : Runs t s) (sx : Bool) (ha : dataAddr (s.core t) a imm % 8 = 0) {off : Nat}
    (hs : spaceOf (dataAddr (s.core t) a imm) = .control off) {v : Word} {u : State}
    (hr : controlRead (.tile t) off s = (some v, u)) :
    load t d a imm 8 sx s = u.modCore t fun c => (c.setG d v).next 4 := by
  rw [load, runInstr_runs h]
  dsimp only
  rw [if_neg (fun hne => hne ha), hs]
  dsimp only
  rw [if_neg (by decide), hr]

theorem store_misaligned (h : Runs t s) (ha : dataAddr (s.core t) a imm % n ≠ 0) :
    store t d a imm n s = takeException t causeDataAlign (dataAddr (s.core t) a imm) s := by
  rw [store, runInstr_runs h]
  exact if_pos ha

theorem store_memory (h : Runs t s) (ha : dataAddr (s.core t) a imm % n = 0) {part : Option Nat}
    (hr : rangeCheck part (dataAddr (s.core t) a imm) n s = none) :
    store t d a imm n s = storeMem t (dataAddr (s.core t) a imm) (leBytes n ((s.core t).gr d).toNat) s := by
  rw [store, runInstr_runs h]
  dsimp only
  rw [if_neg (fun hne => hne ha)]
  rcases spaceOf_of_rangeCheck hr with ⟨p, e⟩ | ⟨u, o, e⟩ | ⟨g, o, e⟩ <;> rw [e]

theorem store_control (h : Runs t s) (ha : dataAddr (s.core t) a imm % n = 0) (hn : n ≠ 8) {off : Nat}
    (hs : spaceOf (dataAddr (s.core t) a imm) = .control off) :
    store t d a imm n s = dataRefuse t .access (dataAddr (s.core t) a imm) s := by
  rw [store, runInstr_runs h]
  dsimp only
  rw [if_neg (fun hne => hne ha), hs]
  exact if_pos hn

end Paths

/-! ### Loads from memory and from the data cache -/

section Memory

variable {t a n : Nat} {s : State}

/-- The bytes that a load of the own tile store gets, after the access has been charged. -/
theorem coreBytes_own {u : State} (h : Reaches t a n s) (hu : SideOnly s u) (hn : n = 1 ∨ n = 2 ∨ n = 4 ∨ n = 8)
    (ha : a % n = 0) (ho : ownStore t a = true) : coreBytes t a n u = (List.range n).map fun i => s.byte (a + i) := by
  unfold coreBytes
  refine List.map_congr_left fun i hi => ?_
  rw [List.mem_range] at hi
  have hb : arrayBusy t (a + i) u = false := by rw [← h.idle i hi, arrayBusy, arrayBusy, sideOnly_tile hu]
  have hw : u.eccAt ((a + i) / 32) = .clean := by
    rw [sideOnly_eccAt hu, show (a + i) / 32 = a / 32 by rcases hn with rfl | rfl | rfl | rfl <;> omega]
    exact reaches_word h
  have hm : ∀ p, spaceOf (a + i) = .unified p → u.moveOf p = none := by
    intro p hp
    rw [ownStore, spaceOf_unified_near i hn ha hi hp] at ho
    cases ho
  rw [State.coreByte, hb, if_neg (by decide), curByte_clean hw hm, sideOnly_byte hu]

/-- A load that goes on at once and misses the data cache gives the bytes of memory. -/
theorem loadMem_reaches (h : Reaches t a n s) (hn : n = 1 ∨ n = 2 ∨ n = 4 ∨ n = 8) (ha : a % n = 0)
    (hc : cacheable a = true → cacheLine t a s = none) (d : Nat) (sx : Bool) :
    ∃ u, Spares t s u ∧ loadMem t d n sx a s = loadEnds t d n sx ((List.range n).map fun i => s.byte (a + i)) u := by
  obtain ⟨u, hread, hu⟩ := reaches_read h hn ha causeMemUncorr
  have hmiss : (if cacheable a then cacheLine t a s else none) = none := by
    split
    next hk => exact hc hk
    next => rfl
  have hsp := spares_of_sideOnly hu t
  unfold loadMem
  dsimp only
  rw [hmiss, show rangeCheck (whoTile s t).part a n s = none from h.held, hread]
  dsimp only
  split
  next =>
    refine ⟨fillLine t a u, spares_trans hsp (spares_fillLine ?_), rfl⟩
    intro w hw
    simp only [wordsOf_line, List.mem_cons, List.not_mem_nil, or_false] at hw
    rw [sideOnly_eccAt hu]
    rcases hw with rfl | rfl
    · exact h.clean.1
    · exact h.clean.2
  next =>
    split
    next ho => exact ⟨_, spares_trans hsp (spares_usedIfBusy t _ u), by rw [coreBytes_own h hu hn ha ho]⟩
    next => exact ⟨u, hsp, rfl⟩

/-- A load that hits the data cache gives the bytes of the line. -/
theorem loadMem_hit {l : BitVec 512} (hr : rangeCheck (some (s.core t).part.toNat) a n s = none)
    (hk : cacheable a = true) (hl : cacheLine t a s = some l) (d : Nat) (sx : Bool) :
    loadMem t d n sx a s = loadEnds t d n sx (lineBytes l (a % 64) n) s := by
  unfold loadMem
  dsimp only
  rw [if_pos hk, hl, show rangeCheck (whoTile s t).part a n s = none from hr]

end Memory

/-! ### Stores to memory -/

/-- Where no array operation is at work, a store of the core leaves what it writes. -/
theorem coreCells_idle {t : Nat} {cells : List (Nat × Byte)} {s : State}
    (h : ∀ c ∈ cells, arrayBusy t c.1 s = false) : coreCells t cells s = cells := by
  unfold coreCells
  refine (List.map_congr_left fun c hc => ?_).trans (List.map_id cells)
  rw [h c hc]
  rfl

/-- The cells of a store that goes on at once hold its data. -/
theorem reaches_coreCells {t a : Nat} {data : List Byte} {s : State} (h : Reaches t a data.length s) :
    (coreCells t ((data.zipIdx.map fun b => a + b.2).zip data) s).map (·.2) = data := by
  rw [coreCells_idle, List.map_snd_zip (by simp)]
  intro c hc
  obtain ⟨b, hb, e⟩ := List.mem_map.mp (List.of_mem_zip hc).1
  rw [← e]
  exact h.idle b.2 (by simpa using List.snd_lt_of_mem_zipIdx hb)

/-- A store that goes on at once, outside a loop, changes its bytes, and of the cores the pc of its own. -/
theorem storeMem_reaches {t a : Nat} {data : List Byte} {s : State} (h : Reaches t a data.length s)
    (hn : data.length = 1 ∨ data.length = 2 ∨ data.length = 4 ∨ data.length = 8) (ha : a % data.length = 0)
    (hl : s.rb .PART_P_DLOG 63 (s.core t).part.toNat = false) (hd : (s.core t).dsp.active = false) :
    (∀ x, (storeMem t a data s).byte x =
      if hx : a ≤ x ∧ x < a + data.length then data[x - a]'(by omega) else s.byte x) ∧
    (storeMem t a data s).core t = { s.core t with pc := (s.core t).pc + 4 } ∧
    ∀ k, k ≠ t → (storeMem t a data s).tile k = s.tile k := by
  obtain ⟨u, hwrite, htiles, hbyte⟩ := reaches_write data h hn ha hl causeMemUncorr
  have htile : ∀ k, u.tile k = s.tile k := fun k => by rw [State.tile, htiles, State.tile]
  obtain ⟨v, hv, he⟩ : ∃ v, Spares t u v ∧ storeMem t a data s = goNext t v := by
    unfold storeMem
    dsimp only
    rw [reaches_coreCells h, ite_self, hwrite]
    dsimp only
    split
    · exact ⟨_, spares_trans (spares_usedIfBusy t _ u) (spares_updateLine t a data _), rfl⟩
    · exact ⟨_, spares_updateLine t a data u, rfl⟩
  have hcore : v.core t = s.core t := by rw [hv.core, State.core, htile, State.core]
  rw [he, goNext]
  refine ⟨fun x => ?_, ?_, fun k hk => ?_⟩
  · rw [modCore_byte, hv.byte, hbyte]
  · rw [core_modCore_same, hcore, next_inactive hd]
    rfl
  · rw [State.modCore, tile_modTile_ne _ _ _ _ hk, hv.others k hk, htile]

/-! ### The instructions -/

section Results

variable {t : Fin 128} {a d : Fin 64} {imm : BitVec 14} {n ad : Nat} {s : State}

theorem load_reaches (h : Runs t s) (had : dataAddr (s.core t) a imm = ad) (hn : n = 1 ∨ n = 2 ∨ n = 4 ∨ n = 8)
    (ha : ad % n = 0) (hr : Reaches t ad n s) (hc : cacheable ad = true → cacheLine t ad s = none) (sx : Bool) :
    (load t d a imm n sx s).core t =
      { (s.core t).setG d (loadWord n sx (memValue s ad n)) with pc := (s.core t).pc + 4 } ∧
    (∀ x, (load t d a imm n sx s).byte x = s.byte x) ∧
    ∀ k, k ≠ t.val → (load t d a imm n sx s).tile k = s.tile k := by
  subst had
  obtain ⟨u, hu, he⟩ := loadMem_reaches hr hn ha hc d sx
  rw [load_memory h sx ha hr.held, he, loadEnds_inactive (by rw [hu.core]; exact h.2.2),
    extend_of_length (by simp), leVal_map_range]
  refine ⟨?_, fun x => ?_, fun k hk => ?_⟩
  · rw [core_modCore_same, hu.core]
    rfl
  · rw [modCore_byte, hu.byte]
  · rw [State.modCore, tile_modTile_ne _ _ _ _ hk, hu.others k hk]

theorem load_hit (h : Runs t s) (had : dataAddr (s.core t) a imm = ad) {l : BitVec 512} (ha : ad % n = 0)
    (hr : rangeCheck (some (s.core t).part.toNat) ad n s = none) (hk : cacheable ad = true)
    (hl : cacheLine t ad s = some l) (sx : Bool) :
    load t d a imm n sx s = s.modCore t fun c =>
      { c.setG d (loadWord n sx (l.toNat / 256 ^ (ad % 64) % 256 ^ n)) with pc := c.pc + 4 } := by
  subst had
  rw [load_memory h sx ha hr, loadMem_hit hr hk hl, loadEnds_inactive h.2.2, extend_of_length (by simp [lineBytes]),
    leVal_lineBytes]

theorem store_reaches (h : Runs t s) (had : dataAddr (s.core t) a imm = ad) (hn : n = 1 ∨ n = 2 ∨ n = 4 ∨ n = 8)
    (ha : ad % n = 0) (hr : Reaches t ad n s) (hl : s.rb .PART_P_DLOG 63 (s.core t).part.toNat = false) :
    StoredBytes t ad n ((s.core t).gr d) s (store t d a imm n s) := by
  subst had
  have hlen := leBytes_length n ((s.core t).gr d).toNat
  obtain ⟨hbyte, hcore, hothers⟩ := storeMem_reaches (data := leBytes n ((s.core t).gr d).toNat) (by rwa [hlen])
    (by rwa [hlen]) (by rwa [hlen]) hl h.2.2
  rw [store_memory h ha hr.held]
  refine ⟨fun x => ?_, hcore, hothers⟩
  rw [hbyte]
  simp only [hlen]
  split
  next => exact leBytes_getElem _ _ _ _
  next => rfl

end Results

/-- Settles O17: a load from memory, from a line of the data cache and from a control register, in turn. -/
theorem loadResults : Obligations.LoadResults := by
  unfold Obligations.LoadResults
  intro t d a imm s h ad ext loads
  have had : dataAddr (s.core t) a imm = ad := dataAddr_eq _ _ _
  have hloads : ∀ c n sx, n = 1 ∨ n = 2 ∨ n = 4 ∨ n = 8 → exec c s = .next (load t d a imm n sx s) →
      loads c n sx := by
    intro c n sx hn hc
    refine ⟨fun ha hr hm => ⟨_, hc, load_reaches h had hn ha hr hm sx⟩, fun l ha hr hk hl => ?_, fun ha => ?_⟩
    · rw [hc, load_hit h had ha hr hk hl]
      rfl
    · rw [hc, load_misaligned h sx (by rwa [had]), had]
      rfl
  refine ⟨hloads _ 1 true (by decide) rfl, hloads _ 1 false (by decide) rfl, hloads _ 2 true (by decide) rfl,
    hloads _ 2 false (by decide) rfl, hloads _ 4 true (by decide) rfl, hloads _ 4 false (by decide) rfl,
    hloads _ 8 false (by decide) rfl, fun off v u ha hs hr => ?_⟩
  have hexec : exec (.ld64 t d a imm) s = .next (load t d a imm 8 false s) := rfl
  rw [hexec, load_control h false (by rwa [had]) (by rwa [had]) hr]

/-- Settles O18: a store to memory, and the refusals of a misaligned one and of a short one to the control range. -/
theorem storeResults : Obligations.StoreResults := by
  unfold Obligations.StoreResults
  intro t d a imm s h ad stores
  have had : dataAddr (s.core t) a imm = ad := dataAddr_eq _ _ _
  have hstores : ∀ c n, n = 1 ∨ n = 2 ∨ n = 4 ∨ n = 8 → exec c s = .next (store t d a imm n s) → stores c n := by
    intro c n hn hc
    refine ⟨fun ha hr hl => ⟨_, hc, store_reaches h had hn ha hr hl⟩, fun ha => ?_, fun off ha hn8 hs => ?_⟩
    · rw [hc, store_misaligned h (by rwa [had]), had]
      rfl
    · rw [hc, store_control h (by rwa [had]) hn8 (by rwa [had]), had]
  exact ⟨hstores _ 1 (by decide) rfl, hstores _ 2 (by decide) rfl, hstores _ 4 (by decide) rfl,
    hstores _ 8 (by decide) rfl⟩

/-! ### Reads that clear their counts -/

/-- A command that is the plain read of a register reads and clears it. -/
theorem readsAndClears_of_readPlain {c : Instr} {r : RegName} {i j : Nat}
    (h : ∀ s, exec c s = .next (s.readPlain r i j)) : ReadsAndClears c r i j := h

/-- Settles O8: each of the commands is the plain read of its register. -/
theorem countReadsReturnTheCountAndClearIt : Obligations.CountReadsReturnTheCountAndClearIt := by
  unfold Obligations.CountReadsReturnTheCountAndClearIt
  refine ⟨?_, ?_, ?_, ?_, ?_, ?_, ?_, ?_, ?_, ?_, ?_, ?_, ?_, ?_, ?_, ?_, ?_, ?_, ?_, ?_, ?_, ?_, ?_, fun _ => rfl⟩
  all_goals intros; exact readsAndClears_of_readPlain fun _ => rfl

/-! ### Reset -/

/-- The page map at reset is that of R236. -/
theorem reset_page (n : Nat) : State.reset.page n =
    ⟨if n < 6291456 then .resident else .lower, if n < 6291456 then n % 8 else 0, none, false, 0, 0⟩ := by
  show Page.atReset n = _
  unfold Page.atReset
  by_cases h : n < 6291456 <;> simp [h]

theorem resetDocumented : ResetDocumented :=
  ⟨reset_page, by decide, rfl, fun _ => ⟨rfl, rfl⟩, by decide, by decide, by decide, by decide, by decide, by decide,
    by decide, by decide, by decide, by decide, by decide, by decide, by decide, by decide, by decide, by decide⟩

/-- Settles O5: the tables of the state after reset list nothing. -/
theorem resetIsCanonicalAndAsDocumented : Obligations.ResetIsCanonicalAndAsDocumented :=
  ⟨resetDocumented, ⟨rfl, rfl⟩, rfl, rfl⟩

/-! ### Reads of a mailbox's counts -/

/-- Reset with the steward's domain dormant. -/
def stewardAsleep : State := State.reset.setReg .PWR_DOM_STAT 0x1000000000000

/-- A read of MBX_CNT wakes the dormant steward domain (R449). -/
theorem mbxCntRead_wakes : exec (.mbxCntRead .steward 0) stewardAsleep =
    .next ((wakeDom 48 stewardAsleep).readPlain .MBX_CNT 0) := rfl

/-- Refutes O9: the steward's read of MBX_CNT changes more than the count when the steward domain is dormant: the domain
begins to wake. -/
theorem not_agentReadsNeedPermission : ¬ Obligations.AgentReadsNeedPermission := by
  unfold Obligations.AgentReadsNeedPermission
  intro h
  obtain ⟨-, -, -, hmbx, -⟩ := h .steward stewardAsleep
  have he := hmbx 0
  rw [mbxCntRead_wakes, if_pos (.inl rfl)] at he
  injection he with hs
  have hw : (wakeDom 48 stewardAsleep).pwr.waking = stewardAsleep.pwr.waking := by
    simpa only [State.readPlain, emit_pwr, setReg_pwr] using congrArg (fun u : State => u.pwr.waking) hs
  exact absurd hw (by decide)

/-! ### An idle step -/

/-- Device time 0 with bell 0 of Belfry 0 armed at FIRE_TIME 0 for partition 0, a live slot, the slot ledger on at
address 0, and page 0 held by partition 0. -/
def lateRadioBell : State :=
  let s := (State.reset.setReg .BELL_CTL 0x1004).setReg .FH_LEDGER_CFG 0x8000000000000000
  { s.setPage 0 { s.page 0 with owner := some 0 } with fh := { s.fh with live := [⟨0, 0, 0, 0, 0, 0⟩] } }

/-- The bell fires late on the tick, and the ledger record of the live slot is written with PLAN and VALID (R204,
R205). -/
theorem lateRadioBell_marks : (deviceTick lateRadioBell).mem = [(8, 1), (9, 1)] := by decide +kernel

/-- Refutes O2: a bell of partition 0 that fires late on the tick marks the live slots in the slot ledger, which is in
memory. -/
theorem not_emptyQueueLetsOneReferenceTickPass : ¬ Obligations.EmptyQueueLetsOneReferenceTickPass := by
  unfold Obligations.EmptyQueueLetsOneReferenceTickPass
  intro h
  obtain ⟨t, hstep, -, -, hmem, -⟩ := h lateRadioBell rfl
  have ht : step lateRadioBell = .next (deviceTick lateRadioBell) := rfl
  rw [ht] at hstep
  injection hstep with ht
  rw [← ht, lateRadioBell_marks] at hmem
  exact absurd hmem (by decide)

/-! ### Register writes -/

/-- TB_PORT_INLAT of port `i` lies where its table puts it. -/
theorem locate_portInlat (i : Fin 16) :
    locate (0x11000#40 + 0x100#40 * BitVec.ofNat 40 i).toNat = some (RegName.TB_PORT_INLAT, i.val, 0) := by
  revert i; decide

/-- An access to the always-on domain of the timebase wakes nothing while it is awake. -/
theorem wakeReg_timebase {off : Nat} {s : State} (h : regDomain off = 49) (hd : s.dormant 49 = false) :
    wakeReg off s = s := by
  simp [wakeReg, h, wakeDom, hd]

/-- Steward firmware's aligned write of a register of the timebase that has no rule of its own is the plain write of
R16. -/
theorem stewardWrite_plain {off : BitVec 40} {r : RegName} {i j : Nat} {s : State} (v : Word)
    (ha : off.toNat % 8 = 0) (hl : locate off.toNat = some (r, i, j)) (hdom : regDomain off.toNat = 49)
    (hd : s.dormant 49 = false) (hb : r.desc.base < 0x200000)
    (hp : putRegister .steward r i j v s = s.writePlain r v i j) :
    exec (.registerWrite .steward off v) s = .next (s.writePlain r v i j) := by
  have hx : absent r i j s = false := by simp [absent, Nat.not_le.mpr hb]
  have hm : mayPut .steward r i j s = true := rfl
  show Host.Outcome.next (registerWrite .steward off.toNat v s) = _
  simp [registerWrite, ha, controlWrite, hl, hm, wakeReg_timebase hdom hd, hx, hp]

/-- The mask of every bit. -/
theorem and_everyBit (x : Word) : x &&& 0xFFFFFFFFFFFFFFFF#64 = x := BitVec.and_allOnes

theorem writePlain_portInlat (s : State) (v : Word) (i : Nat) : s.writePlain .TB_PORT_INLAT v i =
    s.setReg .TB_PORT_INLAT ((s.reg .TB_PORT_INLAT i &&& 0xFFFFFFFF00000000) ||| (v &&& 0xFFFFFFFF)) i := by
  have h : RegDesc.written (RegName.desc .TB_PORT_INLAT) (s.reg .TB_PORT_INLAT i) v =
      (s.reg .TB_PORT_INLAT i &&& 0xFFFFFFFF00000000) ||| (v &&& 0xFFFFFFFF) := by
    simp [RegDesc.written, RegName.desc, accessMask, fmask, and_everyBit]
  rw [State.writePlain, h]

theorem writePlain_tbEvt (s : State) (v : Word) :
    s.writePlain .TB_EVT v = s.setReg .TB_EVT (s.reg .TB_EVT &&& ~~~ (v &&& 0x3FF)) := by
  have h : RegDesc.written (RegName.desc .TB_EVT) (s.reg .TB_EVT) v = s.reg .TB_EVT &&& ~~~ (v &&& 0x3FF) := by
    simp [RegDesc.written, RegName.desc, accessMask, fmask, and_everyBit]
  rw [State.writePlain, h]

/-- A plain write of a read-only register stores the word that it holds. -/
theorem writePlain_tbPpsiSec (s : State) (v : Word) :
    s.writePlain .TB_PPSI_SEC v = s.setReg .TB_PPSI_SEC (s.reg .TB_PPSI_SEC) := by
  have h : RegDesc.written (RegName.desc .TB_PPSI_SEC) (s.reg .TB_PPSI_SEC) v = s.reg .TB_PPSI_SEC := by
    simp [RegDesc.written, RegName.desc, accessMask, and_everyBit]
  rw [State.writePlain, h]

/-- Storing the word that a register holds changes no register. -/
theorem setReg_self_reg (s : State) (q : RegName) (x y : Nat) (r : RegName) (i j : Nat) :
    (s.setReg q (s.reg q x y) x y).reg r i j = s.reg r i j := by
  rw [reg_setReg]
  split
  next h => simp only [State.reg, h]
  next => rfl

theorem registerWrite_empty (ag : Agent) {off : Nat} (v : Word) (s : State) (ha : off % 8 = 0)
    (hl : locate off = none) : registerWrite ag off v s = s := by
  simp [registerWrite, ha, controlWrite, hl]

theorem registerWrite_refused {ag : Agent} {off : Nat} {r : RegName} {i j : Nat} (v : Word) {s : State}
    (ha : off % 8 = 0) (hl : locate off = some (r, i, j)) (hm : mayPut ag r i j s = false) :
    registerWrite ag off v s = refusePermission s := by
  simp [registerWrite, ha, controlWrite, hl, hm]

theorem registerWrite_unaligned (ag : Agent) {off : Nat} (v : Word) (s : State) (ha : off % 8 ≠ 0) :
    registerWrite ag off v s =
      (errRecord 0x021 (whoAgent ag s) (controlBase + off) 0 s).emit (.status causeAccess) := by
  simp [registerWrite, ha]

/-- Settles O7, access type by access type. -/
theorem registerWritesFollowTheAccessTypes : Obligations.RegisterWritesFollowTheAccessTypes := by
  unfold Obligations.RegisterWritesFollowTheAccessTypes
  refine ⟨?rw, ?w1c, ?ro, ?empty, ?refused, ?unaligned⟩
  case rw =>
    intro i v s hd
    rw [← writePlain_portInlat]
    exact stewardWrite_plain v (by revert i; decide) (locate_portInlat i) (by revert i; decide) hd (by decide) rfl
  case w1c =>
    intro v s hd
    rw [← writePlain_tbEvt]
    exact stewardWrite_plain v (by decide) (by decide) (by decide) hd (by decide) rfl
  case ro =>
    intro v s hd
    have hw := stewardWrite_plain (off := 0x10090#40) (r := .TB_PPSI_SEC) (i := 0) (j := 0) v (by decide) (by decide)
      (by decide) hd (by decide) rfl
    rw [writePlain_tbPpsiSec] at hw
    exact ⟨_, hw, setReg_self_reg s _ _ _, rfl⟩
  case empty => exact fun ag off v s ha hl => congrArg _ (registerWrite_empty ag v s ha hl)
  case refused => exact fun ag off v s r i j ha hl hm => congrArg _ (registerWrite_refused v ha hl hm)
  case unaligned =>
    exact fun ag off v s ha => ⟨_, rfl, by rw [registerWrite_unaligned ag v s ha]; rfl⟩

end Sys2Proof.Proofs
end

section
/-! PROOFS. The statements of the family of 01_architecture.md: resets, events and saves of a tile. -/

namespace Sys2Proof.Proofs

open Sys2Proof Sys2Proof.Machine

/-! ### A tile reset that cuts the restore of a swap-in -/

/-- The image of launch 0 of context 0. -/
def swappedImage : Image := ⟨CoreRegs.reset, [], 0, [], 0, 0⟩

/-- Tile 0 is enabled and is being restored for context 0, whose swap-in puts `swappedImage` back there; the tile has no
launch, and no image is saved on it. -/
def swapInWithoutLaunch : State :=
  let s := State.reset.setReg .DEV_TILEMAP_LO 1
  modCx 0 (fun x => { x with swap := 6, images := [(0, swappedImage)] })
    (s.modTile 0 fun x => { x with run := .restoring, cx := some 0 })

/-- The reset cuts the restore, and the image of the swap-in is kept on the tile (R31; notes/assumptions/163.md). -/
theorem tileReset_saves_swappedImage :
    ((tileResetWrite 0 1 swapInWithoutLaunch).tile 0).saved = some swappedImage := by decide

/-- Refutes O43: the clause of TILE_RESET leaves open whether the tile is restoring, and there the reset of a tile with
no launch and no saved image leaves the image of a swap-in saved on it. -/
theorem not_tileResetsEventsAndSaves : ¬ Obligations.TileResetsEventsAndSaves := by
  unfold Obligations.TileResetsEventsAndSaves
  intro h
  obtain ⟨-, hreset, -⟩ := h 0 1 swapInWithoutLaunch
  obtain ⟨u, hexec, -, -, -, -, -, hsaved, -⟩ := hreset (by decide) (by decide) (by decide) (by decide)
  have hwrite : exec (.tileReset 0 1) swapInWithoutLaunch = .next (tileResetWrite 0 1 swapInWithoutLaunch) := rfl
  rw [hwrite] at hexec
  injection hexec with hu
  have hnone : (swapInWithoutLaunch.tile 0).saved = none := by decide
  have hsome := tileReset_saves_swappedImage
  rw [hu] at hsome
  exact absurd (hsome.symm.trans (hsaved.trans hnone)) (by decide)

end Sys2Proof.Proofs
end

section
/-! PROOFS. The statements of the family of 02_timebase_and_bells.md. -/

namespace Sys2Proof.Proofs

open Sys2Proof Sys2Proof.Machine Sys2Proof.Laws

/-! ### Commands that let a reference tick pass -/

theorem step_idle {s : State} (h : s.pending = []) : step s = .next (deviceTick s) := by
  rw [step, h]

theorem exec_slewEnd {s : State} (h : s.tb.ending = true) : exec .slewEnd s = .next (deviceTick s) :=
  congrArg Host.Outcome.next (if_pos h)

theorem exec_stepApply {s : State} (h : s.tb.stepGo = true) : exec .stepApply s = .next (deviceTick s) :=
  congrArg Host.Outcome.next (if_pos h)

/-! ### A late bell of partition 0 on a tick of the timebase -/

/-- The late bell of `lateRadioBell`, with a slew of which 5 units are left. -/
def lateBellAtSlewEnd : State := { lateRadioBell with tb := { lateRadioBell.tb with rem := 5 } }

/-- The tick that ends the slew lets the bell fire first, which writes the slot ledger (R66, R204, R205). -/
theorem lateBellAtSlewEnd_marks : (deviceTick lateBellAtSlewEnd).mem = [(8, 1), (9, 1)] := by decide +kernel

/-- Refutes O35: on the tick that ends a slew a bell of partition 0 that fires late marks the live slots in the slot
ledger, which is in memory. -/
theorem not_slewsCorrectExactly : ¬ Obligations.SlewsCorrectExactly := by
  unfold Obligations.SlewsCorrectExactly
  intro h
  obtain ⟨-, -, -, hend, -⟩ := h 0 lateBellAtSlewEnd
  obtain ⟨u, hexec, -, -, -, hmem⟩ := hend (by decide) (by decide) (by decide)
  rw [exec_slewEnd (by decide)] at hexec
  injection hexec with hu
  rw [← hu, lateBellAtSlewEnd_marks] at hmem
  exact absurd hmem (by decide)

/-- The late bell of `lateRadioBell`, with a step asked for in LOCKED, where it is refused. -/
def lateBellAtStep : State := { lateRadioBell with tb := { lateRadioBell.tb with stepGo := true, lock := .locked } }

theorem lateBellAtStep_marks : (deviceTick lateBellAtStep).mem = [(8, 1), (9, 1)] := by decide +kernel

/-- Refutes O37: on the tick that evaluates a step a bell of partition 0 that fires late marks the live slots in the slot
ledger, which is in memory. -/
theorem not_stepsFollowR51 : ¬ Obligations.StepsFollowR51 := by
  unfold Obligations.StepsFollowR51
  intro h
  obtain ⟨-, -, hstep⟩ := h 0 lateBellAtStep
  obtain ⟨t, u, -, hexec, -, hmem, -⟩ := hstep rfl
  rw [exec_stepApply rfl] at hexec
  injection hexec with hu
  rw [← hu, lateBellAtStep_marks] at hmem
  exact absurd hmem (by decide)

/-- The late bell of `lateRadioBell`, with a write of FH_AGC_CMD that waits for the tick. -/
def lateBellAtGain : State := { lateRadioBell with fh := { lateRadioBell.fh with cmds := [(0, 0)] } }

theorem lateBellAtGain_marks : (deviceTick lateBellAtGain).mem = [(8, 1), (9, 1)] := by decide +kernel

/-- Refutes O45: on the tick on which a gain command acts a bell of partition 0 that fires late marks the live slots in
the slot ledger, which is in memory. -/
theorem not_fronthaulPortsFramesAndGain : ¬ Obligations.FronthaulPortsFramesAndGain := by
  unfold Obligations.FronthaulPortsFramesAndGain
  intro h
  obtain ⟨-, -, -, -, -, -, -, -, -, hgain, -⟩ := h 0 lateBellAtGain
  obtain ⟨-, -, htick⟩ := hgain .steward 0
  obtain ⟨u, hstep, -, hmem, -⟩ := htick 0 rfl rfl
  rw [step_idle rfl] at hstep
  injection hstep with hu
  rw [← hu, lateBellAtGain_marks] at hmem
  exact absurd hmem (by decide)

end Sys2Proof.Proofs
end

section
/-! PROOFS. Bit fields of words: what `fld`, `bit` and the updates of a field read as, bit by bit. -/

namespace Sys2Proof.Proofs

open Sys2Proof Sys2Proof.Machine

theorem bit_eq_getLsbD {w : Nat} (v : BitVec w) (i : Nat) : bit v i = v.getLsbD i := by
  have h : i + 1 - i = 1 := by omega
  simp [bit, fld, h, BitVec.getLsbD, Nat.testBit_eq_decide_div_mod_eq, Bool.beq_eq_decide_eq]

theorem testBit_fld {w : Nat} (v : BitVec w) (hi lo i : Nat) :
    (fld v hi lo).testBit i = (decide (i < hi + 1 - lo) && v.getLsbD (lo + i)) := by
  rw [fld, Nat.testBit_mod_two_pow, Nat.testBit_div_two_pow, BitVec.getLsbD, Nat.add_comm i lo]

/-- A field depends on its bits alone. -/
theorem fld_congr {w : Nat} {v u : BitVec w} {hi lo : Nat}
    (h : ∀ i, lo ≤ i → i ≤ hi → v.getLsbD i = u.getLsbD i) : fld v hi lo = fld u hi lo := by
  apply Nat.eq_of_testBit_eq
  intro i
  rw [testBit_fld, testBit_fld]
  by_cases hi' : i < hi + 1 - lo
  · rw [h (lo + i) (by omega) (by omega)]
  · simp [hi']

theorem getLsbD_place (hi lo x i : Nat) (h : i < 64) :
    (place hi lo x).getLsbD i = (decide (lo ≤ i ∧ i ≤ hi) && x.testBit (i - lo)) := by
  simp only [place, BitVec.getLsbD_ofNat, h, decide_true, Bool.true_and, Nat.testBit_mul_two_pow,
    Nat.testBit_mod_two_pow]
  by_cases h1 : lo ≤ i
  · by_cases h2 : i ≤ hi
    · simp [h1, h2, show i - lo < hi + 1 - lo by omega]
    · simp [h1, h2, show ¬ i - lo < hi + 1 - lo by omega]
  · simp [h1]

theorem getLsbD_fmask (hi lo i : Nat) (h : i < 64) : (fmask hi lo).getLsbD i = decide (lo ≤ i ∧ i ≤ hi) := by
  simp only [fmask, BitVec.getLsbD_ofNat, h, decide_true, Bool.true_and, Nat.testBit_mul_two_pow,
    Nat.testBit_two_pow_sub_one]
  by_cases h1 : lo ≤ i
  · by_cases h2 : i ≤ hi
    · simp [h1, h2, show i - lo < hi + 1 - lo by omega]
    · simp [h1, h2, show ¬ i - lo < hi + 1 - lo by omega]
  · simp [h1]

theorem getLsbD_putFld (v : Word) (hi lo x i : Nat) (h : i < 64) :
    (putFld v hi lo x).getLsbD i = if lo ≤ i ∧ i ≤ hi then x.testBit (i - lo) else v.getLsbD i := by
  simp only [putFld, BitVec.getLsbD_or, BitVec.getLsbD_and, BitVec.getLsbD_not, getLsbD_place _ _ _ _ h,
    getLsbD_fmask _ _ _ h, h, decide_true, Bool.true_and]
  split
  next hin => simp [hin]
  next hout => simp [hout]

theorem getLsbD_setBit (v : Word) (b i : Nat) (h : i < 64) :
    (setBit v b).getLsbD i = (decide (i = b) || v.getLsbD i) := by
  rw [setBit, BitVec.getLsbD_or, getLsbD_place _ _ _ _ h, Bool.or_comm]
  by_cases hb : i = b
  · simp [hb]
  · simp [hb, show ¬ (b ≤ i ∧ i ≤ b) by omega]

theorem getLsbD_clearBit (v : Word) (b i : Nat) (h : i < 64) :
    (clearBit v b).getLsbD i = (!decide (i = b) && v.getLsbD i) := by
  rw [clearBit, BitVec.getLsbD_and, BitVec.getLsbD_not, getLsbD_place _ _ _ _ h, Bool.and_comm]
  by_cases hb : i = b
  · simp [hb]
  · simp [hb, h, show ¬ (b ≤ i ∧ i ≤ b) by omega]

/-! ### A field or a bit after an update of the word -/

theorem fld_lt {w : Nat} (v : BitVec w) (hi lo : Nat) : fld v hi lo < 2 ^ (hi + 1 - lo) :=
  Nat.mod_lt _ (Nat.two_pow_pos _)

theorem fld_putFld_same (v : Word) (hi lo x : Nat) (h : hi < 64) :
    fld (putFld v hi lo x) hi lo = x % 2 ^ (hi + 1 - lo) := by
  apply Nat.eq_of_testBit_eq
  intro i
  rw [testBit_fld, Nat.testBit_mod_two_pow]
  by_cases hi' : i < hi + 1 - lo
  · rw [getLsbD_putFld _ _ _ _ _ (by omega), if_pos (by omega), Nat.add_sub_cancel_left]
  · simp [hi']

theorem fld_putFld_ne (v : Word) (hi lo x hi' lo' : Nat) (h : hi < 64) (hd : hi < lo' ∨ hi' < lo) :
    fld (putFld v hi' lo' x) hi lo = fld v hi lo :=
  fld_congr fun i h1 h2 => by rw [getLsbD_putFld _ _ _ _ _ (by omega), if_neg (by omega)]

theorem fld_clearBit_ne (v : Word) (b hi lo : Nat) (h : hi < 64) (hd : b < lo ∨ hi < b) :
    fld (clearBit v b) hi lo = fld v hi lo :=
  fld_congr fun i h1 h2 => by rw [getLsbD_clearBit _ _ _ (by omega)]; simp [show i ≠ b by omega]

theorem bit_setBit (v : Word) (b i : Nat) (h : i < 64) : bit (setBit v b) i = (decide (i = b) || bit v i) := by
  rw [bit_eq_getLsbD, bit_eq_getLsbD, getLsbD_setBit _ _ _ h]

theorem bit_clearBit (v : Word) (b i : Nat) (h : i < 64) : bit (clearBit v b) i = (!decide (i = b) && bit v i) := by
  rw [bit_eq_getLsbD, bit_eq_getLsbD, getLsbD_clearBit _ _ _ h]

theorem bit_putFld_ne (v : Word) (hi lo x i : Nat) (h : i < 64) (hd : i < lo ∨ hi < i) :
    bit (putFld v hi lo x) i = bit v i := by
  rw [bit_eq_getLsbD, bit_eq_getLsbD, getLsbD_putFld _ _ _ _ _ h, if_neg (by omega)]

/-! ### Signed readings -/

theorem signed_eq_toInt (n x : Nat) : signed n x = (BitVec.ofNat n x).toInt := by
  simp only [signed, BitVec.toInt, BitVec.toNat_ofNat]

/-- The signed reading of the low bits of a word. -/
theorem sfld_low {w : Nat} (v : BitVec w) (n : Nat) : sfld v n 0 = (v.setWidth (n + 1)).toInt := by
  have h : BitVec.ofNat (n + 1) (fld v n 0) = v.setWidth (n + 1) := by
    apply BitVec.eq_of_toNat_eq
    simp [fld]
  rw [sfld, Nat.sub_zero, signed_eq_toInt, h]

end Sys2Proof.Proofs
end

section
/-! PROOFS. What the timebase keeps while bells fire and records are written: an operation that writes neither the timebase
nor a register below TB_EVT leaves device time, TB_CTL, TB_RATE, the step registers and TB_LOCK_CFG as they stand. -/

namespace Sys2Proof.Proofs

open Sys2Proof Sys2Proof.Machine Sys2Proof.Laws

/-- From `o` to `s` the timebase stands, and so does every register below TB_EVT (0x10078). -/
structure TimeKept (o s : State) : Prop where
  tb  : s.tb = o.tb
  low : ∀ a < 0x10078, Tab.get resetAt s.regs a = Tab.get resetAt o.regs a

section

variable {o s : State}

theorem timeKept_refl (s : State) : TimeKept s s := ⟨rfl, fun _ _ => rfl⟩

/-- A change of anything but the timebase and the registers. -/
theorem timeKept_of_eq {u : State} (h : TimeKept o s) (htb : u.tb = s.tb) (hregs : u.regs = s.regs) : TimeKept o u :=
  ⟨htb.trans h.tb, fun a ha => by rw [hregs, h.low a ha]⟩

theorem timeKept_setReg (h : TimeKept o s) {r : RegName} {v : Word} {i j : Nat} (hb : 0x10078 ≤ r.desc.base) :
    TimeKept o (s.setReg r v i j) := by
  refine ⟨h.tb, fun a ha => ?_⟩
  have hne : a ≠ addrOf r i j := by unfold addrOf; omega
  exact (tab_get_set_ne resetAt s.regs v hne).trans (h.low a ha)

theorem timeKept_flag (h : TimeKept o s) {r : RegName} {b i j : Nat} (hb : 0x10078 ≤ r.desc.base) :
    TimeKept o (s.flag r b i j) := timeKept_setReg h hb

theorem timeKept_putReg (h : TimeKept o s) {r : RegName} {hi lo x i j : Nat} (hb : 0x10078 ≤ r.desc.base) :
    TimeKept o (s.putReg r hi lo x i j) := timeKept_setReg h hb

theorem timeKept_count (h : TimeKept o s) {r : RegName} {hi lo i j k : Nat} (hb : 0x10078 ≤ r.desc.base) :
    TimeKept o (s.count r hi lo i j k) := timeKept_setReg h hb

theorem timeKept_reg (h : TimeKept o s) {r : RegName} (hr : addrOf r 0 0 < 0x10078) : s.reg r = o.reg r := h.low _ hr

theorem timeKept_foldl {α : Type} {f : State → α → State} (hf : ∀ s x, TimeKept o s → TimeKept o (f s x)) (xs : List α)
    (h : TimeKept o s) : TimeKept o (xs.foldl f s) :=
  List.foldlRecOn xs f h fun u hu x _ => hf u x hu

/-! ### Notices -/

theorem timeKept_wakeDom (h : TimeKept o s) (d : Nat) : TimeKept o (wakeDom d s) := by
  unfold wakeDom
  split
  · refine timeKept_count ?_ (by decide)
    exact timeKept_of_eq h rfl rfl
  · exact h

theorem timeKept_wakeTile (h : TimeKept o s) (t : Nat) : TimeKept o (wakeTile t s) := by
  unfold wakeTile
  split
  · exact timeKept_wakeDom (timeKept_wakeDom h _) _
  · exact h

theorem timeKept_latchCx (h : TimeKept o s) (c : Nat) (bits : BitVec 32) : TimeKept o (latchCx c bits s) :=
  timeKept_setReg h (by decide)

theorem timeKept_evtSaved (h : TimeKept o s) (t : Nat) (bits : BitVec 32) : TimeKept o (evtSaved t bits s) := by
  unfold evtSaved
  split
  · exact h
  · split
    · exact timeKept_latchCx h _ _
    · exact timeKept_of_eq h rfl rfl

theorem timeKept_evtOn (h : TimeKept o s) (t c : Nat) (bits : BitVec 32) : TimeKept o (evtOn t c bits s) := by
  unfold evtOn
  split
  · exact timeKept_latchCx h _ _
  · split
    · exact timeKept_evtSaved h _ _
    · exact timeKept_of_eq h rfl rfl

theorem timeKept_evtOff (h : TimeKept o s) (p t : Nat) (bits : BitVec 32) : TimeKept o (evtOff p t bits s) := by
  unfold evtOff
  split
  · exact timeKept_latchCx h _ _
  · exact timeKept_flag h (by decide)

theorem timeKept_deliverEvt (h : TimeKept o s) (p t : Nat) (bits : BitVec 32) : TimeKept o (deliverEvt p t bits s) := by
  have hoff : ∀ saved : Bool, TimeKept o (if saved then evtSaved t bits s else evtOff p t bits s) := by
    intro saved
    split
    · exact timeKept_evtSaved h _ _
    · exact timeKept_evtOff h _ _ _
  unfold deliverEvt
  split
  · exact timeKept_of_eq h rfl rfl
  · dsimp only
    split
    · split
      · exact timeKept_evtOn h _ _ _
      · exact hoff _
    · exact hoff _

theorem timeKept_deliverEvts (h : TimeKept o s) (p : Nat) (ts : List Nat) (bits : BitVec 32) :
    TimeKept o (deliverEvts p ts bits s) :=
  timeKept_foldl (fun _ t hu => timeKept_deliverEvt (timeKept_wakeTile hu t) p t bits) ts h

theorem timeKept_hostNotify (h : TimeKept o s) (f v : Nat) : TimeKept o (hostNotify f v s) := by
  have hw := timeKept_wakeDom h 45
  unfold hostNotify
  split
  · exact timeKept_of_eq h rfl rfl
  · dsimp only
    split
    · exact hw
    · exact timeKept_of_eq hw rfl rfl

theorem timeKept_notify (h : TimeKept o s) (m : Nat) (bits : BitVec 32) : TimeKept o (notify m bits s) := by
  unfold notify
  split
  · exact h
  · split
    · exact timeKept_of_eq (timeKept_wakeDom h 48) rfl rfl
    · exact timeKept_hostNotify h _ _
    · exact timeKept_deliverEvts h _ _ _
    · exact h

theorem timeKept_ringDb (h : TimeKept o s) (m : Nat) (bits : BitVec 32) : TimeKept o (ringDb m bits s) := by
  unfold ringDb
  split
  · exact timeKept_count h (by decide)
  · split
    · exact timeKept_count h (by decide)
    · exact timeKept_notify (timeKept_setReg h (by decide)) _ _

theorem timeKept_ringReg (h : TimeKept o s) (r : RegName) (i j : Nat) : TimeKept o (ringReg r i j s) := by
  unfold ringReg
  split
  · exact timeKept_ringDb h _ _
  · exact h

theorem timeKept_errRecord (h : TimeKept o s) (code : Nat) (w : Who) (addr aux : Nat) :
    TimeKept o (errRecord code w addr aux s) := by
  have hsum : TimeKept o ((match errInput code with | some i => reeveCount i 1 s | none => s).flag .ERR_SUM
      (errClass code)) := by
    refine timeKept_flag ?_ (by decide)
    split
    · exact timeKept_of_eq h rfl rfl
    · exact h
  unfold errRecord
  dsimp only
  revert hsum
  generalize State.flag (match errInput code with | some i => reeveCount i 1 s | none => s) .ERR_SUM (errClass code) = u
  intro hsum
  split
  · exact timeKept_setReg (timeKept_count hsum (by decide)) (by decide)
  · split
    · split
      · refine timeKept_ringReg ?_ _ _ _
        iterate 4 refine timeKept_setReg ?_ (by decide)
        exact hsum
      · iterate 4 refine timeKept_setReg ?_ (by decide)
        exact hsum
    · refine timeKept_count ?_ (by decide)
      split
      · exact timeKept_putReg hsum (by decide)
      · exact hsum

/-! ### Writes of an engine -/

theorem timeKept_memErrRecord (h : TimeKept o s) (e : MemErr) (w : Who) (a aux : Nat) :
    TimeKept o (memErrRecord e w a aux s) := by
  unfold memErrRecord
  split
  · exact timeKept_errRecord h _ _ _ _
  · exact timeKept_errRecord h _ _ _ _
  · exact h
  · exact timeKept_errRecord h _ _ _ _

theorem timeKept_correctWord (h : TimeKept o s) (w : Nat) : TimeKept o (s.correctWord w) := by
  unfold State.correctWord
  split
  · exact timeKept_of_eq h rfl rfl
  · exact timeKept_of_eq h rfl rfl
  · exact h

theorem timeKept_countCorrected (h : TimeKept o s) (w : Nat) : TimeKept o (countCorrected w s) := by
  have hc := timeKept_of_eq (u := reeveCount 0 1 s) h rfl rfl
  unfold countCorrected
  dsimp only
  split
  · exact timeKept_count hc (by decide)
  · exact timeKept_count hc (by decide)
  · exact hc

theorem timeKept_setBytes (h : TimeKept o s) (a : Nat) (bs : List Byte) : TimeKept o (s.setBytes a bs) := by
  induction bs generalizing a s with
  | nil => exact h
  | cons b bs ih => exact ih (s := s.setByte a b) (timeKept_of_eq h rfl rfl) (a + 1)

theorem timeKept_storeBytes (h : TimeKept o s) (a : Nat) (data : List Byte) : TimeKept o (storeBytes a data s) := by
  unfold storeBytes
  dsimp only
  refine timeKept_setBytes (timeKept_foldl (fun u w hu => ?clean) _ (timeKept_foldl (fun u w hu => ?correct) _ h)) _ _
  case clean => exact timeKept_of_eq hu rfl rfl
  case correct =>
    split
    · exact timeKept_correctWord (timeKept_countCorrected hu w) w
    · exact hu

theorem timeKept_storeHeld (h : TimeKept o s) (update : Bool) (a : Nat) (d : List Byte) :
    TimeKept o (storeHeld update a d s) := by
  unfold storeHeld
  split
  · split
    · exact timeKept_of_eq h rfl rfl
    · exact timeKept_storeBytes h _ _
  · exact timeKept_storeBytes h _ _

theorem timeKept_dirtyLog (h : TimeKept o s) (a : Nat) : TimeKept o (dirtyLog a s) := by
  unfold dirtyLog
  split
  · split
    · dsimp only
      split
      · unfold orDirty
        split
        · exact timeKept_memErrRecord h _ _ _ _
        · exact timeKept_storeHeld h _ _ _
      · exact h
    · exact h
  · exact h

theorem timeKept_tierCharge (h : TimeKept o s) (w : Who) (a len : Nat) : TimeKept o (tierCharge w a len s) := by
  have hw : TimeKept o (wakeFor a s) := by
    unfold wakeFor
    split
    · exact timeKept_wakeDom h _
    · exact timeKept_wakeTile h _
    · exact timeKept_wakeDom h _
    · exact h
  have ht : ∀ n, TimeKept o (t2Done w (touchPage n (wakeFor a s))) := by
    intro n
    unfold touchPage
    dsimp only
    split
    · exact timeKept_of_eq hw rfl rfl
    · exact timeKept_of_eq hw rfl rfl
  unfold tierCharge
  dsimp only
  split
  · split
    · exact timeKept_of_eq (ht _) rfl rfl
    · exact ht _
  · exact hw

theorem timeKept_t2Lost (h : TimeKept o s) (a len : Nat) : TimeKept o (t2Lost a len s).2 := by
  unfold t2Lost
  split
  · exact h
  · exact timeKept_of_eq h rfl rfl

theorem timeKept_devWrite (h : TimeKept o s) (w : Who) (a : Nat) (data : List Byte) (aux : Nat) :
    TimeKept o (devWrite w a data aux s).2 := by
  have hl := timeKept_t2Lost h a data.length
  unfold devWrite devPut
  split
  · exact h
  · split
    · exact timeKept_memErrRecord h _ _ _ _
    · dsimp only
      split
      · dsimp only
        exact timeKept_memErrRecord hl _ _ _ _
      · split
        · dsimp only
          exact timeKept_memErrRecord hl _ _ _ _
        · exact timeKept_foldl (fun _ p hu => timeKept_storeHeld (timeKept_tierCharge (timeKept_dirtyLog hu _) _ _ _) _ _ _)
            _ hl

/-! ### The slot ledger and the bells -/

theorem timeKept_ledgerUpdate (h : TimeKept o s) (c : Nat) (n : Int) (ns : Nat) (f : Word → Word) :
    TimeKept o (ledgerUpdate c n ns f s) := by
  unfold ledgerUpdate
  split
  · exact h
  · refine timeKept_devWrite ?_ _ _ _ _
    split
    · exact timeKept_flag (timeKept_flag h (by decide)) (by decide)
    · exact h

theorem timeKept_ledgerLive (h : TimeKept o s) (touches : Live → Bool) (bits : List Nat) :
    TimeKept o (ledgerLive touches bits s) :=
  timeKept_foldl (fun _ _ hu => timeKept_ledgerUpdate hu _ _ _ _) _ h

theorem timeKept_recordFire (h : TimeKept o s) (b n : Nat) (late dropped denied : Bool) :
    TimeKept o (recordFire b n late dropped denied s) := by
  unfold recordFire
  extract_lets last s1 s2 s3 s4
  have h2 : TimeKept o s2 := timeKept_flag (timeKept_putReg (timeKept_putReg h (by decide)) (by decide)) (by decide)
  have h3 : TimeKept o s3 := by
    unfold s3
    split
    · exact timeKept_flag (timeKept_count h2 (by decide)) (by decide)
    · exact h2
  have h4 : TimeKept o s4 := by
    unfold s4
    split
    · exact timeKept_flag (timeKept_count h3 (by decide)) (by decide)
    · exact h3
  split
  · exact timeKept_ledgerLive h4 _ _
  · exact h4

theorem timeKept_advanceBell (h : TimeKept o s) (b n : Nat) : TimeKept o (advanceBell b n s) := by
  unfold advanceBell disarmBell
  extract_lets period s1 s2 k s3
  have h1 : TimeKept o s1 := timeKept_of_eq h rfl rfl
  have h2 : TimeKept o s2 := timeKept_setReg h1 (by decide)
  have h3 : TimeKept o s3 := timeKept_putReg h2 (by decide)
  split
  · exact timeKept_setReg h1 (by decide)
  · split
    · exact h2
    · split
      · exact timeKept_setReg h3 (by decide)
      · exact h3

theorem timeKept_fireBell (h : TimeKept o s) (b n : Nat) : TimeKept o (fireBell b n s) := by
  unfold fireBell
  split
  · exact h
  · dsimp only
    refine timeKept_advanceBell ?_ _ _
    split
    · exact timeKept_of_eq (timeKept_recordFire h b n _ _ _) rfl rfl
    · exact timeKept_recordFire h b n _ _ _

theorem timeKept_fireDue (h : TimeKept o s) (b k : Nat) : TimeKept o (fireDue b k s) := by
  induction k generalizing s with
  | zero => exact h
  | succ k ih =>
    rw [fireDue]
    split
    · exact ih (timeKept_fireBell h _ _)
    · exact h

/-- The bells that fire on a tick leave the timebase and its registers below TB_EVT. -/
theorem timeKept_fireAll (s : State) : TimeKept s (fireAll s) :=
  timeKept_foldl (fun _ b hu => timeKept_fireDue hu b 64) _ (timeKept_refl s)

end

end Sys2Proof.Proofs
end

section
/-! PROOFS. The reference tick: what it does to the timebase. -/

namespace Sys2Proof.Proofs

open Sys2Proof Sys2Proof.Machine Sys2Proof.Laws

/-! ### Commands that let a reference tick pass -/

/-! ### Device time under the changes of the timebase -/

/-- A change of the effective rate does not move device time (R43). -/
theorem setEff_now (t : Timebase) (e : Int) : (t.setEff e).now = t.now := by
  simp only [Timebase.now, Timebase.setEff, Int.mul_sub]
  omega

theorem advance_now {t : Timebase} (h : t.rem = 0) : t.advance.now = t.now + 2 ^ 40 + t.eff := by
  rw [Timebase.advance, if_pos h]
  simp only [Timebase.now, Int.natCast_add, Int.add_mul, Int.natCast_one, Int.one_mul]
  omega

theorem advance_stepGo (t : Timebase) : t.advance.stepGo = t.stepGo := by
  unfold Timebase.advance
  split
  · rfl
  · split <;> rfl

theorem advance_ratePend (t : Timebase) : t.advance.ratePend = t.ratePend := by
  unfold Timebase.advance
  split
  · rfl
  · split <;> rfl

/-! ### The rates that a tick takes -/

/-- The timebase with the rates that wait in force, the effective rate not yet changed (R47, R50). -/
def ratesTaken (s : State) : Timebase :=
  { s.tb with
    rate := if s.tb.ratePend then sfld (s.reg .TB_RATE) 31 0 else s.tb.rate
    slewMax := if s.tb.slewPend then s.rf .TB_SLEW_MAX 27 0 else s.tb.slewMax
    ratePend := false
    slewPend := false }

theorem takeRates_eq (s : State) : takeRates s = (ratesTaken s).setEff (ratesTaken s).wantEff := by
  have hrate : sfld (s.reg .TB_RATE) 31 0 = signed 32 (s.rf .TB_RATE 31 0) := rfl
  unfold takeRates ratesTaken
  rw [hrate]
  generalize s.tb = t
  cases t with
  | mk ticks offset rate slewMax eff rem ratePend slewPend =>
    cases ratePend <;> cases slewPend <;> rfl

theorem takeRates_rate {s : State} (h : s.tb.ratePend = true) :
    (takeRates s).rate = ((s.reg .TB_RATE).setWidth 32).toInt := by
  rw [takeRates_eq, ← sfld_low (s.reg .TB_RATE) 31]
  exact if_pos h

theorem takeRates_ratePend (s : State) : (takeRates s).ratePend = false := by rw [takeRates_eq]; rfl

theorem takeRates_now (s : State) : (takeRates s).now = s.tb.now := by rw [takeRates_eq, setEff_now]; rfl

theorem takeRates_eff (s : State) : (takeRates s).eff = (takeRates s).wantEff := by rw [takeRates_eq]; rfl

theorem takeRates_rem (s : State) : (takeRates s).rem = s.tb.rem := by rw [takeRates_eq]; rfl

theorem takeRates_stepGo (s : State) : (takeRates s).stepGo = s.tb.stepGo := by rw [takeRates_eq]; rfl

theorem wantEff_of_rem {t : Timebase} (h : t.rem = 0) : t.wantEff = t.rate := if_pos h

/-- The state as the counter has advanced, before the rates are taken. -/
def advanced (s : State) : State := { s with tb := s.tb.advance }

theorem refTick_tb {s : State} (h : s.tb.stepGo = false) : (refTick s).tb = takeRates (advanced s) := by
  have hgo : (takeRates (advanced s)).stepGo = false := by rw [takeRates_stepGo, advanced, advance_stepGo, h]
  unfold refTick
  simp only [advanced] at hgo ⊢
  rw [hgo]
  rfl

/-! ### The rest of the tick -/

theorem agcCommand_tb (v : Word) (t : Nat) (s : State) : (agcCommand v t s).tb = s.tb := by
  have hf : ∀ (ks : List Nat) (f : Bool) (e : Option Nat) (s : State),
      (ks.foldl (fun s k => setFrozen k f e s) s).tb = s.tb := fun ks f e s =>
    List.foldlRecOn ks _ (motive := fun u : State => u.tb = s.tb) rfl fun _ hu _ _ => hu
  unfold agcCommand
  dsimp only
  split
  · exact hf _ _ _ _
  · split
    · exact hf _ _ _ _
    · rfl

theorem agcTick_tb (s : State) : (agcTick s).tb = s.tb :=
  List.foldlRecOn s.fh.cmds (fun s c => agcCommand c.1 c.2 s) (motive := fun u : State => u.tb = s.tb)
    (b := { s with fh := { s.fh with cmds := [] } }) rfl fun u hu c _ => (agcCommand_tb c.1 c.2 u).trans hu

theorem settleStops_tb (s : State) : (settleStops s).tb = s.tb := by
  unfold settleStops
  dsimp only
  refine List.foldlRecOn _ _ (motive := fun u : State => u.tb = s.tb)
    (List.foldlRecOn _ _ (motive := fun u : State => u.tb = s.tb) rfl fun u hu p _ => ?stop) fun u hu f _ => ?drain
  all_goals
    split
    · exact hu
    · exact hu

theorem deviceTick_tb (s : State) : (deviceTick s).tb = (refTick (fireAll s)).tb := by
  rw [deviceTick, settleStops_tb, agcTick_tb]
  rfl

/-! ### TB_RATE -/

theorem writePlain_tbRate (s : State) (v : Word) :
    s.writePlain .TB_RATE v = s.setReg .TB_RATE ((s.reg .TB_RATE &&& 0xFFFFFFFF00000000) ||| (v &&& 0xFFFFFFFF)) := by
  have h : RegDesc.written (RegName.desc .TB_RATE) (s.reg .TB_RATE) v =
      (s.reg .TB_RATE &&& 0xFFFFFFFF00000000) ||| (v &&& 0xFFFFFFFF) := by
    simp [RegDesc.written, RegName.desc, accessMask, fmask, and_everyBit]
  rw [State.writePlain, h]

/-- The state after a TB_RATE write that is accepted. -/
def rateWritten (v : Word) (s : State) : State :=
  { s.setReg .TB_RATE ((s.reg .TB_RATE &&& 0xFFFFFFFF00000000) ||| (v &&& 0xFFFFFFFF)) with
    tb := { s.tb with ratePend := true } }

theorem exec_tbRateWrite_accepted {v : Word} {s : State} (hlo : -219902326 ≤ (v.setWidth 32).toInt)
    (hhi : (v.setWidth 32).toInt ≤ 219902326) : exec (.tbRateWrite v) s = .next (rateWritten v s) := by
  have hin : (sfld v 31 0).natAbs ≤ ppm200 := by
    rw [sfld_low v 31, ppm200]
    show (v.setWidth 32).toInt.natAbs ≤ _
    omega
  show Host.Outcome.next (tbRateWrite v s) = _
  rw [tbRateWrite, if_pos hin, writePlain_tbRate]
  rfl

theorem exec_tbRateWrite_rejected {v : Word} {s : State}
    (h : (v.setWidth 32).toInt < -219902326 ∨ 219902326 < (v.setWidth 32).toInt) :
    exec (.tbRateWrite v) s = .next (s.flag .TB_EVT 3) := by
  have hout : ¬ (sfld v 31 0).natAbs ≤ ppm200 := by
    rw [sfld_low v 31, ppm200]
    show ¬ (v.setWidth 32).toInt.natAbs ≤ _
    omega
  exact congrArg Host.Outcome.next (if_neg hout)

theorem rateWritten_reg (v : Word) (s : State) :
    (rateWritten v s).reg .TB_RATE = (s.reg .TB_RATE &&& 0xFFFFFFFF00000000) ||| (v &&& 0xFFFFFFFF) :=
  reg_setReg_same s .TB_RATE _ 0 0

theorem rateWritten_reg_low (v : Word) (s : State) : ((rateWritten v s).reg .TB_RATE).setWidth 32 = v.setWidth 32 := by
  rw [rateWritten_reg]
  apply BitVec.eq_of_getLsbD_eq
  intro i hi
  have hlo : (0xFFFFFFFF : Word).getLsbD i = true := by revert i; decide
  have hhi : (0xFFFFFFFF00000000 : Word).getLsbD i = false := by revert i; decide
  rw [BitVec.getLsbD_setWidth, BitVec.getLsbD_setWidth, BitVec.getLsbD_or, BitVec.getLsbD_and, BitVec.getLsbD_and, hlo, hhi]
  simp

/-- The tick after an accepted rate: the bells that fire before it leave TB_RATE, which it takes. -/
theorem deviceTick_rateWritten (v : Word) {s : State} (h : s.tb.stepGo = false) :
    (deviceTick (rateWritten v s)).tb.rate = (v.setWidth 32).toInt ∧ (deviceTick (rateWritten v s)).tb.ratePend = false ∧
    (s.tb.rem = 0 → (deviceTick (rateWritten v s)).tb.eff = (v.setWidth 32).toInt ∧
      (deviceTick (rateWritten v s)).tb.now = s.tb.now + 2 ^ 40 + s.tb.eff) := by
  have hk := timeKept_fireAll (rateWritten v s)
  have htb : (deviceTick (rateWritten v s)).tb = takeRates (advanced (fireAll (rateWritten v s))) := by
    rw [deviceTick_tb, refTick_tb (by rw [hk.tb]; exact h)]
  have hreg : (advanced (fireAll (rateWritten v s))).reg .TB_RATE = (rateWritten v s).reg .TB_RATE :=
    timeKept_reg hk (by decide)
  have hpend : (advanced (fireAll (rateWritten v s))).tb.ratePend = true := by
    rw [advanced, advance_ratePend, hk.tb]
    rfl
  have hrate : (takeRates (advanced (fireAll (rateWritten v s)))).rate = (v.setWidth 32).toInt := by
    rw [takeRates_rate hpend, hreg, rateWritten_reg_low]
  rw [htb]
  refine ⟨hrate, takeRates_ratePend _, fun hrem => ?_⟩
  have hrem' : (fireAll (rateWritten v s)).tb.rem = 0 := by rw [hk.tb]; exact hrem
  refine ⟨?_, ?_⟩
  · rw [takeRates_eff, wantEff_of_rem, hrate]
    rw [takeRates_rem, advanced, Timebase.advance, if_pos hrem']
    exact hrem'
  · rw [takeRates_now, advanced, advance_now hrem', hk.tb]
    rfl

/-- Settles O34: an accepted rate is taken by the next tick, which does not move device time; another is flagged. -/
theorem rateWritesFollowR47 : Obligations.RateWritesFollowR47 := by
  unfold Obligations.RateWritesFollowR47
  intro v s
  refine ⟨fun hlo hhi => ⟨rateWritten v s, exec_tbRateWrite_accepted hlo hhi, rateWritten_reg v s, ?_, ?_⟩,
    exec_tbRateWrite_rejected⟩
  · rw [rateWritten_reg]
    rfl
  · intro hp hgo
    exact ⟨_, step_idle hp, deviceTick_rateWritten v hgo⟩

end Sys2Proof.Proofs
end

section
/-! PROOFS. The lock states of the timebase. -/

namespace Sys2Proof.Proofs

open Sys2Proof Sys2Proof.Machine Sys2Proof.Laws

/-! ### The slot ledger with no live slot -/

theorem ledgerLive_nil {s : State} (h : s.fh.live = []) (touches : Live → Bool) (bits : List Nat) :
    ledgerLive touches bits s = s := by
  rw [ledgerLive, h]
  rfl

/-! ### Moving the lock state -/

/-- The timebase as the lock state becomes a different one (R52). -/
def lockMoved (k : LockState) (t : Timebase) : Timebase :=
  { t with
    lock := k
    lockRun := if k = .freerun then 0 else t.lockRun
    holdAt := if k = .holdover then t.ticks else t.holdAt }

theorem setLock_same {k : LockState} {s : State} (h : s.tb.lock = k) : setLock k s = s := if_pos h

/-- The state as the lock state becomes a different one, before the live slots are marked. -/
def lockChanged (k : LockState) (s : State) : State := { s with tb := lockMoved k s.tb }.flag .TB_EVT 0

theorem setLock_ne {k : LockState} {s : State} (h : s.tb.lock ≠ k) : setLock k s =
    if s.syncOk && !(lockChanged k s).syncOk then ledgerLive (fun _ => true) [ledNoSync, ledFault] (lockChanged k s)
    else lockChanged k s := if_neg h

theorem setLock_tb {k : LockState} {s : State} (h : s.tb.lock ≠ k) : (setLock k s).tb = lockMoved k s.tb := by
  rw [setLock_ne h]
  split
  · exact (timeKept_ledgerLive (timeKept_refl _) _ _).tb
  · rfl

theorem setLock_noLive {k : LockState} {s : State} (h : s.tb.lock ≠ k) (hl : s.fh.live = []) :
    setLock k s = lockChanged k s := by
  rw [setLock_ne h, ledgerLive_nil (s := lockChanged k s) hl, ite_self]

/-- From `s` to `u` the lock state becomes `k`, with run count `n`, and device time stands (R52). -/
def LockMovesTo (s : State) (k : LockState) (n : Nat) (u : State) : Prop :=
  u.tb.lock = k ∧ u.tb.now = s.tb.now ∧ u.tb.lockRun = (if k = .freerun ∧ s.tb.lock ≠ .freerun then 0 else n) ∧
  (s.fh.live = [] → (u.rb .TB_EVT 0 = true ↔ s.rb .TB_EVT 0 = true ∨ k ≠ s.tb.lock) ∧ u.mem = s.mem ∧ u.tiles = s.tiles)

/-- A state that differs in nothing that the lock state's rules speak of, with run count `n`. -/
theorem lockMovesTo_same {s m : State} {n : Nat} (hlock : m.tb.lock = s.tb.lock) (hnow : m.tb.now = s.tb.now)
    (hrun : m.tb.lockRun = n) (hevt : m.rb .TB_EVT 0 = s.rb .TB_EVT 0) (hmem : m.mem = s.mem)
    (htiles : m.tiles = s.tiles) : LockMovesTo s s.tb.lock n m := by
  refine ⟨hlock, hnow, ?_, fun _ => ⟨?_, hmem, htiles⟩⟩
  · rw [hrun, if_neg fun h => h.2 h.1]
  · rw [hevt]
    simp

/-- Moving the lock state from there. -/
theorem setLock_movesTo {s m : State} {n : Nat} (k : LockState) (h : LockMovesTo s s.tb.lock n m)
    (hlive : m.fh.live = s.fh.live) : LockMovesTo s k n (setLock k m) := by
  by_cases hk : s.tb.lock = k
  · rw [setLock_same (h.1.trans hk), ← hk]
    exact h
  · obtain ⟨hlock, hnow, hrun, hrest⟩ := h
    have hm : m.tb.lock ≠ k := by rwa [hlock]
    have hrun' : m.tb.lockRun = n := by rw [hrun, if_neg fun h => h.2 h.1]
    have htb := setLock_tb hm
    refine ⟨by rw [htb]; rfl, by rw [htb]; exact hnow, ?_, fun hl => ?_⟩
    · rw [htb]
      show (if k = .freerun then 0 else m.tb.lockRun) = _
      rw [hrun']
      by_cases hf : k = .freerun
      · subst hf
        rw [if_pos rfl, if_pos ⟨rfl, hk⟩]
      · rw [if_neg hf, if_neg fun h => hf h.1]
    · obtain ⟨-, hmem, htiles⟩ := hrest hl
      rw [setLock_noLive hm (hlive.trans hl)]
      refine ⟨?_, hmem, htiles⟩
      have hset : (lockChanged k m).rb .TB_EVT 0 = true := by
        rw [lockChanged, State.flag, State.rb, reg_setReg_same, bit_setBit _ _ _ (by decide)]
        rfl
      simp [hset, Ne.symm hk]

/-- What moving the lock state does to another register, with no live slot. -/
theorem setLock_reg {k : LockState} {s : State} (hl : s.fh.live = []) {r : RegName} {i j : Nat}
    (hr : addrOf r i j ≠ addrOf .TB_EVT 0 0) : (setLock k s).reg r i j = s.reg r i j := by
  by_cases h : s.tb.lock = k
  · rw [setLock_same h]
  · rw [setLock_noLive h hl]
    exact reg_setReg_ne _ _ _ _ _ _ _ _ hr

/-! ### Mode requests -/

theorem writePlain_tbCtl (s : State) (v : Word) :
    s.writePlain .TB_CTL v = s.setReg .TB_CTL ((s.reg .TB_CTL &&& ~~~ 0x100) ||| (v &&& 0x100)) := by
  have h : RegDesc.written (RegName.desc .TB_CTL) (s.reg .TB_CTL) v = (s.reg .TB_CTL &&& ~~~ 0x100) ||| (v &&& 0x100) := by
    simp [RegDesc.written, RegName.desc, accessMask, fmask, and_everyBit]
  rw [State.writePlain, h]

/-- The state after the STEP_GUARD of a mode request is written, before the request moves the lock state. -/
def guardWritten (g : Bool) (mode : Nat) (s : State) : State := s.writePlain .TB_CTL (modeRequest g mode)

theorem guardWritten_movesTo (g : Bool) (mode : Nat) (s : State) :
    LockMovesTo s s.tb.lock s.tb.lockRun (guardWritten g mode s) :=
  lockMovesTo_same rfl rfl rfl (congrArg (bit · 0) (reg_setReg_ne _ _ _ _ _ _ _ _ (by decide))) rfl rfl

theorem guardWritten_guard (g : Bool) (mode : Nat) (s : State) : (guardWritten g mode s).rb .TB_CTL 8 = g := by
  have hm : (0x100 : Word).getLsbD 8 = true := by decide
  have hv : (modeRequest g mode).getLsbD 8 = g := by
    rw [modeRequest, BitVec.getLsbD_or, BitVec.getLsbD_or, getLsbD_place _ _ _ _ (by decide), getLsbD_place _ _ _ _ (by decide),
      getLsbD_place _ _ _ _ (by decide)]
    cases g <;> simp
  rw [guardWritten, writePlain_tbCtl, State.rb, reg_setReg_same, bit_eq_getLsbD, BitVec.getLsbD_or, BitVec.getLsbD_and,
    BitVec.getLsbD_and, BitVec.getLsbD_not, hm, hv]
  simp

/-- A mode request leads to `k` and writes STEP_GUARD. -/
theorem modeRequest_movesTo {g : Bool} {mode : Nat} {k : LockState} {s u : State}
    (hu : u = setLock k (guardWritten g mode s)) :
    LockMovesTo s k s.tb.lockRun u ∧ (s.fh.live = [] → u.rb .TB_CTL 8 = g) := by
  subst hu
  refine ⟨setLock_movesTo k (guardWritten_movesTo g mode s) rfl, fun hl => ?_⟩
  rw [State.rb, setLock_reg (s := guardWritten g mode s) hl (by decide)]
  exact guardWritten_guard g mode s

theorem tbCtlWrite_freerun (g : Bool) (s : State) :
    tbCtlWrite (modeRequest g 0) s = setLock .freerun (guardWritten g 0 s) := by
  cases g <;> rfl

theorem tbCtlWrite_acquire (g : Bool) (s : State) : tbCtlWrite (modeRequest g 1) s =
    setLock (if s.tb.lock = .freerun then .acquiring else s.tb.lock) (guardWritten g 1 s) := by
  have h : tbCtlWrite (modeRequest g 1) s =
      if s.tb.lock = .freerun then setLock .acquiring (guardWritten g 1 s) else guardWritten g 1 s := by
    cases g <;> rfl
  rw [h]
  split
  · rfl
  · exact (setLock_same rfl).symm

theorem tbCtlWrite_holdover (g : Bool) (s : State) : tbCtlWrite (modeRequest g 3) s =
    setLock (if s.tb.lock = .locked then .holdover else s.tb.lock) (guardWritten g 3 s) := by
  have h : tbCtlWrite (modeRequest g 3) s =
      if s.tb.lock = .locked then setLock .holdover (guardWritten g 3 s) else guardWritten g 3 s := by
    cases g <;> rfl
  rw [h]
  split
  · rfl
  · exact (setLock_same rfl).symm

/-! ### TB_ADJ and its absence -/

/-- The state after TB_ADJ takes amount `a`, before the lock state moves: the remainder is replaced, and the effective rate
follows it (R48, R49). -/
def adjTaken (a : Int) (run : Nat) (s : State) : State :=
  let t := { s.tb with rem := a * 2 ^ 21, lastAdj := s.tb.ticks, lockRun := run }
  { s.flagIf (s.tb.rem != 0) .TB_EVT 4 with tb := t.setEff t.wantEff }

theorem flagIf_reg {s : State} {c : Bool} {r : RegName} {b : Nat} {q : RegName} {i j : Nat}
    (h : addrOf q i j ≠ addrOf r 0 0) : (s.flagIf c r b).reg q i j = s.reg q i j := by
  cases c
  · rfl
  · exact reg_setReg_ne _ _ _ _ _ _ _ _ h

theorem flagIf_tb (s : State) (c : Bool) (r : RegName) (b : Nat) : (s.flagIf c r b).tb = s.tb := by
  cases c <;> rfl

theorem flagIf_rb (s : State) (c : Bool) (r : RegName) (b i : Nat) (hi : i < 64) :
    (s.flagIf c r b).rb r i = (c && decide (i = b) || s.rb r i) := by
  cases c
  · rfl
  · rw [State.flagIf, if_pos rfl, State.flag, State.rb, reg_setReg_same, bit_setBit _ _ _ hi, Bool.true_and]
    rfl

theorem lockThr_flagIf (s : State) (c : Bool) (b : Nat) : lockThr (s.flagIf c .TB_EVT b) = lockThr s := by
  rw [lockThr, State.rf, flagIf_reg (by decide)]
  rfl

theorem unlockThr_flagIf (s : State) (c : Bool) (b : Nat) : unlockThr (s.flagIf c .TB_EVT b) = unlockThr s := by
  rw [unlockThr, State.rf, flagIf_reg (by decide)]
  rfl

theorem lockN_flagIf (s : State) (c : Bool) (b : Nat) : lockN (s.flagIf c .TB_EVT b) = lockN s := by
  rw [lockN, State.rf, flagIf_reg (by decide)]
  rfl

theorem tbAdjWrite_eq (v : Word) (s : State) :
    let a := (v.setWidth 48).toInt
    let run := lockRunAfter a.natAbs s
    tbAdjWrite v s = setLock (lockAfter a.natAbs run s) (adjTaken a run s) := by
  have ha : sfld v 47 0 = (v.setWidth 48).toInt := sfld_low v 47
  have hrun : ∀ x, lockRunAfter x (s.flagIf (s.tb.rem != 0) .TB_EVT 4) = lockRunAfter x s := fun x => by
    rw [lockRunAfter, flagIf_tb, lockThr_flagIf]
    rfl
  have hlock : ∀ x n, lockAfter x n (s.flagIf (s.tb.rem != 0) .TB_EVT 4) = lockAfter x n s := fun x n => by
    rw [lockAfter, flagIf_tb, lockThr_flagIf, unlockThr_flagIf, lockN_flagIf]
    rfl
  unfold tbAdjWrite
  simp only [ha, hrun, hlock, flagIf_tb]
  rfl

theorem adjTaken_movesTo (a : Int) (run : Nat) (s : State) : LockMovesTo s s.tb.lock run (adjTaken a run s) := by
  refine lockMovesTo_same rfl ?_ rfl ?_ ?_ ?_
  · exact setEff_now _ _
  · show (s.flagIf (s.tb.rem != 0) .TB_EVT 4).rb .TB_EVT 0 = _
    rw [flagIf_rb _ _ _ _ _ (by decide)]
    simp
  · cases h : s.tb.rem != 0 <;> simp [adjTaken, State.flagIf, h, State.flag]
  · cases h : s.tb.rem != 0 <;> simp [adjTaken, State.flagIf, h, State.flag]

theorem adjTaken_live (a : Int) (run : Nat) (s : State) : (adjTaken a run s).fh.live = s.fh.live := by
  cases h : s.tb.rem != 0 <;> simp [adjTaken, State.flagIf, h, State.flag]

theorem tbAdjWrite_movesTo (v : Word) (s : State) :
    let a := (v.setWidth 48).toInt
    let run := lockRunAfter a.natAbs s
    LockMovesTo s (lockAfter a.natAbs run s) run (tbAdjWrite v s) := by
  intro a run
  rw [tbAdjWrite_eq]
  exact setLock_movesTo _ (adjTaken_movesTo a run s) (adjTaken_live a run s)

theorem exec_holdTimeout_due {s : State} (hl : s.tb.lock = .locked) (ht : holdTicks s ≤ s.tb.ticks - s.tb.lastAdj) :
    exec .holdTimeout s = .next (setLock .holdover s) := congrArg Host.Outcome.next (if_pos ⟨hl, ht⟩)

theorem exec_holdTimeout_early {s : State} (h : s.tb.lock ≠ .locked ∨ s.tb.ticks - s.tb.lastAdj < holdTicks s) :
    exec .holdTimeout s = .next s := by
  refine congrArg Host.Outcome.next (if_neg fun hd => ?_)
  obtain ⟨hl, ht⟩ := hd
  rcases h with h | h
  · exact h hl
  · omega

/-- Settles O36: each command moves the lock state by `setLock`, whose effect is the same for all. -/
theorem lockStatesFollowR52 : Obligations.LockStatesFollowR52 := by
  unfold Obligations.LockStatesFollowR52
  intro g v s l small large run to_ guard
  have hrun : lockRunAfter (v.setWidth 48).toInt.natAbs s = run := rfl
  have hadj : ∀ k, lockAfter (v.setWidth 48).toInt.natAbs run s = k → to_ (.tbAdjWrite v) k run := by
    intro k hk
    have h := tbAdjWrite_movesTo v s
    dsimp only at h
    rw [hrun, hk] at h
    exact ⟨_, rfl, h⟩
  have hmode : ∀ (c : Instr) (mode : Nat) (k : LockState), exec c s = .next (tbCtlWrite (modeRequest g mode) s) →
      tbCtlWrite (modeRequest g mode) s = setLock k (guardWritten g mode s) → to_ c k s.tb.lockRun ∧ guard c := by
    intro c mode k hc hk
    obtain ⟨hto, hguard⟩ := modeRequest_movesTo hk
    refine ⟨⟨_, hc, hto⟩, fun u hl hu => ?_⟩
    rw [hc] at hu
    injection hu with hu
    rw [← hu]
    exact hguard hl
  obtain ⟨hfreerun, hfreerunG⟩ := hmode (.freerun g) 0 _ rfl (tbCtlWrite_freerun g s)
  obtain ⟨hacquire, hacquireG⟩ := hmode (.acquire g) 1 _ rfl (tbCtlWrite_acquire g s)
  obtain ⟨hholdover, hholdoverG⟩ := hmode (.holdover g) 3 _ rfl (tbCtlWrite_holdover g s)
  refine ⟨hfreerun, hfreerunG, hacquire, hacquireG, hholdover, hholdoverG, fun hl => hadj _ ?_, fun hl => hadj _ ?_,
    fun hl => hadj _ ?_, fun hl => hadj _ ?_, fun hl ht => ?_, exec_holdTimeout_early⟩
  · rw [lockAfter, show s.tb.lock = .freerun from hl]
  · rw [lockAfter, show s.tb.lock = .acquiring from hl]
    simp only [Bool.and_eq_true, decide_eq_true_eq]
    rfl
  · rw [lockAfter, show s.tb.lock = .locked from hl]
    rfl
  · rw [lockAfter, show s.tb.lock = .holdover from hl]
    rfl
  · exact ⟨_, exec_holdTimeout_due hl ht, setLock_movesTo _ (lockMovesTo_same rfl rfl rfl rfl rfl rfl) rfl⟩

end Sys2Proof.Proofs
end

section
/-! PROOFS. The action commands and the deliveries on their way. -/

namespace Sys2Proof.Proofs

open Sys2Proof Sys2Proof.Machine Sys2Proof.Laws

/-! ### Which delivery is taken -/

/-- Deliveries of other actions are passed over. -/
theorem takeFrom_append {a : Nat} {bs : List Delivery} (h : ∀ x ∈ bs, x.action ≠ a) (seen ds : List Delivery) :
    takeFrom a seen (bs ++ ds) = takeFrom a (bs.reverse ++ seen) ds := by
  induction bs generalizing seen with
  | nil => rfl
  | cons b bs ih =>
    have hb : ¬(b.action = a ∧ (seen.all fun e => !e.before b) = true) := fun hb => h b List.mem_cons_self hb.1
    rw [List.cons_append, takeFrom, if_neg hb, ih fun x hx => h x (List.mem_cons_of_mem _ hx), List.reverse_cons,
      List.append_assoc]
    rfl

theorem takeFrom_none {a : Nat} {ds : List Delivery} (h : ∀ x ∈ ds, x.action ≠ a) (seen : List Delivery) :
    takeFrom a seen ds = none := by
  rw [← List.append_nil ds, takeFrom_append h]
  rfl

theorem takeDelivery_none {a : Nat} {ds : List Delivery} (h : ∀ x ∈ ds, x.action ≠ a) : takeDelivery a ds = none :=
  takeFrom_none h []

theorem takeDelivery_append {d : Delivery} {bs : List Delivery} (h : ∀ x ∈ bs, x.action ≠ d.action) (ds : List Delivery) :
    takeDelivery d.action (bs ++ d :: ds) =
      if bs.all (fun e => !e.before d) then some (d, bs ++ ds) else takeFrom d.action (d :: bs.reverse) ds := by
  rw [takeDelivery, takeFrom_append h, takeFrom]
  simp

theorem before_iff (e d : Delivery) :
    e.before d = true ↔ e.belfry = d.belfry ∧ e.firedNs = d.firedNs ∧ e.action ≠ 10 := by
  simp [Delivery.before, and_assoc]

/-- The oldest delivery of its action is taken where none before it goes ahead of it. -/
theorem takeDelivery_first {d : Delivery} {bs : List Delivery} (h : ∀ x ∈ bs, x.action ≠ d.action)
    (hb : ∀ x ∈ bs, ¬(x.belfry = d.belfry ∧ x.firedNs = d.firedNs ∧ x.action ≠ 10)) (ds : List Delivery) :
    takeDelivery d.action (bs ++ d :: ds) = some (d, bs ++ ds) := by
  rw [takeDelivery_append h, if_pos]
  simp only [List.all_eq_true, Bool.not_eq_true', Bool.eq_false_iff]
  exact fun x hx => mt (before_iff x d).1 (hb x hx)

/-- The only delivery of its action is not taken while one goes ahead of it. -/
theorem takeDelivery_blocked {d : Delivery} {bs ds : List Delivery} (h : ∀ x ∈ bs, x.action ≠ d.action)
    (hb : ∃ x ∈ bs, x.belfry = d.belfry ∧ x.firedNs = d.firedNs ∧ x.action ≠ 10) (hd : ∀ x ∈ ds, x.action ≠ d.action) :
    takeDelivery d.action (bs ++ d :: ds) = none := by
  rw [takeDelivery_append h, if_neg, takeFrom_none hd]
  obtain ⟨x, hx, hbefore⟩ := hb
  intro hall
  have hx' := List.all_eq_true.1 hall x hx
  rw [(before_iff x d).2 hbefore] at hx'
  exact absurd hx' (by decide)

theorem withDelivery_none {a : Nat} {s : State} (h : takeDelivery a s.deliveries = none)
    (f : Delivery → State → State) : withDelivery a f s = s := by
  rw [withDelivery, h]

theorem withDelivery_some {a : Nat} {s : State} {d : Delivery} {ds : List Delivery}
    (h : takeDelivery a s.deliveries = some (d, ds)) (f : Delivery → State → State) :
    withDelivery a f s = f d { s with deliveries := ds } := by
  rw [withDelivery, h]

/-! ### The ten action commands -/

/-- Command `c` does nothing where no delivery of action `a` may be performed. -/
def IdleWithout (a : Nat) (c : Instr) : Prop := ∀ s, takeDelivery a s.deliveries = none → exec c s = .next s

theorem idleWithout_withDelivery {a : Nat} {c : Instr} (f : Delivery → State → State)
    (h : ∀ s, exec c s = .next (withDelivery a f s)) : IdleWithout a c := fun s hs => by
  rw [h s, withDelivery_none hs]

theorem idleWithout_configActivate : IdleWithout 10 .configActivate := fun s hs => by
  show Host.Outcome.next (activateNow s) = _
  rw [activateNow, hs]

/-- What holds of each action command with the code of its action (R65). -/
theorem forall_actions {P : Nat → Instr → Prop} (h : ∀ a c, IdleWithout a c → P a c) :
    P 1 .wake ∧ P 2 .launch ∧ P 3 .gangStart ∧ P 4 .dmaStart ∧ P 5 .fhTxOpen ∧ P 6 .fhRxOpen ∧ P 7 .doorbell ∧
      P 8 .event ∧ P 9 .collPhase ∧ P 10 .configActivate :=
  ⟨h _ _ (idleWithout_withDelivery _ fun _ => rfl), h _ _ (idleWithout_withDelivery _ fun _ => rfl),
    h _ _ (idleWithout_withDelivery _ fun _ => rfl), h _ _ (idleWithout_withDelivery _ fun _ => rfl),
    h _ _ (idleWithout_withDelivery _ fun _ => rfl), h _ _ (idleWithout_withDelivery _ fun _ => rfl),
    h _ _ (idleWithout_withDelivery _ fun _ => rfl), h _ _ (idleWithout_withDelivery _ fun _ => rfl),
    h _ _ (idleWithout_withDelivery _ fun _ => rfl), h _ _ idleWithout_configActivate⟩

/-! ### WAKE, EVENT and DOORBELL -/

theorem tilesOf_single (t : Fin 128) : tilesOf (1#128 <<< t.val) = [t.val] := by
  have h : ∀ t : Fin 128, tilesOf (1#128 <<< t.val) = [t.val] := by decide +kernel
  exact h t

theorem wakeDom_awake {d : Nat} {s : State} (h : s.dormant d = false) : wakeDom d s = s := by
  rw [wakeDom, h]
  rfl

theorem wakeTile_awake {t : Nat} {s : State} (h : s.dormant (domQuad t) = false) : wakeTile t s = s :=
  if_neg (by simp [h])

/-- A dormant quad of an awake hamlet starts to wake, and is counted. -/
theorem wakeTile_dormant {t : Nat} {s : State} (h : s.dormant (domQuad t) = true)
    (hh : s.dormant (domHamlet (t / 16)) = false) (hw : s.pwr.waking.contains (domQuad t) = false) :
    wakeTile t s = { s with pwr := { s.pwr with waking := s.pwr.waking ++ [domQuad t] } }.count .PWR_CNT 63 32 := by
  rw [wakeTile, if_pos h, wakeDom_awake hh, wakeDom, h, hw]
  rfl

theorem exec_wake_single {s : State} {d : Delivery} {ds : List Delivery} {t : Fin 128}
    (h : takeDelivery 1 s.deliveries = some (d, ds)) (hm : d.mask = 1#128 <<< t.val) :
    exec .wake s = .next (wakeTile t { s with deliveries := ds }) := by
  show Host.Outcome.next (withDelivery 1 _ s) = _
  rw [withDelivery_some h, hm, tilesOf_single]
  rfl

theorem exec_event_single {s : State} {d : Delivery} {ds : List Delivery} {t : Fin 128}
    (h : takeDelivery 8 s.deliveries = some (d, ds)) (hm : d.mask = 1#128 <<< t.val)
    (ht : s.dormant (domQuad t) = false) :
    exec .event s = .next (deliverEvt d.owner t (BitVec.ofNat 32 d.arg) { s with deliveries := ds }) := by
  show Host.Outcome.next (withDelivery 8 _ s) = _
  rw [withDelivery_some h, hm, tilesOf_single]
  show Host.Outcome.next (deliverEvt d.owner t _ (wakeTile t { s with deliveries := ds })) = _
  rw [wakeTile_awake (s := { s with deliveries := ds }) ht]

/-- EVENT to the running context of the owner (R408). -/
theorem deliverEvt_running {p t c : Nat} {s : State} (bits : BitVec 32) (hp : p ≠ 0) (hcx : (s.tile t).cx = some c)
    (hpart : s.cxPart c = p) (hrun : (s.tile t).run = .running) (h4 : (s.cx c).swap ≠ 4) (h6 : (s.cx c).swap ≠ 6) :
    deliverEvt p t bits s = s.modCore t fun k => { k with tevt := k.tevt ||| bits } := by
  have hsw : swapping c s = false := by
    show ((s.cx c).swap == 4 || (s.cx c).swap == 6) = false
    simp [h4, h6]
  have htakes : takesEvt t c s = true := by
    simp only [takesEvt, hrun, hsw]
    decide
  have hon : evtOn t c bits s = s.modCore t fun k => { k with tevt := k.tevt ||| bits } := by
    simp only [evtOn, htakes, hrun]
    rfl
  rw [deliverEvt, if_neg (by simp [hp])]
  simp only [hcx, hpart, beq_self_eq_true, if_true, hon]

/-- EVENT of the radio partition to a lent tile (R100). -/
theorem deliverEvt_lent {t : Nat} {s : State} (bits : BitVec 32) (h : s.lent t = true) :
    deliverEvt 0 t bits s = s.modTile t fun x => { x with latch := x.latch ||| bits } := by
  rw [deliverEvt, h]
  rfl

theorem exec_doorbell_first {s : State} {d : Delivery} {ds : List Delivery}
    (h : takeDelivery 7 s.deliveries = some (d, ds)) :
    exec .doorbell s = .next (ringDb d.target (BitVec.ofNat 32 d.arg) { s with deliveries := ds }) := by
  show Host.Outcome.next (withDelivery 7 _ s) = _
  rw [withDelivery_some h]

theorem ringDb_bad {m : Nat} (h : 255 < m) (bits : BitVec 32) (s : State) :
    ringDb m bits s = s.count .HL_CNT 47 32 := if_pos h

/-- The bits of a doorbell register with more set: 31:0 of both. -/
theorem doorbellBits (w : Word) (x : Nat) :
    (w.setWidth 32 ||| BitVec.ofNat 32 x).setWidth 64 = (w ||| BitVec.ofNat 64 (x % 2 ^ 32)) &&& 0xFFFFFFFF := by
  apply BitVec.eq_of_getLsbD_eq
  intro i hi
  have hm : (0xFFFFFFFF : Word) = BitVec.ofNat 64 (2 ^ 32 - 1) := rfl
  simp only [BitVec.getLsbD_setWidth, BitVec.getLsbD_or, BitVec.getLsbD_and, BitVec.getLsbD_ofNat, hm,
    Nat.testBit_mod_two_pow, Nat.testBit_two_pow_sub_one, hi, decide_true, Bool.true_and]
  by_cases h : i < 32 <;> simp [h]

/-- A doorbell of an enabled mailbox with mask 0 sets its bits and notifies nobody (R446). -/
theorem ringDb_masked {m : Nat} {s : State} (x : Nat) (hm : m < 256) (hen : s.mbxEn m = true) (hk : s.mbxKind m ≠ 0)
    (hmask : s.reg .MBX_DB_MASK m = 0) : ringDb m (BitVec.ofNat 32 x) s =
      s.setReg .MBX_DB ((s.reg .MBX_DB m ||| BitVec.ofNat 64 (x % 2 ^ 32)) &&& 0xFFFFFFFF) m := by
  rw [ringDb, if_neg (by omega), if_neg (by simp [hen, hk]), setDb, hmask, notify, if_pos (by simp), doorbellBits]

/-- Settles O41: each command takes the first delivery of its action, where none of its Belfry and tick is ahead. -/
theorem deliveriesArePerformedOldestFirst : Obligations.DeliveriesArePerformedOldestFirst := by
  unfold Obligations.DeliveriesArePerformedOldestFirst
  refine ⟨fun s => ?_, fun s d before after t hds hother => ?_⟩
  · exact forall_actions fun a c hc hno => hc s (takeDelivery_none hno)
  · intro ahead stays
    refine ⟨forall_actions fun a c hc ha hahead hafter => hc s ?_, fun hfree => ?_⟩
    · subst ha
      rw [hds]
      exact takeDelivery_blocked hother hahead hafter
    · intro r
      have htake : takeDelivery d.action s.deliveries = some (d, before ++ after) := by
        rw [hds]
        exact takeDelivery_first hother hfree after
      refine ⟨fun ha hm ht => ?_, fun ha => ?_, fun ha hm => ?_⟩
      · rw [ha] at htake
        refine ⟨fun c hp hcx hpart hrun h4 h6 => ?_, fun hp hlent => ?_⟩
        · rw [exec_event_single htake hm ht]
          exact congrArg _ (deliverEvt_running (s := r) _ hp hcx hpart hrun h4 h6)
        · rw [exec_event_single htake hm ht, hp]
          exact congrArg _ (deliverEvt_lent (s := r) _ hlent)
      · rw [ha] at htake
        refine ⟨fun hm hen hk hmask => ?_, fun hm => ?_⟩
        · rw [exec_doorbell_first htake]
          exact congrArg _ (ringDb_masked (s := r) _ hm hen hk hmask)
        · rw [exec_doorbell_first htake]
          exact congrArg _ (ringDb_bad hm _ _)
      · rw [ha] at htake
        refine ⟨fun ht => ?_, fun ht hh hw => ?_⟩
        · rw [exec_wake_single htake hm]
          exact congrArg _ (wakeTile_awake (s := r) ht)
        · rw [exec_wake_single htake hm]
          exact congrArg _ (wakeTile_dormant (s := r) ht hh hw)

end Sys2Proof.Proofs
end

section
/-! PROOFS. The snapshot, the frequency source, the 1PPS pulses and the timestamp records. -/

namespace Sys2Proof.Proofs

open Sys2Proof Sys2Proof.Machine Sys2Proof.Laws

/-! ### Words of two fields -/

/-- A field from bit `k` on with a field below it. -/
theorem place_or_place (hi k a b : Nat) (hk : 0 < k) (ha : a < 2 ^ (hi + 1 - k)) (hb : b < 2 ^ k) :
    place hi k a ||| place (k - 1) 0 b = BitVec.ofNat 64 (a * 2 ^ k + b) := by
  have hb' : b < 2 ^ (k - 1 + 1 - 0) := by rwa [Nat.sub_zero, Nat.sub_add_cancel hk]
  rw [place, place, Nat.mod_eq_of_lt ha, Nat.mod_eq_of_lt hb', Nat.pow_zero, Nat.mul_one, ← BitVec.ofNat_or,
    Nat.mul_comm a, Nat.two_pow_add_eq_or_of_lt hb]

/-- Nanoseconds within the second and their fraction, as one word (R62). -/
theorem nsecWord (t : Timebase) : place 45 16 t.nsec ||| place 15 0 t.subns =
    BitVec.ofInt 64 (t.now / 2 ^ 37 % 10 ^ 9 * 2 ^ 16 + t.now % 2 ^ 37 / 2 ^ 21) := by
  have hn : (t.nsec : Int) = t.now / 2 ^ 37 % 10 ^ 9 := Int.toNat_of_nonneg (by omega)
  have hs : (t.subns : Int) = t.now % 2 ^ 37 / 2 ^ 21 := Int.toNat_of_nonneg (by omega)
  rw [place_or_place 45 16 _ _ (by decide) (by omega) (by omega), ← hn, ← hs, ← BitVec.ofInt_natCast]
  exact congrArg (BitVec.ofInt 64) (by omega)

/-! ### The frequency source -/

theorem fsrcRelock_due {s : State} (hh : s.tb.fsrcHeld = true) (ht : s.tb.fsrcAt + 125000000 ≤ s.tb.ticks) :
    fsrcRelock s = fsrcFollow s := if_pos (by simp [hh, ht])

theorem fsrcRelock_early {s : State} (h : s.tb.fsrcHeld = false ∨ s.tb.ticks < s.tb.fsrcAt + 125000000) :
    fsrcRelock s = s := if_neg (by
  rcases h with h | h
  · simp [h]
  · simp only [Bool.and_eq_true, decide_eq_true_eq]
    omega)

/-! ### The 1PPS output and input -/

/-- The age of the latest instant of a 1PPS output edge, with OFFSET as bits 63:32 (R58). -/
theorem ppsAge_eq (s : State) : ppsAge s =
    (s.tb.now - (BitVec.ofNat 32 ((s.reg .TB_PPSO_CTL).toNat / 2 ^ 32)).toInt * 2 ^ 35) % (10 ^ 9 * 2 ^ 37) := by
  have h : sfld (s.reg .TB_PPSO_CTL) 63 32 = (BitVec.ofNat 32 ((s.reg .TB_PPSO_CTL).toNat / 2 ^ 32)).toInt := by
    rw [sfld, signed_eq_toInt, fld]
    exact congrArg BitVec.toInt (BitVec.eq_of_toNat_eq (by simp))
  rw [ppsAge, h]
  rfl

theorem ppsDue_iff (s : State) :
    ppsDue s = true ↔ ppsAge s < 8 * 2 ^ 37 + s.tb.eff ∧ s.tb.ppsAt ≠ some s.tb.ticks := by
  rw [ppsDue, Bool.and_eq_true, decide_eq_true_eq, bne_iff_ne]
  exact Iff.rfl

theorem ppsOutEdge_due {s : State} (hd : ppsDue s = true) (hg : s.rb .TB_PPSO_CTL s.tb.lock.code = true) :
    ppsOutEdge s = { s with
      tb := { s.tb with ppsAt := some s.tb.ticks, ppsEnd := some (s.now + ppsWidth s * 1000) },
      wire := .pps true :: s.wire } := if_pos (by simp [hd, hg])

theorem ppsOutEdge_idle {s : State} (h : ¬ppsDue s = true ∨ s.rb .TB_PPSO_CTL s.tb.lock.code = false) :
    ppsOutEdge s = s := if_neg (by
  rcases h with h | h
  · simp [h]
  · simp [h])

theorem ppsOutPulseEnd_some {s : State} {e : Nat} (h : s.tb.ppsEnd = some e) : ppsOutPulseEnd s =
    if e ≤ s.now then { s with tb := { s.tb with ppsEnd := none }, wire := .pps false :: s.wire } else s := by
  simp only [ppsOutPulseEnd, h]
  rfl

theorem ppsOutPulseEnd_none {s : State} (h : s.tb.ppsEnd = none) : ppsOutPulseEnd s = s := by
  simp only [ppsOutPulseEnd, h]

theorem ppsInEdge_near {s : State} {a : Nat} (h : s.tb.ppsInAt = some a) (ha : s.tb.ticks - a < 62500000) :
    ppsInEdge s = s := by
  simp only [ppsInEdge, h, ha]
  rfl

/-- The timebase whose device time is less by the latency of the 1PPS input. -/
def ppsInTime (s : State) : Timebase :=
  { s.tb with offset := s.tb.offset - (s.rf .TB_PPSI_DLY 31 0 : Int) * 2 ^ 21 }

theorem ppsInTime_now (s : State) : (ppsInTime s).now = s.tb.now - (s.rf .TB_PPSI_DLY 31 0 : Nat) * 2 ^ 21 := by
  simp only [ppsInTime, Timebase.now]
  omega

theorem ppsInEdge_far {s : State} (h : ∀ a, s.tb.ppsInAt = some a → 62500000 ≤ s.tb.ticks - a) :
    ppsInEdge s = { ((s.setReg .TB_PPSI_SEC (BitVec.ofInt 64 (ppsInTime s).sec)).setReg .TB_PPSI_NS
      (place 45 16 (ppsInTime s).nsec ||| place 15 0 (ppsInTime s).subns)) with
        tb := { s.tb with ppsInAt := some s.tb.ticks } }.flag .TB_EVT 5 := by
  have hfar : (match s.tb.ppsInAt with
      | some k => decide (s.tb.ticks - k < 62500000)
      | none => false) = false := by
    cases ha : s.tb.ppsInAt with
    | none => rfl
    | some a => exact decide_eq_false (by have := h a ha; omega)
  refine if_neg ?_
  rw [Bool.not_eq_true]
  exact hfar

/-! ### The timestamp records -/

theorem tsLoRead_cons {p : Nat} {s : State} {r : Word × Word} {q : List (Word × Word)} (h : s.tsFifo p = r :: q) :
    tsLoRead p s = (s.setTsFifo p q).emit (.readData (addrOf .TB_PORT_TS_LO p 0) r.2) := by
  simp only [tsLoRead, h]

theorem tsLoRead_nil {p : Nat} {s : State} (h : s.tsFifo p = []) :
    tsLoRead p s = s.emit (.readData (addrOf .TB_PORT_TS_LO p 0) 0) := by
  simp only [tsLoRead, h]

theorem tsFifo_setTsFifo_same (s : State) (p : Nat) (q : List (Word × Word)) : (s.setTsFifo p q).tsFifo p = q :=
  tab_get_set_same _ _ _ _

theorem tsFifo_setTsFifo_ne (s : State) {p k : Nat} (q : List (Word × Word)) (h : k ≠ p) :
    (s.setTsFifo p q).tsFifo k = s.tsFifo k := tab_get_set_ne _ _ _ h

theorem tsStat_eq (p : Nat) (s : State) : tsStat p s =
    (s.reg .TB_PORT_TS_STAT p &&& 0xFFFF00000000) ||| BitVec.ofNat 64 ((s.tsFifo p).length % 128) := by
  have hm : fmask 47 32 = 0xFFFF00000000 := by decide
  rw [tsStat, hm, place, Nat.pow_zero, Nat.mul_one] <;> rfl

/-- Settles O38: each command is described where its condition holds and where it does not. -/
theorem capturesPulsesAndTimestamps : Obligations.CapturesPulsesAndTimestamps := by
  unfold Obligations.CapturesPulsesAndTimestamps
  intro p v s sel0 sel age due width gate
  have hdue : ppsDue s = true ↔ due := by
    rw [ppsDue_iff, ppsAge_eq]
  refine ⟨fun hv => ?_, fun hv => ?_, rfl, fun hh ht => congrArg _ (fsrcRelock_due hh ht),
    fun h => congrArg _ (fsrcRelock_early h), fun hd hg => congrArg _ (ppsOutEdge_due (hdue.2 hd) hg),
    fun h => congrArg _ (ppsOutEdge_idle ?_), fun e he => congrArg _ (ppsOutPulseEnd_some he),
    fun he => congrArg _ (ppsOutPulseEnd_none he), fun a ha hn => congrArg _ (ppsInEdge_near ha hn), fun hfar => ?_,
    fun hi lo q hq => ?_, fun hq => congrArg _ (tsLoRead_nil hq), ?_⟩
  · refine congrArg Host.Outcome.next ((if_pos (by rwa [bit_eq_getLsbD])).trans ?_)
    rw [nsecWord]
    rfl
  · exact congrArg Host.Outcome.next (if_neg (by rw [bit_eq_getLsbD, hv]; decide))
  · rwa [hdue]
  · intro n
    have hnow : (ppsInTime s).now = n := ppsInTime_now s
    refine congrArg Host.Outcome.next ((ppsInEdge_far hfar).trans ?_)
    rw [nsecWord, Timebase.sec, hnow]
    rfl
  · refine ⟨_, congrArg Host.Outcome.next (tsLoRead_cons hq), tsFifo_setTsFifo_same s p q, fun k hk => ?_, rfl, rfl, rfl⟩
    exact tsFifo_setTsFifo_ne s q hk
  · refine congrArg Host.Outcome.next ?_
    rw [← tsStat_eq]
    rfl

end Sys2Proof.Proofs
end

section
/-! PROOFS. Waits, fences and the cache instructions of a tile's core. -/

namespace Sys2Proof.Proofs

open Sys2Proof Sys2Proof.Machine Sys2Proof.Laws

/-! ### Going on to the next parcel -/

/-- Outside a loop, a core that a change goes on from has its pc at the next parcel. -/
theorem modCore_next {s : State} {t : Nat} {f : CoreRegs → CoreRegs} (h : (s.core t).dsp.active = false)
    (hd : ∀ c, (f c).dsp = c.dsp) (hp : ∀ c, (f c).pc = c.pc) :
    s.modCore t (fun c => (f c).next 4) = s.modCore t fun c => { f c with pc := c.pc + 4 } := by
  apply modCore_congr
  rw [next_inactive (by rwa [hd]), hp]
  rfl

/-- The same as the core leaves a wait. -/
theorem modCore_leave {s : State} {t : Nat} {f : CoreRegs → CoreRegs} (h : (s.core t).dsp.active = false)
    (hd : ∀ c, (f c).dsp = c.dsp) (hp : ∀ c, (f c).pc = c.pc) :
    s.modCore t (fun c => c.leave f) = s.modCore t fun c => { f { c with wait := .none } with pc := c.pc + 4 } :=
  modCore_next (f := fun c => f { c with wait := .none }) h (fun c => hd { c with wait := .none })
    fun c => hp { c with wait := .none }

/-- A tile of which a running instruction rewrites a part of its own goes on to the next parcel. -/
theorem modTile_next {s : State} {t : Nat} {f : Tile → Tile} (h : (s.core t).dsp.active = false) :
    s.modTile t (fun x => { f x with core := x.core.next 4 }) =
      s.modTile t fun x => { f x with core := { x.core with pc := x.core.pc + 4 } } := by
  have hnext : (s.tile t).core.next 4 = { (s.tile t).core with pc := (s.tile t).core.pc + 4 } := next_inactive h
  simp only [State.modTile, hnext]

theorem setG_wait (c : CoreRegs) (i : Nat) (v : Word) (w : Wait) :
    ({ c with wait := w } : CoreRegs).setG i v = { c.setG i v with wait := w } := by
  unfold CoreRegs.setG
  split
  · rfl
  · rfl

@[simp] theorem takeEvt_pc (c : CoreRegs) (d : Nat) (m : BitVec 32) : (c.takeEvt d m).pc = c.pc := setG_pc c d _

@[simp] theorem takeEvt_dsp (c : CoreRegs) (d : Nat) (m : BitVec 32) : (c.takeEvt d m).dsp = c.dsp := setG_dsp c d _

@[simp] theorem takeTags_pc (c : CoreRegs) (d : Nat) (m : BitVec 8) : (c.takeTags d m).pc = c.pc := setG_pc c d _

@[simp] theorem takeTags_dsp (c : CoreRegs) (d : Nat) (m : BitVec 8) : (c.takeTags d m).dsp = c.dsp := setG_dsp c d _

/-- Two bytes as one word, with which MTEST answers (R97). -/
theorem bytePair (x y : BitVec 8) :
    place 15 8 x.toNat ||| place 7 0 y.toNat = BitVec.ofNat 64 (x.toNat * 256 + y.toNat) :=
  place_or_place 15 8 _ _ (by decide) x.isLt y.isLt

/-! ### The instructions as they run -/

section
variable {t : Fin 128} {s : State} (h : Runs t s)
include h

theorem exec_rdt_runs (d : Fin 64) : exec (.rdt t d) s = .next (s.modCore t fun c =>
    { c.setG d (timeView s) with rdtSub := BitVec.ofNat 16 s.tb.subns, pc := c.pc + 4 }) := by
  refine congrArg Host.Outcome.next ((runInstr_runs h _ _).trans ?_)
  exact modCore_next (f := fun c => { c.setG d (timeView s) with rdtSub := BitVec.ofNat 16 s.tb.subns }) h.2.2
    (fun c => setG_dsp c d _) fun c => setG_pc c d _

theorem exec_rdts_runs (d : Fin 64) : exec (.rdts t d) s = .next (s.modCore t fun c =>
    { c.setG d (c.rdtSub.setWidth 64) with pc := c.pc + 4 }) := by
  refine congrArg Host.Outcome.next ((runInstr_runs h _ _).trans ?_)
  exact modCore_next h.2.2 (fun c => setG_dsp c d _) fun c => setG_pc c d _

theorem exec_waitt_runs (d a : Fin 64) : exec (.waitt t d a) s =
    if s.now + 2 ^ 34 < ((s.core t).gr a).toNat then .next (takeException t 0x0B 0 s)
    else if ((s.core t).gr a).toNat ≤ s.now then
      .next (s.modCore t fun c => { c.setG d (timeView s - (s.core t).gr a) with pc := c.pc + 4 })
    else .next (waitIn t (.time d ((s.core t).gr a)) s) := by
  have hrun := runInstr_runs h false fun s =>
    let g := (s.core t).gr a
    if s.now + 2 ^ 34 < g.toNat then takeException t causeTimeRange 0 s
    else if g.toNat ≤ s.now then s.modCore t fun c => (c.setG d (timeView s - g)).next 4
    else waitIn t (.time d g) s
  refine (congrArg Host.Outcome.next hrun).trans ?_
  dsimp only
  split
  · rfl
  · split
    · exact congrArg _ (modCore_next h.2.2 (fun c => setG_dsp c d _) fun c => setG_pc c d _)
    · rfl

theorem exec_waite_runs (d a : Fin 64) : exec (.waite t d a) s =
    let m := ((s.core t).gr a).setWidth 32
    if (s.core t).gr a = 0 ∨ (s.core t).tevt &&& m ≠ 0 then
      .next (s.modCore t fun c => { c.takeEvt d m with pc := c.pc + 4 })
    else .next (noteTile t (waitIn t (.event d m) s)) := by
  have hrun := runInstr_runs h false fun s =>
    let c := s.core t
    let m := (c.gr a).setWidth 32
    if c.gr a = 0 || c.tevt &&& m != 0 then s.modCore t fun c => (c.takeEvt d m).next 4
    else noteTile t (waitIn t (.event d m) s)
  refine (congrArg Host.Outcome.next hrun).trans ?_
  simp only [Bool.or_eq_true, decide_eq_true_eq, bne_iff_ne]
  split
  · exact congrArg _ (modCore_next h.2.2 (fun c => takeEvt_dsp c d _) fun c => takeEvt_pc c d _)
  · rfl

theorem exec_mwait_runs (d a : Fin 64) : exec (.mwait t d a) s =
    let m := ((s.core t).gr a).setWidth 8
    if (s.core t).tagBusy &&& m = 0 then .next (s.modCore t fun c => { c.takeTags d m with pc := c.pc + 4 })
    else .next (waitIn t (.tags d m) s) := by
  have hrun := runInstr_runs h false fun s =>
    let c := s.core t
    let m := (c.gr a).setWidth 8
    if c.tagBusy &&& m = 0 then s.modCore t fun c => (c.takeTags d m).next 4 else waitIn t (.tags d m) s
  refine (congrArg Host.Outcome.next hrun).trans ?_
  dsimp only
  split
  · exact congrArg _ (modCore_next h.2.2 (fun c => takeTags_dsp c d _) fun c => takeTags_pc c d _)
  · rfl

theorem exec_mtest_runs (d a : Fin 64) : exec (.mtest t d a) s =
    let m := ((s.core t).gr a).setWidth 8
    .next (s.modCore t fun c => { c.setG d
      (BitVec.ofNat 64 ((c.tagBusy &&& m).toNat * 256 + (c.tagErr &&& m).toNat)) with pc := c.pc + 4 }) := by
  refine congrArg Host.Outcome.next ((simple_runs h _ _ ?_).trans (modCore_congr ?_))
  · simpa using h.2.2
  · simp only [bytePair, setG_pc]

theorem exec_fence_runs : exec (.fence t) s = .next (waitIn t .fence s) :=
  congrArg Host.Outcome.next (runInstr_runs h _ _)

theorem exec_fencef_runs : exec (.fencef t) s = .next (waitIn t (.fencef (fenceSnap s)) s) :=
  congrArg Host.Outcome.next (runInstr_runs h _ _)

theorem exec_cinva_runs : exec (.cinva t) s =
    .next (s.modTile t fun x => { x with dcache := [], core := { x.core with pc := x.core.pc + 4 } }) :=
  congrArg Host.Outcome.next ((runInstr_runs h _ _).trans (modTile_next (f := fun x => { x with dcache := [] }) h.2.2))

theorem exec_iinv_runs : exec (.iinv t) s =
    .next (s.modTile t fun x => { x with icache := [], core := { x.core with pc := x.core.pc + 4 } }) :=
  congrArg Host.Outcome.next ((runInstr_runs h _ _).trans (modTile_next (f := fun x => { x with icache := [] }) h.2.2))

end

/-! ### CINV -/

/-- A cache line overlaps the `n` bytes from `lo` on. -/
def overlaps (lo n : Nat) (l : Nat × BitVec 512) : Bool := decide (0 < n ∧ l.1 * 64 < lo + n ∧ lo < l.1 * 64 + 64)

theorem overlaps_iff (lo n : Nat) (l : Nat × BitVec 512) :
    overlaps lo n l = true ↔ ∃ x : Nat, l.1 * 64 ≤ x ∧ x < l.1 * 64 + 64 ∧ lo ≤ x ∧ x < lo + n := by
  rw [overlaps, decide_eq_true_eq]
  constructor
  · intro h
    exact ⟨max lo (l.1 * 64), by omega⟩
  · rintro ⟨x, h⟩
    omega

/-- The data-cache lines that CINV keeps. -/
def linesKept (lo n : Nat) (ls : List (Nat × BitVec 512)) : List (Nat × BitVec 512) := ls.filter fun l => !overlaps lo n l

theorem mem_linesKept (lo n : Nat) (ls : List (Nat × BitVec 512)) (l : Nat × BitVec 512) : l ∈ linesKept lo n ls ↔
    l ∈ ls ∧ ¬∃ x : Nat, l.1 * 64 ≤ x ∧ x < l.1 * 64 + 64 ∧ lo ≤ x ∧ x < lo + n := by
  rw [linesKept, List.mem_filter, Bool.not_eq_true', ← overlaps_iff, Bool.not_eq_true]

theorem exec_cinv_runs {t : Fin 128} {s : State} (h : Runs t s) (a b : Fin 64) : exec (.cinv t a b) s =
    .next (s.modTile t fun x => { x with
      dcache := linesKept ((s.core t).gr a).toNat ((s.core t).gr b).toNat (s.tile t).dcache
      core := { x.core with pc := x.core.pc + 4 } }) :=
  congrArg Host.Outcome.next ((runInstr_runs h _ _).trans (modTile_next (f := fun x => { x with
    dcache := linesKept ((s.core t).gr a).toNat ((s.core t).gr b).toNat x.dcache }) h.2.2))

/-! ### The ends of the waits -/

section
variable {t : Fin 128} {s : State}

theorem waitsFor_running (he : s.enabled t = true) (hr : (s.tile t).run = .running) (p : Wait → Bool) :
    waitsFor t p s = p (s.core t).wait := by
  rw [waitsFor, he, hr]
  rfl

section
variable (he : s.enabled t = true) (hr : (s.tile t).run = .running) (hd : (s.core t).dsp.active = false)
include he hr hd

theorem exec_waittResume_due {d : Fin 64} {g : Word} (hw : (s.core t).wait = .time d g) (hg : g.toNat ≤ s.now) :
    exec (.waittResume t) s =
      .next (s.modCore t fun c => { c.setG d (timeView s - g) with wait := .none, pc := c.pc + 4 }) := by
  refine congrArg Host.Outcome.next ?_
  simp only [hw, waitsFor_running he hr, hg, decide_true, Bool.and_self, if_true]
  rw [modCore_leave hd (fun c => setG_dsp c d _) fun c => setG_pc c d _]
  simp only [setG_wait]

theorem exec_waiteReturn_due {d : Fin 64} {m : BitVec 32} (hw : (s.core t).wait = .event d m)
    (hm : (s.core t).tevt &&& m ≠ 0) : exec (.waiteReturn t) s = .next (noteTile t (s.modCore t fun c =>
      { c.setG d ((c.tevt &&& m).setWidth 64) with tevt := c.tevt &&& ~~~ m, wait := .none, pc := c.pc + 4 })) := by
  refine congrArg Host.Outcome.next ?_
  simp only [hw, waitsFor_running he hr, bne_iff_ne.2 hm, Bool.and_self, if_true]
  rw [modCore_leave hd (fun c => takeEvt_dsp c d m) fun c => takeEvt_pc c d m]
  simp only [CoreRegs.takeEvt, setG_wait]

theorem exec_mwaitReturn_due {d : Fin 64} {m : BitVec 8} (hw : (s.core t).wait = .tags d m)
    (hm : (s.core t).tagBusy &&& m = 0) : exec (.mwaitReturn t) s = .next (s.modCore t fun c =>
      { c.setG d ((c.tagErr &&& m).setWidth 64) with tagErr := c.tagErr &&& ~~~ m, wait := .none, pc := c.pc + 4 }) := by
  refine congrArg Host.Outcome.next ?_
  simp only [hw, waitsFor_running he hr, beq_iff_eq.2 hm, Bool.and_self, if_true]
  rw [modCore_leave hd (fun c => takeTags_dsp c d m) fun c => takeTags_pc c d m]
  simp only [CoreRegs.takeTags, setG_wait]

theorem exec_fenceComplete_fence (hw : (s.core t).wait = .fence) : exec (.fenceComplete t) s =
    if storesOut t s then .next s else .next (s.modCore t fun c => { c with wait := .none, pc := c.pc + 4 }) := by
  show Host.Outcome.next (if waitsFor t (· == .fence) s && !storesOut t s then _ else s) = _
  rw [waitsFor_running he hr, hw, modCore_leave (f := id) hd (fun _ => rfl) fun _ => rfl]
  cases storesOut t s
  · rfl
  · rfl

theorem exec_fencefComplete_fencef {snap : List (Nat × Nat)} (hw : (s.core t).wait = .fencef snap) :
    exec (.fencefComplete t) s = if fenceDone snap s then
      .next (s.modCore t fun c => { c with wait := .none, pc := c.pc + 4 }) else .next s := by
  cases hdone : fenceDone snap s
  · refine congrArg Host.Outcome.next ?_
    simp only [hw, hdone, Bool.and_false]
    rfl
  · refine congrArg Host.Outcome.next ?_
    simp only [hw, he, hr, hdone, modCore_next (f := fun c => { c with wait := .none }) hd (fun _ => rfl) fun _ => rfl]
    rfl

end

/-- With no wait, no event ends one. -/
theorem exec_resume_noWait (hw : (s.core t).wait = .none) :
    exec (.waittResume t) s = .next s ∧ exec (.waiteReturn t) s = .next s ∧ exec (.mwaitReturn t) s = .next s ∧
      exec (.fenceComplete t) s = .next s ∧ exec (.fencefComplete t) s = .next s := by
  refine ⟨congrArg Host.Outcome.next ?_, congrArg Host.Outcome.next ?_, congrArg Host.Outcome.next ?_,
    congrArg Host.Outcome.next ?_, congrArg Host.Outcome.next ?_⟩
  · simp only [hw]
  · simp only [hw]
  · simp only [hw]
  · refine if_neg ?_
    simp [waitsFor, hw]
  · simp only [hw]

end

/-- A change of a context's state is noted in the scheduler's records only. -/
theorem noteTile_sched (t : Nat) (s : State) : ∃ d, noteTile t s = { s with sched := d } := by
  unfold noteTile
  split
  · next c _ =>
    rw [noteCx]
    split
    · exact ⟨s.sched, rfl⟩
    · exact ⟨_, rfl⟩
  · exact ⟨s.sched, rfl⟩

theorem waitsAndEvents : WaitsAndEvents := by
  intro t d a s c tv r hold
  refine ⟨fun h => ⟨exec_rdt_runs h d, exec_rdts_runs h d, exec_waitt_runs h d a, ⟨fun hm => ?_, fun ha hm => ?_⟩, ?_,
    exec_mtest_runs h d a⟩, fun he hr hd => ⟨fun g hw hg => exec_waittResume_due he hr hd hw hg,
      fun m hw hm => exec_waiteReturn_due he hr hd hw hm, fun m hw hm => exec_mwaitReturn_due he hr hd hw hm⟩,
    fun hw => ?_, fun u => ?_⟩
  · exact (exec_waite_runs h d a).trans (if_pos hm)
  · exact (exec_waite_runs h d a).trans (if_neg fun hor => hor.elim ha fun hn => hn hm)
  · exact exec_mwait_runs h d a
  · obtain ⟨hwaitt, hwaite, hmwait, -, -⟩ := exec_resume_noWait hw
    exact ⟨hwaitt, hwaite, hmwait⟩
  · obtain ⟨d, hd⟩ := noteTile_sched t u
    rw [hd]
    exact ⟨rfl, rfl, rfl, rfl, rfl⟩

/-- Settles O24: the instructions as they run, and the events that end their waits. -/
theorem waitsFencesAndCaches : Obligations.WaitsFencesAndCaches := by
  refine ⟨waitsAndEvents, fun t a b s => ?_⟩
  intro c on
  refine ⟨fun h => ⟨exec_fence_runs h, exec_fencef_runs h, exec_cinva_runs h, exec_iinv_runs h, _, exec_cinv_runs h a b,
    List.filter_sublist, mem_linesKept _ _ _⟩, fun he hr hd => ⟨exec_fenceComplete_fence he hr hd,
      fun snap hw => exec_fencefComplete_fencef he hr hd hw⟩, fun hw => ?_⟩
  obtain ⟨-, -, -, hfence, hfencef⟩ := exec_resume_noWait hw
  exact ⟨hfence, hfencef⟩

end Sys2Proof.Proofs
end

section
/-! PROOFS. The registers of the bells, and a bell as it fires. -/

namespace Sys2Proof.Proofs

open Sys2Proof Sys2Proof.Machine Sys2Proof.Laws

/-! ### Where the registers of the bells lie -/

theorem addrOf_bellTime (h n : Nat) : addrOf .BELL_TIME h n = 0x20000 + h * 0x1000 + n * 0x20 := rfl
theorem addrOf_bellAct (h n : Nat) : addrOf .BELL_ACT h n = 0x20008 + h * 0x1000 + n * 0x20 := rfl
theorem addrOf_bellPeriod (h n : Nat) : addrOf .BELL_PERIOD h n = 0x20010 + h * 0x1000 + n * 0x20 := rfl
theorem addrOf_bellCtl (h n : Nat) : addrOf .BELL_CTL h n = 0x20018 + h * 0x1000 + n * 0x20 := rfl
theorem addrOf_bellStat (h : Nat) : addrOf .BELL_STAT h 0 = 0x20C00 + h * 0x1000 := rfl
theorem addrOf_bellFired (h : Nat) : addrOf .BELL_FIRED h 0 = 0x20C10 + h * 0x1000 := rfl
theorem addrOf_tbEvt : addrOf .TB_EVT 0 0 = 0x10078 := rfl

/-- The registers of a bell's entry. -/
def entryReg (r : RegName) : Prop := r = .BELL_TIME ∨ r = .BELL_ACT ∨ r = .BELL_PERIOD ∨ r = .BELL_CTL

theorem entry_time : entryReg .BELL_TIME := .inl rfl
theorem entry_act : entryReg .BELL_ACT := .inr (.inl rfl)
theorem entry_period : entryReg .BELL_PERIOD := .inr (.inr (.inl rfl))
theorem entry_ctl : entryReg .BELL_CTL := .inr (.inr (.inr rfl))

/-- The registers of an entry lie in the 32 bytes of their bell. -/
theorem addrOf_entry {r : RegName} (hr : entryReg r) (h n : Nat) :
    0x20000 + h * 0x1000 + n * 0x20 ≤ addrOf r h n ∧ addrOf r h n < 0x20000 + h * 0x1000 + n * 0x20 + 0x20 := by
  rcases hr with rfl | rfl | rfl | rfl
  · rw [addrOf_bellTime]; omega
  · rw [addrOf_bellAct]; omega
  · rw [addrOf_bellPeriod]; omega
  · rw [addrOf_bellCtl]; omega

/-- The registers of one entry are four words. -/
theorem addrOf_entry_inj {r q : RegName} (hr : entryReg r) (hq : entryReg q) (hne : r ≠ q) (h n : Nat) :
    addrOf r h n ≠ addrOf q h n := by
  have hbase : r.desc.base ≠ q.desc.base ∧ r.desc.stride1 = q.desc.stride1 ∧ r.desc.stride2 = q.desc.stride2 := by
    revert hne
    rcases hr with rfl | rfl | rfl | rfl
    · rcases hq with rfl | rfl | rfl | rfl <;> decide
    · rcases hq with rfl | rfl | rfl | rfl <;> decide
    · rcases hq with rfl | rfl | rfl | rfl <;> decide
    · rcases hq with rfl | rfl | rfl | rfl <;> decide
  rw [addrOf, addrOf, hbase.2.1, hbase.2.2]
  omega

theorem reg_setReg_entry {r q : RegName} (hr : entryReg r) (hq : entryReg q) (hne : r ≠ q) (s : State) (v : Word)
    (h n : Nat) : (s.setReg q v h n).reg r h n = s.reg r h n :=
  reg_setReg_ne _ _ _ _ _ _ _ _ (addrOf_entry_inj hr hq hne h n)

/-! ### Changes of registers only -/

/-- From `o` to `s` only the registers at the addresses `as` change. -/
structure Touches (as : List Nat) (o s : State) : Prop where
  rest : ∃ r, s = { o with regs := r }
  same : ∀ a, a ∉ as → Tab.get resetAt s.regs a = Tab.get resetAt o.regs a

theorem touches_refl (as : List Nat) (s : State) : Touches as s s := ⟨⟨s.regs, rfl⟩, fun _ _ => rfl⟩

theorem touches_setReg {as : List Nat} {o s : State} (h : Touches as o s) {r : RegName} {i j : Nat} (v : Word)
    (hr : addrOf r i j ∈ as) : Touches as o (s.setReg r v i j) := by
  obtain ⟨⟨g, hg⟩, hsame⟩ := h
  refine ⟨⟨_, by rw [hg]; rfl⟩, fun a ha => ?_⟩
  rw [← hsame a ha]
  exact tab_get_set_ne _ _ _ fun hc => ha (hc ▸ hr)

theorem Touches.trans {as : List Nat} {o s u : State} (h : Touches as o s) (h' : Touches as s u) : Touches as o u := by
  obtain ⟨⟨g, hg⟩, hsame⟩ := h
  obtain ⟨⟨g', hg'⟩, hsame'⟩ := h'
  refine ⟨⟨g', by rw [hg', hg]⟩, fun a ha => (hsame' a ha).trans (hsame a ha)⟩

theorem Touches.mono {as bs : List Nat} {o s : State} (h : Touches as o s) (hb : ∀ a ∈ as, a ∈ bs) : Touches bs o s :=
  ⟨h.rest, fun a ha => h.same a fun hc => ha (hb a hc)⟩

theorem Touches.reg {as : List Nat} {o s : State} (h : Touches as o s) {r : RegName} {i j : Nat}
    (hr : addrOf r i j ∉ as) : s.reg r i j = o.reg r i j := h.same _ hr

theorem Touches.fh {as : List Nat} {o s : State} (h : Touches as o s) : s.fh = o.fh := by
  obtain ⟨r, hr⟩ := h.rest
  rw [hr]

theorem planLive_nil {s : State} (h : s.fh.live = []) : planLive s = s := ledgerLive_nil h _ _

/-! ### The counts of BELL_STAT and the event bits -/

/-- A field of BELL_STAT counts an event, and a bit of TB_EVT shows it (R66, R69). -/
def counted (hi lo b h : Nat) (c : Bool) (s : State) : State :=
  if c then (s.count .BELL_STAT hi lo h).flag .TB_EVT b else s

theorem counted_touches (hi lo b h : Nat) (c : Bool) (s : State) :
    Touches [addrOf .BELL_STAT h 0, addrOf .TB_EVT 0 0] s (counted hi lo b h c s) := by
  cases c
  · exact touches_refl _ s
  · exact touches_setReg (touches_setReg (touches_refl _ s) _ (List.mem_cons_self)) _
      (List.mem_cons_of_mem _ List.mem_cons_self)

theorem counted_evt (hi lo b h : Nat) (c : Bool) (s : State) (i : Nat) (hi64 : i < 64) :
    (counted hi lo b h c s).rb .TB_EVT i = (c && decide (i = b) || s.rb .TB_EVT i) := by
  cases c
  · rfl
  · have hne : addrOf .TB_EVT 0 0 ≠ addrOf .BELL_STAT h 0 := by
      rw [addrOf_tbEvt, addrOf_bellStat]
      omega
    rw [counted, if_pos rfl, State.flag, State.rb, reg_setReg_same, bit_setBit _ _ _ hi64, State.count,
      reg_setReg_ne _ _ _ _ _ _ _ _ hne, Bool.true_and, State.rb]

theorem counted_stat (hi lo b h : Nat) (c : Bool) (s : State) :
    (counted hi lo b h c s).reg .BELL_STAT h = if c then bumpFld (s.reg .BELL_STAT h) hi lo 1 else s.reg .BELL_STAT h := by
  cases c
  · rfl
  · have hne : addrOf .BELL_STAT h 0 ≠ addrOf .TB_EVT 0 0 := by
      rw [addrOf_tbEvt, addrOf_bellStat]
      omega
    rw [counted, if_pos rfl, State.flag, reg_setReg_ne _ _ _ _ _ _ _ _ hne, State.count, reg_setReg_same]
    rfl

theorem fld_bumpFld_same (v : Word) (hi lo k : Nat) (h : hi < 64) :
    fld (bumpFld v hi lo k) hi lo = satNat (hi + 1 - lo) (fld v hi lo + k) := by
  rw [bumpFld, fld_putFld_same _ _ _ _ h, satNat]
  have := Nat.two_pow_pos (hi + 1 - lo)
  exact Nat.mod_eq_of_lt (by omega)

/-! ### The record of a fire -/

/-- BELL_CTL of a bell that fires with LAST `last` (R66, R74). -/
def firedCtl (w : Word) (last : Nat) : Word := putFld (putFld w 63 48 (fld w 63 48 + 1)) 10 8 last

/-- FIRES, LAST and BELL_FIRED of a fire are written. -/
def classed (h n last : Nat) (s : State) : State :=
  ((s.putReg .BELL_CTL 63 48 (s.rf .BELL_CTL 63 48 h n + 1) h n).putReg .BELL_CTL 10 8 last h n).flag .BELL_FIRED n h

/-- LAST as a fire shows it (R74). -/
def fireLast (late dropped denied : Bool) : Nat := if denied then 4 else if dropped then 3 else if late then 2 else 1

/-- The addresses of what a fire of bell `n` records. -/
def recordAddrs (h n : Nat) : List Nat :=
  [addrOf .BELL_CTL h n, addrOf .BELL_FIRED h 0, addrOf .BELL_STAT h 0, addrOf .TB_EVT 0 0]

theorem classed_touches (h n last : Nat) (s : State) : Touches (recordAddrs h n) s (classed h n last s) :=
  touches_setReg (touches_setReg (touches_setReg (touches_refl _ s) _ List.mem_cons_self) _ List.mem_cons_self) _
    (List.mem_cons_of_mem _ List.mem_cons_self)

theorem counted_touches_record (hi lo b h n : Nat) (c : Bool) (s : State) :
    Touches (recordAddrs h n) s (counted hi lo b h c s) :=
  (counted_touches hi lo b h c s).mono fun _ ha => List.mem_cons_of_mem _ (List.mem_cons_of_mem _ ha)

section
variable {h n : Nat} (hn : n < 64)
include hn

/-- The registers that a fire or a refusal writes besides BELL_CTL are no register of an entry. -/
theorem addrOf_entry_ne {r : RegName} (hr : entryReg r) (h' : Nat) : addrOf r h n ≠ addrOf .BELL_STAT h 0 ∧
    addrOf r h n ≠ addrOf .BELL_FIRED h 0 ∧ addrOf r h' n ≠ addrOf .TB_EVT 0 0 := by
  have ha := addrOf_entry hr h n
  have ha' := addrOf_entry hr h' n
  rw [addrOf_bellStat, addrOf_bellFired, addrOf_tbEvt]
  omega

theorem counted_entry {r : RegName} (hr : entryReg r) (hi lo b : Nat) (c : Bool) (s : State) :
    (counted hi lo b h c s).reg r h n = s.reg r h n := by
  obtain ⟨hstat, -, hevt⟩ := addrOf_entry_ne (h := h) hn hr h
  exact (counted_touches hi lo b h c s).reg (by simp [hstat, hevt])

theorem classed_ctl (last : Nat) (s : State) :
    (classed h n last s).reg .BELL_CTL h n = firedCtl (s.reg .BELL_CTL h n) last := by
  obtain ⟨-, hfired, -⟩ := addrOf_entry_ne (h := h) hn entry_ctl h
  rw [classed, State.flag, reg_setReg_ne _ _ _ _ _ _ _ _ hfired, State.putReg, reg_setReg_same, State.putReg,
    reg_setReg_same]
  rfl

theorem classed_fired (last : Nat) (s : State) (i : Nat) (hi : i < 64) :
    (classed h n last s).rb .BELL_FIRED i h = (decide (i = n) || s.rb .BELL_FIRED i h) := by
  obtain ⟨-, hfired, -⟩ := addrOf_entry_ne (h := h) hn entry_ctl h
  rw [classed, State.flag, State.rb, reg_setReg_same, bit_setBit _ _ _ hi, State.putReg,
    reg_setReg_ne _ _ _ _ _ _ _ _ hfired.symm, State.putReg, reg_setReg_ne _ _ _ _ _ _ _ _ hfired.symm, State.rb]

end

theorem classed_evtStat (h n last : Nat) (hn : n < 64) (s : State) :
    (classed h n last s).reg .TB_EVT = s.reg .TB_EVT ∧ (classed h n last s).reg .BELL_STAT h = s.reg .BELL_STAT h := by
  have hc : ∀ a, a ≠ addrOf .BELL_CTL h n → a ≠ addrOf .BELL_FIRED h 0 →
      Tab.get resetAt (classed h n last s).regs a = Tab.get resetAt s.regs a := by
    intro a ha ha'
    have ht : Touches [addrOf .BELL_CTL h n, addrOf .BELL_FIRED h 0] s (classed h n last s) :=
      touches_setReg (touches_setReg (touches_setReg (touches_refl _ s) _ List.mem_cons_self) _ List.mem_cons_self) _
        (List.mem_cons_of_mem _ List.mem_cons_self)
    exact ht.same a (by simp [ha, ha'])
  obtain ⟨hstat, -, hevt⟩ := addrOf_entry_ne (h := h) hn entry_ctl h
  refine ⟨hc _ hevt.symm ?_, hc _ hstat.symm ?_⟩
  · rw [addrOf_tbEvt, addrOf_bellFired]
    omega
  · rw [addrOf_bellStat, addrOf_bellFired]
    omega

/-- What a fire records, besides the marks of live slots (R66, R69). -/
def fireRecorded (h n : Nat) (late dropped denied : Bool) (s : State) : State :=
  counted 31 16 9 h denied (counted 47 32 8 h late (classed h n (fireLast late dropped denied) s))

theorem fireRecorded_touches (h n : Nat) (late dropped denied : Bool) (s : State) :
    Touches (recordAddrs h n) s (fireRecorded h n late dropped denied s) :=
  ((classed_touches h n _ s).trans (counted_touches_record _ _ _ h n _ _)).trans (counted_touches_record _ _ _ h n _ _)

theorem recordFire_eq {s : State} (hl : s.fh.live = []) (h n : Nat) (late dropped denied : Bool) :
    recordFire h n late dropped denied s = fireRecorded h n late dropped denied s := by
  have hlive : (fireRecorded h n late dropped denied s).fh.live = [] := by rw [(fireRecorded_touches _ _ _ _ _ _).fh, hl]
  show (if (late || denied) && (fireRecorded h n late dropped denied s).rf .BELL_CTL 19 16 h n == 0 then
    planLive (fireRecorded h n late dropped denied s) else fireRecorded h n late dropped denied s) = _
  rw [planLive_nil hlive, ite_self]

section
variable {h n : Nat} (hn : n < 64)
include hn

theorem fireRecorded_ctl (late dropped denied : Bool) (s : State) : (fireRecorded h n late dropped denied s).reg .BELL_CTL h n =
    firedCtl (s.reg .BELL_CTL h n) (fireLast late dropped denied) := by
  rw [fireRecorded, counted_entry hn entry_ctl, counted_entry hn entry_ctl, classed_ctl hn]

theorem fireRecorded_fired (late dropped denied : Bool) (s : State) (i : Nat) (hi : i < 64) :
    (fireRecorded h n late dropped denied s).rb .BELL_FIRED i h = (decide (i = n) || s.rb .BELL_FIRED i h) := by
  have hne : addrOf .BELL_FIRED h 0 ∉ [addrOf .BELL_STAT h 0, addrOf .TB_EVT 0 0] := by
    rw [addrOf_bellFired, addrOf_bellStat, addrOf_tbEvt]
    simp
    omega
  rw [fireRecorded, State.rb, (counted_touches _ _ _ _ _ _).reg hne, (counted_touches _ _ _ _ _ _).reg hne]
  exact classed_fired hn _ s i hi

theorem fireRecorded_evt (late dropped denied : Bool) (s : State) (i : Nat) (hi : i < 64) :
    (fireRecorded h n late dropped denied s).rb .TB_EVT i =
      (denied && decide (i = 9) || (late && decide (i = 8) || s.rb .TB_EVT i)) := by
  rw [fireRecorded, counted_evt _ _ _ _ _ _ _ hi, counted_evt _ _ _ _ _ _ _ hi, State.rb,
    (classed_evtStat h n _ hn s).1, State.rb]

/-- The count of late bells (R74). -/
theorem fireRecorded_late (dropped denied : Bool) (s : State) : (fireRecorded h n true dropped denied s).rf .BELL_STAT 47 32 h =
    min 65535 (s.rf .BELL_STAT 47 32 h + 1) := by
  have hlate : fld (bumpFld (s.reg .BELL_STAT h) 47 32 1) 47 32 = min 65535 (s.rf .BELL_STAT 47 32 h + 1) := by
    rw [fld_bumpFld_same _ _ _ _ (by decide), satNat, Nat.min_comm, State.rf] <;> rfl
  rw [fireRecorded, State.rf, counted_stat, counted_stat, (classed_evtStat h n _ hn s).2, if_pos rfl, ← hlate]
  cases denied
  · rfl
  · exact fld_putFld_ne _ _ _ _ _ _ (by decide) (by decide)

end

/-! ### What follows a fire -/

/-- BELL_CTL of a bell of period `per` once it has fired: a one-shot bell is idle, a periodic one counts REMAIN down (R71). -/
def advancedCtl (per : Nat) (w : Word) : Word :=
  if per = 0 then clearBit w 2
  else if fld w 47 32 = 0 then w
  else if fld w 47 32 = 1 then clearBit (putFld w 47 32 (fld w 47 32 - 1)) 2
  else putFld w 47 32 (fld w 47 32 - 1)

/-- FIRE_TIME of the bell once it has fired (R71). -/
def advancedTime (per now : Nat) (w : Word) : Word := if per = 0 then w else BitVec.ofNat 64 (nextFire w.toNat per now)

/-- The addresses of what moves as bell `n` advances. -/
def advanceAddrs (h n : Nat) : List Nat := [addrOf .BELL_CTL h n, addrOf .BELL_TIME h n]

/-- The state once the bell's mark of a step is gone (R72). -/
def stepUnmarked (h n : Nat) (s : State) : State :=
  { s with bellStep := Tab.set (fun _ => false) s.bellStep (h * 64 + n) false }

theorem addrOf_ctl_ne_time (h n : Nat) : addrOf .BELL_CTL h n ≠ addrOf .BELL_TIME h n :=
  addrOf_entry_inj entry_ctl entry_time (by decide) h n

/-- A bell that advances, with its period and REMAIN read from the state before. -/
theorem advanceBell_eq (h n : Nat) (s : State) : advanceBell h n s =
    if s.rf .BELL_PERIOD 39 0 h n = 0 then disarmBell h n (stepUnmarked h n s)
    else
      let u := (stepUnmarked h n s).setReg .BELL_TIME
        (BitVec.ofNat 64 (nextFire (s.reg .BELL_TIME h n).toNat (s.rf .BELL_PERIOD 39 0 h n) s.now)) h n
      if s.rf .BELL_CTL 47 32 h n = 0 then u
      else if s.rf .BELL_CTL 47 32 h n = 1 then
        disarmBell h n (u.putReg .BELL_CTL 47 32 (s.rf .BELL_CTL 47 32 h n - 1) h n)
      else u.putReg .BELL_CTL 47 32 (s.rf .BELL_CTL 47 32 h n - 1) h n := by
  have hk : ∀ v, ((stepUnmarked h n s).setReg .BELL_TIME v h n).rf .BELL_CTL 47 32 h n = s.rf .BELL_CTL 47 32 h n :=
    fun v => congrArg (fld · 47 32) (reg_setReg_ne _ _ _ _ _ _ _ _ (addrOf_ctl_ne_time h n))
  simp only [← hk (BitVec.ofNat 64 (nextFire (s.reg .BELL_TIME h n).toNat (s.rf .BELL_PERIOD 39 0 h n) s.now))]
  rfl

theorem advanceBell_touches (h n : Nat) (s : State) :
    Touches (advanceAddrs h n) (stepUnmarked h n s) (advanceBell h n s) := by
  have hu := touches_refl (advanceAddrs h n) (stepUnmarked h n s)
  have hctl : addrOf .BELL_CTL h n ∈ advanceAddrs h n := List.mem_cons_self
  have htime : addrOf .BELL_TIME h n ∈ advanceAddrs h n := List.mem_cons_of_mem _ List.mem_cons_self
  rw [advanceBell_eq]
  split
  · exact touches_setReg hu _ hctl
  · dsimp only
    split
    · exact touches_setReg hu _ htime
    · split
      · exact touches_setReg (touches_setReg (touches_setReg hu _ htime) _ hctl) _ hctl
      · exact touches_setReg (touches_setReg hu _ htime) _ hctl

theorem advanceBell_ctl (h n : Nat) (s : State) : (advanceBell h n s).reg .BELL_CTL h n =
    advancedCtl (s.rf .BELL_PERIOD 39 0 h n) (s.reg .BELL_CTL h n) := by
  have hne := addrOf_ctl_ne_time h n
  have hrem : fld (s.reg .BELL_CTL h n) 47 32 = s.rf .BELL_CTL 47 32 h n := rfl
  rw [advanceBell_eq, advancedCtl, hrem]
  split
  · exact reg_setReg_same _ _ _ _ _
  · dsimp only
    split
    · exact reg_setReg_ne _ _ _ _ _ _ _ _ hne
    · split
      · rw [disarmBell, State.unflag, reg_setReg_same, State.putReg, reg_setReg_same, reg_setReg_ne _ _ _ _ _ _ _ _ hne]
        rfl
      · rw [State.putReg, reg_setReg_same, reg_setReg_ne _ _ _ _ _ _ _ _ hne]
        rfl

theorem advanceBell_time (h n : Nat) (s : State) : (advanceBell h n s).reg .BELL_TIME h n =
    advancedTime (s.rf .BELL_PERIOD 39 0 h n) s.now (s.reg .BELL_TIME h n) := by
  have hne := (addrOf_ctl_ne_time h n).symm
  rw [advanceBell_eq, advancedTime]
  split
  · exact reg_setReg_ne _ _ _ _ _ _ _ _ hne
  · dsimp only
    split
    · exact reg_setReg_same _ _ _ _ _
    · split
      · rw [disarmBell, State.unflag, reg_setReg_ne _ _ _ _ _ _ _ _ hne, State.putReg,
          reg_setReg_ne _ _ _ _ _ _ _ _ hne, reg_setReg_same]
      · rw [State.putReg, reg_setReg_ne _ _ _ _ _ _ _ _ hne, reg_setReg_same]

/-! ### The word BELL_CTL of a bell that has fired -/

theorem fld_advancedCtl (per : Nat) (w : Word) (hi lo : Nat) (h : hi < 64) (h2 : 2 < lo) (hr : hi < 32 ∨ 47 < lo) :
    fld (advancedCtl per w) hi lo = fld w hi lo := by
  have hput : ∀ x, fld (putFld w 47 32 x) hi lo = fld w hi lo := fun x => fld_putFld_ne _ _ _ _ _ _ h hr
  have hclear : ∀ v : Word, fld (clearBit v 2) hi lo = fld v hi lo := fun v => fld_clearBit_ne _ _ _ _ h (.inl h2)
  unfold advancedCtl
  split
  · exact hclear w
  · split
    · rfl
    · split
      · rw [hclear, hput]
      · exact hput _

theorem fld_firedCtl_ne (w : Word) (last hi lo : Nat) (h : hi < 48) (hl : hi < 8 ∨ 10 < lo) :
    fld (firedCtl w last) hi lo = fld w hi lo := by
  rw [firedCtl, fld_putFld_ne _ _ _ _ _ _ (by omega) hl, fld_putFld_ne _ _ _ _ _ _ (by omega) (by omega)]

theorem fld_firedCtl_fires (w : Word) (last : Nat) : fld (firedCtl w last) 63 48 = (fld w 63 48 + 1) % 65536 := by
  rw [firedCtl, fld_putFld_ne _ _ _ _ _ _ (by decide) (by decide), fld_putFld_same _ _ _ _ (by decide)] <;> rfl

theorem fld_firedCtl_last (w : Word) (last : Nat) : fld (firedCtl w last) 10 8 = last % 8 := by
  rw [firedCtl, fld_putFld_same _ _ _ _ (by decide)] <;> rfl

theorem bit_firedCtl_armed (w : Word) (last : Nat) : bit (firedCtl w last) 2 = bit w 2 := by
  rw [firedCtl, bit_putFld_ne _ _ _ _ _ (by decide) (by decide), bit_putFld_ne _ _ _ _ _ (by decide) (by decide)]

theorem bit_advancedCtl_oneShot (w : Word) : bit (advancedCtl 0 w) 2 = false := by
  rw [advancedCtl, if_pos rfl, bit_clearBit _ _ _ (by decide)]
  rfl

theorem bit_advancedCtl_periodic {per : Nat} (hp : per ≠ 0) {w : Word} (hw : bit w 2 = true) :
    bit (advancedCtl per w) 2 = true ↔ fld w 47 32 ≠ 1 := by
  rw [advancedCtl, if_neg hp]
  split
  · next h0 => simp [hw, h0]
  · split
    · next h1 => simp [h1, bit_clearBit]
    · next h1 => simp [bit_putFld_ne, hw, h1]

theorem fld_advancedCtl_remain {per : Nat} (hp : per ≠ 0) (w : Word) :
    fld (advancedCtl per w) 47 32 = fld w 47 32 - 1 := by
  have hlt := fld_lt w 47 32
  have hput : fld (putFld w 47 32 (fld w 47 32 - 1)) 47 32 = fld w 47 32 - 1 := by
    rw [fld_putFld_same _ _ _ _ (by decide)]
    omega
  rw [advancedCtl, if_neg hp]
  split
  · next h0 => rw [h0]
  · split
    · rw [fld_clearBit_ne _ _ _ _ (by decide) (by decide), hput]
    · exact hput

end Sys2Proof.Proofs
end

section
/-! PROOFS. A due bell fires in its turn. -/

namespace Sys2Proof.Proofs

open Sys2Proof Sys2Proof.Machine Sys2Proof.Laws

/-! ### The turn of a bell -/

/-- Bell `n` of Belfry `h` is due, and no bell of the Belfry comes before it (R66, R67). -/
def Turn (h n : Nat) (s : State) : Prop := bellDue h n s = true ∧ ∀ m < 64, firesBefore h m n s = false

theorem bellDue_iff (h n : Nat) (s : State) :
    bellDue h n s = true ↔ s.rb .BELL_CTL 2 h n = true ∧ (s.reg .BELL_TIME h n).toNat ≤ s.now := by
  rw [bellDue, Bool.and_eq_true, decide_eq_true_eq]
  exact Iff.rfl

theorem firesBefore_iff (h m n : Nat) (s : State) : firesBefore h m n s = true ↔ bellDue h m s = true ∧
    ((s.reg .BELL_TIME h m).toNat < (s.reg .BELL_TIME h n).toNat ∨
      (s.reg .BELL_TIME h m).toNat = (s.reg .BELL_TIME h n).toNat ∧ m < n) := by
  rw [firesBefore]
  simp only [Bool.and_eq_true, Bool.or_eq_true, decide_eq_true_eq]

theorem turn_iff (h n : Nat) (s : State) :
    Turn h n s ↔ (!bellDue h n s || (List.range 64).any fun m => firesBefore h m n s) = false := by
  rw [Turn, Bool.or_eq_false_iff, Bool.not_eq_false', List.any_eq_false]
  simp only [List.mem_range, Bool.not_eq_true]

theorem fireBell_notTurn {h n : Nat} {s : State} (ht : ¬Turn h n s) : fireBell h n s = s := by
  rw [turn_iff, Bool.not_eq_false] at ht
  exact if_pos ht

/-! ### The classes of a fire, and what it sends -/

/-- A late fire whose action is dropped (R66). -/
def dropsNow (h n : Nat) (s : State) : Bool := bellLate h n s && actLateDrop (s.reg .BELL_ACT h n)

/-- A fire that skips a target (R69). -/
def deniedNow (h n : Nat) (s : State) : Bool := !dropsNow h n s && (fireTargets h n s).2.2

/-- A fire whose action goes on its way. -/
def performsNow (h n : Nat) (s : State) : Bool :=
  !dropsNow h n s && (fireTargets h n s).2.1 && actCode (s.reg .BELL_ACT h n) != 0

/-- The delivery that a fire makes (R65, R67). -/
def deliveryOf (h n : Nat) (s : State) : Delivery :=
  let w := s.reg .BELL_ACT h n
  ⟨actCode w, h, n, actTarget w, actArg w, s.rf .BELL_CTL 19 16 h n, (fireTargets h n s).1,
    (s.reg .BELL_TIME h n).toNat, s.now⟩

def sentBy (h n : Nat) (s : State) : List Delivery := if performsNow h n s then [deliveryOf h n s] else []

/-- LAST of the fire. -/
def lastNow (h n : Nat) (s : State) : Nat := fireLast (bellLate h n s) (dropsNow h n s) (deniedNow h n s)

/-- The state once the fire is recorded and its action is on its way, before the bell advances. -/
def fireSent (h n : Nat) (s : State) : State :=
  { fireRecorded h n (bellLate h n s) (dropsNow h n s) (deniedNow h n s) s with
    deliveries := s.deliveries ++ sentBy h n s }

theorem fireRecorded_deliveries (h n : Nat) (late dropped denied : Bool) (s : State) :
    (fireRecorded h n late dropped denied s).deliveries = s.deliveries := by
  obtain ⟨r, hr⟩ := (fireRecorded_touches h n late dropped denied s).rest
  rw [hr]

/-- A bell in its turn, with no live slot: the fire is fireRecorded, the action is sent, and the bell advances. -/
theorem fireBell_turn {h n : Nat} {s : State} (hl : s.fh.live = []) (ht : Turn h n s) :
    fireBell h n s = advanceBell h n (fireSent h n s) := by
  have hfire : fireBell h n s =
      let r := recordFire h n (bellLate h n s) (dropsNow h n s) (deniedNow h n s) s
      advanceBell h n (if performsNow h n s then { r with deliveries := r.deliveries ++ [deliveryOf h n s] } else r) :=
    if_neg (by rw [(turn_iff h n s).1 ht]; decide)
  rw [hfire, recordFire_eq hl]
  dsimp only
  rw [fireRecorded_deliveries]
  refine congrArg (advanceBell h n) ?_
  rw [fireSent, sentBy]
  split
  · rfl
  · rw [List.append_nil, ← fireRecorded_deliveries h n (bellLate h n s) (dropsNow h n s) (deniedNow h n s) s]

section
variable {h n : Nat} {s : State} (hl : s.fh.live = []) (ht : Turn h n s)
include hl ht

theorem fireBell_rest : ∃ r b, fireBell h n s =
    { s with regs := r, deliveries := s.deliveries ++ sentBy h n s, bellStep := b } := by
  obtain ⟨r, hr⟩ := (fireRecorded_touches h n (bellLate h n s) (dropsNow h n s) (deniedNow h n s) s).rest
  obtain ⟨r', hr'⟩ := (advanceBell_touches h n (fireSent h n s)).rest
  refine ⟨r', Tab.set (fun _ => false) s.bellStep (h * 64 + n) false, ?_⟩
  rw [fireBell_turn hl ht, hr', stepUnmarked, fireSent, hr]

theorem fireBell_same {a : Nat} (ha : a ∉ recordAddrs h n) (htime : a ≠ addrOf .BELL_TIME h n) :
    Tab.get resetAt (fireBell h n s).regs a = Tab.get resetAt s.regs a := by
  have hadv : a ∉ advanceAddrs h n := by
    intro hc
    rcases List.mem_cons.1 hc with hc | hc
    · exact ha (hc ▸ List.mem_cons_self)
    · exact htime (List.mem_singleton.1 hc)
  rw [fireBell_turn hl ht, (advanceBell_touches h n _).same a hadv]
  exact (fireRecorded_touches h n _ _ _ s).same a ha

variable (hn : n < 64)
include hn

theorem fireBell_ctl : (fireBell h n s).reg .BELL_CTL h n =
    advancedCtl (s.rf .BELL_PERIOD 39 0 h n) (firedCtl (s.reg .BELL_CTL h n) (lastNow h n s)) := by
  have hper : (fireSent h n s).reg .BELL_PERIOD h n = s.reg .BELL_PERIOD h n := by
    have hent := addrOf_entry_ne (h := h) hn entry_period h
    refine (fireRecorded_touches h n _ _ _ s).reg ?_
    have hne := addrOf_entry_inj entry_period entry_ctl (by decide) h n
    simp [recordAddrs, hne, hent]
  rw [fireBell_turn hl ht, advanceBell_ctl, State.rf, hper, State.rf]
  exact congrArg _ (fireRecorded_ctl hn _ _ _ s)

theorem fireBell_time : (fireBell h n s).reg .BELL_TIME h n =
    advancedTime (s.rf .BELL_PERIOD 39 0 h n) s.now (s.reg .BELL_TIME h n) := by
  have hsame : ∀ r, entryReg r → r ≠ .BELL_CTL → (fireSent h n s).reg r h n = s.reg r h n := by
    intro r hr hrc
    have hne := addrOf_entry_inj hr entry_ctl hrc h n
    obtain ⟨hstat, hfired, hevt⟩ := addrOf_entry_ne (h := h) hn hr h
    exact (fireRecorded_touches h n _ _ _ s).reg (by simp [recordAddrs, hne, hstat, hfired, hevt])
  have hnow : (fireSent h n s).now = s.now := by
    obtain ⟨r, hr⟩ := (fireRecorded_touches h n (bellLate h n s) (dropsNow h n s) (deniedNow h n s) s).rest
    rw [fireSent, hr]
    rfl
  have hper := hsame .BELL_PERIOD entry_period (by decide)
  have htime := hsame .BELL_TIME entry_time (by decide)
  rw [fireBell_turn hl ht, advanceBell_time, State.rf, hper, State.rf, htime, hnow]

omit hn in
/-- A register outside the entry is as the record of the fire leaves it. -/
theorem fireBell_recorded {r : RegName} {i j : Nat} (hr : addrOf r i j ∉ advanceAddrs h n) : (fireBell h n s).reg r i j =
    (fireRecorded h n (bellLate h n s) (dropsNow h n s) (deniedNow h n s) s).reg r i j := by
  rw [fireBell_turn hl ht]
  exact (advanceBell_touches h n _).reg hr

end

theorem not_mem_advanceAddrs {h n : Nat} (hn : n < 64) : addrOf .BELL_FIRED h 0 ∉ advanceAddrs h n ∧
    addrOf .BELL_STAT h 0 ∉ advanceAddrs h n ∧ addrOf .TB_EVT 0 0 ∉ advanceAddrs h n := by
  obtain ⟨hstat, hfired, hevt⟩ := addrOf_entry_ne (h := h) hn entry_time h
  obtain ⟨hstat', hfired', hevt'⟩ := addrOf_entry_ne (h := h) hn entry_ctl h
  simp [advanceAddrs, hstat.symm, hfired.symm, hevt.symm, hstat'.symm, hfired'.symm, hevt'.symm]

/-! ### The fields that a fire leaves -/

theorem fld_ctl_fires (per : Nat) (w : Word) (last : Nat) :
    fld (advancedCtl per (firedCtl w last)) 63 48 = (fld w 63 48 + 1) % 65536 := by
  rw [fld_advancedCtl _ _ _ _ (by decide) (by decide) (by decide), fld_firedCtl_fires]

theorem fld_ctl_owner (per : Nat) (w : Word) (last : Nat) :
    fld (advancedCtl per (firedCtl w last)) 19 16 = fld w 19 16 := by
  rw [fld_advancedCtl _ _ _ _ (by decide) (by decide) (by decide), fld_firedCtl_ne _ _ _ _ (by decide) (by decide)]

theorem fld_ctl_last (per : Nat) (w : Word) (last : Nat) :
    fld (advancedCtl per (firedCtl w last)) 10 8 = last % 8 := by
  rw [fld_advancedCtl _ _ _ _ (by decide) (by decide) (by decide), fld_firedCtl_last]

/-- The next time is the first of whole periods later than device time (R71). -/
theorem nextFire_eq {per : Nat} (hp : per ≠ 0) (ft now : Nat) : ∃ k : Nat, 1 ≤ k ∧ nextFire ft per now = ft + k * per ∧
    now < ft + k * per ∧ (1 < k → ft + (k - 1) * per ≤ now) := by
  rw [nextFire]
  split
  · next hle =>
    have hdiv := Nat.div_mul_le_self (now - (ft + per)) per
    have hmod := Nat.lt_div_mul_add (a := now - (ft + per)) (Nat.pos_of_ne_zero hp)
    generalize (now - (ft + per)) / per = q at hdiv hmod
    refine ⟨q + 2, by omega, ?_, ?_, fun _ => ?_⟩
    · rw [Nat.add_mul, Nat.add_mul]; omega
    · rw [Nat.add_mul]; omega
    · rw [show q + 2 - 1 = q + 1 by omega, Nat.add_mul]; omega
  · next hgt => exact ⟨1, Nat.le_refl 1, by omega, by omega, fun h => absurd h (by decide)⟩

/-! ### The targets of a fire -/

theorem maskAction_iff (a : Nat) : maskAction a = true ↔ a = 1 ∨ a = 2 ∨ a = 3 ∨ a = 8 := by
  simp [maskAction, or_assoc]

/-- The check at the fire tick (R69): the tiles to deliver to, whether the action is performed, whether a target is
skipped. -/
theorem fireTargets_spec (h n : Nat) (s : State) :
    let code := actCode (s.reg .BELL_ACT h n)
    let masked := code = 1 ∨ code = 2 ∨ code = 3 ∨ code = 8
    let target := actTarget (s.reg .BELL_ACT h n)
    let owner := s.rf .BELL_CTL 19 16 h n
    let named := bellMask h target s
    let held := heldMask owner named s
    (fireTargets h n s).1 = (if masked then held else 0) ∧
    ((fireTargets h n s).2.1 = true ↔ if masked then named = 0 ∨ held ≠ 0 else holdsTarget owner code target s = true) ∧
    ((fireTargets h n s).2.2 = true ↔ if masked then held ≠ named else holdsTarget owner code target s = false) := by
  intro code masked target owner named held
  have hmask : maskAction code = true ↔ masked := maskAction_iff _
  by_cases hm : masked
  · have htg : fireTargets h n s = (held, named == 0 || held != 0, held != named) := if_pos (hmask.2 hm)
    simp only [htg, if_pos hm, Bool.or_eq_true, beq_iff_eq, bne_iff_ne, true_and]
  · have htg : fireTargets h n s = (0, holdsTarget owner code target s, !holdsTarget owner code target s) :=
      if_neg (mt hmask.1 hm)
    simp only [htg, if_neg hm, Bool.not_eq_true', true_and]

/-! ### LAST of a fire -/

/-- A fire that is not dropped and skips a target is DENIED. -/
theorem lastNow_denied {h n : Nat} {s : State} (hd : dropsNow h n s = false) (hs : (fireTargets h n s).2.2 = true) :
    deniedNow h n s = true ∧ lastNow h n s = 4 := by
  have hden : deniedNow h n s = true := by rw [deniedNow, hd, hs]; rfl
  exact ⟨hden, by rw [lastNow, hden]; rfl⟩

theorem lastNow_dropped {h n : Nat} {s : State} (hd : dropsNow h n s = true) : lastNow h n s = 3 := by
  rw [lastNow, deniedNow, hd]
  rfl

/-- A fire that is not dropped and skips no target is LATE or ON_TIME. -/
theorem lastNow_performed {h n : Nat} {s : State} (hd : dropsNow h n s = false) (hs : (fireTargets h n s).2.2 = false) :
    lastNow h n s = if bellLate h n s then 2 else 1 := by
  rw [lastNow, deniedNow, hd, hs]
  rfl

theorem performsNow_iff (h n : Nat) (s : State) : performsNow h n s = true ↔
    ¬dropsNow h n s = true ∧ (fireTargets h n s).2.1 = true ∧ actCode (s.reg .BELL_ACT h n) ≠ 0 := by
  rw [performsNow, Bool.and_eq_true, Bool.and_eq_true, Bool.not_eq_true', ← Bool.not_eq_true, bne_iff_ne, and_assoc]

/-- Settles O40: the fire's record, its delivery and the advance, each read from the state before. -/
theorem bellsFireInTurn : Obligations.BellsFireInTurn := by
  unfold Obligations.BellsFireInTurn
  intro h n s hl time due turn act code target owner late dropped masked named held skipped performs per rem
  have hdue : ∀ m : Nat, bellDue h m s = true ↔ due m := fun m => bellDue_iff h m s
  have hturn : Turn h n s ↔ turn := by
    refine and_congr (hdue n) (forall_congr' fun m => imp_congr_right fun _ => ?_)
    rw [← Bool.not_eq_true, firesBefore_iff, hdue, not_and]
  have hlate : bellLate h n s = true ↔ late := by
    rw [bellLate, Bool.or_eq_true, decide_eq_true_eq, or_comm]
  have hdrop : dropsNow h n s = true ↔ dropped := by
    rw [dropsNow, Bool.and_eq_true, hlate, actLateDrop, bit_eq_getLsbD]
  obtain ⟨htg, hperf, hskip⟩ : (fireTargets h n s).1 = (if masked then held else 0) ∧
      ((fireTargets h n s).2.1 = true ↔ performs) ∧ ((fireTargets h n s).2.2 = true ↔ skipped) := fireTargets_spec h n s
  refine ⟨fun hnt => congrArg _ (fireBell_notTurn (mt hturn.1 hnt)), fun ht => ⟨fireBell h n s, rfl, ?_⟩⟩
  replace ht := hturn.2 ht
  obtain ⟨hfiredA, hstatA, hevtA⟩ := not_mem_advanceAddrs (h := h) n.isLt
  obtain ⟨r, b, hrest⟩ := fireBell_rest hl ht
  have hctl := fireBell_ctl hl ht n.isLt
  have hlast : (fireBell h n s).rf .BELL_CTL 10 8 h n = lastNow h n s % 8 := by rw [State.rf, hctl, fld_ctl_last]
  have hevt : ∀ i < 64, (fireBell h n s).rb .TB_EVT i =
      (deniedNow h n s && decide (i = 9) || (bellLate h n s && decide (i = 8) || s.rb .TB_EVT i)) := by
    intro i hi
    rw [State.rb, fireBell_recorded hl ht hevtA]
    exact fireRecorded_evt n.isLt _ _ _ s i hi
  have hdel : (fireBell h n s).deliveries = s.deliveries ++ sentBy h n s := by rw [hrest]
  refine ⟨by rw [hrest], by rw [hrest], by rw [hrest], by rw [State.rf, hctl, fld_ctl_fires]; rfl, ?_,
    by rw [State.rf, hctl, fld_ctl_owner]; rfl, ?_, fun ⟨hnd, hs⟩ => ?_, fun hd => ?_, fun ⟨hnd, hns, hlt⟩ => ?_,
    fun ⟨hnl, hns⟩ => ?_, fun hlt => ?_, fun hper => ?_, fun hper => ?_, fun ⟨hnd, hp, hc⟩ => ?_, fun hno => ?_⟩
  · rw [State.rb, fireBell_recorded hl ht hfiredA]
    refine (fireRecorded_fired n.isLt _ _ _ s n n.isLt).trans ?_
    rw [decide_eq_true rfl, Bool.true_or]
  · obtain ⟨hstat, hfired, hevt⟩ := addrOf_entry_ne (h := h) n.isLt entry_act h
    have hne := addrOf_entry_inj entry_act entry_ctl (by decide) h n
    exact fireBell_same hl ht (by simp [recordAddrs, hstat, hfired, hevt, hne])
      (addrOf_entry_inj entry_act entry_time (by decide) h n)
  · obtain ⟨hden, hlast4⟩ := lastNow_denied (Bool.eq_false_iff.2 (mt hdrop.1 hnd)) (hskip.2 hs)
    refine ⟨?_, ?_⟩
    · rw [hlast, hlast4]
    · rw [hevt 9 (by decide), hden]
      rfl
  · rw [hlast, lastNow_dropped (hdrop.2 hd)]
  · rw [hlast, lastNow_performed (Bool.eq_false_iff.2 (mt hdrop.1 hnd)) (Bool.eq_false_iff.2 (mt hskip.1 hns)),
      hlate.2 hlt]
    rfl
  · have hnd : dropsNow h n s = false := Bool.eq_false_iff.2 fun hd => hnl (hdrop.1 hd).1
    rw [hlast, lastNow_performed hnd (Bool.eq_false_iff.2 (mt hskip.1 hns)), Bool.eq_false_iff.2 (mt hlate.1 hnl)]
    rfl
  · have hlt' := hlate.2 hlt
    refine ⟨?_, ?_⟩
    · rw [hevt 8 (by decide), hlt']
      simp
    · rw [State.rf, fireBell_recorded hl ht hstatA, hlt']
      exact fireRecorded_late n.isLt _ _ s
  · refine ⟨?_, ?_⟩
    · rw [State.rb, hctl, show s.rf .BELL_PERIOD 39 0 h n = 0 from hper]
      exact bit_advancedCtl_oneShot _
    · rw [fireBell_time hl ht n.isLt]
      exact if_pos hper
  · obtain ⟨k, hk, hnext, hgt, hle⟩ := nextFire_eq hper (time n) s.now
    have harmed : bit (firedCtl (s.reg .BELL_CTL h n) (lastNow h n s)) 2 = true := by
      rw [bit_firedCtl_armed]
      exact ((hdue n).1 ht.1).1
    have hrem : fld (firedCtl (s.reg .BELL_CTL h n) (lastNow h n s)) 47 32 = rem :=
      fld_firedCtl_ne _ _ _ _ (by decide) (by decide)
    refine ⟨k, hk, ?_, hgt, hle, ?_, ?_⟩
    · rw [fireBell_time hl ht n.isLt, advancedTime, if_neg hper, hnext]
    · rw [State.rb, hctl, bit_advancedCtl_periodic hper harmed, hrem]
    · rw [State.rf, hctl, fld_advancedCtl_remain hper, hrem]
  · have hnow : performsNow h n s = true := (performsNow_iff h n s).2 ⟨mt hdrop.1 hnd, hperf.2 hp, hc⟩
    have harg : actArg (s.reg .BELL_ACT h n) = act.toNat % 2 ^ 32 := by rw [actArg, fld, Nat.pow_zero, Nat.div_one]
    rw [hdel, sentBy, if_pos hnow, deliveryOf, htg, harg]
    rfl
  · have hnow : ¬performsNow h n s = true := by
      rw [performsNow_iff, hdrop, hperf]
      rintro ⟨hnd, hp, hc⟩
      rcases hno with hd | hnp | h0
      · exact hnd hd
      · exact hnp hp
      · exact hc h0
    rw [hdel, sentBy, if_neg hnow, List.append_nil]

end Sys2Proof.Proofs
end

section
/-! PROOFS. The due bells of a Belfry fire, each once. -/

namespace Sys2Proof.Proofs

open Sys2Proof Sys2Proof.Machine Sys2Proof.Laws

/-! ### The bell that is next -/

/-- Of the due bells of a Belfry one is in its turn: the order of R67 has no endless descent. -/
theorem turn_exists {h n : Nat} {s : State} (hn : n < 64) (hd : bellDue h n s = true) : ∃ m < 64, Turn h m s := by
  by_cases ht : Turn h n s
  · exact ⟨n, hn, ht⟩
  · have hbefore : ∃ m < 64, firesBefore h m n s = true := by
      refine Classical.byContradiction fun hno => ht ⟨hd, fun m hm => ?_⟩
      exact Bool.eq_false_iff.2 fun hb => hno ⟨m, hm, hb⟩
    obtain ⟨m, hm, hb⟩ := hbefore
    obtain ⟨hdm, hlt⟩ := (firesBefore_iff h m n s).1 hb
    exact turn_exists hm hdm
termination_by (s.reg .BELL_TIME h n).toNat * 64 + n
decreasing_by omega

theorem nextDue_turn {h m : Nat} {s : State} (hm : nextDue h s = some m) : m < 64 ∧ Turn h m s := by
  have hmem := List.mem_of_find?_eq_some hm
  have hp := List.find?_some hm
  rw [Bool.and_eq_true, Bool.not_eq_true'] at hp
  refine ⟨List.mem_range.1 hmem, (turn_iff h m s).2 ?_⟩
  rw [hp.1, hp.2]
  rfl

theorem nextDue_some {h n : Nat} {s : State} (hn : n < 64) (hd : bellDue h n s = true) :
    ∃ m, nextDue h s = some m ∧ m < 64 ∧ Turn h m s := by
  obtain ⟨m, hm, ht⟩ := turn_exists hn hd
  have hsome : (nextDue h s).isSome = true := by
    rw [nextDue, List.find?_isSome]
    have hguard := (turn_iff h m s).1 ht
    rw [Bool.or_eq_false_iff] at hguard
    exact ⟨m, List.mem_range.2 hm, by rw [ht.1, hguard.2]; rfl⟩
  obtain ⟨k, hk⟩ := Option.isSome_iff_exists.1 hsome
  exact ⟨k, hk, nextDue_turn hk⟩

theorem nextDue_none {h : Nat} {s : State} (hd : ∀ m < 64, bellDue h m s = false) : nextDue h s = none := by
  cases hm : nextDue h s with
  | none => rfl
  | some m =>
    obtain ⟨hlt, hdue, -⟩ := nextDue_turn hm
    rw [hd m hlt] at hdue
    exact absurd hdue (by decide)

/-! ### A fire of one bell, seen from another -/

/-- From `o` to `s` bells of Belfry `h` other than `n` have fired. -/
structure OthersFired (h n : Nat) (o s : State) : Prop where
  rest : ∃ r d b, s = { o with regs := r, deliveries := d, bellStep := b }
  ctl : s.reg .BELL_CTL h n = o.reg .BELL_CTL h n
  time : s.reg .BELL_TIME h n = o.reg .BELL_TIME h n
  fired : o.rb .BELL_FIRED n h = true → s.rb .BELL_FIRED n h = true

theorem othersFired_refl (h n : Nat) (s : State) : OthersFired h n s s :=
  ⟨⟨s.regs, s.deliveries, s.bellStep, rfl⟩, rfl, rfl, id⟩

theorem OthersFired.trans {h n : Nat} {o s u : State} (h1 : OthersFired h n o s) (h2 : OthersFired h n s u) :
    OthersFired h n o u := by
  obtain ⟨r, d, b, hs⟩ := h1.rest
  obtain ⟨r', d', b', hu⟩ := h2.rest
  exact ⟨⟨r', d', b', by rw [hu, hs]⟩, h2.ctl.trans h1.ctl, h2.time.trans h1.time, fun hf => h2.fired (h1.fired hf)⟩

theorem OthersFired.now {h n : Nat} {o s : State} (hf : OthersFired h n o s) : s.now = o.now := by
  obtain ⟨r, d, b, hs⟩ := hf.rest
  rw [hs]
  rfl

theorem OthersFired.live {h n : Nat} {o s : State} (hf : OthersFired h n o s) (hl : o.fh.live = []) : s.fh.live = [] := by
  obtain ⟨r, d, b, hs⟩ := hf.rest
  rw [hs]
  exact hl

theorem OthersFired.due {h n : Nat} {o s : State} (hf : OthersFired h n o s) : bellDue h n s = bellDue h n o := by
  rw [Bool.eq_iff_iff, bellDue_iff, bellDue_iff, State.rb, hf.ctl, hf.time, hf.now]
  exact Iff.rfl

section
variable {h m : Nat} {s : State} (hl : s.fh.live = []) (ht : Turn h m s) (hm : m < 64)
include hl ht hm

theorem othersFired_fireBell {n : Nat} (hn : n < 64) (hne : n ≠ m) : OthersFired h n s (fireBell h m s) := by
  have hsame : ∀ r, entryReg r → (fireBell h m s).reg r h n = s.reg r h n := by
    intro r hr
    obtain ⟨hstat, hfired, hevt⟩ := addrOf_entry_ne (h := h) hn hr h
    obtain ⟨hlo, hhi⟩ := addrOf_entry hr h n
    have hctl : addrOf r h n ≠ addrOf .BELL_CTL h m := by rw [addrOf_bellCtl]; omega
    have htime : addrOf r h n ≠ addrOf .BELL_TIME h m := by rw [addrOf_bellTime]; omega
    exact fireBell_same hl ht (by simp [recordAddrs, hstat, hfired, hevt, hctl]) htime
  obtain ⟨r, b, hrest⟩ := fireBell_rest hl ht
  refine ⟨⟨r, _, b, hrest⟩, hsame _ entry_ctl, hsame _ entry_time, fun hf => ?_⟩
  rw [State.rb, fireBell_recorded hl ht (not_mem_advanceAddrs hm).1]
  exact (fireRecorded_fired hm _ _ _ s n hn).trans (by rw [hf, Bool.or_true])

theorem fireBell_fired : (fireBell h m s).rb .BELL_FIRED m h = true := by
  rw [State.rb, fireBell_recorded hl ht (not_mem_advanceAddrs hm).1]
  exact (fireRecorded_fired hm _ _ _ s m hm).trans (by rw [decide_eq_true rfl, Bool.true_or])

theorem fireBell_fires : (fireBell h m s).rf .BELL_CTL 63 48 h m = (s.rf .BELL_CTL 63 48 h m + 1) % 65536 := by
  rw [State.rf, fireBell_ctl hl ht hm, fld_ctl_fires, State.rf]

/-- A bell that has fired is not due, where device time is no more than half of its range: the next time of a periodic bell
is later, and fits in BELL_TIME. -/
theorem fireBell_notDue (hnow : s.now < 2 ^ 63) : bellDue h m (fireBell h m s) = false := by
  have hnow' : (fireBell h m s).now = s.now := by
    obtain ⟨r, b, hrest⟩ := fireBell_rest hl ht
    rw [hrest]
    rfl
  rw [Bool.eq_false_iff, Ne, bellDue_iff, State.rb, fireBell_ctl hl ht hm, fireBell_time hl ht hm, hnow']
  rintro ⟨harmed, hle⟩
  by_cases hp : s.rf .BELL_PERIOD 39 0 h m = 0
  · rw [hp, bit_advancedCtl_oneShot] at harmed
    exact absurd harmed (by decide)
  · have hper : s.rf .BELL_PERIOD 39 0 h m < 2 ^ 40 := fld_lt _ 39 0
    obtain ⟨-, hdue⟩ := (bellDue_iff h m s).1 ht.1
    obtain ⟨k, hk, hnext, hgt, hprev⟩ := nextFire_eq hp (s.reg .BELL_TIME h m).toNat s.now
    rw [advancedTime, if_neg hp, hnext, BitVec.toNat_ofNat] at hle
    have hbound : (s.reg .BELL_TIME h m).toNat + k * s.rf .BELL_PERIOD 39 0 h m
        ≤ s.now + s.rf .BELL_PERIOD 39 0 h m := by
      by_cases h1 : 1 < k
      · have hprev' := hprev h1
        have hsplit : k * s.rf .BELL_PERIOD 39 0 h m
            = (k - 1) * s.rf .BELL_PERIOD 39 0 h m + s.rf .BELL_PERIOD 39 0 h m := by
          rw [← Nat.succ_mul, Nat.succ_eq_add_one, Nat.sub_add_cancel hk]
        omega
      · have : k = 1 := by omega
        subst this
        omega
    rw [Nat.mod_eq_of_lt (by omega)] at hle
    omega

end

/-! ### All due bells fire -/

theorem fireDue_none {h : Nat} {s : State} (hd : ∀ m < 64, bellDue h m s = false) (k : Nat) : fireDue h k s = s := by
  cases k with
  | zero => rfl
  | succ k => rw [fireDue, nextDue_none hd]

theorem fireDue_some {h m : Nat} {s : State} (hm : nextDue h s = some m) (k : Nat) :
    fireDue h (k + 1) s = fireDue h k (fireBell h m s) := by
  rw [fireDue, hm]

/-- A bell that is not due does not fire. -/
theorem othersFired_fireDue {h n : Nat} (hn : n < 64) (k : Nat) (s : State) (hl : s.fh.live = [])
    (hd : bellDue h n s = false) : OthersFired h n s (fireDue h k s) := by
  induction k generalizing s with
  | zero => exact othersFired_refl h n s
  | succ k ih =>
    cases hm : nextDue h s with
    | none =>
      rw [fireDue, hm]
      exact othersFired_refl h n s
    | some m =>
      obtain ⟨hm64, ht⟩ := nextDue_turn hm
      have hne : n ≠ m := fun hc => by
        rw [hc, ht.1] at hd
        exact absurd hd (by decide)
      have hstep := othersFired_fireBell hl ht hm64 hn hne
      rw [fireDue_some hm]
      exact hstep.trans (ih _ (hstep.live hl) (hstep.due.trans hd))

/-- A due bell fires once, in its turn: `due` lists the due bells of the Belfry, for all of which there is time. -/
theorem fireDue_due {h n : Nat} (hn : n < 64) (k : Nat) (due : List Nat) (s : State) (hl : s.fh.live = [])
    (hnow : s.now < 2 ^ 63) (hlen : due.length ≤ k) (hdue : ∀ m < 64, bellDue h m s = true → m ∈ due)
    (hd : bellDue h n s = true) : ∃ u, OthersFired h n s u ∧ Turn h n u ∧
      OthersFired h n (fireBell h n u) (fireDue h k s) := by
  induction k generalizing due s with
  | zero =>
    have hmem := List.length_pos_of_mem (hdue n hn hd)
    omega
  | succ k ih =>
    obtain ⟨m, hm, hm64, ht⟩ := nextDue_some hn hd
    rw [fireDue_some hm]
    by_cases hne : n = m
    · subst hne
      obtain ⟨r, b, hrest⟩ := fireBell_rest hl ht
      have hl' : (fireBell h n s).fh.live = [] := by rw [hrest]; exact hl
      exact ⟨s, othersFired_refl h n s, ht, othersFired_fireDue hn k _ hl' (fireBell_notDue hl ht hm64 hnow)⟩
    · have hstep := othersFired_fireBell hl ht hm64 hn hne
      have hmem := hdue m hm64 ht.1
      have hdue' : ∀ j < 64, bellDue h j (fireBell h m s) = true → j ∈ due.erase m := by
        intro j hj hdj
        have hjm : j ≠ m := fun hc => by
          rw [hc, fireBell_notDue hl ht hm64 hnow] at hdj
          exact absurd hdj (by decide)
        rw [(othersFired_fireBell hl ht hm64 hj hjm).due] at hdj
        exact (List.mem_erase_of_ne hjm).2 (hdue j hj hdj)
      have hlen' : (due.erase m).length ≤ k := by
        rw [List.length_erase_of_mem hmem]
        omega
      obtain ⟨u, hu, hturn, hafter⟩ := ih (due.erase m) (fireBell h m s) (hstep.live hl) (hstep.now.symm ▸ hnow) hlen'
        hdue' (hstep.due.trans hd)
      exact ⟨u, hstep.trans hu, hturn, hafter⟩

/-- Where no other bell is due, only this one fires. -/
theorem fireDue_only {h n : Nat} {s : State} (hn : n < 64) (hl : s.fh.live = []) (hnow : s.now < 2 ^ 63)
    (hd : bellDue h n s = true) (honly : ∀ m < 64, m ≠ n → bellDue h m s = false) (k : Nat) :
    fireDue h (k + 1) s = fireBell h n s := by
  obtain ⟨m, hm, hm64, ht⟩ := nextDue_some hn hd
  have hmn : m = n := Classical.byContradiction fun hne => by
    have hdm := ht.1
    rw [honly m hm64 hne] at hdm
    exact absurd hdm (by decide)
  subst hmn
  rw [fireDue_some hm]
  refine fireDue_none (fun j hj => ?_) k
  by_cases hjm : j = m
  · rw [hjm]
    exact fireBell_notDue hl ht hn hnow
  · rw [(othersFired_fireBell hl ht hn hj hjm).due]
    exact honly j hj hjm

end Sys2Proof.Proofs
end

section
/-! PROOFS. Arming and disarming a bell. -/

namespace Sys2Proof.Proofs

open Sys2Proof Sys2Proof.Machine Sys2Proof.Laws

/-! ### The checks of an arm -/

theorem validAction_false (h a : Nat) : (!validAction h a) = true ↔ 10 < a ∨ a = 10 ∧ h ≠ 8 := by
  simp only [validAction, Bool.not_eq_true', Bool.or_eq_false_iff, Bool.and_eq_false_iff, decide_eq_false_iff_not,
    beq_eq_false_iff_ne]
  omega

/-- TARGET outside the range of its action (R69): a mask index, then the single resources. -/
theorem targetInRange_false (h a tg : Nat) : (!targetInRange h a tg) = true ↔
    (a = 1 ∨ a = 2 ∨ a = 3 ∨ a = 8) ∧ (if h = 8 then 32 else 16) ≤ tg ∨
      ((a = 5 ∨ a = 6) ∧ 15 < tg ∨ a = 4 ∧ 31 < tg ∨ a = 7 ∧ 255 < tg ∨ a = 9 ∧ 31 < tg) := by
  unfold targetInRange
  by_cases hm : maskAction a = true
  · have ha := (maskAction_iff a).1 hm
    rw [if_pos hm, Bool.not_eq_true', decide_eq_false_iff_not]
    omega
  · have ha := mt (maskAction_iff a).2 hm
    rw [if_neg hm]
    by_cases h56 : a = 5 ∨ a = 6
    · simp only [if_pos h56, Bool.not_eq_true', decide_eq_false_iff_not]
      omega
    · rw [if_neg h56]
      by_cases h4 : a = 4
      · simp only [if_pos h4, Bool.not_eq_true', decide_eq_false_iff_not]
        omega
      · rw [if_neg h4]
        by_cases h7 : a = 7
        · simp only [if_pos h7, Bool.not_eq_true', decide_eq_false_iff_not]
          omega
        · rw [if_neg h7]
          by_cases h9 : a = 9
          · simp only [if_pos h9, Bool.not_eq_true', decide_eq_false_iff_not]
            omega
          · rw [if_neg h9]
            simp only [Bool.not_true, Bool.false_eq_true, false_iff]
            omega

theorem refuses_eq (h n : Nat) (act : Word) (per : Nat) (by_ : Option Nat) (s : State) :
    Refuses h n act per by_ s =
      let a := actCode act
      let tg := actTarget act
      let owner := s.rf .BELL_CTL 19 16 h n
      if 10 < a ∨ a = 10 ∧ h ≠ 8 then 5
      else if per ≠ 0 ∧ per < 1000 then 5
      else if (a = 1 ∨ a = 2 ∨ a = 3 ∨ a = 8) ∧ (if h = 8 then 32 else 16) ≤ tg then 5
      else if (a = 5 ∨ a = 6) ∧ 15 < tg ∨ a = 4 ∧ 31 < tg ∨ a = 7 ∧ 255 < tg ∨ a = 9 ∧ 31 < tg then 5
      else if s.rb .BELL_CTL 12 h n = false ∨ holdsTarget owner a tg s = false then 4
      else by_.elim 0 fun p => if p = owner then 0 else 4 := by
  cases by_ with
  | none => rfl
  | some p => rfl

theorem armRefusal_cases (h n : Nat) (act : Word) (per : Nat) (by_ : Option Nat) (s : State) :
    armRefusal h n act per by_ s =
      if !validAction h (actCode act) then some 5
      else if per ≠ 0 && per < 1000 then some 5
      else if !targetInRange h (actCode act) (actTarget act) then some 5
      else if !s.rb .BELL_CTL 12 h n || !holdsTarget (s.rf .BELL_CTL 19 16 h n) (actCode act) (actTarget act) s then some 4
      else by_.elim none fun p => if p = s.rf .BELL_CTL 19 16 h n then none else some 4 := by
  cases by_ with
  | none => rfl
  | some p => rfl

/-- The check of the model is the one that the statement spells out, whose refusals are INVALID and DENIED. -/
theorem armRefusal_refuses (h n : Nat) (act : Word) (per : Nat) (by_ : Option Nat) (s : State) :
    (Refuses h n act per by_ s = 0 ∧ armRefusal h n act per by_ s = none) ∨
    (Refuses h n act per by_ s = 4 ∧ armRefusal h n act per by_ s = some 4) ∨
    (Refuses h n act per by_ s = 5 ∧ armRefusal h n act per by_ s = some 5) := by
  have hvalid := validAction_false h (actCode act)
  have hrange := targetInRange_false h (actCode act) (actTarget act)
  have hper : (per ≠ 0 && per < 1000) = true ↔ per ≠ 0 ∧ per < 1000 := by
    rw [Bool.and_eq_true, decide_eq_true_eq, decide_eq_true_eq]
  have hheld : (!s.rb .BELL_CTL 12 h n || !holdsTarget (s.rf .BELL_CTL 19 16 h n) (actCode act) (actTarget act) s) = true ↔
      s.rb .BELL_CTL 12 h n = false ∨ holdsTarget (s.rf .BELL_CTL 19 16 h n) (actCode act) (actTarget act) s = false := by
    rw [Bool.or_eq_true, Bool.not_eq_true', Bool.not_eq_true']
  rw [armRefusal_cases, refuses_eq]
  dsimp only
  by_cases h1 : (!validAction h (actCode act)) = true
  · rw [if_pos h1, if_pos (hvalid.1 h1)]
    exact .inr (.inr ⟨rfl, rfl⟩)
  rw [if_neg h1, if_neg (mt hvalid.2 h1)]
  by_cases h2 : per ≠ 0 ∧ per < 1000
  · rw [if_pos h2, if_pos (hper.2 h2)]
    exact .inr (.inr ⟨rfl, rfl⟩)
  rw [if_neg h2, if_neg (mt hper.1 h2)]
  by_cases h3 : (!targetInRange h (actCode act) (actTarget act)) = true
  · rw [if_pos h3]
    refine .inr (.inr ⟨?_, rfl⟩)
    rcases hrange.1 h3 with hm | hs
    · rw [if_pos hm]
    · rw [if_pos hs, ite_self]
  rw [if_neg h3, if_neg (mt (fun hm => hrange.2 (.inl hm)) h3), if_neg (mt (fun hs => hrange.2 (.inr hs)) h3)]
  by_cases h4 : s.rb .BELL_CTL 12 h n = false ∨
      holdsTarget (s.rf .BELL_CTL 19 16 h n) (actCode act) (actTarget act) s = false
  · rw [if_pos h4, if_pos (hheld.2 h4)]
    exact .inr (.inl ⟨rfl, rfl⟩)
  rw [if_neg h4, if_neg (mt hheld.1 h4)]
  cases by_ with
  | none => exact .inl ⟨rfl, rfl⟩
  | some p =>
    by_cases hp : p = s.rf .BELL_CTL 19 16 h n
    · exact .inl ⟨if_pos hp, if_pos hp⟩
    · exact .inr (.inl ⟨if_neg hp, if_neg hp⟩)

/-! ### A refused arm -/

/-- LAST written over (R69). -/
theorem putFld_last (w : Word) {k : Nat} (hk : k < 8) :
    putFld w 10 8 k = (w &&& ~~~ 0x700) ||| BitVec.ofNat 64 (k * 256) := by
  rw [putFld, show fmask 10 8 = 0x700 by decide, place, Nat.mod_eq_of_lt (show k < 2 ^ (10 + 1 - 8) from hk)] <;> rfl

/-- A refusal with no live slot: DENIED has its event bit, INVALID only its count. -/
theorem armRefused_denied {s : State} (hl : s.fh.live = []) (h n : Nat) :
    armRefused h n 4 s = counted 31 16 9 h true (s.putReg .BELL_CTL 10 8 4 h n) := by
  have hlive : (counted 31 16 9 h true (s.putReg .BELL_CTL 10 8 4 h n)).fh.live = [] := hl
  show (if _ then planLive (counted 31 16 9 h true (s.putReg .BELL_CTL 10 8 4 h n)) else _) = _
  rw [planLive_nil hlive]
  exact ite_self _

theorem armRefused_invalid (s : State) (h n : Nat) :
    armRefused h n 5 s = (s.putReg .BELL_CTL 10 8 5 h n).count .BELL_STAT 15 0 h := rfl

/-- What a refusal writes besides BELL_CTL. -/
theorem armRefused_touches {s : State} (hl : s.fh.live = []) (h n : Nat) {k : Nat} (hk : k = 4 ∨ k = 5) :
    Touches (recordAddrs h n) s (armRefused h n k s) := by
  have hput : Touches (recordAddrs h n) s (s.putReg .BELL_CTL 10 8 k h n) :=
    touches_setReg (touches_refl _ s) _ List.mem_cons_self
  rcases hk with rfl | rfl
  · rw [armRefused_denied hl]
    exact hput.trans (counted_touches_record _ _ _ h n _ _)
  · rw [armRefused_invalid]
    exact touches_setReg hput _ (List.mem_cons_of_mem _ (List.mem_cons_of_mem _ List.mem_cons_self))

section
variable {h n k : Nat} (hn : n < 64) {s : State} (hl : s.fh.live = []) (hk : k = 4 ∨ k = 5)

/-- BELL_STAT and TB_EVT are not touched as LAST is written. -/
theorem reg_putLast {q : RegName} {i j : Nat} (hq : addrOf q i j ≠ addrOf .BELL_CTL h n) (s : State) (k : Nat) :
    (s.putReg .BELL_CTL 10 8 k h n).reg q i j = s.reg q i j := reg_setReg_ne _ _ _ _ _ _ _ _ hq

include hn hl hk

theorem armRefused_ctl : (armRefused h n k s).reg .BELL_CTL h n =
    (s.reg .BELL_CTL h n &&& ~~~ 0x700) ||| BitVec.ofNat 64 (k * 256) := by
  obtain ⟨hstat, -, -⟩ := addrOf_entry_ne (h := h) hn entry_ctl h
  rcases hk with rfl | rfl
  · rw [armRefused_denied hl, counted_entry hn entry_ctl, State.putReg, reg_setReg_same, putFld_last _ (by decide)]
  · rw [armRefused_invalid, State.count, reg_setReg_ne _ _ _ _ _ _ _ _ hstat, State.putReg, reg_setReg_same,
      putFld_last _ (by decide)]

theorem armRefused_entry {q : RegName} (hq : entryReg q) (hqc : q ≠ .BELL_CTL) :
    (armRefused h n k s).reg q h n = s.reg q h n := by
  obtain ⟨hqs, hqf, hqv⟩ := addrOf_entry_ne (h := h) hn hq h
  exact (armRefused_touches hl h n hk).reg
    (by simp [recordAddrs, addrOf_entry_inj hq entry_ctl hqc h n, hqs, hqf, hqv])

/-- The counts of refusals by DENIED and by INVALID (R74). -/
theorem armRefused_stat :
    (armRefused h n k s).rf .BELL_STAT 31 16 h = min 65535 (s.rf .BELL_STAT 31 16 h + if k = 4 then 1 else 0) ∧
    (armRefused h n k s).rf .BELL_STAT 15 0 h = min 65535 (s.rf .BELL_STAT 15 0 h + if k = 4 then 0 else 1) := by
  obtain ⟨hstat, -, -⟩ := addrOf_entry_ne (h := h) hn entry_ctl h
  have hput := reg_putLast (h := h) (n := n) hstat.symm s
  have hsame : ∀ hi lo, fld (s.reg .BELL_STAT h) hi lo < 65536 →
      fld (s.reg .BELL_STAT h) hi lo = min 65535 (s.rf .BELL_STAT hi lo h + 0) := fun hi lo hlt => by
    rw [State.rf]
    omega
  rcases hk with rfl | rfl
  · refine ⟨?_, ?_⟩
    · rw [armRefused_denied hl, State.rf, counted_stat, hput, if_pos rfl, fld_bumpFld_same _ _ _ _ (by decide), satNat,
        Nat.min_comm]
      rfl
    · rw [armRefused_denied hl, State.rf, counted_stat, hput, if_pos rfl, bumpFld,
        fld_putFld_ne _ _ _ _ _ _ (by decide) (by decide)]
      exact hsame 15 0 (fld_lt _ 15 0)
  · refine ⟨?_, ?_⟩
    · rw [armRefused_invalid, State.rf, State.count, reg_setReg_same, hput, bumpFld,
        fld_putFld_ne _ _ _ _ _ _ (by decide) (by decide)]
      exact hsame 31 16 (fld_lt _ 31 16)
    · rw [armRefused_invalid, State.rf, State.count, reg_setReg_same, hput, fld_bumpFld_same _ _ _ _ (by decide), satNat,
        Nat.min_comm]
      rfl

theorem armRefused_evt : (armRefused h n k s).rb .TB_EVT 9 = true ↔ s.rb .TB_EVT 9 = true ∨ k = 4 := by
  obtain ⟨-, -, hevt⟩ := addrOf_entry_ne (h := h) hn entry_ctl h
  rcases hk with rfl | rfl
  · rw [armRefused_denied hl, counted_evt _ _ _ _ _ _ _ (by decide)]
    simp
  · have hne : addrOf .TB_EVT 0 0 ≠ addrOf .BELL_STAT h 0 := by
      rw [addrOf_tbEvt, addrOf_bellStat]
      omega
    rw [armRefused_invalid, State.rb, State.count, reg_setReg_ne _ _ _ _ _ _ _ _ hne, reg_putLast hevt.symm, State.rb]
    simp

theorem armRefused_wasRefused :
    WasRefused h n k s (armRefused h n k s) ∧ (armRefused h n k s).tiles = s.tiles := by
  obtain ⟨r, hr⟩ := (armRefused_touches hl h n hk).rest
  obtain ⟨hdenied, hinvalid⟩ := armRefused_stat hn hl hk (h := h)
  refine ⟨⟨armRefused_ctl hn hl hk, fun q hq => ?_, hdenied, hinvalid, armRefused_evt hn hl hk, by rw [hr],
    by rw [hr]⟩, by rw [hr]⟩
  obtain ⟨hqe, hqc⟩ : entryReg q ∧ q ≠ .BELL_CTL := by
    rcases hq with rfl | rfl | rfl
    · exact ⟨entry_time, by decide⟩
    · exact ⟨entry_act, by decide⟩
    · exact ⟨entry_period, by decide⟩
  exact armRefused_entry hn hl hk hqe hqc

end

end Sys2Proof.Proofs
end

section
/-! PROOFS. Writes of BELL_CTL, ARMB and DISB. -/

namespace Sys2Proof.Proofs

open Sys2Proof Sys2Proof.Machine Sys2Proof.Laws

/-! ### An arm that is taken -/

/-- From `s` to `u` bell `n` of Belfry `h` is armed with BELL_CTL `ctl` at this instant. -/
def ArmedNow (h n : Nat) (ctl : Word) (s u : State) : Prop :=
  u.reg .BELL_CTL h n = ctl ||| 4 ∧
  Tab.get (fun _ => 0) u.bellArm (h * 64 + n) = (if s.tb.now % 2 ^ 37 = 0 then s.now else s.now + 1) ∧
  u.mem = s.mem ∧ u.deliveries = s.deliveries

theorem armNow_reg (h n : Nat) (s : State) (r : RegName) (i j : Nat) :
    (armNow h n s).reg r i j = (s.flag .BELL_CTL 2 h n).reg r i j := rfl

theorem armNow_armed {h n : Nat} (s : State) : ArmedNow h n (s.reg .BELL_CTL h n) s (armNow h n s) := by
  refine ⟨?_, tab_get_set_same _ _ _ _, rfl, rfl⟩
  rw [armNow_reg, State.flag, reg_setReg_same, setBit, show place 2 2 1 = 4 by decide]

/-- The state in which a steward write of BELL_CTL has written its fields. -/
def ctlWritten (h n : Nat) (v : Word) (s : State) : State :=
  s.setReg .BELL_CTL ((s.reg .BELL_CTL h n &&& ~~~ 0xFFFF000F1000) ||| (v &&& 0xFFFF000F1000)) h n

theorem writePlain_bellCtl (s : State) (v : Word) (h n : Nat) : s.writePlain .BELL_CTL v h n = ctlWritten h n v s := by
  have hw : RegDesc.written (RegName.desc .BELL_CTL) (s.reg .BELL_CTL h n) v =
      (s.reg .BELL_CTL h n &&& ~~~ 0xFFFF000F1000) ||| (v &&& 0xFFFF000F1000) := by
    simp [RegDesc.written, RegName.desc, accessMask, fmask, and_everyBit]
  rw [State.writePlain, hw]
  rfl

theorem ctlWritten_entry (h n : Nat) (v : Word) (s : State) :
    (ctlWritten h n v s).reg .BELL_ACT h n = s.reg .BELL_ACT h n ∧
    (ctlWritten h n v s).reg .BELL_PERIOD h n = s.reg .BELL_PERIOD h n :=
  ⟨reg_setReg_entry entry_act entry_ctl (by decide) _ _ h n,
    reg_setReg_entry entry_period entry_ctl (by decide) _ _ h n⟩

/-- An arm of an idle bell, as its entry stands. -/
theorem armBell_cases {s : State} (hl : s.fh.live = []) {h n : Nat} (hn : n < 64) :
    let k := Refuses h n (s.reg .BELL_ACT h n) (s.rf .BELL_PERIOD 39 0 h n) none s
    if k = 0 then ArmedNow h n (s.reg .BELL_CTL h n) s (armBell h n s) ∧ (armBell h n s).tiles = s.tiles
    else WasRefused h n k s (armBell h n s) ∧ (armBell h n s).tiles = s.tiles := by
  intro k
  rw [armBell]
  rcases armRefusal_refuses h n (s.reg .BELL_ACT h n) (s.rf .BELL_PERIOD 39 0 h n) none s with
    ⟨hk, hr⟩ | ⟨hk, hr⟩ | ⟨hk, hr⟩
  · rw [hr, show k = 0 from hk, if_pos rfl]
    exact ⟨armNow_armed s, rfl⟩
  · rw [hr, show k = 4 from hk, if_neg (by decide)]
    exact armRefused_wasRefused hn hl (.inl rfl)
  · rw [hr, show k = 5 from hk, if_neg (by decide)]
    exact armRefused_wasRefused hn hl (.inr rfl)

/-! ### A disarm -/

/-- What a disarm of a due bell leaves: the bell has fired once, and is idle. -/
def FiredAndIdle (h n : Nat) (s u : State) : Prop :=
  u.rb .BELL_CTL 2 h n = false ∧ u.rf .BELL_CTL 63 48 h n = (s.rf .BELL_CTL 63 48 h n + 1) % 65536 ∧
  u.rb .BELL_FIRED n h = true ∧ u.mem = s.mem ∧
  ((∀ m < 64, m ≠ n → ¬(s.rb .BELL_CTL 2 h m = true ∧ (s.reg .BELL_TIME h m).toNat ≤ s.now)) →
    u.deliveries = (fireBell h n s).deliveries)

theorem disarmNow_notDue {h n : Nat} {s : State} (hd : bellDue h n s = false) :
    disarmNow h n s = s.unflag .BELL_CTL 2 h n := by
  rw [disarmNow, hd]
  rfl

theorem disarmNow_due {h n : Nat} {s : State} (hl : s.fh.live = []) (hn : n < 64) (hnow : s.now < 2 ^ 63)
    (hd : bellDue h n s = true) : FiredAndIdle h n s (disarmNow h n s) ∧ (disarmNow h n s).tiles = s.tiles := by
  have hdis : disarmNow h n s = (fireDue h 64 s).unflag .BELL_CTL 2 h n := by
    rw [disarmNow, hd]
    rfl
  obtain ⟨u, hu, ht, hafter⟩ := fireDue_due hn 64 (List.range 64) s hl hnow (Nat.le_of_eq List.length_range)
    (fun m hm _ => List.mem_range.2 hm) hd
  have hul := hu.live hl
  obtain ⟨r1, d1, b1, hu1⟩ := hu.rest
  obtain ⟨r2, b2, hu2⟩ := fireBell_rest hul ht
  obtain ⟨r3, d3, b3, hu3⟩ := hafter.rest
  have hrest : ∃ r d b, fireDue h 64 s = { s with regs := r, deliveries := d, bellStep := b } :=
    ⟨r3, d3, b3, by rw [hu3, hu2, hu1]⟩
  obtain ⟨r, d, b, hfin⟩ := hrest
  have hctl : (disarmNow h n s).reg .BELL_CTL h n = clearBit ((fireBell h n u).reg .BELL_CTL h n) 2 := by
    rw [hdis, State.unflag, reg_setReg_same, hafter.ctl]
  have hne : addrOf .BELL_FIRED h 0 ≠ addrOf .BELL_CTL h n :=
    (addrOf_entry_ne (h := h) hn entry_ctl h).2.1.symm
  refine ⟨⟨?_, ?_, ?_, ?_, fun honly => ?_⟩, ?_⟩
  · rw [State.rb, hctl, bit_clearBit _ _ _ (by decide)]
    rfl
  · rw [State.rf, hctl, fld_clearBit_ne _ _ _ _ (by decide) (by decide)]
    refine (fireBell_fires hul ht hn).trans ?_
    rw [State.rf, hu.ctl, State.rf]
  · rw [State.rb, hdis, State.unflag, reg_setReg_ne _ _ _ _ _ _ _ _ hne]
    exact hafter.fired (fireBell_fired hul ht hn)
  · rw [hdis, hfin]
    rfl
  · rw [hdis, fireDue_only hn hl hnow hd fun m hm hmn =>
      Bool.eq_false_iff.2 fun hdm => honly m hm hmn ((bellDue_iff h m s).1 hdm)]
    rfl
  · rw [hdis, hfin]
    rfl

/-! ### Steward writes of BELL_CTL -/

section
variable {h n : Nat} {v : Word} {s : State}

theorem bellCtlWrite_both (h0 : v.getLsbD 0 = true) (h1 : v.getLsbD 1 = true) : bellCtlWrite h n v s = s :=
  if_pos (by rw [bit_eq_getLsbD, bit_eq_getLsbD, h0, h1]; rfl)

/-- A write without DISARM of an armed bell is ignored (R70). -/
theorem bellCtlWrite_ignored (h1 : v.getLsbD 1 = false) (ha : bellArmed s h n = true) : bellCtlWrite h n v s = s := by
  rw [bellCtlWrite, bit_eq_getLsbD v 1, h1, ha, Bool.and_false]
  rfl

theorem bellCtlWrite_arm (h0 : v.getLsbD 0 = true) (h1 : v.getLsbD 1 = false) (ha : bellArmed s h n = false) :
    bellCtlWrite h n v s = armBell h n (ctlWritten h n v s) := by
  rw [bellCtlWrite, bit_eq_getLsbD, bit_eq_getLsbD, h0, h1, ha, writePlain_bellCtl]
  rfl

theorem bellCtlWrite_disarm (h0 : v.getLsbD 0 = false) (h1 : v.getLsbD 1 = true) :
    bellCtlWrite h n v s = if bellArmed s h n then disarmNow h n s else ctlWritten h n v s := by
  rw [bellCtlWrite, bit_eq_getLsbD, bit_eq_getLsbD, h0, h1, writePlain_bellCtl]
  rfl

end

/-! ### ARMB -/

theorem writePlain_bellAct (s : State) (v : Word) (h n : Nat) : s.writePlain .BELL_ACT v h n = s.setReg .BELL_ACT
    ((s.reg .BELL_ACT h n &&& 0x3000000000000000) ||| (v &&& ~~~ 0x3000000000000000)) h n := by
  have hw : RegDesc.written (RegName.desc .BELL_ACT) (s.reg .BELL_ACT h n) v =
      (s.reg .BELL_ACT h n &&& 0x3000000000000000) ||| (v &&& ~~~ 0x3000000000000000) := by
    simp [RegDesc.written, RegName.desc, accessMask, fmask, and_everyBit]
  rw [State.writePlain, hw]

/-- REMAIN from bits 23:8 of a selector (R101). -/
theorem putFld_remain (w sel : Word) : putFld w 47 32 (fld sel 23 8) =
    (w &&& ~~~ 0xFFFF00000000) ||| ((sel &&& 0xFFFF00) <<< (24 : Nat)) := by
  have hplace : place 47 32 (fld sel 23 8) = (sel &&& fmask 23 8) <<< (24 : Nat) := by
    apply BitVec.eq_of_getLsbD_eq
    intro i hi
    rw [getLsbD_place _ _ _ _ hi, testBit_fld, BitVec.getLsbD_shiftLeft, BitVec.getLsbD_and]
    by_cases hlo : 32 ≤ i
    · by_cases hhi : i ≤ 47
      · rw [getLsbD_fmask _ _ _ (by omega), show 8 + (i - 32) = i - 24 by omega]
        have hin : 8 ≤ i - 24 ∧ i - 24 ≤ 23 := by omega
        simp only [hi, hlo, hhi, hin, and_self, decide_true, show i - 32 < 16 by omega, show ¬i < 24 by omega, decide_false,
          Bool.true_and, Bool.and_true, Bool.not_false]
      · rw [getLsbD_fmask _ _ _ (by omega), decide_eq_false (show ¬(32 ≤ i ∧ i ≤ 47) by omega),
          decide_eq_false (show ¬(8 ≤ i - 24 ∧ i - 24 ≤ 23) by omega)]
        simp
    · rw [getLsbD_fmask _ _ _ (by omega), decide_eq_false (show ¬(32 ≤ i ∧ i ≤ 47) by omega),
        decide_eq_false (show ¬(8 ≤ i - 24 ∧ i - 24 ≤ 23) by omega)]
      simp
  rw [putFld, hplace, show fmask 47 32 = 0xFFFF00000000 by decide, show fmask 23 8 = 0xFFFF00 by decide]

/-- The state in which ARMB has written the entry, the period and REMAIN (R101). -/
def entryWritten (h n : Nat) (sel time act : Word) (s : State) : State :=
  (((s.setReg .BELL_TIME time h n).writePlain .BELL_ACT act h n).setReg .BELL_PERIOD
    (place 39 0 (fld sel 63 24)) h n).putReg .BELL_CTL 47 32 (fld sel 23 8) h n

theorem entryWritten_reg (h n : Nat) (sel time act : Word) (s : State) :
    let u := entryWritten h n sel time act s
    u.reg .BELL_TIME h n = time ∧
    u.reg .BELL_ACT h n = (s.reg .BELL_ACT h n &&& 0x3000000000000000) ||| (act &&& ~~~ 0x3000000000000000) ∧
    u.reg .BELL_PERIOD h n = BitVec.ofNat 64 (sel.toNat / 2 ^ 24) ∧
    u.reg .BELL_CTL h n = (s.reg .BELL_CTL h n &&& ~~~ 0xFFFF00000000) ||| ((sel &&& 0xFFFF00) <<< (24 : Nat)) := by
  have hplace : place 39 0 (fld sel 63 24) = BitVec.ofNat 64 (sel.toNat / 2 ^ 24) := by
    have hlt := sel.isLt
    rw [place, fld, Nat.pow_zero, Nat.mul_one, Nat.mod_mod, Nat.mod_eq_of_lt (by omega)]
  intro u
  have hu : u = entryWritten h n sel time act s := rfl
  rw [entryWritten, State.putReg, writePlain_bellAct] at hu
  refine ⟨?_, ?_, ?_, ?_⟩
  · rw [hu, reg_setReg_entry entry_time entry_ctl (by decide), reg_setReg_entry entry_time entry_period (by decide),
      reg_setReg_entry entry_time entry_act (by decide), reg_setReg_same]
  · rw [hu, reg_setReg_entry entry_act entry_ctl (by decide), reg_setReg_entry entry_act entry_period (by decide),
      reg_setReg_same, reg_setReg_entry entry_act entry_time (by decide)]
  · rw [hu, reg_setReg_entry entry_period entry_ctl (by decide), reg_setReg_same, hplace]
  · rw [hu, reg_setReg_same, reg_setReg_entry entry_ctl entry_period (by decide),
      reg_setReg_entry entry_ctl entry_act (by decide), reg_setReg_entry entry_ctl entry_time (by decide), putFld_remain]

end Sys2Proof.Proofs
end

section
/-! PROOFS. Bells are armed under the checks. -/

namespace Sys2Proof.Proofs

open Sys2Proof Sys2Proof.Machine Sys2Proof.Laws

/-! ### The selector of ARMB and DISB -/

theorem selector_bell (sel : Word) : fld sel 5 0 = sel.toNat % 64 := by
  rw [fld, Nat.pow_zero, Nat.div_one] <;> rfl

theorem selector_period (sel : Word) : fld sel 63 24 = sel.toNat / 2 ^ 24 := by
  have hlt := sel.isLt
  rw [fld, Nat.mod_eq_of_lt (by omega)]

theorem selBelfry_eq (t : Nat) (sel : Word) : selBelfry t sel = if sel.getLsbD 7 then 8 else t / 16 := by
  rw [selBelfry, bit_eq_getLsbD]

/-! ### What ARMB does to the bell -/

/-- The status of ARMB as R101 codes a refusal: DONE, DENIED or INVALID. -/
def armStatus (k : Nat) : Nat := if k = 5 then 2 else if k = 4 then 1 else 0

section
variable (t p : Nat) (sel time act : Word) (s : State)

theorem armbOp_bad (h6 : sel.getLsbD 6 = true) : armbOp t p sel time act s = (2, s) :=
  if_pos (by rw [bit_eq_getLsbD, h6])

theorem armbOp_busy (h6 : sel.getLsbD 6 = false) (ha : bellArmed s (selBelfry t sel) (sel.toNat % 64) = true) :
    armbOp t p sel time act s = (3, s) := by
  rw [armbOp, bit_eq_getLsbD, h6, selector_bell]
  exact if_pos ha

/-- ARMB of an idle bell that the checks let through. -/
theorem armbOp_taken (h6 : sel.getLsbD 6 = false) {h n : Nat} (hh : selBelfry t sel = h) (hn : sel.toNat % 64 = n)
    (ha : bellArmed s h n = false) (href : armRefusal h n act (sel.toNat / 2 ^ 24) (some p) s = none) :
    armbOp t p sel time act s = (0, armNow h n (entryWritten h n sel time act s)) := by
  simp only [armbOp, bit_eq_getLsbD, h6, selector_bell, selector_period, hh, hn, ha, href, Bool.false_eq_true, if_false,
    entryWritten]

/-- ARMB of an idle bell that the checks refuse answers with INVALID or DENIED. -/
theorem armbOp_refused (h6 : sel.getLsbD 6 = false) {h n k : Nat} (hh : selBelfry t sel = h) (hn : sel.toNat % 64 = n)
    (ha : bellArmed s h n = false) (hk : k = 4 ∨ k = 5)
    (href : armRefusal h n act (sel.toNat / 2 ^ 24) (some p) s = some k) :
    armbOp t p sel time act s = (armStatus k, armRefused h n k s) := by
  have h4 : armStatus 4 = 1 := by decide
  have h5 : armStatus 5 = 2 := by decide
  rcases hk with rfl | rfl
  · simp only [armbOp, bit_eq_getLsbD, h6, selector_bell, selector_period, hh, hn, ha, href, h4, Bool.false_eq_true,
      if_false]
  · simp only [armbOp, bit_eq_getLsbD, h6, selector_bell, selector_period, hh, hn, ha, href, h5, Bool.false_eq_true,
      if_false]

omit t p in
/-- The arm that the checks let through: the entry is written, and the bell is armed. -/
theorem entryWritten_armed (h n : Nat) :
    let u := armNow h n (entryWritten h n sel time act s)
    ArmedNow h n ((s.reg .BELL_CTL h n &&& ~~~ 0xFFFF00000000) ||| ((sel &&& 0xFFFF00) <<< (24 : Nat))) s u ∧
    u.reg .BELL_TIME h n = time ∧
    u.reg .BELL_ACT h n = (s.reg .BELL_ACT h n &&& 0x3000000000000000) ||| (act &&& ~~~ 0x3000000000000000) ∧
    u.reg .BELL_PERIOD h n = BitVec.ofNat 64 (sel.toNat / 2 ^ 24) := by
  obtain ⟨htime, hact, hper, hctl⟩ := entryWritten_reg h n sel time act s
  obtain ⟨harm, harmAt, hmem, hdel⟩ := armNow_armed (h := h) (n := n) (entryWritten h n sel time act s)
  have hother : ∀ q, entryReg q → q ≠ .BELL_CTL → (armNow h n (entryWritten h n sel time act s)).reg q h n =
      (entryWritten h n sel time act s).reg q h n := fun q hq hne => by
    rw [armNow_reg, State.flag, reg_setReg_entry hq entry_ctl hne]
  have htb : (entryWritten h n sel time act s).tb = s.tb := rfl
  rw [hctl] at harm
  rw [State.now, htb, ← State.now] at harmAt
  exact ⟨⟨harm, harmAt, hmem, hdel⟩, (hother _ entry_time (by decide)).trans htime,
    (hother _ entry_act (by decide)).trans hact, (hother _ entry_period (by decide)).trans hper⟩

/-- ARMB of an idle bell: the arm under the checks, or the refusal. -/
theorem armbOp_idle (hl : s.fh.live = []) (h6 : sel.getLsbD 6 = false) {h n k : Nat} (hh : selBelfry t sel = h)
    (hn : sel.toNat % 64 = n) (ha : bellArmed s h n = false)
    (hk : Refuses h n act (sel.toNat / 2 ^ 24) (some p) s = k) : ∃ u, armbOp t p sel time act s = (armStatus k, u) ∧
    u.tiles = s.tiles ∧
    if k = 0 then
      ArmedNow h n ((s.reg .BELL_CTL h n &&& ~~~ 0xFFFF00000000) ||| ((sel &&& 0xFFFF00) <<< (24 : Nat))) s u ∧
      u.reg .BELL_TIME h n = time ∧
      u.reg .BELL_ACT h n = (s.reg .BELL_ACT h n &&& 0x3000000000000000) ||| (act &&& ~~~ 0x3000000000000000) ∧
      u.reg .BELL_PERIOD h n = BitVec.ofNat 64 (sel.toNat / 2 ^ 24)
    else WasRefused h n k s u := by
  have hn64 : n < 64 := hn ▸ Nat.mod_lt _ (by decide)
  rcases armRefusal_refuses h n act (sel.toNat / 2 ^ 24) (some p) s with ⟨hk', href⟩ | ⟨hk', href⟩ | ⟨hk', href⟩
  · obtain rfl : k = 0 := hk.symm.trans hk'
    refine ⟨_, armbOp_taken t p sel time act s h6 hh hn ha href, rfl, ?_⟩
    rw [if_pos rfl]
    exact entryWritten_armed sel time act s h n
  · obtain rfl : k = 4 := hk.symm.trans hk'
    obtain ⟨hwas, htiles⟩ := armRefused_wasRefused (h := h) hn64 hl (.inl rfl)
    refine ⟨_, armbOp_refused t p sel time act s h6 hh hn ha (.inl rfl) href, htiles, ?_⟩
    rw [if_neg (by decide)]
    exact hwas
  · obtain rfl : k = 5 := hk.symm.trans hk'
    obtain ⟨hwas, htiles⟩ := armRefused_wasRefused (h := h) hn64 hl (.inr rfl)
    refine ⟨_, armbOp_refused t p sel time act s h6 hh hn ha (.inr rfl) href, htiles, ?_⟩
    rw [if_neg (by decide)]
    exact hwas

/-! ### What DISB does to the bell -/

theorem disbOp_eq : disbOp t p sel s =
    let h := selBelfry t sel
    let n := sel.toNat % 64
    if sel.getLsbD 6 then (2, s)
    else if ownsBell p h n s = false then (1, s)
    else if bellArmed s h n = false then (4, s)
    else (0, disarmNow h n s) := by
  rw [disbOp, bit_eq_getLsbD, selector_bell]
  simp only [Bool.not_eq_true']

end

/-! ### The two instructions as they run -/

section
variable {t : Fin 128} {s : State} (h : Runs t s)
include h

/-- A status is written on a state whose tiles are those at the fetch. -/
theorem status_next {u : State} (hu : u.tiles = s.tiles) (d : Fin 64) (st : Nat) :
    u.modCore t (fun c => (c.setG d (BitVec.ofNat 64 st)).next 4) =
      u.modCore t fun c => { c.setG d (BitVec.ofNat 64 st) with pc := c.pc + 4 } := by
  have hcore : u.core t = s.core t := congrArg (fun m => (Tab.get (fun _ => Tile.reset) m t.val).core) hu
  exact modCore_next (by rw [hcore]; exact h.2.2) (fun c => setG_dsp c d _) fun c => setG_pc c d _

theorem exec_armb_waits (d a b : Fin 64) (ho : storesOut t s = true) : exec (.armb t d a b) s = .next s :=
  congrArg Host.Outcome.next ((runInstr_runs h _ _).trans (if_pos ho))

theorem exec_armb_runs (d a b : Fin 64) (ho : storesOut t s = false) {r : Nat × State}
    (hr : armbOp t (s.core t).part.toNat ((s.core t).gr d) ((s.core t).gr a) ((s.core t).gr b) s = r)
    (htiles : r.2.tiles = s.tiles) : exec (.armb t d a b) s =
      .next (r.2.modCore t fun c => { c.setG d (BitVec.ofNat 64 r.1) with pc := c.pc + 4 }) := by
  refine congrArg Host.Outcome.next ((runInstr_runs h _ _).trans ((if_neg (by rw [ho]; decide)).trans ?_))
  dsimp only
  rw [hr]
  exact status_next h htiles d r.1

theorem exec_disb_runs (d a : Fin 64) {r : Nat × State}
    (hr : disbOp t (s.core t).part.toNat ((s.core t).gr a) s = r) (htiles : r.2.tiles = s.tiles) :
    exec (.disb t d a) s =
      .next (r.2.modCore t fun c => { c.setG d (BitVec.ofNat 64 r.1) with pc := c.pc + 4 }) := by
  refine congrArg Host.Outcome.next ((runInstr_runs h _ _).trans ?_)
  dsimp only
  rw [hr]
  exact status_next h htiles d r.1

end

theorem core_modCore_of_tiles {s u : State} (hu : u.tiles = s.tiles) (t : Nat) (f : CoreRegs → CoreRegs) :
    (u.modCore t f).core t = f (s.core t) := by
  rw [core_modCore_same]
  exact congrArg (fun m => f (Tab.get (fun _ => Tile.reset) m t).core) hu

/-- Settles O39: an arm under the checks, a disarm after the fire of a due bell, and the same for a tile. -/
theorem bellsArmUnderTheChecks : Obligations.BellsArmUnderTheChecks := by
  unfold Obligations.BellsArmUnderTheChecks
  intro h n v s hl armed due out fired armedNow
  have hnotDue : ∀ h n, ¬due h n → bellDue h n s = false := fun h n hd =>
    Bool.eq_false_iff.2 (mt (bellDue_iff h n s).1 hd)
  refine ⟨?_, fun t d a b hruns => ?_⟩
  · intro ctl w k
    refine ⟨fun h0 h1 => ?_, fun h0 h1 ha => ?_, fun h1 ha => congrArg _ (bellCtlWrite_ignored h1 ha),
      fun h0 h1 hd => ?_, fun h0 h1 hd hnow => ?_⟩
    · exact ⟨congrArg _ (bellCtlWrite_both h0 h1), congrArg _ (bellCtlWrite_both h0 h1)⟩
    · refine ⟨_, congrArg Host.Outcome.next (bellCtlWrite_arm h0 h1 ha), ?_⟩
      obtain ⟨hact, hper⟩ := ctlWritten_entry h n v s
      have hcases := armBell_cases (s := ctlWritten h n v s) hl (h := h) n.isLt
      dsimp only at hcases
      rw [hact, State.rf, hper, ctlWritten, reg_setReg_same] at hcases
      exact hcases
    · refine congrArg Host.Outcome.next ((bellCtlWrite_disarm h0 h1).trans ?_)
      rw [disarmNow_notDue (hnotDue h n hd)]
      rfl
    · refine ⟨_, congrArg Host.Outcome.next ((bellCtlWrite_disarm h0 h1).trans (if_pos hd.1)), ?_⟩
      exact (disarmNow_due hl n.isLt hnow ((bellDue_iff h n s).2 hd)).1
  · intro c sel hb nb dsel hd nd on per k
    have hsel : selBelfry t sel = hb := selBelfry_eq t sel
    have hdsel : selBelfry t dsel = hd := selBelfry_eq t dsel
    refine ⟨fun ho => exec_armb_waits hruns d a b ho, fun ho h6 => ?_, fun ho h6 ha => ?_, fun ho h6 ha => ?_, ?_⟩
    · exact exec_armb_runs hruns d a b ho (armbOp_bad t _ sel _ _ s h6) rfl
    · exact exec_armb_runs hruns d a b ho (armbOp_busy t _ sel _ _ s h6 (by rw [hsel]; exact ha)) rfl
    · obtain ⟨u, hu, htiles, hres⟩ := armbOp_idle t c.part.toNat sel (c.gr a) (c.gr b) s hl h6 hsel rfl ha rfl
      refine ⟨_, exec_armb_runs hruns d a b ho hu htiles, core_modCore_of_tiles htiles t _, hres⟩
    · intro mine
      have hop := disbOp_eq t c.part.toNat dsel s
      rw [hdsel] at hop
      refine ⟨fun hm h6 hdue hnow => ?_, fun hndue => ?_⟩
      · have hn : nd < 64 := Nat.mod_lt _ (by decide)
        obtain ⟨hfired, htiles⟩ := disarmNow_due hl (h := hd) hn hnow ((bellDue_iff hd nd s).2 hdue)
        have hop' : disbOp t c.part.toNat dsel s = (0, disarmNow hd nd s) := by
          rw [hop, h6]
          dsimp only
          rw [if_neg (by decide), if_neg (by rw [show ownsBell c.part.toNat hd nd s = true from hm]; decide),
            if_neg (by rw [show bellArmed s hd nd = true from hdue.1]; decide)]
        refine ⟨_, exec_disb_runs hruns d a hop' htiles, hfired, ?_⟩
        exact core_modCore_of_tiles htiles t _
      · dsimp only at hop
        rw [disarmNow_notDue (hnotDue hd nd hndue)] at hop
        split
        · next h6 =>
          rw [if_pos h6] at hop
          exact exec_disb_runs hruns d a hop rfl
        · next h6 =>
          rw [if_neg h6] at hop
          split
          · next hm =>
            rw [if_pos (show ownsBell c.part.toNat hd nd s = false from hm)] at hop
            exact exec_disb_runs hruns d a hop rfl
          · next hm =>
            rw [if_neg (show ¬ownsBell c.part.toNat hd nd s = false from hm)] at hop
            split
            · next ha =>
              rw [if_pos (show bellArmed s hd nd = false from ha)] at hop
              exact exec_disb_runs hruns d a hop rfl
            · next ha =>
              rw [if_neg (show ¬bellArmed s hd nd = false from ha)] at hop
              exact exec_disb_runs hruns d a hop rfl

end Sys2Proof.Proofs
end

section
/-! PROOFS. Values and cells of memory: the number that some bytes hold and its digits, what the core's own store gives,
and what a write of cells leaves where no word holds an error. -/

namespace Sys2Proof.Proofs

open Sys2Proof Sys2Proof.Machine Sys2Proof.Laws

/-! ### The number that bytes of memory hold (00_scope.md R6) -/

theorem leVal_lt (bs : List Byte) : leVal bs < 256 ^ bs.length := by
  induction bs with
  | nil => exact Nat.one_pos
  | cons b bs ih =>
    have hb : b.toNat < 256 := b.isLt
    rw [leVal, List.length_cons, Nat.pow_succ]
    omega

theorem leVal_append (xs ys : List Byte) : leVal (xs ++ ys) = leVal xs + 256 ^ xs.length * leVal ys := by
  induction xs with
  | nil => simp [leVal]
  | cons b xs ih =>
    rw [List.cons_append, leVal, leVal, ih, List.length_cons, Nat.pow_succ', Nat.mul_add, Nat.mul_assoc, Nat.add_assoc]

theorem memValue_eq_leVal (s : State) (a n : Nat) : memValue s a n = leVal ((List.range n).map fun i => s.byte (a + i)) :=
  (leVal_map_range _ n).symm

theorem memValue_congr {s u : State} {a n : Nat} (h : ∀ i < n, u.byte (a + i) = s.byte (a + i)) :
    memValue u a n = memValue s a n := by
  rw [memValue_eq_leVal, memValue_eq_leVal]
  exact congrArg leVal (List.map_congr_left fun i hi => h i (List.mem_range.mp hi))

/-- Bytes that are the digits of `x` hold its low part. -/
theorem memValue_of_digits {s : State} {a n x : Nat} (h : ∀ i < n, s.byte (a + i) = BitVec.ofNat 8 (x / 256 ^ i)) :
    memValue s a n = x % 256 ^ n := by
  rw [memValue_eq_leVal, ← leVal_digits]
  exact congrArg leVal (List.map_congr_left fun i hi => h i (List.mem_range.mp hi))

theorem memValue_lt (s : State) (a n : Nat) : memValue s a n < 256 ^ n := by
  simpa [memValue_eq_leVal] using leVal_lt ((List.range n).map fun i => s.byte (a + i))

/-- The bytes after the first `i` are the number's higher digits. -/
theorem memValue_add (s : State) (a i n : Nat) :
    memValue s a (i + n) = memValue s a i + 256 ^ i * memValue s (a + i) n := by
  simp only [memValue_eq_leVal, List.range_add, List.map_append, leVal_append, List.map_map, List.length_map,
    List.length_range, Function.comp_def, Nat.add_assoc]

/-- The `n` bytes that lie `i` bytes into `m` bytes. -/
theorem memValue_slice (s : State) (a : Nat) {i n m : Nat} (h : i + n ≤ m) :
    memValue s a m / 256 ^ i % 256 ^ n = memValue s (a + i) n := by
  obtain ⟨k, rfl⟩ := Nat.exists_eq_add_of_le h
  have hp : 0 < 256 ^ i := Nat.pow_pos (by decide)
  rw [Nat.add_assoc, memValue_add, Nat.add_mul_div_left _ _ hp, Nat.div_eq_of_lt (memValue_lt s a i), Nat.zero_add,
    memValue_add, Nat.add_mul_mod_self_left, Nat.mod_eq_of_lt (memValue_lt s _ n)]

theorem pow_256 (n : Nat) : 256 ^ n = 2 ^ (8 * n) := by rw [show 256 = 2 ^ 8 from rfl, ← Nat.pow_mul]

/-! ### Bytes of a store -/

/-- The unified range ends below the stores (00_scope.md R7). -/
theorem spaceOf_unified_lt {a p : Nat} (h : spaceOf a = .unified p) : a < 0x1E000000000 := by
  unfold spaceOf at h
  split at h
  next hlt => exact hlt
  next =>
    exfalso
    split at h
    · dsimp only at h; split at h <;> cases h
    · split at h
      · cases h
      · split at h
        · cases h
        · split at h <;> cases h

/-- A byte above the unified range, in a word without error, reads as it is stored. -/
theorem curByte_store {s : State} {a : Nat} (ha : 0x1E000000000 ≤ a) (h : s.eccAt (a / 32) = .clean) :
    s.curByte a = s.byte a :=
  curByte_clean h fun _ hp => absurd (spaceOf_unified_lt hp) (by omega)

theorem bytesAt_store {s : State} {a n : Nat} (ha : 0x1E000000000 ≤ a) (h : ∀ i < n, s.eccAt ((a + i) / 32) = .clean) :
    bytesAt a n s = (List.range n).map fun i => s.byte (a + i) :=
  List.map_congr_left fun i hi => curByte_store (by omega) (h i (List.mem_range.mp hi))

/-- Every word of an access holds one of its bytes. -/
theorem mem_wordsOf {a n w : Nat} (h : w ∈ wordsOf a n) : ∃ i < n, w = (a + i) / 32 := by
  unfold wordsOf at h
  split at h
  · cases h
  next hn =>
    obtain ⟨k, hk, rfl⟩ := List.mem_map.mp h
    rw [List.mem_range] at hk
    by_cases h0 : k = 0
    · exact ⟨0, by omega, by omega⟩
    · exact ⟨(a / 32 + k) * 32 - a, by omega, by omega⟩

theorem wordsOf_clean {s : State} {a n : Nat} (h : ∀ i < n, s.eccAt ((a + i) / 32) = .clean) :
    ∀ w ∈ wordsOf a n, s.eccAt w = .clean := by
  intro w hw
  obtain ⟨i, hi, rfl⟩ := mem_wordsOf hw
  exact h i hi

/-- Words without error hold no uncorrectable one. -/
theorem filter_uncorrectable_nil {s : State} {ws : List Nat} (h : ∀ w ∈ ws, s.eccAt w = .clean) :
    ws.filter (fun w => s.eccAt w == .uncorrectable) = [] := by
  rw [List.filter_eq_nil_iff]
  intro w hw
  rw [h w hw]
  decide

/-! ### Writing cells (08_memory_tiers.md R266) -/

/-- The byte at `x` after cells are stored in order: the last cell there, or what was there before. -/
def cellsAt (cells : List (Nat × Byte)) (x : Nat) (b : Byte) : Byte :=
  cells.foldl (fun b c => if c.1 = x then c.2 else b) b

theorem foldl_setByte_byte (cells : List (Nat × Byte)) (s : State) (x : Nat) :
    (cells.foldl (fun s c => s.setByte c.1 c.2) s).byte x = cellsAt cells x (s.byte x) := by
  unfold cellsAt
  induction cells generalizing s with
  | nil => rfl
  | cons c cells ih =>
    rw [List.foldl_cons, List.foldl_cons, ih]
    congr 1
    split
    next h => rw [← h]; exact byte_setByte_same s c.1 c.2
    next h => exact byte_setByte_ne s c.1 x c.2 (Ne.symm h)

theorem cellsAt_append (as bs : List (Nat × Byte)) (x : Nat) (b : Byte) :
    cellsAt (as ++ bs) x b = cellsAt bs x (cellsAt as x b) := List.foldl_append

/-- No cell there leaves the byte. -/
theorem cellsAt_none {cells : List (Nat × Byte)} {x : Nat} (h : ∀ c ∈ cells, c.1 ≠ x) (b : Byte) :
    cellsAt cells x b = b := by
  induction cells with
  | nil => rfl
  | cons c cells ih =>
    rw [cellsAt, List.foldl_cons, if_neg (h c (by simp))]
    exact ih fun d hd => h d (List.mem_cons_of_mem _ hd)

/-- From `s` to `u` stored bytes and check bytes alone may have changed. -/
structure BytesOnly (s u : State) : Prop where
  rest : ∃ m e, u = { s with mem := m, ecc := e }

theorem bytesOnly_refl (s : State) : BytesOnly s s := ⟨s.mem, s.ecc, rfl⟩

theorem BytesOnly.trans {s u v : State} (h : BytesOnly s u) (k : BytesOnly u v) : BytesOnly s v := by
  obtain ⟨m, e, rfl⟩ := h.rest
  obtain ⟨m', e', rfl⟩ := k.rest
  exact ⟨m', e', rfl⟩

theorem bytesOnly_foldl {α : Type} {f : State → α → State} (hf : ∀ s x, BytesOnly s (f s x)) (xs : List α) (s : State) :
    BytesOnly s (xs.foldl f s) :=
  List.foldlRecOn xs f (motive := BytesOnly s) (bytesOnly_refl s) fun _ hu x _ => hu.trans (hf _ x)

theorem foldl_eccClean_byte (ws : List Nat) (s : State) (x : Nat) :
    (ws.foldl (fun s w => s.eccClean w) s).byte x = s.byte x :=
  List.foldlRecOn ws _ (motive := fun u : State => u.byte x = s.byte x) rfl fun _ hu w _ => (eccClean_byte _ w x).trans hu

/-- Where every word holds no error, cells are stored as they are given. -/
theorem writeCells_clean {cells : List (Nat × Byte)} {s : State} (h : ∀ c ∈ cells, s.eccAt (c.1 / 32) = .clean) :
    ∃ u, writeCells cells s = (none, u) ∧ BytesOnly s u ∧ ∀ x, u.byte x = cellsAt cells x (s.byte x) := by
  have hws : ∀ w ∈ (cells.map fun c => c.1 / 32).eraseDups, s.eccAt w = .clean := by
    intro w hw
    obtain ⟨c, hc, rfl⟩ := List.mem_map.mp (List.mem_eraseDups.mp hw)
    exact h c hc
  unfold writeCells
  dsimp only
  generalize (cells.map fun c => c.1 / 32).eraseDups = ws at hws
  generalize hpart : (ws.filter fun w =>
    decide (((cells.filter fun c => c.1 / 32 == w).map (·.1)).eraseDups.length < 32)) = part
  have hp : ∀ w ∈ part, s.eccAt w = .clean := by
    subst hpart
    exact fun w hw => hws w (List.mem_filter.mp hw).1
  rw [filter_uncorrectable_nil hp]
  have hkeep : part.foldl (fun s w => if s.correctable w then (countCorrected w s).correctWord w else s) s = s := by
    refine List.foldlRecOn part _ (motive := fun u => u = s) rfl fun u hu w hw => ?_
    subst hu
    simp [State.correctable, eccNow_clean (hp w hw)]
  dsimp only
  rw [hkeep]
  refine ⟨_, rfl, (bytesOnly_foldl (fun s w => ⟨s.mem, _, rfl⟩) _ s).trans
    (bytesOnly_foldl (fun s c => ⟨_, s.ecc, rfl⟩) _ _), fun x => ?_⟩
  rw [foldl_setByte_byte, foldl_eccClean_byte]

end Sys2Proof.Proofs
end

section
/-! PROOFS. The statement of 05_matrix_arrays.md on integer operations: a completed load holds the weights of memory, a
completed stream of one row has written the rounded exact sums. -/

namespace Sys2Proof.Proofs

open Sys2Proof Sys2Proof.Machine Sys2Proof.Laws

/-! ### Rounding and the sums of a column (R146) -/

/-- `rneDiv` is the nearest integer to `v × 2^-k`, the even one of two. -/
theorem rneDiv_nearest (v : Int) (k : Nat) :
    2 * (rneDiv v k * 2 ^ k - v) ≤ 2 ^ k ∧ 2 * (v - rneDiv v k * 2 ^ k) ≤ 2 ^ k ∧
      (2 * (rneDiv v k * 2 ^ k - v) = 2 ^ k ∨ 2 * (v - rneDiv v k * 2 ^ k) = 2 ^ k → rneDiv v k % 2 = 0) := by
  have hd : ((2 ^ k : Nat) : Int) = 2 ^ k := by simp
  have hpos : (0 : Int) < 2 ^ k := Int.pow_pos (by decide)
  unfold rneDiv
  dsimp only
  rw [hd]
  generalize (2 : Int) ^ k = d at hpos
  have hv := Int.mul_ediv_add_emod v d
  have hr0 := Int.emod_nonneg v (Int.ne_of_gt hpos)
  have hr1 := Int.emod_lt_of_pos v hpos
  have hm : d * (v / d) = v / d * d := Int.mul_comm _ _
  split
  next h =>
    rw [Int.add_mul, Int.one_mul, ← hm]
    generalize d * (v / d) = m at hv
    omega
  next h =>
    rw [← hm]
    generalize d * (v / d) = m at hv
    omega

theorem zipWith_range (f : Int → Int → Int) (n : Nat) (g : Nat → Int) {row : List Int} (h : row.length = n) :
    List.zipWith f ((List.range n).map g) row = (List.range n).map fun c => f (g c) (row.getD c 0) := by
  apply List.ext_getElem
  · simp [h]
  · intro i h1 h2
    simp at h1 h2
    simp [List.getD_eq_getElem?_getD, show i < row.length by omega]

/-- The sum of column `c` of rows with their factors. -/
def columnSum (ps : List (List Int × Int)) (c : Nat) : Int := (ps.map fun p => p.1.getD c 0 * p.2).sum

theorem foldl_columns (n : Nat) (ps : List (List Int × Int)) (h : ∀ p ∈ ps, p.1.length = n) (g : Nat → Int) :
    ps.foldl (fun acc p => List.zipWith (fun v w => v + w * p.2) acc p.1) ((List.range n).map g) =
      (List.range n).map fun c => g c + columnSum ps c := by
  induction ps generalizing g with
  | nil => simp [columnSum]
  | cons p ps ih =>
    rw [List.foldl_cons, zipWith_range _ n g (h p (by simp)), ih (fun q hq => h q (List.mem_cons_of_mem _ hq))]
    simp [columnSum, Int.add_assoc]

theorem columnSums_eq {n : Nat} {rows : List (List Int)} (xs : List Int) (h : ∀ r ∈ rows, r.length = n) :
    columnSums n rows xs = (List.range n).map (columnSum (rows.zip xs)) := by
  have h0 : List.replicate n (0 : Int) = (List.range n).map fun _ => 0 := by
    rw [List.map_const', List.length_range]
  rw [columnSums, h0, foldl_columns n _ fun p hp => h p.1 (List.of_mem_zip hp).1]
  exact List.map_congr_left fun c _ => Int.zero_add _

/-! ### One row of integers -/

/-- The exact sum of column `c`: codes `rows` of weights of format `f`, activation codes `xs` of `ab` bits. -/
def intSum (f : Fmt) (ab : Nat) (rows : List (List Nat)) (xs : Nat → Nat) (c : Nat) : Int :=
  ((List.range f.k).map fun r => weightVal f ((rows.getD r []).getD c 0) * signed ab (xs r)).sum

theorem codes_row (p : Plane) (f : Fmt) {r : Nat} (h : r < f.k) :
    (p.codes f).getD r [] = (List.range f.n).map fun c => (p.rows.getD r []).getD c 0 := by
  simp [Plane.codes, List.getD_eq_getElem?_getD, h]

theorem columnSums_codes (p : Plane) (f : Fmt) (ab : Nat) (xs : Nat → Nat) :
    columnSums f.n ((p.codes f).map (·.map (weightVal f))) (((List.range f.k).map xs).map (signed ab)) =
      (List.range f.n).map (intSum f ab (p.codes f) xs) := by
  rw [columnSums_eq]
  · refine List.map_congr_left fun c hc => ?_
    rw [List.mem_range] at hc
    unfold columnSum intSum
    congr 1
    apply List.ext_getElem
    · simp [Plane.codes]
    · intro r h1 h2
      simp at h1 h2
      simp [Plane.codes, List.getD_eq_getElem?_getD, h2, hc]
  · intro r hr
    obtain ⟨q, hq, rfl⟩ := List.mem_map.mp hr
    obtain ⟨i, hi, rfl⟩ := List.mem_map.mp hq
    simp

theorem zipIdx_range_map {α β : Type} (g : Nat → α) (n : Nat) (f : α × Nat → β) :
    ((List.range n).map g).zipIdx.map f = (List.range n).map fun i => f (g i, i) := by
  apply List.ext_getElem
  · simp
  · intro i h1 h2
    simp

/-- The output width of an integer format. -/
theorem outBits_int {wf : Nat} (h : wf < 2) (out : Nat) : outBits wf out = if out = 0 then 32 else 16 := by
  unfold outBits
  rw [if_neg (Nat.ne_of_lt h), Nat.mul_one]

/-- A row of integers: each output code, and what the row adds to the digest. -/
theorem rowOut_int {o : MatOp} {w : Weights} {p : Plane} (hw : o.fmt.wf < 2) (hp : w.rows = p.codes o.fmt)
    (xs : Nat → Nat) (eas : List Nat) (olds : Option (List Nat)) :
    let v := intSum o.fmt (actBits o.afmt) w.rows xs
    let r := rowOut o w ((List.range o.fmt.k).map xs) eas olds
    r.1 = ((List.range o.fmt.n).map fun c =>
      (intOut (outBits o.fmt.wf o.out) (feederOsh o.gb) (olds.map fun l => l.getD c 0) (v c)).1) ∧
    r.2.2.2 = ((List.range o.fmt.n).map v).sum := by
  intro v r
  have hr : r = rowOut o w ((List.range o.fmt.k).map xs) eas olds := rfl
  unfold rowOut at hr
  dsimp only at hr
  rw [if_pos hw, hp, columnSums_codes, ← hp, zipIdx_range_map, ← outBits_int hw] at hr
  rw [hr, List.map_map]
  exact ⟨rfl, rfl⟩

theorem wrap_lt (n : Nat) (x : Int) : wrap n x < 2 ^ n := by
  have hpos : (0 : Int) < (2 ^ n : Nat) := Int.natCast_pos.mpr (Nat.two_pow_pos n)
  have h0 := Int.emod_nonneg x (Int.ne_of_gt hpos)
  have h1 := Int.emod_lt_of_pos x hpos
  unfold wrap
  omega

theorem ofNat_wrap (n : Nat) (x : Int) : BitVec.ofNat n (wrap n x) = BitVec.ofInt n x := by
  apply BitVec.eq_of_toNat_eq
  rw [BitVec.toNat_ofNat, BitVec.toNat_ofInt, Nat.mod_eq_of_lt (wrap_lt n x)]
  rfl

theorem satInt_eq (n : Nat) (x : Int) : satInt n x = max (-(2 ^ (n - 1))) (min (2 ^ (n - 1) - 1) x) := by
  simp [satInt]

/-- A clamped value is read back from its low bits. -/
theorem toInt_wrap_satInt {n : Nat} (hn : 0 < n) (x : Int) : (BitVec.ofNat n (wrap n (satInt n x))).toInt = satInt n x := by
  have hpos : (0 : Int) < 2 ^ (n - 1) := Int.pow_pos (by decide)
  rw [ofNat_wrap]
  apply BitVec.toInt_ofInt_eq_self hn
  all_goals rw [satInt_eq]; omega

/-! ### The bytes of a row -/

/-- Consecutive cells from `a` on. -/
theorem cellsAt_zipIdx (data : List Byte) (a x : Nat) (b : Byte) :
    cellsAt (data.zipIdx.map fun p => (a + p.2, p.1)) x b =
      if h : a ≤ x ∧ x < a + data.length then data[x - a]'(by omega) else b := by
  have key : ∀ k (b : Byte), cellsAt ((data.zipIdx k).map fun p => (a + p.2, p.1)) x b =
      if h : a + k ≤ x ∧ x < a + k + data.length then data[x - (a + k)]'(by omega) else b := by
    induction data with
    | nil => intro k b; rw [dif_neg (by simp only [List.length_nil]; omega)]; rfl
    | cons d data ih =>
      intro k b
      rw [List.zipIdx_cons, List.map_cons, cellsAt, List.foldl_cons]
      refine (ih (k + 1) _).trans ?_
      by_cases hx : a + k = x
      · subst hx
        rw [dif_neg (by omega), if_pos rfl, dif_pos (by simp)]
        simp
      · rw [if_neg hx]
        by_cases h : a + (k + 1) ≤ x ∧ x < a + (k + 1) + data.length
        · rw [dif_pos h, dif_pos (by simp; omega)]
          simp [show x - (a + k) = (x - (a + (k + 1))) + 1 by omega]
        · rw [dif_neg h, dif_neg (by simp; omega)]
  exact key 0 b

/-- The elements of a row that lies above the unified range, in words without error. -/
theorem rowElems_store {s : State} {r : Region} {i : Nat} (ha : 0x1E000000000 ≤ r.row i)
    (hc : ∀ j < r.len, s.eccAt ((r.row i + j) / 32) = .clean) (n e : Nat) :
    rowElems r i n e s = (List.range n).map fun j => memValue s (r.row i) r.len / 2 ^ (j * e) % 2 ^ e := by
  rw [rowElems, bytesAt_store ha hc, leVal_map_range]
  rfl

/-- Elements of whole bytes. -/
theorem elem_bytes (s : State) (a : Nat) {j n len e : Nat} (hlen : n * e ≤ len) (hj : j < n) :
    memValue s a len / 2 ^ (j * (8 * e)) % 2 ^ (8 * e) = memValue s (a + j * e) e := by
  have h : j * e + e ≤ len := by
    have : (j + 1) * e ≤ n * e := Nat.mul_le_mul_right e hj
    rw [Nat.add_mul, Nat.one_mul] at this
    omega
  rw [Nat.mul_left_comm, ← pow_256, ← pow_256, memValue_slice s a h]

theorem rowBytes_bytes (n e : Nat) : rowBytes n (8 * e) = n * e := by
  have h : n * (8 * e) = 8 * (n * e) := Nat.mul_left_comm n 8 e
  unfold rowBytes ceilDiv
  omega

end Sys2Proof.Proofs
end

section
namespace Sys2Proof.Proofs

open Sys2Proof Sys2Proof.Machine Sys2Proof.Laws

/-! ### Streaming a row -/

theorem actBits_bytes {af : Nat} (h : af = 0 ∨ af = 0xE) : actBits af = 8 * (actBits af / 8) := by
  rcases h with rfl | rfl <;> rfl

theorem isMx_int {af : Nat} (h : af = 0 ∨ af = 0xE) : isMx af = false := by
  rcases h with rfl | rfl <;> rfl

theorem outBits_bytes {wf : Nat} (h : wf < 2) (out : Nat) : outBits wf out = 8 * (outBits wf out / 8) := by
  rw [outBits_int h]
  split <;> rfl

/-- The words that a row of integers reads hold no error. -/
def RowClean (o : MatOp) (i : Nat) (s : State) : Prop :=
  (∀ j < o.acts.len, s.eccAt ((o.acts.row i + j) / 32) = .clean) ∧
    ∀ j < o.outs.len, s.eccAt ((o.outs.row i + j) / 32) = .clean

/-- Activation `r` of row `i`, as its bytes hold it. -/
def actAt (o : MatOp) (i : Nat) (s : State) (r : Nat) : Nat :=
  memValue s (o.acts.row i + r * (actBits o.afmt / 8)) (actBits o.afmt / 8)

/-- The address of output element `c` of row `i`. -/
def outAddr (o : MatOp) (i c : Nat) : Nat := o.outs.row i + c * (outBits o.fmt.wf o.out / 8)

/-- Output element `c` of row `i`, as its bytes hold it. -/
def outAt (o : MatOp) (i : Nat) (s : State) (c : Nat) : Nat := memValue s (outAddr o i c) (outBits o.fmt.wf o.out / 8)

/-- The exact sums of row `i` on unit `u` of tile `t`. -/
def rowSum (t u : Nat) (o : MatOp) (i : Nat) (s : State) : Nat → Int :=
  intSum o.fmt (actBits o.afmt) (((s.tile t).munit u).weights o).rows (actAt o i s)

/-- The output code of column `c` of row `i`. -/
def rowCode (t u : Nat) (o : MatOp) (i : Nat) (s : State) (c : Nat) : Nat :=
  (intOut (outBits o.fmt.wf o.out) (feederOsh o.gb) (if o.acc then some (outAt o i s c) else none) (rowSum t u o i s c)).1

/-- A row of codes in memory, element by element. -/
theorem memValue_ofLanes {s : State} {a n e : Nat} {f : Nat → Nat} (hf : ∀ c < n, f c < 2 ^ (8 * e))
    (h : ∀ i < n * e, s.byte (a + i) = BitVec.ofNat 8 (ofLanes (8 * e) ((List.range n).map f) / 256 ^ i)) {c : Nat}
    (hc : c < n) : memValue s (a + c * e) e = f c := by
  have hce : c * e + e ≤ n * e := by
    have : (c + 1) * e ≤ n * e := Nat.mul_le_mul_right e hc
    rwa [Nat.add_mul, Nat.one_mul] at this
  rw [memValue_of_digits (x := ofLanes (8 * e) ((List.range n).map f) / 256 ^ (c * e)) fun i hi => ?_]
  · rw [pow_256, pow_256, Nat.mul_left_comm 8 c e, ofLanes_digit _ _ _ (by simpa using hc)]
    simpa using Nat.mod_eq_of_lt (hf c hc)
  · rw [Nat.add_assoc, h (c * e + i) (by omega), Nat.div_div_eq_div_mul, ← Nat.pow_add]

section Row

variable {t u i : Nat} {o : MatOp} {s : State}

theorem rowCode_lt (c : Nat) : rowCode t u o i s c < 2 ^ outBits o.fmt.wf o.out := wrap_lt _ _

theorem acts_elems (haf : o.afmt = 0 ∨ o.afmt = 0xE) (ha : 0x1E000000000 ≤ o.acts.row i) (h : RowClean o i s) :
    rowElems o.acts i o.fmt.k (actBits o.afmt) s = (List.range o.fmt.k).map (actAt o i s) := by
  rw [rowElems_store ha h.1]
  refine List.map_congr_left fun r hr => ?_
  have hlen : o.acts.len = o.fmt.k * (actBits o.afmt / 8) := by
    rw [← rowBytes_bytes, ← actBits_bytes haf]; rfl
  unfold actAt
  conv => lhs; rw [actBits_bytes haf]
  exact elem_bytes s _ (Nat.le_of_eq hlen.symm) (List.mem_range.mp hr)

theorem outs_len (hw : o.fmt.wf < 2) : o.outs.len = o.fmt.n * (outBits o.fmt.wf o.out / 8) := by
  rw [← rowBytes_bytes, ← outBits_bytes hw]; rfl

theorem outs_elems (hw : o.fmt.wf < 2) (ha : 0x1E000000000 ≤ o.outs.row i) (h : RowClean o i s) :
    rowElems o.outs i o.fmt.n (outBits o.fmt.wf o.out) s = (List.range o.fmt.n).map (outAt o i s) := by
  rw [rowElems_store ha h.2]
  refine List.map_congr_left fun c hc => ?_
  unfold outAt outAddr
  conv => lhs; rw [outBits_bytes hw]
  exact elem_bytes s _ (Nat.le_of_eq (outs_len hw).symm) (List.mem_range.mp hc)

/-- A row of integers is streamed without a stop: its codes stand in the output row, no other byte changes, and the
digest takes the sums. -/
theorem streamRow_int (hw : o.fmt.wf < 2) (haf : o.afmt = 0 ∨ o.afmt = 0xE) (ha : 0x1E000000000 ≤ o.acts.row i)
    (hb : 0x1E000000000 ≤ o.outs.row i) (h : RowClean o i s) :
    ∃ o' n, streamRow t u i o s = (none, o', n) ∧ n.tiles = s.tiles ∧
      o'.dig = o.dig + ((List.range o.fmt.n).map (rowSum t u o i s)).sum ∧
      (∀ x, ¬ (o.outs.row i ≤ x ∧ x < o.outs.row i + o.outs.len) → n.byte x = s.byte x) ∧
      ∀ c < o.fmt.n, outAt o i n c = rowCode t u o i s c := by
  have hmx : (o.scaled && isMx o.afmt) = false := by rw [isMx_int haf, Bool.and_false]
  have hws : ∀ w ∈ (o.acts.rowWords i ++ [] ++ (if o.acc then o.outs.rowWords i else [])).eraseDups, s.eccAt w = .clean := by
    intro w hw
    rw [List.mem_eraseDups, List.append_nil, List.mem_append] at hw
    rcases hw with hw | hw
    · exact wordsOf_clean h.1 w hw
    · split at hw
      · exact wordsOf_clean h.2 w hw
      · cases hw
  have holds : ∀ c < o.fmt.n, ((if o.acc then some ((List.range o.fmt.n).map (outAt o i s)) else none).map
      fun l => l.getD c 0) = if o.acc then some (outAt o i s c) else none := by
    intro c hc
    split
    · simp [List.getD_eq_getElem?_getD, hc]
    · rfl
  unfold streamRow
  dsimp only
  rw [hmx]
  simp only [if_false, Bool.false_eq_true]
  rw [filter_uncorrectable_nil hws, readCorrects_clean hws, acts_elems haf ha h, outs_elems hw hb h]
  obtain ⟨hcodes, hdig⟩ := rowOut_int (w := ((s.tile t).munit u).weights o) (o := o) hw rfl (actAt o i s)
    (List.replicate (ceilDiv o.fmt.k 32) 127) (if o.acc then some ((List.range o.fmt.n).map (outAt o i s)) else none)
  have hcodes := hcodes.trans (List.map_congr_left (g := rowCode t u o i s) fun c hc => by
    rw [holds c (List.mem_range.mp hc)]; rfl)
  generalize rowOut o (((s.tile t).munit u).weights o) _ _ _ = r at hcodes hdig
  have hcells := cellsAt_zipIdx (leBytes o.outs.len (ofLanes (outBits o.fmt.wf o.out) r.1)) (o.outs.row i)
  simp only [leBytes_length, leBytes_getElem] at hcells
  obtain ⟨n, hwrite, hrest, hbyte⟩ := writeCells_clean (s := s)
    (cells := (leBytes o.outs.len (ofLanes (outBits o.fmt.wf o.out) r.1)).zipIdx.map fun p => (o.outs.row i + p.2, p.1)) (by
      intro c hc
      obtain ⟨p, hp, rfl⟩ := List.mem_map.mp hc
      exact h.2 p.2 (by simpa using List.snd_lt_of_mem_zipIdx hp))
  obtain ⟨m, e, rfl⟩ := hrest.rest
  rw [hwrite]
  refine ⟨_, _, rfl, rfl, congrArg (o.dig + ·) hdig, fun x hx => ?_, fun c hc => ?_⟩
  · exact (hbyte x).trans ((hcells x _).trans (dif_neg hx))
  · have hob := outBits_bytes hw o.out
    unfold outAt outAddr
    refine memValue_ofLanes (f := rowCode t u o i s) (fun c _ => hob ▸ rowCode_lt c) (fun j hj => ?_) hc
    rw [← outs_len hw] at hj
    refine (hbyte _).trans ((hcells _ _).trans ((dif_pos (by omega)).trans ?_))
    rw [Nat.add_sub_cancel_left, hcodes, ← hob]

end Row

/-! ### Completion (R97, R154) -/

/-- A tile with the units that setting one gives. -/
theorem munit_of_setUnit {x y : Tile} {u : Nat} {m : MUnit} (h : y.units = (x.setUnit u m).units) : y.munit u = m :=
  (congrArg (Tab.get _ · u) h).trans (tab_get_set_same _ x.units u m)

@[simp] theorem munit_setUnit_same (x : Tile) (u : Nat) (m : MUnit) : (x.setUnit u m).munit u = m := munit_of_setUnit rfl

/-- From `s` to `n` the only operation of unit `u` of tile `t` has left the queue under tag `g` without an error, adding
`dig` to the digest, and nothing beside the tiles has changed. -/
structure OpLeft (t u g : Nat) (dig : Int) (s n : State) : Prop where
  busy   : (n.core t).tagBusy = (s.core t).tagBusy &&& ~~~ (1#8 <<< g)
  tagErr : (n.core t).tagErr = (s.core t).tagErr
  queue  : ((n.tile t).munit u).queue = []
  plane0 : ((n.tile t).munit u).plane0 = ((s.tile t).munit u).plane0
  plane1 : ((n.tile t).munit u).plane1 = ((s.tile t).munit u).plane1
  digest : (n.tile t).digest = (s.tile t).digest + BitVec.ofInt 64 dig
  rest   : ∃ ts, n = { s with tiles := ts }

theorem OpLeft.byte {t u g : Nat} {dig : Int} {s n : State} (h : OpLeft t u g dig s n) (a : Nat) : n.byte a = s.byte a := by
  obtain ⟨ts, rfl⟩ := h.rest
  rfl

theorem finishOp_only {t u g : Nat} {o : MatOp} {s : State} (hq : ((s.tile t).munit u).queue = [o]) (htag : o.tag = some g)
    (dig : Int) : OpLeft t u g dig s (finishOp t u 0 false dig s) := by
  unfold finishOp
  simp only [hq, htag, List.getElem?_cons_zero]
  constructor
  case rest => exact ⟨_, rfl⟩
  all_goals simp only [State.core, tile_modTile_same]
  case queue => exact (congrArg MUnit.queue (munit_of_setUnit (x := s.tile t) rfl)).trans rfl
  case plane0 => exact (congrArg MUnit.plane0 (munit_of_setUnit (x := s.tile t) rfl)).trans rfl
  case plane1 => exact (congrArg MUnit.plane1 (munit_of_setUnit (x := s.tile t) rfl)).trans rfl
  all_goals rfl

section Complete

variable {t : Fin 128} {u : Fin 5} {g : Nat} {o : MatOp} {s : State}

/-- The count of the words that the arrays corrected, from the open values, comes first at a completion. -/
def arrCounted (t u : Nat) (s : State) : State := (s.count .TILE_ARR_CNT 15 0 t u (fld s.open 15 0)).used

/-- The completion of the only operation of a unit, which runs. -/
theorem exec_complete_only (hq : ((s.tile t).munit u).queue = [o]) (hrun : o.running = true) {str : Bool}
    (hstr : o.str = str) (f : MatFault) :
    exec (.matrixOperationComplete t u str f) s =
      .next (if str then finishStream t u 0 o f (arrCounted t u s) else finishLoad t u 0 o (arrCounted t u s)) := by
  have hi : (((s.tile t).munit u).queue.findIdx? fun o => o.running && o.str == str) = some 0 := by
    rw [hq]; simp [hrun, hstr]
  show Host.Outcome.next _ = _
  rw [hi, hq]
  rfl

theorem exec_stream_only (hq : ((s.tile t).munit u).queue = [o]) (hrun : o.running = true) (hstr : o.str = true)
    (f : MatFault) : exec (.matrixOperationComplete t u true f) s = .next (finishStream t u 0 o f (arrCounted t u s)) :=
  exec_complete_only hq hrun hstr f

theorem exec_load_only (hq : ((s.tile t).munit u).queue = [o]) (hrun : o.running = true) (hstr : o.str = false)
    (f : MatFault) : exec (.matrixOperationComplete t u false f) s = .next (finishLoad t u 0 o (arrCounted t u s)) :=
  exec_complete_only hq hrun hstr f

theorem inRange_base {r : Region} (h : o.inRange t = true) (hr : r ∈ o.regions) (i : Nat) : 0x1E000000000 ≤ r.row i := by
  have hin := List.all_eq_true.mp h r hr
  obtain ⟨hb, -⟩ := of_decide_eq_true hin
  unfold tileBase at hb
  unfold Region.row
  omega

/-- A stream of one integer row completes. -/
theorem finishStream_int (hq : ((s.tile t).munit u).queue = [o]) (htag : o.tag = some g) (hw : o.fmt.wf < 2)
    (haf : o.afmt = 0 ∨ o.afmt = 0xE) (hstr : o.str = true) (hin : o.inRange t = true) (hm : o.m = 1) (hrow : o.nextRow = 0)
    (hc : RowClean o 0 s) (hmeet : o.acts.meets o.outs = false) :
    ∃ n', n'.tiles = s.tiles ∧
      (∀ x, ¬ (o.outs.row 0 ≤ x ∧ x < o.outs.row 0 + o.outs.len) → n'.byte x = s.byte x) ∧
      (∀ c < o.fmt.n, outAt o 0 n' c = rowCode t u o 0 s c) ∧
      OpLeft t u g (o.dig + ((List.range o.fmt.n).map (rowSum t u o 0 s)).sum) n'
        (finishStream t u 0 o ⟨[], 0, []⟩ s) := by
  have hregs : o.regions = [o.outs, o.acts] := by
    simp [MatOp.regions, MatOp.inputs, hstr, isMx_int haf]
  have hinputs : o.inputs = [o.acts] := by simp [MatOp.inputs, hstr, isMx_int haf]
  obtain ⟨o', n, hstream, htiles, hdig, hout, hcodes⟩ := streamRow_int (t := t) (u := u) hw haf
    (inRange_base hin (r := o.acts) (by simp [hregs]) 0) (inRange_base hin (r := o.outs) (by simp [hregs]) 0) hc
  have hn : (n.tile t).munit u = (s.tile t).munit u := by rw [State.tile, htiles]; rfl
  refine ⟨n, htiles, hout, hcodes, ?_⟩
  have hmis : rowMismatches u o ⟨[], 0, []⟩ = [] := by simp [rowMismatches]
  have hsums : sumMismatches t u ⟨[], 0, []⟩ s = [] := by simp [sumMismatches]
  have hstop : rowsToStream t u o ⟨[], 0, []⟩ s = 1 := by simp [rowsToStream, hmis, hm]
  have hrows : streamRows t u 1 0 o s = (none, o', n) := by
    rw [streamRows, hstream]; rfl
  unfold finishStream
  rw [hstop, hrow, hmis, hinputs]
  simp only [Nat.sub_zero, hrows, hsums, List.any_cons, List.any_nil, hmeet, ← hdig]
  simpa using finishOp_only (by rw [hn]; exact hq) htag o'.dig

/-- The rows of codes that a load of integers brings. -/
def loadedRows (o : MatOp) (s : State) : List (List Nat) :=
  (List.range o.fmt.k).map fun r => (List.range o.fmt.n).map fun c =>
    memValue s (o.weights.row r) o.weights.len / 2 ^ (c * o.fmt.wb) % 2 ^ o.fmt.wb

/-- A load of integers completes: its plane holds the rows of memory. -/
theorem finishLoad_int (hq : ((s.tile t).munit u).queue = [o]) (htag : o.tag = some g) (hw : o.fmt.wf < 2)
    (hstr : o.str = false) (hin : o.inRange t = true)
    (hc : ∀ r < o.fmt.k, ∀ i < o.weights.len, s.eccAt ((o.weights.row r + i) / 32) = .clean) :
    ∃ n', OpLeft t u g 0 n' (finishLoad t u 0 o s) ∧ n'.core t = s.core t ∧ (∃ ts, n' = { s with tiles := ts }) ∧
      (if o.plane = 0 then ((n'.tile t).munit u).plane0 else ((n'.tile t).munit u).plane1) =
        ⟨true, loadedRows o s, []⟩ := by
  have hmx : isMx o.fmt.wf = false := by
    rcases (show o.fmt.wf = 0 ∨ o.fmt.wf = 1 by omega) with h | h <;> rw [h] <;> rfl
  have hbits : o.fmt.bits = o.fmt.wb := if_pos hw
  have hinputs : o.inputs = [o.weights] := by simp [MatOp.inputs, hstr, hmx]
  have hregs : o.regions = [o.weights] := by simp [MatOp.regions, hstr, hinputs]
  have hws : ∀ w ∈ (o.inputs.flatMap fun r => (List.range r.rows).flatMap r.rowWords).eraseDups, s.eccAt w = .clean := by
    intro w hw
    rw [List.mem_eraseDups, hinputs, List.flatMap_singleton, List.mem_flatMap] at hw
    obtain ⟨r, hr, hw⟩ := hw
    exact wordsOf_clean (hc r (List.mem_range.mp hr)) w hw
  have hrows : ((List.range o.fmt.k).map fun r => rowElems o.weights r o.fmt.n o.fmt.bits s) = loadedRows o s := by
    refine List.map_congr_left fun r hr => ?_
    rw [rowElems_store (inRange_base hin (by simp [hregs]) r) (hc r (List.mem_range.mp hr)), hbits]
  unfold finishLoad
  simp only [filter_uncorrectable_nil hws, readCorrects_clean hws, hrows, hmx, Bool.and_false, if_neg (Nat.ne_of_lt hw),
    if_false, Bool.false_eq_true]
  refine ⟨_, finishOp_only (o := o) ?_ htag 0, ?_, ⟨_, rfl⟩, ?_⟩
  all_goals simp only [modUnit, State.core, tile_modTile_same, munit_setUnit_same]
  · split <;> exact hq
  · rfl
  · split <;> rfl

end Complete

/-- OSH as the bits [55:52] of the feeder word (R144). -/
theorem feederOsh_eq (w : Word) : feederOsh w = w.toNat / 2 ^ 52 % 16 := by
  rfl

/-- Settles O32: a row is streamed by `streamRow_int`, whose codes are the sums of the columns rounded by `rneDiv` and
clamped, and a load fills its plane by `finishLoad_int`. What the arrays count first changes neither. -/
theorem integerStreamsAreExactDotProducts : Obligations.IntegerStreamsAreExactDotProducts := by
  unfold Obligations.IntegerStreamsAreExactDotProducts
  intro t u o g s _ m w ob ab clean free hq hrun htag _ hw hin
  refine ⟨?_, ?_⟩
  · intro hstr hm hrow haf _ hca hco hmeet x wt v at_ osh
    obtain ⟨n', htiles, hout, hcode, hleft⟩ := finishStream_int
      (s := arrCounted t u s) hq htag hw haf hstr hin hm hrow ⟨hca, hco⟩ hmeet
    have hsum : rowSum t u o 0 (arrCounted t u s) = v := by
      funext c
      refine congrArg List.sum (List.map_congr_left fun r _ => ?_)
      simp only [weightVal, signed_eq_toInt, Fmt.bits, if_pos hw]
      rfl
    rw [hsum] at hleft
    have htile : n'.tile t = s.tile t := by rw [State.tile, htiles]; rfl
    have hcore : n'.core t = s.core t := congrArg Tile.core htile
    refine ⟨_, exec_stream_only hq hrun hstr _, ⟨hcore ▸ hleft.busy, hcore ▸ hleft.tagErr, hleft.queue⟩,
      fun c hc => ⟨rneDiv (v c) osh, ?_, ?_⟩, fun a ha => (hleft.byte a).trans (hout a ha), htile ▸ hleft.digest⟩
    · obtain ⟨hle, hge, htie⟩ := rneDiv_nearest (v c) osh
      exact ⟨hle, hge, fun h _ => htie h⟩
    · have hob : 0 < ob := by
        show 0 < outBits o.fmt.wf o.out
        rw [outBits_int hw]
        split <;> decide
      have hbyte : memValue (finishStream t u 0 o ⟨[], 0, []⟩ (arrCounted t u s)) (at_ c) (ob / 8) = outAt o 0 n' c :=
        memValue_congr fun i _ => hleft.byte _
      rw [hbyte, hcode c hc]
      unfold rowCode intOut
      rw [hsum, feederOsh_eq, toInt_wrap_satInt hob, satInt_eq]
      by_cases hacc : o.acc = true
      · simp only [hacc, if_true, signed_eq_toInt]
        rfl
      · simp only [hacc, if_false, Bool.false_eq_true]
        rfl
  · intro hstr hc
    obtain ⟨n', hleft, hcore, ⟨ts, hrest⟩, hplane⟩ := finishLoad_int
      (s := arrCounted t u s) hq htag hw hstr hin hc
    refine ⟨_, exec_load_only hq hrun hstr _, ⟨hcore ▸ hleft.busy, hcore ▸ hleft.tagErr, hleft.queue⟩, fun a => ?_, ?_⟩
    · rw [hleft.byte, hrest]
      rfl
    · rw [hleft.plane0, hleft.plane1, hplane]
      refine ⟨rfl, by simp [loadedRows], fun r hr => ?_⟩
      have hrow : (loadedRows o (arrCounted t u s)).getD r [] = (List.range o.fmt.n).map fun c =>
          memValue (arrCounted t u s) (o.weights.row r) o.weights.len / 2 ^ (c * o.fmt.wb) % 2 ^ o.fmt.wb := by
        simp [loadedRows, List.getD_eq_getElem?_getD, hr]
      rw [hrow]
      refine ⟨by simp, fun c hc => ?_⟩
      simp only [List.getD_eq_getElem?_getD, List.getElem?_map, List.getElem?_range hc, Option.map_some,
        Option.getD_some]
      rfl

end Sys2Proof.Proofs
end

section
/-! PROOFS. The vector instructions of 03_tile_isa.md, lane by lane: integers, compares, predicates and moves. -/

namespace Sys2Proof.Proofs

open Sys2Proof Sys2Proof.Machine Sys2Proof.Laws

/-! ### Instructions that write a vector register by lanes (R89) -/

theorem lane_lt (w : Nat) (v : BitVec 1024) (i : Nat) : lane w v i < 2 ^ laneBits w := Nat.mod_lt _ (Nat.two_pow_pos _)

theorem active_allOnes {w i : Nat} (hw : w < 4) (hi : i < laneCount w) : active w (BitVec.allOnes 128) i = true := by
  have hi : i < 128 / 2 ^ w := hi
  have h : i * 2 ^ w < 128 := by
    rcases (show w = 0 ∨ w = 1 ∨ w = 2 ∨ w = 3 by omega) with rfl | rfl | rfl | rfl <;> omega
  rw [active, BitVec.getLsbD_allOnes, decide_eq_true h]

/-- What an instruction that writes lanes through `laneMap` leaves. -/
theorem writesLanes_laneMap {c : Instr} {s : State} {t : Fin 128} {d : Fin 32} {w : Nat} (hw : w < 4) {p : BitVec 128}
    {u : State → State} {f : Nat → Nat} {g : Nat → Nat → Prop}
    (h : exec c s = .next (u (s.modCore t fun c =>
      { c.setV d (laneMap w p ((s.core t).vr d) f) with pc := c.pc + 4 })))
    (hg : ∀ i < laneCount w, active w p i = true → g i (f i % 2 ^ laneBits w)) : WritesLanes c s t d w p u g := by
  refine ⟨_, h, fun i hi => ?_⟩
  have hl : lane w (laneMap w p ((s.core t).vr d) f) i =
      if active w p i then f i % 2 ^ laneBits w else lane w ((s.core t).vr d) i := lane_laneMap ⟨w, hw⟩ p _ f i hi
  rw [hl]
  split
  next ha => exact hg i hi ha
  next => rfl

section
variable {t : Nat} {s : State} (h : Runs t s)
include h

theorem setV_runs (d : Nat) (f : CoreRegs → BitVec 1024) :
    simple t true (fun c => c.setV d (f c)) s = s.modCore t fun c => { c.setV d (f (s.core t)) with pc := c.pc + 4 } :=
  (simple_runs h true _ h.2.2).trans (modCore_congr rfl)

theorem setP_runs (d : Nat) (f : CoreRegs → BitVec 128) :
    simple t true (fun c => c.setP d (f c)) s = s.modCore t fun c => { c.setP d (f (s.core t)) with pc := c.pc + 4 } :=
  (simple_runs h true _ (by rw [setP_dsp]; exact h.2.2)).trans (modCore_congr (by rw [setP_pc]))

theorem setG_runs (d : Nat) (f : CoreRegs → Word) :
    toG t d f s = s.modCore t fun c => { c.setG d (f (s.core t)) with pc := c.pc + 4 } :=
  (toG_runs h d f).trans (modCore_congr rfl)

end

section
variable {t : Fin 128} {d : Fin 32} {s : State} (h : Runs t s)
include h

/-- An instruction on the active lanes. -/
theorem writesLanes_vecOp {c : Instr} {pg : Fin 8} {sz : Fin 4} {f : CoreRegs → Nat → Nat} {g : Nat → Nat → Prop}
    (hc : exec c s = .next (vecOp t d pg sz f s))
    (hg : ∀ i < laneCount sz, active sz ((s.core t).pr pg) i = true → g i (f (s.core t) i % 2 ^ laneBits sz)) :
    WritesLanes c s t d sz ((s.core t).pr pg) id g :=
  writesLanes_laneMap sz.isLt (hc.trans (congrArg _ (setV_runs h d _))) hg

/-- An instruction that no predicate governs. -/
theorem writesLanes_all {c : Instr} {sz : Fin 4} {f : CoreRegs → Nat → Nat} {g : Nat → Nat → Prop}
    (hc : exec c s = .next (vecOp t d 0 sz f s)) (hg : ∀ i < laneCount sz, g i (f (s.core t) i % 2 ^ laneBits sz)) :
    WritesLanes c s t d sz (BitVec.allOnes 128) id g :=
  writesLanes_vecOp (pg := 0) h hc fun i hi _ => hg i hi

/-- A result that is a lane's value already. -/
theorem writesLanes_fits {c : Instr} {pg : Fin 8} {sz : Fin 4} {f : CoreRegs → Nat → Nat} {g : Nat → Nat}
    (hc : exec c s = .next (vecOp t d pg sz f s)) (hf : ∀ i, f (s.core t) i = g i) (hg : ∀ i, g i < 2 ^ laneBits sz) :
    WritesLanes c s t d sz ((s.core t).pr pg) id fun i v => v = g i :=
  writesLanes_vecOp h hc fun i _ _ => (congrArg (· % _) (hf i)).trans (Nat.mod_eq_of_lt (hg i))

end

/-! ### Vector integers (R90) -/

theorem wrap_eq_toNat (n : Nat) (x : Int) : wrap n x = (BitVec.ofInt n x).toNat := by
  rw [← ofNat_wrap, BitVec.toNat_ofNat, Nat.mod_eq_of_lt (wrap_lt n x)]

theorem wrap_signed {n x : Nat} (h : x < 2 ^ n) : wrap n (signed n x) = x := by
  rw [wrap_eq_toNat, signed_eq_toInt, BitVec.ofInt_toInt, BitVec.toNat_ofNat, Nat.mod_eq_of_lt h]

theorem wrap_min_signed {w x y : Nat} (hx : x < 2 ^ w) (hy : y < 2 ^ w) :
    wrap w (min (signed w x) (signed w y)) = if signed w x ≤ signed w y then x else y := by
  rw [Int.min_def]
  split
  · exact wrap_signed hx
  · exact wrap_signed hy

theorem wrap_max_signed {w x y : Nat} (hx : x < 2 ^ w) (hy : y < 2 ^ w) :
    wrap w (max (signed w x) (signed w y)) = if signed w x ≤ signed w y then y else x := by
  rw [Int.max_def]
  split
  · exact wrap_signed hy
  · exact wrap_signed hx

/-- The greatest element of a list is what folding `max` finds. -/
theorem foldl_max_eq {x : Int} {xs : List Int} {m : Int} (hm : m ∈ x :: xs) (hle : ∀ k ∈ x :: xs, k ≤ m) :
    xs.foldl max x = m := by
  have h : (x :: xs).max? = some m := List.max?_eq_some_iff.mpr ⟨hm, hle⟩
  rw [List.max?_cons'] at h
  exact Option.some.inj h

/-- VREDMAX with an active lane. -/
theorem exec_vredmax_runs {t : Fin 128} {s : State} (h : Runs t s) (d a : Fin 32) (pg : Fin 8) (sz : Fin 4) {m : Int}
    (hm : m ∈ activeLanes sz ((s.core t).pr pg) ((s.core t).vr a))
    (hle : ∀ k ∈ activeLanes sz ((s.core t).pr pg) ((s.core t).vr a), k ≤ m) :
    exec (.vredmax t d a pg sz) s = .next (s.modCore t fun c =>
      { c.setV d (BitVec.ofNat 1024 (wrap (laneBits sz) m)) with pc := c.pc + 4 }) := by
  refine congrArg Host.Outcome.next ((runInstr_runs h true _).trans ?_)
  revert hm hle
  rcases activeLanes sz ((s.core t).pr pg) ((s.core t).vr a) with _ | ⟨x, xs⟩
  · intro hm
    cases hm
  · intro hm hle
    rw [← foldl_max_eq hm hle]
    exact modCore_next h.2.2 (fun _ => rfl) fun _ => rfl

/-- Settles O14: each instruction is a map over the active lanes, whose result fits its lane. -/
theorem vectorIntegerResults : Obligations.VectorIntegerResults := by
  unfold Obligations.VectorIntegerResults
  intro t d a b pg sz s h w p x y sx sy on act
  have hx (i : Nat) : x i < 2 ^ w := lane_lt _ _ i
  have hy (i : Nat) : y i < 2 ^ w := lane_lt _ _ i
  refine ⟨?_, ?_, ?_, ?_, ?_, ?_, ?_, ?_, ?_, ?_, ?_, ?_, ?_, ?_, ?_, ?_, ?_, ?_⟩
  · exact writesLanes_fits h rfl (fun _ => rfl) fun _ => wrap_lt _ _
  · exact writesLanes_fits h rfl (fun _ => rfl) fun _ => wrap_lt _ _
  · exact writesLanes_fits h rfl (fun _ => rfl) fun _ => wrap_lt _ _
  · exact writesLanes_fits h rfl (fun _ => rfl) fun _ => wrap_lt _ _
  · exact writesLanes_fits h rfl (fun _ => rfl) fun _ => wrap_lt _ _
  · exact writesLanes_fits h rfl (fun _ => rfl) fun _ => wrap_lt _ _
  · refine writesLanes_fits h rfl (fun i => wrap_min_signed (hx i) (hy i)) fun i => ?_
    split
    · exact hx i
    · exact hy i
  · refine writesLanes_fits h rfl (fun i => wrap_max_signed (hx i) (hy i)) fun i => ?_
    split
    · exact hy i
    · exact hx i
  · exact writesLanes_fits h rfl (fun _ => rfl) fun i => Nat.and_lt_two_pow _ (hy i)
  · exact writesLanes_fits h rfl (fun _ => rfl) fun i => Nat.or_lt_two_pow (hx i) (hy i)
  · exact writesLanes_fits h rfl (fun _ => rfl) fun i => Nat.xor_lt_two_pow (hx i) (hy i)
  · exact writesLanes_vecOp h rfl fun _ _ _ => rfl
  · exact writesLanes_fits h rfl (fun _ => rfl) fun i => Nat.lt_of_le_of_lt (Nat.div_le_self _ _) (hx i)
  · exact writesLanes_fits h rfl (fun _ => rfl) fun _ => wrap_lt _ _
  · refine ⟨_, congrArg _ (setV_runs h d _), fun i hi => (if_pos (active_allOnes sz.isLt hi)).symm ▸ ?_⟩
    rw [lane_laneMap sz _ _ _ i hi, Nat.mod_eq_of_lt (lane_lt _ _ _)]
  · exact writesLanes_fits h rfl (fun _ => rfl) fun _ => lane_lt _ _ _
  · exact congrArg _ (setV_runs h d _)
  · exact fun m hm hle => exec_vredmax_runs h d a pg sz hm hle

/-! ### Compares, predicates and moves (R92) -/

/-- A predicate written lane by lane: the bits of a lane's group. -/
theorem lanesToPred_compare {w : Nat} (hw : w < 4) (p : BitVec 128) (f : Nat → Bool) {k : Nat} (hk : k < 128) :
    (lanesToPred (2 ^ w) (laneCount w) fun i => active w p i && f i).getLsbD k = true ↔
      p.getLsbD (k / 2 ^ w * 2 ^ w) = true ∧ f (k / 2 ^ w) = true := by
  have hb : 2 ^ w * laneCount w = 128 := by
    rcases (show w = 0 ∨ w = 1 ∨ w = 2 ∨ w = 3 by omega) with rfl | rfl | rfl | rfl <;> rfl
  rw [lanesToPred_bit _ _ _ hb (Nat.two_pow_pos w) k hk, Bool.and_eq_true]
  rfl

theorem vfw_lt (sz : Nat) : vfw sz < 4 := by
  unfold vfw
  split <;> decide

theorem ones_eq_length {w : Nat} (a : BitVec w) (n : Nat) :
    ones a n = ((List.range n).filter fun i => a.getLsbD i).length := by
  induction n with
  | zero => rfl
  | succ n ih =>
    rw [ones, ih, List.range_succ, List.filter_append, List.length_append, List.filter_cons]
    split <;> rfl

section
variable {t : Fin 128} {s : State} (h : Runs t s)
include h

theorem vfRun_runs {sz : Nat} (hs : sz ≠ 3) (f : State → State) : vfRun t sz f s = f s :=
  (runInstr_runs h true _).trans (if_neg hs)

theorem vfRun_illegal {sz : Nat} (hs : sz = 3) (f : State → State) : vfRun t sz f s = takeException t 0x03 0 s :=
  (runInstr_runs h true _).trans (if_pos hs)

/-- What a compare of vector lanes leaves in its predicate. -/
theorem vecCmp_runs (d pg : Fin 8) (a b : Fin 32) (sz : Fin 4) (f : BitVec 1024 → BitVec 1024 → Nat → Bool) :
    ∃ v, vecCmp t d a b pg sz f s = s.modCore t (fun c => { c.setP d v with pc := c.pc + 4 }) ∧
      ∀ k < 128, v.getLsbD k = true ↔ ((s.core t).pr pg).getLsbD (k / 2 ^ sz.val * 2 ^ sz.val) = true ∧
        f ((s.core t).vr a) ((s.core t).vr b) (k / 2 ^ sz.val) = true :=
  ⟨_, setP_runs h d _, fun _ hk => lanesToPred_compare sz.isLt _ _ hk⟩

end

/-- Settles O15: the compares by `lanesToPred_compare`; the other instructions write what their definition computes. -/
theorem compareAndPredicateResults : Obligations.CompareAndPredicateResults := by
  unfold Obligations.CompareAndPredicateResults
  intro t s h pr vr gr toP toG cmp
  refine ⟨fun d pg a b sz => ?_, fun d a b => ?_, fun d a b => ?_, fun d a => ?_, fun d a b sz => ?_, fun d a b sz => ?_⟩
  · refine ⟨?_, ?_, ?_, fun hs => ?_, fun hs => ?_⟩
    · obtain ⟨v, hv, hbits⟩ := vecCmp_runs h d pg a b sz fun x y i => lane sz x i == lane sz y i
      exact ⟨v, congrArg _ hv, fun k hk => (hbits k hk).trans (and_congr_right' beq_iff_eq)⟩
    · obtain ⟨v, hv, hbits⟩ := vecCmp_runs h d pg a b sz fun x y i => decide (slane sz x i < slane sz y i)
      exact ⟨v, congrArg _ hv, fun k hk => (hbits k hk).trans (and_congr_right' decide_eq_true_iff)⟩
    · obtain ⟨v, hv, hbits⟩ := vecCmp_runs h d pg a b sz fun x y i => decide (lane sz x i < lane sz y i)
      exact ⟨v, congrArg _ hv, fun k hk => (hbits k hk).trans (and_congr_right' decide_eq_true_iff)⟩
    · refine ⟨_, congrArg Host.Outcome.next ((vfRun_runs h hs _).trans
        (modCore_next h.2.2 (fun _ => setP_dsp _ _ _) fun _ => setP_pc _ _ _)), ?_⟩
      exact fun k hk => lanesToPred_compare (vfw_lt sz) _ _ hk
    · exact congrArg Host.Outcome.next (vfRun_illegal h hs _)
  · exact ⟨congrArg _ (setP_runs h d _), congrArg _ (setP_runs h d _), congrArg _ (setP_runs h d _),
      congrArg _ (setP_runs h d _), congrArg _ (setP_runs h d _), congrArg _ (setP_runs h d _)⟩
  · exact congrArg _ (setP_runs h d _)
  · refine ⟨(congrArg _ (setG_runs h d _)).trans (congrArg (toG d) ?_),
      (congrArg _ (setG_runs h d _)).trans (congrArg (fun n => toG d (BitVec.ofNat 64 n)) (ones_eq_length _ _))⟩
    by_cases h0 : pr a = 0
    · rw [if_pos h0, show (s.core t).pr a = 0 from h0]; rfl
    · rw [if_neg h0, b2w, if_pos (bne_iff_ne.mpr h0)]
  · exact congrArg _ (setG_runs h d _)
  · refine ⟨writesLanes_all h rfl fun _ _ => rfl, writesLanes_all h rfl fun i _ => ?_⟩
    split
    · rfl
    · exact Nat.mod_eq_of_lt (lane_lt _ _ _)

end Sys2Proof.Proofs
end

section
/-! PROOFS. The vector floating-point instructions of 03_tile_isa.md, lane by lane. -/

namespace Sys2Proof.Proofs

open Sys2Proof Sys2Proof.Machine Sys2Proof.Laws

/-! ### Minimum and maximum (R91) -/

theorem finAt_zero (neg : Bool) (e k : Int) : finAt neg 0 e k = 0 := by
  unfold finAt
  split <;> simp

/-- A value below another: neither is a NaN, they are not both zeros, and the order does not hold the other way. -/
theorem lt_cases {x y : FVal} (h : x.lt y = true) :
    x ≠ .nan ∧ y ≠ .nan ∧ (x.isZero && y.isZero) = false ∧ y.lt x = false := by
  match x, y with
  | .inf a, .inf b =>
    refine ⟨nofun, nofun, rfl, ?_⟩
    revert h
    cases a <;> cases b <;> decide
  | .inf a, .fin .. =>
    have h : a = true := h
    exact ⟨nofun, nofun, rfl, by rw [FVal.lt, h]; rfl⟩
  | .fin .., .inf b =>
    have h : (!b) = true := h
    refine ⟨nofun, nofun, Bool.and_false _, ?_⟩
    rw [Bool.not_eq_true'] at h
    rw [FVal.lt, h]
  | .fin a m e, .fin b n f =>
    have h : finAt a m e (min e f) < finAt b n f (min e f) := of_decide_eq_true h
    refine ⟨nofun, nofun, Bool.eq_false_iff.mpr fun hz => ?_, decide_eq_false ?_⟩
    · rw [Bool.and_eq_true] at hz
      obtain ⟨hm, hn⟩ := hz
      have hm : m = 0 := beq_iff_eq.mp hm
      have hn : n = 0 := beq_iff_eq.mp hn
      rw [hm, hn, finAt_zero, finAt_zero] at h
      exact Int.lt_irrefl 0 h
    · rw [Int.min_comm f e]
      exact Int.not_lt.mpr (Int.le_of_lt h)

theorem fpick_numbers {x y : FVal} (hx : x ≠ .nan) (hy : y ≠ .nan) (hz : (x.isZero && y.isZero) = false) (less p : Bool) :
    fpick less p x y = if x.lt y == less then x else y := by
  unfold fpick
  split
  · exact absurd rfl hx
  · exact absurd rfl hy
  · rw [hz]
    rfl

/-- The operand taken: the other one for a NaN, and the smaller or the larger of two that differ. -/
theorem fpick_cases (less p : Bool) (x y : FVal) :
    (x = .nan → fpick less p x y = y) ∧ (y = .nan → fpick less p x y = x) ∧
      (x.lt y = true → fpick less p x y = if less then x else y) ∧
      (y.lt x = true → fpick less p x y = if less then y else x) := by
  refine ⟨?_, ?_, fun h => ?_, fun h => ?_⟩
  · rintro rfl
    rfl
  · rintro rfl
    cases x <;> rfl
  · obtain ⟨hx, hy, hz, -⟩ := lt_cases h
    rw [fpick_numbers hx hy hz, h]
    cases less <;> rfl
  · obtain ⟨hy, hx, hz, hxy⟩ := lt_cases h
    rw [fpick_numbers hx hy (Bool.and_comm _ _ ▸ hz), hxy]
    cases less <;> rfl

/-! ### Instructions that write lanes -/

/-- The low half of a register, lane by lane. -/
theorem lane_lowHalf (v : BitVec 1024) {i : Nat} (hi : i < 32) :
    lane 1 (BitVec.ofNat 1024 (v.toNat % 2 ^ 512)) i = lane 1 v i := by
  have hp : 2 ^ 512 = 2 ^ (i * 16) * 2 ^ (512 - i * 16) := by
    rw [← Nat.pow_add, Nat.add_sub_cancel' (by omega)]
  have hlt : v.toNat % 2 ^ 512 < 2 ^ 1024 := Nat.lt_of_le_of_lt (Nat.mod_le _ _) v.isLt
  show (v.toNat % 2 ^ 512 % 2 ^ 1024) / 2 ^ (i * 16) % 2 ^ 16 = v.toNat / 2 ^ (i * 16) % 2 ^ 16
  rw [Nat.mod_eq_of_lt hlt, hp, Nat.mod_mul_right_div_self,
    Nat.mod_mod_of_dvd _ (Nat.pow_dvd_pow 2 (by omega))]

theorem setV_next {s : State} {t : Nat} (h : (s.core t).dsp.active = false) (d : Nat) (f : CoreRegs → BitVec 1024) :
    s.modCore t (fun c => (c.setV d (f c)).next 4) =
      s.modCore t fun c => { c.setV d (f (s.core t)) with pc := c.pc + 4 } :=
  modCore_congr (next_inactive (c := (s.core t).setV d (f (s.core t))) h)

section
variable {t : Fin 128} {d : Fin 32} {pg : Fin 8} {sz : Fin 4} {s : State} (h : Runs t s) (hs : sz.val ≠ 3)
include h hs

/-- A floating-point instruction that writes a vector register. -/
theorem exec_vfRun {c : Instr} {u : State → State} {F : State → State} {f : CoreRegs → BitVec 1024}
    (hc : exec c s = .next (vfRun t sz F s)) (hF : F s = u (s.modCore t fun c => (c.setV d (f c)).next 4)) :
    exec c s = .next (u (s.modCore t fun c => { c.setV d (f (s.core t)) with pc := c.pc + 4 })) := by
  rw [hc, vfRun_runs h hs, hF, setV_next h.2.2]

/-- A floating-point instruction on the active lanes of width code `w`. -/
theorem writesLanes_vfRun {c : Instr} {w : Nat} (hw : w < 4) {u : State → State} {F : State → State}
    {f : CoreRegs → Nat → Nat} {g : Nat → Nat → Prop} (hc : exec c s = .next (vfRun t sz F s))
    (hF : F s = u (s.modCore t fun c => (c.setV d (laneMap w (c.pr pg) (c.vr d) (f c))).next 4))
    (hg : ∀ i < laneCount w, g i (f (s.core t) i % 2 ^ laneBits w)) :
    WritesLanes c s t d w ((s.core t).pr pg) u g :=
  writesLanes_laneMap (f := f (s.core t)) hw (exec_vfRun h hs hc hF) fun i hi _ => hg i hi

/-- One that computes a value for each lane. -/
theorem writesLanes_vfOp {c : Instr} {f : CoreRegs → Nat → FVal} (hc : exec c s = .next (vfOp t d pg sz f s)) :
    WritesLanes c s t d (vfw sz) ((s.core t).pr pg) id fun i v =>
      v = (vfmt sz).encode (f (s.core t) i) % 2 ^ laneBits (vfw sz) :=
  writesLanes_vfRun h hs (vfw_lt sz) hc rfl fun _ _ => rfl

/-- One that computes a value from the values of two lanes. -/
theorem writesLanes_vfBin {c : Instr} {a b : Fin 32} {f : FVal → FVal → FVal}
    (hc : exec c s = .next (vfBin t d a b pg sz f s)) :
    WritesLanes c s t d (vfw sz) ((s.core t).pr pg) id fun i v => v =
      (vfmt sz).encode (f (flane sz ((s.core t).vr a) i) (flane sz ((s.core t).vr b) i)) % 2 ^ laneBits (vfw sz) :=
  writesLanes_vfOp h hs hc

end

/-- Settles O16: every instruction maps the active lanes, SZ = 3 raises ILLEGAL before it does; of two values that differ
`fpick` takes the smaller or the larger. -/
theorem vectorFloatingPointResults : Obligations.VectorFloatingPointResults := by
  unfold Obligations.VectorFloatingPointResults
  refine ⟨by decide, by decide, by decide, ?_⟩
  intro t d a b pg sz s h p w x y z enc on pick
  refine ⟨fun hs => ?_, fun hs => ?_⟩
  · refine ⟨writesLanes_vfBin h hs rfl, writesLanes_vfBin (f := fun x y => x.add y.neg) h hs rfl,
      writesLanes_vfBin h hs rfl, ?_, ?_, ?_, ?_, ?_, ?_, ?_⟩
    · exact writesLanes_vfOp
        (f := fun c i => (flane sz (c.vr d) i).add ((flane sz (c.vr a) i).mul (flane sz (c.vr b) i))) h hs rfl
    · refine writesLanes_vfRun h hs (vfw_lt sz) rfl rfl fun i _ => ?_
      obtain ⟨hx, hy, hlt, hgt⟩ := fpick_cases true (s.open.getLsbD (i % 64)) (x i) (y i)
      exact ⟨fun e => congrArg enc (hx e), fun e => congrArg enc (hy e), fun e => congrArg enc (hlt e),
        fun e => congrArg enc (hgt e)⟩
    · refine writesLanes_vfRun h hs (vfw_lt sz) rfl rfl fun i _ => ?_
      obtain ⟨hx, hy, hlt, hgt⟩ := fpick_cases false (s.open.getLsbD (i % 64)) (x i) (y i)
      exact ⟨fun e => congrArg enc (hx e), fun e => congrArg enc (hy e), fun e => congrArg enc (hgt e),
        fun e => congrArg enc (hlt e)⟩
    · exact writesLanes_vfRun h hs (by decide) rfl rfl fun i _ => Nat.mod_eq_of_lt (wrap_lt _ _)
    · exact writesLanes_vfRun h hs (vfw_lt sz) rfl rfl fun i _ hi => congrArg (· % _) (if_pos hi)
    · exact writesLanes_vfRun h hs (by decide) rfl rfl fun i _ h2 => congrArg (· % _) (if_neg h2)
    · have hrun := exec_vfRun (d := d) (u := State.used) h hs (show exec (.vcvtn t d a pg sz) s = _ from rfl) rfl
      refine ⟨_, hrun, ?_, fun h2 i hi => ?_⟩
      · rw [BitVec.toNat_ofNat]
        exact Nat.lt_of_le_of_lt (Nat.mod_le _ _) (Nat.mod_lt _ (Nat.two_pow_pos 512))
      · have hw : vfw sz = 1 := if_neg h2
        rw [lane_lowHalf _ hi, hw]
        refine (lane_laneMap 1 p _ _ i (Nat.lt_of_lt_of_le hi (by decide))).trans ?_
        rw [if_neg h2, Nat.mod_eq_of_lt hi]
        rfl
  · simp only [List.forall_mem_cons]
    refine ⟨?_, ?_, ?_, ?_, ?_, ?_, ?_, ?_, ?_, ?_, nofun⟩
    all_goals exact congrArg Host.Outcome.next (vfRun_illegal h hs _)

end Sys2Proof.Proofs
end

section
/-! PROOFS. The atomics of 03_tile_isa.md on a word that the tile reaches at once. -/

namespace Sys2Proof.Proofs

open Sys2Proof Sys2Proof.Machine Sys2Proof.Laws

/-! ### What a charged access leaves of the dirty-page log -/

theorem addrOf_dlog (p : Nat) : addrOf .PART_P_DLOG p 0 = 0x90120 + p * 0x40 := rfl
theorem addrOf_pwrCnt : addrOf .PWR_CNT 0 0 = 0x40098 := rfl

/-- Waking a domain counts it and changes no other register. -/
theorem wakeDom_dlog (d p : Nat) (s : State) : (wakeDom d s).reg .PART_P_DLOG p = s.reg .PART_P_DLOG p := by
  unfold wakeDom
  split
  · exact reg_setReg_ne _ _ _ _ _ _ _ _ (by rw [addrOf_dlog, addrOf_pwrCnt]; omega)
  · rfl

theorem touchPage_owner (n : Nat) (s : State) : ((touchPage n s).page n).owner = (s.page n).owner := by
  unfold touchPage
  dsimp only
  split
  · simp only [State.page, State.setPage, tab_get_set_same]
  · rfl

theorem touchPage_regs (n : Nat) (s : State) : (touchPage n s).regs = s.regs := by
  unfold touchPage
  dsimp only
  split <;> rfl

/-- Charging an access to the unified range leaves its page's owner and every partition's log setting. -/
theorem tierCharge_unified (w : Who) {a n : Nat} (len : Nat) (s : State) (hs : spaceOf a = .unified n) :
    ((tierCharge w a len s).page n).owner = (s.page n).owner ∧
      ∀ p, (tierCharge w a len s).reg .PART_P_DLOG p = s.reg .PART_P_DLOG p := by
  have hwake : ∃ d, wakeFor a s = wakeDom d s := by
    unfold wakeFor
    rw [hs]
    exact ⟨_, rfl⟩
  obtain ⟨d, hwake⟩ := hwake
  have hpage : ∀ u : State, ((t2Done w (touchPage n (wakeDom d s))).page n).owner = (s.page n).owner := fun _ =>
    (touchPage_owner n _).trans (congrArg Page.owner (wakeDom_page d n s))
  have hreg : ∀ p, (t2Done w (touchPage n (wakeDom d s))).reg .PART_P_DLOG p = s.reg .PART_P_DLOG p := fun p =>
    (congrArg (fun m => Tab.get resetAt m (addrOf .PART_P_DLOG p 0)) (touchPage_regs n _)).trans (wakeDom_dlog d p s)
  unfold tierCharge
  dsimp only
  rw [hs, hwake]
  dsimp only
  split
  · exact ⟨hpage s, hreg⟩
  · exact ⟨hpage s, hreg⟩

section
variable {t a n : Nat} {s : State}

/-- After an access that went on at once, with no log in force, a write sets no dirty bit. -/
theorem tierCharge_dirtyLog (h : Reaches t a n s) (hl : s.rb .PART_P_DLOG 63 (s.core t).part.toNat = false) (w : Who)
    (len : Nat) : dirtyLog a (tierCharge w a len s) = tierCharge w a len s := by
  have hs := reaches_dirtyLog h hl
  unfold dirtyLog at hs ⊢
  split
  next p hp =>
    obtain ⟨howner, hreg⟩ := tierCharge_unified w len s hp
    have hk : (s.page p).owner = some (s.core t).part.toNat := by
      have hr := h.held
      unfold rangeCheck at hr
      split at hr
      · cases hr
      · next hk =>
        unfold addrCheck at hk
        rw [hp] at hk
        dsimp only at hk
        split at hk
        · next e => exact eq_of_beq e
        · cases hk
    have hb : (tierCharge w a len s).rb .PART_P_DLOG 63 (s.core t).part.toNat = false := by
      rw [State.rb, hreg]
      exact hl
    rw [howner, hk]
    simp [hb]
  next => rfl

/-- A read that goes on at once gives the bytes there and charges the access. -/
theorem readMem_reaches (h : Reaches t a n s) (hn : n = 1 ∨ n = 2 ∨ n = 4 ∨ n = 8) (ha : a % n = 0) (aux : Nat) :
    readMem (whoTile s t) a n aux s =
      .ok ((List.range n).map fun i => s.byte (a + i)) (tierCharge (whoTile s t) a n s) := by
  obtain ⟨u, hread, -⟩ := reaches_read h hn ha aux
  rw [hread]
  unfold readMem at hread
  have hclean : readCorrects s (wordsOf a n) = s := by
    refine readCorrects_clean fun w hw => ?_
    rw [wordsOf_small a n hn ha, List.mem_singleton] at hw
    exact hw ▸ reaches_word h
  rw [hclean, show (whoTile s t).part = some (s.core t).part.toNat from rfl, h.held, h.gate] at hread
  dsimp only at hread
  split at hread
  · cases hread
  · split at hread
    · cases hread
    · injection hread with _ hu
      rw [hu]

end

/-! ### The atomic -/

/-- Dropping a line leaves memory, every core and the other tiles. -/
theorem dropLine_spares (t a : Nat) (s : State) : Spares t s (dropLine t a s) := spares_modTile t s rfl

/-- A tile whose core has changed holds the line no more after it was dropped. -/
theorem cacheLine_dropLine (t a : Nat) (s : State) (f : CoreRegs → CoreRegs) :
    cacheLine t a ((dropLine t a s).modCore t f) = none := by
  rw [cacheLine, State.modCore, tile_modTile_same, dropLine, tile_modTile_same, Option.map_eq_none_iff,
    List.find?_eq_none]
  intro l hl
  simpa using (List.mem_filter.mp hl).2

section
variable {t : Fin 128} {d a b : Fin 64} {op ad : Nat} {s : State}

theorem atomic_misaligned (h : Runs t s) (had : ((s.core t).gr a).toNat % 2 ^ 52 = ad) (ha : ad % 8 ≠ 0) :
    atomic t d a b op s = takeException t causeDataAlign ad s := by
  subst had
  rw [atomic, runInstr_runs h, ← BitVec.toNat_setWidth]
  exact if_pos (by rwa [BitVec.toNat_setWidth])

theorem atomic_control (h : Runs t s) (had : ((s.core t).gr a).toNat % 2 ^ 52 = ad) (ha : ad % 8 = 0) {off : Nat}
    (hs : spaceOf ad = .control off) : atomic t d a b op s = dataRefuse t .access ad s := by
  subst had
  rw [← BitVec.toNat_setWidth] at ha hs ⊢
  rw [atomic, runInstr_runs h]
  dsimp only
  rw [if_neg (fun hne => hne ha), hs]

theorem atomic_memory (h : Runs t s) (had : ((s.core t).gr a).toNat % 2 ^ 52 = ad) (ha : ad % 8 = 0)
    (hr : Reaches t ad 8 s) : atomic t d a b op s = atomicMem t d op ad ((s.core t).gr b) ((s.core t).gr d) s := by
  subst had
  rw [← BitVec.toNat_setWidth] at ha hr ⊢
  rw [atomic, runInstr_runs h]
  dsimp only
  rw [if_neg (fun hne => hne ha)]
  rcases spaceOf_of_rangeCheck hr.held with ⟨p, e⟩ | ⟨u, o, e⟩ | ⟨g, o, e⟩ <;> rw [e]

end

theorem amoValue_cas (old b cmp : Word) : amoValue 7 old b cmp = if old = cmp then b else old := rfl

/-- The new word of an atomic on the word of memory at `ad`. -/
def amoNew (op ad : Nat) (b cmp : Word) (s : State) : Word := amoValue op (BitVec.ofNat 64 (memValue s ad 8)) b cmp

section
variable {t d op ad : Nat} {b cmp : Word} {s : State}

/-- An atomic that goes on at once stores its new word, drops the line, and returns the old word. -/
theorem atomicMem_reaches (h : Reaches t ad 8 s) (ha : ad % 8 = 0)
    (hl : s.rb .PART_P_DLOG 63 (s.core t).part.toNat = false) (d : Fin 64) :
    atomicMem t d op ad b cmp s =
      (dropLine t ad ((tierCharge (whoTile s t) ad 8 s).setBytes ad (leBytes 8 (amoNew op ad b cmp s).toNat))).modCore t
        fun c => (c.setG d (BitVec.ofNat 64 (memValue s ad 8))).next 4 := by
  have hn : 8 = 1 ∨ 8 = 2 ∨ 8 = 4 ∨ 8 = 8 := by decide
  have hside := tierCharge_side (whoTile s t) ad 8 s
  have hidle : ∀ i < 8, arrayBusy t (ad + i) (tierCharge (whoTile s t) ad 8 s) = false := fun i hi => by
    rw [← h.idle i hi, arrayBusy, arrayBusy, sideOnly_tile hside]
  have hstore : ∀ new : Word, storeBytes ad (leBytes 8 new.toNat) (tierCharge (whoTile s t) ad 8 s) =
      (tierCharge (whoTile s t) ad 8 s).setBytes ad (leBytes 8 new.toNat) := fun new => by
    have hlen := leBytes_length 8 new.toNat
    exact storeBytes_small _ (by rw [hlen]; exact hn) (by rw [hlen]; exact ha)
      (by rw [sideOnly_eccAt hside]; exact reaches_word h)
  have hcells : ∀ data : List Byte, data.length = 8 → (coreCells t (((List.range 8).map (ad + ·)).zip data)
      (tierCharge (whoTile s t) ad 8 s)).map (·.2) = data := fun data hd => by
    rw [coreCells_idle, List.map_snd_zip (by simp [hd])]
    intro c hc
    obtain ⟨i, hi, e⟩ := List.mem_map.mp (List.of_mem_zip hc).1
    exact e ▸ hidle i (List.mem_range.mp hi)
  have hbusy : usedIfBusy t ((List.range 8).map (ad + ·)) (tierCharge (whoTile s t) ad 8 s) =
      tierCharge (whoTile s t) ad 8 s := by
    refine if_neg ?_
    rw [Bool.not_eq_true, List.any_eq_false]
    intro x hx
    obtain ⟨i, hi, e⟩ := List.mem_map.mp hx
    rw [← e, hidle i (List.mem_range.mp hi)]
    decide
  unfold atomicMem
  dsimp only
  refine (if_neg ?_).trans ?_
  · rw [Bool.and_eq_true]
    rintro ⟨hmove, -⟩
    split at hmove
    next p hp => rw [(h.still p hp).1] at hmove; cases hmove
    next => cases hmove
  rw [readMem_reaches h hn ha]
  dsimp only
  rw [hbusy, ite_self, tierCharge_dirtyLog h hl, hcells _ (leBytes_length _ _), ite_self, hstore]
  have hold : (if ownStore t ad = true then coreBytes t ad 8 (tierCharge (whoTile s t) ad 8 s)
      else (List.range 8).map fun i => s.byte (ad + i)) = (List.range 8).map fun i => s.byte (ad + i) := by
    split
    next ho => exact coreBytes_own h hside hn ha ho
    next => rfl
  rw [hold, leVal_map_range]
  rfl

end

/-- What the end of an atomic leaves, from a charged state. -/
theorem atomic_effects {t : Fin 128} {d : Fin 64} {ad : Nat} {old new : Word} {s u : State}
    (hd : (s.core t).dsp.active = false) (hu : SideOnly s u) :
    let n := (dropLine t ad (u.setBytes ad (leBytes 8 new.toNat))).modCore t fun c => (c.setG d old).next 4
    (∀ x, n.byte x = if ad ≤ x ∧ x < ad + 8 then BitVec.ofNat 8 (new.toNat / 256 ^ (x - ad)) else s.byte x) ∧
      n.core t = { (s.core t).setG d old with pc := (s.core t).pc + 4 } ∧ cacheLine t ad n = none ∧
      ∀ k, k ≠ t.val → n.tile k = s.tile k := by
  obtain ⟨htiles, -, -⟩ := setBytes_frame (leBytes 8 new.toNat) u ad
  have htile : ∀ k, (u.setBytes ad (leBytes 8 new.toNat)).tile k = s.tile k := fun k =>
    (congrArg (fun m => Tab.get (fun _ => Tile.reset) m k) htiles).trans (sideOnly_tile hu k)
  have hdrop := dropLine_spares t ad (u.setBytes ad (leBytes 8 new.toNat))
  refine ⟨fun x => ?_, ?_, cacheLine_dropLine t ad _ _, fun k hk => ?_⟩
  · rw [modCore_byte, hdrop.byte, setBytes_byte]
    simp only [leBytes_length, sideOnly_byte hu]
    split
    next => exact leBytes_getElem _ _ _ _
    next => rfl
  · have hcore : (u.setBytes ad (leBytes 8 new.toNat)).core t = s.core t := congrArg Tile.core (htile t)
    rw [core_modCore_same, hdrop.core, hcore, next_inactive (by rwa [setG_dsp]), setG_pc]
    rfl
  · rw [State.modCore, tile_modTile_ne _ _ _ _ hk, hdrop.others k hk, htile]

/-- Settles O19: the atomics on memory by `atomicMem_reaches`, and the two refusals. -/
theorem atomicResults : Obligations.AtomicResults := by
  unfold Obligations.AtomicResults
  intro t d a b s h ad old y does
  have hdoes : ∀ c op, exec c s = .next (atomic t d a b op s) → ∀ new, amoValue op old y ((s.core t).gr d) = new →
      does c new := by
    intro c op hc new hnew
    refine ⟨fun ha hr hl => ⟨_, hc, ?_⟩, fun ha => hc.trans (congrArg _ (atomic_misaligned h rfl ha)),
      fun off ha hs => hc.trans (congrArg _ (atomic_control h rfl ha hs))⟩
    have hnew : amoNew op ad y ((s.core t).gr d) s = new := hnew
    rw [atomic_memory h rfl ha hr, atomicMem_reaches hr ha hl, hnew]
    exact atomic_effects h.2.2 (tierCharge_side (whoTile s t) ad 8 s)
  exact ⟨hdoes _ 0 rfl _ rfl, hdoes _ 1 rfl _ rfl, hdoes _ 2 rfl _ rfl, hdoes _ 3 rfl _ rfl, hdoes _ 4 rfl _ rfl,
    hdoes _ 5 rfl _ rfl, hdoes _ 6 rfl _ rfl, hdoes _ 7 rfl _ (amoValue_cas _ _ _)⟩

end Sys2Proof.Proofs
end

section
/-! PROOFS. The vector accesses of 03_tile_isa.md to the tile's own store. -/

namespace Sys2Proof.Proofs

open Sys2Proof Sys2Proof.Machine Sys2Proof.Laws

/-! ### The cells of a store, the last one at an address winning -/

/-- Where the cells at an address all hold one value, the byte takes it. -/
theorem cellsAt_agree {cells : List (Nat × Byte)} {x : Nat} {v : Byte} (hv : ∀ c ∈ cells, c.1 = x → c.2 = v) (b : Byte)
    (h : ∃ c ∈ cells, c.1 = x) : cellsAt cells x b = v := by
  induction cells generalizing b with
  | nil => obtain ⟨c, hc, -⟩ := h; cases hc
  | cons c cells ih =>
    have ih := ih (fun d hd => hv d (List.mem_cons_of_mem _ hd))
    show cellsAt cells x (if c.1 = x then c.2 else b) = v
    by_cases hin : ∃ d ∈ cells, d.1 = x
    · exact ih _ hin
    · obtain ⟨d, hd, hdx⟩ := h
      rcases List.mem_cons.mp hd with rfl | hd
      · rw [if_pos hdx, cellsAt_none (fun d hd hx => hin ⟨d, hd, hx⟩), hv d (List.mem_cons_self) hdx]
      · exact absurd ⟨d, hd, hdx⟩ hin

/-- A sorted list around one of its elements. -/
theorem sorted_split {l : List Nat} (h : l.Pairwise (· < ·)) {i : Nat} (hi : i ∈ l) :
    ∃ l₁ l₂, l = l₁ ++ i :: l₂ ∧ ∀ j ∈ l₂, i < j := by
  obtain ⟨l₁, l₂, rfl⟩ := List.append_of_mem hi
  exact ⟨l₁, l₂, rfl, (List.pairwise_cons.mp (List.pairwise_append.mp h).2.1).1⟩

/-! ### Elements of the own store that go on at once -/

/-- The `n` bytes at `a`, above the unified range, hold no error, and no array operation is at work there. -/
structure ReadyAt (t a n : Nat) (s : State) : Prop where
  base  : 0x1E000000000 ≤ a
  clean : ∀ i < n, s.eccAt ((a + i) / 32) = .clean
  idle  : ∀ i < n, arrayBusy t (a + i) s = false

theorem ownCheck_base {t a : Nat} {s : State} (h : ownCheck t a s = none) : 0x1E000000000 ≤ a := by
  refine Nat.le_of_not_lt fun hlt => ?_
  rw [ownCheck, spaceOf, if_pos hlt] at h
  cases h

section
variable {t n : Nat} {as : List Nat} {s : State}

theorem coreBytes_ready {a : Nat} (h : ReadyAt t a n s) : leVal (coreBytes t a n s) = memValue s a n := by
  rw [memValue_eq_leVal, coreBytes]
  refine congrArg leVal (List.map_congr_left fun i hi => ?_)
  have hi := List.mem_range.mp hi
  have hb := h.base
  rw [State.coreByte, h.idle i hi, if_neg Bool.false_ne_true, curByte_store (by omega) (h.clean i hi)]

theorem usedIfBusy_idle (h : ∀ a ∈ as, arrayBusy t a s = false) : usedIfBusy t as s = s := by
  refine if_neg ?_
  rw [Bool.not_eq_true, List.any_eq_false]
  exact fun a ha => Bool.eq_false_iff.mp (h a ha)

/-- Elements that go on at once are read as memory holds them. -/
theorem ownRead_ready (h : ∀ a ∈ as, ReadyAt t a n s) (f : List Nat → State → State) :
    ownRead t n as f s = f (as.map fun a => memValue s a n) s := by
  have hws : ∀ w ∈ (as.flatMap fun a => wordsOf a n).eraseDups, s.eccAt w = .clean := by
    intro w hw
    obtain ⟨a, ha, hw⟩ := List.mem_flatMap.mp (List.mem_eraseDups.mp hw)
    exact wordsOf_clean (h a ha).clean w hw
  unfold ownRead
  dsimp only
  rw [filter_uncorrectable_nil hws, readCorrects_clean hws, usedIfBusy_idle]
  · exact congrArg (f · s) (List.map_congr_left fun a ha => coreBytes_ready (h a ha))
  · intro x hx
    obtain ⟨a, ha, hx⟩ := List.mem_flatMap.mp hx
    obtain ⟨i, hi, rfl⟩ := List.mem_map.mp hx
    exact (h a ha).idle i (List.mem_range.mp hi)

/-- Cells in words without error, where no array operation is at work, are stored as they are given. -/
theorem ownWrite_ready {cells : List (Nat × Byte)} (hc : ∀ c ∈ cells, s.eccAt (c.1 / 32) = .clean)
    (hi : ∀ c ∈ cells, arrayBusy t c.1 s = false) (f : State → State) :
    ∃ u, ownWrite t cells f s = f u ∧ u.tiles = s.tiles ∧ ∀ x, u.byte x = cellsAt cells x (s.byte x) := by
  obtain ⟨u, hwrite, hrest, hbyte⟩ := writeCells_clean hc
  have htiles : u.tiles = s.tiles := by
    obtain ⟨m, e, rfl⟩ := hrest.rest
    rfl
  refine ⟨u, ?_, htiles, hbyte⟩
  unfold ownWrite
  rw [coreCells_idle hi, hwrite]
  dsimp only
  rw [usedIfBusy_idle]
  intro a ha
  obtain ⟨c, hca, rfl⟩ := List.mem_map.mp ha
  rw [arrayBusy, State.tile, htiles]
  exact hi c hca

/-- Elements that are aligned and that the tile may reach. -/
theorem ownAccess_ready (ha : ∀ a ∈ as, a % n = 0) (hk : ∀ a ∈ as, ownCheck t a s = none) (f : State → State) :
    ownAccess t n as f s = f s := by
  have hfind : as.find? (fun a => a % n != 0) = none := by
    rw [List.find?_eq_none]
    intro a h
    rw [ha a h]
    decide
  have hes : (as.filterMap fun a => (ownCheck t a s).map fun e => (e, a)) = [] := by
    rw [List.filterMap_eq_nil_iff]
    intro a h
    rw [hk a h]
    rfl
  unfold ownAccess elemFault
  rw [hfind]
  dsimp only
  rw [hes]
  rfl

/-- The one address of VLD and VST is not aligned. -/
theorem ownAccess_misaligned {a : Nat} (ha : a % n ≠ 0) (f : State → State) :
    ownAccess t n [a] f s = takeException t causeDataAlign a s := by
  unfold ownAccess elemFault
  rw [List.find?_cons, bne_iff_ne.mpr ha]

/-- The one address of VLD and VST is one that the tile may not reach. -/
theorem ownAccess_refused {a : Nat} {e : MemErr} (ha : a % n = 0) (hk : ownCheck t a s = some e) (f : State → State) :
    ownAccess t n [a] f s = dataRefuse t e a s := by
  unfold ownAccess elemFault
  rw [List.find?_cons, ha]
  simp only [bne_self_eq_false, List.find?_nil, List.filterMap_cons, hk, Option.map_some, List.filterMap_nil]
  cases e <;> rfl

end

/-- A value read for a lane of the list. -/
theorem elemOf_map {js : List Nat} {i : Nat} (hi : i ∈ js) (f : Nat → Nat) : elemOf js (js.map f) i = f i := by
  have hz : js.zip (js.map f) = js.map fun j => (j, f j) := by
    simpa using List.zip_map' (f := id) (g := f) (l := js)
  unfold elemOf
  rw [hz]
  cases hf : (js.map fun j => (j, f j)).find? fun p => p.1 == i with
  | none =>
    have := List.find?_eq_none.mp hf (i, f i) (List.mem_map.mpr ⟨i, hi, rfl⟩)
    simp at this
  | some p =>
    obtain ⟨j, -, rfl⟩ := List.mem_map.mp (List.mem_of_find?_eq_some hf)
    have := List.find?_some hf
    rw [beq_iff_eq] at this
    exact congrArg f this

/-! ### The instructions -/

/-- The lanes active under a predicate, in their order. -/
def activeIdx (n sz : Nat) (p : BitVec 128) : List Nat := (List.range n).filter (active sz p)

theorem mem_activeIdx {n sz i : Nat} {p : BitVec 128} : i ∈ activeIdx n sz p ↔ i < n ∧ active sz p i = true := by
  rw [activeIdx, List.mem_filter, List.mem_range]

theorem activeIdx_sorted (n sz : Nat) (p : BitVec 128) : (activeIdx n sz p).Pairwise (· < ·) :=
  List.pairwise_lt_range.filter _

theorem vAddr_eq (c : CoreRegs) (a : Nat) (imm : BitVec 12) :
    vAddr c a imm = (c.gr a + imm.signExtend 64 * 128).toNat % 2 ^ 52 := by
  rw [vAddr, BitVec.toNat_setWidth, BitVec.shiftLeft_eq_mul_twoPow]
  rfl

/-- The address of lane `i` of an indexed access. -/
def laneAddr (c : CoreRegs) (a b sz i : Nat) : Nat :=
  (c.gr a + BitVec.ofNat 64 (lane sz (c.vr b) i * 2 ^ sz)).toNat % 2 ^ 52

theorem gatherAddrs_eq (c : CoreRegs) (a b sz : Nat) :
    gatherAddrs c a b sz = (activeIdx (laneCount sz) sz (c.pr 1)).map fun i => (i, laneAddr c a b sz i) :=
  List.map_congr_left fun _ _ => congrArg _ (BitVec.toNat_setWidth ..)

/-- What holds of every active lane's address. -/
theorem forall_activeAddr {n sz : Nat} {p : BitVec 128} {addr : Nat → Nat} {Q : Nat → Prop}
    (h : ∀ i < n, active sz p i = true → Q (addr i)) : ∀ a ∈ (activeIdx n sz p).map addr, Q a := by
  intro a ha
  obtain ⟨i, hi, rfl⟩ := List.mem_map.mp ha
  obtain ⟨hi, hact⟩ := mem_activeIdx.mp hi
  exact h i hi hact

/-- A store by cells has ended. -/
structure CellsStored (t : Nat) (cells : List (Nat × Byte)) (s u : State) : Prop where
  byte   : ∀ x, u.byte x = cellsAt cells x (s.byte x)
  core   : u.core t = { s.core t with pc := (s.core t).pc + 4 }
  others : ∀ k, k ≠ t → u.tile k = s.tile k

theorem ownWrite_stored {t : Nat} {cells : List (Nat × Byte)} {s : State} (hd : (s.core t).dsp.active = false)
    (hc : ∀ c ∈ cells, s.eccAt (c.1 / 32) = .clean) (hi : ∀ c ∈ cells, arrayBusy t c.1 s = false) :
    CellsStored t cells s (ownWrite t cells (goNext t) s) := by
  obtain ⟨u, hwrite, htiles, hbyte⟩ := ownWrite_ready hc hi (goNext t)
  have htile : ∀ k, u.tile k = s.tile k := fun k => congrArg (fun m => Tab.get (fun _ => Tile.reset) m k) htiles
  have hcore : u.core t = s.core t := congrArg Tile.core (htile t)
  rw [hwrite, goNext]
  refine ⟨fun x => ?_, ?_, fun k hk => ?_⟩
  · rw [modCore_byte, hbyte]
  · rw [core_modCore_same, hcore, next_inactive hd]
    rfl
  · rw [State.modCore, tile_modTile_ne _ _ _ _ hk, htile]

section
variable {t : Fin 128} {d b : Fin 32} {a : Fin 64} {pg : Fin 8} {sz : Fin 4} {imm : BitVec 12} {ad : Nat} {s : State}
  (h : Runs t s)
include h

theorem exec_vld_runs (had : vAddr (s.core t) a imm = ad) :
    exec (.vld t d a pg imm) s = .next (ownAccess t 128 [ad] (ownRead t 1
      ((activeIdx 128 0 ((s.core t).pr pg)).map (ad + ·)) fun es u => u.modCore t fun c =>
        (c.setV d (laneMap 0 ((s.core t).pr pg) (c.vr d) (elemOf (activeIdx 128 0 ((s.core t).pr pg)) es))).next 4) s) := by
  subst had
  exact congrArg Host.Outcome.next (runInstr_runs h true _)

theorem exec_vst_runs (had : vAddr (s.core t) a imm = ad) :
    exec (.vst t d a pg imm) s = .next (ownAccess t 128 [ad] (ownWrite t
      ((activeIdx 128 0 ((s.core t).pr pg)).map fun i => (ad + i, BitVec.ofNat 8 (lane 0 ((s.core t).vr d) i)))
        (goNext t)) s) := by
  subst had
  exact congrArg Host.Outcome.next (runInstr_runs h true _)

theorem exec_vgather_runs : exec (.vgather t d a b sz) s = .next (ownAccess t (2 ^ sz.val)
    ((activeIdx (laneCount sz) sz ((s.core t).pr 1)).map (laneAddr (s.core t) a b sz)) (ownRead t (2 ^ sz.val)
      ((activeIdx (laneCount sz) sz ((s.core t).pr 1)).map (laneAddr (s.core t) a b sz)) fun vs u =>
        u.modCore t fun c => (c.setV d (laneMap sz (c.pr 1) (c.vr d)
          (elemOf (activeIdx (laneCount sz) sz ((s.core t).pr 1)) vs))).next 4) s) := by
  have hfst : (gatherAddrs (s.core t) a b sz).map (·.1) = activeIdx (laneCount sz) sz ((s.core t).pr 1) := by
    rw [gatherAddrs_eq, List.map_map]
    exact List.map_id _
  have hsnd : (gatherAddrs (s.core t) a b sz).map (·.2) =
      (activeIdx (laneCount sz) sz ((s.core t).pr 1)).map (laneAddr (s.core t) a b sz) := by
    rw [gatherAddrs_eq, List.map_map]
    rfl
  rw [← hsnd, ← hfst]
  exact congrArg Host.Outcome.next (runInstr_runs h true _)

theorem exec_vscatter_runs : exec (.vscatter t d a b sz) s = .next (ownAccess t (2 ^ sz.val)
    ((activeIdx (laneCount sz) sz ((s.core t).pr 1)).map (laneAddr (s.core t) a b sz)) (ownWrite t
      ((activeIdx (laneCount sz) sz ((s.core t).pr 1)).flatMap fun i => (List.range (2 ^ sz.val)).map fun j =>
        (laneAddr (s.core t) a b sz i + j, BitVec.ofNat 8 (lane sz ((s.core t).vr d) i / 2 ^ (8 * j)))) (goNext t)) s) := by
  refine congrArg Host.Outcome.next ((runInstr_runs h true _).trans ?_)
  dsimp only
  rw [gatherAddrs_eq, List.map_map, List.flatMap_map]
  rfl

end

/-- The active lanes of a register take the elements at their addresses. -/
theorem writesLanes_ownRead {c : Instr} {t : Fin 128} {d : Fin 32} {w al : Nat} (hw : w < 4) {as : List Nat}
    {P : CoreRegs → BitVec 128} {addr : Nat → Nat} {s : State} (h : Runs t s)
    (hc : exec c s = .next (ownAccess t al as (ownRead t (2 ^ w) ((activeIdx (laneCount w) w (P (s.core t))).map addr)
      fun es u => u.modCore t fun c => (c.setV d (laneMap w (P c) (c.vr d)
        (elemOf (activeIdx (laneCount w) w (P (s.core t))) es))).next 4) s))
    (ha : ∀ a ∈ as, a % al = 0) (hk : ∀ a ∈ as, ownCheck t a s = none)
    (hr : ∀ i < laneCount w, active w (P (s.core t)) i = true → ReadyAt t (addr i) (2 ^ w) s) :
    WritesLanes c s t d w (P (s.core t)) id fun i v => v = memValue s (addr i) (2 ^ w) := by
  rw [ownAccess_ready ha hk, ownRead_ready (forall_activeAddr hr), setV_next h.2.2, List.map_map] at hc
  refine writesLanes_laneMap hw hc fun i hi hact => ?_
  rw [elemOf_map (mem_activeIdx.mpr ⟨hi, hact⟩)]
  refine Nat.mod_eq_of_lt ?_
  rw [laneBits, ← pow_256]
  exact memValue_lt s _ _

theorem memValue_one (s : State) (a : Nat) : memValue s a 1 = (s.byte a).toNat := by simp [memValue]

/-- What VST leaves in memory. -/
theorem cellsAt_lanes {p : BitVec 128} {ad : Nat} (f : Nat → Byte) (x : Nat) (b : Byte) :
    cellsAt ((activeIdx 128 0 p).map fun i => (ad + i, f i)) x b =
      if ad ≤ x ∧ x < ad + 128 ∧ p.getLsbD (x - ad) = true then f (x - ad) else b := by
  have hbit : ∀ i, active 0 p i = p.getLsbD i := fun i => by rw [active, Nat.pow_zero, Nat.mul_one]
  split
  next hx =>
    obtain ⟨hle, hlt, hp⟩ := hx
    refine cellsAt_agree ?_ b ⟨_, List.mem_map.mpr ⟨x - ad, ?_, rfl⟩, by omega⟩
    · intro c hc hcx
      obtain ⟨i, -, rfl⟩ := List.mem_map.mp hc
      exact congrArg f (by omega)
    · exact mem_activeIdx.mpr ⟨by omega, by rw [hbit, hp]⟩
  next hx =>
    refine cellsAt_none ?_ b
    rintro c hc rfl
    obtain ⟨i, hi, rfl⟩ := List.mem_map.mp hc
    obtain ⟨hi, hact⟩ := mem_activeIdx.mp hi
    exact hx ⟨by omega, by omega, by rw [Nat.add_sub_cancel_left, ← hbit, hact]⟩

/-- The cells of a scatter: element `i` has its `n` bytes from `addr i` on. -/
def scatterCells (js : List Nat) (n : Nat) (addr : Nat → Nat) (f : Nat → Nat → Byte) : List (Nat × Byte) :=
  js.flatMap fun i => (List.range n).map fun j => (addr i + j, f i j)

theorem mem_scatterCells {js : List Nat} {n : Nat} {addr : Nat → Nat} {f : Nat → Nat → Byte} {c : Nat × Byte} :
    c ∈ scatterCells js n addr f ↔ ∃ i ∈ js, ∃ j < n, c = (addr i + j, f i j) := by
  simp only [scatterCells, List.mem_flatMap, List.mem_map, List.mem_range, eq_comm]

/-- Where lanes collide, the highest lane's value stands. -/
theorem cellsAt_scatter {js : List Nat} (hs : js.Pairwise (· < ·)) {n i x : Nat} {addr : Nat → Nat} {f : Nat → Nat → Byte}
    (hi : i ∈ js) (hle : addr i ≤ x) (hlt : x < addr i + n)
    (hlast : ∀ j ∈ js, i < j → ¬ (addr j ≤ x ∧ x < addr j + n)) (b : Byte) :
    cellsAt (scatterCells js n addr f) x b = f i (x - addr i) := by
  obtain ⟨l₁, l₂, rfl, hafter⟩ := sorted_split hs hi
  have hsplit : scatterCells (l₁ ++ i :: l₂) n addr f =
      scatterCells l₁ n addr f ++ (((List.range n).map fun j => (addr i + j, f i j)) ++ scatterCells l₂ n addr f) := by
    simp only [scatterCells, List.flatMap_append, List.flatMap_cons]
  rw [hsplit, cellsAt_append, cellsAt_append, cellsAt_none]
  · refine cellsAt_agree ?_ _ ⟨_, List.mem_map.mpr ⟨x - addr i, List.mem_range.mpr (by omega), rfl⟩, by omega⟩
    intro c hc hcx
    obtain ⟨j, -, rfl⟩ := List.mem_map.mp hc
    exact congrArg (f i) (by omega)
  · rintro c hc rfl
    obtain ⟨j, hj, k, hk, rfl⟩ := mem_scatterCells.mp hc
    exact hlast j (by simp [hj]) (hafter j hj) ⟨by omega, by omega⟩

/-- Settles O20: the accesses to elements that go on at once by `writesLanes_ownRead` and `ownWrite_stored`, the refusals
by `ownAccess_misaligned` and `ownAccess_refused`. -/
theorem vectorMemoryResults : Obligations.VectorMemoryResults := by
  unfold Obligations.VectorMemoryResults
  intro t d b a pg sz imm s h p p1 ad el n ok
  have had : vAddr (s.core t) a imm = ad := vAddr_eq _ _ _
  refine ⟨fun ha => ⟨?_, ?_⟩, fun e ha hk => ⟨?_, ?_⟩, fun ha hk hok => ⟨?_, ?_⟩, fun hel => ⟨?_, ?_⟩⟩
  · exact (exec_vld_runs h had).trans (congrArg _ (ownAccess_misaligned ha _))
  · exact (exec_vst_runs h had).trans (congrArg _ (ownAccess_misaligned ha _))
  · exact (exec_vld_runs h had).trans (congrArg _ (ownAccess_refused ha hk _))
  · exact (exec_vst_runs h had).trans (congrArg _ (ownAccess_refused ha hk _))
  · simp only [← memValue_one]
    refine writesLanes_ownRead (P := fun _ => p) (by decide) h (exec_vld_runs h had) (List.forall_mem_singleton.mpr ha)
      (List.forall_mem_singleton.mpr hk) fun i hi _ => ?_
    obtain ⟨hc, hb⟩ := hok i hi
    refine ⟨Nat.le_add_right_of_le (ownCheck_base hk), fun j hj => ?_, fun j hj => ?_⟩
    · rwa [Nat.lt_one_iff.mp hj]
    · rwa [Nat.lt_one_iff.mp hj]
  · have hcells : ∀ c ∈ (activeIdx 128 0 p).map fun i => (ad + i, BitVec.ofNat 8 (lane 0 ((s.core t).vr d) i)),
        s.eccAt (c.1 / 32) = .clean ∧ arrayBusy t c.1 s = false := by
      intro c hc
      obtain ⟨i, hi, rfl⟩ := List.mem_map.mp hc
      exact hok i (mem_activeIdx.mp hi).1
    have hst := ownWrite_stored h.2.2 (fun c hc => (hcells c hc).1) fun c hc => (hcells c hc).2
    refine ⟨_, (exec_vst_runs h had).trans (congrArg _ (ownAccess_ready (List.forall_mem_singleton.mpr ha)
      (List.forall_mem_singleton.mpr hk) _)), hst.core, hst.others, fun x => (hst.byte x).trans (cellsAt_lanes _ _ _)⟩
  · refine writesLanes_ownRead (P := fun c => c.pr 1) sz.isLt h (exec_vgather_runs h)
      (forall_activeAddr fun i hi hact => (hel i hi hact).1) (forall_activeAddr fun i hi hact => (hel i hi hact).2.1)
      fun i hi hact => ?_
    obtain ⟨-, hk, hok⟩ := hel i hi hact
    exact ⟨ownCheck_base hk, fun j hj => (hok j hj).1, fun j hj => (hok j hj).2⟩
  · have hcells : ∀ c ∈ scatterCells (activeIdx (laneCount sz) sz p1) n el
        fun i j => BitVec.ofNat 8 (lane sz ((s.core t).vr d) i / 2 ^ (8 * j)),
        s.eccAt (c.1 / 32) = .clean ∧ arrayBusy t c.1 s = false := by
      intro c hc
      obtain ⟨i, hi, j, hj, rfl⟩ := mem_scatterCells.mp hc
      obtain ⟨hi, hact⟩ := mem_activeIdx.mp hi
      exact (hel i hi hact).2.2 j hj
    have hst := ownWrite_stored h.2.2 (fun c hc => (hcells c hc).1) fun c hc => (hcells c hc).2
    refine ⟨_, (exec_vscatter_runs h).trans (congrArg _ (ownAccess_ready
      (forall_activeAddr fun i hi hact => (hel i hi hact).1) (forall_activeAddr fun i hi hact => (hel i hi hact).2.1) _)),
      hst.core, hst.others, fun x => ⟨fun hnone => (hst.byte x).trans (cellsAt_none ?_ _),
        fun i hi hact hle hlt hlast => (hst.byte x).trans ?_⟩⟩
    · rintro c hc rfl
      obtain ⟨i, hi, j, hj, rfl⟩ := mem_scatterCells.mp hc
      obtain ⟨hi, hact⟩ := mem_activeIdx.mp hi
      exact hnone i hi hact ⟨Nat.le_add_right _ _, Nat.add_lt_add_left hj _⟩
    · rw [cellsAt_scatter (activeIdx_sorted _ _ _) (mem_activeIdx.mpr ⟨hi, hact⟩) hle hlt, pow_256]
      intro j hj hij
      obtain ⟨hj, hact⟩ := mem_activeIdx.mp hj
      exact hlast j hj hij hact

end Sys2Proof.Proofs
end

section
/-! PROOFS. What records, doorbells and the writes of an engine leave of the tiles and of the scheduler: they may set event
bits on a tile, and no tile, launch or context moves. -/

namespace Sys2Proof.Proofs

open Sys2Proof Sys2Proof.Machine Sys2Proof.Laws

/-- A tile but for its event bits: those of its core, of its saved image, and those latched. -/
def stageOfTile (x : Tile) : Tile := { x with core := { x.core with tevt := 0 }, latch := 0, saved := none }

/-- From `o` to `s` tiles have changed in their event bits alone, and every launch and context stands. -/
structure StageKept (o s : State) : Prop where
  tiles    : ∀ t, stageOfTile (s.tile t) = stageOfTile (o.tile t)
  launches : s.sched.launches = o.sched.launches
  cxs      : s.sched.cxs = o.sched.cxs

section

variable {o s : State}

theorem stageKept_refl (s : State) : StageKept s s := ⟨fun _ => rfl, rfl, rfl⟩

/-- A change of anything but the tiles, the launches and the contexts. -/
theorem stageKept_of_eq {u : State} (h : StageKept o s) (ht : u.tiles = s.tiles)
    (hl : u.sched.launches = s.sched.launches) (hc : u.sched.cxs = s.sched.cxs) : StageKept o u :=
  ⟨fun t => by rw [State.tile, ht]; exact h.tiles t, hl.trans h.launches, hc.trans h.cxs⟩

theorem stageKept_modTile (h : StageKept o s) (t : Nat) {f : Tile → Tile}
    (hf : stageOfTile (f (s.tile t)) = stageOfTile (s.tile t)) : StageKept o (s.modTile t f) := by
  refine ⟨fun k => ?_, h.launches, h.cxs⟩
  by_cases hk : k = t
  · rw [hk, tile_modTile_same, hf, h.tiles]
  · rw [tile_modTile_ne s t k f hk, h.tiles]

theorem stageKept_setReg (h : StageKept o s) (r : RegName) (v : Word) (i j : Nat) : StageKept o (s.setReg r v i j) :=
  stageKept_of_eq h rfl rfl rfl

theorem stageKept_foldl {α : Type} {f : State → α → State} (hf : ∀ s x, StageKept o s → StageKept o (f s x)) (xs : List α)
    (h : StageKept o s) : StageKept o (xs.foldl f s) :=
  List.foldlRecOn xs f h fun u hu x _ => hf u x hu

/-! ### Notices -/

theorem stageKept_wakeDom (h : StageKept o s) (d : Nat) : StageKept o (wakeDom d s) := by
  unfold wakeDom
  split
  · exact stageKept_of_eq h rfl rfl rfl
  · exact h

theorem stageKept_wakeTile (h : StageKept o s) (t : Nat) : StageKept o (wakeTile t s) := by
  unfold wakeTile
  split
  · exact stageKept_wakeDom (stageKept_wakeDom h _) _
  · exact h

theorem stageKept_evtSaved (h : StageKept o s) (t : Nat) (bits : BitVec 32) : StageKept o (evtSaved t bits s) := by
  unfold evtSaved
  split
  · exact h
  · split
    · exact stageKept_setReg h _ _ _ _
    · exact stageKept_modTile h t rfl

theorem stageKept_evtOn (h : StageKept o s) (t c : Nat) (bits : BitVec 32) : StageKept o (evtOn t c bits s) := by
  unfold evtOn
  split
  · exact stageKept_setReg h _ _ _ _
  · split
    · exact stageKept_evtSaved h _ _
    · exact stageKept_modTile h t rfl

theorem stageKept_evtOff (h : StageKept o s) (p t : Nat) (bits : BitVec 32) : StageKept o (evtOff p t bits s) := by
  unfold evtOff
  split
  · exact stageKept_setReg h _ _ _ _
  · exact stageKept_setReg h _ _ _ _

theorem stageKept_deliverEvt (h : StageKept o s) (p t : Nat) (bits : BitVec 32) :
    StageKept o (deliverEvt p t bits s) := by
  have hoff : ∀ saved : Bool, StageKept o (if saved then evtSaved t bits s else evtOff p t bits s) := by
    intro saved
    split
    · exact stageKept_evtSaved h _ _
    · exact stageKept_evtOff h _ _ _
  unfold deliverEvt
  split
  · exact stageKept_modTile h t rfl
  · dsimp only
    split
    · split
      · exact stageKept_evtOn h _ _ _
      · exact hoff _
    · exact hoff _

theorem stageKept_hostNotify (h : StageKept o s) (f v : Nat) : StageKept o (hostNotify f v s) := by
  have hw := stageKept_wakeDom h 45
  unfold hostNotify
  split
  · exact stageKept_of_eq h rfl rfl rfl
  · dsimp only
    split
    · exact hw
    · exact stageKept_of_eq hw rfl rfl rfl

theorem stageKept_notify (h : StageKept o s) (m : Nat) (bits : BitVec 32) : StageKept o (notify m bits s) := by
  unfold notify
  split
  · exact h
  · split
    · exact stageKept_of_eq (stageKept_wakeDom h 48) rfl rfl rfl
    · exact stageKept_hostNotify h _ _
    · exact stageKept_foldl (fun _ t hu => stageKept_deliverEvt (stageKept_wakeTile hu t) _ t bits) _ h
    · exact h

theorem stageKept_ringReg (h : StageKept o s) (r : RegName) (i j : Nat) : StageKept o (ringReg r i j s) := by
  unfold ringReg ringDb
  split
  · split
    · exact stageKept_setReg h _ _ _ _
    · split
      · exact stageKept_setReg h _ _ _ _
      · exact stageKept_notify (stageKept_setReg h _ _ _ _) _ _
  · exact h

theorem stageKept_errRecord (h : StageKept o s) (code : Nat) (w : Who) (addr aux : Nat) :
    StageKept o (errRecord code w addr aux s) := by
  have hsum : StageKept o ((match errInput code with | some i => reeveCount i 1 s | none => s).flag .ERR_SUM
      (errClass code)) := by
    refine stageKept_setReg ?_ _ _ _ _
    split
    · exact stageKept_of_eq h rfl rfl rfl
    · exact h
  unfold errRecord
  dsimp only
  revert hsum
  generalize State.flag (match errInput code with | some i => reeveCount i 1 s | none => s) .ERR_SUM (errClass code) = u
  intro hsum
  split
  · exact stageKept_setReg (stageKept_setReg hsum _ _ _ _) _ _ _ _
  · split
    · split
      · refine stageKept_ringReg ?_ _ _ _
        iterate 4 refine stageKept_setReg ?_ _ _ _ _
        exact hsum
      · iterate 4 refine stageKept_setReg ?_ _ _ _ _
        exact hsum
    · refine stageKept_setReg ?_ _ _ _ _
      split
      · exact stageKept_setReg hsum _ _ _ _
      · exact hsum

/-! ### Writes of an engine -/

theorem stageKept_memErrRecord (h : StageKept o s) (e : MemErr) (w : Who) (a aux : Nat) :
    StageKept o (memErrRecord e w a aux s) := by
  unfold memErrRecord
  split
  · exact stageKept_errRecord h _ _ _ _
  · exact stageKept_errRecord h _ _ _ _
  · exact h
  · exact stageKept_errRecord h _ _ _ _

theorem stageKept_correctWord (h : StageKept o s) (w : Nat) : StageKept o (s.correctWord w) := by
  unfold State.correctWord
  split
  · exact stageKept_of_eq h rfl rfl rfl
  · exact stageKept_of_eq h rfl rfl rfl
  · exact h

theorem stageKept_countCorrected (h : StageKept o s) (w : Nat) : StageKept o (countCorrected w s) := by
  have hc := stageKept_of_eq (u := reeveCount 0 1 s) h rfl rfl rfl
  unfold countCorrected
  dsimp only
  split
  · exact stageKept_setReg hc _ _ _ _
  · exact stageKept_setReg hc _ _ _ _
  · exact hc

theorem stageKept_setBytes (h : StageKept o s) (a : Nat) (bs : List Byte) : StageKept o (s.setBytes a bs) := by
  induction bs generalizing a s with
  | nil => exact h
  | cons b bs ih => exact ih (s := s.setByte a b) (stageKept_of_eq h rfl rfl rfl) (a + 1)

theorem stageKept_storeBytes (h : StageKept o s) (a : Nat) (data : List Byte) : StageKept o (storeBytes a data s) := by
  unfold storeBytes
  dsimp only
  refine stageKept_setBytes (stageKept_foldl (fun u w hu => ?clean) _ (stageKept_foldl (fun u w hu => ?correct) _ h)) _ _
  case clean => exact stageKept_of_eq hu rfl rfl rfl
  case correct =>
    split
    · exact stageKept_correctWord (stageKept_countCorrected hu w) w
    · exact hu

theorem stageKept_storeHeld (h : StageKept o s) (update : Bool) (a : Nat) (d : List Byte) :
    StageKept o (storeHeld update a d s) := by
  unfold storeHeld
  split
  · split
    · exact stageKept_of_eq h rfl rfl rfl
    · exact stageKept_storeBytes h _ _
  · exact stageKept_storeBytes h _ _

theorem stageKept_dirtyLog (h : StageKept o s) (a : Nat) : StageKept o (dirtyLog a s) := by
  unfold dirtyLog
  split
  · split
    · dsimp only
      split
      · unfold orDirty
        split
        · exact stageKept_memErrRecord h _ _ _ _
        · exact stageKept_storeHeld h _ _ _
      · exact h
    · exact h
  · exact h

theorem stageKept_tierCharge (h : StageKept o s) (w : Who) (a len : Nat) : StageKept o (tierCharge w a len s) := by
  have hw : StageKept o (wakeFor a s) := by
    unfold wakeFor
    split
    · exact stageKept_wakeDom h _
    · exact stageKept_wakeTile h _
    · exact stageKept_wakeDom h _
    · exact h
  have ht : ∀ n, StageKept o (t2Done w (touchPage n (wakeFor a s))) := by
    intro n
    unfold touchPage
    dsimp only
    split
    · exact stageKept_of_eq hw rfl rfl rfl
    · exact stageKept_of_eq hw rfl rfl rfl
  unfold tierCharge
  dsimp only
  split
  · split
    · exact stageKept_of_eq (ht _) rfl rfl rfl
    · exact ht _
  · exact hw

theorem stageKept_devWrite (h : StageKept o s) (w : Who) (a : Nat) (data : List Byte) (aux : Nat) :
    StageKept o (devWrite w a data aux s).2 := by
  have hl : StageKept o (t2Lost a data.length s).2 := by
    unfold t2Lost
    split
    · exact h
    · exact stageKept_of_eq h rfl rfl rfl
  unfold devWrite devPut
  split
  · exact h
  · split
    · exact stageKept_memErrRecord h _ _ _ _
    · dsimp only
      split
      · dsimp only
        exact stageKept_memErrRecord hl _ _ _ _
      · split
        · dsimp only
          exact stageKept_memErrRecord hl _ _ _ _
        · exact stageKept_foldl
            (fun _ p hu => stageKept_storeHeld (stageKept_tierCharge (stageKept_dirtyLog hu _) _ _ _) _ _ _) _ hl

/-! ### What the relation gives -/

theorem StageKept.run (h : StageKept o s) (t : Nat) : (s.tile t).run = (o.tile t).run :=
  have e := congrArg Tile.run (h.tiles t)
  e

theorem StageKept.wait (h : StageKept o s) (t : Nat) : (s.core t).wait = (o.core t).wait :=
  have e := congrArg (fun x : Tile => x.core.wait) (h.tiles t)
  e

theorem StageKept.tileCx (h : StageKept o s) (t : Nat) : (s.tile t).cx = (o.tile t).cx :=
  have e := congrArg Tile.cx (h.tiles t)
  e

theorem StageKept.tileLaunch (h : StageKept o s) (t : Nat) : (s.tile t).launch = (o.tile t).launch :=
  have e := congrArg Tile.launch (h.tiles t)
  e

theorem StageKept.waiting (h : StageKept o s) (t : Nat) : (s.tile t).waiting = (o.tile t).waiting :=
  have e := congrArg Tile.waiting (h.tiles t)
  e

theorem StageKept.redeliver (h : StageKept o s) (t : Nat) : (s.tile t).redeliver = (o.tile t).redeliver :=
  have e := congrArg Tile.redeliver (h.tiles t)
  e

theorem StageKept.cx (h : StageKept o s) (c : Nat) : s.cx c = o.cx c := by rw [State.cx, h.cxs]; rfl

end

end Sys2Proof.Proofs
end

section
/-! PROOFS. The statement of 03_tile_isa.md and 13_partitions_and_scheduling.md on the end of a kernel. -/

namespace Sys2Proof.Proofs

open Sys2Proof Sys2Proof.Machine Sys2Proof.Laws

/-! ### A context's state is noted (R407) -/

/-- A context but for its state's code and the time of its last change. -/
def cxBody (x : Cx) : Cx := { x with code := 0, since := 0 }

/-- From `s` to `u` the noted states of contexts alone have changed. -/
structure CodesOnly (s u : State) : Prop where
  rest : ∃ cs, u = { s with sched := { s.sched with cxs := cs } }
  body : ∀ k, cxBody (u.cx k) = cxBody (s.cx k)

theorem noteCx_codes (c : Nat) (s : State) : CodesOnly s (noteCx c s) := by
  unfold noteCx
  dsimp only
  split
  · exact ⟨⟨s.sched.cxs, rfl⟩, fun _ => rfl⟩
  · refine ⟨⟨_, rfl⟩, fun k => ?_⟩
    simp only [State.cx, modCx, modSched, tab_get_set]
    split
    · next hk => rw [hk]; rfl
    · rfl

theorem noteTile_codes (t : Nat) (s : State) : CodesOnly s (noteTile t s) := by
  unfold noteTile
  split
  · exact noteCx_codes _ s
  · exact ⟨⟨s.sched.cxs, rfl⟩, fun _ => rfl⟩

section

variable {s u : State} (h : CodesOnly s u)
include h

theorem CodesOnly.records (c : Nat) : (u.cx c).records = (s.cx c).records :=
  have e := congrArg Cx.records (h.body c)
  e

theorem CodesOnly.epochs (c : Nat) : (u.cx c).epochs = (s.cx c).epochs :=
  have e := congrArg Cx.epochs (h.body c)
  e

theorem CodesOnly.swap (c : Nat) : (u.cx c).swap = (s.cx c).swap :=
  have e := congrArg Cx.swap (h.body c)
  e

theorem CodesOnly.tiles : u.tiles = s.tiles := by
  obtain ⟨cs, rfl⟩ := h.rest
  rfl

theorem CodesOnly.regs : u.regs = s.regs := by
  obtain ⟨cs, rfl⟩ := h.rest
  rfl

theorem CodesOnly.mem : u.mem = s.mem := by
  obtain ⟨cs, rfl⟩ := h.rest
  rfl

theorem CodesOnly.launches : u.sched.launches = s.sched.launches := by
  obtain ⟨cs, rfl⟩ := h.rest
  rfl

end

/-! ### The only launch (R413) -/

/-- `l` is the only launch, it has one tile, `t`, where its kernel has started, and nothing but its record hangs on its
end. -/
structure Sole (l : Launch) (t : Nat) (s : State) : Prop where
  only   : s.sched.launches = [l]
  tiles  : l.tiles = [⟨t, .running, [], none⟩]
  step   : l.stepEnd = false
  epochs : (s.cx l.cx).epochs = []
  shadow : s.rb .ERR_SH_CTL 63 = false
  live   : s.fh.live = []

theorem sole_of_alone {l : Launch} {t : Nat} {s : State} (h : Alone l t s) : Sole l t s :=
  ⟨h.only, h.tiles, h.step, h.epochs, h.shadow, h.live⟩

/-- The launch once its kernel has ended. -/
def launchEnded (l : Launch) (t st reason : Nat) : Launch := { l with tiles := [⟨t, .ended st reason, [], none⟩] }

section

variable {l : Launch} {t : Nat} {s : State}

theorem Sole.launch (h : Sole l t s) : s.launch l.id = some l := by
  rw [State.launch, h.only]
  simp

theorem Sole.part (h : Sole l t s) : l.part? t = some ⟨t, .running, [], none⟩ := by
  simp [Launch.part?, h.tiles, PartSt.isEnd]

/-- A change of the one part that there is. -/
theorem Sole.modPart (h : Sole l t s) (f : LTile → LTile) : modPart l.id t f s =
    modSched (fun d => { d with launches := [{ l with tiles := [f ⟨t, .running, [], none⟩] }] }) s := by
  simp [Machine.modPart, modLaunch, modSched, h.only, h.tiles, PartSt.isEnd]

theorem Sole.unpinPart (h : Sole l t s) : unpinPart l.id t s = s := by
  have hl : { l with tiles := [(⟨t, .running, [], none⟩ : LTile)] } = l := by rw [← h.tiles]
  unfold Machine.unpinPart
  rw [h.launch]
  simp only [Option.bind_some, h.part, Option.elim_some, List.foldl_nil]
  rw [h.modPart, hl, modSched, ← h.only]

theorem completeLaunch_over {id : Nat} (hl : s.launch id = some l) (ho : l.over = true) (he : (s.cx l.cx).epochs = []) :
    completeLaunch id s = reportLaunch l s := by
  unfold completeLaunch
  rw [hl]
  simp [ho, he]

/-- The end of the kernel is the end of the launch, which is reported. -/
theorem Sole.endPart (h : Sole l t s) (st reason : Nat) : endPart l.id t st reason s =
    reportLaunch (launchEnded l t st reason)
      (noteCx l.cx (modSched (fun d => { d with launches := [launchEnded l t st reason] }) s)) := by
  have hfault : (if 0x8000 ≤ st then faultOf (some l.part) s else s) = s := by
    rw [faultOf, faultLive, ledgerLive_nil h.live, ite_self, ite_self]
  have hnote := noteCx_codes l.cx (modSched (fun d => { d with launches := [launchEnded l t st reason] }) s)
  have hfind : (noteCx l.cx (modSched (fun d => { d with launches := [launchEnded l t st reason] }) s)).launch l.id =
      some (launchEnded l t st reason) := by
    rw [State.launch, hnote.launches]
    simp [modSched, launchEnded]
  have hep : ((noteCx l.cx (modSched (fun d => { d with launches := [launchEnded l t st reason] }) s)).cx l.cx).epochs = [] :=
    (hnote.epochs l.cx).trans h.epochs
  unfold Machine.endPart
  rw [h.launch]
  simp only [Option.bind_some, h.part, Option.map_some, PartSt.isEnd, h.unpinPart, h.shadow, Bool.and_false,
    Bool.false_and, Bool.false_eq_true, if_false, hfault, h.modPart]
  exact completeLaunch_over hfind rfl hep

end

/-! ### The record (R414, R415) -/

theorem cqFull_of_regs {s u : State} (h : u.regs = s.regs) (c : Nat) : cqFull c u = cqFull c s := by
  unfold cqFull cxSize State.rf State.reg
  rw [h]

/-- The record of the launch's end is suppressed. -/
def suppressed (quiet : Bool) (st : Nat) : Prop := quiet = true ∧ st < 0x8000

/-- A record of context `c` has no room. -/
def noRoom (c : Nat) (s : State) : Prop := cqFull c s = true ∨ (s.cx c).records ≠ []

/-- From `s` to `u` the record `ws` of a launch of context `c` with status `st` has been written, suppressed, held or
dropped. -/
structure Posted (c : Nat) (quiet : Bool) (st : Nat) (ws : List Word) (s u : State) : Prop where
  launches : u.sched.launches = s.sched.launches
  tiles    : ∀ k, stageOfTile (u.tile k) = stageOfTile (s.tile k)
  still    : suppressed quiet st ∨ noRoom c s → u.mem = s.mem ∧ u.tiles = s.tiles
  quieted  : suppressed quiet st → (u.cx c).records = (s.cx c).records
  held     : ¬ suppressed quiet st → noRoom c s → (s.cx c).records.length < 64 →
    (u.cx c).records = (s.cx c).records ++ [ws]
  dropped  : ¬ suppressed quiet st → noRoom c s → 64 ≤ (s.cx c).records.length →
    (u.cx c).records = (s.cx c).records

theorem stageKept_writeRecord (c : Nat) (ws : List Word) (s : State) : StageKept s (writeRecord c ws s) :=
  stageKept_ringReg (stageKept_setReg (stageKept_devWrite (stageKept_refl s) _ _ _ _) _ _ _ _) _ _ _

theorem cx_modCx_same (c : Nat) (f : Cx → Cx) (s : State) : (modCx c f s).cx c = f (s.cx c) := by
  simp only [State.cx, modCx, modSched, tab_get_set_same]

section

variable {c st : Nat} {quiet : Bool} {ws : List Word} {s : State}

theorem posted_postRecord (hq : ¬ suppressed quiet st) : Posted c quiet st ws s (postRecord c ws s) := by
  unfold postRecord
  split
  · next h =>
    have hroom : ¬ noRoom c s := by
      rw [Bool.and_eq_true, List.isEmpty_iff, Bool.not_eq_true'] at h
      rintro (hf | hr)
      · rw [h.2] at hf
        cases hf
      · exact hr h.1
    have hk := stageKept_writeRecord c ws s
    exact ⟨hk.launches, hk.tiles, fun h => absurd h (not_or.mpr ⟨hq, hroom⟩), fun h => absurd h hq,
      fun _ h => absurd h hroom, fun _ h => absurd h hroom⟩
  · split
    · next h64 =>
      exact ⟨rfl, fun _ => rfl, fun _ => ⟨rfl, rfl⟩, fun h => absurd h hq, fun _ _ h => absurd h64 (Nat.not_le.mpr h),
        fun _ _ _ => rfl⟩
    · next h64 =>
      exact ⟨rfl, fun _ => rfl, fun _ => ⟨rfl, rfl⟩, fun h => absurd h hq,
        fun _ _ _ => congrArg Cx.records (cx_modCx_same c _ s), fun _ _ h => absurd h h64⟩

/-- Registers alone change after the record. -/
theorem Posted.setReg {u : State} (h : Posted c quiet st ws s u) (r : RegName) (v : Word) (i j : Nat) :
    Posted c quiet st ws s (u.setReg r v i j) :=
  ⟨h.launches, h.tiles, h.still, h.quieted, h.held, h.dropped⟩

/-- What the completion of a launch without STEP_END does. -/
theorem posted_finishLaunch (reason step : Nat) : Posted c quiet st ws s (finishLaunch c quiet st reason false step ws s) := by
  have hpost : Posted c quiet st ws s (if quiet && decide (st < 0x8000) then s else postRecord c ws s) := by
    split
    · next h =>
      rw [Bool.and_eq_true, decide_eq_true_iff] at h
      exact ⟨rfl, fun _ => rfl, fun _ => ⟨rfl, rfl⟩, fun _ => rfl, fun hq => absurd h hq, fun hq => absurd h hq⟩
    · next h =>
      rw [Bool.and_eq_true, decide_eq_true_iff] at h
      exact posted_postRecord h
  unfold finishLaunch
  dsimp only
  rw [if_neg Bool.false_ne_true]
  split
  · exact hpost.setReg _ _ _ _
  · exact hpost

end

/-- The words of the record of the only tile's end. -/
def doneWords (l : Launch) (t st reason start : Nat) : List Word :=
  [place 63 52 l.kentry ||| place 51 44 (if 0x8000 ≤ st then 1 else 0) ||| place 43 40 reason |||
      place 31 16 l.tag ||| place 15 0 st,
    place 63 32 l.step ||| place 31 24 1 ||| place 6 0 t, BitVec.ofNat 64 start]

theorem reportLaunch_ended {l : Launch} {start : Nat} (hs : l.startNs = some start) (hstep : l.stepEnd = false)
    (t st reason : Nat) (s : State) : reportLaunch (launchEnded l t st reason) s =
      noteCx l.cx (finishLaunch l.cx l.quiet st reason false l.step (doneWords l t st reason start)
        (modSched (fun d => { d with launches := d.launches.filter fun x => x.id != l.id }) s)) := by
  have hends : (launchEnded l t st reason).ends = [(st, reason, t)] := rfl
  have hworst : (launchEnded l t st reason).worst = (st, reason, t) := rfl
  have hfail : ([(st, reason, t)].filter fun e => decide (0x8000 ≤ e.1)).length = if 0x8000 ≤ st then 1 else 0 := by
    rw [List.filter_cons]
    simp only [decide_eq_true_eq]
    split <;> rfl
  have hstart : (launchEnded l t st reason).startNs = some start := hs
  unfold reportLaunch
  dsimp only
  rw [hends, hworst, hfail, hstart]
  dsimp only [Option.getD_some, Option.isNone_some]
  rw [if_neg Bool.false_ne_true, show (launchEnded l t st reason).stepEnd = false from hstep]
  rfl

/-! ### The tile is free (R104) -/

/-- What the freeing of tile `t` leaves. -/
structure Freed (t : Nat) (s u : State) : Prop where
  rest   : ∃ ts, u = { s with tiles := ts }
  cx     : (u.tile t).cx = none
  launch : (u.tile t).launch = none
  run    : (u.tile t).run = if (s.tile t).run = .halted then .halted else .idle
  core   : u.core t = s.core t
  others : ∀ k, k ≠ t → u.tile k = s.tile k

theorem freed_modTile {t : Nat} {s : State} {f : Tile → Tile} (hcx : (f (s.tile t)).cx = none)
    (hl : (f (s.tile t)).launch = none) (hr : (f (s.tile t)).run = if (s.tile t).run = .halted then .halted else .idle)
    (hc : (f (s.tile t)).core = s.core t) : Freed t s (s.modTile t f) := by
  refine ⟨⟨_, rfl⟩, ?_, ?_, ?_, ?_, fun k hk => tile_modTile_ne s t k f hk⟩
  all_goals simp only [State.core, tile_modTile_same]
  · exact hcx
  · exact hl
  · exact hr
  · exact hc

/-- An image that starts to load leaves the tile free. -/
theorem Freed.startLoad {t : Nat} {s u : State} (h : Freed t s u) : Freed t s (startLoad t u) := by
  obtain ⟨ts, hts⟩ := h.rest
  refine ⟨⟨_, by rw [hts]; rfl⟩, ?_, ?_, ?_, ?_, fun k hk => (tile_modTile_ne u t k _ hk).trans (h.others k hk)⟩
  all_goals simp only [Machine.startLoad, State.core, tile_modTile_same]
  · exact h.cx
  · exact h.launch
  · exact h.run
  · exact h.core

theorem freed_freeTile (t : Nat) (s : State) : Freed t s (freeTile t s) := by
  have h : Freed t s (s.modTile t fun x => { x with
      cx := none, launch := none, run := if x.run = .halted then .halted else .idle
      stopReq := none, stopEnd := none, wakeFor := false }) := freed_modTile rfl rfl rfl rfl
  unfold freeTile loadIfStale
  dsimp only
  split
  · exact h.startLoad
  · exact h

end Sys2Proof.Proofs
end

section
/-! PROOFS. The end of a kernel, STOP and the launch deadline (03_tile_isa.md R97, R105; 13_partitions_and_scheduling.md
R412 to R416). -/

namespace Sys2Proof.Proofs

open Sys2Proof Sys2Proof.Machine Sys2Proof.Laws

/-! ### The kernel's end -/

theorem munit_of_noUnits {x : Tile} (h : x.units = []) (u : Nat) : x.munit u = MUnit.reset := by
  rw [Tile.munit, h]
  rfl

/-- With nothing queued, no stream is cut off. -/
theorem runPart_noUnits {t : Nat} {s : State} (h : (s.tile t).units = []) (u : Nat) (fin : Bool) :
    runPart t u fin s = s := by
  unfold runPart
  rw [munit_of_noUnits h]
  rfl

/-- From `s` to `v` the core of tile `t` waits for nothing any more; of the other tiles nothing has changed. -/
structure Settled (t : Nat) (s v : State) : Prop where
  rest   : ∃ ts, v = { s with tiles := ts }
  run    : (v.tile t).run = (s.tile t).run
  wait   : (v.core t).wait = .none
  others : ∀ k, k ≠ t → v.tile k = s.tile k

theorem settled_modTile {t : Nat} {s : State} {f : Tile → Tile} (hr : (f (s.tile t)).run = (s.tile t).run) :
    Settled t s ((s.modTile t f).modCore t fun c => { c with wait := .none }) := by
  refine ⟨⟨_, rfl⟩, ?_, ?_, fun k hk => ?_⟩
  · simp only [State.modCore, tile_modTile_same]
    exact hr
  · rw [core_modCore_same]
  · rw [State.modCore, tile_modTile_ne _ _ _ _ hk, tile_modTile_ne _ _ _ _ hk]

theorem settled_modCore (t : Nat) (s : State) : Settled t s (s.modCore t fun c => { c with wait := .none }) := by
  refine ⟨⟨_, rfl⟩, ?_, ?_, fun k hk => tile_modTile_ne _ _ _ _ hk⟩
  · rw [State.modCore, tile_modTile_same]
  · rw [core_modCore_same]

section

variable {t st reason : Nat} {s : State}

/-- How the kernel on a tile ends, and whether by KEND: any other end finds nothing queued. -/
theorem kernelEnd_of_endsWith (h : EndsWith t st reason s) {id : Nat} (hl : (s.tile t).launch = some id) :
    ∃ kend, kernelEnd t s = some (st, reason, kend) ∧ (kend = false → (s.tile t).units = []) := by
  have hsome : (s.tile t).launch.isNone = false := by rw [hl]; rfl
  unfold kernelEnd
  dsimp only
  rw [hsome, if_neg Bool.false_ne_true]
  rcases h with ⟨hrun, ⟨k, snap, hw, hbusy, hgangs, hfence, rfl⟩, rfl⟩ | ⟨hrun, hw, hm, hunits, hend⟩ |
    ⟨hrun, hunits, rfl, rfl⟩
  · refine ⟨true, ?_, fun h => Bool.noConfusion h⟩
    rw [hrun, hw, hbusy, hgangs]
    dsimp only
    rw [hfence]
    simp [stMatrix]
  · refine ⟨false, ?_, fun _ => hunits⟩
    rw [hrun, hw, hm]
    rcases hend with hend | ⟨hend, rfl, rfl⟩ <;> rw [hend] <;> rfl
  · refine ⟨false, ?_, fun _ => hunits⟩
    rw [hrun]
    rfl

theorem discardUnits_none (h : (s.tile t).units = []) : ∃ f : Tile → Tile, discardUnits t s = s.modTile t f ∧
    (f (s.tile t)).run = (s.tile t).run ∧ (f (s.tile t)).launch = (s.tile t).launch := by
  have hfold : (List.range 5).foldl (fun s u => runPart t u false s) s = s :=
    List.foldlRecOn _ _ (motive := fun v => v = s) rfl fun v hv u _ => by rw [hv, runPart_noUnits h]
  unfold discardUnits
  dsimp only
  rw [hfold]
  exact ⟨_, rfl, rfl, rfl⟩

theorem endKernel_ends (h : EndsWith t st reason s) {id : Nat} (hl : (s.tile t).launch = some id) :
    ∃ v, Settled t s v ∧ endKernel t s = freeTile t (endPart id t st reason v) := by
  obtain ⟨kend, hk, hunits⟩ := kernelEnd_of_endsWith h hl
  unfold endKernel
  rw [hk]
  dsimp only
  cases kend with
  | true =>
    rw [if_pos rfl, hl]
    exact ⟨_, settled_modCore t s, rfl⟩
  | false =>
    obtain ⟨f, hf, hrun, hlaunch⟩ := discardUnits_none (hunits rfl)
    rw [if_neg Bool.false_ne_true, hf, tile_modTile_same, hlaunch, hl]
    exact ⟨_, settled_modTile hrun, rfl⟩

/-- The end of the kernel of the only launch, whose record is posted from a state of the same registers, memory and
records. -/
theorem endKernel_sole {l : Launch} {start : Nat} (ha : Alone l t s) (h : EndsWith t st reason s)
    (hs : l.startNs = some start) : ∃ v b f, Settled t s v ∧ b.tiles = v.tiles ∧ b.sched.launches = [] ∧ b.regs = s.regs ∧
      b.mem = s.mem ∧ (b.cx l.cx).records = (s.cx l.cx).records ∧
      Posted l.cx l.quiet st (doneWords l t st reason start) b f ∧ endKernel t s = freeTile t (noteCx l.cx f) := by
  obtain ⟨v, hv, hend⟩ := endKernel_ends h ha.tile
  obtain ⟨ts, hts⟩ := hv.rest
  have hsole : Sole l t v := by
    obtain ⟨honly, htiles, hstep, hep, hshadow, hlive⟩ := sole_of_alone ha
    subst hts
    exact ⟨honly, htiles, hstep, hep, hshadow, hlive⟩
  have hnote := noteCx_codes l.cx (modSched (fun d => { d with launches := [launchEnded l t st reason] }) v)
  rw [hsole.endPart, reportLaunch_ended hs ha.step] at hend
  generalize noteCx l.cx (modSched (fun d => { d with launches := [launchEnded l t st reason] }) v) = n at hnote hend
  have hregs : v.regs = s.regs := by rw [hts]
  have hmem : v.mem = s.mem := by rw [hts]
  have hcx : v.cx l.cx = s.cx l.cx := by rw [hts]; rfl
  have hnone : (n.sched.launches.filter fun x => x.id != l.id) = [] := by
    rw [hnote.launches]
    simp [modSched, launchEnded]
  exact ⟨v, modSched (fun d => { d with launches := d.launches.filter fun x => x.id != l.id }) n, _, hv, hnote.tiles, hnone,
    hnote.regs.trans hregs, hnote.mem.trans hmem, (hnote.records l.cx).trans (congrArg Cx.records hcx),
    posted_finishLaunch _ _, hend⟩

end

/-! ### STOP and the deadline -/

theorem atBoundary_eq (c : CoreRegs) :
    atBoundary c = false ↔ c.wait = .heldAtomic ∨ ∃ g r, c.wait = .remoteAtomic g r := by
  unfold atBoundary
  split <;> simp_all

/-- A tile that has taken the STOP `e`, with its handler at `mvec`. -/
def stoppedTile (mvec : Word) (e : Nat × Nat) (x : Tile) : Tile :=
  { x with core := x.core.enter mvec 0x0D 0, loopFill := [], stopReq := none, stopEnd := some e }

/-- The registers that show an exception are registers alone. -/
theorem showException_frame (t cause : Nat) (epc addr : Word) (s : State) :
    (showException t cause epc addr s).tiles = s.tiles ∧ (showException t cause epc addr s).mem = s.mem ∧
      (showException t cause epc addr s).sched = s.sched := ⟨rfl, rfl, rfl⟩

/-- What the STOP taken on tile `t` leaves. -/
theorem takeStop_effects (t : Nat) (e : Nat × Nat) (s : State) :
    (takeStop t e s).tile t = stoppedTile (s.reg .TILE_MVEC t) e (s.tile t) ∧ (takeStop t e s).mem = s.mem ∧
      (takeStop t e s).sched.launches = s.sched.launches := by
  obtain ⟨u, hu, htiles, hmem, hsched⟩ : ∃ u, takeStop t e s = noteTile t u ∧
      u.tiles = (s.modTile t (stoppedTile (s.reg .TILE_MVEC t) e)).tiles ∧ u.mem = s.mem ∧ u.sched = s.sched :=
    ⟨_, rfl, (showException_frame t _ _ _ _).1, (showException_frame t _ _ _ _).2.1, (showException_frame t _ _ _ _).2.2⟩
  have hn := noteTile_codes t u
  rw [hu]
  refine ⟨?_, hn.mem.trans hmem, hn.launches.trans (congrArg Sched.launches hsched)⟩
  rw [State.tile, hn.tiles, htiles]
  exact tile_modTile_same s t _

section

variable {t : Nat} {l : Launch} {s : State}

/-- A deadline asks the kernel of the only launch to stop. -/
theorem launchDeadline_sole (ha : Alone l t s) (hr : (s.tile t).run = .running) {start : Nat} (hs : l.startNs = some start)
    (hd : l.dlNs ≠ 0) : launchDeadline l.id s =
      if start + l.dlNs ≤ s.now then s.modTile t fun x => { x with stopReq := some (0xC004, 0) } else s := by
  have hsole := sole_of_alone ha
  have hstop : stopPart l.id t stDeadline 0 s = s.modTile t fun x => { x with stopReq := some (0xC004, 0) } := by
    unfold stopPart
    simp only [hsole.launch, Option.bind_some, hsole.part, Option.map_some]
    rw [if_pos ha.tile, hr]
    rfl
  unfold launchDeadline stopLaunch
  rw [hsole.launch]
  simp only [hs, hsole.tiles, List.foldl_cons, List.foldl_nil, hstop, Bool.and_eq_true, bne_iff_ne, ne_eq, hd,
    not_false_eq_true, true_and, decide_eq_true_eq]

end

section

variable {t c : Nat} {s : State}

theorem endKernel_runs (h : kernelEnd t s = none) : endKernel t s = s := by
  rw [endKernel, h]

/-- No kernel ends on a tile that neither runs nor is halted. -/
theorem kernelEnd_notOn (hr : (s.tile t).run ≠ .running) (hh : (s.tile t).run ≠ .halted) : kernelEnd t s = none := by
  simp [kernelEnd, hr, hh]

/-- A kernel in K mode that is not at its KEND goes on. -/
theorem kernelEnd_goesOn (hr : (s.tile t).run = .running) (hm : (s.core t).modeM = false)
    (hw : ∀ k snap, (s.core t).wait ≠ .kend k snap) : kernelEnd t s = none := by
  have hm : (s.tile t).core.modeM = false := hm
  unfold kernelEnd
  dsimp only
  rw [hr]
  split
  · rfl
  · rw [if_neg (by decide), if_neg (by decide)]
    split
    · next k snap hk => exact absurd hk (hw k snap)
    · rw [hm, if_neg Bool.false_ne_true]

/-- STOP of the context whose kernel runs on the tile. -/
theorem stopOn_running (hcx : (s.tile t).cx = some c) (hr : (s.tile t).run = .running)
    (hl : (s.tile t).launch.isSome = true) (hse : (s.tile t).stopEnd = none) :
    stopOn t c s = if atBoundary (s.core t) then takeStop t ((s.tile t).stopReq.getD (0xC002, 1)) s
      else s.modTile t fun x => { x with stopReq := some ((s.tile t).stopReq.getD (0xC002, 1)) } := by
  unfold stopOn
  dsimp only
  rw [if_pos hcx, hr, hl, hse]
  rfl

end

/-- Settles O42: the end of a kernel by `endKernel_sole`, whose record is posted as `Posted` says; STOP by
`takeStop_effects`, the deadline by `launchDeadline_sole`. -/
theorem kernelsEndWithTheirStatus : Obligations.KernelsEndWithTheirStatus := by
  unfold Obligations.KernelsEndWithTheirStatus
  intro t s
  refine ⟨fun a h => ?_, fun hr hh => ?_, fun hr hm hw => ?_, fun l st reason start ha he hs => ?_,
    fun c hcx hr hl hse => ⟨fun hw => ?_, fun hheld hrem => ?_⟩, fun c hcx hsv => ?_, fun l start ha hr hs hd => ?_,
    fun id hid => ?_⟩
  · refine congrArg Host.Outcome.next ((runInstr_runs h false _).trans (modCore_congr ?_))
    rw [fld, Nat.pow_zero, Nat.div_one]
  · show Host.Outcome.next (endKernel t s) = _
    rw [endKernel_runs (kernelEnd_notOn hr hh)]
  · show Host.Outcome.next (endKernel t s) = _
    rw [endKernel_runs (kernelEnd_goesOn hr hm hw)]
  · obtain ⟨v, b, f, hv, hbt, hbl, hbr, hbm, hbrec, hpost, hend⟩ := endKernel_sole ha he hs
    have hn := noteCx_codes l.cx f
    have hf := freed_freeTile t (noteCx l.cx f)
    refine ⟨_, congrArg Host.Outcome.next hend, ?_⟩
    generalize noteCx l.cx f = n at hn hf
    generalize freeTile t n = u at hf
    obtain ⟨ts, hu⟩ := hf.rest
    have hnf : ∀ k, n.tile k = f.tile k := fun k => congrArg (fun m => Tab.get (fun _ => Tile.reset) m k) hn.tiles
    have hbv : ∀ k, b.tile k = v.tile k := fun k => congrArg (fun m => Tab.get (fun _ => Tile.reset) m k) hbt
    have hrun : (n.tile t).run = (s.tile t).run := by
      have e := congrArg Tile.run (hpost.tiles t)
      rw [hbv] at e
      exact (congrArg Tile.run (hnf t)).trans (Eq.trans e hv.run)
    have hwait : (n.core t).wait = .none := by
      have e := congrArg (fun x : Tile => x.core.wait) (hpost.tiles t)
      rw [hbv] at e
      exact (congrArg (fun x : Tile => x.core.wait) (hnf t)).trans (Eq.trans e hv.wait)
    have hrec : (u.cx l.cx).records = (f.cx l.cx).records := by
      rw [hu]
      exact hn.records l.cx
    have hroom : noRoom l.cx b ↔ cqFull l.cx s = true ∨ (s.cx l.cx).records ≠ [] := by
      rw [noRoom, cqFull_of_regs hbr, hbrec]
    refine ⟨?_, hf.cx, hf.launch, by rw [hf.run, hrun], by rw [hf.core, hwait], fun h => ⟨?_, fun k hk => ?_⟩,
      fun hq => ?_, fun hq hfull h64 => ?_, fun hq hfull h64 => ?_⟩
    · rw [hu]
      exact (hn.launches.trans hpost.launches).trans hbl
    · rw [hu]
      exact (hn.mem.trans (hpost.still (h.imp_right hroom.mpr)).1).trans hbm
    · have hfb : f.tile k = b.tile k := congrArg (fun m => Tab.get (fun _ => Tile.reset) m k)
        (hpost.still (h.imp_right hroom.mpr)).2
      rw [hf.others k hk, hnf, hfb, hbv, hv.others k hk]
    · rw [hrec, hpost.quieted hq, hbrec]
    · rw [hrec, hpost.held hq (hroom.mpr hfull) (hbrec ▸ h64), hbrec]
      rfl
    · rw [hrec, hpost.dropped hq (hroom.mpr hfull) (hbrec ▸ h64), hbrec]
  · refine congrArg Host.Outcome.next ?_
    rw [stopOn_running hcx hr hl hse, if_neg (by rw [(atBoundary_eq _).mpr hw]; decide)]
  · have hb : atBoundary (s.core t) = true := by
      rw [← Bool.not_eq_false, atBoundary_eq]
      rintro (hw | ⟨g, r, hw⟩)
      · exact hheld hw
      · exact hrem g r hw
    obtain ⟨htile, hmem, hlaunches⟩ := takeStop_effects t ((s.tile t).stopReq.getD (0xC002, 1)) s
    have hcore := congrArg Tile.core htile
    refine ⟨_, congrArg Host.Outcome.next ((stopOn_running hcx hr hl hse).trans (if_pos hb)), hcore, ?_, ?_, ?_,
      congrArg Tile.stopEnd htile, hmem, hlaunches⟩
    · exact congrArg CoreRegs.modeM hcore
    · exact congrArg CoreRegs.epc hcore
    · exact congrArg CoreRegs.pm hcore
  · show Host.Outcome.next (stopOn t c s) = _
    rw [stopOn]
    rw [if_neg hcx, hsv]
  · exact congrArg _ (launchDeadline_sole ha hr hs hd)
  · show Host.Outcome.next (launchDeadline id s) = _
    rw [launchDeadline, hid]

end Sys2Proof.Proofs
end

section
/-! PROOFS. The scalar instructions of 03_tile_isa.md: the ALU, the immediate forms, branches and jumps, and the
hardwired registers. -/

namespace Sys2Proof.Proofs

open Sys2Proof Sys2Proof.Machine Sys2Proof.Laws

/-! ### The results as values (R85) -/

theorem b2w_decide (p : Prop) [Decidable p] : b2w (decide p) = if p then 1 else 0 := by
  by_cases h : p <;> simp [b2w, h]

theorem shamt_eq_mod (y : Word) : shamt y = y.toNat % 64 := by
  rw [shamt, fld]
  omega

theorem mulHS_eq_extract (x y : Word) : mulHS x y = (x.signExtend 128 * y.signExtend 128).extractLsb' 64 64 := by
  have hp : x.signExtend 128 * y.signExtend 128 = BitVec.ofInt 128 (x.toInt * y.toInt) := by
    rw [BitVec.ofInt_mul]
    rfl
  apply BitVec.eq_of_toNat_eq
  rw [hp, mulHS, BitVec.extractLsb'_toNat, BitVec.toNat_ofInt, BitVec.toNat_ofInt, Nat.shiftRight_eq_div_pow]
  omega

theorem mulHU_eq_extract (x y : Word) : mulHU x y = (x.setWidth 128 * y.setWidth 128).extractLsb' 64 64 := by
  apply BitVec.eq_of_toNat_eq
  have hx := x.isLt
  have hy := y.isLt
  have hxy : x.toNat * y.toNat < 2 ^ 128 :=
    Nat.lt_of_lt_of_eq (Nat.mul_lt_mul_of_lt_of_lt hx hy) (Nat.pow_add 2 64 64).symm
  rw [mulHU, BitVec.toNat_ofNat, BitVec.extractLsb'_toNat, BitVec.toNat_mul, BitVec.toNat_setWidth,
    BitVec.toNat_setWidth,
    Nat.mod_eq_of_lt (a := x.toNat) (by omega), Nat.mod_eq_of_lt (a := y.toNat) (by omega), Nat.mod_eq_of_lt hxy,
    Nat.shiftRight_eq_div_pow]

theorem sdiv_eq_tdiv (x y : Word) : x.sdiv y = BitVec.ofInt 64 (x.toInt.tdiv y.toInt) := by
  rw [← BitVec.toInt_inj, BitVec.toInt_sdiv, BitVec.toInt_ofInt]

theorem srem_eq_tmod (x y : Word) : x.srem y = BitVec.ofInt 64 (x.toInt.tmod y.toInt) := by
  rw [← BitVec.toInt_srem, BitVec.ofInt_toInt]

theorem udiv_eq_ofNat (x y : Word) : x / y = BitVec.ofNat 64 (x.toNat / y.toNat) := by
  rw [← BitVec.toNat_udiv, BitVec.ofNat_toNat, BitVec.setWidth_eq]

theorem umod_eq_ofNat (x y : Word) : x % y = BitVec.ofNat 64 (x.toNat % y.toNat) := by
  rw [← BitVec.toNat_umod, BitVec.ofNat_toNat, BitVec.setWidth_eq]

/-- What CLZ counts: zeros down from bit n − 1, then a one. -/
theorem lead0_spec {w : Nat} (x : BitVec w) (n : Nat) : lead0 x n ≤ n ∧
    (∀ i, i < lead0 x n → x.getLsbD (n - 1 - i) = false) ∧
    (lead0 x n < n → x.getLsbD (n - 1 - lead0 x n) = true) := by
  induction n with
  | zero => exact ⟨Nat.le_refl _, fun i hi => absurd hi (Nat.not_lt_zero i), fun h => absurd h (Nat.lt_irrefl _)⟩
  | succ n ih =>
    obtain ⟨hle, hz, ho⟩ := ih
    rw [lead0]
    cases hx : x.getLsbD n with
    | true => exact ⟨Nat.zero_le _, fun i hi => absurd hi (Nat.not_lt_zero i), fun _ => hx⟩
    | false =>
      refine ⟨Nat.succ_le_succ hle, fun i hi => ?_, fun h => ?_⟩
      · cases i with
        | zero => exact hx
        | succ i => exact (show n + 1 - 1 - (i + 1) = n - 1 - i by omega) ▸ hz i (Nat.lt_of_succ_lt_succ hi)
      · exact (show n + 1 - 1 - (lead0 x n + 1) = n - 1 - lead0 x n by omega) ▸ ho (Nat.lt_of_succ_lt_succ h)

/-- What CTZ counts: zeros up from bit `i`, then a one. -/
theorem trail0_spec {w : Nat} (x : BitVec w) (i n : Nat) : trail0 x i n ≤ n ∧
    (∀ j, j < trail0 x i n → x.getLsbD (i + j) = false) ∧
    (trail0 x i n < n → x.getLsbD (i + trail0 x i n) = true) := by
  induction n generalizing i with
  | zero => exact ⟨Nat.le_refl _, fun i hi => absurd hi (Nat.not_lt_zero i), fun h => absurd h (Nat.lt_irrefl _)⟩
  | succ n ih =>
    obtain ⟨hle, hz, ho⟩ := ih (i + 1)
    rw [trail0]
    cases hx : x.getLsbD i with
    | true => exact ⟨Nat.zero_le _, fun i hi => absurd hi (Nat.not_lt_zero i), fun _ => hx⟩
    | false =>
      refine ⟨Nat.succ_le_succ hle, fun j hj => ?_, fun h => ?_⟩
      · cases j with
        | zero => exact hx
        | succ j => exact (show i + (j + 1) = i + 1 + j by omega) ▸ hz j (Nat.lt_of_succ_lt_succ hj)
      · exact (show i + (trail0 x (i + 1) n + 1) = i + 1 + trail0 x (i + 1) n by omega) ▸ ho (Nat.lt_of_succ_lt_succ h)

theorem branchTo_eq {w : Nat} (c : CoreRegs) (off : BitVec w) : branchTo c off = c.pc + off.signExtend 52 * 4 := by
  rw [branchTo, BitVec.shiftLeft_eq_mul_twoPow]
  rfl

/-! ### What the instructions leave -/

section
variable {t : Nat} {s : State} (h : Runs t s)
include h

/-- An instruction that leaves one result in gd. -/
theorem toG_value (d : Nat) (f : CoreRegs → Word) {v : Word} (hv : f (s.core t) = v) :
    toG t d f s = s.modCore t fun c => { c.setG d v with pc := c.pc + 4 } := by
  rw [setG_runs h, hv]

theorem branchIf_runs (a b : Nat) (off : BitVec 14) (f : Word → Word → Bool) (p : Prop) [Decidable p]
    (hp : f ((s.core t).gr a) ((s.core t).gr b) = decide p) :
    branchIf t a b off f s = s.modCore t fun c =>
      { c with pc := if p then (s.core t).pc + off.signExtend 52 * 4 else (s.core t).pc + 4 } := by
  refine (runInstr_runs h false _).trans (modCore_congr ?_)
  rw [hp, branchTo_eq, next_inactive h.2.2]
  by_cases hq : p <;> simp [hq]

end

/-- Settles O10: each instruction writes one value to gd, and that value is the one of R85. -/
theorem scalarRegisterInstructionResults : Obligations.ScalarRegisterInstructionResults := by
  unfold Obligations.ScalarRegisterInstructionResults
  intro t d a b s h x y n r
  have out (f : CoreRegs → Word) {v : Word} (hv : f (s.core t) = v) : Host.Outcome.next (toG t d f s) = r v :=
    congrArg Host.Outcome.next (toG_value h d f hv)
  have hn : shamt y = n := shamt_eq_mod y
  obtain ⟨hl, hlz, hlo⟩ := lead0_spec x 64
  obtain ⟨ht, htz, hto⟩ := trail0_spec x 0 64
  refine ⟨out _ rfl, out _ rfl, out _ rfl, out _ rfl, out _ rfl, ?_, ?_, ?_, ?_, ?_, out _ rfl, out _ rfl, out _ rfl,
    out _ rfl, out _ rfl, ?_, ?_, ?_, ?_, ?_, ?_, ?_, ?_, ?_⟩
  · exact out _ (congrArg (x <<< ·) hn)
  · exact out _ (congrArg (x >>> ·) hn)
  · exact out _ (congrArg (x.sshiftRight ·) hn)
  · exact out _ (b2w_decide _)
  · exact out _ (b2w_decide _)
  · exact out _ (mulHS_eq_extract x y)
  · exact out _ (mulHU_eq_extract x y)
  · exact out _ (congrArg (ite (y = 0) _) (sdiv_eq_tdiv x y))
  · exact out _ (congrArg (ite (y = 0) _) (udiv_eq_ofNat x y))
  · exact out _ (congrArg (ite (y = 0) x) (srem_eq_tmod x y))
  · exact out _ (congrArg (ite (y = 0) x) (umod_eq_ofNat x y))
  · exact out _ (congrArg (BitVec.ofNat 64) (ones_eq_length x 64))
  · exact ⟨_, out _ rfl, hl, hlz, hlo⟩
  · simp only [Nat.zero_add] at htz hto
    exact ⟨_, out _ rfl, ht, htz, hto⟩

/-! ### The immediate forms (R85, R94) -/

theorem shiftI_runs {t : Nat} {s : State} (h : Runs t s) (d a : Nat) (imm : BitVec 14) (f : Word → Nat → Word)
    (hi : imm.toNat < 64) :
    shiftI t d a imm f s = s.modCore t fun c => { c.setG d (f ((s.core t).gr a) imm.toNat) with pc := c.pc + 4 } := by
  have h6 : fld imm 13 6 = 0 := by rw [fld]; omega
  have h0 : fld imm 5 0 = imm.toNat := by rw [fld]; omega
  refine (runInstr_runs h true _).trans ((if_neg (not_not_intro h6)).trans ?_)
  rw [h0]
  exact (modCore_next h.2.2 (fun c => setG_dsp c d _) fun c => setG_pc c d _).trans (modCore_congr rfl)

theorem shiftI_illegal {t : Nat} {s : State} (h : Runs t s) (d a : Nat) (imm : BitVec 14) (f : Word → Nat → Word)
    (hi : 64 ≤ imm.toNat) : shiftI t d a imm f s = takeException t 0x03 0 s := by
  have h6 : fld imm 13 6 ≠ 0 := by rw [fld]; omega
  exact (runInstr_runs h true _).trans (if_pos h6)

/-- Settles O11: the immediate forms write one value as well; a shift amount of 64 or more is no legal encoding. -/
theorem immediateInstructionResults : Obligations.ImmediateInstructionResults := by
  unfold Obligations.ImmediateInstructionResults
  intro t d a imm s h x i z r
  have out (f : CoreRegs → Word) {v : Word} (hv : f (s.core t) = v) : Host.Outcome.next (toG t d f s) = r v :=
    congrArg Host.Outcome.next (toG_value h d f hv)
  refine ⟨out _ rfl, out _ rfl, out _ rfl, out _ rfl, out _ (b2w_decide _), out _ (b2w_decide _), fun hi => ?_,
    fun hi => ?_, fun u => out _ ?_, fun zx w hl => congrArg Host.Outcome.next ((runLong_runs hl _).trans ?_)⟩
  · have shift (f : Word → Nat → Word) : Host.Outcome.next (shiftI t d a imm f s) = r (f x imm.toNat) :=
      congrArg Host.Outcome.next (shiftI_runs h d a imm f hi)
    exact ⟨shift _, shift _, shift _⟩
  · have shift (f : Word → Nat → Word) : (.next (shiftI t d a imm f s) : Ans) = .next (takeException t 0x03 0 s) :=
      congrArg Host.Outcome.next (shiftI_illegal h d a imm f hi)
    exact ⟨shift _, shift _, shift _⟩
  · rw [BitVec.shiftLeft_eq_mul_twoPow]
    rfl
  · apply modCore_congr
    rw [next_inactive (by rw [setG_dsp]; exact h.2.2), setG_pc]
    rfl

/-! ### Branches and jumps (R86) -/

/-- Settles O12, by `branchIf_runs` for the conditions; a jump changes the core alone. -/
theorem branchesAndJumpsMoveThePc : Obligations.BranchesAndJumpsMoveThePc := by
  unfold Obligations.BranchesAndJumpsMoveThePc
  intro t d a b off far s h x y pc link br
  have branch (f : Word → Word → Bool) (p : Prop) [Decidable p] (hp : f x y = decide p) :
      Host.Outcome.next (branchIf t a b off f s) = br p := congrArg Host.Outcome.next (branchIf_runs h a b off f p hp)
  refine ⟨branch _ _ rfl, branch _ _ ?_, branch _ _ rfl, branch _ _ ?_, branch _ _ rfl, branch _ _ ?_, ?_, ?_, ?_⟩
  · exact decide_not.symm
  · rw [BitVec.slt, ← decide_not, decide_eq_decide]
    exact Int.not_lt
  · rw [BitVec.ult, ← decide_not, decide_eq_decide]
    exact Nat.not_lt
  · refine congrArg Host.Outcome.next ((runInstr_runs h false _).trans (modCore_congr ?_))
    rw [branchTo_eq]
  · refine congrArg Host.Outcome.next ((runInstr_runs h false _).trans (modCore_congr ?_))
    rw [branchTo_eq]
  · exact congrArg Host.Outcome.next ((runInstr_runs h false _).trans (modCore_congr rfl))

/-! ### The hardwired registers (R78) -/

/-- Settles O13, by what each register file reads after a write. -/
theorem hardwiredRegisters : Obligations.HardwiredRegisters := by
  unfold Obligations.HardwiredRegisters
  refine ⟨fun c => ⟨rfl, rfl⟩, fun c i j v => ?_, fun c i j v => ?_, fun c i j v => ?_, fun t a b s h => ?_⟩
  · rw [gr_setG]
    simp only [Fin.ext_iff, Fin.val_zero]
  · rw [pr_setP]
    simp only [Fin.ext_iff, Fin.val_zero]
  · rw [vr_setV]
    simp only [Fin.ext_iff]
  · exact congrArg Host.Outcome.next (toG_value h 0 _ rfl)

end Sys2Proof.Proofs
end

section
/-! PROOFS. The status registers (03_tile_isa.md R79, R80, R98), and the fetch of an illegal long form. -/

namespace Sys2Proof.Proofs

open Sys2Proof Sys2Proof.Machine Sys2Proof.Laws

/-! ### A long form at the end of the store -/

/-- Tile 0, in K mode and of partition 0, which holds it, stands at the last parcel of its store; its instruction cache
holds that line. -/
def atLastParcel : State :=
  let s := ((State.reset.setReg .DEV_TILEMAP_LO 1).setReg .PART_P_CTL (place 63 63 1) 0).setReg .PART_P_TILE_LO 1 0
  s.modTile 0 fun x => { x with
    run := .running, icache := [0xFE00002FFFFC / 64], core := { x.core with pc := 0xFE00002FFFFC, modeM := false } }

/-- The fetch of the second parcel, past the store, comes before the decoding, and raises INSTR_FAULT (R77, R102). -/
theorem illegalLong_atLastParcel : exec (.illegalOpcode 0 0xFFFFFFFF 0) atLastParcel =
    .next (takeException 0 0x02 0xFE0000300000 atLastParcel) := by rfl

theorem ecause_takeException {t : Nat} {s : State} (h : (s.core t).modeM = false) (cause addr : Nat) :
    ((takeException t cause addr s).core t).ecause = BitVec.ofNat 8 cause := by
  rw [takeException_kmode h]
  rfl

/-- Refutes O21: an illegal first parcel with OP 0x3F is that of a long form, and the statement asks only for the fetch
of the first parcel. Where the second lies outside the store its fetch raises INSTR_FAULT, and ILLEGAL is not
reached. -/
theorem not_exceptionsAndFetchCauses : ¬ Obligations.ExceptionsAndFetchCauses := by
  unfold Obligations.ExceptionsAndFetchCauses
  intro h
  obtain ⟨-, hillegal, -⟩ := h.2 0 0 0 0 0xFFFFFFFF 0 atLastParcel
  have hruns : Runs 0 atLastParcel := ⟨by decide, ⟨by decide, by decide, by decide⟩, by decide⟩
  have heq := (hillegal hruns (by decide)).symm.trans illegalLong_atLastParcel
  injection heq with heq
  have hk : (atLastParcel.core 0).modeM = false := by decide
  have hcause := congrArg (fun u => (u.core 0).ecause) heq
  simp only [ecause_takeException hk] at hcause
  exact absurd hcause (by decide)

/-! ### TSTAT -/

/-- A field placed below the lowest bit of a word adds its value. -/
theorem toNat_or_place {v : Word} {k : Nat} (hd : 2 ^ k ∣ v.toNat) {hi lo x : Nat} (hx : x < 2 ^ (hi + 1 - lo))
    (hlo : lo ≤ hi) (hk : hi < k) (h64 : hi < 64) : (v ||| place hi lo x).toNat = v.toNat + x * 2 ^ lo := by
  have hlt : x * 2 ^ lo < 2 ^ (hi + 1) := by
    have h := Nat.mul_lt_mul_of_pos_right hx (Nat.two_pow_pos lo)
    rwa [← Nat.pow_add, Nat.sub_add_cancel (Nat.le_succ_of_le hlo)] at h
  obtain ⟨m, hm⟩ := hd
  have h1 : x * 2 ^ lo < 2 ^ 64 := Nat.lt_of_lt_of_le hlt (Nat.pow_le_pow_right (by omega) (by omega))
  have h2 : x * 2 ^ lo < 2 ^ k := Nat.lt_of_lt_of_le hlt (Nat.pow_le_pow_right (by omega) hk)
  rw [BitVec.toNat_or, place, Nat.mod_eq_of_lt hx, BitVec.toNat_ofNat, Nat.mod_eq_of_lt h1, hm,
    Nat.two_pow_add_eq_or_of_lt h2]

theorem bool_toNat (b : Bool) (n : Nat) : b.toNat * n = if b then n else 0 := by
  cases b <;> simp

/-- The fields of TSTAT. -/
theorem toNat_tstat (c : CoreRegs) : c.tstat.toNat = c.tagErr.toNat * 2 ^ 40 + c.tagBusy.toNat * 2 ^ 32 +
    c.part.toNat * 2 ^ 16 + (if c.pm then 2 ^ 8 else 0) + (if c.modeM then 1 else 0) := by
  have he := c.tagErr.isLt
  have hb := c.tagBusy.isLt
  have hp := c.part.isLt
  have hm := c.pm.toNat_lt
  have hk := c.modeM.toNat_lt
  have h0 : (place 47 40 c.tagErr.toNat).toNat = c.tagErr.toNat * 2 ^ 40 := by
    have h := toNat_or_place (v := 0#64) (k := 64) ⟨0, rfl⟩ (hi := 47) (lo := 40) he (by omega) (by omega) (by omega)
    rwa [BitVec.zero_or, BitVec.toNat_ofNat, Nat.zero_mod, Nat.zero_add] at h
  have h1 := toNat_or_place (v := place 47 40 c.tagErr.toNat) (k := 40) (by omega) (hi := 39) (lo := 32) hb (by omega)
    (by omega) (by omega)
  rw [← bool_toNat c.pm (2 ^ 8), ← bool_toNat c.modeM 1, CoreRegs.tstat]
  generalize place 47 40 c.tagErr.toNat ||| place 39 32 c.tagBusy.toNat = v at *
  have h2 := toNat_or_place (v := v) (k := 32) (by omega) (hi := 19) (lo := 16) hp (by omega) (by omega) (by omega)
  generalize v ||| place 19 16 c.part.toNat = w at *
  have h3 := toNat_or_place (v := w) (k := 16) (by omega) (hi := 8) (lo := 8) hm (by omega) (by omega) (by omega)
  generalize w ||| place 8 8 c.pm.toNat = x at *
  have h4 := toNat_or_place (v := x) (k := 8) (by omega) (hi := 0) (lo := 0) hk (by omega) (by omega) (by omega)
  omega

/-! ### MFS and MTS -/

section
variable {t : Nat} {s : State} {i : Nat} {a : StatusAccess} (ha : statusAccess i = some a)
include ha

/-- A status register that both modes may access. -/
theorem withStatus_free {write : Bool} (hr : a = .rw ∨ (a = .ro ∧ write = false)) (f : State → State) :
    withStatus t i write f s = f s := by
  unfold withStatus
  rw [ha]
  rcases hr with rfl | ⟨rfl, rfl⟩
  · cases write <;> rfl
  · rfl

/-- A status register that only M mode may access. -/
theorem withStatus_monitor {write : Bool} (hr : a = .mrw ∨ (a = .mro ∧ write = false)) (f : State → State) :
    withStatus t i write f s = if (s.core t).modeM then f s else takeException t 0x04 0 s := by
  unfold withStatus
  rw [ha]
  rcases hr with rfl | ⟨rfl, rfl⟩
  · cases write <;> cases (s.core t).modeM <;> rfl
  · cases (s.core t).modeM <;> rfl

/-- A write to a status register that none may write. -/
theorem withStatus_readOnly (hr : a = .ro ∨ a = .mro) (f : State → State) :
    withStatus t i true f s = takeException t 0x03 0 s := by
  unfold withStatus
  rw [ha]
  rcases hr with rfl | rfl <;> rfl

end

theorem withStatus_undefined {t i : Nat} {s : State} (ha : statusAccess i = none) (write : Bool) (f : State → State) :
    withStatus t i write f s = takeException t 0x03 0 s := by
  unfold withStatus
  rw [ha]
  rfl

theorem statusAccess_undefined {i : Nat} (h : i = 6 ∨ i = 7 ∨ 0x00E ≤ i) : statusAccess i = none := by
  unfold statusAccess
  repeat rw [if_neg (by omega)]

theorem statusAccess_readOnly {i : Nat} (h : 0x009 ≤ i ∧ i ≤ 0x00D) : statusAccess i = some .ro := by
  unfold statusAccess
  rw [if_neg (by omega), if_neg (by omega), if_neg (by omega), if_pos h]

theorem ofNat_fld_eq_setWidth (x : Word) : BitVec.ofNat 8 (fld x 47 40) = (x >>> 40).setWidth 8 := by
  apply BitVec.eq_of_toNat_eq
  rw [fld, BitVec.toNat_ofNat, BitVec.toNat_setWidth, BitVec.toNat_ushiftRight, Nat.shiftRight_eq_div_pow]
  omega

theorem statusWrite_dsp (c : CoreRegs) (i : Nat) (v : Word) : (c.statusWrite i v).dsp = c.dsp := by
  unfold CoreRegs.statusWrite
  repeat' split
  all_goals rfl

theorem statusWrite_pc (c : CoreRegs) (i : Nat) (v : Word) : (c.statusWrite i v).pc = c.pc := by
  unfold CoreRegs.statusWrite
  repeat' split
  all_goals rfl

section
variable {t : Fin 128} {d : Fin 64} {s : State} (h : Runs t s)
include h

/-- MFS of an index that the mode may read, but for CYC. -/
theorem statusRead_runs {i : BitVec 14} (hi : i.toNat ≠ 0x00D) {v : Word} (hv : statusRead t i.toNat s = v) :
    (let s' := s.modCore t fun c => (c.setG d (statusRead t i.toNat s)).next 4
     if i.toNat = 0x00D then s'.used else s') = s.modCore t fun c => { c.setG d v with pc := c.pc + 4 } := by
  rw [← hv]
  exact (if_neg hi).trans (modCore_next h.2.2 (fun c => setG_dsp c d _) fun c => setG_pc c d _)

theorem mfs_free {i : BitVec 14} {a : StatusAccess} (ha : statusAccess i.toNat = some a) (hr : a = .rw ∨ a = .ro)
    (hi : i.toNat ≠ 0x00D) {v : Word} (hv : statusRead t i.toNat s = v) :
    exec (.mfs t d i) s = .next (s.modCore t fun c => { c.setG d v with pc := c.pc + 4 }) :=
  congrArg Host.Outcome.next ((runInstr_runs h false _).trans
    ((withStatus_free ha (hr.imp_right fun e => ⟨e, rfl⟩) _).trans (statusRead_runs h hi hv)))

theorem mfs_monitor {i : BitVec 14} {a : StatusAccess} (ha : statusAccess i.toNat = some a) (hr : a = .mrw ∨ a = .mro)
    (hi : i.toNat ≠ 0x00D) {v : Word} (hv : statusRead t i.toNat s = v) :
    exec (.mfs t d i) s = (if (s.core t).modeM then
      .next (s.modCore t fun c => { c.setG d v with pc := c.pc + 4 }) else .next (takeException t 0x04 0 s)) := by
  refine (congrArg Host.Outcome.next ((runInstr_runs h false _).trans
    (withStatus_monitor ha (hr.imp_right fun e => ⟨e, rfl⟩) _))).trans ?_
  rw [statusRead_runs h hi hv, apply_ite Host.Outcome.next]

/-- What MTS leaves where it writes. -/
theorem statusWrite_runs {i : Nat} {g : CoreRegs → CoreRegs}
    (hg : (s.core t).statusWrite i ((s.core t).gr d) = g (s.core t)) :
    (s.modCore t fun c => (c.statusWrite i (c.gr d)).next 4) = s.modCore t fun c => { g c with pc := c.pc + 4 } :=
  (modCore_next h.2.2 (fun c => statusWrite_dsp c i _) fun c => statusWrite_pc c i _).trans (modCore_congr (by rw [hg]))

theorem mts_free {i : BitVec 14} (ha : statusAccess i.toNat = some .rw) {g : CoreRegs → CoreRegs}
    (hg : (s.core t).statusWrite i.toNat ((s.core t).gr d) = g (s.core t)) :
    exec (.mts t d i) s = .next (s.modCore t fun c => { g c with pc := c.pc + 4 }) :=
  congrArg Host.Outcome.next ((runInstr_runs h false _).trans
    ((withStatus_free ha (.inl rfl) _).trans (statusWrite_runs h hg)))

theorem mts_monitor {i : BitVec 14} (ha : statusAccess i.toNat = some .mrw) {g : CoreRegs → CoreRegs}
    (hg : (s.core t).statusWrite i.toNat ((s.core t).gr d) = g (s.core t)) :
    exec (.mts t d i) s = (if (s.core t).modeM then .next (s.modCore t fun c => { g c with pc := c.pc + 4 })
      else .next (takeException t 0x04 0 s)) := by
  refine (congrArg Host.Outcome.next ((runInstr_runs h false _).trans (withStatus_monitor ha (.inl rfl) _))).trans ?_
  rw [statusWrite_runs h hg, apply_ite Host.Outcome.next]

theorem mts_readOnly {i : BitVec 14} {a : StatusAccess} (ha : statusAccess i.toNat = some a) (hr : a = .ro ∨ a = .mro) :
    exec (.mts t d i) s = .next (takeException t 0x03 0 s) :=
  congrArg Host.Outcome.next ((runInstr_runs h false _).trans (withStatus_readOnly ha hr _))

end

/-- Settles O23, by the access that the table gives each index: free, of M mode only, read-only or undefined. -/
theorem statusRegisterMoves : Obligations.StatusRegisterMoves := by
  unfold Obligations.StatusRegisterMoves
  intro t d s h c r w m priv ill x
  refine ⟨mfs_free h (a := .rw) rfl (.inl rfl) (by decide) rfl, toNat_tstat c,
    mfs_free h (a := .rw) rfl (.inl rfl) (by decide) rfl, mfs_free h (a := .ro) rfl (.inr rfl) (by decide) rfl, mfs_free h (a := .ro) rfl (.inr rfl) (by decide) rfl,
    mfs_free h (a := .ro) rfl (.inr rfl) (by decide) rfl, mfs_free h (a := .ro) rfl (.inr rfl) (by decide) rfl, ?_,
    mfs_monitor h (a := .mrw) rfl (.inl rfl) (by decide) rfl, mfs_monitor h (a := .mrw) rfl (.inl rfl) (by decide) rfl,
    mfs_monitor h (a := .mrw) rfl (.inl rfl) (by decide) rfl, mfs_monitor h (a := .mro) rfl (.inr rfl) (by decide) rfl,
    mfs_monitor h (a := .mrw) rfl (.inl rfl) (by decide) rfl, ?_, mts_free h rfl rfl, mts_monitor h rfl rfl,
    mts_monitor h rfl rfl, mts_monitor h rfl rfl, mts_monitor h rfl rfl, fun i hi => ?_, fun i hi => ?_⟩
  · refine congrArg Host.Outcome.next ((runInstr_runs h false _).trans ?_)
    exact congrArg State.used (modCore_next h.2.2 (fun c => setG_dsp c d _) fun c => setG_pc c d _)
  · refine mts_free h rfl ?_
    rw [← ofNat_fld_eq_setWidth, ← bit_eq_getLsbD]
    rfl
  · have hu := statusAccess_undefined hi
    exact ⟨congrArg Host.Outcome.next ((runInstr_runs h false _).trans (withStatus_undefined hu _ _)),
      congrArg Host.Outcome.next ((runInstr_runs h false _).trans (withStatus_undefined hu _ _))⟩
  · rcases hi with ⟨h4, -⟩ | hro
    · exact mts_readOnly h (a := .mro) (by rw [h4]; rfl) (.inr rfl)
    · exact mts_readOnly h (statusAccess_readOnly hro) (.inl rfl)

end Sys2Proof.Proofs
end

section
/-! PROOFS. Matrix operations from the issue in the core to the end of the ramp down (03_tile_isa.md R94 to R97;
05_matrix_arrays.md R140 to R144, R160 to R165). -/

namespace Sys2Proof.Proofs

open Sys2Proof Sys2Proof.Machine Sys2Proof.Laws

/-! ### Issue -/

section
variable {t : Fin 128} {s : State} (h : RunsLong t s) {u : Nat} {tag : Fin 8} {ok : State → Bool}
  {mk : CoreRegs → MatOp}
include h

theorem issueOp_illegal (hok : ok s = false) : issueOp t u tag ok mk s = takeException t 0x03 0 s :=
  (runLong_runs h _).trans (if_pos (by rw [hok]; rfl))

/-- What keeps an issue waiting (R96, R165). -/
theorem issueOp_stalls (hok : ok s = true) (hf : (decide (((s.tile t).munit u).queue.length < 4) &&
    ((s.tile t).munit u).gangPend.isEmpty && !(s.core t).tagBusy.getLsbD tag) = false) :
    issueOp t u tag ok mk s = s := by
  refine (runLong_runs h _).trans ((if_neg (by rw [hok]; decide)).trans (if_pos ?_))
  rw [Bool.and_eq_false_iff, Bool.and_eq_false_iff, decide_eq_false_iff_not, Nat.not_lt, Bool.not_eq_false'] at hf
  rw [Bool.or_eq_true, Bool.or_eq_true, decide_eq_true_iff, Bool.not_eq_true']
  exact hf

theorem issueOp_queues (hok : ok s = true) (hf : (decide (((s.tile t).munit u).queue.length < 4) &&
    ((s.tile t).munit u).gangPend.isEmpty && !(s.core t).tagBusy.getLsbD tag) = true) {o : MatOp} {y : MUnit}
    (ho : ((s.tile t).munit u).take (mk (s.core t)) = (o, y)) :
    issueOp t u tag ok mk s = s.modTile t fun z =>
      let z := z.setUnit u { y with queue := y.queue ++ [o] }
      { z with core := { z.core with tagBusy := z.core.tagBusy ||| (1#8 <<< tag.val), pc := z.core.pc + 8 } } := by
  rw [Bool.and_eq_true, Bool.and_eq_true, decide_eq_true_iff, Bool.not_eq_true'] at hf
  obtain ⟨⟨hq, hg⟩, hb⟩ := hf
  refine (runLong_runs h _).trans ((if_neg (by rw [hok]; decide)).trans ((if_neg ?_).trans ?_))
  · rw [decide_eq_false (Nat.not_le.mpr hq), hg, hb]
    decide
  · have htake : ((s.tile t).munit u).enqueue (mk (s.core t)) = { y with queue := y.queue ++ [o] } := by
      rw [MUnit.enqueue, ho]
    refine congrArg (s.setTile t) ?_
    dsimp only
    rw [show (s.tile t).core = s.core t from rfl, htake]
    exact congrArg (fun k => { (s.tile t).setUnit u { y with queue := y.queue ++ [o] } with core := k })
      (next_inactive (c := { s.core t with tagBusy := (s.core t).tagBusy ||| (1#8 <<< tag.val) }) h.1.2.2)

end

/-- How a load takes its planes (R140). -/
theorem take_load (m : MUnit) {o : MatOp} (h : o.str = false) : m.take o =
    ({ o with plane := if o.fmt.wf = 2 then 0 else m.nextPlane },
      { m with curPlane := if o.fmt.wf = 2 then 0 else m.nextPlane
               nextPlane := if o.fmt.wf = 2 then 0 else 1 - if o.fmt.wf = 2 then 0 else m.nextPlane
               fmt := o.fmt }) := by
  rw [MUnit.take, h]
  by_cases hw : o.fmt.wf = 2 <;> simp only [hw, if_true, if_false] <;> rfl

/-- The loads of a BSA (R95). -/
theorem loadOk_bsa {u : Nat} (hu : u < 4) (k n wb wf : Nat) :
    loadOk u k n wb wf = decide (wf < 2 ∨ wf = 2 ∧ wb = 15 ∨ wf = 3 ∧ wb = 0) := by
  rw [loadOk, if_pos hu, Bool.eq_iff_iff]
  simp only [Bool.or_eq_true, Bool.and_eq_true, decide_eq_true_iff, beq_iff_eq, or_assoc]

/-- The loads of the OPE with WB 0. -/
theorem loadOk_ope (k n wf : Nat) : loadOk 4 k n 0 wf = decide (4 ≤ wf ∧ wf ≤ 13 ∧ k ≤ 64 ∧ n ≤ 64) := by
  rw [loadOk, if_neg (Nat.lt_irrefl 4), Bool.eq_iff_iff]
  simp only [Bool.and_eq_true, decide_eq_true_iff, beq_self_eq_true, and_true, and_assoc]

/-- The streams of a BSA (R95, R143). -/
theorem streamOk_bsa {u : Nat} (hu : u < 4) (f : Fmt) (af out : Nat) : streamOk u f af out = decide (out < 2 ∧
    (f.wf < 2 ∧ (af = 0 ∨ af = 0xE) ∨ f.wf = 2 ∧ af = 2 ∨ f.wf = 3 ∧ af = 3)) := by
  rw [streamOk, if_pos hu, Bool.eq_iff_iff]
  simp only [Bool.or_eq_true, Bool.and_eq_true, decide_eq_true_iff, beq_iff_eq, or_assoc]

theorem streamOk_ope (f : Fmt) (af out : Nat) :
    streamOk 4 f af out = decide (out < 2 ∧ 4 ≤ af ∧ af ≤ 13 ∧ 4 ≤ f.wf ∧ f.wf ≤ 13) := by
  rw [streamOk, if_neg (Nat.lt_irrefl 4), Bool.eq_iff_iff]
  simp only [Bool.and_eq_true, decide_eq_true_iff, and_assoc]

theorem unitOk_ope (t arr : Nat) : unitOk t arr true = decide (arr = 0 ∧ t % 8 = 0) := by
  rw [unitOk, isMill, Bool.eq_iff_iff]
  simp only [Bool.or_eq_true, Bool.and_eq_true, decide_eq_true_iff, beq_iff_eq, Bool.not_true, Bool.false_eq_true,
    false_or]
  omega

/-- Settles O30: an issue is refused, stalls or queues; what it queues is what the unit takes. -/
theorem matrixIssueQueuesTheOperation : Obligations.MatrixIssueQueuesTheOperation := by
  unfold Obligations.MatrixIssueQueuesTheOperation
  refine ⟨?issue, ?loads, ?streams, ?units⟩
  case issue =>
    intro t ga gb gs arr ope acc tag k n m wb wf af out s h c u x free issued fmt plane load stream okL okS
    refine ⟨fun hl => congrArg Host.Outcome.next (issueOp_illegal h hl),
      fun hs => congrArg Host.Outcome.next (issueOp_illegal h hs),
      fun hf => ⟨fun hl => congrArg Host.Outcome.next (issueOp_stalls h hl hf),
        fun hs => congrArg Host.Outcome.next (issueOp_stalls h hs hf)⟩,
      fun hf hl => congrArg Host.Outcome.next (issueOp_queues h hl hf ?_),
      fun hf hs => congrArg Host.Outcome.next (issueOp_queues h hs hf rfl)⟩
    refine (take_load _ rfl).trans ?_
    have hwf : wf.toNat = 2 ↔ wf = 2 := BitVec.toNat_inj (y := 2#4)
    simp only [hwf]
    rfl
  case loads =>
    intro k n _ _ u hu
    refine ⟨fun wb _ => ?_, fun wf => loadOk_ope k n wf⟩
    simp only [loadOk_bsa hu, decide_eq_true_iff, decide_eq_false_iff_not, true_and]
    exact ⟨by omega, by omega, by omega, by omega, fun wf hwf => by omega⟩
  case streams => exact fun f af out => ⟨fun u hu => streamOk_bsa hu f af out, streamOk_ope f af out⟩
  case units => exact fun t arr => ⟨rfl, unitOk_ope t arr⟩

end Sys2Proof.Proofs
end

section
/-! PROOFS. The unit's states: starts, ramps, KEEP and gang operations (05_matrix_arrays.md R141, R144, R160 to
R165). -/

namespace Sys2Proof.Proofs

open Sys2Proof Sys2Proof.Machine Sys2Proof.Laws

/-! ### The governor and the unit's changes -/

/-- When the governor withholds a tile's issue (R162). -/
theorem trimmed_iff (t : Nat) (s : State) : trimmed t s = true ↔
    s.pwr.hist ≠ [] ∧ s.rf .PWR_GOV_STAT 6 0 = 0 ∧ (s.radio = true →
      match (s.tile t).cx with
      | some c => s.cxPart c ≠ 0
      | none => s.holdsTile 0 t = false) := by
  unfold trimmed
  cases (s.tile t).cx <;> cases s.radio <;> simp [and_assoc]

/-- The governor looks at the tile's context, the registers and the power state. -/
theorem trimmed_modUnit (t u : Nat) (f : MUnit → MUnit) (s : State) : trimmed t (modUnit t u f s) = trimmed t s := by
  have hcx : ((modUnit t u f s).tile t).cx = (s.tile t).cx := by rw [modUnit, tile_modTile_same]; rfl
  unfold trimmed
  rw [hcx]
  rfl

theorem modUnit_congr {t u : Nat} {s : State} {f g : MUnit → MUnit}
    (h : f ((s.tile t).munit u) = g ((s.tile t).munit u)) :
    modUnit t u f s = modUnit t u g s := congrArg (fun m => s.setTile t ((s.tile t).setUnit u m)) h

@[simp] theorem munit_modUnit_same (t u : Nat) (f : MUnit → MUnit) (s : State) :
    ((modUnit t u f s).tile t).munit u = f ((s.tile t).munit u) := by
  rw [modUnit, tile_modTile_same, munit_setUnit_same]

@[simp] theorem core_modUnit (t u : Nat) (f : MUnit → MUnit) (s : State) : (modUnit t u f s).core t = s.core t := by
  rw [State.core, modUnit, tile_modTile_same]
  rfl

theorem canStart_nil (o : MatOp) : o.canStart [] = true := by
  unfold MatOp.canStart
  split <;> rfl

theorem nextStart_single {o : MatOp} (h : o.running = false) : nextStart [o] = some 0 := by
  simp [nextStart, List.range_succ, h, canStart_nil]

/-! ### The start of an operation (R141, R144) -/

/-- An operation whose regions are in the store starts. -/
theorem beginOp_inRange {t u i : Nat} {s : State} {o : MatOp} (hq : ((s.tile t).munit u).queue[i]? = some o)
    (hin : o.inRange t = true) : beginOp t u i s = modUnit t u (fun m =>
      { m with st := .active, queue := m.queue.set i { o with running := true } }) s := by
  unfold beginOp
  rw [hq]
  exact if_pos hin

/-- From `s` to `n` the only operation of a unit has left the queue with an error, and nothing beside the tiles has
changed. -/
structure OpFailed (t u g : Nat) (s n : State) : Prop where
  queue  : ((n.tile t).munit u).queue = []
  busy   : (n.core t).tagBusy = (s.core t).tagBusy &&& ~~~ (1#8 <<< g)
  tagErr : (n.core t).tagErr = (s.core t).tagErr ||| (1#8 <<< g)
  rest   : ∃ ts, n = { s with tiles := ts }

theorem finishOp_failed {t u g : Nat} {o : MatOp} {s : State} (hq : ((s.tile t).munit u).queue = [o])
    (htag : o.tag = some g) (dig : Int) : OpFailed t u g s (finishOp t u 0 true dig s) := by
  unfold finishOp
  simp only [hq, htag, List.getElem?_cons_zero]
  constructor
  case rest => exact ⟨_, rfl⟩
  all_goals simp only [State.core, tile_modTile_same]
  case queue => exact (congrArg MUnit.queue (munit_of_setUnit (x := s.tile t) rfl)).trans rfl
  all_goals rfl

theorem emptyPlanes_queue (m : MUnit) (o : MatOp) : (m.emptyPlanes o).queue = m.queue := by
  unfold MUnit.emptyPlanes
  repeat' split
  all_goals rfl

/-- Unit `u` as an operation with a region outside the store leaves it, before its tag frees (R144). -/
def refusedUnit (t u : Nat) (o : MatOp) (s : State) : State :=
  let s := (modUnit t u (fun m => { m with st := .active }) s).flag .TILE_ARR_ERR 3 t u
  if o.str then s else modUnit t u (·.emptyPlanes o) s

theorem tile_flag (s : State) (r : RegName) (b i j t : Nat) : (s.flag r b i j).tile t = s.tile t := rfl

theorem rangeFlag_keeps (t u : Nat) (s : State) :
    let n := (modUnit t u (fun m => { m with st := .active }) s).flag .TILE_ARR_ERR 3 t u
    ((n.tile t).munit u).queue = ((s.tile t).munit u).queue ∧ n.core t = s.core t ∧
      n.rb .TILE_ARR_ERR 3 t u = true ∧ n.mem = s.mem := by
  refine ⟨?_, ?_, ?_, rfl⟩
  · rw [tile_flag, munit_modUnit_same]
  · exact (congrArg Tile.core (tile_flag ..)).trans (core_modUnit ..)
  · rw [State.rb, State.flag, reg_setReg_same, bit_setBit _ _ _ (by decide)]
    rfl

theorem refusedUnit_keeps (t u : Nat) (o : MatOp) (s : State) :
    (((refusedUnit t u o s).tile t).munit u).queue = ((s.tile t).munit u).queue ∧
      (refusedUnit t u o s).core t = s.core t ∧ (refusedUnit t u o s).rb .TILE_ARR_ERR 3 t u = true ∧
      (refusedUnit t u o s).mem = s.mem := by
  have hn := rangeFlag_keeps t u s
  unfold refusedUnit
  generalize (modUnit t u (fun m => { m with st := .active }) s).flag .TILE_ARR_ERR 3 t u = n at *
  obtain ⟨hqueue, hcore, hrange, hmem⟩ := hn
  cases o.str
  · simp only [Bool.false_eq_true, if_false]
    rw [munit_modUnit_same, emptyPlanes_queue, core_modUnit]
    exact ⟨hqueue, hcore, hrange, hmem⟩
  · exact ⟨hqueue, hcore, hrange, hmem⟩

/-- An operation with a region outside the store leaves the queue at its start, with RANGE and its tag failed. -/
theorem beginOp_outOfRange {t u g : Nat} {s : State} {o : MatOp} (hq : ((s.tile t).munit u).queue = [o])
    (hin : o.inRange t = false) (htag : o.tag = some g) :
    ((beginOp t u 0 s).tile t |>.munit u).queue = [] ∧
      ((beginOp t u 0 s).core t).tagBusy = (s.core t).tagBusy &&& ~~~ (1#8 <<< g) ∧
      ((beginOp t u 0 s).core t).tagErr = (s.core t).tagErr ||| (1#8 <<< g) ∧
      (beginOp t u 0 s).rb .TILE_ARR_ERR 3 t u = true ∧ (beginOp t u 0 s).mem = s.mem := by
  have hbegin : beginOp t u 0 s = finishOp t u 0 true 0 (refusedUnit t u o s) := by
    unfold beginOp
    rw [hq]
    exact if_neg (by rw [hin]; decide)
  obtain ⟨hqueue, hcore, hrange, hmem⟩ := refusedUnit_keeps t u o s
  obtain ⟨hout, hbusy, herr, ts, hrest⟩ := finishOp_failed (hqueue.trans hq) htag 0
  rw [hbegin]
  refine ⟨hout, hcore ▸ hbusy, hcore ▸ herr, ?_, ?_⟩
  · rw [hrest]
    exact hrange
  · rw [hrest]
    exact hmem

/-- What the head of a unit does when it may start. -/
theorem exec_start_ramp {t : Fin 128} {u : Fin 5} {s : State} {o : MatOp} (hq : ((s.tile t).munit u).queue = [o])
    (hrun : o.running = false) (ht : trimmed t s = false)
    (hst : ((s.tile t).munit u).st = .idle ∨ ((s.tile t).munit u).st = .rampDown) :
    exec (.matrixOperationStart t u) s = .next (modUnit t u (fun m => { m with st := .rampUp }) s) := by
  refine congrArg Host.Outcome.next ?_
  dsimp only
  rw [ht, hq, nextStart_single hrun]
  rcases hst with h | h <;> rw [h] <;> rfl

theorem exec_start_begins {t : Fin 128} {u : Fin 5} {s : State} {o : MatOp} (hq : ((s.tile t).munit u).queue = [o])
    (hrun : o.running = false) (ht : trimmed t s = false)
    (hst : ((s.tile t).munit u).st = .active ∨ ((s.tile t).munit u).st = .keep) :
    exec (.matrixOperationStart t u) s = .next (beginOp t u 0 s) := by
  refine congrArg Host.Outcome.next ?_
  dsimp only
  rw [ht, hq, nextStart_single hrun]
  rcases hst with h | h <;> rw [h] <;> rfl

theorem exec_rampUpEnd {t : Fin 128} {u : Fin 5} {s : State} {o : MatOp} (hq : ((s.tile t).munit u).queue = [o])
    (hst : ((s.tile t).munit u).st = .rampUp) :
    exec (.rampUpEnd t u) s = .next (beginNext t u (modUnit t u (fun m => { m with st := .active }) s)) := by
  refine congrArg Host.Outcome.next (if_pos ?_)
  rw [hst, hq]
  rfl

/-- The end of the ramp up starts the operation at the head (R161). -/
theorem rampUpEnd_begins {t : Fin 128} {u : Fin 5} {s : State} {o : MatOp} (hq : ((s.tile t).munit u).queue = [o])
    (hrun : o.running = false) (ht : trimmed t s = false) (hst : ((s.tile t).munit u).st = .rampUp)
    (hin : o.inRange t = true) :
    ∃ v, exec (.rampUpEnd t u) s = .next v ∧
      (v.tile t).munit u = { (s.tile t).munit u with st := .active, queue := [{ o with running := true }] } ∧
      v.mem = s.mem ∧ v.regs = s.regs ∧ v.core t = s.core t := by
  refine ⟨_, exec_rampUpEnd hq hst, ?_⟩
  have hunit := munit_modUnit_same t u (fun m => { m with st := .active }) s
  have htrim := (trimmed_modUnit t u (fun m => { m with st := .active }) s).trans ht
  have hcore := core_modUnit t u (fun m => { m with st := .active }) s
  have hmem : (modUnit t u (fun m => { m with st := .active }) s).mem = s.mem := rfl
  have hregs : (modUnit t u (fun m => { m with st := .active }) s).regs = s.regs := rfl
  generalize modUnit t u (fun m => { m with st := .active }) s = n at *
  have hnq : ((n.tile t).munit u).queue = [o] := (congrArg MUnit.queue hunit).trans hq
  have hbegin : beginNext t u n = beginOp t u 0 n := by
    unfold beginNext
    rw [htrim, hnq, nextStart_single hrun]
    rfl
  rw [hbegin, beginOp_inRange (o := o) (by rw [hnq]; rfl) hin, munit_modUnit_same, core_modUnit, hunit, hq]
  exact ⟨rfl, hmem, hregs, hcore⟩

/-! ### Gang operations (R165) -/

theorem takeWhile_gang {g : Option Nat} {os ls : List MatOp} (hos : ∀ x ∈ os, x.gang = g)
    (hls : ∀ x ∈ ls.head?, x.gang ≠ g) : (os ++ ls).takeWhile (fun x => x.gang == g) = os := by
  rw [List.takeWhile_append_of_pos fun x hx => beq_iff_eq.mpr (hos x hx)]
  cases ls with
  | nil => exact List.append_nil os
  | cons l ls => rw [List.takeWhile_cons_of_neg (by simpa using hls l rfl), List.append_nil]

/-- A gang operation that begins with `o` may start behind the queue (R141). -/
theorem canStart_behind {o : MatOp} {q : List MatOp} (h : q = [] ∨ o.str = false ∧ o.fmt.wf ≠ 2 ∧
    ∀ b ∈ q, b.str = true ∧ b.fmt.wf ≠ 2 ∧ b.plane ≠ o.plane) : o.canStart q = true := by
  rcases h with rfl | ⟨hstr, hwf, hq⟩
  · exact canStart_nil o
  · unfold MatOp.canStart
    rw [hstr]
    refine List.all_eq_true.mpr fun b hb => ?_
    obtain ⟨hb, hbwf, hplane⟩ := hq b hb
    simp only [hb, MatOp.shares, MatOp.uses, beq_false_of_ne hwf, beq_false_of_ne hbwf, Bool.false_or, Bool.true_and,
      Bool.not_eq_true', Bool.or_eq_false_iff, Bool.and_eq_false_iff, beq_eq_false_iff_ne]
    omega

/-- GANG_LATE counts the operations that came behind others, up to its greatest value. -/
theorem gangLate_count (late : Bool) (t u : Nat) (s : State) :
    (if late then s.count .TILE_ARR_CNT 47 32 t u else s).rf .TILE_ARR_CNT 47 32 t u =
      s.rf .TILE_ARR_CNT 47 32 t u + (if late = true ∧ s.rf .TILE_ARR_CNT 47 32 t u < 65535 then 1 else 0) := by
  have hlt : s.rf .TILE_ARR_CNT 47 32 t u < 2 ^ 16 := Nat.mod_lt _ (Nat.two_pow_pos _)
  cases late with
  | false => rfl
  | true =>
    have hcount : (s.count .TILE_ARR_CNT 47 32 t u).rf .TILE_ARR_CNT 47 32 t u =
        satNat 16 (s.rf .TILE_ARR_CNT 47 32 t u + 1) := by
      rw [State.rf, State.count, reg_setReg_same, fld_bumpFld_same _ _ _ _ (by decide)]
      rfl
    rw [if_pos rfl, hcount, satNat]
    simp only [true_and]
    split <;> omega

section
variable {t : Fin 128} {u : Fin 5} {s : State} {o : MatOp} {os ls : List MatOp}

theorem exec_gang_starts (hpend : ((s.tile t).munit u).gangPend = o :: os ++ ls) (hos : ∀ x ∈ os, x.gang = o.gang)
    (hls : ∀ x ∈ ls.head?, x.gang ≠ o.gang) (hstart : o.canStart ((s.tile t).munit u).queue = true)
    (hs : ((s.tile t).munit u).st ≠ .saving) (hr : ((s.tile t).munit u).st ≠ .restoring)
    (ht : trimmed t s = false) :
    exec (.gangOperationStart t u) s = .next (beginOp t u ((s.tile t).munit u).queue.length (modUnit t u (fun m =>
      { m with queue := m.queue ++ o :: os, gangPend := ls, st := .active })
        (if o.late then s.count .TILE_ARR_CNT 47 32 t u else s))) := by
  have htake : (o :: os ++ ls).takeWhile (fun x => x.gang == o.gang) = o :: os :=
    takeWhile_gang (List.forall_mem_cons.mpr ⟨rfl, hos⟩) hls
  have hsame : ((if o.late then s.count .TILE_ARR_CNT 47 32 t u else s).tile t).munit u = (s.tile t).munit u := by
    split <;> rfl
  refine congrArg Host.Outcome.next ?_
  dsimp only
  rw [hpend]
  refine (if_neg ?_).trans (congrArg (beginOp t u _) (modUnit_congr ?_))
  · simp [hs, hr, ht, hstart]
  · rw [htake, hsame, hpend, List.drop_left]

/-- What the start of a gang operation leaves. -/
theorem gang_begins {n : State} (hn : (n.tile t).munit u = (s.tile t).munit u) (hin : o.inRange t = true) :
    let v := beginOp t u ((s.tile t).munit u).queue.length (modUnit t u (fun m =>
      { m with queue := m.queue ++ o :: os, gangPend := ls, st := .active }) n)
    (v.tile t).munit u = { (s.tile t).munit u with
      queue := ((s.tile t).munit u).queue ++ { o with running := true } :: os, gangPend := ls, st := .active } ∧
    v.mem = n.mem ∧ v.core t = n.core t ∧ v.regs = n.regs := by
  have hm := munit_modUnit_same t u (fun m => { m with queue := m.queue ++ o :: os, gangPend := ls, st := .active }) n
  have hcore := core_modUnit t u (fun m => { m with queue := m.queue ++ o :: os, gangPend := ls, st := .active }) n
  rw [hn] at hm
  intro v
  have hv : v = modUnit t u (fun m => { m with
      st := .active, queue := m.queue.set ((s.tile t).munit u).queue.length { o with running := true } })
      (modUnit t u (fun m => { m with queue := m.queue ++ o :: os, gangPend := ls, st := .active }) n) := by
    refine beginOp_inRange ?_ hin
    rw [hm]
    simp
  refine ⟨?_, ?_, ?_, ?_⟩
  · rw [hv, munit_modUnit_same, hm]
    simp
  · rw [hv]; rfl
  · rw [hv, core_modUnit, hcore]
  · rw [hv]; rfl

theorem exec_gang_waits (h : ((s.tile t).munit u).gangPend = [] ∨ trimmed t s = true ∨
    ∃ o os, ((s.tile t).munit u).gangPend = o :: os ∧ o.canStart ((s.tile t).munit u).queue = false) :
    exec (.gangOperationStart t u) s = .next s := by
  refine congrArg Host.Outcome.next ?_
  dsimp only
  split
  next => rfl
  next o _ hp =>
    refine if_pos ?_
    rcases h with h | h | ⟨o', os, h, hc⟩
    · rw [h] at hp
      cases hp
    · simp [h]
    · obtain ⟨rfl, -⟩ := List.cons.inj (h.symm.trans hp)
      simp [hc]

end

/-! ### The statement -/

/-- Settles O31, state by state of the unit. -/
theorem matrixUnitsStartKeepAndRamp : Obligations.MatrixUnitsStartKeepAndRamp := by
  unfold Obligations.MatrixUnitsStartKeepAndRamp
  intro t u o s m put
  refine ⟨fun ht => ⟨?_, exec_gang_waits (.inr (.inl ht))⟩, fun hq hrun ht => ⟨fun hst => ?_, fun hst hin => ?_,
    fun g hst hin htag => ?_, fun hst hin => ⟨?_, ?_⟩⟩, ?_, ?_, ?_, ?_, fun hp => exec_gang_waits (.inl hp), ?_,
    trimmed_iff t s⟩
  · refine congrArg Host.Outcome.next ?_
    rw [ht]
    rfl
  · exact (exec_start_ramp hq hrun ht hst).trans (congrArg Host.Outcome.next (modUnit_congr rfl))
  · rw [exec_start_begins hq hrun ht hst, beginOp_inRange (o := o) (by rw [hq]; rfl) hin]
    refine congrArg Host.Outcome.next (modUnit_congr ?_)
    rw [hq]
    rfl
  · exact ⟨_, exec_start_begins hq hrun ht hst, beginOp_outOfRange hq hin htag⟩
  · refine congrArg Host.Outcome.next ?_
    dsimp only
    rw [ht, hq, nextStart_single hrun, hst]
    rfl
  · exact rampUpEnd_begins hq hrun ht hst hin
  · intro hq hg hst hk
    refine congrArg Host.Outcome.next ((if_pos ?_).trans (modUnit_congr rfl))
    rw [hq, hg, hst, decide_eq_true hk]
    rfl
  · intro hk
    refine congrArg Host.Outcome.next (if_neg fun hall => ?_)
    rw [Bool.and_eq_true, Bool.and_eq_true, Bool.and_eq_true, List.isEmpty_iff, decide_eq_true_iff] at hall
    obtain ⟨⟨⟨-, hempty⟩, -⟩, hpast⟩ := hall
    rcases hk with hk | hk
    · exact hk hempty
    · exact Nat.not_le_of_lt hk hpast
  · intro hst
    exact congrArg Host.Outcome.next (modUnit_congr (if_pos hst))
  · intro os ls hpend hos hls hq hin hs hr ht
    obtain ⟨hunit, hmem, hcore, hregs⟩ := gang_begins (os := os) (ls := ls)
      (n := if o.late then s.count .TILE_ARR_CNT 47 32 t u else s) (u := u) (t := t) (s := s) (by split <;> rfl) hin
    refine ⟨_, exec_gang_starts hpend hos hls (canStart_behind hq) hs hr ht, hunit, ?_, ?_, ?_⟩
    · rw [hmem]
      split <;> rfl
    · rw [hcore]
      split <;> rfl
    · rw [← gangLate_count]
      exact congrArg (fun r => fld (Tab.get resetAt r (addrOf .TILE_ARR_CNT t u)) 47 32) hregs
  · intro os hp hstr hne
    refine exec_gang_waits (.inr (.inr ⟨o, os, hp, ?_⟩))
    exact (if_pos hstr).trans (List.isEmpty_eq_false_iff.mpr hne)

end Sys2Proof.Proofs
end

section
/-! PROOFS. A launch on a free tile, from its placement to its first instruction (01_architecture.md R76;
13_partitions_and_scheduling.md R408 to R411). -/

namespace Sys2Proof.Proofs

open Sys2Proof Sys2Proof.Machine Sys2Proof.Laws

/-! ### The only launch and its one part -/

/-- The launches become `ls`. -/
def setLaunches (ls : List Launch) (s : State) : State := modSched (fun d => { d with launches := ls }) s

/-- Launch `l` from `start`, with its one part in state `st` on tile `t`. -/
def launchAt (l : Launch) (start t : Nat) (st : PartSt) : Launch :=
  { l with startNs := some start, tiles := [⟨t, st, [], none⟩] }

section
variable {l : Launch} {s : State}

theorem launch_only (h : s.sched.launches = [l]) : s.launch l.id = some l := by
  rw [State.launch, h]
  simp

theorem modPart_only (h : s.sched.launches = [l]) {t : Nat} {st : PartSt} (ht : l.tiles = [⟨t, st, [], none⟩])
    (hst : st.isEnd = false) (f : LTile → LTile) :
    modPart l.id t f s = setLaunches [{ l with tiles := [f ⟨t, st, [], none⟩] }] s := by
  simp [modPart, modLaunch, modSched, setLaunches, h, ht, hst]

theorem part_only {t : Nat} {st : PartSt} (ht : l.tiles = [⟨t, st, [], none⟩]) (k : Nat) :
    l.part? k = if t = k then some ⟨t, st, [], none⟩ else none := by
  unfold Launch.part?
  rw [ht]
  by_cases hk : t = k
  · cases hst : st.isEnd <;> simp [hk, hst]
  · simp [hk]

/-- A launch with no held part holds no tile under WAIT. -/
theorem holdOn_none (h : s.sched.launches = [l]) {t : Nat} {st : PartSt} (ht : l.tiles = [⟨t, st, [], none⟩])
    (k : Nat) : holdOn k s = none := by
  unfold holdOn
  split
  · cases hl : (s.tile k).launch.bind fun id => s.launch id with
    | none => rfl
    | some y =>
      obtain ⟨id, -, hid⟩ := Option.bind_eq_some_iff.mp hl
      have hy : y = l := List.mem_singleton.mp (h ▸ List.mem_of_find?_eq_some hid)
      rw [hy, Option.bind_some, part_only ht]
      split <;> rfl
  · rfl

theorem resolveRefused_same (h : ∀ k, holdOn k s = none) : resolveRefused s = s := by
  refine List.foldlRecOn (List.range 8) _ (motive := fun u : State => u = s) rfl fun u hu _ _ => ?_
  rw [hu]
  refine if_neg ?_
  simp [h]

end

/-! ### The start (R76) -/

theorem CodesOnly.trans {s u v : State} (h : CodesOnly s u) (k : CodesOnly u v) : CodesOnly s v := by
  obtain ⟨cs, rfl⟩ := h.rest
  obtain ⟨ds, rfl⟩ := k.rest
  exact ⟨⟨ds, rfl⟩, fun c => (k.body c).trans (h.body c)⟩

theorem CodesOnly.startedOn {l : Launch} {start t : Nat} {s u v : State} (h : CodesOnly u v)
    (hu : StartedOn l start t s u) : StartedOn l start t s v := by
  obtain ⟨cs, rfl⟩ := h.rest
  exact hu

/-- The state in which the only launch, from `start`, has reached tile `t` and is in state `st` there. -/
def reached (l : Launch) (start t : Nat) (st : PartSt) (s : State) : State :=
  (setLaunches [launchAt l start t st] s).modTile t fun x =>
    { x with cx := some l.cx, launch := some l.id, run := .launching }

theorem gr_launched (c : CoreRegs) (l : Launch) (t : Nat) (evt : BitVec 32) :
    (c.launched l t evt).gr 1 = BitVec.ofNat 64 l.kentry ∧
    (c.launched l t evt).gr 2 = BitVec.ofNat 64 (l.startNs.getD 0) ∧ (c.launched l t evt).gr 3 = BitVec.ofNat 64 t ∧
    (c.launched l t evt).gr 4 = BitVec.ofNat 64 l.arg ∧ ∀ i, 4 < i → (c.launched l t evt).gr i = 0 := by
  unfold CoreRegs.launched
  simp only [gr_setG]
  refine ⟨rfl, rfl, rfl, rfl, fun i hi => ?_⟩
  unfold CoreRegs.gr
  repeat rw [if_neg (by omega)]
  rfl

/-- Tile `t` as the start of launch `l`, not of the radio partition, leaves it. -/
def startedTile (l : Launch) (start t : Nat) (evt : BitVec 32) (x : Tile) : Tile :=
  { x.noteHist l.cx with
    core := x.core.launched (launchAt l start t .ready) t evt
    run := .running
    units := (List.range 5).foldl (fun us u => Tab.set (fun _ => MUnit.reset) us u (x.munit u).launched) x.units
    digest := 0
    stopReq := none
    stopEnd := none
    dcache := []
    icache := if x.lastImg = some l.image && l.image != 0 then x.icache else []
    lastImg := some l.image
    loopFill := []
    wakeFor := false }

/-- The start of the only launch on its tile. -/
theorem startTile_started {l : Launch} {start t : Nat} {s w : State}
    (hl : w.sched.launches = [launchAt l start t .ready]) (hp : l.part ≠ 0) (hcx : (w.tile t).cx = some l.cx) (hid : (w.tile t).launch = some l.id)
    (hcore : w.core t = s.core t) (hregs : w.regs = s.regs) (hmem : w.mem = s.mem) :
    let v := (startTile (launchAt l start t .ready) ((w.reg .CX_EVT l.cx).setWidth 32) t w).setReg .CX_EVT 0 l.cx
    StartedOn l start t s v ∧ v.sched.launches = [launchAt l start t .running] ∧ v.deliveries = w.deliveries ∧
      v.sched.nextId = w.sched.nextId := by
  have hradio : (w.radio && (launchAt l start t .ready).part == 0) = false := by
    rw [show (launchAt l start t .ready).part = l.part from rfl, beq_false_of_ne hp, Bool.and_false]
  have hpart := modPart_only hl (t := t) (st := .ready) rfl rfl fun x => { x with st := .running }
  have hstart : startTile (launchAt l start t .ready) ((w.reg .CX_EVT l.cx).setWidth 32) t w =
      (setLaunches [launchAt l start t .running] w).modTile t
        (startedTile l start t ((w.reg .CX_EVT l.cx).setWidth 32)) := by
    unfold startTile
    rw [hpart]
    have hradio : ((setLaunches [launchAt l start t .running] w).radio &&
      (launchAt l start t .ready).part == 0) = false := hradio
    have hzero (x : BitVec 32) : x ||| 0 = x := BitVec.or_zero
    change State.modTile (setLaunches [launchAt l start t .running] w) t _ = _
    simp only [show ({ launchAt l start t .ready with tiles := [⟨t, .running, [], none⟩] } : Launch) =
      launchAt l start t .running from rfl, hradio, Bool.false_eq_true, if_false, hzero]
    rfl
  intro v
  have hv : v = ((setLaunches [launchAt l start t .running] w).modTile t
      (startedTile l start t ((w.reg .CX_EVT l.cx).setWidth 32))).setReg .CX_EVT 0 l.cx := by rw [← hstart]
  have htile : v.tile t = startedTile l start t ((w.reg .CX_EVT l.cx).setWidth 32) (w.tile t) := by
    rw [hv]
    exact tile_modTile_same (setLaunches [launchAt l start t .running] w) t _
  have hevt : w.reg .CX_EVT l.cx = s.reg .CX_EVT l.cx := by rw [State.reg, hregs]; rfl
  have hc : v.core t = (s.core t).launched (launchAt l start t .ready) t ((s.reg .CX_EVT l.cx).setWidth 32) := by
    rw [← hcore, ← hevt]
    exact congrArg Tile.core htile
  obtain ⟨hg1, hg2, hg3, hg4, hg⟩ := gr_launched (s.core t) (launchAt l start t .ready) t
    ((s.reg .CX_EVT l.cx).setWidth 32)
  refine ⟨?_, ?_, ?_, ?_⟩
  · unfold StartedOn
    dsimp only
    rw [hc, htile]
    refine ⟨rfl, hcx, hid, rfl, rfl, rfl, hg1, hg2, hg3, hg4, hg, rfl, rfl, rfl, rfl, rfl, rfl, ?_, ?_⟩
    · rw [hv, reg_setReg_same]
    · rw [hv, ← hmem]
      rfl
  all_goals rw [hv]; rfl

/-- The only launch, evaluated on tile `t` (R254, R410). -/
def readied (l : Launch) (start t : Nat) (s : State) : State :=
  (setLaunches [launchAt l start t .ready] (reached l start t .placed s)).modTile t fun x =>
    { x with run := .launching }

theorem tile_reached (l : Launch) (start t : Nat) (st : PartSt) (s : State) : (reached l start t st s).tile t =
    { s.tile t with cx := some l.cx, launch := some l.id, run := .launching } := tile_modTile_same ..

theorem tile_readied (l : Launch) (start t : Nat) (s : State) : (readied l start t s).tile t =
    { s.tile t with cx := some l.cx, launch := some l.id, run := .launching } :=
  (tile_modTile_same ..).trans (congrArg (fun x : Tile => { x with run := .launching }) (tile_reached ..))

/-- A launch without declarations that has reached a tile awake and at the configuration in force goes on. -/
theorem launchOn_reached {l : Launch} {start t : Nat} {s : State} (hn : l.ndecl = 0)
    (hawake : s.dormant (domQuad t) = false) (hload : (s.tile t).loading = none)
    (hfresh : (s.reg .TILE_EPOCH t).toNat = s.rf .DEV_CFG_CUR 63 32) :
    launchOn t (reached l start t .placed s) =
      noteCx l.cx (resolveRefused (startReady l.id (readied l start t s))) := by
  have htile := tile_reached l start t .placed s
  have hlaunch : (reached l start t .placed s).launch l.id = some (launchAt l start t .placed) :=
    launch_only (l := launchAt l start t .placed) rfl
  have hpart : ((launchAt l start t .placed).part? t).map (·.st) = some .placed := by
    rw [part_only (l := launchAt l start t .placed) rfl, if_pos rfl]
    rfl
  have hstale : stale t (reached l start t .placed s) = false := by
    unfold stale epochNow
    exact (bne_eq_false_iff_eq).mpr hfresh
  have heval : evalLaunch (launchAt l start t .placed) t 0 (reached l start t .placed s) =
      (.done, reached l start t .placed s) := if_pos (Nat.le_of_eq hn)
  have heval' : evalEnds l.id t (.done, reached l start t .placed s) = readied l start t s :=
    modPart_only (l := launchAt l start t .placed) (s := (reached l start t .placed s).modTile t fun x =>
      { x with run := .launching }) rfl rfl rfl _
  unfold launchOn
  rw [htile, Option.bind_some, hlaunch]
  dsimp only
  refine (if_neg ?_).trans ((if_neg ?_).trans ((if_neg ?_).trans ((if_neg ?_).trans ?_)))
  · rw [hpart]
    decide
  · rw [show (reached l start t .placed s).dormant (domQuad t) = false from hawake]
    decide
  · rw [hload]
    decide
  · rw [hstale]
    decide
  · rw [heval]
    exact congrArg (fun u => noteCx l.cx (resolveRefused (startReady l.id u))) heval'

/-- A launch all of whose parts are evaluated starts. -/
theorem startReady_readied (l : Launch) (start t : Nat) (s : State) :
    startReady l.id (readied l start t s) = noteCx l.cx ((startTile (launchAt l start t .ready)
      (((readied l start t s).reg .CX_EVT l.cx).setWidth 32) t (readied l start t s)).setReg .CX_EVT 0 l.cx) := by
  have hlaunch : (readied l start t s).launch l.id = some (launchAt l start t .ready) :=
    launch_only (l := launchAt l start t .ready) rfl
  unfold startReady
  rw [hlaunch]
  refine (if_pos ?_).trans rfl
  exact Bool.or_eq_true_iff.mpr (.inr rfl)

/-- The only launch, on a free tile that is awake and at the configuration in force, starts at once (R411). -/
theorem placeOn_starts {l : Launch} {start t : Nat} {st : PartSt} {s : State} (hl : s.sched.launches = [l])
    (ht : l.tiles = [⟨t, st, [], none⟩]) (hst : st.isEnd = false) (hn : l.ndecl = 0) (hp : l.part ≠ 0)
    (hstart : l.startNs.getD s.now = start) (hawake : s.dormant (domQuad t) = false) (hload : (s.tile t).loading = none)
    (hfresh : (s.reg .TILE_EPOCH t).toNat = s.rf .DEV_CFG_CUR 63 32) :
    ∃ v, CodesOnly v (placeOn l.id t s) ∧ StartedOn l start t s v ∧ v.sched.launches = [launchAt l start t .running] ∧
      v.deliveries = s.deliveries ∧ v.sched.nextId = s.sched.nextId := by
  have hreach : placeOn l.id t s = noteCx l.cx (launchOn t (reached l start t .placed s)) := by
    have hnow : modLaunch l.id (fun l => { l with startNs := some (l.startNs.getD s.now) }) s =
        setLaunches [{ l with startNs := some start }] s := by
      simp [modLaunch, modSched, setLaunches, hl, hstart]
    unfold placeOn
    rw [launch_only hl]
    dsimp only
    rw [hnow, show l.id = ({ l with startNs := some start } : Launch).id from rfl,
      modPart_only (l := { l with startNs := some start }) rfl ht hst]
    rfl
  have htile := tile_readied l start t s
  have hcore : (readied l start t s).core t = s.core t := (congrArg Tile.core htile).trans rfl
  obtain ⟨hstarted, hlaunches, hdel, hnext⟩ := startTile_started (l := l) (start := start) (w := readied l start t s)
    rfl hp (congrArg Tile.cx htile) (congrArg Tile.launch htile) hcore rfl rfl
  rw [hreach, launchOn_reached hn hawake hload hfresh, startReady_readied]
  generalize (startTile _ _ t (readied l start t s)).setReg .CX_EVT 0 l.cx = v at *
  have hnote := noteCx_codes l.cx v
  rw [resolveRefused_same (holdOn_none (hnote.launches.trans hlaunches) rfl)]
  exact ⟨v, (hnote.trans (noteCx_codes _ _)).trans (noteCx_codes _ _), hstarted, hlaunches, hdel, hnext⟩

end Sys2Proof.Proofs
end

section
/-! PROOFS. The launches that a bell and the dispatcher start (13_partitions_and_scheduling.md R410, R411). -/

namespace Sys2Proof.Proofs

open Sys2Proof Sys2Proof.Machine Sys2Proof.Laws

theorem startedOn_ofBase {l : Launch} {start t : Nat} {s r u : State} (h : StartedOn l start t s u)
    (hevt : s.reg .CX_EVT l.cx = r.reg .CX_EVT l.cx) (hcore : s.core t = r.core t) (hmem : s.mem = r.mem) :
    StartedOn l start t r u := by
  unfold StartedOn at h ⊢
  rw [← hevt, ← hcore, ← hmem]
  exact h

theorem CodesOnly.deliveries {s u : State} (h : CodesOnly s u) : u.deliveries = s.deliveries := by
  obtain ⟨cs, rfl⟩ := h.rest
  rfl

theorem CodesOnly.nextId {s u : State} (h : CodesOnly s u) : u.sched.nextId = s.sched.nextId := by
  obtain ⟨cs, rfl⟩ := h.rest
  rfl

/-! ### A count of nothing -/

theorem putFld_self (v : Word) (hi lo : Nat) : putFld v hi lo (fld v hi lo) = v := by
  apply BitVec.eq_of_getLsbD_eq
  intro i hi'
  rw [getLsbD_putFld _ _ _ _ _ hi']
  split
  next hr => rw [testBit_fld, decide_eq_true (by omega), Bool.true_and, show lo + (i - lo) = i by omega]
  next => rfl

theorem bumpFld_zero (v : Word) (hi lo : Nat) : bumpFld v hi lo 0 = v := by
  have hlt := fld_lt v hi lo
  rw [bumpFld, satNat, Nat.min_eq_left (by omega)]
  exact putFld_self v hi lo

/-- A count of nothing leaves every register's value. -/
theorem reg_count_zero (s : State) (q : RegName) (hi lo x y : Nat) (r : RegName) (i j : Nat) :
    (s.count q hi lo x y 0).reg r i j = s.reg r i j := by
  rw [State.count, bumpFld_zero, setReg_self_reg]

/-! ### The launch on a free tile -/

theorem unreserve_waiting {l : Launch} {t : Nat} {s : State} (hl : s.sched.launches = [l])
    (ht : l.tiles = [⟨t, .waiting, [], none⟩]) : unreserve t s = s := by
  have hparts : l.tiles.map (fun x => if x.tile = t && x.st == .reserved then { x with st := .waiting } else x) =
      l.tiles := by
    rw [ht, List.map_singleton, show (PartSt.waiting == PartSt.reserved) = false from rfl, Bool.and_false]
    rfl
  have hsame : s.sched.launches.map (fun l => { l with
      tiles := l.tiles.map fun x => if x.tile = t && x.st == .reserved then { x with st := .waiting } else x }) =
      s.sched.launches := by
    rw [hl]
    exact congrArg (fun ts => [{ l with tiles := ts }]) hparts
  exact congrArg (fun ls => { s with sched := { s.sched with launches := ls } }) hsame

/-- The only launch, a bell launch of another partition than the radio's, reaches its free tile. -/
theorem bellTo_free {l : Launch} {t : Nat} {s : State} (hl : s.sched.launches = [l])
    (ht : l.tiles = [⟨t, .waiting, [], none⟩]) (hp : l.part ≠ 0) (hswap : (s.cx l.cx).swap = 0)
    (hfree : tileFree t s = true) (hwait : (s.tile t).waiting = []) : bellTo l.id t s = placeOn l.id t s := by
  have hradio : (s.radio && l.part == 0) = false := by rw [beq_false_of_ne hp, Bool.and_false]
  have hres : residentFor l.cx s = (true, s) := if_pos hswap
  unfold bellTo
  rw [launch_only hl]
  dsimp only
  simp only [hradio, Bool.false_and, Bool.false_eq_true, if_false]
  rw [hres, hfree, hwait, unreserve_waiting hl ht]
  rfl

theorem tilesOf_and_single {t : Fin 128} {m : BitVec 128} (h : inMask m t = true) :
    tilesOf (1#128 <<< t.val &&& m) = [t.val] := by
  have hm : 1#128 <<< t.val &&& m = 1#128 <<< t.val := by
    have ht := t.isLt
    apply BitVec.eq_of_getLsbD_eq
    intro i hi
    simp only [BitVec.getLsbD_and, BitVec.getLsbD_shiftLeft, BitVec.getLsbD_one]
    by_cases hit : i = t.val
    · rw [hit]
      exact (congrArg _ h).trans (Bool.and_true _)
    · rw [show ((decide (i < 128) && !decide (i < t.val)) && (decide (0 < 128) && decide (i - t.val = 0))) = false by
        simp; omega, Bool.false_and]
  rw [hm, tilesOf_single]

/-- The state in which the launch that the LAUNCH action of entry `ws` makes is the only one. -/
def bellTaken (d : Delivery) (ws : List Word) (t : Nat) (r : State) : State :=
  (addLaunch (fun id => { mkLaunch id d.owner (entCx ws) (d.arg % 4096) true ws [t] with startNs := some d.fireTime })
    (r.count .PART_P_CNT 15 0 d.owner 0 0)).2

/-- A LAUNCH action whose entry is read without an error names one tile of the context's set. -/
theorem launchBell_single {d : Delivery} {t : Fin 128} {ws : List Word} {s r : State} (hmask : d.mask = 1#128 <<< t.val)
    (hread : readEntry d.owner d.arg s = (some ws, none, r)) (hcx : cxOk d.owner (entCx ws) r = true)
    (htile : inMask (r.cxTiles (entCx ws)) t = true) (hstop : partStopped d.owner r = false) :
    launchBell d s = noteCx (entCx ws) (bellTo r.sched.nextId t (bellTaken d ws t r)) := by
  have hcount := reg_count_zero r .PART_P_CNT 15 0 d.owner 0
  have hstop' : partStopped d.owner (r.count .PART_P_CNT 15 0 d.owner 0 0) = false := by
    rw [partStopped, State.rf, hcount]
    exact hstop
  unfold launchBell
  simp only [hread, hcx, hmask, tilesOf_single, tilesOf_and_single htile]
  refine (if_neg (by decide)).trans ((if_neg ?_).trans ((if_neg (by simp)).trans rfl))
  exact Bool.eq_false_iff.mp hstop'

/-- The launch that a LAUNCH action of entry `ws` makes on tile `t` (R411). -/
def bellLaunch (d : Delivery) (ws : List Word) (t id : Nat) : Launch :=
  { mkLaunch id d.owner (entCx ws) (d.arg % 4096) true ws [t] with startNs := some d.fireTime }

/-- A tile free of everything in registers of the same values. -/
theorem vacant_ofSame {t : Nat} {s u : State} (h : Vacant t s) (hregs : ∀ r i j, u.reg r i j = s.reg r i j)
    (htile : u.tile t = s.tile t) : Vacant t u := by
  obtain ⟨hon, hawake, hrun, hcx, hfresh, hwait⟩ := h
  constructor
  · rw [State.enabled, State.enabledMap, hregs, hregs]
    exact hon
  · rw [State.dormant, State.rb, hregs]
    exact hawake
  · rw [htile, hrun]
  · rw [htile, hcx]
  · rw [htile, State.rf, hregs, hregs]
    exact hfresh
  · rw [htile]
    exact hwait

theorem tileFree_of_vacant {t : Nat} {s : State} (h : Vacant t s) : tileFree t s = true := by
  unfold tileFree
  rw [h.run, h.cx]
  rfl

/-- A LAUNCH action on a free tile starts its launch there (R411). -/
theorem launchBell_starts {d : Delivery} {t : Fin 128} {ws : List Word} {s r : State} (hmask : d.mask = 1#128 <<< t.val)
    (hp : d.owner ≠ 0) (hread : readEntry d.owner d.arg s = (some ws, none, r))
    (hcx : cxOk d.owner (entCx ws) r = true) (htile : inMask (r.cxTiles (entCx ws)) t = true)
    (hdecl : entNdecl ws = 0) (hstop : partStopped d.owner r = false) (hswap : (r.cx (entCx ws)).swap = 0)
    (hv : Vacant t r) (hnone : r.sched.launches = []) :
    StartedOn (bellLaunch d ws t r.sched.nextId) d.fireTime t r (launchBell d s) ∧
      (launchBell d s).deliveries = r.deliveries ∧
      (launchBell d s).sched.launches.map (·.id) = [r.sched.nextId] ∧
      (launchBell d s).sched.nextId = r.sched.nextId + 1 := by
  rw [launchBell_single hmask hread hcx htile hstop]
  have hregs : ∀ q i j, (bellTaken d ws t r).reg q i j = r.reg q i j := reg_count_zero r .PART_P_CNT 15 0 d.owner 0
  have hlaunches : (bellTaken d ws t r).sched.launches = [bellLaunch d ws t r.sched.nextId] :=
    congrArg (· ++ [bellLaunch d ws t r.sched.nextId]) hnone
  have hdel : (bellTaken d ws t r).deliveries = r.deliveries := rfl
  have hnext : (bellTaken d ws t r).sched.nextId = r.sched.nextId + 1 := rfl
  have hmem : (bellTaken d ws t r).mem = r.mem := rfl
  have htiles : (bellTaken d ws t r).tile t = r.tile t := rfl
  have hcxs : (bellTaken d ws t r).cx (entCx ws) = r.cx (entCx ws) := rfl
  generalize bellTaken d ws t r = n at *
  have hn := vacant_ofSame hv hregs htiles
  have hbell : bellTo r.sched.nextId t n = placeOn r.sched.nextId t n :=
    bellTo_free hlaunches rfl hp (hcxs ▸ hswap) (tileFree_of_vacant hn) hn.wait.1
  obtain ⟨v, hcodes, hstart, hlv, hdv, hnv⟩ := placeOn_starts (start := d.fireTime) hlaunches rfl rfl hdecl hp rfl
    hn.awake hn.fresh.1 hn.fresh.2
  rw [hbell]
  have hend := hcodes.trans (noteCx_codes (entCx ws) (placeOn r.sched.nextId t n))
  refine ⟨startedOn_ofBase (hend.startedOn hstart) (hregs _ _ _) (congrArg Tile.core htiles) hmem, ?_, ?_, ?_⟩
  · rw [hend.deliveries, hdv, hdel]
  · rw [hend.launches, hlv]
    rfl
  · rw [hend.nextId, hnv, hnext]

end Sys2Proof.Proofs
end

section
/-! PROOFS. The dispatcher gives a ring launch its free tile (13_partitions_and_scheduling.md R410). -/

namespace Sys2Proof.Proofs

open Sys2Proof Sys2Proof.Machine Sys2Proof.Laws

/-! ### A dispatch with no entry to take and no context to swap -/

theorem runnables_none {s : State} (h : ∀ c, (s.cx c).swap = 0) : runnables s = [] := by
  have hno : ((cxList s).filter fun c => runnable c s) = [] := by
    refine List.filter_eq_nil_iff.mpr fun c _ => ?_
    unfold runnable
    simp [h c]
  unfold runnables
  rw [hno]
  simp

theorem takeEntries_none {c : Nat} {s : State} (h : ringHas c s = false) (n : Nat) : takeEntries c n s = s := by
  cases n with
  | zero => rfl
  | succ n =>
    refine if_neg ?_
    unfold mayTake
    simp [h]

theorem codesOnly_refl (s : State) : CodesOnly s s := ⟨⟨s.sched.cxs, rfl⟩, fun _ => rfl⟩

/-- With every ring empty the dispatcher takes no entry. -/
theorem takeAll_codes {s : State} (h : ∀ c, ringHas c s = false) (cs : List Nat) :
    CodesOnly s (cs.foldl (fun s c => noteCx c (takeEntries c (cxSize c s) s)) s) := by
  refine List.foldlRecOn cs _ (motive := fun u => CodesOnly s u) (codesOnly_refl s) fun u hu c _ => ?_
  have hring : ringHas c u = false := by
    rw [← h c]
    unfold ringHas State.rf State.reg
    rw [hu.regs]
  rw [takeEntries_none hring]
  exact hu.trans (noteCx_codes c u)

/-! ### The turn of each tile -/

/-- A fold that changes the state at one element only. -/
theorem foldl_once {α β : Type} {f : β → α → β} {b : β} {x : α} {xs : List α} (hx : x ∈ xs) (hn : xs.Nodup)
    (hbefore : ∀ y, y ≠ x → f b y = b) (hafter : ∀ y, y ≠ x → f (f b x) y = f b x) : xs.foldl f b = f b x := by
  induction xs with
  | nil => cases hx
  | cons y ys ih =>
    obtain ⟨hy, hys⟩ := List.nodup_cons.mp hn
    rw [List.foldl_cons]
    rcases List.mem_cons.mp hx with rfl | hx
    · exact List.foldlRecOn ys f (motive := fun u => u = f b x) rfl fun u hu z hz => by
        rw [hu, hafter z fun e => hy (e ▸ hz)]
    · rw [hbefore y fun e => hy (e ▸ hx), ih hx hys]

/-- The one ring launch is in state `st` on tile `t`, and nothing else waits for a tile or a context. -/
structure OneRing (l : Launch) (t : Nat) (st : PartSt) (s : State) : Prop where
  only  : s.sched.launches = [l]
  ring  : l.bell = false
  tiles : l.tiles = [⟨t, st, [], none⟩]
  quiet : ∀ v, (s.tile v).waiting = [] ∧ (s.tile v).saved = none ∧ (s.tile v).redeliver = []
  here  : ∀ c, (s.cx c).swap = 0

section
variable {l : Launch} {t : Nat} {st : PartSt} {s : State} (h : OneRing l t st s)
include h

theorem oneRing_best (k : Nat) :
    bestRing k s = if t = k ∧ st = .waiting ∧ mayPlace l k s = true then some l else none := by
  obtain ⟨-, -, hre⟩ := h.quiet k
  unfold bestRing
  rw [h.only]
  by_cases hc : t = k ∧ st = .waiting ∧ mayPlace l k s = true
  · obtain ⟨rfl, rfl, hm⟩ := hc
    simp [h.ring, h.here, hre, part_only h.tiles, hm]
  · rw [if_neg hc, List.filter_cons_of_neg, List.filter_nil, List.foldl_nil]
    simp only [h.ring, h.here, hre, part_only h.tiles]
    intro hp
    refine hc ?_
    by_cases hk : t = k
    · simpa [hk] using hp
    · simp [hk] at hp

theorem oneRing_reserved (k : Nat) : reservedTile k s = decide (t = k ∧ st = .reserved) := by
  unfold reservedTile
  rw [h.only]
  by_cases hk : t = k
  · simp only [List.any_cons, List.any_nil, part_only h.tiles, hk, if_true, true_and, Bool.or_false]
    rfl
  · simp [part_only h.tiles, hk]

/-- The turn of a tile for which nothing but a ring launch waits. -/
theorem oneRing_serve (k : Nat) : serveTile k s = if s.enabled k && tileFree k s && !reservedTile k s then
    (bestRing k s).elim s (fun l => modPart l.id k (fun x => { x with st := .reserved }) s) else s := by
  obtain ⟨hw, hs, hr⟩ := h.quiet k
  unfold serveTile
  cases he : s.enabled k
  · rfl
  cases hf : tileFree k s
  · rfl
  dsimp only
  rw [hw, hs, hr]
  cases hres : reservedTile k s
  · cases bestRing k s <;> rfl
  · rfl

theorem oneRing_serve_other {k : Nat} (hk : k ≠ t ∨ st = .reserved) : serveTile k s = s := by
  rw [oneRing_serve h, oneRing_best h, oneRing_reserved h]
  split
  next hgo =>
    rw [if_neg]
    · rfl
    · rintro ⟨rfl, rfl, -⟩
      simp at hk
  next => rfl

end

theorem oneRing_serve_waiting {l : Launch} {t : Nat} {s : State} (h : OneRing l t .waiting s) (hv : Vacant t s)
    (hold : s.holdsTile l.part t = true) :
    serveTile t s = setLaunches [{ l with tiles := [⟨t, .reserved, [], none⟩] }] s := by
  have hplace : mayPlace l t s = true := by
    unfold mayPlace
    rw [hold]
    rfl
  rw [oneRing_serve h, oneRing_best h, oneRing_reserved h, if_pos, if_pos ⟨rfl, rfl, hplace⟩]
  · exact modPart_only h.only h.tiles rfl _
  · rw [hv.on, tileFree_of_vacant hv]
    simp

theorem oneRing_setLaunches {l : Launch} {t : Nat} {st : PartSt} {s : State} (h : OneRing l t st s) (st' : PartSt) :
    OneRing { l with tiles := [⟨t, st', [], none⟩] } t st' (setLaunches [{ l with tiles := [⟨t, st', [], none⟩] }] s) :=
  ⟨rfl, h.ring, rfl, h.quiet, h.here⟩

/-- The turns of all tiles reserve the free tile for the ring launch. -/
theorem serveAll_reserves {l : Launch} {t : Fin 128} {s : State} (h : OneRing l t .waiting s) (hv : Vacant t s)
    (hold : s.holdsTile l.part t = true) : (List.range 128).foldl (fun s t => serveTile t s) s =
      setLaunches [{ l with tiles := [⟨t, .reserved, [], none⟩] }] s := by
  have ht := oneRing_serve_waiting h hv hold
  rw [foldl_once (x := t.val) (List.mem_range.mpr t.isLt) List.nodup_range, ht]
  · exact fun y hy => oneRing_serve_other h (.inl hy)
  · exact fun y hy => by rw [ht, oneRing_serve_other (oneRing_setLaunches h .reserved) (.inr rfl)]

/-! ### The delivery of the launch -/

theorem deliverRing_reserved {l : Launch} {t : Nat} {s : State} (h : OneRing l t .reserved s) :
    deliverRing l.id s = placeOn l.id t s := by
  unfold deliverRing
  rw [launch_only h.only]
  dsimp only
  rw [h.ring, h.tiles]
  rfl

theorem needTiles_none {l : Launch} {s : State} (h : ∀ x ∈ l.tiles, x.st ≠ .waiting) : needTiles l s = s := by
  have hneed : (l.tiles.filter fun x => x.st == .waiting) = [] := by
    refine List.filter_eq_nil_iff.mpr fun x hx => ?_
    simp [h x hx]
  unfold needTiles
  rw [hneed]
  simp [pickVictim]

/-- The ring launch that has its tile reserved starts there, and needs no further tile. -/
theorem deliver_starts {l : Launch} {start t : Nat} {s : State} (h : OneRing l t .reserved s) (hn : l.ndecl = 0)
    (hp : l.part ≠ 0) (hstart : l.startNs.getD s.now = start) (hawake : s.dormant (domQuad t) = false)
    (hload : (s.tile t).loading = none) (hfresh : (s.reg .TILE_EPOCH t).toNat = s.rf .DEV_CFG_CUR 63 32) :
    let u := (s.sched.launches.map (·.id)).foldl (fun s id => deliverRing id s) s
    StartedOn l start t s ((u.sched.launches.filter fun l => !l.bell).foldl (fun s l => needTiles l s) u) := by
  have hu : (s.sched.launches.map (·.id)).foldl (fun s id => deliverRing id s) s = placeOn l.id t s := by
    rw [h.only]
    exact deliverRing_reserved h
  obtain ⟨v, hend, hstarted, hlv, -, -⟩ := placeOn_starts h.only h.tiles rfl hn hp hstart hawake hload hfresh
  rw [hu]
  have hlaunches := hend.launches.trans hlv
  generalize placeOn l.id t s = u at *
  refine List.foldlRecOn (u.sched.launches.filter fun l => !l.bell) _ (motive := StartedOn l start t s)
    (hend.startedOn hstarted) fun w hw y hy => ?_
  rw [hlaunches] at hy
  have hy : y = launchAt l start t .running := List.mem_singleton.mp (List.mem_filter.mp hy).1
  rw [hy, needTiles_none]
  · exact hw
  · intro x hx
    rw [List.mem_singleton.mp hx]
    exact fun e => nomatch e

theorem vacant_codes {t : Nat} {s u : State} (h : Vacant t s) (hc : CodesOnly s u) : Vacant t u := by
  obtain ⟨cs, rfl⟩ := hc.rest
  exact ⟨h.on, h.awake, h.run, h.cx, h.fresh, h.wait⟩

/-- The dispatcher starts the one ring launch on its free tile. -/
theorem dispatch_starts {l : Launch} {t : Fin 128} {s : State} (h : OneRing l t .waiting s)
    (hempty : ∀ c, ringHas c s = false) (hn : l.ndecl = 0) (hp : l.part ≠ 0) (hstart : l.startNs = none)
    (hv : Vacant t s) (hold : s.holdsTile l.part t = true) : StartedOn l s.now t s (dispatch s) := by
  have hcodes := takeAll_codes hempty (cxList s)
  unfold dispatch
  rw [runnables_none h.here]
  dsimp only [List.foldl_nil]
  generalize (cxList s).foldl (fun s c => noteCx c (takeEntries c (cxSize c s) s)) s = n at *
  have hone : OneRing l t .waiting n := by
    obtain ⟨cs, hcs⟩ := hcodes.rest
    refine ⟨hcodes.launches.trans h.only, h.ring, h.tiles, fun v => ?_, fun c => (hcodes.swap c).trans (h.here c)⟩
    rw [State.tile, hcodes.tiles]
    exact h.quiet v
  have hvn := vacant_codes hv hcodes
  have hholdn : n.holdsTile l.part t = true := by
    obtain ⟨cs, rfl⟩ := hcodes.rest
    exact hold
  have hnow : n.now = s.now := by
    obtain ⟨cs, rfl⟩ := hcodes.rest
    rfl
  have hevt : n.reg .CX_EVT l.cx = s.reg .CX_EVT l.cx := by rw [State.reg, hcodes.regs]; rfl
  have hcore : n.core t = s.core t := by rw [State.core, State.tile, hcodes.tiles]; rfl
  have hres := oneRing_setLaunches hone .reserved
  rw [serveAll_reserves hone hvn hholdn]
  have hstarted := deliver_starts (start := s.now) hres hn hp (by rw [← hnow, hstart]; rfl) hvn.awake hvn.fresh.1
    hvn.fresh.2
  exact startedOn_ofBase (l := l) hstarted hevt hcore hcodes.mem

end Sys2Proof.Proofs
end

section
/-! PROOFS. Ring indices and the ends of swaps (13_partitions_and_scheduling.md R409, R415, R419). -/

namespace Sys2Proof.Proofs

open Sys2Proof Sys2Proof.Machine Sys2Proof.Laws

theorem CodesOnly.stored {s u : State} (h : CodesOnly s u) (c : Nat) : (u.cx c).stored = (s.cx c).stored :=
  have e := congrArg Cx.stored (h.body c)
  e

theorem CodesOnly.images {s u : State} (h : CodesOnly s u) (c : Nat) : (u.cx c).images = (s.cx c).images :=
  have e := congrArg Cx.images (h.body c)
  e

/-! ### Ring indices -/

/-- Who may write the ring indices of context `c` (R431). -/
theorem mayCx_iff (ag : Agent) (c : Nat) (s : State) : mayCx ag c s = true ↔
    (ag = .steward ∨ ∃ p, s.agentPart ag = some p ∧ p = s.cxPart c ∧ ag ≠ .steward ∧
      ∀ f, ag = .host f → s.rf .CX_CTL 52 48 c = f.toNat) := by
  cases ag with
  | steward => simp [mayCx]
  | tile t => simp [mayCx, State.actsFor]
  | host f =>
    simp only [mayCx, State.actsFor, Bool.and_eq_true, beq_iff_eq]
    constructor
    · rintro ⟨hp, hf⟩
      exact .inr ⟨_, hp, rfl, (fun e => nomatch e), fun g hg => by cases hg; exact hf⟩
    · rintro (hs | ⟨p, hp, rfl, -, hf⟩)
      · cases hs
      · exact ⟨hp, hf f rfl⟩

theorem idxDiff_of_lt (a : Nat) {b : Nat} (h : b < 65536) : idxDiff a b = (a + 65536 - b) % 65536 := by
  rw [idxDiff, Nat.mod_eq_of_lt h]

theorem rf_index_lt (s : State) (r : RegName) (c : Nat) : s.rf r 15 0 c < 65536 := Nat.mod_lt _ (by decide)

theorem fld_low16 (v : Word) : fld v 15 0 = v.toNat % 65536 := by
  rw [fld]
  omega

section
variable {ag : Agent} {c : Nat} {s : State}

theorem cxTailWrite_refused (h : mayCx ag c s = false) (v : Word) : cxTailWrite ag c v s = refusePermission s := by
  unfold cxTailWrite
  rw [h]
  rfl

theorem cxHeadWrite_refused (h : mayCx ag c s = false) (v : Word) : cxHeadWrite ag c v s = refusePermission s := by
  unfold cxHeadWrite
  rw [h]
  rfl

theorem cxTailWrite_allowed (h : mayCx ag c s = true) (v : Word) : cxTailWrite ag c v s =
    if cxTailOk (cxSize c s) (s.rf .CX_LQ_TAIL 15 0 c) (s.rf .CX_CQ_HEAD 15 0 c) (fld v 15 0) then
      s.putReg .CX_LQ_TAIL 15 0 (fld v 15 0) c
    else s.flag .PART_ERR 4 := by
  unfold cxTailWrite
  rw [h]
  rfl

theorem cxHeadWrite_allowed (h : mayCx ag c s = true) (v : Word) : cxHeadWrite ag c v s =
    if headOk (s.rf .CX_CQ_HEAD 15 0 c) (s.rf .CX_CQ_TAIL 15 0 c) (fld v 15 0) then
      flushRecords c 64 (s.putReg .CX_CQ_HEAD 15 0 (fld v 15 0) c)
    else s := by
  unfold cxHeadWrite
  rw [h]
  rfl

theorem flushRecords_none (h : (s.cx c).records = []) (n : Nat) : flushRecords c n s = s := by
  cases n with
  | zero => rfl
  | succ n =>
    unfold flushRecords
    rw [h]
    split <;> rfl

end

/-! ### The end of a swap-out -/

theorem swapOutDone_other {c : Nat} {s : State} (h : (s.cx c).swap ≠ 4) : swapOutDone c s = s := by
  refine if_pos ?_
  simp [h]

theorem mem_tilesWith {c t : Nat} {s : State} (h : t ∈ tilesWith c s) : (s.tile t).cx = some c := by
  have := (List.mem_filter.mp h).2
  exact beq_iff_eq.mp this

theorem swapOutDone_swapped {c : Nat} {s : State} (hswap : (s.cx c).swap = 4)
    (hb : ∀ t, (s.tile t).cx = some c → atBoundary (s.core t) = true) :
    ((swapOutDone c s).cx c).swap = 5 ∧ ((swapOutDone c s).cx c).stored = true := by
  have hgo : ¬ ((s.cx c).swap != 4 || (tilesWith c s).any (fun t => !atBoundary (s.core t))) = true := by
    simp only [hswap, bne_self_eq_false, Bool.false_or, List.any_eq_true, not_exists, not_and, Bool.not_eq_true,
      Bool.not_eq_false']
    exact fun t ht => hb t (mem_tilesWith ht)
  have hout : swapOutDone c s = _ := if_neg hgo
  rw [hout]
  dsimp only
  generalize List.foldl _ _ _ = n
  have hnote := noteCx_codes c (modCx c (fun x => { x with swap := 5, stored := true }) n)
  exact ⟨(hnote.swap c).trans (congrArg Cx.swap (cx_modCx_same ..)),
    (hnote.stored c).trans (congrArg Cx.stored (cx_modCx_same ..))⟩

/-! ### The end of a swap-in -/

theorem swapInDone_other {c : Nat} {s : State} (h : (s.cx c).swap ≠ 6) : swapInDone c s = s := by
  refine if_pos ?_
  simp [h]

/-- A context as the end of its swap-in leaves it (R419). -/
def swappedIn (c : Nat) (s : State) : State :=
  modCx c (fun x => { x with swap := 0, stored := false, images := [], waite := 0 }) s

theorem swapIn_goes {c : Nat} {s : State} (hswap : (s.cx c).swap = 6)
    (hawake : ∀ t, (s.tile t).cx = some c → s.dormant (domQuad t) = false) :
    ¬ ((s.cx c).swap != 6 || (tilesWith c s).any (fun t => s.dormant (domQuad t))) = true := by
  simp only [hswap, bne_self_eq_false, Bool.false_or, List.any_eq_true, not_exists, not_and, Bool.not_eq_true]
  exact fun t ht => hawake t (mem_tilesWith ht)

/-- A context with no tile is resident at once. -/
theorem swapInDone_noTile {c : Nat} {s : State} (hswap : (s.cx c).swap = 6) (htiles : s.cxTiles c = 0)
    (hawake : ∀ t, (s.tile t).cx = some c → s.dormant (domQuad t) = false) :
    swapInDone c s = noteCx c (swappedIn c s) := by
  have hin : swapInDone c s = _ := if_neg (swapIn_goes hswap hawake)
  have hnone : tilesOf ((swappedIn c s).cxTiles c) = [] := by
    rw [show (swappedIn c s).cxTiles c = 0 from htiles]
    decide
  change swapInDone c s = noteCx c (List.foldl _ (swappedIn c s) (tilesOf ((swappedIn c s).cxTiles c)).zipIdx) at hin
  rw [hin, hnone]
  rfl

/-! ### An image that goes on its tile again (R28, R170) -/

/-- No plane of a unit holds a load. -/
def Unloaded (m : MUnit) : Prop := m.image0 = none ∧ m.image1 = none

/-- The state of a tile beside its units. -/
def tileFrame (x : Tile) : RunState × Option Nat × Option Nat × CoreRegs := (x.run, x.cx, x.launch, x.core)

theorem unloaded_take {m : MUnit} (h : Unloaded m) (o : MatOp) : Unloaded (m.take o).2 := by
  unfold MUnit.take
  split
  · exact h
  · split
    · exact h
    · exact h

theorem unloaded_withGangs {m : MUnit} (h : Unloaded m) (ops : List MatOp) : Unloaded (m.withGangs ops) :=
  List.foldlRecOn ops _ (motive := Unloaded) h fun _ hm o _ => unloaded_take hm o

theorem munit_setUnit (x : Tile) (u k : Nat) (m : MUnit) :
    (x.setUnit u m).munit k = if k = u then m else x.munit k := tab_get_set ..

/-- With no load to replay a unit is set once. -/
theorem restoreUnit_eq {t u : Nat} {s : State} (h : Unloaded ((s.tile t).munit u)) :
    ∃ g, restoreUnit t u s = modUnit t u g s ∧ Unloaded (g ((s.tile t).munit u)) := by
  obtain ⟨h0, h1⟩ := h
  unfold restoreUnit
  simp only [h0, h1, replayLoad, ite_self]
  exact ⟨_, rfl, rfl, rfl⟩

theorem restoreUnit_unloaded {t u : Nat} {s : State} (h : ∀ k, Unloaded ((s.tile t).munit k)) :
    (∀ k, Unloaded (((restoreUnit t u s).tile t).munit k)) ∧
      tileFrame ((restoreUnit t u s).tile t) = tileFrame (s.tile t) := by
  obtain ⟨g, hg, hset⟩ := restoreUnit_eq (h u)
  rw [hg, modUnit, tile_modTile_same]
  refine ⟨fun k => ?_, rfl⟩
  rw [munit_setUnit]
  split
  · exact hset
  · exact h k

theorem restoreUnits_unloaded {t : Nat} {s : State} (h : ∀ k, Unloaded ((s.tile t).munit k)) (us : List Nat) :
    tileFrame ((us.foldl (fun s u => restoreUnit t u s) s).tile t) = tileFrame (s.tile t) := by
  have hall : (∀ k, Unloaded (((us.foldl (fun s u => restoreUnit t u s) s).tile t).munit k)) ∧
      tileFrame ((us.foldl (fun s u => restoreUnit t u s) s).tile t) = tileFrame (s.tile t) :=
    List.foldlRecOn us _ (motive := fun w : State => (∀ k, Unloaded ((w.tile t).munit k)) ∧
      tileFrame (w.tile t) = tileFrame (s.tile t)) ⟨h, rfl⟩ fun w hw u _ => by
        obtain ⟨hun, hframe⟩ := restoreUnit_unloaded (u := u) hw.1
        exact ⟨hun, hframe.trans hw.2⟩
  exact hall.2

/-- The units that an image without units brings hold no load. -/
theorem unloaded_restored {im : Image} (hu : im.units = []) (x : Tile) (k : Nat) :
    Unloaded (Tab.get (fun _ => MUnit.reset) ((List.range 5).foldl (fun us u => Tab.set (fun _ => MUnit.reset) us u
      ((Tab.get (fun _ => MUnit.reset) im.units u).withGangs ((x.munit u).queue ++ (x.munit u).gangPend)))
      im.units) k) := by
  rw [hu]
  refine List.foldlRecOn (List.range 5) _ (motive := fun us => Unloaded (Tab.get (fun _ => MUnit.reset) us k))
    ⟨rfl, rfl⟩ fun us hus u _ => ?_
  rw [tab_get_set]
  split
  · exact unloaded_withGangs ⟨rfl, rfl⟩ _
  · exact hus

/-- An image without units is on its tile again. -/
theorem restoreImage_frame {t : Nat} {im : Image} (hu : im.units = []) (evt : BitVec 32) (s : State) :
    tileFrame ((restoreImage t im evt s).tile t) =
      (.running, some im.cx, some im.launch, { im.core with tevt := im.core.tevt ||| evt }) := by
  unfold restoreImage
  rw [restoreUnits_unloaded]
  · rw [tile_modTile_same]
    rfl
  · intro k
    rw [tile_modTile_same]
    exact unloaded_restored hu _ k

theorem swapInTile_ok {c t : Nat} {s : State} {d : List Byte}
    (hread : (devRead (whoUnit 0 0 (s.cxPart c)) (s.rf .CX_SWAP 51 16 c * 65536) (32768 + tsLen c s) 0x006 s).1 =
      .ok d) :
    ∃ n, swapInTile c 0 t s = (0, n) := by
  have ha : swapAddr c 0 s = s.rf .CX_SWAP 51 16 c * 65536 := by rw [swapAddr, Nat.zero_mul, Nat.add_zero]
  unfold swapInTile
  dsimp only
  rw [ha]
  generalize devRead _ _ _ _ s = r at *
  obtain ⟨e, n⟩ := r
  cases hread
  exact ⟨_, rfl⟩

/-- A context with one tile, whose image is read back, runs there again with CX_EVT merged. -/
theorem swapInDone_image {c : Nat} {t : Fin 128} {im : Image} {d : List Byte} {s : State} (hswap : (s.cx c).swap = 6)
    (htiles : s.cxTiles c = 1#128 <<< t.val) (himages : (s.cx c).images = [(t.val, im)]) (hu : im.units = [])
    (hawake : ∀ t, (s.tile t).cx = some c → s.dormant (domQuad t) = false)
    (hread : (devRead (whoUnit 0 0 (s.cxPart c)) (s.rf .CX_SWAP 51 16 c * 65536) (32768 + s.rf .CX_TS 21 16 c * 65536)
      0x006 (swappedIn c s)).1 = .ok d) :
    tileFrame ((swapInDone c s).tile t) = (.running, some im.cx, some im.launch,
        { im.core with tevt := im.core.tevt ||| (s.reg .CX_EVT c).setWidth 32 }) ∧
      (swapInDone c s).reg .CX_EVT c = 0 := by
  have hin : swapInDone c s = _ := if_neg (swapIn_goes hswap hawake)
  have hone : tilesOf ((swappedIn c s).cxTiles c) = [t.val] :=
    (congrArg tilesOf htiles).trans (tilesOf_single t)
  obtain ⟨n, hn⟩ := swapInTile_ok (c := c) (s := swappedIn c s) (t := t) hread
  have hdone : swapInDone c s =
      noteCx c ((restoreImage t im ((s.reg .CX_EVT c).setWidth 32) n).setReg .CX_EVT 0 c) := by
    change swapInDone c s = noteCx c (List.foldl _ (swappedIn c s) (tilesOf ((swappedIn c s).cxTiles c)).zipIdx) at hin
    rw [hin, hone, himages]
    simp only [List.zipIdx_singleton, List.foldl_cons, List.foldl_nil, hn, List.find?_singleton]
    rw [beq_self_eq_true]
    rfl
  have hframe := restoreImage_frame hu ((s.reg .CX_EVT c).setWidth 32) n (t := t)
  generalize restoreImage t im _ n = v at hdone hframe
  have hnote := noteCx_codes c (v.setReg .CX_EVT 0 c)
  rw [hdone]
  refine ⟨?_, ?_⟩
  · rw [State.tile, hnote.tiles]
    exact hframe
  · rw [State.reg, hnote.regs]
    exact reg_setReg_same v _ _ _ _

end Sys2Proof.Proofs
end

section
/-! PROOFS. A context that is resumed on another tile (13_partitions_and_scheduling.md R417). -/

namespace Sys2Proof.Proofs

open Sys2Proof Sys2Proof.Machine Sys2Proof.Laws

/-! ### The copy of a region -/

theorem stageKept_readCorrects {o s : State} (h : StageKept o s) (ws : List Nat) : StageKept o (readCorrects s ws) := by
  refine stageKept_foldl (fun u w hu => ?_) ws h
  split
  · dsimp only
    split
    · exact stageKept_correctWord (stageKept_countCorrected hu w) w
    · exact stageKept_countCorrected hu w
  · exact hu

theorem timeKept_readCorrects {o s : State} (h : TimeKept o s) (ws : List Nat) : TimeKept o (readCorrects s ws) := by
  refine timeKept_foldl (fun u w hu => ?_) ws h
  split
  · dsimp only
    split
    · exact timeKept_correctWord (timeKept_countCorrected hu w) w
    · exact timeKept_countCorrected hu w
  · exact hu

/-- A copy by the scheduler keeps the stage of every tile and the tiles that are enabled. -/
theorem copyRegion_kept (w : Who) (src dst len : Nat) (s : State) :
    StageKept s (copyRegion w src dst len s) ∧ TimeKept s (copyRegion w src dst len s) := by
  have hs := stageKept_foldl (o := s) (fun u b hu => stageKept_memErrRecord hu .uncorr w (b * 32) 0)
    (badWords src len s) (stageKept_refl s)
  have ht := timeKept_foldl (o := s) (fun u b hu => timeKept_memErrRecord hu .uncorr w (b * 32) 0) (badWords src len s)
    (timeKept_refl s)
  unfold copyRegion
  dsimp only
  generalize (badWords src len s).foldl (fun s b => memErrRecord .uncorr w (b * 32) 0 s) s = n at *
  have hsw := stageKept_devWrite (stageKept_readCorrects hs (wordsOf src len)) w dst (bytesAt src len n) 0
  have htw := timeKept_devWrite (timeKept_readCorrects ht (wordsOf src len)) w dst (bytesAt src len n) 0
  generalize devWrite w dst (bytesAt src len n) 0 (readCorrects n (wordsOf src len)) = r at *
  obtain ⟨e, v⟩ := r
  cases e with
  | some e => exact ⟨hsw, htw⟩
  | none =>
    exact ⟨stageKept_foldl (f := fun r b => r.setEcc (dst / 32 + (b - src / 32)) (n.eccOf b))
        (fun u b hu => stageKept_of_eq hu rfl rfl rfl) _ hsw,
      timeKept_foldl (f := fun r b => r.setEcc (dst / 32 + (b - src / 32)) (n.eccOf b))
        (fun u b hu => timeKept_of_eq hu rfl rfl) _ htw⟩

theorem enabled_timeKept {o s : State} (h : TimeKept o s) (t : Nat) : s.enabled t = o.enabled t := by
  unfold State.enabled State.enabledMap
  rw [timeKept_reg h (by decide), timeKept_reg h (by decide)]

/-! ### The restore on the other tile -/

theorem tiles_wakeDom (d : Nat) (s : State) : (wakeDom d s).tiles = s.tiles := by
  unfold wakeDom
  split <;> rfl

theorem tiles_wakeTile (t : Nat) (s : State) : (wakeTile t s).tiles = s.tiles := by
  unfold wakeTile
  split
  · rw [tiles_wakeDom, tiles_wakeDom]
  · rfl

theorem sched_wakeDom (d : Nat) (s : State) : (wakeDom d s).sched = s.sched := by
  unfold wakeDom
  split <;> rfl

theorem sched_wakeTile (t : Nat) (s : State) : (wakeTile t s).sched = s.sched := by
  unfold wakeTile
  split
  · rw [sched_wakeDom, sched_wakeDom]
  · rfl

/-- A free tile with a saved image, whose context is resident, restores it (R28, R417). -/
theorem serveTile_saved {t : Nat} {im : Image} {s : State} (hon : s.enabled t = true) (hfree : tileFree t s = true)
    (hw : (s.tile t).waiting = []) (hs : (s.tile t).saved = some im) (hswap : (s.cx im.cx).swap = 0) :
    serveTile t s = noteCx im.cx (startRestore t (s.modTile t fun x =>
      { x with cx := some im.cx, launch := some im.launch })) := by
  unfold serveTile
  rw [hon, hfree]
  dsimp only
  rw [hw, hs]
  dsimp only [List.filter_nil]
  exact (if_neg (by decide)).trans (if_pos (beq_iff_eq.mpr hswap))

/-- The state in which the context of tile `t`, whose region has been copied, waits on tile `u` to be restored. -/
def moved (im : Image) (since t u : Nat) (l : Launch) (n : State) : State :=
  ((sendersMove l.id t u (setLaunches [{ l with tiles := [⟨u, .running, [], none⟩] }] n)).modTile t fun y =>
    if y.saved.isSome then { y with saved := none } else { y with redeliver := y.redeliver.tail }).modTile u fun y =>
      { y with saved := some im, savedAt := since }

/-- The image saved on tile `t`, which is taken, is that of the one launch, and may move to the free tile `u` now
(R417). -/
structure Relocates (t u : Nat) (im : Image) (l : Launch) (s : State) : Prop where
  other  : t ≠ u
  saved  : (s.tile t).saved = some im
  only   : s.sched.launches = [l]
  id     : l.id = im.launch
  tiles  : l.tiles = [⟨t, .running, [], none⟩]
  reloc  : s.rb .CX_CTL 61 im.cx = true
  taken  : (s.tile t).cx.isSome = true
  past   : (s.tile t).savedAt + max 1 (s.rf .PART_CTL 31 16) * 1000 ≤ s.now
  ofSet  : inMask (s.cxTiles im.cx) u = true
  vacant : Vacant u s
  held   : s.holdsTile l.part u = true
  here   : (s.cx im.cx).swap = 0

theorem moved_keeps (im : Image) (since : Nat) {t u : Nat} (l : Launch) (n : State) (hne : t ≠ u) :
    ((moved im since t u l n).tile t).saved = none ∧
      (moved im since t u l n).tile u = { n.tile u with saved := some im, savedAt := since } ∧
      (moved im since t u l n).sched = (setLaunches [{ l with tiles := [⟨u, .running, [], none⟩] }] n).sched ∧
      (moved im since t u l n).enabled u = n.enabled u ∧ (∀ c, (moved im since t u l n).cx c = n.cx c) := by
  unfold moved
  refine ⟨?_, ?_, rfl, rfl, fun _ => rfl⟩
  · rw [tile_modTile_ne _ u t _ hne, tile_modTile_same]
    split
    next => rfl
    next h => exact Option.not_isSome_iff_eq_none.mp h
  · rw [tile_modTile_same, tile_modTile_ne _ t u _ (Ne.symm hne)]
    rfl

/-- When RESUME_US has passed a context saved on a tile that is taken moves to a free one (R417). -/
theorem relocate_moves {t u : Nat} {im : Image} {l : Launch} {s : State} (h : Relocates t u im l s) :
    relocate t u s = serveTile u (moved im (s.tile t).savedAt t u l
      (copyRegion (whoUnit 0 0 (s.cxPart im.cx)) (tsBase im.cx t s) (tsBase im.cx u s) (tsLen im.cx s) s)) := by
  obtain ⟨hne, hs, hl, hid, htiles, hreloc, htaken, hpast, hset, hv, hold, hswap⟩ := h
  have hlaunch : s.launch im.launch = some l := hid ▸ launch_only hl
  have hfree : tileFree t s = false := by
    unfold tileFree
    rw [Option.isNone_eq_false_iff.mpr htaken, Bool.and_false]
  have hpart : l.part? u = none := by rw [part_only htiles, if_neg hne]
  have hreserved : reservedTile u s = false := by
    unfold reservedTile
    rw [hl]
    simp [hpart]
  have hplace : mayPlace l u s = true := by
    unfold mayPlace
    rw [hold]
    rfl
  have hbusy : ∀ y ∈ cxLaunches im.cx s, y.part? u = none := by
    intro y hy
    have hy := (List.mem_filter.mp hy).1
    rw [hl, List.mem_singleton] at hy
    rw [hy, hpart]
  obtain ⟨hw, hsu, hr⟩ := hv.wait
  have hkept := (copyRegion_kept (whoUnit 0 0 (s.cxPart im.cx)) (tsBase im.cx t s) (tsBase im.cx u s)
    (tsLen im.cx s) s).1
  unfold relocate
  dsimp only
  rw [hs]
  dsimp only
  rw [hlaunch]
  refine (if_neg ?_).trans ?_
  · simp +contextual [hne, hreloc, hfree, Nat.not_lt.mpr hpast, hset, hv.on, tileFree_of_vacant hv, hbusy, hreserved,
      hplace, hsu, hw, hswap]
  · generalize copyRegion _ _ _ _ s = n at *
    have hmod := modPart_only (hkept.launches.trans hl) htiles rfl fun y => { y with tile := u }
    rw [← hid, hmod]
    rfl

theorem startRestore_keeps (t : Nat) (s : State) :
    ((startRestore t s).tile t).saved = (s.tile t).saved ∧ ((startRestore t s).tile t).run = .restoring ∧
      ((startRestore t s).tile t).cx = (s.tile t).cx ∧ (∀ k, k ≠ t → (startRestore t s).tile k = s.tile k) ∧
      (startRestore t s).sched = s.sched := by
  have htile (k : Nat) : (wakeTile t s).tile k = s.tile k := by rw [State.tile, tiles_wakeTile]; rfl
  unfold startRestore modUnits
  rw [tile_modTile_same, tile_modTile_same, htile]
  refine ⟨rfl, rfl, rfl, fun k hk => ?_, sched_wakeTile t s⟩
  rw [tile_modTile_ne _ t k _ hk, tile_modTile_ne _ t k _ hk, htile]

/-- What the restore of a saved image on a free tile leaves at its start. -/
theorem serveTile_restores {t : Nat} {im : Image} {s : State} (hon : s.enabled t = true) (hfree : tileFree t s = true)
    (hw : (s.tile t).waiting = []) (hs : (s.tile t).saved = some im) (hswap : (s.cx im.cx).swap = 0) :
    ((serveTile t s).tile t).saved = some im ∧ ((serveTile t s).tile t).run = .restoring ∧
      ((serveTile t s).tile t).cx = some im.cx ∧ (∀ k, k ≠ t → (serveTile t s).tile k = s.tile k) ∧
      (serveTile t s).sched.launches = s.sched.launches := by
  rw [serveTile_saved hon hfree hw hs hswap]
  obtain ⟨hsaved, hrun, hcx, hothers, hsched⟩ := startRestore_keeps t (s.modTile t fun x =>
    { x with cx := some im.cx, launch := some im.launch })
  rw [tile_modTile_same] at hsaved hcx
  generalize startRestore t (s.modTile t _) = n at *
  have hnote := noteCx_codes im.cx n
  have htile (k : Nat) : (noteCx im.cx n).tile k = n.tile k := by rw [State.tile, hnote.tiles]; rfl
  refine ⟨?_, ?_, ?_, fun k hk => ?_, ?_⟩
  · rw [htile, hsaved, hs]
  · rw [htile, hrun]
  · rw [htile, hcx]
  · rw [htile, hothers k hk, tile_modTile_ne s t k _ hk]
  · rw [hnote.launches, hsched]
    rfl

/-- The relocated context is on its way onto the free tile. -/
theorem relocate_restores {t u : Nat} {im : Image} {l : Launch} {s : State} (h : Relocates t u im l s) :
    ((relocate t u s).tile t).saved = none ∧ ((relocate t u s).tile u).saved = some im ∧
      ((relocate t u s).tile u).run = .restoring ∧ ((relocate t u s).tile u).cx = some im.cx ∧
      (relocate t u s).sched.launches.map (·.tiles) = [[⟨u, .running, [], none⟩]] := by
  rw [relocate_moves h]
  obtain ⟨hkept, htime⟩ := copyRegion_kept (whoUnit 0 0 (s.cxPart im.cx)) (tsBase im.cx t s) (tsBase im.cx u s)
    (tsLen im.cx s) s
  generalize copyRegion _ _ _ _ s = n at *
  obtain ⟨hsaved, hother, hlaunches, hon, hcxs⟩ := moved_keeps im (s.tile t).savedAt l n h.other
  generalize moved im (s.tile t).savedAt t u l n = m at *
  have hrun : (m.tile u).run = .idle := (congrArg Tile.run hother).trans ((hkept.run u).trans h.vacant.run)
  have hcx : (m.tile u).cx = none := (congrArg Tile.cx hother).trans ((hkept.tileCx u).trans h.vacant.cx)
  have hwait : (m.tile u).waiting = [] := (congrArg Tile.waiting hother).trans ((hkept.waiting u).trans h.vacant.wait.1)
  have hfree : tileFree u m = true := by
    unfold tileFree
    rw [hrun, hcx]
    rfl
  obtain ⟨hsu, hrestoring, hcxu, hothers, hsched⟩ := serveTile_restores
    (hon.trans ((enabled_timeKept htime u).trans h.vacant.on)) hfree hwait (congrArg Tile.saved hother) (by rw [hcxs, hkept.cx, h.here])
  refine ⟨?_, hsu, hrestoring, hcxu, ?_⟩
  · rw [hothers t h.other, hsaved]
  · rw [hsched, hlaunches]
    rfl

end Sys2Proof.Proofs
end

section
/-! PROOFS. The statement about launches, ring indices, swaps and relocation (13_partitions_and_scheduling.md R407 to
R419). -/

namespace Sys2Proof.Proofs

open Sys2Proof Sys2Proof.Machine Sys2Proof.Laws

theorem exec_launch_first {d : Delivery} {rest : List Delivery} {s : State} (hd : s.deliveries = d :: rest)
    (ha : d.action = 2) : exec .launch s = .next (launchBell d { s with deliveries := rest }) := by
  have htake : takeDelivery 2 s.deliveries = some (d, rest) := by
    rw [hd, ← ha]
    exact takeDelivery_first (bs := []) (fun x hx => absurd hx List.not_mem_nil)
      (fun x hx => absurd hx List.not_mem_nil) rest
  exact congrArg Host.Outcome.next (withDelivery_some htake _)

theorem cxTailOk_iff (size : Nat) {old head new : Nat} (ho : old < 65536) (hh : head < 65536) :
    cxTailOk size old head new = true ↔ (new + 65536 - old) % 65536 < 32768 ∧
      ((new + 65536 - head) % 65536 ≤ size ∨ 32768 ≤ (new + 65536 - head) % 65536) := by
  rw [cxTailOk, idxDiff_of_lt _ ho, idxDiff_of_lt _ hh, decide_eq_true_iff]

theorem headOk_iff {old tail new : Nat} (ho : old < 65536) :
    headOk old tail new = true ↔ (new + 65536 - old) % 65536 ≤ (tail + 65536 - old) % 65536 := by
  rw [headOk, idxDiff_of_lt _ ho, idxDiff_of_lt _ ho, decide_eq_true_iff]

theorem relocate_none {t u : Nat} {s : State} (hs : (s.tile t).saved = none) (hr : (s.tile t).redeliver = []) :
    relocate t u s = s := by
  unfold relocate
  dsimp only
  rw [hs, hr]
  rfl

/-- Settles O44: the launches by `placeOn_starts` on the one launch, the swaps and the relocation step by step. -/
theorem launchesStartAndContextsSwap : Obligations.LaunchesStartAndContextsSwap := by
  unfold Obligations.LaunchesStartAndContextsSwap
  intro s
  refine ⟨?bell, ?ring, ?indices, ?swaps, ?moves, ?still⟩
  case bell =>
    intro d rest t ws r c l hd ha hmask hp hread hcx htile hdecl hstop hswap hv hnone
    exact ⟨_, exec_launch_first hd ha, launchBell_starts hmask hp hread hcx htile hdecl hstop hswap hv hnone⟩
  case ring =>
    intro l t hl hbell htiles hn hp hstart hv hold hquiet hcx
    exact ⟨_, rfl, dispatch_starts ⟨hl, hbell, htiles, hquiet, fun c => (hcx c).1⟩ (fun c => (hcx c).2) hn hp hstart hv
      hold⟩
  case indices =>
    intro ag c v mine size dist new tail head
    have hmine : mayCx ag c s = true ↔ mine := mayCx_iff ag c s
    have htail := cxTailOk_iff size (new := new) (rf_index_lt s .CX_LQ_TAIL c) (rf_index_lt s .CX_CQ_HEAD c)
    have hhead := headOk_iff (new := new) (tail := s.rf .CX_CQ_TAIL 15 0 c) (rf_index_lt s .CX_CQ_HEAD c)
    have hlow : fld v 15 0 = new := fld_low16 v
    refine ⟨fun h => ?_, ?_⟩
    · have hno : mayCx ag c s = false := Bool.eq_false_iff.mpr (mt hmine.mp h)
      exact ⟨congrArg Host.Outcome.next (cxTailWrite_refused hno v),
        congrArg Host.Outcome.next (cxHeadWrite_refused hno v)⟩
    · intro takes
      refine ⟨fun h ht => ?_, fun h ht => ?_, fun h ht hrec => ?_, fun h ht => ?_⟩
      · refine congrArg Host.Outcome.next ((cxTailWrite_allowed (hmine.mpr h) v).trans (hlow.symm ▸ if_pos ?_))
        exact htail.mpr ht
      · refine congrArg Host.Outcome.next ((cxTailWrite_allowed (hmine.mpr h) v).trans (hlow.symm ▸ if_neg ?_))
        exact mt htail.mp ht
      · refine congrArg Host.Outcome.next
          ((cxHeadWrite_allowed (hmine.mpr h) v).trans (hlow.symm ▸ (if_pos ?_).trans ?_))
        · exact hhead.mpr ht
        · exact flushRecords_none (s := s.putReg .CX_CQ_HEAD 15 0 new c) hrec 64
      · refine congrArg Host.Outcome.next ((cxHeadWrite_allowed (hmine.mpr h) v).trans (hlow.symm ▸ if_neg ?_))
        exact mt hhead.mp ht
  case swaps =>
    intro c
    refine ⟨fun h => congrArg Host.Outcome.next (swapOutDone_other h), fun h hb => ⟨_, rfl, swapOutDone_swapped h hb⟩,
      fun h => congrArg Host.Outcome.next (swapInDone_other h), fun h htiles hawake => ?_,
      fun t im d h htiles him hu hawake hread => ?_⟩
    · have hnote := noteCx_codes c (swappedIn c s)
      have hcx : (swappedIn c s).cx c = { s.cx c with swap := 0, stored := false, images := [], waite := 0 } :=
        cx_modCx_same ..
      refine ⟨_, congrArg Host.Outcome.next (swapInDone_noTile h htiles hawake),
        (hnote.swap c).trans (congrArg Cx.swap hcx), (hnote.stored c).trans (congrArg Cx.stored hcx),
        (hnote.images c).trans (congrArg Cx.images hcx), ?_, hnote.mem, hnote.tiles⟩
      rw [State.reg, hnote.regs]
      rfl
    · obtain ⟨hframe, hreg⟩ := swapInDone_image h htiles him hu hawake hread
      rw [tileFrame, Prod.mk.injEq, Prod.mk.injEq, Prod.mk.injEq] at hframe
      obtain ⟨hrun, hcx, hlaunch, hcore⟩ := hframe
      exact ⟨_, rfl, hrun, hcx, hlaunch, hreg, hcore⟩
  case moves =>
    intro t dest im l hne hs hl hid htiles hreloc htaken hpast hset hv hold hswap
    exact ⟨_, rfl, relocate_restores
      ⟨fun e => hne (Fin.ext e), hs, hl, hid, htiles, hreloc, htaken, hpast, hset, hv, hold, hswap⟩⟩
  case still => exact fun t dest hs hr => congrArg Host.Outcome.next (relocate_none hs hr)

end Sys2Proof.Proofs
end

section
/-! PROOFS. Gang operations on a member tile, from the descriptor to the completion bits, and the flags of a unit
(05_matrix_arrays.md R163 to R166, R172). -/

namespace Sys2Proof.Proofs

open Sys2Proof Sys2Proof.Machine Sys2Proof.Laws

/-! ### The operations of a descriptor (R163) -/

theorem isMill_iff (t : Nat) : isMill t = true ↔ t % 8 = 0 := by
  rw [isMill, Bool.or_eq_true, beq_iff_eq, beq_iff_eq]
  omega

theorem mem_gangUnits {t u : Nat} {w0 : Word} : u ∈ gangUnits t w0 ↔
    (u < 4 ∧ w0.getLsbD (60 + u) = true) ∨ (u = 4 ∧ w0.getLsbD 59 = true ∧ t % 8 = 0) := by
  rw [gangUnits, List.mem_append, List.mem_filter, List.mem_range, bit_eq_getLsbD, bit_eq_getLsbD,
    ← isMill_iff t, ← Bool.and_eq_true (w0.getLsbD 59)]
  refine or_congr_right ?_
  split
  next h => rw [List.mem_singleton, and_iff_left h]
  next h => exact iff_of_false List.not_mem_nil fun hu => h hu.2

theorem gangUnits_nodup (t : Nat) (w0 : Word) : (gangUnits t w0).Nodup := by
  refine List.nodup_append.mpr ⟨List.nodup_range.filter _, ?_, fun u hu v hv => ?_⟩
  · split
    · exact List.nodup_cons.mpr ⟨List.not_mem_nil, List.nodup_nil⟩
    · exact List.nodup_nil
  · have hlt : u < 4 := List.mem_range.mp (List.mem_filter.mp hu).1
    have hfour : v = 4 := by
      split at hv
      · exact List.mem_singleton.mp hv
      · cases hv
    omega

/-- An operation of gang operation `id`: a stream where `str`, else a load. -/
def OfGang (id : Nat) (str : Bool) (o : MatOp) : Prop := o.str = str ∧ o.gang = some id ∧ o.tag = none

/-- KIND says which operations a descriptor stands for: the load, the stream, or the one before the other. -/
theorem gangOps_by_kind (t u id : Nat) {ws : List Word} (h : fld (wordAt ws 0) 58 57 ≠ 3) :
    (fld (wordAt ws 0) 58 57 = 0 ∧ ∃ a, gangOps t u id ws = [a] ∧ OfGang id false a) ∨
    (fld (wordAt ws 0) 58 57 = 1 ∧ ∃ a, gangOps t u id ws = [a] ∧ OfGang id true a) ∨
    (fld (wordAt ws 0) 58 57 = 2 ∧ ∃ a b, gangOps t u id ws = [a, b] ∧ OfGang id false a ∧ OfGang id true b) := by
  have hlt : fld (wordAt ws 0) 58 57 < 4 := fld_lt _ 58 57
  have hkind : fld (wordAt ws 0) 58 57 = 0 ∨ fld (wordAt ws 0) 58 57 = 1 ∨ fld (wordAt ws 0) 58 57 = 2 := by omega
  unfold gangOps
  dsimp only
  rcases hkind with hk | hk | hk <;> rw [hk]
  · exact .inl ⟨rfl, _, rfl, rfl, rfl, rfl⟩
  · exact .inr (.inl ⟨rfl, _, rfl, rfl, rfl, rfl⟩)
  · exact .inr (.inr ⟨rfl, _, _, rfl, ⟨rfl, rfl, rfl⟩, ⟨rfl, rfl, rfl⟩⟩)

/-! ### What a unit takes (R165) -/

/-- A unit takes operations in turn; the first of them is late where `late` holds. -/
def takeInTurn (late : Bool) (ops : List MatOp) (m : MUnit) : List MatOp × MUnit :=
  ops.foldl (fun acc o =>
    let x := acc.2.take o
    (acc.1 ++ [{ x.1 with late := late && acc.1.isEmpty }], x.2)) ([], m)

/-- Something is before a gang operation that reaches the unit now. -/
def unitOccupied (m : MUnit) : Bool := !m.queue.isEmpty || !m.gangPend.isEmpty

/-- Unit `u` with the operations of a descriptor behind its queue. -/
def gangTaken (t u id : Nat) (ws : List Word) (m : MUnit) : MUnit :=
  let r := takeInTurn (unitOccupied m) (gangOps t u id ws) m
  { r.2 with
    gangPend := m.gangPend ++ r.1
    st := if m.st = .idle ∨ m.st = .rampDown then .rampUp else m.st }

theorem gangEnqueue_eq (t id : Nat) (ws : List Word) (us : List Nat) (s : State) :
    gangEnqueue t id ws us s = us.foldl (fun s u => modUnit t u (gangTaken t u id ws) s) s := rfl

theorem ofGang_take {id : Nat} {str : Bool} {o : MatOp} (h : OfGang id str o) (m : MUnit) (late : Bool) :
    OfGang id str { (m.take o).1 with late := late } := by
  unfold MUnit.take
  split
  · exact h
  · split <;> exact h

theorem queue_take (m : MUnit) (o : MatOp) : (m.take o).2.queue = m.queue := by
  unfold MUnit.take
  split
  · rfl
  · split <;> rfl

/-- The operations `os` of gang operation `id` stand for a descriptor of this KIND, the first late where `late` holds. -/
structure QueuedGang (kind id : Nat) (late : Bool) (os : List MatOp) : Prop where
  kinds  : os.map (·.str) = if kind = 0 then [false] else if kind = 1 then [true] else [false, true]
  member : ∀ o ∈ os, o.gang = some id ∧ o.tag = none
  first  : (os.map (·.late)).head? = some late
  rest   : ∀ o ∈ os.tail, o.late = false

theorem queuedGang_one {kind id : Nat} {late str : Bool} {a : MatOp} (ha : OfGang id str a) (hl : a.late = late)
    (hk : (if kind = 0 then [false] else if kind = 1 then [true] else [false, true]) = [str]) :
    QueuedGang kind id late [a] where
  kinds := by rw [hk, ← ha.1]; rfl
  member := List.forall_mem_singleton.mpr ha.2
  first := congrArg some hl
  rest := fun _ ho => absurd ho List.not_mem_nil

theorem queuedGang_two {id : Nat} {late : Bool} {a b : MatOp} (ha : OfGang id false a) (hb : OfGang id true b)
    (hl : a.late = late) (hlb : b.late = false) : QueuedGang 2 id late [a, b] where
  kinds := by
    change [a.str, b.str] = [false, true]
    rw [ha.1, hb.1]
  member := List.forall_mem_cons.mpr ⟨ha.2, List.forall_mem_singleton.mpr hb.2⟩
  first := congrArg some hl
  rest := List.forall_mem_singleton.mpr hlb

/-- What a unit takes stands for the descriptor, and its queue stays. -/
theorem takeInTurn_queued (t u id : Nat) {ws : List Word} (h : fld (wordAt ws 0) 58 57 ≠ 3) (late : Bool) (m : MUnit) :
    QueuedGang (fld (wordAt ws 0) 58 57) id late (takeInTurn late (gangOps t u id ws) m).1 ∧
      (takeInTurn late (gangOps t u id ws) m).2.queue = m.queue := by
  rcases gangOps_by_kind t u id h with ⟨hk, a, hops, ha⟩ | ⟨hk, a, hops, ha⟩ | ⟨hk, a, b, hops, ha, hb⟩ <;>
    rw [hk, hops]
  · exact ⟨queuedGang_one (ofGang_take ha m _) (Bool.and_true late) rfl, queue_take m a⟩
  · exact ⟨queuedGang_one (ofGang_take ha m _) (Bool.and_true late) rfl, queue_take m a⟩
  · exact ⟨queuedGang_two (ofGang_take ha m _) (ofGang_take hb _ _) (Bool.and_true late) (Bool.and_false late),
      (queue_take _ b).trans (queue_take m a)⟩

/-! ### Changes of several units of a tile -/

/-- From `s` to `n` units of tile `t` have changed, and nothing beside the tiles. -/
structure UnitsMoved (t : Nat) (s n : State) : Prop where
  core   : n.core t = s.core t
  gangs  : (n.tile t).gangs = (s.tile t).gangs
  others : n.deliveries = s.deliveries ∧ n.mem = s.mem ∧ n.regs = s.regs

theorem unitsMoved_foldl (t : Nat) (f : Nat → MUnit → MUnit) (us : List Nat) (s : State) :
    UnitsMoved t s (us.foldl (fun s u => modUnit t u (f u) s) s) := by
  refine List.foldlRecOn us _ (motive := UnitsMoved t s) ⟨rfl, rfl, rfl, rfl, rfl⟩ fun n hn u _ => ?_
  refine ⟨(core_modUnit t u (f u) n).trans hn.core, ?_, hn.others⟩
  rw [modUnit, tile_modTile_same]
  exact hn.gangs

theorem munit_modUnit (t u k : Nat) (f : MUnit → MUnit) (s : State) :
    ((modUnit t u f s).tile t).munit k = if k = u then f ((s.tile t).munit u) else (s.tile t).munit k := by
  rw [modUnit, tile_modTile_same, munit_setUnit]

/-- Each unit of a list without repeats changes once. -/
theorem munit_foldl_modUnit {us : List Nat} (hus : us.Nodup) (t k : Nat) (f : Nat → MUnit → MUnit) (s : State) :
    ((us.foldl (fun s u => modUnit t u (f u) s) s).tile t).munit k =
      if k ∈ us then f k ((s.tile t).munit k) else (s.tile t).munit k := by
  induction us generalizing s with
  | nil => rfl
  | cons u us ih =>
    obtain ⟨hu, hnodup⟩ := List.nodup_cons.mp hus
    rw [List.foldl_cons, ih hnodup, munit_modUnit]
    by_cases hk : k = u
    · subst hk
      simp [hu]
    · simp [hk]

/-! ### GANG_START on a member (R65, R164, R165) -/

/-- A GANG_START alone on its way reaches its one awake tile. -/
theorem exec_gangStart_one {t : Fin 128} {d : Delivery} {s : State} (hd : s.deliveries = [d]) (ha : d.action = 3)
    (hm : d.mask = 1#128 <<< t.val) (hawake : s.dormant (domQuad t) = false) (hrun : (s.tile t).run ≠ .halted) :
    exec .gangStart s = .next (gangMember d t { s with deliveries := [] }) := by
  have htake : takeDelivery 3 s.deliveries = some (d, []) := by
    rw [hd, ← ha]
    exact takeDelivery_first (bs := []) (fun x hx => absurd hx List.not_mem_nil)
      (fun x hx => absurd hx List.not_mem_nil) []
  refine congrArg Host.Outcome.next ((withDelivery_some htake _).trans ?_)
  rw [hm, tilesOf_single]
  refine (if_neg hrun).trans (congrArg (gangMember d t) ?_)
  exact wakeTile_awake (s := { s with deliveries := [] }) hawake

/-- The descriptor of index `arg` for tile `t` (R163). -/
def gangDescAt (t arg : Nat) (s : State) : Nat := s.rf .TILE_GANG_BASE 51 6 t * 64 + arg * 64

/-- Tile `t` has a new gang operation with the bits of descriptor word `w0`. -/
def gangListed (t owner : Nat) (w0 : Word) (s : State) : State :=
  s.modTile t fun x => { x with
    gangNext := (s.tile t).gangNext + 1
    gangs := x.gangs ++ [⟨(s.tile t).gangNext, false, fld w0 52 48, fld w0 47 43, owner⟩] }

section
variable {t o : Nat} {d : Delivery} {s : State} {ws : List Word}

/-- A readable, valid descriptor is taken. -/
theorem gangMember_accepts (harg : d.arg < 4096) (hspace : spaceOf (gangDescAt t d.arg s) = .hamlet (t / 16) o)
    (hecc : ∀ i < 64, s.eccAt ((gangDescAt t d.arg s + i) / 32) = .clean)
    (hws : leWords (bytesAt (gangDescAt t d.arg s) 64 s) = ws) (hkind : fld (wordAt ws 0) 58 57 ≠ 3)
    (hres : gangReserved ws = false) (hok : ∀ u ∈ gangUnits t (wordAt ws 0), gangUnitOk t u ws s = true) :
    gangMember d t s = gangEnqueue t (s.tile t).gangNext ws (gangUnits t (wordAt ws 0))
      (gangListed t d.owner (wordAt ws 0) s) := by
  have hclean := wordsOf_clean hecc
  have hbad : badWords (gangDescAt t d.arg s) 64 s = [] :=
    List.filter_eq_nil_iff.mpr fun w hw => by rw [eccNow_clean (hclean w hw)]; decide
  have hunits : (gangUnits t (wordAt ws 0)).any (fun u => !gangUnitOk t u ws s) = false :=
    List.any_eq_false.mpr fun u hu => by rw [hok u hu]; decide
  have hread := readCorrects_clean hclean
  unfold gangDescAt at hspace hws hbad hread
  unfold gangMember
  dsimp only
  rw [if_neg (Nat.not_le.mpr harg), hspace, hbad, hws, hres, hunits, decide_eq_false hkind, hread]
  exact if_neg (by simp)

/-- What a taken descriptor leaves. -/
theorem gangEnqueue_listed (id : Nat) (hkind : fld (wordAt ws 0) 58 57 ≠ 3) (owner : Nat) :
    let n := gangEnqueue t id ws (gangUnits t (wordAt ws 0)) (gangListed t owner (wordAt ws 0) s)
    UnitsMoved t (gangListed t owner (wordAt ws 0) s) n ∧
      (∀ u ∈ gangUnits t (wordAt ws 0), ∃ os,
        ((n.tile t).munit u).gangPend = ((s.tile t).munit u).gangPend ++ os ∧
        QueuedGang (fld (wordAt ws 0) 58 57) id (unitOccupied ((s.tile t).munit u)) os ∧
        ((n.tile t).munit u).queue = ((s.tile t).munit u).queue) ∧
      ∀ u, u ∉ gangUnits t (wordAt ws 0) → (n.tile t).munit u = (s.tile t).munit u := by
  have hlisted (k : Nat) : ((gangListed t owner (wordAt ws 0) s).tile t).munit k = (s.tile t).munit k := by
    rw [gangListed, tile_modTile_same]
    rfl
  have hunit (k : Nat) := munit_foldl_modUnit (gangUnits_nodup t (wordAt ws 0)) t k (fun u => gangTaken t u id ws)
    (gangListed t owner (wordAt ws 0) s)
  rw [gangEnqueue_eq]
  intro n
  refine ⟨unitsMoved_foldl t _ _ _, fun u hu => ?_, fun u hu => ?_⟩
  · obtain ⟨hos, hqueue⟩ := takeInTurn_queued t u id hkind (unitOccupied ((s.tile t).munit u)) ((s.tile t).munit u)
    have hn : (n.tile t).munit u = gangTaken t u id ws ((s.tile t).munit u) := by
      rw [← hlisted u]
      exact (hunit u).trans (if_pos hu)
    rw [hn]
    exact ⟨_, rfl, hos, hqueue⟩
  · exact ((hunit u).trans (if_neg hu)).trans (hlisted u)

end

/-! ### A refused descriptor (R164) -/

/-- From `s` to `n` one tile has changed, or bits of one register have been raised, or nothing has. -/
def EvtEffect (s n : State) : Prop :=
  n = s ∨ (∃ k f, n = s.modTile k f) ∨ ∃ r i w, n = s.setReg r (s.reg r i ||| w) i

theorem evtSaved_effect (t : Nat) (bits : BitVec 32) (s : State) : EvtEffect s (evtSaved t bits s) := by
  unfold evtSaved
  split
  · exact .inl rfl
  · split
    · exact .inr (.inr ⟨_, _, _, rfl⟩)
    · exact .inr (.inl ⟨_, _, rfl⟩)

theorem evtOn_effect (t c : Nat) (bits : BitVec 32) (s : State) : EvtEffect s (evtOn t c bits s) := by
  unfold evtOn
  split
  · exact .inr (.inr ⟨_, _, _, rfl⟩)
  · split
    · exact evtSaved_effect t bits s
    · exact .inr (.inl ⟨_, _, rfl⟩)

theorem evtOff_effect (p t : Nat) (bits : BitVec 32) (s : State) : EvtEffect s (evtOff p t bits s) := by
  unfold evtOff
  split <;> exact .inr (.inr ⟨_, _, _, rfl⟩)

/-- All that an action that sets event bits can do (R408). -/
theorem deliverEvt_effect (p t : Nat) (bits : BitVec 32) (s : State) : EvtEffect s (deliverEvt p t bits s) := by
  have hnone (saved : Bool) : EvtEffect s (if saved then evtSaved t bits s else evtOff p t bits s) := by
    cases saved
    · exact evtOff_effect p t bits s
    · exact evtSaved_effect t bits s
  unfold deliverEvt
  split
  · exact .inr (.inl ⟨_, _, rfl⟩)
  · dsimp only
    split
    · split
      · exact evtOn_effect t _ bits s
      · exact hnone _
    · exact hnone _

theorem rb_raised {s : State} {q r : RegName} {b i j x y : Nat} (w : Word) (h : s.rb r b i j = true) :
    (s.setReg q (s.reg q x y ||| w) x y).rb r b i j = true := by
  rw [State.rb, reg_setReg]
  split
  next haddr =>
    have hold : s.reg q x y = s.reg r i j := by rw [State.reg, State.reg, haddr]
    rw [State.rb, bit_eq_getLsbD] at h
    rw [hold, bit_eq_getLsbD, BitVec.getLsbD_or, h, Bool.true_or]
  next => exact h

theorem deliverEvt_rb (p t : Nat) (bits : BitVec 32) {s : State} {r : RegName} {b i j : Nat} (h : s.rb r b i j = true) :
    (deliverEvt p t bits s).rb r b i j = true := by
  rcases deliverEvt_effect p t bits s with hs | ⟨k, f, hs⟩ | ⟨q, x, w, hs⟩ <;> rw [hs]
  · exact h
  · exact h
  · exact rb_raised w h

theorem deliverEvt_mem_deliveries (p t : Nat) (bits : BitVec 32) (s : State) :
    (deliverEvt p t bits s).mem = s.mem ∧ (deliverEvt p t bits s).deliveries = s.deliveries := by
  rcases deliverEvt_effect p t bits s with hs | ⟨k, f, hs⟩ | ⟨q, x, w, hs⟩ <;> rw [hs] <;> exact ⟨rfl, rfl⟩

theorem rb_flag_same (s : State) (r : RegName) {b : Nat} (hb : b < 64) (i j : Nat) :
    (s.flag r b i j).rb r b i j = true := by
  rw [State.rb, State.flag, reg_setReg_same, bit_setBit _ _ _ hb, decide_eq_true rfl, Bool.true_or]

/-- The flag shows in every unit of a list. -/
theorem rb_foldl_flag {r : RegName} {b : Nat} (hb : b < 64) (t : Nat) (us : List Nat) (s : State) {u : Nat}
    (h : u ∈ us ∨ s.rb r b t u = true) : (us.foldl (fun s u => s.flag r b t u) s).rb r b t u = true := by
  induction us generalizing s with
  | nil => exact h.resolve_left List.not_mem_nil
  | cons k us ih =>
    refine ih _ ?_
    rcases h with h | h
    · rcases List.mem_cons.mp h with rfl | h
      · exact .inr (rb_flag_same s r hb t u)
      · exact .inl h
    · exact .inr (rb_raised _ h)

theorem foldl_flag_regs (r : RegName) (b t : Nat) (us : List Nat) (s : State) :
    ∃ regs : Tab Word, us.foldl (fun s u => s.flag r b t u) s = { s with regs := regs } := by
  refine List.foldlRecOn us _ (motive := fun n => ∃ regs : Tab Word, n = { s with regs := regs }) ⟨_, rfl⟩
    fun n hn u _ => ?_
  obtain ⟨regs, rfl⟩ := hn
  exact ⟨_, rfl⟩

/-- A refusal shows in the named units and sets ERR_BIT; it queues nothing. -/
theorem gangBad_shows (t owner errBit : Nat) (us : List Nat) (s : State) :
    let n := gangBad t owner errBit us s
    n.deliveries = s.deliveries ∧ n.mem = s.mem ∧ (∀ u ∈ us, n.rb .TILE_ARR_ERR 5 t u = true) ∧
      (n.tile t).gangs = (s.tile t).gangs ∧ (n.tile t).units = (s.tile t).units := by
  have hflag : ∀ u ∈ us, (us.foldl (fun s u => s.flag .TILE_ARR_ERR 5 t u) s).rb .TILE_ARR_ERR 5 t u = true :=
    fun u hu => rb_foldl_flag (by decide) t us s (.inl hu)
  obtain ⟨regs, hregs⟩ := foldl_flag_regs .TILE_ARR_ERR 5 t us s
  unfold gangBad
  rw [hregs] at hflag ⊢
  obtain ⟨hmem, hdel⟩ := deliverEvt_mem_deliveries owner t (1#32 <<< errBit) { s with regs := regs }
  have hstage := (stageKept_deliverEvt (stageKept_refl { s with regs := regs }) owner t (1#32 <<< errBit)).tiles t
  have hgangs := congrArg Tile.gangs hstage
  have hunits := congrArg Tile.units hstage
  exact ⟨hdel, hmem, fun u hu => deliverEvt_rb _ _ _ (hflag u hu), hgangs, hunits⟩

theorem gangMember_beyond {t : Nat} {d : Delivery} (s : State) (h : 4096 ≤ d.arg) :
    gangMember d t s = gangBad t d.owner (fld s.open 4 0) (List.range 4 ++ if isMill t then [4] else []) s.used :=
  if_pos h

/-! ### Completion (R166) -/

theorem exec_gangComplete_oldest {t : Fin 128} {g : GangRun} {gs : List GangRun} {s : State}
    (hg : (s.tile t).gangs = g :: gs) (hops : ∀ o ∈ (s.tile t).matOps, o.gang ≠ some g.id)
    (hids : ∀ h ∈ gs, h.id ≠ g.id) :
    exec (.gangComplete t) s = .next (deliverEvt g.owner t
      ((1#32 <<< g.doneBit) ||| (if g.failed then 1#32 <<< g.errBit else 0))
      (s.modTile t fun x => { x with gangs := gs })) := by
  have hfind : (s.tile t).gangs.find? (fun g => !(s.tile t).matOps.any fun o => o.gang == some g.id) = some g := by
    rw [hg]
    refine List.find?_cons_of_pos ?_
    simpa using hops
  have hothers : (s.tile t).gangs.filter (fun h => h.id != g.id) = gs := by
    rw [hg, List.filter_cons_of_neg (by simp), List.filter_eq_self]
    simpa using hids
  refine congrArg Host.Outcome.next ?_
  dsimp only
  rw [hfind]
  refine congrArg (deliverEvt g.owner t _) (congrArg (s.setTile t) ?_)
  dsimp only
  rw [hothers]

theorem exec_gangComplete_none {t : Fin 128} {s : State} (h : (s.tile t).gangs = []) :
    exec (.gangComplete t) s = .next s := by
  refine congrArg Host.Outcome.next ?_
  rw [h]
  rfl

/-! ### The flags of a unit (R172) -/

theorem written_tileArrErr (e v : Word) : RegDesc.written (RegName.desc .TILE_ARR_ERR) e v = e &&& ~~~ (v &&& 0x3F) := by
  simp [RegDesc.written, RegName.desc, accessMask, fmask, and_everyBit]

theorem putFld_noFirstRow (e : Word) : putFld e 63 48 0 = e &&& 0xFFFFFFFFFFFF := by
  have hplace : place 63 48 0 = 0#64 := by decide
  have hmask : ~~~ fmask 63 48 = 0xFFFFFFFFFFFF := by decide
  rw [putFld, hplace, hmask, BitVec.or_zero]

/-- The bits of CHK_COL, CHK_ROW and RESIDUE. -/
theorem getLsbD_checks : ∀ i : Fin 64, (0x13 : Word).getLsbD i = decide (i.val = 0 ∨ i.val = 1 ∨ i.val = 4) := by decide

theorem checks_written_iff (v : Word) : (bit v 0 && bit v 1 && bit v 4) = true ↔ v &&& 0x13 = 0x13 := by
  rw [bit_eq_getLsbD, bit_eq_getLsbD, bit_eq_getLsbD, Bool.and_eq_true, Bool.and_eq_true]
  constructor
  · rintro ⟨⟨h0, h1⟩, h4⟩
    refine BitVec.eq_of_getLsbD_eq fun i hi => ?_
    rw [BitVec.getLsbD_and, getLsbD_checks ⟨i, hi⟩]
    by_cases hc : i = 0 ∨ i = 1 ∨ i = 4
    · rcases hc with rfl | rfl | rfl <;> simp [h0, h1, h4]
    · simp [hc]
  · intro h
    have hbit (i : Nat) (hi : (0x13 : Word).getLsbD i = true) : v.getLsbD i = true := by
      rw [← h, BitVec.getLsbD_and, Bool.and_eq_true] at hi
      exact hi.1
    exact ⟨⟨hbit 0 rfl, hbit 1 rfl⟩, hbit 4 rfl⟩

/-- A second write to a register replaces the first. -/
theorem setReg_setReg (s : State) (r : RegName) (v w : Word) (i j : Nat) :
    (s.setReg r v i j).setReg r w i j = s.setReg r w i j :=
  congrArg (fun regs => { s with regs := regs }) (tab_set_set ..)

theorem arrErrWrite_eq (t u : Nat) (v : Word) (s : State) :
    let e' := s.reg .TILE_ARR_ERR t u &&& ~~~ (v &&& 0x3F)
    arrErrWrite t u v s = if s.enabled t = true ∧ (u < 4 ∨ t % 8 = 0) then
      s.setReg .TILE_ARR_ERR (if v &&& 0x13 = 0x13 then e' &&& 0xFFFFFFFFFFFF else e') t u else s := by
  intro e'
  have hunit : hasUnit t u = true ↔ u < 4 ∨ t % 8 = 0 := by
    rw [hasUnit, Bool.or_eq_true, decide_eq_true_iff, isMill_iff]
  have hw : s.writePlain .TILE_ARR_ERR v t u = s.setReg .TILE_ARR_ERR e' t u := by
    rw [State.writePlain, written_tileArrErr]
  unfold arrErrWrite
  rw [hw]
  by_cases hwrites : s.enabled t = true ∧ hasUnit t u = true
  · rw [if_neg (by simp [hwrites]), if_pos (hwrites.imp_right hunit.mp)]
    dsimp only
    by_cases hall : v &&& 0x13 = 0x13
    · rw [if_pos hall, if_pos ((checks_written_iff v).mpr hall), State.putReg, reg_setReg_same, putFld_noFirstRow,
        setReg_setReg]
    · rw [if_neg hall, if_neg (mt (checks_written_iff v).mp hall)]
  · rw [if_neg (mt (And.imp_right hunit.mpr) hwrites)]
    refine if_pos ?_
    rw [← Bool.not_and, Bool.not_eq_true', Bool.eq_false_iff, ne_eq, Bool.and_eq_true]
    exact fun h => hwrites h.symm

/-! ### The statement -/

/-- Settles O33: a descriptor is taken by `gangMember_accepts` or shown bad, an operation ends by its number, and the
flags are written as their access type says. -/
theorem gangOperationsRunAndSignal : Obligations.GangOperationsRunAndSignal := by
  unfold Obligations.GangOperationsRunAndSignal
  refine ⟨?start, fun t g gs s => exec_gangComplete_oldest, fun t s => exec_gangComplete_none,
    fun t u v s => congrArg Host.Outcome.next (arrErrWrite_eq t u v s)⟩
  intro t d s hd haction hmask hawake hrun a ws w0 us id
  have hexec := exec_gangStart_one hd haction hmask hawake hrun
  refine ⟨fun harg hspace hecc hkind hres hok => ?_, fun harg => ?_⟩
  · obtain ⟨o, hspace⟩ := hspace
    have haccept : gangMember d t { s with deliveries := [] } = _ :=
      gangMember_accepts (s := { s with deliveries := [] }) (ws := ws) harg hspace hecc rfl hkind hres hok
    obtain ⟨hmoved, hunits, hothers⟩ := gangEnqueue_listed (t := t) (s := { s with deliveries := [] }) id hkind d.owner
    rw [haccept] at hexec
    obtain ⟨hcore, hgangs, hdel, hmem, hregs⟩ := hmoved
    refine ⟨_, hexec, hdel, hmem, hregs, hgangs.trans ?_, hcore.trans ?_, fun u => mem_gangUnits, fun u hu => ?_,
      hothers⟩
    · rw [gangListed, tile_modTile_same]
      rfl
    · rw [State.core, gangListed, tile_modTile_same]
      rfl
    · obtain ⟨os, hpend, ⟨hkinds, hmember, hfirst, hrest⟩, hqueue⟩ := hunits u hu
      exact ⟨os, hpend, hkinds, hmember, hfirst.trans (congrArg some (Bool.not_and _ _).symm), hrest, hqueue⟩
  · rw [gangMember_beyond _ harg] at hexec
    obtain ⟨hdel, hmem, hflags, hgangs, hunits⟩ := gangBad_shows t d.owner
      (fld ({ s with deliveries := [] } : State).open 4 0) (List.range 4 ++ if isMill t then [4] else [])
      ({ s with deliveries := [] } : State).used
    exact ⟨_, hexec, hdel, hmem, fun u hu => hflags u (List.mem_append_left _ (List.mem_range.mpr hu)), hgangs, hunits⟩

end Sys2Proof.Proofs
end
